-- ==== Sys2Proof/Word.lean ====
section
/-! DEFINITION. The word types of the XV9 model (R5-R7): bytes and the register widths of the BAR0 maps. -/
namespace Sys2Proof

/-- A byte, the smallest addressable unit of every address space of the part. -/
abbrev Byte := BitVec 8
/-- A 16-bit record or register field. -/
abbrev W16 := BitVec 16
/-- A 32-bit BAR0 register. -/
abbrev W32 := BitVec 32
/-- A 64-bit BAR0 register. -/
abbrev W64 := BitVec 64

end Sys2Proof
end

