-- ==== Sys2Proof/Syntax.lean ====
section
/-! DEFINITION. The commands of the block: one constructor per row of the opcode table, with the row's operands. A host command
row acts on the command at the front of the host interface's fetched queue; an action row names the partition and the agent
whose next record it issues; an event row names where the event falls. -/
namespace Sys2Proof

/-- Whom a message of firmware names (R432): one agent, every agent of one kind of Table 03-1 within one partition, or every agent. -/
inductive Named where
  | agent (a : Nat)
  | kind (k p : Nat)
  | every
  deriving DecidableEq, Repr

/-- Where a flit ends (R42, R48, R328): at a core, a stream engine, an edge link of a router (R51), or at the agents that firmware's message
names (R432). -/
inductive FlitTo where
  | core (c : Nat)
  | stream (e : Nat)
  | edge (router link : Nat)
  | message (who : Named)
  deriving DecidableEq, Repr

/-- What the check codes of a flit find (R517): nothing, an error corrected, an error in its payload, or one in its header. -/
inductive FlitFault where
  | none
  | corrected
  | payload
  | header
  deriving DecidableEq, Repr

/-- A flit at a router (R40, R46): whose traffic it is and who sent it, the input at which it stands, where it goes, the bridge channel of
its row that the forme names, and the router outputs of the tree along which a multicast flit is replicated, none for a flit of one
destination. Its 144 bytes are a header and a payload, which may carry the origin of its poison (R519). -/
structure Flit where
  partition : Nat
  source : Nat
  input : Nat
  target : FlitTo
  bridge : Nat
  tree : List (Nat × Nat)
  header : List Byte
  payload : List Byte
  poison : Nat
  fault : FlitFault
  deriving DecidableEq, Repr

/-- One byte that host software has stored in host memory before an access of the part. -/
abbrev HostStore := Nat × Byte

/-- How one codeword of a frame arrived (R359, R368): what the channel has added to its 544 symbols, as places with the difference. -/
structure Codeword where
  noise : List (Nat × BitVec 10)
  deriving DecidableEq, Repr

/-- Symbols of a codeword that arrived wrong. -/
def Codeword.wrong (w : Codeword) : Nat :=
  ((List.range 544).filter (fun i => w.noise.foldl (fun d e => if e.1 = i then d ^^^ e.2 else d) (0 : BitVec 10) != 0)).length
/-- RS(544,514) corrects up to 15 wrong symbols. DESIGN CHOICE (log entry 69): more of them are never taken for another codeword. -/
def Codeword.decodes (w : Codeword) : Bool := decide (w.wrong ≤ 15)

/-- A newly faulty HBM4 lane that lane training found (Table 10-9), with the spare lane that takes its place, none if it is beyond
repair. -/
structure LaneFault where
  stack : Nat
  channel : Nat
  lane : Nat
  spare : Option Nat
  deriving DecidableEq, Repr

/-- What the islands report when a domain is to be released (R458): the domains whose islands have locked, and what lane training found. -/
structure LockReport where
  locked : List Nat
  faults : List LaneFault
  deriving DecidableEq, Repr

/-- A host memory request to BAR2 (R399): a read, or a write whose TLP is poisoned or not (R520). -/
inductive Bar2Req where
  | read
  | write (poisoned : Bool)
  deriving DecidableEq, Repr

/-- A selection of a target's read offset on the sideband, and the length of the private read that follows (R550). -/
structure I3cRead where
  offset : Nat
  count : Nat
  deriving DecidableEq, Repr

/-- The protected words and blocks in which an error can be met (Table 17-1): a word of core memory by core and offset, a galley, a word of
near-memory SRAM, of an activation store or of a staging slot, of a stream engine's staging and pipe buffers, of the link receive buffer of a
message by its number, a device block, control memory or the event sequencer's buffer. -/
inductive Protected where
  | core (c off : Nat)
  | galley (c g : Nat)
  | sram (e off : Nat)
  | store (die off : Nat)
  | staging (port slot off : Nat)
  | stream (engine word : Nat)
  | receive (port message word : Nat)
  | dev (addr : Nat)
  | control
  deriving DecidableEq, Repr

/-- The blocks, beside stacks and board channels, that Table 17-4 marks as not removable. -/
inductive FixedBlock where
  | controlComplex
  | spine (die : Nat)
  | ioDie (die : Nat)
  | hostInterface
  | meter
  deriving DecidableEq, Repr

/-- A fault of a part-wide block in service (R323, R517, R527): a board channel that fails training again, an HBM4 transfer that still fails
after its retries, an error that a read meets, or the failure of another block that cannot be removed. -/
inductive MemFault where
  | board (channel : Nat)
  | transfer (channel : Nat)
  | error (where' : Protected) (corrected : Bool)
  | block (failed : FixedBlock)
  deriving DecidableEq, Repr

/-- A short attestation request of the DOE mailbox: IDE_GO with its key set, or one that is no request of Table 17-8, an unknown OP or a known one
of the wrong length (R535). -/
inductive DoeRequest where
  | ideGo (keyset : Nat)
  | malformed (op : Nat)
  deriving DecidableEq, Repr

/-- How the write of a ledger record came out (R500, R510): verified, failed, or its COMMIT still to be written. -/
inductive LedgerWrite where
  | verified
  | failed
  | started
  deriving DecidableEq, Repr

/-- What the training of the stacks and of board memory found (R300, R322). -/
inductive MemTraining where
  | good (density ranks : Nat) (faults : List LaneFault)
  | boardFailed (channel : Nat)
  | boardUnsupported
  deriving DecidableEq, Repr

/-- What a renewal's self-test found in one field (Table 15-9): faulty quad sites, and SRAM faults repaired or not. -/
structure FieldTest where
  field : Nat
  badSites : List Nat
  rowRepairs : List Nat
  sramLost : Bool
  stopped : Bool
  deriving DecidableEq, Repr

inductive Instr where
  -- host commands (chapter 13)
  | nop | abort | serviceEnter | serviceLeave | regRead | regWrite
  | layout (fetched : Bool) | load (fetched : Bool) | unload | enable | switch | resumeContinue | resumeAbandon
  | alloc | release | map | unmap
  | copy | copyComplete (stamp : Nat) | exportCmd | exportComplete (stamp : Nat)
  | cacheSet | cacheGive | cacheJoin | cacheLeave | power | powerComplete (unlocked : List Nat) (faults : List LaneFault)
  | switchServiceStart | startBroadcast
  -- control actions (chapter 03)
  | formeNop (p a : Nat) | loop (p a : Nat) | endloop (p a : Nat) | rendezvous (p a : Nat) | fill (p a : Nat)
  | endfill (p a : Nat) | stepMark (p a : Nat) | endProg (p a : Nat)
  -- matrix actions (chapter 05)
  | mma (p a : Nat) | drain (p a : Nat) | combine (p a : Nat)
  -- vector actions (chapter 06)
  | elem (p a : Nat) | fma (p a : Nat) | func1 (p a : Nat) | convert (p a : Nat) | rowred (p a : Nat)
  | softmax (p a : Nat) | softmaxRec (p a : Nat) | softmaxBwd (p a : Nat) | rmsnorm (p a : Nat) | layernorm (p a : Nat)
  | rmsnormBwd (p a : Nat) | layernormBwd (p a : Nat) | colred (p a : Nat) | join (p a : Nat) | split (p a : Nat)
  -- stream actions (chapter 11)
  | streamCopy (p a : Nat) | park (p a : Nat) | unpark (p a : Nat)
  -- update-engine and attention actions (chapters 08 and 09)
  | rclear (p a : Nat) | sumsq (p a : Nat) | update (p a : Nat) | digest (p a : Nat) | attend (p a : Nat) | merge (p a : Nat)
  -- link actions (chapter 12)
  | send (p a : Nat) | recv (p a : Nat) | collective (p a : Nat)
  -- events of a running forme
  | actionComplete (p a r : Nat) | linkActionComplete (p a r : Nat) | deadlineReached (p tok : Nat) | slotLimit (p : Nat)
  | freezeBoundary (p : Nat) | partitionFrozen (p : Nat) | streamDueReached (e : Nat) | thaw (p : Nat)
  | rendezvousRelease (p : Nat) | watchdogExpiry (p : Nat) | fillItemStart (p : Nat) | fillOverrun (p : Nat)
  | runComplete (p : Nat) | graceExpiry (p : Nat)
  | digestReceived (p part step layer shard digest : Nat) | digestMissing (p part : Nat)
  -- spine, weirs, reservoir
  | spineFlit (router out : Nat) (flit : Flit) | weirRequest (w o bytes agent action : Nat) | accumulateWrite (engine : Nat)
  -- links
  | frameTransmit (port : Nat) | frameReceive (port : Nat) (words : List Codeword) (content : List Byte)
  | timeSteer | portEnable (port : Nat) | portDisable (port : Nat) | retrain (port : Nat) | loopback (port mode : Nat)
  | laneTrainDone (port mask : Nat) | laneTrainTimeout (port : Nat) | widthExchange (port peerMask : Nat)
  | identExchange (port serial peerPort peerPart : Nat) | portFault (port cause : Nat)
  | lnkCtrlWrite (v : W32) | lnkSelfWrite (v : W32) | lnkTorusWrite (v : W32)
  -- host interface
  | pollPass (stores : List HostStore) | pollSleep (stores : List HostStore) | nudge | msixSend (ring : Nat) | hifEnable
  | hifDisable | hostLinkReset | hostLinkDegraded (rate width : Nat) | busMasterEnable | d3hotEntry | d0Return
  | bar2Access (req : Bar2Req) (offset : Nat) (data : List Byte)
  -- registers
  | registerWrite (offset width : Nat) (v : W64) | memStatusRead | hifStatusRead | pwrStatusRead | secStatusRead | esLostRead
  | trapClear (core : Nat) | numStepWrite (offset : Nat) (v : W32) | memWeirWrite (w o : Nat) (v : W32)
  | memLevelWrite (v : W32) | memHostWindowWrite (v : W32) | cntClear (index : Nat)
  | ccReplicaWrite (p : Nat) (v : W64) (stores : List HostStore) | eventsLost
  -- security
  | getKeys | getReport (nonce : List Byte) (flags : Nat) | ideKey (keyset : Nat) (ciphertext : List Byte)
  | ideGo (request : DoeRequest) | ideStop | ideCheckFail
  -- reset and bring-up
  | powerOnReset | powerOnResetEnd | resetNFall (scope : Bool) | resetNRise (bootSrc : Bool) | domainRelease (found : LockReport) | lockTimeout
  | testEnHigh | bootGo (fetched : Bool) (stores : List HostStore) | bootRelayRequest (port : Nat) | imageVerify
  | memoryTrainingDone (found : MemTraining) | linkTrainEnd | topoGo (fetched : Bool) (stores : List HostStore)
  | renewGo (v : W32) | renewComplete (found : List FieldTest)
  -- power, thermal, meter
  | thermalSample (sensor : Nat) (reading : BitVec 16) | tripShutdown | inhibitBegin | inhibitEnd
  | meterSample (mainMv mainMa auxMv auxMa : Nat) (checkOk : Bool) | pulseEnd | intervalClose (write : LedgerWrite)
  -- sideband, fuses, test
  | i3cOffsetSelect (meter : Bool) (read : I3cRead) | arbAdvance (target : Nat) | nmeTest (v : W32) | nmeTestDone (passed : Bool)
  | extest | samplePreload | idcode | extestPulse | extestTrain | clamp | highz | bypass
  | boardChannelFailed (fault : MemFault) | arbAdvanceDone | tapReset
  deriving DecidableEq, Repr

end Sys2Proof
end

