-- ==== Sys2Proof/Decode.lean ====
section
/-! DEFINITION. No row of the table gives bits: the commands of the block have no encoding, so no word spells one. -/
namespace Sys2Proof

/-- The command a word of the table's bits spells: none, since no row has bits. -/
def decodeTableWord (_nbits _w : Nat) : Option Instr := none

end Sys2Proof
end

