-- ==== Sys2Proof/Machine/Bits.lean ====
section
/-! DEFINITION. Bit fields (R5), little-endian records (R6) and sparse tables: the plain-data helpers of every layer. -/
namespace Sys2Proof.Machine

open Sys2Proof

/-- Field `[hi:lo]` of a number, both ends included (R5). -/
def bits (x hi lo : Nat) : Nat := (x >>> lo) % 2 ^ (hi + 1 - lo)

/-- Bit `i` of a number. -/
def bit (x i : Nat) : Bool := x.testBit i

/-- A flag as a number. -/
def b2n (b : Bool) : Nat := if b then 1 else 0

/-- `x` with bits `[hi:lo]` replaced by `v`. -/
def setBits (x hi lo v : Nat) : Nat :=
  let w := hi + 1 - lo
  (x >>> (hi + 1)) * 2 ^ (hi + 1) + (v % 2 ^ w) * 2 ^ lo + x % 2 ^ lo

/-- `x` with bit `i` set to `b`. -/
def putBit (x i : Nat) (b : Bool) : Nat := setBits x i i (b2n b)

/-- Ceiling of a quotient. -/
def cdiv (a b : Nat) : Nat := (a + b - 1) / b

/-- The number spelled by bytes, least significant byte first (R6). -/
def leNat : List Byte → Nat
  | [] => 0
  | b :: bs => b.toNat + 256 * leNat bs

/-- The `n` low bytes of a number, least significant byte first (R6). -/
def leBytes : Nat → Nat → List Byte
  | 0, _ => []
  | n + 1, x => BitVec.ofNat 8 x :: leBytes n (x / 256)

/-- The little-endian field of `size` bytes at `off` of a record; bytes past its end read as zero. -/
def fld (r : List Byte) (off size : Nat) : Nat := leNat ((r.drop off).take size)

/-- Byte `off` of a record. -/
def byteAt (r : List Byte) (off : Nat) : Nat := fld r off 1

/-- Whether every byte of a reserved range of a record is zero. -/
def zeroAt (r : List Byte) (off size : Nat) : Bool := fld r off size == 0

/-- The two's complement integer held in the low `w` bits. -/
def toSigned (w x : Nat) : Int := if x % 2 ^ w < 2 ^ (w - 1) then (x % 2 ^ w : Nat) else (x % 2 ^ w : Nat) - (2 ^ w : Nat)

/-- The `w`-bit two's complement code of an integer. -/
def ofSigned (w : Nat) (x : Int) : Nat := (x % (2 ^ w : Nat)).toNat

/-- Clamp of an integer. -/
def clampInt (lo hi x : Int) : Int := if x < lo then lo else if hi < x then hi else x

/-- A sparse table: (key, value) pairs with rising keys and no entry equal to the default. -/
abbrev Tab (α : Type) := List (Nat × α)

/-- The value of a key, `d` where the table lists none. -/
def tget {α : Type} (d : α) : Tab α → Nat → α
  | [], _ => d
  | (k', v) :: t, k => if k = k' then v else tget d t k

/-- The table with an entry for key `k`, in its place by key. -/
def tput {α : Type} : Tab α → Nat → α → Tab α
  | [], k, v => [(k, v)]
  | (k', v') :: t, k, v =>
    if k < k' then (k, v) :: (k', v') :: t else if k = k' then (k, v) :: t else (k', v') :: tput t k v

/-- The table with key `k` holding `v`; a default value removes the entry. The laws of `tget` and `tset` need no premise. -/
def tset {α : Type} [DecidableEq α] (d : α) (t : Tab α) (k : Nat) (v : α) : Tab α :=
  if v = d then t.filter (fun e => e.1 != k) else tput t k v

/-- `tset` over the value of a function of the old value. -/
def tmod {α : Type} [DecidableEq α] (d : α) (t : Tab α) (k : Nat) (f : α → α) : Tab α := tset d t k (f (tget d t k))

/-- Removes every key of `[lo, lo + n)`. -/
def tclear {α : Type} (t : Tab α) (lo n : Nat) : Tab α := t.filter (fun e => !(lo ≤ e.1 && e.1 < lo + n))

/-- The bytes at `[a, a + n)`; an unlisted byte reads as zero. -/
def readBytes (m : Tab Byte) (a : Nat) : Nat → List Byte
  | 0 => []
  | n + 1 => tget 0 m a :: readBytes m (a + 1) n

/-- Bytes stored from address `a` upwards. -/
def writeBytes (m : Tab Byte) (a : Nat) : List Byte → Tab Byte
  | [] => m
  | b :: bs => writeBytes (tset 0 m a b) (a + 1) bs

/-- The canonical form of a table: keys strictly rising, no entry equal to the default. -/
def Tab.wf {α : Type} [DecidableEq α] (d : α) : Tab α → Bool
  | [] => true
  | [(_, v)] => decide (v ≠ d)
  | (k, v) :: (k', v') :: t => decide (v ≠ d) && decide (k < k') && Tab.wf d ((k', v') :: t)

/-- The canonical form of a byte memory. -/
def Memory.wf (m : Tab Byte) : Bool := Tab.wf (0 : Byte) m

/-- Sum of a list of naturals. -/
def sumNat (l : List Nat) : Nat := l.foldl (· + ·) 0

/-- First element that satisfies a test. -/
def lookupBy {α : Type} (p : α → Bool) : List α → Option α
  | [] => none
  | x :: xs => if p x then some x else lookupBy p xs

/-- Replaces the element at an index. -/
def setAt {α : Type} (l : List α) (i : Nat) (v : α) : List α := l.set i v

/-- Modifies the element at an index. -/
def modAt {α : Type} (l : List α) (i : Nat) (f : α → α) : List α := l.modify i f

/-- The numbers 0 to n − 1. -/
def upTo (n : Nat) : List Nat := List.range n

/-- One step of a reflected-free (MSB-first) CRC over a byte, width `w`, generator `poly`. -/
def crcBit (w poly crc : Nat) : Nat :=
  let s := (crc <<< 1) % 2 ^ w
  if crc.testBit (w - 1) then s ^^^ poly else s

/-- Eight bit steps of a CRC. -/
def crcByte (w poly crc : Nat) (b : Byte) : Nat :=
  let f := crcBit w poly
  let c := crc ^^^ (b.toNat <<< (w - 8))
  f (f (f (f (f (f (f (f c)))))))

/-- The CRC of a byte list, most significant bit first, from an initial value. -/
def crc (w poly init : Nat) (bs : List Byte) : Nat := bs.foldl (crcByte w poly) init

/-- CRC-64/ECMA-182: polynomial 0x42F0E1EBA9EA3693, initial value 0, no reflection, no final inversion. -/
def crc64 (bs : List Byte) : Nat := crc 64 0x42F0E1EBA9EA3693 0 bs

end Sys2Proof.Machine
end

