-- ==== Sys2Proof/Machine/Flags.lean ====
section
/-! DEFINITION. The four sticky flags of an arithmetic engine (R157, Table 05-15). -/
namespace Sys2Proof.Machine

/-- A flag set: bit 0 OVERFLOW, bit 1 UNDERFLOW, bit 2 INEXACT, bit 3 INVALID (Table 05-15). -/
abbrev Flags := BitVec 4

def Flags.none : Flags := 0
def Flags.ovf : Flags := 1
def Flags.unf : Flags := 2
def Flags.inex : Flags := 4
def Flags.inval : Flags := 8
/-- Overflow with inexact. -/
def Flags.ovfInex : Flags := 5
/-- Underflow with inexact. -/
def Flags.unfInex : Flags := 6

/-- The flag INEXACT when a value changed. -/
def Flags.inexIf (b : Bool) : Flags := if b then Flags.inex else Flags.none

/-- Sticky accumulation: a flag once set is never cleared by the engine (R157). -/
def Flags.accrue (old new : Flags) : Flags := old ||| new

end Sys2Proof.Machine
end

