-- ==== Sys2Proof/Machine/Num.lean ====
section
/-! DEFINITION. Number formats (chapter 04): codes, layouts, decode, rounding, output conversion, MX blocks, scales. -/
namespace Sys2Proof.Machine

open Sys2Proof

/-- A decoded value: NaN, an infinity with its sign, or the exact value `(-1)^neg * m * 2^e`; `m = 0` is a signed zero.
It is the internal form of R112 with the significand held exactly. -/
inductive Num where
  | nan
  | inf (neg : Bool)
  | fin (neg : Bool) (m : Nat) (e : Int)
  deriving DecidableEq, Repr

namespace Num

def zero : Num := .fin false 0 0
def one : Num := .fin false 1 0

def isNan : Num → Bool
  | .nan => true
  | _ => false

def isZero : Num → Bool
  | .fin _ 0 _ => true
  | _ => false

def isFin : Num → Bool
  | .fin _ _ _ => true
  | _ => false

/-- Sign bit; a NaN carries none (R115). -/
def sign : Num → Bool
  | .nan => false
  | .inf n => n
  | .fin n _ _ => n

/-- Sign change; a NaN stays canonical (R172). -/
def neg : Num → Num
  | .nan => .nan
  | .inf n => .inf (!n)
  | .fin n m e => .fin (!n) m e

/-- Sign cleared (R172). -/
def abs : Num → Num
  | .nan => .nan
  | .inf _ => .inf false
  | .fin _ m e => .fin false m e

/-- Scaling by `2^s`. -/
def scale (s : Int) : Num → Num
  | .fin n m e => .fin n m (e + s)
  | x => x

/-- floor(log2 |x|) of a finite non-zero value. -/
def expo (m : Nat) (e : Int) : Int := (Nat.log2 m : Nat) + e

end Num

/-- Comparison of `m1 * 2^e1` with `m2 * 2^e2`. -/
def magLe (m1 : Nat) (e1 : Int) (m2 : Nat) (e2 : Int) : Bool :=
  if e1 ≤ e2 then m1 ≤ m2 <<< (e2 - e1).toNat else m1 <<< (e1 - e2).toNat ≤ m2

/-- The signed integer of a finite value in units of `2^q` (`q` at or below its exponent). -/
def toUnits (q : Int) (neg : Bool) (m : Nat) (e : Int) : Int :=
  let v : Int := (m <<< (e - q).toNat : Nat)
  if neg then -v else v

/-- The exact sum of two finite values; the sign of an exact zero is decided by the caller. -/
def addExact (n1 : Bool) (m1 : Nat) (e1 : Int) (n2 : Bool) (m2 : Nat) (e2 : Int) : Num :=
  let q := if m1 = 0 then e2 else if m2 = 0 then e1 else if e1 ≤ e2 then e1 else e2
  let s := (if m1 = 0 then 0 else toUnits q n1 m1 e1) + (if m2 = 0 then 0 else toUnits q n2 m2 e2)
  if s = 0 then .fin (n1 && n2) 0 0 else .fin (s < 0) s.natAbs q

/-- `m * 2^e` rounded to a multiple of `2^q`, ties to the even multiple (R119): the multiple, and whether it changed. -/
def rne (m : Nat) (e q : Int) : Nat × Bool :=
  if q ≤ e then (m <<< (e - q).toNat, false)
  else
    let k := (q - e).toNat
    let t := m >>> k
    let r := m % 2 ^ k
    let h := 2 ^ (k - 1)
    let up := r > h || (r = h && t % 2 = 1)
    (if up then t + 1 else t, r != 0)

/-- What an output format delivers for a finite value above its largest finite value (Table 04-5). -/
inductive OnOver where
  | toInf        -- infinity, overflow and inexact
  | saturate     -- largest finite, overflow and inexact
  | clampMx      -- largest finite, inexact only
  deriving DecidableEq, Repr

/-- A floating-point layout (Tables 04-2 and 04-3). -/
structure FpFmt where
  mb : Nat            -- fraction bits
  eb : Nat            -- exponent bits
  bias : Nat
  emax : Int          -- exponent of the largest finite value
  maxFrac : Nat       -- fraction field of the largest finite value
  gradual : Bool      -- exponent-zero codes have a value (E3M2, E2M3, E2M1)
  hasInf : Bool
  hasNan : Bool
  nanCode : Nat       -- Table 04-6
  deriving DecidableEq, Repr

def fp32F : FpFmt := ⟨23, 8, 127, 127, 0x7FFFFF, false, true, true, 0x7FC00000⟩
def bf16F : FpFmt := ⟨7, 8, 127, 127, 0x7F, false, true, true, 0x7FC0⟩
def fp16F : FpFmt := ⟨10, 5, 15, 15, 0x3FF, false, true, true, 0x7E00⟩
def wf48F : FpFmt := ⟨39, 8, 127, 127, 0x7FFFFFFFFF, false, true, true, 0x7FC000000000⟩
def e4m3F : FpFmt := ⟨3, 4, 7, 8, 6, false, false, true, 0x7F⟩
def e5m2F : FpFmt := ⟨2, 5, 15, 15, 3, false, true, true, 0x7E⟩
def e3m2F : FpFmt := ⟨2, 3, 3, 4, 3, true, false, false, 0⟩
def e2m3F : FpFmt := ⟨3, 2, 1, 2, 7, true, false, false, 0⟩
def e2m1F : FpFmt := ⟨1, 2, 1, 2, 1, true, false, false, 0⟩

/-- Code of a value, packed from its fields. -/
def FpFmt.pack (f : FpFmt) (neg : Bool) (E M : Nat) : Nat := b2n neg <<< (f.eb + f.mb) ||| (E <<< f.mb) ||| M

/-- Decoding of a code under an unbiased scale exponent `s` (R102, R113-R115). -/
def FpFmt.decode (f : FpFmt) (s : Int) (c : Nat) : Num :=
  let neg := bit c (f.eb + f.mb)
  let E := bits c (f.eb + f.mb - 1) f.mb
  let M := bits c (f.mb - 1) 0
  let top := 2 ^ f.eb - 1
  if E = 0 then
    if f.gradual then .fin neg M (if M = 0 then 0 else 1 - (f.bias : Int) - f.mb + s) else .fin neg 0 0
  else if f.hasNan && E = top && (if f.hasInf then M ≠ 0 else M = 2 ^ f.mb - 1) then .nan
  else if f.hasInf && E = top then .inf neg
  else .fin neg (2 ^ f.mb + M) ((E : Int) - f.bias - f.mb + s)

/-- The result of rounding a finite value to a format: its code and the flags raised (R119-R121). -/
def FpFmt.encodeFin (f : FpFmt) (onOver : OnOver) (neg : Bool) (m : Nat) (e : Int) : Nat × Flags :=
  if m = 0 then (f.pack neg 0 0, Flags.none)
  else
    let l0 := Num.expo m e
    let emin : Int := 1 - f.bias
    let q := if f.gradual && l0 < emin then emin - f.mb else l0 - f.mb
    let (n, ix) := rne m e q
    let l : Int := if n = 0 then emin - 1 else Num.expo n q
    if n = 0 then (f.pack neg 0 0, Flags.unfInex)
    else if l < emin && !f.gradual then (f.pack neg 0 0, Flags.unfInex)
    else if l < emin then (f.pack neg 0 n, Flags.inexIf ix)
    else
      let frac := (n <<< (f.mb + 1)) >>> (Nat.log2 n + 1) - 2 ^ f.mb
      if l > f.emax || (l = f.emax && frac > f.maxFrac) then
        match onOver with
        | .toInf => (f.pack neg (2 ^ f.eb - 1) 0, Flags.ovfInex)
        | .saturate => (f.pack neg (f.emax + f.bias).toNat f.maxFrac, Flags.ovfInex)
        | .clampMx => (f.pack neg (f.emax + f.bias).toNat f.maxFrac, Flags.inex)
      else (f.pack neg (l + f.bias).toNat frac, Flags.inexIf ix)

/-- Conversion of any value to an unblocked format (Table 04-5, middle columns). -/
def FpFmt.encode (f : FpFmt) (x : Num) : Nat × Flags :=
  match x with
  | .nan => (f.nanCode, Flags.none)
  | .inf n => if f.hasInf then (f.pack n (2 ^ f.eb - 1) 0, Flags.none) else (f.nanCode, Flags.inval)
  | .fin n m e => f.encodeFin (if f.hasInf then .toInf else .saturate) n m e

/-- The FP32 code of a value that is already an FP32 value, or its rounding. -/
def fp32Code (x : Num) : Nat := (fp32F.encode x).1

/-- Decoding of an FP32 word. -/
def fp32 (c : Nat) : Num := fp32F.decode 0 c

/-- A finite value rounded to FP32 to nearest even, with its range (R146). -/
def roundFp (f : FpFmt) (x : Num) : Num × Flags :=
  let r := f.encode x
  (f.decode 0 r.1, r.2)

/-! ## Format codes (Table 04-1) -/

/-- Element width in bits of a format code; 0 for a reserved code. -/
def fmtBits (c : Nat) : Nat :=
  match c with
  | 0 => 32 | 1 => 16 | 2 => 16 | 3 => 8 | 4 => 8 | 5 => 8 | 6 => 8 | 7 => 6 | 8 => 6 | 9 => 4 | 10 => 48
  | 11 => 16 | 12 => 8 | _ => 0

/-- The layout of a format code. -/
def fmtLayout (c : Nat) : Option FpFmt :=
  match c with
  | 0 => some fp32F | 1 => some bf16F | 2 => some fp16F | 3 => some e4m3F | 4 => some e5m2F | 5 => some e4m3F
  | 6 => some e5m2F | 7 => some e3m2F | 8 => some e2m3F | 9 => some e2m1F | 10 => some wf48F | _ => none

/-- Formats of product operands (R111). -/
def isProductFmt (c : Nat) : Bool := c ≤ 9
/-- MX formats. -/
def isMx (c : Nat) : Bool := 5 ≤ c && c ≤ 9
/-- FP8 formats that may carry a per-tensor scale. -/
def isFp8 (c : Nat) : Bool := c == 3 || c == 4

/-- EMAX of R123 and R128. -/
def fmtEmax (c : Nat) : Int :=
  match c with
  | 3 => 8 | 4 => 15 | 5 => 8 | 6 => 15 | 7 => 4 | 8 => 2 | 9 => 2 | _ => 0

/-- The scale exponent of an E8M0 code, none for the NaN code (R103). -/
def e8m0 (x : Nat) : Option Int := if x = 0xFF then none else some ((x : Int) - 127)

/-- An element code under an E8M0 scale code: a scale of 0xFF decodes every element as NaN (R104, R125). -/
def decodeScaled (f : FpFmt) (sc : Nat) (c : Nat) : Num :=
  match e8m0 sc with
  | none => .nan
  | some s => f.decode s c

/-- Element `i` of densely packed elements of `w` bits (R106). -/
def packedElem (w : Nat) (bs : List Byte) (i : Nat) : Nat :=
  let lo := i * w
  bits (fld bs (lo / 8) 7) (lo % 8 + w - 1) (lo % 8)

/-- Elements packed densely into bytes, least significant bits first (R106). -/
def packElems (w : Nat) (xs : List Nat) : List Byte :=
  let n := xs.foldr (fun x acc => acc * 2 ^ w + x % 2 ^ w) 0
  leBytes (cdiv (xs.length * w) 8) n

/-- The largest magnitude among finite values, as a non-negative value (R123, R128). -/
def amaxFin (xs : List Num) : Num :=
  xs.foldl (fun a x => match a, x with
    | .fin _ ma ea, .fin _ mx ex => if magLe mx ex ma ea then a else .fin false mx ex
    | _, _ => a) Num.zero

/-- Scale exponent from a largest magnitude (R123; with MARGIN, R128). -/
def scaleExp (emax margin : Int) (a : Num) : Int :=
  match a with
  | .fin _ m e => if m = 0 then 0 else clampInt (-127) 127 (Num.expo m e - emax + margin)
  | _ => 0

/-- An MX block written from its real elements, padded to 32 (R107, R122-R124): scale code, element codes, flags. DESIGN CHOICE (log entry 67):
in a block with an infinity or a NaN the finite elements raise no flag. -/
def mxBlock (c : Nat) (f : FpFmt) (xs : List Num) : Nat × List Nat × Flags :=
  if xs.any (fun x => !x.isFin) then
    (0xFF, List.replicate 32 0,
      if xs.any (fun x => match x with | .inf _ => true | _ => false) then Flags.inval else Flags.none)
  else
    let x := scaleExp (fmtEmax c) 0 (amaxFin xs)
    let out := xs.map (fun v => match v.scale (-x) with
      | .fin n m e => f.encodeFin .clampMx n m e
      | _ => (0, Flags.none))
    ((x + 127).toNat, out.map (·.1) ++ List.replicate (32 - xs.length) 0,
      out.foldl (fun a r => a ||| r.2) Flags.none)

/-- Consecutive groups of at most `n` elements. -/
def groupsOf {α : Type} (n : Nat) : Nat → List α → List (List α)
  | 0, _ => []
  | fuel + 1, xs => if xs.isEmpty then [] else xs.take n :: groupsOf n fuel (xs.drop n)

/-! ## RF16 remainders (R109, R110) -/

/-- ulp exponent of a BF16 weight code. -/
def bf16UlpExp (w : Nat) : Int := if bits w 14 7 = 0 then -133 else (bits w 14 7 : Int) - 134

/-- The exact value of a weight and remainder pair (R109). -/
def rfJoin (w k : Nat) : Num :=
  match bf16F.decode 0 w with
  | .fin n m e =>
    let ki := toSigned 16 k
    if ki = 0 then .fin n m e else addExact n m e (ki < 0) ki.natAbs (bf16UlpExp w - 15)
  | x => x

/-- A remainder encoded against a weight: the RF16 code and whether it changed the value (R110). -/
def rfEncode (w : Nat) (r : Num) : Nat × Flags :=
  match r with
  | .fin n m e =>
    let (k, ix) := rne m (e - bf16UlpExp w + 15) 0
    let v : Int := if n then -(k : Int) else k
    let c := clampInt (-32768) 32767 v
    (ofSigned 16 c, Flags.inexIf (ix || c ≠ v))
  | _ => (0, Flags.none)

/-- The BF16 weight nearest to a value, with the remainder encoded from the difference (R173, R224); NaN and infinity write K = 0. -/
def wrSplit (x : Num) : Nat × Nat × Flags :=
  let (w, fw) := bf16F.encode x
  match x, bf16F.decode 0 w with
  | .fin n m e, .fin n' m' e' =>
    let (k, fk) := rfEncode w (addExact n m e (!n') m' e')
    (w, k, fw ||| fk)
  | _, _ => (w, 0, fw)

/-! ## Scale records of per-tensor scaled tensors (R127-R131) -/

/-- A scale record as read (Table 04-8). -/
structure ScaleRec where
  count : Nat
  head : Nat
  scale : Nat
  warm : Bool
  sat : Bool
  hist : List Nat
  deriving DecidableEq, Repr

def ScaleRec.parse (h : Nat) (bs : List Byte) : ScaleRec :=
  { count := fld bs 0 2, head := fld bs 2 2, scale := byteAt bs 4, warm := bit (byteAt bs 5) 0, sat := bit (byteAt bs 5) 1,
    hist := (upTo h).map (fun i => fld bs (16 + 4 * i) 4) }

def ScaleRec.bytes (r : ScaleRec) : List Byte :=
  leBytes 2 r.count ++ leBytes 2 r.head ++ leBytes 1 r.scale ++ leBytes 1 (b2n r.warm + 2 * b2n r.sat) ++
    leBytes 10 0 ++ (r.hist.map (leBytes 4)).flatten

/-- Whether the entries in use are valid: sign clear and exponent field not 255 (R128). -/
def ScaleRec.histOk (r : ScaleRec) : Bool :=
  (r.hist.take r.count).all (fun c => !bit c 31 && bits c 30 23 != 255)

/-- The outcome of a per-tensor scaled write: record after, element codes, flags, and whether R131 posts its event. -/
structure ScaledWrite where
  record : ScaleRec
  codes : List Nat
  flags : Flags
  warmUp : Bool
  deriving DecidableEq, Repr

/-- The writing operation of R128 with the source's values, format code `c`, history length `h` and MARGIN. `all` is the
whole source over which the largest magnitude is taken (the members of a group reduce theirs, R126). -/
def scaledWrite (c h margin : Nat) (r : ScaleRec) (all xs : List Num) : ScaledWrite :=
  let f := (fmtLayout c).getD e4m3F
  let bad := r.count = 0 || r.count > h || r.head ≥ h || !r.histOk
  let count := if bad then 0 else r.count
  let head := if bad then 0 else r.head
  let warm := bad || r.warm
  let amax := amaxFin all
  let a := if warm then amax else amaxFin ((r.hist.take count).map fp32)
  let x := scaleExp (fmtEmax c) margin a
  let out := xs.map (fun v => f.encode (v.scale (-x)))
  let satd := xs.zip out |>.any (fun p => p.1.isFin && (p.2.2 &&& Flags.ovf) != 0)
  let count' := min (count + 1) h
  let warm' := if count' = h then false else warm
  { record := { count := count', head := (head + 1) % h, scale := (x + 127).toNat, warm := warm', sat := satd,
                hist := r.hist.set head (fp32Code amax) },
    codes := out.map (·.1), flags := out.foldl (fun a p => a ||| p.2) Flags.none,
    warmUp := bad || (!r.warm && warm') }

end Sys2Proof.Machine
end

