-- ==== Sys2Proof/Config.lean ====
section
/-! DEFINITION. What the source leaves to an external standard or to the individual part: uninterpreted functions with no body
(nothing can evaluate them, log entry 5), and the free values (log entry 4). -/
namespace Sys2Proof

/-- A free value: nothing constrains it. The step applies it to State's own counter `freeCtr` (log entry 4). -/
opaque Config.freeValue : Nat → Nat
/-- The nonce that a signer draws: the identity key (`false`) or the meter key (`true`), and the model's own draw counter. -/
opaque Config.falconNonce : Bool → Nat → List Byte
/-- The compressed Falcon-1024 signature by that key of a message hash, given as the function from a length to that many bytes of it (R529). -/
opaque Config.falconCompressed : Bool → Nat → (Nat → List Byte) → List Byte
/-- Falcon-1024 verification: public key, message hash, compressed signature with its padding. -/
opaque Config.falconAccepts : List Byte → (Nat → List Byte) → List Byte → Bool
/-- ML-KEM-1024 encapsulation key of the n-th key pair (FIPS 203). -/
opaque Config.kemEncapsKey : Nat → List Byte
/-- ML-KEM-1024 decapsulation by the n-th key pair. -/
opaque Config.kemDecaps : Nat → List Byte → List Byte
/-- The tensor spans of a layer shard that a digest record at an address belongs to: layer, shard and tensor (R239; the source
gives firmware no map from addresses to layers; log entry 5). -/
opaque Config.layerOf : Nat → Nat × Nat × Nat
/-- The flat index, in its tensor (R223), of the first element of that span. -/
opaque Config.flatIndex : Nat → Nat
/-- The position, among the engines of a cache group, of the page that a cache-page operand names by slot, layer and local index
(the source's operand does not give it; log entry 10). -/
opaque Config.pagePosition : Nat → Nat → Nat → Nat
/-- Whether a router output belongs to the fixed tree along which the spine replicates a broadcast of firmware (R432; the source does not
give the tree, log entry 51). -/
opaque Config.broadcastTree : Nat → Nat → Bool
/-- The row, and the link of that row's router, by which the I/O attach of a die leads to a channel update unit or a link controller, by agent
identifier (the source does not give it, log entry 51). -/
opaque Config.attachOf : Nat → Nat × Bool
/-- The fused keys and the meter's identity, values of the individual part (log entry 5). -/
opaque Config.identityKey : List Byte
opaque Config.rootHash : List Byte
opaque Config.meterKey : List Byte
opaque Config.meterSwid : List Byte
/-- Fused words of the individual part: device serial, meter identifier, IDCODE and production record (log entry 5). -/
opaque Config.serial : W64
opaque Config.meterId : W64
opaque Config.idcode : W32
opaque Config.prodRecord : W32
/-- Whether the PUF response of the part can be corrected (R533). -/
opaque Config.pufOk : Bool

/-- What stacks and board memory hold after full reset number `n` (R454): a byte, and the mark of poison of a block. -/
opaque Config.memoryAfter : Nat → Nat → BitVec 8
opaque Config.marksAfter : Nat → Nat → Nat
/-- The place of the clock-enable output among the 44 contacts of a board channel, which the contact list gives (R461, R541). -/
opaque Config.ckeContact : Nat

end Sys2Proof
end

