-- ==== Sys2Proof/Machine/State.lean ====
section
/-! DEFINITION. The state of the XV9 as plain data, block by block, with the machine right after reset. Internal counts and
records are `Nat`; what the maps name as registers are bit vectors. -/
namespace Sys2Proof.Machine

open Sys2Proof

/-- A command the model stops on; none of the rows of the opcode table does so in this model. -/
inductive Fault where
  /-- Raised by no meaning: every row of the table has an effect in every state. Safe. -/
  | unreachable
  deriving DecidableEq, Repr

/-- A command without a meaning. -/
inductive Refusal where
  /-- Raised by the dispatcher for a row that has no meaning yet. Safe: nothing can be proved of its effect. -/
  | notModelled (mnemonic : String)
  deriving DecidableEq, Repr

/-- Part states (R466), in the order of their codes. -/
inductive PState where
  | off | reset | boot | linkTrain | topoCheck | ready | run | halted | lost
  deriving DecidableEq, Repr

/-- Partition states (R97). -/
inductive PStat where
  | idle | starting | running | frozen
  deriving DecidableEq, Repr

/-- How far a freeze has come: none, boundary known, issue stopped at the boundary, restarted streams under way. -/
inductive Frz where
  | no
  | pending (cycle : Nat)
  | stopped (cycle : Nat)
  | thawing (cycle : Nat)
  deriving DecidableEq, Repr

/-- Causes of a freeze (Table 03-13). -/
inductive Cause where
  | breach
  | trap
  | absentPage (engine : Nat)
  | noCachePage (engine : Nat)
  | poison
  | watchdog
  | divergence
  | trip
  deriving DecidableEq, Repr

/-- Domain states (Table 16-1). -/
inductive DState where
  | on | gated | retention | off
  deriving DecidableEq, Repr

/-- Port states (Table 12-2). -/
inductive PortState where
  | off | laneTrain | width | ident | active | down | loopback
  deriving DecidableEq, Repr

/-- A forme image as its bytes (chapter 03). -/
abbrev Image := List Byte

/-- A resident forme (R94): the image as loaded and its enable bit. -/
structure Resident where
  id : Nat
  image : Image
  enabled : Bool
  deriving DecidableEq, Repr

/-- One open loop of a sequencer (R67, R68). `base` is the slot from which the current iteration counts. -/
structure LoopFrame where
  body : Nat
  iter : Nat
  count : Nat
  period : Nat
  base : Nat
  deriving DecidableEq, Repr

/-- An agent's part of a fill item in progress (R92). -/
structure FillCtx where
  item : Nat
  pc : Nat
  loops : List LoopFrame
  done : Bool
  deriving DecidableEq, Repr

/-- The sequencer of one agent of a running partition (R58, R67). -/
structure Seqr where
  agent : Nat
  pc : Nat
  loops : List LoopFrame
  last : Nat            -- issue point of the record issued last, in cycles
  steps : Nat           -- STEP records issued in the run (R153)
  waiting : Bool        -- has issued the RENDEZVOUS of its pc
  ended : Bool
  fill : Option FillCtx
  late : List Nat       -- tokens whose lateness has been recorded
  deriving DecidableEq, Repr

/-- An action in flight: what it holds (R73) and what completes it. It stays so when its run has completed (R93): its issue cycle is then 2^64
more for each run since. -/
structure Flight where
  forme : Nat           -- FORME_ID of its run
  agent : Nat
  action : Nat
  opcode : Nat
  opId : Nat
  held : List Nat       -- resource identifiers
  tokOut : Nat
  issue : Nat           -- issue cycle
  lanes : Nat           -- model clock from which the matrix lanes are free
  ready : Nat           -- model clock from which it may complete
  pending : Nat         -- accumulate-writes not yet applied
  fill : Option Nat
  epoch : Nat
  detached : Bool
  deriving DecidableEq, Repr

/-- A command or request of the cache queued for a step boundary (R289). -/
structure CacheReq where
  ring : Nat
  tag : Nat
  stamp : Nat
  leave : Bool
  slot : Nat
  seqId : Nat
  deriving DecidableEq, Repr

/-- A replica digest formed by firmware (R250). -/
structure Digest where
  step : Nat
  layer : Nat
  shard : Nat
  value : Nat
  formed : Nat          -- time formed
  missing : List Nat    -- parts whose digest has not arrived
  deriving DecidableEq, Repr

/-- A NaN as an engine's lanes produce it (R158). -/
structure NanAt where
  cycle : Nat
  gen : Bool
  vector : Bool
  galley : Nat
  lane : Nat
  row : Nat
  col : Nat
  chunk : Nat
  deriving DecidableEq, Repr

/-- A NaN that an action in flight produces at a cycle still to come, with what its trap record will say of the action. -/
structure NanDue where
  core : Nat
  due : Nat                     -- model clock at which its cycle is over
  forme : Nat                   -- FORME_ID of the run of its action
  opId : Nat
  action : Nat
  issue : Nat
  epoch : Nat
  fmtA : Nat
  fmtB : Nat
  nan : NanAt
  deriving DecidableEq, Repr

/-- A page-wanted or cache-page-wanted event that waits for the freeze boundary (R349, Table 09-17). -/
structure Want where
  type : Nat
  agent : Nat
  aux : Nat
  detail : Nat
  deriving DecidableEq, Repr

/-- A per-tensor-scaled write of a group under way (R126): its operation, the member cores that share in it, the scale record as it stood
before the write with the origin of its poison, the largest magnitude over the members, and what the members that have written so far leave. -/
structure GroupWrite where
  opId : Nat
  members : List Nat
  record : List Byte
  amax : Nat                    -- FP32 code
  done : List Nat
  saturated : Bool
  poison : Nat
  deriving DecidableEq, Repr

/-- One partition. -/
structure Part where
  status : PStat
  frz : Frz
  resident : List Resident
  cur : Nat                     -- FORME_ID of the current forme; 0 none
  image : Image                 -- image of the current forme
  lastImage : Image             -- image of the forme that was last completed or abandoned (Table 05-14)
  elapsed : Nat                 -- run time, frozen time excluded, in units of the model's clock
  epochSlot : Nat               -- partition slot at which the epoch began
  epochVal : Nat                -- Table 03-9 EPOCH
  seqs : List Seqr
  toks : Tab Nat
  tokArr : Tab Nat              -- per (token, unit) arrivals of a group producer
  tokSent : Tab Nat
  arrivals : Tab Nat            -- per port (R378)
  flights : List Flight
  causes : List Cause           -- of the freeze in force, or, while the partition thaws, of the next one
  wdAgain : Bool                -- an accepted CONTINUE restarts the watchdog at the thaw (Table 03-13)
  nans : List NanDue            -- NaNs that actions in flight have still to produce
  wanted : List Want            -- events of halts that wait for the freeze boundary
  writes : List GroupWrite      -- per-tensor-scaled writes of groups under way
  rvAt : Option Nat             -- cycle at which the last condition of R89 came to hold
  rvEntry : Nat
  wdRun : Option Nat            -- time the rendezvous watchdog has run
  wdLimit : Nat                 -- its setting at the start, in µs; 0 disables
  fillNext : Nat
  fillCur : Option (Nat × Nat)  -- item in progress and its start slot
  fillLate : Bool               -- its overrun has been recorded
  slotLimited : Bool            -- the slot-limit breach has been recorded
  ended : Option Nat            -- cycle at which the last agent issued END
  policy : Nat                  -- trap policy per field, latched (R162)
  scan : Nat                    -- page scan depth, latched (R356)
  swRing : Nat
  swTag : Nat
  swStamp : Nat
  cset : Option Nat             -- address of the registered cache set record
  csetRec : List Byte           -- firmware's copy of that record with its engine entries (Table 14-1)
  cacheQ : List CacheReq
  exportEpoch : W32
  abandoned : Bool              -- the last run ended by ABANDON
  lastSteps : Nat               -- STEP records issued by the last completed run
  grace : Option (Nat × Nat × Nat)  -- end of the grace period, SEQ_ID, slot
  held : List Nat               -- slots whose bucket-full event is posted
  replica : Option (Nat × List Nat) -- record in force: cadence, parts
  digests : List Digest
  spans : List (Nat × Nat × Nat × Nat × List Byte) -- span records: step, layer, shard, key, digest record
  diverge : Bool                -- freeze at the next STEP
  divergeEvents : Tab Nat       -- divergence events posted, by step
  early : List (Nat × Nat × Nat × Nat × Nat) -- digests received before the own one: part, step, layer, shard, value
  skipSteps : List Nat          -- steps for which update-skipped was posted in the run
  deriving DecidableEq, Repr

/-- The partition layout entry in force (Table 10-5). -/
structure LayoutEntry where
  fields : Nat
  stackSet : Nat
  links : Nat
  frames : Nat
  board : Nat
  sLo : Nat
  sHi : Nat
  bLo : Nat
  bHi : Nat
  as0 : Nat
  as0n : Nat
  as1 : Nat
  as1n : Nat
  shares : Nat
  cuu : Nat
  nme : Nat
  deriving DecidableEq, Repr

def LayoutEntry.none : LayoutEntry := ⟨0, 0, 0, 0, 0, 0, 0, 0, 0, 0, 0, 0, 0, 0, 0, 0⟩

/-- The stored bytes and poison of the part's memories, and of host memory (Table 10-1). -/
structure Data where
  core : Tab Byte
  sram : Tab Byte
  store : Tab Byte
  dev : Tab Byte
  staging : Tab Byte
  scalar : Tab Byte             -- step-scalar records, 64 bytes per update engine
  host : Tab Byte
  hostP : Tab Nat               -- host memory that came poisoned, per 8-byte word: 1
  devEpoch : Nat                -- 0, or one more than the index of the free values that full reset left in stacks and board memory (R454)
  devZeroed : List (Nat × Nat)  -- ranges (address, bytes) that ALLOC has zeroed since
  coreP : Tab Nat               -- poison origin per 8-byte word
  sramP : Tab Nat
  storeP : Tab Nat
  stagingP : Tab Nat
  scalarP : Tab Nat
  devP : Tab Nat                -- poison origin per 64-byte block
  galley : Tab Nat              -- FP32 code per element
  galleyN : Tab Nat             -- chunk count per galley
  galleyP : Tab Nat             -- poison origin per galley
  storeTag : Tab Nat            -- 0 empty, else 1 + first region of the instance
  deriving DecidableEq, Repr

/-- A NaN trap record (Table 05-16). -/
structure Trap where
  status : W32
  formeId : Nat
  opId : Nat
  action : Nat
  epoch : Nat
  slot : Nat
  row : Nat
  col : Nat
  chunk : Nat
  deriving DecidableEq, Repr

def Trap.zero : Trap := ⟨0, 0, 0, 0, 0, 0, 0, 0, 0⟩

/-- The NUM block (Table 05-10). -/
structure NumRegs where
  ctrl : Bool
  trapPolicy : BitVec 8
  fieldPolicy : W16
  groupSel : BitVec 19
  seedLo : Tab W32
  seedHi : Tab W32
  step : Tab W32
  me : Tab (BitVec 4)
  ve : Tab (BitVec 4)
  nme : Tab (BitVec 4)
  cuu : Tab (BitVec 4)
  traps : Tab Trap
  deriving DecidableEq, Repr

/-- One request waiting at a weir (R314). -/
structure WeirReq where
  tokens : Nat
  agent : Nat
  action : Nat
  qmax : Nat                    -- QMAX of a stream's descriptor (R337); 0 for any other sender
  write : Bool                  -- a stream's request on its destination's side (R336)
  offered : Bool                -- refused once, with its breach (R319)
  rest : Nat                    -- requests of the same size that its sender makes behind it
  id : Nat                      -- the model's own: tells the transfers of a sender that has several apart
  deriving DecidableEq, Repr

/-- An allocation that ALLOC returned (R305). -/
structure Alloc where
  addr : Nat
  units : Nat
  tier : Nat
  partition : Nat
  deriving DecidableEq, Repr

/-- The MEM block, device pages and weirs (chapter 10). Weir keys are 16 * weir + owner; the queues of a link
weir are one for each port of its group, with 65536 * port added. -/
structure MemRegs where
  ctrl : Bool
  reason : W16
  trained : Nat
  ranks : Nat
  density : Nat
  window : BitVec 20
  hostLat : W32
  repair : Tab Nat
  weir : Tab W32
  queue : Tab (List WeirReq)
  held : Tab (List WeirReq)     -- refused requests that senders hold (R319)
  waits : Tab (List (Nat × WeirReq)) -- per side of a stream, requests behind a held one, in byte order, each with its queue (R336)
  pte : Tab (BitVec 64)         -- device page tables, by the device address of the entry in the firmware region (R309)
  allocs : List Alloc
  eccAt : Tab (List Nat)        -- per board channel, times of its last uncorrectable link-ECC errors, latest first (R323)
  lost : List Nat               -- lost channels: HBM4 channels 0 to 255, board channels from 256
  deriving DecidableEq, Repr

/-- A stream record (Table 11-5) with the action's own descriptor and progress. -/
structure StreamRec where
  state : Nat
  cause : Nat
  partition : Nat
  waiting : Bool
  restarted : Bool
  formeId : Nat
  opId : Nat
  action : Nat
  epoch : Nat
  position : Nat
  due : Nat
  length : Nat
  detail : Nat
  block : Nat
  blockAction : Nat
  scanCount : Nat
  scanMap : Nat
  desc : List Byte
  kindOp : Nat                  -- opcode of the action
  iter : Nat                    -- iteration of the innermost loop, for R202
  issue : Nat
  dueAt : Nat                   -- the due position, kept while a restarted stream runs towards it
  thawing : Bool                -- restarted by an accepted CONTINUE whose thaw has not come
  refused : Nat                 -- record index, plus one, of the receiving action that refused its data (R341); 0 none
  deriving DecidableEq, Repr

def StreamRec.zero : StreamRec := ⟨0, 0, 0, false, false, 0, 0, 0, 0, 0, 0, 0, 0, 0, 0, 0, 0, [], 0, 0, 0, 0, false, 0⟩

/-- The SE block and the stream engines (chapter 11). A pipe holds the bytes sent and the poison origin of each. -/
structure SeRegs where
  ctrl : Bool
  scanBasic : Bool
  scan : Tab (BitVec 7)
  recs : Tab StreamRec
  pipes : Tab (List (Byte × Nat))
  piped : Tab Nat               -- bytes the receiving action has accepted
  deriving DecidableEq, Repr

/-- A ring as its registers give it (Table 13-15), with the indices the part holds. -/
structure Ring where
  base : W64
  db : W64
  ctl : W32
  idx : W32                     -- CI of a command ring; producer index of a completion or event ring
  gen : Nat
  stopped : Bool
  lastDb : Nat                  -- doorbell words last read from the host
  deriving DecidableEq, Repr

def Ring.zero : Ring := ⟨0, 0, 0, 0, 0, false, 0⟩

/-- A fetched command (R406, R407). -/
structure Cmd where
  ring : Nat
  tag : Nat
  stamp : Nat
  time : Nat                    -- TIME of its stamp
  bytes : List Byte             -- descriptor and inline payload
  pre : Nat                     -- SWITCH: reason of the test at its stamp (R98), 0 if it passed
  acted : Option (Nat × Nat)    -- SERVICE, REG_READ, REG_WRITE: reason and VALUE, where it took effect at its stamp (R417)
  deriving DecidableEq, Repr

/-- A command in progress after its begin: COPY, EXPORT, POWER. -/
structure Bg where
  cmd : Cmd
  bytesDone : Nat
  aborted : Bool
  header : List Byte            -- the EXPORT header completed
  epoch : Nat
  deriving DecidableEq, Repr

/-- A completion record waiting for its ring (Table 13-4). -/
structure Compl where
  tag : Nat
  ring : Nat
  partition : Nat
  status : Nat
  reason : Nat
  seq : Nat
  value : Nat
  detail : Nat
  deriving DecidableEq, Repr

/-- An event record (Table 14-5). -/
structure Event where
  seq : Nat
  type : Nat
  part : Option Nat
  time : Nat
  source : Nat
  aux : Nat
  detail : Nat
  deriving DecidableEq, Repr

/-- How a command of the history stands, for ABORT (R421). -/
inductive Hist where
  | queued
  | running
  | done (seq : Nat)
  deriving DecidableEq, Repr

/-- A command of the history (R421). -/
structure Past where
  ring : Nat
  tag : Nat
  stamp : Nat
  opcode : Nat
  left : Nat                    -- completion records still to come (R408)
  st : Hist
  deriving DecidableEq, Repr

/-- One queued or served SWITCH (R98, R99). -/
structure Sw where
  ring : Nat
  tag : Nat
  stamp : Nat
  targets : List (Nat × Nat)
  begun : Bool                  -- the command has begun
  started : Bool                -- its service has started
  deriving DecidableEq, Repr

/-- What an ABORT's stamp decided (R421). -/
inductive AbortOut where
  | notFound
  | refused (reason : Nat)
  | after (target : Nat)        -- the target's completion comes first
  | first (target : Nat)        -- the ABORT comes first
  deriving DecidableEq, Repr

/-- The HIF block and the host side (chapter 13). -/
structure HifRegs where
  level : Bool
  enable : Bool
  reason : W16
  rings : BitVec 5
  area : W64
  advert : W64
  bar2 : W64
  eq : Ring
  cr : Tab Ring
  cq : Tab Ring
  msixTable : Tab (BitVec 128)  -- bit 96, the mask bit, is held inverted, so that the default entry is masked
  msixPending : Tab Bool
  msixSent : List Nat           -- vectors of the messages sent, latest first
  msixLast : Tab Nat            -- time of a ring's last message, plus one; 0 none
  msixDue : List Nat            -- rings with records written since their last message; 64 is the event ring
  poll : Bool
  sleeping : Bool
  quiet : Nat
  queue : List Cmd
  history : List Past
  running : List Bg
  switches : List Sw
  aborts : List (Nat × AbortOut) -- by the stamp of the ABORT
  compl : List Compl            -- completions not yet written
  advertSeq : Nat
  advertTime : Nat
  advertDue : Bool              -- an advert write waits
  bme : Bool
  d3 : Bool
  rate : Nat
  width : Nat
  flitMode : Bool
  wasEnabled : Bool
  ideCap : Bool
  ringsDue : Bool               -- ring service started while no request could go out: the first doorbell reads wait (R395)
  readPoison : Bool             -- the last completion towards the host was poisoned (R520)
  readOut : Option (List Byte)  -- completion of the last direct read request: its data, or none for Unsupported Request
  aer : List Nat                -- AER log: 1 advisory non-fatal BAR2 request in RUN, 2 IDE check failure
  deriving DecidableEq, Repr

/-- The event sequencer (Tables 14-10 and 14-11). -/
structure EsRegs where
  level : Bool
  groupMask : BitVec 4
  seq : W32
  lost : W32
  firstLost : Nat
  lostSince : Nat
  time : W64
  typeMask : Tab W32
  cntOvf : BitVec 144
  buffer : List Event
  deriving DecidableEq, Repr

/-- The CC block and firmware's stores (Table 14-8). -/
structure CcRegs where
  level : Bool
  wdAll : W32
  wd : Tab W32
  replicaOk : BitVec 8
  replica : Tab W64
  replicaDue : List Nat         -- partitions whose record is still to be read: no request can go out (R395, R396)
  replicaRec : Tab (Nat × List Nat)  -- accepted records: cadence, parts
  breachCnt : Tab W32
  breach : Tab (List (List Byte))
  msgNext : W16
  seen : List (Nat × Nat × List Nat) -- broadcast history, latest first: SRC, MSG and the INDEX values seen
  deriving DecidableEq, Repr

/-- A frame kept for replay (R368). -/
structure SentFrame where
  seq : W16
  tags : List W16
  flits : List (List Byte)      -- one of 128 bytes per valid position, [] where idle
  carried : List (Nat × Nat)    -- messages in the frame, by their numbers, with the bytes of each
  tries : Nat                   -- times replayed
  deriving DecidableEq, Repr

/-- One flit queued at a port in the cells of owner 8, with its tag (Table 12-4). -/
structure QFlit where
  tag : W16
  bytes : List Byte
  deriving DecidableEq, Repr

/-- A port of the Brodund links. -/
structure Port where
  ctrl : BitVec 9
  state : PortState
  cause : Nat
  lanes : Nat                   -- lanes that passed at both ends
  ownLanes : Nat                -- lanes that passed at this end
  widthCode : Nat               -- 0 none, 1 x1, 2 x2, 3 x4
  used : List Nat               -- the lanes that carry the port's symbols, in order (R362)
  peerValid : Bool
  peerPort : Nat
  peerSerial : W64
  peerPart : Nat
  redFlags : BitVec 4
  cnt : Tab (BitVec 48)
  txSeq : W16
  rxNext : W16
  nak : Bool
  discarding : Bool             -- frames are discarded until the replay arrives
  sent : List SentFrame         -- not yet acknowledged, oldest first
  replayAt : Nat                -- index in `sent` of the next frame to replay; its length when none
  txTimes : List (Nat × Nat)    -- SEQ and TX_TIME of the last 256 frames
  rxSeq : W16
  rxTime : W64
  exchanges : Nat               -- since the last mean
  offsetSum : Int               -- twice the sum of their offsets
  mean : Option Int             -- that sum over the last 1,024 exchanges, until firmware has used it (R391)
  lastOffset : Option Int       -- twice the offset and twice the one-way delay of the last exchange (R390)
  lastDelay : Option Int
  cell : Nat                    -- calendar cell of the next flit position
  queue : List QFlit            -- owner 8's flits, in leaving order
  wire : List Byte              -- the frame sent last
  lastDiscard : Option Nat      -- time of the last transit-discard event
  deriving DecidableEq, Repr

/-- A message of a link action in flight: bytes granted, sent or received (R373 to R377). -/
structure Msg where
  id : Nat                      -- its own number
  seq : Nat                     -- place of its action in the order of issue
  partition : Nat
  port : Nat                    -- controller
  action : Nat
  issue : Nat                   -- its issue cycle, which tells the actions of one looped record apart
  coll : Bool                   -- part of a collective
  isSend : Bool
  link : Nat                    -- port through which it passes
  owner : Nat                   -- receiving partition
  channel : Nat
  routed : Bool
  peer : Nat
  length : Nat
  sent : Nat                    -- bytes sent or received
  written : Nat                 -- bytes received that have left the receive buffer for their destination
  granted : Nat
  unackd : Nat                  -- bytes sent whose frames are not acknowledged
  ended : Bool                  -- sending ended by poison (R521)
  buf : Nat                     -- link buffer reference of SEND and RECV
  data : List (Byte × Nat)      -- bytes received, or to be sent, by a collective
  check : Nat
  deriving DecidableEq, Repr

/-- A grant that has arrived and no message has claimed: granting part, receiving partition, channel, bytes, CHECK. -/
structure Grant where
  port : Option Nat             -- the port on which a direct grant came in; none for a ROUTED one
  granter : Nat
  owner : Nat
  channel : Nat
  bytes : Nat
  check : Nat
  deriving DecidableEq, Repr

/-- A collective in flight (R383 to R389): its script position and the working values. -/
structure Coll where
  seq : Nat                     -- place in the order of issue
  partition : Nat
  port : Nat
  action : Nat
  issue : Nat
  desc : List Byte
  table : List (Nat × Nat × Nat) -- part, partition, LEN
  step : Nat
  loading : Bool                -- its input has still to pass the weirs
  done : Bool                   -- every step is over
  mute : Bool                   -- its sending has ended by poison (R521)
  work : List (Byte × Nat)      -- T elements: own input, then partial and final results
  deriving DecidableEq, Repr

/-- Bytes of a link action that leave for a stack, where they are written once their requests have left the weir (R373). -/
structure LinkWrite where
  partition : Nat
  port : Nat
  action : Nat
  issue : Nat
  id : Nat                      -- tells it from the others, as a message's own number does
  buf : Nat                     -- link buffer reference
  off : Nat
  data : List (Byte × Nat)
  arrives : Bool                -- its writing counts as a peer arrival (R378)
  deriving DecidableEq, Repr

/-- The LNK block (chapter 12). -/
structure LnkRegs where
  level : Bool
  self : W16
  lock : Bool
  torus : W32
  root : W16
  timeState : Nat
  parent : Nat
  following : Bool              -- the part follows its parent port (R391)
  offset : W16
  route : Tab (BitVec 8)        -- unlisted entries read 0xFF
  ports : Tab Port
  msgs : List Msg
  colls : List Coll
  grants : List Grant
  writes : List LinkWrite       -- on their way to the stacks, oldest first
  nextMsg : Nat                 -- the model's own: number of the next message
  deriving DecidableEq, Repr

/-- A release sequence under way (R458). -/
structure Release where
  left : List Nat               -- domains still to release
  gapEnd : Nat                  -- time at which the gap of the first one ends
  risen : Bool                  -- RESET_N rose while D00 or D02 was still to come: D01 follows without a gap (R548)
  deriving DecidableEq, Repr

/-- The RSTC block and boot (chapter 15). -/
structure RstRegs where
  state : PState
  reason : W16
  domain : BitVec 6
  cause : BitVec 3
  scopeStrap : Bool
  bootStrap : Bool
  released : BitVec 36
  locked : BitVec 36
  level : Bool
  relay : Bool
  bootAddr : W64
  bootLen : BitVec 21
  topoAddr : W64
  topoHeld : Option Bool
  topoFail : BitVec 18
  renewPart : BitVec 3
  renewFailed : W16
  renewReason : W16
  renewState : Nat
  renewQuick : Bool
  renewing : Option (Nat × Nat)  -- partition and its fields
  porAsserted : Bool
  resetLow : Bool                -- RESET_N recognised low
  computeOnly : Bool             -- the reset in progress is compute-only
  seq : Option Release
  kept : List Nat                -- domains that a stopped release keeps in reset (R459)
  earlyStop : Bool               -- REASON 0x0401 is that of a stop at D01 or D03, which a full reset keeps (Table 15-12)
  owed : Option Nat              -- DETAIL of the part-state event of a stop at D01, posted once D01 runs (R459)
  everReady : Bool
  bootBuf : Tab Byte
  bootHave : List (Nat × Nat)    -- byte ranges held
  bootTotal : Nat
  bootHost : Bool
  bootMsg : W16
  fwRunning : Bool
  defect : Tab W32
  bootDefect : List Nat          -- repairs in force for this boot that the map does not hold
  pinmap : Tab W16
  fuseLevel : Bool
  testEn : Bool
  deriving DecidableEq, Repr

/-- One power domain (Table 16-10). -/
structure Dom where
  st : DState
  rate : Nat
  busy : Bool
  tripped : Bool
  lockFail : Bool
  deriving DecidableEq, Repr

def Dom.reset : Dom := ⟨.on, 0, false, false, false⟩

/-- A POWER command in progress: targets of its transitions (R490). -/
structure PwrCmd where
  cmd : Cmd
  targets : List (Nat × DState × Nat)
  tripped : Bool
  deriving DecidableEq, Repr

/-- The comparators of one unit that sees both rails (R499): the model clock since which a condition has held. -/
structure Rails where
  mainLow : Option Nat           -- VIN_MAIN below 11.2 V
  auxLow : Option Nat            -- VIN_AUX below 3.15 V
  good : Option Nat              -- both at or above the levels that end the inhibit
  deriving DecidableEq, Repr

def Rails.reset : Rails := ⟨none, none, none⟩

/-- The PWR block (chapter 16). -/
structure PwrRegs where
  level : Bool
  trip : Bool
  crit : Bool
  inhibit : Bool
  sensor : BitVec 5
  reason : W16
  vinMain : W16
  vinAux : W16
  rails : Rails                  -- the power controller's comparators
  alertAt : BitVec 8
  doms : Tab Dom
  temps : Tab (BitVec 17)        -- VALID and reading
  hot : Tab Nat                  -- consecutive samples at or above 110.0
  critHot : Tab Nat
  tripAt : Option Nat            -- time of the trip until D11-D34 are Off
  cmd : Option PwrCmd
  heldWrites : List Nat          -- non-volatile writes held by the inhibit: fuse words of the defect map
  deriving DecidableEq, Repr

/-- A ledger record before its signature (Table 16-7). -/
structure Ledger where
  flags : Nat
  number : Nat
  boot : Nat
  interval : Nat
  tStart : Nat
  tEnd : Nat
  eMain : Nat
  eAux : Nat
  dMain : Nat
  dAux : Nat
  pMax : Nat
  deriving DecidableEq, Repr

/-- The metering unit (D02). Energies accumulate in pJ. -/
structure MuRegs where
  alarms : BitVec 5
  inhibit : Bool
  rails : Rails                  -- the unit's own comparators
  boot : W32
  eMain : Nat
  eAux : Nat
  time0 : Nat                    -- model time at the unit's power-on
  pMain : W32
  pAux : W32
  msCount : Nat
  msMain : Nat
  msAux : Nat
  startT : Nat
  startMain : Nat
  startAux : Nat
  pMax : Nat
  overrange : Bool
  selfCheck : Bool
  first : Bool
  next : Nat                     -- number of the next record
  newest : Option Nat
  slots : Tab (List Byte)
  pending : List Ledger
  writing : Option Ledger        -- a record whose COMMIT is not yet written (R500)
  pulseFrom : Nat                -- energy already turned into pulses, in pJ
  pulse : Option Nat             -- time at which MTR_PULSE_N went low
  deriving DecidableEq, Repr

/-- What SEC_FUSE_DIGEST is computed from (Table 17-9). -/
structure FuseImage where
  defect : Tab W32
  pinmap : Tab W16
  arb : BitVec 7
  deriving DecidableEq, Repr

/-- The SEC block and the security engine (chapter 17). -/
structure SecRegs where
  level : Bool
  fwValid : Bool
  ideSecure : Bool
  reason : W16
  arb : BitVec 7
  fuses : FuseImage              -- the fuses as the last power-on or full reset found them (R540)
  fwSvn : BitVec 7
  err : W32
  errWhere : W64
  unc : W32
  uncWhere : W64
  nmeEngine : BitVec 8
  nmeUnder : Option Nat          -- the engine under test
  nmeResult : BitVec 2
  fenced : BitVec 256
  fwDigest : List Byte
  faults : Tab (List (List Byte))
  advancing : Option Nat         -- TARGET of the advance in progress
  arbWait : List Nat
  kemPair : Option (Nat × List Byte) -- unconsumed key pair and the nonce of its report
  kemCount : Nat
  keysets : Tab (List Byte)
  ideSet : Nat
  doeOut : List Byte             -- the last DOE response
  deriving DecidableEq, Repr

/-- Sideband targets, the TAP and TEST (chapter 18). -/
structure PinRegs where
  testLevel : Bool
  bmcOffset : BitVec 24
  mtrOffset : BitVec 24
  i3cOut : List Byte             -- bytes that the last private read of a target returned (R550)
  ir : BitVec 8
  hiz : Bool
  driven : Bool
  prodTest : Bool
  boundary : Nat                 -- update stage of the boundary register, a bit for each cell (R552)
  shifted : Nat                  -- what the data register selected last captured and shifted out on TDO, bit 0 first
  deriving DecidableEq, Repr

/-- An accumulate-write transaction on its way to a reservoir engine (Table 07-4), with the drain that sent it. -/
structure AccWrite where
  engine : Nat
  addr : Nat
  source : Nat
  opId : Nat
  values : List Nat
  poison : Nat
  partition : Nat
  action : Nat
  deriving DecidableEq, Repr

/-- The transaction an engine is still serving (R215). -/
structure Serving where
  addr : Nat
  count : Nat
  source : Nat
  until' : Nat
  deriving DecidableEq, Repr

/-- An UPDATE in progress: where its elements stood before it, so that a reset can stop it at an element boundary (R456). -/
structure Updating where
  start : Nat                   -- model clock
  each : Nat                    -- clock units of one element
  before : List (List (Nat × List (Byte × Nat))) -- per element, addresses and what they held
  deriving DecidableEq, Repr

/-- The flit that last asked for a router output (R46), its spine cycle and whether it was forwarded. -/
structure LastFlit where
  cycle : Nat
  partition : Nat
  source : Nat
  input : Nat                   -- plus one, so that an output without a flit is the table's default
  sent : Bool
  deriving DecidableEq, Repr

/-- A flit on its way from a router output to the next input, with the model clock at which it left. -/
structure Hop where
  flit : Flit
  left : Nat
  deriving DecidableEq, Repr

/-- Entries that follow each other on the direct path between a quad and a stream engine of its field, with whose they are and the model clock
at which they were sent. -/
structure Burst where
  partition : Nat
  entries : Nat
  left : Nat
  deriving DecidableEq, Repr

/-- The spine (chapter 02). Tables are keyed by 16 * router + output; the path from a unit to an input of its router by 4096 + 16 * router +
input, the direct path of a stream engine by 32 * engine + 2 * quad, one more where it leads to the quad. -/
structure SpineRegs where
  last : Tab LastFlit
  links : Tab (List Hop)        -- oldest first; on a path between islands the first eight stand in its FIFO, the router holds the others (R53)
  copies : Tab (List Nat)       -- outputs by which copies of the oldest flit of a link have left the next router (R48)
  delivered : Tab (List Flit)   -- flits that the unit or the block behind an output has taken, oldest first
  direct : Tab (List Burst)     -- oldest first; the first eight entries stand in the path's FIFO, its sender holds the others (R53)
  deriving DecidableEq, Repr

/-- The whole machine. -/
structure State where
  pending : List Instr
  freeCtr : Nat                  -- the model's own: index of the next free value
  clk : Nat                      -- the model's own: elapsed time in units of 1/9450 ns
  timeAcc : Nat                  -- fraction of the system timestamp, in 1/(9450 * 10^6) ns
  steer : Int                    -- rate steering in ppm (R391)
  timeOn : Bool                  -- D01 has been released
  rst : RstRegs
  pwr : PwrRegs
  mu : MuRegs
  hif : HifRegs
  cc : CcRegs
  es : EsRegs
  lnk : LnkRegs
  mem : MemRegs
  se : SeRegs
  num : NumRegs
  sec : SecRegs
  pins : PinRegs
  transit : Nat                  -- TRANSIT of the layout in force
  layout : Tab LayoutEntry
  parts : Tab Part
  accq : List AccWrite
  serving : Tab (List Serving)  -- per engine, transactions not finished
  updating : Tab (Option Updating) -- per update engine
  spine : SpineRegs
  data : Data
  deriving DecidableEq, Repr

/-! ## Reset values -/

/-- A partition with nothing resident and no run behind it. -/
def Part.init : Part :=
  { status := .idle, frz := .no, resident := [], cur := 0, image := [], lastImage := [], elapsed := 0, epochSlot := 0, epochVal := 0,
    seqs := [], toks := [], tokArr := [], tokSent := [], arrivals := [], flights := [], causes := [], wdAgain := false,
    nans := [], wanted := [], writes := [], rvAt := none, rvEntry := 0, wdRun := none, wdLimit := 0, fillNext := 0, fillCur := none, fillLate := false,
    slotLimited := false, ended := none, policy := 0, scan := 0, swRing := 0,
    swTag := 0, swStamp := 0, cset := none, csetRec := [], cacheQ := [], exportEpoch := 0, abandoned := false, lastSteps := 0,
    grace := none, held := [], replica := none, digests := [], spans := [], diverge := false, divergeEvents := [], early := [],
    skipSteps := [] }

def Data.empty : Data :=
  { core := [], sram := [], store := [], dev := [], staging := [], scalar := [], host := [], hostP := [], devEpoch := 0, devZeroed := [], coreP := [], sramP := [],
    storeP := [], stagingP := [], scalarP := [], devP := [], galley := [], galleyN := [], galleyP := [], storeTag := [] }

def NumRegs.reset : NumRegs :=
  { ctrl := false, trapPolicy := 0, fieldPolicy := 0, groupSel := 0, seedLo := [], seedHi := [], step := [], me := [],
    ve := [], nme := [], cuu := [], traps := [] }

def MemRegs.reset : MemRegs :=
  { ctrl := false, reason := 0, trained := 0, ranks := 0, density := 0, window := 0, hostLat := 0x7D0, repair := [],
    weir := [], queue := [], held := [], waits := [], pte := [], allocs := [], eccAt := [], lost := [] }

def SeRegs.reset : SeRegs :=
  { ctrl := false, scanBasic := false, scan := [], recs := [], pipes := [], piped := [] }

/-- POLL of the advert is 0 until ring service starts; the link values are those of an untrained link (log entry 8). -/
def HifRegs.reset : HifRegs :=
  { level := false, enable := false, reason := 0, rings := 0, area := 0, advert := 0, bar2 := 0, eq := Ring.zero, cr := [],
    cq := [], msixTable := [], msixPending := [], msixSent := [], msixLast := [], msixDue := [], poll := false,
    sleeping := false, quiet := 0, queue := [], history := [], running := [], switches := [], aborts := [], compl := [], advertSeq := 0,
    advertTime := 0, advertDue := false, bme := false, d3 := false, rate := 0, width := 0, flitMode := false,
    wasEnabled := false, ideCap := false, ringsDue := false, readPoison := false, readOut := none, aer := [] }

def EsRegs.reset : EsRegs :=
  { level := false, groupMask := 0, seq := 0, lost := 0, firstLost := 0, lostSince := 0, time := 0, typeMask := [],
    cntOvf := 0, buffer := [] }

def CcRegs.reset : CcRegs :=
  { level := false, wdAll := 0, wd := [], replicaOk := 0, replica := [], replicaDue := [], replicaRec := [], breachCnt := [], breach := [],
    msgNext := 0, seen := [] }

/-- A port at reset: ENABLE set (Table 12-13), nothing trained. -/
def Port.reset : Port :=
  { ctrl := 1, state := .off, cause := 0, lanes := 0, ownLanes := 0, widthCode := 0, used := [], peerValid := false, peerPort := 0,
    peerSerial := 0, peerPart := 0, redFlags := 0, cnt := [], txSeq := 0, rxNext := 0, nak := false, discarding := false,
    sent := [], replayAt := 0, txTimes := [], rxSeq := 0, rxTime := 0, exchanges := 0, offsetSum := 0, mean := none, lastOffset := none, lastDelay := none, cell := 0,
    queue := [], wire := [], lastDiscard := none }

def LnkRegs.reset : LnkRegs :=
  { level := false, self := 0, lock := false, torus := 0, root := 0, timeState := 0, parent := 0, following := false, offset := 0,
    route := [], ports := [], msgs := [], colls := [], grants := [], writes := [], nextMsg := 0 }

/-- The pin map entries that Wearic programs for contacts whose numbers R542 gives (R461; log entry 6). -/
def pinmapStandard : Tab W16 :=
  (List.range 16).map (fun k => (k, BitVec.ofNat 16 (0x6000 + 3169 + k))) ++ [(16, BitVec.ofNat 16 (0x2000 + 3185))] ++
  (List.range 64).map (fun n => (17 + n, BitVec.ofNat 16 (0x6000 + 353 + 44 * n + Config.ckeContact % 44)))

/-- RSTC as power-on reset leaves it (Table 15-12): state RESET, CAUSE 1, no domain released. -/
def RstRegs.reset : RstRegs :=
  { state := .reset, reason := 0, domain := 0x3F, cause := 1, scopeStrap := false, bootStrap := false, released := 0,
    locked := 0, level := false, relay := false, bootAddr := 0, bootLen := 0, topoAddr := 0, topoHeld := none,
    topoFail := 0, renewPart := 0, renewFailed := 0, renewReason := 0, renewState := 0, renewQuick := false,
    renewing := none, porAsserted := true, resetLow := false, computeOnly := false, seq := none, kept := [], earlyStop := false, owed := none,
    everReady := false, bootBuf := [], bootHave := [], bootTotal := 0, bootHost := false, bootMsg := 0,
    fwRunning := false, defect := [], bootDefect := [], pinmap := pinmapStandard, fuseLevel := false, testEn := false }

def PwrRegs.reset : PwrRegs :=
  { level := false, trip := false, crit := false, inhibit := false, sensor := 0, reason := 0, vinMain := 0,
    vinAux := 0, rails := Rails.reset, alertAt := 0x64, doms := [], temps := [], hot := [], critHot := [], tripAt := none, cmd := none,
    heldWrites := [] }

def MuRegs.reset : MuRegs :=
  { alarms := 0, inhibit := false, rails := Rails.reset, boot := 1, eMain := 0, eAux := 0, time0 := 0, pMain := 0, pAux := 0, msCount := 0,
    msMain := 0, msAux := 0, startT := 0, startMain := 0, startAux := 0, pMax := 0, overrange := false, selfCheck := false,
    first := true, next := 0, newest := none, slots := [], pending := [], writing := none, pulseFrom := 0, pulse := none }

def SecRegs.reset : SecRegs :=
  { level := false, fwValid := false, ideSecure := false, reason := 0, arb := 0, fuses := ⟨[], pinmapStandard, 0⟩, fwSvn := 0, err := 0, errWhere := 0,
    unc := 0, uncWhere := 0, nmeEngine := 0, nmeUnder := none, nmeResult := 0, fenced := 0, fwDigest := [], faults := [],
    advancing := none, arbWait := [], kemPair := none, kemCount := 0, keysets := [], ideSet := 0,
    doeOut := [] }

/-- The TAP selects IDCODE (R552). -/
def PinRegs.reset : PinRegs :=
  { testLevel := false, bmcOffset := 0, mtrOffset := 0, i3cOut := [], ir := 2, hiz := false, driven := false, prodTest := false,
    boundary := 0, shifted := 0 }

def SpineRegs.reset : SpineRegs := { last := [], links := [], copies := [], delivered := [], direct := [] }

/-- The machine under power-on reset: every field at the value the spec states, every other register at the value the log names. -/
def State.reset : State :=
  { pending := [], freeCtr := 0, clk := 0, timeAcc := 0, steer := 0, timeOn := false, rst := RstRegs.reset,
    pwr := PwrRegs.reset, mu := MuRegs.reset, hif := HifRegs.reset, cc := CcRegs.reset, es := EsRegs.reset,
    lnk := LnkRegs.reset, mem := MemRegs.reset, se := SeRegs.reset, num := NumRegs.reset, sec := SecRegs.reset,
    pins := PinRegs.reset, transit := 0, layout := [], parts := [], accq := [], serving := [], updating := [], spine := SpineRegs.reset,
    data := Data.empty }

/-- The outcome of a command. -/
abbrev Out := Host.Outcome State Fault Refusal

end Sys2Proof.Machine
end

