-- ==== Sys2Proof/Machine/Ops.lean ====
section
/-! DEFINITION. Named operations over the state: accessors, memories and poison, the event sequencer, completions, part states,
breaches, freeze causes, fault records and device addresses. -/
namespace Sys2Proof.Machine

open Sys2Proof

/-! ## Accessors -/

def State.part (s : State) (p : Nat) : Part := tget Part.init s.parts p
def State.setPart (s : State) (p : Nat) (x : Part) : State := { s with parts := tset Part.init s.parts p x }
def State.modPart (s : State) (p : Nat) (f : Part → Part) : State := s.setPart p (f (s.part p))
def State.lay (s : State) (p : Nat) : LayoutEntry := tget LayoutEntry.none s.layout p
/-- A partition is defined when its layout entry holds a field (R303). -/
def State.defined (s : State) (p : Nat) : Bool := p < 8 && (s.lay p).fields != 0
def State.dom (s : State) (d : Nat) : Dom := tget Dom.reset s.pwr.doms d
def State.setDom (s : State) (d : Nat) (x : Dom) : State := { s with pwr := { s.pwr with doms := tset Dom.reset s.pwr.doms d x } }
/-- A domain has been released from reset (R458). -/
def State.released (s : State) (d : Nat) : Bool := s.rst.released.getLsbD d
def State.domOn (s : State) (d : Nat) : Bool := (s.dom d).st == .on && s.released d
def State.port (s : State) (q : Nat) : Port := tget Port.reset s.lnk.ports q
def State.setPort (s : State) (q : Nat) (x : Port) : State := { s with lnk := { s.lnk with ports := tset Port.reset s.lnk.ports q x } }
def State.modPort (s : State) (q : Nat) (f : Port → Port) : State := s.setPort q (f (s.port q))
def State.srec (s : State) (e : Nat) : StreamRec := tget StreamRec.zero s.se.recs e
def State.setRec (s : State) (e : Nat) (x : StreamRec) : State := { s with se := { s.se with recs := tset StreamRec.zero s.se.recs e x } }
def State.fieldOn (s : State) (f : Nat) : Bool := s.domOn (19 + f)

/-- The partition numbers. -/
def partNums : List Nat := [0, 1, 2, 3, 4, 5, 6, 7]

/-- The partition that holds a field, if any. -/
def State.fieldOwner (s : State) (f : Nat) : Option Nat := lookupBy (fun p => bit (s.lay p).fields f) partNums

/-- A free value (log entry 4): the opaque function at State's own counter, which moves on. -/
def State.draw (s : State) : Nat × State := (Config.freeValue s.freeCtr, { s with freeCtr := s.freeCtr + 1 })

/-- Units of the model's clock in one nanosecond. -/
def unitsPerNs : Nat := 9450
/-- Nanoseconds of model time. -/
def State.ns (s : State) : Nat := s.clk / unitsPerNs
/-- Clock units of one arithmetic cycle at a rate code (R52, Table 03-2). -/
def periodOf (rate : Nat) : Nat :=
  match rate with
  | 0 => 6750 | 1 => 7875 | 2 => 9000 | _ => 13500

/-! ## Memories and poison -/

/-- The byte memories of the part. -/
inductive Space where
  | core | sram | store | dev | staging | scalar
  deriving DecidableEq, Repr

def Data.bytes (d : Data) : Space → Tab Byte
  | .core => d.core | .sram => d.sram | .store => d.store | .dev => d.dev | .staging => d.staging | .scalar => d.scalar

def Data.poison (d : Data) : Space → Tab Nat
  | .core => d.coreP | .sram => d.sramP | .store => d.storeP | .dev => d.devP | .staging => d.stagingP
  | .scalar => d.scalarP

def Data.put (d : Data) (sp : Space) (b : Tab Byte) (q : Tab Nat) : Data :=
  match sp with
  | .core => { d with core := b, coreP := q }
  | .sram => { d with sram := b, sramP := q }
  | .store => { d with store := b, storeP := q }
  | .dev => { d with dev := b, devP := q }
  | .staging => { d with staging := b, stagingP := q }
  | .scalar => { d with scalar := b, scalarP := q }

/-- Bytes covered by one mark of poison: a 64-byte block of stacks and board memory, else a 64-bit word (R519). -/
def Space.grain : Space → Nat
  | .dev => 64
  | _ => 8

/-- A run of bytes, each with the origin of its poison, 0 for sound bytes. -/
abbrev Run := List (Byte × Nat)

def Run.plain (r : Run) : List Byte := r.map (·.1)
/-- The origin of the first poisoned byte, 0 if none. -/
def Run.origin (r : Run) : Nat := ((r.find? (fun x => x.2 != 0)).map (·.2)).getD 0
/-- Where the first poisoned byte stands. -/
def Run.firstBad (r : Run) : Nat := r.findIdx (fun x => x.2 != 0)
def Run.sound (bs : List Byte) : Run := bs.map (fun b => (b, 0))
def Run.tainted (o : Nat) (bs : List Byte) : Run := bs.map (fun b => (b, o))
/-- Poisoned data of a read that was not served (R298, R486). -/
def Run.unserved (o n : Nat) : Run := List.replicate n (0, o)

/-- Whether ALLOC has zeroed a device byte since the last full reset. -/
def Data.zeroed (d : Data) (a : Nat) : Bool := d.devZeroed.any (fun z => decide (z.1 ≤ a) && decide (a < z.1 + z.2))

/-- What a byte and a mark are stored relative to: 0, but in stacks and board memory, which full reset leaves unspecified (R454; log entry
54), a free value until ALLOC zeroes them. -/
def Data.base (d : Data) (sp : Space) (a : Nat) : Byte := match sp with
  | .dev => if d.devEpoch = 0 || d.zeroed a then 0 else Config.memoryAfter (d.devEpoch - 1) a
  | _ => 0
def Data.markBase (d : Data) (sp : Space) (k : Nat) : Nat := match sp with
  | .dev => if d.devEpoch = 0 || d.zeroed (64 * k) then 0 else Config.marksAfter (d.devEpoch - 1) k % 8
  | _ => 0

/-- A byte of a memory, and the origin of the poison of a word or block. -/
def Data.byte (d : Data) (sp : Space) (a : Nat) : Byte := tget 0 (d.bytes sp) a ^^^ d.base sp a
def Data.mark (d : Data) (sp : Space) (k : Nat) : Nat := tget 0 (d.poison sp) k ^^^ d.markBase sp k

/-- Reading `n` bytes with their poison. -/
def Data.read (d : Data) (sp : Space) (a : Nat) : Nat → Run
  | 0 => []
  | n + 1 => (d.byte sp a, d.mark sp (a / sp.grain)) :: Data.read d sp (a + 1) n

/-- The marks of poison, relative to a base, after a write of a run: a poisoned byte marks its word with its origin, a word wholly covered
by sound bytes is cleared, a partial write leaves the mark in place (R519). -/
def poisonMarks (g : Nat) (base : Nat → Nat) (q : Tab Nat) (a : Nat) (r : Run) : Tab Nat :=
  let lo := a / g
  let hi := (a + r.length + g - 1) / g
  (upTo (hi - lo)).foldl (fun q k =>
    let w := lo + k
    let from' := max a (w * g)
    let to' := min (a + r.length) ((w + 1) * g)
    let seg := (r.drop (from' - a)).take (to' - from')
    let o := Run.origin seg
    if o ≠ 0 then tset 0 q w (o ^^^ base w) else if seg.length = g then tset 0 q w (base w) else q) q

/-- Bytes relative to the base of their addresses. -/
def Data.relative (d : Data) (sp : Space) (a : Nat) : List Byte → List Byte
  | [] => []
  | b :: bs => (b ^^^ d.base sp a) :: Data.relative d sp (a + 1) bs

def Data.write (d : Data) (sp : Space) (a : Nat) (r : Run) : Data :=
  d.put sp (writeBytes (d.bytes sp) a (d.relative sp a r.plain)) (poisonMarks sp.grain (d.markBase sp) (d.poison sp) a r)

def State.read (s : State) (sp : Space) (a n : Nat) : Run := s.data.read sp a n
def State.write (s : State) (sp : Space) (a : Nat) (r : Run) : State := { s with data := s.data.write sp a r }
/-- A store of sound bytes. -/
def State.store (s : State) (sp : Space) (a : Nat) (bs : List Byte) : State := s.write sp a (Run.sound bs)
/-- A byte of stacks or board memory. -/
def State.devByte (s : State) (a : Nat) : Byte := s.data.byte .dev a

/-- The step-scalar record of an update engine (R231). -/
def scalarAt (eng : Nat) : Nat := eng * 64
/-- Address of a core-memory byte in the flat table of cores (R138). -/
def coreAt (core off : Nat) : Nat := core * 2097152 + off
def sramAt (eng off : Nat) : Nat := eng * 524288 + off
def storeAt (die off : Nat) : Nat := die * 268435456 + off
def stagingAt (port slot off : Nat) : Nat := (port * 16 + slot) * 65536 + off
/-- Key of a galley, and of an element in it. -/
def galKey (core g : Nat) : Nat := core * 2 + g
def galElem (core g r c : Nat) : Nat := (galKey core g * 128 + r) * 192 + c

def coreBytes : Nat := 2097152
def sramBytes : Nat := 524288

/-! ## Host memory -/

def State.hostRead (s : State) (a n : Nat) : List Byte := readBytes s.data.host a n
/-- The part's access with a run: poisoned bytes go out as zeros of a poisoned TLP, which marks their words (R520). -/
def State.hostSend (s : State) (a : Nat) (r : Run) : State :=
  { s with data := { s.data with host := writeBytes s.data.host a (r.map (fun x => if x.2 = 0 then x.1 else 0))
                                 hostP := poisonMarks 8 (fun _ => 0) s.data.hostP a (r.map (fun x => (x.1, min x.2 1))) } }
def State.hostWrite (s : State) (a : Nat) (bs : List Byte) : State :=
  { s with data := { s.data with host := writeBytes s.data.host a bs, hostP := poisonMarks 8 (fun _ => 0) s.data.hostP a (Run.sound bs) } }
/-- Host software's own stores, made before the part's next access; they clear the words they touch of poison. -/
def State.hostStores (s : State) (l : List HostStore) : State :=
  { s with data := { s.data with host := l.foldl (fun m c => tset 0 m c.1 c.2) s.data.host
                                 hostP := l.foldl (fun m c => tset 0 m (c.1 / 8) 0) s.data.hostP } }
/-- A word of host memory that came poisoned reads as data of a poisoned TLP, ORIGIN 5 (R517). -/
def State.hostFetch (s : State) (a n : Nat) : Run :=
  (s.hostRead a n).zipIdx.map (fun x => (x.1, 5 * tget 0 s.data.hostP ((a + x.2) / 8)))

/-- The host interface may send memory requests: Bus Master Enable is set and the function is in D0 (R395, R396). -/
def State.hostUp (s : State) : Bool := s.hif.bme && !s.hif.d3

/-- A direct access of the host to BAR0 reaches its block while D03 is not Off (R497; log entry 46). -/
def State.direct (s : State) (f : State → State) : Out := .next (if (s.dom 3).st = .off then s else f s)

/-! ## The event sequencer (R435 to R442) -/

/-- The agent identifier of blocks that are not agents (Table 14-5). -/
def ccAgent : Nat := 0x70000000

/-- Takes the next sequence number (R435). -/
def State.stamp (s : State) : Nat × State :=
  (s.es.seq.toNat, { s with es := { s.es with seq := s.es.seq + 1 } })

/-- ES_TYPE_MASK[g] as it reads: derived in the basic view (R440). -/
def State.typeMaskOf (s : State) (g : Nat) : W32 :=
  if s.es.level then tget 0 s.es.typeMask g else if s.es.groupMask.toNat.testBit (g - 1) then 0xFFFFFFFE else 0

/-- Whether an event type is masked (R440): only groups 1 to 4 can be. -/
def State.masked (s : State) (type : Nat) : Bool :=
  let g := type / 256
  1 ≤ g && g ≤ 4 && (s.es.groupMask.toNat.testBit (g - 1) || (s.typeMaskOf g).toNat.testBit (type % 256))

/-- Records the sequencer keeps before it loses one (R441). -/
def esRoom : Nat := 4095

/-- Increment of a saturating 32-bit counter (R444). -/
def satInc32 (x : W32) : W32 := if x = 0xFFFFFFFF then x else x + 1

/-- Enters the events-lost record once there is room after a loss (R441). -/
def State.enterLost (s : State) : State :=
  if s.es.lostSince = 0 || s.es.buffer.length ≥ esRoom then s else
  let (q, s) := s.stamp
  { s with es := { s.es with
      buffer := s.es.buffer ++ [{ seq := q, type := 0x602, part := none, time := s.es.time.toNat, source := ccAgent, aux := 0,
                                  detail := s.es.firstLost + min s.es.lostSince 0xFFFFFFFF * 2 ^ 32 }],
      lostSince := 0, firstLost := 0 } }

/-- Stamps an event and keeps its record unless it is masked or lost (R435, R438 to R441). The stamp is returned. -/
def State.event (s : State) (type : Nat) (part : Option Nat) (source aux detail : Nat) : Nat × State :=
  let s := s.enterLost
  let (q, s) := s.stamp
  if s.masked type then (q, s)
  else if s.es.buffer.length ≥ esRoom then
    (q, { s with es := { s.es with lost := satInc32 s.es.lost, firstLost := if s.es.lostSince = 0 then q else s.es.firstLost,
                                   lostSince := s.es.lostSince + 1 } })
  else
    (q, { s with es := { s.es with buffer := s.es.buffer ++
      [{ seq := q, type := type, part := part, time := s.es.time.toNat, source := source, aux := aux, detail := detail }] } })

/-- The state after an event, its stamp dropped. -/
def State.post (s : State) (type : Nat) (part : Option Nat) (source aux detail : Nat) : State := (s.event type part source aux detail).2

/-- The advert is to be written again: its SEQ is the latest stamp's and its TIME the present (R412; log entry 9). -/
def State.advertise (s : State) : State :=
  { s with hif := { s.hif with advertDue := true, advertSeq := (s.es.seq - 1).toNat, advertTime := s.es.time.toNat } }

/-- A performance counter of a port counts up (R444, R445): saturating at 48 bits, with its overflow bit and one event. -/
def State.count (s : State) (port w : Nat) : State :=
  let q := s.port port
  let v := tget (0 : BitVec 48) q.cnt w
  let i := 8 * port + w
  if v = BitVec.ofNat 48 0xFFFFFFFFFFFF then s
  else
    let s := s.setPort port { q with cnt := tset 0 q.cnt w (v + 1) }
    if v + 1 = BitVec.ofNat 48 0xFFFFFFFFFFFF then
      let s := { s with es := { s.es with cntOvf := s.es.cntOvf ||| (1#144 <<< i) } }
      s.post 0x601 none ccAgent 0 i
    else s

/-! ## Completions (R408) -/

def stOK : Nat := 0
def stRefused : Nat := 1
def stAborted : Nat := 2
def stAbandoned : Nat := 3
def stAlready : Nat := 4
def stNotFound : Nat := 5
def stReset : Nat := 6

/-- A completion record of a command of the history is posted. The first of several decides an ABORT (R421); a command has completed once
none is left (R407, R408). -/
def Past.complete (h : Past) (q : Nat) : Past := match h.st with
  | .done _ => { h with left := h.left - 1 }
  | _ => { h with left := h.left - 1, st := .done q }

/-- Posts the completion record of a command; its stamp decides an ABORT (R421). -/
def State.complete (s : State) (ring tag stamp part status reason value detail : Nat) : State :=
  let (q, s) := s.stamp
  { s with hif := { s.hif with
      compl := s.hif.compl ++ [{ tag := tag, ring := ring, partition := part, status := status, reason := reason, seq := q,
                                 value := value, detail := detail }],
      history := s.hif.history.map (fun h => if h.stamp = stamp then h.complete q else h) } }

/-! ## Part states (R466 to R468) -/

/-- Codes of the part states (R466). -/
def PState.code : PState → Nat
  | .off => 0 | .reset => 1 | .boot => 2 | .linkTrain => 3 | .topoCheck => 4 | .ready => 5 | .run => 6 | .halted => 7 | .lost => 8

/-- A change of part state posts one part-state event and changes the advert (R466, R468, R412); no event while D01 does not run. -/
def State.setPState (s : State) (st : PState) (reason : Nat) (dom : Nat := 0x3F) : State :=
  let old := s.rst.state
  let s := { s with rst := { s.rst with state := st } }
  if s.domOn 1 then (s.post 0x504 none ccAgent reason (st.code + old.code * 16 + dom * 256)).advertise else s

/-- A loss of a part-wide block (R527, Table 15-6). -/
def State.lose (s : State) (reason : Nat) : State :=
  if s.rst.state = .off || s.rst.state = .lost then s else s.setPState .lost reason

/-! ## Slots, freeze causes, breaches (R60, R79 to R83) -/

/-- RATE of the current forme of a partition. -/
def Part.rate (x : Part) : Nat := byteAt x.image 0x10
def Part.period (x : Part) : Nat := periodOf x.rate
/-- Cycles of the running forme, frozen time excluded. -/
def Part.cycle (x : Part) : Nat := x.elapsed / x.period
def Part.slot (x : Part) : Nat := x.cycle / 256

/-- Run time of a partition after `dt` more units: it stops at the freeze boundary. -/
def Part.later (x : Part) (dt : Nat) : Nat :=
  match x.status, x.frz with
  | .running, .no => x.elapsed + dt
  | .running, .pending b => max x.elapsed (min (x.elapsed + dt) (b * x.period))
  | _, _ => x.elapsed

/-- The cycle that a partition's counters show when its run comes to a cycle: they stop at the freeze boundary (R82). -/
def Part.shown (x : Part) (cyc : Nat) : Nat :=
  match x.frz with
  | .no => cyc
  | .pending b | .stopped b | .thawing b => min cyc b

/-- What the issue cycle of an action has gained when its run has ended before it (R93). -/
def runSpan : Nat := 2 ^ 64

/-- The SLOT field of records: slot counter in [39:0], cycle in [47:40] (Table 03-12). -/
def slotWord (cyc : Nat) : Nat := cyc / 256 % 2 ^ 40 + (cyc % 256) * 2 ^ 40

/-- The freeze boundary of a cause detected at a cycle (R82): the first slot boundary at least 128 cycles later. -/
def freezeBoundaryOf (cyc : Nat) : Nat := cdiv (cyc + 128) 256 * 256

/-- The EPOCH value in force for an agent: that of the fill item in which it issues, or of which the control complex speaks
(Table 03-9). -/
def Part.epochFor (x : Part) (agent : Nat) : Nat :=
  match x.fillCur with
  | some (i, _) =>
    if agent = 0x70000000 || x.seqs.any (fun q => q.agent == agent && q.fill.isSome) then 0x8000 + i else x.epochVal
  | none => x.epochVal

/-- Adds a freeze cause with its freeze point. The earliest freeze point stops a running partition, in whatever order causes are recorded
(R82, R83). A cause that arises while the partition thaws belongs to the next freeze, whose boundary THAW sets. -/
def Part.addCauseAt (x : Part) (c : Cause) (b : Nat) : Part :=
  let x := { x with causes := if x.causes.contains c then x.causes else x.causes ++ [c] }
  match x.status, x.frz with
  | .running, .no => { x with frz := .pending b }
  | .running, .pending b' => { x with frz := .pending (min b' b) }
  | _, _ => x

/-- Adds a freeze cause detected at a cycle: its freeze point is the freeze boundary. -/
def Part.addCause (x : Part) (c : Cause) (cyc : Nat) : Part := x.addCauseAt c (freezeBoundaryOf cyc)

def State.freeze (s : State) (p : Nat) (c : Cause) (cyc : Nat) : State := s.modPart p (fun x => x.addCause c cyc)

/-- What a breach record holds beyond the partition's own fields (Table 03-12). -/
structure BreachInfo where
  cls : Nat
  agentA : Nat
  actionA : Nat
  other : Option (Nat × Nat)    -- AGENT_B and ACTION_B
  resource : Nat
  token : Nat
  seen : Nat
  detail : Nat
  poisoned : Bool
  deriving DecidableEq, Repr

def BreachInfo.collision (agent action resource : Nat) (other : Option (Nat × Nat)) : BreachInfo :=
  { cls := 3, agentA := agent, actionA := action, other := other, resource := resource, token := 0xFFFF, seen := 0,
    detail := 0, poisoned := false }

/-- The 64 bytes of a breach record (Table 03-12). -/
def breachBytes (s : State) (p seq cyc : Nat) (b : BreachInfo) : List Byte :=
  let x := s.part p
  leBytes 4 seq ++ leBytes 1 b.cls ++ leBytes 1 p ++ leBytes 2 (b2n b.other.isSome + 2 * b2n b.poisoned) ++
  leBytes 8 s.es.time.toNat ++ leBytes 8 (slotWord (x.shown cyc)) ++ leBytes 4 x.cur ++ leBytes 2 (x.epochFor b.agentA) ++ leBytes 2 0 ++
  leBytes 4 b.agentA ++ leBytes 2 b.actionA ++ leBytes 2 ((b.other.map (·.2)).getD 0xFFFF) ++
  leBytes 4 ((b.other.map (·.1)).getD 0) ++ leBytes 4 b.resource ++ leBytes 2 b.token ++ leBytes 2 b.seen ++
  leBytes 4 0 ++ leBytes 8 b.detail

/-- Sets bit 0 or 2 of the FLAGS byte at `off` of a kept record. -/
def orByte (r : List Byte) (off v : Nat) : List Byte := r.modify off (fun b => b ||| BitVec.ofNat 8 v)

/-- Records a breach and makes it a freeze cause of the partition (R79 to R81, R447). -/
def State.breach (s : State) (p cyc : Nat) (b : BreachInfo) : State :=
  let (q, s) := s.event 1 (some p) b.agentA 0 b.cls
  let fresh := !(s.part p).causes.contains .breach
  let old := if fresh then [] else tget [] s.cc.breach p
  let cnt := if fresh then (0 : W32) else tget 0 s.cc.breachCnt p
  let recs := if old.length < 16 then old ++ [breachBytes s p q cyc b] else old.modify 15 (fun r => orByte r 6 4)
  let s := { s with cc := { s.cc with breach := tset [] s.cc.breach p recs, breachCnt := tset 0 s.cc.breachCnt p (satInc32 cnt) } }
  s.freeze p .breach cyc

/-! ## Consumption of poison (R521, R523) -/

/-- The 48 bytes of a fault record (Table 17-3). -/
def faultBytes (s : State) (p seq cyc origin agent action where' : Nat) : List Byte :=
  let x := s.part p
  leBytes 4 seq ++ leBytes 1 origin ++ leBytes 1 p ++ leBytes 2 0 ++ leBytes 4 x.cur ++ leBytes 4 agent ++
  leBytes 2 action ++ leBytes 2 (x.epochFor agent) ++ leBytes 4 0 ++ leBytes 8 (slotWord (x.shown cyc)) ++ leBytes 8 where' ++ leBytes 8 s.es.time.toNat

/-- A consuming agent posts its event, fills a fault record and freezes its partition (R521, R523). -/
def State.consume (s : State) (p cyc origin agent action where' : Nat) : State :=
  if origin = 0 then s else
  let (q, s) := s.event 0x205 (some p) agent (0x720 + origin) where'
  let fresh := !(s.part p).causes.contains .poison
  let old := if fresh then [] else tget [] s.sec.faults p
  let recs := if old.length < 16 then old ++ [faultBytes s p q cyc origin agent action where'] else old.modify 15 (fun r => orByte r 6 1)
  let s := { s with sec := { s.sec with faults := tset [] s.sec.faults p recs, reason := BitVec.ofNat 16 (0x720 + origin) } }
  s.freeze p .poison cyc

/-- WHERE of a device address and of a resource (Table 17-3). -/
def whereDev (a : Nat) : Nat := a % 2 ^ 57
def whereRes (r : Nat) : Nat := 2 ^ 63 + r

/-- The last corrected error and the last uncorrectable one, as SEC shows them (R517, Table 17-12). -/
def State.secErr (s : State) (origin where' : Nat) : State :=
  { s with sec := { s.sec with err := BitVec.ofNat 32 (0x80000000 + origin), errWhere := BitVec.ofNat 64 where' } }
def State.secUnc (s : State) (origin where' : Nat) : State :=
  { s with sec := { s.sec with unc := BitVec.ofNat 32 (0x80000000 + origin), uncWhere := BitVec.ofNat 64 where' } }

/-! ## Device addresses (R297, R298, R309) -/

/-- Bytes of one board channel (Table 10-3): DENSITY 1 L6, 2 L12, 3 L24. -/
def State.cap (s : State) : Nat :=
  match s.mem.density with
  | 1 => 6442450944 | 2 => 12884901888 | 3 => 25769803776 | _ => 0

def stackTop : Nat := 0x8000000000
def boardBase : Nat := 0x10000000000
def hostBase : Nat := 0x100000000000000
def pageBytes : Nat := 2097152
def fwRegion : Nat := 67108864
/-- Key of the first host-window page in the page table. -/
def hostPage0 : Nat := 1048576

def State.boardTop (s : State) : Nat := boardBase + 64 * s.cap
def State.hostTop (s : State) : Nat := hostBase + s.mem.window.toNat * pageBytes

/-- Where a device address lies. -/
inductive Place where
  | stack (channel off : Nat)     -- 32 * stack + channel
  | board (channel off : Nat)
  | host (page off : Nat)
  | reserved
  deriving DecidableEq, Repr

def State.place (s : State) (a : Nat) : Place :=
  if a < stackTop then .stack (a / 2147483648) (a % 2147483648)
  else if boardBase ≤ a && a < s.boardTop then .board ((a - boardBase) / s.cap) ((a - boardBase) % s.cap)
  else if hostBase ≤ a && a < s.hostTop then .host ((a - hostBase) / pageBytes) ((a - hostBase) % pageBytes)
  else .reserved

/-- The firmware region: the last bytes of board channel B63 (Table 10-2). -/
def State.fwBase (s : State) : Nat := s.boardTop - fwRegion
/-- The device address of the entry of a page (R309): board pages from the base of the firmware region on, host-window pages after them. -/
def State.entryAddr (s : State) (k : Nat) : Nat :=
  s.fwBase + 8 * (if k < hostPage0 then k else 64 * s.cap / pageBytes + (k - hostPage0))
/-- The entry of a page after a full reset (R310): a board page is PRESENT and not PINNED, a host-window page absent. -/
def newEntry (k : Nat) : BitVec 64 := if k < hostPage0 then 0x8000000000000000 else 0
/-- A page's entry as firmware writes it; no command reads or writes its bytes (log entry 68). -/
def State.pteRaw (s : State) (k : Nat) : BitVec 64 := tget (newEntry k) s.mem.pte (s.entryAddr k)
def State.setPte (s : State) (k : Nat) (v : BitVec 64) : State :=
  { s with mem := { s.mem with pte := tset (newEntry k) s.mem.pte (s.entryAddr k) v } }
def boardPage (a : Nat) : Nat := (a - boardBase) / pageBytes
def hostPage (a : Nat) : Nat := hostPage0 + (a - hostBase) / pageBytes

/-- The number of a page in the page tables. -/
def pageKey (a : Nat) : Nat := if hostBase ≤ a then hostPage a else boardPage a
def State.pagePresent (s : State) (a : Nat) : Bool := (s.pteRaw (pageKey a)).getLsbD 63
def State.pinned (s : State) (a : Nat) : Bool := (s.pteRaw (pageKey a)).getLsbD 62

/-- A board page within a partition's ranges. -/
def State.boardInRange (s : State) (p a : Nat) : Bool :=
  let e := s.lay p
  match s.place a with
  | .board c off => bit e.board c && decide (e.bLo * pageBytes ≤ off) && decide (off < e.bHi * pageBytes)
  | _ => false

/-- PARTITION of a page (Table 10-8): a board page's is the partition whose range of the layout in force holds it, 0 without one; a host-window
page's was set by its last MAP. -/
def State.pagePartition (s : State) (a : Nat) : Nat :=
  if hostBase ≤ a then bits (s.pteRaw (pageKey a)).toNat 60 58 else (lookupBy (fun p => s.boardInRange p a) partNums).getD 0

/-- The host address behind a host-window address (Table 10-8 FRAME). -/
def State.hostAddr (s : State) (a : Nat) : Nat :=
  ((s.pteRaw (hostPage a)).toNat % 2 ^ 43) * pageBytes + (a - hostBase) % pageBytes

/-- How an access of a partition's agent to one device byte is served. -/
inductive Access where
  | ok
  | outside      -- R298
  | unserved     -- R486
  | absent       -- R312
  deriving DecidableEq, Repr

/-- The power domain of a stack's engines and channels, and of a board channel (Table 16-1). -/
def stackDom (channel : Nat) : Nat := 11 + channel / 32
def boardDom (channel : Nat) : Nat := if channel < 32 then 9 else 10

def State.stackServed (s : State) (channel : Nat) : Bool :=
  let d := stackDom channel
  s.domOn d || ((s.dom d).st == .gated && s.released d)
def State.boardServed (s : State) (channel : Nat) : Bool := s.domOn (boardDom channel)

def State.access (s : State) (p a : Nat) : Access :=
  let e := s.lay p
  match s.place a with
  | .stack c off =>
    if bit e.stackSet (c / 32) && e.sLo * pageBytes ≤ off && off < e.sHi * pageBytes then
      if s.stackServed c then .ok else .unserved
    else .outside
  | .board c off =>
    if bit e.board c && e.bLo * pageBytes ≤ off && off < e.bHi * pageBytes then
      if !s.boardServed c then .unserved else if s.pagePresent a then .ok else .absent
    else .outside
  | .host _ _ =>
    if !s.pagePresent a then .absent
    else if s.pagePartition a = p then .ok else .outside
  | .reserved => .outside

/-- The worst access over the pages a run touches: the first that is not served. -/
def State.accessRun (s : State) (p a n : Nat) : Access × Nat :=
  let pages := (upTo ((a + n - 1) / pageBytes - a / pageBytes + 1)).map (fun k => max a ((a / pageBytes + k) * pageBytes))
  let pages := if n = 0 then [] else pages ++ [a + n - 1]
  match pages.find? (fun x => s.access p x != .ok) with
  | some x => (s.access p x, x)
  | none => (.ok, 0)

/-- Reading and writing device bytes after the access has been found good; the host window reaches host memory. -/
def State.devRead (s : State) (a n : Nat) : Run :=
  if a < hostBase then s.read .dev a n else s.hostFetch (s.hostAddr a) n
def State.devWrite (s : State) (a : Nat) (r : Run) : State :=
  if a < hostBase then s.write .dev a r else s.hostSend (s.hostAddr a) r

/-- Whether a device range lies wholly in the channel of a near-memory engine or of a channel update unit (R227). -/
def State.inChannel (s : State) (nme : Bool) (ch a n : Nat) : Bool :=
  if nme then ch * 2147483648 ≤ a && a + n ≤ (ch + 1) * 2147483648
  else boardBase + ch * s.cap ≤ a && a + n ≤ boardBase + (ch + 1) * s.cap

/-! ## Weir shares (Table 10-15, R318) -/

def weirKey (w o : Nat) : Nat := 16 * w + o
/-- Key of an owner's queue at a weir: a link weir has one for each port of its group, which repeats the calendar (Table 10-7). -/
def queueKey (w o port : Nat) : Nat := weirKey w o + 65536 * port
def State.weirReg (s : State) (w o : Nat) : Nat := (tget (0 : W32) s.mem.weir (weirKey w o)).toNat
/-- Cells, first cell and queue limit of an owner at a weir. -/
def State.weirCells (s : State) (w o : Nat) : Nat := bits (s.weirReg w o) 14 8
def State.weirFirst (s : State) (w o : Nat) : Nat := bits (s.weirReg w o) 5 0
def State.weirDepth (s : State) (w o : Nat) : Nat := bits (s.weirReg w o) 31 16

/-- A time that no run reaches: a path without a cell moves no byte. -/
def never : Nat := 2 ^ 100

/-- Clock units that `n` bytes take at a near-memory engine (256 GB/s) or, for a channel update unit, at the partition's share of
its board channel: 64 bytes in each of its cells of 14,000 units (R217, R230). -/
def State.engineTime (s : State) (p e n : Nat) : Nat :=
  if e < 256 then cdiv (n * unitsPerNs) 256
  else let k := s.weirCells (0x100 + (e - 256)) p
    if k = 0 then never else cdiv (n * 14000) k

/-- Clock units per cycle of an update engine's island (R230, R302). -/
def State.enginePeriod (s : State) (e : Nat) : Nat := if e < 256 then periodOf (s.dom (stackDom e)).rate else periodOf 1

/-! ## Flags and traps -/

def State.orMe (s : State) (c : Nat) (f : BitVec 4) : State := { s with num := { s.num with me := tmod 0 s.num.me c (· ||| f) } }
def State.orVe (s : State) (c : Nat) (f : BitVec 4) : State := { s with num := { s.num with ve := tmod 0 s.num.ve c (· ||| f) } }
/-- Flags of an update engine: near-memory engines 0 to 255, channel update units from 256 (R157). -/
def State.orEng (s : State) (e : Nat) (f : BitVec 4) : State :=
  if e < 256 then { s with num := { s.num with nme := tmod 0 s.num.nme e (· ||| f) } }
  else { s with num := { s.num with cuu := tmod 0 s.num.cuu (e - 256) (· ||| f) } }

/-- The run of the action that produces a NaN has ended. -/
def NanDue.over (d : NanDue) : Bool := decide (runSpan ≤ d.issue)

/-- One NaN meets the core's trap record: it fills the record and posts its event while VALID is clear, else it sets MORE (R158, R159).
DESIGN CHOICE (log entry 52): a NaN of another lane in the cycle of the recorded one finds VALID set, and one that an action produces after its
run has ended bears the slot that its run would have reached. -/
def State.trapOne (s : State) (p : Nat) (d : NanDue) : State :=
  let n := d.nan
  let t := tget Trap.zero s.num.traps d.core
  if t.status.getLsbD 31 then
    { s with num := { s.num with traps := tset Trap.zero s.num.traps d.core ({ t with status := t.status ||| 0x40000000 }) } }
  else
    let x := s.part p
    let st := 0x80000000 + b2n n.gen * 2 ^ 29 + b2n n.vector * 2 ^ 28 + n.galley * 2 ^ 24 + n.lane * 2 ^ 16 + d.fmtA * 2 ^ 12 + d.fmtB * 2 ^ 8
    let t' : Trap :=
      { status := BitVec.ofNat 32 st, formeId := d.forme, opId := d.opId, action := d.action, epoch := d.epoch,
        slot := slotWord (if d.over then n.cycle else x.shown n.cycle), row := n.row, col := n.col, chunk := n.chunk }
    let s := { s with num := { s.num with traps := tset Trap.zero s.num.traps d.core t' } }
    let s := s.post 0x101 (some p) d.core 0 d.opId
    if bit x.policy (d.core / 64) || !(x.status == .running || x.status == .frozen) then s
    else s.freeze p .trap (if d.over then x.later (d.due - s.clk) / x.period else n.cycle)

/-- The model clock at a cycle of a running partition. -/
def State.clkAt (s : State) (p cyc : Nat) : Nat :=
  let x := s.part p
  s.clk + cyc * x.period - x.elapsed

/-- The NaNs of an action, in the order of its lanes, are produced at their cycles (R158), which go on past a freeze boundary (R82). DESIGN CHOICE
(log entry 52): EPOCH of the record is the one in which the action has issued. -/
def State.trapNans (s : State) (p core opId action issue fmtA fmtB : Nat) (ns : List NanAt) : State :=
  s.modPart p (fun x => { x with nans := x.nans ++ ns.map (fun n =>
    { core := core, due := s.clkAt p (n.cycle + 1), forme := x.cur, opId := opId, action := action, issue := issue, epoch := x.epochFor core, fmtA := fmtA, fmtB := fmtB, nan := n }) })

/-- Whether a NaN comes before another: in an earlier cycle, or in the same one from the matrix engine instead of the vector engine. -/
def NanDue.before (a b : NanDue) : Bool :=
  decide (a.due < b.due) || (a.due == b.due && !a.nan.vector && b.nan.vector)
def NanDue.insert (n : NanDue) : List NanDue → List NanDue
  | [] => [n]
  | m :: rest => if n.before m then n :: m :: rest else m :: NanDue.insert n rest
/-- NaNs in the order in which they meet the trap record, those of one engine and cycle as its lanes are numbered. -/
def NanDue.sort (l : List NanDue) : List NanDue := l.foldl (fun acc n => NanDue.insert n acc) []

end Sys2Proof.Machine
end

