-- ==== Sys2Proof/Machine/Operands.lean ====
section
/-! DEFINITION. The forme image (chapter 03): header, sections, tables, action records; and the operand forms shared by the engines. -/
namespace Sys2Proof.Machine

open Sys2Proof

/-! ## Agents and units (R32, R57) -/

def agKind (a : Nat) : Nat := bits a 31 28
def agNum (a : Nat) : Nat := bits a 15 0
def isGroup (u : Nat) : Bool := bit u 15
def unitIndex (u : Nat) : Nat := bits u 9 0
def coreField (c : Nat) : Nat := bits c 9 6
/-- A valid core address (R33). -/
def coreOk (u : Nat) : Bool := u < 1024 && bits u 5 2 ≤ 8

/-! ## Header and sections (R62) -/

def Image.formeId (m : Image) : Nat := fld m 0x08 4
def Image.size (m : Image) : Nat := fld m 0x0C 4
def Image.rateCode (m : Image) : Nat := byteAt m 0x10
def Image.fieldMask (m : Image) : Nat := fld m 0x12 2
def Image.stackMask (m : Image) : Nat := byteAt m 0x14
def Image.linkMask (m : Image) : Nat := byteAt m 0x15
def Image.rvCount (m : Image) : Nat := fld m 0x16 2
def Image.boardMask (m : Image) : Nat := fld m 0x18 8
def Image.secOff (m : Image) (i : Nat) : Nat := fld m (0x40 + 8 * i) 4
def Image.secLen (m : Image) (i : Nat) : Nat := fld m (0x44 + 8 * i) 4
/-- The bytes of a section. -/
def Image.sec (m : Image) (i : Nat) : List Byte := (m.drop (m.secOff i)).take (m.secLen i)
/-- Entry `k` of a section of fixed entries. -/
def Image.entry (m : Image) (i size k : Nat) : List Byte := ((m.sec i).drop (size * k)).take size
def Image.entries (m : Image) (i size : Nat) : Nat := m.secLen i / size

/-! ## Unit table (R63, R64) -/

/-- A unit-table entry (Table 03-4). -/
structure UnitEntry where
  members : Nat
  split : Nat
  list : Nat
  tileM : Nat
  tileN : Nat
  rsv : Bool
  deriving DecidableEq, Repr

def UnitEntry.parse (b : List Byte) : UnitEntry :=
  { members := fld b 0 2, split := byteAt b 2, list := fld b 4 4, tileM := fld b 8 2, tileN := fld b 0xA 2,
    rsv := byteAt b 3 != 0 || fld b 0xC 4 != 0 }

/-- The number of unit-table entries: the array ends at the lowest LIST offset among the entries read so far (R63). -/
def unitCountGo (sec : List Byte) : Nat → Nat → Nat → Nat
  | 0, i, _ => i
  | fuel + 1, i, low =>
    if 16 * i ≥ low || 16 * (i + 1) > sec.length then low / 16
    else unitCountGo sec fuel (i + 1) (min low (fld sec (16 * i + 4) 4))

def Image.unitCount (m : Image) : Nat :=
  if m.secLen 0 = 0 then 0 else min 1025 (unitCountGo (m.sec 0) 1025 0 (m.secLen 0))

def Image.unit (m : Image) (i : Nat) : UnitEntry := UnitEntry.parse (((m.sec 0).drop (16 * i)).take 16)

/-- The unit addresses of a group's member list. -/
def Image.memberList (m : Image) (i : Nat) : List Nat :=
  let e := m.unit i
  (upTo e.members).map (fun k => fld (m.sec 0) (e.list + 2 * k) 2)

/-- The member cores of a unit, at any depth (R34, R35). -/
def Image.coresOf (m : Image) : Nat → Nat → List Nat
  | 0, _ => []
  | fuel + 1, u =>
    if isGroup u then (m.memberList (unitIndex u)).flatMap (Image.coresOf m fuel) else [unitIndex u]

/-- Depth bound of the unit tree: the 1,024 entries of the table. -/
def unitDepth : Nat := 1025

def Image.cores (m : Image) (u : Nat) : List Nat := m.coresOf unitDepth u

/-! ## Bindings, programs, action records (R65, R66) -/

/-- An agent binding (Table 03-5). -/
structure Binding where
  agent : Nat
  progOff : Nat
  progLen : Nat
  paramOff : Nat
  rsv : Bool
  deriving DecidableEq, Repr

def Binding.parse (b : List Byte) : Binding :=
  { agent := fld b 0 4, progOff := fld b 4 4, progLen := fld b 8 2, paramOff := fld b 0xC 4, rsv := fld b 0xA 2 != 0 }

def Image.bindings (m : Image) : List Binding := (upTo (m.entries 1 16)).map (fun k => Binding.parse (m.entry 1 16 k))
def Image.binding (m : Image) (a : Nat) : Option Binding := lookupBy (fun b => b.agent == a) m.bindings

/-- An action record (Table 03-6). -/
structure ARec where
  opcode : Nat
  span : Nat
  rsv : Nat
  own : Nat
  tokIn : Nat
  tokOut : Nat
  atSlot : Nat
  atCycle : Nat
  arg : Nat
  deriving DecidableEq, Repr

def ARec.parse (b : List Byte) : ARec :=
  let x := fld b 0 16
  { opcode := bits x 127 120, span := bits x 119 118, rsv := bits x 117 112, own := bits x 111 96, tokIn := bits x 95 80,
    tokOut := bits x 79 64, atSlot := bits x 63 40, atCycle := bits x 39 32, arg := bits x 31 0 }

def Image.arec (m : Image) (b : Binding) (k : Nat) : ARec := ARec.parse (((m.sec 2).drop (b.progOff + 16 * k)).take 16)
def Image.program (m : Image) (b : Binding) : List ARec := (upTo b.progLen).map (m.arec b)
/-- Bytes of the parameter block of a binding from an offset on. -/
def Image.param (m : Image) (b : Binding) (off n : Nat) : List Byte := ((m.sec 2).drop (b.paramOff + off)).take n

/-! ## Ownership, tokens, rendezvous, fill, weirs (R70, R77, R78, R88, R92) -/

/-- An ownership entry (Table 03-9). -/
structure Own where
  resource : Nat
  agent : Nat
  action : Nat
  epoch : Nat
  first : Nat
  length : Nat
  period : Nat
  count : Nat
  rsv : Bool
  deriving DecidableEq, Repr

def Own.parse (b : List Byte) : Own :=
  { resource := fld b 0 4, agent := fld b 4 4, action := fld b 8 2, epoch := fld b 0xA 2, first := fld b 0xC 4,
    length := fld b 0x10 4, period := fld b 0x14 4, count := fld b 0x18 4, rsv := fld b 0x1C 4 != 0 }

def Image.own (m : Image) (k : Nat) : Own := Own.parse (m.entry 3 32 k)

/-- Whether a slot of the entry's epoch lies in one of its windows (R70). -/
def Own.covers (o : Own) (slot : Nat) : Bool :=
  if slot < o.first then false
  else
    let j := if o.period = 0 then 0 else min ((slot - o.first) / o.period) (o.count - 1)
    -- with LENGTH above PERIOD an earlier window may still cover the slot; the latest one begun covers it first
    let start := o.first + j * o.period
    o.count != 0 && slot < start + o.length

/-- A token entry (Table 03-10). -/
structure Token where
  producer : Nat
  consumer : Nat
  count : Nat
  deadline : Nat
  rsv : Bool
  deriving DecidableEq, Repr

def Token.parse (b : List Byte) : Token :=
  { producer := fld b 0 4, consumer := fld b 4 4, count := fld b 8 2, deadline := fld b 0xC 4, rsv := fld b 0xA 2 != 0 }

def Image.token (m : Image) (k : Nat) : Token := Token.parse (m.entry 4 16 k)
def Image.tokens (m : Image) : Nat := m.entries 4 16
/-- PORTS and ARRIVALS of a rendezvous entry (R88). -/
def Image.rv (m : Image) (k : Nat) : Nat × Nat := (fld (m.entry 5 16 k) 0 4, fld (m.entry 5 16 k) 4 2)
/-- GATE and WORST of a fill entry (R92). -/
def Image.fillEntry (m : Image) (k : Nat) : Nat × Nat := (fld (m.entry 6 8 k) 0 2, fld (m.entry 6 8 k) 2 2)
def Image.fills (m : Image) : Nat := m.entries 6 8

/-! ## Resource identifiers (Table 03-8) -/

def resGalley (core g : Nat) : Nat := 0x10000000 + g * 65536 + core
def resBank (core b : Nat) : Nat := 0x20000000 + b * 65536 + core
def resNme (e : Nat) : Nat := 0x50000000 + e
def resCuu (e : Nat) : Nat := 0x60000000 + e
def resWeir (p w : Nat) : Nat := 0x70000000 + p * 2 ^ 24 + w
def resSlot (port slot : Nat) : Nat := 0x80000000 + port * 65536 + slot
def resStore (die r : Nat) : Nat := 0x90000000 + die * 2 ^ 24 + r
/-- The resource identifier of an update engine: near-memory engines 0 to 255, channel update units from 256. -/
def resEngine (e : Nat) : Nat := if e < 256 then resNme e else resCuu (e - 256)
/-- Engine number of an agent of KIND 2 or 3. -/
def engOfAgent (a : Nat) : Nat := if agKind a = 2 then agNum a else 256 + agNum a
def agentOfEng (e : Nat) : Nat := if e < 256 then 0x20000000 + e else 0x30000000 + (e - 256)

/-- The core-memory banks of 128 KiB that a range of a core touches, ascending (R74). -/
def banksOf (core off n : Nat) : List Nat :=
  if n = 0 then [] else (upTo ((off + n - 1) / 131072 - off / 131072 + 1)).map (fun k => resBank core (off / 131072 + k))

/-- Each resource once, at its first appearance (R74). -/
def dedup (l : List Nat) : List Nat := l.foldl (fun acc x => if acc.contains x then acc else acc ++ [x]) []

/-! ## Rows of elements in memory -/

/-- Bytes of a row of `n` elements of a format: MX rows occupy whole blocks (R106, R107). -/
def rowBytes (fmt n : Nat) : Nat :=
  if isMx fmt then cdiv n 32 * (fmtBits fmt * 4) else cdiv (n * fmtBits fmt) 8

/-- The element codes of a row from its bytes. -/
def rowCodes (fmt n : Nat) (bs : List Byte) : List Nat :=
  (upTo n).map (fun i => packedElem (fmtBits fmt) bs i)

/-- The values of a row: element codes under block scales (MX), a per-tensor scale code, or none. -/
def rowValues (fmt n : Nat) (bs : List Byte) (scales : List Byte) (tensorScale : Nat) : List Num :=
  match fmtLayout fmt with
  | none => List.replicate n .nan
  | some f => (rowCodes fmt n bs).zipIdx.map (fun c =>
      decodeScaled f (if isMx fmt then byteAt scales (c.2 / 32) else tensorScale) c.1)

/-- Bytes of a row from its element codes. -/
def rowPack (fmt : Nat) (codes : List Nat) : List Byte := packElems (fmtBits fmt) codes

/-- A row converted to an output format: bytes, MX scale bytes, flags (R119 to R123); not per-tensor. -/
def rowEncode (fmt : Nat) (xs : List Num) : List Byte × List Byte × Flags :=
  match fmtLayout fmt with
  | none => ([], [], Flags.none)
  | some f =>
    if isMx fmt then
      let bl := (groupsOf 32 xs.length xs).map (mxBlock fmt f)
      ((bl.map (fun b => packElems (fmtBits fmt) b.2.1)).flatten, bl.map (fun b => BitVec.ofNat 8 b.1),
        bl.foldl (fun a b => a ||| b.2.2) Flags.none)
    else
      let o := xs.map f.encode
      (packElems (fmtBits fmt) (o.map (·.1)), [], o.foldl (fun a r => a ||| r.2) Flags.none)

/-- The value of SCALE of a per-tensor operand (R125): the record's SCALE, or 2^0 where none is named. -/
def tensorScaleOf (s : State) (core kind addr : Nat) : Nat :=
  if kind = 2 then byteAt (s.read .core (coreAt core (addr + 4)) 1).plain 0 else 0x7F

end Sys2Proof.Machine
end

