-- ==== Sys2Proof/Machine/CacheSet.lean ====
section
/-! DEFINITION. The cache set record, page tables, free rings and step-boundary actions of the decode cache (R277 to R289). -/
namespace Sys2Proof.Machine

open Sys2Proof

/-- The bytes of a device range as firmware reads them. -/
def State.fwRead (s : State) (a n : Nat) : Nat := leNat (s.devRead (a % 2 ^ 57) n).plain
def State.fwWrite (s : State) (a n v : Nat) : State := s.devWrite (a % 2 ^ 57) (Run.sound (leBytes n v))

/-- A cache set record (Table 09-8); `entries` are the bytes of its engine entries, as far as they came with it. -/
structure CacheSet where
  base : Nat
  magic : Nat
  n : Nat
  cg : Nat
  h : Nat
  kFmt : Nat
  vFmt : Nat
  d : Nat
  kScale : Nat
  vScale : Nat
  tokenBytes : Nat
  t : Nat
  layers : Nat
  slots : Nat
  ppe : Nat
  grace : Nat
  seqTable : Nat
  buckets : Nat
  rsv : Bool
  entries : List Byte
  deriving DecidableEq, Repr

def CacheSet.ng (c : CacheSet) : Nat := c.n / c.cg

def CacheSet.parse (base : Nat) (b : List Byte) : CacheSet :=
  { base := base, magic := fld b 0 4, n := fld b 4 2, cg := fld b 6 2, h := byteAt b 8, kFmt := byteAt b 9 % 16,
    vFmt := byteAt b 9 / 16, d := fld b 0xA 2, kScale := byteAt b 0xC, vScale := byteAt b 0xD, tokenBytes := fld b 0xE 2,
    t := fld b 0x10 2, layers := fld b 0x12 2, slots := fld b 0x14 2, ppe := fld b 0x16 2, grace := fld b 0x18 4,
    seqTable := fld b 0x20 8, buckets := fld b 0x28 8, rsv := fld b 0x1C 4 != 0 || fld b 0x30 16 != 0, entries := b.drop 0x40 }

/-- What CACHE_SET copies from an address into control memory: the record with its engine entries (R429). -/
def State.cacheCopy (s : State) (a : Nat) : List Byte :=
  (s.devRead a (0x40 + 32 * (CacheSet.parse a (s.devRead a 64).plain).n)).plain

/-- The cache set record at an address as a partition uses it: firmware's copy where it is the one that the partition has registered, else what
stands in device memory. -/
def State.cacheSetAt (s : State) (p a : Nat) : CacheSet :=
  CacheSet.parse a (if (s.part p).cset = some a then (s.part p).csetRec else (s.devRead a 64).plain)

/-- The partition's registered record. -/
def State.cset (s : State) (p : Nat) : Option CacheSet := (s.part p).cset.map (s.cacheSetAt p)

/-- An engine entry (Table 09-9) of a record. -/
structure CacheEng where
  at' : Nat             -- address of the entry
  engine : Nat
  freeCap : Nat
  cpt : Nat
  free : Nat
  head : Nat
  tail : Nat
  rsv : Bool
  deriving DecidableEq, Repr

/-- An engine entry: its constant fields come with the record where it is firmware's copy; the two indices always stand in device memory, where
appends and firmware advance them (R283, R285). -/
def State.cacheEng (s : State) (c : CacheSet) (i : Nat) : CacheEng :=
  let a := c.base + 0x40 + 32 * i
  let m := (s.devRead a 32).plain
  let b := if 32 * i + 32 ≤ c.entries.length then (c.entries.drop (32 * i)).take 32 else m
  { at' := a, engine := fld b 0 2, freeCap := fld b 4 4, cpt := fld b 8 8, free := fld b 0x10 8, head := fld m 0x18 4,
    tail := fld m 0x1C 4, rsv := fld b 2 2 != 0 }

/-- The modulus of the ring indices (R284). -/
def CacheEng.wrap (e : CacheEng) : Nat := e.freeCap * (2 ^ 32 / e.freeCap)
def CacheEng.next (e : CacheEng) (i : Nat) : Nat := (i + 1) % e.wrap
/-- Pages in the ring (R284). -/
def CacheEng.count (e : CacheEng) : Nat := (e.tail + e.wrap - e.head) % e.wrap

/-- The pages listed in a ring, from the head. -/
def State.ringPages (s : State) (e : CacheEng) : List Nat :=
  (upTo e.count).map (fun k => s.fwRead (e.free + 8 * ((e.head + k) % e.wrap % e.freeCap)) 8)

/-- Bytes of one head of a token (R277): the K and V vectors, then the scales of the MX formats. -/
def CacheSet.headBytes (c : CacheSet) : Nat :=
  c.d * fmtBits c.kFmt / 8 + c.d * fmtBits c.vFmt / 8 + (if isMx c.kFmt then c.d / 32 else 0) + (if isMx c.vFmt then c.d / 32 else 0)

/-- The engine index of a logical page (R279). -/
def CacheSet.holder (c : CacheSet) (slot layer j : Nat) : Nat := slot % c.cg * c.ng + (j + layer) % c.ng
def CacheSet.localIndex (c : CacheSet) (j : Nat) : Nat := j / c.ng

/-- The address of a page-table entry (R280). -/
def CacheSet.cptEntry (c : CacheSet) (e : CacheEng) (slot layer i : Nat) : Nat :=
  e.cpt + ((slot / c.cg * c.layers + layer) * c.ppe + i) * 8

def pteValid (w : Nat) : Bool := bit w 63
def pteParked (w : Nat) : Bool := bit w 62
def pteAddr (w : Nat) : Nat := bits w 56 18 * 2 ^ 18
def mkPte (parked : Bool) (addr : Nat) : Nat := 2 ^ 63 + b2n parked * 2 ^ 62 + addr % 2 ^ 57

/-- The fields of a sequence-table entry (Table 09-11). -/
structure SeqEntry where
  seqId : Nat
  length : Nat
  state : Nat
  bucket : Nat
  row : Nat
  pending : Nat
  deriving DecidableEq, Repr

def CacheSet.seqAt (c : CacheSet) (slot : Nat) : Nat := c.seqTable + 16 * slot
def State.seqEntry (s : State) (c : CacheSet) (slot : Nat) : SeqEntry :=
  let b := (s.devRead (c.seqAt slot) 16).plain
  { seqId := fld b 0 4, length := fld b 4 4, state := byteAt b 8, bucket := byteAt b 9, row := fld b 0xA 2, pending := fld b 0xC 2 }
def State.putSeq (s : State) (c : CacheSet) (slot : Nat) (e : SeqEntry) : State :=
  s.devWrite (c.seqAt slot) (Run.sound (leBytes 4 e.seqId ++ leBytes 4 e.length ++ leBytes 1 e.state ++ leBytes 1 e.bucket ++
    leBytes 2 e.row ++ leBytes 2 e.pending))

/-- One bucket (Table 09-13). -/
structure Bucket where
  capLen : Nat
  rows : Nat
  rowMap : Nat
  rsv : Bool
  deriving DecidableEq, Repr

def State.bucketCount (s : State) (c : CacheSet) : Nat := s.fwRead c.buckets 1
def State.stepTokens (s : State) (c : CacheSet) : Nat := s.fwRead (c.buckets + 2) 2
def State.bucket (s : State) (c : CacheSet) (b : Nat) : Bucket :=
  let r := (s.devRead (c.buckets + 0x10 + 16 * b) 16).plain
  { capLen := fld r 0 4, rows := fld r 4 2, rowMap := fld r 8 8, rsv := fld r 6 2 != 0 }
/-- The slot that a bucket row names, 0xFFFF for none. -/
def State.rowSlot (s : State) (bk : Bucket) (r : Nat) : Nat := s.fwRead (bk.rowMap % 2 ^ 57 + 2 * r) 2

/-! ## Pages -/

/-- Taking the page at the head of a ring (R283). -/
def State.takePage (s : State) (e : CacheEng) : Option (Nat × State) :=
  if e.tail = e.head then none
  else some (s.fwRead (e.free + 8 * (e.head % e.freeCap)) 8, s.fwWrite (e.at' + 0x18) 4 (e.next e.head))

/-- Firmware gives a page to a ring: the address first, then FREE_TAIL (R285). -/
def State.givePage (s : State) (c : CacheSet) (i page : Nat) : State :=
  let e := s.cacheEng c i
  (s.fwWrite (e.free + 8 * (e.tail % e.freeCap)) 8 page).fwWrite (e.at' + 0x1C) 4 (e.next e.tail)

/-- The page-table entries of a slot in the layout of R280: engine index and address, by layer and local index. -/
def State.slotEntries (s : State) (c : CacheSet) (slot : Nat) : List (Nat × Nat) :=
  (upTo c.ng).flatMap (fun q =>
    let i := slot % c.cg * c.ng + q
    let e := s.cacheEng c i
    (upTo c.layers).flatMap (fun l => (upTo c.ppe).map (fun k => (i, c.cptEntry e slot l k))))

/-- Stack pages in use of an engine: VALID entries that are not PARKED. -/
def State.usedPages (s : State) (c : CacheSet) (i : Nat) : List Nat :=
  let e := s.cacheEng c i
  ((upTo (c.slots / c.cg * c.layers * c.ppe)).map (fun k => s.fwRead (e.cpt + 8 * k) 8)).filterMap
    (fun w => if pteValid w && !pteParked w then some (pteAddr w) else none)

/-- Returns every page of a slot to its ring and clears its entries (R287); a parked page has no stack page to return. -/
def State.leaveSlot (s : State) (c : CacheSet) (slot : Nat) : State :=
  let s := (s.slotEntries c slot).foldl (fun s ie =>
    let w := s.fwRead ie.2 8
    if pteValid w then
      let s := if pteParked w then s else s.givePage c ie.1 (pteAddr w)
      s.fwWrite ie.2 8 0
    else s) s
  s.putSeq c slot { s.seqEntry c slot with state := 0, bucket := 0xFF, row := 0xFFFF, pending := 0 }

/-- The slot becomes ACTIVE with LENGTH 0 and its SEQ_ID (R287). -/
def State.joinSlot (s : State) (c : CacheSet) (slot seqId : Nat) : State :=
  s.putSeq c slot { seqId := seqId, length := 0, state := 1, bucket := 0xFF, row := 0xFFFF, pending := 0 }

/-- A slot that leaves or is joined begins a new run of held steps (R288). -/
def State.notHeld (s : State) (p slot : Nat) : State := s.modPart p (fun x => { x with held := x.held.erase slot })

/-! ## Placement in buckets (R288) -/

/-- The lowest free row of a bucket congruent to the slot, given the rows taken. -/
def freeRow (rows cg slot : Nat) (taken : List Nat) : Option Nat :=
  (upTo rows).find? (fun r => r % cg == slot % cg && !taken.contains r)

/-- One slot placed under R288; `taken` lists (bucket, row) pairs. -/
def State.placeSlot (s : State) (p : Nat) (c : CacheSet) (acc : List (Nat × Nat × Nat)) (slot : Nat) :
    State × List (Nat × Nat × Nat) :=
  let e := s.seqEntry c slot
  if e.state ≠ 1 && e.state ≠ 2 then (s, acc) else
  match (upTo (s.bucketCount c)).find? (fun b => e.length + s.stepTokens c ≤ (s.bucket c b).capLen) with
  | none =>
    let s := s.putSeq c slot { e with state := 3, bucket := 0xFF, row := 0xFFFF }
    (s.post 0x203 (some p) ccAgent slot e.seqId, acc)
  | some b =>
    let bk := s.bucket c b
    let taken := acc.filterMap (fun x => if x.1 = b then some x.2.1 else none)
    match freeRow bk.rows c.cg slot taken with
    | some r =>
      let s := s.putSeq c slot { e with state := 1, bucket := b, row := r }
      (s.modPart p (fun x => { x with held := x.held.erase slot }), acc ++ [(b, r, slot)])
    | none =>
      let s := s.putSeq c slot { e with state := 2, bucket := 0xFF, row := 0xFFFF }
      if (s.part p).held.contains slot then (s, acc)
      else ((s.post 0x204 (some p) ccAgent slot b).modPart p (fun x => { x with held := x.held ++ [slot] }), acc)

/-- Rewrites every row map (R288): rows left over become 0xFFFF. -/
def State.placeAll (s : State) (p : Nat) (c : CacheSet) : State :=
  let (s, acc) := (upTo c.slots).foldl (fun (sa : State × List (Nat × Nat × Nat)) slot => sa.1.placeSlot p c sa.2 slot) (s, [])
  (upTo (s.bucketCount c)).foldl (fun s b =>
    let bk := s.bucket c b
    (upTo bk.rows).foldl (fun s r =>
      let slot := ((acc.find? (fun x => x.1 == b && x.2.1 == r)).map (·.2.2)).getD 0xFFFF
      s.fwWrite (bk.rowMap % 2 ^ 57 + 2 * r) 2 slot) s) s

/-- Order 1 of Table 09-14: every LENGTH takes its PENDING. -/
def State.commitPending (s : State) (c : CacheSet) : State :=
  (upTo c.slots).foldl (fun s slot =>
    let e := s.seqEntry c slot
    s.putSeq c slot { e with length := e.length + e.pending, pending := 0 }) s

/-- PENDING of every slot returns to 0 (R291, R292). -/
def State.clearPending (s : State) (c : CacheSet) : State :=
  (upTo c.slots).foldl (fun s slot => s.putSeq c slot { s.seqEntry c slot with pending := 0 }) s

end Sys2Proof.Machine
end

