-- ==== Sys2Proof/Machine/Floorplan.lean ====
section
/-! DEFINITION. The floorplan of the part (chapter 02): what belongs to which die, physical sites behind logical addresses, the routers of the
spine with their links, and the routes of flits. The defect map (chapter 15) stands here because it names the disabled sites. -/
namespace Sys2Proof.Machine

open Sys2Proof

/-! ## The defect map (R462 to R464) -/

/-- Words of the defect map in use: it ends at the first word of KIND 0. -/
def mapFill (t : Tab W32) : Nat := ((upTo 2048).find? (fun k => bits (tget (0 : W32) t k).toNat 31 28 == 0)).getD 2048
/-- The entries in force: those of the map and those held for this boot. -/
def State.defects (s : State) : List Nat := ((upTo (mapFill s.rst.defect)).map (fun k => (tget (0 : W32) s.rst.defect k).toNat)) ++ s.rst.bootDefect
/-- A field with a kind-6 entry (R464), and one with a kind-1 entry (R463). -/
def State.fieldFailed (s : State) (f : Nat) : Bool := s.defects.any (fun w => bits w 31 28 == 6 && bits w 27 24 == f)
def State.fieldSited (s : State) (f : Nat) : Bool := s.defects.any (fun w => bits w 31 28 == 1 && bits w 27 24 == f)
/-- The disabled site of a field: the one that its kind-1 entry names, else PQ9 (R28, R463). -/
def State.disabledSite (s : State) (f : Nat) : Nat :=
  ((s.defects.find? (fun w => bits w 31 28 == 1 && bits w 27 24 == f)).map (fun w => bits w 23 20)).getD 9

/-! ## Dies (R26, R39) -/

/-- The die of a field, of a stack joined to it directly, and of a stream engine. The I/O die of a die bears its number. -/
def dieOfField (f : Nat) : Nat := f / 8
def dieOfStack (k : Nat) : Nat := k / 4
def dieOfStream (e : Nat) : Nat := dieOfField (e / 3)
/-- The power domain of a die's spine: D04 or D05 (R26, R39). -/
def spineDom (die : Nat) : Nat := 4 + die
/-- Column of the routers at the die-to-die bridge and at the I/O attach: the facing edges and the outer ones (R26, R49, R50). -/
def bridgeX (die : Nat) : Nat := if die = 0 then 7 else 0
def attachX (die : Nat) : Nat := if die = 0 then 0 else 7

/-! ## Sites and logical numbering (R27 to R30) -/

/-- The quad site of logical quad `q` of a field (R29). -/
def State.quadSite (s : State) (f q : Nat) : Nat := if q < s.disabledSite f then q else q + 1
/-- Row and column of a quad site in its field, and of a core in its quad: top-left, top-right, bottom-left, bottom-right (R29). -/
def siteRow (k : Nat) : Nat := k / 2
def siteCol (k : Nat) : Nat := k % 2
/-- Row and column, in the 10 × 4 core sites of its field, of the site that a core address occupies (R29). -/
def State.coreSite (s : State) (c : Nat) : Nat × Nat :=
  let k := s.quadSite (coreField c) (bits c 5 2)
  (2 * siteRow k + bits c 1 0 / 2, 2 * siteCol k + bits c 1 0 % 2)
/-- Row and column of a core in the logical 6 × 6 grid of its field (R30). -/
def logicalSite (c : Nat) : Nat × Nat := (2 * (bits c 5 2 / 3) + bits c 1 0 / 2, 2 * (bits c 5 2 % 3) + bits c 1 0 % 2)

/-! ## Routers (R37, R38) -/

/-- A router identifier from die and coordinates, and back (R38). -/
def routerId (die x y : Nat) : Nat := die * 128 + x * 16 + y
def routerDie (r : Nat) : Nat := bits r 7 7
def routerX (r : Nat) : Nat := bits r 6 4
def routerY (r : Nat) : Nat := bits r 3 0
def routerOk (r : Nat) : Bool := decide (r < 256) && decide (routerY r ≤ 9)
/-- The router of quad site `k` of a field (R37). -/
def siteRouter (f k : Nat) : Nat := routerId (dieOfField f) (2 * (f % 8 % 4) + k % 2) (5 * (f % 8 / 4) + k / 2)
/-- The field whose segment a router belongs to, and its quad site there. -/
def routerField (r : Nat) : Nat := 8 * routerDie r + routerX r / 2 + 4 * (routerY r / 5)
def routerSite (r : Nat) : Nat := routerX r % 2 + 2 * (routerY r % 5)
/-- The router of the quad that holds a core. -/
def State.coreRouter (s : State) (c : Nat) : Nat := siteRouter (coreField c) (s.quadSite (coreField c) (bits c 5 2))
/-- The router of quad site PQ(4e) at which stream engine `e` of its field attaches (R328). -/
def streamRouter (e : Nat) : Nat := siteRouter (e / 3) (4 * (e % 3))

/-! ## Edge links (R49 to R51, Table 02-3) -/

/-- What a router's edge link joins. -/
inductive EdgeLink where
  | stack (k l : Nat)
  | store (die l : Nat)
  | attach (iod l : Nat)
  | bridge (channel : Nat)
  deriving DecidableEq, Repr

/-- The edge links of a router in the order of R51. -/
def edgeLinks (r : Nat) : List EdgeLink :=
  let die := routerDie r
  let x := routerX r
  let y := routerY r
  (if y = 0 ∨ y = 9 then (upTo 4).map (fun j => EdgeLink.stack (4 * die + (if y = 0 then 0 else 2) + x / 4) (4 * (x % 4) + j)) else []) ++
  (if (y = 4 ∨ y = 5) ∧ 2 ≤ x ∧ x ≤ 5 then (upTo 2).map (fun j => EdgeLink.store die (2 * (x - 2 + (if y = 4 then 0 else 4)) + j)) else []) ++
  (if x = attachX die then EdgeLink.attach die y :: (if y ≤ 5 then [EdgeLink.attach die (10 + y)] else []) else []) ++
  (if x = bridgeX die then (upTo 3).map (fun j => EdgeLink.bridge (3 * y + j)) else [])

/-- The edge link behind an output 5 to 11. -/
def edgeLink (r out : Nat) : Option EdgeLink := if out < 5 then none else (edgeLinks r)[out - 5]?
/-- HBM4 channels whose traffic a stack link carries (R51). -/
def stackLinkChannels (l : Nat) : List Nat := [2 * l, 2 * l + 1]

/-- The outputs that a router has: those of the mesh that lead to a neighbour, the quad's, and one for each edge link (Table 03-8). -/
def outputOk (r out : Nat) : Bool := match out with
  | 0 => decide (routerX r < 7)
  | 1 => decide (0 < routerX r)
  | 2 => decide (routerY r < 9)
  | 3 => decide (0 < routerY r)
  | 4 => true
  | _ => (edgeLink r out).isSome

/-- The router and the input to which an output leads, none where it leaves the spine (R37, R49). -/
def nextRouter (r out : Nat) : Option (Nat × Nat) := match out with
  | 0 => some (r + 16, 1)
  | 1 => some (r - 16, 0)
  | 2 => some (r + 1, 3)
  | 3 => some (r - 1, 2)
  | _ => match edgeLink r out with
    | some (.bridge c) =>
      let q := routerId (1 - routerDie r) (bridgeX (1 - routerDie r)) (routerY r)
      ((upTo 7).find? (fun j => decide ((edgeLinks q)[j]? = some (.bridge c)))).map (fun j => (q, 5 + j))
    | _ => none

/-- Whether an output crosses from one clock island into another, so that its path holds a handshake FIFO (R52, Table 02-4): every one but a
hop within a segment. So does the path of every input at which a unit stands. -/
def crossesIslands (r out : Nat) : Bool := match nextRouter r out with
  | some (q, _) => decide (routerField r ≠ routerField q)
  | none => true

/-- The least time of a crossing behind an output, in units of the model's clock (Table 02-5): to the quad or to a stream engine, which attaches
with the same bounds (R328), to the store, to a near-memory engine group, through the I/O attach, over the bridge, or to the next router. -/
def hopBest (r out : Nat) : Nat := match edgeLink r out with
  | some (.stack _ _) => 56700
  | some (.store _ _) => 28350
  | some (.attach _ _) => 113400
  | some (.bridge _) => 85050
  | none => if out = 4 then 18900 else if crossesIslands r out then 23625 else 12096

/-! ## Routes (R42, R48, R432) -/

/-- The output by which a flit for output `exit` of router `q` leaves router `r`: along x, over the bridge channel named for the row, then
along y (R42). -/
def nextOut (r q exit bridge : Nat) : Nat :=
  let toward (x : Nat) : Nat := if routerX r < x then 0 else 1
  if routerDie r ≠ routerDie q then
    if routerX r = bridgeX (routerDie r) then
      5 + ((upTo 7).find? (fun j => decide ((edgeLinks r)[j]? = some (.bridge (3 * routerY r + bridge % 3))))).getD 0
    else toward (bridgeX (routerDie r))
  else if routerX r ≠ routerX q then toward (routerX q)
  else if routerY r < routerY q then 2
  else if routerY q < routerY r then 3
  else exit

/-- The router, and its edge link, at which a stack link ends (R51). -/
def stackLinkAt (k l : Nat) : Nat × Nat := (routerId (dieOfStack k) (4 * (k % 2) + l / 4) (if k % 4 < 2 then 0 else 9), l % 4)

/-- The number, among the edge links of a router of the attach column, of its first or second attach link. -/
def attachIndex (r : Nat) (second : Bool) : Nat := (if routerY r = 0 ∨ routerY r = 9 then 4 else 0) + b2n (second && decide (routerY r ≤ 5))

/-- The router and the output behind which a programmable agent stands (R51, R328): a core and a stream engine behind the quad's output of their
router, a near-memory engine behind its stack link, a channel update unit or a link controller behind the attach of its I/O die. DESIGN
CHOICE (log entry 51): Table 03-8 gives a stream engine no output of its own. -/
def State.agentExit (s : State) (a : Nat) : Option (Nat × Nat) :=
  let n := agNum a
  let attach (die : Nat) : Nat × Nat :=
    let r := routerId die (attachX die) ((Config.attachOf a).1 % 10)
    (r, 5 + attachIndex r (Config.attachOf a).2)
  match agKind a with
  | 0 => if coreOk n then some (s.coreRouter n, 4) else none
  | 1 => if n < 48 then some (streamRouter n, 4) else none
  | 2 => if n < 256 then some ((stackLinkAt (n / 32) (n % 32 / 2)).1, 5 + (stackLinkAt (n / 32) (n % 32 / 2)).2) else none
  | 3 => if n < 64 then some (attach (n / 32)) else none
  | 4 => if n < 18 then some (attach (n / 9)) else none
  | _ => none

/-- The outputs by which a flit leaves a router: one on its route, or those of its tree; a broadcast of firmware follows the fixed tree. -/
def State.routes (s : State) (r : Nat) (f : Flit) : List Nat :=
  if f.tree ≠ [] then (f.tree.filter (fun e => e.1 == r)).map (·.2)
  else match f.target with
    | .core c => [nextOut r (s.coreRouter c) 4 f.bridge]
    | .edge q l => [nextOut r q (5 + l) f.bridge]
    | .stream e => [nextOut r (streamRouter e) 4 f.bridge]
    | .message (.agent a) => (s.agentExit a).toList.map (fun x => nextOut r x.1 x.2 f.bridge)
    | .message _ => (upTo 12).filter (Config.broadcastTree r)

/-- Whose traffic a flit is: a message of firmware is the control complex's, which bears the number 8 here (R44, R432). -/
def flitOwner (f : Flit) : Nat := match f.target with
  | .message _ => 8
  | _ => f.partition

/-- The kinds of agents that are programmable, and whether a partition holds an agent (R57, R432). -/
def Named.names (w : Named) (inPart : Nat → Nat → Bool) (a : Nat) : Bool := match w with
  | .agent b => b == a
  | .kind k p => agKind a == k && inPart p a
  | .every => true

/-! ## FIFOs and delivery (R52, R53) -/

/-- Entries of a handshake FIFO (R53). -/
def fifoDepth : Nat := 8

def State.link (s : State) (key : Nat) : List Hop := tget [] s.spine.links key
def State.setLink (s : State) (key : Nat) (l : List Hop) : State := { s with spine := { s.spine with links := tset [] s.spine.links key l } }
/-- The entries of a path that stand in its FIFO, and those that its sender holds because the FIFO is full (R53). -/
def State.inFifo (s : State) (key : Nat) : List Hop := (s.link key).take fifoDepth
def State.heldBySender (s : State) (key : Nat) : List Hop := (s.link key).drop fifoDepth

/-- The clock period of a field's quads and stream engines, none while it does not run. -/
def State.fieldPeriod (s : State) (f : Nat) : Option Nat := if s.fieldOn f then some (periodOf (s.dom (19 + f)).rate) else none

/-- The clock period of the island behind an output that leaves the spine, none while it does not run (Table 02-4): the quad's, the stack
engines', the store's, or that of the edge attachment. -/
def State.receiverPeriod (s : State) (r out : Nat) : Option Nat := match edgeLink r out with
  | some (.stack k _) => if s.domOn (11 + k) then some (periodOf (s.dom (11 + k)).rate) else none
  | some (.store _ _) => if s.domOn 35 then some 6750 else none
  | some _ => some 6048
  | none => s.fieldPeriod (routerField r)

/-- A flit that an agent of a partition has sent is held because the FIFO ahead of it is full; the action that sent it waits (R53). -/
def State.flitHeld (s : State) (p a : Nat) : Bool :=
  s.spine.links.any (fun l => (l.2.drop fifoDepth).any (fun h => h.flit.partition == p && h.flit.source == a))

/-- How many entries a receiver of period `p` takes up to the clock `b`, in order, one in each of its cycles from the `k`-th on, none sooner than the
least time of the crossing (R53, R54). DESIGN CHOICE (log entry 51): each at the first of its cycles that Table 02-5 allows. -/
def taken (p best b : Nat) : Nat → List Hop → Nat
  | _, [] => 0
  | k, h :: rest =>
    let k := max k (cdiv (h.left + best) p)
    if k * p ≤ b then taken p best b (k + 1) rest + 1 else 0

/-- What the receiver behind one output takes while the clock goes from `a` to `b`. -/
def State.deliver (s : State) (a b key : Nat) : State :=
  let r := key / 16
  let out := key % 16
  if 256 ≤ r || (nextRouter r out).isSome then s else match s.receiverPeriod r out with
  | none => s
  | some p =>
    let l := s.link key
    let n := taken p (hopBest r out) b (a / p + 1) l
    let s := s.setLink key (l.drop n)
    { s with spine := { s.spine with delivered := tset [] s.spine.delivered key (tget [] s.spine.delivered key ++ (l.take n).map (·.flit)) } }

/-! ## The direct paths of a field (R52, R53, Table 02-5) -/

/-- The key of the path between a stream engine and a quad, one for each direction. -/
def directKey (engine quad : Nat) (toQuad : Bool) : Nat := 32 * engine + 2 * quad + b2n toQuad
def State.directPath (s : State) (key : Nat) : List Burst := tget [] s.spine.direct key
def State.setDirect (s : State) (key : Nat) (l : List Burst) : State := { s with spine := { s.spine with direct := tset [] s.spine.direct key l } }

/-- The least time from a quad to a stream engine of its field. -/
def directBest : Nat := 23625

/-- What is left on a direct path once its receiver, of period `p`, has taken what it can up to the clock `b`, as behind a router's output. -/
def burstsAfter (p b : Nat) : Nat → List Burst → List Burst
  | _, [] => []
  | k, h :: rest =>
    let k := max k (cdiv (h.left + directBest) p)
    let n := b / p + 1 - k
    if n < h.entries then { h with entries := h.entries - n } :: rest else burstsAfter p b (k + h.entries) rest

/-- The cycle of the receiver after the one in which it takes the last entry. -/
def burstsEnd (p : Nat) : Nat → List Burst → Nat
  | k, [] => k
  | k, h :: rest => burstsEnd p (max k (cdiv (h.left + directBest) p) + h.entries) rest

/-- One direct path while the clock goes from `a` to `b`. -/
def State.drainDirect (s : State) (a b key : Nat) : State := match s.fieldPeriod (key / 96) with
  | none => s
  | some p => s.setDirect key (burstsAfter p b (a / p + 1) (s.directPath key))

/-- The model clock at which the last entry of a stream engine's direct paths has been taken; none while its field does not run. -/
def State.directLeft (s : State) (engine : Nat) : Option Nat :=
  (s.spine.direct.filter (fun e => e.1 / 32 == engine)).foldl (fun m e => m.bind (fun m =>
    (s.fieldPeriod (engine / 3)).map (fun p => max m ((burstsEnd p (s.clk / p + 1) e.2 - 1) * p)))) (some s.clk)

/-- Entries that `bytes` of a stream make: one for each cycle of the engine at its rate (R330). DESIGN CHOICE (log entry 51): the spec gives an entry of
a direct path no size. -/
def directEntries (bytes : Nat) (transpose : Bool) : Nat := cdiv (bytes * 7) (if transpose then 1280 else 2560)

/-- A stream's bytes on the direct path to or from the quad of a core. -/
def State.sendDirect (s : State) (p engine core bytes : Nat) (toQuad transpose : Bool) : State :=
  if bytes = 0 then s else
  let key := directKey engine (bits core 5 2) toQuad
  s.setDirect key (s.directPath key ++ [{ partition := p, entries := directEntries bytes transpose, left := s.clk }])

/-- Nothing stands any more on the direct paths of the stream engines of which a test holds. -/
def State.dropDirect (s : State) (engines : Nat → Bool) : State :=
  { s with spine := { s.spine with direct := s.spine.direct.filter (fun e => !engines (e.1 / 32)) } }

/-- Every path with traffic that leaves the spine, or that does not pass it. -/
def State.deliverAll (s : State) (a b : Nat) : State :=
  (s.spine.direct.map (·.1)).foldl (fun s k => s.drainDirect a b k) ((s.spine.links.map (·.1)).foldl (fun s k => s.deliver a b k) s)

end Sys2Proof.Machine
end

