-- ==== Sys2Proof/Machine/Clock.lean ====
section
/-! DEFINITION. The passing of time: the model's clock, the system timestamp, the run time of partitions, rendezvous watchdogs and the
calendars of the weirs. An event row whose moment is still to come lets time pass up to it (log entry 2). -/
namespace Sys2Proof.Machine

open Sys2Proof

/-! ## Weir calendars (R313, R314, R319) -/

def weirClass (w : Nat) : Nat := if w < 0x100 then 0 else if w < 0x140 then 1 else if w < 0x148 then 2 else 3

/-- Clock units of a calendar cell (Table 10-7). -/
def weirCell (w : Nat) : Nat := match weirClass w with
  | 0 => 7560 | 1 => 14000 | 2 => 6300 | _ => 3024

/-- Clock units of a cell at a queue: a link weir's lengthen with the width of the port, 1 to 3 for x1, x2 and x4 (R370). -/
def State.cellOf (s : State) (key : Nat) : Nat :=
  let w := key % 65536 / 16
  if weirClass w ≠ 2 then weirCell w else match (s.port (key / 65536)).widthCode with
  | 1 => 4 * weirCell w
  | 2 => 2 * weirCell w
  | _ => weirCell w

def State.weirQueue (s : State) (key : Nat) : List WeirReq := tget [] s.mem.queue key
def State.weirHeld (s : State) (key : Nat) : List WeirReq := tget [] s.mem.held key
/-- Tokens of a request and of those behind it that it stands for. -/
def WeirReq.all (r : WeirReq) : Nat := r.tokens * (r.rest + 1)
def weirFillOf (q : List WeirReq) : Nat := sumNat (q.map WeirReq.all)
def State.weirFill (s : State) (key : Nat) : Nat := weirFillOf (s.weirQueue key)
def State.putQueue (s : State) (key : Nat) (q : List WeirReq) : State := { s with mem := { s.mem with queue := tset [] s.mem.queue key q } }
def State.putHeld (s : State) (key : Nat) (q : List WeirReq) : State := { s with mem := { s.mem with held := tset [] s.mem.held key q } }

/-- One cell of a queue's owner: the oldest request loses a token (R314). -/
def drainOne : List WeirReq → List WeirReq
  | [] => []
  | r :: rest => if r.tokens ≤ 1 then rest else { r with tokens := r.tokens - 1 } :: rest

/-- Tokens that one sender has in a queue. -/
def tokensOf (q : List WeirReq) (agent : Nat) : Nat := weirFillOf (q.filter (fun r => r.agent == agent))

/-- A sender holds its request back: it would exceed QMAX, or needs more than QMAX while the sender still has a token queued (R337). A sender that
is no stream offers 64 bytes at a time, with 1 for QMAX (DESIGN CHOICE, log entry 38). -/
def heldBack (q : List WeirReq) (r : WeirReq) : Bool :=
  decide (r.qmax ≠ 0) && decide (tokensOf q r.agent ≠ 0) && decide (r.qmax < tokensOf q r.agent + r.tokens)

/-- What an offer of the held requests leaves: the queue, what is still held, and the requests refused for the first time, each with the
tokens that the queue would have held. -/
structure Admission where
  queue : List WeirReq
  held : List WeirReq
  refused : List (WeirReq × Nat)
  deriving DecidableEq, Repr

/-- Every sender offers its held requests in byte order; one whose next request does not go in blocks no other sender (R319, R337). -/
def admitHeld (depth : Nat) : List Nat → List WeirReq → List WeirReq → Admission
  | _, q, [] => { queue := q, held := [], refused := [] }
  | blocked, q, r :: rest =>
    if blocked.contains r.agent || heldBack q r then
      let a := admitHeld depth (r.agent :: blocked) q rest
      { a with held := r :: a.held }
    else if weirFillOf q + r.tokens ≤ depth then match r.rest with
      | 0 => admitHeld depth blocked (q ++ [r]) rest
      | k + 1 =>
        let a := admitHeld depth (r.agent :: blocked) (q ++ [{ r with rest := 0 }]) rest
        { a with held := { r with rest := k, offered := false } :: a.held }
    else
      let a := admitHeld depth (r.agent :: blocked) q rest
      { a with held := { r with offered := true } :: a.held
               refused := if r.offered then a.refused else (r, weirFillOf q + r.tokens) :: a.refused }

/-- `n` cells of a queue's owner, each followed by an offer; a refusal comes with the number of cells gone by. -/
def drainCells (depth : Nat) : Nat → Nat → List WeirReq → List WeirReq → List WeirReq × List WeirReq × List (Nat × WeirReq × Nat)
  | 0, _, q, h => (q, h, [])
  | n + 1, k, q, h =>
    let a := admitHeld depth [] (drainOne q) h
    let (q', h', l) := drainCells depth n (k + 1) a.queue a.held
    (q', h', a.refused.map (fun r => (k, r.1, r.2)) ++ l)

/-- Cells of a block `[first, first + count)` among the first `n` cells of the calendar's repetition. -/
def cellsBelow (first count n : Nat) : Nat := n / 64 * count + min (n % 64 - first) count
/-- The number, from the start of the calendar on, of the `i`-th cell of such a block. -/
def cellNumber (first count i : Nat) : Nat := i / count * 64 + first + i % count

/-- A request refused for the first time: the moment, the queue, and the tokens that the queue would have held. -/
structure Overrun where
  at' : Nat
  key : Nat
  req : WeirReq
  tokens : Nat
  deriving DecidableEq, Repr

/-- The WEIR_OVERRUN of a refused request; transit traffic belongs to no partition (R319). -/
def State.weirOverrun (s : State) (v : Overrun) : State :=
  let w := v.key % 65536 / 16
  let o := v.key % 16
  let x := s.part o
  if o < 8 && (x.status = .running || x.status = .frozen) then
    s.breach o (x.later (v.at' - s.clk) / x.period)
      { cls := 6, agentA := v.req.agent, actionA := v.req.action, other := none, resource := resWeir o w, token := 0xFFFF, seen := 0,
        detail := w + min v.tokens 0xFFFF * 2 ^ 16 + s.weirDepth w o * 2 ^ 32, poisoned := false }
  else s

/-- An offer of everything held at a queue, at a moment of the model's clock, with what it refuses. -/
def State.offerHeld (s : State) (t key : Nat) : State × List Overrun :=
  let a := admitHeld (s.weirDepth (key % 65536 / 16) (key % 16)) [] (s.weirQueue key) (s.weirHeld key)
  ((s.putQueue key a.queue).putHeld key a.held, a.refused.map (fun r => { at' := t, key := key, req := r.1, tokens := r.2 }))

/-- Requests reach a queue behind those that their sender holds, and are offered. -/
def State.offerAt (s : State) (t key : Nat) (rs : List WeirReq) : State × List Overrun := (s.putHeld key (s.weirHeld key ++ rs)).offerHeld t key
/-- The records of refused requests. -/
def State.overruns (a : State × List Overrun) : State := a.2.foldl State.weirOverrun a.1
/-- An offer now. -/
def State.offer (s : State) (key : Nat) (rs : List WeirReq) : State := State.overruns (s.offerAt s.clk key rs)

/-! ## Requests in byte order (R319, R336) -/

/-- The key of one side of a transfer of a sender in a partition: what it reads or what it writes under a number. -/
def sideKey (owner agent id : Nat) (write : Bool) : Nat := id * 2 ^ 40 + (2 * agent + b2n write) * 16 + owner
def State.sideWaits (s : State) (k : Nat) : List (Nat × WeirReq) := tget [] s.mem.waits k
def State.putWaits (s : State) (k : Nat) (l : List (Nat × WeirReq)) : State := { s with mem := { s.mem with waits := tset [] s.mem.waits k l } }
/-- Whether a request at a queue is one of the sides of a list. -/
def ofSides (ks : List Nat) (key : Nat) (r : WeirReq) : Bool := ks.contains (sideKey (key % 16) r.agent r.id r.write)
/-- A side holds a request at some weir. -/
def State.sideHeld (s : State) (k : Nat) : Bool := s.mem.held.any (fun e => e.2.any (ofSides [k] e.1))

/-- The requests of one side are offered in byte order: the next one once the one before it has gone in (R319, R336). -/
def State.offerSide (t k : Nat) : List (Nat × WeirReq) → State × List Overrun → State × List Overrun
  | [], a => (a.1.putWaits k [], a.2)
  | r :: rest, a =>
    if a.1.sideHeld k then (a.1.putWaits k (r :: rest), a.2)
    else let x := a.1.offerAt t r.1 [r.2]
      State.offerSide t k rest (x.1, a.2 ++ x.2)
/-- Requests of one side, each with its queue, behind those that wait there. -/
def State.offerNow (s : State) (k : Nat) (rs : List (Nat × WeirReq)) : State :=
  State.overruns (State.offerSide s.clk k (s.sideWaits k ++ rs) (s, []))
/-- Every side that has requests waiting. -/
def State.offerSides (t : Nat) (a : State × List Overrun) : State × List Overrun :=
  (a.1.mem.waits.map (·.1)).foldl (fun a k => State.offerSide t k (a.1.sideWaits k) a) a

/-- The model clock at which the `n`-th cell, from 1, of a queue's owner after a moment begins; none where it owns no cell. -/
def State.cellTime (s : State) (a key n : Nat) : Option Nat :=
  let first := s.weirFirst (key % 65536 / 16) (key % 16)
  let count := s.weirCells (key % 65536 / 16) (key % 16)
  let cell := s.cellOf key
  if count = 0 then none else some (cell * cellNumber first count (cellsBelow first count (a / cell + 1) + n - 1))

/-- Cells of a queue's owner until fewer than `m` of the requests of some sides are held there; none if that never comes about. -/
def cellsAdmit (depth : Nat) (of : WeirReq → Bool) (m : Nat) : Nat → Nat → List WeirReq → List WeirReq → Option Nat
  | 0, _, _, _ => none
  | fuel + 1, n, q, h =>
    let a := admitHeld depth [] (drainOne q) h
    if (a.held.filter of).length < m then some (n + 1) else cellsAdmit depth of m fuel (n + 1) a.queue a.held

/-- The next moment at which a held request goes in behind which others wait. -/
def State.nextAdmit (s : State) (a : Nat) : Option Nat :=
  if s.mem.waits.isEmpty then none else (s.mem.held.filterMap (fun e =>
    let of := ofSides (s.mem.waits.map (·.1)) e.1
    let m := (e.2.filter of).length
    let q := s.weirQueue e.1
    if m = 0 then none else
      (cellsAdmit (s.weirDepth (e.1 % 65536 / 16) (e.1 % 16)) of m (weirFillOf q + weirFillOf e.2 + 1) 0 q e.2).bind (s.cellTime a e.1))).min?

/-- One queue while the clock goes from `a` to `b`: every cell of its owner that begins carries one token away. DESIGN CHOICE (log entry 50): every
calendar counts its cells from clock 0, that of a link port's frames from the frame's own count, and nothing restarts it (R314). -/
def State.drainQueue (s : State) (a b key : Nat) : State × List Overrun :=
  let w := key % 65536 / 16
  let o := key % 16
  let cell := s.cellOf key
  let below := cellsBelow (s.weirFirst w o) (s.weirCells w o)
  let n := below (b / cell + 1) - below (a / cell + 1)
  let (q, h, l) := drainCells (s.weirDepth w o) (min n (weirFillOf (s.weirQueue key) + weirFillOf (s.weirHeld key) + 1)) 0 (s.weirQueue key) (s.weirHeld key)
  ((s.putQueue key q).putHeld key h, l.map (fun r =>
    { at' := cell * cellNumber (s.weirFirst w o) (s.weirCells w o) (below (a / cell + 1) + r.1), key := key, req := r.2.1, tokens := r.2.2 }))

/-- Every weir with traffic, each by itself. -/
def State.drainQueues (a b : Nat) (x : State × List Overrun) : State × List Overrun :=
  let qs := x.1.mem.queue.map (·.1)
  (qs ++ (x.1.mem.held.map (·.1)).filter (fun k => !qs.contains k)).foldl (fun x k => let y := x.1.drainQueue a b k; (y.1, x.2 ++ y.2)) x

/-- Every weir with traffic; the requests behind a held one are offered at the moment at which that one goes in. -/
def State.drainGo (b : Nat) : Nat → Nat → State × List Overrun → State × List Overrun
  | 0, a, x => State.drainQueues a b x
  | fuel + 1, a, x => match x.1.nextAdmit a with
    | some t => if t ≤ b then State.drainGo b fuel t (State.offerSides t (State.drainQueues a t x)) else State.drainQueues a b x
    | none => State.drainQueues a b x

/-- At most one such moment for each request that is held or waits. -/
def State.admitFuel (s : State) : Nat := sumNat (s.mem.held.map (·.2.length)) + sumNat (s.mem.waits.map (·.2.length))

/-- The weirs while the clock goes from `a` to `b`, with the requests that they refuse meanwhile. -/
def State.drainWeirs (s : State) (a b : Nat) : State × List Overrun := State.drainGo b s.admitFuel a (s, [])

/-! ## Time (R53, R58, R82, R90, R391) -/

/-- A partition while time passes; its watchdog runs with it (R90). -/
def Part.pass (x : Part) (dt : Nat) : Part :=
  let e := x.later dt
  { x with elapsed := e, wdRun := x.wdRun.map (· + (e - x.elapsed)) }

/-- Parts of a nanosecond in which the timestamp's fraction is kept. -/
def timeUnit : Nat := unitsPerNs * 1000000
/-- Growth of that fraction in one unit of the clock, with the steering in force (R391). -/
def State.timeRate (s : State) : Nat := (1000000 + s.steer).toNat

/-- The system timestamp runs once D01 has been released. -/
def State.passTime (s : State) (dt : Nat) : State :=
  if s.timeOn then
    let a := s.timeAcc + dt * s.timeRate
    { s with timeAcc := a % timeUnit, es := { s.es with time := s.es.time + BitVec.ofNat 64 (a / timeUnit) } }
  else s

/-- The input of the event sequencer to which an agent belongs (Table 14-4). -/
def agentInput (a : Nat) : Nat := match agKind a with
  | 0 => 24 + dieOfField (coreField (agNum a))
  | 1 => 24 + dieOfStream (agNum a)
  | 2 => 24 + dieOfStack (agNum a / 32)
  | 3 => 22 + agNum a / 32
  | 4 => 4 + agNum a
  | 6 => 24 + agNum a
  | _ => 3

/-- What falls due while time passes: the record of a request that a weir has refused, and a NaN of a partition. -/
inductive Due where
  | weir (v : Overrun)
  | nan (p : Nat) (n : NanDue)
  deriving DecidableEq, Repr

/-- The model clock at which it does. -/
def Due.clk : Due → Nat
  | .weir v => v.at'
  | .nan _ n => n.due
def Due.input : Due → Nat
  | .weir v => agentInput v.req.agent
  | .nan _ n => agentInput n.core

/-- A list in an order, with elements of which none comes first as they stood. -/
def sortBy {α : Type} (before : α → α → Bool) (l : List α) : List α := l.foldl (fun acc x => ins x acc) []
where
  /-- Behind every element that it does not come before. -/
  ins (x : α) : List α → List α
    | [] => [x]
    | y :: rest => if before x y then x :: y :: rest else y :: ins x rest

/-- Whether one is stamped before another: in an earlier cycle of the sequencer, or in the same one at a lower input (R436). -/
def Due.before (a b : Due) : Bool :=
  decide (a.clk / unitsPerNs < b.clk / unitsPerNs) || (a.clk / unitsPerNs == b.clk / unitsPerNs && decide (a.input < b.input))

/-- What is due until a model clock, in the order of the stamps, those of one input as they come about. -/
def State.dues (s : State) (b : Nat) (l : List Overrun) : List Due :=
  let nans := partNums.flatMap (fun p => ((NanDue.sort (s.part p).nans).filter (fun n => decide (n.due ≤ b))).map (Due.nan p))
  sortBy Due.before (sortBy (fun x y => decide (x.clk < y.clk)) (l.map Due.weir ++ nans))

/-- A NaN that has met its trap record is no longer due. -/
def State.meet (s : State) : Due → State
  | .weir v => s.weirOverrun v
  | .nan p n => (s.trapOne p n).modPart p (fun x => { x with nans := x.nans.erase n })

/-- The timestamp runs from one clock to another, and what is due meanwhile is stamped with the time that it shows then (R435). -/
def State.meetAll (b : Nat) : Nat → List Due → State → State
  | now, [], s => s.passTime (b - now)
  | now, d :: rest, s => State.meetAll b (max now d.clk) rest ((s.passTime (max now d.clk - now)).meet d)

/-- `dt` units of the model's clock pass. A NaN meets its trap record when its cycle is over, so that a write that clears VALID comes
before a NaN of the same cycle (R160). -/
def State.pass (s : State) (dt : Nat) : State :=
  if dt = 0 then s else
  let b := s.clk + dt
  let x := s.drainWeirs s.clk b
  let s := x.1.deliverAll s.clk b
  let s := State.meetAll b s.clk (s.dues b x.2) s
  let s := partNums.foldl (fun s p => s.modPart p (·.pass dt)) s
  { s with clk := b }

/-- Time passes until the clock reads `t`. -/
def State.toClk (s : State) (t : Nat) : State := s.pass (t - s.clk)
/-- Time passes until `n` nanoseconds of model time. -/
def State.toNs (s : State) (n : Nat) : State := s.toClk (n * unitsPerNs)
/-- Time passes until the system timestamp reads `t`. -/
def State.toTime (s : State) (t : Nat) : State :=
  if s.timeOn && s.es.time.toNat < t then s.pass (cdiv ((t - s.es.time.toNat) * timeUnit - s.timeAcc) s.timeRate) else s
/-- Time passes until a running partition reaches a cycle of its run. -/
def State.toCycle (s : State) (p cyc : Nat) : State :=
  let x := s.part p
  if x.status = .running then s.pass (cyc * x.period - x.elapsed) else s

/-- Whether issue is open at a cycle: the partition runs and no freeze boundary lies at or before it (R82). -/
def Part.open? (x : Part) (cyc : Nat) : Bool :=
  x.status == .running && match x.frz with
    | .no => true
    | .pending b => cyc < b
    | _ => false

/-- Whether issue is still open at a cycle once time has passed to it: a NaN in flight or a request held at a weir may freeze the
partition meanwhile. -/
def State.openAt (s : State) (p cyc : Nat) : Bool :=
  (s.part p).open? cyc && (((s.part p).nans.isEmpty && s.mem.held.isEmpty) || ((s.toCycle p cyc).part p).open? cyc)

end Sys2Proof.Machine
end

