-- ==== Sys2Proof/Machine/Issue.lean ====
section
/-! DEFINITION. Issue of actions: sequencers, issue points, token and ownership checks, completion (R58 to R77, R92, R559). -/
namespace Sys2Proof.Machine

open Sys2Proof

/-! ## Where a sequencer stands -/

/-- The record a sequencer issues next, with its context. -/
structure Ctx where
  p : Nat
  agent : Nat
  bind : Binding
  idx : Nat            -- record index
  r : ARec
  point : Nat          -- issue point, in cycles of the run
  base : Nat           -- slot from which the record counts
  iter : Nat           -- iteration of the innermost enclosing loop
  origin : Nat         -- slot at which the epoch or the fill item began
  epoch : Nat          -- EPOCH value in force
  fill : Option Nat    -- fill item
  deriving DecidableEq, Repr

/-- The index after the ENDFILL that closes the FILL at `k`. -/
def pastFill (prog : List ARec) : Nat → Nat → Nat
  | 0, k => k
  | n + 1, k => if (prog[k]?.map (·.opcode)) = some 5 then k + 1 else pastFill prog n (k + 1)

/-- The next record of the main sequence: fill blocks are not issued there (R92). -/
def skipFill (prog : List ARec) : Nat → Nat → Nat
  | 0, k => k
  | n + 1, k => if (prog[k]?.map (·.opcode)) = some 4 then skipFill prog n (pastFill prog prog.length k) else k

def Part.seqr (x : Part) (a : Nat) : Option Seqr := lookupBy (fun q => q.agent == a) x.seqs
def Part.modSeqr (x : Part) (a : Nat) (f : Seqr → Seqr) : Part :=
  { x with seqs := x.seqs.map (fun q => if q.agent = a then f q else q) }

/-- Issue point of a record that counts from a slot, never before the record issued last (R67). DESIGN CHOICE (log entry 26): a record whose own
issue point lies before that one, which a compiler must not emit, issues with it. -/
def pointOf (base last : Nat) (r : ARec) : Nat := max last ((base + r.atSlot) * 256 + r.atCycle)

/-- The context of an agent's next record; none while it waits, has ended or takes no part. -/
def Part.ctx (x : Part) (p a : Nat) : Option Ctx :=
  match x.seqr a, x.image.binding a with
  | some q, some b =>
    match x.fillCur, q.fill with
    | some (i, st), some f =>
      if f.done then none else
      let r := x.image.arec b f.pc
      let base := (f.loops.head?.map (·.base)).getD st
      some { p := p, agent := a, bind := b, idx := f.pc, r := r, point := pointOf base q.last r, base := base,
             iter := (f.loops.head?.map (·.iter)).getD 0, origin := st, epoch := 0x8000 + i, fill := some i }
    | _, _ =>
      if q.waiting || q.ended then none else
      let k := skipFill (x.image.program b) b.progLen q.pc
      let r := x.image.arec b k
      let base := (q.loops.head?.map (·.base)).getD x.epochSlot
      some { p := p, agent := a, bind := b, idx := k, r := r, point := pointOf base q.last r, base := base,
             iter := (q.loops.head?.map (·.iter)).getD 0, origin := x.epochSlot, epoch := x.epochVal, fill := none }
  | _, _ => none

/-- The context of the record a command names, when issue is open at its issue point (R67). -/
def issueCtx (s : State) (op p a : Nat) : Option Ctx :=
  if p ≥ 8 then none else
  let x := s.part p
  match x.ctx p a with
  | some c => if c.r.opcode = op && s.openAt p c.point then some c else none
  | none => none

/-- Moves a sequencer past the record of a context; `f` acts on its loops. -/
def Part.advance (x : Part) (c : Ctx) (next : Nat) (f : List LoopFrame → List LoopFrame) : Part :=
  x.modSeqr c.agent (fun q =>
    match c.fill with
    | some _ => { q with last := c.point, fill := q.fill.map (fun t => { t with pc := next, loops := f t.loops }) }
    | none => { q with last := c.point, pc := next, loops := f q.loops })

def State.step1 (s : State) (c : Ctx) : State := s.modPart c.p (fun x => x.advance c (c.idx + 1) id)

/-! ## Tokens (R35, R77) -/

/-- The record that will take a token, from record `k` of a program on, with the slot from which its issue point counts (R67, R77). Control
runs through the loops: a loop with an iteration left is looked through once more, one that the sequence enters begins at its LOOP's slot. A
rendezvous, the end of a fill item and END lie behind every record of the epoch. -/
def awaiting (prog : List ARec) (tok base0 : Nat) : Nat → List LoopFrame → Nat → Option (Nat × Nat)
  | 0, _, _ => none
  | fuel + 1, loops, k =>
    let base := (loops.head?.map (·.base)).getD base0
    match prog[k]? with
    | none => none
    | some r =>
      if r.opcode = 1 then
        awaiting prog tok base0 fuel ({ body := k + 1, iter := 0, count := 1, period := bits r.arg 15 0, base := base + r.atSlot } :: loops) (k + 1)
      else if r.opcode = 2 then match loops with
        | [] => none
        | f :: rest =>
          if f.iter + 1 < f.count then
            awaiting prog tok base0 fuel ({ f with iter := f.iter + 1, count := f.iter + 2, base := f.base + f.period } :: rest) f.body
          else awaiting prog tok base0 fuel rest (k + 1)
      else if r.opcode = 3 || r.opcode = 5 || r.opcode = 7 then none
      else if r.opcode = 4 then awaiting prog tok base0 fuel loops (pastFill prog prog.length k)
      else if r.tokIn = tok then some (k, base)
      else awaiting prog tok base0 fuel loops (k + 1)

/-- The loops of the sequence in which a context stands. -/
def Part.loopsOf (x : Part) (c : Ctx) : List LoopFrame := match x.seqr c.agent with
  | some q => if c.fill.isSome then (q.fill.map (·.loops)).getD [] else q.loops
  | none => []

/-- The record that will take a token next, from the record at which a context stands. -/
def Part.awaits (x : Part) (c : Ctx) (tok : Nat) : Option (Nat × Nat) :=
  let prog := x.image.program c.bind
  let k := if c.r.opcode = 4 && c.fill.isSome then c.idx + 1 else c.idx
  awaiting prog tok c.origin (6 * prog.length + 8) (x.loopsOf c) k

/-- The consuming record of a token (R80): the one that will take it next, else the first of its consumer's program that names it; 0xFFFF
for a gate, which the control complex consumes. -/
def Part.consuming (x : Part) (p k : Nat) : Nat :=
  let a := (x.image.token k).consumer
  let named : Option Nat := (x.image.binding a).bind (fun b => (x.image.program b).findIdx? (fun r => r.tokIn == k))
  match (x.ctx p a).bind (fun c => x.awaits c k) with
  | some (i, _) => i
  | none => named.getD 0xFFFF

/-- A token arrives at its consumer: counted, or in excess a breach (R77). -/
def State.tokenArrives (s : State) (p k cyc : Nat) : State :=
  let x := s.part p
  let t := x.image.token k
  let n := tget 0 x.toks k
  if n < t.count then s.setPart p { x with toks := tset 0 x.toks k (n + 1) }
  else
    s.breach p cyc { cls := 2, agentA := t.consumer, actionA := x.consuming p k, other := some (t.producer, 0xFFFF), resource := 0,
                     token := k, seen := t.count, detail := 0, poisoned := false }

/-- A completion that names a token (R77). A group's token goes out once every member's has arrived (R35). -/
def State.sendToken (s : State) (p k agent cyc : Nat) : State :=
  if k = 0xFFFF then s else
  let x := s.part p
  let t := x.image.token k
  if agKind t.producer = 0 && isGroup t.producer then
    let ms := x.image.cores (agNum t.producer)
    let x := { x with tokArr := tmod 0 x.tokArr (k * 65536 + agNum agent) (· + 1) }
    let low : Nat := ms.foldl (fun a m => min a (tget 0 x.tokArr (k * 65536 + m))) (tget 0 x.tokArr (k * 65536 + ms.headD 0))
    let sent : Nat := tget 0 x.tokSent k
    if sent < low then (s.setPart p { x with tokSent := tset 0 x.tokSent k (sent + 1) }).tokenArrives p k cyc
    else s.setPart p x
  else s.tokenArrives p k cyc

/-- The other party of a LATE_TOKEN: what a waiting stream action that names the token waits for (R343), else the producer itself (R80). -/
def State.lateParty (s : State) (p k : Nat) : Nat × Nat :=
  let t := (s.part p).image.token k
  if agKind t.producer = 1 then
    let r := s.srec (agNum t.producer)
    let names := (s.part p).flights.any (fun f => f.agent == t.producer && f.action == r.action && f.tokOut == k)
    if r.state ≠ 0 && r.partition = p && r.waiting && names then (r.block, r.blockAction) else (t.producer, 0xFFFF)
  else (t.producer, 0xFFFF)

/-- Records LATE_TOKEN for a consumer's record (R77, R80, R343). -/
def State.recordLate (s : State) (p k action cyc : Nat) : State :=
  let t := (s.part p).image.token k
  let n := tget 0 (s.part p).toks k
  s.breach p cyc { cls := 1, agentA := t.consumer, actionA := action, other := some (s.lateParty p k), resource := 0, token := k,
                   seen := n, detail := 0, poisoned := false }

/-- A deadline that lies before its record's issue point: the record is not issued afterwards (R77, R559). -/
def State.lateToken (s : State) (p k action cyc : Nat) : State :=
  let t := (s.part p).image.token k
  (s.modPart p (fun x => x.modSeqr t.consumer (fun q => { q with late := k :: q.late }))).recordLate p k action cyc

/-- The state of a record's awaited token at its issue. -/
inductive TokCheck where
  | fine
  | late (first : Bool)   -- recorded now, or already at the deadline
  deriving DecidableEq, Repr

def State.tokCheck (s : State) (c : Ctx) : TokCheck :=
  if c.r.tokIn = 0xFFFF then .fine else
  let x := s.part c.p
  let already := ((x.seqr c.agent).map (fun q => q.late.contains c.r.tokIn)).getD false
  if already then .late false
  else if tget 0 x.toks c.r.tokIn < (x.image.token c.r.tokIn).count then .late true else .fine

/-- The consumer's counter returns to 0 when the consuming action is issued (R77). -/
def State.takeToken (s : State) (c : Ctx) : State :=
  if c.r.tokIn = 0xFFFF then s else s.modPart c.p (fun x => { x with toks := tset 0 x.toks c.r.tokIn 0 })

/-! ## Ownership (R72 to R75) -/

/-- The action in flight that holds a resource, if any. -/
def Part.holder (x : Part) (res : Nat) : Option Flight := lookupBy (fun f => f.held.contains res) x.flights

/-- The first resource, in R74 order, that the ownership entries in force do not grant: the resource and the other party. -/
def ownFail (x : Part) (c : Ctx) : Nat → List Nat → Option (Nat × Option (Nat × Nat))
  | _, [] => none
  | k, res :: rest =>
    let e := c.r.own + c.iter % (c.r.span + 1) + k * (c.r.span + 1)
    let held := (x.holder res).map (fun f => (f.agent, f.action))
    if c.r.own = 0xFFFF || e ≥ x.image.entries 3 32 then some (res, held) else
    let o := x.image.own e
    let bad := o.resource ≠ res || o.agent ≠ c.agent || o.action ≠ c.idx || o.epoch ≠ c.epoch ||
      !(o.covers (c.point / 256 - c.origin))
    if bad || held.isSome then
      let party := if held.isSome then held
        else if o.agent ≠ c.agent || o.action ≠ c.idx then some (o.agent, o.action) else none
      some (res, party)
    else ownFail x c (k + 1) rest

/-- A COLLISION of a record at its issue; a galley it names is poisoned (R72, R75). -/
def State.collide (s : State) (c : Ctx) (res : Nat) (other : Option (Nat × Nat)) : State :=
  let gal := bits res 31 28 = 1
  let s := if gal then
    let key := galKey (bits res 15 0) (bits res 16 16)
    { s with data := { s.data with galleyP := tset 0 s.data.galleyP key (if tget 0 s.data.galleyP key = 0 then 6 else tget 0 s.data.galleyP key) } }
  else s
  s.breach c.p c.point { BreachInfo.collision c.agent c.idx res other with poisoned := gal }

/-- The flight of an action as it is issued. -/
def flightOf (c : Ctx) (opId : Nat) (held : List Nat) : Flight :=
  { forme := 0, agent := c.agent, action := c.idx, opcode := c.r.opcode, opId := opId, held := held, tokOut := c.r.tokOut, issue := c.point,
    lanes := 0, ready := 0, pending := 0, fill := c.fill, epoch := c.epoch, detached := false }

/-- It joins those in flight, as an action of the present run. -/
def State.addFlight (s : State) (p : Nat) (f : Flight) : State :=
  s.modPart p (fun x => { x with flights := x.flights ++ [{ f with forme := x.cur }] })

/-- The checks of R72 in their order, then the action's own effect, then its flight. `valid` is the descriptor's validity,
`busy` an action that occupies the engine, `named` the resources in R74 order. -/
def State.issueAction (s : State) (c : Ctx) (valid : Bool) (busy : Option (Nat × Nat)) (named : List Nat)
    (run : State → State) : State :=
  let s1 := s.step1 c
  match s.tokCheck c with
  | .late true => s1.recordLate c.p c.r.tokIn c.idx c.point
  | .late false => s1.modPart c.p (fun x => x.modSeqr c.agent (fun q => { q with late := q.late.erase c.r.tokIn }))
  | .fine =>
    if !valid then s1.collide c 0 none
    else match busy with
      | some b => s1.collide c 0 (some b)
      | none =>
        match ownFail (s.part c.p) c 0 named with
        | some (res, other) => s1.collide c res other
        | none => run (s1.takeToken c)

/-! ## Completion (R73, R77) -/

/-- Whether the fill item in progress has ended (R92): every part closed and every action issued within it complete. -/
def Part.fillOver (x : Part) : Bool :=
  match x.fillCur with
  | none => false
  | some (i, _) => x.seqs.all (fun q => match q.fill with | some f => f.done | none => true) &&
      x.flights.all (fun f => f.fill != some i)

/-- Every agent waits at the rendezvous or has ended, and no fill item runs: the time the last condition of R89 holds. -/
def Part.settleFill (x : Part) (cyc : Nat) : Part :=
  if x.fillOver then
    { x with fillCur := none, fillLate := false, fillNext := x.fillNext + 1, seqs := x.seqs.map (fun q => { q with fill := none }),
             rvAt := if x.rvAt.isSome then some cyc else x.rvAt, ended := x.ended.map (fun _ => cyc) }
  else x

/-- The completion of an action in flight: its resources are free and its token goes out (R73, R77). A NaN of its last cycle meets its trap
record when that cycle is over (R160). -/
def State.finish (s : State) (p : Nat) (f : Flight) : State :=
  let s := s.modPart p (fun x => ({ x with flights := x.flights.erase f }).settleFill x.cycle)
  s.sendToken p f.tokOut f.agent (s.part p).cycle

end Sys2Proof.Machine
end

