-- ==== Sys2Proof/Machine/Access.lean ====
section
/-! DEFINITION. Accesses of agents to device memory and to the activation stores, with what guards them: the partition's ranges
(R298), served domains (R486), absent pages (R312), spans under update (R229), pages under ATTEND (R275), region tags (R204). -/
namespace Sys2Proof.Machine

open Sys2Proof

/-! ## Descriptors that guard -/

/-- The operand descriptor of a record: `n` bytes of the binding's parameter block; none where it reaches beyond section 2. -/
def Image.descOf (m : Image) (b : Binding) (arg n : Nat) : Option (List Byte) :=
  if b.paramOff + arg + n ≤ m.secLen 2 then some (m.param b arg n) else none

/-- The image of a run's forme: of the present run, of the one before it, or a resident one. -/
def Part.imageOf (x : Part) (forme : Nat) : Image :=
  if forme = x.cur then x.image else if Image.formeId x.lastImage = forme then x.lastImage
  else (lookupBy (fun r => r.id == forme) x.resident).elim [] (·.image)

def Part.flightDesc (x : Part) (f : Flight) : Option (List Byte) :=
  let m := x.imageOf f.forme
  (m.binding f.agent).bind (fun b => m.descOf b (m.arec b f.action).arg 64)

/-- An update-engine descriptor (Table 08-3). -/
structure UpdDesc where
  opId : Nat
  rule : Nat
  mfmt : Nat
  sel : Nat
  count : Nat
  w : Nat
  r : Nat
  m : Nat
  v : Nat
  g : Nat
  aux : Nat
  rsv : Bool
  deriving DecidableEq, Repr

def UpdDesc.parse (b : List Byte) : UpdDesc :=
  { opId := fld b 0 4, rule := byteAt b 4, mfmt := byteAt b 5, sel := byteAt b 6, count := fld b 8 4, w := fld b 0x10 8,
    r := fld b 0x18 8, m := fld b 0x20 8, v := fld b 0x28 8, g := fld b 0x30 8, aux := fld b 0x38 8,
    rsv := byteAt b 7 != 0 || fld b 0xC 4 != 0 }

/-- Width of a moment (R222). -/
def UpdDesc.mw (d : UpdDesc) : Nat := if bit d.mfmt 0 then 2 else 4

/-- The arrays an operation uses, as (address, bytes) (Table 08-3): the W, R, M, V and G spans. -/
def UpdDesc.spans (d : UpdDesc) (op : Nat) : List (Nat × Nat) :=
  let w := (d.w, 2 * d.count)
  let r := (d.r, 2 * d.count)
  let m := (d.m, d.mw * d.count)
  let v := (d.v, d.mw * d.count)
  let g := (d.g, 6 * d.count)
  match op with
  | 0x60 => [g]
  | 0x61 => [g]
  | 0x62 => [w, r] ++ (if d.rule ≤ 1 then [m] else []) ++ (if d.rule = 0 then [v] else []) ++ [g]
  | _ => (if bit d.sel 0 then [w] else []) ++ (if bit d.sel 1 then [r] else []) ++ (if bit d.sel 2 then [m] else []) ++
      (if bit d.sel 3 then [v] else [])

def overlap (a n b m : Nat) : Bool := a < b + m && b < a + n

/-- The update operation in flight, if any, whose span a range overlaps (R229). -/
def State.updGuard (s : State) (p a n : Nat) : Option Flight :=
  let x := s.part p
  lookupBy (fun f => 0x60 ≤ f.opcode && f.opcode ≤ 0x63 &&
    match x.flightDesc f with
    | some b => ((UpdDesc.parse b).spans f.opcode).any (fun sp => overlap a n sp.1 sp.2)
    | none => false) x.flights

/-- An ATTEND descriptor (Table 09-5). -/
structure AttDesc where
  opId : Nat
  qFmt : Nat
  g : Nat
  bucket : Nat
  layer : Nat
  row0 : Nat
  rows : Nat
  scale : Nat
  qSram : Nat
  cset : Nat
  part : Nat
  rsv : Bool
  deriving DecidableEq, Repr

def AttDesc.parse (b : List Byte) : AttDesc :=
  { opId := fld b 0 4, qFmt := byteAt b 4, g := byteAt b 5, bucket := byteAt b 6, layer := fld b 8 2, row0 := fld b 0xA 2,
    rows := fld b 0xC 2, scale := fld b 0x10 4, qSram := fld b 0x14 4, cset := fld b 0x18 8, part := fld b 0x20 8,
    rsv := byteAt b 7 != 0 || fld b 0xE 2 != 0 || fld b 0x28 24 != 0 }

/-- Index of an engine in a cache set. -/
def State.cacheIndex (s : State) (c : CacheSet) (engine : Nat) : Option Nat :=
  (upTo c.n).find? (fun i => (s.cacheEng c i).engine == engine)

/-- The rows of a range that fall to a cache group, ascending (R272). -/
def rowsOf (row0 rows cg group : Nat) : List Nat := ((upTo rows).map (row0 + ·)).filter (fun r => r % cg == group)

/-- Number of pages of a row (R270): ceil of its end over T. -/
def CacheSet.pages (c : CacheSet) (e : SeqEntry) : Nat := cdiv (e.length + e.pending) c.t

/-- The logical pages of a row that an engine holds in a layer: p + i × NG below P (R270). -/
def CacheSet.heldPages (c : CacheSet) (idx layer : Nat) (e : SeqEntry) : List Nat :=
  let pos := (idx % c.ng + c.ng - layer % c.ng) % c.ng
  ((upTo (cdiv (c.pages e) c.ng + 1)).map (fun i => pos + i * c.ng)).filter (· < c.pages e)

/-- Addresses of the page-table entries that an ATTEND needs, with the page numbers. -/
def State.attendEntries (s : State) (p : Nat) (d : AttDesc) (engine : Nat) : List Nat :=
  let c := s.cacheSetAt p d.cset
  match s.cacheIndex c engine with
  | none => []
  | some idx =>
    let e := s.cacheEng c idx
    let bk := s.bucket c d.bucket
    (rowsOf d.row0 d.rows c.cg (idx / c.ng)).flatMap (fun r =>
      let slot := s.rowSlot bk r
      if slot = 0xFFFF then [] else
      (c.heldPages idx d.layer (s.seqEntry c slot)).map (fun j => c.cptEntry e slot d.layer (c.localIndex j)))

/-- The ATTEND in flight, if any, that reads a page which a range overlaps (R275). -/
def State.attendGuard (s : State) (p a n : Nat) : Option Flight :=
  let x := s.part p
  lookupBy (fun f => f.opcode == 0x70 &&
    match x.flightDesc f with
    | some b => (s.attendEntries p (AttDesc.parse b) (agNum f.agent)).any (fun q => overlap a n (pteAddr (s.fwRead q 8)) 262144)
    | none => false) x.flights

/-! ## Reading and writing -/

/-- A range cut at multiples of `g`: (address, bytes). -/
def cutGo (g : Nat) : Nat → Nat → Nat → List (Nat × Nat)
  | 0, _, _ => []
  | fuel + 1, a, n => if n = 0 then [] else (a, min n (g - a % g)) :: cutGo g fuel (a + min n (g - a % g)) (n - min n (g - a % g))

def cut (g a n : Nat) : List (Nat × Nat) := cutGo g (n / g + 2) a n

/-- The minimum efficient size of the path to a device address (Table 11-3): the unit of a request. -/
def reqUnit (a : Nat) : Nat := if a < stackTop then 4096 else if a < hostBase then 8192 else 65536

/-- Who makes an access: partition, cycle, agent and action. -/
structure Who where
  p : Nat
  cyc : Nat
  agent : Nat
  action : Nat
  deriving DecidableEq, Repr

/-- The breach of an access that is not served (R298, R486): RESOURCE 0 and no other party. -/
def State.notServed (s : State) (w : Who) : State := s.breach w.p w.cyc (BreachInfo.collision w.agent w.action 0 none)

/-- Reads device bytes for an agent: the bytes before the first absent page, that page's address, and the state. -/
def State.agentReadGo (w : Who) : List (Nat × Nat) → State → Run × Option Nat × State
  | [], s => ([], none, s)
  | (a, n) :: rest, s =>
    match s.access w.p a with
    | .absent => ([], some a, s)
    | .outside | .unserved =>
      let s := s.notServed w
      let (r, ab, s) := State.agentReadGo w rest s
      (Run.unserved 7 n ++ r, ab, s)
    | .ok =>
      match s.updGuard w.p a n with
      | some f =>
        if f.agent = w.agent then
          let (r, ab, s') := State.agentReadGo w rest s
          (s.devRead a n ++ r, ab, s')
        else
          let s := s.breach w.p w.cyc (BreachInfo.collision f.agent f.action 0 (some (w.agent, w.action)))
          let (r, ab, s) := State.agentReadGo w rest s
          (Run.unserved 6 n ++ r, ab, s)
      | none =>
        let (r, ab, s') := State.agentReadGo w rest s
        (s.devRead a n ++ r, ab, s')

def State.agentRead (s : State) (w : Who) (a n : Nat) : Run × Option Nat × State := State.agentReadGo w (cut (reqUnit a) a n) s

/-- Writes device bytes for an agent: how many bytes lie before the first absent page, that page's address, and the state. -/
def State.agentWriteGo (w : Who) : List (Nat × Nat) → Run → State → Nat × Option Nat × State
  | [], _, s => (0, none, s)
  | (a, n) :: rest, r, s =>
    match s.access w.p a with
    | .absent => (0, some a, s)
    | .outside | .unserved =>
      let (k, ab, s) := State.agentWriteGo w rest (r.drop n) (s.notServed w)
      (n + k, ab, s)
    | .ok =>
      match s.attendGuard w.p a n with
      | some f =>
        let s := if f.agent = w.agent then s.devWrite a (r.take n)
          else s.breach w.p w.cyc (BreachInfo.collision f.agent f.action (resEngine (engOfAgent f.agent)) (some (w.agent, w.action)))
        let (k, ab, s) := State.agentWriteGo w rest (r.drop n) s
        (n + k, ab, s)
      | none =>
        let (k, ab, s) := State.agentWriteGo w rest (r.drop n) (s.devWrite a (r.take n))
        (n + k, ab, s)

def State.agentWrite (s : State) (w : Who) (a : Nat) (r : Run) : Nat × Option Nat × State :=
  State.agentWriteGo w (cut (reqUnit a) a r.length) r s

/-- Whether every access of a range would be served or absent only: none of it lies outside the partition's ranges (R334). -/
def State.inRanges (s : State) (p a n : Nat) : Bool := (cut pageBytes a n).all (fun x => s.access p x.1 != .outside)

/-! ## Requests at the weirs (R313, R336, R337) -/

/-- The weir on the path to a device address (Table 10-7): the channel's, or that of the direction at the host. -/
def State.weirAt (s : State) (a : Nat) (write : Bool) : Option Nat := match s.place a with
  | .stack c _ => some c
  | .board c _ => some (0x100 + c)
  | .host _ _ => some (if write then 0x149 else 0x148)
  | .reserved => none

/-- The addresses at which the bytes of one side, given as pieces in byte order, enter another aligned unit of their path: each is one
request (R336). `prev` is the address of the byte before the first piece. -/
def unitsEntered : Option Nat → List (Nat × Nat) → List Nat
  | _, [] => []
  | prev, (a, n) :: rest =>
    let us := (cut (reqUnit a) a n).map (·.1)
    let same := prev.any (fun b => b / reqUnit a == a / reqUnit a)
    (if same then us.drop 1 else us) ++ unitsEntered (if n = 0 then prev else some (a + n - 1)) rest

/-- Requests of one side of a stream, as addresses and tokens in byte order, in the queues of its partition at the weirs of their paths. -/
def State.askTokens (s : State) (w : Who) (qmax : Nat) (write : Bool) (us : List (Nat × Nat)) : State :=
  let reqs : List (Nat × WeirReq) := us.filterMap (fun u =>
    if s.access w.p u.1 = .ok then
      (s.weirAt u.1 write).map (fun v =>
        (queueKey v w.p 0, { tokens := u.2, agent := w.agent, action := w.action, qmax := qmax, write := write, offered := false, rest := 0, id := 0 }))
    else none)
  s.offerNow (sideKey w.p w.agent 0 write) reqs

/-- A stream offers its requests, each of a full unit (R336). -/
def State.askUnits (s : State) (w : Who) (qmax : Nat) (write : Bool) (us : List Nat) : State :=
  s.askTokens w qmax write (us.map (fun a => (a, reqUnit a / 64)))

/-- The traffic of a sender that is no stream: bytes at each of a list of weirs, in order, 64 of them in a request (R315), each request offered once
the one before it has left (DESIGN CHOICE, log entry 38). -/
def State.askWeirs (s : State) (w : Who) (id : Nat) (write : Bool) (l : List (Nat × Nat)) : State :=
  s.offerNow (sideKey w.p w.agent id write) ((l.filter (fun x => x.2 != 0)).map (fun x =>
    (queueKey x.1 w.p 0, { tokens := 1, agent := w.agent, action := w.action, qmax := 1, write := write, offered := false, rest := cdiv x.2 64 - 1, id := id })))

/-- Neighbouring entries of one weir become one. -/
def joinWeirs (l : List (Nat × Nat)) : List (Nat × Nat) := l.foldr (fun x acc => match acc with
  | y :: t => if x.1 = y.1 then (x.1, x.2 + y.2) :: t else x :: acc
  | [] => [x]) []

/-- The weirs on the paths to a device range, with its bytes at each. -/
def State.weirsOf (s : State) (a n : Nat) (write : Bool) : List (Nat × Nat) :=
  joinWeirs ((cut pageBytes a n).filterMap (fun x => (s.weirAt x.1 write).map (fun v => (v, x.2))))

/-- Cells of a queue's owner until no request of a kind is left at it; none if that never comes about. -/
def cellsUntil (depth : Nat) (of : WeirReq → Bool) : Nat → Nat → List WeirReq → List WeirReq → Option Nat
  | fuel, n, q, h =>
    if !(q ++ h).any of then some n else match fuel with
    | 0 => none
    | fuel + 1 => let a := admitHeld depth [] (drainOne q) h
      cellsUntil depth of fuel (n + 1) a.queue a.held

/-- The model clock at which the requests of a kind that no other one waits behind have left every weir; none if they never do. -/
def State.queuesLeft (s : State) (of : WeirReq → Bool) : Option Nat :=
  let keys (t : Tab (List WeirReq)) : List Nat := (t.filter (fun e => e.2.any of)).map (·.1)
  (dedup (keys s.mem.queue ++ keys s.mem.held)).foldl (fun m key => m.bind (fun m =>
    let w := key % 65536 / 16
    let o := key % 16
    let q := s.weirQueue key
    let h := s.weirHeld key
    (cellsUntil (s.weirDepth w o) of (weirFillOf q + weirFillOf h + 1) 0 q h).bind (fun n =>
      if n = 0 then some m else (s.cellTime s.clk key n).map (max m)))) (some s.clk)

/-- Requests of a kind wait behind one that their sender holds. -/
def State.sidesWait (s : State) (of : WeirReq → Bool) : Bool := s.mem.waits.any (fun e => e.2.any (fun x => of x.2))

/-- The same with the requests that wait: the weirs go on to the moment at which one of those is offered, as long as that comes first. -/
def State.leftGo (of : WeirReq → Bool) : Nat → State → Option Nat
  | 0, s => if s.sidesWait of then none else s.queuesLeft of
  | fuel + 1, s =>
    let now := if s.sidesWait of then none else s.queuesLeft of
    match s.nextAdmit s.clk with
    | none => now
    | some t => if now.any (fun n => decide (n ≤ t)) then now
      else State.leftGo of fuel { (State.offerSides t (State.drainQueues s.clk t (s, []))).1 with clk := t }

/-- The model clock at which the requests of a kind have left every weir; none if they never do. -/
def State.leftAt (s : State) (of : WeirReq → Bool) : Option Nat := State.leftGo of s.admitFuel s
/-- The same for all the requests of a sender. -/
def State.weirsLeft (s : State) (agent : Nat) : Option Nat := s.leftAt (fun r => r.agent == agent)

/-- Bytes of a sender's requests under one number that have still to pass their weirs. -/
def State.bytesLeft (s : State) (agent id : Nat) (write : Bool) : Nat :=
  let of (r : WeirReq) : Bool := r.agent == agent && r.id == id && r.write == write
  64 * (sumNat ((s.mem.queue ++ s.mem.held).map (fun e => weirFillOf (e.2.filter of))) +
    sumNat (s.mem.waits.map (fun e => weirFillOf ((e.2.map (·.2)).filter of))))

/-- The model clock at which a stream has left the weirs and the direct paths of its field; none if it never does. -/
def State.streamLeft (s : State) (agent : Nat) : Option Nat := (s.weirsLeft agent).bind (fun t => (s.directLeft (agNum agent)).map (max t))

/-- Requests of an owner that senders hold, and those behind them, are never offered again (R86). -/
def State.dropHeld (s : State) (of : Nat → WeirReq → Bool) : State :=
  let s := (s.mem.held.map (·.1)).foldl (fun s k => s.putHeld k ((s.weirHeld k).filter (fun r => !of (k % 16) r))) s
  { s with mem := { s.mem with waits :=
      (s.mem.waits.map (fun e => (e.1, e.2.filter (fun x => !of (e.1 % 16) x.2)))).filter (fun e => !e.2.isEmpty) } }

/-! ## Activation stores (R204) -/

def storeTagKey (die region : Nat) : Nat := die * 12288 + region
def storeAgent (die : Nat) : Nat := 0x60000000 + die

/-- A stream's read of a store: a region whose tag does not name the instance delivers poison and records a breach. DESIGN CHOICE (log entry 42): one
breach for each contiguous piece of a region in each row, with FLAGS bit 1 POISONED clear. -/
def State.storeReadGo (w : Who) (die inst : Nat) : List (Nat × Nat) → State → Run × State
  | [], s => ([], s)
  | (a, n) :: rest, s =>
    if tget 0 s.data.storeTag (storeTagKey die (a / 16384)) = inst + 1 then
      let (r, s') := State.storeReadGo w die inst rest s
      (s.read .store (storeAt die a) n ++ r, s')
    else
      let s := s.breach w.p w.cyc (BreachInfo.collision (storeAgent die) 0xFFFF (resStore die (a / 16384)) (some (w.agent, w.action)))
      let (r, s) := State.storeReadGo w die inst rest s
      (Run.unserved 6 n ++ r, s)

def State.storeRead (s : State) (w : Who) (die inst a n : Nat) : Run × State := State.storeReadGo w die inst (cut 16384 a n) s

/-- A stream's write to a store tags every region it touches. -/
def State.storeWrite (s : State) (die inst a : Nat) (r : Run) : State :=
  let s := s.write .store (storeAt die a) r
  let tags := (cut 16384 a r.length).foldl (fun t x => tset 0 t (storeTagKey die (x.1 / 16384)) (inst + 1)) s.data.storeTag
  { s with data := { s.data with storeTag := tags } }

/-- The tags of a partition's runs become empty (R204). -/
def State.clearTags (s : State) (p : Nat) : State :=
  let e := s.lay p
  let t := tclear s.data.storeTag (storeTagKey 0 e.as0) e.as0n
  { s with data := { s.data with storeTag := tclear t (storeTagKey 1 e.as1) e.as1n } }

end Sys2Proof.Machine
end

