-- ==== Sys2Proof/Machine/MatrixArith.lean ====
section
/-! DEFINITION. Chunk sums, galley accumulation and stochastic rounding (R117, R118, R144-R156). -/
namespace Sys2Proof.Machine

open Sys2Proof

/-- A computed value: its value, the flags raised, the kind of NaN it first became (0 none, 1 propagated, 2 generated)
and the step of the operation that made it NaN (R158, R185). -/
structure Res where
  v : Num
  fl : Flags
  nan : Nat
  st : Nat
  deriving DecidableEq, Repr

namespace Res

/-- A value that raises nothing. -/
def ok (v : Num) : Res := ⟨v, Flags.none, 0, 0⟩

/-- A rounded value with its flags. -/
def flagged (p : Num × Flags) : Res := ⟨p.1, p.2, 0, 0⟩

/-- A NaN passed on from an operand (R115). -/
def propagated : Res := ⟨.nan, Flags.none, 1, 0⟩

/-- A NaN that the engine generates; it sets INVALID (R118, R155). -/
def generated : Res := ⟨.nan, Flags.inval, 2, 0⟩

/-- The later result `b` computed from `a`: flags accrue and the first NaN step stays. -/
def after (a b : Res) : Res :=
  { v := b.v, fl := a.fl ||| b.fl, nan := if a.nan ≠ 0 then a.nan else b.nan, st := if a.nan ≠ 0 then a.st else b.st }

/-- Sequencing of operations. -/
def bind (a : Res) (f : Num → Res) : Res := a.after (f a.v)

/-- Two operands: flags accrue, and of their NaNs that of the earlier step stays. -/
def both (a b : Res) : Res :=
  let first := decide (a.nan ≠ 0) && (b.nan == 0 || decide (a.st ≤ b.st))
  { v := b.v, fl := a.fl ||| b.fl, nan := if first then a.nan else b.nan, st := if first then a.st else b.st }

/-- An operation on two computed operands. -/
def bind2 (a b : Res) (f : Num → Num → Res) : Res := (a.both b).after (f a.v b.v)

/-- Marks the step at which a NaN of this operation is produced. -/
def mark (k : Nat) (a : Res) : Res := { a with st := if a.nan ≠ 0 then k else 0 }

end Res

/-! ## Products -/

/-- A product under R117 and R118; `ex` is the product exponent, the sum of the operands' exponents. -/
inductive Prod' where
  | nan (gen : Bool)
  | inf (neg : Bool)
  | fin (neg : Bool) (m : Nat) (e ex : Int)
  deriving DecidableEq, Repr

/-- Product classes of Table 04-4. -/
def product (a b : Num) : Prod' :=
  match a, b with
  | .nan, _ => .nan false
  | _, .nan => .nan false
  | .inf n1, .inf n2 => .inf (n1 != n2)
  | .inf n1, .fin n2 m _ => if m = 0 then .nan true else .inf (n1 != n2)
  | .fin n1 m _, .inf n2 => if m = 0 then .nan true else .inf (n1 != n2)
  | .fin n1 m1 e1, .fin n2 m2 e2 =>
    if m1 = 0 || m2 = 0 then .fin (n1 != n2) 0 0 0
    else .fin (n1 != n2) (m1 * m2) (e1 + e2) (Num.expo m1 e1 + Num.expo m2 e2)

/-- The three BF16 parts of an FP32 operand in split mode, with their indices (R149). -/
def splitParts (isFp32 : Bool) (x : Num) : List (Nat × Num) :=
  if !isFp32 then [(0, x)] else
  match x with
  | .fin n m e =>
    if m = 0 then [(0, x)] else
    let hi := m / 65536 * 65536
    let r := m % 65536
    let k := Nat.log2 r - 7
    let mid := r / 2 ^ k * 2 ^ k
    let lo := r - mid
    let part (i p : Nat) : List (Nat × Num) := if p = 0 || Num.expo p e < -126 then [] else [(i, .fin n p e)]
    (0, .fin n hi e) :: part 1 mid ++ part 2 lo
  | _ => [(0, x)]

/-- The products of one pair: parts `i`, `j` with `i + j ≤ 2` (R149). -/
def pairProducts (fa fb : Bool) (a b : Num) : List Prod' :=
  (splitParts fa a).flatMap (fun p => (splitParts fb b).filterMap (fun q =>
    if p.1 + q.1 ≤ 2 then some (product p.2 q.2) else none))

/-- The largest product exponent among the finite non-zero products (R145). -/
def prodEmax (ps : List Prod') : Option Int :=
  ps.foldl (fun a p => match p with
    | .fin _ m _ ex => if m = 0 then a else
      match a with
      | none => some ex
      | some x => some (if x < ex then ex else x)
    | _ => a) none

/-- One product truncated towards zero to the window whose least weight is `2^w`: the signed multiple and whether a
non-zero bit was dropped (R145). -/
def truncProd (w : Int) (p : Prod') : Int × Bool :=
  match p with
  | .fin n m e _ =>
    if w ≤ e then (if n then -((m <<< (e - w).toNat : Nat) : Int) else ((m <<< (e - w).toNat : Nat) : Int), false)
    else
      let k := (w - e).toNat
      let t : Int := (m >>> k : Nat)
      (if n then -t else t, m % 2 ^ k != 0)
  | _ => (0, false)

/-- The finite part of a chunk, rounded once to FP32 (R145, R146). -/
def chunkFinite (ps : List Prod') : Num × Flags :=
  match prodEmax ps with
  | none =>
    (.fin (ps.all (fun p => match p with | .fin n _ _ _ => n | _ => false)) 0 0, Flags.none)
  | some ex =>
    let w := ex - 38
    let ts := ps.map (truncProd w)
    let s := ts.foldl (fun a t => a + t.1) (0 : Int)
    let dropped := Flags.inexIf (ts.any (·.2))
    let r := roundFp fp32F (.fin (s < 0) s.natAbs w)
    (r.1, r.2 ||| dropped)

/-- The chunk sum (R147): the class decides, and the finite part's flags are raised in every case. -/
def chunkSum (ps : List Prod') : Res :=
  let (fv, ff) := chunkFinite ps
  let anyGen := ps.any (fun p => match p with | .nan g => g | _ => false)
  let anyNan := ps.any (fun p => match p with | .nan _ => true | _ => false)
  let pinf := ps.any (fun p => match p with | .inf n => !n | _ => false)
  let ninf := ps.any (fun p => match p with | .inf n => n | _ => false)
  if anyGen then ⟨.nan, ff ||| Flags.inval, 2, 0⟩
  else if anyNan then ⟨.nan, ff, 1, 0⟩
  else if pinf && ninf then ⟨.nan, ff ||| Flags.inval, 2, 0⟩
  else if pinf then ⟨.inf false, ff, 0, 0⟩
  else if ninf then ⟨.inf true, ff, 0, 0⟩
  else ⟨fv, ff, 0, 0⟩

/-- The chunk sum of two operand runs; positions beyond the runs are +0 times +0 (R144). -/
def chunkOf (fa fb : Bool) (as bs : List Num) : Res :=
  let pad := if as.length < 32 then [Prod'.fin false 0 0 0] else []
  chunkSum ((as.zip bs).flatMap (fun p => pairProducts fa fb p.1 p.2) ++ pad)

/-! ## Philox and stochastic rounding -/

/-- One round of Philox-4x32 (R152). -/
def philoxRound (c : Nat × Nat × Nat × Nat) (k0 k1 : Nat) : Nat × Nat × Nat × Nat :=
  let p0 := 0xD2511F53 * c.1
  let p1 := 0xCD9E8D57 * c.2.2.1
  ((p1 / 2 ^ 32) ^^^ c.2.1 ^^^ k0, p1 % 2 ^ 32, (p0 / 2 ^ 32) ^^^ c.2.2.2 ^^^ k1, p0 % 2 ^ 32)

/-- The rounds of Philox, the key advancing before each but the first. -/
def philoxRounds : Nat → Nat × Nat × Nat × Nat → Nat → Nat → Nat × Nat × Nat × Nat
  | 0, c, _, _ => c
  | n + 1, c, k0, k1 =>
    philoxRounds n (philoxRound c k0 k1) ((k0 + 0x9E3779B9) % 2 ^ 32) ((k1 + 0xBB67AE85) % 2 ^ 32)

/-- Philox-4x32-10 (R152). -/
def philox (c : Nat × Nat × Nat × Nat) (k0 k1 : Nat) : Nat × Nat × Nat × Nat := philoxRounds 10 c k0 k1

/-- Counter words 1 to 3 and the key of a rounding (Table 05-7); word 0 is given per addition. -/
structure SrKey where
  row : Nat
  col : Nat
  opId : Nat
  step : Nat
  k0 : Nat
  k1 : Nat
  deriving DecidableEq, Repr

/-- The 16-bit random value of a rounding (R152, Table 05-7). -/
def srRandom (k : SrKey) (c0 : Nat) : Nat :=
  (philox (c0, (k.row % 65536) * 65536 + k.col % 65536, k.opId, k.step) k.k0 k.k1).1 % 65536

/-- Stochastic rounding of an exact non-zero sum (R151). -/
def srRound (r : Nat) (neg : Bool) (m : Nat) (e : Int) : Num × Flags :=
  let u := Num.expo m e - 23
  let (t, f) : Nat × Nat :=
    if u ≤ e then (m <<< (e - u).toNat, 0)
    else
      let k := (u - e).toNat
      (m >>> k, (m % 2 ^ k) * 65536 / 2 ^ k)
  let exact := if u ≤ e then true else m % 2 ^ (u - e).toNat = 0
  let t' := if f + r ≥ 65536 then t + 1 else t
  let p := roundFp fp32F (.fin neg t' u)
  (p.1, p.2 ||| Flags.inexIf (!(exact && t' = t)))

/-- How an addition rounds: to nearest even, or stochastically with a random value. -/
inductive Rounding where
  | nearest
  | stochastic (r : Nat)
  deriving DecidableEq, Repr

/-- An addition in a format with one rounding and the special cases of Table 05-8 (R150, R151, R155, R212). -/
def addRound (f : FpFmt) (md : Rounding) (a b : Num) : Res :=
  match a, b with
  | .nan, _ => Res.propagated
  | _, .nan => Res.propagated
  | .inf n1, .inf n2 => if n1 = n2 then Res.ok (.inf n1) else Res.generated
  | .inf n, _ => Res.ok (.inf n)
  | _, .inf n => Res.ok (.inf n)
  | .fin n1 m1 e1, .fin n2 m2 e2 =>
    match addExact n1 m1 e1 n2 m2 e2 with
    | .fin n 0 _ => Res.ok (.fin n 0 0)
    | .fin n m e => Res.flagged (match md with
      | .nearest => roundFp f (.fin n m e)
      | .stochastic r => srRound r n m e)
    | x => Res.ok x

/-- The number of chunk sums at which a galley begins to round stochastically (R150). -/
def longSum : Nat := 256

/-- The rounding mode of a galley addition with the count before it (R150). -/
def galleyMode (k : SrKey) (c0 count : Nat) : Rounding :=
  if count < longSum then .nearest else .stochastic (srRandom k c0)

/-- One galley addition: chunk sum `s` added to element `g`; the NaN of the step is reported once, by its first source (R158). -/
def galleyAdd (k : SrKey) (c0 count : Nat) (g : Num) (s : Res) : Res :=
  s.bind (fun x => addRound fp32F (galleyMode k c0 count) g x)

/-- The segment tree of R154 over FP32 values; `level` counts from 1. -/
def segTree (k : SrKey) : Nat → Nat → List Num → Res
  | 0, _, vs => Res.ok (vs.headD Num.zero)
  | fuel + 1, level, vs =>
    if vs.length ≤ 1 then Res.ok (vs.headD Num.zero) else
    let pairs := groupsOf 2 vs.length vs
    let rs := pairs.zipIdx.map (fun p => match p.1 with
      | [a, b] => addRound fp32F (.stochastic (srRandom k (0x80000000 + level * 2 ^ 24 + 2 * p.2))) a b
      | [a] => Res.ok a
      | _ => Res.ok Num.zero)
    let acc := rs.foldl Res.after (Res.ok Num.zero)
    acc.after (segTree k fuel (level + 1) (rs.map (·.v)))

end Sys2Proof.Machine
end

