-- ==== Sys2Proof/Machine/Matrix.lean ====
section
/-! DEFINITION. The matrix actions MMA, DRAIN and COMBINE (chapter 05), with the accumulate-writes that a DRAIN sends (R211). -/
namespace Sys2Proof.Machine

open Sys2Proof

/-! ## Descriptors -/

/-- An MMA descriptor (Table 05-3); a COMBINE descriptor has the same places (Table 05-18). -/
structure MmaDesc where
  opId : Nat
  fmtA : Nat
  fmtB : Nat
  galley : Nat
  scales : Nat
  m : Nat
  n : Nat
  k : Nat
  aAddr : Nat
  bAddr : Nat
  aStride : Nat
  bStride : Nat
  aScale : Nat
  bScale : Nat
  row0 : Nat
  col0 : Nat
  kBase : Nat
  rsv : Bool
  deriving DecidableEq, Repr

def MmaDesc.parse (b : List Byte) : MmaDesc :=
  { opId := fld b 0 4, fmtA := byteAt b 4, fmtB := byteAt b 5, galley := byteAt b 6, scales := byteAt b 7, m := fld b 8 2,
    n := fld b 0xA 2, k := fld b 0xC 4, aAddr := fld b 0x10 4, bAddr := fld b 0x14 4, aStride := fld b 0x18 4,
    bStride := fld b 0x1C 4, aScale := fld b 0x20 4, bScale := fld b 0x24 4, row0 := fld b 0x28 2, col0 := fld b 0x2A 2,
    kBase := fld b 0x2C 4, rsv := !zeroAt b 0x30 16 }

def MmaDesc.acc (d : MmaDesc) : Bool := bit d.galley 1
def MmaDesc.gal (d : MmaDesc) : Nat := d.galley % 2
def MmaDesc.kindA (d : MmaDesc) : Nat := d.scales % 4
def MmaDesc.kindB (d : MmaDesc) : Nat := d.scales / 4 % 4
def MmaDesc.chunks (d : MmaDesc) : Nat := cdiv d.k 32

/-- Rank of a format by its width (R134), as the step cost and the chunks per step of Table 05-1. -/
def stepCost (fa fb : Nat) : Nat × Nat :=
  let w := max (fmtBits fa) (fmtBits fb)
  if w ≤ 6 then (1, 2) else if w = 8 then (1, 1) else if w = 16 then (2, 1) else (16, 1)

/-- Steps of the walk (R135). -/
def MmaDesc.steps (d : MmaDesc) : Nat := cdiv d.chunks (stepCost d.fmtA d.fmtB).2 * d.m * cdiv d.n 48

/-- Whether a scale kind matches a format (R139). -/
def scaleKindOk (fmt kind : Nat) : Bool := if isMx fmt then kind = 1 else if isFp8 fmt then kind = 0 || kind = 2 else kind = 0

/-- Rows of `bytes` bytes lie in core memory and start on 16-byte boundaries (R138, R139). -/
def rowsOk (addr stride rows bytes : Nat) : Bool :=
  addr % 16 = 0 && (rows ≤ 1 || stride % 16 = 0) && addr + (rows - 1) * stride + bytes ≤ coreBytes

/-- Validity of one operand of an MMA (R139). DESIGN CHOICE (log entry 56): a scale array or record needs no alignment, and of a per-tensor
record, whose history length an MMA does not know, the first 16 bytes lie in core memory. -/
def mmaOperandOk (fmt kind addr stride count k scale : Nat) : Bool :=
  isProductFmt fmt && scaleKindOk fmt kind && rowsOk addr stride count (rowBytes fmt k) &&
    (if kind = 1 then scale + count * cdiv k 32 ≤ coreBytes else if kind = 2 then scale + 16 ≤ coreBytes else scale = 0)

def MmaDesc.valid (d : MmaDesc) : Bool :=
  !d.rsv && d.galley < 4 && d.scales < 16 && 1 ≤ d.m && d.m ≤ 128 && 1 ≤ d.n && d.n ≤ 192 && 1 ≤ d.k && d.k ≤ 16777216 &&
    d.kBase + d.chunks - 1 ≤ 0x7FFFFFFF && mmaOperandOk d.fmtA d.kindA d.aAddr d.aStride d.m d.k d.aScale &&
    mmaOperandOk d.fmtB d.kindB d.bAddr d.bStride d.n d.k d.bScale

/-- The fields of a COMBINE descriptor (Table 05-18) in the places of `MmaDesc`. -/
def MmaDesc.combineValid (d : MmaDesc) : Bool :=
  !d.rsv && d.fmtA = 0 && d.fmtB = 0 && d.galley < 2 && d.scales = 0 && 1 ≤ d.m && d.m ≤ 128 && 1 ≤ d.n && d.n ≤ 192 &&
    d.k = 0 && d.bAddr = 0 && d.bStride = 0 && d.aScale = 0 && d.bScale = 0 && bits d.kBase 23 0 ≤ 65534 &&
    1 ≤ bits d.kBase 30 24 && bits d.kBase 30 24 ≤ 16 && d.kBase < 2 ^ 31 && 4 * d.n ≤ d.aStride && d.aStride % 16 = 0 &&
    rowsOk d.aAddr d.aStride d.m (4 * d.n)

/-! ## Operands -/

/-- One chunk of an operand: its values, the origin of its poison and where it lies. -/
structure ChunkIn where
  vals : List Num
  poison : Nat
  place : Nat
  deriving DecidableEq, Repr

/-- Chunk `j` of row `r` of an operand, decoded (R113 to R115), with its poison (R521). -/
def State.chunkIn (s : State) (core base stride fmt kind scale k r j : Nat) : ChunkIn :=
  let a := base + r * stride + 4 * fmtBits fmt * j
  let cnt := min 32 (k - 32 * j)
  let run := s.read .core (coreAt core a) (cdiv (cnt * fmtBits fmt) 8)
  let sa := if kind = 1 then scale + r * cdiv k 32 + j else scale + 4
  let sc := if kind = 0 then ([] : Run) else s.read .core (coreAt core sa) 1
  let code := if kind = 0 then 0x7F else byteAt (Run.plain sc) 0
  let vals := match fmtLayout fmt with
    | some f => (rowCodes fmt cnt run.plain).map (decodeScaled f code)
    | none => []
  let own := Run.origin run
  { vals := vals, poison := if own ≠ 0 then own else Run.origin sc,
    place := whereRes (resBank core ((if own ≠ 0 then a + run.firstBad else sa) / 131072)) }

/-- The chunks of every row of an operand. -/
def State.operandIn (s : State) (core base stride fmt kind scale k rows : Nat) : List (List ChunkIn) :=
  (upTo rows).map (fun r => (upTo (cdiv k 32)).map (s.chunkIn core base stride fmt kind scale k r))

/-- The rounding key of an element of an action (Table 05-7, R153). -/
def State.srKey (s : State) (c : Ctx) (opId row col : Nat) : SrKey :=
  let steps := (((s.part c.p).seqr c.agent).map (·.steps)).getD 0
  { row := row, col := col, opId := opId, step := ((tget 0 s.num.step c.p).toNat + steps) % 2 ^ 32,
    k0 := (tget 0 s.num.seedLo c.p).toNat, k1 := (tget 0 s.num.seedHi c.p).toNat }

/-! ## The walk of an MMA (R135, R142, R150) -/

/-- What a walk gathers: galley elements, flags, NaNs in order (latest first), the first consumption of poison. -/
structure WalkAcc where
  gal : Tab Nat
  fl : Flags
  nans : List NanAt
  poison : Option (Nat × Nat × Nat)    -- cycle, origin, where
  deriving DecidableEq, Repr

/-- The additions of one lane in one step: the chunks of the group in ascending order. The NaN is that of the first source. -/
def laneStep (key : SrKey) (fa fb : Bool) (c0 kBase : Nat) : List (Nat × ChunkIn × ChunkIn) → Num → Num × Flags × Option (Bool × Nat)
  | [], g => (g, Flags.none, none)
  | (j, a, b) :: rest, g =>
    let r := galleyAdd key (kBase + j) (min 256 (c0 + j)) g (chunkOf fa fb a.vals b.vals)
    let (v, fl, nan) := laneStep key fa fb c0 kBase rest r.v
    (v, r.fl ||| fl, if r.nan ≠ 0 then some (r.nan = 2, kBase + j) else nan)

/-- One step of the walk: group `g`, row `m`, block `b` of 48 columns. -/
def mmaStep (d : MmaDesc) (keyOf : Nat → Nat → SrKey) (core c0 cyc w : Nat) (as bs : List (List ChunkIn)) (acc : WalkAcc)
    (g m b : Nat) : WalkAcc :=
  let (tau, cps) := stepCost d.fmtA d.fmtB
  let cyc := cyc + 22 + tau * (w + 1)
  let js := (upTo cps).map (g * cps + ·) |>.filter (· < d.chunks)
  let cols := (upTo 48).map (48 * b + ·) |>.filter (· < d.n)
  let none' : ChunkIn := { vals := [], poison := 0, place := 0 }
  let at' (l : List (List ChunkIn)) (r j : Nat) : ChunkIn := (l.getD r []).getD j none'
  cols.foldl (fun acc n =>
    let ins := js.map (fun j => (j, at' as m j, at' bs n j))
    let key := galElem core d.gal m n
    let (v, fl, nan) := laneStep (keyOf (d.row0 + m) (d.col0 + n)) (d.fmtA = 0) (d.fmtB = 0) c0 d.kBase ins (fp32 (tget 0 acc.gal key))
    let bad := (ins.flatMap (fun x => [x.2.1, x.2.2])).find? (fun x => x.poison != 0)
    { gal := tset 0 acc.gal key (fp32Code v), fl := acc.fl ||| fl,
      nans := match nan with
        | some (gen, chunk) => { cycle := cyc, gen := gen, vector := false, galley := d.gal, lane := n % 48, row := (d.row0 + m) % 65536,
                                 col := (d.col0 + n) % 65536, chunk := chunk } :: acc.nans
        | none => acc.nans,
      poison := match acc.poison, bad with
        | none, some x => some (cyc, x.poison, x.place)
        | p, _ => p }) acc

/-- The steps of the walk in order: chunk group outermost, then the row, then the block (R135). -/
def walkOrder (groups rows blocks : Nat) : List (Nat × Nat × Nat) :=
  (upTo groups).flatMap (fun g => (upTo rows).flatMap (fun m => (upTo blocks).map (fun b => (g, m, b))))

def mmaWalk (d : MmaDesc) (keyOf : Nat → Nat → SrKey) (core c0 cyc : Nat) (as bs : List (List ChunkIn)) (acc : WalkAcc) : WalkAcc :=
  ((walkOrder (cdiv d.chunks (stepCost d.fmtA d.fmtB).2) d.m (cdiv d.n 48)).zipIdx).foldl
    (fun acc x => mmaStep d keyOf core c0 cyc x.2 as bs acc x.1.1 x.1.2.1 x.1.2.2) acc

/-- A galley keeps the origin of the poison that first reached it (R519). -/
def State.poisonGalley (s : State) (core g origin : Nat) : State :=
  let k := galKey core g
  if origin = 0 || tget 0 s.data.galleyP k ≠ 0 then s else { s with data := { s.data with galleyP := tset 0 s.data.galleyP k origin } }

/-- The lanes of a core are occupied by an MMA or COMBINE at a model clock (R136). -/
def Part.lanesBusy (x : Part) (agent clk : Nat) : Option (Nat × Nat) :=
  (lookupBy (fun f => f.agent == agent && (f.opcode == 0x10 || f.opcode == 0x12) && clk < f.lanes) x.flights).map (fun f => (agent, f.action))

/-- The effects of a finished walk: galley, flags, traps and the consumption of poison. -/
def State.endWalk (s : State) (c : Ctx) (core gal count opId fmtA fmtB : Nat) (acc : WalkAcc) : State :=
  let s := { s with data := { s.data with galley := acc.gal, galleyN := tset 0 s.data.galleyN (galKey core gal) count } }
  let s := s.orMe core acc.fl
  let s := match acc.poison with
    | some (cyc, o, w) => (s.poisonGalley core gal o).consume c.p cyc o c.agent c.idx w
    | none => s
  s.trapNans c.p core opId c.idx c.point fmtA fmtB acc.nans.reverse

/-- The effect of an MMA: it completes when the cycle of its last additions is over (R135). -/
def State.runMma (s : State) (c : Ctx) (d : MmaDesc) : State :=
  let core := agNum c.agent
  let k := galKey core d.gal
  let tau := (stepCost d.fmtA d.fmtB).1
  let as := s.operandIn core d.aAddr d.aStride d.fmtA d.kindA d.aScale d.k d.m
  let bs := s.operandIn core d.bAddr d.bStride d.fmtB d.kindB d.bScale d.k d.n
  let c0 := if d.acc then tget 0 s.data.galleyN k else 0
  let base := if d.acc then s.data.galley else (upTo d.m).foldl (fun t m => tclear t (galElem core d.gal m 0) d.n) s.data.galley
  let own := if d.acc then tget 0 s.data.galleyP k else 0
  let acc : WalkAcc :=
    { gal := base, fl := Flags.none, nans := [],
      poison := if own = 0 then none else some (c.point + 22 + tau, own, whereRes (resGalley core d.gal)) }
  let acc := mmaWalk d (s.srKey c d.opId) core c0 c.point as bs acc
  let s := s.endWalk c core d.gal (min 256 (c0 + d.chunks)) d.opId d.fmtA d.fmtB acc
  let p0 := s.clkAt c.p c.point
  let per := (s.part c.p).period
  s.addFlight c.p { flightOf c d.opId [resGalley core d.gal] with
    lanes := p0 + tau * d.steps * per, ready := p0 + (23 + tau * d.steps) * per }

/-- Issue of a matrix action whose descriptor has `n` bytes. -/
def State.issueMatrix (s : State) (op p a n : Nat) (f : Ctx → List Byte → State → State) : State :=
  match issueCtx s op p a with
  | none => s
  | some c =>
    let s := s.toCycle p c.point
    match (s.part p).image.descOf c.bind c.r.arg n with
    | none => s.issueAction c false none [] id
    | some b => f c b s

/-- MMA (R135): walks chunk sums of two operands into a galley. -/
def execMma (p a : Nat) (s : State) : Out :=
  .next (s.issueMatrix 0x10 p a 64 (fun c b s =>
    let d := MmaDesc.parse b
    let busy := (s.part p).lanesBusy a (s.clkAt p c.point)
    s.issueAction c d.valid busy [resGalley (agNum a) d.gal] (fun s => s.runMma c d)))

/-! ## COMBINE (R154, R136) -/

/-- One block of a COMBINE: `w` is its place in the walk. -/
def combineStep (d : MmaDesc) (keyOf : Nat → Nat → SrKey) (core cyc w : Nat) (rows : List Run) (acc : WalkAcc) (m b : Nat) : WalkAcc :=
  let cyc := cyc + 23 + w
  let ctr := 0x80000000 + d.kBase
  let row := rows.getD m []
  let cols := (upTo 48).map (48 * b + ·) |>.filter (· < d.n)
  cols.foldl (fun acc n =>
    let run := (row.drop (4 * n)).take 4
    let x := fp32 (leNat (Run.plain run))
    let key := galElem core d.gal m n
    let r := addRound fp32F (.stochastic (srRandom (keyOf (d.row0 + m) (d.col0 + n)) ctr)) (fp32 (tget 0 acc.gal key)) x
    { gal := tset 0 acc.gal key (fp32Code r.v), fl := acc.fl ||| r.fl,
      nans := if r.nan = 0 then acc.nans else
        { cycle := cyc, gen := r.nan = 2, vector := false, galley := d.gal, lane := n % 48, row := (d.row0 + m) % 65536,
          col := (d.col0 + n) % 65536, chunk := ctr } :: acc.nans,
      poison := match acc.poison with
        | some p => some p
        | none => if Run.origin run = 0 then none
            else some (cyc, Run.origin run, whereRes (resBank core ((d.aAddr + m * d.aStride + 4 * n) / 131072))) }) acc

/-- The effect of a COMBINE, which completes like an MMA (R136). -/
def State.runCombine (s : State) (c : Ctx) (d : MmaDesc) : State :=
  let core := agNum c.agent
  let k := galKey core d.gal
  let blocks := cdiv d.n 48
  let rows := (upTo d.m).map (fun m => s.read .core (coreAt core (d.aAddr + m * d.aStride)) (4 * d.n))
  let own := tget 0 s.data.galleyP k
  let acc : WalkAcc :=
    { gal := s.data.galley, fl := Flags.none, nans := [],
      poison := if own = 0 then none else some (c.point + 23, own, whereRes (resGalley core d.gal)) }
  let acc := ((walkOrder 1 d.m blocks).zipIdx).foldl
    (fun acc x => combineStep d (s.srKey c d.opId) core c.point x.2 rows acc x.1.2.1 x.1.2.2) acc
  let s := s.endWalk c core d.gal (tget 0 s.data.galleyN k) d.opId 0 0 acc
  let p0 := s.clkAt c.p c.point
  let per := (s.part c.p).period
  s.addFlight c.p { flightOf c d.opId [resGalley core d.gal] with
    lanes := p0 + d.m * blocks * per, ready := p0 + (23 + d.m * blocks) * per }

/-- COMBINE (R154): adds a received FP32 tile into a galley by stochastic rounding. -/
def execCombine (p a : Nat) (s : State) : Out :=
  .next (s.issueMatrix 0x12 p a 64 (fun c b s =>
    let d := MmaDesc.parse b
    let busy := (s.part p).lanesBusy a (s.clkAt p c.point)
    s.issueAction c d.combineValid busy [resGalley (agNum a) d.gal] (fun s => s.runCombine c d)))

/-! ## DRAIN (R141, R211) -/

/-- A drain descriptor (Table 05-4). -/
structure DrainDesc where
  opId : Nat
  galley : Nat
  dest : Nat
  fmt : Nat
  kind : Nat
  row : Nat
  col : Nat
  m : Nat
  n : Nat
  unit : Nat
  addr : Nat
  stride : Nat
  scale : Nat
  hist : Nat
  margin : Nat
  rsv : Bool
  deriving DecidableEq, Repr

def DrainDesc.parse (b : List Byte) : DrainDesc :=
  { opId := fld b 0 4, galley := byteAt b 4, dest := byteAt b 5, fmt := byteAt b 6, kind := byteAt b 7, row := byteAt b 8,
    col := byteAt b 9, m := byteAt b 0xA, n := byteAt b 0xB + 1, unit := fld b 0xC 4, addr := fld b 0x10 8,
    stride := fld b 0x18 4, scale := fld b 0x1C 4, hist := byteAt b 0x20 + 1, margin := byteAt b 0x21, rsv := !zeroAt b 0x22 14 }

/-- The reservoir engine whose channel holds a device address (R210): near-memory engines 0 to 255, channel update units from 256. -/
def State.reservoir (s : State) (a : Nat) : Option Nat :=
  match s.place a with
  | .stack c _ => some c
  | .board c _ => some (256 + c)
  | _ => none

/-- The runs of up to 64 columns of a drain: row, first column, columns (R211). -/
def drainRuns (m n : Nat) : List (Nat × Nat × Nat) :=
  (upTo m).flatMap (fun r => (upTo (cdiv n 64)).map (fun b => (r, 64 * b, min 64 (n - 64 * b))))

def State.drainValid (s : State) (p : Nat) (d : DrainDesc) : Bool :=
  let mx := isMx d.fmt
  let histBytes := 16 + 4 * d.hist
  !d.rsv && d.galley < 2 && d.dest ≤ 2 && isProductFmt d.fmt && scaleKindOk d.fmt d.kind && 1 ≤ d.m && d.row + d.m ≤ 128 &&
    d.col + d.n ≤ 192 && d.margin ≤ 15 && (d.kind ≠ 0 || d.scale = 0) && d.scale % 16 = 0 &&
    (if d.kind = 2 then d.scale + histBytes ≤ coreBytes else true) &&
    (if d.dest = 2 then
      d.fmt = 0 && d.unit = 0 && d.addr < 2 ^ 57 && d.addr % 2 = 0 && d.stride % 2 = 0 &&
        (drainRuns d.m d.n).all (fun x =>
          let a := d.addr + x.1 * d.stride + 6 * x.2.1
          (s.reservoir a).isSome && s.reservoir a = s.reservoir (a + 6 * x.2.2 - 1))
     else
      d.addr % 16 = 0 && d.stride % 16 = 0 && rowsOk d.addr d.stride d.m (rowBytes d.fmt d.n) &&
        (if mx then d.scale + d.m * cdiv d.n 32 ≤ coreBytes else true) &&
        (if d.dest = 1 then coreOk d.unit && bit (s.lay p).fields (coreField d.unit) else d.unit = 0))

/-- Resources of a drain: the galley, the destination banks of DEST 1, then the scale array or record (R74, R127, R141). The record of a
group's write belongs to the member in whose memory it lies (R126). -/
def DrainDesc.resources (d : DrainDesc) (core : Nat) (own : Bool) : List Nat :=
  let rows := (upTo d.m).map (fun r => d.addr + r * d.stride)
  let dst := if d.dest = 1 then rows.flatMap (fun a => banksOf d.unit a (rowBytes d.fmt d.n)) else []
  let sc := if d.kind = 2 then if !own then [] else banksOf core d.scale (16 + 4 * d.hist)
    else if d.dest = 1 && d.kind = 1 then banksOf d.unit d.scale (d.m * cdiv d.n 32) else []
  dedup (resGalley core (d.galley % 2) :: dst ++ sc)

/-- The values of a drain's region, row by row. -/
def State.drainVals (s : State) (core : Nat) (d : DrainDesc) : List (List Num) :=
  (upTo d.m).map (fun r => (upTo d.n).map (fun c => fp32 (tget 0 s.data.galley (galElem core (d.galley % 2) (d.row + r) (d.col + c)))))

/-- Writes converted rows with their scales, all under one origin of poison. -/
def State.putRows (s : State) (core addr stride scale per origin : Nat) (rows : List (List Byte × List Byte)) : State :=
  rows.zipIdx.foldl (fun s x =>
    let s := s.write .core (coreAt core (addr + x.2 * stride)) (Run.tainted origin x.1.1)
    if x.1.2.isEmpty then s else s.write .core (coreAt core (scale + x.2 * per)) (Run.tainted origin x.1.2)) s

/-! ## Per-tensor scale records (R126 to R128) -/

/-- The descriptor, of `n` bytes, of a core's record that carries an operation. -/
def Image.opDesc (m : Image) (core op opId n : Nat) : Option (List Byte) :=
  (m.binding core).bind (fun b => (m.program b).findSome? (fun r =>
    if r.opcode = op then (m.descOf b r.arg n).bind (fun d => if fld d 0 4 = opId then some d else none) else none))

/-- The cores that carry out an operation with a core: those members of the largest group around it whose programs hold a record of that
operation, ascending (R35, R64; log entry 57). -/
def Image.opUnit (m : Image) (core op opId n : Nat) : List Nat :=
  let best := (upTo m.unitCount).foldl (fun best i =>
    let l := m.cores (32768 + i)
    if l.contains core && decide (best.length < l.length) then l else best) [core]
  if best.length < 2 then [core] else (upTo 1024).filter (fun u => u == core || best.contains u && (m.opDesc u op opId n).isSome)

/-- The address that a unit bears in event records: a group's is that of the smallest group around the cores which write (R35). -/
def Image.unitAddress (m : Image) (unit : List Nat) (core : Nat) : Nat :=
  if unit.length < 2 then core else
  let around := ((upTo m.unitCount).map (32768 + ·)).filter (fun u => unit.all (m.cores u).contains)
  (around.foldl (fun best u => match best with
    | some b => if (m.cores u).length < (m.cores b).length then some u else best
    | none => some u) none).getD core

/-- The core in whose memory the scale record of an operation lies: the lowest-addressed member (R126). -/
def State.recordCore (s : State) (p core op opId n : Nat) : Nat := ((s.part p).image.opUnit core op opId n).headD core

/-- The bank in which a scale record's first poison lies (R521). -/
def State.recordBank (s : State) (low addr hist : Nat) : Nat :=
  let run := s.read .core (coreAt low addr) (16 + 4 * hist)
  resBank low ((addr + run.firstBad % run.length) / 131072)

/-- A per-tensor-scaled write: what a core writes, the origin of the record's poison, and the state with the record (R126, R128). The largest
magnitude is that of every member's source, as `others` gives it; each member writes under the record as it stood before the first of them,
and the record is written with the last. DESIGN CHOICE (log entry 57): the sources of all members are read as the first of them issues. -/
def State.tensorWrite (s : State) (p core op opId n fmt hist margin addr : Nat) (vals : List (Num × Nat)) (others : Nat → List Num) :
    ScaledWrite × Nat × State :=
  let unit := (s.part p).image.opUnit core op opId n
  let low := unit.headD core
  let run := s.read .core (coreAt low addr) (16 + 4 * hist)
  let all := vals.map (·.1) ++ ((unit.erase core).flatMap others)
  let g := ((s.part p).writes.find? (fun g => g.opId == opId && g.members == unit && !g.done.contains core)).getD
    { opId := opId, members := unit, record := run.plain, amax := fp32Code (amaxFin all), done := [], saturated := false, poison := run.origin }
  let w := scaledWrite fmt hist margin (ScaleRec.parse hist g.record) [fp32 g.amax] (vals.map (·.1))
  let g' := { g with done := core :: g.done, saturated := g.saturated || w.record.sat,
                     poison := if g.poison ≠ 0 then g.poison else Run.origin (vals.map (fun v => ((0 : Byte), v.2))) }
  let s := s.modPart p (fun x => { x with writes := x.writes.erase g })
  if unit.all g'.done.contains then
    let s := s.write .core (coreAt low addr) (Run.tainted g'.poison { w.record with sat := g'.saturated }.bytes)
    (w, g.poison, if w.warmUp then s.post 0x102 (some p) ((s.part p).image.unitAddress unit core) 0 addr else s)
  else (w, g.poison, s.modPart p (fun x => { x with writes := x.writes ++ [g'] }))

/-- The resources that a drain of a core names. -/
def State.drainNames (s : State) (p core : Nat) (d : DrainDesc) : List Nat := d.resources core (s.recordCore p core 0x11 d.opId 48 == core)

/-- The effect of a drain to core memory: DEST 0 and 1. -/
def State.runDrain (s : State) (c : Ctx) (d : DrainDesc) : State :=
  let core := agNum c.agent
  let gal := d.galley % 2
  let target := if d.dest = 1 then d.unit else core
  let vals := s.drainVals core d
  let own := tget 0 s.data.galleyP (galKey core gal)
  let low := s.recordCore c.p core 0x11 d.opId 48
  let bank := s.recordBank low d.scale d.hist
  let (w, recO, s) := if d.kind = 2 then
      s.tensorWrite c.p core 0x11 d.opId 48 d.fmt d.hist d.margin d.scale (vals.flatten.map (fun v => (v, own)))
        (fun u => (((s.part c.p).image.opDesc u 0x11 d.opId 48).map (fun b => (s.drainVals u (DrainDesc.parse b)).flatten)).getD [])
    else ({ record := ScaleRec.parse 0 [], codes := [], flags := Flags.none, warmUp := false }, 0, s)
  let origin := if own ≠ 0 then own else recO
  let place := if own ≠ 0 then resGalley core gal else bank
  let (s, fl) :=
    if d.kind = 2 then
      (s.putRows target d.addr d.stride 0 0 origin ((groupsOf d.n (d.m * d.n) w.codes).map (fun l => (rowPack d.fmt l, ([] : List Byte)))), w.flags)
    else
      let rows := vals.map (rowEncode d.fmt)
      let fl := rows.foldl (fun a r => a ||| r.2.2) Flags.none
      (s.putRows target d.addr d.stride d.scale (cdiv d.n 32) origin (rows.map (fun r => (r.1, r.2.1))), fl)
  let elem := d.m * cdiv d.n 64
  let s := (s.orMe core fl).consume c.p c.point origin c.agent c.idx (whereRes place)
  s.addFlight c.p { flightOf c d.opId (s.drainNames c.p core d) with ready := s.clkAt c.p c.point + elem * (s.part c.p).period }

/-- The transactions of a drain with DEST 2, in the order in which they are sent (R211). -/
def State.drainWrites (s : State) (c : Ctx) (d : DrainDesc) : List AccWrite :=
  let core := agNum c.agent
  let vals := s.drainVals core d
  let origin := tget 0 s.data.galleyP (galKey core (d.galley % 2))
  (drainRuns d.m d.n).map (fun x =>
    let a := d.addr + x.1 * d.stride + 6 * x.2.1
    { engine := (s.reservoir a).getD 0, addr := a, source := core, opId := d.opId,
      values := (((vals.getD x.1 []).drop x.2.1).take x.2.2).map fp32Code, poison := origin, partition := c.p, action := c.idx })

/-- DRAIN with DEST 2: the accumulate-writes go on their way; the drain completes when its last one is applied (R217). -/
def State.runDrainAcc (s : State) (c : Ctx) (d : DrainDesc) : State :=
  let core := agNum c.agent
  let ws := s.drainWrites c d
  let own := tget 0 s.data.galleyP (galKey core (d.galley % 2))
  let s := { s with accq := s.accq ++ ws }
  let s := s.consume c.p c.point own c.agent c.idx (whereRes (resGalley core (d.galley % 2)))
  s.addFlight c.p { flightOf c d.opId (s.drainNames c.p core d) with pending := ws.length, ready := s.clkAt c.p c.point }

/-- DRAIN (R141): converts a galley region and writes it out. -/
def execDrain (p a : Nat) (s : State) : Out :=
  .next (s.issueMatrix 0x11 p a 48 (fun c b s =>
    let d := DrainDesc.parse b
    s.issueAction c (s.drainValid p d) none (s.drainNames p (agNum a) d) (fun s =>
      if d.dest = 2 then s.runDrainAcc c d else s.runDrain c d)))

end Sys2Proof.Machine
end

