-- ==== Sys2Proof/Machine/VectorArith.lean ====
section
/-! DEFINITION. The vector engine's FP32 operations, functions, reductions and row operations (R170-R184). -/
namespace Sys2Proof.Machine

open Sys2Proof

/-! ## Elementary operations (R171, R172) -/

def vAdd (a b : Num) : Res := addRound fp32F .nearest a b
def vSub (a b : Num) : Res := vAdd a b.neg

/-- Product of two FP32 values, rounded once. -/
def vMul (a b : Num) : Res :=
  match product a b with
  | .nan g => if g then Res.generated else Res.propagated
  | .inf n => Res.ok (.inf n)
  | .fin n m e _ => if m = 0 then Res.ok (.fin n 0 0) else Res.flagged (roundFp fp32F (.fin n m e))

/-- Fused multiply-add with a single rounding. -/
def vFma (a b c : Num) : Res :=
  match product a b with
  | .nan g => if g then Res.generated else Res.propagated
  | .inf n => addRound fp32F .nearest (.inf n) c
  | .fin n m e _ => addRound fp32F .nearest (.fin n m e) c

/-- Whether `a` is at most `b` for values that are no NaN; +0 and -0 order by sign. -/
def numLe (a b : Num) : Bool :=
  match a, b with
  | .inf true, _ => true
  | _, .inf false => true
  | .inf false, _ => false
  | _, .inf true => false
  | .fin n1 m1 e1, .fin n2 m2 e2 =>
    if m1 = 0 && m2 = 0 then n1 || !n2
    else if m1 = 0 then !n2
    else if m2 = 0 then n1
    else if n1 && !n2 then true
    else if !n1 && n2 then false
    else if n1 then magLe m2 e2 m1 e1
    else magLe m1 e1 m2 e2
  | _, _ => false

def vMax (a b : Num) : Res :=
  if a.isNan || b.isNan then Res.propagated else Res.ok (if numLe a b then b else a)

def vMin (a b : Num) : Res :=
  if a.isNan || b.isNan then Res.propagated else Res.ok (if numLe a b then a else b)

/-- Sign operations keep a NaN canonical; such a NaN is propagated. -/
def vSign (f : Num → Num) (a : Num) : Res := if a.isNan then Res.propagated else Res.ok (f a)

/-! ## Tables (R174) -/

/-- Integer square root by bits. -/
def isqrtGo (n : Nat) : Nat → Nat → Nat
  | 0, r => r
  | k + 1, r => isqrtGo n k (if (r + 2 ^ k) * (r + 2 ^ k) ≤ n then r + 2 ^ k else r)

def isqrt (n : Nat) : Nat := isqrtGo n (Nat.log2 n / 2 + 1) 0

/-- The integer nearest to 2^(30 + j/64): half of one plus the whole part of twice the power, a 64th root by six square roots. -/
def texp (j : Nat) : Nat := (isqrt (isqrt (isqrt (isqrt (isqrt (isqrt (2 ^ (1984 + j))))))) + 1) / 2
/-- The integer nearest to 2^38 / (128 + j). -/
def trec (j : Nat) : Nat := (2 ^ 39 + (128 + j)) / (2 * (128 + j))
/-- The integer nearest to 2^31 * sqrt(128 / (128 + j)). -/
def trsq (j : Nat) : Nat := (isqrt (2 ^ 71 / (128 + j)) + 1) / 2
/-- The integers nearest to ln2 * 2^30, (ln2)^2/2 * 2^30 and (ln2)^3/6 * 2^30. -/
def c1 : Nat := 744261118
def c2 : Nat := 257941248
def c3 : Nat := 59597083
/-- FP32 values nearest to log2 e, sqrt(2/pi) and 0.044715 (R179). -/
def kL : Num := fp32 0x3FB8AA3B
def kK1 : Num := fp32 0x3F4C422A
def kK2 : Num := fp32 0x3D372713

/-- round24 of an integer (R175), as a finite value. -/
def round24 (m : Nat) : Num :=
  let k := Nat.log2 m + 1
  .fin false (rne m 0 ((k : Int) - 24)).1 ((k : Int) - 24)

/-! ## exp2, recip, rsqrt (R176-R178) -/

def vExp2 (x : Num) : Res :=
  match x with
  | .nan => Res.propagated
  | .inf true => Res.ok Num.zero
  | .inf false => Res.ok (.inf false)
  | .fin neg m e =>
    if m = 0 then Res.ok Num.one
    else if !neg && magLe 128 0 m e then ⟨.inf false, Flags.ovfInex, 0, 0⟩
    else if neg && !magLe m e 126 0 then ⟨Num.zero, Flags.unfInex, 0, 0⟩
    else
      let sh := e + 23
      let (mag, dropped) : Nat × Bool :=
        if 0 ≤ sh then (m <<< sh.toNat, false) else (m >>> (-sh).toNat, m % 2 ^ (-sh).toNat != 0)
      let f : Int := if neg then -(mag : Int) - (if dropped then 1 else 0) else mag
      let n : Int := f / 8388608
      let fr : Nat := (f % 8388608).toNat
      let i := fr / 131072
      let g := fr % 131072
      let q := c2 + ((c3 * g) >>> 23)
      let q := c1 + ((q * g) >>> 23)
      let q := 2 ^ 30 + ((q * g) >>> 23)
      let mm := (texp i * q) >>> 30
      let r := roundFp fp32F ((round24 mm).scale (n - 30))
      Res.flagged (r.1, r.2 ||| Flags.inexIf (fr ≠ 0 || dropped))

/-- The 24-bit significand and the exponent of a finite non-zero FP32 value. -/
def sig24 (m : Nat) (e : Int) : Nat × Int :=
  let l := Nat.log2 m
  ((m <<< 23) >>> l, (l : Int) + e)

def vRecip (x : Num) : Res :=
  match x with
  | .nan => Res.propagated
  | .inf n => Res.ok (.fin n 0 0)
  | .fin n m e =>
    if m = 0 then ⟨.inf n, Flags.ovf, 0, 0⟩ else
    let (y, ex) := sig24 m e
    let j := y / 65536 - 128
    let h := y % 65536
    let u := (h * trec j) >>> 24
    let t := 2 ^ 30 - u
    let t := 2 ^ 30 - ((u * t) >>> 30)
    let t := 2 ^ 30 - ((u * t) >>> 30)
    let mm := (trec j * t) >>> 31
    let v := (round24 mm).scale (-ex - 30)
    let r := roundFp fp32F (if n then v.neg else v)
    Res.flagged (r.1, r.2 ||| Flags.inexIf (y ≠ 2 ^ 23))

def vRsqrt (x : Num) : Res :=
  match x with
  | .nan => Res.propagated
  | .inf false => Res.ok Num.zero
  | .inf true => Res.generated
  | .fin n m e =>
    if m = 0 then ⟨.inf n, Flags.ovf, 0, 0⟩
    else if n then Res.generated
    else
      let (y0, e0) := sig24 m e
      let odd := e0 % 2 ≠ 0
      let y := if odd then 2 * y0 else y0
      let ex := if odd then e0 - 1 else e0
      let j := y / 65536 - 128
      let h := y % 65536
      let v := (h * trec j) >>> 24
      let t := 3 * 2 ^ 27 - ((v * 5 * 2 ^ 26) >>> 30)
      let t := 2 ^ 29 - ((v * t) >>> 30)
      let t := 2 ^ 30 - ((v * t) >>> 30)
      let mm := (trsq j * t) >>> 31
      let r := roundFp fp32F ((round24 mm).scale (-(ex / 2) - 30))
      Res.flagged (r.1, r.2 ||| Flags.inexIf (y ≠ 2 ^ 23))

/-! ## Composite functions (R179) -/

def vDiv (a b : Num) : Res := (vRecip b).bind (vMul a)
def vExp (x : Num) : Res := (vMul x kL).bind vExp2
def vSigmoid (x : Num) : Res :=
  (((vMul x kL).bind (fun t => vSign Num.neg t)).bind vExp2).bind (fun t => (vAdd Num.one t).bind vRecip)
def vSilu (x : Num) : Res := (vSigmoid x).bind (vMul x)
def two : Num := .fin false 2 0
def half : Num := .fin false 1 (-1)
def vTanh (x : Num) : Res := ((vMul two x).bind vSigmoid).bind (fun s => vFma two s (Num.one.neg))
def vGelu (x : Num) : Res :=
  let u := (vMul x x).bind (fun s => vFma s kK2 Num.one)
  let h := (u.bind (fun t => (vMul t x).bind (fun w => vMul w kK1))).bind vTanh
  h.bind (fun t => (vFma half t half).bind (fun w => vMul w x))

/-- FUNC1 by FUNC code (Table 06-1); none for a code the table does not give. -/
def vFunc1 (func : Nat) (x : Num) : Option Res :=
  match func with
  | 0 => some (vSign Num.neg x)
  | 1 => some (vSign Num.abs x)
  | 2 => some (vExp2 x)
  | 3 => some (vExp x)
  | 4 => some (vRecip x)
  | 5 => some (vRsqrt x)
  | 6 => some (vSigmoid x)
  | 7 => some (vTanh x)
  | 8 => some (vSilu x)
  | 9 => some (vGelu x)
  | 10 => some (vMax x Num.zero)
  | 11 => some (vMul x x)
  | _ => none

/-- ELEM by FUNC code without its CONST bit. -/
def vElem (func : Nat) (x y : Num) : Option Res :=
  match func with
  | 0 => some (vAdd x y)
  | 1 => some (vSub x y)
  | 2 => some (vMul x y)
  | 3 => some (vMin x y)
  | 4 => some (vMax x y)
  | 5 => some (vDiv x y)
  | _ => none

/-! ## Trees and rows (R180-R184) -/

/-- The kind of the first NaN that a list of results produced. -/
def firstNan (l : List Res) : Nat := ((l.find? (fun r => r.nan != 0)).map (·.nan)).getD 0

/-- A NaN that no step has produced yet counts as propagated by the step that passes it on (R115). -/
def Res.settle (r : Res) : Res := if r.v.isNan && r.nan = 0 then { r with nan := 1 } else r

/-- One level of the balanced pairwise tree; an odd last value goes up unchanged. -/
def treeLevel (op : Num → Num → Res) : List Num → List Res
  | a :: b :: t => op a b :: treeLevel op t
  | [a] => [Res.ok a]
  | [] => []

/-- The levels of the tree: the flags of all additions, and the NaN of the earliest level. DESIGN CHOICE (log entry 52): where one level holds a generated and
a propagated NaN, GENERATED is that of its leftmost addition (R185). -/
def treeGo (op : Num → Num → Res) (empty : Num) : Nat → List Num → Res
  | 0, l => Res.ok (l.headD empty)
  | n + 1, l =>
    if l.length ≤ 1 then Res.ok (l.headD empty) else
    let rs := treeLevel op l
    let t := treeGo op empty n (rs.map (·.v))
    { v := t.v, fl := rs.foldl (fun a r => a ||| r.fl) t.fl, nan := if firstNan rs ≠ 0 then firstNan rs else t.nan, st := 0 }

/-- A tree over results: their flags count, and a NaN that one of them has produced comes first. -/
def tree (op : Num → Num → Res) (empty : Num) (l : List Res) : Res :=
  let t := treeGo op empty l.length (l.map (·.v))
  Res.settle { v := t.v, fl := l.foldl (fun a r => a ||| r.fl) t.fl, nan := if firstNan l ≠ 0 then firstNan l else t.nan, st := 0 }

/-- psum (R180): the balanced pairwise tree with add; no leaf gives +0. -/
def psum (l : List Res) : Res := tree vAdd Num.zero l
/-- pmax (R180): no leaf gives -infinity. -/
def pmax (l : List Res) : Res := tree vMax (.inf true) l

/-- A number of elements, exactly in FP32. -/
def ofCount (n : Nat) : Num := .fin false n 0

/-- The results of one row: elements of OUT, per-row statistics S0, S1, S2 (`none` where the operation writes none), and the
flags of the row's inner values that no element or statistic carries. -/
structure RowOut where
  ys : List Res
  stats : Option (Res × Res × Res)
  inner : Flags
  deriving DecidableEq, Repr

/-- The OR of the flags of a list of results. -/
def flagsOf (l : List Res) : Flags := l.foldl (fun a r => a ||| r.fl) Flags.none

/-- Elementwise map of a step over a list, each new NaN marked with the step. -/
def mapStep (k : Nat) (f : Num → Res) (l : List Res) : List Res := l.map (fun r => r.bind (fun x => (f x).mark k))
def zipStep (k : Nat) (f : Num → Num → Res) (l l' : List Res) : List Res :=
  l.zipWith (fun a b => Res.bind2 a b (fun x y => (f x y).mark k)) l'

/-- A reduction seen as a fresh row value: its own flags only, its NaN marked with the step. -/
def reduceStep (k : Nat) (red : List Res → Res) (l : List Res) : Res := (red (l.map (fun r => Res.ok r.v))).mark k

/-- A step over a row value and each element: the row value's flags are counted where it was formed. -/
def rowBind (k : Nat) (l : List Res) (s : Res) (f : Num → Num → Res) : List Res :=
  l.map (fun r => r.bind (fun x => (f x s.v).mark k))

/-- The same with a row value that is no result of its own: a NaN that it brings is the element's, from the step that formed it (R185). -/
def rowCarry (k : Nat) (l : List Res) (s : Res) (f : Num → Num → Res) : List Res :=
  l.map (fun r => (r.both { s with fl := Flags.none }).after ((f r.v s.v).mark k))

/-- A step from a row value to a row value: its own flags, and the step that first produced a NaN (R185). -/
def rowStep (k : Nat) (s : Res) (f : Num → Res) : Res :=
  let r := (f s.v).mark k
  { r with nan := if s.nan ≠ 0 then s.nan else r.nan, st := if s.nan ≠ 0 then s.st else r.st }

/-- SOFTMAX of the unmasked elements (R182). -/
def rowSoftmax (s : Num) (xs : List Res) : RowOut :=
  let z := mapStep 1 (fun x => vMul x s) xs
  let m := reduceStep 2 pmax z
  let p := mapStep 4 vExp2 (rowBind 3 z m (fun a b => vSub a b))
  let l := reduceStep 5 psum p
  let q := rowStep 6 l vRecip
  { ys := rowBind 7 p q vMul, stats := some (m, l, q), inner := Flags.none }

/-- SOFTMAX_REC from the saved M and Q (R183). -/
def rowSoftmaxRec (s m q : Num) (xs : List Res) : RowOut :=
  let z := mapStep 1 (fun x => vMul x s) xs
  let p := mapStep 3 vExp2 (mapStep 2 (fun x => vSub x m) z)
  { ys := mapStep 4 (fun x => vMul x q) p, stats := none, inner := Flags.none }

/-- Results whose elements have passed through inner values: a NaN that an element's own inner value has produced earlier is the one recorded
(R185). -/
def carryNans (inner ys : List Res) : List Res :=
  ys.zipWith (fun y i => if i.nan ≠ 0 && (y.nan = 0 || decide (i.st < y.st)) then { y with nan := i.nan, st := i.st } else y) inner

/-- SOFTMAX_BWD (R183). -/
def rowSoftmaxBwd (p dy : List Res) : RowOut :=
  let pd := zipStep 1 vMul p dy
  let d := reduceStep 2 psum pd
  let t := rowCarry 3 dy d (fun a b => vSub a b)
  { ys := carryNans pd (zipStep 4 vMul p t), stats := none, inner := flagsOf pd ||| d.fl }

/-- k = recip(n) (R184). -/
def recipCount (n : Nat) : Res := vRecip (ofCount n)

/-- RMSNORM (Table 06-5). -/
def rowRmsnorm (eps : Num) (xs g : List Res) : RowOut :=
  let k := recipCount xs.length
  let sq := mapStep 1 (fun x => vMul x x) xs
  let s := reduceStep 2 psum sq
  let t := rowStep 3 s (fun a => vFma a k.v eps)
  let r := rowStep 4 t vRsqrt
  { ys := carryNans sq (zipStep 6 vMul (rowBind 5 xs r vMul) g), stats := some (Res.ok Num.zero, r, Res.ok Num.zero),
    inner := flagsOf sq ||| k.fl ||| s.fl ||| t.fl }

/-- LAYERNORM (Table 06-5). -/
def rowLayernorm (eps : Num) (xs g b : List Res) : RowOut :=
  let k := recipCount xs.length
  let s := reduceStep 1 psum xs
  let mu := rowStep 2 s (fun a => vMul a k.v)
  let d := rowBind 3 xs mu (fun a c => vSub a c)
  let sq := mapStep 4 (fun x => vMul x x) d
  let ss := reduceStep 5 psum sq
  let t := rowStep 6 ss (fun a => vFma a k.v eps)
  let r := rowStep 7 t vRsqrt
  let h := rowBind 8 d r vMul
  let y := (h.zip (g.zip b)).map (fun p => ((p.1.after p.2.1).after p.2.2).after ((vFma p.1.v p.2.1.v p.2.2.v).mark 9))
  { ys := carryNans sq y, stats := some (mu, r, Res.ok Num.zero), inner := flagsOf sq ||| k.fl ||| s.fl ||| ss.fl ||| t.fl }

/-- RMSNORM_BWD (Table 06-5): dx only. -/
def rowRmsnormBwd (r : Num) (xs dy g : List Res) : RowOut :=
  let k := recipCount xs.length
  let xh := mapStep 1 (fun x => vMul x r) xs
  let gh := zipStep 2 vMul dy g
  let gx := zipStep 3 vMul gh xh
  let s := reduceStep 4 psum gx
  let a := rowStep 5 s (fun t => vMul t k.v)
  let u := rowCarry 6 xh a vMul
  { ys := carryNans gx (mapStep 8 (fun t => vMul r t) (zipStep 7 vSub gh u)), stats := none,
    inner := flagsOf gx ||| k.fl ||| s.fl ||| a.fl }

/-- LAYERNORM_BWD (Table 06-5): dx only. -/
def rowLayernormBwd (mu r : Num) (xs dy g : List Res) : RowOut :=
  let k := recipCount xs.length
  let xh := mapStep 2 (fun t => vMul t r) (mapStep 1 (fun x => vSub x mu) xs)
  let gh := zipStep 3 vMul dy g
  let gx := zipStep 4 vMul gh xh
  let s := reduceStep 5 psum gx
  let a := rowStep 6 s (fun t => vMul t k.v)
  let sb := reduceStep 7 psum gh
  let b := rowStep 8 sb (fun t => vMul t k.v)
  let u := rowCarry 10 xh a vMul
  { ys := carryNans gx (mapStep 12 (fun t => vMul r t) (zipStep 11 vSub (rowCarry 9 gh b (fun x y => vSub x y)) u)), stats := none,
    inner := flagsOf gx ||| k.fl ||| s.fl ||| a.fl ||| sb.fl ||| b.fl }

/-- ROWRED by FUNC code (Table 06-1) over unmasked elements. -/
def rowReduce (func : Nat) (xs : List Res) : Option Res :=
  match func with
  | 0 => some (psum xs)
  | 1 => some (pmax xs)
  | 2 => some (psum (xs.map (fun r => r.bind (fun x => vMul x x))))
  | 3 => some (pmax (xs.map (fun r => r.bind (fun x => vSign Num.abs x))))
  | _ => none

end Sys2Proof.Machine
end

