-- ==== Sys2Proof/Machine/Attention.lean ====
section
/-! DEFINITION. Decode attention on near-memory engines (chapter 09): partials and their merge, ATTEND and MERGE (R256 to R276). -/
namespace Sys2Proof.Machine

open Sys2Proof

/-! ## Partials (R256 to R259) -/

/-- A partial result with the flags raised in forming it and the origin of its poison. -/
structure Partial where
  m : Num
  l : Num
  o : List Num
  fl : Flags
  poison : Nat
  deriving DecidableEq, Repr

def Partial.empty (d : Nat) : Partial := { m := .inf true, l := Num.zero, o := List.replicate d Num.zero, fl := Flags.none, poison := 0 }

/-- A partial is empty when M is −infinity and L is +0 (R256). -/
def Partial.isEmpty (x : Partial) : Bool :=
  match x.m, x.l with
  | .inf true, .fin false 0 _ => true
  | _, _ => false

/-- The merge of two partials (R257). -/
def mergeTwo (a b : Partial) : Partial :=
  let fl := a.fl ||| b.fl
  let po := if a.poison ≠ 0 then a.poison else b.poison
  if a.isEmpty then { b with fl := fl, poison := po }
  else if b.isEmpty then { a with fl := fl, poison := po }
  else
    let m := (vMax a.m b.m).v
    let sa := (vSub a.m m).bind vExp2
    let sb := (vSub b.m m).bind vExp2
    let l := (vMul b.l sb.v).bind (vFma a.l sa.v)
    let o := a.o.zipWith (fun x y => (vMul y sb.v).bind (vFma x sa.v)) b.o
    { m := m, l := l.v, o := o.map (·.v), fl := fl ||| sa.fl ||| sb.fl ||| l.fl ||| flagsOf o, poison := po }

/-- One level of the pairwise tree of R259; a leaf left over passes up unchanged. -/
def mergeLevel : List Partial → List Partial
  | a :: b :: t => mergeTwo a b :: mergeLevel t
  | l => l

def mergeGo (d : Nat) : Nat → List Partial → Partial
  | 0, l => l.headD (Partial.empty d)
  | n + 1, l => if l.length ≤ 1 then l.headD (Partial.empty d) else mergeGo d n (mergeLevel l)

/-- A list of partials combined in leaf order (R259). -/
def mergeTree (d : Nat) (l : List Partial) : Partial := mergeGo d l.length l

/-- The finalized values of a partial (R258). -/
def finalize (d : Nat) (x : Partial) : List Num × Flags :=
  if x.isEmpty then (List.replicate d Num.zero, Flags.none)
  else
    let q := vRecip x.l
    let y := x.o.map (fun v => vMul v q.v)
    (y.map (·.v), q.fl ||| flagsOf y)

/-- Bytes of a partial record: M, L, 8 reserved bytes, O. -/
def recBytes (d : Nat) : Nat := 16 + 4 * d
def Partial.bytes (x : Partial) : List Byte :=
  leBytes 4 (fp32Code x.m) ++ leBytes 4 (fp32Code x.l) ++ leBytes 8 0 ++ x.o.flatMap (fun v => leBytes 4 (fp32Code v))
def Partial.parse (d : Nat) (r : Run) : Partial :=
  let b := Run.plain r
  { m := fp32 (fld b 0 4), l := fp32 (fld b 4 4), o := (upTo d).map (fun c => fp32 (fld b (16 + 4 * c) 4)), fl := Flags.none,
    poison := Run.origin r }

/-! ## Page partials (R264 to R267) -/

/-- The vectors of one head of a token (R277): K and V values with the poison of each vector. -/
structure TokenHead where
  k : List Num
  v : List Num
  kPoison : Nat
  vPoison : Nat
  deriving DecidableEq, Repr

/-- Elements of a vector with MX scales or a per-tensor scale code. -/
def headVec (fmt d scale : Nat) (run scales : Run) : List Num := rowValues fmt d (Run.plain run) (Run.plain scales) scale

def CacheSet.tokenHead (c : CacheSet) (run : Run) (t kv : Nat) : TokenHead :=
  let r := (run.drop (t * c.tokenBytes + kv * c.headBytes)).take c.headBytes
  let kn := c.d * fmtBits c.kFmt / 8
  let vn := c.d * fmtBits c.vFmt / 8
  let ks := if isMx c.kFmt then (r.drop (kn + vn)).take (c.d / 32) else []
  let vs := if isMx c.vFmt then (r.drop (kn + vn + (if isMx c.kFmt then c.d / 32 else 0))).take (c.d / 32) else []
  let kr := r.take kn
  let vr := (r.drop kn).take vn
  { k := headVec c.kFmt c.d c.kScale kr ks, v := headVec c.vFmt c.d c.vScale vr vs, kPoison := Run.origin (kr ++ ks),
    vPoison := Run.origin (vr ++ vs) }

/-- A sum of chunk sums added in order from +0 to nearest even (R266). -/
def chunkDot (as bs : List Num) : Res :=
  let pairs := (groupsOf 32 as.length as).zip (groupsOf 32 bs.length bs)
  pairs.foldl (fun g p => g.bind (fun x => (chunkOf false false p.1 p.2).bind (fun c => addRound fp32F .nearest x c))) (Res.ok Num.zero)

/-- The page partial of one query head over the unmasked tokens of a page (R266). `masked` is the page's number of tokens T. -/
def pagePartial (d tcount : Nat) (q : List Num) (scale : Num) (toks : List TokenHead) (qPoison : Nat) : Partial :=
  if toks.isEmpty then Partial.empty d else
  let z := toks.map (fun t => (chunkDot q t.k).bind (fun s => vMul s scale))
  let m := pmax (z.map (fun r => Res.ok r.v))
  let p := z.map (fun r => ((vSub r.v m.v).bind vExp2).bind (fun e => Res.flagged (roundFp bf16F e)))
  let l := psum (p.map (fun r => Res.ok r.v))
  let ps := p.map (·.v) ++ List.replicate (tcount - p.length) Num.zero
  let col (c : Nat) : Res := chunkDot ps (toks.map (fun t => t.v.getD c Num.zero) ++ List.replicate (tcount - toks.length) Num.zero)
  let o := (upTo d).map col
  { m := m.v, l := l.v, o := o.map (·.v), fl := flagsOf z ||| flagsOf p ||| l.fl ||| flagsOf o,
    poison := if qPoison ≠ 0 then qPoison else
      ((toks.find? (fun t => t.kPoison != 0 || t.vPoison != 0)).map (fun t => if t.kPoison ≠ 0 then t.kPoison else t.vPoison)).getD 0 }

/-! ## ATTEND (R272, R274, R275) -/

/-- Query formats of Table 09-3. -/
def queryFmt (c : Nat) : Bool := 1 ≤ c && c ≤ 4

/-- Query heads of a row. -/
def heads (c : CacheSet) (g : Nat) : Nat := c.h * g

def AttDesc.fmt (d : AttDesc) : Nat := d.qFmt % 16
/-- Bytes of one row of the query block. -/
def AttDesc.qBytes (d : AttDesc) (c : CacheSet) : Nat := heads c d.g * c.d * fmtBits d.fmt / 8

def State.attValid (s : State) (p agent : Nat) (d : AttDesc) : Bool :=
  agKind agent = 2 && !d.rsv && (s.part p).cset = some d.cset &&
    (let c := s.cacheSetAt p d.cset
     match s.cacheIndex c (agNum agent) with
     | none => false
     | some idx =>
       let n := (rowsOf d.row0 d.rows c.cg (idx / c.ng)).length
       d.qFmt < 16 && queryFmt d.fmt && 1 ≤ d.g && d.g ≤ 32 && d.bucket < s.bucketCount c && d.layer < c.layers &&
         1 ≤ d.rows && d.rows ≤ 4096 && d.row0 + d.rows ≤ (s.bucket c d.bucket).rows && d.qSram % 16 = 0 &&
         d.qSram + n * d.qBytes c ≤ 262144 && d.part < 2 ^ 57 && d.part % 64 = 0 &&
         s.inChannel true (agNum agent) d.part (n * heads c d.g * recBytes c.d))

/-- What ATTEND gathers over its rows. -/
structure AttAcc where
  st : State
  fl : Flags
  stopped : Bool
  bad : Option (Nat × Nat)       -- origin and where of the first poison
  deriving DecidableEq, Repr

/-- The engine partial of one query head from the pages read: page by page, then the tree (R270, step 1). -/
def headPartial (c : CacheSet) (scale : Num) (g h : Nat) (q : List Num) (qp : Nat) (pages : List (Nat × Run)) : Partial :=
  mergeTree c.d (pages.map (fun pg =>
    pagePartial c.d c.t q scale ((upTo pg.1).map (fun t => c.tokenHead pg.2 t (h / g))) qp))

/-- One row of an ATTEND: its pages are read, and its partials written. -/
def attendRow (d : AttDesc) (c : CacheSet) (idx : Nat) (w : Who) (acc : AttAcc) (kr : Nat × Nat) : AttAcc :=
  let s := acc.st
  let e := s.cacheEng c idx
  let slot := s.rowSlot (s.bucket c d.bucket) kr.2
  if acc.stopped || slot = 0xFFFF then acc else
  let q := s.seqEntry c slot
  let js := c.heldPages idx d.layer q
  if js.isEmpty then acc else
  let words := js.map (fun j => s.fwRead (c.cptEntry e slot d.layer (c.localIndex j)) 8)
  if words.any (fun x => !pteValid x || pteParked x) then
    { acc with st := s.breach w.p w.cyc (BreachInfo.collision w.agent w.action (resEngine e.engine) none), stopped := true }
  else
    let (s, pages) := (js.zip words).foldl (fun (sp : State × List (Nat × Run × Nat)) jw =>
      let cnt := min c.t (q.length + q.pending - jw.1 * c.t)
      let (r, _, s) := sp.1.agentRead w (pteAddr jw.2) (cnt * c.tokenBytes)
      (s, sp.2 ++ [(cnt, r, pteAddr jw.2)])) (s, [])
    let qrun := s.read .sram (sramAt e.engine (d.qSram + kr.1 * d.qBytes c)) (d.qBytes c)
    let qv := rowValues d.fmt (heads c d.g * c.d) (Run.plain qrun) [] 0x7F
    let w8 := c.d * fmtBits d.fmt / 8
    let ps := (upTo (heads c d.g)).map (fun h =>
      headPartial c (fp32 d.scale) d.g h ((qv.drop (h * c.d)).take c.d) (Run.origin ((qrun.drop (h * w8)).take w8)) (pages.map (fun x => (x.1, x.2.1))))
    let (_, _, s) := s.agentWrite w (d.part + kr.1 * heads c d.g * recBytes c.d) (ps.flatMap (fun x => Run.tainted x.poison x.bytes))
    let bad := match acc.bad with
      | some b => some b
      | none => if Run.origin qrun ≠ 0 then some (Run.origin qrun, 2 ^ 63 + resEngine e.engine)
          else (pages.find? (fun x => ps.any (fun y => y.poison != 0) && Run.origin x.2.1 != 0)).map (fun x => (Run.origin x.2.1, whereDev (x.2.2 + x.2.1.firstBad)))
    { st := s, fl := acc.fl ||| ps.foldl (fun a x => a ||| x.fl) Flags.none, stopped := false, bad := bad }

/-- The bound of ATTEND in clock units (R276), with the rows and pages at hand. -/
def State.attendUnits (s : State) (d : AttDesc) (c : CacheSet) (idx : Nat) : Nat :=
  let hq := heads c d.g
  let cyc := 2 * cdiv (c.t * c.h * c.d * d.g) 1024 + cdiv (c.t * c.h * d.g) 32 + 64
  let tp := max (1024 * unitsPerNs) (cyc * s.enginePeriod (s.cacheEng c idx).engine)
  let pmx := cdiv (s.bucket c d.bucket).capLen c.t
  let pos := (idx % c.ng + c.ng - d.layer % c.ng) % c.ng
  let k := if pos < pmx then cdiv (pmx - pos) c.ng else 0
  (rowsOf d.row0 d.rows c.cg (idx / c.ng)).length * (k * tp + cdiv (hq * recBytes c.d * unitsPerNs) 256)

/-- The effect of an ATTEND. One that meets a page it cannot use does not continue and leaves its engine without a token. -/
def State.runAttend (s : State) (c : Ctx) (d : AttDesc) : State :=
  let cs := s.cacheSetAt c.p d.cset
  let e := agNum c.agent
  match s.cacheIndex cs e with
  | none => s
  | some idx =>
    let rows := rowsOf d.row0 d.rows cs.cg (idx / cs.ng)
    let work := s.attendUnits d cs idx
    let (k, s) := s.draw
    let w : Who := { p := c.p, cyc := c.point + k % (cdiv (work + 200 * unitsPerNs) (s.part c.p).period + 1), agent := c.agent, action := c.idx }
    let acc := (rows.zipIdx.map (fun x => (x.2, x.1))).foldl (attendRow d cs idx w) { st := s, fl := Flags.none, stopped := false, bad := none }
    let s := acc.st.orEng e acc.fl
    let s := match acc.bad with
      | some (o, at') => s.consume c.p w.cyc o c.agent c.idx at'
      | none => s
    if acc.stopped then s
    else s.addFlight c.p { flightOf c d.opId [resEngine e] with ready := s.clkAt c.p c.point }

/-- ATTEND: engine partials for the rows of a bucket range that fall to the engine. -/
def execAttend (p a : Nat) (s : State) : Out :=
  .next (s.issueMatrix 0x70 p a 64 (fun c b s =>
    let d := AttDesc.parse b
    s.issueAction c (s.attValid p a d) none [resEngine (engOfAgent a)] (fun s => s.runAttend c d)))

/-! ## MERGE (R273) -/

/-- A MERGE descriptor (Table 09-6). -/
structure MergeDesc where
  opId : Nat
  outFmt : Nat
  g : Nat
  bucket : Nat
  leaves : Nat
  row0 : Nat
  rows : Nat
  cset : Nat
  part : Nat
  out : Nat
  rsv : Bool
  deriving DecidableEq, Repr

def MergeDesc.parse (b : List Byte) : MergeDesc :=
  { opId := fld b 0 4, outFmt := byteAt b 4, g := byteAt b 5, bucket := byteAt b 6, leaves := fld b 8 2, row0 := fld b 0xA 2,
    rows := fld b 0xC 2, cset := fld b 0x10 8, part := fld b 0x18 8, out := fld b 0x20 8,
    rsv := byteAt b 7 != 0 || fld b 0xE 2 != 0 || !zeroAt b 0x28 24 }

def MergeDesc.final (d : MergeDesc) : Bool := bit d.outFmt 4
def MergeDesc.fmt (d : MergeDesc) : Nat := d.outFmt % 16
/-- Leaves per row in the gathered partials. -/
def MergeDesc.nl (d : MergeDesc) (c : CacheSet) : Nat := if d.leaves = 0 then c.ng else d.leaves
/-- Bytes of one head's output. -/
def MergeDesc.outBytes (d : MergeDesc) (c : CacheSet) : Nat := if d.final then c.d * fmtBits d.fmt / 8 else recBytes c.d

def State.mergeValid (s : State) (p agent : Nat) (d : MergeDesc) : Bool :=
  agKind agent = 2 && !d.rsv && (s.part p).cset = some d.cset &&
    (let c := s.cacheSetAt p d.cset
     let hq := heads c d.g
     (s.cacheIndex c (agNum agent)).isSome && d.outFmt < 32 && d.fmt ≤ 1 && 1 ≤ d.g && d.g ≤ 32 && d.bucket < s.bucketCount c &&
       d.leaves ≤ 256 && 1 ≤ d.rows && d.rows ≤ 4096 && d.row0 + d.rows ≤ (s.bucket c d.bucket).rows &&
       d.part < 2 ^ 57 && d.part % 64 = 0 && d.out < 2 ^ 57 && d.out % 64 = 0 &&
       s.inChannel true (agNum agent) d.part (d.rows * d.nl c * hq * recBytes c.d) &&
       s.inChannel true (agNum agent) d.out (d.rows * hq * d.outBytes c))

/-- The output of one row and head; a poisoned leaf is named by its first poisoned byte (R521). -/
def mergeHead (d : MergeDesc) (c : CacheSet) (w : Who) (slot n : Nat) (acc : AttAcc) (k h : Nat) : AttAcc :=
  let s := acc.st
  let hq := heads c d.g
  let at' (p : Nat) : Nat := d.part + ((k * d.nl c + p) * hq + h) * recBytes c.d
  let (s, leaves) := if slot = 0xFFFF then (s, []) else (upTo n).foldl (fun (sl : State × List (Partial × Nat)) p =>
    let (r, _, s) := sl.1.agentRead w (at' p) (recBytes c.d)
    (s, sl.2 ++ [(Partial.parse c.d r, at' p + r.firstBad)])) (s, [])
  let x := mergeTree c.d (leaves.map (·.1))
  let (bytes, fl) := if d.final then
      let (y, f) := finalize c.d x
      let (b, _, f') := rowEncode d.fmt y
      (b, f ||| f')
    else (x.bytes, Flags.none)
  let (_, _, s) := s.agentWrite w (d.out + (k * hq + h) * d.outBytes c) (Run.tainted x.poison bytes)
  let bad := match acc.bad with
    | some b => some b
    | none => (leaves.find? (fun y => y.1.poison != 0)).map (fun y => (y.1.poison, whereDev y.2))
  { acc with st := s, fl := acc.fl ||| x.fl ||| fl, bad := bad }

/-- One row of a MERGE: n leaves, with n = min(NG, P) for the cache positions of the row. -/
def mergeRow (d : MergeDesc) (c : CacheSet) (w : Who) (acc : AttAcc) (k : Nat) : AttAcc :=
  let slot := acc.st.rowSlot (acc.st.bucket c d.bucket) (d.row0 + k)
  let n := if d.leaves ≠ 0 then d.leaves else if slot = 0xFFFF then 0 else min c.ng (c.pages (acc.st.seqEntry c slot))
  (upTo (heads c d.g)).foldl (fun acc h => mergeHead d c w slot n acc k h) acc

/-- The effect of a MERGE. -/
def State.runMerge (s : State) (c : Ctx) (d : MergeDesc) : State :=
  let cs := s.cacheSetAt c.p d.cset
  let e := agNum c.agent
  let hq := heads cs d.g
  let n := d.nl cs
  let per := max (cdiv (n * recBytes cs.d * unitsPerNs) 256) (n * (cdiv cs.d 32 + 8) * s.enginePeriod e)
  let (k, s) := s.draw
  let w : Who :=
    { p := c.p, cyc := c.point + k % (cdiv (d.rows * hq * per + 200 * unitsPerNs) (s.part c.p).period + 1), agent := c.agent, action := c.idx }
  let acc := (upTo d.rows).foldl (mergeRow d cs w) { st := s, fl := Flags.none, stopped := false, bad := none }
  let s := acc.st.orEng e acc.fl
  let s := match acc.bad with
    | some (o, at') => s.consume c.p w.cyc o c.agent c.idx at'
    | none => s
  s.addFlight c.p { flightOf c d.opId [resEngine e] with ready := s.clkAt c.p c.point }

/-- MERGE: gathered partials combined under R259, finalized or written. -/
def execMerge (p a : Nat) (s : State) : Out :=
  .next (s.issueMatrix 0x71 p a 64 (fun c b s =>
    let d := MergeDesc.parse b
    s.issueAction c (s.mergeValid p a d) none [resEngine (engOfAgent a)] (fun s => s.runMerge c d)))

end Sys2Proof.Machine
end

