-- ==== Sys2Proof/Machine/EnableCheck.lean ====
section
/-! DEFINITION. The checks of LOAD and of the enable check over a forme image (R62 to R66, R95, R100, R558, R559). Each check answers
whether its code applies; the first code in table order that applies is the one posted. -/
namespace Sys2Proof.Machine

open Sys2Proof

/-- The first code of a list of (code, applies), 0 if none does (R95, R423). -/
def firstCode : List (Nat × Bool) → Nat
  | [] => 0
  | (c, b) :: rest => if b then c else firstCode rest

/-! ## Header (Table 03-2, R62) -/

def maxImage : Nat := 1048576

def Image.badHeader (m : Image) : Bool :=
  fld m 0 4 != 0x4D465658 || fld m 4 2 != 1 || fld m 6 2 != 128 || decide (m.rateCode > 3) || byteAt m 0x11 != 0 ||
    decide (8 ≤ m.linkMask) || !zeroAt m 0x28 24

/-- The entry size of a section of fixed entries; sections 0 and 2 have none. -/
def secEntry (i : Nat) : Nat := match i with
  | 1 => 16 | 3 => 32 | 4 => 16 | 5 => 16 | 6 => 8 | 7 => 8 | _ => 1

/-- Two ranges, neither empty, share a byte. -/
def rangesMeet (a n b k : Nat) : Bool := n != 0 && k != 0 && decide (a < b + k) && decide (b < a + n)

def Image.badSections (m : Image) (size : Nat) : Bool :=
  decide (maxImage < m.size) || m.size != size ||
    (upTo 8).any (fun i => m.secOff i % 16 != 0 || decide (m.secOff i < 128) || decide (size < m.secOff i + m.secLen i) ||
      m.secLen i % secEntry i != 0 ||
      (upTo i).any (fun k => rangesMeet (m.secOff i) (m.secLen i) (m.secOff k) (m.secLen k))) ||
    m.rvCount * 16 != m.secLen 5

/-- The CRC-64 of the image with its CHECK field zero. -/
def Image.badCheck (m : Image) : Bool := crc64 (m.take 0x20 ++ List.replicate 8 0 ++ m.drop 0x28) != fld m 0x20 8

/-- The faults of LOAD (log entry 16), given the number of bytes loaded, the identifiers resident in the partition and the store's use. -/
def loadCode (m : Image) (size : Nat) (ids : List Nat) (storeUsed : Nat) : Nat :=
  firstCode [(0x0201, m.badHeader), (0x0202, m.badSections size), (0x0203, m.badCheck),
    (0x0204, m.formeId == 0 || ids.contains m.formeId), (0x0205, decide (16 ≤ ids.length) || decide (6291456 < storeUsed + size))]

/-! ## Unit addresses and the unit tree (R32 to R34, R63, R64) -/

/-- A unit address that R33 calls invalid. -/
def Image.badUnit (m : Image) (u : Nat) : Bool :=
  if isGroup u then decide (m.unitCount ≤ unitIndex u) else decide (8 < bits u 5 2)
/-- A reserved bit of a unit address is set (R32). -/
def unitRsv (u : Nat) : Bool := bits u 14 10 != 0
/-- A core address of a resource: a group address is no core address. -/
def Image.badCore (m : Image) (u : Nat) : Bool := isGroup u || m.badUnit u

def Image.groups (m : Image) : List Nat := upTo m.unitCount
/-- The groups whose member lists hold a unit. -/
def Image.parents (m : Image) (u : Nat) : List Nat := m.groups.flatMap (fun i => ((m.memberList i).filter (fun x => x == u)).map (fun _ => i))

/-- Whether a group's chain of enclosing groups comes back to it. -/
def Image.loopsBack (m : Image) (i : Nat) : Nat → Nat → Bool
  | 0, _ => false
  | n + 1, k => match (m.parents (0x8000 + k)).head? with
    | none => false
    | some q => q == i || m.loopsBack i n q

/-- The size of a member's share of a tile (R64). -/
def shareOf (total n k : Nat) : Nat := (k + 1) * total / n - k * total / n

def Image.badShares (m : Image) (i : Nat) : Bool :=
  let e := m.unit i
  ((m.memberList i).zipIdx).any (fun x =>
    let sm := if e.split = 0 then shareOf e.tileM e.members x.2 else e.tileM
    let sn := if e.split = 0 then e.tileN else shareOf e.tileN e.members x.2
    if isGroup x.1 then decide (unitIndex x.1 < m.unitCount) && ((m.unit (unitIndex x.1)).tileM != sm || (m.unit (unitIndex x.1)).tileN != sn)
    else decide (128 < sm) || decide (192 < sn))

/-- R63, R34 and R64 over section 0 (log entry 16: a member count or a tile size out of range breaks R63). -/
def Image.badTree (m : Image) (fields : Nat) : Bool :=
  let n := m.unitCount
  (m.secLen 0 != 0 && n == 0) ||
    m.groups.any (fun i =>
      let e := m.unit i
      decide (e.members < 2) || decide (576 < e.members) || e.tileM == 0 || e.tileN == 0 ||
        e.list % 2 != 0 || decide (e.list < 16 * n) || decide (m.secLen 0 < e.list + 2 * e.members) || m.badShares i ||
        m.loopsBack i n i ||
        (m.memberList i).any (fun u => decide (1 < (m.parents u).length) || (!isGroup u && !m.badUnit u && !bit fields (coreField u)))) ||
    (n != 0 && (m.groups.foldl (fun a i => min a (m.unit i).list) (m.unit 0).list) % 16 != 0)

/-! ## Agents -/

def agRsv (a : Nat) : Bool := bits a 27 16 != 0 || (agKind a == 0 && unitRsv (agNum a))
/-- The agent that an identifier names, whatever its reserved bits, which are a fault of their own. -/
def agPlain (a : Nat) : Nat :=
  agKind a * 2 ^ 28 + (if agKind a = 0 then b2n (isGroup (agNum a)) * 2 ^ 15 + unitIndex (agNum a) else agNum a)
/-- Whether some binding binds the agent that an identifier names. -/
def Image.bindsAgent (m : Image) (a : Nat) : Bool := m.bindings.any (fun b => agPlain b.agent == agPlain a)

/-- An agent of the partition, the link controllers by the forme's own LINK_MASK too (R371); a fenced engine is nobody's (R525). DESIGN CHOICE (log entry
31): a controller whose group LINK_MASK alone leaves out is refused with the code of an agent outside the partition, 0x020B, for R371 names none. -/
def State.agentInside (s : State) (p linkMask a : Nat) : Bool :=
  let e := s.lay p
  let n := agNum a
  match agKind a with
  | 0 => bit e.fields (coreField n)
  | 1 => decide (n < 48) && bit e.fields (n / 3)
  | 2 => decide (n < 256) && bit e.nme n && !s.sec.fenced.getLsbD n
  | 3 => decide (n < 64) && bit e.cuu n
  | 4 => decide (n < 18) && bit e.links (n / 6) && bit linkMask (n / 6)
  | _ => false

/-- The opcodes that an agent of a kind executes (R558). -/
def opcodeOk (kind op : Nat) : Bool :=
  decide (op ≤ 7) || match kind with
    | 0 => (decide (0x10 ≤ op) && decide (op ≤ 0x12)) || (decide (0x20 ≤ op) && decide (op ≤ 0x2E))
    | 1 => decide (0x40 ≤ op) && decide (op ≤ 0x42)
    | 2 | 3 => (decide (0x60 ≤ op) && decide (op ≤ 0x63)) || op == 0x70 || op == 0x71
    | 4 => decide (0x80 ≤ op) && decide (op ≤ 0x82)
    | _ => false

/-! ## Programs -/

/-- The loop structure of a program: balanced, at most 4 deep (R67). -/
def loopsBad : Nat → List ARec → Bool
  | d, [] => d != 0
  | d, r :: rs =>
    if r.opcode = 1 then decide (4 ≤ d) || loopsBad (d + 1) rs
    else if r.opcode = 2 then d == 0 || loopsBad (d - 1) rs
    else loopsBad d rs

/-- The fill structure: FILL and ENDFILL alternate, items in ascending order (R92). -/
def fillsBad : Bool → Nat → List ARec → Bool
  | open', _, [] => open'
  | open', next, r :: rs =>
    if r.opcode = 4 then open' || decide (bits r.arg 11 0 < next) || fillsBad true (bits r.arg 11 0 + 1) rs
    else if r.opcode = 5 then !open' || fillsBad false next rs
    else fillsBad open' next rs

/-- The records of the loop body that begins here, up to its ENDLOOP. -/
def loopBody : Nat → List ARec → List ARec
  | _, [] => []
  | d, r :: rs =>
    if r.opcode = 2 then (if d = 0 then [] else r :: loopBody (d - 1) rs)
    else r :: loopBody (if r.opcode = 1 then d + 1 else d) rs

/-- A loop that breaks R68: with a RENDEZVOUS in its body it has period 0, and that one record begins the body. -/
def rvLoopsBad : List ARec → Bool
  | [] => false
  | r :: rs =>
    (r.opcode == 1 && (let body := loopBody 0 rs
      body.any (fun x => x.opcode == 3) &&
        (bits r.arg 15 0 != 0 || (body.head?.map (·.opcode)) != some 3 || decide (1 < (body.filter (fun x => x.opcode == 3)).length)))) ||
      rvLoopsBad rs

/-- A record with a value that 0x020C names. -/
def Image.badRecord (m : Image) (kind : Nat) (r : ARec) : Bool :=
  !opcodeOk kind r.opcode || r.rsv != 0 ||
    (decide (1 ≤ r.opcode) && decide (r.opcode ≤ 7) && (r.tokIn != 0xFFFF || r.tokOut != 0xFFFF || r.own != 0xFFFF)) ||
    (r.tokIn != 0xFFFF && decide (m.tokens ≤ r.tokIn)) || (r.tokOut != 0xFFFF && decide (m.tokens ≤ r.tokOut)) ||
    (r.own != 0xFFFF && decide (m.entries 3 32 ≤ r.own + r.span)) ||
    (kind == 4 && r.tokOut != 0xFFFF) ||
    (r.opcode == 1 && bits r.arg 31 16 == 0) ||
    (r.opcode == 3 && (bits r.arg 31 12 != 0 || decide (m.entries 5 16 ≤ bits r.arg 11 0))) ||
    (r.opcode == 4 && (bits r.arg 31 12 != 0 || decide (m.fills ≤ bits r.arg 11 0)))

/-- A binding, and its program, with a fault of 0x020C. -/
def Image.badBinding (m : Image) (b : Binding) : Bool :=
  agRsv b.agent || b.rsv || decide (4 < agKind b.agent) || (agKind b.agent == 0 && isGroup (agNum b.agent)) || b.progLen == 0 ||
    decide (m.secLen 2 < b.progOff + 16 * b.progLen) || decide (m.secLen 2 < b.paramOff) ||
    (let prog := m.program b
     prog.any (m.badRecord (agKind b.agent)) || loopsBad 0 prog || (prog.getLast?.map (·.opcode)) != some 7 ||
       prog.dropLast.any (fun r => r.opcode == 7))

/-! ## Ownership (R69, R70, R316, R372) -/

/-- A resource identifier with a reserved class, bit or value. DESIGN CHOICE (log entry 31): an output or edge link that its router lacks is
none of them. -/
def resRsv (r : Nat) : Bool :=
  let low := bits r 27 0
  match bits r 31 28 with
  | 1 => bits low 27 17 != 0 || unitRsv (bits low 15 0)
  | 2 => bits low 27 20 != 0 || unitRsv (bits low 15 0)
  | 3 => bits low 27 24 != 0 || bits low 11 5 != 0 || decide (12 ≤ bits low 15 12) || decide (10 ≤ bits low 19 16)
  | 4 => bits low 27 6 != 0
  | 5 => bits low 27 8 != 0
  | 6 => bits low 27 6 != 0
  | 7 => false
  | 8 => bits low 27 21 != 0 || bits low 15 4 != 0
  | 9 => bits low 27 25 != 0
  | _ => true

/-- A resource outside the partition, or a frame not allotted to it; a fenced engine lies outside every partition (R525). DESIGN CHOICE (log
entry 31): so does an engine, a store region or a port whose number is beyond its range. -/
def State.resOutside (s : State) (p linkMask r : Nat) : Bool :=
  let e := s.lay p
  match bits r 31 28 with
  | 1 | 2 => !bit e.fields (coreField (bits r 9 0))
  | 3 => decide (bits r 4 0 = 31) || !bit e.frames (bits r 4 0)
  | 4 => decide (48 ≤ bits r 5 0) || !bit e.fields (bits r 5 0 / 3)
  | 5 => !bit e.nme (bits r 7 0) || s.sec.fenced.getLsbD (bits r 7 0)
  | 6 => !bit e.cuu (bits r 5 0)
  | 7 => true
  | 8 =>
    let port := bits r 20 16
    decide (18 ≤ port) || !bit e.links (port / 6) || !bit linkMask (port / 6) || bits r 3 0 / 2 != p
  | 9 =>
    let g := bits r 23 0
    if bit r 24 then decide (g < e.as1) || decide (e.as1 + e.as1n ≤ g) else decide (g < e.as0) || decide (e.as0 + e.as0n ≤ g)
  | _ => false

/-- Whether a window [b, e) meets some window of an entry. -/
def Own.meetsSpan (o : Own) (b e : Nat) : Bool :=
  if o.count = 0 || o.length = 0 then false
  else if o.period = 0 || o.count = 1 then decide (o.first < e) && decide (b < o.first + o.length)
  else
    let j := if b < o.first + o.length then 0 else (b - o.first - o.length) / o.period + 1
    decide (j < o.count) && decide (o.first + j * o.period < e)

/-- Whether windows of two entries of one resource and one EPOCH overlap; the windows of one entry overlap where PERIOD is below LENGTH. -/
def Own.clash (a b : Own) : Bool :=
  a.resource == b.resource && a.epoch == b.epoch &&
    (upTo a.count).any (fun j => b.meetsSpan (a.first + j * a.period) (a.first + j * a.period + a.length))
def Own.selfClash (a : Own) : Bool := decide (1 < a.count) && decide (a.period < a.length)

def Image.owns (m : Image) : List Own := (upTo (m.entries 3 32)).map m.own

def pairsAny {α : Type} (f : α → α → Bool) : List α → Bool
  | [] => false
  | x :: xs => xs.any (f x) || pairsAny f xs

def Image.badEpoch (m : Image) (e : Nat) : Bool :=
  !(e == 0 || (decide (e < 0x8000) && decide (e ≤ m.entries 5 16)) || (decide (0x8000 ≤ e) && decide (e < 0x8000 + m.fills)))

/-- The number of records of the program bound to an agent. -/
def Image.progLenOf (m : Image) (a : Nat) : Nat := ((m.binding a).map (·.progLen)).getD 0

/-! ## Tokens (R77, R377) -/

def Image.tokenList (m : Image) : List Token := (upTo m.tokens).map m.token

/-- The agents that a token's PRODUCER names. -/
def Image.producers (m : Image) (t : Token) : List Nat := if agKind t.producer = 0 then m.cores (agNum t.producer) else [t.producer]

/-- A token entry that 0x020F names; its reserved bits fall under 0x020C. -/
def Image.badToken (m : Image) (k : Nat) : Bool :=
  let t := m.token k
  let ck := agKind t.consumer
  t.count == 0 || decide (3 < agKind t.producer) ||
    decide (ck = 5) || decide (ck = 6) || decide (7 < ck) || (ck == 7 && agNum t.consumer != 0) || (ck == 0 && isGroup (agNum t.consumer)) ||
    m.bindings.any (fun b => (m.program b).any (fun r =>
      (r.tokOut == k && !(m.producers t).contains b.agent) ||
      (r.tokIn == k && (b.agent != t.consumer || decide (r.atSlot * 256 + r.atCycle < bits t.deadline 31 8 * 256 + bits t.deadline 7 0)))))

/-- A GATE beyond the token table, an index out of range (R92). -/
def Image.badGate (m : Image) (gate : Nat) : Bool := gate != 0xFFFF && decide (m.tokens ≤ gate)

/-! ## Weirs (R316, R317) -/

/-- The weir numbers of Table 10-7. -/
def weirOk (w : Nat) : Bool := decide (w < 0x143) || w == 0x148 || w == 0x149

/-- A weir requirement: resource and share. -/
def Image.weirReq (m : Image) (k : Nat) : Nat × Nat := (fld (m.entry 7 8 k) 0 4, fld (m.entry 7 8 k) 4 4)
def Image.weirReqs (m : Image) : List (Nat × Nat) := (upTo (m.entries 7 8)).map m.weirReq

def weirReqRsv (q : Nat × Nat) : Bool := bits q.1 31 28 != 7 || bits q.1 27 27 != 0 || bits q.1 23 9 != 0 || !weirOk (bits q.1 8 0) || bits q.2 15 7 != 0

def State.weirShort (s : State) (p : Nat) (q : Nat × Nat) : Bool :=
  bits q.1 26 24 != p || decide (s.weirCells (bits q.1 8 0) p < bits q.2 6 0) || decide (s.weirDepth (bits q.1 8 0) p < bits q.2 31 16)

/-! ## Domains (R56, R464, R477, R485) -/

/-- A binding that names a group (R65). -/
def Binding.ofGroup (b : Binding) : Bool := agKind b.agent == 0 && isGroup (agNum b.agent)

/-- The fields that a forme uses: those of FIELD_MASK and of its bound cores and stream engines. -/
def Image.usedFields (m : Image) : Nat :=
  m.bindings.foldl (fun f b => match agKind b.agent with
    | 0 => if b.ofGroup then f else f ||| 2 ^ coreField (agNum b.agent)
    | 1 => if agNum b.agent < 48 then f ||| 2 ^ (agNum b.agent / 3) else f
    | _ => f) m.fieldMask

/-- The stacks of which a near-memory engine is bound (R485). -/
def Image.engineStacks (m : Image) : List Nat :=
  m.bindings.filterMap (fun b => if agKind b.agent = 2 && agNum b.agent < 256 then some (agNum b.agent / 32) else none)

/-- The domains with a rate that a forme uses. -/
def Image.rateDomains (m : Image) : List Nat := ((upTo 16).filter (bit m.usedFields)).map (19 + ·) ++ m.engineStacks.map (11 + ·)

/-- The power domains that a forme names (R96). DESIGN CHOICE (log entry 61): those of its masks, its bound agents and its ownership
entries of class 9, not the fields, stacks and channels that only ownership entries of other classes name. -/
def Image.domains (m : Image) : List Nat :=
  m.rateDomains ++ ((upTo 8).filter (bit m.stackMask)).map (11 + ·) ++ ((upTo 3).filter (bit m.linkMask)).map (6 + ·) ++
    (if m.boardMask % 2 ^ 32 ≠ 0 then [9] else []) ++ (if m.boardMask / 2 ^ 32 ≠ 0 then [10] else []) ++
    m.bindings.filterMap (fun b => if agKind b.agent = 3 then some (if agNum b.agent < 32 then 9 else 10)
      else if agKind b.agent = 4 && agNum b.agent < 18 then some (6 + agNum b.agent / 6) else none) ++
    (if m.owns.any (fun o => bits o.resource 31 28 == 9) then [35] else [])

def State.domainsOff (s : State) (p : Nat) (m : Image) : Bool :=
  m.domains.any (fun d => !s.domOn d) || (match s.rst.renewing with
    | some (q, fields) => q == p || m.usedFields &&& fields != 0
    | none => false)

def subset (a b : Nat) : Bool := a &&& b == a

/-! ## The enable check (R95, Table 03-16) -/

/-- The reason with which ENABLE refuses an image of a partition, 0 if it passes. DESIGN CHOICE (log entry 31): ARRIVALS 0 of a rendezvous
entry falls under 0x020C. -/
def State.enableCode (s : State) (p : Nat) (m : Image) : Nat :=
  let e := s.lay p
  let ids := m.owns
  firstCode [
    (0x0201, m.badHeader), (0x0202, m.badSections m.length), (0x0203, m.badCheck), (0x0204, m.formeId == 0),
    (0x0206, m.rateDomains.any (fun d => (s.dom d).rate != m.rateCode)),
    (0x0207, !subset m.fieldMask e.fields || !subset m.stackMask e.stackSet || !subset m.linkMask e.links || !subset m.boardMask e.board),
    (0x0208, m.groups.any (fun i => (m.memberList i).any m.badUnit) ||
      m.bindings.any (fun b => agKind b.agent == 0 && m.badUnit (agNum b.agent)) ||
      ids.any (fun o => (agKind o.agent == 0 && m.badUnit (agNum o.agent)) ||
        ((bits o.resource 31 28 == 1 || bits o.resource 31 28 == 2) && m.badCore (bits o.resource 15 0))) ||
      m.tokenList.any (fun t => (agKind t.producer == 0 && m.badUnit (agNum t.producer)) ||
        (agKind t.consumer == 0 && m.badUnit (agNum t.consumer)))),
    (0x0209, m.badTree e.fields),
    (0x020A, decide (1024 < m.unitCount) || decide (65535 < m.entries 3 32) || decide (65535 < m.tokens) ||
      decide (4096 < m.entries 5 16) || decide (4096 < m.fills) || decide (64 < m.entries 7 8) ||
      m.bindings.any (fun b => decide (4096 < b.progLen))),
    (0x020B, pairsAny (fun (a b : Binding) => agPlain a.agent == agPlain b.agent) m.bindings ||
      m.bindings.any (fun b => decide (agKind b.agent ≤ 4) && !b.ofGroup && !s.agentInside p m.linkMask b.agent) ||
      ids.any (fun o => !m.bindsAgent o.agent) ||
      m.tokenList.any (fun t => (m.producers t).any (fun a => !m.bindsAgent a) ||
        (agKind t.consumer != 7 && !m.bindsAgent t.consumer))),
    (0x020C, m.groups.any (fun i => (m.unit i).rsv || decide (1 < (m.unit i).split) || (m.memberList i).any unitRsv) ||
      m.bindings.any m.badBinding ||
      ids.any (fun o => o.rsv || agRsv o.agent || resRsv o.resource || m.badEpoch o.epoch || decide (m.progLenOf o.agent ≤ o.action)) ||
      (upTo (m.entries 5 16)).any (fun k => let (ports, n) := m.rv k
        decide (2 ^ 18 ≤ ports) || n == 0 || !zeroAt (m.entry 5 16 k) 6 10) ||
      m.tokenList.any (fun t => t.rsv || agRsv t.producer || agRsv t.consumer) || 
      (upTo m.fills).any (fun k => !zeroAt (m.entry 6 8 k) 4 4 || m.badGate (m.fillEntry k).1) || m.weirReqs.any weirReqRsv),
    (0x020D, ids.any (fun o => o.length == 0 || o.count == 0 || s.resOutside p m.linkMask o.resource)),
    (0x020E, ids.any Own.selfClash || pairsAny Own.clash ids),
    (0x020F, (upTo m.tokens).any m.badToken),
    (0x0210, pairsAny (fun (a b : List Nat) => a != b)
        (m.bindings.map (fun b => ((m.program b).filter (fun r => r.opcode == 3)).map (fun r => bits r.arg 11 0))) ||
      m.bindings.any (fun b => rvLoopsBad (m.program b))),
    (0x0211, m.bindings.any (fun b => fillsBad false 0 (m.program b)) ||
      (upTo m.fills).any (fun k => let (gate, worst) := m.fillEntry k
        worst == 0 || decide (256 < worst) ||
          (gate != 0xFFFF && (m.token gate).consumer != 0x70000000))),
    (0x0212, m.weirReqs.any (s.weirShort p)),
    (0x0213, s.domainsOff p m)]

end Sys2Proof.Machine
end

