-- ==== Sys2Proof/Machine/Control.lean ====
section
/-! DEFINITION. The control actions of a program but STEP (chapter 03). -/
namespace Sys2Proof.Machine

open Sys2Proof

/-- Whether every agent of the forme waits at the rendezvous it has issued (R89). -/
def Part.allWaiting (x : Part) : Bool := !x.seqs.isEmpty && x.seqs.all (fun q => q.waiting)
/-- Whether every agent has issued its END (R93). -/
def Part.allEnded (x : Part) : Bool := !x.seqs.isEmpty && x.seqs.all (fun q => q.ended)

/-- The arrivals of the named ports together (R378). -/
def Part.arrived (x : Part) (ports : Nat) : Nat :=
  sumNat ((upTo 18).map (fun q => if bit ports q then tget 0 x.arrivals q else 0))
/-- The arrivals that the rendezvous needs are complete (R89). -/
def Part.arrivalsOk (x : Part) : Bool := (x.image.rv x.rvEntry).2 ≤ x.arrived (x.image.rv x.rvEntry).1

/-- A control record at its issue point runs its effect on the partition; where none is due nothing happens (log entry 1). -/
def State.control (s : State) (op p a : Nat) (f : Ctx → State → State) : State :=
  match issueCtx s op p a with
  | some c => f c (s.toCycle p c.point)
  | none => s

/-- FORME_NOP (R559): checked as any action is, completes and sends its token in the cycle of its issue. -/
def execFormeNop (p a : Nat) (s : State) : Out :=
  .next (s.control 0 p a (fun c s => s.issueAction c true none [] (fun s => s.sendToken p c.r.tokOut a c.point)))

/-- LOOP (R67): the body begins at the slot of the record's issue point. -/
def execLoop (p a : Nat) (s : State) : Out :=
  .next (s.control 1 p a (fun c s =>
    let fr : LoopFrame := { body := c.idx + 1, iter := 0, count := bits c.r.arg 31 16, period := bits c.r.arg 15 0,
                            base := c.base + c.r.atSlot }
    s.modPart p (fun x => x.advance c (c.idx + 1) (fun l => fr :: l))))

/-- The innermost loop of a context. -/
def Part.topLoop (x : Part) (c : Ctx) : Option LoopFrame :=
  match x.seqr c.agent with
  | some q => match c.fill with
    | some _ => q.fill.bind (fun f => f.loops.head?)
    | none => q.loops.head?
  | none => none

/-- ENDLOOP (R67): the next iteration counts from one period later, or the loop ends. -/
def execEndloop (p a : Nat) (s : State) : Out :=
  .next (s.control 2 p a (fun c s =>
    s.modPart p (fun x =>
      match x.topLoop c with
      | some fr =>
        if fr.iter + 1 < fr.count then
          x.advance c fr.body (fun l => { fr with iter := fr.iter + 1, base := fr.base + fr.period } :: l.drop 1)
        else x.advance c (c.idx + 1) (fun l => l.drop 1)
      | none => x.advance c (c.idx + 1) id)))

/-- The watchdog setting of a partition in the view in force (Table 14-9). -/
def State.watchdog (s : State) (p : Nat) : Nat := if s.cc.level then (tget 0 s.cc.wd p).toNat else s.cc.wdAll.toNat

/-- RENDEZVOUS (R88 to R90): the agent waits; the last agent's arrival starts the watchdog. DESIGN CHOICE (log entry 26): between FILL and ENDFILL, where
R92 neither forbids the record nor gives it a code, it acts as in the main sequence, whose place it sets. -/
def execRendezvous (p a : Nat) (s : State) : Out :=
  .next (s.control 3 p a (fun c s =>
    s.modPart p (fun x =>
      let x := x.modSeqr a (fun q => { q with waiting := true, pc := c.idx, last := c.point })
      let x := { x with rvEntry := bits c.r.arg 11 0 }
      if x.allWaiting then
        { x with rvAt := some (x.seqs.foldl (fun m q => max m q.last) 0), wdRun := some 0, wdLimit := s.watchdog p }
      else x)))

/-- FILL (R92) opens the agent's part of the item in progress. -/
def execFill (p a : Nat) (s : State) : Out :=
  .next (s.control 4 p a (fun c s => s.step1 c))

/-- ENDFILL (R92) closes the agent's part of the item. -/
def execEndfill (p a : Nat) (s : State) : Out :=
  .next (s.control 5 p a (fun c s =>
    s.modPart p (fun x =>
      (x.modSeqr a (fun q => { q with last := c.point, fill := q.fill.map (fun f => { f with done := true }) })).settleFill c.point)))

/-- END (R93): the run can complete once every agent has issued it. -/
def execEndProg (p a : Nat) (s : State) : Out :=
  .next (s.control 7 p a (fun c s =>
    s.modPart p (fun x =>
      let x := x.modSeqr a (fun q => { q with ended := true, pc := c.idx, last := c.point })
      if x.allEnded then { x with ended := some (x.seqs.foldl (fun m q => max m q.last) 0) } else x)))

end Sys2Proof.Machine
end

