-- ==== Sys2Proof/Machine/Grants.lean ====
section
/-! DEFINITION. The receive buffers of the ports and the grants of their units (R375), with what queues a flit at a port (chapter 12). -/
namespace Sys2Proof.Machine

open Sys2Proof

/-! ## Ports and parts -/

def linkAgent (port : Nat) : Nat := 0x40000000 + port
def State.selfPart (s : State) : Nat := s.lnk.self.toNat
/-- LNK_ROUTE[e] as it acts: values the table does not give act as 0xFF. -/
def State.routeOf (s : State) (e : Nat) : Nat :=
  let v := (tget (0xFF : BitVec 8) s.lnk.route e).toNat
  if v < 18 || v = 0xFE then v else 0xFF

def mkTag (type owner channel : Nat) : W16 := BitVec.ofNat 16 (0x8000 + type * 4096 + owner * 256 + channel)
/-- A flit of 128 bytes, padded with zeros. -/
def pad128 (b : List Byte) : List Byte := b ++ List.replicate (128 - b.length) 0

/-- Queues a flit in the cells of owner 8. -/
def State.queueFlit (s : State) (port : Nat) (f : QFlit) : State := s.modPort port (fun q => { q with queue := q.queue ++ [f] })

/-- A routed header (Table 12-5). -/
def routedHeader (dest src owner inner channel ttl : Nat) : List Byte :=
  leBytes 2 dest ++ leBytes 2 src ++ leBytes 1 (owner + 16 * inner) ++ leBytes 1 channel ++ leBytes 1 ttl ++ leBytes 1 0

/-! ## Grants (R375) -/

def grantUnit : Nat := 131072

/-- What tells the actions of a controller apart, also two of one looped record: partition, controller, record, issue cycle. -/
def Msg.key (m : Msg) : Nat × Nat × Nat × Nat := (m.partition, m.port, m.action, m.issue)
def Coll.key (c : Coll) : Nat × Nat × Nat × Nat := (c.partition, c.port, c.action, c.issue)
def LinkWrite.key (w : LinkWrite) : Nat × Nat × Nat × Nat := (w.partition, w.port, w.action, w.issue)

/-- The numbers under which a controller asks at the weirs: for a message, whose own number they bear, and for a collective. -/
def msgAsk (id : Nat) : Nat := 2 * id + 2
def collAsk (seq : Nat) : Nat := 2 * seq + 1

/-- Bytes of a receiving message that have left the receive buffer: those of a RECV once they are written, those of a collective as they come in. -/
def Msg.past (m : Msg) : Nat := if m.coll then m.sent else m.written

/-- Units of the receive buffer that a receiving message holds. -/
def Msg.units (m : Msg) : Nat := if m.isSend then 0 else cdiv m.granted grantUnit - (if m.past = m.length then cdiv m.length grantUnit else m.past / grantUnit)

/-- Units that an action holds, in all its messages. -/
def unitsHeld (k : Nat × Nat × Nat × Nat) (ms : List Msg) : Nat := sumNat ((ms.filter (fun m => m.key == k)).map Msg.units)

/-- The grant record of a receiving message for `n` bytes. -/
def State.sendGrant (s : State) (m : Msg) (n : Nat) : State :=
  let rec' := leBytes 1 m.channel ++ leBytes 1 0 ++ leBytes 2 s.selfPart ++ leBytes 4 n ++ leBytes 4 m.check ++ leBytes 4 0
  if m.routed then
    if s.routeOf m.peer < 18 then
      s.queueFlit (s.routeOf m.peer)
        { tag := mkTag 2 0 0, bytes := pad128 (routedHeader m.peer s.selfPart m.owner 3 m.channel 64 ++ rec') }
    else s
  else s.queueFlit m.link { tag := mkTag 3 m.owner m.channel, bytes := pad128 rec' }

/-- Gives units of a port's receive buffer to the receiving messages in their order: 16 units in all, at most 2 to each action. -/
def State.giveUnitsGo (port : Nat) : Nat → List Msg → List Msg → State → State
  | _, done, [], s => { s with lnk := { s.lnk with msgs := done } }
  | free, done, m :: rest, s =>
    let full (m : Msg) : Bool := decide (2 ≤ unitsHeld m.key (done ++ m :: rest))
    let n := min grantUnit (m.length - m.granted)
    if m.isSend || m.link ≠ port || n = 0 || free = 0 || full m then State.giveUnitsGo port free (done ++ [m]) rest s
    else
      let s := s.sendGrant m n
      let m := { m with granted := m.granted + n }
      let n := min grantUnit (m.length - m.granted)
      if n = 0 || free ≤ 1 || full m then State.giveUnitsGo port (free - 1) (done ++ [m]) rest s
      else State.giveUnitsGo port (free - 2) (done ++ [{ m with granted := m.granted + n }]) rest (s.sendGrant m n)

def State.giveUnits (s : State) (port : Nat) : State :=
  let used := sumNat ((s.lnk.msgs.filter (fun m => !m.isSend && m.link == port)).map Msg.units)
  State.giveUnitsGo port (16 - used) [] s.lnk.msgs s

/-- Every port gives what it has free. -/
def State.giveAll (s : State) : State := (upTo 18).foldl (fun s q => s.giveUnits q) s

/-! ## Messages in flight -/

/-- A message stands behind those of every action issued before its own and of its own (R375). -/
def insertMsg (m : Msg) : List Msg → List Msg
  | [] => [m]
  | x :: t => if m.seq < x.seq then m :: x :: t else x :: insertMsg m t

/-- A message joins those in flight under a number of its own. -/
def State.addMsg (s : State) (m : Msg) : State :=
  { s with lnk := { s.lnk with nextMsg := s.lnk.nextMsg + 1, msgs := insertMsg { m with id := s.lnk.nextMsg } s.lnk.msgs } }

end Sys2Proof.Machine
end

