-- ==== Sys2Proof/Machine/Stream.lean ====
section
/-! DEFINITION. Stream engines (chapter 11): descriptors, the moves of COPY, PARK and UNPARK, pipes, halts and restarts. -/
namespace Sys2Proof.Machine

open Sys2Proof

/-! ## Descriptors (R332, R333) -/

/-- A stream descriptor (Table 11-2); operands stay bytes. -/
structure StreamDesc where
  opId : Nat
  ctrl : Nat
  fmt : Nat
  srcKind : Nat
  dstKind : Nat
  rows : Nat
  rowBytes : Nat
  src : List Byte
  dst : List Byte
  srcStride : Nat
  dstStride : Nat
  qmax : Nat
  row0 : Nat
  pace : Nat
  deriving DecidableEq, Repr

def StreamDesc.parse (b : List Byte) : StreamDesc :=
  { opId := fld b 0 4, ctrl := byteAt b 4, fmt := byteAt b 5, srcKind := byteAt b 6, dstKind := byteAt b 7, rows := fld b 8 4,
    rowBytes := fld b 0xC 4, src := (b.drop 0x10).take 16, dst := (b.drop 0x20).take 16, srcStride := fld b 0x30 4,
    dstStride := fld b 0x34 4, qmax := fld b 0x38 2, row0 := fld b 0x3A 2, pace := fld b 0x3C 4 }

def StreamDesc.length (d : StreamDesc) : Nat := d.rows * d.rowBytes
def StreamDesc.transpose (d : StreamDesc) : Bool := bit d.ctrl 0

/-- A block of a transposition (R194): rows and columns, and the stream position of its first column. -/
structure Block where
  row : Nat
  rows : Nat
  col : Nat
  cols : Nat
  at' : Nat
  deriving DecidableEq, Repr

/-- The block of a width in columns that begins at a position, or what is left of the block in which a halt has stopped at a column (R347). A
block as wide as a request of the source is the segments of a band (R340). -/
def StreamDesc.blockAt (d : StreamDesc) (width q : Nat) : Block :=
  let row := q / d.rowBytes
  let col := q % d.rowBytes / 2
  { row := row, rows := min 64 (d.rows - row), col := col, cols := min (width - col % width) (d.rowBytes / 2 - col), at' := q }

/-- The position after a block: blocks go along a band of 64 rows, then to the next band (R340). -/
def StreamDesc.after (d : StreamDesc) (b : Block) : Nat :=
  if b.col + b.cols = d.rowBytes / 2 then min d.length ((b.row + 64) * d.rowBytes) else b.at' + 2 * b.cols

/-- The blocks of a transposition between two positions. -/
def StreamDesc.blocks (d : StreamDesc) (width q1 : Nat) : Nat → Nat → List Block
  | 0, _ => []
  | fuel + 1, q => if q1 ≤ q then [] else d.blockAt width q :: StreamDesc.blocks d width q1 fuel (d.after (d.blockAt width q))

/-- Enough blocks for a whole transposition. -/
def StreamDesc.blockFuel (d : StreamDesc) : Nat := (d.rows / 64 + 1) * (d.rowBytes / 2 + 1) + 1

/-- The ranges, in the order of the requests, that the bytes between two positions reach on one side whose first row lies at an address: of a
transposition the row segments of each band at its source and the blocks of 64 columns at its destination (R340). -/
def StreamDesc.pieces (d : StreamDesc) (dst : Bool) (a q0 q1 : Nat) : List (Nat × Nat) :=
  if d.transpose then
    (d.blocks (if dst then 64 else reqUnit a / 2) q1 d.blockFuel q0).flatMap (fun b =>
      if dst then (upTo (if q1 < d.after b then min b.cols ((q1 - b.at') / 2) else b.cols)).map (fun j => (a + (b.col + j) * d.dstStride + 2 * b.row, 2 * b.rows))
      else (upTo b.rows).map (fun r => (a + (b.row + r) * d.srcStride + 2 * b.col, 2 * b.cols)))
  else
    let stride := if dst then d.dstStride else d.srcStride
    ((upTo d.rows).filter (fun r => decide (q0 < (r + 1) * d.rowBytes) && decide (r * d.rowBytes < q1))).map (fun r =>
      (a + r * stride + (q0 - r * d.rowBytes), min d.rowBytes (q1 - r * d.rowBytes) - (q0 - r * d.rowBytes)))

/-- An operand resolved (Table 11-3). A store operand holds the first region of its instance and its byte address in the store. -/
inductive Opnd where
  | none
  | core (unit addr : Nat)
  | dev (addr : Nat)
  | store (die inst addr limit : Nat)
  | sram (engine off : Nat)
  | scalar (engine : Nat)
  | append (cset layer bucket tokens : Nat)
  | pipe (engine : Nat)
  | link (port slot off : Nat)
  | page (cset slot layer index : Nat)
  | bad
  deriving DecidableEq, Repr

/-- The slab instance of an activation-store operand (R200 to R202). -/
def slabOpnd (m : Image) (b : Binding) (iter : Nat) (o : List Byte) : Opnd :=
  match m.descOf b (fld o 0 4) 16 with
  | none => .bad
  | some r =>
    let base := fld r 0 2
    let depth := byteAt r 3
    let regs := fld r 4 4
    if byteAt r 2 ≤ 1 && 1 ≤ depth && depth ≤ 64 && 1 ≤ regs && regs ≤ 12288 && base ≤ 12287 && base + depth * regs ≤ 12288 &&
        zeroAt r 8 8 && zeroAt o 5 3 && zeroAt o 0xC 4 && fld o 8 4 % 16 = 0 then
      let inst := base + (iter + byteAt o 4) % depth * regs
      .store (byteAt r 2) inst (inst * 16384 + fld o 8 4) ((inst + regs) * 16384)
    else .bad

/-- An operand of a stream descriptor. -/
def opndOf (m : Image) (b : Binding) (iter kind : Nat) (o : List Byte) : Opnd :=
  match kind with
  | 0 => if zeroAt o 0 16 then .none else .bad
  | 1 => if zeroAt o 2 2 && zeroAt o 8 8 && fld o 4 4 % 16 = 0 then .core (fld o 0 2) (fld o 4 4) else .bad
  | 2 => if fld o 0 8 < 2 ^ 57 && fld o 0 8 % 16 = 0 && zeroAt o 8 8 then .dev (fld o 0 8) else .bad
  | 3 => slabOpnd m b iter o
  | 4 => if zeroAt o 2 2 && zeroAt o 8 8 && fld o 4 4 % 16 = 0 then .sram (fld o 0 2) (fld o 4 4) else .bad
  | 5 => if zeroAt o 4 12 && (agKind (fld o 0 4) = 2 && agNum (fld o 0 4) < 256 || agKind (fld o 0 4) = 3 && agNum (fld o 0 4) < 64) && bits (fld o 0 4) 27 16 = 0
      then .scalar (engOfAgent (fld o 0 4)) else .bad
  | 6 => if zeroAt o 0xB 1 && zeroAt o 0xE 2 then .append (fld o 0 8) (fld o 8 2) (byteAt o 0xA) (fld o 0xC 2) else .bad
  | 7 => if zeroAt o 2 14 then .pipe (fld o 0 2) else .bad
  | 8 => if zeroAt o 2 2 && zeroAt o 8 8 && fld o 4 4 % 16 = 0 then .link (byteAt o 0) (byteAt o 1) (fld o 4 4) else .bad
  | 9 => if zeroAt o 0xE 2 then .page (fld o 0 8) (fld o 8 2) (fld o 0xA 2) (fld o 0xC 2) else .bad
  | _ => .bad

/-! ## Validity (R334) -/

/-- Link group of a port: six ports each of D06, D07 and D08. -/
def linkGroup (port : Nat) : Nat := port / 6

/-- Whether a partition owns an update engine or near-memory engine under the layout in force (R304, R525). -/
def State.ownsEngine (s : State) (p e : Nat) : Bool :=
  if e < 256 then bit (s.lay p).nme e && !s.sec.fenced.toNat.testBit e else bit (s.lay p).cuu (e - 256)

/-- Byte ranges of an operand's rows, as (start of row, bytes of a row, stride). -/
def rowStarts (addr stride rows : Nat) : List Nat := (upTo rows).map (fun r => addr + r * stride)

/-- Whether an operand with rows of `n` bytes lies within its memory and the partition. -/
def State.opndIn (s : State) (p field : Nat) (o : Opnd) (stride rows n : Nat) : Bool :=
  let ext := (rows - 1) * stride + n
  match o with
  | .core u a => coreOk u && coreField u = field && a + ext ≤ coreBytes
  | .dev a => (rowStarts a stride rows).all (fun x => s.inRanges p x n)
  | .store die _ a lim =>
    let e := s.lay p
    let base := if die = 0 then e.as0 else e.as1
    let cnt := if die = 0 then e.as0n else e.as1n
    a + ext ≤ lim && base * 16384 ≤ a && a + ext ≤ (base + cnt) * 16384
  | .sram e off => e < 256 && s.ownsEngine p e && off + ext ≤ sramBytes
  | .scalar e => (e < 256 || e < 320) && s.ownsEngine p e && rows = 1 && n = 64
  | .pipe e => e < 48 && bit (s.lay p).fields (e / 3)
  | .link q sl off => q < 18 && bit (s.lay p).links (linkGroup q) && sl < 16 && sl / 2 = p && off + ext ≤ 65536
  | .append cs l b t =>
    match (s.part p).cset with
    | none => false
    | some a =>
      let c := s.cacheSetAt p a
      cs = a && l < c.layers && b < s.bucketCount c && 1 ≤ t && t ≤ 2048 && n = t * c.tokenBytes
  | .page cs sl l i =>
    match (s.part p).cset with
    | none => false
    | some a => let c := s.cacheSetAt p a; cs = a && sl < c.slots && l < c.layers && i < c.ppe
  | .none => true
  | .bad => false

/-- Rows and row bytes as the destination receives them (R340). -/
def StreamDesc.dstShape (d : StreamDesc) : Nat × Nat := if d.transpose then (d.rowBytes / 2, 2 * d.rows) else (d.rows, d.rowBytes)

def isHostAddr (o : Opnd) : Bool := match o with | .dev a => hostBase ≤ a | _ => false

def State.streamValid (s : State) (p engine op : Nat) (d : StreamDesc) (src dst : Opnd) : Bool :=
  let f := engine / 3
  let kindsOk :=
    if op = 0x40 then (1 ≤ d.srcKind && d.srcKind ≤ 4 || d.srcKind = 7 || d.srcKind = 8) && 1 ≤ d.dstKind && d.dstKind ≤ 8
    else if op = 0x41 then d.srcKind = 9 && d.dstKind = 2
    else d.srcKind = 9 && d.dstKind = 0
  let dr := d.dstShape
  let fieldsOk := d.ctrl ≤ 1 && d.fmt < 16 && 1 ≤ d.rows && d.rows ≤ 65536 && 16 ≤ d.rowBytes && d.rowBytes ≤ 16777216 &&
    d.rowBytes % 16 = 0 && d.srcStride % 16 = 0 && d.dstStride % 16 = 0 && 1 ≤ d.qmax && 1 ≤ d.pace &&
    (d.rows = 1 || d.rowBytes ≤ d.srcStride) && (dr.1 = 1 || dr.2 ≤ d.dstStride) && (d.dstKind = 6 || d.row0 = 0)
  let transOk :=
    if d.transpose then (d.fmt = 1 || d.fmt = 2) && op = 0x40 && !isHostAddr src && !isHostAddr dst && d.srcKind != 7 &&
      d.dstKind != 7 && d.dstKind != 5 && d.dstKind != 6 && d.dstKind != 8
    else d.fmt = 0
  let shapeOk := match dst with
    | .append cs _ b _ => let bk := s.bucket (s.cacheSetAt p cs) b; d.row0 + d.rows ≤ bk.rows
    | .dev a => op ≠ 0x41 || (a % 262144 = 0 && boardBase ≤ a && a < s.boardTop)
    | _ => true
  let pageOk := op = 0x40 || (d.rows = 1 && d.rowBytes = 262144)
  kindsOk && fieldsOk && transOk && pageOk && s.opndIn p f src d.srcStride d.rows d.rowBytes &&
    s.opndIn p f dst d.dstStride dr.1 dr.2 && shapeOk

/-! ## Resources (R335) -/

def opndRes (o : Opnd) (stride rows n : Nat) : List Nat :=
  match o with
  | .core u a => dedup ((rowStarts a stride rows).flatMap (fun x => banksOf u x n))
  | .sram e _ => [resNme e]
  | .scalar e => [resEngine e]
  | .link q sl _ => [resSlot q sl]
  | _ => []

def storeRes (o : Opnd) : List Nat := match o with | .store die inst _ _ => [resStore die inst] | _ => []

def StreamDesc.resources (d : StreamDesc) (src dst : Opnd) : List Nat :=
  let dr := d.dstShape
  dedup (storeRes src ++ storeRes dst ++ opndRes src d.srcStride d.rows d.rowBytes ++ opndRes dst d.dstStride dr.1 dr.2)

/-! ## One move of bytes -/

/-- How a move ended. -/
inductive Moved where
  | all
  | absent (addr : Nat) (dst : Bool)          -- R312, with the side
  | noPage (slot layer engine : Nat)          -- R283
  | parked (engine : Nat)                     -- R283: a breach, no further move
  deriving DecidableEq, Repr

/-- Reads `n` bytes of an operand from an address of its own space. -/
def State.opndRead (s : State) (w : Who) (o : Opnd) (off n : Nat) : Run × Moved × State :=
  match o with
  | .core u a => (s.read .core (coreAt u (a + off)) n, .all, s)
  | .dev a =>
    let (r, ab, s) := s.agentRead w (a + off) n
    (r, match ab with | some x => .absent x false | none => .all, s)
  | .store die inst a _ => let (r, s) := s.storeRead w die inst (a + off) n; (r, .all, s)
  | .sram e a => (s.read .sram (sramAt e (a + off)) n, .all, s)
  | .link q sl a => (s.read .staging (stagingAt q sl (a + off)) n, .all, s)
  | _ => (Run.unserved 0 n, .all, s)

/-- Writes a run to an operand: bytes written, how it ended, the state. -/
def State.opndWrite (s : State) (w : Who) (o : Opnd) (off : Nat) (r : Run) : Nat × Moved × State :=
  match o with
  | .core u a => (r.length, .all, s.write .core (coreAt u (a + off)) r)
  | .dev a =>
    let (k, ab, s) := s.agentWrite w (a + off) r
    (k, match ab with | some x => .absent x true | none => .all, s)
  | .store die inst a _ => (r.length, .all, s.storeWrite die inst (a + off) r)
  | .sram e a => (r.length, .all, s.write .sram (sramAt e (a + off)) r)
  | .scalar e => (r.length, .all, s.write .scalar (scalarAt e + off) r)
  | .link q sl a => (r.length, .all, s.write .staging (stagingAt q sl (a + off)) r)
  | .pipe e => (r.length, .all, { s with se := { s.se with pipes := tmod [] s.se.pipes e (· ++ r), piped := tmod 0 s.se.piped e (· + r.length) } })
  | _ => (r.length, .all, s)

/-- Room for one token of an append: the stack address of the token at position `x` of a slot (R279, R283). -/
def State.tokenPlace (s : State) (c : CacheSet) (slot layer x : Nat) : Moved × Nat × State :=
  let j := x / c.t
  let i := c.holder slot layer j
  let e := s.cacheEng c i
  let ea := c.cptEntry e slot layer (c.localIndex j)
  let w := s.fwRead ea 8
  if pteValid w then
    if pteParked w then (.parked e.engine, 0, s) else (.all, pteAddr w + x % c.t * c.tokenBytes, s)
  else match s.takePage e with
    | none => (.noPage slot layer e.engine, 0, s)
    | some (pg, s) => (.all, pteAddr pg + x % c.t * c.tokenBytes, s.fwWrite ea 8 (mkPte false pg))

/-- Writes the bytes of one row of an append from byte `o` of the row on; each token record is one request (R282, R346, Table 11-3). -/
def State.appendGo (w : Who) (qmax : Nat) (c : CacheSet) (layer slot len tokens : Nat) : Nat → Nat → Run → State → Nat × Moved × State
  | 0, _, _, s => (0, .all, s)
  | fuel + 1, o, r, s =>
    if r.length < c.tokenBytes || tokens * c.tokenBytes ≤ o then (0, .all, s) else
    match s.tokenPlace c slot layer (len + o / c.tokenBytes) with
    | (.all, a, s) =>
      let (_, _, s) := s.agentWrite w a (r.take c.tokenBytes)
      let s := s.askTokens w qmax true [(a, cdiv (max c.tokenBytes 4096) 64)]
      let (k, m, s) := State.appendGo w qmax c layer slot len tokens fuel (o + c.tokenBytes) (r.drop c.tokenBytes) s
      (c.tokenBytes + k, m, s)
    | (m, _, s) => (0, m, s)

def State.appendRow (s : State) (w : Who) (qmax cs layer bucket tokens row o : Nat) (r : Run) : Nat × Moved × State :=
  let c := s.cacheSetAt w.p cs
  let slot := s.rowSlot (s.bucket c bucket) row
  if slot = 0xFFFF then (r.length, .all, s) else
  let e := s.seqEntry c slot
  let (k, m, s) := State.appendGo w qmax c layer slot e.length tokens (tokens + 1) o r s
  let s := if m = .all && o + k = tokens * c.tokenBytes then s.putSeq c slot { s.seqEntry c slot with pending := tokens } else s
  (k, m, s)

/-- Moves up to `n` bytes of a linear stream from position `q`, row by row: bytes moved, how it ended, the state. -/
def State.moveLinear (w : Who) (d : StreamDesc) (src dst : Opnd) : Nat → Nat → Nat → State → Nat × Moved × State
  | 0, _, _, s => (0, .all, s)
  | fuel + 1, q, n, s =>
    if n = 0 then (0, .all, s) else
    let row := q / d.rowBytes
    let o := q % d.rowBytes
    let m := min n (d.rowBytes - o)
    let (r, rm, s) := match src with
      | .pipe _ => (((tget [] s.se.pipes (agNum w.agent)).take m, Moved.all, s) : Run × Moved × State)
      | _ => s.opndRead w src (row * d.srcStride + o) m
    let (k, wm, s) := match dst with
      | .append cs l b t => s.appendRow w d.qmax cs l b t (d.row0 + row) o r
      | _ => s.opndWrite w dst (row * d.dstStride + o) r
    let s := match src with
      | .pipe _ => { s with se := { s.se with pipes := tmod [] s.se.pipes (agNum w.agent) (List.drop k) } }
      | _ => s
    if wm ≠ .all then (k, wm, s)
    else if rm ≠ .all then (k, rm, s)
    else if k < m then (k, .all, s)
    else
      let (k', em, s) := State.moveLinear w d src dst fuel (q + m) (n - m) s
      (m + k', em, s)

/-- Reads the segments of one band of a transposition row by row (R340). -/
def State.blockRead (w : Who) (d : StreamDesc) (src : Opnd) (b : Block) : List Nat → State → List Run × Moved × State
  | [], s => ([], .all, s)
  | i :: rest, s =>
    match s.opndRead w src ((b.row + i) * d.srcStride + 2 * b.col) (2 * b.cols) with
    | (r, .all, s) => let (l, m, s) := State.blockRead w d src b rest s; (r :: l, m, s)
    | (_, m, s) => ([], m, s)

/-- Writes the columns of a band's segments as destination rows, block by block (R194): how many are written whole and how it ended. -/
def State.blockWrite (w : Who) (d : StreamDesc) (dst : Opnd) (b : Block) (rs : List Run) : List Nat → State → Nat × Moved × State
  | [], s => (0, .all, s)
  | j :: rest, s =>
    match s.opndWrite w dst ((b.col + j) * d.dstStride + 2 * b.row) (rs.flatMap (fun r => (r.drop (2 * j)).take 2)) with
    | (_, .all, s) => let (k, m, s) := State.blockWrite w d dst b rs rest s; (k + 1, m, s)
    | (_, m, s) => (0, m, s)

/-- The unit of the requests of a source (Table 11-3). -/
def srcUnit (o : Opnd) : Nat :=
  match o with
  | .dev a => reqUnit a
  | .page _ _ _ _ => 4096
  | .link _ _ _ => 2048
  | _ => 256

/-- Transposes band by band of 64 rows, by row segments of the source path's minimum efficient size and in them by blocks of 64 × 64 elements
(R194, R196, R340): the position reached and how it ended. A halt of the destination leaves the first column that is not yet written whole as
the position (R347). DEDUCED (log entry 38): segments count from the start of each row. -/
def State.moveTransposed (w : Who) (d : StreamDesc) (src dst : Opnd) : Nat → Nat → State → Nat × Moved × State
  | 0, q, s => (q, .all, s)
  | fuel + 1, q, s =>
    if d.length ≤ q then (q, .all, s) else
    let b := d.blockAt (srcUnit src / 2) q
    match s.blockRead w d src b (upTo b.rows) with
    | (rs, .all, s) =>
      match s.blockWrite w d dst b rs (upTo b.cols) with
      | (_, .all, s) => State.moveTransposed w d src dst fuel (d.after b) s
      | (k, m, s) => (q + 2 * k, m, s)
    | (_, m, s) => (q, m, s)

/-- The requests for the bytes of a stream between two positions, on the sides that pass a weir (R336). The request of the unit in which
the byte before the first one lies has been issued with that byte, but for a transposed source, whose segments are read anew. -/
def State.askSides (s : State) (w : Who) (d : StreamDesc) (src dst : Opnd) (q0 q1 : Nat) : State :=
  let side (s : State) (isDst : Bool) (o : Opnd) : State := match o with
    | .dev a =>
      let before := if q0 = 0 || d.transpose && !isDst then none else (d.pieces isDst a (q0 - 1) q0).getLast?.map (fun x => x.1 + x.2 - 1)
      s.askUnits w d.qmax isDst (unitsEntered before (d.pieces isDst a q0 q1))
    | _ => s
  side (side s false src) true dst

/-- The bytes of a stream between two positions on the direct paths to and from the quads of its core operands (R52). -/
def State.sendFields (s : State) (w : Who) (d : StreamDesc) (src dst : Opnd) (q0 q1 : Nat) : State :=
  let side (s : State) (toQuad : Bool) (o : Opnd) : State := match o with
    | .core c _ => s.sendDirect w.p (agNum w.agent) c (q1 - q0) toQuad d.transpose
    | _ => s
  side (side s false src) true dst

/-! ## Stream records: halts (R347 to R351) -/

/-- The device pages that the rest of one side reaches, in order, after the page that halted: rows of the same band that were reached before
it come no more (R349). -/
def pagesAfter (halted : Nat) (ranges : List (Nat × Nat)) (limit : Nat) : List Nat :=
  let all := ranges.flatMap (fun x => (cut pageBytes x.1 x.2).map (fun y => y.1 / pageBytes))
  (dedup ((all.dropWhile (· != halted)).filter (· != halted))).take limit

/-- The due position of R351: a multiple of the source's request unit. -/
def dueOf (len f i pace unit : Nat) : Nat := min len (cdiv (len * (f - i)) (pace * unit) * unit)

/-- The freeze boundary of a partition, or the present cycle where none is set. -/
def Part.boundary (x : Part) : Nat :=
  match x.frz with
  | .no => freezeBoundaryOf x.cycle
  | .pending b | .stopped b | .thawing b => b

/-- A waiting engine of a stopped partition halts with cause 3 or 4 (R348). -/
def State.haltWaiting (s : State) (e : Nat) (space : Bool) (d : StreamDesc) (src : Opnd) : State :=
  let r := s.srec e
  let due := dueOf d.length (s.part r.partition).boundary r.issue d.pace (srcUnit src)
  s.setRec e { r with state := 2, cause := if space then 3 else 4, restarted := false, due := due, dueAt := due, detail := 0, scanCount := 0, scanMap := 0 }

/-- The events of a partition's halts are posted once it has stopped (R349, Table 09-17 step 3). The first cache-page-wanted event begins
the grace period. -/
def State.postWanted (s : State) (p : Nat) : State := match (s.part p).frz with
  | .stopped _ =>
    let ws := (s.part p).wanted
    let grace := match s.cset p with | some c => c.grace | none => 0
    let s := ws.foldl (fun s w => s.post w.type (some p) w.agent w.aux w.detail) s
    s.modPart p (fun x => { x with wanted := [], grace := match x.grace, ws.find? (fun w => w.type == 0x202) with
      | none, some w => some (s.es.time.toNat + grace * 1000, w.detail % 2 ^ 32, w.detail / 2 ^ 32 % 2 ^ 16)
      | g, _ => g })
  | _ => s

/-- An engine's halt: the record is completed, the freeze cause set and the event made ready (R347, R349, R290). -/
def State.haltStream (s : State) (e : Nat) (d : StreamDesc) (src dst : Opnd) (m : Moved) (cyc : Nat) : State :=
  let r := s.srec e
  -- a cache page is the source by its operand, whatever memory it stands in (R351)
  let unit := if d.srcKind = 9 then 4096 else srcUnit src
  let p := r.partition
  let halt (s : State) (cause detail cnt map : Nat) (w : Want) : State :=
    let due := dueOf d.length (s.part p).boundary r.issue d.pace unit
    let s := s.setRec e { r with state := 2, cause := cause, waiting := false, restarted := false, block := 0, blockAction := 0xFFFF,
                                 due := due, dueAt := due, detail := detail, scanCount := cnt, scanMap := map }
    (s.modPart p (fun x => { x with wanted := x.wanted ++ [w] })).postWanted p
  match m with
  | .absent a onDst =>
    let s := s.freeze p (.absentPage e) cyc
    let rest := match if onDst then dst else src with
      | .dev x => d.pieces onDst x r.position d.length
      | _ => []
    let miss := (pagesAfter (a / pageBytes) rest (s.part p).scan).map (fun q => !s.pagePresent (q * pageBytes))
    let map := (miss.zipIdx).foldl (fun acc x => acc + b2n x.1 * 2 ^ x.2) 0
    let cnt := (miss.filter id).length
    halt s 1 (a % 2 ^ 57) cnt map { type := 0x201, agent := 0x10000000 + e, aux := cnt, detail := a % 2 ^ 57 }
  | .noPage slot layer engine =>
    let s := s.freeze p (.noCachePage e) cyc
    let seq := match s.cset p with | some c => (s.seqEntry c slot).seqId | none => 0
    halt s 2 (slot + layer * 2 ^ 16 + engine * 2 ^ 32) 0 0
      { type := 0x202, agent := 0x10000000 + e, aux := engine, detail := seq + slot * 2 ^ 32 + layer * 2 ^ 48 }
  | _ => s

/-! ## Engines in flight -/

/-- The engine's action in flight. -/
def State.streamFlight (s : State) (e : Nat) : Option Flight :=
  let r := s.srec e
  if r.state = 0 then none else lookupBy (fun f => f.agent == 0x10000000 + e && f.action == r.action) (s.part r.partition).flights

/-- The operands of an engine's action, from its record. -/
def State.streamOpnds (s : State) (e : Nat) : StreamDesc × Opnd × Opnd :=
  let r := s.srec e
  let x := s.part r.partition
  let d := StreamDesc.parse r.desc
  let m := x.imageOf r.formeId
  match m.binding (0x10000000 + e) with
  | some b => (d, opndOf m b r.iter d.srcKind d.src, opndOf m b r.iter d.dstKind d.dst)
  | none => (d, .bad, .bad)

/-- The stream positions of the bytes that an engine's staging holds between two commands: those whose way out of the engine, past the weirs of the
destination or along the direct path to its quad, is still to come (log entry 63). -/
def State.staged (s : State) (e : Nat) : Nat × Nat :=
  let r := s.srec e
  let (d, _, dst) := s.streamOpnds e
  let out := match dst with
    | .dev _ => s.bytesLeft (0x10000000 + e) 0 true
    | .core c _ => sumNat ((s.directPath (directKey e (bits c 5 2) true)).map (·.entries)) * (if d.transpose then 1280 else 2560) / 7
    | _ => 0
  ((r.position - out) / 8 * 8, r.position)

/-- ORIGIN 1 on a word in staging: it reaches the destination as poison (R517, R520). -/
def State.taintStaged (s : State) (e word : Nat) : State :=
  let (lo, hi) := s.staged e
  let q := lo + 8 * word
  if hi ≤ q then s else
  let (d, _, dst) := s.streamOpnds e
  let place (a : Nat) : Nat := ((d.pieces true a q (q + 8)).head?.map (·.1)).getD a
  match dst with
  | .dev a => s.devWrite (place a) (Run.tainted 1 (s.devRead (place a) 8).plain)
  | .core u a => s.write .core (coreAt u (place a)) (Run.tainted 1 (s.read .core (coreAt u (place a)) 8).plain)
  | _ => s

/-- The receiving action at the far end of a pipe: free space for the sender, or what stands against it (R341, R342). -/
inductive PipeSpace where
  | room (n : Nat)
  | wrong          -- the receiver names another engine, or bytes lie beyond its LENGTH
  | wait
  deriving DecidableEq, Repr

def State.pipeSpace (s : State) (sender receiver : Nat) : PipeSpace :=
  match s.streamFlight receiver with
  | none => .wait
  | some _ =>
    let (d, src, _) := s.streamOpnds receiver
    match src with
    | .pipe e =>
      if e ≠ sender then .wrong
      else if d.length ≤ tget 0 s.se.piped receiver then .wrong
      else
        let n := min (131072 - (tget [] s.se.pipes receiver).length) (d.length - tget 0 s.se.piped receiver)
        if n = 0 then .wait else .room n
    | _ => .wait

/-- Marks an engine as waiting for the other party of its pipe (R342); a frozen partition halts it at once (R348). -/
def State.pipeWait (s : State) (e other : Nat) (space : Bool) (d : StreamDesc) (src : Opnd) : State :=
  let r := s.srec e
  let act := match s.streamFlight other with | some f => f.action | none => 0xFFFF
  let s := s.setRec e { r with waiting := true, block := 0x10000000 + other, blockAction := act }
  match (s.part r.partition).frz with
  | .stopped _ => s.haltWaiting e space d src
  | _ => s

/-- The records of the engines that wait for one name the action now in flight there; its refusals begin anew (R341, R342). -/
def State.refreshWaits (s : State) (e : Nat) : State :=
  let act := match s.streamFlight e with | some f => f.action | none => 0xFFFF
  { s with se := { s.se with recs := s.se.recs.map (fun x =>
    if x.2.state = 1 && x.2.waiting && x.2.block = 0x10000000 + e then (x.1, { x.2 with blockAction := act, refused := 0 }) else x) } }

/-- A pipe buffer is emptied: what an action that has ended left in it is no data of the next one (R341). -/
def State.clearPipe (s : State) (e : Nat) : State :=
  { s with se := { s.se with pipes := tset [] s.se.pipes e [], piped := tset 0 s.se.piped e 0 } }

/-- Ends an action that a breach stops for good: it leaves the engine without a token (R275, R283). -/
def State.dropFlight (s : State) (p : Nat) (f : Flight) : State :=
  let s := s.modPart p (fun x => ({ x with flights := x.flights.erase f }).settleFill x.cycle)
  if agKind f.agent = 1 then (s.clearPipe (agNum f.agent)).refreshWaits (agNum f.agent) else s

/-- The stream engines of a partition that have a record. -/
def State.streamsOf (s : State) (p : Nat) : List Nat := (s.se.recs.filter (fun r => r.2.partition == p)).map (·.1)

/-- A waiting engine halts (R348). -/
def State.haltWaiter (s : State) (e : Nat) : State :=
  if (s.srec e).state = 1 && (s.srec e).waiting then
    let (d, src, dst) := s.streamOpnds e
    let space := match dst with
      | .pipe o => (match s.pipeSpace e o with | .room _ => false | _ => true)
      | _ => false
    s.haltWaiting e space d src
  else s

/-- Halts every waiting stream of a stopped partition (R348). -/
def State.haltWaiters (s : State) (p : Nat) : State := (s.streamsOf p).foldl State.haltWaiter s

/-- The due positions of halts that came before the boundary, from the boundary at which the partition stopped (R351). -/
def State.settleDue (s : State) (p : Nat) : State :=
  (s.streamsOf p).foldl (fun s e =>
    let r := s.srec e
    if r.state = 2 then
      let (d, src, _) := s.streamOpnds e
      let due := dueOf d.length (s.part p).boundary r.issue d.pace (srcUnit src)
      s.setRec e { r with due := due, dueAt := due }
    else s) s

/-- A restarted stream that halts again before its due position stops the partition again: no thaw takes place, and the others halt where
they wait (R353). -/
def State.stopAgain (s : State) (p : Nat) : State := match (s.part p).frz with
  | .thawing b =>
    if (s.streamsOf p).any (fun e => let r := s.srec e; r.state == 2 && r.thawing && decide (r.position < r.dueAt)) then
      let s := s.modPart p (fun x => { x with frz := .stopped b })
      let s := (s.streamsOf p).foldl (fun s e => s.setRec e { s.srec e with thawing := false }) s
      (s.postWanted p).haltWaiters p
    else s
  | _ => s

/-- The other party of the pipe at which an engine's action is stopped, if it is: it has no space there, or no data for its next write (R341,
R342, R346). -/
def State.blockedAt (s : State) (e : Nat) : Option Nat :=
  let (d, src, dst) := s.streamOpnds e
  let least := match dst with | .append cs _ _ _ => (s.cacheSetAt (s.srec e).partition cs).tokenBytes | _ => 1
  let dry := match src with
    | .pipe o => if (tget [] s.se.pipes e).length < min least (d.length - (s.srec e).position) then some o else none
    | _ => none
  match dst with
  | .pipe o => match s.pipeSpace e o with | .room _ => dry | _ => some o
  | _ => dry

/-- The engines that wait for an engine at their pipes. -/
def State.waitersOf (s : State) (e : Nat) : List Nat :=
  (s.se.recs.filter (fun x => x.2.state == 1 && x.2.waiting && x.2.block == 0x10000000 + e)).map (·.1)

/-- Moves an engine's COPY as far as its pipes and pages let it; the flag says whether it moved. -/
def State.moveStream (s : State) (e cyc : Nat) : Bool × State :=
  let r := s.srec e
  match s.streamFlight e with
  | none => (false, s)
  | some f =>
    let (d, src, dst) := s.streamOpnds e
    let w : Who := { p := r.partition, cyc := cyc, agent := 0x10000000 + e, action := r.action }
    if r.state ≠ 1 || r.kindOp ≠ 0x40 || d.length ≤ r.position then (false, s) else
    -- no request goes to host memory in D3hot or without Bus Master Enable (R395, R396)
    if (isHostAddr src || isHostAddr dst) && !s.hostUp then (false, s) else
    let avail := match src with
      | .pipe _ => min (d.length - r.position) (tget [] s.se.pipes e).length
      | _ => d.length - r.position
    let space := match dst with | .pipe o => s.pipeSpace e o | _ => .room (d.length - r.position)
    let pipeOther := match src with | .pipe o => o | _ => 0
    match space with
    | .wrong =>
      let o := match dst with | .pipe o => o | _ => 0
      let act := match s.streamFlight o with | some g => g.action | none => 0xFFFF
      let s := if r.refused = act + 1 then s
        else (s.breach r.partition cyc (BreachInfo.collision (0x10000000 + o) act 0 (some (0x10000000 + e, r.action)))).setRec e { r with refused := act + 1 }
      (false, s.pipeWait e o true d src)
    | .wait => (false, s.pipeWait e (match dst with | .pipe o => o | _ => 0) true d src)
    | .room n =>
      if avail = 0 then (false, s.pipeWait e pipeOther false d src) else
      let (pos, m, s) :=
        if d.transpose then s.moveTransposed w d src dst d.blockFuel r.position
        else
          let (k, m, s) := s.moveLinear w d src dst (d.rows + 2) r.position (min n avail)
          (r.position + k, m, s)
      let s := s.setRec e { s.srec e with position := pos, waiting := false, block := 0, blockAction := 0xFFFF }
      let s := (s.askSides w d src dst r.position pos).sendFields w d src dst r.position pos
      match m with
      | .all =>
        -- an append whose pipe holds less than a token waits for data
        if pos = r.position then (false, s.pipeWait e pipeOther false d src) else (true, s)
      | .parked engine =>
        let s := s.breach r.partition cyc (BreachInfo.collision w.agent w.action (resNme engine) none)
        (true, (s.setRec e { s.srec e with state := 0 }).dropFlight r.partition f)
      | m => (true, s.haltStream e d src dst m cyc)

/-- The engines at the ends of an engine's pipes. -/
def State.pipePeers (s : State) (e : Nat) : List Nat :=
  let (_, src, dst) := s.streamOpnds e
  (match src with | .pipe o => [o] | _ => []) ++ (match dst with | .pipe o => [o] | _ => [])

/-- Moves a list of engines, and the peers of each one that moved, until none moves. -/
def State.pump (cyc : Nat) : Nat → List Nat → State → State
  | 0, _, s => s
  | _, [], s => s
  | fuel + 1, e :: rest, s =>
    let (moved, s) := s.moveStream e cyc
    State.pump cyc fuel (if moved then rest ++ s.pipePeers e ++ [e] else rest) s

/-- Enough turns for every byte of the streams joined by pipes. -/
def State.pumpFuel (s : State) : Nat := 64 + 4 * sumNat (s.se.recs.map (fun x => x.2.length))

/-! ## PARK and UNPARK (R344, R345) -/

/-- The engine entry and page-table entry that a cache-page operand names. Its position among the NG engines of the group is
not given by the operand (log entry 10). -/
def State.pageEntry (s : State) (c : CacheSet) (slot layer index : Nat) : Nat × Nat :=
  let q := Config.pagePosition slot layer index % c.ng
  let i := slot % c.cg * c.ng + q
  (i, c.cptEntry (s.cacheEng c i) slot layer index)

/-- Moves a page between a stack page and board memory, from the record's position on. -/
def State.movePage (s : State) (e cyc : Nat) (src dst : Opnd) : Moved × State :=
  let r := s.srec e
  let d := StreamDesc.parse r.desc
  let w : Who := { p := r.partition, cyc := cyc, agent := 0x10000000 + e, action := r.action }
  let (k, m, s) := s.moveLinear w d src dst 3 r.position (d.length - r.position)
  (m, (s.setRec e { s.srec e with position := r.position + k }).askSides w d src dst r.position (r.position + k))

/-- PARK from its record's position: the entry turns PARKED and firmware gives the stack page back. -/
def State.runPark (s : State) (e cyc : Nat) (cs slot layer index board : Nat) (f : Flight) : State :=
  let r := s.srec e
  let c := s.cacheSetAt r.partition cs
  let (i, ea) := s.pageEntry c slot layer index
  let wd := s.fwRead ea 8
  if !pteValid wd || pteParked wd then
    let s := s.breach r.partition cyc (BreachInfo.collision (0x10000000 + e) r.action (resNme (s.cacheEng c i).engine) none)
    (s.setRec e { s.srec e with state := 0 }).dropFlight r.partition f
  else
    match s.movePage e cyc (.dev (pteAddr wd)) (.dev board) with
    | (.all, s) => (s.fwWrite ea 8 (mkPte true board)).givePage c i (pteAddr wd)
    | (m, s) => s.haltStream e (StreamDesc.parse r.desc) (.dev (pteAddr wd)) (.dev board) m cyc

/-- UNPARK: a stack page from the ring takes the parked bytes. -/
def State.runUnpark (s : State) (e cyc : Nat) (cs slot layer index : Nat) (f : Flight) : State :=
  let r := s.srec e
  let c := s.cacheSetAt r.partition cs
  let (i, ea) := s.pageEntry c slot layer index
  let wd := s.fwRead ea 8
  if !pteParked wd || !pteValid wd then
    let s := s.breach r.partition cyc (BreachInfo.collision (0x10000000 + e) r.action (resNme (s.cacheEng c i).engine) none)
    (s.setRec e { s.srec e with state := 0 }).dropFlight r.partition f
  else
    let d := StreamDesc.parse r.desc
    let board := Opnd.dev (pteAddr wd)
    if s.access r.partition (pteAddr wd) = .absent then s.haltStream e d board .none (.absent (pteAddr wd) false) cyc
    else match s.takePage (s.cacheEng c i) with
      | none => s.haltStream e d board .none (.noPage slot layer (s.cacheEng c i).engine) cyc
      | some (pg, s) =>
        let (_, s) := s.movePage e cyc board (.dev (pteAddr pg))
        s.fwWrite ea 8 (mkPte false pg)

/-- Runs an engine's action from its record's position; whoever waits for it tries again (R341). -/
def State.runStream (s : State) (e cyc : Nat) : State :=
  let r := s.srec e
  match s.streamFlight e with
  | none => s
  | some f =>
    let (_, src, dst) := s.streamOpnds e
    (match r.kindOp, src, dst with
    | 0x41, .page cs sl l i, .dev a => s.runPark e cyc cs sl l i a f
    | 0x42, .page cs sl l i, _ => s.runUnpark e cyc cs sl l i f
    | _, _, _ => s.pump cyc s.pumpFuel (e :: s.waitersOf e ++ s.pipePeers e ++ [e])).stopAgain r.partition

/-! ## Issue -/

/-- The issue of a stream action: its checks, its record, then its bytes. -/
def State.issueStream (s : State) (op p a : Nat) : State :=
  match issueCtx s op p a with
  | none => s
  | some c =>
    let s := s.toCycle p c.point
    let e := agNum a
    let x := s.part p
    match x.image.descOf c.bind c.r.arg 64 with
    | none => s.issueAction c false none [] id
    | some b =>
      let d := StreamDesc.parse b
      let src := opndOf x.image c.bind c.iter d.srcKind d.src
      let dst := opndOf x.image c.bind c.iter d.dstKind d.dst
      let busy := (lookupBy (fun f => f.agent == a) x.flights).map (fun f => (a, f.action))
      let names := d.resources src dst
      s.issueAction c (s.streamValid p e op d src dst) busy names (fun s =>
        let s := s.addFlight p (flightOf c d.opId names)
        let s := s.setRec e
          { StreamRec.zero with
            state := 1, partition := p, formeId := x.cur, opId := d.opId, action := c.idx, epoch := c.epoch, length := d.length,
            blockAction := 0xFFFF, desc := b, kindOp := op, iter := c.iter, issue := c.point }
        ((s.clearPipe e).refreshWaits e).runStream e c.point)

/-- STREAM_COPY (R332): moves rows between operands. -/
def execStreamCopy (p a : Nat) (s : State) : Out := .next (s.issueStream 0x40 p a)
/-- PARK (R344): a cache page goes to board memory. -/
def execPark (p a : Nat) (s : State) : Out := .next (s.issueStream 0x41 p a)
/-- UNPARK (R345): a parked page comes back to a stack page. -/
def execUnpark (p a : Nat) (s : State) : Out := .next (s.issueStream 0x42 p a)

end Sys2Proof.Machine
end

