-- ==== Sys2Proof/Machine/RunEvents.lean ====
section
/-! DEFINITION. Events of a running forme (chapter 03): completion, deadlines, freeze and thaw, rendezvous, fill items, the end of
a run, the grace period of an exhausted cache (chapter 09). A command whose event does not come about changes nothing (log entry 1); one whose moment is still to come lets time pass to it
(log entry 2). -/
namespace Sys2Proof.Machine

open Sys2Proof

/-- A change of a partition's state is advertised (R412). -/
def State.setStat (s : State) (p : Nat) (st : PStat) : State := (s.modPart p (fun x => { x with status := st })).advertise

/-! ## Completion of actions -/

/-- Whether a flight can complete now: a stream has moved its last byte, a drain's last transaction is applied (R217, R339). -/
def State.flightDone (s : State) (f : Flight) : Bool :=
  f.pending = 0 &&
    (if agKind f.agent = 1 then
      let r := s.srec (agNum f.agent)
      r.state = 1 && r.length ≤ r.position
     else true)

/-- ACTION_COMPLETE (R77): the action releases its resources and its token goes to the consumer. A stream that a thaw left in
motion moves first, and a stream has left its weirs (R336) and the direct paths of its field (R52); it never leaves a weir without a cell. So do the requests of a channel update unit (R314). An action whose flit a
full FIFO holds waits (R53). -/
def execActionComplete (p a r : Nat) (s : State) : Out :=
  let x := s.part p
  .next (match lookupBy (fun f => f.agent == a && f.action == r) x.flights with
    | none => s
    | some f =>
      if f.opcode ≥ 0x80 then s else
      let e := agNum a
      let s := if agKind a = 1 && (s.srec e).state = 1 && !(s.srec e).waiting && (s.srec e).position < (s.srec e).length
        then s.runStream e x.cycle else s
      match lookupBy (fun f => f.agent == a && f.action == r) (s.part p).flights with
      | none => s
      | some f =>
        match s.flightDone f, if agKind a = 1 then s.streamLeft a else if agKind a = 3 then s.weirsLeft a else if f.ready < never then some f.ready else none with
        | true, some t =>
          let s := s.toClk (max t f.ready)
          if s.flitHeld p a then s
          else if agKind a = 1 then ((s.setRec e { s.srec e with state := 0 }).finish p f).refreshWaits e
          else if 0x60 ≤ f.opcode && f.opcode ≤ 0x63 then ({ s with updating := tset none s.updating (engOfAgent a) none } : State).finish p f
          else s.finish p f
        | _, _ => s)

/-! ## Deadlines (R77) -/

/-- DEADLINE_REACHED (R77): a counter below COUNT at its deadline is a LATE_TOKEN breach, and its record is not issued. -/
def execDeadlineReached (p tok : Nat) (s : State) : Out :=
  let x := s.part p
  let t := x.image.token tok
  .next (if p ≥ 8 || x.image.tokens ≤ tok then s else
    match x.ctx p t.consumer with
    | none => s
    | some c =>
      match x.awaits c tok with
      | none => s
      | some (k, base) =>
        let dl := (base + bits t.deadline 31 8) * 256 + bits t.deadline 7 0
        let late := ((x.seqr t.consumer).map (fun q => q.late.contains tok)).getD true
        if s.openAt p dl && !late && tget 0 x.toks tok < t.count then (s.toCycle p dl).lateToken p tok k dl else s)

/-- SLOT_LIMIT (R60): a run that would begin slot 2^40 records the breach at that boundary. DESIGN CHOICE (log entry 53): AGENT_A is the
control complex, and the SLOT field, 40 bits wide, reads 0. -/
def execSlotLimit (p : Nat) (s : State) : Out :=
  let x := s.part p
  .next (if p < 8 && !x.slotLimited && s.openAt p (2 ^ 48) then
      ((s.toCycle p (2 ^ 48)).modPart p (fun x => { x with slotLimited := true })).breach p (2 ^ 48)
        { cls := 7, agentA := ccAgent, actionA := 0xFFFF, other := none, resource := 0, token := 0xFFFF, seen := 0, detail := 0,
          poisoned := false }
    else s)

/-! ## Freeze and thaw (R82 to R87) -/

/-- FREEZE_BOUNDARY (R82, R379): issue and the counters stop; link actions in flight are detached. -/
def execFreezeBoundary (p : Nat) (s : State) : Out :=
  let x := s.part p
  .next (match x.frz with
    | .pending b =>
      if p < 8 && x.status = .running then
        let s := s.toCycle p b
        let x := s.part p
        let s := s.setPart p { x with frz := .stopped b, elapsed := b * x.period,
                                      flights := x.flights.map (fun f => if f.opcode ≥ 0x80 then { f with detached := true } else f) }
        (((s.settleDue p).post 2 (some p) ccAgent 0 (b / 256 % 2 ^ 40)).postWanted p).haltWaiters p
      else s
    | _ => s)

/-- Whether an action in flight counts as completed or halted for R84. -/
def State.settled (s : State) (f : Flight) : Bool := f.detached || (agKind f.agent = 1 && (s.srec (agNum f.agent)).state = 2)

/-- The last cycle in which an action of a partition has produced a NaN is over. -/
def State.nansMet (s : State) (p : Nat) : State := s.toClk ((s.part p).nans.foldl (fun t n => max t n.due) s.clk)

/-- PARTITION_FROZEN (R84): once nothing is in flight but halted streams and detached link actions. -/
def execPartitionFrozen (p : Nat) (s : State) : Out :=
  let x := s.part p
  .next (match x.status, x.frz with
    | .running, .stopped _ => if p < 8 && x.flights.all s.settled then (s.nansMet p).setStat p .frozen else s
    | _, _ => s)

/-- Whether a stream holds up the thaw: one that CONTINUE has restarted and that lies before its due position (R352). -/
def StreamRec.reached (r : StreamRec) : Bool := !r.thawing || r.state == 0 || decide (r.dueAt ≤ r.position)

/-- STREAM_DUE_REACHED (R352, R353): a restarted stream moves on; where it halts again before its due position, or waits and so halts under
R348, the partition stops again. -/
def execStreamDueReached (e : Nat) (s : State) : Out :=
  let r := s.srec e
  let p := r.partition
  .next (match (s.part p).frz with
    | .thawing _ =>
      if r.state = 1 && !r.reached then
        let s := s.runStream e (s.part p).cycle
        if (s.srec e).reached then s else (s.haltWaiter e).stopAgain p
      else s
    | _ => s)

/-- THAW (R87, R91): the counters resume and issue goes on at the slot that follows the freeze boundary. Causes that have arisen since
CONTINUE freeze the partition again. -/
def execThaw (p : Nat) (s : State) : Out :=
  let x := s.part p
  .next (match x.status, x.frz with
    | .running, .thawing b =>
      if p < 8 && (s.streamsOf p).all (fun e => (s.srec e).reached) then
        let s := s.setPart p { x with
          frz := if x.causes.isEmpty then .no else .pending (freezeBoundaryOf b), rvAt := x.rvAt.map (fun t => max t (b - 127)),
          wdAgain := false, wdRun := if x.wdAgain then x.wdRun.map (fun _ => 0) else x.wdRun,
          wdLimit := if x.wdAgain then s.watchdog p else x.wdLimit,
          flights := x.flights.map (fun f => { f with detached := false }) }
        let s := (s.streamsOf p).foldl (fun s e => s.setRec e { s.srec e with thawing := false }) s
        s.post 3 (some p) ccAgent 0 (b / 256 % 2 ^ 40)
      else s
    | _, _ => s)

/-! ## Rendezvous and watchdog (R88 to R91) -/

/-- The boundary at which the conditions that have held since `rvAt` release a rendezvous (R89). -/
def releaseCycle (since : Nat) : Nat := cdiv (since + 128) 256 * 256

/-- Takes ARRIVALS from the named ports, in ascending port order, each emptied before the next (R378). -/
def takeArrivals (arr : Tab Nat) (ports : Nat) : Nat → List Nat → Tab Nat
  | _, [] => arr
  | need, q :: rest =>
    if bit ports q then
      let k := min need (tget 0 arr q)
      takeArrivals (tset 0 arr q (tget 0 arr q - k)) ports (need - k) rest
    else takeArrivals arr ports need rest

/-- RENDEZVOUS_RELEASE (R89): a new epoch begins at the release boundary. -/
def execRendezvousRelease (p : Nat) (s : State) : Out :=
  let x := s.part p
  .next (match x.rvAt with
    | some t =>
      let b := releaseCycle t
      if p < 8 && x.allWaiting && x.arrivalsOk && x.fillCur.isNone && s.openAt p b then
        let s := s.toCycle p b
        let x := s.part p
        let (ports, need) := x.image.rv x.rvEntry
        s.setPart p { x with
          epochSlot := b / 256, epochVal := x.rvEntry + 1, rvAt := none, wdRun := none,
          arrivals := takeArrivals x.arrivals ports need (upTo 18),
          seqs := x.seqs.map (fun q => { q with
            waiting := false, pc := q.pc + 1, last := b, loops := q.loops.map (fun f => { f with base := b / 256 }) }) }
      else s
    | none => s)

/-- Clock units until the rendezvous watchdog expires, while it can (R90): arrivals that are complete come first. -/
def Part.wdLeft (x : Part) : Option Nat :=
  let running := x.status = .running && (match x.frz with | .no | .pending _ => true | _ => false)
  if running && x.wdLimit ≠ 0 && !x.arrivalsOk && !x.causes.contains .watchdog then x.wdRun.map (fun t => x.wdLimit * 1000 * unitsPerNs - t) else none

/-- The watchdog has expired: its event, and the freeze. -/
def State.expire (s : State) (p : Nat) : State := (s.post 4 (some p) ccAgent 0 (s.part p).rvEntry).freeze p .watchdog (s.part p).cycle

/-- A watchdog that is due comes ahead of an arrival of the same cycle (Table 14-4, R436). -/
def State.expireDue (s : State) (p : Nat) : State := if (s.part p).wdLeft = some 0 then s.expire p else s

/-- WATCHDOG_EXPIRY (R90): unless the arrivals are complete, the expiry freezes the partition. -/
def execWatchdogExpiry (p : Nat) (s : State) : Out :=
  let x := s.part p
  .next (match x.wdLeft with
    | some d => if p < 8 && d ≤ x.later d - x.elapsed then (s.pass d).expire p else s
    | none => s)

/-! ## Fill items and the end of a run (R92, R93) -/

/-- Index of the FILL record of an item in a program. -/
def fillRecord (prog : List ARec) (item : Nat) : Option Nat :=
  (upTo prog.length).find? (fun k => match prog[k]? with | some r => r.opcode == 4 && bits r.arg 11 0 == item | none => false)

/-- FILL_ITEM_START (R92): the next item starts at a slot boundary while the partition waits, once its gate is complete. -/
def execFillItemStart (p : Nat) (s : State) : Out :=
  let x := s.part p
  let i := x.fillNext
  let (gate, _) := x.image.fillEntry i
  let gateOk := gate = 0xFFFF || (x.image.token gate).count ≤ tget 0 x.toks gate
  let st := cdiv x.cycle 256
  .next (if p < 8 && x.fillCur.isNone && i < x.image.fills && gateOk && (x.allWaiting && !x.arrivalsOk || x.allEnded) &&
      s.openAt p (st * 256) then
    let s := s.toCycle p (st * 256)
    let x := s.part p
    let seqs := x.seqs.map (fun q =>
      match (x.image.binding q.agent).bind (fun b => fillRecord (x.image.program b) i) with
      | some k => { q with last := max q.last (st * 256), fill := some { item := i, pc := k, loops := [], done := false } }
      | none => q)
    s.setPart p (({ x with fillCur := some (i, st), fillLate := false, seqs := seqs,
                           toks := if gate = 0xFFFF then x.toks else tset 0 x.toks gate 0 }).settleFill (st * 256))
  else s)

/-- FILL_OVERRUN (R92): an item that has not ended within WORST slots of its start. DESIGN CHOICE (log entry 53): AGENT_A is the control
complex and ACTION_A 0xFFFF. -/
def execFillOverrun (p : Nat) (s : State) : Out :=
  let x := s.part p
  .next (match x.fillCur with
    | some (i, st) =>
      let lim := (st + (x.image.fillEntry i).2) * 256
      if p < 8 && !x.fillLate && s.openAt p lim then
        ((s.toCycle p lim).modPart p (fun x => { x with fillLate := true })).breach p lim
          { cls := 8, agentA := ccAgent, actionA := 0xFFFF, other := none, resource := 0, token := 0xFFFF, seen := 0, detail := 0,
            poisoned := false }
      else s
    | none => s)

/-- Serves the queued cache requests of a partition, leaves before joins (Table 09-14), each with its completion. -/
def State.serveCacheQueue (s : State) (p : Nat) : State :=
  let q := (s.part p).cacheQ
  let s := s.modPart p (fun x => { x with cacheQ := [] })
  match s.cset p with
  | none => s
  | some c =>
    let s := (q.filter (·.leave)).foldl (fun s r =>
      if (s.seqEntry c r.slot).state = 0 then s.complete r.ring r.tag r.stamp p stRefused 0x646 0 0
      else ((s.leaveSlot c r.slot).notHeld p r.slot).complete r.ring r.tag r.stamp p stOK 0 0 0) s
    (q.filter (fun r => !r.leave)).foldl (fun s r =>
      if (s.seqEntry c r.slot).state ≠ 0 then s.complete r.ring r.tag r.stamp p stRefused 0x645 0 0
      else ((s.joinSlot c r.slot r.seqId).notHeld p r.slot).complete r.ring r.tag r.stamp p stOK 0 0 0) s

/-- An action that is still in flight when its run completes: it goes on to its own completion, holding what it holds (R73, R93), and its token
reaches no consumer. -/
def Flight.outlive (f : Flight) : Flight := { f with tokOut := 0xFFFF, fill := none, issue := f.issue + runSpan }

/-- The link actions of a partition outlive its run. -/
def State.outliveLinks (s : State) (p : Nat) : State :=
  { s with lnk := { s.lnk with
      msgs := s.lnk.msgs.map (fun m => if m.partition = p then { m with issue := m.issue + runSpan } else m)
      colls := s.lnk.colls.map (fun c => if c.partition = p then { c with issue := c.issue + runSpan } else c)
      writes := s.lnk.writes.map (fun w => if w.partition = p then { w with issue := w.issue + runSpan } else w) } }

/-- The partition returns to IDLE with no run, and its SWITCH completes (R93, R86, R292). -/
def State.endRun (s : State) (p status reason value detail : Nat) : State :=
  let x := s.part p
  let s := s.outliveLinks p
  let s := s.setPart p { x with
    status := .idle, frz := .no, cur := 0, image := [], lastImage := x.image, seqs := [], toks := [], tokArr := [], tokSent := [],
    flights := x.flights.map Flight.outlive, nans := x.nans.map (fun n => { n with issue := n.issue + runSpan }), causes := [], wdAgain := false, wanted := [], writes := [], rvAt := none, wdRun := none, fillCur := none, fillLate := false, ended := none, grace := none,
    spans := [], elapsed := 0, epochSlot := 0, epochVal := 0 }
  ((s.complete x.swRing x.swTag x.swStamp p status reason value detail).advertise).serveCacheQueue p

/-- RUN_COMPLETE (R93): at the slot boundary after the last END, with no item left. An action in flight then does not hold it up. -/
def execRunComplete (p : Nat) (s : State) : Out :=
  let x := s.part p
  .next (match x.ended with
    | some t =>
      let b := (t / 256 + 1) * 256
      if p < 8 && x.allEnded && x.fillCur.isNone && x.image.fills ≤ x.fillNext && s.openAt p b then
        let s := s.toCycle p b
        let steps := x.seqs.foldl (fun m q => max m q.steps) 0
        (s.modPart p (fun x => { x with lastSteps := steps, abandoned := false })).endRun p stOK 0 (b / 256) 0
      else s
    | none => s)

/-! ## Abandon (R86, R204, R354, R378, R379) -/

/-- Cores, galleys and streams of the fields of a mask. -/
def fieldList (mask : Nat) : List Nat := (upTo 16).filter (bit mask)

/-- Zeroes the galleys of a field's cores and clears their poison and chunk counts. -/
def State.zeroGalleys (s : State) (f : Nat) : State :=
  { s with data := { s.data with
      galley := tclear s.data.galley (galElem (f * 64) 0 0 0) (64 * 2 * 128 * 192),
      galleyN := tclear s.data.galleyN (galKey (f * 64) 0) 128, galleyP := tclear s.data.galleyP (galKey (f * 64) 0) 128 } }

/-- Ends every link action of a partition: bytes not yet sent are never sent (R379), and those held at a weir never pass it. -/
def State.endLinks (s : State) (p : Nat) : State :=
  let s := s.dropHeld (fun o r => o == p && agKind r.agent == 4)
  { s with lnk := { s.lnk with
      msgs := s.lnk.msgs.filter (fun m => m.partition != p), colls := s.lnk.colls.filter (fun c => c.partition != p)
      writes := s.lnk.writes.filter (fun w => w.partition != p) } }

/-- No action of a partition is in flight any more, and none produces a NaN. -/
def State.endFlights (s : State) (p : Nat) : State := s.modPart p (fun x => { x with flights := [], nans := [] })

/-- What ABANDON does to the partition's engines. -/
def State.abandonEngines (s : State) (p : Nat) : State :=
  let s := (fieldList (s.lay p).fields).foldl (fun s f => s.zeroGalleys f) s
  let s := (s.streamsOf p).foldl (fun s e => s.setRec e { s.srec e with state := 0, cause := 0, thawing := false }) s
  let es := s.streamsOf p
  let s := s.dropHeld (fun _ r => agKind r.agent == 1 && es.contains (agNum r.agent))
  let s := (es.foldl State.clearPipe s).dropDirect es.contains
  let s := { s with accq := s.accq.filter (fun w => w.partition != p) }
  (s.clearTags p).endLinks p

/-- Ends a run by ABANDON with a completion status of its own. -/
def State.abandonRun (s : State) (p status reason detail : Nat) : State :=
  let x := s.part p
  let s := (s.abandonEngines p).giveAll
  let s := (s.modPart p (fun x => { x with arrivals := [], abandoned := true })).endFlights p
  s.endRun p status reason x.slot detail

/-- The end of the run whose cache was exhausted (R292). -/
def State.graceEnd (s : State) (p seq slot : Nat) : State :=
  let s := match s.cset p with
    | some c =>
      let s := s.clearPending c
      s.putSeq c slot { s.seqEntry c slot with state := 3 }
    | none => s
  s.abandonRun p stAborted 0x640 (seq + slot * 2 ^ 32)

/-- A queued command waits behind a command of its ring that has begun and completes at an event still to come, such as the SWITCH of a run
(R407). -/
def State.fencedIn (s : State) (c : Cmd) : Bool :=
  bit (byteAt c.bytes 9) 0 && (s.hif.history.takeWhile (fun h => h.stamp != c.stamp)).any (fun h => h.ring == c.ring && h.left != 0 && h.st != .queued)

/-- A RESUME of a partition, stamped before the grace period ends, can begin once the commands before it have: it comes first (R291). One that
stands behind a FENCE which the end of a run must open is not accepted in time (R290). -/
def State.resumeWaits (s : State) (p t : Nat) : Bool :=
  (s.hif.queue.takeWhile (fun c => !s.fencedIn c)).any (fun c => byteAt c.bytes 0 == 0x15 && bits (byteAt c.bytes 8) 2 0 == p && decide (c.time < t))

/-- GRACE_EXPIRY (R290 to R292): firmware ends the run and the named slot becomes STOPPED. -/
def execGraceExpiry (p : Nat) (s : State) : Out :=
  let x := s.part p
  .next (match x.grace, x.status with
    | some (t, seq, slot), .frozen => if p < 8 && !s.resumeWaits p t then (s.toTime t).graceEnd p seq slot else s
    | _, _ => s)

end Sys2Proof.Machine
end

