-- ==== Sys2Proof/Machine/HostQueue.lean ====
section
/-! DEFINITION. Command descriptors, their validity, the order in which commands begin, and ABORT's decision at its stamp
(chapter 13). -/
namespace Sys2Proof.Machine

open Sys2Proof

/-! ## Descriptors (Tables 13-3 and 13-6) -/

def Cmd.op (c : Cmd) : Nat := byteAt c.bytes 0
def Cmd.cont (c : Cmd) : Nat := byteAt c.bytes 1
def Cmd.inlineLen (c : Cmd) : Nat := fld c.bytes 2 2
def Cmd.part (c : Cmd) : Nat := bits (byteAt c.bytes 8) 2 0
def Cmd.fence (c : Cmd) : Bool := bit (byteAt c.bytes 9) 0
/-- A field of OPERANDS, and of the inline payload. -/
def Cmd.opnd (c : Cmd) (off n : Nat) : Nat := fld c.bytes (0x10 + off) n
def Cmd.inl (c : Cmd) (off n : Nat) : Nat := fld c.bytes (64 + off) n

/-- Every byte of OPERANDS outside the named ranges is zero (log entry 17). -/
def Cmd.only (c : Cmd) (named : List (Nat × Nat)) : Bool :=
  (upTo 48).all (fun k => named.any (fun r => decide (r.1 ≤ k) && decide (k < r.1 + r.2)) || c.opnd k 1 == 0)

/-- The entries of a SWITCH: partition and FORME_ID. -/
def Cmd.entries (c : Cmd) : List (Nat × Nat) := (upTo (c.inlineLen / 8)).map (fun k => (c.inl (8 * k) 1, c.inl (8 * k + 4) 4))

/-- The operands of each command lie within the ranges it allows (R415, R416). -/
def Cmd.operandsOk (c : Cmd) : Bool :=
  let inline' := c.only []
  match c.op with
  | 0x00 => c.only []
  | 0x01 => c.only [(0, 1), (4, 4)] && decide (c.opnd 0 1 < 64)
  | 0x02 | 0x15 => c.only [(0, 1)] && decide (c.opnd 0 1 ≤ 1)
  | 0x03 | 0x04 => c.only [(0, 4), (4, 1), (8, 8)] && (c.opnd 4 1 == 4 || c.opnd 4 1 == 8)
  | 0x10 => c.only [(0, 8)] && c.opnd 0 8 % 16 == 0
  | 0x11 => c.only [(0, 8), (8, 4)] && c.opnd 0 8 % 16 == 0
  | 0x12 | 0x13 => c.only [(0, 4)]
  | 0x14 => inline' && c.inlineLen % 8 == 0 && decide (8 ≤ c.inlineLen) && decide (c.inlineLen ≤ 64) &&
      (upTo (c.inlineLen / 8)).all (fun k => decide (c.inl (8 * k) 1 < 8) && c.inl (8 * k + 1) 3 == 0)
  | 0x20 => c.only [(0, 16)] && c.opnd 3 1 == 0 && bits (c.opnd 1 1) 7 2 == 0
  | 0x21 => c.only [(0, 8)] && c.opnd 0 8 % 16 == 0
  | 0x22 => c.only [(0, 8), (8, 8), (16, 1)] && c.opnd 8 8 % pageBytes == 0 && (c.opnd 8 8 == 0 || decide (hostBase ≤ c.opnd 0 8)) &&
      decide (c.opnd 16 1 ≤ 1)
  | 0x23 => c.only [(0, 8)]
  | 0x24 => c.only [(0, 8), (8, 8), (16, 4), (20, 1)] && c.opnd 0 8 % 16 == 0 && c.opnd 8 8 % 16 == 0 && c.opnd 16 4 % 16 == 0 &&
      decide (16 ≤ c.opnd 16 4) && decide (c.opnd 20 1 ≤ 2)
  | 0x25 => inline' && c.inlineLen == 88 && decide (c.inl 6 1 ≤ 2) && decide (c.inl 7 1 < 4) && c.inl 0x24 4 == 0 &&
      decide (1 ≤ c.inl 0x18 8) && c.inl 0x48 8 % 64 == 0 && (decide (c.inl 6 1 ≤ 1) || c.inl 0x38 8 == 0) &&
      (c.inl 6 1 == 0 || c.inl 0x40 8 == 0)
  | 0x30 => inline' && c.inlineLen == 8 && decide (c.inl 0 8 < 2 ^ 57)
  | 0x31 => inline' && decide (1 ≤ c.inl 2 2) && decide (c.inl 2 2 ≤ 30) && c.inlineLen == 4 + 8 * c.inl 2 2
  | 0x32 => inline' && c.inlineLen == 8 && c.inl 2 2 == 0
  | 0x33 => inline' && c.inlineLen == 2
  | 0x40 => inline'
  | _ => false

/-- A valid descriptor (R415); an opcode of no row of Table 13-5 is reserved. -/
def Cmd.valid (c : Cmd) : Bool :=
  bits (byteAt c.bytes 8) 7 3 == 0 && bits (byteAt c.bytes 9) 7 1 == 0 && zeroAt c.bytes 0xA 6 && decide (c.cont ≤ 4) &&
    decide (c.inlineLen ≤ 256) && c.cont == cdiv c.inlineLen 64 && c.operandsOk

def knownOp (op : Nat) : Bool :=
  decide (op ≤ 0x04) || (decide (0x10 ≤ op) && decide (op ≤ 0x15)) || (decide (0x20 ≤ op) && decide (op ≤ 0x25)) ||
    (decide (0x30 ≤ op) && decide (op ≤ 0x33)) || op == 0x40

/-- Whether a command is served in a part state (Table 13-5). -/
def servedIn (op : Nat) (st : PState) : Bool :=
  let halted := decide (op ≤ 1) || op == 3 || op == 4 || (decide (0x20 ≤ op) && decide (op ≤ 0x25)) || op == 0x40
  match st with
  | .ready => !(op == 0x14 || op == 0x15 || op == 0x31)
  | .run => true
  | .halted => halted
  | _ => false

/-- The commands that act on the partition of their descriptor. -/
def namesPart (op : Nat) : Bool :=
  op == 0x11 || op == 0x12 || op == 0x13 || op == 0x15 || op == 0x20 || op == 0x22 || op == 0x23 || op == 0x24 || op == 0x25 ||
    (decide (0x30 ≤ op) && decide (op ≤ 0x33))

/-- The reason that refuses a command whatever its effect: 0x0110, 0x0111, 0x0112, else 0 (R415). No SWITCH is served once a thermal
trip has begun (Table 16-5). -/
def State.cmdCode (s : State) (c : Cmd) : Nat :=
  if !c.valid then 0x110
  else if !servedIn c.op s.rst.state || (c.op == 0x14 && s.pwr.trip) then 0x111
  else if namesPart c.op && !s.defined c.part then 0x112
  else if c.op == 0x14 && c.entries.any (fun e => !s.defined e.1) then 0x112
  else 0

/-! ## Beginning and completing (R407, R408) -/

def Hist.isDone : Hist → Bool
  | .done _ => true
  | _ => false

/-- A fenced command waits until every earlier command of its ring has completed, a SWITCH in each of its partitions (R407). -/
def State.fenceOk (s : State) (c : Cmd) : Bool :=
  !c.fence || (s.hif.history.takeWhile (fun h => h.stamp != c.stamp)).all (fun h => h.ring != c.ring || h.left == 0)

/-- The command that begins next, if its opcode is asked for; a POWER in progress, of kind S, holds back every later one. -/
def State.front (s : State) (ops : Nat → Bool) : Option Cmd :=
  if s.pwr.cmd.isSome then none else
  match s.hif.queue with
  | c :: _ => if ops c.op && s.fenceOk c then some c else none
  | [] => none

/-- A command leaves the queue and runs. -/
def State.begun (s : State) (c : Cmd) : State :=
  { s with hif := { s.hif with
      queue := s.hif.queue.tail,
      history := s.hif.history.map (fun h => if h.stamp = c.stamp then { h with st := .running } else h) } }

def State.ok (s : State) (c : Cmd) (value : Nat) : State := s.complete c.ring c.tag c.stamp c.part stOK 0 value 0
/-- A refused command; PWR_STATUS keeps the last refusal reason of Table 16-6. -/
def State.deny (s : State) (c : Cmd) (reason : Nat) : State :=
  let s : State := if reason / 256 = 5 then { s with pwr := { s.pwr with reason := BitVec.ofNat 16 reason } } else s
  s.complete c.ring c.tag c.stamp c.part stRefused reason 0 0

/-- Completion records of a command (R408). -/
def Cmd.records (c : Cmd) : Nat := if c.op = 0x14 && c.valid then c.entries.length else 1

/-- One record for each partition that a SWITCH names (R408); an invalid one names none. -/
def State.completeAll (s : State) (c : Cmd) (status reason : Nat) : State :=
  if c.op = 0x14 && c.valid then c.entries.foldl (fun s e => s.complete c.ring c.tag c.stamp e.1 status reason 0 0) s
  else s.complete c.ring c.tag c.stamp c.part status reason 0 0

/-- Runs the command at the front when it is one of `ops`: refused under R415, or by its own effect. -/
def State.runCmd (s : State) (ops : Nat → Bool) (f : Cmd → State → State) : State :=
  match s.front ops with
  | none => s
  | some c => let r := s.cmdCode c
    if r = 0 then f c (s.begun c) else (s.begun c).deny c r

/-- The answer of a command with a reason code, 0 for OK: a refused command changes nothing. -/
def State.answer (s : State) (c : Cmd) (reason : Nat) (after : State) : State := if reason = 0 then after.ok c 0 else s.deny c reason

/-- The enable-refused event of a check that a command ran (R423). -/
def State.enableRefused (s : State) (reason offset : Nat) : State := s.post 0x404 none ccAgent reason offset

/-! ## Stamps (R98, R421) -/

/-- The image of a resident forme. -/
def Part.find (x : Part) (id : Nat) : Option Resident := lookupBy (fun r => r.id == id) x.resident

/-- The test of a SERVICE, enter or leave (R417). -/
def State.serviceCode (s : State) (enter : Bool) : Nat :=
  if enter then (if s.rst.state = .ready then 0 else 0x115)
  else if partNums.any (fun p => decide ((s.part p).status ≠ .idle)) then 0x116 else 0

/-- A command of kind S that the spec lets act at its stamp (R417) does so where no earlier one stands before it that has still to act (R407): those
of its ring that a FENCE waits for have completed, or have acted and only wait for their completion. DESIGN CHOICE (log entry 28): behind one that
has still to act it acts when it begins. -/
def State.actsNow (s : State) (c : Cmd) : Bool :=
  ([2, 3, 4] : List Nat).contains c.op && s.pwr.cmd.isNone && s.hif.queue.all (·.acted.isSome) &&
    (!c.fence || s.hif.history.all (fun h => h.ring != c.ring || h.left == 0 || s.hif.queue.any (fun q => q.stamp == h.stamp)))

/-- The tests of a SWITCH at its stamp. DESIGN CHOICE (log entry 60): a target that is not resident counts as 0 bytes; naming one partition
twice is refused with 0x0219; a SWITCH that will be refused with 0x0111 or 0x0112 when it begins counts as queued until then. -/
def State.switchTest (s : State) (c : Cmd) : Nat :=
  let es := c.entries
  let size := sumNat (es.map (fun e => ((s.part e.1).find e.2).elim 0 (fun r => r.image.length)))
  let ps := es.map (·.1)
  if maxSwitch < size then 0x218
  else if (dedup ps).length ≠ ps.length || ps.any (fun p => (s.hif.switches.any (fun w => !w.started && w.targets.any (fun t => t.1 == p))) ||
      (s.part p).status == .frozen || (s.part p).status == .starting) then 0x219
  else 0
where
  /-- The combined image size of a switch (R98). -/
  maxSwitch : Nat := 1048576

/-- The latest earlier command of a ring with a tag (R421). -/
def State.target (s : State) (ring tag stamp : Nat) : Option Past :=
  lookupBy (fun h => h.ring == ring && h.tag == tag) ((s.hif.history.takeWhile (fun h => h.stamp != stamp)).reverse)

/-- Removes a switch that has not started. -/
def State.dropSwitch (s : State) (stamp : Nat) : State :=
  { s with hif := { s.hif with switches := s.hif.switches.filter (fun w => w.stamp != stamp) } }

/-- ABORT's decision at its stamp, with what it does to the target (Table 13-10, R422). -/
def State.abortDecide (s : State) (c : Cmd) : State :=
  let put (s : State) (o : AbortOut) : State := { s with hif := { s.hif with aborts := s.hif.aborts ++ [(c.stamp, o)] } }
  let r := s.cmdCode c
  if r ≠ 0 then put s (.refused r) else
  match s.target (c.opnd 0 1) (c.opnd 4 4) c.stamp with
  | none => put s .notFound
  | some h =>
    if h.opcode = 1 then put s (.refused 0x113) else
    match h.st with
    | .done _ => put s (.after h.stamp)
    | .queued =>
      match lookupBy (fun t => t.stamp == h.stamp) s.hif.queue with
      | some t =>
        if t.acted.isSome then put s (.after h.stamp) else
        let s := { s with hif := { s.hif with queue := s.hif.queue.filter (fun t => t.stamp != h.stamp) } }
        put ((s.dropSwitch h.stamp).completeAll t stAborted 0) (.first h.stamp)
      | none => put s (.after h.stamp)
    | .running =>
      if h.opcode = 0x24 || h.opcode = 0x25 then
        put { s with hif := { s.hif with running := s.hif.running.map (fun b => if b.cmd.stamp = h.stamp then { b with aborted := true } else b) } }
          (.first h.stamp)
      else if h.opcode = 0x14 then
        match lookupBy (fun w => w.stamp == h.stamp && !w.started) s.hif.switches with
        | some w =>
          put (w.targets.foldl (fun s t => s.complete w.ring w.tag w.stamp t.1 stAborted 0 0 0) (s.dropSwitch h.stamp)) (.first h.stamp)
        | none => put s (.refused 0x114)
      else if h.opcode = 0x32 || h.opcode = 0x33 then
        let s := partNums.foldl (fun s p =>
          let q := (s.part p).cacheQ.filter (fun r => r.stamp == h.stamp)
          let s := s.modPart p (fun x => { x with cacheQ := x.cacheQ.filter (fun r => r.stamp != h.stamp) })
          q.foldl (fun s r => s.complete r.ring r.tag r.stamp p stAborted 0 0 0) s) s
        put s (.first h.stamp)
      else put s (.after h.stamp)

end Sys2Proof.Machine
end

