-- ==== Sys2Proof/Machine/HostInterface.lean ====
section
/-! DEFINITION. Rings, doorbells, the advert, interrupts, the enable check and BAR2 (chapter 13). -/
namespace Sys2Proof.Machine

open Sys2Proof

/-! ## Ring registers (Tables 13-15 and 13-16) -/

def Ring.valid (r : Ring) : Bool := r.ctl.getLsbD 31
def Ring.intOn (r : Ring) : Bool := r.ctl.getLsbD 27
def Ring.vector (r : Ring) : Nat := bits r.ctl.toNat 26 16
def Ring.cqOf (r : Ring) : Nat := bits r.ctl.toNat 21 16
def Ring.log2 (r : Ring) : Nat := bits r.ctl.toNat 4 0

/-- The ring with the registers of the basic area; before AREA is set, and from RINGS on, they read zero (R427; log entry 18). -/
def Ring.basic (r : Ring) (on : Bool) (base db ctl : Nat) : Ring :=
  if on then { r with base := BitVec.ofNat 64 base, db := BitVec.ofNat 64 db, ctl := BitVec.ofNat 32 ctl } else { r with base := 0, db := 0, ctl := 0 }

def State.basicOn (s : State) (i : Nat) : Bool := s.hif.area != 0 && decide (i < s.hif.rings.toNat)

/-- Command ring, completion ring and event ring in the view in force. -/
def State.crOf (s : State) (i : Nat) : Ring :=
  let r := tget Ring.zero s.hif.cr i
  let a := s.hif.area.toNat
  if s.hif.level then r else r.basic (s.basicOn i) (a + 0x1000 + i * 0x10000) (a + 16 * i) (2 ^ 31 + i * 2 ^ 16 + 10)
def State.cqOf (s : State) (j : Nat) : Ring :=
  let r := tget Ring.zero s.hif.cq j
  let a := s.hif.area.toNat
  if s.hif.level then r else r.basic (s.basicOn j) (a + 0x101000 + j * 0x8000) (a + 0x100 + 16 * j) (2 ^ 31 + 2 ^ 27 + j * 2 ^ 16 + 10)
def State.eqOf (s : State) : Ring :=
  let a := s.hif.area.toNat
  if s.hif.level then s.hif.eq else s.hif.eq.basic (s.hif.area != 0) (a + 0x181000) (a + 0x200) (2 ^ 31 + 2 ^ 27 + 16 * 2 ^ 16 + 12)
def State.advertAddr (s : State) : Nat :=
  if s.hif.level then s.hif.advert.toNat else if s.hif.area = 0 then 0 else s.hif.area.toNat + 0x240

/-- The 64 rings of each kind. -/
def ringNums : List Nat := upTo 64

def State.putCr (s : State) (i : Nat) (r : Ring) : State := { s with hif := { s.hif with cr := tset Ring.zero s.hif.cr i r } }
def State.putCq (s : State) (j : Nat) (r : Ring) : State := { s with hif := { s.hif with cq := tset Ring.zero s.hif.cq j r } }
def State.putEq (s : State) (r : Ring) : State := { s with hif := { s.hif with eq := r } }

/-- A change from the basic to the expert view keeps what the derived registers read (R12; log entry 18). -/
def State.hifLevel (s : State) (v : Bool) : State :=
  if v && !s.hif.level then
    let h := s.hif
    { s with hif := { h with
        level := true, advert := BitVec.ofNat 64 s.advertAddr, eq := s.eqOf,
        cr := ringNums.foldl (fun t i => tset Ring.zero t i (s.crOf i)) h.cr, cq := ringNums.foldl (fun t i => tset Ring.zero t i (s.cqOf i)) h.cq } }
  else { s with hif := { s.hif with level := v } }

/-! ## Records (Tables 13-2, 13-4, 13-7, 14-5) -/

/-- The host's words of a doorbell record: its index and, for a command ring, GEN. -/
def State.doorbell (s : State) (r : Ring) : Nat := leNat (s.hostRead r.db.toNat 6)
def dbIndex (d : Nat) : Nat := d % 2 ^ 32
def dbGen (d : Nat) : Nat := d / 2 ^ 32 % 2 ^ 16
/-- The part's words of a doorbell record. -/
def State.writeDb (s : State) (r : Ring) (reason : Nat) : State :=
  s.hostWrite (r.db.toNat + 8) (leBytes 4 r.idx.toNat ++ leBytes 2 (b2n r.stopped) ++ leBytes 2 reason)

/-- PHASE of an index (R408). -/
def phaseOf (r : Ring) : Nat := if r.idx.toNat / 2 ^ r.log2 % 2 = 0 then 1 else 0

def Compl.bytes (c : Compl) (phase : Nat) : List Byte :=
  leBytes 4 c.tag ++ leBytes 1 c.ring ++ leBytes 1 c.partition ++ leBytes 1 phase ++ leBytes 1 c.status ++ leBytes 2 c.reason ++ leBytes 2 0 ++
  leBytes 4 c.seq ++ leBytes 8 c.value ++ leBytes 8 c.detail

def Event.bytes (e : Event) (phase : Nat) : List Byte :=
  leBytes 4 e.seq ++ leBytes 2 e.type ++ leBytes 1 (phase + 2 * b2n e.part.isSome) ++ leBytes 1 (e.part.getD 0) ++ leBytes 8 e.time ++
  leBytes 4 e.source ++ leBytes 4 e.aux ++ leBytes 8 e.detail

/-- The code of a partition in the advert (Table 13-7). -/
def State.pstateCode (s : State) (p : Nat) : Nat :=
  if !s.defined p then 0 else match (s.part p).status with
  | .idle => 1 | .starting => 2 | .running => 3 | .frozen => 4

def State.advertBytes (s : State) : List Byte :=
  leBytes 4 (b2n s.hif.poll) ++ leBytes 4 (sumNat (partNums.map (fun p => s.pstateCode p * 2 ^ (4 * p)))) ++ leBytes 4 s.hif.advertSeq ++
  leBytes 1 s.rst.state.code ++ leBytes 3 0 ++ leBytes 8 s.hif.advertTime ++ leBytes 40 0

/-! ## Writing records out (R408 to R412) -/

/-- Room in a completion or event ring (R409). -/
def Ring.room (r : Ring) : Bool := (r.idx.toNat + 2 ^ 32 - dbIndex r.lastDb) % 2 ^ 32 != 2 ^ r.log2

/-- One record at a ring's producer index. -/
def State.putRecord (s : State) (r : Ring) (f : Nat → List Byte) : State × Ring :=
  (s.hostWrite (r.base.toNat + r.idx.toNat % 2 ^ r.log2 * 32) (f (phaseOf r)), { r with idx := r.idx + 1 })

/-- Marks a ring whose INT bit asks for a message. -/
def State.due (s : State) (k : Nat) (r : Ring) : State :=
  if r.intOn && !s.hif.msixDue.contains k then { s with hif := { s.hif with msixDue := s.hif.msixDue ++ [k] } } else s

/-- Writes the waiting completions in SEQ order; a record whose ring is full waits with those behind it (R409). -/
def flushCompl : List Compl → List Compl → List Nat → State → State
  | [], kept, _, s => { s with hif := { s.hif with compl := kept } }
  | c :: rest, kept, full, s =>
    let j := (s.crOf c.ring).cqOf
    let r := s.cqOf j
    if full.contains j || !r.room then flushCompl rest (kept ++ [c]) (j :: full) s
    else
      let (s, r) := s.putRecord r c.bytes
      flushCompl rest kept full (((s.putCq j r).writeDb r 0).due j r)

/-- Writes the event records the ring has room for (R410). -/
def flushEvents : List Event → State → State
  | [], s => s
  | e :: rest, s =>
    let r := s.eqOf
    if r.room then
      let (s, r) := s.putRecord r e.bytes
      let s : State := { s with es := { s.es with buffer := rest } }
      flushEvents rest (((s.putEq r).writeDb r 0).due 64 r)
    else s

/-- Everything the host interface has waiting goes out while it may issue requests. A record taken by the event ring makes room for the
events-lost record (R441). -/
def State.flush (s : State) : State :=
  if !s.hif.enable || !s.hostUp || s.hif.ringsDue then s else
  let s := flushCompl s.hif.compl [] [] s
  let s := (flushEvents s.es.buffer s).enterLost
  let s := flushEvents s.es.buffer s
  if s.hif.advertDue then
    let s : State := { s with hif := { s.hif with advertDue := false } }
    s.hostWrite s.advertAddr s.advertBytes
  else s

/-- One tick of the model's clock, with what the host interface can write out (log entry 2). -/
def State.tick (s : State) : State := (s.pass 1).flush

/-! ## Polling and sleep (R412 to R414) -/

/-- The quiet condition of Table 13-8: a D-kind command waits for a later event and is not in progress here (log entry 19). -/
def State.quietNow (s : State) : Bool :=
  s.hif.queue.isEmpty && s.hif.running.isEmpty && s.pwr.cmd.isNone &&
    partNums.all (fun p => !s.defined p || (s.part p).status == .idle || (s.part p).status == .frozen)

/-- The host interface polls now. -/
def State.polling (s : State) : Bool := s.hif.enable && s.hif.poll && s.hostUp && !s.hif.ringsDue

def State.setQuiet (s : State) (n : Nat) : State := { s with hif := { s.hif with quiet := n } }
/-- A change of POLL is advertised (R412). -/
def State.setPoll (s : State) (v : Bool) : State := ({ s with hif := { s.hif with poll := v, sleeping := !v, quiet := 0 } } : State).advertise

/-- A write of HIF_NUDGE: it wakes a sleeping part and does nothing otherwise (R413, R414). -/
def State.nudged (s : State) : State := if s.hif.enable && !s.hif.poll && !s.hif.d3 then (s.setPoll true).flush else s

/-- NUDGE. -/
def execNudge (s : State) : Out := s.direct State.nudged

/-! ## MSI-X (R411) -/

def State.msixMasked (s : State) (v : Nat) : Bool := !(tget (0 : BitVec 128) s.hif.msixTable v).getLsbD 96
/-- A vector's message, or its pending bit while the vector is masked. -/
def State.sendVector (s : State) (v : Nat) : State :=
  if s.msixMasked v then { s with hif := { s.hif with msixPending := tset false s.hif.msixPending v true } }
  else { s with hif := { s.hif with msixPending := tset false s.hif.msixPending v false, msixSent := v :: s.hif.msixSent } }

/-- MSIX_SEND: a ring with new records sends its vector, at most once per µs; ring 64 is the event ring. -/
def execMsixSend (ring : Nat) (s : State) : Out :=
  let r := if ring = 64 then s.eqOf else s.cqOf ring
  let last := tget 0 s.hif.msixLast ring
  .next (if s.hif.enable && s.hostUp && s.hif.msixDue.contains ring then
      let s := if last = 0 then s else s.toNs (last - 1 + 1000)
      let s : State := { s with hif := { s.hif with msixDue := s.hif.msixDue.erase ring, msixLast := tset 0 s.hif.msixLast ring (s.ns + 1) } }
      s.sendVector r.vector
    else s)

/-! ## Enable and disable (R423 to R425) -/

/-- The valid rings with the range of their LOG2. -/
def State.validRings (s : State) : List (Ring × Nat) :=
  ((ringNums.map s.crOf ++ ringNums.map s.cqOf).map (fun r => (r, 6)) ++ [(s.eqOf, 8)]).filter (fun x => x.1.valid)

/-- The enable check, 0x0101 to 0x0107 in order; a VECTOR has 11 bits, so 0x0107 cannot come about. -/
def State.hifCode (s : State) : Nat :=
  let crs := (ringNums.map s.crOf).filter Ring.valid
  if s.hif.rate ≠ 7 || s.hif.width ≠ 16 || !s.hif.flitMode then 0x101
  else if !s.hif.bme then 0x102
  else if !s.hif.level && (s.hif.area.toNat % 2097152 ≠ 0 || s.hif.area = 0 || s.hif.rings = 0 || 16 < s.hif.rings.toNat) then 0x103
  else if s.validRings.any (fun x => x.1.base.toNat % 4096 ≠ 0 || x.1.log2 < x.2 || 16 < x.1.log2) then 0x104
  else if crs.isEmpty || crs.any (fun r => !(s.cqOf r.cqOf).valid) || !s.eqOf.valid then 0x105
  else if s.validRings.any (fun x => x.1.db.toNat % 16 ≠ 0) || s.advertAddr % 64 ≠ 0 then 0x106
  else if s.validRings.any (fun x => 2048 ≤ x.1.vector) then 0x107
  else 0

/-- A ring as service starts: index 0, the GEN then in its record the first one seen (log entry 19). -/
def State.startRing (s : State) (r : Ring) (command : Bool) : Ring :=
  let d := s.doorbell r
  { r with idx := 0, gen := if command then dbGen d else 0, stopped := false, lastDb := if command then d else dbIndex d }

/-- The first reads of the doorbell records, with the part's own words written: they are requests to the host. -/
def State.openRings (s : State) : State :=
  let s := ringNums.foldl (fun s i => let r := s.crOf i
    if r.valid then (let r := s.startRing r true; (s.putCr i r).writeDb r 0) else s) s
  let s := ringNums.foldl (fun s j => let r := s.cqOf j
    if r.valid then (let r := s.startRing r false; (s.putCq j r).writeDb r 0) else s) s
  let r := s.startRing s.eqOf false
  let s := (s.putEq r).writeDb r 0
  { s with hif := { s.hif with ringsDue := false } }

/-- Ring service starts; in D3hot its requests wait. -/
def State.startRings (s : State) : State :=
  let s := if s.hostUp then s.openRings else { s with hif := { s.hif with ringsDue := true } }
  ({ s with hif := { s.hif with enable := true, wasEnabled := true } } : State).setPoll true |>.flush

/-- Firmware reads a partition's replica record (R447); one it does not accept disables comparison. -/
def State.readReplica (s : State) (p : Nat) : State :=
  let a := (tget (0 : W64) s.cc.replica p).toNat
  let cadence := leNat (s.hostRead a 2)
  let count := leNat (s.hostRead (a + 2) 2)
  let parts := (upTo count).map (fun k => leNat (s.hostRead (a + 8 + 2 * k) 2))
  let s : State := { s with cc := { s.cc with replicaDue := s.cc.replicaDue.filter (· != p) } }
  if a ≠ 0 && 2 ≤ count && count ≤ 64 && parts.contains s.lnk.self.toNat then
    { s with cc := { s.cc with replicaOk := s.cc.replicaOk ||| BitVec.ofNat 8 (2 ^ p),
                               replicaRec := tset (0, []) s.cc.replicaRec p (cadence, parts) } }
  else
    ({ s with cc := { s.cc with replicaOk := s.cc.replicaOk &&& BitVec.ofNat 8 (255 - 2 ^ p),
                                replicaRec := tset (0, []) s.cc.replicaRec p (0, []) } } : State).modPart p (fun x => { x with replica := none })

/-- A write of CC_REPLICA: the record is read at once, or once a request can go out. -/
def State.writeReplica (s : State) (p : Nat) (v : W64) : State :=
  let s : State := { s with cc := { s.cc with replica := tset 0 s.cc.replica p v } }
  if s.hostUp || v = 0 then s.readReplica p
  else { s with cc := { s.cc with replicaDue := s.cc.replicaDue.filter (· != p) ++ [p] } }

/-- The messages of pending vectors that are no longer masked. -/
def State.sendPending (s : State) : State :=
  (s.hif.msixPending.map (·.1)).foldl (fun s v => if s.msixMasked v then s else s.sendVector v) s

/-- Everything that waited for the host interface goes out once it may send requests again (R395, R396). -/
def State.hostAgain (s : State) : State :=
  if !s.hostUp then s else
  (s.cc.replicaDue.foldl (fun s p => s.readReplica p) (if s.hif.ringsDue then s.openRings else s)).flush.sendPending

/-- ENABLE set: the check, then ring service or an enable-refused event (R423). A command carries the reason in its completion, a direct
write in HIF_STATUS. -/
def State.hifTryEnable (s : State) (cmd : Bool) : Nat × State :=
  if s.hif.enable then (0, s) else
  let code := s.hifCode
  if code = 0 then (0, s.startRings)
  else
    let s := if cmd then s else { s with hif := { s.hif with reason := BitVec.ofNat 16 code } }
    (code, s.enableRefused code 0x10)

/-- A command is in progress: fetched and not complete, or its record not yet written. -/
def State.cmdInProgress (s : State) : Bool :=
  !s.hif.queue.isEmpty || !s.hif.compl.isEmpty || s.hif.history.any (fun h => h.left != 0)

/-- ENABLE cleared: 0x0109 in RUN or with a command in progress (Table 13-11). The advert shows that polling ends (R412). -/
def State.hifTryDisable (s : State) (cmd : Bool) : Nat × State :=
  if !s.hif.enable then (0, s)
  else if s.rst.state = .run || s.cmdInProgress then
    (0x109, if cmd then s else { s with hif := { s.hif with reason := 0x109 } })
  else
    let s := if s.hif.poll then (s.setPoll false).flush else s
    (0, { s with hif := { s.hif with enable := false, ringsDue := false, poll := false, sleeping := false, quiet := 0, msixDue := [] } })

/-- HIF_ENABLE and HIF_DISABLE: direct writes of HIF_CTRL that leave LEVEL. -/
def execHifEnable (s : State) : Out := s.direct (fun s => (s.hifTryEnable false).2)
def execHifDisable (s : State) : Out := s.direct (fun s => (s.hifTryDisable false).2)

/-! ## The host link (R395 to R397) -/

/-- HOST_LINK_RESET: Bus Master Enable and the masks return to their reset values, the IDE keys are cleared (R538); the registers stay.
Without D03 there is no link to reset (R497). -/
def execHostLinkReset (s : State) : Out :=
  if !s.domOn 3 then .next s else
  let table := s.hif.msixTable.filterMap (fun e => let v := e.2 &&& ~~~(1#128 <<< 96); if v = 0 then none else some (e.1, v))
  let s : State := { s with hif := { s.hif with bme := false, d3 := false, rate := 0, width := 0, flitMode := false, ideCap := false, msixTable := table }
                            sec := { s.sec with keysets := [], kemPair := none, ideSecure := false } }
  .next (s.post 0x402 none ccAgent 0x131 0)

/-- The link has trained with a rate and a width; after the first enable, less than x16 at 128 GT/s posts host-link-degraded (R397).
FLIT mode is what 128 GT/s trains to (log entry 8). Without D03 no link trains (R497). -/
def execHostLinkDegraded (rate width : Nat) (s : State) : Out :=
  .next (if rate < 1 || 7 < rate || !([1, 2, 4, 8, 16] : List Nat).contains width || !s.domOn 3 then s else
    let s : State := { s with hif := { s.hif with rate := rate, width := width, flitMode := rate == 7 } }
    if s.hif.wasEnabled && (rate ≠ 7 || width ≠ 16) then s.post 0x403 none ccAgent 0x130 (rate + width * 256) else s)

/-- BUS_MASTER_ENABLE: the held requests go out. Host software enables the IDE capability of configuration space with it (log entry 8). -/
def execBusMasterEnable (s : State) : Out :=
  .next (if s.hif.rate = 0 then s else ({ s with hif := { s.hif with bme := true, ideCap := true } } : State).hostAgain)

/-- D3HOT_ENTRY and D0_RETURN (R395). -/
def execD3hotEntry (s : State) : Out := .next { s with hif := { s.hif with d3 := true } }
def execD0Return (s : State) : Out := .next (({ s with hif := { s.hif with d3 := false } } : State).hostAgain)

/-! ## BAR2 (R398, R399) -/

/-- Bytes of the BAR2 window. -/
def bar2Size : Nat := 68719476736

/-- A device byte that BAR2 reaches. -/
def State.bar2Serves (s : State) (a : Nat) : Bool := match s.place a with
  | .stack c _ => s.stackServed c && !s.mem.lost.contains c
  | .board c _ => s.boardServed c && !s.mem.lost.contains (256 + c) && decide (a + fwRegion < s.boardTop)
  | _ => false

/-- The 2 MiB pieces of a range start where it does or at a page. -/
def State.bar2Range (s : State) (a n : Nat) : Bool :=
  (upTo ((a + n - 1) / pageBytes - a / pageBytes + 1)).all (fun k => s.bar2Serves (max a ((a / pageBytes + k) * pageBytes))) && s.bar2Serves (a + n - 1)

def State.answered (s : State) (r : Option (List Byte)) : State := { s with hif := { s.hif with readOut := r, readPoison := false } }
/-- A request that completes as Unsupported Request; in RUN, AER logs it. -/
def State.unsupported (s : State) (write : Bool) (aer : List Nat) : State :=
  let s : State := { s with hif := { s.hif with aer := aer ++ s.hif.aer } }
  if write then s else s.answered none

/-- A completion towards the host: zero in place of every poisoned block or word, and marked poisoned if there is one (R520). -/
def State.sendBack (s : State) (r : Run) : State :=
  let s := s.answered (some (r.map (fun x => if x.2 = 0 then x.1 else 0)))
  { s with hif := { s.hif with readPoison := r.any (fun x => x.2 != 0) } }

/-- The bytes that a write stores, poisoned data (ORIGIN 5) if its TLP came poisoned; none for a read. -/
def bar2Stores (req : Bar2Req) (data : List Byte) : Option Run := match req with
  | .read => none
  | .write poisoned => some (if poisoned then Run.tainted 5 data else Run.sound data)

/-- BAR2_ACCESS: a write stores `data`; a read answers as many bytes. -/
def execBar2Access (req : Bar2Req) (offset : Nat) (data : List Byte) (s : State) : Out :=
  let a := s.hif.bar2.toNat + offset
  let n := data.length
  .next (if s.hif.rate = 0 || s.hif.d3 || n = 0 || bar2Size < offset + n then s
    else if s.rst.state = .run then s.unsupported (bar2Stores req data).isSome [1]
    else if !s.bar2Range a n then s.unsupported (bar2Stores req data).isSome []
    else match bar2Stores req data with
      | some run => s.devWrite a run
      | none => s.sendBack (s.devRead a n))

end Sys2Proof.Machine
end

