-- ==== Sys2Proof/Machine/UpdateArith.lean ====
section
/-! DEFINITION. Element arithmetic of the reservoir and of the update rules (R212, R224, R231-R237). -/
namespace Sys2Proof.Machine

open Sys2Proof

/-- The step-scalar record of an update engine (Table 08-4), as FP32 codes. -/
structure StepScalars where
  lr : Nat
  b1 : Nat
  c1 : Nat
  b2 : Nat
  c2 : Nat
  bc1 : Nat
  bc2 : Nat
  eps2 : Nat
  wd : Nat
  mu : Nat
  gscale : Nat
  clip : Nat
  maxnorm : Nat
  step : Nat
  deriving DecidableEq, Repr

def StepScalars.parse (b : List Byte) : StepScalars :=
  { lr := fld b 0 4, b1 := fld b 4 4, c1 := fld b 8 4, b2 := fld b 0xC 4, c2 := fld b 0x10 4, bc1 := fld b 0x14 4,
    bc2 := fld b 0x18 4, eps2 := fld b 0x1C 4, wd := fld b 0x20 4, mu := fld b 0x24 4, gscale := fld b 0x28 4,
    clip := fld b 0x2C 4, maxnorm := fld b 0x30 4, step := fld b 0x34 4 }

/-- One reservoir addition: WF48 code `g` plus FP32 code `v` (R212). -/
def reservoirAdd (g v : Nat) : Nat × Flags :=
  let r := addRound wf48F .nearest (wf48F.decode 0 g) (fp32 v)
  ((wf48F.encode r.v).1, r.fl)

/-- Conversion of a WF48 code to FP32, nearest even (R170). -/
def wf48ToFp32 (g : Nat) : Res :=
  match wf48F.decode 0 g with
  | .nan => Res.propagated
  | x => Res.flagged (roundFp fp32F x)

/-- gs = mul(gscale, clip), once per operation (R233). -/
def updGs (s : StepScalars) : Res := vMul (fp32 s.gscale) (fp32 s.clip)

/-- Whether CLIP is NaN, infinite, zero or negative (R233). -/
def updSkip (s : StepScalars) : Bool :=
  match fp32 s.clip with
  | .nan => true
  | .inf _ => true
  | .fin n m _ => n || m = 0

/-- The codes of one parameter: weight, remainder and moments. -/
structure Param where
  w : Nat
  r : Nat
  m : Nat
  v : Nat
  deriving DecidableEq, Repr

/-- A moment code of the descriptor's format as FP32, and back (R222, R233). -/
def momentIn (bf : Bool) (c : Nat) : Num := if bf then bf16F.decode 0 c else fp32 c
def momentOut (bf : Bool) (x : Num) : Nat × Flags := if bf then bf16F.encode x else fp32F.encode x

/-- The write-back of R224: x = w + r + delta exactly, then the weight and its remainder. -/
def writeBack (w r : Nat) (delta : Num) : Nat × Nat × Flags :=
  match rfJoin w r, delta with
  | .nan, _ => (bf16F.nanCode, 0, Flags.none)
  | _, .nan => (bf16F.nanCode, 0, Flags.none)
  | .inf a, .inf b => if a = b then (bf16F.pack a 255 0, 0, Flags.none) else (bf16F.nanCode, 0, Flags.inval)
  | .inf a, _ => (bf16F.pack a 255 0, 0, Flags.none)
  | _, .inf b => (bf16F.pack b 255 0, 0, Flags.none)
  | .fin n1 m1 e1, .fin n2 m2 e2 => wrSplit (addExact n1 m1 e1 n2 m2 e2)

/-- Value of a pair rounded to FP32 (JOIN, R173). -/
def joinFp32 (w r : Nat) : Res :=
  match rfJoin w r with
  | .nan => Res.propagated
  | x => Res.flagged (roundFp fp32F x)

/-- delta = neg(mul(lr, fma(wd, wf, d))) (R233). -/
def updDelta (s : StepScalars) (wf d : Num) : Res :=
  ((vFma (fp32 s.wd) wf d).bind (vMul (fp32 s.lr))).bind (vSign Num.neg)

/-- The rules of R233 on one element with finite `gk`: the parameter after, and the flags. Rule 0 ADAMW, 1 SGDM, 2 SGD. -/
def updRule (s : StepScalars) (rule : Nat) (bf : Bool) (p : Param) (gk : Num) : Param × Flags :=
  let wf := joinFp32 p.w p.r
  let m := momentIn bf p.m
  let v := momentIn bf p.v
  match rule with
  | 0 =>
    let m1 := (vMul (fp32 s.c1) gk).bind (vFma (fp32 s.b1) m)
    let v1 := ((vMul gk gk).bind (vMul (fp32 s.c2))).bind (vFma (fp32 s.b2) v)
    let a := m1.bind (fun x => vMul x (fp32 s.bc1))
    let q := (v1.bind (fun x => vMul x (fp32 s.bc2))).bind (fun x => (vAdd x (fp32 s.eps2)).bind vRsqrt)
    let d := Res.bind2 a q vMul
    let dl := Res.bind2 wf d (updDelta s)
    let (w', r', fw) := writeBack p.w p.r dl.v
    let (mc, fm) := momentOut bf m1.v
    let (vc, fv) := momentOut bf v1.v
    ({ w := w', r := r', m := mc, v := vc }, dl.fl ||| fw ||| fm ||| fv)
  | 1 =>
    let m1 := vFma (fp32 s.mu) m gk
    let dl := Res.bind2 wf m1 (updDelta s)
    let (w', r', fw) := writeBack p.w p.r dl.v
    let (mc, fm) := momentOut bf m1.v
    ({ p with w := w', r := r', m := mc }, dl.fl ||| fw ||| fm)
  | _ =>
    let dl := wf.bind (fun x => updDelta s x gk)
    let (w', r', fw) := writeBack p.w p.r dl.v
    ({ p with w := w', r := r' }, dl.fl ||| fw)

/-- What one element of an UPDATE does (R233): the parameter after, the flags, and whether the gradient was not finite.
The reservoir element becomes +0 in every case. -/
def updElem (s : StepScalars) (rule : Nat) (bf : Bool) (p : Param) (g : Nat) : Param × Flags × Bool :=
  if updSkip s then (p, Flags.none, false) else
  let gk := (wf48ToFp32 g).bind (fun x => vMul x (updGs s).v)
  match gk.v with
  | .fin _ _ _ => let r := updRule s rule bf p gk.v; (r.1, gk.fl ||| r.2, false)
  | _ => (p, gk.fl, true)

/-- SUMSQ over WF48 codes (R237). -/
def sumSquares (s : StepScalars) (gs : List Nat) : Res :=
  psum (gs.map (fun g => ((wf48ToFp32 g).bind (fun x => vMul x (fp32 s.gscale))).bind (fun k => vMul k k)))

/-- A run of `n` little-endian elements of `w` bytes. -/
def elemsLE (w : Nat) : Nat → List Byte → List Nat
  | 0, _ => []
  | n + 1, bs => fld bs 0 w :: elemsLE w n (bs.drop w)

/-- Bytes of a run of little-endian elements. -/
def elemBytes (w : Nat) (xs : List Nat) : List Byte := xs.flatMap (leBytes w)

end Sys2Proof.Machine
end

