-- ==== Sys2Proof/Machine/Vector.lean ====
section
/-! DEFINITION. The vector actions (chapter 06): descriptors, operands with masks and scales, rows, columns, traps (R164-R185, R561). -/
namespace Sys2Proof.Machine

open Sys2Proof

/-! ## Descriptors (R166, R167) -/

/-- A vector descriptor (Table 06-2). -/
structure VecDesc where
  opId : Nat
  func : Nat
  fx : Nat
  fy : Nat
  fo : Nat
  rows : Nat
  n : Nat
  x : Nat
  y : Nat
  z : Nat
  w : Nat
  out : Nat
  stat : Nat
  mask : Nat
  stride : Nat
  const : Nat
  xScale : Nat
  oScale : Nat
  hist : Nat
  margin : Nat
  rsv : Bool
  deriving DecidableEq, Repr

def VecDesc.parse (b : List Byte) : VecDesc :=
  { opId := fld b 0 4, func := byteAt b 4, fx := byteAt b 5, fy := byteAt b 6, fo := byteAt b 7, rows := fld b 8 2,
    n := fld b 0xA 2 + 1, x := fld b 0xC 4, y := fld b 0x10 4, z := fld b 0x14 4, w := fld b 0x18 4, out := fld b 0x1C 4,
    stat := fld b 0x20 4, mask := fld b 0x24 4, stride := fld b 0x28 4, const := fld b 0x2C 4, xScale := fld b 0x30 4,
    oScale := fld b 0x34 4, hist := byteAt b 0x38 + 1, margin := byteAt b 0x39, rsv := !zeroAt b 0x3A 6 }

/-- Whether the operation reads Y (Table 06-1); a CONST replaces it in ELEM. -/
def VecDesc.usesY (d : VecDesc) (op : Nat) : Bool :=
  op = 0x21 || op = 0x27 || op = 0x2A || op = 0x2B || op = 0x2D || (op = 0x20 && d.func < 128)
def usesGamma (op : Nat) : Bool := 0x28 ≤ op && op ≤ 0x2B
def readsStats (op : Nat) : Bool := op = 0x26 || op = 0x2A || op = 0x2B
def writesStats (op : Nat) : Bool := op = 0x25 || op = 0x28 || op = 0x29
/-- The operations that read a mask (R561). -/
def readsMask (op : Nat) : Bool := 0x24 ≤ op && op ≤ 0x2C

def VecDesc.xFmt (d : VecDesc) : Nat := d.fx % 16
def VecDesc.yFmt (d : VecDesc) : Nat := d.fy % 16
def VecDesc.oFmt (d : VecDesc) : Nat := d.fo % 16
/-- The format in which OUT is written: FMT_OUT, but FP32 for ROWRED (Table 06-2). -/
def VecDesc.outFmt (d : VecDesc) (op : Nat) : Nat := if op = 0x24 then 0 else d.oFmt
/-- Bytes between rows of an operand. -/
def VecDesc.pitch (d : VecDesc) (fmt : Nat) : Nat := d.stride * fmtBits fmt / 8
/-- Whether a format with a scale address is scaled per tensor (R125). -/
def perTensor (fmt addr : Nat) : Bool := isFp8 fmt && addr != 0
def VecDesc.maskRow (d : VecDesc) : Nat := cdiv d.n 128 * 16
def VecDesc.blocks (d : VecDesc) : Nat := cdiv d.n 32

/-- One operand region: address, bytes between rows, rows, bytes of a row. -/
structure Region where
  addr : Nat
  pitch : Nat
  rows : Nat
  bytes : Nat
  deriving DecidableEq, Repr

/-- Rows and elements per row of OUT: one row of ROWS results for ROWRED, one row of N for COLRED (log entry 11). -/
def VecDesc.outShape (d : VecDesc) (op : Nat) : Nat × Nat := if op = 0x24 then (1, d.rows) else if op = 0x2C then (1, d.n) else (d.rows, d.n)

/-- The regions of a vector action in the order of the operand fields (R74, R168). DESIGN CHOICE (log entry 12): an address that an operation needs
and that is 0 is core-memory address 0. -/
def VecDesc.regions (d : VecDesc) (op : Nat) : List Region :=
  let (orows, ocols) := d.outShape op
  [⟨d.x, d.pitch d.xFmt, d.rows, rowBytes d.xFmt d.n⟩] ++
  (if d.usesY op then [⟨d.y, d.pitch d.yFmt, d.rows, rowBytes d.yFmt d.n⟩] else []) ++
  (if op = 0x21 then [⟨d.z, d.pitch 0, d.rows, 4 * d.n⟩] else if usesGamma op then [⟨d.z, d.pitch 0, d.rows, 4 * d.n⟩]
   else if op = 0x2E then [⟨d.z, d.stride * 2, d.rows, 2 * d.n⟩] else []) ++
  (if op = 0x29 then [⟨d.w, d.pitch 0, d.rows, 4 * d.n⟩] else []) ++
  [⟨d.out, if orows = 1 then 0 else d.pitch (d.outFmt op), orows, rowBytes (d.outFmt op) ocols⟩] ++
  (if readsStats op || writesStats op then [⟨d.stat, 16, d.rows, 16⟩] else []) ++
  (if d.mask ≠ 0 then [⟨d.mask, d.maskRow, d.rows, d.maskRow⟩] else []) ++
  (if isMx d.xFmt then [⟨d.xScale, d.blocks, d.rows, d.blocks⟩] else if perTensor d.xFmt d.xScale then [⟨d.xScale, 0, 1, 16⟩] else []) ++
  (if isMx (d.outFmt op) then [⟨d.oScale, cdiv ocols 32, orows, cdiv ocols 32⟩]
   else if perTensor (d.outFmt op) d.oScale then [⟨d.oScale, 0, 1, 16 + 4 * d.hist⟩] else [])

def Region.ok (g : Region) : Bool := g.addr % 16 = 0 && g.addr + (g.rows - 1) * g.pitch + g.bytes ≤ coreBytes
/-- The banks that a region touches, ascending. -/
def Region.banks (g : Region) (core : Nat) : List Nat :=
  let bs := (rowStartsOf g).flatMap (fun a => banksOf core a g.bytes)
  (upTo 16).map (resBank core) |>.filter bs.contains
where rowStartsOf (g : Region) : List Nat := (upTo g.rows).map (fun r => g.addr + r * g.pitch)

/-- The banks of the regions; the record of a group's write belongs to the member in whose memory it lies (R126, R127). -/
def VecDesc.resources (d : VecDesc) (op core : Nat) (own : Bool) : List Nat :=
  dedup ((if perTensor (d.outFmt op) d.oScale && !own then (d.regions op).dropLast else d.regions op).flatMap (fun g => g.banks core))

/-- The largest FUNC code of an opcode (Table 06-1). -/
def funcMax (op : Nat) : Nat :=
  match op with
  | 0x20 => 5 | 0x22 => 11 | 0x24 => 3 | _ => 0

/-- R167; what it leaves unsaid (FUNC outside the table, PRESENT of an operand in use, an MX or E8M0 Y, a scale address beside a format that takes no
scale, which is accepted and ignored) is log entry 12. DESIGN CHOICE (log entry 12): a set PRESENT bit of FMT_Y in an operation without Y makes the
descriptor invalid; of an operand that is not in use the alignment is checked and not the range; MARGIN is checked where OUT has a per-tensor
record. -/
def VecDesc.valid (d : VecDesc) (op : Nat) : Bool :=
  let plain (f : Nat) : Bool := f ≤ 10
  !d.rsv && bits d.fx 6 4 = 0 && bits d.fy 6 4 = 0 && bits d.fo 6 4 = 0 && bit d.fx 7 && bit d.fo 7 && plain d.xFmt && plain d.oFmt &&
    (if op = 0x20 then d.func % 128 ≤ 5 else d.func ≤ funcMax op) &&
    (if d.usesY op then bit d.fy 7 && (if op = 0x2D then d.yFmt = 11 else plain d.yFmt && !isMx d.yFmt) else !bit d.fy 7) &&
    (op ≠ 0x2D || d.xFmt = 1) && (op ≠ 0x2E || d.oFmt = 0 || d.oFmt = 1) && (d.mask = 0 || readsMask op) &&
    1 ≤ d.rows && d.rows ≤ 4096 && d.n ≤ 32768 && d.stride % 32 = 0 && d.n ≤ d.stride &&
    [d.x, d.y, d.z, d.w, d.out, d.stat, d.mask, d.xScale, d.oScale].all (fun a => a % 16 = 0) &&
    (!perTensor (d.outFmt op) d.oScale || d.margin ≤ 15) && (d.regions op).all Region.ok

/-! ## Operands -/

/-- An element of an operand after conversion to FP32 (R170): value, flags, origin of its poison, raw code. -/
structure VElem where
  r : Res
  poison : Nat
  code : Nat
  deriving DecidableEq, Repr

/-- The origin of the poison in the bytes of element `c`, `w` bits wide. -/
def elemOrigin (run : Run) (w c : Nat) : Nat := Run.origin ((run.drop (c * w / 8)).take (cdiv (c * w % 8 + w) 8))

/-- A row of an operand: `scales` are MX block scales, `tensor` a per-tensor scale; a masked element is not converted (R561). -/
def vecRowIn (fmt n : Nat) (run scales : Run) (tensor : Nat) (mask : Nat → Bool) : List VElem :=
  let bs := Run.plain run
  let w := fmtBits fmt
  (upTo n).map (fun c =>
    if mask c then { r := Res.ok Num.zero, poison := 0, code := 0 } else
    let code := packedElem w bs c
    let sc := if isMx fmt then byteAt (Run.plain scales) (c / 32) else tensor
    let v := match fmtLayout fmt with
      | some f => Res.flagged (roundFp fp32F (decodeScaled f sc code))
      | none => Res.ok .nan
    let own := elemOrigin run w c
    { r := v, poison := if own ≠ 0 then own else if isMx fmt then Run.origin ((scales.drop (c / 32)).take 1) else 0, code := code })

/-- What the action reads for one row. -/
structure VRow where
  xs : List VElem
  ys : List VElem
  zs : List VElem
  ws : List VElem
  mask : List Bool
  stat : Num × Num × Num
  poison : Nat                       -- of the mask, the statistics or the per-tensor scale
  deriving DecidableEq, Repr

/-- What one row yields. -/
structure VOut where
  out : List (Num × Nat)
  extra : List (Nat × Nat)           -- RF16 codes of SPLIT
  stats : Option (Num × Num × Num)
  statPoison : Nat
  fl : Flags
  nans : List (Nat × Nat × Bool)     -- step, column or 0xFFFF, generated
  deriving DecidableEq, Repr

/-! ## One row -/

def orFirst (a b : Nat) : Nat := if a ≠ 0 then a else b
def firstOrigin (l : List Nat) : Nat := l.foldr orFirst 0

/-- The step, column and kind of the NaNs of elements; unproduced NaNs count as propagated at step 0. -/
def elemNans (l : List (Nat × Res)) : List (Nat × Nat × Bool) :=
  l.filterMap (fun x => let r := x.2.settle; if r.nan = 0 then none else some (r.st, x.1, r.nan = 2))

/-- NaNs in the order in which a row's steps produce them: by step, then by column. -/
def insertNan (x : Nat × Nat × Bool) : List (Nat × Nat × Bool) → List (Nat × Nat × Bool)
  | [] => [x]
  | y :: t => if x.1 < y.1 || (x.1 = y.1 && x.2.1 < y.2.1) then x :: y :: t else y :: insertNan x t
def sortNans (l : List (Nat × Nat × Bool)) : List (Nat × Nat × Bool) := l.foldl (fun a x => insertNan x a) []

/-- The element function of the elementwise opcodes; SPLIT and JOIN work on codes. -/
def vecElem (op func : Nat) (k : Num) (x y z : VElem) : Res :=
  let go (l : List VElem) (f : Res) : Res := { f with fl := l.foldl (fun a e => a ||| e.r.fl) f.fl }
  match op with
  | 0x20 =>
    if func < 128 then go [x, y] ((vElem func x.r.v y.r.v).getD (Res.ok x.r.v))
    else go [x] ((vElem (func - 128) x.r.v k).getD (Res.ok x.r.v))
  | 0x21 => go [x, y, z] (vFma x.r.v y.r.v z.r.v)
  | 0x22 => go [x] ((vFunc1 func x.r.v).getD (Res.ok x.r.v))
  | 0x2D => joinFp32 x.code y.code
  | _ => go [x] (Res.ok x.r.v)

/-- SPLIT (R173): the BF16 value nearest to x and the RF16 code of the rest. -/
def vecSplit (x : VElem) : Res × Nat :=
  let (w, kk, fl) := wrSplit x.r.v
  ({ Res.ok (bf16F.decode 0 w) with fl := x.r.fl ||| fl }, kk)

/-- The row function of an opcode over its unmasked elements; a row without one has its fixed results (R182, R184). -/
def vecRowFn (op : Nat) (k : Num) (st : Num × Num × Num) (xs ys zs ws : List Res) : RowOut :=
  if xs.isEmpty then
    { ys := [], inner := Flags.none,
      stats := if op = 0x25 then some (Res.ok (.inf true), Res.ok Num.zero, Res.ok Num.zero)
        else if writesStats op then some (Res.ok Num.zero, Res.ok Num.zero, Res.ok Num.zero) else none }
  else match op with
    | 0x25 => rowSoftmax k xs
    | 0x26 => rowSoftmaxRec k st.1 st.2.2 xs
    | 0x27 => rowSoftmaxBwd xs ys
    | 0x28 => rowRmsnorm k xs zs
    | 0x29 => rowLayernorm k xs zs ws
    | 0x2A => rowRmsnormBwd st.2.1 xs ys zs
    | _ => rowLayernormBwd st.1 st.2.1 xs ys zs

/-- Places the results of unmasked elements; masked positions get +0 (R561). -/
def scatter (mask : List Bool) (ys : List (Res × Nat)) : List (Res × Nat) :=
  match mask, ys with
  | [], _ => []
  | true :: m, l => (Res.ok Num.zero, 0) :: scatter m l
  | false :: m, y :: l => y :: scatter m l
  | false :: m, [] => (Res.ok Num.zero, 0) :: scatter m []

/-- The elements of a list at unmasked positions. -/
def unmasked {α : Type} (mask : List Bool) (l : List α) : List α := (l.zip mask).filterMap (fun x => if x.2 then none else some x.1)

def statNans (op : Nat) : Option (Res × Res × Res) → List (Nat × Nat × Bool)
  | none => []
  | some (a, b, c) => elemNans ((if op = 0x25 then [a, b, c] else if op = 0x29 then [a, b] else [b]).map (fun r => (0xFFFF, r)))

/-- Elementwise opcodes on a row. -/
def vecRowElem (op func : Nat) (k : Num) (r : VRow) : VOut :=
  let none' : VElem := { r := Res.ok Num.zero, poison := 0, code := 0 }
  let one (c : Nat) (x : VElem) : Res × Nat × Nat :=
    let y := r.ys.getD c none'
    let z := r.zs.getD c none'
    let (v, e) := if op = 0x2E then vecSplit x else (vecElem op func k x y z, 0)
    (v, e, firstOrigin [r.poison, x.poison, y.poison, z.poison])
  let l := r.xs.zipIdx.map (fun x => one x.2 x.1)
  { out := l.map (fun t => (t.1.v, t.2.2)), extra := if op = 0x2E then l.map (fun t => (t.2.1, t.2.2)) else [], stats := none, statPoison := 0,
    fl := l.foldl (fun a t => a ||| t.1.fl) Flags.none, nans := sortNans (elemNans (l.zipIdx.map (fun t => (t.2, t.1.1)))) }

/-- ROWRED on a row (R180). -/
def vecRowRed (func : Nat) (r : VRow) : VOut :=
  let xs := unmasked r.mask r.xs
  let t := ((rowReduce func (xs.map (·.r))).getD (Res.ok Num.zero)).settle
  let o := firstOrigin (r.poison :: xs.map (·.poison))
  { out := [(t.v, o)], extra := [], stats := none, statPoison := 0, fl := t.fl, nans := elemNans [(0xFFFF, t)] }

/-- Softmax and normalisation on a row (R182 to R184). -/
def vecRowRow (op : Nat) (k : Num) (r : VRow) : VOut :=
  let xs := unmasked r.mask r.xs
  let ys := unmasked r.mask r.ys
  let zs := unmasked r.mask r.zs
  let ws := unmasked r.mask r.ws
  let res (l : List VElem) : List Res := l.map (·.r)
  let o := vecRowFn op k r.stat (res xs) (res ys) (res zs) (res ws)
  let bwd := op = 0x2A || op = 0x2B
  let rowO := firstOrigin (r.poison :: (xs.map (·.poison) ++ ys.map (·.poison) ++ (if bwd then zs.map (·.poison) else [])))
  let own (c : Nat) : Nat := match zs[c]?, ws[c]? with
    | some z, some w => orFirst z.poison w.poison
    | some z, none => z.poison
    | none, _ => 0
  let po (c : Nat) : Nat :=
    if op = 0x26 then orFirst r.poison ((xs[c]?.map (·.poison)).getD 0) else orFirst rowO (own c)
  let l := scatter r.mask (o.ys.zipIdx.map (fun y => (y.1, po y.2)))
  let cols := (l.zip r.mask).zipIdx.filterMap (fun t => if t.1.2 then none else some (t.2, t.1.1.1))
  let inFl := (xs ++ ys ++ zs ++ ws).foldl (fun a e => a ||| e.r.fl) Flags.none
  let stFl := match o.stats with | some (a, b, c) => a.fl ||| b.fl ||| c.fl | none => Flags.none
  { out := l.map (fun t => (t.1.v, t.2)), extra := [], stats := o.stats.map (fun t => (t.1.v, t.2.1.v, t.2.2.v)), statPoison := rowO,
    fl := flagsOf o.ys ||| o.inner ||| stFl ||| inFl, nans := sortNans (elemNans cols ++ statNans op o.stats) }

def vecRow (op func : Nat) (k : Num) (r : VRow) : VOut :=
  if op = 0x24 then vecRowRed func r
  else if 0x25 ≤ op && op ≤ 0x2B then vecRowRow op k r
  else vecRowElem op func k r

/-- COLRED (R180): psum down each column, the mask of each row respected. -/
def vecColred (n : Nat) (rs : List VRow) : VOut :=
  let col (c : Nat) : Res × Nat :=
    let es := rs.filterMap (fun r => if r.mask.getD c false then none else r.xs[c]?)
    ((psum (es.map (·.r))).settle, firstOrigin (rs.map (·.poison) ++ es.map (·.poison)))
  let l := (upTo n).map col
  { out := l.map (fun t => (t.1.v, t.2)), extra := [], stats := none, statPoison := 0,
    fl := l.foldl (fun a t => a ||| t.1.fl) Flags.none, nans := elemNans (l.zipIdx.map (fun t => (t.2, t.1.1))) }

/-! ## Reading and writing -/

/-- The mask bits of a row (Table 06-2); an operation without a mask has none set. -/
def maskBits (n : Nat) (run : Run) : List Bool :=
  let bs := Run.plain run
  (upTo n).map (fun c => bit (byteAt bs (c / 8)) (c % 8))

def State.vecRowAt (s : State) (core op : Nat) (d : VecDesc) (r : Nat) : VRow :=
  let rd (a k : Nat) : Run := s.read .core (coreAt core a) k
  let mrun := if d.mask = 0 then ([] : Run) else rd (d.mask + r * d.maskRow) d.maskRow
  let mask := maskBits d.n mrun
  let m (c : Nat) : Bool := mask.getD c false
  let ten := perTensor d.xFmt d.xScale
  let rec' := if ten then rd d.xScale 16 else []
  let sc := if isMx d.xFmt then rd (d.xScale + r * d.blocks) d.blocks else []
  let st := if readsStats op then rd (d.stat + 16 * r) 16 else []
  let sp := Run.plain st
  let z := if op = 0x21 then vecRowIn 0 d.n (rd (d.z + r * d.pitch 0) (4 * d.n)) [] 0x7F m
    else if usesGamma op then vecRowIn 0 d.n (rd (d.z + r * d.pitch 0) (4 * d.n)) [] 0x7F m else []
  let y := if !d.usesY op then [] else
    let run := rd (d.y + r * d.pitch d.yFmt) (rowBytes d.yFmt d.n)
    if d.yFmt = 11 then (upTo d.n).map (fun c => { r := Res.ok Num.zero, poison := elemOrigin run 16 c, code := packedElem 16 (Run.plain run) c })
    else vecRowIn d.yFmt d.n run [] 0x7F m
  { xs := vecRowIn d.xFmt d.n (rd (d.x + r * d.pitch d.xFmt) (rowBytes d.xFmt d.n)) sc (if ten then byteAt (Run.plain rec') 4 else 0x7F) m,
    ys := y, zs := z, ws := if op = 0x29 then vecRowIn 0 d.n (rd (d.w + r * d.pitch 0) (4 * d.n)) [] 0x7F m else [], mask := mask,
    stat := (fp32 (fld sp 0 4), fp32 (fld sp 4 4), fp32 (fld sp 8 4)),
    poison := firstOrigin [Run.origin mrun, Run.origin st, Run.origin rec'] }

/-- The bytes of a row of results with the poison of what each byte holds, and its MX scales. -/
def vecEncode (fmt : Nat) (vals : List (Num × Nat)) : Run × Run × Flags :=
  let (bs, sc, fl) := rowEncode fmt (vals.map (·.1))
  let os := vals.map (·.2)
  let w := fmtBits fmt
  let blockO (b : Nat) : Nat := firstOrigin ((os.drop (32 * b)).take 32)
  let at' (i : Nat) : Nat := if isMx fmt then blockO (i / (4 * w)) else os.getD (8 * i / w) 0
  (bs.zipIdx.map (fun x => (x.1, at' x.2)), sc.zipIdx.map (fun x => (x.1, blockO x.2)), fl)

/-- What the rows of an action yield, and the rows of OUT that hold it. -/
def State.vecOuts (s : State) (core op : Nat) (d : VecDesc) : List VOut :=
  let rs := (upTo d.rows).map (s.vecRowAt core op d)
  if op = 0x2C then [vecColred d.n rs] else rs.map (vecRow op d.func (fp32 d.const))
def vecLines (op : Nat) (outs : List VOut) : List (List (Num × Nat)) := if op = 0x24 then [(outs.map (·.out)).flatten] else outs.map (·.out)

/-- Writes the output rows (R170): under a per-tensor record, whose own poison comes back, or each row for itself. -/
def State.vecWrite (s : State) (p core op : Nat) (d : VecDesc) (rows : List (List (Num × Nat))) : State × Flags × Nat :=
  let (orows, ocols) := d.outShape op
  let fmt := d.outFmt op
  let pitch := if orows = 1 then 0 else d.pitch fmt
  if perTensor fmt d.oScale then
    let flat := rows.flatten
    let (w, recO, s) := s.tensorWrite p core op d.opId 64 fmt d.hist d.margin d.oScale flat
      (fun u => (((s.part p).image.opDesc u op d.opId 64).map (fun b =>
        ((vecLines op (s.vecOuts u op (VecDesc.parse b))).flatten.map (·.1)))).getD [])
    let o := firstOrigin (recO :: flat.map (·.2))
    (s.putRows core d.out pitch 0 0 o ((groupsOf ocols flat.length w.codes).map (fun l => (rowPack fmt l, ([] : List Byte)))), w.flags, recO)
  else
    let (s, fl) := rows.zipIdx.foldl (fun (sf : State × Flags) x =>
      let (run, sc, fl) := vecEncode fmt x.1
      let s := sf.1.write .core (coreAt core (d.out + x.2 * pitch)) run
      let s := if sc.isEmpty then s else s.write .core (coreAt core (d.oScale + x.2 * cdiv ocols 32)) sc
      (s, sf.2 ||| fl)) (s, Flags.none)
    (s, fl, 0)

/-- Addresses of the bytes of element `c`, `w` bits wide, of a row. -/
def elemAddrs (addr w c : Nat) : List Nat := (upTo (cdiv (c * w % 8 + w) 8)).map (addr + c * w / 8 + ·)

/-- Addresses of what an action reads for row `r`, masked elements apart: X with its block scales, Y, Z, W, the mask, the statistics and a
per-tensor scale. -/
def State.vecReads (s : State) (core op : Nat) (d : VecDesc) (r : Nat) : List Nat :=
  let mask := if d.mask = 0 then [] else maskBits d.n (s.read .core (coreAt core (d.mask + r * d.maskRow)) d.maskRow)
  let cols := (upTo d.n).filter (fun c => !mask.getD c false)
  let row (on : Bool) (addr fmt : Nat) : List Nat := if on then cols.flatMap (elemAddrs (addr + r * d.pitch fmt) (fmtBits fmt)) else []
  let whole (on : Bool) (addr n : Nat) : List Nat := if on then (upTo n).map (addr + ·) else []
  cols.flatMap (fun c => elemAddrs (d.x + r * d.pitch d.xFmt) (fmtBits d.xFmt) c ++ if isMx d.xFmt then [d.xScale + r * d.blocks + c / 32] else []) ++
  row (d.usesY op) d.y d.yFmt ++ row (op = 0x21 || usesGamma op) d.z 0 ++ row (op = 0x29) d.w 0 ++
  whole (d.mask ≠ 0) (d.mask + r * d.maskRow) d.maskRow ++ whole (readsStats op) (d.stat + 16 * r) 16 ++ whole (perTensor d.xFmt d.xScale) d.xScale 16

/-- The first poison that an action consumes, row by row, with its origin, 0 where there is none, and the bank in which it lies (R521). -/
def State.vecPoison (s : State) (core op : Nat) (d : VecDesc) : Nat × Nat :=
  let origin (a : Nat) : Nat := Run.origin (s.read .core (coreAt core a) 1)
  match ((upTo d.rows).flatMap (s.vecReads core op d)).find? (fun a => origin a != 0) with
  | some a => (origin a, resBank core (a / 131072))
  | none => (0, 0)

/-- Passes and row reductions of Table 06-1. -/
def vecPasses (op func : Nat) : Nat :=
  match op with
  | 0x20 => if func % 128 = 5 then 2 else 1
  | 0x22 => match func with
    | 2 | 4 | 5 => 2 | 3 => 3 | 6 | 7 | 8 => 5 | 9 => 9 | _ => 1
  | 0x25 | 0x29 | 0x2A => 4
  | 0x26 | 0x27 | 0x28 => 3
  | 0x2B => 5
  | 0x2E => 2
  | _ => 1

/-- ceil(log2 n). -/
def clog2 (n : Nat) : Nat := if n ≤ 1 then 0 else Nat.log2 (n - 1) + 1

def vecReds (op rows : Nat) : Nat :=
  match op with
  | 0x24 | 0x27 | 0x28 | 0x2A => rows
  | 0x25 | 0x29 | 0x2B => 2 * rows
  | 0x2C => clog2 rows
  | _ => 0

/-- The bound C of R169. -/
def VecDesc.bound (d : VecDesc) (op : Nat) : Nat :=
  let e := vecPasses op d.func * d.rows * cdiv d.n 128
  24 + (if perTensor (d.outFmt op) d.oScale then 2 * e else e) + 16 * vecReds op d.rows

/-- The resources that a vector action of a core names. -/
def State.vecNames (s : State) (p op core : Nat) (d : VecDesc) : List Nat := d.resources op core (s.recordCore p core op d.opId 64 == core)

/-- `n` rising cycles up to a bound, none below a first one: a free value gives them all. -/
def risingCycles (bound k : Nat) : Nat → Nat → List Nat
  | 0, _ => []
  | n + 1, lo =>
    let c := lo + k / (bound + 1) ^ n % (bound + 1 - n - lo)
    c :: risingCycles bound k n (c + 1)

/-- The effect of a vector action: it takes effect at its issue; the cycles of its NaNs and of its poison within the bound of
R169 are free values (log entry 4). The blocks of 128 columns of COLRED complete one after another (R185). DESIGN CHOICE (log entry 52): the NaNs of any
other action arise in one cycle, row by row, in a row by step and then by column; an infinity that the conversion to OUT turns into NaN fills no trap record. -/
def State.runVector (s : State) (c : Ctx) (op : Nat) (d : VecDesc) : State :=
  let core := agNum c.agent
  let outs := s.vecOuts core op d
  let (origin, own) := s.vecPoison core op d
  let bank := if origin = 0 then s.recordBank (s.recordCore c.p core op d.opId 64) d.oScale d.hist else own
  let (s, ofl, recO) := s.vecWrite c.p core op d (vecLines op outs)
  let s := if op = 0x2E then
      outs.zipIdx.foldl (fun s x =>
        s.write .core (coreAt core (d.z + x.2 * d.stride * 2)) (x.1.extra.flatMap (fun e => (leBytes 2 e.1).map (fun b => (b, e.2))))) s
    else s
  let s := if writesStats op then
      outs.zipIdx.foldl (fun s x => match x.1.stats with
        | some (a, b, e) => s.write .core (coreAt core (d.stat + 16 * x.2))
            (Run.tainted x.1.statPoison (leBytes 4 (fp32Code a) ++ leBytes 4 (fp32Code b) ++ leBytes 4 (fp32Code e) ++ leBytes 4 0))
        | none => s) s
    else s
  let s := s.orVe core (outs.foldl (fun a o => a ||| o.fl) ofl)
  let (k1, s) := s.draw
  let (k2, s) := s.draw
  let cyc1 := c.point + k1 % (d.bound op + 1)
  let at' := (risingCycles (d.bound op) k2 (if op = 0x2C then cdiv d.n 128 else 1) 0).map (c.point + ·)
  let last := at'.getLastD c.point
  let s := s.consume c.p cyc1 (orFirst origin recO) c.agent c.idx (whereRes bank)
  let nans := outs.zipIdx.flatMap (fun x => x.1.nans.map (fun n =>
    ({ cycle := if op = 0x2C then at'.getD (n.2.1 / 128) last else last, gen := n.2.2, vector := true, galley := 0, lane := if n.2.1 = 0xFFFF then 0 else n.2.1 % 128,
       row := if op = 0x2C then 0xFFFF else x.2, col := n.2.1, chunk := 0 } : NanAt)))
  let s := s.trapNans c.p core d.opId c.idx c.point d.xFmt (if d.usesY op then d.yFmt else 0) nans
  s.addFlight c.p { flightOf c d.opId (s.vecNames c.p op core d) with
    ready := max (s.clkAt c.p c.point + vecPasses op d.func * d.rows * cdiv d.n 128 * (s.part c.p).period) (if nans.isEmpty then 0 else s.clkAt c.p (last + 1)) }

/-- The vector action of a core that has not completed (R168). -/
def Part.vecBusy (x : Part) (agent : Nat) : Option (Nat × Nat) :=
  (lookupBy (fun f => f.agent == agent && 0x20 ≤ f.opcode && f.opcode ≤ 0x2E) x.flights).map (fun f => (agent, f.action))

/-- Issue of a vector action of an opcode. -/
def State.issueVector (s : State) (op p a : Nat) : State :=
  s.issueMatrix op p a 64 (fun c b s =>
    let d := VecDesc.parse b
    s.issueAction c (d.valid op) ((s.part p).vecBusy a) (s.vecNames p op (agNum a) d) (fun s => s.runVector c op d))

/-- ELEM: add, sub, mul, min, max, div of X with Y or CONST. -/
def execElem (p a : Nat) (s : State) : Out := .next (s.issueVector 0x20 p a)
/-- FMA: X × Y + Z with one rounding. -/
def execFma (p a : Nat) (s : State) : Out := .next (s.issueVector 0x21 p a)
/-- FUNC1: the functions of one operand. -/
def execFunc1 (p a : Nat) (s : State) : Out := .next (s.issueVector 0x22 p a)
/-- CONVERT to FMT_OUT. -/
def execConvert (p a : Nat) (s : State) : Out := .next (s.issueVector 0x23 p a)
/-- ROWRED: one result per row. -/
def execRowred (p a : Nat) (s : State) : Out := .next (s.issueVector 0x24 p a)
/-- SOFTMAX forward with statistics. -/
def execSoftmax (p a : Nat) (s : State) : Out := .next (s.issueVector 0x25 p a)
/-- SOFTMAX_REC from saved statistics. -/
def execSoftmaxRec (p a : Nat) (s : State) : Out := .next (s.issueVector 0x26 p a)
/-- SOFTMAX_BWD. -/
def execSoftmaxBwd (p a : Nat) (s : State) : Out := .next (s.issueVector 0x27 p a)
/-- RMSNORM with statistics. -/
def execRmsnorm (p a : Nat) (s : State) : Out := .next (s.issueVector 0x28 p a)
/-- LAYERNORM with statistics. -/
def execLayernorm (p a : Nat) (s : State) : Out := .next (s.issueVector 0x29 p a)
/-- RMSNORM_BWD, dx only. -/
def execRmsnormBwd (p a : Nat) (s : State) : Out := .next (s.issueVector 0x2A p a)
/-- LAYERNORM_BWD, dx only. -/
def execLayernormBwd (p a : Nat) (s : State) : Out := .next (s.issueVector 0x2B p a)
/-- COLRED: the sum down each column. -/
def execColred (p a : Nat) (s : State) : Out := .next (s.issueVector 0x2C p a)
/-- JOIN: a BF16 weight and its RF16 remainder to FP32. -/
def execJoin (p a : Nat) (s : State) : Out := .next (s.issueVector 0x2D p a)
/-- SPLIT: a value into a BF16 weight and an RF16 remainder. -/
def execSplit (p a : Nat) (s : State) : Out := .next (s.issueVector 0x2E p a)

end Sys2Proof.Machine
end

