-- ==== Sys2Proof/Machine/Messages.lean ====
section
/-! DEFINITION. Messages of link controllers (chapter 12): link buffer references, grants, SEND, RECV and the collectives (R371 to
R379, R383 to R389). -/
namespace Sys2Proof.Machine

open Sys2Proof

/-! ## Link buffer references (R373) -/

def refKind (r : Nat) : Nat := bits r 63 62
def refAddr (r : Nat) : Nat := bits r 56 0

def State.refOk (s : State) (p r n : Nat) : Bool :=
  match refKind r with
  | 0 => r < 2 ^ 57 && refAddr r + n ≤ stackTop && s.inRanges p (refAddr r) n
  | 1 => r = 2 ^ 62 + bits r 52 48 * 2 ^ 48 + bits r 35 32 * 2 ^ 32 + bits r 15 0 && bits r 52 48 < 18 &&
      bit (s.lay p).links (linkGroup (bits r 52 48)) && bits r 35 32 / 2 = p && bits r 15 0 + n ≤ 65536
  | 2 => r = 2 ^ 63 + bits r 47 32 * 2 ^ 32 + bits r 20 0 && coreOk (bits r 47 32) &&
      bit (s.lay p).fields (coreField (bits r 47 32)) && bits r 20 0 + n ≤ coreBytes
  | _ => false

/-- The resources of a reference: a staging slot or the core-memory banks touched. -/
def refRes (r n : Nat) : List Nat :=
  match refKind r with
  | 1 => [resSlot (bits r 52 48) (bits r 35 32)]
  | 2 => banksOf (bits r 47 32) (bits r 20 0) n
  | _ => []

/-- A controller's access to a stack passes the channel's weir in its partition's cells, as the traffic of an engine (R314, R315, R373): its
requests under a number, which reach the weirs in byte order. Bytes that are not served reach none. -/
def State.askRef (s : State) (w : Who) (id : Nat) (write : Bool) (r off n : Nat) : State :=
  if refKind r = 0 then
    s.askWeirs w id write (joinWeirs (((cut 4096 (refAddr r + off) n).filter (fun x => s.access w.p x.1 = .ok)).flatMap (fun x => s.weirsOf x.1 x.2 write)))
  else s

def State.refRead (s : State) (w : Who) (r off n : Nat) : Run × State :=
  match refKind r with
  | 0 => let (x, _, s) := s.agentRead w (refAddr r + off) n; (x, s)
  | 1 => (s.read .staging (stagingAt (bits r 52 48) (bits r 35 32) (bits r 15 0 + off)) n, s)
  | _ => (s.read .core (coreAt (bits r 47 32) (bits r 20 0 + off)) n, s)

def State.refWrite (s : State) (w : Who) (r off : Nat) (x : Run) : State :=
  match refKind r with
  | 0 => (s.agentWrite w (refAddr r + off) x).2.2
  | 1 => s.write .staging (stagingAt (bits r 52 48) (bits r 35 32) (bits r 15 0 + off)) x
  | _ => s.write .core (coreAt (bits r 47 32) (bits r 20 0 + off)) x

/-- WHERE of a byte of a reference (Table 17-3). -/
def refWhere (r off : Nat) : Nat :=
  match refKind r with
  | 0 => whereDev (refAddr r + off)
  | 1 => whereRes (resSlot (bits r 52 48) (bits r 35 32))
  | _ => whereRes (resBank (bits r 47 32) ((bits r 20 0 + off) / 131072))

/-! ## Arrivals (R377, R378) -/

/-- A peer arrival: stamped behind a watchdog of the same cycle, counted, and perhaps the last condition of a rendezvous (R89, R436). -/
def State.peerArrival (s : State) (p port : Nat) : State :=
  let (_, s) := (s.expireDue p).stamp
  s.modPart p (fun x =>
    let y := { x with arrivals := tmod 0 x.arrivals port (· + 1) }
    if x.allWaiting && x.rvAt.isSome && !x.arrivalsOk && y.arrivalsOk then { y with rvAt := some x.cycle } else y)

/-- Replaces the first message that satisfies a test. -/
def modFirst {α : Type} (p : α → Bool) (f : α → α) : List α → List α
  | [] => []
  | x :: t => if p x then f x :: t else x :: modFirst p f t

def Coll.same (c : Coll) (m : Msg) : Bool := m.coll && c.key == m.key

/-- Bytes of a link action are written: those of a RECV leave the receive buffer, and a block of a pass-round arrives (R377, R388). -/
def State.landed (s : State) (k : Nat × Nat × Nat × Nat) (n : Nat) (arrives : Bool) : State :=
  let s := { s with lnk := { s.lnk with
    msgs := modFirst (fun m => m.key == k && !m.coll && !m.isSend) (fun m => { m with written := m.written + n }) s.lnk.msgs } }
  if arrives then s.peerArrival k.1 k.2.1 else s

/-- Writes bytes of a link action (R373): at once into a staging slot or core memory; into a stack once they have passed the weir. -/
def State.refPut (s : State) (k : Nat × Nat × Nat × Nat) (r off : Nat) (x : Run) (arrives : Bool) : State :=
  let w : Who := { p := k.1, cyc := (s.part k.1).cycle, agent := linkAgent k.2.1, action := k.2.2.1 }
  if refKind r = 0 && !x.isEmpty then
    let id := s.lnk.nextMsg + 1
    let lw : LinkWrite :=
      { partition := k.1, port := k.2.1, action := k.2.2.1, issue := k.2.2.2, id := id, buf := r, off := off, data := x, arrives := arrives }
    { s with lnk := { s.lnk with nextMsg := id, writes := s.lnk.writes ++ [lw] } }.askRef w (msgAsk id) true r off x.length
  else (s.refWrite w r off x).landed k x.length arrives

/-- Bytes that have left the weir are written. -/
def State.writeOut (s : State) (lw : LinkWrite) : State :=
  let w : Who := { p := lw.partition, cyc := (s.part lw.partition).cycle, agent := linkAgent lw.port, action := lw.action }
  let s := { s with lnk := { s.lnk with writes := s.lnk.writes.erase lw } }
  (s.refWrite w lw.buf lw.off lw.data).landed lw.key lw.data.length lw.arrives

/-- Every write whose requests have left the weirs, in the order in which they came about. -/
def State.flushWrites (s : State) : State :=
  s.lnk.writes.foldl (fun s w => if s.bytesLeft (linkAgent w.port) (msgAsk w.id) true = 0 then s.writeOut w else s) s

/-- An action sends nothing more, in none of its steps: its data is poisoned (R521). -/
def State.endSending (s : State) (k : Nat × Nat × Nat × Nat) : State :=
  { s with lnk := { s.lnk with
      msgs := s.lnk.msgs.map (fun m => if m.isSend && m.key == k then { m with ended := true } else m),
      colls := s.lnk.colls.map (fun c => if c.key == k then { c with mute := true } else c) } }

/-! ## SEND and RECV (Table 12-7) -/

structure LinkDesc where
  opId : Nat
  channel : Nat
  peerPart : Nat
  flags : Nat
  peer : Nat
  length : Nat
  buf : Nat
  rsv : Bool
  deriving DecidableEq, Repr

def LinkDesc.parse (b : List Byte) : LinkDesc :=
  { opId := fld b 0 4, channel := byteAt b 4, peerPart := byteAt b 5, flags := byteAt b 6, peer := fld b 8 2, length := fld b 0xC 4,
    buf := fld b 0x10 8, rsv := byteAt b 7 != 0 || fld b 0xA 2 != 0 || fld b 0x18 8 != 0 }

/-- Link actions of a controller in flight for a partition (R371). -/
def Part.linkRoom (x : Part) (agent : Nat) : Bool := (x.flights.filter (fun f => f.agent == agent)).length < 8

def State.linkValid (s : State) (p port : Nat) (d : LinkDesc) : Bool :=
  !d.rsv && port < 18 && d.peerPart < 8 && d.flags < 2 && d.length % 16 = 0 && 16 ≤ d.length && s.refOk p d.buf d.length &&
    (d.flags = 1 || ((s.port port).peerValid && (s.port port).peerPart = d.peer))

def linkMsg (c : Ctx) (id : Nat) (send : Bool) (d : LinkDesc) : Msg :=
  { id := id, seq := id, partition := c.p, port := agNum c.agent, action := c.idx, issue := c.point, coll := false, isSend := send, link := agNum c.agent,
    owner := if send then d.peerPart else c.p, channel := d.channel, routed := d.flags = 1, peer := d.peer, length := d.length,
    sent := 0, written := 0, granted := 0, unackd := 0, ended := false, buf := d.buf, data := [], check := 0 }

/-! ## Collectives (R383 to R389) -/

/-- A COLLECTIVE descriptor (Table 12-9). -/
structure CollDesc where
  opId : Nat
  kind : Nat
  fmt : Nat
  channel : Nat
  route : Nat
  n : Nat
  rank : Nat
  nextPort : Nat
  prevPort : Nat
  table : Nat
  src : Nat
  dst : Nat
  rsv : Bool
  deriving DecidableEq, Repr

def CollDesc.parse (b : List Byte) : CollDesc :=
  { opId := fld b 0 4, kind := byteAt b 4, fmt := byteAt b 5, channel := byteAt b 6, route := byteAt b 7, n := fld b 8 2,
    rank := fld b 0xA 2, nextPort := byteAt b 0xC, prevPort := byteAt b 0xD, table := fld b 0x10 8, src := fld b 0x18 8,
    dst := fld b 0x20 8, rsv := fld b 0xE 2 != 0 || !zeroAt b 0x28 24 }

def CollDesc.code (d : CollDesc) : Nat := d.fmt % 16
def CollDesc.max (d : CollDesc) : Bool := bit d.fmt 4
/-- Bytes of an element. -/
def CollDesc.eb (d : CollDesc) : Nat := fmtBits d.code / 8

/-- The entries of a participant table: part, partition, LEN. -/
def tableOf (n : Nat) (b : List Byte) : List (Nat × Nat × Nat) :=
  (upTo n).map (fun r => (fld b (8 * r) 2, byteAt b (8 * r + 2), fld b (8 * r + 4) 4))

/-- Bytes of shard `c` and its offset (R383). -/
def shardLen (eb : Nat) (t : List (Nat × Nat × Nat)) (c : Nat) : Nat := eb * ((t[c]?.map (fun e => e.2.2)).getD 0)
def shardOff (eb : Nat) (t : List (Nat × Nat × Nat)) (c : Nat) : Nat := sumNat ((upTo c).map (shardLen eb t))
def totalLen (eb : Nat) (t : List (Nat × Nat × Nat)) : Nat := shardOff eb t t.length

/-- Whether parts rise strictly. -/
def risingParts : List (Nat × Nat × Nat) → Bool
  | a :: b :: t => decide (a.1 < b.1) && risingParts (b :: t)
  | _ => true

def CollDesc.srcBytes (d : CollDesc) (t : List (Nat × Nat × Nat)) : Nat := if d.kind ≤ 3 then totalLen d.eb t else shardLen d.eb t d.rank
def CollDesc.dstBytes (d : CollDesc) (t : List (Nat × Nat × Nat)) : Nat := if d.kind = 3 then shardLen d.eb t d.rank else totalLen d.eb t

/-- Who reads a table or an input of a collective. -/
def collWho (c : Ctx) : Who := { p := c.p, cyc := c.point, agent := c.agent, action := c.idx }

/-- The participant table as the controller reads it. -/
def State.collTable (s : State) (c : Ctx) (d : CollDesc) : List Byte := Run.plain (s.refRead (collWho c) d.table 0 (8 * d.n)).1

/-- What the descriptor alone must satisfy: its table can be read. -/
def State.collShape (s : State) (c : Ctx) (d : CollDesc) : Bool :=
  let p := c.p
  let portOk (routed : Bool) (q : Nat) : Bool := routed || (q < 18 && bit (s.lay p).links (linkGroup q))
  !d.rsv && d.kind ≤ 5 && d.fmt < 32 && d.route < 4 && 2 ≤ d.n && d.n ≤ 4096 && d.rank < d.n &&
    (if d.kind ≤ 3 then d.code = 0 || (d.code = 10 && !d.max) else d.code ≤ 12 && fmtBits d.code % 8 = 0) &&
    (d.kind = 2 || (portOk (bit d.route 0) d.nextPort && portOk (bit d.route 1) d.prevPort)) && s.refOk p d.table (8 * d.n)

def State.collValid (s : State) (c : Ctx) (d : CollDesc) : Bool :=
  let p := c.p
  s.collShape c d &&
    (let b := s.collTable c d
     let t := tableOf d.n b
     risingParts t && t.all (fun e => e.2.1 < 8 && d.eb * e.2.2 % 16 = 0) && (upTo d.n).all (fun r => byteAt b (8 * r + 3) == 0) &&
       (t[d.rank]?.map (fun e => (e.1, e.2.1))) = some (s.selfPart, p) && s.refOk p d.src (d.srcBytes t) && s.refOk p d.dst (d.dstBytes t))

/-- The CHECK of every grant (R385). -/
def CollDesc.check (d : CollDesc) (table : List Byte) : Nat :=
  crc64 (leBytes 1 d.kind ++ leBytes 1 d.fmt ++ leBytes 2 d.n ++ table) % 2 ^ 32

/-- One message of a step: direction, the other rank, the bytes of the working values, whether a received value is reduced
with the own one, and whether the own one stands first. -/
structure CollMsg where
  send : Bool
  rank : Nat
  lo : Nat
  len : Nat
  reduce : Bool
  ownFirst : Bool
  deriving DecidableEq, Repr

/-- The part of a shard that a ring carries: 0 all of it, 1 the first half, 2 the other elements (R387). -/
def slice (eb : Nat) (t : List (Nat × Nat × Nat)) (half c : Nat) : Nat × Nat :=
  let n := shardLen eb t c / eb
  let h := cdiv n 2 * eb
  match half with
  | 0 => (shardOff eb t c, n * eb)
  | 1 => (shardOff eb t c, h)
  | _ => (shardOff eb t c + h, n * eb - h)

/-- One step of a ring: the forward ring sends towards the next rank, the backward ring towards the previous one. -/
def ringStep (eb : Nat) (t : List (Nat × Nat × Nat)) (n r k half : Nat) (reduce back : Bool) : List CollMsg :=
  let d := if reduce then 1 else 0
  let (sc, rc) := if back then ((r + k + d) % n, (r + k + d + 1) % n)
    else ((r + 2 * n - (k + d) % n) % n, (r + 2 * n - (k + d + 1) % n) % n)
  let to' := if back then (r + n - 1) % n else (r + 1) % n
  let from' := if back then (r + 1) % n else (r + n - 1) % n
  let (so, sl) := slice eb t half sc
  let (ro, rl) := slice eb t half rc
  [⟨true, to', so, sl, false, false⟩, ⟨false, from', ro, rl, reduce, false⟩]

/-- One step of the tree (R387): up to rank 0, then down again. -/
def treeStep (total n r k : Nat) : List CollMsg :=
  let l := clog2 n
  let up := k < l
  let b := 2 ^ (if up then k else 2 * l - 1 - k)
  if r % (2 * b) = 0 && r + b < n then [⟨!up, r + b, 0, total, up, true⟩]
  else if r % (2 * b) = b then [⟨up, r - b, 0, total, false, false⟩]
  else []

/-- Steps of a collective, and the messages of step `k`. -/
def collSteps (kind n : Nat) : Nat := match kind with
  | 0 | 1 => 2 * (n - 1)
  | 2 => 2 * clog2 n
  | _ => n - 1

def collStep (kind eb : Nat) (t : List (Nat × Nat × Nat)) (n r k : Nat) : List CollMsg :=
  match kind with
  | 0 => if k < n - 1 then ringStep eb t n r k 0 true false else ringStep eb t n r (k - (n - 1)) 0 false false
  | 1 =>
    let red := k < n - 1
    let k := if red then k else k - (n - 1)
    ringStep eb t n r k 1 red false ++ ringStep eb t n r k 2 red true
  | 2 => treeStep (totalLen eb t) n r k
  | 3 => ringStep eb t n r k 0 true false
  | _ => ringStep eb t n r k 0 false false

/-- red(a, b) on one element (R386): its code and flags. -/
def redElem (fmt : Nat) (mx : Bool) (a b : Nat) : Nat × Flags :=
  if fmt = 10 then
    let r := addRound wf48F .nearest (wf48F.decode 0 a) (wf48F.decode 0 b)
    ((wf48F.encode r.v).1, r.fl)
  else
    let r := if mx then vMax (fp32 a) (fp32 b) else vAdd (fp32 a) (fp32 b)
    (fp32Code r.v, r.fl)

/-- Element by element reduction of two runs; poisoned input makes the result poisoned. -/
def redRun (d : CollDesc) (a b : Run) : Run × Flags :=
  let xs := groupsOf d.eb a.length a
  let ys := groupsOf d.eb b.length b
  let rs := (xs.zip ys).map (fun p =>
    let (v, fl) := redElem d.code d.max (leNat (Run.plain p.1)) (leNat (Run.plain p.2))
    let o := if Run.origin p.1 ≠ 0 then Run.origin p.1 else Run.origin p.2
    ((Run.tainted o (leBytes d.eb v), fl) : Run × Flags))
  (rs.flatMap (·.1), rs.foldl (fun f r => f ||| r.2) Flags.none)

/-- Bytes `[lo, lo + n)` of a run replaced. -/
def putRun (x : Run) (lo : Nat) (y : Run) : Run := x.take lo ++ y ++ x.drop (lo + y.length)

/-- The CHECK of a collective's own grants. -/
def Coll.check (c : Coll) : Nat :=
  (CollDesc.parse c.desc).check (c.table.flatMap (fun e => leBytes 2 e.1 ++ leBytes 1 e.2.1 ++ leBytes 1 0 ++ leBytes 4 e.2.2))

/-- The messages of a step of a collective; messages of no bytes are not sent. -/
def Coll.msgs (c : Coll) : List Msg :=
  let d := CollDesc.parse c.desc
  let ms := collStep d.kind d.eb c.table d.n d.rank c.step
  ms.zipIdx.filterMap (fun x =>
    let m := x.1
    if m.len = 0 then none else
    let e := (c.table[m.rank]?).getD (0, 0, 0)
    let next := x.2 = 0 || x.2 = 3     -- a ring sends forward first and backward third
    let routed := d.kind = 2 || bit d.route (if next then 0 else 1)
    some
      { id := 0, seq := c.seq, partition := c.partition, port := c.port, action := c.action, issue := c.issue, coll := true, isSend := m.send,
        link := if routed then c.port else if next then d.nextPort else d.prevPort,
        owner := if m.send then e.2.1 else c.partition, channel := d.channel, routed := routed, peer := e.1, length := m.len,
        sent := 0, written := 0, granted := 0, unackd := 0, ended := m.send && c.mute, buf := x.2,
        data := if m.send then (c.work.drop m.lo).take m.len else [], check := c.check })

/-! ## Grants to a sender (R375, R385) -/

/-- The ways by which a collective sends: the port, none for ROUTED, and the neighbour that its table names. -/
def Coll.ways (c : Coll) : List (Option Nat × Nat × Nat) :=
  let d := CollDesc.parse c.desc
  let way (port : Option Nat) (r : Nat) : Option Nat × Nat × Nat := let e := (c.table[r]?).getD (0, 0, 0); (port, e.1, e.2.1)
  let next := way (if bit d.route 0 then none else some d.nextPort) ((d.rank + 1) % d.n)
  let prev := way (if bit d.route 1 then none else some d.prevPort) ((d.rank + d.n - 1) % d.n)
  if d.kind = 2 then (upTo (collSteps 2 d.n)).flatMap (fun k => ((treeStep 0 d.n d.rank k).filter (·.send)).map (fun m => way none m.rank))
  else if d.kind = 1 then [next, prev] else [next]

/-- A collective still waits for grants: it has not begun, a send of its step is not granted whole, or steps follow. -/
def State.expectsGrant (s : State) (c : Coll) : Bool :=
  !c.done && (c.loading || decide (c.step + 1 < collSteps (CollDesc.parse c.desc).kind (CollDesc.parse c.desc).n) ||
    s.lnk.msgs.any (fun m => c.same m && m.isSend && decide (m.granted < m.length)))

/-- Ends a collective without completion, so that it is in flight no more, and posts the mismatch (R385). -/
def State.collMismatch (s : State) (c : Coll) (other : Nat) : State :=
  let s := { s with lnk := { s.lnk with msgs := s.lnk.msgs.filter (fun m => !c.same m), colls := s.lnk.colls.filter (fun x => x.key != c.key)
                                        writes := s.lnk.writes.filter (fun w => w.key != c.key) } }
  let mine (f : Flight) : Bool := f.agent == linkAgent c.port && f.action == c.action && f.issue == c.issue
  let s := s.modPart c.partition (fun x => ({ x with flights := x.flights.filter (fun f => !mine f) }).settleFill x.cycle)
  s.giveAll.post 0x304 (some c.partition) (linkAgent c.port) other (fld c.desc 0 4)

/-- The collective that a grant ends (R385). DESIGN CHOICE (log entry 58): a collective receives the grants of its channel that come by one
of its ways for the receiving partition of the neighbour there; a grant of another collective's neighbour is not its concern. -/
def State.mismatchOf (s : State) (g : Grant) : Option Coll :=
  let cs := s.lnk.colls.filter (fun c => (CollDesc.parse c.desc).channel == g.channel && s.expectsGrant c)
  match cs.filter (fun c => c.ways.contains (g.port, g.granter, g.owner)) with
  | [] => cs.find? (fun c => c.ways.any (fun w => w.1 == g.port && w.2.2 == g.owner))
  | own => if own.any (fun c => c.check == g.check) then none else own.head?

/-- Whether a grant is one for a sending message: a direct grant for a direct message of its port, a ROUTED one for a ROUTED message. -/
def Msg.takes (m : Msg) (g : Grant) : Bool :=
  m.isSend && m.peer == g.granter && m.owner == g.owner && m.channel == g.channel && decide (m.granted < m.length) &&
    (match g.port with | some q => !m.routed && m.link == q | none => m.routed)

/-- The bytes of a grant go to the first sending message that it fits; a SEND fetches them from its stack (R373). -/
def State.credit (s : State) (g : Grant) : State :=
  let s' := { s with lnk := { s.lnk with msgs := modFirst (·.takes g) (fun m => { m with granted := min m.length (m.granted + g.bytes) }) s.lnk.msgs } }
  match lookupBy (·.takes g) s.lnk.msgs with
  | some m => if m.coll then s'
      else s'.askRef { p := m.partition, cyc := (s.part m.partition).cycle, agent := linkAgent m.port, action := m.action } (msgAsk m.id) false m.buf m.granted
        (min m.length (m.granted + g.bytes) - m.granted)
  | none => s'

/-- A grant reaches a sending message, ends a collective, or waits for a message. -/
def State.takeGrant (s : State) (g : Grant) : State :=
  match lookupBy (·.takes g) s.lnk.msgs with
  | some m => match lookupBy (fun c => c.same m) s.lnk.colls with
    | some c => if c.check = g.check then s.credit g else s.collMismatch c g.granter
    | none => s.credit g
  | none => match s.mismatchOf g with
    | some c => s.collMismatch c g.granter
    | none => { s with lnk := { s.lnk with grants := s.lnk.grants ++ [g] } }

/-- Offers the waiting grants to the messages again. -/
def State.claimGrants (s : State) : State :=
  s.lnk.grants.foldl (fun s g => s.takeGrant g) { s with lnk := { s.lnk with grants := [] } }

/-- Issue of a SEND or RECV: its message joins the controller's (R373 to R375). -/
def State.issueMsg (s : State) (op p a : Nat) (send : Bool) : State :=
  s.issueMatrix op p a 32 (fun c b s =>
    let d := LinkDesc.parse b
    let room := (s.part p).linkRoom a
    s.issueAction c (s.linkValid p (agNum a) d && room) none (dedup (refRes d.buf d.length)) (fun s =>
      let s := s.addFlight p (flightOf c d.opId (dedup (refRes d.buf d.length)))
      let s := s.addMsg (linkMsg c s.lnk.nextMsg send d)
      if send then s.claimGrants else s.giveUnits (agNum a)))

/-- SEND: bytes to a peer, within the bytes granted. -/
def execSend (p a : Nat) (s : State) : Out := .next (s.issueMsg 0x80 p a true)
/-- RECV: bytes from a peer into a buffer. -/
def execRecv (p a : Nat) (s : State) : Out := .next (s.issueMsg 0x81 p a false)

/-! ## The steps of a collective (R386 to R389) -/

def State.setColl (s : State) (c : Coll) : State :=
  { s with lnk := { s.lnk with colls := s.lnk.colls.map (fun x => if x.key == c.key then c else x) } }

/-- The controller that runs a collective, at the partition's present cycle. -/
def State.collAgent (s : State) (c : Coll) : Who :=
  { p := c.partition, cyc := (s.part c.partition).cycle, agent := linkAgent c.port, action := c.action }

/-- Writes the results that a finished collective leaves in DST; a pass-round has written its blocks one by one. -/
def State.collWrite (s : State) (c : Coll) : State :=
  let d := CollDesc.parse c.desc
  if d.kind = 5 then s
  else if d.kind = 3 then
    s.refPut c.key d.dst 0 ((c.work.drop (shardOff d.eb c.table d.rank)).take (shardLen d.eb c.table d.rank)) false
  else s.refPut c.key d.dst 0 c.work false

/-- Enters steps from the present one on, until one waits for a message or the last is done. -/
def State.collEnter : Nat → Coll → State → State
  | 0, _, s => s
  | fuel + 1, c, s =>
    let d := CollDesc.parse c.desc
    if collSteps d.kind d.n ≤ c.step then (s.collWrite c).setColl { c with done := true }
    else
      let ms := c.msgs
      let s := ms.foldl State.addMsg (s.setColl c)
      -- a block of no bytes is received as soon as its step begins (R388)
      let s := if d.kind = 5 && ms.all (·.isSend) then s.peerArrival c.partition c.port else s
      if ms.any (fun m => !m.isSend) then s else State.collEnter fuel { c with step := c.step + 1 } s

/-- What follows a change of a collective's messages: grants are claimed and given. -/
def State.collSettle (s : State) : State := s.claimGrants.giveAll

/-- WHERE of a byte of a collective's own input among its working values (Table 17-3). -/
def Coll.whereOf (c : Coll) (lo : Nat) : Nat :=
  let d := CollDesc.parse c.desc
  refWhere d.src (if d.kind ≤ 3 then lo else lo - shardOff d.eb c.table d.rank)

/-- A link controller consumes poison and ends the sending of its action (R521). -/
def State.linkConsume (s : State) (k : Nat × Nat × Nat × Nat) (cyc origin where' : Nat) : State :=
  if origin = 0 then s else (s.consume k.1 cyc origin (linkAgent k.2.1) k.2.2.1 where').endSending k

/-- The operand of a reduction that is poisoned, with WHERE it lies: the own values, or what has come in, in the receive buffer, whose resource is
that of the error there (log entry 61). -/
def State.collPoison (c : Coll) (m : Msg) (cm : CollMsg) (own : Run) : Nat × Nat :=
  if Run.origin own ≠ 0 then (Run.origin own, c.whereOf (cm.lo + Run.firstBad own)) else (Run.origin m.data, whereRes (resSlot m.link 0))

/-- A received message of a collective is complete: its bytes enter the working values, and the step may end. Poison in either operand of a
reduction is consumed (R521). -/
def State.collReceived (s : State) (m : Msg) : State :=
  match lookupBy (fun c => c.same m) s.lnk.colls with
  | none => s
  | some c =>
    let d := CollDesc.parse c.desc
    match (collStep d.kind d.eb c.table d.n d.rank c.step)[m.buf]? with
    | none => s
    | some cm =>
      let own := (c.work.drop cm.lo).take cm.len
      let (x, fl) := if cm.reduce then (if cm.ownFirst then redRun d own m.data else redRun d m.data own) else (m.data, Flags.none)
      let bad := if cm.reduce then State.collPoison c m cm own else (0, 0)
      let s := s.linkConsume c.key (s.part c.partition).cycle bad.1 bad.2
      let c := { c with work := putRun c.work cm.lo x, mute := c.mute || bad.1 != 0 }
      let s := s.modPort c.port (fun q => { q with redFlags := q.redFlags ||| fl })
      let s := if d.kind = 5 then s.refPut c.key d.dst cm.lo x true else s
      let s := (s.setColl c)
      let s := { s with lnk := { s.lnk with msgs := s.lnk.msgs.erase m } }
      if s.lnk.msgs.any (fun y => c.same y && !y.isSend) then s
      else State.collEnter (collSteps d.kind d.n + 2) { c with step := c.step + 1 } s |>.collSettle

/-- A collective has its input: SRC is read, the own block of kinds 4 and 5 is placed, step 0 begins. -/
def State.collStart (s : State) (c : Coll) : State :=
  let d := CollDesc.parse c.desc
  let (x, s) := s.refRead (s.collAgent c) d.src 0 (d.srcBytes c.table)
  let own := shardOff d.eb c.table d.rank
  let work : Run := if d.kind ≤ 3 then x else putRun (Run.sound (List.replicate (totalLen d.eb c.table) 0)) own x
  let s := if d.kind = 5 || d.kind = 4 then s.refPut c.key d.dst own x false else s
  let c := { c with loading := false, work := work }
  (State.collEnter (collSteps d.kind d.n + 2) c (s.setColl c)).collSettle

/-- What the weirs have let through since the last row of the links: writes, and the inputs of collectives. DESIGN CHOICE (log entry 38): they
take effect at the next row of the links, LINK_ACTION_COMPLETE among them; units that have come free are given again. -/
def State.linkGo (s : State) : State :=
  if s.lnk.writes.isEmpty && !s.lnk.colls.any (·.loading) then s else
  let s := s.flushWrites
  let s := (s.lnk.colls.filter (·.loading)).foldl (fun s c => if s.bytesLeft (linkAgent c.port) (collAsk c.seq) false = 0 then s.collStart c else s) s
  s.giveAll

/-- The effect of a COLLECTIVE at its issue: the participant table is read, and table and SRC pass the weirs of their stacks before anything begins. A
poisoned table is consumed for CHECK, and then nothing is sent. -/
def State.runColl (s : State) (c : Ctx) (d : CollDesc) (desc : List Byte) : State :=
  let (table, s) := s.refRead (collWho c) d.table 0 (8 * d.n)
  let t := tableOf d.n (Run.plain table)
  let s := s.addFlight c.p (flightOf c d.opId (dedup (refRes d.table (8 * d.n) ++ refRes d.src (d.srcBytes t) ++ refRes d.dst (d.dstBytes t))))
  let s : State := { s with lnk := { s.lnk with nextMsg := s.lnk.nextMsg + 1 } }
  let cl : Coll := { seq := s.lnk.nextMsg - 1, partition := c.p, port := agNum c.agent, action := c.idx, issue := c.point, desc := desc, table := t, step := 0,
                      loading := true, done := false, mute := Run.origin table != 0, work := [] }
  let s := { s with lnk := { s.lnk with colls := s.lnk.colls ++ [cl] } }
  let s := s.linkConsume cl.key c.point (Run.origin table) (refWhere d.table (Run.firstBad table))
  let s := (s.askRef (collWho c) (collAsk cl.seq) false d.table 0 (8 * d.n)).askRef (collWho c) (collAsk cl.seq) false d.src 0 (d.srcBytes t)
  if s.bytesLeft (linkAgent cl.port) (collAsk cl.seq) false = 0 then s.collStart cl else s

/-- COLLECTIVE: a ring, bidirectional, tree, reduce-scatter, all-gather or pass-round collective in its fixed order. -/
def execCollective (p a : Nat) (s : State) : Out :=
  .next (s.issueMatrix 0x82 p a 64 (fun c b s =>
    let d := CollDesc.parse b
    let room := (s.part p).linkRoom a
    let t := tableOf d.n (s.collTable c d)
    let res := dedup (refRes d.table (8 * d.n) ++ refRes d.src (d.srcBytes t) ++ refRes d.dst (d.dstBytes t))
    let readable := decide (agNum a < 18) && s.collShape c d && room && decide (s.tokCheck c = .fine)
    -- a table that makes the descriptor invalid has been read all the same (R229, R314)
    let s := if readable && !s.collValid c d then ((s.refRead (collWho c) d.table 0 (8 * d.n)).2).askRef (collWho c) 0 false d.table 0 (8 * d.n) else s
    s.issueAction c (agNum a < 18 && s.collValid c d && room) none res (fun s => s.runColl c d b)))

/-! ## Completion (R377, R389) -/

/-- Whether a link action has done all that its completion asks: what it writes is written (R377, R389). -/
def State.linkDone (s : State) (k : Nat × Nat × Nat × Nat) : Bool :=
  let ms := s.lnk.msgs.filter (fun m => m.key == k)
  let cs := s.lnk.colls.filter (fun c => c.key == k)
  (!ms.isEmpty || !cs.isEmpty) && cs.all (·.done) && s.lnk.writes.all (fun w => w.key != k) &&
    ms.all (fun m => m.sent == m.length && !m.ended && (!m.isSend || m.unackd == 0))

/-- The state in which what a link action has at the weirs has left them, at the moment at which it does (log entry 2); none where it never does. -/
def State.linkSettled (s : State) (k : Nat × Nat × Nat × Nat) : Option State :=
  let writes := (s.lnk.writes.filter (fun w => w.key == k)).map (fun w => msgAsk w.id)
  let reads := (s.lnk.colls.filter (fun c => c.key == k)).map (fun c => collAsk c.seq)
  (s.leftAt (fun r => r.agent == linkAgent k.2.1 && (if r.write then writes else reads).contains r.id)).map (fun t => (s.toClk t).linkGo)

/-- LINK_ACTION_COMPLETE (R377): the oldest action of the record that is done frees its resources, and its arrival counts. One whose last bytes are at
a weir completes when they have left it. -/
def execLinkActionComplete (p a r : Nat) (s : State) : Out :=
  let key (f : Flight) : Nat × Nat × Nat × Nat := (p, agNum a, r, f.issue)
  let settled (f : Flight) : Option (Flight × State) :=
    if f.agent == a && f.action == r && decide (f.opcode ≥ 0x80) then
      (s.linkSettled (key f)).bind (fun t => if t.linkDone (key f) then some (f, t) else none)
    else none
  .next (match (s.part p).flights.findSome? settled with
    | none => s.linkGo
    | some (f, s) =>
      if p < 8 then
        let s := { s with lnk := { s.lnk with
          msgs := s.lnk.msgs.filter (fun m => m.key != key f), colls := s.lnk.colls.filter (fun c => c.key != key f) } }
        let s := s.modPart p (fun x => ({ x with flights := x.flights.erase f }).settleFill x.cycle)
        s.peerArrival p (agNum a)
      else s)

end Sys2Proof.Machine
end

