-- ==== Sys2Proof/Machine/Links.lean ====
section
/-! DEFINITION. Frames, routing, ports and system time of the Brodund links (chapter 12), with the control messages of R433, R434
and the image relay of R471 that they carry. -/
namespace Sys2Proof.Machine

open Sys2Proof

/-! ## CRCs (R367) -/

def crc32Bit (c : Nat) : Nat := if c % 2 = 1 then (c / 2) ^^^ 0xEDB88320 else c / 2
def crc32Byte (c : Nat) (b : Byte) : Nat :=
  let f := crc32Bit
  f (f (f (f (f (f (f (f (c ^^^ b.toNat))))))))
/-- The CRC-32 of IEEE 802.3: reflected, initial value and final XOR 0xFFFF_FFFF. -/
def crc32 (bs : List Byte) : Nat := (bs.foldl crc32Byte 0xFFFFFFFF) ^^^ 0xFFFFFFFF
/-- FCRC of a tag and its flit. -/
def fcrc (tag : W16) (flit : List Byte) : Nat := crc 16 0x1021 0xFFFF (leBytes 2 tag.toNat ++ flit)

/-! ## Frames (R365, R366) -/

def frameBytes : Nat := 3200
def tagValid (t : W16) : Bool := t.getLsbD 15
def tagType (t : W16) : Nat := bits t.toNat 14 12
def tagOwner (t : W16) : Nat := bits t.toNat 10 8
def tagChannel (t : W16) : Nat := bits t.toNat 7 0

/-- The 128 bytes of a control block (Table 12-3). -/
def controlBlock (seq ack : Nat) (nak : Bool) (tx rx rxSeq : Nat) (tags : List W16) (flits : List (List Byte)) : List Byte :=
  let head (c : Nat) : List Byte := leBytes 2 seq ++ leBytes 2 ack ++ leBytes 1 (b2n nak) ++ leBytes 3 0 ++ leBytes 8 tx ++ leBytes 8 rx ++
    leBytes 2 rxSeq ++ leBytes 2 0 ++ leBytes 4 c
  let tail := tags.flatMap (fun t => leBytes 2 t.toNat) ++ (tags.zip flits).flatMap (fun p => leBytes 2 (fcrc p.1 (pad128 p.2)))
  head (crc32 (head 0 ++ tail)) ++ tail

/-- A frame of 3,200 bytes. -/
def frameOf (seq ack : Nat) (nak : Bool) (tx rx rxSeq : Nat) (tags : List W16) (flits : List (List Byte)) : List Byte :=
  controlBlock seq ack nak tx rx rxSeq tags flits ++ flits.flatMap pad128

/-- Codeword `k` of a frame (R364): a 20-bit header, the index over the marker, then 640 bytes of the frame. DESIGN CHOICE (log entry 59): the
header stands in the low 20 of the 5,140 bits, and the first byte follows it. -/
def codeword (k : Nat) (frame : List Byte) : Nat := k * 2 ^ 17 + 0x15A3C + leNat ((frame.drop (640 * k)).take 640) * 2 ^ 20

/-- The 514 data symbols of a codeword, of 10 bits each, the low ones first. -/
def dataSymbols (w : Nat) : List (BitVec 10) := (upTo 514).map (fun i => BitVec.ofNat 10 (w / 2 ^ (10 * i)))

/-! ## RS(544,514) (R359). PRESUMED (log entry 69): the field and the generator are those of IEEE 802.3. -/

/-- The field element times x, in GF(2^10) with x^10 = x^3 + 1. -/
def gfDouble (a : Nat) : Nat := if a < 512 then 2 * a else (2 * a - 1024) ^^^ 9
/-- Product in that field, over the low `n` bits of the second factor. -/
def gfMulGo (b : Nat) : Nat → Nat → Nat
  | 0, _ => 0
  | n + 1, a => (if b / 2 ^ (9 - n) % 2 = 1 then a else 0) ^^^ gfMulGo b n (gfDouble a)
def gfMul (a b : Nat) : Nat := gfMulGo b 10 a

/-- The coefficients of a product with x + r, the highest first. -/
def polyTimes (r : Nat) (g : List Nat) : List Nat := (g ++ [0]).zipWith (· ^^^ gfMul r ·) (0 :: g)
/-- The generator: the product of x + 2^i for i from 0 to 29, without its leading 1, the highest coefficient first. -/
def rsGenerator : List Nat := (((upTo 30).foldl (fun (acc : List Nat × Nat) _ => (polyTimes acc.2 acc.1, gfDouble acc.2)) ([1], 1)).1).drop 1

/-- The 30 check symbols of a codeword: the remainder by the generator, the first data symbol being the highest coefficient. -/
def checkSymbols (g : List Nat) (data : List (BitVec 10)) : List (BitVec 10) :=
  (data.foldl (fun (r : List Nat) (d : BitVec 10) =>
    let f := d.toNat ^^^ r.headD 0
    (r.drop 1 ++ [0]).zipWith (· ^^^ gfMul f ·) g) (List.replicate 30 0)).map (BitVec.ofNat 10)

/-- The 544 symbols of a codeword. -/
def symbolsOf (w : Nat) : List (BitVec 10) := dataSymbols w ++ checkSymbols rsGenerator (dataSymbols w)

/-- What the frame last sent puts on a lane: of each codeword, symbol i goes on trained lane i mod w. -/
def Port.laneSymbols (q : Port) (lane : Nat) : List (BitVec 10) :=
  (upTo 5).flatMap (fun k => (symbolsOf (codeword k q.wire)).zipIdx.filterMap (fun x =>
    if q.used[x.2 % q.used.length]? = some lane then some x.1 else none))

def idleTags : List W16 := List.replicate 24 0
def idleFlits : List (List Byte) := List.replicate 24 []

/-! ## Port states (R361 to R363) -/

/-- The power domain of a port. -/
def portDom (port : Nat) : Nat := 6 + port / 6
/-- Lanes of a port with a kind-4 entry in the defect map (R463). -/
def State.failedLanes (s : State) (port : Nat) : Nat :=
  (s.defects.filter (fun w => bits w 31 28 == 4 && bits w 27 23 == port)).foldl (fun m w => m ||| (2 ^ bits w 22 21)) 0

def portEnabled (q : Port) : Bool := q.ctrl.getLsbD 0

/-- Training begins: nothing is known of lanes, width and peer. -/
def Port.train (q : Port) : Port :=
  { q with state := .laneTrain, cause := 0, lanes := 0, ownLanes := 0, widthCode := 0, used := [], peerValid := false }

/-- A port leaves OFF as soon as its domain is On and ENABLE is set. -/
def State.portStart (s : State) (port : Nat) : State :=
  let q := s.port port
  if q.state = .off && portEnabled q && s.domOn (portDom port) then s.setPort port q.train else s

/-- The part runs free when its parent port leaves ACTIVE (R391). -/
def State.parentLost (s : State) (port : Nat) : State :=
  if s.lnk.following && s.lnk.parent = port then
    { s with lnk := { s.lnk with following := false, timeState := 0 }, steer := 0 }.post 0x305 none ccAgent port 0
  else s

/-- A port goes DOWN with a cause; a fault in service posts the link-down event. -/
def State.portDown (s : State) (port cause : Nat) (fault : Bool) : State :=
  let was := (s.port port).state
  let s := s.modPort port (fun q => { q with state := .down, cause := cause })
  if was = .active then
    let s := if fault then s.post 0x301 none (linkAgent port) cause 0 else s
    s.parentLost port
  else s

/-- A running forme names the link group of a port (R524). -/
def State.groupInUse (s : State) (port : Nat) : Bool := partNums.any (fun p =>
  ((s.part p).status == .running || (s.part p).status == .frozen) && bit (s.part p).image.linkMask (linkGroup port))

/-- ENABLE of a port becomes 0: DOWN with cause HOST; a port whose domain is not On stays OFF. DESIGN CHOICE (log entry 70): while a running
forme names the link group, a write that would take the port out of service leaves ENABLE as it is. -/
def State.portOff (s : State) (port : Nat) : State :=
  if s.groupInUse port then s else
  let s := s.modPort port (fun q => { q with ctrl := q.ctrl &&& 0x1FE })
  if (s.port port).state = .off then s else s.portDown port 5 false

/-- ENABLE of a port becomes 1: a port that was disabled trains, once its domain is On. -/
def State.portOn (s : State) (port : Nat) : State :=
  let q := s.port port
  if portEnabled q then s
  else
    let q := { q with ctrl := q.ctrl ||| 1 }
    let s := s.setPort port q
    if q.state = .down && s.domOn (portDom port) then s.setPort port q.train else s.portStart port

/-- RETRAIN (R363): a port in service or DOWN trains again while its domain is On and it is enabled. -/
def State.portRetrain (s : State) (port : Nat) : State :=
  let q := s.port port
  if s.domOn (portDom port) && portEnabled q && q.state ≠ .loopback && q.state ≠ .off then
    let s := s.setPort port q.train
    if q.state = .active then s.parentLost port else s
  else s

/-- LOOPBACK: modes 1 and 2 test while the port's domain is On, and while no running forme names the link group (log entry 70); 0 ends the test; 3
is reserved. -/
def State.portLoop (s : State) (port mode : Nat) : State :=
  if mode ≥ 3 || (mode != 0 && s.groupInUse port) then s else
  let q := s.port port
  let q' := { q with ctrl := BitVec.ofNat 9 (setBits q.ctrl.toNat 5 4 mode) }
  if mode = 0 then
    if q.state = .loopback then (s.setPort port { q' with state := .off }).portStart port else s.setPort port q'
  else if !s.domOn (portDom port) then s.setPort port q'
  else
    let s := s.setPort port { q' with state := .loopback, cause := 0 }
    if q.state = .active then s.parentLost port else s

/-- PORT_ENABLE: ENABLE from 0 to 1 starts lane training. -/
def execPortEnable (port : Nat) (s : State) : Out := s.direct (fun s => if port < 18 then s.portOn port else s)
/-- PORT_DISABLE: clearing ENABLE sends the port DOWN with cause HOST. -/
def execPortDisable (port : Nat) (s : State) : Out :=
  s.direct (fun s => if port < 18 && portEnabled (s.port port) then s.portOff port else s)
/-- RETRAIN: the port trains again. -/
def execRetrain (port : Nat) (s : State) : Out := s.direct (fun s => if port < 18 then s.portRetrain port else s)
/-- LOOPBACK: into or out of the test loopback. -/
def execLoopback (port mode : Nat) (s : State) : Out := s.direct (fun s => if port < 18 then s.portLoop port mode else s)

/-- LANE_TRAIN_DONE: the lanes that passed; a lane with a kind-4 entry never does (R463). -/
def execLaneTrainDone (port mask : Nat) (s : State) : Out :=
  let q := s.port port
  .next (if port < 18 && q.state = .laneTrain then
      s.setPort port { q with state := .width, ownLanes := (mask % 16) &&& (15 ^^^ s.failedLanes port) }
    else s)

/-- LANE_TRAIN_TIMEOUT: no peer signal within the limit. -/
def execLaneTrainTimeout (port : Nat) (s : State) : Out :=
  .next (if port < 18 && (s.port port).state = .laneTrain then s.portDown port 1 false else s)

/-- The width code for the lanes that pass at both ends (R362). -/
def widthOf (lanes : Nat) : Nat := if lanes = 15 then 3 else if lanes % 4 = 3 || lanes / 4 = 3 then 2 else if lanes ≠ 0 then 1 else 0

/-- The lanes used at a width code (R362): the lower pair where both its lanes pass, the lowest passing lane alone. -/
def lanesUsed (lanes w : Nat) : List Nat := match w with
  | 3 => [0, 1, 2, 3]
  | 2 => if lanes % 4 = 3 then [0, 1] else [2, 3]
  | 1 => ((upTo 4).filter (bit lanes)).take 1
  | _ => []

/-- WIDTH_EXCHANGE: the ends agree on a width, or the port goes DOWN. -/
def execWidthExchange (port peerMask : Nat) (s : State) : Out :=
  let q := s.port port
  let both := q.ownLanes &&& (peerMask % 16)
  let w := widthOf both
  .next (if port < 18 && q.state = .width then
      let s := s.setPort port { q with lanes := both, widthCode := w, used := lanesUsed both w }
      if w = 0 then s.portDown port 2 false
      else if w < bits q.ctrl.toNat 2 1 + 1 then s.portDown port 3 false
      else s.modPort port (fun q => { q with state := .ident })
    else s)

/-- IDENT_EXCHANGE: the port becomes ACTIVE; both ends begin with SEQ 0 and nothing outstanding (log entry 13). -/
def execIdentExchange (port serial peerPort peerPart : Nat) (s : State) : Out :=
  let q := s.port port
  .next (if port < 18 && q.state = .ident then
      s.setPort port { q with
        state := .active, peerValid := true, peerSerial := BitVec.ofNat 64 serial, peerPort := peerPort % 32, peerPart := peerPart % 65536,
        txSeq := 0, rxNext := 0, nak := false, discarding := false, sent := [], replayAt := 0, txTimes := [], rxSeq := 0, rxTime := 0,
        exchanges := 0, offsetSum := 0, mean := none, lastOffset := none, lastDelay := none }
    else s)

/-- A watchdog that is due reaches the event sequencer ahead of a link event of the same cycle (Table 14-4, R436). -/
def State.expireAll (s : State) : State := partNums.foldl State.expireDue s

/-- PORT_FAULT (R363): a fault in service with its cause, 1 to 6. -/
def execPortFault (port cause : Nat) (s : State) : Out :=
  .next (if port < 18 && (s.port port).state = .active && 1 ≤ cause && cause ≤ 6 then s.expireAll.portDown port cause true else s)

/-! ## Routes (R380) -/

/-- Direction of a ring towards a coordinate: 0 for +, 1 for −; a tie goes towards +. -/
def ringDir (size own dest : Nat) : Nat := if 2 * ((dest + size - own) % size) ≤ size then 0 else 1

/-- The derived entry of one destination. -/
def State.deriveOne (s : State) (dx dy own x y z dz : Nat) : Nat :=
  let dest := x + 32 * y + 1024 * z
  if dest = own then 0xFE else
  let ox := own % 32
  let oy := own / 32 % 32
  let oz := own / 1024
  let dir := if x ≠ ox then ringDir dx ox x else if y ≠ oy then 2 + ringDir dy oy y else 4 + ringDir dz oz z
  let ports := (upTo 3).map (fun k => 6 * k + dir) |>.filter (fun q => decide ((s.port q).state = .active))
  if ports.isEmpty then 0xFF else ports.getD (dest % 3 % ports.length) 0xFF

/-- The dimensions that LNK_TORUS holds. -/
def State.torus (s : State) : Nat × Nat × Nat :=
  let t := s.lnk.torus.toNat
  (bits t 5 0, bits t 13 8, bits t 21 16)

/-- The part's own number lies inside the torus. -/
def State.selfInside (s : State) : Bool :=
  let (x, y, z) := s.torus
  let n := s.selfPart
  n % 32 < x && n / 32 % 32 < y && n / 1024 < z

/-- A change of the route table: the part may follow a new parent (R391). -/
def State.parentAgain (s : State) : State :=
  if !s.rst.everReady then s else
  let root := s.lnk.root.toNat
  if root = s.selfPart then { s with lnk := { s.lnk with timeState := 3, following := false, parent := 0 }, steer := 0 }
  else
    let q := s.routeOf root
    let on := q < 18 && (s.port q).state = .active
    { s with lnk := { s.lnk with parent := if q < 18 then q else s.lnk.parent, following := on,
                                 timeState := if on then (if s.lnk.timeState = 2 && s.lnk.parent = q then 2 else 1) else 0 } }

/-- Firmware derives LNK_ROUTE in the basic view (R380). -/
def State.deriveRoutes (s : State) : State :=
  if s.lnk.level then s else
  let (dx, dy, dz) := s.torus
  let entries := (upTo dz).flatMap (fun z => (upTo dy).flatMap (fun y => (upTo dx).map (fun x =>
    (x + 32 * y + 1024 * z, BitVec.ofNat 8 (if s.selfInside then s.deriveOne dx dy s.selfPart x y z dz else 0xFF)))))
  let t := entries.filter (fun e => e.2 != 0xFF)
  { s with lnk := { s.lnk with route := if s.selfInside then t else tset 0xFF t s.selfPart 0xFE } }.parentAgain

/-- A write of LNK_CTRL. -/
def State.writeLnkCtrl (s : State) (v : W32) : State := { s with lnk := { s.lnk with level := v.getLsbD 0 } }.deriveRoutes
/-- A write of LNK_SELF, without effect once locked. -/
def State.writeLnkSelf (s : State) (v : W32) : State :=
  if s.lnk.lock then s else { s with lnk := { s.lnk with self := v.setWidth 16, lock := v.getLsbD 31 } }.deriveRoutes
/-- A write of LNK_TORUS, without effect with a field outside its range. -/
def State.writeLnkTorus (s : State) (v : W32) : State :=
  let n := v.toNat
  if bits n 5 0 ≤ 32 && bits n 13 8 ≤ 32 && bits n 21 16 ≤ 48 then
    { s with lnk := { s.lnk with torus := v &&& 0x003F3F3F } }.deriveRoutes
  else s
/-- A write of LNK_TIME_ROOT: the part takes its parent again. -/
def State.writeTimeRoot (s : State) (v : W32) : State := { s with lnk := { s.lnk with root := v.setWidth 16 } }.parentAgain

/-! ## Transmission (R368 to R370) -/

/-- The owner of a cell of a link group's calendar, 0 to 8. -/
def State.cellOwner (s : State) (w c : Nat) : Option Nat :=
  (upTo 9).find? (fun o => decide (s.weirFirst w o ≤ c) && decide (c < s.weirFirst w o + s.weirCells w o))

/-- Payload bytes of a data flit. -/
def Msg.payload (m : Msg) : Nat := if m.routed then 120 else 128
/-- Whether a message can send its next flit within its grant (R375). -/
def Msg.ready (m : Msg) : Bool :=
  let n := min m.payload (m.length - m.sent)
  m.isSend && !m.ended && n != 0 && m.sent + n ≤ m.granted

/-- A SEND sends from a stack what has passed the weir there (R373). -/
def State.msgReady (s : State) (m : Msg) : Bool :=
  m.ready && (m.coll || decide (m.sent + min m.payload (m.length - m.sent) ≤ m.granted - s.bytesLeft (linkAgent m.port) (msgAsk m.id) false))

/-- The bytes of a message's next flit, read for sending. -/
def State.msgRead (s : State) (m : Msg) (n : Nat) : Run × State :=
  if m.coll then ((m.data.drop m.sent).take n, s)
  else s.refRead { p := m.partition, cyc := (s.part m.partition).cycle, agent := linkAgent m.port, action := m.action } m.buf m.sent n

/-- WHERE of the byte at an offset of a message to send (Table 17-3). -/
def State.msgWhere (s : State) (m : Msg) (off : Nat) : Nat :=
  match lookupBy (fun c => c.same m) s.lnk.colls with
  | some c =>
    let d := CollDesc.parse c.desc
    c.whereOf ((((collStep d.kind d.eb c.table d.n d.rank c.step)[m.buf]?).map (·.lo)).getD 0 + off)
  | none => refWhere m.buf off

/-- The next data flit of an owner at a port. Poison read for sending is consumed and ends the sending (R521). -/
def State.nextFlit (port o : Nat) : Nat → State → Option (W16 × List Byte × (Nat × Nat)) × State
  | 0, s => (none, s)
  | fuel + 1, s =>
    let here (m : Msg) : Bool := m.link == port && m.partition == o && s.msgReady m
    match lookupBy here s.lnk.msgs with
    | none => (none, s)
    | some m =>
      let n := min m.payload (m.length - m.sent)
      let (r, s) := s.msgRead m n
      if Run.origin r ≠ 0 then
        State.nextFlit port o fuel
          (s.linkConsume m.key (s.part m.partition).cycle (Run.origin r) (s.msgWhere m (m.sent + Run.firstBad r)))
      else
        let s := { s with lnk := { s.lnk with msgs := modFirst here (fun m => { m with sent := m.sent + n, unackd := m.unackd + n }) s.lnk.msgs } }
        let bytes := if m.routed then routedHeader m.peer s.selfPart m.owner 1 m.channel 64 ++ Run.plain r else Run.plain r
        (some (if m.routed then mkTag 2 0 0 else mkTag 1 m.owner m.channel, pad128 bytes, (m.id, n)), s)

/-- Fills flit positions `k` of the next frame from the calendar: each takes two consecutive cells of one owner. -/
def State.fillPositions (port : Nat) : Nat → Nat → State → List (W16 × List Byte) × List (Nat × Nat) × State
  | 0, _, s => ([], [], s)
  | n + 1, c, s =>
    let w := 0x140 + linkGroup port
    let o1 := s.cellOwner w (c % 64)
    let o2 := s.cellOwner w ((c + 1) % 64)
    let (f, cr, s) : (W16 × List Byte) × List (Nat × Nat) × State :=
      if o1 ≠ o2 then ((0, []), [], s) else
      match o1 with
      | none => ((0, []), [], s)
      | some o =>
        if o = 8 then
          match (s.port port).queue with
          | [] => ((0, []), [], s)
          | q :: rest => ((q.tag, q.bytes), [], s.modPort port (fun x => { x with queue := rest }))
        else match State.nextFlit port o (s.lnk.msgs.length + 1) s with
          | (some (t, b, k), s) => ((t, b), [k], s)
          | (none, s) => ((0, []), [], s)
    let (fs, crs, s) := State.fillPositions port n (c + 2) s
    (f :: fs, cr ++ crs, s)

/-- Puts a frame on the wire: its control block carries the present ACK, NAK and times; TX_TIME is kept (R390). -/
def State.sendFrame (s : State) (port seq : Nat) (tags : List W16) (flits : List (List Byte)) : State :=
  let q := s.port port
  let now := s.es.time.toNat
  let bytes := frameOf seq (q.rxNext - 1).toNat q.nak now q.rxTime.toNat q.rxSeq.toNat tags flits
  s.setPort port { q with wire := bytes, nak := false, cell := (q.cell + 48) % 64, txTimes := (q.txTimes ++ [(seq, now)]).drop (q.txTimes.length - 255) }

/-- FRAME_TRANSMIT: a port sends its next frame: a replay, an idle frame while 128 are not acknowledged, or a new one. An idle frame
of the second kind repeats the last SEQ and is not kept (log entry 13). -/
def execFrameTransmit (port : Nat) (s : State) : Out :=
  let s := s.linkGo
  let q := s.port port
  .next (if port ≥ 18 || q.state ≠ .active then s else
    match q.sent[q.replayAt]? with
    | some f =>
      if 8 ≤ f.tries then s.expireAll.portDown port 4 true
      else
        let s := s.setPort port { q with sent := q.sent.set q.replayAt { f with tries := f.tries + 1 }, replayAt := q.replayAt + 1 }
        (s.sendFrame port f.seq.toNat f.tags f.flits).count port 3
    | none =>
      if 128 ≤ q.sent.length then s.sendFrame port (q.txSeq - 1).toNat idleTags idleFlits
      else
        let (fs, cr, s) := State.fillPositions port 24 q.cell s
        let tags := fs.map (·.1)
        let flits := fs.map (·.2)
        let s := s.modPort port (fun q => { q with
          sent := q.sent ++ [{ seq := q.txSeq, tags := tags, flits := flits, carried := cr, tries := 0 }],
          replayAt := q.sent.length + 1, txSeq := q.txSeq + 1 })
        s.sendFrame port (((s.port port).txSeq - 1).toNat) tags flits)

/-! ## Control messages and the image relay (R433, R434, R471) -/

/-- Whether a byte of the boot image is held. -/
def RstRegs.holds (r : RstRegs) (i : Nat) : Bool := r.bootHave.any (fun x => decide (x.1 ≤ i) && decide (i < x.1 + x.2))

/-- Image bytes of a data message enter the boot buffer of a part that boots from its neighbours (BOOT_SRC high); bytes already held are
ignored. -/
def State.relayData (s : State) (off total : Nat) (bs : List Byte) : State :=
  if s.rst.state ≠ .boot || !s.rst.bootStrap || s.rst.bootHost || total = 0 || total > 1048576 then s else
  let new := bs.zipIdx.filter (fun b => !s.rst.holds (off + b.2) && decide (off + b.2 < total))
  let buf := new.foldl (fun t b => tset 0 t (off + b.2) b.1) s.rst.bootBuf
  { s with rst := { s.rst with bootBuf := buf, bootTotal := total,
                               bootHave := if new.isEmpty then s.rst.bootHave else s.rst.bootHave ++ [(off, bs.length)] } }

/-- A control header (Table 14-3) and its flit. -/
def controlFlit (dest src kind ttl msg index count : Nat) (payload : List Byte) : List Byte :=
  pad128 (leBytes 2 dest ++ leBytes 2 src ++ leBytes 1 kind ++ leBytes 1 ttl ++ leBytes 2 msg ++ leBytes 1 index ++ leBytes 1 count ++
    leBytes 2 payload.length ++ leBytes 4 0 ++ payload)

def State.queueControl (s : State) (port : Nat) (flit : List Byte) : State := s.queueFlit port { tag := mkTag 4 0 0, bytes := flit }

/-- A neighbour with RELAY set answers an image request on the same port: messages of up to 255 flits of 100 image bytes. -/
def State.relayAnswer (s : State) (port off len : Nat) : State :=
  if !s.rst.relay || !s.rst.fwRunning then s else
  let total := s.rst.bootTotal
  let bs := readBytes s.rst.bootBuf off (min len (total - off))
  let pieces := (groupsOf 100 bs.length bs).zipIdx
  let msgs := groupsOf 255 pieces.length pieces
  msgs.foldl (fun s m =>
    let id := s.cc.msgNext.toNat
    let s := { s with cc := { s.cc with msgNext := s.cc.msgNext + 1 } }
    m.zipIdx.foldl (fun s x =>
      s.queueControl port (controlFlit 0xFFFF s.selfPart 1 1 id x.2 m.length
        (leBytes 1 2 ++ leBytes 3 0 ++ leBytes 4 (off + 100 * x.1.2) ++ leBytes 4 total ++ x.1.1))) s) s

/-- A link-protocol event (R376, R434), with the flit counted in UNMATCHED. -/
def State.unmatched (s : State) (port src owner channel : Nat) : State :=
  (s.count port 4).post 0x302 none (linkAgent port) src (owner + 256 * channel)

/-- A transit flit is dropped and counted; one event per port and 1 ms (R381). -/
def State.transitDrop (s : State) (port word dest src : Nat) : State :=
  let s := s.count port word
  let now := s.es.time.toNat
  let due : Bool := match (s.port port).lastDiscard with | some t => decide (t + 1000000 ≤ now) | none => true
  if due then (s.modPort port (fun q => { q with lastDiscard := some now })).post 0x303 none (linkAgent port) dest src else s

/-- Forwards a flit towards another part in the cells of owner 8 (R381); its TTL stands at byte `at'`. -/
def State.forward (s : State) (port dest src at' : Nat) (tag : W16) (flit : List Byte) : State :=
  let ttl := byteAt flit at' - 1
  let out := s.routeOf dest
  if ttl = 0 || out ≥ 18 then s.transitDrop port 6 dest src
  else if s.weirDepth (0x140 + linkGroup out) 8 ≤ 2 * (s.port out).queue.length then s.transitDrop port 5 dest src
  else s.queueFlit out { tag := tag, bytes := flit.set at' (BitVec.ofNat 8 ttl) }

/-- The history of the last 65,536 broadcast messages (R434): whether the flit is new, and the history with it. -/
def seenFlit (h : List (Nat × Nat × List Nat)) (src msg index : Nat) : Bool × List (Nat × Nat × List Nat) :=
  match lookupBy (fun e => e.1 == src && e.2.1 == msg) h with
  | some e => if e.2.2.contains index then (false, h) else (true, h.map (fun x => if x.1 = src && x.2.1 = msg then (src, msg, index :: x.2.2) else x))
  | none => (true, ((src, msg, [index]) :: h).take 65536)

/-- What a part's own firmware or ROM does with a control flit: the image relay acts here, a replica digest arrives as its own
command (DIGEST_RECEIVED), a firmware message changes no state that the source describes. -/
def State.controlDeliver (s : State) (port : Nat) (flit : List Byte) : State :=
  let pay := flit.drop 16
  if byteAt flit 4 = 1 then
    match byteAt pay 0 with
    | 1 => s.relayAnswer port (fld pay 4 4) (fld pay 8 4)
    | 2 => s.relayData (fld pay 4 4) (fld pay 8 4) ((pay.drop 12).take (fld flit 0xA 2 - 12))
    | _ => s
  else s

/-- A broadcast flit goes on at every ACTIVE port but the one it came in on. -/
def State.spread (s : State) (port : Nat) (flit : List Byte) : State :=
  let ttl := byteAt flit 5 - 1
  if ttl = 0 then s else
  ((upTo 18).filter (fun q => q != port && decide ((s.port q).state = .active))).foldl
    (fun s q => s.queueControl q (flit.set 5 (BitVec.ofNat 8 ttl))) s

/-- A CONTROL flit arrives (R434). -/
def State.controlFlitIn (s : State) (port : Nat) (flit : List Byte) : State :=
  let dest := fld flit 0 2
  let src := fld flit 2 2
  let kind := byteAt flit 4
  if kind = 0 || kind > 3 then s.unmatched port src 0 0
  else if dest = 0xFFFF then
    if kind = 1 then (s.controlDeliver port flit).spread port flit
    else
      let (new, h) := seenFlit s.cc.seen src (fld flit 6 2) (byteAt flit 8)
      if new then (({ s with cc := { s.cc with seen := h } }).controlDeliver port flit).spread port flit else s
  else if dest = s.selfPart then s.controlDeliver port flit
  else s.forward port dest src 5 (mkTag 4 0 0) flit

/-! ## Reception (R368, R369, R375, R376, R381, R390) -/

/-- Delivers data to the receiving message that matches (R375); what matches none or exceeds its grant is discarded (R376). -/
def State.deliverData (s : State) (port src owner channel : Nat) (routed : Bool) (payload : List Byte) : State :=
  let fits (m : Msg) : Bool := !m.isSend && m.partition == owner && m.channel == channel && m.peer == src && m.routed == routed &&
    (routed || m.link == port) && m.sent != m.length
  match lookupBy fits s.lnk.msgs with
  | none => s.unmatched port src owner channel
  | some m =>
    let n := min payload.length (m.length - m.sent)
    if m.granted < m.sent + n then s.unmatched port src owner channel
    else
      let r := Run.sound (payload.take n)
      let m' := { m with sent := m.sent + n, data := if m.coll then m.data ++ r else m.data }
      let s := { s with lnk := { s.lnk with msgs := modFirst fits (fun _ => m') s.lnk.msgs } }
      let s := if m.coll then s else s.refPut m.key m.buf m.sent r false
      let s := if m.coll && m'.sent = m.length then s.collReceived m' else s
      s.giveUnits m.link

/-- The grant records of a flit, up to `n`, that came in direct on a port or ROUTED. -/
def State.grantsIn (s : State) (way : Option Nat) (owner n : Nat) (bs : List Byte) : State :=
  (upTo n).foldl (fun s k =>
    let r := (bs.drop (16 * k)).take 16
    if fld r 4 4 = 0 then s
    else s.takeGrant { port := way, granter := fld r 2 2, owner := owner, channel := byteAt r 0, bytes := fld r 4 4, check := fld r 8 4 }) s

/-- One valid flit of an accepted frame. -/
def State.flitIn (s : State) (port : Nat) (tag : W16) (flit : List Byte) : State :=
  match tagType tag with
  | 1 => s.deliverData port (s.port port).peerPart (tagOwner tag) (tagChannel tag) false flit
  | 2 =>
    let dest := fld flit 0 2
    let o := byteAt flit 4
    if dest = s.selfPart then
      if bits o 6 4 = 3 then s.grantsIn none (bits o 2 0) 7 (flit.drop 8)
      else s.deliverData port (fld flit 2 2) (bits o 2 0) (byteAt flit 5) true (flit.drop 8)
    else s.forward port dest (fld flit 2 2) 6 tag flit
  | 3 => s.grantsIn (some port) (tagOwner tag) 8 flit
  | 4 => s.controlFlitIn port flit
  | _ => s

/-- `a` is `b` or lies before it, by serial-number arithmetic on 16 bits. -/
def seqLe (a b : W16) : Bool := (b - a).toNat < 32768

/-- Frames up to ACK are acknowledged: the bytes they carried count for the messages that sent them (R377). -/
def State.acked (s : State) (port : Nat) (ack : W16) (nak : Bool) : State :=
  let q := s.port port
  let (old, rest) := q.sent.span (fun f => seqLe f.seq ack)
  let carried := old.flatMap (·.carried)
  let msgs := carried.foldl (fun ms (c : Nat × Nat) => modFirst (fun (m : Msg) => m.id == c.1) (fun m => { m with unackd := m.unackd - c.2 }) ms) s.lnk.msgs
  let at' := if nak then 0 else if q.sent.length ≤ q.replayAt then rest.length else q.replayAt - old.length
  { s with lnk := { s.lnk with msgs := msgs } }.setPort port { q with sent := rest, replayAt := at' }

/-- The time exchange of a frame (R390): twice the peer's offset and twice the one-way delay. Each 1,024 consecutive exchanges make a mean
(R391). -/
def Port.exchanged (q : Port) (t1 t2 t3 t4 : Nat) : Port :=
  let offset := ((t2 : Int) - t1) - ((t4 : Int) - t3)
  let q := { q with lastOffset := some offset, lastDelay := some (((t2 : Int) - t1) + ((t4 : Int) - t3)) }
  if q.exchanges + 1 = 1024 then { q with exchanges := 0, offsetSum := 0, mean := some (q.offsetSum + offset) }
  else { q with exchanges := q.exchanges + 1, offsetSum := q.offsetSum + offset }

/-- A frame received whole: where it acknowledges the frame that its RX_SEQ names, their times make an exchange (R390); it is the last such frame
(RX_SEQ, RX_TIME). -/
def State.exchange (s : State) (port : Nat) (content : List Byte) : State :=
  let q := s.port port
  let q := match lookupBy (fun t => t.1 == fld content 0x18 2 && seqLe (BitVec.ofNat 16 t.1) (BitVec.ofNat 16 (fld content 2 2))) q.txTimes.reverse with
    | some (_, t1) => q.exchanged t1 (fld content 0x10 8) (fld content 0x08 8) s.es.time.toNat
    | none => q
  s.setPort port { q with rxSeq := BitVec.ofNat 16 (fld content 0 2), rxTime := s.es.time }

/-- Whether a frame is whole: every codeword decodes, CB_CRC and every FCRC of a valid position match (R368). -/
def frameWhole (words : List Codeword) (content : List Byte) : Bool :=
  let cb := content.take 128
  let zeroed := cb.take 0x1C ++ leBytes 4 0 ++ cb.drop 0x20
  words.all Codeword.decodes && content.length = frameBytes && crc32 zeroed = fld cb 0x1C 4 &&
    (upTo 24).all (fun k =>
      let t := BitVec.ofNat 16 (fld cb (0x20 + 2 * k) 2)
      !tagValid t || fcrc t ((content.drop (128 + 128 * k)).take 128) = fld cb (0x50 + 2 * k) 2)

/-- FRAME_RECEIVE: a frame is accepted whole and in order, or discarded until the replay arrives (R368). A NAK goes out once for a
run of discarded frames and again when a damaged frame may have been the replay (log entry 13). -/
def execFrameReceive (port : Nat) (words : List Codeword) (content : List Byte) (s : State) : Out :=
  .next (if port ≥ 18 || (s.port port).state ≠ .active then s else
    let s := s.expireAll.linkGo
    let s := words.foldl (fun s w => if w.wrong = 0 then s else s.count port (if w.decodes then 1 else 2)) s
    let whole := frameWhole words content
    let s := if whole then s.exchange port content else s
    if whole && BitVec.ofNat 16 (fld content 0 2) = (s.port port).rxNext then
      let s := s.modPort port (fun q => { q with rxNext := q.rxNext + 1, discarding := false, nak := false })
      let s := (s.count port 0).acked port (BitVec.ofNat 16 (fld content 2 2)) (bit (byteAt content 4) 0)
      (upTo 24).foldl (fun s k =>
        let t := BitVec.ofNat 16 (fld content (0x20 + 2 * k) 2)
        if tagValid t then s.flitIn port t ((content.drop (128 + 128 * k)).take 128) else s) s
    else s.modPort port (fun q => { q with discarding := true, nak := q.nak || !q.discarding || !whole }))

/-! ## System time (R391) -/

/-- TIME_STEER: by the mean of 1,024 exchanges firmware steers by at most ±200 ppm. How far it steers, and the rounding of OFFSET, are free
values (log entry 14). -/
def execTimeSteer (s : State) : Out :=
  let port := s.lnk.parent
  .next (match (s.port port).mean with
    | some sum =>
      if s.lnk.following && s.rst.everReady then
        let (k1, s) := s.draw
        let (k2, s) := s.draw
        let mean := sum / 2048 + (if sum % 2048 ≠ 0 then ((k1 % 2 : Nat) : Int) else 0)
        let locked := -4096 ≤ sum && sum ≤ 4096
        let s := s.modPort port (fun q => { q with mean := none })
        { s with steer := ((k2 % 401 : Nat) : Int) - 200,
                 lnk := { s.lnk with timeState := if locked then 2 else 1, offset := BitVec.ofNat 16 (ofSigned 16 (clampInt (-32767) 32767 mean)) } }
      else s
    | none => s)

end Sys2Proof.Machine
end

