-- ==== Sys2Proof/Machine/UpdateEngine.lean ====
section
/-! DEFINITION. Update-engine actions (chapter 08) and the accumulate-writes that reservoir engines apply (chapter 07). -/
namespace Sys2Proof.Machine

open Sys2Proof

/-! ## Validity (R226, R227) -/

/-- The arrays that the opcode and rule use: bits of W, R, M, V, G. -/
def UpdDesc.uses (d : UpdDesc) (op : Nat) : Nat :=
  match op with
  | 0x62 => 0x13 + (if d.rule ≤ 1 then 4 else 0) + (if d.rule = 0 then 8 else 0)
  | 0x63 => d.sel % 16
  | _ => 0x10

/-- Whether the operation writes a digest record. -/
def UpdDesc.digests (d : UpdDesc) (op : Nat) : Bool := op = 0x63 || (op = 0x62 && bit d.sel 0)

/-- Every array that the descriptor names, the digest record included. -/
def UpdDesc.named (d : UpdDesc) (op : Nat) : List (Nat × Nat) := d.spans op ++ (if d.digests op then [(d.aux, 32)] else [])

/-- The resources of an operation in R74 order: its engine, then the bank of core memory that SUMSQ's AUX names (R140, R237). -/
def UpdDesc.resources (d : UpdDesc) (op e : Nat) : List Nat :=
  resEngine e :: (if op = 0x61 then [resBank (d.aux / 2 ^ 32) (d.aux % 2 ^ 32 / 131072)] else [])

def State.updValid (s : State) (p agent op : Nat) (d : UpdDesc) : Bool :=
  let u := d.uses op
  let nme := agKind agent = 2
  let free (i a : Nat) : Bool := bit u i || a = 0
  (nme || agKind agent = 3) && !d.rsv && d.count % 32 = 0 && 32 ≤ d.count && d.count ≤ 67108864 &&
    (if op = 0x62 then d.rule ≤ 2 && d.sel ≤ 1 else d.rule = 0 && (if op = 0x63 then d.sel < 16 else d.sel = 0)) &&
    d.mfmt ≤ 1 && (d.mfmt = 0 || bit u 2 || bit u 3) &&
    free 0 d.w && free 1 d.r && free 2 d.m && free 3 d.v && free 4 d.g &&
    (if op = 0x61 then d.aux < 2 ^ 48 && d.aux % 2 ^ 32 % 4 = 0 && d.aux % 2 ^ 32 + 4 ≤ coreBytes && coreOk (d.aux / 2 ^ 32) &&
        bit (s.lay p).fields (coreField (d.aux / 2 ^ 32))
     else d.digests op || d.aux = 0) &&
    (d.named op).all (fun x => x.1 < 2 ^ 57 && x.1 % 64 = 0 && s.inChannel nme (agNum agent) x.1 x.2)

/-! ## Spans -/

/-- One array of a span as read. -/
structure Arr where
  addr : Nat
  width : Nat
  run : Run
  deriving DecidableEq, Repr

/-- Element `k` of an array, and the origin of its poison. -/
def Arr.elem (a : Arr) (k : Nat) : Nat := leNat (Run.plain ((a.run.drop (k * a.width)).take a.width))
def Arr.poison (a : Arr) (k : Nat) : Nat := Run.origin ((a.run.drop (k * a.width)).take a.width)

/-- Reads an array of the engine's own channel; parts that are not served come as poison (R298). -/
def State.readArr (s : State) (w : Who) (addr width count : Nat) : Arr × State :=
  let (r, _, s) := s.agentRead w addr (width * count)
  ({ addr := addr, width := width, run := r }, s)

/-- The first poisoned element of a list of arrays, with its origin and address. -/
def firstBad (count : Nat) (as : List Arr) : Option (Nat × Nat × Nat) :=
  ((upTo count).find? (fun k => as.any (fun a => a.poison k != 0))).bind (fun k =>
    (as.find? (fun a => a.poison k != 0)).map (fun a => (k, a.poison k, a.addr + k * a.width)))

/-- The CRC-64 of an array's bytes (R238). -/
def Arr.crc (a : Arr) : Nat := crc64 (Run.plain a.run)

/-! ## Time (R230) -/

/-- Bytes moved per element (Table 08-2). -/
def UpdDesc.perElem (d : UpdDesc) (op : Nat) : Nat :=
  match op with
  | 0x62 => match d.rule with | 0 => 20 + 4 * d.mw | 1 => 20 + 2 * d.mw | _ => 20
  | 0x63 => 2 * b2n (bit d.sel 0) + 2 * b2n (bit d.sel 1) + d.mw * b2n (bit d.sel 2) + d.mw * b2n (bit d.sel 3)
  | _ => 6

/-- Clock units of the work itself, without the 100 ns of the bound. -/
def State.updWork (s : State) (p e op : Nat) (d : UpdDesc) : Nat :=
  max (s.engineTime p e (d.count * d.perElem op)) (cdiv d.count (if e < 256 then 32 else 16) * s.enginePeriod e)

/-! ## Replica spans (R238, R239, R250) -/

/-- Firmware keeps the span record of a digest that is compared on this step, with the step of its agent. -/
def State.keepSpan (s : State) (p agent op : Nat) (d : UpdDesc) (record : List Byte) : State :=
  match (s.part p).replica with
  | none => s
  | some (cadence, _) =>
    let step := ((tget (0 : W32) s.num.step p).toNat + (((s.part p).seqr agent).map (·.steps)).getD 0) % 2 ^ 32
    if cadence = 0 || step % cadence ≠ 0 then s else
    let (layer, shard, tensor) := Config.layerOf d.aux
    let u := d.uses op
    let len (i w : Nat) : Nat := if bit u i then w * d.count else 0
    let e := leBytes 8 d.aux ++ leBytes 8 (len 0 2) ++ leBytes 8 (len 1 2) ++ leBytes 8 (len 2 d.mw) ++ leBytes 8 (len 3 d.mw) ++ record
    s.modPart p (fun x => { x with spans := x.spans ++ [(step, layer, shard, tensor, e)] })

/-- Writes a digest record: the CRCs of W, R, M, V in that order, 0 for an array not in use. -/
def State.putDigest (s : State) (w : Who) (op : Nat) (d : UpdDesc) (origin : Nat) (crcs : List Nat) : State :=
  let rec' := crcs.flatMap (leBytes 8)
  let (_, _, s) := s.agentWrite w d.aux (Run.tainted origin rec')
  s.keepSpan w.p w.agent op d rec'

/-! ## The operations (R233 to R238) -/

/-- What an UPDATE gathers over its elements. -/
structure UpdAcc where
  data : State
  fl : Flags
  bad : Nat              -- non-finite gradients
  first : Nat
  deriving DecidableEq, Repr

/-- The little-endian bytes of a value, stored at a device address. -/
def State.putElem (s : State) (addr width v : Nat) : State := s.devWrite addr (Run.sound (leBytes width v))

/-- One element of an UPDATE (R233). -/
def updOne (sc : StepScalars) (d : UpdDesc) (w r m v g : Arr) (acc : UpdAcc) (k : Nat) : UpdAcc :=
  if [w, r, m, v, g].any (fun a => a.poison k != 0) then acc else
  let p : Param := { w := w.elem k, r := r.elem k, m := m.elem k, v := v.elem k }
  let (p', fl, nonfinite) := updElem sc d.rule (bit d.mfmt 0) p (g.elem k)
  let s := acc.data.putElem (g.addr + 6 * k) 6 0
  let s := if p' = p then s else
    let s := (s.putElem (w.addr + 2 * k) 2 p'.w).putElem (r.addr + 2 * k) 2 p'.r
    let s := if d.rule ≤ 1 then s.putElem (m.addr + d.mw * k) d.mw p'.m else s
    if d.rule = 0 then s.putElem (v.addr + d.mw * k) d.mw p'.v else s
  { data := s, fl := acc.fl ||| fl, bad := acc.bad + b2n nonfinite, first := if nonfinite && acc.bad = 0 then k else acc.first }

/-- UPDATE: the rule on every element, the digest record, the events of R235 and R236. -/
def State.runUpdate (s : State) (c : Ctx) (w : Who) (e : Nat) (d : UpdDesc) : State :=
  let sc := StepScalars.parse (Run.plain (s.read .scalar (scalarAt e) 64))
  let so := Run.origin (s.read .scalar (scalarAt e) 64)
  let none' : Arr := { addr := 0, width := 0, run := [] }
  let (aw, s) := s.readArr w d.w 2 d.count
  let (ar, s) := s.readArr w d.r 2 d.count
  let (am, s) := if d.rule ≤ 1 then s.readArr w d.m d.mw d.count else (none', s)
  let (av, s) := if d.rule = 0 then s.readArr w d.v d.mw d.count else (none', s)
  let (ag, s) := s.readArr w d.g 6 d.count
  let gs := updGs sc
  let acc := if so ≠ 0 then { data := s, fl := Flags.none, bad := 0, first := 0 }
    else (upTo d.count).foldl (updOne sc d aw ar am av ag) { data := s, fl := gs.fl, bad := 0, first := 0 }
  let s := acc.data.orEng e acc.fl
  let fault := if so ≠ 0 then some (0, so, 2 ^ 63 + resEngine e)
    else (firstBad d.count [aw, ar, am, av, ag]).map (fun x => (x.1, x.2.1, whereDev x.2.2))
  let s := if bit d.sel 0 then
      let (nw, s) := s.readArr w d.w 2 d.count
      let (nr, s) := s.readArr w d.r 2 d.count
      let (nm, s) := if d.rule ≤ 1 then s.readArr w d.m d.mw d.count else (none', s)
      let (nv, s) := if d.rule = 0 then s.readArr w d.v d.mw d.count else (none', s)
      s.putDigest w 0x62 d ((fault.map (·.2.1)).getD 0) [nw.crc, nr.crc, nm.crc, nv.crc]
    else s
  let s := if updSkip sc && so = 0 && !(s.part w.p).skipSteps.contains sc.step then
      (s.post 0x103 (some w.p) ccAgent 0 sc.step).modPart w.p (fun x => { x with skipSteps := sc.step :: x.skipSteps })
    else s
  let s := if acc.bad = 0 then s else s.post 0x104 (some w.p) c.agent acc.first (d.opId + acc.bad * 2 ^ 32)
  match fault with
  | some (_, o, at') => s.consume w.p w.cyc o c.agent c.idx at'
  | none => s

/-- RCLEAR writes +0 to the span's reservoir elements; a whole block's poison is cleared (R519). -/
def State.runRclear (s : State) (w : Who) (d : UpdDesc) : State :=
  (s.agentWrite w d.g (Run.sound (List.replicate (6 * d.count) 0))).2.2

/-- SUMSQ (R237): the sum goes to the destination core's memory. -/
def State.runSumsq (s : State) (c : Ctx) (w : Who) (e : Nat) (d : UpdDesc) : State :=
  let rec' := s.read .scalar (scalarAt e) 64
  let sc := StepScalars.parse (Run.plain rec')
  let (ag, s) := s.readArr w d.g 6 d.count
  let t := sumSquares sc ((upTo d.count).map ag.elem)
  let o := if Run.origin ag.run ≠ 0 then Run.origin ag.run else Run.origin rec'
  let s := (s.orEng e t.fl).write .core (coreAt (d.aux / 2 ^ 32) (d.aux % 2 ^ 32)) (Run.tainted o (leBytes 4 (fp32Code t.v)))
  match firstBad d.count [ag] with
  | some (_, o, a) => s.consume w.p w.cyc o c.agent c.idx (whereDev a)
  | none => s.consume w.p w.cyc o c.agent c.idx (2 ^ 63 + resEngine e)

/-- DIGEST (R238): the CRCs of the selected arrays. -/
def State.runDigest (s : State) (c : Ctx) (w : Who) (d : UpdDesc) : State :=
  let none' : Arr := { addr := 0, width := 0, run := [] }
  let rd (s : State) (i a width : Nat) : Arr × State := if bit d.sel i then s.readArr w a width d.count else (none', s)
  let (aw, s) := rd s 0 d.w 2
  let (ar, s) := rd s 1 d.r 2
  let (am, s) := rd s 2 d.m d.mw
  let (av, s) := rd s 3 d.v d.mw
  let bad := [aw, ar, am, av].find? (fun a => Run.origin a.run != 0)
  let s := s.putDigest w 0x63 d ((bad.map (fun a => Run.origin a.run)).getD 0) [aw.crc, ar.crc, am.crc, av.crc]
  match bad.bind (fun a => firstBad d.count [a]) with
  | some (_, o, a) => s.consume w.p w.cyc o c.agent c.idx (whereDev a)
  | none => s

/-- What the elements that an operation writes hold before it, one list for each, its digest record last (R456). -/
def State.updBefore (s : State) (op : Nat) (d : UpdDesc) : List (List (Nat × Run)) :=
  let at' (a n : Nat) : Nat × Run := (a, s.devRead a n)
  let elems := if op = 0x62 then (upTo d.count).map (fun k =>
      [at' (d.g + 6 * k) 6, at' (d.w + 2 * k) 2, at' (d.r + 2 * k) 2] ++ (if d.rule ≤ 1 then [at' (d.m + d.mw * k) d.mw] else []) ++
        (if d.rule = 0 then [at' (d.v + d.mw * k) d.mw] else []))
    else if op = 0x60 then (upTo d.count).map (fun k => [at' (d.g + 6 * k) 6])
    else (upTo d.count).map (fun _ => [])
  elems ++ [if d.digests op then [at' d.aux 32] else []]

/-- An engine that a reset stops in an operation: elements whose turn has not come stand as before it (R456). -/
def State.cutUpdate (s : State) (e : Nat) : State := match tget none s.updating e with
  | none => s
  | some u =>
    let s := (u.before.drop (cdiv (s.clk - u.start) u.each)).foldl (fun s l => l.foldl (fun s x => s.devWrite x.1 x.2) s) s
    { s with updating := tset none s.updating e none }

/-- The board channel's weir to which a channel update unit sends its traffic (Table 10-7), with the bytes of an operation there. -/
def cuuWeir (e n : Nat) : List (Nat × Nat) := if e < 256 then [] else [(0x100 + (e - 256), n)]

/-- The effect of an update-engine operation at its issue. An array on an absent page stops it: a breach, nothing applied (R312).
The cycle at which poison is consumed within the bound of R230 is a free value (log entry 4). -/
def State.runUpd (s : State) (c : Ctx) (op : Nat) (d : UpdDesc) : State :=
  let e := engOfAgent c.agent
  if (d.named op).any (fun x => (cut pageBytes x.1 x.2).any (fun y => s.access c.p y.1 = .absent)) then
    s.breach c.p c.point (BreachInfo.collision c.agent c.idx (resEngine e) none)
  else
    let work := s.updWork c.p e op d
    let per := (s.part c.p).period
    let s := { s with updating := tset none s.updating e (some { start := s.clk, each := max 1 (work / d.count), before := s.updBefore op d }) }
    let (k, s) := s.draw
    let w : Who := { p := c.p, cyc := c.point + k % (cdiv (work + 100 * unitsPerNs) per + 1), agent := c.agent, action := c.idx }
    let s := match op with
      | 0x60 => s.runRclear w d
      | 0x61 => s.runSumsq c w e d
      | 0x62 => s.runUpdate c w e d
      | _ => s.runDigest c w d
    let s := s.askWeirs w 0 false (cuuWeir e (d.count * d.perElem op + if d.digests op then 32 else 0))
    s.addFlight c.p { flightOf c d.opId (d.resources op e) with ready := s.clkAt c.p c.point + work }

/-- Issue of an update-engine operation (R225 to R228). -/
def State.issueUpdate (s : State) (op p a : Nat) : State :=
  s.issueMatrix op p a 64 (fun c b s =>
    let d := UpdDesc.parse b
    s.issueAction c (s.updValid p a op d) none (d.resources op (engOfAgent a)) (fun s => s.runUpd c op d))

/-- RCLEAR: +0 to a span of reservoir elements. -/
def execRclear (p a : Nat) (s : State) : Out := .next (s.issueUpdate 0x60 p a)
/-- SUMSQ: the sum of squares of scaled gradients. -/
def execSumsq (p a : Nat) (s : State) : Out := .next (s.issueUpdate 0x61 p a)
/-- UPDATE: a rule applied to a span. -/
def execUpdate (p a : Nat) (s : State) : Out := .next (s.issueUpdate 0x62 p a)
/-- DIGEST: CRC-64 of selected arrays. -/
def execDigest (p a : Nat) (s : State) : Out := .next (s.issueUpdate 0x63 p a)

/-! ## Accumulate-writes (R210 to R217) -/

/-- One value of a transaction added to its element (R212); a poisoned element or value leaves the element poisoned. -/
def State.addElem (s : State) (e origin : Nat) (acc : Nat × Nat) (x : Nat × Nat) : State × (Nat × Nat) :=
  let a := x.1
  let run := s.devRead a 6
  let own := Run.origin run
  let o := if own ≠ 0 then own else origin
  if o ≠ 0 then
    (if own ≠ 0 then s else s.devWrite a (Run.tainted o (Run.plain run)), if acc.1 ≠ 0 then acc else (o, a))
  else
    let (g, fl) := reservoirAdd (leNat (Run.plain run)) x.2
    ((s.devWrite a (Run.sound (leBytes 6 g))).orEng e fl, acc)

/-- The elements of a transaction with their addresses. -/
def AccWrite.elems (w : AccWrite) : List (Nat × Nat) := w.values.zipIdx.map (fun x => (w.addr + 6 * x.2, x.1))
def AccWrite.bytes (w : AccWrite) : Nat := 6 * w.values.length

/-- The transaction is done with at a model clock: its drain waits for one less, and completes no earlier (R217). DESIGN CHOICE (log entry 38): one
that is refused and never applied (R215, R216, R298) is done with as well, so that its drain completes and sends its token. -/
def State.accDone (s : State) (w : AccWrite) (t : Nat) : State :=
  s.modPart w.partition (fun x => { x with
    flights := x.flights.map (fun f => if f.agent = w.source && f.action = w.action && f.opcode = 0x11 then { f with pending := f.pending - 1, ready := max f.ready t } else f) })

/-- Poisons the elements that a transaction names (R215). -/
def State.poisonElems (s : State) (w : AccWrite) : State :=
  w.elems.foldl (fun s x => s.devWrite x.1 (Run.tainted 6 (Run.plain (s.devRead x.1 6)))) s

/-- ACCUMULATE_WRITE: the first transaction in transit to the engine arrives and is applied (R212, R213), poisons what another
source or an operation still holds (R215, R229), or is not applied (R216, R275, R298). A channel update unit is done with it once its 768 bytes have
left the channel's weir (R314). DESIGN CHOICE (log entry 42): FLAGS bit 1 POISONED is set in the breach record of R215, which poisons, and clear in that
of R216. -/
def State.accumulate (s : State) (engine : Nat) (w : AccWrite) : State :=
  let p := w.partition
  let cyc := (s.part p).cycle
  let s := { s with accq := s.accq.erase w }
  let live := (tget [] s.serving engine).filter (fun v => s.clk < v.until')
  let s := { s with serving := tset [] s.serving engine live }
  let clash := live.any (fun v => v.source ≠ w.source && overlap v.addr (6 * v.count) w.addr w.bytes)
  let held := (s.part p).flights.any (fun f => 0x60 ≤ f.opcode && f.opcode ≤ 0x62 && f.agent = agentOfEng engine &&
    match (s.part p).flightDesc f with
    | some b => overlap (UpdDesc.parse b).g (6 * (UpdDesc.parse b).count) w.addr w.bytes
    | none => false)
  let party := some (w.source, w.action)
  match s.accessRun p w.addr w.bytes with
  | (.absent, _) => (s.breach p cyc (BreachInfo.collision (agentOfEng engine) 0xFFFF (resEngine engine) party)).accDone w s.clk
  | (.ok, _) =>
    match s.attendGuard p w.addr w.bytes with
    | some f => (s.breach p cyc (BreachInfo.collision f.agent f.action (resEngine engine) party)).accDone w s.clk
    | none =>
    if clash || held then
      (((s.poisonElems w).breach p cyc
        { BreachInfo.collision (agentOfEng engine) 0xFFFF (resEngine engine) party with poisoned := true })).accDone w s.clk
    else
      let (s, bad) := w.elems.foldl (fun (sa : State × (Nat × Nat)) x => sa.1.addElem engine w.poison sa.2 x) (s, (0, 0))
      let t := if engine < 256 then 3 * unitsPerNs else s.engineTime p engine 768
      let s := s.askWeirs { p := p, cyc := cyc, agent := agentOfEng engine, action := 0xFFFF } 0 false (cuuWeir engine 768)
      let start := live.foldl (fun m v => max m v.until') s.clk
      let past := if engine < 256 then s.clk else (s.weirsLeft (agentOfEng engine)).getD never
      let v : Serving := { addr := w.addr, count := w.values.length, source := w.source, until' := max (start + t) past }
      let s := { s with serving := tset [] s.serving engine (live ++ [v]) }
      (s.consume p cyc bad.1 (agentOfEng engine) 0xFFFF (whereDev bad.2)).accDone w v.until'
  | _ => (s.breach p cyc (BreachInfo.collision (agentOfEng engine) 0xFFFF 0 none)).accDone w s.clk

def execAccumulateWrite (engine : Nat) (s : State) : Out :=
  .next (match lookupBy (fun w => w.engine == engine) s.accq with
    | some w => s.accumulate engine w
    | none => s)

end Sys2Proof.Machine
end

