-- ==== Sys2Proof/Machine/Reset.lean ====
section
/-! DEFINITION. Reset, release order, the defect map and the loss of state with a domain (chapter 15). -/
namespace Sys2Proof.Machine

open Sys2Proof

/-- Clock units of `n` REFCLK cycles. -/
def refclk (n : Nat) : Nat := n * 94500

/-! ## State that goes with a domain (Tables 15-1 and 16-2) -/

/-- Actions and NaNs of engines that lose their state are in flight no more. -/
def State.dropEngines (s : State) (gone : Nat → Bool) : State :=
  if partNums.any (fun p => (s.part p).flights.any (fun f => gone f.agent) || (s.part p).nans.any (fun n => gone n.core)) then
    partNums.foldl (fun s p => s.modPart p (fun x =>
      ({ x with flights := x.flights.filter (fun f => !gone f.agent), nans := x.nans.filter (fun n => !gone n.core) } : Part).settleFill x.cycle)) s
  else s
/-- The cores and stream engines of a field. -/
def inField (f a : Nat) : Bool := (agKind a == 0 && coreField (agNum a) == f) || (agKind a == 1 && agNum a / 3 == f)

/-- Core memory, galleys, scale, trap and stream records, flags and direct paths of a field. -/
def State.clearField (s : State) (f : Nat) : State :=
  let lo := coreAt (f * 64) 0
  let n := 64 * coreBytes
  let s := ((s.zeroGalleys f).dropDirect (fun e => e / 3 == f)).dropEngines (inField f)
  { s with
    data := { s.data with core := tclear s.data.core lo n, coreP := tclear s.data.coreP (lo / 8) (n / 8) }
    num := { s.num with me := tclear s.num.me (f * 64) 64, ve := tclear s.num.ve (f * 64) 64, traps := tclear s.num.traps (f * 64) 64 }
    se := { s.se with recs := tclear s.se.recs (3 * f) 3, pipes := tclear s.se.pipes (3 * f) 3, piped := tclear s.se.piped (3 * f) 3 } }

/-- SRAM, step-scalar records and flags of a stack's near-memory engines. -/
def State.clearStack (s : State) (k : Nat) : State :=
  let s := s.dropEngines (fun a => agKind a == 2 && agNum a / 32 == k)
  let lo := sramAt (32 * k) 0
  let n := 32 * sramBytes
  { s with
    data := { s.data with
      sram := tclear s.data.sram lo n, sramP := tclear s.data.sramP (lo / 8) (n / 8)
      scalar := tclear s.data.scalar (scalarAt (32 * k)) (32 * 64), scalarP := tclear s.data.scalarP (scalarAt (32 * k) / 8) (32 * 8) }
    num := { s.num with nme := tclear s.num.nme (32 * k) 32 }
    serving := tclear s.serving (32 * k) 32 }

/-- Contents and tags of both activation stores (R205). -/
def State.clearStores (s : State) : State := { s with data := { s.data with store := [], storeP := [], storeTag := [] } }

/-- What a domain loses when it is turned Off or held in reset. -/
def State.clearDomain (s : State) (d : Nat) : State :=
  if 11 ≤ d && d ≤ 18 then s.clearStack (d - 11)
  else if 19 ≤ d && d ≤ 34 then s.clearField (d - 19)
  else if d = 35 then s.clearStores
  else s

/-! ## The defect map (R462 to R465) -/

/-- A fuse word at the first free place, or the repair held for this boot with 0x0406 (R465). -/
def State.burnDefect (s : State) (w : Nat) : State :=
  let k := mapFill s.rst.defect
  if k < 2048 then { s with rst := { s.rst with defect := tset 0 s.rst.defect k (BitVec.ofNat 32 w) } }
  else
    let s : State := { s with rst := { s.rst with bootDefect := s.rst.bootDefect ++ [w], reason := 0x406 } }
    if s.domOn 1 then s.post 0x504 none ccAgent 0x406 (s.rst.state.code * 17 + 0x3F * 256) else s

/-- Appends an in-field entry; under the inhibit it waits, in force meanwhile (R465, R500). -/
def State.appendDefect (s : State) (w : Nat) : State :=
  if s.pwr.inhibit then
    { s with pwr := { s.pwr with heldWrites := s.pwr.heldWrites ++ [w] }, rst := { s.rst with bootDefect := s.rst.bootDefect ++ [w] } }
  else s.burnDefect w

/-- Spare lanes in use in a stack (Table 10-14). -/
def State.sparesOf (s : State) (k : Nat) : Nat := (s.defects.filter (fun w => bits w 31 28 == 3 && bits w 27 25 == k)).length
def State.showRepairs (s : State) : State :=
  { s with mem := { s.mem with repair := (upTo 8).foldl (fun t k => tset 0 t k (s.sparesOf k % 256)) s.mem.repair } }

/-- Steps 4b and 4c of Table 10-9 for the lanes found faulty: a spare and an entry, or the loss of the stack. DESIGN CHOICE (log entry 62):
the channel of the fault is named by its place, first of the stack's channels in the list of lost ones. -/
def State.laneRepair (s : State) (faults : List LaneFault) : State :=
  let s := (faults.foldl (fun s f => match f.spare with
    | some sp => s.appendDefect (0x30000000 + f.stack % 8 * 2 ^ 25 + f.channel % 32 * 2 ^ 20 + f.lane % 1024 * 2 ^ 10 + sp % 1024)
    | none => { s with mem := { s.mem with lost := s.mem.lost ++ (f.channel % 32 :: (upTo 32).filter (· != f.channel % 32)).map (32 * (f.stack % 8) + ·) } }) s).showRepairs
  if faults.any (fun f => f.spare.isNone) then s.lose 0x612 else s

/-! ## Full reset (R450, R451, R454, R455) -/

/-- Stack and board memory after a full reset: unspecified (Table 15-1), free values in every byte and mark (log entry 54). Host memory is the
host's own. -/
def State.dataAfter (s : State) : Data := { Data.empty with host := s.data.host, hostP := s.data.hostP, devEpoch := s.freeCtr + 1 }

/-- RSTC after a full reset: the field tables' values; the fuses stay. -/
def RstRegs.cleared (r : RstRegs) (cause : BitVec 3) : RstRegs :=
  { RstRegs.reset with cause := cause, scopeStrap := r.scopeStrap, bootStrap := r.bootStrap, defect := r.defect, pinmap := r.pinmap,
                       porAsserted := r.porAsserted, resetLow := r.resetLow, testEn := r.testEn }

/-- The domains whose field the fuse map marks failed are Off (R464); a repair held for one boot ends with it (R465). -/
def State.failedDoms (s : State) : Tab Dom :=
  let s : State := { s with rst := { s.rst with bootDefect := [] } }
  (upTo 16).foldl (fun t f => if s.fieldFailed f then tset Dom.reset t (19 + f) { Dom.reset with st := .off } else t) []

/-- Every domain but D00 and D02 loses its state; `rst` and `sec` give D00's. -/
def State.cleared (s : State) (rst : RstRegs) : State :=
  let t : State := { State.reset with
    pending := s.pending, freeCtr := s.freeCtr + 1, clk := s.clk, mu := s.mu, pins := s.pins,
    rst := rst
    sec := { SecRegs.reset with arb := s.sec.arb, kemCount := s.sec.kemCount, fuses := ⟨s.rst.defect, s.rst.pinmap, s.sec.arb⟩ }, data := s.dataAfter }
  { t with pwr := { t.pwr with doms := t.failedDoms } }

/-- The state while RESET_N holds a full reset. A release stopped at D01 or D03 keeps its reason (Table 15-12), through every further one too,
and one stopped at D01 the part-state event that it owes until D01 runs (R459). -/
def State.fullReset (s : State) : State :=
  let r := s.rst.cleared 2
  let kept := s.rst.reason == 0x401 && s.rst.earlyStop
  let hold := (upTo 3).filter (fun d => d != 1 && s.released d)
  s.cleared { r with
    reason := if kept then s.rst.reason else 0, earlyStop := kept, owed := s.rst.owed, released := BitVec.ofNat 36 (sumNat (hold.map (2 ^ ·))),
    locked := BitVec.ofNat 36 (sumNat (hold.map (2 ^ ·))) }

/-! ## Release order (R458, Table 15-3) -/

def releaseGroup (d : Nat) : Nat := match d with
  | 0 => 1 | 2 => 2 | 1 => 3 | 3 => 4 | 4 | 5 => 5 | 6 | 7 | 8 => 6 | 9 | 10 => 7
  | n => if n ≤ 18 then 8 else if n = 35 then 9 else 10

/-- D01 and the domains after it, in order; the domains of a compute-only reset. -/
def computeOrder : List Nat := (upTo 8).map (11 + ·) ++ [35] ++ (upTo 16).map (19 + ·)
def fullOrder : List Nat := [1, 3, 4, 5, 6, 7, 8, 9, 10] ++ computeOrder

/-- The gap between two releases. -/
def gapAfter (d e : Nat) : Nat := refclk (if releaseGroup d = releaseGroup e then 512 else 4096)

def State.setSeq (s : State) (q : Option Release) : State := { s with rst := { s.rst with seq := q } }
/-- A sequence over the domains left, the first one's gap over at a time. -/
def State.startSeq (s : State) (left : List Nat) (gapEnd : Nat) : State := s.setSeq (some { left := left, gapEnd := gapEnd, risen := false })

/-- RESET_N or TEST_EN holds D01 and every domain after it in a full reset, while D00 and D02 leave a power-on reset in their own time
(R548, R551). -/
def State.holdFull (s : State) : State :=
  let wait := [0, 2].filter (fun d => !s.released d)
  if wait.isEmpty then s.fullReset else s.fullReset.startSeq (wait ++ fullOrder) ((s.rst.seq.map (·.gapEnd)).getD s.clk)

/-! ## The compute-only reset (R456, R420) -/

/-- The run of a partition is cut off; its SWITCH completes RESET with the slots run (Table 13-5). DESIGN CHOICE (log entry 44): its forme counts as
the one that was abandoned last, for NUM_GROUP_FLAGS (Table 05-14). -/
def State.cutRun (s : State) (p : Nat) : State :=
  let x := s.part p
  let s := match s.cset p with
    | some c => if x.cset.isSome then s.clearPending c else s
    | none => s
  let s := x.cacheQ.foldl (fun s r => s.complete r.ring r.tag r.stamp p stReset 0 0 0) (s.modPart p (fun x => { x with cacheQ := [] }))
  let s := ((s.modPart p (fun x => { x with resident := x.resident.map (fun r => { r with enabled := false }) })).endLinks p).endFlights p
  if x.status = .idle then s
  else if x.status = .starting then
    (s.modPart p (fun x => { x with status := .idle, cur := 0, image := [] })).complete x.swRing x.swTag x.swStamp p stReset 0 0 0
  else (s.modPart p (fun x => { x with arrivals := [], abandoned := true })).endRun p stReset 0 x.slot 0

/-- Ends every SWITCH that waits, with a status and reason. -/
def State.endSwitches (s : State) (status reason : Nat) : State :=
  let ws := s.hif.switches
  let s : State := { s with hif := { s.hif with switches := ws.filter (fun w => !w.begun) } }
  (ws.filter (fun w => w.begun && !w.started)).foldl (fun s w => w.targets.foldl (fun s t => s.complete w.ring w.tag w.stamp t.1 status reason 0 0) s) s

/-- Steps 1 to 4 of Table 15-2. What a COPY or EXPORT has asked for at the weirs stays, since the host interface runs on (R420): update engines stop at their element boundaries before anything is cut off. A renewal under way ends as
stopped (log entry 20). -/
def State.computeReset (s : State) : State :=
  let s := if s.rst.state = .ready || s.rst.state = .run then s.setPState .reset 0 else s
  let s := (s.updating.map (·.1)).foldl (fun s e => s.cutUpdate e) s
  let s := (partNums.foldl (fun s p => s.cutRun p) s).endSwitches stReset 0
  let s := computeOrder.foldl (fun s d => s.clearDomain d) s
  let keep (t : Tab (List WeirReq)) : Tab (List WeirReq) := (t.map (fun e =>
    (e.1, if 256 ≤ e.1 / 16 ∧ e.1 % 16 = 8 then e.2 else e.2.filter (fun r => r.agent == ccAgent)))).filter (fun e => e.2 != [])
  { s with
    accq := [], serving := []
    mem := { s.mem with queue := keep s.mem.queue, held := keep s.mem.held, waits := (s.mem.waits.map (fun e => (e.1, e.2.filter (fun x => x.2.agent == ccAgent)))).filter (fun e => e.2 != []) }
    rst := { s.rst with
      cause := 3, computeOnly := true, seq := none, kept := []
      released := s.rst.released &&& 0x7FF, locked := s.rst.locked &&& 0x7FF
      renewing := none, renewState := if s.rst.renewing.isSome then 3 else s.rst.renewState } }

/-! ## Reset rows -/

/-- The meter at power-on: energies and the count from the newest committed record (R508); LEDGER_FULL is never cleared (Table 16-8). -/
def MuRegs.powerOn (m : MuRegs) (clk : Nat) : MuRegs :=
  let r := (m.newest.map (fun n => tget [] m.slots (n % 2048))).getD []
  { MuRegs.reset with
    boot := if m.newest.isSome then satInc32 (BitVec.ofNat 32 (fld r 0x10 4)) else 1
    eMain := fld r 0x28 8 * 1000000, eAux := fld r 0x30 8 * 1000000
    startMain := fld r 0x28 8 * 1000000, startAux := fld r 0x30 8 * 1000000
    pulseFrom := (fld r 0x28 8 + fld r 0x30 8) * 1000000, time0 := clk, alarms := m.alarms &&& 1
    next := (m.newest.map (· + 1)).getD 0, newest := m.newest, slots := m.slots }

/-- POWER_ON_RESET: every domain is reset; fuses and the ledger stay, and TEST_EN is what its contact is. DESIGN CHOICE (log entry 24): RSTC_STRAPS reads 0 for
RESET_SCOPE and BOOT_SRC until the edge of RESET_N at which each is sampled first. -/
def execPowerOnReset (s : State) : Out :=
  let t := s.cleared { (s.rst.cleared 1) with porAsserted := true, scopeStrap := false, bootStrap := false }
  .next { t with mu := s.mu.powerOn s.clk, pins := { PinRegs.reset with prodTest := s.rst.testEn } }

/-- POWER_ON_RESET_END: the release sequence starts at D00. -/
def execPowerOnResetEnd (s : State) : Out :=
  .next (if s.rst.porAsserted then ({ s with rst := { s.rst with porAsserted := false } } : State).startSeq ([0, 2] ++ fullOrder) s.clk else s)

/-- The boundary-scan contacts follow the instruction register while RESET_N is low, and their pin-map states or owners while it is high
(R553). -/
def State.scanPins (s : State) : State :=
  { s with pins := { s.pins with driven := s.rst.resetLow && ([0, 3, 4, 5] : List Nat).contains s.pins.ir.toNat
                                 hiz := s.rst.resetLow && s.pins.ir == 6 } }

/-- RESET_N_FALL: the strap chooses; a compute-only reset before the first READY is a full one (R452), and a full reset overrides a
compute-only one in progress (R453). -/
def execResetNFall (scope : Bool) (s : State) : Out :=
  .next (if s.rst.resetLow then s else
    let s := ({ s with rst := { s.rst with resetLow := true, scopeStrap := scope } } : State).scanPins
    if s.rst.porAsserted || s.rst.testEn then s
    else if scope && s.rst.everReady && !(s.rst.seq.isSome && !s.rst.computeOnly) then s.computeReset
    else s.holdFull)

/-- RESET_N_RISE: BOOT_SRC is sampled, scan contacts return to their pin-map states, and the sequence starts. One in which D00 or D02 is still to
come goes on with them, and D01 then follows without a gap (R548, log entry 72). -/
def execResetNRise (bootSrc : Bool) (s : State) : Out :=
  .next (if !s.rst.resetLow then s else
    let s := ({ s with rst := { s.rst with resetLow := false, bootStrap := bootSrc } } : State).scanPins
    if s.rst.porAsserted || s.rst.testEn then s
    else match s.rst.seq with
      | some q => s.setSeq (some (if q.left.head? = some 1 then { q with gapEnd := s.clk } else { q with risen := true }))
      | none => s.startSeq (if s.rst.computeOnly then computeOrder else fullOrder) s.clk)

/-- What the release of a domain sets going: D01 posts the part-state event that a stop at its own release still owes (R459). -/
def State.onRelease (s : State) (d : Nat) : State :=
  match d with
  | 1 =>
    let t : State := { s with timeOn := true, rst := { s.rst with owed := none } }
    match s.rst.owed with
    | some detail => t.post 0x504 none ccAgent 0x401 detail
    | none => t
  | 2 => { s with mu := { s.mu with time0 := s.clk } }
  | 6 | 7 | 8 => (upTo 6).foldl (fun s k => s.portStart (6 * (d - 6) + k)) s
  | _ => s

/-- The end of a release sequence: BOOT, or READY after a compute-only reset taken in READY or RUN. -/
def State.sequenceDone (s : State) : State :=
  let s := s.setSeq none
  if s.rst.computeOnly then
    let s : State := { s with rst := { s.rst with computeOnly := false } }
    if s.rst.state = .reset then s.setPState .ready 0 else s
  else if s.rst.state = .reset then s.setPState .boot 0 else s

/-- A field under renewal is held in reset until the renewal ends (Table 15-9). -/
def State.inRenewal (s : State) (d : Nat) : Bool := s.rst.renewing.any (fun x => decide (19 ≤ d) && decide (d ≤ 34) && bit x.2 (d - 19))

/-- A domain held Off across a compute-only reset, or marked failed, stays in reset; its gap still counts (R458, R464). So does a field under
renewal (log entry 20). -/
def State.staysDown (s : State) (d : Nat) : Bool := (s.dom d).st == .off || s.inRenewal d

/-- What stands before the next domain of the sequence: a RESET_N or TEST_EN that holds it, else nothing. -/
def State.heldInReset (s : State) (d : Nat) : Bool := d ≠ 0 && d ≠ 2 && (s.rst.resetLow || s.rst.testEn)

/-- A domain that stays in reset whatever the power controller does with it (R456, R458, R459): power-on reset, RESET_N or TEST_EN holds it, its turn in
the sequence is still to come, a sequence has stopped at it or before it, or it is under renewal. -/
def State.keptDown (s : State) (d : Nat) : Bool :=
  s.rst.porAsserted || s.rst.kept.contains d || s.rst.seq.any (fun q => q.left.contains d) ||
    (s.heldInReset d && (!s.rst.computeOnly || decide (11 ≤ d))) || s.inRenewal d

/-- The islands of the named domains report lock (RSTC_LOCKED). -/
def State.lockIslands (s : State) (ds : List Nat) : State :=
  { s with rst := { s.rst with locked := ds.foldl (fun l d => l ||| (1#36 <<< d)) s.rst.locked } }

/-- The next domain of the sequence leaves reset, unless it stays down, and the gap of the one after it begins. In a compute-only reset the
base dies repair their lanes (step 6 of Table 15-2). -/
def State.releaseNext (s : State) (d : Nat) (rest : List Nat) (risen : Bool) (faults : List LaneFault) : State :=
  let s := if s.staysDown d then s else ({ s with rst := { s.rst with released := s.rst.released ||| (1#36 <<< d) } } : State).onRelease d
  let s := if s.rst.computeOnly && 11 ≤ d && d ≤ 18 then s.laneRepair (faults.filter (fun f => f.stack == d - 11)) else s
  match rest with
  | e :: _ => s.setSeq (some { left := rest, gapEnd := s.clk + (if risen && e == 1 then 0 else gapAfter d e), risen := risen && e != 1 })
  | [] => s.sequenceDone

/-- The last moment at which the first domain of a sequence may lock (R459). -/
def Release.limit (q : Release) : Nat := q.gapEnd + refclk 65536

/-- DOMAIN_RELEASE (R458): the islands of the domains found locked report lock, those of the next domain at the latest 65,536 REFCLK cycles after
its gap (R459); that domain is released once they have and its gap is over. A domain that stays down counts as released at the end of its
gap. -/
def execDomainRelease (found : LockReport) (s : State) : Out :=
  .next (match s.rst.seq with
    | some q =>
      match q.left with
      | d :: rest =>
        if s.heldInReset d then s
        else
          let s := s.lockIslands (found.locked.filter (fun l => q.left.contains l && !s.staysDown l && (l != d || decide (s.clk ≤ q.limit))))
          if s.staysDown d || s.rst.locked.getLsbD d then (s.toClk q.gapEnd).releaseNext d rest q.risen found.faults else s
      | [] => s.sequenceDone
    | none => s)

/-- LOCK_TIMEOUT (R459): the sequence stops at a domain without lock. The event of a stop at D01 waits until D01 runs. -/
def execLockTimeout (s : State) : Out :=
  .next (match s.rst.seq with
    | some q =>
      match q.left with
      | d :: _ =>
        if !s.heldInReset d && !s.staysDown d && !s.rst.locked.getLsbD d then
          let s := s.toClk q.limit
          let owed := if d = 1 then some (PState.code .halted + s.rst.state.code * 16 + d * 256) else s.rst.owed
          let s : State := { s with rst := { s.rst with seq := none, kept := q.left, reason := 0x401, domain := BitVec.ofNat 6 d, earlyStop := d == 1 || d == 3, owed := owed } }
          if s.rst.state = .lost then s else s.setPState .halted 0x401 d
        else s
      | [] => s
    | none => s)

/-- TEST_EN_HIGH (R551): every domain from D01 on is held in reset. -/
def execTestEnHigh (s : State) : Out :=
  .next (if s.rst.testEn then s else
    let cause := s.rst.cause
    let s := if s.rst.porAsserted then s else s.holdFull
    { s with rst := { s.rst with testEn := true, cause := cause }, pins := { s.pins with prodTest := true } })

end Sys2Proof.Machine
end

