-- ==== Sys2Proof/Machine/Shake.lean ====
section
/-! DEFINITION. SHAKE256 and the padded Falcon-1024 signature (R529). The spec names the two standards; the text of the sponge is FIPS 202's and
that of the header byte the Falcon specification's (PRESUMED, log entry 5). The arithmetic of a signature stays with Config. -/
namespace Sys2Proof.Machine

open Sys2Proof

/-- A state of the permutation: 25 lanes, lane x + 5 * y. -/
abbrev Lanes := List W64
def lane (a : Lanes) (i : Nat) : W64 := a.getD i 0

/-- Rotations of the lanes. -/
def rhoTable : List Nat := [0, 1, 62, 28, 27, 36, 44, 6, 55, 20, 3, 10, 43, 25, 39, 41, 45, 15, 21, 8, 18, 2, 61, 56, 14]
/-- Constants of the 24 rounds. -/
def roundConstants : List W64 :=
  [0x0000000000000001, 0x0000000000008082, 0x800000000000808A, 0x8000000080008000, 0x000000000000808B, 0x0000000080000001, 0x8000000080008081,
   0x8000000000008009, 0x000000000000008A, 0x0000000000000088, 0x0000000080008009, 0x000000008000000A] ++
  [0x000000008000808B, 0x800000000000008B, 0x8000000000008089, 0x8000000000008003, 0x8000000000008002, 0x8000000000000080, 0x000000000000800A,
   0x800000008000000A, 0x8000000080008081, 0x8000000000008080, 0x0000000080000001, 0x8000000080008008]

def theta (a : Lanes) : Lanes :=
  let c := (upTo 5).map (fun x => lane a x ^^^ lane a (x + 5) ^^^ lane a (x + 10) ^^^ lane a (x + 15) ^^^ lane a (x + 20))
  let d := (upTo 5).map (fun x => lane c ((x + 4) % 5) ^^^ (lane c ((x + 1) % 5)).rotateLeft 1)
  (upTo 25).map (fun i => lane a i ^^^ lane d (i % 5))
/-- The lanes rotated and moved: lane x + 5 * y comes from lane (x + 3 * y) % 5 of row x. -/
def rhoPi (a : Lanes) : Lanes := (upTo 25).map (fun i =>
  let j := (i % 5 + 3 * (i / 5)) % 5 + 5 * (i % 5)
  (lane a j).rotateLeft (rhoTable.getD j 0))
def chi (b : Lanes) : Lanes := (upTo 25).map (fun i =>
  let y := i / 5 * 5
  lane b i ^^^ (~~~(lane b (y + (i + 1) % 5)) &&& lane b (y + (i + 2) % 5)))
def iota (rc : W64) : Lanes → Lanes
  | a :: rest => (a ^^^ rc) :: rest
  | [] => []
def permute (a : Lanes) : Lanes := roundConstants.foldl (fun a rc => iota rc (chi (rhoPi (theta a)))) a

/-- Bytes of a block that the sponge takes in or gives out. -/
def shakeRate : Nat := 136
/-- The message with its domain bits and padding, whole blocks. -/
def shakePad (m : List Byte) : List Byte :=
  let q := shakeRate - m.length % shakeRate
  m ++ (if q = 1 then [0x9F] else 0x1F :: List.replicate (q - 2) 0 ++ [0x80])
def absorb (a : Lanes) (block : List Byte) : Lanes := permute ((upTo 25).map (fun i => lane a i ^^^ BitVec.ofNat 64 (fld block (8 * i) 8)))
def absorbAll : Nat → Lanes → List Byte → Lanes
  | 0, a, _ => a
  | k + 1, a, m => absorbAll k (absorb a (m.take shakeRate)) (m.drop shakeRate)
def squeeze : Nat → Lanes → List Byte
  | 0, _ => []
  | k + 1, a => (a.flatMap (fun l => leBytes 8 l.toNat)).take shakeRate ++ squeeze k (permute a)

/-- SHAKE256: `n` bytes of output over a message. A digest is the first 32 (R529). -/
@[irreducible] def shake256 (n : Nat) (m : List Byte) : List Byte :=
  let p := shakePad m
  (squeeze (cdiv n shakeRate) (absorbAll (p.length / shakeRate) (List.replicate 25 0) p)).take n

/-- `n` bytes of a fixed-size field. -/
def sized (n : Nat) (b : List Byte) : List Byte := (b ++ List.replicate n 0).take n

/-! ## Signatures -/

/-- The header byte of a padded Falcon-1024 signature. -/
def falconHeader : Byte := 0x3A
/-- Bytes of a padded signature, and of its nonce. -/
def falconBytes : Nat := 1280
def falconNonce : Nat := 40

/-- The message hash: SHAKE256 over the nonce and the message, as many bytes as a signature draws. -/
def falconHash (nonce m : List Byte) (n : Nat) : List Byte := shake256 n (nonce ++ m)

/-- A signature by the identity key (`false`) or the meter key (`true`): header byte, nonce and compressed signature, padded with zeros. The draw
stands for what the signer draws. -/
def falconSign (meter : Bool) (draw : Nat) (m : List Byte) : List Byte :=
  let nonce := sized falconNonce (Config.falconNonce meter draw)
  sized falconBytes (falconHeader :: nonce ++ Config.falconCompressed meter draw (falconHash nonce m))

/-- Verification of a padded signature over a message by a public key. -/
def falconVerify (key m sig : List Byte) : Bool :=
  sig.length == falconBytes && sig.head? == some falconHeader &&
    Config.falconAccepts key (falconHash ((sig.drop 1).take falconNonce) m) (sig.drop (1 + falconNonce))

end Sys2Proof.Machine
end

