-- ==== Sys2Proof/Machine/BringUp.lean ====
section
/-! DEFINITION. Boot, memory training, topology agreement and partition renewal (chapter 15; the image check of chapter 17). -/
namespace Sys2Proof.Machine

open Sys2Proof

/-- RSTC_STATUS takes a reason of Table 15-10; the code is returned for a command's completion. -/
def State.rstRefuse (s : State) (code : Nat) : Nat × State := (code, { s with rst := { s.rst with reason := BitVec.ofNat 16 code } })

/-! ## Boot (R469 to R471, R528 to R530) -/

/-- GO in RSTC_BOOT_CTRL. A fetch from the host is in progress until its image is verified; once firmware runs the ROM waits for no image
(log entry 21). -/
def State.bootGo (s : State) (fetched : Bool) : Nat × State :=
  let n := s.rst.bootLen.toNat
  let a := s.rst.bootAddr.toNat
  if s.rst.state ≠ .boot || s.rst.bootHost || s.rst.fwRunning then s.rstRefuse 0x402
  else if n < 64 || 1048576 < n || a % 64 ≠ 0 then s.rstRefuse 0x403
  else if !fetched || !s.hostUp then s.rstRefuse 0x404
  else (0, { s with rst := { s.rst with
    bootBuf := writeBytes [] 0 (s.hostRead a n), bootHave := [(0, n)], bootTotal := n, bootHost := true } })

/-- BOOT_GO: a direct write of GO; `fetched` tells that the bus served the fetch. -/
def execBootGo (fetched : Bool) (stores : List HostStore) (s : State) : Out :=
  (s.hostStores stores).direct (fun s => (s.bootGo fetched).2)

/-- The first byte from `i` on that is missing, or held. -/
def RstRegs.firstAt (r : RstRegs) (want : Bool) (total : Nat) : Nat → Nat → Nat
  | 0, i => i
  | fuel + 1, i => if total ≤ i || r.holds i == want then i else RstRegs.firstAt r want total fuel (i + 1)

/-- Every byte of the image is held. -/
def RstRegs.imageWhole (r : RstRegs) : Bool := r.bootTotal != 0 && RstRegs.firstAt r false r.bootTotal r.bootTotal 0 == r.bootTotal

/-- The largest firmware image. -/
def fwMax : Nat := 1048576

/-- BOOT_RELAY_REQUEST (R471): the first missing range; before TOTAL is known it reaches to the largest image (log entry 21). -/
def execBootRelayRequest (port : Nat) (s : State) : Out :=
  let r := s.rst
  .next (if port < 18 && r.state = .boot && r.bootStrap && !r.bootHost && !r.fwRunning && (s.port port).state = .active && !r.imageWhole then
      let total := if r.bootTotal = 0 then fwMax else r.bootTotal
      let lo := RstRegs.firstAt r false total total 0
      let hi := RstRegs.firstAt r true total (total - lo) lo
      let s : State := { s with rst := { r with bootMsg := r.bootMsg + 1 } }
      s.queueControl port (controlFlit 0xFFFF 0xFFFF 1 1 r.bootMsg.toNat 0 1 (leBytes 1 1 ++ leBytes 3 0 ++ leBytes 4 lo ++ leBytes 4 (hi - lo)))
    else s)

/-- The first failing step of Table 17-6, 0 if the image is good. -/
def State.imageCode (s : State) (m : List Byte) : Nat :=
  let rsv := !(zeroAt m 0x14 12 && zeroAt m 0x28 24 && zeroAt m 0x741 63 && zeroAt m 0xC80 896)
  let key := (m.drop 0x40).take 1793
  let unsigned := m.take 0x780 ++ List.replicate 1280 0 ++ m.drop 0xC80
  if m.length < 4096 || fld m 0 4 ≠ 0x57465658 || fld m 4 2 ≠ 1 || fld m 6 2 ≠ 4096 || fld m 8 4 ≠ m.length || rsv then 0x701
  else if shake256 32 key ≠ sized 32 Config.rootHash then 0x702
  else if !falconVerify key unsigned ((m.drop 0x780).take 1280) then 0x703
  else if fld m 0xC 4 < s.sec.arb.toNat || 64 < fld m 0xC 4 then 0x704
  else 0

/-- IMAGE_VERIFY: a good image starts firmware; a bad one is dropped and the ROM waits again. -/
def execImageVerify (s : State) : Out :=
  let r := s.rst
  .next (if r.state ≠ .boot || r.fwRunning || !r.imageWhole then s else
    let m := readBytes r.bootBuf 0 r.bootTotal
    let code := s.imageCode m
    if code = 0 then
      { s with
        rst := { r with fwRunning := true }
        sec := { s.sec with fwValid := true, fwDigest := shake256 32 m, fwSvn := BitVec.ofNat 7 (fld m 0xC 4) } }
    else
      { s with
        rst := { r with reason := BitVec.ofNat 16 code, bootBuf := [], bootHave := [], bootTotal := 0, bootHost := false }
        sec := { s.sec with reason := BitVec.ofNat 16 code } })

/-! ## Memory training and the end of link training (R300, R322, R472) -/

/-- MEMORY_TRAINING_DONE: firmware has trained the memories, and the part goes on to LINK_TRAIN or is lost. A failed board channel is named in
the list of lost ones (log entry 62). -/
def execMemoryTrainingDone (found : MemTraining) (s : State) : Out :=
  .next (if s.rst.state ≠ .boot || !s.rst.fwRunning then s else
    match found with
    | .boardFailed c =>
      ({ s with mem := { s.mem with trained := 63, lost := s.mem.lost ++ [256 + c % 64] } } : State).lose 0x610
    | .boardUnsupported => s.lose 0x611
    | .good density ranks faults =>
      if density < 1 || 3 < density || ranks < 1 || 2 < ranks then s.lose 0x611
      else
        let s : State := { s with mem := { s.mem with trained := 64, density := density, ranks := ranks } }
        let s := s.laneRepair faults
        if s.rst.state = .boot then s.setPState .linkTrain 0 else s)

/-! ## Topology agreement (R473 to R475) -/

def topoBytes : Nat := 320
def topoPort (m : List Byte) (p : Nat) : List Byte := (m.drop (0x20 + 16 * p)).take 16

/-- A part number inside the record's torus (R380). -/
def insideTorus (m : List Byte) (n : Nat) : Bool :=
  decide (n % 32 < byteAt m 8) && decide (n / 32 % 32 < byteAt m 9) && decide (n / 1024 < byteAt m 0xA)

/-- A reserved field of the record that is not zero. -/
def topoRsv (m : List Byte) : Bool :=
  byteAt m 0xB != 0 || !zeroAt m 0xE 18 || (upTo 18).any (fun p => let e := topoPort m p
    bits (byteAt e 0) 7 3 != 0 || !zeroAt e 3 5)

def topoRecordCode (m : List Byte) : Nat :=
  if fld m 0 4 ≠ 0x50545658 || fld m 4 2 ≠ 1 || topoRsv m then 0x301
  else if byteAt m 8 < 1 || 32 < byteAt m 8 || byteAt m 9 < 1 || 32 < byteAt m 9 || byteAt m 0xA < 1 || 48 < byteAt m 0xA ||
      !insideTorus m (fld m 6 2) then 0x302
  else if !insideTorus m (fld m 0xC 2) then 0x309
  else 0

/-- The reason with which one port fails, 0 if it agrees. -/
def State.topoPortCode (s : State) (m : List Byte) (p : Nat) : Nat :=
  let e := topoPort m p
  let f := byteAt e 0
  let q := s.port p
  let active := decide (q.state = .active)
  if !bit f 0 then if active then 0x307 else 0
  else if !active then
    if bit f 1 && (q.state = .down || q.state = .off) then 0 else 0x303
  else if q.peerSerial.toNat ≠ fld e 8 8 then 0x304
  else if q.peerPort ≠ byteAt e 2 then 0x305
  else if q.widthCode < byteAt e 1 && !bit f 2 then 0x306
  else 0

/-- The one step of the timestamp to the parent's time (R391): by the offset of the last exchange with it; the half nanosecond, and the time of a
parent that no exchange has shown yet, are free values (log entry 14). Exchanges begin anew with the stepped clock. -/
def State.stepTime (s : State) : State :=
  let port := s.lnk.parent
  let (k, s) := s.draw
  let now := match (s.port port).lastOffset with
    | some o => BitVec.ofNat 64 ((s.es.time.toNat : Int) + o / 2 + (if o % 2 ≠ 0 then ((k % 2 : Nat) : Int) else 0)).toNat
    | none => BitVec.ofNat 64 k
  { s with es := { s.es with time := now } }.modPort port (fun q => { q with exchanges := 0, offsetSum := 0, mean := none })

/-- What firmware does on agreement (R475). -/
def State.topoAgree (s : State) (m : List Byte) : State :=
  let self := fld m 6 2
  let s := s.writeLnkSelf (BitVec.ofNat 32 (2 ^ 31 + self))
  let s := s.writeLnkTorus (BitVec.ofNat 32 (byteAt m 8 + byteAt m 9 * 2 ^ 8 + byteAt m 0xA * 2 ^ 16))
  let s := s.writeTimeRoot (BitVec.ofNat 32 (fld m 0xC 2))
  let s := (upTo 18).foldl (fun s p => if bit (byteAt (topoPort m p) 0) 0 then s else s.portOff p) s
  let s : State := { s with rst := { s.rst with everReady := true } }
  let s := s.parentAgain
  let s := if s.lnk.following then s.stepTime else s
  s.setPState .ready 0

/-- The check on a fetched record. -/
def State.topoCheck (s : State) (m : List Byte) : Nat × State :=
  let code := topoRecordCode m
  let codes := (upTo 18).map (fun p => (p, if code = 0 then s.topoPortCode m p else 0))
  let s : State := { s with rst := { s.rst with topoFail := BitVec.ofNat 18 (sumNat (codes.map (fun c => if c.2 = 0 then 0 else 2 ^ c.1))) } }
  let first := if code ≠ 0 then code else ((codes.find? (fun c => c.2 != 0)).map (·.2)).getD 0
  if first = 0 then (0, s.topoAgree m) else s.rstRefuse first

/-- The fetch of the record at its register's address, and the check. -/
def State.topoFetch (s : State) (fetched : Bool) : Nat × State :=
  let a := s.rst.topoAddr.toNat
  if a % 64 ≠ 0 || !fetched || !s.hostUp then s.rstRefuse 0x308 else s.topoCheck (s.hostRead a topoBytes)

/-- GO in RSTC_TOPO_CTRL. -/
def State.topoGo (s : State) (fetched : Bool) : Nat × State :=
  match s.rst.state with
  | .linkTrain => (0, { s with rst := { s.rst with topoHeld := some fetched } })
  | .topoCheck => s.topoFetch fetched
  | _ => s.rstRefuse 0x405

/-- TOPO_GO: a direct write of GO. -/
def execTopoGo (fetched : Bool) (stores : List HostStore) (s : State) : Out :=
  (s.hostStores stores).direct (fun s => (s.topoGo fetched).2)

/-- LINK_TRAIN_END: no port trains any more; a held GO is served now; whether the bus serves its fetch came with the GO (log entry 28). -/
def execLinkTrainEnd (s : State) : Out :=
  .next (if s.rst.state = .linkTrain && (upTo 18).all (fun p => match (s.port p).state with
      | .laneTrain | .width | .ident => false
      | _ => true) then
      let held := s.rst.topoHeld
      let s := ({ s with rst := { s.rst with topoHeld := none } } : State).setPState .topoCheck 0
      match held with
      | some fetched => (s.topoFetch fetched).2
      | none => s
    else s)

/-! ## Renewal (R476, R477, Table 15-9) -/

/-- A refused renewal shows its reason in both status registers. -/
def State.renewRefuse (s : State) (code : Nat) : Nat × State :=
  (code, { s with rst := { s.rst with reason := BitVec.ofNat 16 code, renewReason := BitVec.ofNat 16 code } })

/-- The view in force gives the self-test depth (Table 15-12). -/
def State.quickTest (s : State) : Bool := s.rst.level && s.rst.renewQuick

/-- A write of RSTC_RENEW. Fields that an earlier renewal has kept in reset are renewed again; those of a stopped release stay there, in HALTED. -/
def State.writeRenew (s : State) (v : W32) : Nat × State :=
  let p := v.toNat % 8
  let s : State := { s with rst := { s.rst with renewPart := BitVec.ofNat 3 p } }
  if !v.getLsbD 8 then (0, s)
  else if !s.defined p then s.renewRefuse 0x407
  else if (s.part p).status ≠ .idle then s.renewRefuse 0x408
  else if s.rst.renewing.isSome then s.renewRefuse 0x409
  else
    let fields := sumNat ((fieldList (s.lay p).fields).map (fun f => if (s.dom (19 + f)).st = .off then 0 else 2 ^ f))
    let mask := BitVec.ofNat 36 (fields * 2 ^ 19)
    let s := (fieldList fields).foldl (fun s f => s.dropEngines (inField f)) s
    let kept := if s.rst.state = .halted then s.rst.kept else s.rst.kept.filter (fun d => d < 19 || !bit fields (d - 19))
    (0, { (s.modPart p (fun x => { x with resident := x.resident.map (fun r => { r with enabled := false }) })) with
      rst := { s.rst with renewing := some (p, fields), renewState := 1, renewFailed := 0, renewReason := 0, kept := kept,
                          released := s.rst.released &&& ~~~mask, locked := s.rst.locked &&& ~~~mask } })

/-- RENEW_GO: a direct write. -/
def execRenewGo (v : W32) (s : State) : Out := s.direct (fun s => (s.writeRenew v).2)

/-- Step 4 for one field: row repairs, a disabled site, or the mark of a failed field. -/
def State.renewField (s : State) (t : FieldTest) : State :=
  let f := t.field % 16
  let s := t.rowRepairs.foldl (fun s w => s.appendDefect (0x20000000 + w % 2 ^ 28)) s
  let sites := dedup t.badSites
  let room := !s.fieldSited f
  let s := match sites with
    | b :: _ => if room then s.appendDefect (0x10000000 + f * 2 ^ 24 + b % 16 * 2 ^ 20) else s
    | [] => s
  if t.sramLost || 1 < sites.length || (!room && !sites.isEmpty) then
    let s := s.appendDefect (0x60000000 + f * 2 ^ 24)
    s.setDom (19 + f) { s.dom (19 + f) with st := .off }
  else s

/-- RENEW_COMPLETE: `found` gives what the self-test found in the fields; a field that its release stopped at, and those after it, stay
in reset (R459), and so does every field that a reset holds (R456). -/
def execRenewComplete (found : List FieldTest) (s : State) : Out :=
  .next (match s.rst.renewing with
    | none => s
    | some (_, fields) =>
      let s : State := { s with rst := { s.rst with renewing := none } }
      let ts := found.filter (fun t => bit fields (t.field % 16))
      let s := ts.foldl (fun s t => s.renewField t) s
      let s := (fieldList fields).foldl (fun s f => s.clearField f) s
      let failed := (fieldList fields).filter s.fieldFailed
      let stop := (fieldList fields).find? (fun f => !failed.contains f && ts.any (fun t => t.field % 16 == f && t.stopped))
      let up := (fieldList fields).filter (fun f => !failed.contains f && stop.all (fun k => decide (f < k)) && !s.keptDown (19 + f))
      let stay := ((fieldList fields).filter (fun f => stop.any (fun k => decide (k ≤ f)))).map (19 + ·)
      let mask := BitVec.ofNat 36 (sumNat (up.map (fun f => 2 ^ (19 + f))))
      let failMask := sumNat (failed.map (2 ^ ·))
      let code := if !failed.isEmpty then 0x40A else if stop.isSome then 0x401 else 0
      let dom := (stop.map (19 + ·)).getD 0x3F
      let s : State := { s with rst := { s.rst with
        kept := s.rst.kept ++ stay, renewState := if stop.isSome then 3 else 2, renewFailed := BitVec.ofNat 16 failMask,
        renewReason := BitVec.ofNat 16 code, reason := if code = 0 then s.rst.reason else BitVec.ofNat 16 code,
        released := s.rst.released ||| mask, locked := s.rst.locked ||| mask
        domain := if stop.isSome then BitVec.ofNat 6 dom else s.rst.domain, earlyStop := s.rst.earlyStop && code = 0 } }
      s.post 0x504 none ccAgent code (s.rst.state.code * 17 + dom * 2 ^ 8 + 2 ^ 15 + fields * 2 ^ 16 + failMask * 2 ^ 32))

/-! ## Faults of memories in service (R323, R517) -/

/-- ORIGIN (Table 17-2) and WHERE (Table 17-3) of an error; 8 for control memory and the event buffer. Table 03-8 gives a receive buffer no
identifier: the model names the first slot of its port (DESIGN CHOICE, log entry 63). -/
def originAt : Protected → Nat
  | .core .. | .galley .. | .sram .. | .store .. | .staging .. | .stream .. | .receive .. => 1
  | .dev a => if a < stackTop then 2 else 3
  | .control => 8
def whereAt : Protected → Nat
  | .core c off => whereRes (resBank c (off / 131072))
  | .galley c g => whereRes (resGalley c g)
  | .sram e _ => whereRes (resNme e)
  | .store die off => whereRes (resStore die (off / 16384))
  | .staging port slot _ => whereRes (resSlot port slot)
  | .stream e _ => whereRes (0x40000000 + e)
  | .receive port .. => whereRes (resSlot port 0)
  | .dev a => whereDev a
  | .control => 0

/-- Poison of an origin on the word or block of an address; data that the error struck reads as whatever it was. -/
def State.strike (s : State) (sp : Space) (a o : Nat) : State :=
  let k := a / sp.grain
  { s with data := s.data.put sp (s.data.bytes sp) (tset 0 (s.data.poison sp) k (o ^^^ s.data.markBase sp k)) }
/-- A galley keeps the origin that first reached it (R519). -/
def State.strikeGalley (s : State) (c g o : Nat) : State :=
  if tget 0 s.data.galleyP (galKey c g) ≠ 0 then s
  else { s with data := { s.data with galleyP := tset 0 s.data.galleyP (galKey c g) o } }

/-- ORIGIN 1 on the eight bytes of a word of a buffer whose bytes carry the origin of their poison. -/
def strikeWord (word : Nat) (r : Run) : Run := r.mapIdx (fun k x => if k / 8 = word then (x.1, 1) else x)

/-- The same on the bytes of an action that wait in a receive buffer for the weir of their destination. -/
def strikeWrites (k : Nat × Nat × Nat × Nat) : Nat → List LinkWrite → List LinkWrite
  | _, [] => []
  | word, w :: rest =>
    if w.key ≠ k then w :: strikeWrites k word rest
    else if 8 * word < w.data.length then { w with data := strikeWord word w.data } :: rest
    else w :: strikeWrites k (word - cdiv w.data.length 8) rest

/-- What an uncorrectable error leaves: poison, or the loss of the part. The words of a stream engine count through its pipe buffer, then through its
staging; those of a message through what has come in and has not left the receive buffer (log entry 63). -/
def State.poisonAt (s : State) (w : Protected) : State := match w with
  | .core c off => s.strike .core (coreAt c off) 1
  | .galley c g => s.strikeGalley c g 1
  | .sram e off => s.strike .sram (sramAt e off) 1
  | .store die off => s.strike .store (storeAt die off) 1
  | .staging port slot off => s.strike .staging (stagingAt port slot off) 1
  | .stream e word =>
    let pipe := tget [] s.se.pipes e
    if 8 * word < pipe.length then { s with se := { s.se with pipes := tset [] s.se.pipes e (strikeWord word pipe) } }
    else s.taintStaged e (word - cdiv pipe.length 8)
  | .receive port message word =>
    match lookupBy (fun m => m.link == port && m.id == message && !m.isSend) s.lnk.msgs with
    | some m =>
      if m.coll then { s with lnk := { s.lnk with
        msgs := modFirst (fun x => x.id == m.id) (fun x => { x with data := strikeWord word x.data }) s.lnk.msgs } }
      else { s with lnk := { s.lnk with writes := strikeWrites m.key word s.lnk.writes } }
    | none => s
  | .dev a => match s.place a with
    | .stack .. | .board .. => s.strike .dev a (originAt w)
    | _ => s
  | .control => { s with sec := { s.sec with reason := 0x750 } }.lose 0x750

/-- A channel fails in service and loses the part. -/
def State.loseChannel (s : State) (c reason : Nat) : State := ({ s with mem := { s.mem with lost := s.mem.lost ++ [c] } } : State).lose reason

/-- An uncorrectable link-ECC error of a board channel: the sixteenth within 1 ms fails the channel (R323). -/
def State.countEcc (s : State) (a : Nat) : State := match s.place a with
  | .board c _ =>
    let l := (s.ns :: tget [] s.mem.eccAt c).take 16
    let s : State := { s with mem := { s.mem with eccAt := tset [] s.mem.eccAt c l } }
    match l[15]? with
    | some t => if s.ns ≤ t + 1000000 then s.loseChannel (256 + c) 0x613 else s
    | none => s
  | _ => s

/-- BOARD_CHANNEL_FAILED: a fault of a part-wide block in service (log entry 63): a board channel that fails training again (0x0613), an HBM4 transfer
that fails after its retries (0x0614), or the error that a read detects: a corrected one is shown in SEC_ERR alone, any other in SEC_UNC and
as poison. Any other block that cannot be removed loses the part too (R527); no code names it. -/
def execBoardChannelFailed (fault : MemFault) (s : State) : Out :=
  .next (match fault with
    | .board c => if c < 64 && s.mem.trained ≠ 0 then s.loseChannel (256 + c) 0x613 else s
    | .transfer c => if c < 256 && s.mem.trained ≠ 0 then s.loseChannel c 0x614 else s
    | .block _ => s.lose 0
    | .error w true => s.secErr (originAt w) (whereAt w)
    | .error w false =>
      let s := (s.secUnc (originAt w) (whereAt w)).poisonAt w
      match w with | .dev a => s.countEcc a | _ => s)

end Sys2Proof.Machine
end

