-- ==== Sys2Proof/Machine/Layout.lean ====
section
/-! DEFINITION. The partition layout record, its checks, the weir cells derived from it, and what its acceptance changes (chapter 10,
R96, R97). -/
namespace Sys2Proof.Machine

open Sys2Proof

/-- A layout entry from its 80 bytes (Table 10-5). -/
def LayoutEntry.parse (b : List Byte) : LayoutEntry :=
  { fields := fld b 0 2, stackSet := byteAt b 2, links := byteAt b 3, frames := fld b 4 4, board := fld b 8 8, sLo := fld b 0x10 2,
    sHi := fld b 0x12 2, bLo := fld b 0x14 2, bHi := fld b 0x16 2, as0 := fld b 0x18 2, as0n := fld b 0x1A 2, as1 := fld b 0x1C 2,
    as1n := fld b 0x1E 2, shares := fld b 0x20 4, cuu := fld b 0x28 8, nme := fld b 0x30 32 }

def layoutEntry (r : List Byte) (p : Nat) : LayoutEntry := LayoutEntry.parse ((r.drop (0x10 + 80 * p)).take 80)
def layoutBytes : Nat := 656

/-- The faults of 0x0601 (R303). -/
def badLayoutEntry (b : List Byte) : Bool :=
  let e := LayoutEntry.parse b
  if e.fields = 0 then !zeroAt b 0 80
  else
    decide (8 ≤ e.links) || bit e.frames 31 || !zeroAt b 0x24 4 || (e.stackSet == 0 && (e.sLo != 0 || e.sHi != 0)) ||
      (e.board == 0 && (e.bLo != 0 || e.bHi != 0)) || (e.as0n == 0 && e.as0 != 0) || (e.as1n == 0 && e.as1 != 0)

def badLayoutHeader (r : List Byte) : Bool :=
  fld r 0 4 != 0x594C5658 || byteAt r 4 != 1 || !zeroAt r 6 10 || partNums.any (fun p => badLayoutEntry ((r.drop (0x10 + 80 * p)).take 80))

/-! ## Weir cells (R320) -/

/-- The weirs of Table 10-7. -/
def weirNums : List Nat := upTo 0x143 ++ [0x148, 0x149]
def LayoutEntry.share (e : LayoutEntry) (cls : Nat) : Nat := bits e.shares (8 * cls + 7) (8 * cls)

/-- Whether an owner has access to a weir under a layout; owner 8 is transit traffic. -/
def weirAccess (lay : Nat → LayoutEntry) (w o : Nat) : Bool :=
  let e := lay o
  if o = 8 then weirClass w == 2
  else decide (o < 8) && e.fields != 0 && match weirClass w with
    | 0 => bit e.stackSet (w / 32)
    | 1 => bit e.board (w - 0x100)
    | 2 => bit e.links (w - 0x140)
    | _ => true

/-- COUNT of an owner from its share. -/
def weirCount (lay : Nat → LayoutEntry) (transit w o : Nat) : Nat :=
  if weirAccess lay w o then
    let share := if o = 8 then transit else (lay o).share (weirClass w)
    if share = 0 then 0 else max 1 (share * 64 / 100)
  else 0

/-- Owners in the order in which they take their cells. -/
def weirOrder : List Nat := 8 :: partNums

/-- The register word of an owner at a weir: its block follows those of the owners before it. -/
def weirWord (lay : Nat → LayoutEntry) (transit w o : Nat) : Nat :=
  let n := weirCount lay transit w o
  if n = 0 then 0
  else sumNat ((weirOrder.takeWhile (fun q => q != o)).map (weirCount lay transit w)) + n * 256 + 4096 * 65536

/-- MEM_WEIR as firmware derives it. -/
def deriveWeirs (lay : Nat → LayoutEntry) (transit : Nat) : Tab W32 :=
  (weirNums.flatMap (fun w => (upTo 9).map (fun o => (weirKey w o, BitVec.ofNat 32 (weirWord lay transit w o))))).filter (fun e => e.2 != 0)

/-- The faults of 0x0607. -/
def badShares (lay : Nat → LayoutEntry) (transit : Nat) : Bool :=
  (upTo 4).any (fun c => decide (100 < sumNat (partNums.map (fun p => (lay p).share c)) + (if c = 2 then transit else 0))) ||
    weirNums.any (fun w => decide (64 < sumNat (weirOrder.map (weirCount lay transit w))))

/-! ## The checks (R304) -/

/-- The pairs of different defined partitions of which a test holds. -/
def pairsOf (lay : Nat → LayoutEntry) (f : LayoutEntry → LayoutEntry → Bool) : Bool := pairsAny (fun p q => f (lay p) (lay q)) partNums

def badRanges (cap : Nat) (e : LayoutEntry) : Bool :=
  (e.stackSet != 0 && (decide (e.sHi ≤ e.sLo) || decide (1024 < e.sHi))) ||
    (e.board != 0 && (decide (e.bHi ≤ e.bLo) || decide (cap / pageBytes < e.bHi) || (bit e.board 63 && decide ((cap - fwRegion) / pageBytes < e.bHi))))

def rangesOverlap (a b : LayoutEntry) : Bool :=
  (a.stackSet &&& b.stackSet != 0 && rangesMeet a.sLo (a.sHi - a.sLo) b.sLo (b.sHi - b.sLo)) ||
    (a.board &&& b.board != 0 && rangesMeet a.bLo (a.bHi - a.bLo) b.bLo (b.bHi - b.bLo))

/-- An owner without a range in an engine's channel. -/
def engineAway (e : LayoutEntry) : Bool :=
  (upTo 8).any (fun s => bits e.nme (32 * s + 31) (32 * s) != 0 && !bit e.stackSet s) || !subset e.cuu e.board

def storeBeyond (e : LayoutEntry) : Bool := decide (12288 < e.as0 + e.as0n) || decide (12288 < e.as1 + e.as1n)
def storeOverlap (a b : LayoutEntry) : Bool := rangesMeet a.as0 a.as0n b.as0 b.as0n || rangesMeet a.as1 a.as1n b.as1 b.as1n

/-- Two functions of an owner differ at some weir. -/
def State.sharesMove (s : State) (w : Tab W32) (p : Nat) : Bool :=
  weirNums.any (fun n => tget (0 : W32) s.mem.weir (weirKey n p) != tget (0 : W32) w (weirKey n p))

/-- The partitions that a new layout affects: those whose entry changes and, in the basic view, those whose weir cells move (R20, R97). -/
def State.affected (s : State) (lay : Nat → LayoutEntry) (transit : Nat) : List Nat :=
  let w := deriveWeirs lay transit
  partNums.filter (fun p => s.lay p != lay p || (!s.mem.ctrl && s.sharesMove w p))

/-- The reason that refuses a layout record: 0x0601, then Table 03-16, then Table 10-11. -/
def State.layoutCode (s : State) (r : List Byte) : Nat :=
  let lay := layoutEntry r
  let transit := byteAt r 5
  let es := (partNums.map lay).filter (fun e => e.fields != 0)
  let aff := s.affected lay transit
  firstCode [
    (0x0601, badLayoutHeader r),
    (0x0214, es.any (fun e => e.frames == 0)),
    (0x0215, aff.any (fun p => (s.part p).status != .idle)),
    (0x0216, pairsOf lay (fun a b => a.fields &&& b.fields != 0)),
    (0x021E, partNums.any (fun p => (lay p).fields == 0 && !(s.part p).resident.isEmpty)),
    (0x0602, pairsOf lay (fun a b => a.frames &&& b.frames != 0)),
    (0x0603, es.any (badRanges s.cap)),
    (0x0604, pairsOf lay rangesOverlap),
    (0x0605, pairsOf lay (fun a b => a.nme &&& b.nme != 0 || a.cuu &&& b.cuu != 0) || es.any engineAway),
    (0x0606, es.any storeBeyond || pairsOf lay storeOverlap),
    (0x0607, badShares lay transit)]

/-- Clears the enable bit of every resident forme of a partition (R96). -/
def Part.disableAll (x : Part) : Part := { x with resident := x.resident.map (fun r => { r with enabled := false }) }

/-- The partitions whose formes a layout disables (R96): all of them where it changes anything, since the partition layout is one for the
whole part (R97). -/
def State.disabledBy (s : State) (lay : Nat → LayoutEntry) (transit : Nat) : List Nat :=
  if s.transit ≠ transit || !(s.affected lay transit).isEmpty then partNums else []

/-- A layout comes into force (R96, R97, R320). -/
def State.applyLayout (s : State) (r : List Byte) : State :=
  let lay := layoutEntry r
  let transit := byteAt r 5
  let aff := s.disabledBy lay transit
  let s := { s with transit := transit, layout := partNums.foldl (fun t p => tset LayoutEntry.none t p (lay p)) s.layout,
                    mem := if s.mem.ctrl then s.mem else { s.mem with weir := deriveWeirs lay transit } }
  (aff.foldl (fun s p => s.modPart p Part.disableAll) s).advertise

end Sys2Proof.Machine
end

