-- ==== Sys2Proof/Machine/HostCommands.lean ====
section
/-! DEFINITION. The host commands of chapter 13 that act on partitions, formes, memory and the cache. Each row acts on the command at the
front of the queue when it carries the row's opcode and mode. -/
namespace Sys2Proof.Machine

open Sys2Proof

/-- NOP completes OK. A reserved opcode has no row of its own; it is refused here with 0x0110 (R415). -/
def execNop (s : State) : Out := .next (s.runCmd (fun op => op == 0 || !knownOp op) (fun c s => s.ok c 0))

/-- ABORT (R421, R422): its stamp has decided; it completes once its target has. -/
def execAbort (s : State) : Out :=
  .next (match s.front (· == 1) with
    | none => s
    | some c =>
      let doneAt (t : Nat) : Option Nat := match lookupBy (fun h => h.stamp == t) s.hif.history with
        | some h => match h.st with | .done q => some q | _ => none
        | none => some 0
      let fin (status reason value : Nat) : State := (s.begun c).complete c.ring c.tag c.stamp c.part status reason value 0
      match lookupBy (fun a => a.1 == c.stamp) s.hif.aborts with
      | some (_, .notFound) => fin stNotFound 0 0
      | some (_, .refused r) => fin stRefused r 0
      | some (_, .after t) => match doneAt t with | some q => fin stAlready 0 q | none => s
      | some (_, .first t) => match doneAt t with | some q => fin stOK 0 q | none => s
      | none => fin stNotFound 0 0)

/-- The front command carries an opcode and a MODE. -/
def State.frontMode (s : State) (op : Nat) (f : Nat → Bool) : Bool := match s.front (· == op) with
  | some c => f (c.opnd 0 1)
  | none => false

/-! ## Layout, formes (R94, R95, R304) -/

/-- A record can be fetched whole. -/
def State.canFetch (s : State) (fetched : Bool) : Bool := fetched && s.hif.bme

/-- Runs a command that fetches from host memory; in D3hot the fetch is not issued, and the command waits (R395). -/
def State.runFetch (s : State) (op : Nat) (f : Cmd → State → State) : State :=
  if s.hif.d3 && (s.front (· == op)).any (fun c => s.cmdCode c == 0) then s else s.runCmd (· == op) f

def execLayout (fetched : Bool) (s : State) : Out :=
  .next (s.runFetch 0x10 (fun c s =>
    if !s.canFetch fetched then s.deny c 0x11C else
    let r := s.hostRead (c.opnd 0 8) layoutBytes
    let code := s.layoutCode r
    if code = 0 then (s.applyLayout r).ok c 0 else (s.enableRefused code 0).deny c code))

/-- Bytes of all resident formes. -/
def State.storeUsed (s : State) : Nat := sumNat (partNums.map (fun p => sumNat ((s.part p).resident.map (fun r => r.image.length))))

def execLoad (fetched : Bool) (s : State) : Out :=
  .next (s.runFetch 0x11 (fun c s =>
    if !s.canFetch fetched then s.deny c 0x11C else
    let size := c.opnd 8 4
    let m := s.hostRead (c.opnd 0 8) (min size (maxImage + 1))
    let x := s.part c.part
    let code := loadCode m size (x.resident.map (·.id)) s.storeUsed
    s.answer c code (s.setPart c.part { x with resident := x.resident ++ [{ id := Image.formeId m, image := m, enabled := false }] })))

/-- A forme that is starting, running, queued or frozen (R94). -/
def State.formeInUse (s : State) (p id : Nat) : Bool :=
  ((s.part p).status != .idle && (s.part p).cur == id) || s.hif.switches.any (fun w => w.targets.contains (p, id))

def execUnload (s : State) : Out :=
  .next (s.runCmd (· == 0x12) (fun c s =>
    let x := s.part c.part
    let id := c.opnd 0 4
    s.answer c (firstCode [(0x217, (x.find id).isNone), (0x21D, s.formeInUse c.part id)])
      (s.setPart c.part { x with resident := x.resident.filter (fun r => r.id != id) })))

/-- ENABLE (R95): a refused one leaves the bit as it is (R415). -/
def execEnable (s : State) : Out :=
  .next (s.runCmd (· == 0x13) (fun c s =>
    let x := s.part c.part
    match x.find (c.opnd 0 4) with
    | none => s.deny c 0x217
    | some r =>
      let code := s.enableCode c.part r.image
      if code = 0 then
        (s.setPart c.part { x with resident := x.resident.map (fun q => if q.id = r.id then { q with enabled := true } else q) }).ok c 0
      else (s.enableRefused code 0).deny c code))

/-! ## SWITCH and RESUME (R85, R86, R98, R352) -/

/-- SWITCH begins: the tests of its stamp stand, and it waits for its service start. -/
def execSwitch (s : State) : Out :=
  .next (match s.front (· == 0x14) with
    | none => s
    | some c =>
      let r := if s.cmdCode c ≠ 0 then s.cmdCode c else c.pre
      let s := s.begun c
      if r ≠ 0 then (s.dropSwitch c.stamp).completeAll c stRefused r
      else { s with hif := { s.hif with switches := s.hif.switches.map (fun w => if w.stamp = c.stamp then { w with begun := true } else w) } })

/-- A RESUME finds its partition FROZEN: one stamped when a grace period has run out finds it leaving FROZEN (R291). -/
def State.resumable (s : State) (c : Cmd) : Bool :=
  let x := s.part c.part
  decide (x.status = .frozen) && match x.grace with
    | some (t, _, _) => decide (c.time < t)
    | none => true

/-- A halted stream's cause has been cleared (R352). -/
def State.streamCleared (s : State) (p : Nat) (r : StreamRec) : Bool :=
  r.state != 2 || match r.cause with
    | 1 => s.pagePresent r.detail
    | 2 => match s.cset p with
      | some c => match s.cacheIndex c (bits r.detail 47 32) with
        | some i => let e := s.cacheEng c i; e.head != e.tail
        | none => false
      | none => false
    | _ => true

/-- A cause after which CONTINUE is refused (Table 03-13). -/
def Cause.final : Cause → Bool
  | .breach | .poison | .divergence | .trip => true
  | _ => false

/-- A halted stream as CONTINUE restarts it: CAUSE, DUE, DETAIL and BLOCK are those of no halt (Table 11-5), and its due position is kept for
the thaw. -/
def StreamRec.restart (r : StreamRec) : StreamRec :=
  if r.state = 2 then { r with state := 1, cause := 0, due := 0, detail := 0, restarted := true, waiting := false, block := 0,
                               blockAction := 0xFFFF, thawing := true } else r

/-- A restarted stream that its pipe still stops waits for the other party (R342). -/
def State.stillWaits (s : State) (e : Nat) : State :=
  let r := s.srec e
  if r.state = 1 && r.thawing && r.kindOp = 0x40 then match s.blockedAt e with
    | some o => s.setRec e { r with waiting := true, block := 0x10000000 + o,
                                    blockAction := ((s.streamFlight o).map (·.action)).getD 0xFFFF }
    | none => s
  else s

/-- An accepted CONTINUE: the partition leaves FROZEN, every halted stream is restarted, an expired watchdog will restart (Table 03-13). -/
def State.continued (s : State) (p : Nat) : State :=
  let x := s.part p
  let b := match x.frz with | .stopped b | .pending b | .thawing b => b | .no => x.cycle
  let s := (s.setPart p { x with frz := .thawing b, causes := [], wdAgain := x.causes.contains .watchdog, grace := none }).setStat p .running
  let s := (s.streamsOf p).foldl (fun s e => s.setRec e (s.srec e).restart) s
  (s.streamsOf p).foldl State.stillWaits s

def execResumeContinue (s : State) : Out :=
  .next (if s.frontMode 0x15 (· == 0) then s.runCmd (· == 0x15) (fun c s =>
      let p := c.part
      let code := firstCode [(0x21A, !s.resumable c), (0x21B, (s.part p).causes.any Cause.final),
        (0x21C, (s.streamsOf p).any (fun e => !s.streamCleared p (s.srec e)))]
      s.answer c code (s.continued p))
    else s)

def execResumeAbandon (s : State) : Out :=
  .next (if s.frontMode 0x15 (· != 0) then s.runCmd (· == 0x15) (fun c s =>
      let p := c.part
      let s' := match (s.part p).grace, s.cset p with
        | some _, some cs => s.clearPending cs
        | _, _ => s
      s.answer c (if s.resumable c then 0 else 0x21A) (s'.abandonRun p stAbandoned 0 0))
    else s)

/-! ## Device memory (R305, R306, R311) -/

/-- Zeroes a range of device memory, poison included. -/
def State.zeroDev (s : State) (a n : Nat) : State :=
  { s with data := { s.data with dev := tclear s.data.dev a n, devP := tclear s.data.devP (a / 64) (n / 64),
                                 devZeroed := s.data.devZeroed ++ [(a, n)] } }

/-- The first address of a list at which a run of units is free. -/
def State.freeRun (s : State) (units : Nat) (starts : List Nat) : Option Nat :=
  starts.find? (fun a => !s.mem.allocs.any (fun x => rangesMeet a (units * pageBytes) x.addr (x.units * pageBytes)))

/-- The start addresses that a hint allows, lowest first. -/
def State.allocStarts (s : State) (p tier units affinity : Nat) : List Nat :=
  let e := s.lay p
  let span (base lo hi : Nat) : List Nat := (upTo (hi + 1 - lo - units)).map (fun k => base + (lo + k) * pageBytes)
  match tier with
  | 0 => (upTo 256).flatMap (fun c => if bit e.stackSet (c / 32) && bit affinity (c / 32) then span (c * 2147483648) e.sLo e.sHi else [])
  | 1 => (upTo 64).flatMap (fun n => if bit e.board n && bit affinity n then span (boardBase + n * s.cap) e.bLo e.bHi else [])
  | _ =>
    let free (k : Nat) : Bool := !s.pagePresent (hostBase + k * pageBytes)
    ((upTo (s.mem.window.toNat + 1 - units)).filter (fun k => (upTo units).all (fun i => free (k + i)))).map (fun k => hostBase + k * pageBytes)

/-- Whether a device range is served now: its domains are in the states of R486. -/
def State.servedRange (s : State) (a n : Nat) : Bool := (cut pageBytes a n).all (fun x => match s.place x.1 with
  | .stack c _ => s.stackServed c
  | .board c _ => s.boardServed c
  | _ => true)

/-- The entry of a board page that is PRESENT and PINNED. -/
def pinnedEntry : BitVec 64 := 0xC000000000000000
def State.pinBoard (s : State) (a n : Nat) : State :=
  { s with mem := { s.mem with
    pte := (cut pageBytes a n).foldl (fun t x => tset (newEntry (boardPage x.1)) t (s.entryAddr (boardPage x.1)) pinnedEntry) s.mem.pte } }

/-- The placement hint of an ALLOC: TIER, SIZE in units of 2 MiB, AFFINITY (Table 10-6). -/
def Cmd.tier (c : Cmd) : Nat := c.opnd 0 1
def Cmd.units (c : Cmd) : Nat := c.opnd 4 4
def Cmd.affinity (c : Cmd) : Nat := c.opnd 8 8
/-- ZERO clears the range; the host window is the host's own. -/
def Cmd.zeroes (c : Cmd) : Bool := bit (c.opnd 1 1) 1 && decide (c.tier < 2)
/-- PIN pins the pages of a board range. -/
def Cmd.pins (c : Cmd) : Bool := bit (c.opnd 1 1) 0 && decide (c.tier = 1)

/-- A hint that 0x060D names. -/
def State.badHint (s : State) (c : Cmd) : Bool :=
  let e := s.lay c.part
  let range := match c.tier with | 0 => e.sHi - e.sLo | 1 => e.bHi - e.bLo | _ => c.units
  decide (c.tier > 2) || decide (c.opnd 2 1 ≠ c.part) || decide (c.units = 0) || decide (range < c.units) ||
    (decide (c.tier = 0) && decide (c.affinity ≥ 256)) || (decide (c.tier = 2) && decide (c.affinity ≠ 0))

/-- An allocation is made: zeroed and pinned as the hint asks. -/
def State.allocated (s : State) (c : Cmd) (a : Nat) : State :=
  let n := c.units * pageBytes
  let s := if c.zeroes then s.zeroDev a n else s
  let s := if c.pins then s.pinBoard a n else s
  { s with mem := { s.mem with allocs := s.mem.allocs ++ [{ addr := a, units := c.units, tier := c.tier, partition := c.part }] } }

/-- ALLOC (R306): the lowest free range that the hint allows. -/
def execAlloc (s : State) : Out :=
  .next (s.runCmd (· == 0x20) (fun c s =>
    if s.badHint c then s.deny c 0x60D
    else match s.freeRun c.units (s.allocStarts c.part c.tier c.units c.affinity) with
      | none => s.deny c 0x60E
      | some a => if c.zeroes && !s.servedRange a (c.units * pageBytes) then s.deny c 0x50B else (s.allocated c a).ok c a))

/-- RELEASE (R305). -/
def execRelease (s : State) : Out :=
  .next (s.runCmd (· == 0x21) (fun c s =>
    let a := c.opnd 0 8
    let after : State := { s with mem := { s.mem with allocs := s.mem.allocs.filter (fun x => x.addr != a) } }
    s.answer c (if s.mem.allocs.any (fun x => x.addr == a) then 0 else 0x60D) after))

/-- An address of MAP or UNMAP that 0x0609 names. -/
def State.badPage (s : State) (a : Nat) (map : Bool) : Bool :=
  a % pageBytes != 0 || !((decide (boardBase ≤ a) && decide (a + fwRegion < s.boardTop)) ||
    (decide (hostBase ≤ a) && (map || decide (a < s.hostTop))))

/-- The reasons of MAP in their order (R311). -/
def State.mapCode (s : State) (c : Cmd) : Nat :=
  let p := c.part
  let a := c.opnd 0 8
  let host := decide (hostBase ≤ a)
  firstCode [(0x609, s.badPage a true),
    (0x60A, if host then s.mem.allocs.any (fun x => x.tier == 2 && x.partition != p && rangesMeet a pageBytes x.addr (x.units * pageBytes))
      else !s.boardInRange p a),
    (0x60B, s.pinned a && !bit (c.opnd 16 1) 0 && decide ((s.part p).status ≠ .idle)), (0x60C, host && decide (s.hostTop ≤ a))]

/-- The word that MAP stores: PRESENT, PINNED, and of a host page PARTITION and FRAME (Table 10-8). -/
def Cmd.mapWord (c : Cmd) : BitVec 64 :=
  let pin := b2n (bit (c.opnd 16 1) 0)
  BitVec.ofNat 64 (2 ^ 63 + pin * 2 ^ 62 + if hostBase ≤ c.opnd 0 8 then c.part * 2 ^ 58 + c.opnd 8 8 / pageBytes else 0)

/-- MAP (R311). -/
def execMap (s : State) : Out :=
  .next (s.runCmd (· == 0x22) (fun c s => s.answer c (s.mapCode c) (s.setPte (pageKey (c.opnd 0 8)) c.mapWord)))

/-- The reasons of UNMAP in their order (R311). -/
def State.unmapCode (s : State) (c : Cmd) : Nat :=
  let p := c.part
  let a := c.opnd 0 8
  firstCode [(0x609, s.badPage a false),
    (0x60A, if hostBase ≤ a then s.pagePresent a && s.pagePartition a != p else !s.boardInRange p a),
    (0x60B, s.pinned a && decide ((s.part p).status ≠ .idle))]

/-- UNMAP (R311). -/
def execUnmap (s : State) : Out :=
  .next (s.runCmd (· == 0x23) (fun c s =>
    let a := c.opnd 0 8
    s.answer c (s.unmapCode c)
      (s.setPte (pageKey a) (BitVec.ofNat 64 (putBit (s.pteRaw (pageKey a)).toNat 63 false)))))

/-! ## COPY and EXPORT (R418, R419, R522) -/

/-- A device range that a COPY of the partition may reach, whatever PRESENT a board page has; a host-window page must be mapped. -/
def State.copyInside (s : State) (p a n : Nat) : Bool :=
  let e := s.lay p
  decide (a + n ≤ 2 ^ 57) && (cut pageBytes a n).all (fun x => match s.place x.1 with
    | .stack c off => bit e.stackSet (c / 32) && decide (e.sLo * pageBytes ≤ off) && decide (off < e.sHi * pageBytes)
    | .board _ _ => s.boardInRange p x.1
    | .host _ _ => s.pagePresent x.1 && s.pagePartition x.1 == p
    | .reserved => false)

/-- The device ranges of a COPY. -/
def copyRanges (c : Cmd) : List Nat := match c.opnd 20 1 with
  | 0 => [c.opnd 8 8]
  | 1 => [c.opnd 0 8]
  | _ => [c.opnd 0 8, c.opnd 8 8]

def State.inProgress (s : State) (c : Cmd) (header : List Byte) (epoch : Nat) : State :=
  { s with hif := { s.hif with running := s.hif.running ++ [{ cmd := c, bytesDone := 0, aborted := false, header := header, epoch := epoch }] } }

/-- The reasons of COPY in their order (R418). -/
def State.copyCode (s : State) (c : Cmd) : Nat :=
  let n := c.opnd 16 4
  let st := (s.part c.part).status
  firstCode [(0x117, decide (st = .starting) || decide (st = .running)),
    (0x118, (copyRanges c).any (fun a => !s.copyInside c.part a n)), (0x50B, (copyRanges c).any (fun a => !s.servedRange a n))]

/-- The requests of a background transfer (R418): what it reads and what it writes at the weirs, in its partition's queues there. The control complex
sends them. -/
def State.askTransfer (s : State) (c : Cmd) (reads writes : List (Nat × Nat)) : State :=
  let w : Who := { p := c.part, cyc := (s.part c.part).cycle, agent := ccAgent, action := 0xFFFF }
  (s.askWeirs w (c.stamp + 1) false reads).askWeirs w (c.stamp + 1) true writes
def ofTransfer (c : Cmd) (r : WeirReq) : Bool := r.agent == ccAgent && r.id == c.stamp + 1
/-- The model clock at which they have left the weirs. -/
def State.transferLeft (s : State) (c : Cmd) : Option Nat := s.leftAt (ofTransfer c)

/-- Bytes before the 64-byte block of the first poisoned byte, and its origin and index. -/
def poisonStop (a : Nat) (r : Run) : Option (Nat × Nat × Nat) :=
  ((r.zipIdx).find? (fun x => x.1.2 != 0)).map (fun x => ((a + x.2) / 64 * 64 - a, x.1.2, x.2))

/-- Ends a background transfer: the bytes moved, and poison met at the source. It issues no further request (R422, R522). -/
def State.endTransfer (s : State) (b : Bg) (len : Nat) (stop : Option (Nat × Nat × Nat)) (free : Nat) (write : Nat → State → State)
    (detail : Nat) : State :=
  let c := b.cmd
  let s := { s with hif := { s.hif with running := s.hif.running.filter (fun x => x.cmd.stamp != c.stamp) } }.dropHeld (fun _ => ofTransfer c)
  let fin (s : State) (st reason n : Nat) : State := s.complete c.ring c.tag c.stamp c.part st reason n detail
  match stop with
  | some (n, o, at') =>
    if b.aborted then let k := min n (free % (len / 16 + 1) * 16); fin (write k s) stAborted 0 k
    else
      let s := (write n s).post 0x205 (some c.part) ccAgent (0x720 + o) at'
      fin { s with sec := { s.sec with reason := BitVec.ofNat 16 (0x720 + o) } } stAborted (0x720 + o) n
  | none =>
    if b.aborted then let k := min len (free % (len / 16 + 1) * 16); fin (write k s) stAborted 0 k
    else fin (write len s) stOK 0 len

/-- A COPY has a side at the host: the host's memory, or the host window. -/
def copyHost (c : Cmd) : Bool := c.opnd 20 1 != 2 || (copyRanges c).any (fun a => decide (hostBase ≤ a))
/-- What a COPY reads. -/
def State.copySource (s : State) (c : Cmd) : Run :=
  if c.opnd 20 1 = 0 then s.hostFetch (c.opnd 0 8) (c.opnd 16 4) else (cut pageBytes (c.opnd 0 8) (c.opnd 16 4)).flatMap (fun x => s.devRead x.1 x.2)

/-- COPY begins: it runs while later commands begin. DESIGN CHOICE (log entry 29): poison that its source holds then ends its requests (R522). -/
def execCopy (s : State) : Out :=
  .next (s.runCmd (· == 0x24) (fun c s =>
    if s.copyCode c ≠ 0 then s.deny c (s.copyCode c) else
    let n := ((poisonStop (c.opnd 0 8) (s.copySource c)).map (·.1)).getD (c.opnd 16 4)
    (s.inProgress c [] 0).askTransfer c (if c.opnd 20 1 = 0 then [(0x148, n)] else s.weirsOf (c.opnd 0 8) n false)
      (if c.opnd 20 1 = 1 then [(0x149, n)] else s.weirsOf (c.opnd 8 8) n true)))

/-- COPY_COMPLETE: the rest of the bytes move in source order, up to poison (R522), once its requests have left the weirs (R314, R418) and while the
host interface sends what the host side of the COPY needs. How far an aborted COPY came is a free value. DESIGN CHOICE (log entry 42): Table 03-1
gives the host interface no identifier, so no guard of R229 or R275 holds back its reads and writes that are under way when a run starts or resumes. -/
def execCopyComplete (stamp : Nat) (s : State) : Out :=
  .next (match lookupBy (fun b => b.cmd.stamp == stamp && b.cmd.op == 0x24) s.hif.running with
    | none => s
    | some b =>
      let c := b.cmd
      let src := c.opnd 0 8
      let dst := c.opnd 8 8
      let n := c.opnd 16 4
      let dir := c.opnd 20 1
      if !s.hostUp && copyHost c then s else
      match if b.aborted then some s.clk else s.transferLeft c with
      | none => s
      | some t =>
      let s := s.toClk t
      let r := s.copySource c
      let (k, s) := s.draw
      let stop := (poisonStop src r).map (fun x => (x.1, x.2.1, whereDev (src + x.2.2)))
      let write (m : Nat) (s : State) : State :=
        if dir = 1 then s.hostWrite dst ((r.take m).map (·.1))
        else (cut pageBytes dst m).foldl (fun s x => s.devWrite x.1 ((r.drop (x.1 - dst)).take x.2)) s
      s.endTransfer b n stop k write 0)

/-- The arrays of an EXPORT: addresses and lengths of W, R, M, V. -/
def exportArrays (c : Cmd) : List (Nat × Nat) :=
  let n := c.inl 0x18 8
  let mw := if bit (c.inl 7 1) 0 then 2 else 4
  [(c.inl 0x28 8, 2 * n), (c.inl 0x30 8, 2 * n)] ++ (if c.inl 6 1 ≤ 1 then [(c.inl 0x38 8, mw * n)] else []) ++
    (if c.inl 6 1 = 0 then [(c.inl 0x40 8, mw * n)] else [])

def exportPayload (c : Cmd) : Nat := sumNat ((exportArrays c).map (·.2))

/-- The header without DIGEST and CHECK (Table 08-8, R419). -/
def State.exportHeader (s : State) (c : Cmd) (epoch : Nat) : List Byte :=
  let p := c.part
  let x := s.part p
  leBytes 4 0x58455658 ++ leBytes 2 1 ++ leBytes 2 128 ++ leBytes 4 (c.inl 0 4) ++ leBytes 2 (c.inl 4 2) ++ leBytes 1 (c.inl 6 1) ++
  leBytes 1 (c.inl 7 1 + 4 * b2n x.abandoned) ++ leBytes 4 (c.inl 8 4) ++ leBytes 4 (c.inl 0xC 4) ++ leBytes 8 (c.inl 0x10 8) ++
  leBytes 8 (c.inl 0x18 8) ++ leBytes 2 (c.inl 0x20 2) ++ leBytes 2 (c.inl 0x22 2) ++ leBytes 4 epoch ++
  leBytes 4 ((tget (0 : W32) s.num.step p).toNat + x.lastSteps) ++ leBytes 4 0 ++
  leBytes 8 ((tget (0 : W32) s.num.seedLo p).toNat + (tget (0 : W32) s.num.seedHi p).toNat * 2 ^ 32)

/-- The reasons of EXPORT in their order (R418, R419). -/
def State.exportCode (s : State) (c : Cmd) : Nat :=
  let p := c.part
  let bad := (exportArrays c).any (fun a => !s.copyInside p a.1 a.2) || decide (c.inl 8 4 * c.inl 0xC 4 < c.inl 0x10 8 + c.inl 0x18 8) ||
    decide (c.inl 0x50 8 < 128 + exportPayload c)
  firstCode [(0x119, decide ((s.part p).status ≠ .idle)), (0x11A, bad), (0x50B, (exportArrays c).any (fun a => !s.servedRange a.1 a.2))]

/-- The whole header: DIGEST of the payload and CHECK of the header. -/
def exportWhole (h payload : List Byte) : List Byte :=
  let a := h ++ leBytes 8 (crc64 payload)
  let tail := List.replicate 48 (0 : Byte)
  a ++ leBytes 8 (crc64 (a ++ leBytes 8 0 ++ tail)) ++ tail

/-- Where the bytes of an EXPORT's payload stand: device address, and distance from the start of their array. -/
def exportPlaces (c : Cmd) : List (Nat × Nat) := (exportArrays c).flatMap (fun a => (upTo a.2).map (fun k => (a.1 + k, k)))

/-- Where poison stops an EXPORT: bytes before its block or, where the block begins before the array, before the array; origin, WHERE. -/
def exportStop (c : Cmd) (r : Run) : Option (Nat × Nat × Nat) :=
  ((r.zipIdx).find? (fun x => x.1.2 != 0)).map (fun x =>
    let (a, k) := (exportPlaces c).getD x.2 (0, 0)
    (128 + (x.2 - min k (a % 64)), x.1.2, whereDev a))

/-- The first bytes of what a list of weirs carries. -/
def firstBytes : Nat → List (Nat × Nat) → List (Nat × Nat)
  | _, [] => []
  | n, x :: t => if n ≤ x.2 then [(x.1, n)] else x :: firstBytes (n - x.2) t

/-- What an EXPORT reads. -/
def State.exportSource (s : State) (c : Cmd) : Run := (exportArrays c).flatMap (fun a => (cut pageBytes a.1 a.2).flatMap (fun x => s.devRead x.1 x.2))

/-- EXPORT begins: its epoch advances (R254). DESIGN CHOICE (log entry 29): poison that its arrays hold then ends its requests (R522). -/
def execExportCmd (s : State) : Out :=
  .next (s.runCmd (· == 0x25) (fun c s =>
    if s.exportCode c = 0 then
      let s := s.modPart c.part (fun x => { x with exportEpoch := x.exportEpoch + 1 })
      let epoch := (s.part c.part).exportEpoch.toNat
      let n := ((exportStop c (s.exportSource c)).map (·.1)).getD (128 + exportPayload c)
      (s.inProgress c (s.exportHeader c epoch) epoch).askTransfer c
        (firstBytes (n - 128) (joinWeirs ((exportArrays c).flatMap (fun a => s.weirsOf a.1 a.2 false)))) [(0x149, n)]
    else s.deny c (s.exportCode c)))

/-- EXPORT_COMPLETE: header and payload reach the host buffer, up to poison (R522), once their requests have left the weirs (R314). DESIGN CHOICE (log
entry 42): as for COPY_COMPLETE, no guard of R229 holds back its reads. -/
def execExportComplete (stamp : Nat) (s : State) : Out :=
  .next (match lookupBy (fun b => b.cmd.stamp == stamp && b.cmd.op == 0x25) s.hif.running with
    | none => s
    | some b =>
      let c := b.cmd
      if !s.hostUp then s else
      match if b.aborted then some s.clk else s.transferLeft c with
      | none => s
      | some t =>
      let s := s.toClk t
      let r := s.exportSource c
      let h := exportWhole b.header (Run.plain r)
      let (k, s) := s.draw
      let all := h ++ Run.plain r
      s.endTransfer b all.length (exportStop c r) k (fun m s => s.hostWrite (c.inl 0x48 8) (all.take m)) b.epoch)

/-! ## The cache (R278, R284 to R286, R289) -/

/-- What R277, R279 and R280 ask of a record's sizes. -/
def CacheSet.sizesOk (c : CacheSet) : Bool :=
  let hb := c.headBytes
  let tb := cdiv (c.h * hb) 16 * 16
  c.magic == 0x4B435658 && !c.rsv && decide (1 ≤ c.n) && decide (c.n ≤ 256) && decide (1 ≤ c.cg) && decide (c.cg ≤ 256) && c.n % c.cg == 0 &&
    decide (1 ≤ c.h) && decide (c.h ≤ 16) && decide (3 ≤ c.kFmt) && decide (c.kFmt ≤ 9) && decide (3 ≤ c.vFmt) && decide (c.vFmt ≤ 9) &&
    decide (32 ≤ c.d) && decide (c.d ≤ 256) && c.d % 32 == 0 && (!isMx c.kFmt || c.kScale == 0x7F) && (!isMx c.vFmt || c.vScale == 0x7F) &&
    c.tokenBytes == tb && c.t == 262144 / tb && decide (1 ≤ c.t) && decide (c.t ≤ 2048) && decide (1 ≤ c.layers) && decide (c.layers ≤ 256) &&
    decide (1 ≤ c.slots) && decide (c.slots ≤ 4096) && c.slots % c.cg == 0 && decide (1 ≤ c.ppe)

/-- What R278, R280 and R284 ask of an engine entry. -/
def State.engineEntryOk (s : State) (p : Nat) (c : CacheSet) (e : CacheEng) : Bool :=
  !e.rsv && decide (e.engine < 256) && bit (s.lay p).nme e.engine && !s.sec.fenced.getLsbD e.engine && decide (1 ≤ e.freeCap) &&
    decide (e.freeCap ≤ 8192) && s.inChannel true e.engine e.cpt (c.slots / c.cg * c.layers * c.ppe * 8) &&
    s.inChannel true e.engine e.free (8 * e.freeCap) && decide (e.head < e.wrap) && decide (e.tail < e.wrap) && decide (e.count ≤ e.freeCap)

/-- What R280 and R286 ask of the bucket table. -/
def State.bucketsOk (s : State) (p : Nat) (c : CacheSet) : Bool :=
  let n := s.bucketCount c
  let hdr := (s.devRead c.buckets 16).plain
  let caps := (upTo n).map (fun b => (s.bucket c b).capLen)
  decide (1 ≤ n) && decide (n ≤ 16) && byteAt hdr 1 == 0 && zeroAt hdr 4 12 && decide (1 ≤ s.stepTokens c) && decide (s.stepTokens c ≤ 2048) &&
    (caps.zip caps.tail).all (fun x => decide (x.1 < x.2)) &&
    (upTo n).all (fun b =>
      let k := s.bucket c b
      !k.rsv && decide (1 ≤ k.capLen) && decide (k.capLen ≤ 16777215) && decide (cdiv k.capLen c.t ≤ c.ppe * c.ng) && decide (1 ≤ k.rows) &&
        decide (k.rows ≤ 4096) && k.rows % c.cg == 0 && k.rowMap % 16 == 0 && decide (k.rowMap < 2 ^ 57) && s.inRanges p k.rowMap (2 * k.rows))

/-- A record that CACHE_SET accepts. -/
def State.cacheSetOk (s : State) (p a : Nat) : Bool :=
  let c := CacheSet.parse a (s.devRead a 64).plain
  s.inRanges p a 64 && c.sizesOk && s.inRanges p a (64 + 32 * c.n) && decide (c.seqTable < 2 ^ 57) && decide (c.buckets < 2 ^ 57) &&
    s.inRanges p c.seqTable (16 * c.slots) && s.inRanges p c.buckets (16 + 16 * s.bucketCount c) &&
    (upTo c.n).all (fun i => s.engineEntryOk p c (s.cacheEng c i)) &&
    (let es := (upTo c.n).map (fun i => (s.cacheEng c i).engine); (dedup es).length == es.length) && s.bucketsOk p c

/-- CACHE_SET: firmware takes its copy of the record (Table 14-1). -/
def execCacheSet (s : State) : Out :=
  .next (s.runCmd (· == 0x30) (fun c s =>
    let p := c.part
    let a := c.inl 0 8
    let code := firstCode [(0x641, !s.cacheSetOk p a), (0x642, decide ((s.part p).status ≠ .idle))]
    if code = 0 then (s.modPart p (fun x => { x with cset := some a, csetRec := s.cacheCopy a, held := [] })).ok c 0
    else (s.enableRefused code 0).deny c code))

/-- CACHE_GIVE: each page goes into the engine's ring; a refused one writes none. -/
def execCacheGive (s : State) : Out :=
  .next (s.runCmd (· == 0x31) (fun c s =>
    match s.cset c.part with
    | none => s.deny c 0x647
    | some cs =>
      let pages := (upTo (c.inl 2 2)).map (fun k => c.inl (4 + 8 * k) 8)
      match s.cacheIndex cs (c.inl 0 2) with
      | none => s.deny c 0x643
      | some i =>
        let e := s.cacheEng cs i
        let ring := s.ringPages e
        let used := s.usedPages cs i
        let code := firstCode [
          (0x643, pages.any (fun a => a % 262144 != 0 || !s.inChannel true e.engine a 262144 || ring.contains a || used.contains a) ||
            decide ((dedup pages).length ≠ pages.length)),
          (0x644, decide (e.freeCap < ring.length + used.length + pages.length))]
        s.answer c code (pages.foldl (fun s a => s.givePage cs i a) s)))

/-- Queues a cache request for the step boundary. -/
def State.queueCache (s : State) (c : Cmd) (leave : Bool) (slot seqId : Nat) : State :=
  s.modPart c.part (fun x => { x with cacheQ := x.cacheQ ++ [{ ring := c.ring, tag := c.tag, stamp := c.stamp, leave := leave, slot := slot, seqId := seqId }] })

def execCacheJoin (s : State) : Out :=
  .next (s.runCmd (· == 0x32) (fun c s =>
    let slot := c.inl 0 2
    match s.cset c.part with
    | none => s.deny c 0x647
    | some cs =>
      if cs.slots ≤ slot || (s.seqEntry cs slot).state ≠ 0 then s.deny c 0x645
      else if (s.part c.part).status = .idle then ((s.joinSlot cs slot (c.inl 4 4)).notHeld c.part slot).ok c 0
      else s.queueCache c false slot (c.inl 4 4)))

def execCacheLeave (s : State) : Out :=
  .next (s.runCmd (· == 0x33) (fun c s =>
    let slot := c.inl 0 2
    match s.cset c.part with
    | none => s.deny c 0x647
    | some cs =>
      if cs.slots ≤ slot || (s.seqEntry cs slot).state = 0 then s.deny c 0x646
      else if (s.part c.part).status = .idle then ((s.leaveSlot cs slot).notHeld c.part slot).ok c 0
      else s.queueCache c true slot 0))

end Sys2Proof.Machine
end

