-- ==== Sys2Proof/Machine/Power.lean ====
section
/-! DEFINITION. Power commands, thermal protection and the supply-sag inhibit (chapter 16). -/
namespace Sys2Proof.Machine

open Sys2Proof

def allDoms : List Nat := upTo 36

/-- A partition holds a domain (R488). -/
def State.holds (s : State) (p d : Nat) : Bool :=
  let e := s.lay p
  if 19 ≤ d && d ≤ 34 then bit e.fields (d - 19)
  else if 11 ≤ d && d ≤ 18 then bit e.stackSet (d - 11) || bits e.nme (32 * (d - 11) + 31) (32 * (d - 11)) != 0
  else if d = 9 then (e.board ||| e.cuu) % 2 ^ 32 != 0
  else if d = 10 then (e.board ||| e.cuu) / 2 ^ 32 != 0
  else if 6 ≤ d && d ≤ 8 then bit e.links (d - 6)
  else if d = 35 then e.as0n != 0 || e.as1n != 0
  else false

/-! ## The POWER payload (Tables 16-1 and 16-3) -/

structure PwrEntry where
  target : Nat
  st : Nat
  rate : Nat
  rsv : Bool
  deriving DecidableEq, Repr

def Cmd.pwrCount (c : Cmd) : Nat := c.inl 0 1
def Cmd.pwrForm (c : Cmd) : Nat := c.inl 1 1
def Cmd.pwrEntries (c : Cmd) : List PwrEntry := (upTo c.pwrCount).map (fun i =>
  { target := c.inl (8 + 8 * i) 1, st := c.inl (9 + 8 * i) 1, rate := c.inl (10 + 8 * i) 1, rsv := c.inl (11 + 8 * i) 5 != 0 })

/-- Expansion of the entries into domains: partition entries stand for their domains among D11 to D34 (R488). -/
def State.expand (s : State) (c : Cmd) : List PwrEntry :=
  if c.pwrForm = 0 then c.pwrEntries
  else c.pwrEntries.flatMap (fun e => (allDoms.filter (fun d => decide (11 ≤ d) && decide (d ≤ 34) && s.holds e.target d)).map
    (fun d => { e with target := d }))

/-- A state that Table 16-1 lets the host command. -/
def statePermitted (d st : Nat) : Bool :=
  if d ≤ 8 then st == 0 || st == 3
  else if d ≤ 10 then st == 0 || st == 2
  else if d ≤ 34 then true
  else st != 1

def rated (d : Nat) : Bool := decide (11 ≤ d) && decide (d ≤ 34)

/-- The checks 0x0503 to 0x0509 in order (R489). -/
def State.powerCode (s : State) (c : Cmd) : Nat :=
  let es := c.pwrEntries
  let xs := s.expand c
  let ds := xs.map (·.target)
  firstCode [
    (0x503, decide (c.pwrCount < 1) || decide (31 < c.pwrCount) || c.inlineLen != 8 + 8 * c.pwrCount || decide (1 < c.pwrForm) ||
      (c.pwrForm == 0 && !s.pwr.level) || c.inl 2 6 != 0 ||
      es.any (fun e => e.rsv || decide (e.target ≥ if c.pwrForm = 0 then 36 else 8) || decide (3 < e.st) || (decide (3 < e.rate) && e.rate != 0xFF) ||
        (decide (2 ≤ e.st) && e.rate != 0xFF)) || decide ((dedup ds).length ≠ ds.length)),
    (0x504, ds.any (fun d => decide (d ≤ 5))),
    (0x505, xs.any (fun e => !statePermitted e.target e.st || (e.rate != 0xFF && !rated e.target))),
    (0x506, xs.any (fun e => decide (19 ≤ e.target) && decide (e.target ≤ 34) && s.fieldFailed (e.target - 19) && e.st != 3)),
    (0x507, xs.any (fun e => (s.dom e.target).tripped && e.st != 3)),
    (0x508, match s.rst.renewing with
      | some (_, fields) => ds.any (fun d => decide (19 ≤ d) && decide (d ≤ 34) && bit fields (d - 19))
      | none => false),
    (0x509, ds.any (fun d => partNums.any (fun p => decide ((s.part p).status ≠ .idle) && s.holds p d)))]

def stateOf (n : Nat) : DState := match n with
  | 0 => .on | 1 => .gated | 2 => .retention | _ => .off
def DState.code : DState → Nat
  | .on => 0 | .gated => 1 | .retention => 2 | .off => 3

/-- POWER (R489, R490): a command that passes every check starts its transitions together. -/
def execPower (s : State) : Out :=
  .next (s.runCmd (· == 0x40) (fun c s =>
    let code := s.powerCode c
    if code ≠ 0 then s.deny c code
    else
      let ts := (s.expand c).map (fun e => (e.target, stateOf e.st, if e.rate = 0xFF then (s.dom e.target).rate else e.rate))
      let s := ts.foldl (fun s t => s.setDom t.1 { s.dom t.1 with busy := true }) s
      let x : PwrCmd := { cmd := c, targets := ts, tripped := false }
      { s with pwr := { s.pwr with cmd := some x } }))

/-! ## Transitions (R490 to R492) -/

/-- R96: the enable bits of every resident forme that names a changed domain. -/
def State.disableNaming (s : State) (ds : List Nat) : State :=
  partNums.foldl (fun s p => s.modPart p (fun x => { x with
    resident := x.resident.map (fun r => if r.enabled && (Image.domains r.image).any ds.contains then { r with enabled := false } else r) })) s

/-- What a change of state does to the domain's own contents and to all six ports of a link group (R393). -/
def State.domainEffect (s : State) (d : Nat) (new : DState) : State :=
  if new = .off then
    if 6 ≤ d && d ≤ 8 then (upTo 6).foldl (fun s k => let q := 6 * (d - 6) + k
      s.portDown q 6 ((s.port q).state == .active)) s
    else s.clearDomain d
  else s

/-- A domain in its new state: a port group that is On again leaves OFF and trains. -/
def State.afterOn (s : State) (d : Nat) (old new : DState) : State :=
  if 6 ≤ d && d ≤ 8 && old = .off && new = .on then
    (upTo 6).foldl (fun s k => let q := 6 * (d - 6) + k
      (s.modPort q (fun x => { x with state := .off, cause := 0 })).portStart q) s
  else s

/-- One transition, in which a domain that stays in reset leaves it as little as one that ends Off: `fail` 0 locks, 1 fails to lock, 2 fails to relock as well. The domain ends as R492 says: relocked at its
previous rate and Clock-gated, or Off. -/
def State.moveDomain (s : State) (t : Nat × DState × Nat) (fail : Nat) (tripped : Bool) : State × Bool :=
  let (d, want, rate) := t
  let x := s.dom d
  let off := tripped && rated d
  let relock := (x.st == .off && want == .on) || x.rate != rate
  let bad := decide (fail ≠ 0) && relock && !off && want != .off
  let st : DState := if off then .off else if bad then (if x.st == .off || fail = 2 then .off else .gated) else want
  let r := if off || bad then x.rate else rate
  let s := s.domainEffect d st
  let s := s.setDom d { x with st := st, rate := r, busy := false, lockFail := bad, tripped := x.tripped || off }
  let down := decide (st = .off)
  let b := 1#36 <<< d
  let s : State := if !down && s.keptDown d then s else { s with rst := { s.rst with
    released := if down then s.rst.released &&& ~~~b else s.rst.released ||| b
    locked := if down then s.rst.locked &&& ~~~b else s.rst.locked ||| b } }
  (s.afterOn d x.st st, bad)

/-- POWER_COMPLETE: `unlocked` names the domains that did not lock, twice where the relock failed too; `faults` what lane repair found in
stacks that come back from Off. -/
def execPowerComplete (unlocked : List Nat) (faults : List LaneFault) (s : State) : Out :=
  .next (match s.pwr.cmd with
    | none => s
    | some x =>
      let old := x.targets.map (fun t => (t.1, (s.dom t.1).st, (s.dom t.1).rate))
      let (s, bad) := x.targets.foldl (fun acc t =>
        let (s, b) := acc.1.moveDomain t ((unlocked.filter (· == t.1)).length) x.tripped
        (s, acc.2 || b)) (({ s with pwr := { s.pwr with cmd := none } } : State), false)
      let back := (old.filter (fun o => o.2.1 == .off && (s.dom o.1).st != .off && decide (11 ≤ o.1) && decide (o.1 ≤ 18))).map (·.1 - 11)
      let s := s.laneRepair (faults.filter (fun f => back.contains f.stack))
      let changed := (old.filter (fun o => (s.dom o.1).st != o.2.1 || (s.dom o.1).rate != o.2.2)).map (·.1)
      let s := s.disableNaming changed
      let s := if changed.isEmpty then s else s.post 0x503 none ccAgent (if bad then 0x50A else 0) (sumNat (changed.map (2 ^ ·)))
      if x.tripped then s.deny x.cmd 0x507 else if bad then s.deny x.cmd 0x50A else s.ok x.cmd 0)

/-! ## Thermal protection (R493 to R498) -/

/-- A reading in units of 0.0625 °C. -/
def reading (r : BitVec 17) : Int := toSigned 16 r.toNat
def State.temp (s : State) (i : Nat) : BitVec 17 := tget (0 : BitVec 17) s.pwr.temps i
/-- ALERT (R494). -/
def State.alertNow (s : State) : Bool :=
  (upTo 26).any (fun i => (s.temp i).getLsbD 16 && decide ((16 * s.pwr.alertAt.toNat : Int) ≤ reading (s.temp i)))

/-- Steps 2 to 4 of Table 16-5. -/
def State.thermalTrip (s : State) (sensor raw : Nat) : State :=
  let s : State := { s with pwr := { s.pwr with
    trip := true, sensor := BitVec.ofNat 5 sensor, tripAt := some s.ns, cmd := s.pwr.cmd.map (fun c => { c with tripped := true }) } }
  let s := partNums.foldl (fun s p =>
    let x := s.part p
    match x.status with
    | .running | .frozen => s.freeze p .trip x.cycle
    | .starting => (s.setPart p { x with status := .idle, cur := 0, image := [] }).complete x.swRing x.swTag x.swStamp p stAborted 0x501 0 0
    | .idle => s) s
  let s : State := { s with hif := { s.hif with switches := s.hif.switches.filter (fun w => !w.started) } }
  let s := s.endSwitches stAborted 0x501
  let s := if s.domOn 1 then s.post 0x501 none ccAgent 0x501 (sensor + raw % 2 ^ 16 * 2 ^ 16) else s
  let s : State := { s with rst := { s.rst with reason := 0x501 } }
  if s.rst.state = .ready || s.rst.state = .run then s.setPState .halted 0x501 else s.advertise

/-- A critical trip (R497): every domain but D00 and D02 is turned Off by the trip and loses its state, the ports are DOWN with cause DOMAIN
(R393); no event is posted. READY and RUN become HALTED (Table 15-6), and any other state stays (log entry 35). -/
def State.criticalTrip (s : State) (sensor : Nat) : State :=
  let t := s.cleared s.rst
  let ports := (upTo 18).foldl (fun u q => tset Port.reset u q { s.port q with state := .down, cause := 6 }) s.lnk.ports
  let doms := (allDoms.filter (fun d => d != 0 && d != 2)).foldl (fun u d => tset Dom.reset u d
    { st := .off, rate := (s.dom d).rate, busy := false, tripped := true, lockFail := (s.dom d).lockFail && (s.dom d).st == .off }) []
  { t with
    data := { s.data with core := [], sram := [], store := [], staging := [], scalar := [], coreP := [], sramP := [], storeP := [], stagingP := [],
                          scalarP := [], galley := [], galleyN := [], galleyP := [], storeTag := [] }
    sec := s.sec
    lnk := { s.lnk with ports := ports, following := false, timeState := 0, msgs := [], colls := [], grants := [], writes := [] }
    pwr := { s.pwr with trip := true, crit := true, sensor := BitVec.ofNat 5 sensor, doms := doms, cmd := none, tripAt := none }
    rst := { s.rst with
      state := if s.rst.state = .ready ∨ s.rst.state = .run then .halted else s.rst.state
      reason := 0x502, seq := none, renewing := none, fwRunning := false, topoHeld := none
      released := s.rst.released &&& 5, locked := s.rst.locked &&& 5 } }

/-- 110.0 °C and 120.0 °C in units of 0.0625 °C. -/
def tripLevel : Int := 1760
def critLevel : Int := 1920

/-- THERMAL_SAMPLE: two consecutive readings at a level trip. -/
def execThermalSample (sensor : Nat) (raw : BitVec 16) (s : State) : Out :=
  .next (if 26 ≤ sensor || s.rst.porAsserted then s else
    let v := toSigned 16 raw.toNat
    let n := if tripLevel ≤ v then tget 0 s.pwr.hot sensor + 1 else 0
    let k := if critLevel ≤ v then tget 0 s.pwr.critHot sensor + 1 else 0
    let s : State := { s with pwr := { s.pwr with
      temps := tset 0 s.pwr.temps sensor (BitVec.ofNat 17 (2 ^ 16 + raw.toNat)), hot := tset 0 s.pwr.hot sensor (min n 2),
      critHot := tset 0 s.pwr.critHot sensor (min k 2) } }
    if 2 ≤ k && !s.pwr.crit then s.criticalTrip sensor
    else if 2 ≤ n && !s.pwr.trip then s.thermalTrip sensor raw.toNat
    else s)

/-- TRIP_SHUTDOWN: D11 to D34 Off and TRIPPED, whatever a POWER command in progress is moving (R498), once every partition is FROZEN or IDLE or
100 µs after the trip. -/
def execTripShutdown (s : State) : Out :=
  .next (match s.pwr.tripAt with
    | none => s
    | some t =>
      let stopped := partNums.all (fun p => decide ((s.part p).status = .frozen) || decide ((s.part p).status = .idle))
      let s := if stopped then s else s.toNs (t + 100000)
      let ds := allDoms.filter rated
      let changed := ds.filter (fun d => (s.dom d).st != .off)
      let s := ds.foldl (fun s d => (s.domainEffect d .off).setDom d (let x := s.dom d; { x with st := .off, tripped := true, lockFail := x.lockFail && x.st == .off })) s
      let mask := BitVec.ofNat 36 (sumNat (ds.map (2 ^ ·)))
      let s := s.disableNaming changed
      { s with
        pwr := { s.pwr with tripAt := none, cmd := s.pwr.cmd.map (fun c => { c with tripped := true }) }
        rst := { s.rst with released := s.rst.released &&& ~~~mask, locked := s.rst.locked &&& ~~~mask } })

/-! ## The inhibit (R499, R500) -/

/-- Clock units of 10 µs and of 1 ms. -/
def sagTime : Nat := 10000 * unitsPerNs
def goodTime : Nat := 1000000 * unitsPerNs

/-- Since when a condition holds, given whether it holds now. -/
def heldSince (old : Option Nat) (holds : Bool) (now : Nat) : Option Nat := if !holds then none else if old.isSome then old else some now

/-- A unit's comparators at voltages in mV (R499). -/
def Rails.see (r : Rails) (main aux now : Nat) : Rails :=
  { mainLow := heldSince r.mainLow (decide (main < 11200)) now, auxLow := heldSince r.auxLow (decide (aux < 3150)) now,
    good := heldSince r.good (decide (11500 ≤ main) && decide (3200 ≤ aux)) now }

/-- When the inhibit begins, while one of its conditions holds. -/
def Rails.sagAt (r : Rails) : Option Nat := match r.mainLow, r.auxLow with
  | some a, some b => some (min a b + sagTime)
  | some a, none | none, some a => some (a + sagTime)
  | none, none => none

/-- Whose comparators answer now, and when, of the power controller (false) and the metering unit (true): which of two that may is a free value
(log entry 22). -/
def State.whichUnit (s : State) (power meter : Option Nat) : Option (Bool × Nat) × State := match power, meter with
  | some a, some b => (some (if s.draw.1 % 2 = 1 then (true, b) else (false, a)), s.draw.2)
  | some a, none => (some (false, a), s)
  | none, some b => (some (true, b), s)
  | none, none => (none, s)

/-- A value while a condition holds. -/
def onlyIf (b : Bool) (t : Option Nat) : Option Nat := if b then t else none

/-- INHIBIT_BEGIN: one of the two units, each by comparators of its own, has seen a sag of 10 µs. -/
def execInhibitBegin (s : State) : Out :=
  .next (if s.rst.porAsserted then s else
    match s.whichUnit (onlyIf (!s.pwr.inhibit) s.pwr.rails.sagAt) (onlyIf (!s.mu.inhibit) s.mu.rails.sagAt) with
    | (some (true, t), s) => let s := s.toClk t
      { s with mu := { s.mu with inhibit := true } }
    | (some (false, t), s) => let s := s.toClk t
      { s with pwr := { s.pwr with inhibit := true } }
    | (none, s) => s)

/-- The held fuse words are blown in order. -/
def State.burnHeld (s : State) : State :=
  let ws := s.pwr.heldWrites
  let s : State := { s with pwr := { s.pwr with heldWrites := [], inhibit := false } }
  ws.foldl (fun s w => ({ s with rst := { s.rst with bootDefect := s.rst.bootDefect.erase w } } : State).burnDefect w) s

end Sys2Proof.Machine
end

