-- ==== Sys2Proof/Machine/Meter.lean ====
section
/-! DEFINITION. The metering unit: samples, pulses, alarms and the ledger; the end of the inhibit (chapter 16). -/
namespace Sys2Proof.Machine

open Sys2Proof

/-- Nanoseconds of the unit's own time. -/
def State.muTime (s : State) : Nat := (s.clk - s.mu.time0) / unitsPerNs
/-- The unit runs once D02 is released. -/
def State.muOn (s : State) : Bool := s.released 2

/-- Energies accumulate in pJ (mV × mA × 1 µs); the registers show µJ, which stick at their top (R504). -/
def microJ (pj : Nat) : Nat := min (pj / 1000000) (2 ^ 64 - 1)
/-- 360 J in pJ (R505), and the limit of R512 in mW. -/
def pulseEnergy : Nat := 360000000000000
def rangeLimit : Nat := 1375000
/-- Seconds of an interval (R506). -/
def interval : Nat := 60

/-! ## Alarms (R512) -/

/-- Raises alarm bit `i` (0 LEDGER_FULL … 4 DELAYED): a change from 0 to 1 posts the meter-alarm event. -/
def State.alarm (s : State) (i : Nat) : State :=
  if s.mu.alarms.getLsbD i then s
  else
    let s : State := { s with mu := { s.mu with alarms := s.mu.alarms ||| (1#5 <<< i) } }
    if s.domOn 1 then s.post 0x502 none ccAgent (0x801 + i) (s.mu.newest.getD 0) else s
def State.unalarm (s : State) (i : Nat) : State := { s with mu := { s.mu with alarms := s.mu.alarms &&& ~~~(1#5 <<< i) } }

/-! ## Samples and pulses (R503 to R505) -/

/-- A pulse begins when 360 J have been drawn since the last one and the contact is high. -/
def State.pulseDue (s : State) : State :=
  if s.mu.pulse.isNone && s.mu.pulseFrom + pulseEnergy ≤ s.mu.eMain + s.mu.eAux then
    { s with mu := { s.mu with pulse := some s.ns, pulseFrom := s.mu.pulseFrom + pulseEnergy } }
  else s

/-- The end of 1,000 samples: mean powers in mW and the range check. -/
def State.millisecond (s : State) : State :=
  let m := s.mu
  let p := (m.msMain + m.msAux) / 1000000
  let high := decide (rangeLimit * 1000000 < m.msMain + m.msAux)
  let s : State := { s with mu := { m with
    pMain := BitVec.ofNat 32 (m.msMain / 1000000), pAux := BitVec.ofNat 32 (m.msAux / 1000000), msCount := 0, msMain := 0, msAux := 0,
    pMax := max m.pMax p, overrange := m.overrange || high } }
  if high then s.alarm 1 else s

/-- PULSE_END: the contact is released after 20 ms; a pulse that has fallen due meanwhile begins. -/
def execPulseEnd (s : State) : Out :=
  .next (match s.mu.pulse with
    | some t =>
      let s := s.toNs (t + 20000000)
      ({ s with mu := { s.mu with pulse := none } } : State).pulseDue
    | none => s)

/-! ## The ledger (R506 to R511) -/

/-- Bytes 0x000 to 0x07F of a record (Table 16-7). -/
def Ledger.head (r : Ledger) : List Byte :=
  leBytes 4 0x524D5658 ++ leBytes 2 1 ++ leBytes 2 r.flags ++ leBytes 8 r.number ++ leBytes 4 r.boot ++ leBytes 4 r.interval ++ leBytes 8 r.tStart ++
  leBytes 8 r.tEnd ++ leBytes 8 r.eMain ++ leBytes 8 r.eAux ++ leBytes 8 r.dMain ++ leBytes 8 r.dAux ++ leBytes 4 r.pMax ++ leBytes 4 0 ++
  leBytes 8 Config.meterId.toNat ++ (Config.meterSwid ++ List.replicate 32 0).take 32 ++ leBytes 8 0

/-- A committed record: signed, COMMIT last. The draw stands for the signature's nonce. -/
def Ledger.bytes (r : Ledger) (nonce : Nat) : List Byte :=
  let sig := falconSign true nonce r.head
  r.head ++ sig ++ leBytes 8 r.number ++ List.replicate 632 0

/-- The last record number (R511). -/
def lastRecord : Nat := 2 ^ 40 - 1

/-- A record of which all but COMMIT is written: its slot holds none (R507). -/
def State.writeSlot (s : State) (r : Ledger) : State :=
  { s with freeCtr := s.freeCtr + 1
           mu := { s.mu with slots := tset [] s.mu.slots (r.number % 2048) ((r.bytes s.freeCtr).take 0x580 ++ leBytes 8 (2 ^ 64 - 1) ++ List.replicate 632 0) } }

/-- Commits one record; a write that fails its verification leaves the slot uncommitted (R510). -/
def State.commitRecord (s : State) (r : Ledger) (verified : Bool) : State :=
  if verified then
    let s : State := { s with freeCtr := s.freeCtr + 1
                              mu := { s.mu with slots := tset [] s.mu.slots (r.number % 2048) (r.bytes s.freeCtr), newest := some r.number } }
    let s := s.unalarm 3
    if r.number = lastRecord then s.alarm 0 else s
  else (s.writeSlot r).alarm 3

/-- A record that was held up is written; whether the write verifies is a free value (log entry 22). -/
def State.commitHeld (s : State) (r : Ledger) : State := s.draw.2.commitRecord r (decide (s.draw.1 % 2 = 0))

/-- A record whose COMMIT was still to be written gets it, while no inhibit holds it (R500). -/
def State.finishWrite (s : State) : State := match s.mu.writing with
  | some r => if s.mu.inhibit then s else ({ s with mu := { s.mu with writing := none } } : State).commitHeld r
  | none => s

/-- METER_SAMPLE: one 1 MHz sample of both rails in mV and mA; `checkOk` is the converter check. PWR_VIN shows the same
voltages, and the comparators of the power controller and of the unit see them, each its own (R499). -/
def execMeterSample (mainMv mainMa auxMv auxMa : Nat) (checkOk : Bool) (s : State) : Out :=
  .next (if !s.muOn then s else
    let s := s.finishWrite
    let m := s.mu
    let a := mainMv * mainMa
    let b := auxMv * auxMa
    let s : State := { s with
      pwr := { s.pwr with vinMain := BitVec.ofNat 16 mainMv, vinAux := BitVec.ofNat 16 auxMv, rails := s.pwr.rails.see mainMv auxMv s.clk }
      mu := { m with rails := m.rails.see mainMv auxMv s.clk, eMain := m.eMain + a, eAux := m.eAux + b, msCount := m.msCount + 1, msMain := m.msMain + a, msAux := m.msAux + b,
                     selfCheck := m.selfCheck || !checkOk } }
    let s := if checkOk then s else s.alarm 2
    let s := if s.mu.msCount < 1000 then s else s.millisecond
    s.pulseDue)

/-- The record of the interval that closes now. -/
def State.closing (s : State) : Ledger :=
  let m := s.mu
  { flags := b2n m.first + 8 * b2n m.overrange + 16 * b2n m.selfCheck, number := m.next, boot := m.boot.toNat, interval := interval,
    tStart := m.startT, tEnd := m.startT + interval * 1000000000, eMain := microJ m.eMain, eAux := microJ m.eAux,
    dMain := microJ m.eMain - microJ m.startMain, dAux := microJ m.eAux - microJ m.startAux, pMax := m.pMax }

/-- Extends the sixteenth pending record over a further interval (R509). -/
def Ledger.merge (a b : Ledger) : Ledger :=
  { a with flags := a.flags ||| b.flags ||| 4, tEnd := b.tEnd, eMain := b.eMain, eAux := b.eAux, dMain := a.dMain + b.dMain, dAux := a.dAux + b.dAux,
           pMax := max a.pMax b.pMax }

/-- A record that falls due during an inhibit is kept, with DELAYED. -/
def State.keepRecord (s : State) (r : Ledger) : State :=
  let r := { r with flags := r.flags ||| 2 }
  let p := s.mu.pending
  let s : State := if p.length < 16 then { s with mu := { s.mu with pending := p ++ [r], next := s.mu.next + 1 } }
    else { s with mu := { s.mu with pending := p.modify 15 (fun a => a.merge r) } }
  s.alarm 4

/-- The record that falls due now: kept during an inhibit, or merged into the sixteenth one pending, which takes no number; else written, and
its COMMIT may still be to come (R500, R509). -/
def State.dueRecord (s : State) (r : Ledger) (write : LedgerWrite) : State :=
  if s.mu.inhibit && (decide (16 ≤ s.mu.pending.length) || decide (s.mu.next ≤ lastRecord)) then s.keepRecord r
  else if s.mu.inhibit || lastRecord < s.mu.next then s
  else
    let s : State := { s with mu := { s.mu with next := s.mu.next + 1 } }
    match write with
    | .verified => s.commitRecord r true
    | .failed => s.commitRecord r false
    | .started =>
      let s := s.writeSlot r
      { s with mu := { s.mu with writing := some r } }

/-- INTERVAL_CLOSE: every INTERVAL seconds of the unit's time. -/
def execIntervalClose (write : LedgerWrite) (s : State) : Out :=
  .next (if !s.muOn then s else
    let s := (s.toClk (s.mu.time0 + (s.mu.startT + interval * 1000000000) * unitsPerNs)).finishWrite
    let m := s.mu
    let r := s.closing
    let s := s.dueRecord r write
    let s := if m.overrange then s else s.unalarm 1
    let s := if m.selfCheck then s else s.unalarm 2
    { s with mu := { s.mu with startT := r.tEnd, startMain := m.eMain, startAux := m.eAux, pMax := 0, overrange := false, selfCheck := false,
                               first := false } })

/-- The record whose COMMIT the sag held up is written again, whole, then the pending ones (R500, R509, R510). -/
def State.writePending (s : State) : State :=
  let rs := s.mu.writing.toList ++ s.mu.pending
  let s : State := { s with mu := { s.mu with inhibit := false, pending := [], writing := none } }
  (rs.foldl State.commitHeld s).unalarm 4

/-- INHIBIT_END: one of the units has seen both rails good for 1 ms; the power controller's held fuse words or the meter's records are written. -/
def execInhibitEnd (s : State) : Out :=
  .next (match s.whichUnit (onlyIf s.pwr.inhibit s.pwr.rails.good) (onlyIf s.mu.inhibit s.mu.rails.good) with
    | (some (true, t), s) => (s.toClk (t + goodTime)).writePending
    | (some (false, t), s) => (s.toClk (t + goodTime)).burnHeld
    | (none, s) => s)

end Sys2Proof.Machine
end

