-- ==== Sys2Proof/Machine/Replica.lean ====
section
/-! DEFINITION. The STEP record with firmware's step-boundary duties (chapter 09), and the replica digests of chapter 08. -/
namespace Sys2Proof.Machine

open Sys2Proof

/-! ## Digests of layer shards (R239) -/

/-- A CRC-64 carried over `n` zero bytes: the concatenation property of CRCs. -/
def crcZeros : Nat → Nat → Nat
  | 0, c => c
  | n + 1, c => crcZeros n (crcByte 64 0x42F0E1EBA9EA3693 c 0)

/-- The CRC-64 of two concatenated ranges from the CRC of each and the length of the second. -/
def crcJoin (a b len : Nat) : Nat := crcZeros len a ^^^ b

/-- One kept span record: its address, the lengths of W, R, M and V, and their CRCs. -/
def spanAux (e : List Byte) : Nat := fld e 0 8
def spanLen (e : List Byte) (i : Nat) : Nat := fld e (8 + 8 * i) 8
def spanCrc (e : List Byte) (i : Nat) : Nat := fld e (40 + 8 * i) 8

/-- Inserts a span by tensor, then by the flat index of its first element, the order of the array's bytes (R223, R239). -/
def insertSpan (x : Nat × List Byte) : List (Nat × List Byte) → List (Nat × List Byte)
  | [] => [x]
  | y :: ys => if x.1 < y.1 || (x.1 = y.1 && Config.flatIndex (spanAux x.2) < Config.flatIndex (spanAux y.2)) then x :: y :: ys else y :: insertSpan x ys

/-- The digest of one layer shard from its spans: tensor by tensor, each array whole before the next. -/
def shardDigest (spans : List (Nat × List Byte)) : Nat :=
  let sorted := spans.foldl (fun l x => insertSpan x l) []
  let tensors := dedup (sorted.map (·.1))
  tensors.foldl (fun c t =>
    let own := (sorted.filter (fun x => x.1 == t)).map (·.2)
    (upTo 4).foldl (fun c i => own.foldl (fun c e => crcJoin c (spanCrc e i) (spanLen e i)) c) c) 0

/-! ## Comparison (R250 to R252) -/

/-- A differing digest: one event, at most 16 for a step, and a freeze cause at the next STEP record (R251). -/
def State.diverged (s : State) (p part step layer shard : Nat) : State :=
  let x := s.part p
  let n := tget 0 x.divergeEvents step
  let s := s.setPart p { x with diverge := true, divergeEvents := tset 0 x.divergeEvents step (min 16 (n + 1)) }
  if n < 16 then s.post 0x105 (some p) ccAgent part (step + layer * 2 ^ 32 + shard * 2 ^ 48) else s

/-- A digest of another part of the set is compared with the own one of the same step, layer and shard. -/
def State.compareDigest (s : State) (p part step layer shard value : Nat) (own : Digest) : State :=
  let s := s.modPart p (fun x => { x with digests := x.digests.map (fun d =>
    if d.step = step && d.layer = layer && d.shard = shard then { d with missing := d.missing.erase part } else d) })
  if own.value = value then s else s.diverged p part step layer shard

/-- Sends a digest to the other parts: one broadcast message of one flit. DESIGN CHOICE (log entry 15): its payload is the step, the layer,
the shard and the digest, 4, 2, 2 and 8 bytes. -/
def State.sendDigest (s : State) (d : Digest) : State :=
  let id := s.cc.msgNext.toNat
  let s := { s with cc := { s.cc with msgNext := s.cc.msgNext + 1, seen := ((s.selfPart, id, [0]) :: s.cc.seen).take 65536 } }
  let body := leBytes 4 d.step ++ leBytes 2 d.layer ++ leBytes 2 d.shard ++ leBytes 8 d.value
  ((upTo 18).filter (fun q => decide ((s.port q).state = .active))).foldl
    (fun s q => s.queueControl q (controlFlit 0xFFFF s.selfPart 2 64 id 0 1 body)) s

/-- Firmware forms one layer-shard digest, broadcasts it and compares what has already arrived. -/
def State.formDigest (s : State) (p step layer shard : Nat) (spans : List (Nat × List Byte)) (parts : List Nat) : State :=
  let d : Digest := { step := step, layer := layer, shard := shard, value := shardDigest spans, formed := s.es.time.toNat,
                      missing := parts.filter (fun q => q != s.selfPart) }
  let same (e : Digest) : Bool := e.step == step && e.layer == layer && e.shard == shard
  let came := (s.part p).early.filter (fun e => e.2.1 == step && e.2.2.1 == layer && e.2.2.2.1 == shard)
  let s := s.modPart p (fun x => { x with
    digests := x.digests.filter (fun e => !same e) ++ [d]
    early := x.early.filter (fun e => !(e.2.1 == step && e.2.2.1 == layer && e.2.2.2.1 == shard)) })
  came.foldl (fun s e => s.compareDigest p e.1 step layer shard e.2.2.2.2 d) (s.sendDigest d)

/-- The digests of a step: every layer shard of which span records were written. -/
def State.formDigests (s : State) (p step : Nat) : State :=
  match (s.part p).replica with
  | none => s
  | some (cadence, parts) =>
    let spans := ((s.part p).spans.filter (fun x => x.1 == step)).map (·.2)
    let s := s.modPart p (fun x => { x with spans := x.spans.filter (fun y => y.1 != step) })
    if cadence = 0 || step % cadence ≠ 0 then s else
    (spans.foldl (fun l x => if l.contains (x.1, x.2.1) then l else l ++ [(x.1, x.2.1)]) []).foldl (fun s k =>
      s.formDigest p step k.1 k.2 ((spans.filter (fun x => x.1 == k.1 && x.2.1 == k.2)).map (fun x => (x.2.2.1, x.2.2.2))) parts) s

/-! ## The step boundary (R287) -/

/-- Table 09-14: lengths, leaves, joins, row maps. -/
def State.cacheBoundary (s : State) (p : Nat) : State :=
  match s.cset p with
  | none => s
  | some c => ((s.commitPending c).serveCacheQueue p).placeAll p c

/-- The number of the step that ends with an agent's n-th STEP record. -/
def State.stepNumber (s : State) (p n : Nat) : Nat := ((tget (0 : W32) s.num.step p).toNat + n) % 2 ^ 32

/-- Every update engine of the forme that steps has ended its step `n`, so that the step's span records are there (R250). -/
def Part.stepOver (x : Part) (n : Nat) : Bool :=
  x.seqs.all (fun q => !(agKind q.agent == 2 || agKind q.agent == 3) || decide (n < q.steps) ||
    !((x.image.binding q.agent).any (fun b => (x.image.program b).any (fun r => r.opcode == 6))))

/-- Firmware's duties when the first agent issues its n-th STEP record: a divergence stops the partition at that issue point (R251, Table
03-13), the cache takes the step. -/
def State.stepDuties (s : State) (p cyc : Nat) : State :=
  let s := if (s.part p).diverge then s.modPart p (fun x => ({ x with diverge := false }).addCauseAt .divergence cyc) else s
  s.cacheBoundary p

/-- STEP (R153, R250, R287): the agent's step number advances; the first agent at a boundary sets off firmware's duties, which serve the
step that ends there, and the digests of a step are formed once its last update engine has ended it. -/
def execStepMark (p a : Nat) (s : State) : Out :=
  .next (s.control 6 p a (fun c s =>
    let x := s.part p
    let own := ((x.seqr a).map (·.steps)).getD 0
    let top := x.seqs.foldl (fun m q => max m q.steps) 0
    let s := s.setPart p ((x.modSeqr a (fun q => { q with steps := q.steps + 1 })).advance c (c.idx + 1) id)
    let s := if own = top then s.stepDuties p c.point else s
    if (s.part p).stepOver own then s.formDigests p (s.stepNumber p own) else s))

/-- DIGEST_RECEIVED (R251): compared with the own digest, or kept until that is formed. -/
def execDigestReceived (p part step layer shard digest : Nat) (s : State) : Out :=
  let x := s.part p
  .next (if p ≥ 8 then s else
    match x.replica with
    | none => s
    | some (cadence, parts) =>
      if cadence = 0 || !parts.contains part || part = s.selfPart then s else
      match lookupBy (fun (d : Digest) => d.step == step && d.layer == layer && d.shard == shard) x.digests with
      | some d => s.compareDigest p part step layer shard digest d
      | none => s.setPart p { x with early := x.early ++ [(part, step, layer, shard, digest)] })

/-- The interval of R252 in ns. -/
def State.digestWait (s : State) (p : Nat) : Nat := 1000 * (if s.watchdog p = 0 then 1000000 else s.watchdog p)

/-- DIGEST_MISSING (R252): the oldest digest that a part still owes falls overdue and posts its event once. -/
def execDigestMissing (p part : Nat) (s : State) : Out :=
  let x := s.part p
  .next (if p ≥ 8 then s else
    let due (d : Digest) : Bool := d.missing.contains part
    match lookupBy due x.digests with
    | some d =>
      let s := s.toTime (d.formed + s.digestWait p)
      let x := s.part p
      (s.setPart p { x with digests := modFirst due (fun e => { e with missing := e.missing.erase part }) x.digests }).post 0x106
        (some p) ccAgent part d.step
    | none => s)

/-- CC_REPLICA_WRITE: a direct write; `stores` are the host's own stores before it. -/
def execCcReplicaWrite (p : Nat) (v : W64) (stores : List HostStore) (s : State) : Out :=
  (s.hostStores stores).direct (fun s => if p ≥ 8 then s else s.writeReplica p v)

end Sys2Proof.Machine
end

