-- ==== Sys2Proof/Machine/Schedule.lean ====
section
/-! DEFINITION. The phase switch: service start and start broadcast (chapter 03, R98, R99). -/
namespace Sys2Proof.Machine

open Sys2Proof

/-- The switch that can be served now: the first one, begun, its partitions IDLE, and no broadcast
of an earlier switch under way (R98, R99). -/
def State.serviceDue (s : State) : Option Sw :=
  match s.hif.switches with
  | w :: _ => if w.begun && !w.started && w.targets.all (fun t => decide ((s.part t.1).status = .idle)) then some w else none
  | [] => none

/-- A target is resident and enabled (Table 03-15 step 2). -/
def State.targetReady (s : State) (t : Nat × Nat) : Bool :=
  match (s.part t.1).find t.2 with
  | some r => r.enabled
  | none => false

/-- A partition of a switch in service: STARTING with its forme's image at hand. -/
def State.starting (s : State) (w : Sw) (t : Nat × Nat) : State :=
  s.modPart t.1 (fun x => { x with
    status := .starting, cur := t.2, image := (x.find t.2).elim [] (·.image), swRing := w.ring, swTag := w.tag, swStamp := w.stamp })

/-- SWITCH_SERVICE_START (R99): the targets are confirmed; a failing one refuses the whole switch with 0x0217 (R98). -/
def execSwitchServiceStart (s : State) : Out :=
  .next (match s.serviceDue with
    | none => s
    | some w =>
      if w.targets.all s.targetReady then
        let s : State := { s with hif := { s.hif with switches := s.hif.switches.map (fun (v : Sw) => if v.stamp = w.stamp then { v with started := true } else v) } }
        (w.targets.foldl (fun s t => s.starting w t) s).advertise
      else w.targets.foldl (fun s t => s.complete w.ring w.tag w.stamp t.1 stRefused 0x217 0 0) (s.dropSwitch w.stamp))

/-- The sequencers of a forme at slot 0. -/
def Image.sequencers (m : Image) : List Seqr :=
  m.bindings.map (fun b => { agent := b.agent, pc := 0, loops := [], last := 0, steps := 0, waiting := false, ended := false, fill := none, late := [] })

/-- The trap policy of a partition as a mask of fields, in the view in force (Table 05-12). -/
def State.policyOf (s : State) (p : Nat) : Nat :=
  if s.num.ctrl then s.num.fieldPolicy.toNat else if s.num.trapPolicy.getLsbD p then 0xFFFF else 0

/-- The scan depth of a partition in the view in force (Table 11-9). -/
def State.scanOf (s : State) (p : Nat) : Nat := if s.se.ctrl then (tget 0 s.se.scan p).toNat else if s.se.scanBasic then 64 else 0

/-- A forme's slot 0 in one partition: counters cleared (R58, R77, R378), trap policy and scan depth latched (R162, R356), store tags
emptied (R204), the accepted replica record in force (R250), digests of steps to come forgotten. What earlier runs have left in flight stays there. A divergence found after the last STEP of the
run before still waits for the next STEP record (R251). -/
def State.startForme (s : State) (p : Nat) : State :=
  let x := s.part p
  let step := (tget (0 : W32) s.num.step p).toNat
  let (cadence, parts) := tget (0, []) s.cc.replicaRec p
  let s := s.setPart p { x with
    status := .running, frz := .no, elapsed := 0, epochSlot := 0, epochVal := 0, seqs := Image.sequencers x.image, toks := [],
    tokArr := [], tokSent := [], arrivals := [], causes := [], rvAt := none, rvEntry := 0, wdRun := none,
    wdLimit := s.watchdog p, fillNext := 0, fillCur := none, fillLate := false, slotLimited := false, ended := none,
    policy := s.policyOf p, scan := s.scanOf p, grace := none, spans := [], writes := [], wanted := [], wdAgain := false,
    replica := if cadence = 0 then none else some (cadence, parts),
    digests := x.digests.filter (fun d => decide (d.step < step)),
    early := x.early.filter (fun d => decide (d.2.1 < step)),
    divergeEvents := x.divergeEvents.filter (fun d => decide (d.1 < step)), skipSteps := [] }
  s.clearTags p

/-- START_BROADCAST (R58, R99): slot 0 of every partition of the switch in service. -/
def execStartBroadcast (s : State) : Out :=
  .next (match lookupBy (fun w => w.started) s.hif.switches with
    | none => s
    | some w => (w.targets.foldl (fun s t => s.startForme t.1) (s.dropSwitch w.stamp)).advertise)

end Sys2Proof.Machine
end

