-- ==== Sys2Proof/Machine/Security.lean ====
section
/-! DEFINITION. Attestation and IDE over the DOE mailbox, the anti-rollback counter and the near-memory self-test (chapter 17). The
signature, hash and key schemes are external standards (log entry 5). -/
namespace Sys2Proof.Machine

open Sys2Proof

def State.secReason (s : State) (code : Nat) : State := { s with sec := { s.sec with reason := BitVec.ofNat 16 code } }

/-! ## DOE (R535 to R538) -/

/-- Requests are served from BOOT on, over a link that is up (R535); without D03 there is none (R497). -/
def State.doeServed (s : State) : Bool :=
  s.hif.rate != 0 && s.domOn 3 && !(s.rst.state == .off || s.rst.state == .reset)

/-- A response: OP + 0x80, a reserved byte, STATUS, then the data. A refusal code is the last one posted. -/
def State.doeAnswer (s : State) (op status : Nat) (data : List Byte) : State :=
  let s : State := { s with sec := { s.sec with doeOut := leBytes 1 (op + 0x80) ++ leBytes 1 0 ++ leBytes 2 status ++ data } }
  if status = 0 then s else s.secReason status

/-- GET_KEYS. -/
def execGetKeys (s : State) : Out :=
  .next (if !s.doeServed then s else
    s.doeAnswer 1 0 (sized 1793 Config.identityKey ++ sized 1793 Config.meterKey ++ leBytes 8 Config.serial.toNat ++ leBytes 8 Config.meterId.toNat))

/-- The digest of the defect map, pin map, counter and SEC_ROOT_HASH (Table 17-9; log entry 5). -/
def FuseImage.digest (f : FuseImage) : List Byte :=
  shake256 32 ((upTo 2048).flatMap (fun k => leBytes 4 (tget (0 : W32) f.defect k).toNat) ++
    (upTo 512).flatMap (fun k => leBytes 2 (tget (0 : W16) f.pinmap k).toNat) ++ leBytes 4 f.arb.toNat ++ sized 32 Config.rootHash)
/-- SEC_FUSE_DIGEST: set again by a full reset alone (R540). -/
def State.fuseDigest (s : State) : List Byte := s.sec.fuses.digest
/-- FUSE_DIGEST of a report: the fuses as they are then (DESIGN CHOICE, log entry 71). -/
def State.reportFuses (s : State) : List Byte := (FuseImage.mk s.rst.defect s.rst.pinmap s.sec.arb).digest

/-- Bytes 0x000 to 0x0FF of a report. The calibration lock fuse is blown (R501). -/
def State.reportHead (s : State) (nonce : List Byte) (kem : List Byte) : List Byte :=
  leBytes 4 0x54415658 ++ leBytes 2 1 ++ leBytes 1 s.rst.state.code ++ leBytes 1 (b2n s.sec.fwValid + 2 * b2n s.sec.ideSecure + 4) ++
  leBytes 8 Config.serial.toNat ++ nonce ++ sized 32 s.sec.fwDigest ++ leBytes 4 s.sec.fwSvn.toNat ++ leBytes 4 s.sec.arb.toNat ++
  sized 32 s.reportFuses ++ sized 32 Config.rootHash ++ leBytes 8 Config.meterId.toNat ++ sized 32 Config.meterSwid ++
  sized 32 (shake256 32 (sized 1793 Config.meterKey)) ++ (if kem.isEmpty then List.replicate 32 0 else sized 32 (shake256 32 kem))

/-- GET_REPORT: signed, with a new key pair where KEM is set. -/
def execGetReport (nonce : List Byte) (flags : Nat) (s : State) : Out :=
  .next (if !s.doeServed then s
    else if nonce.length ≠ 32 then s.doeAnswer 2 0x711 []
    else if !Config.pufOk then s.doeAnswer 2 0x712 []
    else
      let kem := bit flags 0
      let n := s.sec.kemCount
      let key := if kem then sized 1568 (Config.kemEncapsKey n) else []
      let h := s.reportHead nonce key
      let sig := falconSign false s.freeCtr h
      let s : State := { s with freeCtr := s.freeCtr + 1 }
      let s : State := if kem then { s with sec := { s.sec with kemPair := some (n, nonce), kemCount := n + 1 } } else s
      s.doeAnswer 2 0 (h ++ sig ++ key))

/-- IDE_KEY: the key pair is consumed. -/
def execIdeKey (keyset : Nat) (ciphertext : List Byte) (s : State) : Out :=
  .next (if !s.doeServed then s
    else if ciphertext.length ≠ 1568 || 1 < keyset then s.doeAnswer 3 0x711 []
    else match s.sec.kemPair with
      | none => s.doeAnswer 3 0x714 []
      | some (n, nonce) =>
        let k := sized 80 (shake256 80 (Config.kemDecaps n ciphertext ++ nonce ++ leBytes 1 keyset))
        ({ s with sec := { s.sec with kemPair := none, keysets := tset [] s.sec.keysets keyset k } } : State).doeAnswer 3 0 [])

/-- IDE_GO. A request that is none of Table 17-8 comes by this row too (log entry 71), and is answered 0x0711. -/
def execIdeGo (request : DoeRequest) (s : State) : Out :=
  .next (if !s.doeServed then s else
    match request with
    | .malformed op => s.doeAnswer op 0x711 []
    | .ideGo keyset =>
      if (tget [] s.sec.keysets keyset).isEmpty || !s.hif.ideCap then s.doeAnswer 4 0x715 []
      else ({ s with sec := { s.sec with ideSecure := true, ideSet := keyset } } : State).doeAnswer 4 0 [])

/-- IDE_STOP. -/
def execIdeStop (s : State) : Out :=
  .next (if !s.doeServed then s else ({ s with sec := { s.sec with ideSecure := false } } : State).doeAnswer 5 0 [])

/-- IDE_CHECK_FAIL: the TLP is discarded; AER reports it. -/
def execIdeCheckFail (s : State) : Out :=
  .next (if s.sec.ideSecure then { s with sec := { s.sec with ideSecure := false }, hif := { s.hif with aer := 2 :: s.hif.aer } } else s)

/-! ## The anti-rollback counter (R531) -/

/-- A write of TARGET, once no advance is in progress. -/
def State.arbBegin (s : State) (target : Nat) : Nat × State :=
  if !s.sec.fwValid || s.sec.fwSvn.toNat < target then (0x705, s.secReason 0x705)
  else if target ≤ s.sec.arb.toNat then (0, s)
  else (0, { s with sec := { s.sec with advancing := some target } })

/-- A write of SEC_ARB_ADVANCE: served in READY and RUN; it waits behind an advance in progress. -/
def State.writeArb (s : State) (target : Nat) : Nat × State :=
  if s.rst.state ≠ .ready && s.rst.state ≠ .run then (0, s)
  else if s.sec.advancing.isSome then (0, { s with sec := { s.sec with arbWait := s.sec.arbWait ++ [target] } })
  else s.arbBegin target

/-- ARB_ADVANCE: a direct write. -/
def execArbAdvance (target : Nat) (s : State) : Out := s.direct (fun s => (s.writeArb (target % 128)).2)

/-- Waiting writes proceed until one starts an advance. -/
def arbNext : List Nat → State → State
  | [], s => { s with sec := { s.sec with arbWait := [] } }
  | t :: rest, s =>
    let s := (s.arbBegin t).2
    if s.sec.advancing.isSome then { s with sec := { s.sec with arbWait := rest } } else arbNext rest s

/-- ARB_ADVANCE_DONE: not under the inhibit (R499). -/
def execArbAdvanceDone (s : State) : Out :=
  .next (match s.sec.advancing with
    | some t =>
      if s.pwr.inhibit then s
      else arbNext s.sec.arbWait { s with sec := { s.sec with advancing := none, arb := BitVec.ofNat 7 t } }
    | none => s)

/-! ## The near-memory self-test (R525) -/

/-- An engine has an owner in the layout in force. -/
def State.engineOwned (s : State) (e : Nat) : Bool := partNums.any (fun p => bit (s.lay p).nme e)

/-- A write of SEC_NME_TEST. -/
def State.writeNme (s : State) (v : W32) : Nat × State :=
  let e := v.toNat % 256
  if v.getLsbD 31 then
    if s.engineOwned e || s.sec.nmeUnder.isSome then (0x731, s.secReason 0x731)
    else if !s.domOn (11 + e / 32) then (0x732, s.secReason 0x732)
    else (0, { s with sec := { s.sec with nmeEngine := BitVec.ofNat 8 e, nmeUnder := some e, nmeResult := 0 } })
  else (0, { s with sec := { s.sec with nmeEngine := BitVec.ofNat 8 e } })

/-- NME_TEST: a direct write. -/
def execNmeTest (v : W32) (s : State) : Out := s.direct (fun s => (s.writeNme v).2)

/-- NME_TEST_DONE: a failed test fences the engine. -/
def execNmeTestDone (passed : Bool) (s : State) : Out :=
  .next (match s.sec.nmeUnder with
    | some e =>
      { s with sec := { s.sec with
        nmeUnder := none, nmeResult := if passed then 1 else 2
        fenced := if passed then s.sec.fenced else s.sec.fenced ||| (1#256 <<< e) } }
    | none => s)

end Sys2Proof.Machine
end

