-- ==== Sys2Proof/Machine/SpineWeir.lean ====
section
/-! DEFINITION. Flits at the router outputs of the spine (chapter 02) and requests at the weirs (chapter 10). -/
namespace Sys2Proof.Machine

open Sys2Proof

/-! ## The spine (R38 to R47) -/

/-- Clock units of a spine cycle: 0.64 ns (R41). -/
def spinePeriod : Nat := 6048
/-- The frame of a spine cycle, and whether it is the guard cycle of its frame (R44). -/
def spineFrame (cyc : Nat) : Nat := cyc % 256 / 8
def guardCycle (cyc : Nat) : Bool := cyc % 8 == 7

/-- Whether a flit of an owner may leave in a cycle: a partition's in its own frames, the control complex's (any other number) in frame 31. -/
def State.frameAllotted (s : State) (partition cyc : Nat) : Bool :=
  !guardCycle cyc && if partition < 8 then decide (spineFrame cyc < 31) && bit (s.lay partition).frames (spineFrame cyc) else spineFrame cyc == 31

/-- The frame on an output as a resource (class 0x3); frame 31 is no resource. -/
def resFrame (router out frame : Nat) : Nat := if frame < 31 then 0x30000000 + router * 65536 + out * 4096 + frame else 0

/-- The spine breach of one flit, in its own partition whether it runs or is FROZEN, with the other party if there is one (R47, R80). -/
def State.spineBreach (s : State) (cls router out cyc partition source : Nat) (other : Option Nat) : State :=
  if partition ≥ 8 || !((s.part partition).status == .running || (s.part partition).status == .frozen) then s else
  s.breach partition (s.part partition).cycle
    { cls := cls, agentA := source, actionA := 0xFFFF, other := other.map (fun a => (a, 0xFFFF)), resource := resFrame router out (spineFrame cyc),
      token := 0xFFFF, seen := 0, detail := router + out * 2 ^ 8 + cyc % 2 ^ 32 * 2 ^ 16, poisoned := false }

/-- A router runs while the spine domain of its die is On, whether its site is enabled or not (R39). -/
def State.routerUp (s : State) (r : Nat) : Bool := s.domOn (spineDom (routerDie r))

/-- The path by which a flit came to the input at which it stands: from the router behind it, or, at the quad's input and at edge links other
than the bridge, from its unit (R52). -/
def linkBehind (r input : Nat) : Option Nat :=
  if outputOk r input then some (match nextRouter r input with
    | some e => e.1 * 16 + e.2
    | none => 4096 + r * 16 + input)
  else none

/-- Whether the flit is the next one at its input: entries are never reordered (R53). A link that holds none brings a flit that its source
launched outside the rows (log entry 51). -/
def State.atInput (s : State) (r : Nat) (f : Flit) : Bool := match linkBehind r f.input with
  | some key => match s.link key with
    | h :: _ => h.flit == { f with fault := .none }
    | [] => true
  | none => true

/-- Time passes until the flit can have reached its input (Table 02-5). -/
def State.toInput (s : State) (r : Nat) (f : Flit) : State := match linkBehind r f.input with
  | some key => match s.link key with
    | h :: _ => s.toClk (h.left + if key < 4096 then hopBest (key / 16) (key % 16) else 0)
    | [] => s
  | none => s

/-- Whether a copy of the flit that stands next at an input has left by an output: one leaves by each (R48, R53). -/
def State.copied (s : State) (r out : Nat) (f : Flit) : Bool := match linkBehind r f.input with
  | some key => (tget [] s.spine.copies key).contains out
  | none => false

/-- A copy leaves by an output; once the copies for every output of its route have left, the flit leaves its input (R48). Until then a flit
that its source has launched stands there too. -/
def State.takeFlit (s : State) (r out : Nat) (f : Flit) : State := match linkBehind r f.input with
  | some key =>
    let here := if (s.link key).isEmpty then [{ flit := { f with fault := .none }, left := s.clk }] else s.link key
    let gone := out :: tget [] s.spine.copies key
    let all := (s.routes r f).all gone.contains
    let s := s.setLink key (if all then here.drop 1 else here)
    { s with spine := { s.spine with copies := tset [] s.spine.copies key (if all then [] else gone) } }
  | none => s

/-- The flit as it will stand at the next router: its input there is the one to which the output leads. -/
def onward (f : Flit) (r out : Nat) : Flit := { f with input := ((nextRouter r out).map (·.2)).getD f.input }

/-- A sound flit goes on: behind the entries of its path, which are never lost, doubled or reordered (R40, R53). -/
def State.sendOn (s : State) (r out : Nat) (f : Flit) : State :=
  s.setLink (r * 16 + out) (s.link (r * 16 + out) ++ [{ flit := onward f r out, left := s.clk }])

/-- The flit that took an output in this cycle is not forwarded after all (R47). -/
def State.withdraw (s : State) (key : Nat) : State := s.setLink key ((s.link key).dropLast)

/-- What the check codes of a flit find is shown in SEC and changes the flit: corrected, or its payload poisoned with ORIGIN 4 (R517). -/
def State.checkFlit (s : State) (f : Flit) (where' : Nat) : State := match f.fault with
  | .none => s
  | .corrected => s.secErr 4 where'
  | .payload | .header => s.secUnc 4 where'
def checkedFlit (f : Flit) : Flit :=
  { f with fault := .none, poison := if f.fault = .payload ∧ f.poison = 0 then 4 else f.poison }

/-- SPINE_FLIT (R42, R46 to R48): a flit that stands next at its input leaves by an output of its route and goes on, or is recorded and not
forwarded, and with it the flit that asked for the output in the same cycle; a flit with an error in its header is discarded (R517). Two flits
of one partition on one output give one record.
DESIGN CHOICE (log entry 50): the spine cycle counts from clock 0 of State.reset, no reset or release of D04 or D05 restarts it, and
rounds begin at its multiples of 256. -/
def execSpineFlit (router out : Nat) (flit : Flit) (s : State) : Out :=
  .next (if !routerOk router || !outputOk router out || !s.routerUp router || !(s.routes router flit).contains out || !s.atInput router flit ||
      s.copied router out flit then s else
    let s := (s.toInput router flit).takeFlit router out flit
    let cyc := s.clk / spinePeriod
    let key := router * 16 + out
    let s := s.checkFlit flit (whereRes (resFrame router out (spineFrame cyc)))
    if flit.fault = .header then s else
    let none' : LastFlit := ⟨0, 0, 0, 0, false⟩
    let last := tget none' s.spine.last key
    let allotted := s.frameAllotted (flitOwner flit) cyc
    let met := decide (last.input ≠ 0) && last.cycle == cyc
    let s := if allotted then s else s.spineBreach 4 router out cyc (flitOwner flit) flit.source none
    let s := if !met then s
      else if last.partition = flitOwner flit then s.spineBreach 5 router out cyc last.partition last.source (some flit.source)
      else (s.spineBreach 5 router out cyc last.partition last.source (some flit.source)).spineBreach 5 router out cyc (flitOwner flit) flit.source
        (some last.source)
    let s := if met && last.sent then s.withdraw key else s
    let sound := allotted && !met
    let s := if sound then s.sendOn router out (checkedFlit flit) else s
    { s with spine := { s.spine with
      last := tset none' s.spine.last key { cycle := cyc, partition := flitOwner flit, source := flit.source, input := flit.input + 1, sent := sound } } })

/-! ## The weirs (R313 to R319) -/

/-- The minimum efficient size of a stream request on a weir's path (Table 11-3); 64 bytes for the traffic of an engine (R315). -/
def weirMin (w agent : Nat) : Nat :=
  if agKind agent ≠ 1 then 64 else match weirClass w with
  | 0 => 4096 | 1 => 8192 | 2 => 2048 | _ => 65536

/-- Tokens of a request (R315). -/
def weirTokens (w agent bytes : Nat) : Nat := cdiv (max bytes (weirMin w agent)) 64

/-- The port at whose queue a request of a sender enters a link weir: its own where a link controller sends, else the first of the group (log
entry 55). -/
def weirPort (w agent : Nat) : Nat :=
  if weirClass w ≠ 2 then 0 else
  if agKind agent = 4 && agNum agent < 18 && agNum agent / 6 = w - 0x140 then agNum agent else 6 * (w - 0x140)

/-- QMAX of the action that a stream engine runs; 0 for any other sender (R337). -/
def State.qmaxOf (s : State) (agent : Nat) : Nat :=
  if agKind agent = 1 && (s.srec (agNum agent)).state ≠ 0 then (StreamDesc.parse (s.srec (agNum agent)).desc).qmax else 0

/-- WEIR_REQUEST (R314, R319, R337): offered at its owner's queue, behind what its sender holds there. It is accepted, held back by QMAX, or
held by its sender after a WEIR_OVERRUN breach. -/
def execWeirRequest (w o bytes agent action : Nat) (s : State) : Out :=
  .next (if !weirNums.contains w || 8 < o || (o = 8 && weirClass w ≠ 2) then s else
    s.offer (queueKey w o (weirPort w agent))
      [{ tokens := weirTokens w agent bytes, agent := agent, action := action, qmax := s.qmaxOf agent, write := false, offered := false, rest := 0, id := 0 }])

end Sys2Proof.Machine
end

