-- ==== Sys2Proof/Machine/Registers.lean ====
section
/-! DEFINITION. The BAR0 register map: the registers of every block with their offsets, what each reads as, and what a write does under
its access code and the block's checks (R9 to R12 and the register tables of each chapter). -/
namespace Sys2Proof.Machine

open Sys2Proof

/-! ## The map (Tables 00-3, 05-10, 10-10, 11-8, 12-10, 13-12, 14-8, 14-10, 15-11, 15-15, 16-9, 16-11, 17-11, 18-6) -/

/-- The registers. `ring` covers HIF_CR (0), HIF_CQ (1) and HIF_EQ (2). -/
inductive Reg where
  | hifId | hifSerial | hifCtrl | hifStatus | hifRings | hifArea | hifAdvert | hifNudge | hifBar2 | ring (kind i : Nat) | msixEntry (v : Nat)
  | msixPba
  | rstcCtrl | rstcStatus | rstcStraps | rstcReleased | rstcLocked | bootAddr | bootLen | bootCtrl | topoAddr | topoCtrl | topoFail | renew
  | renewStatus | renewOpts
  | pwrCtrl | pwrStatus | pwrVin | pwrAlert | pwrDomain (d : Nat) | pwrTemp (i : Nat)
  | muCtrl | muStatus | muCal | muBoot | muMeterId | muSwid | muETotal | muEMain | muEAux | muP | muTime | muLedger | muLedgerOld | muPubkey
  | muRec (k : Nat)
  | ccCtrl | ccWatchdogAll | ccReplicaOk | ccWatchdog (p : Nat) | ccReplica (p : Nat) | ccBreachCnt (p : Nat) | ccBreach (p k : Nat)
  | esCtrl | esStatus | esSeq | esLost | esTime | esTypeMask (g : Nat) | esCntOvf | esCntClear
  | lnkCtrl | lnkSelf | lnkTorus | lnkTimeRoot | lnkTimeStatus | lnkPortCtrl (p : Nat) | lnkPortStatus (p : Nat) | lnkPeerSerial (p : Nat)
  | lnkRedFlags (p : Nat) | lnkPortCnt (p : Nat) | lnkRoute
  | memCtrl | memStatus | memBoardCfg | memHostWindow | memHostLat | memStackRepair (k : Nat) | memWeir (w o : Nat)
  | seCtrl | seScan (p : Nat) | seBusy | seHalted | seRec (n : Nat)
  | numCtrl | numTrapPolicy | numFieldPolicy | numTrapFields | numGroupSel | numGroupFlags | numSeedLo (p : Nat) | numSeedHi (p : Nat)
  | numStep (p : Nat) | numMe (i : Nat) | numVe (i : Nat) | numNme (n : Nat) | numCuu (n : Nat) | numTrap (i : Nat)
  | secCtrl | secStatus | secArb | secArbAdvance | secFwSvn | secErr | secErrWhere | secUnc | secUncWhere | secNmeTest | secNmeFenced
  | secRootHash | secFwDigest | secFuseDigest | secIdPubkey | secFault (p k : Nat)
  | fuseCtrl | fuseStatus | fuseDefect (n : Nat) | fusePinmap
  | testCtrl | testIdcode | testProd
  deriving DecidableEq, Repr

/-- A row of the map: base, bytes of one element, and two nested arrays (count and stride). -/
structure RegRow where
  base : Nat
  size : Nat
  n1 : Nat
  st1 : Nat
  n2 : Nat
  st2 : Nat
  reg : Nat → Nat → Reg

def regOne (base size : Nat) (r : Reg) : RegRow := { base := base, size := size, n1 := 1, st1 := 2 ^ 24, n2 := 1, st2 := 2 ^ 24, reg := fun _ _ => r }
def regArr (base size n st : Nat) (f : Nat → Reg) : RegRow :=
  { base := base, size := size, n1 := n, st1 := st, n2 := 1, st2 := st, reg := fun i _ => f i }
def regArr2 (base size n st m tt : Nat) (f : Nat → Nat → Reg) : RegRow :=
  { base := base, size := size, n1 := n, st1 := st, n2 := m, st2 := tt, reg := f }

def hifRows : List RegRow :=
  [regOne 0 4 .hifId, regOne 8 8 .hifSerial, regOne 0x10 4 .hifCtrl, regOne 0x14 4 .hifStatus, regOne 0x18 4 .hifRings, regOne 0x20 8 .hifArea,
   regOne 0x28 8 .hifAdvert, regOne 0x30 4 .hifNudge, regOne 0x38 8 .hifBar2, regOne 0x40 32 (.ring 2 0),
   regArr 0x1000 32 64 32 (.ring 0), regArr 0x2000 32 64 32 (.ring 1), regArr 0x80000 16 2048 16 .msixEntry, regOne 0x90000 256 .msixPba]
def rstcRows : List RegRow :=
  [regOne 0 4 .rstcCtrl, regOne 4 4 .rstcStatus, regOne 8 4 .rstcStraps, regOne 0x10 8 .rstcReleased, regOne 0x18 8 .rstcLocked,
   regOne 0x100 8 .bootAddr, regOne 0x108 4 .bootLen, regOne 0x10C 4 .bootCtrl, regOne 0x200 8 .topoAddr, regOne 0x208 4 .topoCtrl,
   regOne 0x210 4 .topoFail, regOne 0x300 4 .renew, regOne 0x308 8 .renewStatus, regOne 0x310 4 .renewOpts]
def pwrRows : List RegRow :=
  [regOne 0 4 .pwrCtrl, regOne 4 4 .pwrStatus, regOne 8 4 .pwrVin, regOne 0xC 4 .pwrAlert, regArr 0x100 4 36 4 .pwrDomain,
   regArr 0x200 4 26 4 .pwrTemp]
def muRows : List RegRow :=
  [regOne 0 4 .muCtrl, regOne 4 4 .muStatus, regOne 8 4 .muCal, regOne 0xC 4 .muBoot, regOne 0x10 8 .muMeterId, regOne 0x20 32 .muSwid,
   regOne 0x40 8 .muETotal, regOne 0x48 8 .muEMain, regOne 0x50 8 .muEAux, regOne 0x58 8 .muP, regOne 0x60 8 .muTime, regOne 0x68 8 .muLedger,
   regOne 0x70 8 .muLedgerOld, regOne 0x10000 1800 .muPubkey, regArr 0x80000 2048 256 2048 .muRec]
def ccRows : List RegRow :=
  [regOne 0 4 .ccCtrl, regOne 4 4 .ccWatchdogAll, regOne 8 4 .ccReplicaOk, regArr 0x10 4 8 4 .ccWatchdog, regArr 0x40 8 8 8 .ccReplica,
   regArr 0x100 4 8 4 .ccBreachCnt, regArr2 0x1000 64 8 1024 16 64 .ccBreach]
def esRows : List RegRow :=
  [regOne 0 4 .esCtrl, regOne 4 4 .esStatus, regOne 8 4 .esSeq, regOne 0xC 4 .esLost, regOne 0x10 8 .esTime,
   regArr 0x44 4 4 4 (fun i => .esTypeMask (i + 1)), regOne 0x100 32 .esCntOvf, regOne 0x120 4 .esCntClear]
def lnkRows : List RegRow :=
  [regOne 0 4 .lnkCtrl, regOne 4 4 .lnkSelf, regOne 8 4 .lnkTorus, regOne 0xC 4 .lnkTimeRoot, regOne 0x10 4 .lnkTimeStatus,
   regArr 0x100 4 18 4 .lnkPortCtrl, regArr 0x200 4 18 4 .lnkPortStatus, regArr 0x300 8 18 8 .lnkPeerSerial, regArr 0x400 4 18 4 .lnkRedFlags,
   regArr 0x1000 64 18 64 .lnkPortCnt, regOne 0x10000 65536 .lnkRoute]
def memRows : List RegRow :=
  [regOne 0 4 .memCtrl, regOne 4 4 .memStatus, regOne 0x10 4 .memBoardCfg, regOne 0x14 4 .memHostWindow, regOne 0x18 4 .memHostLat,
   regArr 0x100 4 8 4 .memStackRepair, regArr2 0x10000 4 0x143 64 9 4 .memWeir,
   regArr2 (0x10000 + 64 * 0x148) 4 2 64 9 4 (fun i o => .memWeir (0x148 + i) o)]
def seRows : List RegRow :=
  [regOne 0 4 .seCtrl, regArr 0x10 4 8 4 .seScan, regOne 0x100 8 .seBusy, regOne 0x108 8 .seHalted, regArr 0x1000 64 48 64 .seRec]
def numRows : List RegRow :=
  [regOne 0 4 .numCtrl, regOne 0x10 4 .numTrapPolicy, regOne 0x14 4 .numFieldPolicy, regOne 0x18 4 .numTrapFields, regOne 0x20 4 .numGroupSel,
   regOne 0x24 4 .numGroupFlags, regArr 0x100 4 8 8 .numSeedLo, regArr 0x104 4 8 8 .numSeedHi, regArr 0x200 4 8 4 .numStep,
   regArr 0x1000 4 1024 4 .numMe, regArr 0x2000 4 1024 4 .numVe, regArr 0x3000 4 256 4 .numNme, regArr 0x3400 4 64 4 .numCuu,
   regArr 0x10000 32 1024 32 .numTrap]
def secRows : List RegRow :=
  [regOne 0 4 .secCtrl, regOne 4 4 .secStatus, regOne 8 4 .secArb, regOne 0xC 4 .secArbAdvance, regOne 0x10 4 .secFwSvn, regOne 0x14 4 .secErr,
   regOne 0x18 8 .secErrWhere, regOne 0x20 4 .secUnc, regOne 0x28 8 .secUncWhere, regOne 0x30 4 .secNmeTest, regOne 0x40 32 .secNmeFenced,
   regOne 0x100 32 .secRootHash, regOne 0x120 32 .secFwDigest, regOne 0x140 32 .secFuseDigest, regOne 0x10000 1800 .secIdPubkey,
   regArr2 0x20000 48 8 1024 16 64 .secFault]
def fuseRows : List RegRow :=
  [regOne 0 4 .fuseCtrl, regOne 4 4 .fuseStatus, regArr 0x1000 4 2048 4 .fuseDefect, regOne 0x4000 1024 .fusePinmap]
def testRows : List RegRow := [regOne 0 4 .testCtrl, regOne 4 4 .testIdcode, regOne 8 4 .testProd]

/-- The rows of a block by its number in Table 00-3. -/
def blockRows : Nat → List RegRow
  | 0 => hifRows | 1 => rstcRows | 2 => pwrRows | 3 => muRows | 4 => ccRows | 5 => esRows | 6 => lnkRows | 7 => memRows | 8 => seRows
  | 9 => numRows | 10 => secRows | 11 => fuseRows | 12 => testRows | _ => []

/-- The element of a row that holds a block offset, with the byte's place in it and the element's size. -/
def RegRow.hit (r : RegRow) (off : Nat) : Option (Reg × Nat × Nat) :=
  let rel := off - r.base
  let i := rel / r.st1
  let k := rel % r.st1 / r.st2
  let sub := rel % r.st1 % r.st2
  if r.base ≤ off && i < r.n1 && k < r.n2 && sub < r.size then some (r.reg i k, sub, r.size) else none

/-- The register at a BAR0 offset. -/
def regAt (off : Nat) : Option (Reg × Nat × Nat) := (blockRows (off / 1048576)).findSome? (·.hit (off % 1048576))

/-- A legal access: 4 or 8 bytes, aligned, inside one register (R417; log entry 23). -/
def regAccess (off width : Nat) : Option (Reg × Nat) :=
  if (width = 4 || width = 8) && off % width = 0 then
    match regAt off with
    | some (r, sub, size) => if sub + width ≤ size then some (r, sub) else none
    | none => none
  else none

/-! ## Records as registers show them -/

/-- The 64 bytes of a stream record (Table 11-5). -/
def StreamRec.bytes (r : StreamRec) : List Byte :=
  leBytes 1 r.state ++ leBytes 1 r.cause ++ leBytes 1 r.partition ++ leBytes 1 (b2n r.waiting + 2 * b2n r.restarted) ++ leBytes 4 r.formeId ++
  leBytes 4 r.opId ++ leBytes 2 r.action ++ leBytes 2 r.epoch ++ leBytes 8 r.position ++ leBytes 8 r.due ++ leBytes 8 r.length ++
  leBytes 8 r.detail ++ leBytes 4 r.block ++ leBytes 2 r.blockAction ++ leBytes 2 r.scanCount ++ leBytes 8 r.scanMap

/-- The 32 bytes of a trap record (Table 05-16). -/
def Trap.bytes (t : Trap) : List Byte :=
  leBytes 4 t.status.toNat ++ leBytes 4 t.formeId ++ leBytes 4 t.opId ++ leBytes 2 t.action ++ leBytes 2 t.epoch ++ leBytes 8 t.slot ++
  leBytes 2 t.row ++ leBytes 2 t.col ++ leBytes 4 t.chunk

/-- Ring registers as one number (Table 13-15). -/
def Ring.word (r : Ring) : Nat := r.base.toNat + r.db.toNat * 2 ^ 64 + r.ctl.toNat * 2 ^ 128

def State.ringOf (s : State) (kind i : Nat) : Ring := match kind with
  | 0 => s.crOf i
  | 1 => s.cqOf i
  | _ => s.eqOf

/-- Codes of Table 12-2. -/
def PortState.code : PortState → Nat
  | .off => 0 | .laneTrain => 1 | .width => 2 | .ident => 3 | .active => 4 | .down => 5 | .loopback => 6

/-- A ledger slot holds a committed record (R507). -/
def slotCommitted (b : List Byte) : Bool := fld b 0 4 == 0x524D5658 && fld b 0x580 8 == fld b 8 8

/-- The record that MU_REC[k] shows (R510); none reads as zero. -/
def MuRegs.window (m : MuRegs) (k : Nat) : List Byte :=
  match m.newest with
  | none => []
  | some n =>
    let d := (n % 256 + 256 - k) % 256
    let b := tget [] m.slots ((n - d) % 2048)
    if d ≤ n && slotCommitted b && fld b 8 8 = n - d then b else []

/-- The oldest committed record still held. -/
def MuRegs.oldest (m : MuRegs) : Nat :=
  ((m.slots.filter (fun e => slotCommitted e.2)).map (fun e => fld e.2 8 8)).foldl min (m.newest.getD 0)

/-- A bit for every index of which a test holds. -/
def maskOf (n : Nat) (f : Nat → Bool) : Nat := sumNat (((upTo n).filter f).map (2 ^ ·))

/-- NUM_FIELD_POLICY as it reads (Table 05-12). -/
def State.fieldPolicyOf (s : State) : Nat :=
  if s.num.ctrl then s.num.fieldPolicy.toNat
  else maskOf 16 (fun f => (s.fieldOwner f).any (fun p => s.num.trapPolicy.getLsbD p))

/-- The image that defines a partition's groups: that of the forme which runs or is frozen, else of the last to have completed or been abandoned,
while another one starts too (Table 05-14). -/
def Part.groupImage (x : Part) : Image := match x.status with
  | .running | .frozen => x.image
  | .idle | .starting => x.lastImage

/-- NUM_GROUP_FLAGS (Table 05-14). -/
def State.groupFlags (s : State) : Nat :=
  let u := s.num.groupSel.toNat % 65536
  let m := (s.part (s.num.groupSel.toNat / 65536)).groupImage
  if isGroup u && bits u 14 10 = 0 && decide (unitIndex u < m.unitCount) then
    2 ^ 31 + ((m.cores u).foldl (fun (x : BitVec 4) c => x ||| tget 0 s.num.me c ||| tget 0 s.num.ve c) 0).toNat
  else 0

/-! ## Reading -/

/-- The registers of the host interface. DESIGN CHOICE (log entry 64): BAR2_OPEN of HIF_STATUS reads 1 in every part state but RUN (R399), after a
full reset too, where its Reset column gives 0. -/
def State.hifValue (s : State) : Reg → Nat
  | .hifId => 0x0A090100
  | .hifSerial => Config.serial.toNat
  | .hifCtrl => b2n s.hif.level + 2 * b2n s.hif.enable
  | .hifStatus => s.hif.reason.toNat + b2n (decide (s.rst.state ≠ .run) && s.released 3) * 2 ^ 17 + b2n s.hif.poll * 2 ^ 18 + s.hif.width * 2 ^ 24 + s.hif.rate * 2 ^ 29
  | .hifRings => s.hif.rings.toNat
  | .hifArea => s.hif.area.toNat
  | .hifAdvert => s.advertAddr
  | .hifBar2 => s.hif.bar2.toNat
  | .ring k i => (s.ringOf k i).word
  | .msixEntry v => ((tget (0 : BitVec 128) s.hif.msixTable v) ^^^ (1#128 <<< 96)).toNat
  | .msixPba => maskOf 2048 (fun v => tget false s.hif.msixPending v)
  | _ => 0

def State.rstcValue (s : State) : Reg → Nat
  | .rstcCtrl => b2n s.rst.level + 2 * b2n s.rst.relay
  | .rstcStatus => s.rst.state.code + s.rst.cause.toNat * 2 ^ 4 + s.rst.domain.toNat * 2 ^ 8 + s.rst.reason.toNat * 2 ^ 16
  | .rstcStraps => b2n s.rst.scopeStrap + 2 * b2n s.rst.bootStrap
  | .rstcReleased => s.rst.released.toNat
  | .rstcLocked => s.rst.locked.toNat
  | .bootAddr => s.rst.bootAddr.toNat
  | .bootLen => s.rst.bootLen.toNat
  | .topoAddr => s.rst.topoAddr.toNat
  | .topoFail => s.rst.topoFail.toNat
  | .renew => s.rst.renewPart.toNat
  | .renewStatus => s.rst.renewState + s.rst.renewReason.toNat * 2 ^ 16 + s.rst.renewFailed.toNat * 2 ^ 32
  | .renewOpts => b2n s.quickTest
  | _ => 0

def State.pwrValue (s : State) : Reg → Nat
  | .pwrCtrl => b2n s.pwr.level
  | .pwrStatus => s.pwr.reason.toNat + s.pwr.sensor.toNat * 2 ^ 16 + b2n s.alertNow * 2 ^ 28 + b2n s.pwr.inhibit * 2 ^ 29 +
      b2n s.pwr.crit * 2 ^ 30 + b2n s.pwr.trip * 2 ^ 31
  | .pwrVin => s.pwr.vinAux.toNat + s.pwr.vinMain.toNat * 2 ^ 16
  | .pwrAlert => s.pwr.alertAt.toNat
  | .pwrDomain d => let x := s.dom d
      x.st.code + (if rated d then x.rate * 2 ^ 4 else 0) + maskOf 8 (fun p => s.holds p d) * 2 ^ 8 + b2n x.tripped * 2 ^ 29 +
      b2n x.busy * 2 ^ 30 + b2n x.lockFail * 2 ^ 31
  | .pwrTemp i => let t := (s.temp i).toNat
      t % 2 ^ 16 + t / 2 ^ 16 * 2 ^ 31
  | _ => 0

/-- The unit's seal and key are those of a part as it leaves the factory (log entry 6). -/
def State.muValue (s : State) : Reg → Nat
  | .muStatus => s.mu.alarms.toNat + b2n s.mu.inhibit * 2 ^ 29 + 2 ^ 30 + 2 ^ 31
  | .muCal => 10000 + interval * 2 ^ 16
  | .muBoot => s.mu.boot.toNat
  | .muMeterId => Config.meterId.toNat
  | .muSwid => leNat (sized 32 Config.meterSwid)
  | .muETotal => min (microJ s.mu.eMain + microJ s.mu.eAux) (2 ^ 64 - 1)
  | .muEMain => microJ s.mu.eMain
  | .muEAux => microJ s.mu.eAux
  | .muP => s.mu.pAux.toNat + s.mu.pMain.toNat * 2 ^ 32
  | .muTime => s.muTime
  | .muLedger => s.mu.newest.elim 0 (fun n => n + 2 ^ 63)
  | .muLedgerOld => s.mu.oldest
  | .muPubkey => leNat (sized 1793 Config.meterKey)
  | .muRec k => leNat (s.mu.window k)
  | _ => 0

def State.ccValue (s : State) : Reg → Nat
  | .ccCtrl => b2n s.cc.level
  | .ccWatchdogAll => s.cc.wdAll.toNat
  | .ccReplicaOk => s.cc.replicaOk.toNat
  | .ccWatchdog p => s.watchdog p
  | .ccReplica p => (tget (0 : W64) s.cc.replica p).toNat
  | .ccBreachCnt p => (tget (0 : W32) s.cc.breachCnt p).toNat
  | .ccBreach p k => leNat ((tget [] s.cc.breach p).getD k [])
  | _ => 0

def State.esValue (s : State) : Reg → Nat
  | .esCtrl => b2n s.es.level + 2 * s.es.groupMask.toNat
  | .esStatus => s.es.buffer.length
  | .esSeq => s.es.seq.toNat
  | .esLost => s.es.lost.toNat
  | .esTime => s.es.time.toNat
  | .esTypeMask g => (s.typeMaskOf g).toNat
  | .esCntOvf => s.es.cntOvf.toNat
  | _ => 0

def State.lnkValue (s : State) : Reg → Nat
  | .lnkCtrl => b2n s.lnk.level
  | .lnkSelf => s.lnk.self.toNat + b2n s.lnk.lock * 2 ^ 31
  | .lnkTorus => s.lnk.torus.toNat
  | .lnkTimeRoot => s.lnk.root.toNat
  | .lnkTimeStatus => s.lnk.offset.toNat + s.lnk.parent * 2 ^ 16 + s.lnk.timeState * 2 ^ 30
  | .lnkPortCtrl p => (s.port p).ctrl.toNat
  | .lnkPortStatus p => let q := s.port p
      q.state.code + q.widthCode * 2 ^ 4 + sumNat ((upTo 4).map (fun i => b2n (bit q.lanes i) * 2 ^ (8 + i))) + q.cause * 2 ^ 12 +
      q.peerPort * 2 ^ 16 + b2n q.peerValid * 2 ^ 31
  | .lnkPeerSerial p => (s.port p).peerSerial.toNat
  | .lnkRedFlags p => (s.port p).redFlags.toNat
  | .lnkPortCnt p => sumNat ((upTo 7).map (fun w => (tget (0 : BitVec 48) (s.port p).cnt w).toNat * 2 ^ (64 * w)))
  | _ => 0

def State.memValue (s : State) : Reg → Nat
  | .memCtrl => b2n s.mem.ctrl
  | .memStatus => s.mem.reason.toNat
  | .memBoardCfg => s.mem.density + s.mem.ranks * 2 ^ 8 + s.mem.trained * 2 ^ 16
  | .memHostWindow => s.mem.window.toNat
  | .memHostLat => s.mem.hostLat.toNat
  | .memStackRepair k => tget 0 s.mem.repair k
  | .memWeir w o => s.weirReg w o
  | _ => 0

def State.seValue (s : State) : Reg → Nat
  | .seCtrl => b2n s.se.ctrl + b2n s.se.scanBasic * 2 ^ 8
  | .seScan p => s.scanOf p
  | .seBusy => maskOf 48 (fun e => (s.streamFlight e).isSome)
  | .seHalted => maskOf 48 (fun e => (s.srec e).state == 2)
  | .seRec n => leNat (s.srec n).bytes
  | _ => 0

def State.numValue (s : State) : Reg → Nat
  | .numCtrl => b2n s.num.ctrl
  | .numTrapPolicy => s.num.trapPolicy.toNat
  | .numFieldPolicy => s.fieldPolicyOf
  | .numTrapFields => maskOf 16 (fun f => s.num.traps.any (fun e => e.1 / 64 == f && e.2.status.getLsbD 31))
  | .numGroupSel => s.num.groupSel.toNat
  | .numGroupFlags => s.groupFlags
  | .numSeedLo p => (tget (0 : W32) s.num.seedLo p).toNat
  | .numSeedHi p => (tget (0 : W32) s.num.seedHi p).toNat
  | .numStep p => (tget (0 : W32) s.num.step p).toNat
  | .numMe i => if coreOk i then (tget (0 : BitVec 4) s.num.me i).toNat else 0
  | .numVe i => if coreOk i then (tget (0 : BitVec 4) s.num.ve i).toNat else 0
  | .numNme n => (tget (0 : BitVec 4) s.num.nme n).toNat
  | .numCuu n => (tget (0 : BitVec 4) s.num.cuu n).toNat
  | .numTrap i => if coreOk i then leNat (tget Trap.zero s.num.traps i).bytes else 0
  | _ => 0

def State.secValue (s : State) : Reg → Nat
  | .secCtrl => b2n s.sec.level
  | .secStatus => s.sec.reason.toNat + b2n Config.pufOk * 2 ^ 29 + b2n s.sec.ideSecure * 2 ^ 30 + b2n s.sec.fwValid * 2 ^ 31
  | .secArb => s.sec.arb.toNat
  | .secFwSvn => s.sec.fwSvn.toNat
  | .secErr => s.sec.err.toNat
  | .secErrWhere => s.sec.errWhere.toNat
  | .secUnc => s.sec.unc.toNat
  | .secUncWhere => s.sec.uncWhere.toNat
  | .secNmeTest => s.sec.nmeEngine.toNat + s.sec.nmeResult.toNat * 2 ^ 28 + b2n s.sec.nmeUnder.isSome * 2 ^ 30
  | .secNmeFenced => s.sec.fenced.toNat
  | .secRootHash => leNat (sized 32 Config.rootHash)
  | .secFwDigest => leNat s.sec.fwDigest
  | .secFuseDigest => leNat s.fuseDigest
  | .secIdPubkey => leNat (sized 1793 Config.identityKey)
  | .secFault p k => leNat ((tget [] s.sec.faults p).getD k [])
  | _ => 0

def State.fuseValue (s : State) : Reg → Nat
  | .fuseCtrl => b2n s.rst.fuseLevel
  | .fuseStatus => let n := mapFill s.rst.defect
      n + b2n (decide (2048 ≤ n)) * 2 ^ 30 + b2n s.pwr.inhibit * 2 ^ 31
  | .fuseDefect n => (tget (0 : W32) s.rst.defect n).toNat
  | .testCtrl => b2n s.pins.testLevel
  | .testIdcode => Config.idcode.toNat
  | .testProd => Config.prodRecord.toNat
  | _ => 0

/-- The whole value of a register other than the two byte-wise arrays; each block answers for its own registers. -/
def State.regValue (s : State) (r : Reg) : Nat :=
  s.hifValue r + s.rstcValue r + s.pwrValue r + s.muValue r + s.ccValue r + s.esValue r + s.lnkValue r + s.memValue r + s.seValue r +
  s.numValue r + s.secValue r + s.fuseValue r

/-- `n` bytes of a register from byte `sub` on. -/
def State.regSlice (s : State) (r : Reg) (sub n : Nat) : Nat :=
  match r with
  | .lnkRoute => leNat ((upTo n).map (fun k => tget (0xFF : BitVec 8) s.lnk.route (sub + k)))
  | .fusePinmap => sumNat ((upTo (n / 2)).map (fun k => (tget (0 : W16) s.rst.pinmap (sub / 2 + k)).toNat * 2 ^ (16 * k)))
  | _ => s.regValue r / 2 ^ (8 * sub) % 2 ^ (8 * n)

/-- Reading clears an RC field (R10). -/
def State.readEffect (s : State) (r : Reg) : State :=
  match r with
  | .hifStatus => { s with hif := { s.hif with reason := 0 } }
  | .pwrStatus => { s with pwr := { s.pwr with reason := 0 } }
  | .esLost => { s with es := { s.es with lost := 0 } }
  | .memStatus => { s with mem := { s.mem with reason := 0 } }
  | .secStatus => { s with sec := { s.sec with reason := 0 } }
  | _ => s

/-- A read of a BAR0 offset: the value and the state after it; none where the access is not legal. -/
def State.readReg (s : State) (off width : Nat) : Option (Nat × State) :=
  (regAccess off width).map (fun x => (s.regSlice x.1 x.2 width, s.readEffect x.1))

/-! ## Writing: the blocks with checks -/

/-- A refused write of a MEM register (Table 10-12). -/
def State.memRefuse (s : State) (code : Nat) : Nat × State := (code, { s with mem := { s.mem with reason := BitVec.ofNat 16 code } })

/-- The weir checks of 0x0608 for owner `o` with word `v`. -/
def State.badWeir (s : State) (w o v : Nat) : Bool :=
  let first := bits v 5 0
  let count := bits v 14 8
  let depth := bits v 31 16
  decide (64 < first + count) || ((count == 0) != (depth == 0)) || (!weirAccess s.lay w o && (count != 0 || depth != 0)) ||
    (upTo 9).any (fun q => q != o && rangesMeet first count (s.weirFirst w q) (s.weirCells w q))

/-- A write of MEM_WEIR (R321, R96): no effect in the basic view. -/
def State.writeWeir (s : State) (w o : Nat) (x : W32) : Nat × State :=
  let v := x &&& 0xFFFF7F3F
  let old := tget (0 : W32) s.mem.weir (weirKey w o)
  if !s.mem.ctrl then (0, s)
  else if s.defined o && v ≠ old && (s.part o).status ≠ .idle then s.memRefuse 0x215
  else if s.badWeir w o v.toNat then s.memRefuse 0x608
  else
    let s : State := { s with mem := { s.mem with weir := tset 0 s.mem.weir (weirKey w o) v } }
    (0, if o < 8 && v ≠ old then s.modPart o Part.disableAll else s)

/-- A write of MEM_CTRL: back to the basic view the cells are derived again (R321). -/
def State.writeMemLevel (s : State) (v : W32) : Nat × State :=
  if v.getLsbD 0 then (0, { s with mem := { s.mem with ctrl := true } })
  else if !s.mem.ctrl then (0, s)
  else if partNums.any (fun p => (s.part p).status ≠ .idle) then s.memRefuse 0x215
  else
    let w := deriveWeirs s.lay s.transit
    let moved := partNums.filter (s.sharesMove w)
    let s : State := { s with mem := { s.mem with ctrl := false, weir := w } }
    (0, moved.foldl (fun s p => s.modPart p Part.disableAll) s)

/-- A write of MEM_HOST_WINDOW (Table 10-14). -/
def State.writeHostWindow (s : State) (v : W32) : Nat × State :=
  let n := v.toNat % 2 ^ 20
  if 524288 < n || s.mem.pte.any (fun e => decide (s.entryAddr hostPage0 ≤ e.1) && e.2.getLsbD 63) then s.memRefuse 0x60F
  else (0, { s with mem := { s.mem with window := BitVec.ofNat 20 n } })

/-- A write of MEM_HOST_LAT. -/
def State.writeHostLat (s : State) (v : W32) : Nat × State :=
  if v.toNat < 1 || 1000000 < v.toNat then s.memRefuse 0x60F else (0, { s with mem := { s.mem with hostLat := v } })

/-- A refused HIF write other than an enable. -/
def State.hifRefuse (s : State) (code : Nat) : Nat × State := (code, { s with hif := { s.hif with reason := BitVec.ofNat 16 code } })

/-- A write of HIF_CTRL: the view, then ENABLE; a refused disable leaves both. -/
def State.writeHifCtrl (s : State) (v : Nat) (cmd : Bool) : Nat × State :=
  if bit v 1 then (s.hifLevel (bit v 0)).hifTryEnable cmd
  else
    let r := s.hifTryDisable cmd
    if r.1 = 0 then (0, r.2.hifLevel (bit v 0)) else r

/-- A write of a register that is fixed while ring service runs (0x0108). -/
def State.hifFixed (s : State) (t : State) : Nat × State := if s.hif.enable then s.hifRefuse 0x108 else (0, t)

/-- A write of ring registers, in the expert view only. -/
def State.writeRing (s : State) (kind i v : Nat) : Nat × State :=
  let r := s.ringOf kind i
  let mask : Nat := if kind = 0 then 0x803F001F else 0x8FFF001F
  let r : Ring := { r with base := BitVec.ofNat 64 v, db := BitVec.ofNat 64 (v / 2 ^ 64), ctl := BitVec.ofNat 32 (v / 2 ^ 128) &&& BitVec.ofNat 32 mask }
  if !s.hif.level then (0, s)
  else s.hifFixed (match kind with
    | 0 => s.putCr i r
    | 1 => s.putCq i r
    | _ => s.putEq r)

/-- A write of an MSI-X table entry: an unmasked vector whose bit is pending is sent. -/
def State.writeMsix (s : State) (i v : Nat) : State :=
  let x := BitVec.ofNat 128 (v % 2 ^ 97) ^^^ (1#128 <<< 96)
  let s : State := { s with hif := { s.hif with msixTable := tset 0 s.hif.msixTable i x } }
  if tget false s.hif.msixPending i && !s.msixMasked i && s.hostUp then s.sendVector i else s

/-- A write of LNK_PORT_CTRL: mode fields, ENABLE, LOOPBACK, RETRAIN. Reserved values of MIN_WIDTH and LOOPBACK leave the field (log entry 23). -/
def State.writePortCtrl (s : State) (port v : Nat) : State :=
  let s := s.modPort port (fun q =>
    let c := setBits q.ctrl.toNat 3 3 (bits v 3 3)
    { q with ctrl := BitVec.ofNat 9 (if bits v 2 1 = 3 then c else setBits c 2 1 (bits v 2 1)) })
  let s := if bit v 0 then s.portOn port else if portEnabled (s.port port) then s.portOff port else s
  let s := if bits v 5 4 = bits (s.port port).ctrl.toNat 5 4 then s else s.portLoop port (bits v 5 4)
  if bit v 8 then s.portRetrain port else s

/-- A write of `n` route entries from `sub` on, in the expert view (R380); the part may take a new parent (R391). -/
def State.writeRoute (s : State) (sub n v : Nat) : State :=
  if !s.lnk.level then s else
  ({ s with lnk := { s.lnk with
      route := (upTo n).foldl (fun t k => tset (0xFF : BitVec 8) t (sub + k) (BitVec.ofNat 8 (v / 2 ^ (8 * k)))) s.lnk.route } } : State).parentAgain

/-- A write of ES_CNT_CLEAR (R445). -/
def State.clearCounter (s : State) (i : Nat) : State :=
  if i ≤ 143 && i % 8 ≠ 7 then
    let s := s.modPort (i / 8) (fun q => { q with cnt := tset 0 q.cnt (i % 8) 0 })
    { s with es := { s.es with cntOvf := s.es.cntOvf &&& ~~~(1#144 <<< i) } }
  else s

/-- Clearing VALID of a trap STATUS clears the record (R160, Table 05-17). -/
def State.clearTrap (s : State) (core : Nat) : State := { s with num := { s.num with traps := tset Trap.zero s.num.traps core Trap.zero } }

/-- A write of NUM_SEED_LO, NUM_SEED_HI or NUM_STEP (R153). -/
def State.writeSeed (s : State) (r : Reg) (v : W32) : State :=
  let idle (p : Nat) : Bool := decide ((s.part p).status = .idle)
  match r with
  | .numSeedLo p => if idle p then { s with num := { s.num with seedLo := tset 0 s.num.seedLo p v } } else s
  | .numSeedHi p => if idle p then { s with num := { s.num with seedHi := tset 0 s.num.seedHi p v } } else s
  | .numStep p => if idle p then { s with num := { s.num with step := tset 0 s.num.step p v } } else s
  | _ => s

/-! ## Changes of view (R12; log entry 18) -/

/-- Each level bit: a change to the expert view keeps what the derived fields read. -/
def State.rstcLevel (s : State) (v : Bool) : State :=
  { s with rst := { s.rst with level := v, renewQuick := if v && !s.rst.level then false else s.rst.renewQuick } }
def State.ccLevel (s : State) (v : Bool) : State :=
  { s with cc := { s.cc with level := v, wd := if v && !s.cc.level then partNums.foldl (fun t p => tset 0 t p s.cc.wdAll) [] else s.cc.wd } }
def State.esLevel (s : State) (v : Bool) : State :=
  { s with es := { s.es with level := v,
                             typeMask := if v && !s.es.level then [1, 2, 3, 4].foldl (fun t g => tset 0 t g (s.typeMaskOf g)) [] else s.es.typeMask } }
def State.seLevel (s : State) (v : Bool) : State :=
  let derived := partNums.foldl (fun t p => tset 0 t p (BitVec.ofNat 7 (s.scanOf p))) []
  { s with se := { s.se with ctrl := v, scan := if v && !s.se.ctrl then derived else s.se.scan } }
def State.numLevel (s : State) (v : Bool) : State :=
  { s with num := { s.num with ctrl := v, fieldPolicy := if v && !s.num.ctrl then BitVec.ofNat 16 s.fieldPolicyOf else s.num.fieldPolicy } }

/-! ## Writing: every register -/

/-- Bits of a RW1C field after a write. -/
def rw1c {w : Nat} (old : BitVec w) (v : Nat) : BitVec w := old &&& ~~~(BitVec.ofNat w v)

def State.hifPut (s : State) (cmd : Bool) (v : Nat) : Reg → Nat × State
  | .hifCtrl => s.writeHifCtrl v cmd
  | .hifRings => s.hifFixed { s with hif := { s.hif with rings := BitVec.ofNat 5 v } }
  | .hifArea => s.hifFixed { s with hif := { s.hif with area := BitVec.ofNat 64 v } }
  | .hifAdvert => if s.hif.level then s.hifFixed { s with hif := { s.hif with advert := BitVec.ofNat 64 v } } else (0, s)
  | .hifNudge => (0, s.nudged)
  | .hifBar2 => if v % 2 ^ 57 % 2 ^ 36 ≠ 0 then s.hifRefuse 0x10A else (0, { s with hif := { s.hif with bar2 := BitVec.ofNat 64 (v % 2 ^ 57) } })
  | .ring k i => s.writeRing k i v
  | .msixEntry i => (0, s.writeMsix i v)
  | _ => (0, s)

def State.rstcPut (s : State) (v : Nat) : Reg → Nat × State
  | .rstcCtrl => let s := s.rstcLevel (bit v 0)
      (0, { s with rst := { s.rst with relay := bit v 1 } })
  | .bootAddr => (0, { s with rst := { s.rst with bootAddr := BitVec.ofNat 64 v } })
  | .bootLen => (0, { s with rst := { s.rst with bootLen := BitVec.ofNat 21 v } })
  | .bootCtrl => if bit v 0 then s.bootGo true else (0, s)
  | .topoAddr => (0, { s with rst := { s.rst with topoAddr := BitVec.ofNat 64 v } })
  | .topoCtrl => if bit v 0 then s.topoGo true else (0, s)
  | .renew => s.writeRenew (BitVec.ofNat 32 v)
  | .renewOpts => (0, if s.rst.level then { s with rst := { s.rst with renewQuick := bit v 0 } } else s)
  | _ => (0, s)

def State.pwrPut (s : State) (v : Nat) : Reg → Nat × State
  | .pwrCtrl => (0, { s with pwr := { s.pwr with level := bit v 0 } })
  | .pwrAlert => (0, if 60 ≤ v % 256 && v % 256 ≤ 105 then { s with pwr := { s.pwr with alertAt := BitVec.ofNat 8 v } } else s)
  | _ => (0, s)

def State.ccPut (s : State) (v : Nat) : Reg → Nat × State
  | .ccCtrl => (0, s.ccLevel (bit v 0))
  | .ccWatchdogAll => (0, { s with cc := { s.cc with wdAll := BitVec.ofNat 32 v } })
  | .ccWatchdog p => (0, if s.cc.level then { s with cc := { s.cc with wd := tset 0 s.cc.wd p (BitVec.ofNat 32 v) } } else s)
  | .ccReplica p => (0, s.writeReplica p (BitVec.ofNat 64 v))
  | _ => (0, s)

/-- `m` marks the bits of the bytes written. -/
def State.esPut (s : State) (v m : Nat) : Reg → Nat × State
  | .esCtrl => (0, ({ s with es := { s.es with groupMask := BitVec.ofNat 4 (v / 2) } } : State).esLevel (bit v 0))
  | .esTypeMask g => (0, if s.es.level then { s with es := { s.es with typeMask := tset 0 s.es.typeMask g (BitVec.ofNat 32 v &&& 0xFFFFFFFE) } } else s)
  | .esCntOvf => (0, { s with es := { s.es with cntOvf := rw1c s.es.cntOvf (v &&& m) } })
  | .esCntClear => (0, s.clearCounter (v % 256))
  | _ => (0, s)

def State.lnkPut (s : State) (v : Nat) : Reg → Nat × State
  | .lnkCtrl => (0, s.writeLnkCtrl (BitVec.ofNat 32 v))
  | .lnkSelf => (0, s.writeLnkSelf (BitVec.ofNat 32 v))
  | .lnkTorus => (0, s.writeLnkTorus (BitVec.ofNat 32 v))
  | .lnkTimeRoot => (0, s.writeTimeRoot (BitVec.ofNat 32 v))
  | .lnkPortCtrl p => (0, s.writePortCtrl p v)
  | .lnkRedFlags p => (0, s.modPort p (fun q => { q with redFlags := rw1c q.redFlags v }))
  | _ => (0, s)

def State.memPut (s : State) (v : Nat) : Reg → Nat × State
  | .memCtrl => s.writeMemLevel (BitVec.ofNat 32 v)
  | .memHostWindow => s.writeHostWindow (BitVec.ofNat 32 v)
  | .memHostLat => s.writeHostLat (BitVec.ofNat 32 v)
  | .memWeir w o => s.writeWeir w o (BitVec.ofNat 32 v)
  | _ => (0, s)

def State.sePut (s : State) (v : Nat) : Reg → Nat × State
  | .seCtrl => (0, ({ s with se := { s.se with scanBasic := bit v 8 } } : State).seLevel (bit v 0))
  | .seScan p => (0, if s.se.ctrl then { s with se := { s.se with scan := tset 0 s.se.scan p (BitVec.ofNat 7 (min 64 (v % 128))) } } else s)
  | _ => (0, s)

def State.numPut (s : State) (v m : Nat) : Reg → Nat × State
  | .numCtrl => (0, s.numLevel (bit v 0))
  | .numTrapPolicy => (0, { s with num := { s.num with trapPolicy := BitVec.ofNat 8 v } })
  | .numFieldPolicy => (0, if s.num.ctrl then { s with num := { s.num with fieldPolicy := BitVec.ofNat 16 v } } else s)
  | .numGroupSel => (0, { s with num := { s.num with groupSel := BitVec.ofNat 19 v } })
  | .numMe i => (0, { s with num := { s.num with me := tmod 0 s.num.me i (fun x => rw1c x v) } })
  | .numVe i => (0, { s with num := { s.num with ve := tmod 0 s.num.ve i (fun x => rw1c x v) } })
  | .numNme n => (0, { s with num := { s.num with nme := tmod 0 s.num.nme n (fun x => rw1c x v) } })
  | .numCuu n => (0, { s with num := { s.num with cuu := tmod 0 s.num.cuu n (fun x => rw1c x v) } })
  | .numTrap i => (0, if bit (v &&& m) 31 then s.clearTrap i else s)
  | r => (0, s.writeSeed r (BitVec.ofNat 32 v))

def State.secPut (s : State) (v : Nat) : Reg → Nat × State
  | .secCtrl => (0, { s with sec := { s.sec with level := bit v 0 } })
  | .secArbAdvance => s.writeArb (v % 128)
  | .secErr => (0, if bit v 31 then { s with sec := { s.sec with err := 0, errWhere := 0 } } else s)
  | .secUnc => (0, if bit v 31 then { s with sec := { s.sec with unc := 0, uncWhere := 0 } } else s)
  | .secNmeTest => s.writeNme (BitVec.ofNat 32 v)
  | .fuseCtrl => (0, { s with rst := { s.rst with fuseLevel := bit v 0 } })
  | .testCtrl => (0, { s with pins := { s.pins with testLevel := bit v 0 } })
  | _ => (0, s)

/-- A write of register `r` of block `b`: `v` its whole value with the written bytes in place, `m` their bits. The answer is the reason of a
refused write, 0 otherwise. -/
def State.regPut (s : State) (b : Nat) (cmd : Bool) (r : Reg) (v m : Nat) : Nat × State :=
  match b with
  | 0 => s.hifPut cmd v r
  | 1 => s.rstcPut v r
  | 2 => s.pwrPut v r
  | 4 => s.ccPut v r
  | 5 => s.esPut v m r
  | 6 => s.lnkPut v r
  | 7 => s.memPut v r
  | 8 => s.sePut v r
  | 9 => s.numPut v m r
  | 3 => (0, s)
  | _ => s.secPut v r

/-- The value of a wide register after some of its bytes are written. -/
def mergeBytes (old sub n v : Nat) : Nat :=
  old / 2 ^ (8 * (sub + n)) * 2 ^ (8 * (sub + n)) + v % 2 ^ (8 * n) * 2 ^ (8 * sub) + old % 2 ^ (8 * sub)

/-- A write of a BAR0 offset: the reason of a refusal, 0 for none, and the state; none where the access is not legal. -/
def State.writeReg (s : State) (off width v : Nat) (cmd : Bool) : Option (Nat × State) :=
  (regAccess off width).map (fun x => match x.1 with
    | .lnkRoute => (0, s.writeRoute x.2 width v)
    | r => s.regPut (off / 1048576) cmd r (mergeBytes (s.regValue r) x.2 width v) ((2 ^ (8 * width) - 1) * 2 ^ (8 * x.2)))

/-! ## Rows -/

/-- REGISTER_WRITE: a direct write; an access that is not legal has no effect. -/
def execRegisterWrite (offset width : Nat) (v : W64) (s : State) : Out :=
  s.direct (fun s => match s.writeReg offset width v.toNat false with
    | none => s
    | some (_, s) => s)

/-- A direct read of a 4-byte register: its value is the request's completion. -/
def State.directRead (s : State) (off : Nat) : State := match s.readReg off 4 with
  | none => s.answered none
  | some (v, s) => s.answered (some (leBytes 4 v))

def hifStatusAt : Nat := 0x14
def pwrStatusAt : Nat := 0x200004
def memStatusAt : Nat := 0x700004
def secStatusAt : Nat := 0xA00004
def esLostAt : Nat := 0x50000C

/-- MEM_STATUS_READ. -/
def execMemStatusRead (s : State) : Out := s.direct (·.directRead memStatusAt)
/-- HIF_STATUS_READ. -/
def execHifStatusRead (s : State) : Out := s.direct (·.directRead hifStatusAt)
/-- PWR_STATUS_READ. -/
def execPwrStatusRead (s : State) : Out := s.direct (·.directRead pwrStatusAt)
/-- SEC_STATUS_READ. -/
def execSecStatusRead (s : State) : Out := s.direct (·.directRead secStatusAt)
/-- ES_LOST_READ. -/
def execEsLostRead (s : State) : Out := s.direct (·.directRead esLostAt)

/-- TRAP_CLEAR. -/
def execTrapClear (core : Nat) (s : State) : Out := s.direct (·.clearTrap core)

/-- NUM_STEP_WRITE: `offset` is that of a seed or step register in the NUM block. -/
def execNumStepWrite (offset : Nat) (v : W32) (s : State) : Out :=
  s.direct (fun s => match regAccess (0x900000 + offset % 1048576) 4 with
    | some (r, _) => s.writeSeed r v
    | none => s)

/-- MEM_WEIR_WRITE. -/
def execMemWeirWrite (w o : Nat) (v : W32) (s : State) : Out :=
  s.direct (fun s => if weirOk w && o < 9 then (s.writeWeir w o v).2 else s)
/-- MEM_LEVEL_WRITE. -/
def execMemLevelWrite (v : W32) (s : State) : Out := s.direct (fun s => (s.writeMemLevel v).2)
/-- MEM_HOST_WINDOW_WRITE. -/
def execMemHostWindowWrite (v : W32) (s : State) : Out := s.direct (fun s => (s.writeHostWindow v).2)
/-- CNT_CLEAR. -/
def execCntClear (index : Nat) (s : State) : Out := s.direct (·.clearCounter index)
/-- LNK_CTRL_WRITE. -/
def execLnkCtrlWrite (v : W32) (s : State) : Out := s.direct (·.writeLnkCtrl v)
/-- LNK_SELF_WRITE. -/
def execLnkSelfWrite (v : W32) (s : State) : Out := s.direct (·.writeLnkSelf v)
/-- LNK_TORUS_WRITE. -/
def execLnkTorusWrite (v : W32) (s : State) : Out := s.direct (·.writeLnkTorus v)
/-- EVENTS_LOST (R441): once there is room again, the record of the loss is stamped and entered. -/
def execEventsLost (s : State) : Out := .next s.enterLost

end Sys2Proof.Machine
end

