-- ==== Sys2Proof/Machine/Pins.lean ====
section
/-! DEFINITION. The contacts of the package with the pin map, the sideband targets and the JTAG instructions (chapters 15 and 18). -/
namespace Sys2Proof.Machine

open Sys2Proof

/-! ## Contacts (R460, R461, R541 to R543) -/

/-- What a contact does: STATE of a pin-map entry, an input, an analog or supply contact, the signals of the block that has claimed it, or an AC
test signal of IEEE 1149.6, pulses or trains. -/
inductive Pin where
  | hiZ | pullUp | pullDown | drive (v : Bool) | input (pull : Option Bool) | analog | owner | ac (v train : Bool)
  deriving DecidableEq, Repr

/-- The signal contacts of Table 18-1: those of the pin map by their numbers, and the others by their groups. -/
inductive Contact where
  | config (n : Nat) | refclk | calibration | sideband (sda : Bool) | resetN | strap | thermAlert | thermTrip | meterI3c | meterPulse | meterAlarm
  | tdo | jtagIn | trst
  deriving DecidableEq, Repr

/-- STATE of a pin-map entry (Table 15-4). -/
def pinOf (state : Nat) : Pin := match state with
  | 1 => .pullUp
  | 2 => .pullDown
  | 3 => .drive false
  | 4 => .drive true
  | _ => .hiZ

/-- The pin map: its words up to the first zero. -/
def State.pinWords (s : State) : List Nat := ((upTo 512).map (fun k => (tget (0 : W16) s.rst.pinmap k).toNat)).takeWhile (· != 0)

/-- The state that the map gives a contact: that of the first entry that names it, hi-Z without one (R461). -/
def State.mapPin (s : State) (n : Nat) : Pin := ((s.pinWords.find? (fun w => bits w 12 0 == n)).map (fun w => pinOf (bits w 15 13))).getD .hiZ

/-- Whether a configurable contact's owner has claimed it (R460): the host interface at the release of D03, a link group at that of its domain,
firmware for the rest. DESIGN CHOICE (log entry 66): firmware claims the LPDDR6 contacts when it trains board memory, PART_ALERT_N when it starts. -/
def State.claimed (s : State) (n : Nat) : Bool :=
  if n ≤ 64 then s.released 3
  else if n ≤ 352 then s.released (portDom ((n - 65) / 16))
  else if n ≤ 3184 then s.rst.fwRunning && s.mem.trained != 0
  else s.rst.fwRunning

/-- Contact 3,185, PART_ALERT_N: low in HALTED and LOST, whether firmware runs or not, but for its map state while D01 is Off after a critical
trip (R543). -/
def State.partAlert (s : State) : Pin :=
  if (s.dom 1).st = .off then s.mapPin 3185
  else if s.rst.state = .halted ∨ s.rst.state = .lost then .drive false
  else if s.claimed 3185 then .hiZ else s.mapPin 3185

/-- A configurable contact. -/
def State.configPin (s : State) (n : Nat) : Pin :=
  if n = 0 || 3185 < n then .hiZ
  else if n = 3185 then s.partAlert
  else if s.claimed n then .owner else s.mapPin n

/-- An open-drain output: low, or hi-Z. -/
def openDrain (low : Bool) : Pin := if low then .drive false else .hiZ

/-! ### The boundary register (R552, R553)

Its cells in the order of Table 18-1, the configurable contacts by their numbers first (log entry 40). -/

def cellSda (sda : Bool) : Nat := 3185 + b2n sda
def cellResetN : Nat := 3187
def cellTestEn : Nat := 3190
def cellAlert : Nat := 3191
def cellTrip : Nat := 3192
/-- Cells of the register. -/
def cells : Nat := 3193
/-- The lane contacts, PCI Express and Brodund, and those of them that receive (log entry 40). -/
def isLane (n : Nat) : Bool := decide (1 ≤ n) && decide (n ≤ 352)
def receives (n : Nat) : Bool := isLane n && if n ≤ 64 then decide (32 < n) else decide (8 ≤ (n - 65) % 16)

/-- A cell of the update stage. -/
def State.cell (s : State) (k : Nat) : Bool := s.pins.boundary.testBit k

/-- A configurable contact while an instruction drives the boundary register. -/
def State.scanPin (s : State) (n : Nat) : Pin :=
  if n = 0 || 3185 < n then .hiZ
  else if receives n then .input none
  else if isLane n && (s.pins.ir == 3 || s.pins.ir == 4) then .ac (s.cell (n - 1)) (s.pins.ir == 4)
  else .drive (s.cell (n - 1))

/-- A contact of the boundary register: its own state, that of its cell, or hi-Z under HIGHZ. -/
def State.scanned (s : State) (own cell : Pin) : Pin := if s.pins.hiz then .hiZ else if s.pins.driven then cell else own

/-- What every contact does (Table 18-1, R494, R505, R512, R543, R553). -/
def State.contact (s : State) (c : Contact) : Pin := match c with
  | .config n => s.scanned (s.configPin n) (s.scanPin n)
  | .refclk | .resetN => .input none
  | .calibration => .analog
  | .sideband sda => s.scanned .hiZ (openDrain (!s.cell (cellSda sda)))
  | .meterI3c | .tdo => .hiZ
  | .strap | .trst => .input (some false)
  | .jtagIn => .input (some true)
  | .thermAlert => s.scanned (openDrain s.alertNow) (openDrain (!s.cell cellAlert))
  | .thermTrip => s.scanned (openDrain s.pwr.trip) (openDrain (!s.cell cellTrip))
  | .meterPulse => openDrain s.mu.pulse.isSome
  | .meterAlarm => openDrain (s.mu.alarms != 0)

/-! ## The sideband (R550, R502) -/

/-- A byte of a block as the sideband shows it; a read there has no side effect (log entry 65). -/
def State.regByte (s : State) (off : Nat) : Byte := match regAt off with
  | some (r, sub, _) => BitVec.ofNat 8 (s.regSlice r (sub / 4 * 4) 4 / 2 ^ (8 * (sub % 4)))
  | none => 0

/-- The BMC target: RSTC, PWR and FUSE at their BAR0 offsets. -/
def State.bmcByte (s : State) (off : Nat) : Byte := if ([1, 2, 11] : List Nat).contains (off / 1048576) then s.regByte off else 0

/-- The meter's target: the map of the MU window, and ledger slot s at 0x400000 + 2,048 * s. -/
def State.meterByte (s : State) (off : Nat) : Byte :=
  if off < 1048576 then s.regByte (3 * 1048576 + off)
  else if 0x400000 ≤ off && off < 0x800000 then ((tget [] s.mu.slots ((off - 0x400000) / 2048))[off % 2048]?).getD 0
  else 0

/-- I3C_OFFSET_SELECT: CCC 0xE0 selects the 24-bit read offset of the BMC or meter target, and a private read of up to 256 bytes returns bytes
from it, with which it advances. -/
def execI3cOffsetSelect (meter : Bool) (read : I3cRead) (s : State) : Out :=
  let n := min read.count 256
  let next := BitVec.ofNat 24 (read.offset + n)
  let place (k : Nat) : Nat := (read.offset + k) % 2 ^ 24
  .next (if meter then { s with pins := { s.pins with mtrOffset := next, i3cOut := (upTo n).map (fun k => s.meterByte (place k)) } }
    else { s with pins := { s.pins with bmcOffset := next, i3cOut := (upTo n).map (fun k => s.bmcByte (place k)) } })

/-! ## JTAG (R551 to R553) -/

/-- The level of a contact as far as the part decides it: the boundary register captures it (R552). What the board alone drives is open. -/
def Pin.level : Pin → Option Bool
  | .drive v => some v
  | _ => none
def State.cellLevel (s : State) (k : Nat) : Option Bool :=
  if k < 3185 then (s.contact (.config (k + 1))).level
  else if k = cellResetN then some (!s.rst.resetLow)
  else if k = cellTestEn then some s.rst.testEn
  else if k = cellAlert then (s.contact .thermAlert).level
  else if k = cellTrip then (s.contact .thermTrip).level
  else none

/-- The data register that an instruction selects captures a value, which then leaves on TDO. -/
def State.shiftOut (s : State) (v : Nat) : State := { s with pins := { s.pins with shifted := v } }
/-- The boundary register captures its contacts; those that only the board decides are a free value (log entry 40). -/
def State.captureCells (s : State) : State :=
  s.draw.2.shiftOut (sumNat ((upTo cells).map (fun k => b2n ((s.cellLevel k).getD (s.draw.1.testBit k)) * 2 ^ k)))
/-- What the board shifts in on TDI becomes the update stage: a free value, for the command does not carry it. -/
def State.preloadCells (s : State) : State := { s.draw.2 with pins := { s.pins with boundary := s.draw.1 % 2 ^ cells } }

/-- An instruction enters the instruction register. A driving one drives only while RESET_N is recognised low; else it acts as BYPASS, whose
register captures 0 (R553). -/
def State.jtag (s : State) (code : Nat) : State := ({ s with pins := { s.pins with ir := BitVec.ofNat 8 code } } : State).scanPins
/-- EXTEST and its two kin: the boundary register is selected while they drive. -/
def State.extest (s : State) (code : Nat) : State :=
  let s := s.jtag code
  if s.pins.driven then s.captureCells else s.shiftOut 0

/-- EXTEST. -/
def execExtest (s : State) : Out := .next (s.extest 0x00)
/-- SAMPLE/PRELOAD: the contacts are sampled, and the register takes what is shifted in. -/
def execSamplePreload (s : State) : Out := .next (s.jtag 0x01).captureCells.preloadCells
/-- IDCODE: the identification leaves on TDO. -/
def execIdcode (s : State) : Out := .next ((s.jtag 0x02).shiftOut Config.idcode.toNat)
/-- EXTEST_PULSE. -/
def execExtestPulse (s : State) : Out := .next (s.extest 0x03)
/-- EXTEST_TRAIN. -/
def execExtestTrain (s : State) : Out := .next (s.extest 0x04)
/-- CLAMP. -/
def execClamp (s : State) : Out := .next ((s.jtag 0x05).shiftOut 0)
/-- HIGHZ. -/
def execHighz (s : State) : Out := .next ((s.jtag 0x06).shiftOut 0)
/-- BYPASS. -/
def execBypass (s : State) : Out := .next ((s.jtag 0xFF).shiftOut 0)
/-- TAP_RESET selects IDCODE (R552). -/
def execTapReset (s : State) : Out := .next ((s.jtag 0x02).shiftOut Config.idcode.toNat)

end Sys2Proof.Machine
end

