-- ==== Sys2Proof/Machine/Polling.lean ====
section
/-! DEFINITION. The commands that act at their stamp, and polling, which fetches and stamps the commands (chapter 13). -/
namespace Sys2Proof.Machine

open Sys2Proof

/-! ## Commands that act at their stamp (R417) -/

/-- SERVICE: into RUN, or out of it; in READY a leave finds nothing to leave. -/
def State.serviced (s : State) (enter : Bool) : State :=
  if enter then s.setPState .run 0 else if s.rst.state = .run then s.setPState .ready 0 else s

/-- What a SERVICE, REG_READ or REG_WRITE does, with the reason of a refusal, 0 for none, and VALUE. HIF_NUDGE is no offset of the two (0x011B). -/
def State.act (s : State) (c : Cmd) : (Nat × Nat) × State :=
  if s.cmdCode c ≠ 0 then ((s.cmdCode c, 0), s)
  else if c.op = 2 then
    let enter := c.opnd 0 1 == 1
    if s.serviceCode enter = 0 then ((0, 0), s.serviced enter) else ((s.serviceCode enter, 0), s)
  else if c.opnd 0 4 = 0x30 then ((0x11B, 0), s)
  else if c.op = 3 then match s.readReg (c.opnd 0 4) (c.opnd 4 1) with
    | none => ((0x11B, 0), s)
    | some (v, t) => ((0, v), t)
  else match s.writeReg (c.opnd 0 4) (c.opnd 4 1) (c.opnd 8 8) true with
    | none => ((0x11B, 0), s)
    | some (r, t) => ((r, 0), t)

/-- The completion of such a command. -/
def State.report (s : State) (c : Cmd) (a : Nat × Nat) : State := if a.1 = 0 then s.ok c a.2 else s.deny c a.1

/-- The front command completes with what it did at its stamp, or acts now. -/
def State.runActing (s : State) (op : Nat) : State := match s.front (· == op) with
  | none => s
  | some c => match c.acted with
    | some a => (s.begun c).report c a
    | none => let r := (s.begun c).act c; r.2.report c r.1

/-- SERVICE with MODE 1. -/
def execServiceEnter (s : State) : Out := .next (if s.frontMode 2 (· == 1) then s.runActing 2 else s)
/-- SERVICE with MODE 0. -/
def execServiceLeave (s : State) : Out := .next (if s.frontMode 2 (· != 1) then s.runActing 2 else s)
/-- REG_READ: the value of a register. -/
def execRegRead (s : State) : Out := .next (s.runActing 3)
/-- REG_WRITE: a register written, or the block's own reason. -/
def execRegWrite (s : State) : Out := .next (s.runActing 4)

/-! ## Polling (R403 to R407, R412, R413) -/

/-- States in which commands are fetched (R415). -/
def fetchState (st : PState) : Bool := st == .ready || st == .run || st == .halted

/-- The bytes of the command at a ring's consumer index: 1 + CONT entries, which may wrap. -/
def State.commandBytes (s : State) (r : Ring) (cont : Nat) : List Byte :=
  (upTo (cont + 1)).flatMap (fun k => s.hostRead (r.base.toNat + (r.idx.toNat + k) % 2 ^ 32 % 2 ^ r.log2 * 64) 64)

/-- A command that acts at its stamp keeps what it did for its completion. -/
def State.actStamped (s : State) (c : Cmd) : State :=
  let r := s.act c
  { r.2 with hif := { r.2.hif with queue := r.2.hif.queue.map (fun q => if q.stamp = c.stamp then { q with acted := some r.1 } else q) } }

/-- A fetched command is stamped; the stamp of an ABORT decides its target, that of a SWITCH tests it, a SERVICE or register access acts there (R98,
R407, R417, R421). -/
def State.stampCmd (s : State) (ring : Nat) (bytes : List Byte) : State :=
  let (q, s) := s.stamp
  let c : Cmd := { ring := ring, tag := fld bytes 4 4, stamp := q, time := s.es.time.toNat, bytes := bytes, pre := 0, acted := none }
  let old : Past := { ring := ring, tag := c.tag, stamp := q, opcode := c.op, left := c.records, st := .queued }
  let c := { c with pre := if c.op = 0x14 && c.valid then s.switchTest c else 0 }
  let now := s.actsNow c
  let s : State := { s with hif := { s.hif with queue := s.hif.queue ++ [c], history := s.hif.history ++ [old] } }
  if c.op = 1 then s.abortDecide c
  else if now then s.actStamped c
  else if c.op = 0x14 && c.valid && c.pre = 0 then
    let w : Sw := { ring := ring, tag := c.tag, stamp := q, targets := c.entries, begun := false, started := false }
    { s with hif := { s.hif with switches := s.hif.switches ++ [w] } }
  else s

/-- Fetches whole commands below PI (R406). `left` counts entries. -/
def fetchRing (i : Nat) : Nat → Nat → State → State
  | 0, _, s => s
  | fuel + 1, left, s =>
    let r := s.crOf i
    let cont := leNat (s.hostRead (r.base.toNat + r.idx.toNat % 2 ^ r.log2 * 64 + 1) 1)
    if left < cont + 1 then s
    else
      let b := s.commandBytes r cont
      fetchRing i fuel (left - (cont + 1)) ((s.putCr i { r with idx := r.idx + BitVec.ofNat 32 (cont + 1) }).stampCmd i b)

/-- A completion record bound for a command ring's completion ring still waits (R409). -/
def State.complWaits (s : State) (r : Ring) : Bool := s.hif.compl.any (fun c => (s.crOf c.ring).cqOf == r.cqOf)

/-- One command ring in a polling pass: restart, stop, or fetch (R403, R404, R406). The flag tells a changed doorbell record. -/
def pollRing (acc : State × Bool) (i : Nat) : State × Bool :=
  let s := acc.1
  let r := s.crOf i
  if !r.valid then acc else
  let d := s.doorbell r
  let changed := acc.2 || d != r.lastDb
  let restart := dbGen d != r.gen
  let r := if restart then { r with gen := dbGen d, idx := BitVec.ofNat 32 (dbIndex d), stopped := false, lastDb := d } else { r with lastDb := d }
  let s := s.putCr i r
  let s := if restart then s.writeDb r 0 else s
  if r.stopped then (s, changed) else
  let n := (dbIndex d + 2 ^ 32 - r.idx.toNat) % 2 ^ 32
  if 2 ^ r.log2 < n then
    let reason := if 2 ^ 31 ≤ n then 0x121 else 0x120
    let r := { r with stopped := true }
    (((s.putCr i r).writeDb r reason).post 0x401 none ccAgent reason i, changed)
  else if !fetchState s.rst.state || s.complWaits r || n = 0 then (s, changed)
  else
    let s := fetchRing i n n s
    (s.writeDb (s.crOf i) 0, changed)

/-- The host's consumer index of a completion ring or of the event ring. -/
def pollCq (acc : State × Bool) (j : Nat) : State × Bool :=
  let s := acc.1
  let r := s.cqOf j
  if !r.valid then acc else
  let d := dbIndex (s.doorbell r)
  (s.putCq j { r with lastDb := d }, acc.2 || d != r.lastDb)

/-- One pass over every doorbell record, with whether one had changed. -/
def State.scanPass (s : State) : State × Bool :=
  let acc := ringNums.foldl pollCq (s, false)
  let r := acc.1.eqOf
  let d := dbIndex (acc.1.doorbell r)
  let acc := (acc.1.putEq { r with lastDb := d }, acc.2 || d != r.lastDb)
  let acc := ringNums.foldl pollRing (acc.1.flush, acc.2)
  (acc.1.flush, acc.2)

/-- POLL_PASS (R412): every doorbell record is read; `stores` are the host's own writes up to the pass. -/
def execPollPass (stores : List HostStore) (s : State) : Out :=
  let s := s.hostStores stores
  .next (if !s.polling then s else
    let (s, changed) := s.scanPass
    s.setQuiet (if changed || !s.quietNow then 0 else s.hif.quiet + 1))

/-- Quiet passes before the part sleeps (Table 13-8). -/
def quietPasses : Nat := 1000

/-- POLL_SLEEP (R413): POLL 0 is advertised, and one final pass decides whether polling stops. -/
def execPollSleep (stores : List HostStore) (s : State) : Out :=
  .next (if !s.polling || s.hif.quiet < quietPasses then s.hostStores stores else
    let s := ((s.setPoll false).flush).hostStores stores
    let (s, changed) := s.scanPass
    if changed then (s.setPoll true).flush else s)

end Sys2Proof.Machine
end

