-- ==== Sys2Proof/Machine/Dispatch.lean ====
section
/-! DEFINITION. The dispatcher: one arm per row of the opcode table. -/
namespace Sys2Proof.Machine

open Sys2Proof

def exec (i : Instr) (s : State) : Host.Outcome State Fault Refusal :=
  match i with
  | .nop => Sys2Proof.Machine.execNop s
  | .abort => Sys2Proof.Machine.execAbort s
  | .serviceEnter => Sys2Proof.Machine.execServiceEnter s
  | .serviceLeave => Sys2Proof.Machine.execServiceLeave s
  | .regRead => Sys2Proof.Machine.execRegRead s
  | .regWrite => Sys2Proof.Machine.execRegWrite s
  | .layout fetched => Sys2Proof.Machine.execLayout fetched s
  | .load fetched => Sys2Proof.Machine.execLoad fetched s
  | .unload => Sys2Proof.Machine.execUnload s
  | .enable => Sys2Proof.Machine.execEnable s
  | .switch => Sys2Proof.Machine.execSwitch s
  | .resumeContinue => Sys2Proof.Machine.execResumeContinue s
  | .resumeAbandon => Sys2Proof.Machine.execResumeAbandon s
  | .alloc => Sys2Proof.Machine.execAlloc s
  | .release => Sys2Proof.Machine.execRelease s
  | .map => Sys2Proof.Machine.execMap s
  | .unmap => Sys2Proof.Machine.execUnmap s
  | .copy => Sys2Proof.Machine.execCopy s
  | .copyComplete stamp => Sys2Proof.Machine.execCopyComplete stamp s
  | .exportCmd => Sys2Proof.Machine.execExportCmd s
  | .exportComplete stamp => Sys2Proof.Machine.execExportComplete stamp s
  | .cacheSet => Sys2Proof.Machine.execCacheSet s
  | .cacheGive => Sys2Proof.Machine.execCacheGive s
  | .cacheJoin => Sys2Proof.Machine.execCacheJoin s
  | .cacheLeave => Sys2Proof.Machine.execCacheLeave s
  | .power => Sys2Proof.Machine.execPower s
  | .powerComplete unlocked faults => Sys2Proof.Machine.execPowerComplete unlocked faults s
  | .switchServiceStart => Sys2Proof.Machine.execSwitchServiceStart s
  | .startBroadcast => Sys2Proof.Machine.execStartBroadcast s
  | .formeNop p a => Sys2Proof.Machine.execFormeNop p a s
  | .loop p a => Sys2Proof.Machine.execLoop p a s
  | .endloop p a => Sys2Proof.Machine.execEndloop p a s
  | .rendezvous p a => Sys2Proof.Machine.execRendezvous p a s
  | .fill p a => Sys2Proof.Machine.execFill p a s
  | .endfill p a => Sys2Proof.Machine.execEndfill p a s
  | .stepMark p a => Sys2Proof.Machine.execStepMark p a s
  | .endProg p a => Sys2Proof.Machine.execEndProg p a s
  | .mma p a => Sys2Proof.Machine.execMma p a s
  | .drain p a => Sys2Proof.Machine.execDrain p a s
  | .combine p a => Sys2Proof.Machine.execCombine p a s
  | .elem p a => Sys2Proof.Machine.execElem p a s
  | .fma p a => Sys2Proof.Machine.execFma p a s
  | .func1 p a => Sys2Proof.Machine.execFunc1 p a s
  | .convert p a => Sys2Proof.Machine.execConvert p a s
  | .rowred p a => Sys2Proof.Machine.execRowred p a s
  | .softmax p a => Sys2Proof.Machine.execSoftmax p a s
  | .softmaxRec p a => Sys2Proof.Machine.execSoftmaxRec p a s
  | .softmaxBwd p a => Sys2Proof.Machine.execSoftmaxBwd p a s
  | .rmsnorm p a => Sys2Proof.Machine.execRmsnorm p a s
  | .layernorm p a => Sys2Proof.Machine.execLayernorm p a s
  | .rmsnormBwd p a => Sys2Proof.Machine.execRmsnormBwd p a s
  | .layernormBwd p a => Sys2Proof.Machine.execLayernormBwd p a s
  | .colred p a => Sys2Proof.Machine.execColred p a s
  | .join p a => Sys2Proof.Machine.execJoin p a s
  | .split p a => Sys2Proof.Machine.execSplit p a s
  | .streamCopy p a => Sys2Proof.Machine.execStreamCopy p a s
  | .park p a => Sys2Proof.Machine.execPark p a s
  | .unpark p a => Sys2Proof.Machine.execUnpark p a s
  | .rclear p a => Sys2Proof.Machine.execRclear p a s
  | .sumsq p a => Sys2Proof.Machine.execSumsq p a s
  | .update p a => Sys2Proof.Machine.execUpdate p a s
  | .digest p a => Sys2Proof.Machine.execDigest p a s
  | .attend p a => Sys2Proof.Machine.execAttend p a s
  | .merge p a => Sys2Proof.Machine.execMerge p a s
  | .send p a => Sys2Proof.Machine.execSend p a s
  | .recv p a => Sys2Proof.Machine.execRecv p a s
  | .collective p a => Sys2Proof.Machine.execCollective p a s
  | .actionComplete p a r => Sys2Proof.Machine.execActionComplete p a r s
  | .linkActionComplete p a r => Sys2Proof.Machine.execLinkActionComplete p a r s
  | .deadlineReached p tok => Sys2Proof.Machine.execDeadlineReached p tok s
  | .slotLimit p => Sys2Proof.Machine.execSlotLimit p s
  | .freezeBoundary p => Sys2Proof.Machine.execFreezeBoundary p s
  | .partitionFrozen p => Sys2Proof.Machine.execPartitionFrozen p s
  | .streamDueReached e => Sys2Proof.Machine.execStreamDueReached e s
  | .thaw p => Sys2Proof.Machine.execThaw p s
  | .rendezvousRelease p => Sys2Proof.Machine.execRendezvousRelease p s
  | .watchdogExpiry p => Sys2Proof.Machine.execWatchdogExpiry p s
  | .fillItemStart p => Sys2Proof.Machine.execFillItemStart p s
  | .fillOverrun p => Sys2Proof.Machine.execFillOverrun p s
  | .runComplete p => Sys2Proof.Machine.execRunComplete p s
  | .graceExpiry p => Sys2Proof.Machine.execGraceExpiry p s
  | .digestReceived p part step layer shard digest => Sys2Proof.Machine.execDigestReceived p part step layer shard digest s
  | .digestMissing p part => Sys2Proof.Machine.execDigestMissing p part s
  | .spineFlit router out flit => Sys2Proof.Machine.execSpineFlit router out flit s
  | .weirRequest w o bytes agent action => Sys2Proof.Machine.execWeirRequest w o bytes agent action s
  | .accumulateWrite engine => Sys2Proof.Machine.execAccumulateWrite engine s
  | .frameTransmit port => Sys2Proof.Machine.execFrameTransmit port s
  | .frameReceive port words content => Sys2Proof.Machine.execFrameReceive port words content s
  | .timeSteer => Sys2Proof.Machine.execTimeSteer s
  | .portEnable port => Sys2Proof.Machine.execPortEnable port s
  | .portDisable port => Sys2Proof.Machine.execPortDisable port s
  | .retrain port => Sys2Proof.Machine.execRetrain port s
  | .loopback port mode => Sys2Proof.Machine.execLoopback port mode s
  | .laneTrainDone port mask => Sys2Proof.Machine.execLaneTrainDone port mask s
  | .laneTrainTimeout port => Sys2Proof.Machine.execLaneTrainTimeout port s
  | .widthExchange port peerMask => Sys2Proof.Machine.execWidthExchange port peerMask s
  | .identExchange port serial peerPort peerPart => Sys2Proof.Machine.execIdentExchange port serial peerPort peerPart s
  | .portFault port cause => Sys2Proof.Machine.execPortFault port cause s
  | .lnkCtrlWrite v => Sys2Proof.Machine.execLnkCtrlWrite v s
  | .lnkSelfWrite v => Sys2Proof.Machine.execLnkSelfWrite v s
  | .lnkTorusWrite v => Sys2Proof.Machine.execLnkTorusWrite v s
  | .pollPass stores => Sys2Proof.Machine.execPollPass stores s
  | .pollSleep stores => Sys2Proof.Machine.execPollSleep stores s
  | .nudge => Sys2Proof.Machine.execNudge s
  | .msixSend ring => Sys2Proof.Machine.execMsixSend ring s
  | .hifEnable => Sys2Proof.Machine.execHifEnable s
  | .hifDisable => Sys2Proof.Machine.execHifDisable s
  | .hostLinkReset => Sys2Proof.Machine.execHostLinkReset s
  | .hostLinkDegraded rate width => Sys2Proof.Machine.execHostLinkDegraded rate width s
  | .busMasterEnable => Sys2Proof.Machine.execBusMasterEnable s
  | .d3hotEntry => Sys2Proof.Machine.execD3hotEntry s
  | .d0Return => Sys2Proof.Machine.execD0Return s
  | .bar2Access req offset data => Sys2Proof.Machine.execBar2Access req offset data s
  | .registerWrite offset width v => Sys2Proof.Machine.execRegisterWrite offset width v s
  | .memStatusRead => Sys2Proof.Machine.execMemStatusRead s
  | .hifStatusRead => Sys2Proof.Machine.execHifStatusRead s
  | .pwrStatusRead => Sys2Proof.Machine.execPwrStatusRead s
  | .secStatusRead => Sys2Proof.Machine.execSecStatusRead s
  | .esLostRead => Sys2Proof.Machine.execEsLostRead s
  | .trapClear core => Sys2Proof.Machine.execTrapClear core s
  | .numStepWrite offset v => Sys2Proof.Machine.execNumStepWrite offset v s
  | .memWeirWrite w o v => Sys2Proof.Machine.execMemWeirWrite w o v s
  | .memLevelWrite v => Sys2Proof.Machine.execMemLevelWrite v s
  | .memHostWindowWrite v => Sys2Proof.Machine.execMemHostWindowWrite v s
  | .cntClear index => Sys2Proof.Machine.execCntClear index s
  | .ccReplicaWrite p v stores => Sys2Proof.Machine.execCcReplicaWrite p v stores s
  | .eventsLost => Sys2Proof.Machine.execEventsLost s
  | .getKeys => Sys2Proof.Machine.execGetKeys s
  | .getReport nonce flags => Sys2Proof.Machine.execGetReport nonce flags s
  | .ideKey keyset ciphertext => Sys2Proof.Machine.execIdeKey keyset ciphertext s
  | .ideGo request => Sys2Proof.Machine.execIdeGo request s
  | .ideStop => Sys2Proof.Machine.execIdeStop s
  | .ideCheckFail => Sys2Proof.Machine.execIdeCheckFail s
  | .powerOnReset => Sys2Proof.Machine.execPowerOnReset s
  | .powerOnResetEnd => Sys2Proof.Machine.execPowerOnResetEnd s
  | .resetNFall scope => Sys2Proof.Machine.execResetNFall scope s
  | .resetNRise bootSrc => Sys2Proof.Machine.execResetNRise bootSrc s
  | .domainRelease found => Sys2Proof.Machine.execDomainRelease found s
  | .lockTimeout => Sys2Proof.Machine.execLockTimeout s
  | .testEnHigh => Sys2Proof.Machine.execTestEnHigh s
  | .bootGo fetched stores => Sys2Proof.Machine.execBootGo fetched stores s
  | .bootRelayRequest port => Sys2Proof.Machine.execBootRelayRequest port s
  | .imageVerify => Sys2Proof.Machine.execImageVerify s
  | .memoryTrainingDone found => Sys2Proof.Machine.execMemoryTrainingDone found s
  | .linkTrainEnd => Sys2Proof.Machine.execLinkTrainEnd s
  | .topoGo fetched stores => Sys2Proof.Machine.execTopoGo fetched stores s
  | .renewGo v => Sys2Proof.Machine.execRenewGo v s
  | .renewComplete found => Sys2Proof.Machine.execRenewComplete found s
  | .thermalSample sensor reading => Sys2Proof.Machine.execThermalSample sensor reading s
  | .tripShutdown => Sys2Proof.Machine.execTripShutdown s
  | .inhibitBegin => Sys2Proof.Machine.execInhibitBegin s
  | .inhibitEnd => Sys2Proof.Machine.execInhibitEnd s
  | .meterSample mainMv mainMa auxMv auxMa checkOk => Sys2Proof.Machine.execMeterSample mainMv mainMa auxMv auxMa checkOk s
  | .pulseEnd => Sys2Proof.Machine.execPulseEnd s
  | .intervalClose write => Sys2Proof.Machine.execIntervalClose write s
  | .i3cOffsetSelect meter read => Sys2Proof.Machine.execI3cOffsetSelect meter read s
  | .arbAdvance target => Sys2Proof.Machine.execArbAdvance target s
  | .nmeTest v => Sys2Proof.Machine.execNmeTest v s
  | .nmeTestDone passed => Sys2Proof.Machine.execNmeTestDone passed s
  | .extest => Sys2Proof.Machine.execExtest s
  | .samplePreload => Sys2Proof.Machine.execSamplePreload s
  | .idcode => Sys2Proof.Machine.execIdcode s
  | .extestPulse => Sys2Proof.Machine.execExtestPulse s
  | .extestTrain => Sys2Proof.Machine.execExtestTrain s
  | .clamp => Sys2Proof.Machine.execClamp s
  | .highz => Sys2Proof.Machine.execHighz s
  | .bypass => Sys2Proof.Machine.execBypass s
  | .boardChannelFailed fault => Sys2Proof.Machine.execBoardChannelFailed fault s
  | .arbAdvanceDone => Sys2Proof.Machine.execArbAdvanceDone s
  | .tapReset => Sys2Proof.Machine.execTapReset s

end Sys2Proof.Machine
end

