-- ==== Sys2Proof/Safety.lean ====
section
/-! DEFINITION. The terms in which claims are stated: a safe run, the forms that every step keeps, the command that a host command row
serves, the action that an action row issues, and the state after each. -/
namespace Sys2Proof.Machine

open Sys2Proof

/-! ## Forms that every step keeps -/

/-- Every memory of the part, the galleys among them, its poison and the host's memory are in canonical form. -/
def Data.wf (d : Data) : Bool :=
  Memory.wf d.core && Memory.wf d.sram && Memory.wf d.store && Memory.wf d.dev && Memory.wf d.staging && Memory.wf d.scalar &&
    Memory.wf d.host && Tab.wf 0 d.hostP && Tab.wf 0 d.coreP && Tab.wf 0 d.sramP && Tab.wf 0 d.storeP && Tab.wf 0 d.stagingP && Tab.wf 0 d.scalarP &&
    Tab.wf 0 d.devP && Tab.wf 0 d.galley && Tab.wf 0 d.galleyN && Tab.wf 0 d.galleyP && Tab.wf 0 d.storeTag

/-- The event sequencer holds no more records than R441 lets it keep. -/
def State.esBounded (s : State) : Prop := s.es.buffer.length ≤ esRoom

/-- The anti-rollback counter, its advance in progress and the version of the firmware that bounds it (R531). -/
def State.rollbackOk (s : State) : Prop :=
  s.sec.fwSvn.toNat ≤ 64 ∧ s.sec.arb.toNat ≤ 64 ∧ ∀ n, s.sec.advancing = some n → s.sec.arb.toNat ≤ n ∧ n ≤ 64

/-- A safe step: the machine goes on. No row of the table stops it. -/
def safe (o : Out) : Prop := match o with
  | .next _ => True
  | _ => False

/-! ## Host commands (R406 to R408, R415) -/

/-- The command at the front begins and passes every check that comes before its own effect (R415). -/
abbrev State.serves (s : State) (op : Nat) (c : Cmd) : Prop := s.front (· == op) = some c ∧ s.cmdCode c = 0

/-- The record of a command of the history that completes with a stamp. -/
def Past.after (stamp q : Nat) (h : Past) : Past := if h.stamp = stamp then h.complete q else h

/-- The state once a command has left the queue and its one completion record has been stamped (R408). -/
def State.completed (s : State) (c : Cmd) (status reason value detail : Nat) : State :=
  { s with
    es := { s.es with seq := s.es.seq + 1 }
    hif := { s.hif with
      queue := s.hif.queue.tail
      history := (s.begun c).hif.history.map (Past.after c.stamp s.es.seq.toNat)
      compl := s.hif.compl ++ [{ tag := c.tag, ring := c.ring, partition := c.part, status := status, reason := reason,
                                 seq := s.es.seq.toNat, value := value, detail := detail }] } }

/-- The state once a command has been refused with a reason: its record, and the reason in PWR_STATUS where it is one of Table 16-6. -/
def State.refused (s : State) (c : Cmd) (reason : Nat) : State :=
  { s.completed c 1 reason 0 0 with
    pwr := if reason / 256 = 5 then { s.pwr with reason := BitVec.ofNat 16 reason } else s.pwr }

/-- A command has left the queue and one completion record with a status and a reason stands last among those that wait. -/
def answered (s t : State) (c : Cmd) (status reason value : Nat) : Prop :=
  t.hif.queue = s.hif.queue.tail ∧ ∃ q, t.hif.compl = s.hif.compl ++
    [{ tag := c.tag, ring := c.ring, partition := c.part, status := status, reason := reason, seq := q, value := value, detail := 0 }]

/-! ## Actions (R67, R72 to R75) -/

/-- The record of an agent that an action row names stands at an open issue point, reached in the state `u`, and the checks of R72 pass. -/
structure Issues (s u : State) (op p a : Nat) (c : Ctx) (valid : Bool) (busy : Option (Nat × Nat)) (named : List Nat) : Prop where
  due : issueCtx s op p a = some c
  atPoint : u = s.toCycle p c.point
  token : u.tokCheck c = .fine
  good : valid = true
  free : busy = none
  owned : ownFail (u.part c.p) c 0 named = none

/-- The state in which a record that passes its checks takes effect: its sequencer stands at the next record, its token is taken. -/
def State.issued (u : State) (c : Ctx) : State := (u.step1 c).takeToken c

/-- A sequencer past the record of a context: it stands at `next` of its program or of its fill block, `f` applied to the loops open there. -/
def Seqr.moved (q : Seqr) (c : Ctx) (next : Nat) (f : List LoopFrame → List LoopFrame) : Seqr := match c.fill with
  | some _ => { q with last := c.point, fill := q.fill.map (fun t => { t with pc := next, loops := f t.loops }) }
  | none => { q with last := c.point, pc := next, loops := f q.loops }

/-- From `u` to `t` one sequencer of a partition has become `q`; every other sequencer, the rest of the partition, every other
partition and the rest of the machine stay. -/
def seqMoved (u t : State) (p a : Nat) (q : Seqr) : Prop :=
  (t.part p).seqr a = some q ∧ (∀ b, b ≠ a → (t.part p).seqr b = (u.part p).seqr b) ∧ ({ t.part p with seqs := (u.part p).seqs } : Part) = u.part p ∧
    (∀ r, r ≠ p → t.part r = u.part r) ∧ ({ t with parts := u.parts } : State) = u

/-! ## Ports (R361 to R363) -/

/-- From `s` to `t` one port has become `q`; every other port and the rest of the machine stay. -/
def portBecomes (s t : State) (port : Nat) (q : Port) : Prop :=
  t.port port = q ∧ (∀ r, r ≠ port → t.port r = s.port r) ∧ ({ t with lnk := { t.lnk with ports := s.lnk.ports } } : State) = s

end Sys2Proof.Machine
end

