-- ==== Sys2Proof/Certificates/Slice0/Obligations.lean ====
section
/-! DEFINITION. The statements for the provers, with the tables of rows that several of them name. -/

open Sys2Proof Sys2Proof.Machine

/-- An address at which an ALLOC may place its range (R306, Table 10-6): in one channel that AFFINITY allows, within the partition's range
there; of tier 2 in the host window, every page of the range absent. -/
def allocAllowed (s : State) (c : Cmd) (a : Nat) : Prop :=
  let e := s.lay c.part
  match c.tier with
  | 0 => ∃ ch k, ch < 256 ∧ bit e.stackSet (ch / 32) = true ∧ bit c.affinity (ch / 32) = true ∧ e.sLo ≤ k ∧ k + c.units ≤ e.sHi ∧
      a = ch * 2147483648 + k * pageBytes
  | 1 => ∃ ch k, ch < 64 ∧ bit e.board ch = true ∧ bit c.affinity ch = true ∧ e.bLo ≤ k ∧ k + c.units ≤ e.bHi ∧
      a = boardBase + ch * s.cap + k * pageBytes
  | _ => ∃ k, k + c.units ≤ s.mem.window.toNat ∧ (∀ i, i < c.units → s.pagePresent (hostBase + (k + i) * pageBytes) = false) ∧
      a = hostBase + k * pageBytes

/-- No allocation meets the range that would begin at an address. -/
def allocFree (s : State) (c : Cmd) (a : Nat) : Prop :=
  ∀ x ∈ s.mem.allocs, rangesMeet a (c.units * pageBytes) x.addr (x.units * pageBytes) = false

/-- The rows of the matrix, vector, update and attention engines with their opcodes and the bytes of their descriptors. -/
def engineRows (p a : Nat) : List (Nat × Nat × Instr) :=
  [(0x10, 64, .mma p a), (0x11, 48, .drain p a), (0x12, 64, .combine p a), (0x20, 64, .elem p a), (0x21, 64, .fma p a), (0x22, 64, .func1 p a),
   (0x23, 64, .convert p a), (0x24, 64, .rowred p a), (0x25, 64, .softmax p a), (0x26, 64, .softmaxRec p a), (0x27, 64, .softmaxBwd p a),
   (0x28, 64, .rmsnorm p a), (0x29, 64, .layernorm p a), (0x2A, 64, .rmsnormBwd p a), (0x2B, 64, .layernormBwd p a), (0x2C, 64, .colred p a),
   (0x2D, 64, .join p a), (0x2E, 64, .split p a), (0x60, 64, .rclear p a), (0x61, 64, .sumsq p a), (0x62, 64, .update p a),
   (0x63, 64, .digest p a), (0x70, 64, .attend p a), (0x71, 64, .merge p a)]

/-- The vector rows with their opcodes (Table 06-1). -/
def vectorRows (p a : Nat) : List (Nat × Instr) :=
  [(0x20, .elem p a), (0x21, .fma p a), (0x22, .func1 p a), (0x23, .convert p a), (0x24, .rowred p a), (0x25, .softmax p a), (0x26, .softmaxRec p a),
   (0x27, .softmaxBwd p a), (0x28, .rmsnorm p a), (0x29, .layernorm p a), (0x2A, .rmsnormBwd p a), (0x2B, .layernormBwd p a), (0x2C, .colred p a),
   (0x2D, .join p a), (0x2E, .split p a)]

/-- Row `r` of the results of a vector action: of its own row, of every row for ROWRED, down the columns for COLRED (R180; log entry 11).
-/
def vectorLine (v : State) (core op : Nat) (d : VecDesc) (r : Nat) : List (Machine.Num × Nat) :=
  let rs := (upTo d.rows).map (v.vecRowAt core op d)
  if op = 0x2C then (vecColred d.n rs).out
  else if op = 0x24 then rs.flatMap (fun x => (vecRow op d.func (fp32 d.const) x).out)
  else (vecRow op d.func (fp32 d.const) (v.vecRowAt core op d r)).out

/-- The sequencer of stream engine `e` issues a record of opcode `op` at `c` that passes its checks (R72, R334): its descriptor, its
operands, no action of the engine in flight, its resources granted. -/
def StreamIssues (s u : State) (op p e : Nat) (c : Ctx) (b : List Byte) (src dst : Opnd) : Prop :=
  (u.part p).image.descOf c.bind c.r.arg 64 = some b ∧
  opndOf (u.part p).image c.bind c.iter (StreamDesc.parse b).srcKind (StreamDesc.parse b).src = src ∧
  opndOf (u.part p).image c.bind c.iter (StreamDesc.parse b).dstKind (StreamDesc.parse b).dst = dst ∧
  Issues s u op p (0x10000000 + e) c (u.streamValid p e op (StreamDesc.parse b) src dst)
    ((lookupBy (fun f => f.agent == 0x10000000 + e) (u.part p).flights).map (fun f => (0x10000000 + e, f.action)))
    ((StreamDesc.parse b).resources src dst)

/-- The memory of an operand and its first byte there: core, near-memory SRAM, staging, store, step-scalar record, device memory below the
host window. -/
def opndPlace (o : Opnd) : Option (Space × Nat) := match o with
  | .core k x => some (.core, coreAt k x)
  | .sram e x => some (.sram, sramAt e x)
  | .link q sl x => some (.staging, stagingAt q sl x)
  | .store die _ x _ => some (.store, storeAt die x)
  | .scalar e => some (.scalar, scalarAt e)
  | .dev x => some (.dev, x)
  | _ => none

/-- The rows of an operand are served: those of device memory lie below the host window in pages that are present and on, a source in an
activation store lies in regions of its own instance. -/
def opndServed (u : State) (p : Nat) (source : Bool) (o : Opnd) (stride rows n : Nat) : Prop :=
  ∀ r k, r < rows → k < n → match o with
    | .dev x => x + r * stride + k < hostBase ∧ u.access p (x + r * stride + k) = .ok
    | .store die inst x _ => source = true → tget 0 u.data.storeTag (storeTagKey die ((x + r * stride + k) / 16384)) = inst + 1
    | _ => True

/-- No action in flight guards a range of device memory against a stream (R229, R275). -/
def noGuards (u : State) (p : Nat) : Prop := ∀ f ∈ (u.part p).flights, f.opcode < 0x60

/-- No engine waits at a pipe for engine `e`. -/
def noWaiters (s : State) (e : Nat) : Prop := s.waitersOf e = []

/-- What a flit that leaves a router output in a cycle is remembered as (R46). -/
def flitSeen (cyc : Nat) (f : Flit) (sent : Bool) : LastFlit :=
  { cycle := cyc, partition := flitOwner f, source := f.source, input := f.input + 1, sent := sent }

/-- Nothing that senders hold at a queue can enter it now. -/
def holds (s : State) (key depth : Nat) : Prop :=
  admitHeld depth [] (s.weirQueue key) (s.weirHeld key) = { queue := s.weirQueue key, held := s.weirHeld key, refused := [] }

/-- What a port command leaves alone: the other ports, the messages, every memory and partition; a parent port that leaves ACTIVE is
followed no more (R391). -/
def portFrame (s t : State) (port : Nat) : Prop :=
  (∀ r, r ≠ port → t.port r = s.port r) ∧ t.lnk.msgs = s.lnk.msgs ∧ t.lnk.route = s.lnk.route ∧ t.data = s.data ∧ t.parts = s.parts ∧ t.mem = s.mem ∧
    ((s.port port).state = .active → s.lnk.following = true → s.lnk.parent = port → t.lnk.following = false ∧ t.lnk.timeState = 0)

/-- The route table after a register write (R380): in the expert view as it was; in the basic view firmware has derived it, the part
itself 0xFE, every destination of the torus by `State.deriveOne`, every other 0xFF; a part outside its torus reaches nothing. -/
def routesWritten (s t : State) : Prop :=
  (t.lnk.level = true → t.lnk.route = s.lnk.route) ∧
  (t.lnk.level = false →
    (∀ x y z, x < t.torus.1 → y < t.torus.2.1 → z < t.torus.2.2 → t.selfInside = true →
      tget 0xFF t.lnk.route (x + 32 * y + 1024 * z) = BitVec.ofNat 8 (t.deriveOne t.torus.1 t.torus.2.1 t.selfPart x y z t.torus.2.2)) ∧
    (∀ e, t.selfInside = true → (∀ x y z, x < t.torus.1 → y < t.torus.2.1 → z < t.torus.2.2 → e ≠ x + 32 * y + 1024 * z) →
      tget 0xFF t.lnk.route e = 0xFF) ∧
    (t.selfInside = false → ∀ e, tget 0xFF t.lnk.route e = if e = t.selfPart then 0xFE else 0xFF))

/-- From `s` to `t` every domain but D00 and D02 has gone through a full reset (Table 15-1): the registers, rings, links, partitions and
on-die memories hold their reset values, the fuses and host memory stay, and every byte of stack and board memory is a free value of a new
epoch (log entry 54). -/
def coldFrom (s t : State) : Prop :=
  ({ t with pending := [], freeCtr := 0, clk := 0, rst := State.reset.rst, sec := State.reset.sec, data := State.reset.data, mu := State.reset.mu,
            pins := State.reset.pins, pwr := State.reset.pwr } : State) = State.reset ∧
  t.pending = s.pending ∧ t.clk = s.clk ∧
  t.data = { Data.empty with host := s.data.host, hostP := s.data.hostP, devEpoch := s.freeCtr + 1 } ∧
  t.sec = { SecRegs.reset with arb := s.sec.arb, kemCount := s.sec.kemCount, fuses := ⟨s.rst.defect, s.rst.pinmap, s.sec.arb⟩ } ∧
  ({ t.pwr with doms := [] } : PwrRegs) = PwrRegs.reset ∧
  (∀ f, f < 16 → (t.dom (19 + f)).st = if t.fieldFailed f then .off else .on) ∧
  t.rst.state = .reset ∧ t.rst.defect = s.rst.defect ∧ t.rst.pinmap = s.rst.pinmap ∧ t.rst.fwRunning = false ∧ t.rst.everReady = false

/-- The release order of Table 15-3. -/
def releaseOrder : List Nat :=
  [0, 2, 1, 3, 4, 5, 6, 7, 8, 9, 10] ++ [11, 12, 13, 14, 15, 16, 17, 18] ++ [35] ++ [19, 20, 21, 22, 23, 24, 25, 26, 27, 28, 29, 30, 31, 32, 33, 34]

/-- The islands of the domains named report lock: those still to be released that do not stay down (Off, or under renewal: R458, log entry
20), of the first one, `d`, at the latest 65,536 REFCLK cycles after its gap ends at `g`. -/
def islandsLock (s t : State) (d g : Nat) (left locked : List Nat) : Prop :=
  ∀ k, k < 36 → t.rst.locked.getLsbD k = (s.rst.locked.getLsbD k ||
    (locked.contains k && left.contains k && !s.staysDown k && (k != d || decide (s.clk ≤ g + 65536 * 94500))))

/-- The next domain `d` of a sequence can be counted as released: it stays down, or its island reports lock, at the latest 65,536 REFCLK
cycles after its gap ends at `g`. -/
abbrev releasable (s : State) (d g : Nat) (locked : List Nat) : Prop :=
  s.staysDown d = true ∨ s.rst.locked.getLsbD d = true ∨ d ∈ locked ∧ d < 36 ∧ s.clk ≤ g + 65536 * 94500

/-- No action in flight and no NaN still to come is one of an engine of the named fields. -/
def fieldsIdle (s : State) (fields : Nat) : Prop :=
  ∀ q k, q < 8 → k < 16 → fields.testBit k = true → (∀ f ∈ (s.part q).flights, inField k f.agent = false) ∧ ∀ n ∈ (s.part q).nans, inField k n.core = false

/-- From `s` to `t` only the memory block and the security block's error registers change, and the part state. -/
def onlyLoss (s t : State) : Prop :=
  t.rst.state = (if s.rst.state = .off then .off else .lost) ∧ t.data = s.data ∧ t.parts = s.parts ∧ t.lnk = s.lnk ∧ t.pwr = s.pwr ∧ t.num = s.num

/-- A step takes the command at the front of the queue and answers what its meaning answers on the state with the queue's rest; on an
empty queue the block's own clock ticks (log entry 2). -/
def Obligations.StepRunsFront : Prop :=  (∀ (s : State) (c : Instr) (rest : List Instr), s.pending = c :: rest → step s = exec c { s with pending := rest }) ∧
  (∀ s : State, s.pending = [] → step s = .next s.tick)

/-- What reset leaves: the values that Tables 13-12, 14-10, 15-12, 16-9 and their like give. Three clauses are no table's: that
State.reset is the part in RESET with its power-on reset still asserted, no domain released (Table 15-13 gives RELEASED 'per sequence'
only), and that no command waits, are the model's choice (log entry 24, DESIGN CHOICE). Every memory of the part and of the host is in
canonical form at reset, and the event buffer and the anti-rollback counter are within their bounds. -/
def Obligations.ResetValuesAndForms : Prop :=
  (State.reset.pending = [] ∧ State.reset.rst.state = .reset ∧ State.reset.rst.cause = 1 ∧ State.reset.rst.released = 0 ∧
  State.reset.es.seq = 0 ∧ State.reset.es.lost = 0 ∧ State.reset.es.buffer = [] ∧ State.reset.hif.enable = false ∧
  State.reset.hif.level = false ∧ State.reset.mem.hostLat = 0x7D0 ∧ State.reset.num.trapPolicy = 0 ∧ State.reset.pwr.alertAt = 0x64 ∧
  State.reset.pins.ir = 2 ∧ (∀ q, (State.reset.port q).ctrl = 1 ∧ (State.reset.port q).state = .off) ∧
  (∀ d, (State.reset.dom d).st = .on) ∧ (∀ p, (State.reset.part p).status = .idle ∧ (State.reset.part p).resident = [])) ∧
  (State.reset.data.wf = true ∧ State.reset.esBounded ∧ State.reset.rollbackOk)

/-- THE FORM OF MEMORY IS KEPT: whatever the command, the memories stay in canonical form. -/
def Obligations.MemoryFormKept : Prop :=  ∀ s t : State, s.data.wf = true → step s = .next t → t.data.wf = true

/-- THE EVENT BUFFER STAYS BOUNDED (R441): no step lets the event sequencer hold more records than it may. -/
def Obligations.EventBufferBounded : Prop :=  ∀ s t : State, s.esBounded → step s = .next t → t.esBounded

/-- THE ANTI-ROLLBACK COUNTER NEVER DECREASES (R531): no step lowers it, and it stays within 0 to 64. -/
def Obligations.RollbackNeverDecreases : Prop :=  ∀ s t : State, s.rollbackOk → step s = .next t → t.rollbackOk ∧ s.sec.arb.toNat ≤ t.sec.arb.toNat

/-- FIRST IN, FIRST OUT: a step takes the front command out of the queue and nothing else touches it; and every command has an outcome
that goes on. -/
def Obligations.QueueFirstInFirstOut : Prop :=  ∀ s : State, ∃ t, step s = .next t ∧ t.pending = s.pending.tail

/-- A store of sound bytes to any memory of the part: inside the range each byte reads back as stored, outside it every byte of that
memory reads as before with its poison, and no other memory changes. A store of poisoned data marks the words it reaches (R519): every
byte of the range then reads with an origin, and a store of sound bytes over whole words clears their marks. -/
def Obligations.StoreReadsBack : Prop :=  (∀ (s : State) (sp : Space) (a : Nat) (bs : List Byte),
    (∀ x, (s.store sp a bs).data.byte sp x = if a ≤ x ∧ x < a + bs.length then bs.getD (x - a) 0 else s.data.byte sp x) ∧
    (∀ sp', sp' ≠ sp → ∀ x, (s.store sp a bs).data.byte sp' x = s.data.byte sp' x ∧ (s.store sp a bs).data.mark sp' x = s.data.mark sp' x) ∧
    (∀ w, w < a / sp.grain ∨ (a + bs.length + sp.grain - 1) / sp.grain ≤ w → (s.store sp a bs).data.mark sp w = s.data.mark sp w) ∧
    (∀ w, a ≤ w * sp.grain → (w + 1) * sp.grain ≤ a + bs.length → (s.store sp a bs).data.mark sp w = 0) ∧
    (s.store sp a bs).data.host = s.data.host ∧ (s.store sp a bs).data.galley = s.data.galley ∧
    ({ s.store sp a bs with data := s.data } : State) = s) ∧
  (∀ (s : State) (sp : Space) (a o : Nat) (bs : List Byte), o ≠ 0 → ∀ x, a ≤ x → x < a + bs.length →
    (s.write sp a (Run.tainted o bs)).data.mark sp (x / sp.grain) = o ∧
    (s.write sp a (Run.tainted o bs)).data.byte sp x = bs.getD (x - a) 0)

/-- Events and their masks (R440; also R435, R441): a type of groups 1 to 4 is masked by its group's bit or by its own, groups 0, 5 and 6
never; in the basic view the type masks are derived and read-only; a masked event takes its SEQ and keeps no record; with no room the loss
is counted. -/
def Obligations.EventsMaskedAndKept : Prop :=  (∀ (s : State) (g k : Nat), k < 256 →
    (s.masked (256 * g + k) = true ↔ 1 ≤ g ∧ g ≤ 4 ∧ (s.es.groupMask.getLsbD (g - 1) = true ∨ (s.typeMaskOf g).getLsbD k = true)) ∧
    (1 ≤ g → g ≤ 4 → s.es.level = false → s.typeMaskOf g = (if s.es.groupMask.getLsbD (g - 1) then 0xFFFFFFFE else 0) ∧
      ∀ v, exec (.registerWrite (0x500040 + 4 * g) 4 v) s = .next s) ∧
    (1 ≤ g → g ≤ 4 → s.es.level = true → (s.dom 3).st ≠ .off → ∀ v : W64, ∃ t, exec (.registerWrite (0x500040 + 4 * g) 4 v) s = .next t ∧
      t.typeMaskOf g = v.setWidth 32 &&& 0xFFFFFFFE ∧ ({ t with es := { t.es with typeMask := s.es.typeMask } } : State) = s)) ∧
  (∀ (s : State) (ty : Nat) (p : Option Nat) (src aux det : Nat), s.es.lostSince = 0 →
    (s.event ty p src aux det).1 = s.es.seq.toNat ∧ (s.post ty p src aux det).es.seq = s.es.seq + 1 ∧
    (s.masked ty = true → (s.post ty p src aux det).es.buffer = s.es.buffer ∧ (s.post ty p src aux det).es.lost = s.es.lost) ∧
    (s.masked ty = false → s.es.buffer.length < esRoom →
      (s.post ty p src aux det).es.buffer = s.es.buffer ++
        [{ seq := s.es.seq.toNat, type := ty, part := p, time := s.es.time.toNat, source := src, aux := aux, detail := det }] ∧
      (s.post ty p src aux det).es.lost = s.es.lost) ∧
    (s.masked ty = false → esRoom ≤ s.es.buffer.length →
      (s.post ty p src aux det).es.buffer = s.es.buffer ∧ (s.post ty p src aux det).es.lost = satInc32 s.es.lost ∧
      (s.post ty p src aux det).es.lostSince = 1) ∧
    ({ s.post ty p src aux det with es := s.es } : State) = s)

/-- A command that fails a check of R415 is refused: exactly one completion record with status REFUSED and the reason, and nothing else of
the machine changes. The rows of LAYOUT to EXPORT, the cache and POWER alike; SERVICE and RESUME in the row of their MODE. A SERVICE,
REG_READ or REG_WRITE that has not acted at its stamp is meant (which has is log entry 28). -/
def Obligations.InvalidCommandRefused : Prop :=  ∀ (s : State) (c : Cmd), s.cmdCode c ≠ 0 →
    (∀ f, ∀ x ∈ [(0x10, Instr.layout f), (0x11, .load f), (0x12, .unload), (0x13, .enable), (0x20, .alloc), (0x21, .release), (0x22, .map),
        (0x23, .unmap), (0x24, .copy), (0x25, .exportCmd), (0x30, .cacheSet), (0x31, .cacheGive), (0x32, .cacheJoin), (0x33, .cacheLeave),
        (0x40, .power)],
      s.front (· == x.1) = some c → exec x.2 s = .next (s.completed c 1 (s.cmdCode c) 0 0)) ∧
    (s.front (fun op => op == 0 || !knownOp op) = some c → exec .nop s = .next (s.completed c 1 (s.cmdCode c) 0 0)) ∧
    (c.acted = none → s.front (· == 3) = some c → exec .regRead s = .next (s.completed c 1 (s.cmdCode c) 0 0)) ∧
    (c.acted = none → s.front (· == 4) = some c → exec .regWrite s = .next (s.completed c 1 (s.cmdCode c) 0 0)) ∧
    (c.acted = none → s.front (· == 2) = some c →
      (c.opnd 0 1 = 1 → exec .serviceEnter s = .next (s.completed c 1 (s.cmdCode c) 0 0)) ∧
      (c.opnd 0 1 ≠ 1 → exec .serviceLeave s = .next (s.completed c 1 (s.cmdCode c) 0 0))) ∧
    (s.front (· == 0x15) = some c →
      (c.opnd 0 1 = 0 → exec .resumeContinue s = .next (s.completed c 1 (s.cmdCode c) 0 0)) ∧
      (c.opnd 0 1 ≠ 0 → exec .resumeAbandon s = .next (s.completed c 1 (s.cmdCode c) 0 0)))

/-- NOP, UNLOAD and RELEASE: the whole next state. -/
def Obligations.NopUnloadRelease : Prop :=  (∀ (s : State) (c : Cmd), s.front (fun op => op == 0 || !knownOp op) = some c → s.cmdCode c = 0 →
    exec .nop s = .next (s.completed c 0 0 0 0)) ∧
  (∀ (s : State) (c : Cmd), s.serves 0x12 c → ((s.part c.part).find (c.opnd 0 4)).isSome → s.formeInUse c.part (c.opnd 0 4) = false →
    exec .unload s = .next { s.completed c 0 0 0 0 with
      parts := tset Part.init s.parts c.part
        { s.part c.part with resident := (s.part c.part).resident.filter (fun r => r.id != c.opnd 0 4) } }) ∧
  (∀ (s : State) (c : Cmd), s.serves 0x21 c → s.mem.allocs.any (fun x => x.addr == c.opnd 0 8) = true →
    exec .release s = .next { s.completed c 0 0 0 0 with
      mem := { s.mem with allocs := s.mem.allocs.filter (fun x => x.addr != c.opnd 0 8) } }) ∧
  (∀ (s : State) (c : Cmd), s.serves 0x21 c → s.mem.allocs.any (fun x => x.addr == c.opnd 0 8) = false →
    exec .release s = .next (s.completed c 1 0x60D 0 0))

/-- SERVICE (R417): MODE 1 moves the part from READY to RUN, MODE 0 from RUN to READY when every partition is IDLE; nothing but the part
state, the completion and what the event sequencer and the advert show of the change is touched. One that has acted at its stamp completes
with what it did there, and its row does nothing else; one that stood behind a command acts in its row (the model's choice, log entry 28).
-/
def Obligations.ServiceMovesPart : Prop :=  (∀ (s : State) (c : Cmd), s.serves 2 c → c.acted = none → c.opnd 0 1 = 1 → s.rst.state = .ready →
    ∃ t, exec .serviceEnter s = .next t ∧ t.rst = { s.rst with state := .run } ∧ answered s t c 0 0 0 ∧
      ({ t with rst := s.rst, hif := s.hif, es := s.es } : State) = s) ∧
  (∀ (s : State) (c : Cmd), s.serves 2 c → c.acted = none → c.opnd 0 1 = 1 → s.rst.state ≠ .ready →
    exec .serviceEnter s = .next (s.completed c 1 0x115 0 0)) ∧
  (∀ (s : State) (c : Cmd), s.serves 2 c → c.acted = none → c.opnd 0 1 ≠ 1 → s.rst.state = .run → (∀ p, p < 8 → (s.part p).status = .idle) →
    ∃ t, exec .serviceLeave s = .next t ∧ t.rst = { s.rst with state := .ready } ∧ answered s t c 0 0 0 ∧
      ({ t with rst := s.rst, hif := s.hif, es := s.es } : State) = s) ∧
  (∀ (s : State) (c : Cmd) (p : Nat), s.serves 2 c → c.acted = none → c.opnd 0 1 ≠ 1 → p < 8 → (s.part p).status ≠ .idle →
    exec .serviceLeave s = .next (s.completed c 1 0x116 0 0)) ∧
  (∀ (s : State) (c : Cmd) (r v : Nat), s.front (· == 2) = some c → c.acted = some (r, v) → r / 256 ≠ 5 →
    let t := if r = 0 then s.completed c 0 0 v 0 else s.completed c 1 r 0 0
    (c.opnd 0 1 = 1 → exec .serviceEnter s = .next t) ∧ (c.opnd 0 1 ≠ 1 → exec .serviceLeave s = .next t))

/-- LAYOUT (R304): a record fetched whole that passes its checks comes into force, with every entry, TRANSIT and, in the basic view, the
shares derived from them; where it changes anything, no forme is enabled any more (R96), and the partitions stay as they are where it does
not. LOAD (R94): the image joins the resident formes of its partition, its enable bit clear. ENABLE (R95): the enable bit is set. Each
that fails a check is refused with its first reason and changes no partition, layout or memory; a record that cannot be fetched gives
0x011C, and in D3hot LAYOUT and LOAD wait. -/
def Obligations.LayoutLoadEnable : Prop :=  (∀ (s : State) (c : Cmd), s.serves 0x10 c → s.hostUp = true →
    let r := s.hostRead (c.opnd 0 8) layoutBytes
    let aff := s.disabledBy (layoutEntry r) (byteAt r 5)
    (s.layoutCode r = 0 → ∃ t, exec (.layout true) s = .next t ∧ answered s t c 0 0 0 ∧ (∀ p, p < 8 → t.lay p = layoutEntry r p) ∧
      t.transit = byteAt r 5 ∧ t.mem = (if s.mem.ctrl then s.mem else { s.mem with weir := deriveWeirs (layoutEntry r) (byteAt r 5) }) ∧
      (∀ p, t.part p = if p ∈ aff then (s.part p).disableAll else s.part p) ∧
      ({ t with transit := s.transit, layout := s.layout, mem := s.mem, parts := s.parts, hif := s.hif, es := s.es } : State) = s) ∧
    (s.layoutCode r ≠ 0 → ∃ t, exec (.layout true) s = .next t ∧ answered s t c 1 (s.layoutCode r) 0 ∧
      ({ t with hif := s.hif, es := s.es } : State) = s)) ∧
  (∀ (s : State) (c : Cmd), s.serves 0x11 c → s.hostUp = true →
    let m := s.hostRead (c.opnd 0 8) (min (c.opnd 8 4) (maxImage + 1))
    let r := loadCode m (c.opnd 8 4) ((s.part c.part).resident.map (·.id)) s.storeUsed
    (r = 0 → exec (.load true) s = .next { s.completed c 0 0 0 0 with
      parts := tset Part.init s.parts c.part
        { s.part c.part with resident := (s.part c.part).resident ++ [{ id := Image.formeId m, image := m, enabled := false }] } }) ∧
    (r ≠ 0 → exec (.load true) s = .next (s.completed c 1 r 0 0))) ∧
  (∀ (s : State) (c : Cmd) (f : Bool),
    (s.hif.d3 = true → (s.serves 0x10 c → exec (.layout f) s = .next s) ∧ (s.serves 0x11 c → exec (.load f) s = .next s)) ∧
    (s.hif.d3 = false → f = false ∨ s.hif.bme = false → (s.serves 0x10 c → exec (.layout f) s = .next (s.completed c 1 0x11C 0 0)) ∧
      (s.serves 0x11 c → exec (.load f) s = .next (s.completed c 1 0x11C 0 0)))) ∧
  (∀ (s : State) (c : Cmd), s.serves 0x13 c →
    ((s.part c.part).find (c.opnd 0 4) = none → exec .enable s = .next (s.completed c 1 0x217 0 0)) ∧
    (∀ r : Resident, (s.part c.part).find (c.opnd 0 4) = some r →
      (s.enableCode c.part r.image = 0 → exec .enable s = .next { s.completed c 0 0 0 0 with
        parts := tset Part.init s.parts c.part { s.part c.part with
          resident := (s.part c.part).resident.map (fun q => if q.id = r.id then { q with enabled := true } else q) } }) ∧
      (s.enableCode c.part r.image ≠ 0 → ∃ t, exec .enable s = .next t ∧ answered s t c 1 (s.enableCode c.part r.image) 0 ∧
        ({ t with hif := s.hif, es := s.es } : State) = s)))

/-- SWITCH (R98): one that passed the tests of its stamp leaves the queue and waits for its service; one that did not, or a service start
that finds a target not ready, posts one REFUSED record for each partition named. The service start of a switch whose targets are resident
and enabled makes its partitions STARTING with the images of their targets; the start broadcast then begins slot 0 of each, every counter
at 0 (R58, R99); an action of the run before, still in flight, goes on (R93; log entry 44, DEDUCED). The partitions that the switch does
not name stay. -/
def Obligations.SwitchServedOrRefused : Prop :=
  ((∀ (s : State) (c : Cmd), s.serves 0x14 c → c.pre = 0 →
    exec .switch s = .next { s with hif := { s.hif with
      queue := s.hif.queue.tail, history := (s.begun c).hif.history,
      switches := s.hif.switches.map (fun w => if w.stamp = c.stamp then { w with begun := true } else w) } }) ∧
  (∀ (s : State) (c : Cmd), s.serves 0x14 c → c.pre ≠ 0 →
    ∃ t, exec .switch s = .next t ∧ t.hif.queue = s.hif.queue.tail ∧ t.parts = s.parts ∧ t.data = s.data ∧
      t.hif.switches = s.hif.switches.filter (fun w => w.stamp != c.stamp) ∧
      t.hif.compl.map (fun r => (r.tag, r.partition, r.status, r.reason)) =
        s.hif.compl.map (fun r => (r.tag, r.partition, r.status, r.reason)) ++ c.entries.map (fun e => (c.tag, e.1, 1, c.pre))) ∧
  (∀ (s : State) (w : Sw), s.serviceDue = some w → w.targets.all s.targetReady = false →
    ∃ t, exec .switchServiceStart s = .next t ∧ t.parts = s.parts ∧ t.data = s.data ∧
      t.hif.switches = s.hif.switches.filter (fun v => v.stamp != w.stamp) ∧
      t.hif.compl.map (fun r => (r.tag, r.partition, r.status, r.reason)) =
        s.hif.compl.map (fun r => (r.tag, r.partition, r.status, r.reason)) ++ w.targets.map (fun e => (w.tag, e.1, 1, 0x217)))) ∧
  ((∀ (s : State) (w : Sw), s.serviceDue = some w → w.targets.all s.targetReady = true → (w.targets.map (·.1)).Nodup →
    ∃ t, exec .switchServiceStart s = .next t ∧ t.data = s.data ∧
      (∀ x ∈ w.targets, (t.part x.1).status = .starting ∧ (t.part x.1).cur = x.2 ∧
        ∃ r, (s.part x.1).find x.2 = some r ∧ (t.part x.1).image = r.image) ∧
      ∀ q, q ∉ w.targets.map (·.1) → t.part q = s.part q) ∧
  (∀ (s : State) (w : Sw), lookupBy (fun w => w.started) s.hif.switches = some w →
    ∃ t, exec .startBroadcast s = .next t ∧
      (∀ x ∈ w.targets, (t.part x.1).status = .running ∧ (t.part x.1).frz = .no ∧ (t.part x.1).elapsed = 0 ∧
        (t.part x.1).seqs = Image.sequencers (s.part x.1).image ∧ (t.part x.1).toks = [] ∧ (t.part x.1).arrivals = [] ∧
        (t.part x.1).flights = (s.part x.1).flights ∧ (t.part x.1).epochSlot = 0 ∧ (t.part x.1).policy = s.policyOf x.1) ∧
      (∀ q, q ∉ w.targets.map (·.1) → t.part q = s.part q) ∧
      t.hif.switches = s.hif.switches.filter (fun v => v.stamp != w.stamp) ∧ t.data.dev = s.data.dev ∧ t.num = s.num ∧ t.rst = s.rst))

/-- RESUME CONTINUE (R85, R352; Table 03-13): in a FROZEN partition with no final cause, every halt's cause cleared and no grace period
over at the command's stamp, the partition runs towards its thaw, its causes gone, and every halted stream of it restarts; one that its
pipe still stops shows whom it waits for (R342); no other partition, stream, memory or register changes. Else it is refused with 0x021A,
0x021B or 0x021C, in that order. -/
def Obligations.ResumeContinueRestarts : Prop :=  ∀ (s : State) (c : Cmd), s.serves 0x15 c → c.opnd 0 1 = 0 →
    let x := s.part c.part
    let able := x.status = .frozen ∧ ∀ g, x.grace = some g → c.time < g.1
    let final := x.causes.any Cause.final = true
    let cleared := ∀ e ∈ s.streamsOf c.part, s.streamCleared c.part (s.srec e) = true
    (¬ able → exec .resumeContinue s = .next (s.completed c 1 0x21A 0 0)) ∧
    (able → final → exec .resumeContinue s = .next (s.completed c 1 0x21B 0 0)) ∧
    (able → ¬ final → ¬ cleared → exec .resumeContinue s = .next (s.completed c 1 0x21C 0 0)) ∧
    (able → ¬ final → cleared → ∀ b, x.frz = .stopped b →
      ∃ t, exec .resumeContinue s = .next t ∧ answered s t c 0 0 0 ∧
        t.part c.part = { x with
          frz := .thawing b, causes := [], wdAgain := x.causes.contains .watchdog, grace := none, status := .running } ∧
        (∀ q, q ≠ c.part → t.part q = s.part q) ∧
        (∀ e,
          let r := if e ∈ s.streamsOf c.part ∧ (s.srec e).state = 2 then
            { s.srec e with state := 1, cause := 0, due := 0, detail := 0, restarted := true, waiting := false, block := 0, blockAction := 0xFFFF,
                            thawing := true } else s.srec e
          let stopped := if e ∈ s.streamsOf c.part ∧ r.state = 1 ∧ r.thawing = true ∧ r.kindOp = 0x40 then s.blockedAt e else none
          (stopped = none → t.srec e = r) ∧
          (∀ o, stopped = some o → t.srec e = { r with
            waiting := true, block := 0x10000000 + o, blockAction := ((s.streamFlight o).map (·.action)).getD 0xFFFF })) ∧
        ({ t with parts := s.parts, se := s.se, hif := s.hif, es := s.es } : State) = s)

/-- RESUME ABANDON (R86): the run ends, the partition is IDLE with nothing of the run left: its halted streams discarded, its sequencers
gone, both galleys of every core zeroed and sound; core memory stays; the SWITCH completes ABANDONED, the RESUME OK; the forme stays
resident and enabled. A partition that is not FROZEN (R85) is refused with 0x021A. Three clauses are not R86's words: what a queued cache
command leaves in device memory as the run ends is log entry 32 (DEDUCED), what the end of a grace period does is R291, and both are shut
out of the clause on device memory by premises; that the partition's state counts at the command's stamp, and that an ABANDON stamped
after the grace period has ended is refused with 0x021A, is log entry 44 (DEDUCED). -/
def Obligations.ResumeAbandonEndsRun : Prop :=  ∀ (s : State) (c : Cmd), s.serves 0x15 c → c.opnd 0 1 ≠ 0 →
   (s.resumable c = false → exec .resumeAbandon s = .next (s.completed c 1 0x21A 0 0)) ∧
   (s.resumable c = true →
    ∃ t, exec .resumeAbandon s = .next t ∧ t.hif.queue = s.hif.queue.tail ∧
      (t.part c.part).status = .idle ∧ (t.part c.part).frz = .no ∧ (t.part c.part).cur = 0 ∧ (t.part c.part).seqs = [] ∧
      (t.part c.part).flights = [] ∧ (t.part c.part).toks = [] ∧ (t.part c.part).causes = [] ∧ (t.part c.part).arrivals = [] ∧
      (t.part c.part).abandoned = true ∧ (t.part c.part).resident = (s.part c.part).resident ∧
      (∀ q, q ≠ c.part → t.part q = s.part q) ∧ (∀ e ∈ s.streamsOf c.part, (t.srec e).state = 0) ∧
      (∀ f k g, f < 16 → bit (s.lay c.part).fields f = true → k < 64 → g < 2 →
        (∀ x y, x < 128 → y < 192 → tget 0 t.data.galley (galElem (64 * f + k) g x y) = 0) ∧
        tget 0 t.data.galleyP (galKey (64 * f + k) g) = 0) ∧
      t.data.core = s.data.core ∧
      ((s.part c.part).cset = none ∨ ((s.part c.part).cacheQ = [] ∧ (s.part c.part).grace = none) →
        t.data.dev = s.data.dev ∧ t.data.host = s.data.host) ∧
      (∃ r ∈ t.hif.compl, r.tag = (s.part c.part).swTag ∧ r.partition = c.part ∧ r.status = 3) ∧
      (∃ r ∈ t.hif.compl, r.tag = c.tag ∧ r.partition = c.part ∧ r.status = 0) ∧
      t.num = s.num ∧ t.rst = s.rst ∧ t.pwr = s.pwr ∧ t.sec = s.sec)

/-- ALLOC (R306): with a hint that Table 10-6 allows it returns the lowest allowed address at which the whole range is free, and enters it
among the allocations; ZERO clears the range and its poison, PIN makes its board pages PINNED, and every other byte, page and register
stays. A bad hint is refused with 0x060D, no free range with 0x060E, a range to zero that is not served now with 0x050B (R486). The
layout's ranges end within their channels, as R304 keeps them. That PIN sets the entry of a board page to PRESENT and PINNED with its
other fields as the layout gives them, the word 0xC000_0000_0000_0000, is the model's reading (log entry 32, DEDUCED). -/
def Obligations.AllocReturnsLowestFree : Prop :=  ∀ (s : State) (c : Cmd), s.serves 0x20 c → (s.lay c.part).sHi ≤ 1024 → (s.lay c.part).bHi * pageBytes ≤ s.cap →
    let n := c.units * pageBytes
    (s.badHint c = true → exec .alloc s = .next (s.completed c 1 0x60D 0 0)) ∧
    (s.badHint c = false → (∀ a, allocAllowed s c a → ¬ allocFree s c a) → exec .alloc s = .next (s.completed c 1 0x60E 0 0)) ∧
    (∀ a, s.badHint c = false → allocAllowed s c a → allocFree s c a → (∀ b, b < a → allocAllowed s c b → ¬ allocFree s c b) →
      (c.zeroes = true → s.servedRange a n = false → exec .alloc s = .next (s.refused c 0x50B)) ∧
      ((c.zeroes = true → s.servedRange a n = true) →
        ∃ t, exec .alloc s = .next t ∧ answered s t c 0 0 a ∧
          t.mem.allocs = s.mem.allocs ++ [{ addr := a, units := c.units, tier := c.tier, partition := c.part }] ∧
          (∀ k, t.devByte k = if c.zeroes = true ∧ a ≤ k ∧ k < a + n then 0 else s.devByte k) ∧
          (∀ k, a ≤ 64 * k → 64 * k + 64 ≤ a + n → c.zeroes = true → t.data.mark .dev k = 0) ∧
          (c.pins = false → t.mem.pte = s.mem.pte) ∧
          (c.pins = true → t.mem.pte = (cut pageBytes a n).foldl (fun m x => tset (newEntry (boardPage x.1)) m (s.entryAddr (boardPage x.1)) 0xC000000000000000) s.mem.pte) ∧
          ({ t with data := s.data, mem := s.mem, hif := s.hif, es := s.es } : State) = s ∧
          ({ t.mem with allocs := s.mem.allocs, pte := s.mem.pte } : MemRegs) = s.mem ∧
          ({ t.data with dev := s.data.dev, devP := s.data.devP, devZeroed := s.data.devZeroed } : Data) = s.data))

/-- MAP and UNMAP (R311): the page's word is written, PRESENT cleared, or the command is refused with the first reason that holds. A page
is present after its MAP and absent after its UNMAP, whatever it was (R311). -/
def Obligations.MapUnmapWritePage : Prop :=
  ((∀ (s : State) (c : Cmd), s.serves 0x22 c →
    (s.mapCode c = 0 → exec .map s = .next { s.completed c 0 0 0 0 with
      mem := { s.mem with pte := tset (newEntry (pageKey (c.opnd 0 8))) s.mem.pte (s.entryAddr (pageKey (c.opnd 0 8))) c.mapWord } }) ∧
    (s.mapCode c ≠ 0 → exec .map s = .next (s.refused c (s.mapCode c)))) ∧
  (∀ (s : State) (c : Cmd), s.serves 0x23 c →
    let k := pageKey (c.opnd 0 8)
    (s.unmapCode c = 0 → exec .unmap s = .next { s.completed c 0 0 0 0 with
      mem := { s.mem with pte := tset (newEntry k) s.mem.pte (s.entryAddr k) (BitVec.ofNat 64 (putBit (s.pteRaw k).toNat 63 false)) } }) ∧
    (s.unmapCode c ≠ 0 → exec .unmap s = .next (s.refused c (s.unmapCode c))))) ∧
  ((∀ (s t : State) (c : Cmd), s.serves 0x22 c → s.mapCode c = 0 → exec .map s = .next t → t.pagePresent (c.opnd 0 8) = true) ∧
  (∀ (s t : State) (c : Cmd), s.serves 0x23 c → s.unmapCode c = 0 → exec .unmap s = .next t → t.pagePresent (c.opnd 0 8) = false))

/-- COPY and EXPORT begin (R418, R254): the command runs on in the background and completes later, its requests offered at the weirs on
the paths of its two sides, a COPY's host side at 0x148 or 0x149 (R314); the export epoch advances. What poison that the source holds then
does to the requests is log entry 29 (DESIGN CHOICE), so the source here holds none; that a request is offered once the one before it has
left is log entry 38. -/
def Obligations.CopyExportBegin : Prop :=  (∀ (s : State) (c : Cmd), s.serves 0x24 c →
    (s.copyCode c = 0 → Run.origin (s.copySource c) = 0 →
      exec .copy s = .next (({ s with hif := { s.hif with
        queue := s.hif.queue.tail, history := (s.begun c).hif.history,
        running := s.hif.running ++ [{ cmd := c, bytesDone := 0, aborted := false, header := [], epoch := 0 }] } } : State).askTransfer c
          (if c.opnd 20 1 = 0 then [(0x148, c.opnd 16 4)] else s.weirsOf (c.opnd 0 8) (c.opnd 16 4) false)
          (if c.opnd 20 1 = 1 then [(0x149, c.opnd 16 4)] else s.weirsOf (c.opnd 8 8) (c.opnd 16 4) true))) ∧
    (s.copyCode c ≠ 0 → exec .copy s = .next (s.refused c (s.copyCode c)))) ∧
  (∀ (s : State) (c : Cmd), s.serves 0x25 c →
    (s.exportCode c = 0 → Run.origin (s.exportSource c) = 0 → ∃ (t : State) (h : List Byte), exec .exportCmd s = .next (t.askTransfer c
        (firstBytes (exportPayload c) (joinWeirs ((exportArrays c).flatMap (fun a => s.weirsOf a.1 a.2 false)))) [(0x149, 128 + exportPayload c)]) ∧
      t.part c.part = { s.part c.part with exportEpoch := (s.part c.part).exportEpoch + 1 } ∧ (∀ q, q ≠ c.part → t.part q = s.part q) ∧
      t.hif.running = s.hif.running ++
        [{ cmd := c, bytesDone := 0, aborted := false, header := h, epoch := ((s.part c.part).exportEpoch + 1).toNat }] ∧
      ({ t with parts := s.parts, hif := { t.hif with running := s.hif.running } } : State) = s.begun c) ∧
    (s.exportCode c ≠ 0 → exec .exportCmd s = .next (s.refused c (s.exportCode c))))

/-- COPY_COMPLETE (R418): with sound data and no abort, once the requests of the COPY have left their weirs (at the model clock `u`),
every byte of the source stands at the destination, the bytes outside the destination stay, and the command completes OK with its length;
while they never leave, the state stays. Here the source is host memory or device memory and the destination the other, each within one
device page. Until when the requests hold it up is log entry 38 (DESIGN CHOICE). EXPORT_COMPLETE and what ends a background command early
(R253, R419, R522): with sound data the whole header and payload stand in the host buffer once its requests have left their weirs (at the
model clock `u`; log entry 38, DESIGN CHOICE); an aborted COPY or EXPORT posts ABORTED with the length it reached, a free value (log entry
4). -/
def Obligations.CopyExportMoveBytes : Prop :=
  (∀ (s : State) (b : Bg), lookupBy (fun x => x.cmd.stamp == b.cmd.stamp && x.cmd.op == 0x24) s.hif.running = some b → b.aborted = false →
    s.hostUp = true →
    let c := b.cmd
    let src := c.opnd 0 8
    let dst := c.opnd 8 8
    let n := c.opnd 16 4
    (s.transferLeft c = none → exec (.copyComplete c.stamp) s = .next s) ∧
    ∀ u, s.transferLeft c = some u →
      let m := s.toClk u
      (c.opnd 20 1 = 1 → 0 < n → src < hostBase → src / pageBytes = (src + n - 1) / pageBytes → (m.devRead src n).origin = 0 →
        ∃ t, exec (.copyComplete c.stamp) s = .next t ∧
          (∀ k, tget 0 t.data.host k = if dst ≤ k ∧ k < dst + n then m.devByte (src + (k - dst)) else tget 0 m.data.host k) ∧
          t.data.dev = m.data.dev ∧ t.parts = m.parts ∧
          ∃ r ∈ t.hif.compl, r.tag = c.tag ∧ r.status = 0 ∧ r.value = n) ∧
      (c.opnd 20 1 = 0 → 0 < n → dst + n ≤ hostBase → dst / pageBytes = (dst + n - 1) / pageBytes →
        (∀ i, i < n → tget 0 m.data.hostP ((src + i) / 8) = 0) →
        ∃ t, exec (.copyComplete c.stamp) s = .next t ∧
          (∀ k, t.devByte k = if dst ≤ k ∧ k < dst + n then tget 0 m.data.host (src + (k - dst)) else m.devByte k) ∧
          t.data.host = m.data.host ∧ t.parts = m.parts ∧
          ∃ r ∈ t.hif.compl, r.tag = c.tag ∧ r.status = 0 ∧ r.value = n)) ∧
  (∀ (s : State) (b : Bg) (op : Nat), op = 0x24 ∨ op = 0x25 →
    lookupBy (fun x => x.cmd.stamp == b.cmd.stamp && x.cmd.op == op) s.hif.running = some b → s.hostUp = true →
    let c := b.cmd
    let whole (m : State) := exportWhole b.header (Run.plain (m.exportSource c)) ++ Run.plain (m.exportSource c)
    (op = 0x25 → b.aborted = false → (s.transferLeft c = none → exec (.exportComplete c.stamp) s = .next s) ∧
      ∀ u, s.transferLeft c = some u →
        let m := s.toClk u
        Run.origin (m.exportSource c) = 0 →
        ∃ t, exec (.exportComplete c.stamp) s = .next t ∧
          (∀ k, tget 0 t.data.host k = if c.inl 0x48 8 ≤ k ∧ k < c.inl 0x48 8 + (whole m).length then (whole m).getD (k - c.inl 0x48 8) 0
            else tget 0 m.data.host k) ∧
          t.data.dev = m.data.dev ∧ t.parts = m.parts ∧
          ∃ q ∈ t.hif.compl, q.tag = c.tag ∧ q.status = 0 ∧ q.value = (whole m).length ∧ q.detail = b.epoch) ∧
    (b.aborted = true →
      ∃ t, exec (if op = 0x24 then .copyComplete c.stamp else .exportComplete c.stamp) s = .next t ∧ t.parts = s.parts ∧
        ∃ q ∈ t.hif.compl, q.tag = c.tag ∧ q.status = 2 ∧ q.value ≤ (if op = 0x24 then c.opnd 16 4 else (whole s).length)))

/-- CACHE_SET (R277, R278): a record that passes its check is registered for the partition, which then holds no slot; CACHE_GIVE (R285):
the pages go to the tail of the engine's free ring, in order; a refusal changes neither partitions nor memory. -/
def Obligations.CacheSetAndGive : Prop :=  (∀ (s : State) (c : Cmd), s.serves 0x30 c →
    (s.cacheSetOk c.part (c.inl 0 8) = true → (s.part c.part).status = .idle →
      exec .cacheSet s = .next { s.completed c 0 0 0 0 with
        parts := tset Part.init s.parts c.part { s.part c.part with cset := some (c.inl 0 8), csetRec := s.cacheCopy (c.inl 0 8), held := [] } }) ∧
    (s.cacheSetOk c.part (c.inl 0 8) = false →
      ∃ t, exec .cacheSet s = .next t ∧ answered s t c 1 0x641 0 ∧ t.parts = s.parts ∧ t.data = s.data) ∧
    (s.cacheSetOk c.part (c.inl 0 8) = true → (s.part c.part).status ≠ .idle →
      ∃ t, exec .cacheSet s = .next t ∧ answered s t c 1 0x642 0 ∧ t.parts = s.parts ∧ t.data = s.data)) ∧
  (∀ (s : State) (c : Cmd) (cs : CacheSet) (i : Nat), s.serves 0x31 c → s.cset c.part = some cs → s.cacheIndex cs (c.inl 0 2) = some i →
    let pages := (upTo (c.inl 2 2)).map (fun k => c.inl (4 + 8 * k) 8)
    let e := s.cacheEng cs i
    (∀ a ∈ pages, a % 262144 = 0 ∧ s.inChannel true e.engine a 262144 = true ∧ a ∉ s.ringPages e ∧ a ∉ s.usedPages cs i) →
    (dedup pages).length = pages.length →
    (e.count + (s.usedPages cs i).length + pages.length ≤ e.freeCap →
      exec .cacheGive s = .next ((pages.foldl (fun s a => s.givePage cs i a) (s.begun c)).ok c 0)) ∧
    (e.freeCap < e.count + (s.usedPages cs i).length + pages.length → exec .cacheGive s = .next (s.completed c 1 0x644 0 0))) ∧
  (∀ (s : State) (c : Cmd), s.cset c.part = none →
    (s.serves 0x31 c → exec .cacheGive s = .next (s.completed c 1 0x647 0 0)) ∧
    (s.serves 0x32 c → exec .cacheJoin s = .next (s.completed c 1 0x647 0 0)) ∧
    (s.serves 0x33 c → exec .cacheLeave s = .next (s.completed c 1 0x647 0 0)))

/-- CACHE_JOIN and CACHE_LEAVE (R287): in an IDLE partition they act at once, and the slot then reads ACTIVE with length 0 and its SEQ_ID,
or FREE, and no earlier step counts as held (R288); in a partition that runs they wait for its next boundary, and the command stays
incomplete. Refusals are covered: a slot that the set does not have, and a JOIN of a slot that is not FREE or a LEAVE of one that is
(R289, Table 09-16); that a LEAVE of a slot which the set lacks is refused with 0x0646 is the model's reading (log entry 32, DEDUCED). -/
def Obligations.CacheJoinLeave : Prop :=  (∀ (s : State) (c : Cmd) (cs : CacheSet), s.serves 0x32 c → s.cset c.part = some cs → c.inl 0 2 < cs.slots →
    (s.seqEntry cs (c.inl 0 2)).state = 0 →
    ((s.part c.part).status = .idle → cs.seqTable + 16 * cs.slots ≤ hostBase →
      ∃ t, exec .cacheJoin s = .next t ∧ answered s t c 0 0 0 ∧
        t.seqEntry cs (c.inl 0 2) = { seqId := c.inl 4 4, length := 0, state := 1, bucket := 0xFF, row := 0xFFFF, pending := 0 } ∧
        (∀ j, j ≠ c.inl 0 2 → j < cs.slots → t.seqEntry cs j = s.seqEntry cs j) ∧ t.data.host = s.data.host ∧
        t.parts = tset Part.init s.parts c.part { s.part c.part with held := (s.part c.part).held.erase (c.inl 0 2) }) ∧
    ((s.part c.part).status ≠ .idle → ∃ t, exec .cacheJoin s = .next t ∧ t.hif.queue = s.hif.queue.tail ∧ t.hif.compl = s.hif.compl ∧
      t.data = s.data ∧ (t.part c.part).cacheQ.length = (s.part c.part).cacheQ.length + 1 ∧ ∀ q, q ≠ c.part → t.part q = s.part q)) ∧
  (∀ (s : State) (c : Cmd) (cs : CacheSet), s.serves 0x33 c → s.cset c.part = some cs → c.inl 0 2 < cs.slots →
    (s.seqEntry cs (c.inl 0 2)).state ≠ 0 →
    ((s.part c.part).status = .idle → cs.seqTable + 16 * cs.slots ≤ hostBase →
      ∃ t, exec .cacheLeave s = .next t ∧ answered s t c 0 0 0 ∧ (t.seqEntry cs (c.inl 0 2)).state = 0 ∧
        (t.seqEntry cs (c.inl 0 2)).pending = 0 ∧
        t.parts = tset Part.init s.parts c.part { s.part c.part with held := (s.part c.part).held.erase (c.inl 0 2) }) ∧
    ((s.part c.part).status ≠ .idle → ∃ t, exec .cacheLeave s = .next t ∧ t.hif.queue = s.hif.queue.tail ∧ t.hif.compl = s.hif.compl ∧
      t.data = s.data ∧ (t.part c.part).cacheQ.length = (s.part c.part).cacheQ.length + 1 ∧ ∀ q, q ≠ c.part → t.part q = s.part q)) ∧
  (∀ (s : State) (c : Cmd) (cs : CacheSet), s.cset c.part = some cs →
    (s.serves 0x32 c → cs.slots ≤ c.inl 0 2 ∨ (s.seqEntry cs (c.inl 0 2)).state ≠ 0 →
      exec .cacheJoin s = .next (s.completed c 1 0x645 0 0)) ∧
    (s.serves 0x33 c → cs.slots ≤ c.inl 0 2 ∨ (s.seqEntry cs (c.inl 0 2)).state = 0 →
      exec .cacheLeave s = .next (s.completed c 1 0x646 0 0)))

/-- POWER (R489, R490): a command that passes every check marks its domains busy and starts their transitions; one that does not is
refused with the first reason of Table 16-6 that holds. POWER_COMPLETE (R490 to R492): every domain of the command stands in its new state
with its new rate, busy no longer; a domain that a thermal trip took is Off and TRIPPED; every other domain stays. -/
def Obligations.PowerMovesDomains : Prop :=
  (∀ (s : State) (c : Cmd), s.serves 0x40 c →
    (s.powerCode c = 0 → ∃ t, exec .power s = .next t ∧ t.hif.queue = s.hif.queue.tail ∧ t.hif.compl = s.hif.compl ∧
      t.pwr.cmd = some { cmd := c, tripped := false, targets := (s.expand c).map (fun e =>
        (e.target, stateOf e.st, if e.rate = 0xFF then (s.dom e.target).rate else e.rate)) } ∧
      (∀ d, t.dom d = if (s.expand c).any (fun e => e.target == d) then { s.dom d with busy := true } else s.dom d) ∧
      ({ t with pwr := s.pwr, hif := s.hif } : State) = s) ∧
    (s.powerCode c ≠ 0 → exec .power s = .next (s.refused c (s.powerCode c)))) ∧
  (∀ (s : State) (x : PwrCmd) (unlocked : List Nat) (faults : List LaneFault), s.pwr.cmd = some x → (x.targets.map (·.1)).Nodup →
    ∃ t, exec (.powerComplete unlocked faults) s = .next t ∧ t.pwr.cmd = none ∧
      (∀ y ∈ x.targets, y.1 ∉ unlocked → ¬ (x.tripped = true ∧ rated y.1 = true) →
        t.dom y.1 = { s.dom y.1 with st := y.2.1, rate := y.2.2, busy := false, lockFail := false }) ∧
      (∀ y ∈ x.targets, x.tripped = true → rated y.1 = true →
        t.dom y.1 = { s.dom y.1 with st := .off, busy := false, lockFail := false, tripped := true }) ∧
      (∀ d, d ∉ x.targets.map (·.1) → t.dom d = s.dom d) ∧
      (unlocked = [] → x.tripped = false → ∃ r ∈ t.hif.compl, r.tag = x.cmd.tag ∧ r.status = 0) ∧
      (x.tripped = true → ∃ r ∈ t.hif.compl, r.tag = x.cmd.tag ∧ r.status = 1 ∧ r.reason = 0x507))

/-- REG_READ and REG_WRITE (R417): the value of the register and what the access does to it; 0x011B for HIF_NUDGE and for an access that
is not legal; the reason of the block for a refused write. One that acted at its stamp completes with what it did there, and acts no
second time; which ones act at the stamp and which, behind a command that has still to act, when their row runs is log entry 28 (DESIGN
CHOICE). ABORT (R421, R422) answers what it decided at its stamp: NOT_FOUND, a refusal, or, once its target has completed, OK or
ALREADY_COMPLETE with the target's sequence number; until then it waits at the front (log entry 29, DEDUCED). -/
def Obligations.RegisterAndAbortCommands : Prop :=
  ((∀ (s : State) (c : Cmd), s.serves 3 c → c.acted = none → c.opnd 0 4 ≠ 0x30 →
    (∀ v t, (s.begun c).readReg (c.opnd 0 4) (c.opnd 4 1) = some (v, t) → exec .regRead s = .next (t.ok c v)) ∧
    (regAccess (c.opnd 0 4) (c.opnd 4 1) = none → exec .regRead s = .next (s.completed c 1 0x11B 0 0))) ∧
  (∀ (s : State) (c : Cmd), s.serves 4 c → c.acted = none → c.opnd 0 4 ≠ 0x30 →
    (∀ t, (s.begun c).writeReg (c.opnd 0 4) (c.opnd 4 1) (c.opnd 8 8) true = some (0, t) → exec .regWrite s = .next (t.ok c 0)) ∧
    (∀ r t, r ≠ 0 → (s.begun c).writeReg (c.opnd 0 4) (c.opnd 4 1) (c.opnd 8 8) true = some (r, t) →
      exec .regWrite s = .next (t.deny c r)) ∧
    (regAccess (c.opnd 0 4) (c.opnd 4 1) = none → exec .regWrite s = .next (s.completed c 1 0x11B 0 0))) ∧
  (∀ (s : State) (c : Cmd), c.acted = none → c.opnd 0 4 = 0x30 →
    (s.serves 3 c → exec .regRead s = .next (s.completed c 1 0x11B 0 0)) ∧
    (s.serves 4 c → exec .regWrite s = .next (s.completed c 1 0x11B 0 0))) ∧
  (∀ (s : State) (c : Cmd) (v : Nat), c.acted = some (0, v) →
    (s.serves 3 c → exec .regRead s = .next (s.completed c 0 0 v 0)) ∧ (s.serves 4 c → exec .regWrite s = .next (s.completed c 0 0 v 0))) ∧
  (∀ (s : State) (c : Cmd) (r v : Nat), r ≠ 0 → c.acted = some (r, v) →
    (s.serves 3 c → exec .regRead s = .next (s.refused c r)) ∧ (s.serves 4 c → exec .regWrite s = .next (s.refused c r)))) ∧
  (∀ (s : State) (c : Cmd) (o : AbortOut), s.front (· == 1) = some c → lookupBy (fun a => a.1 == c.stamp) s.hif.aborts = some (c.stamp, o) →
    (o = .notFound → exec .abort s = .next (s.completed c 5 0 0 0)) ∧
    (∀ r, o = .refused r → exec .abort s = .next (s.completed c 1 r 0 0)) ∧
    (∀ k h q, lookupBy (fun x => x.stamp == k) s.hif.history = some h → h.st = .done q →
      (o = .after k → exec .abort s = .next (s.completed c 4 0 q 0)) ∧ (o = .first k → exec .abort s = .next (s.completed c 0 0 q 0))) ∧
    (∀ k h, lookupBy (fun x => x.stamp == k) s.hif.history = some h → h.st.isDone = false → o = .after k ∨ o = .first k →
      exec .abort s = .next s))

/-- LOOP and ENDLOOP (R67): a loop opens at the slot of its record; each iteration begins one period after the one before, COUNT of them.
-/
def Obligations.LoopsRepeat : Prop :=  (∀ (s : State) (p a : Nat) (c : Ctx) (q : Seqr), issueCtx s 1 p a = some c → (s.part p).seqr a = some q →
    ∃ t, exec (.loop p a) s = .next t ∧ seqMoved (s.toCycle p c.point) t p a (q.moved c (c.idx + 1) (fun l =>
      { body := c.idx + 1, iter := 0, count := bits c.r.arg 31 16, period := bits c.r.arg 15 0, base := c.base + c.r.atSlot } :: l))) ∧
  (∀ (s : State) (p a : Nat) (c : Ctx) (q : Seqr) (fr : LoopFrame), issueCtx s 2 p a = some c → (s.part p).seqr a = some q →
    (s.part p).topLoop c = some fr →
    ∃ t, exec (.endloop p a) s = .next t ∧
      (fr.iter + 1 < fr.count → seqMoved (s.toCycle p c.point) t p a
        (q.moved c fr.body (fun l => { fr with iter := fr.iter + 1, base := fr.base + fr.period } :: l.drop 1))) ∧
      (¬ fr.iter + 1 < fr.count → seqMoved (s.toCycle p c.point) t p a (q.moved c (c.idx + 1) (fun l => l.drop 1))))

/-- RENDEZVOUS and END (R88, R90, R93): the agent waits, or has ended; the last agent's arrival starts the watchdog with its setting, or
makes the run ready to complete. -/
def Obligations.RendezvousAndEnd : Prop :=  (∀ (s : State) (p a : Nat) (c : Ctx) (q : Seqr), issueCtx s 3 p a = some c → (s.part p).seqr a = some q →
    let u := s.toCycle p c.point
    ∃ t, exec (.rendezvous p a) s = .next t ∧ (t.part p).seqr a = some { q with waiting := true, pc := c.idx, last := c.point } ∧
      (∀ b, b ≠ a → (t.part p).seqr b = (s.part p).seqr b) ∧ (t.part p).rvEntry = bits c.r.arg 11 0 ∧
      (∀ r, r ≠ p → t.part r = u.part r) ∧ ({ t with parts := u.parts } : State) = u ∧
      ((t.part p).allWaiting = true → (t.part p).wdRun = some 0 ∧ (t.part p).wdLimit = s.watchdog p ∧ (t.part p).rvAt.isSome) ∧
      ((t.part p).allWaiting = false → (t.part p).rvAt = (s.part p).rvAt)) ∧
  (∀ (s : State) (p a : Nat) (c : Ctx) (q : Seqr), issueCtx s 7 p a = some c → (s.part p).seqr a = some q →
    let u := s.toCycle p c.point
    ∃ t, exec (.endProg p a) s = .next t ∧ (t.part p).seqr a = some { q with ended := true, pc := c.idx, last := c.point } ∧
      (∀ b, b ≠ a → (t.part p).seqr b = (s.part p).seqr b) ∧ (∀ r, r ≠ p → t.part r = u.part r) ∧
      ({ t with parts := u.parts } : State) = u ∧
      ((t.part p).allEnded = true → (t.part p).ended.isSome) ∧ ((t.part p).allEnded = false → (t.part p).ended = (s.part p).ended))

/-- STEP (R153, R287): the agent's step number advances by one and its sequencer goes on; an agent that is not the first at the boundary
changes nothing else where the partition compares no digests: that the first agent at a boundary, and no other, does what R287 asks of it
is the model's reading (log entry 41, DEDUCED). FORME_NOP (R559): past its checks it only sends its token. -/
def Obligations.StepAndNopRecords : Prop :=  (∀ (s : State) (p a : Nat) (c : Ctx) (q : Seqr), issueCtx s 6 p a = some c → (s.part p).seqr a = some q →
    let u := s.toCycle p c.point
    ∃ t, exec (.stepMark p a) s = .next t ∧ (t.part p).seqr a = some (({ q with steps := q.steps + 1 } : Seqr).moved c (c.idx + 1) id) ∧
      (∀ b, b ≠ a → (t.part p).seqr b = (s.part p).seqr b) ∧ t.num = u.num ∧ t.data.core = s.data.core ∧ t.data.galley = s.data.galley ∧
      (q.steps ≠ (s.part p).seqs.foldl (fun m q => max m q.steps) 0 → (s.part p).replica = none →
        seqMoved u t p a (({ q with steps := q.steps + 1 } : Seqr).moved c (c.idx + 1) id))) ∧
  (∀ (s u : State) (p a : Nat) (c : Ctx) (q : Seqr), Issues s u 0 p a c true none [] → (s.part p).seqr a = some q →
    exec (.formeNop p a) s = .next ((u.issued c).sendToken p c.r.tokOut a c.point) ∧
    (c.r.tokOut = 0xFFFF → c.r.tokIn = 0xFFFF → ∃ t, exec (.formeNop p a) s = .next t ∧ seqMoved u t p a (q.moved c (c.idx + 1) id)))

/-- A record whose awaited token has not fully arrived at its issue is LATE_TOKEN (R77, R559): it is skipped without effect on any data,
the breach of class 1 names its agent, and its partition gets a freeze cause. That the sequencer goes on to its next record is the model's
reading (log entry 25, DEDUCED). A record whose descriptor does not lie in the binding's parameter block is a COLLISION (R72): no effect
on any data, and the partition gets a freeze cause. That its RESOURCE is 0 and that the sequencer goes on to its next record are the
model's readings (log entry 25, DEDUCED). An MMA that its descriptor (R139), an action on the lanes (R136) or the ownership entries (R72)
forbid collides: RESOURCE 0 for the first two, the resource for the last, and then its galley is poisoned (R75); the galley's elements and
the core memory stay. The order of the checks and that the sequencer goes on are the model's readings (log entry 25, DEDUCED). -/
def Obligations.RecordChecksBreach : Prop :=
  (∀ (s u : State) (op n p a : Nat) (i : Instr) (c : Ctx) (b : List Byte), (op, n, i) ∈ engineRows p a → issueCtx s op p a = some c →
    u = s.toCycle p c.point → (u.part p).image.descOf c.bind c.r.arg n = some b → u.tokCheck c = .late true →
    ∃ t, exec i s = .next t ∧ t = (u.step1 c).recordLate p c.r.tokIn c.idx c.point ∧ t.data = s.data ∧ t.num = u.num ∧
      Cause.breach ∈ (t.part p).causes ∧ (∀ r, r ≠ p → t.part r = u.part r)) ∧
  (∀ (s u : State) (op n p a : Nat) (i : Instr) (c : Ctx), (op, n, i) ∈ engineRows p a → issueCtx s op p a = some c →
    u = s.toCycle p c.point → (u.part p).image.descOf c.bind c.r.arg n = none → u.tokCheck c = .fine →
    ∃ t, exec i s = .next t ∧ t = (u.step1 c).breach p c.point (BreachInfo.collision a c.idx 0 none) ∧ t.data = s.data ∧ t.num = u.num ∧
      Cause.breach ∈ (t.part p).causes ∧ (∀ r, r ≠ p → t.part r = u.part r)) ∧
  (∀ (s u : State) (p a : Nat) (c : Ctx) (b : List Byte), issueCtx s 0x10 p a = some c → agNum a < 1024 →
    u = s.toCycle p c.point → (u.part p).image.descOf c.bind c.r.arg 64 = some b → u.tokCheck c = .fine →
    let d := MmaDesc.parse b
    (d.valid = false → exec (.mma p a) s = .next ((u.step1 c).breach p c.point (BreachInfo.collision a c.idx 0 none))) ∧
    (∀ x, d.valid = true → (u.part p).lanesBusy a (u.clkAt p c.point) = some x →
      exec (.mma p a) s = .next ((u.step1 c).breach p c.point (BreachInfo.collision a c.idx 0 (some x)))) ∧
    (∀ res o, d.valid = true → (u.part p).lanesBusy a (u.clkAt p c.point) = none →
      ownFail (u.part p) c 0 [resGalley (agNum a) d.gal] = some (res, o) →
      ∃ t, exec (.mma p a) s = .next t ∧ t.data.galley = s.data.galley ∧ t.data.core = s.data.core ∧ t.num = u.num ∧
        tget 0 t.data.galleyP (galKey (bits (resGalley (agNum a) d.gal) 15 0) (bits (resGalley (agNum a) d.gal) 16 16)) ≠ 0 ∧
        Cause.breach ∈ (t.part p).causes))

/-- MMA (R135, R137, R150, R153): past its checks every element of its region becomes what its own chunk sums, added in ascending order to
its old value (ACC) or to zero, make it; the galley counts the chunks; every other galley element, the core memory and the other memories
stay. -/
def Obligations.MmaComputesElements : Prop :=  ∀ (s u : State) (p a : Nat) (c : Ctx) (b : List Byte),
    let d := MmaDesc.parse b
    (u.part p).image.descOf c.bind c.r.arg 64 = some b →
    Issues s u 0x10 p a c d.valid ((u.part p).lanesBusy a (u.clkAt p c.point)) [resGalley (agNum a) d.gal] →
    let v := u.issued c
    let core := agNum a
    let cps := (stepCost d.fmtA d.fmtB).2
    let c0 := if d.acc then tget 0 s.data.galleyN (galKey core d.gal) else 0
    let ins (m n g : Nat) := ((upTo cps).map (g * cps + ·) |>.filter (· < d.chunks)).map (fun j =>
      (j, v.chunkIn core d.aAddr d.aStride d.fmtA d.kindA d.aScale d.k m j, v.chunkIn core d.bAddr d.bStride d.fmtB d.kindB d.bScale d.k n j))
    ∃ t, exec (.mma p a) s = .next t ∧
      (∀ m n, m < d.m → n < d.n → tget 0 t.data.galley (galElem core d.gal m n) =
        (upTo (cdiv d.chunks cps)).foldl (fun x g =>
          fp32Code (laneStep (v.srKey c d.opId (d.row0 + m) (d.col0 + n)) (d.fmtA = 0) (d.fmtB = 0) c0 d.kBase (ins m n g) (fp32 x)).1)
          (if d.acc then tget 0 s.data.galley (galElem core d.gal m n) else 0)) ∧
      (∀ k, (∀ m n, m < d.m → n < d.n → k ≠ galElem core d.gal m n) → tget 0 t.data.galley k = tget 0 s.data.galley k) ∧
      tget 0 t.data.galleyN (galKey core d.gal) = min 256 (c0 + d.chunks) ∧
      ({ t.data with galley := s.data.galley, galleyN := s.data.galleyN, galleyP := s.data.galleyP } : Data) = s.data ∧
      ∃ f, (t.part p).flights = (s.part p).flights ++ [f] ∧ f.agent = a ∧ f.action = c.idx ∧ f.held = [resGalley core d.gal]

/-- COMBINE (R154): every element of the region takes the FP32 word of its place in core memory by one stochastically rounded addition;
every other galley element and every memory stay. DRAIN (R141, R211): with DEST 2 the region goes out as accumulate-writes, one for each
run of up to 64 columns, and no memory changes yet; with DEST 0 or 1 and a format without scales each row stands converted at its address,
and the galleys and other memories stay. -/
def Obligations.TilesCombinedAndDrained : Prop :=
  (∀ (s u : State) (p a : Nat) (c : Ctx) (b : List Byte),
    let d := MmaDesc.parse b
    (u.part p).image.descOf c.bind c.r.arg 64 = some b →
    Issues s u 0x12 p a c d.combineValid ((u.part p).lanesBusy a (u.clkAt p c.point)) [resGalley (agNum a) d.gal] →
    let v := u.issued c
    let core := agNum a
    ∃ t, exec (.combine p a) s = .next t ∧
      (∀ m n, m < d.m → n < d.n → tget 0 t.data.galley (galElem core d.gal m n) =
        fp32Code (addRound fp32F (.stochastic (srRandom (v.srKey c d.opId (d.row0 + m) (d.col0 + n)) (0x80000000 + d.kBase)))
          (fp32 (tget 0 s.data.galley (galElem core d.gal m n)))
          (fp32 (leNat (Run.plain (s.read .core (coreAt core (d.aAddr + m * d.aStride + 4 * n)) 4))))).v) ∧
      (∀ k, (∀ m n, m < d.m → n < d.n → k ≠ galElem core d.gal m n) → tget 0 t.data.galley k = tget 0 s.data.galley k) ∧
      ({ t.data with galley := s.data.galley, galleyN := s.data.galleyN, galleyP := s.data.galleyP } : Data) = s.data ∧
      ∃ f, (t.part p).flights = (s.part p).flights ++ [f] ∧ f.agent = a ∧ f.action = c.idx ∧ f.held = [resGalley core d.gal]) ∧
  (∀ (s u : State) (p a : Nat) (c : Ctx) (b : List Byte),
    let d := DrainDesc.parse b
    (u.part p).image.descOf c.bind c.r.arg 48 = some b →
    Issues s u 0x11 p a c (u.drainValid p d) none (u.drainNames p (agNum a) d) →
    let core := agNum a
    ∃ t, exec (.drain p a) s = .next t ∧ t.data.galley = s.data.galley ∧ t.data.dev = s.data.dev ∧ t.data.host = s.data.host ∧
      t.data.sram = s.data.sram ∧ t.data.store = s.data.store ∧ t.data.staging = s.data.staging ∧
      (∃ f, (t.part p).flights = (s.part p).flights ++ [f] ∧ f.agent = a ∧ f.action = c.idx ∧ f.held = u.drainNames p core d) ∧
      (d.dest = 2 → t.data = s.data ∧ t.num = u.num ∧ t.accq = s.accq ++ u.drainWrites c d) ∧
      (d.dest ≠ 2 → t.accq = s.accq) ∧
      (d.dest ≠ 2 → d.kind = 0 → isMx d.fmt = false → d.m = 1 ∨ rowBytes d.fmt d.n ≤ d.stride → ∀ r, r < d.m →
        let row := (rowEncode d.fmt ((s.drainVals core d).getD r [])).1
        Run.plain (t.read .core (coreAt (if d.dest = 1 then d.unit else core) (d.addr + r * d.stride)) row.length) = row))

/-- Every vector row past its checks runs its operation at its issue (R168 to R173, R180 to R185): it is in flight with its banks, its
flags accrue, and the galleys and every memory but its core's own stay. The cycles of its NaN and of its poison are free (log entry 4). -/
def Obligations.VectorRowsRun : Prop :=  ∀ (s u : State) (op p a : Nat) (i : Instr) (c : Ctx) (b : List Byte), (op, i) ∈ vectorRows p a →
    let d := VecDesc.parse b
    (u.part p).image.descOf c.bind c.r.arg 64 = some b →
    Issues s u op p a c (d.valid op) ((u.part p).vecBusy a) (u.vecNames p op (agNum a) d) →
    ∃ t, exec i s = .next t ∧ t = (u.issued c).runVector c op d ∧
      (∃ f, (t.part p).flights = (s.part p).flights ++ [f] ∧ f.agent = a ∧ f.action = c.idx ∧ f.held = u.vecNames p op (agNum a) d) ∧
      tget 0 s.num.ve (agNum a) &&& tget 0 t.num.ve (agNum a) = tget 0 s.num.ve (agNum a) ∧
      ({ t.data with core := s.data.core, coreP := s.data.coreP } : Data) = s.data ∧
      t.mem = u.mem ∧ t.lnk = s.lnk ∧ t.hif = s.hif ∧ t.rst = s.rst ∧ t.se = s.se

/-- The result of a vector action (R164 to R173, R180 to R185): with an unscaled FMT_OUT and nothing else to write, every row of OUT holds
the converted results, and every byte of the core's memory outside OUT stays. Where the results of ROWRED and COLRED stand and how far
apart (`outShape`, `outFmt`, `vectorLine`) is the model's reading (log entry 11, DEDUCED). The statistics of SOFTMAX, RMSNORM and
LAYERNORM (R182, R184) and the remainders of SPLIT (R173) stand where the descriptor says. -/
def Obligations.VectorResultStands : Prop :=
  (∀ (s u : State) (op p a : Nat) (i : Instr) (c : Ctx) (b : List Byte), (op, i) ∈ vectorRows p a →
    let d := VecDesc.parse b
    (u.part p).image.descOf c.bind c.r.arg 64 = some b →
    Issues s u op p a c (d.valid op) ((u.part p).vecBusy a) (u.vecNames p op (agNum a) d) →
    isMx (d.outFmt op) = false → perTensor (d.outFmt op) d.oScale = false → writesStats op = false → op ≠ 0x2E →
    let orows := (d.outShape op).1
    let pitch := if orows = 1 then 0 else d.pitch (d.outFmt op)
    let row (r : Nat) := Run.plain (vecEncode (d.outFmt op) (vectorLine (u.issued c) (agNum a) op d r)).1
    ∃ t, exec i s = .next t ∧
      (∀ r, r < orows → Run.plain (t.read .core (coreAt (agNum a) (d.out + r * pitch)) (row r).length) = row r) ∧
      (∀ k, (∀ r, r < orows → k < coreAt (agNum a) (d.out + r * pitch) ∨ coreAt (agNum a) (d.out + r * pitch) + (row r).length ≤ k) →
        tget 0 t.data.core k = tget 0 s.data.core k)) ∧
  (∀ (s u : State) (op p a : Nat) (i : Instr) (c : Ctx) (b : List Byte), (op, i) ∈ vectorRows p a →
    let d := VecDesc.parse b
    (u.part p).image.descOf c.bind c.r.arg 64 = some b →
    Issues s u op p a c (d.valid op) ((u.part p).vecBusy a) (u.vecNames p op (agNum a) d) →
    let out (r : Nat) := vecRow op d.func (fp32 d.const) ((u.issued c).vecRowAt (agNum a) op d r)
    ∃ t, exec i s = .next t ∧
      (writesStats op = true → ∀ r x y z, r < d.rows → (out r).stats = some (x, y, z) →
        Run.plain (t.read .core (coreAt (agNum a) (d.stat + 16 * r)) 16) =
          leBytes 4 (fp32Code x) ++ leBytes 4 (fp32Code y) ++ leBytes 4 (fp32Code z) ++ leBytes 4 0) ∧
      (op = 0x2E → ∀ r, r < d.rows → Run.plain (t.read .core (coreAt (agNum a) (d.z + r * d.stride * 2)) (2 * d.n)) =
        (out r).extra.flatMap (fun e => leBytes 2 e.1)))

/-- A stream action past its checks (R334, R336, R347): its record shows it with position 0, it is in flight with its resources, the
records of engines that wait for it name it, nothing has moved; from there its engine runs it. STREAM_COPY between memories (R332, R339),
rows in the order of their bytes: with both sides served, at most one in an activation store and the destination apart from the source and
no other engine waiting for this one at a pipe, every byte of every row stands at its place, every other byte of every memory stays, and
the record shows the full length. PARK (R344): past its checks, with the entry of its page VALID and not PARKED and both pages served, the
page's bytes move to the board address, every other byte stays, and then the entry is PARKED with the board address and the stack page is
given back to its ring. An entry that does not allow it is COLLISION: no memory changes and the engine is free again (that it is free is
log entry 43, DEDUCED). UNPARK (R345): past its checks, with the entry of its page VALID and PARKED, a page in the ring and both pages
served, the ring's head is taken, the parked bytes move to that page, every other byte stays, and then the entry holds the page and is
PARKED no more. An entry that does not allow it is COLLISION: no memory changes and the engine is free again (log entry 43, DEDUCED). -/
def Obligations.StreamRecordsRun : Prop :=
  (∀ (s u : State) (op p e : Nat) (i : Instr) (c : Ctx) (b : List Byte) (src dst : Opnd),
    (op, i) ∈ [(0x40, Instr.streamCopy p (0x10000000 + e)), (0x41, .park p (0x10000000 + e)), (0x42, .unpark p (0x10000000 + e))] → e < 48 →
    StreamIssues s u op p e c b src dst →
    let d := StreamDesc.parse b
    ∃ (w : State) (f : Flight), exec i s = .next (w.runStream e c.point) ∧ w.data = s.data ∧ w.mem = u.mem ∧ w.num = u.num ∧
      w.srec e = { StreamRec.zero with
        state := 1, partition := p, formeId := (s.part p).cur, opId := d.opId, action := c.idx, epoch := c.epoch, length := d.length,
        blockAction := 0xFFFF, desc := b, kindOp := op, iter := c.iter, issue := c.point } ∧
      (∀ k, k ≠ e → w.srec k = if (s.srec k).state = 1 ∧ (s.srec k).waiting = true ∧ (s.srec k).block = 0x10000000 + e
        then { s.srec k with blockAction := c.idx, refused := 0 } else s.srec k) ∧
      (w.part p).flights = (s.part p).flights ++ [f] ∧ f.agent = 0x10000000 + e ∧ f.action = c.idx ∧ f.held = d.resources src dst) ∧
  (∀ (s u : State) (p e : Nat) (c : Ctx) (b : List Byte) (src dst : Opnd) (sm dm : Space) (sa da : Nat),
    e < 48 → StreamIssues s u 0x40 p e c b src dst → (StreamDesc.parse b).transpose = false →
    opndPlace src = some (sm, sa) → opndPlace dst = some (dm, da) → ¬ (sm = .store ∧ dm = .store) → noGuards u p → noWaiters s e →
    let d := StreamDesc.parse b
    opndServed u p true src d.srcStride d.rows d.rowBytes → opndServed u p false dst d.dstStride d.rows d.rowBytes →
    (sm = dm → ∀ r k r' k', r < d.rows → k < d.rowBytes → r' < d.rows → k' < d.rowBytes → sa + r * d.srcStride + k ≠ da + r' * d.dstStride + k') →
    ∃ t, exec (.streamCopy p (0x10000000 + e)) s = .next t ∧
      (∀ r k, r < d.rows → k < d.rowBytes → t.data.byte dm (da + r * d.dstStride + k) = s.data.byte sm (sa + r * d.srcStride + k)) ∧
      (∀ m x, (m = dm → ∀ r k, r < d.rows → k < d.rowBytes → x ≠ da + r * d.dstStride + k) → t.data.byte m x = s.data.byte m x) ∧
      t.data.host = s.data.host ∧ (t.srec e).state = 1 ∧ (t.srec e).position = d.length) ∧
  (∀ (s u : State) (p e : Nat) (c : Ctx) (b : List Byte) (cs slot layer index board : Nat),
    e < 48 → StreamIssues s u 0x41 p e c b (.page cs slot layer index) (.dev board) →
    let set := u.cacheSetAt p cs
    let ie := s.pageEntry set slot layer index
    let wd := s.fwRead ie.2 8
    (pteValid wd = true → pteParked wd = false → pteAddr wd < stackTop → noGuards u p →
      opndServed u p true (.dev (pteAddr wd)) 0 1 262144 → opndServed u p false (.dev board) 0 1 262144 →
      ∃ m : State, exec (.park p (0x10000000 + e)) s = .next (((m.fwWrite ie.2 8 (mkPte true board)).givePage set ie.1 (pteAddr wd)).stopAgain p) ∧
        (∀ k, m.devByte k = if board ≤ k ∧ k < board + 262144 then s.devByte (pteAddr wd + (k - board)) else s.devByte k) ∧
        ({ m.data with dev := s.data.dev, devP := s.data.devP } : Data) = s.data ∧ (m.srec e).state = 1 ∧ (m.srec e).position = 262144) ∧
    (pteValid wd = false ∨ pteParked wd = true →
      ∃ t, exec (.park p (0x10000000 + e)) s = .next t ∧ (t.srec e).state = 0 ∧ t.data = s.data ∧ (t.part p).flights = (s.part p).flights ∧
        Cause.breach ∈ (t.part p).causes)) ∧
  (∀ (s u : State) (p e : Nat) (c : Ctx) (b : List Byte) (cs slot layer index : Nat),
    e < 48 → StreamIssues s u 0x42 p e c b (.page cs slot layer index) .none →
    let set := u.cacheSetAt p cs
    let ie := s.pageEntry set slot layer index
    let wd := s.fwRead ie.2 8
    (∀ pg v, pteValid wd = true → pteParked wd = true → s.takePage (s.cacheEng set ie.1) = some (pg, v) → pteAddr pg < stackTop → noGuards u p →
      opndServed u p true (.dev (pteAddr wd)) 0 1 262144 → opndServed u p false (.dev (pteAddr pg)) 0 1 262144 →
      ∃ m : State, exec (.unpark p (0x10000000 + e)) s = .next ((m.fwWrite ie.2 8 (mkPte false pg)).stopAgain p) ∧
        (∀ k, m.devByte k = if pteAddr pg ≤ k ∧ k < pteAddr pg + 262144 then v.devByte (pteAddr wd + (k - pteAddr pg)) else v.devByte k) ∧
        ({ m.data with dev := v.data.dev, devP := v.data.devP } : Data) = v.data ∧ (m.srec e).state = 1 ∧ (m.srec e).position = 262144) ∧
    (pteValid wd = false ∨ pteParked wd = false →
      ∃ t, exec (.unpark p (0x10000000 + e)) s = .next t ∧ (t.srec e).state = 0 ∧ t.data = s.data ∧ (t.part p).flights = (s.part p).flights ∧
        Cause.breach ∈ (t.part p).causes))

/-- Update and attention rows past their checks run their operation (R226 to R238, R272 to R275), an update operation holding its engine
and, for SUMSQ, the bank of core memory that its AUX names (R74, R140); an update operation that names an array on an absent page is a
breach and applies nothing (R312). RCLEAR (R225, R228): with its span in the partition and no ATTEND in flight, every byte of the span
becomes zero, every other byte of device memory stays, and so do the other memories. The rules of an UPDATE on one element (R233): with
CLIP NaN, infinite, zero or negative, or a gradient that is not finite, the parameter keeps its codes; SGD touches no moment, SGDM only
the first. -/
def Obligations.UpdateAndAttentionRun : Prop :=
  ((∀ (s u : State) (op p a : Nat) (i : Instr) (c : Ctx) (b : List Byte),
    (op, i) ∈ [(0x60, Instr.rclear p a), (0x61, .sumsq p a), (0x62, .update p a), (0x63, .digest p a)] →
    let d := UpdDesc.parse b
    (u.part p).image.descOf c.bind c.r.arg 64 = some b →
    Issues s u op p a c (u.updValid p a op d) none (d.resources op (engOfAgent a)) →
    ((d.named op).any (fun x => (cut pageBytes x.1 x.2).any (fun y => u.access p y.1 = .absent)) = false →
      ∃ t f, exec i s = .next t ∧ t = (u.issued c).runUpd c op d ∧ (t.part p).flights = (s.part p).flights ++ [f] ∧ f.agent = a ∧
        f.action = c.idx ∧ f.held = d.resources op (engOfAgent a) ∧ t.data.galley = s.data.galley ∧ t.lnk = s.lnk ∧ t.rst = s.rst) ∧
    ((d.named op).any (fun x => (cut pageBytes x.1 x.2).any (fun y => u.access p y.1 = .absent)) = true →
      ∃ t, exec i s = .next t ∧ t.data = s.data ∧ (t.part p).flights = (s.part p).flights ∧ Cause.breach ∈ (t.part p).causes) ∧
    d.resources op (engOfAgent a) = (if op = 0x61 then [resEngine (engOfAgent a), resBank (d.aux / 2 ^ 32) (d.aux % 2 ^ 32 / 131072)]
      else [resEngine (engOfAgent a)])) ∧
  (∀ (s u : State) (p a : Nat) (c : Ctx) (b : List Byte), (u.part p).image.descOf c.bind c.r.arg 64 = some b →
    Issues s u 0x70 p a c (u.attValid p a (AttDesc.parse b)) none [resEngine (engOfAgent a)] →
    ∃ t, exec (.attend p a) s = .next t ∧ t = (u.issued c).runAttend c (AttDesc.parse b) ∧ t.data.core = s.data.core ∧
      t.data.sram = s.data.sram ∧ t.data.galley = s.data.galley) ∧
  (∀ (s u : State) (p a : Nat) (c : Ctx) (b : List Byte), (u.part p).image.descOf c.bind c.r.arg 64 = some b →
    Issues s u 0x71 p a c (u.mergeValid p a (MergeDesc.parse b)) none [resEngine (engOfAgent a)] →
    ∃ t f, exec (.merge p a) s = .next t ∧ t = (u.issued c).runMerge c (MergeDesc.parse b) ∧ t.data.core = s.data.core ∧
      t.data.sram = s.data.sram ∧ t.data.galley = s.data.galley ∧ (t.part p).flights = (s.part p).flights ++ [f] ∧ f.agent = a)) ∧
  (∀ (s u : State) (p a : Nat) (c : Ctx) (b : List Byte),
    let d := UpdDesc.parse b
    (u.part p).image.descOf c.bind c.r.arg 64 = some b →
    Issues s u 0x60 p a c (u.updValid p a 0x60 d) none [resEngine (engOfAgent a)] →
    (∀ x, d.g ≤ x → x < d.g + 6 * d.count → u.access p x = .ok) → d.g + 6 * d.count ≤ hostBase →
    (∀ f ∈ (s.part p).flights, f.opcode ≠ 0x70) →
    ∃ t, exec (.rclear p a) s = .next t ∧
      (∀ k, t.devByte k = if d.g ≤ k ∧ k < d.g + 6 * d.count then 0 else s.devByte k) ∧
      t.data.host = s.data.host ∧ t.data.core = s.data.core ∧ t.data.scalar = s.data.scalar ∧ t.num = u.num) ∧
  (∀ (sc : StepScalars) (rule : Nat) (bf : Bool) (q : Param) (g : Nat),
    (updSkip sc = true → updElem sc rule bf q g = (q, Flags.none, false)) ∧
    (∀ (r : Param) (fl : Flags), updElem sc rule bf q g = (r, fl, true) → r = q) ∧
    (2 ≤ rule → (updElem sc rule bf q g).1.m = q.m ∧ (updElem sc rule bf q g).1.v = q.v) ∧
    (rule = 1 → (updElem sc rule bf q g).1.v = q.v))

/-- SEND and RECV (R371 to R375): past its checks a SEND's message joins the controller's in the order of issue, and takes the grants that
wait, which may end a collective (R385); a RECV's message joins them and gets units of the port's receive buffer, never more than its
length; no memory changes. COLLECTIVE (R383, R384) reads its table, and its first step begins once table and input have left the weirs of
their stacks (log entry 38, DESIGN CHOICE); where no grant waits it is in flight from there on (one that waits may be of another CHECK and
end it, R385). -/
def Obligations.LinkRecordsBegin : Prop :=  (∀ (s u : State) (p a : Nat) (c : Ctx) (b : List Byte),
    let d := LinkDesc.parse b
    (u.part p).image.descOf c.bind c.r.arg 32 = some b →
    (Issues s u 0x80 p a c (u.linkValid p (agNum a) d && (u.part p).linkRoom a) none (dedup (refRes d.buf d.length)) →
      ∃ t f, exec (.send p a) s = .next t ∧ t.data = s.data ∧
        (s.lnk.grants = [] → t.lnk.msgs = insertMsg (linkMsg c s.lnk.nextMsg true d) s.lnk.msgs ∧ (t.part p).flights = (s.part p).flights ++ [f]) ∧
        f.agent = a ∧ f.action = c.idx ∧ f.held = dedup (refRes d.buf d.length)) ∧
    (Issues s u 0x81 p a c (u.linkValid p (agNum a) d && (u.part p).linkRoom a) none (dedup (refRes d.buf d.length)) →
      ∃ t f, exec (.recv p a) s = .next t ∧ t.data = s.data ∧ t.lnk.msgs.length = s.lnk.msgs.length + 1 ∧
        (∃ g, g ≤ d.length ∧ ({ linkMsg c s.lnk.nextMsg false d with granted := g } : Msg) ∈ t.lnk.msgs) ∧ t.lnk.grants = s.lnk.grants ∧
        (t.part p).flights = (s.part p).flights ++ [f] ∧ f.agent = a ∧ f.action = c.idx ∧ f.held = dedup (refRes d.buf d.length))) ∧
  (∀ (s u : State) (p a : Nat) (c : Ctx) (b : List Byte),
    let d := CollDesc.parse b
    let tb := tableOf d.n (u.collTable c d)
    (u.part p).image.descOf c.bind c.r.arg 64 = some b →
    Issues s u 0x82 p a c (agNum a < 18 && u.collValid c d && (u.part p).linkRoom a) none
      (dedup (refRes d.table (8 * d.n) ++ refRes d.src (d.srcBytes tb) ++ refRes d.dst (d.dstBytes tb))) →
    ∃ t, exec (.collective p a) s = .next t ∧ t = (u.issued c).runColl c d b ∧
      (s.lnk.grants = [] → ∃ f ∈ (t.part p).flights, f.agent = a ∧ f.action = c.idx))

/-- ACTION_COMPLETE and LINK_ACTION_COMPLETE (R73, R77, R377): the action leaves the flights of its partition, its resources with it;
without a token nothing of the other partitions changes but what the passing of time does. A stream completes once its last byte is
written (R339) and, which is the model's reading (log entries 38 and 51), its last request has left its weirs and the paths of its field;
engines that wait for it name no action of it any more (R342). An action of a channel update unit has left the weir of its channel (R314;
log entry 38); what never leaves one does not complete. An action whose flit a full FIFO holds does not complete (R53). A link action
completes at the moment `m` at which all that it writes has left the weirs and is written; its arrival counts at its port and is stamped,
behind a watchdog that is due (R436). Where none of the record's actions is done the row does what the weirs have let through meanwhile,
and nothing else. -/
def Obligations.ActionsComplete : Prop :=  (∀ (s : State) (p a r : Nat) (f : Flight), p < 8 → agKind a ≠ 1 → lookupBy (fun f => f.agent == a && f.action == r) (s.part p).flights = some f →
    f.opcode < 0x80 → f.pending = 0 →
    let left := if agKind a = 3 then s.weirsLeft a else if f.ready < never then some f.ready else none
    (left = none → exec (.actionComplete p a r) s = .next s) ∧
    (∀ w, left = some w → (s.toClk (max w f.ready)).flitHeld p a = true → exec (.actionComplete p a r) s = .next (s.toClk (max w f.ready))) ∧
    (∀ w, left = some w → f.tokOut = 0xFFFF → (s.toClk (max w f.ready)).flitHeld p a = false →
      ∃ t, exec (.actionComplete p a r) s = .next t ∧ (t.part p).flights = (s.part p).flights.erase f ∧
        (t.part p).toks = (s.part p).toks ∧ (∀ q, q ≠ p → t.part q = (s.toClk (max w f.ready)).part q) ∧ t.data = s.data ∧
        ({ t.num with traps := s.num.traps } : NumRegs) = s.num ∧ t.se = s.se ∧ t.lnk = s.lnk ∧ t.rst = s.rst)) ∧
  (∀ (s : State) (p a r w : Nat) (f : Flight), p < 8 → agKind a = 1 → lookupBy (fun f => f.agent == a && f.action == r) (s.part p).flights = some f →
    f.opcode < 0x80 → f.pending = 0 → f.tokOut = 0xFFFF → f.agent = a → (s.srec (agNum a)).state = 1 →
    (s.srec (agNum a)).length ≤ (s.srec (agNum a)).position → s.streamLeft a = some w →
    (s.toClk (max w f.ready)).flitHeld p a = false →
    ∃ t, exec (.actionComplete p a r) s = .next t ∧ (t.part p).flights = (s.part p).flights.erase f ∧
      t.srec (agNum a) = { s.srec (agNum a) with state := 0 } ∧ (∀ e, e ≠ agNum a → t.srec e =
        if (s.srec e).state = 1 ∧ (s.srec e).waiting = true ∧ (s.srec e).block = 0x10000000 + agNum a
        then { s.srec e with blockAction := 0xFFFF, refused := 0 } else s.srec e) ∧
      (∀ q, q ≠ p → t.part q = (s.toClk (max w f.ready)).part q) ∧ t.data = s.data ∧ ({ t.num with traps := s.num.traps } : NumRegs) = s.num) ∧
  (∀ (s : State) (p a r : Nat), p < 8 →
    let mine (f : Flight) := f.agent = a ∧ f.action = r ∧ 0x80 ≤ f.opcode
    let done (f : Flight) := ∃ m, s.linkSettled (p, agNum a, r, f.issue) = some m ∧ m.linkDone (p, agNum a, r, f.issue) = true
    ((∀ f ∈ (s.part p).flights, mine f → ¬ done f) → exec (.linkActionComplete p a r) s = .next s.linkGo) ∧
    (∀ before f after m, (s.part p).flights = before ++ f :: after → (∀ g ∈ before, mine g → ¬ done g) → mine f →
      s.linkSettled (p, agNum a, r, f.issue) = some m → m.linkDone (p, agNum a, r, f.issue) = true →
      ∃ t, exec (.linkActionComplete p a r) s = .next t ∧ (t.part p).flights = (m.part p).flights.erase f ∧
        tget 0 (t.part p).arrivals (agNum a) = tget 0 (m.part p).arrivals (agNum a) + 1 ∧ ((m.part p).wdLeft ≠ some 0 → t.es.seq = m.es.seq + 1) ∧
        (∀ x ∈ t.lnk.msgs, x.key ≠ (p, agNum a, r, f.issue)) ∧ (∀ q, q ≠ p → t.part q = m.part q) ∧ t.data = m.data))

/-- The token of a completion (R77): the consumer's counter rises by one while it is below COUNT; beyond it the arrival is a breach of
class 2 and the counter stays. DEADLINE_REACHED and SLOT_LIMIT (R60, R77): a counter below COUNT at its deadline, and a run at slot 2^40,
are breaches: the partition gets a freeze cause, its clock stands there, and no other partition and no data changes. -/
def Obligations.DeadlinesBreach : Prop :=
  (∀ (s : State) (p k cyc : Nat),
    let n := tget 0 (s.part p).toks k
    let w := (s.part p).image.token k
    (n < w.count → (s.tokenArrives p k cyc).part p = { s.part p with toks := tset 0 (s.part p).toks k (n + 1) } ∧
      ({ s.tokenArrives p k cyc with parts := s.parts } : State) = s) ∧
    (w.count ≤ n → ((s.tokenArrives p k cyc).part p).toks = (s.part p).toks ∧
      Cause.breach ∈ ((s.tokenArrives p k cyc).part p).causes) ∧
    (∀ q, q ≠ p → (s.tokenArrives p k cyc).part q = s.part q)) ∧
  ((∀ (s : State) (p tok k base : Nat) (c : Ctx), p < 8 → tok < (s.part p).image.tokens →
    (s.part p).ctx p ((s.part p).image.token tok).consumer = some c →
    (s.part p).awaits c tok = some (k, base) →
    let w := (s.part p).image.token tok
    let dl := (base + bits w.deadline 31 8) * 256 + bits w.deadline 7 0
    s.openAt p dl = true → (∃ q, (s.part p).seqr w.consumer = some q ∧ q.late.contains tok = false) → tget 0 (s.part p).toks tok < w.count →
    ∃ t, exec (.deadlineReached p tok) s = .next t ∧ Cause.breach ∈ (t.part p).causes ∧
      (∃ q, (t.part p).seqr w.consumer = some q ∧ tok ∈ q.late) ∧
      (∀ q, q ≠ p → t.part q = (s.toCycle p dl).part q) ∧ t.data = s.data ∧
      ({ t.num with traps := s.num.traps } : NumRegs) = s.num) ∧
  (∀ (s : State) (p : Nat), p < 8 → (s.part p).slotLimited = false → s.openAt p (2 ^ 48) = true →
    ∃ t, exec (.slotLimit p) s = .next t ∧ Cause.breach ∈ (t.part p).causes ∧ (t.part p).slotLimited = true ∧
      (∀ q, q ≠ p → t.part q = (s.toCycle p (2 ^ 48)).part q) ∧ t.data = s.data))

/-- The stop of a partition (R82 to R84, R379): at the freeze boundary its counters stand and its link actions are detached; it is FROZEN
once nothing is in flight but those and halted streams, and the NaNs of its last cycles have met their trap records (R158).
STREAM_DUE_REACHED and THAW (R87, R91, R352, R353): a restarted stream short of its due position runs on; where it halts again before that
position its partition is stopped again at its boundary, so that no thaw takes place. A thaw whose streams have all reached theirs lets
issue go on, the link actions attached again (that they are is log entry 36, DEDUCED: R379 tells only of their detaching); causes that
have arisen since CONTINUE freeze the partition again. -/
def Obligations.PartitionStopsAndResumes : Prop :=
  ((∀ (s : State) (p b : Nat), p < 8 → (s.part p).frz = .pending b → (s.part p).status = .running →
    ∃ t, exec (.freezeBoundary p) s = .next t ∧ (t.part p).frz = .stopped b ∧ (t.part p).elapsed = b * (s.part p).period ∧
      (t.part p).status = .running ∧ (∀ f ∈ (t.part p).flights, 0x80 ≤ f.opcode → f.detached = true) ∧
      (t.part p).flights.length = (s.part p).flights.length ∧ (∀ q, q ≠ p → t.part q = (s.toCycle p b).part q) ∧ t.data = s.data) ∧
  (∀ (s : State) (p b : Nat), p < 8 → (s.part p).frz = .stopped b → (s.part p).status = .running →
    (∀ f ∈ (s.part p).flights, s.settled f = true) →
    ∃ t, exec (.partitionFrozen p) s = .next t ∧ (t.part p).status = .frozen ∧ (t.part p).frz = .stopped b ∧ (t.part p).flights = (s.part p).flights ∧
      t.data = s.data ∧
      ((∀ n ∈ (s.part p).nans, n.due ≤ s.clk) → t.part p = { s.part p with status := .frozen } ∧ (∀ q, q ≠ p → t.part q = s.part q) ∧
        ({ t with parts := s.parts, hif := s.hif } : State) = s))) ∧
  ((∀ (s : State) (e b : Nat), (s.part (s.srec e).partition).frz = .thawing b → (s.part (s.srec e).partition).status = .running →
    (s.srec e).state = 1 → (s.srec e).reached = false →
    let u := s.runStream e (s.part (s.srec e).partition).cycle
    ∃ t, exec (.streamDueReached e) s = .next t ∧ ((u.srec e).reached = true → t = u) ∧
      ((t.srec e).state = 2 → (t.srec e).position < (t.srec e).dueAt → (t.part (s.srec e).partition).frz = .stopped b)) ∧
  (∀ (s : State) (p b : Nat), p < 8 → (s.part p).status = .running → (s.part p).frz = .thawing b →
    (∀ e ∈ s.streamsOf p, (s.srec e).reached = true) →
    ∃ t, exec (.thaw p) s = .next t ∧ (t.part p).frz = (if (s.part p).causes = [] then .no else .pending (freezeBoundaryOf b)) ∧
      (t.part p).causes = (s.part p).causes ∧ (t.part p).status = .running ∧ (t.part p).seqs = (s.part p).seqs ∧
      (t.part p).toks = (s.part p).toks ∧ (t.part p).elapsed = (s.part p).elapsed ∧ (∀ f ∈ (t.part p).flights, f.detached = false) ∧
      (∀ e ∈ s.streamsOf p, t.srec e = { s.srec e with thawing := false }) ∧ (∀ q, q ≠ p → t.part q = s.part q) ∧
      ({ t with parts := s.parts, es := s.es, se := s.se } : State) = s))

/-- RENDEZVOUS_RELEASE (R89, R378): with every agent waiting and the arrivals complete a new epoch begins at the release boundary: every
agent goes on past its record, every open loop counts from there, and the arrivals needed are taken from the named ports. -/
def Obligations.RendezvousReleases : Prop :=  ∀ (s : State) (p since : Nat), p < 8 → (s.part p).rvAt = some since → (s.part p).allWaiting = true → (s.part p).arrivalsOk = true →
    (s.part p).fillCur = none → s.openAt p (releaseCycle since) = true →
    let b := releaseCycle since
    let rv := (s.part p).image.rv (s.part p).rvEntry
    ∃ t, exec (.rendezvousRelease p) s = .next t ∧ (t.part p).epochSlot = b / 256 ∧ (t.part p).epochVal = (s.part p).rvEntry + 1 ∧
      (t.part p).rvAt = none ∧ (t.part p).wdRun = none ∧ (t.part p).arrived rv.1 + rv.2 = (s.part p).arrived rv.1 ∧
      (∀ k, bit rv.1 k = false → tget 0 (t.part p).arrivals k = tget 0 (s.part p).arrivals k) ∧
      (t.part p).seqs = (s.part p).seqs.map (fun q => { q with
        waiting := false, pc := q.pc + 1, last := b, loops := q.loops.map (fun f => { f with base := b / 256 }) }) ∧
      (∀ q, q ≠ p → t.part q = (s.toCycle p b).part q) ∧ t.data = s.data

/-- WATCHDOG_EXPIRY and GRACE_EXPIRY (R90, R290 to R292): a rendezvous that has waited its whole setting freezes its partition, with event
4; the grace period of an exhausted cache, with no RESUME stamped before its end, ends the run as ABORTED with 0x0640, the slot STOPPED.
RUN_COMPLETE (R93): once every agent has ended and no item is left, the partition is IDLE at the next slot boundary, and its SWITCH
completes OK with the slot count; its sequencers and counters are gone, its formes stay resident. An action still in flight does not hold
it up and goes on, its token lost (log entry 44, DEDUCED). -/
def Obligations.RunsEnd : Prop :=
  ((∀ (s : State) (p left : Nat), p < 8 → (s.part p).wdLeft = some left → (s.part p).frz = .no →
    ∃ t b, exec (.watchdogExpiry p) s = .next t ∧ Cause.watchdog ∈ (t.part p).causes ∧ (t.part p).frz = .pending b ∧
      ((s.pass left).es.lostSince = 0 → t.es.seq = (s.pass left).es.seq + 1) ∧ t.data = s.data ∧
      ({ t.num with traps := s.num.traps } : NumRegs) = s.num ∧ t.lnk = s.lnk) ∧
  (∀ (s : State) (p till id slot : Nat), p < 8 → (s.part p).grace = some (till, id, slot) → (s.part p).status = .frozen → s.resumeWaits p till = false →
    ∃ t, exec (.graceExpiry p) s = .next t ∧ (t.part p).status = .idle ∧ (t.part p).seqs = [] ∧ (t.part p).flights = [] ∧
      (t.part p).grace = none ∧
      (∃ r ∈ t.hif.compl, r.tag = (s.part p).swTag ∧ r.partition = p ∧ r.status = 2 ∧ r.reason = 0x640) ∧
      (∀ cs, s.cset p = some cs → (s.part p).cacheQ = [] → cs.seqTable + 16 * (slot + 1) ≤ hostBase → (t.seqEntry cs slot).state = 3) ∧
      (∀ q, q ≠ p → t.part q = (s.toTime till).part q))) ∧
  (∀ (s : State) (p last : Nat), p < 8 → (s.part p).ended = some last → (s.part p).allEnded = true → (s.part p).fillCur = none →
    (s.part p).image.fills ≤ (s.part p).fillNext → s.openAt p ((last / 256 + 1) * 256) = true →
    ∃ t, exec (.runComplete p) s = .next t ∧ (t.part p).status = .idle ∧ (t.part p).cur = 0 ∧ (t.part p).seqs = [] ∧ (t.part p).toks = [] ∧
      (t.part p).flights = ((s.toCycle p ((last / 256 + 1) * 256)).part p).flights.map Flight.outlive ∧
      (t.part p).ended = none ∧ (t.part p).resident = (s.part p).resident ∧ (t.part p).cacheQ = [] ∧
      (∃ r ∈ t.hif.compl, r.tag = (s.part p).swTag ∧ r.partition = p ∧ r.status = 0 ∧ r.value = last / 256 + 1) ∧
      (∀ q, q ≠ p → t.part q = (s.toCycle p ((last / 256 + 1) * 256)).part q) ∧ t.data.core = s.data.core ∧ t.data.galley = s.data.galley)

/-- FILL opens the agent's part of an item, ENDFILL closes it (R92): an item whose every part is closed, with nothing of it in flight,
ends. FILL_ITEM_START and FILL_OVERRUN (R92): the next item starts at a slot boundary while the partition waits, its gate's tokens taken;
an item that has not ended within WORST slots is a breach. That it starts at the NEXT slot boundary, that its gate's counter is 0 at its
start and that each agent has a fill context of its own are the model's readings (log entry 26, DEDUCED). -/
def Obligations.FillItemsRun : Prop :=
  ((∀ (s : State) (p a : Nat) (c : Ctx) (q : Seqr), issueCtx s 4 p a = some c → (s.part p).seqr a = some q →
    ∃ t, exec (.fill p a) s = .next t ∧ seqMoved (s.toCycle p c.point) t p a (q.moved c (c.idx + 1) id)) ∧
  (∀ (s : State) (p a : Nat) (c : Ctx), issueCtx s 5 p a = some c →
    let u := s.toCycle p c.point
    let x := (u.part p).modSeqr a (fun q => { q with last := c.point, fill := q.fill.map (fun f => { f with done := true }) })
    ∃ t, exec (.endfill p a) s = .next t ∧ (∀ r, r ≠ p → t.part r = u.part r) ∧ ({ t with parts := u.parts } : State) = u ∧
      (x.fillOver = false → t.part p = x) ∧
      (x.fillOver = true → (t.part p).fillCur = none ∧ (t.part p).fillNext = x.fillNext + 1 ∧ (∀ q ∈ (t.part p).seqs, q.fill = none) ∧
        (t.part p).flights = x.flights))) ∧
  ((∀ (s : State) (p : Nat), p < 8 → (s.part p).fillCur = none → (s.part p).fillNext < (s.part p).image.fills →
    let x := s.part p
    let gate := (x.image.fillEntry x.fillNext).1
    let st := cdiv x.cycle 256
    gate = 0xFFFF ∨ (x.image.token gate).count ≤ tget 0 x.toks gate → (x.allWaiting = true ∧ x.arrivalsOk = false) ∨ x.allEnded = true →
    s.openAt p (st * 256) = true →
    let y : Part := { (s.toCycle p (st * 256)).part p with
      fillCur := some (x.fillNext, st), fillLate := false, toks := if gate = 0xFFFF then x.toks else tset 0 x.toks gate 0
      seqs := x.seqs.map (fun (q : Seqr) => match (x.image.binding q.agent).bind (fun b => fillRecord (x.image.program b) x.fillNext) with
        | some k => { q with last := max q.last (st * 256), fill := some { item := x.fillNext, pc := k, loops := [], done := false } }
        | none => q) }
    ∃ t, exec (.fillItemStart p) s = .next t ∧ t.part p = y.settleFill (st * 256) ∧
      (∀ q, q ≠ p → t.part q = (s.toCycle p (st * 256)).part q) ∧ t.data = s.data) ∧
  (∀ (s : State) (p i st : Nat), p < 8 → (s.part p).fillCur = some (i, st) → (s.part p).fillLate = false →
    let lim := (st + ((s.part p).image.fillEntry i).2) * 256
    s.openAt p lim = true →
    ∃ t, exec (.fillOverrun p) s = .next t ∧ Cause.breach ∈ (t.part p).causes ∧ (t.part p).fillLate = true ∧
      (∀ q, q ≠ p → t.part q = (s.toCycle p lim).part q) ∧ t.data = s.data))

/-- SPINE_FLIT (R42, R44, R46, R47): a flit that stands next at its input and leaves by an output of its route that no copy of it has
taken goes on over the link behind it, if it is in a frame of its owner and no other flit took the output in that cycle. One outside its
frames is not forwarded and is a breach of its partition, running or FROZEN; of two that meet neither is forwarded, and each partition has
its breach. A flit with an error in its header goes nowhere (R517). In a guard cycle every flit is outside its frames; a flit that cannot
leave there changes nothing. Which input a flit of a source stands at is log entry 51 (the model's choice). WEIR_REQUEST (R314, R315,
R319, R337): where nothing held can go in, a request of a sender that holds nothing enters its owner's queue if its tokens fit; if they do
not, the sender holds it and its partition, running or FROZEN, has a breach; a stream holds it back, without a breach, where QMAX says so;
behind a request of its sender that is held it is held as well. No other queue and no data changes. The port whose weir a link group's
request passes is log entry 55 (the model's choice). -/
def Obligations.SpineAndWeirsPolice : Prop :=
  ((∀ (s : State) (r out : Nat) (f : Flit), routerOk r = true → outputOk r out = true → s.routerUp r = true → (s.routes r f).contains out = true →
    s.atInput r f = true → s.copied r out f = false →
    let o := flitOwner f
    let u := (s.toInput r f).takeFlit r out f
    let cyc := u.clk / spinePeriod
    let key := r * 16 + out
    let last := tget (⟨0, 0, 0, 0, false⟩ : LastFlit) u.spine.last key
    let met := last.input ≠ 0 ∧ last.cycle = cyc
    let stops (q : Nat) := q < 8 ∧ ((u.part q).status = .running ∨ (u.part q).status = .frozen)
    (f.fault = .header → ∃ t, exec (.spineFlit r out f) s = .next t ∧ t.spine = u.spine ∧ t.parts = u.parts ∧ t.data = s.data) ∧
    (f.fault = .none → ¬ met → u.frameAllotted o cyc = true →
      ∃ t, exec (.spineFlit r out f) s = .next t ∧ t.link key = u.link key ++ [{ flit := onward f r out, left := u.clk }] ∧
        (∀ k, k ≠ key → t.link k = u.link k) ∧ tget (⟨0, 0, 0, 0, false⟩ : LastFlit) t.spine.last key = flitSeen cyc f true ∧
        ({ t with spine := u.spine } : State) = u) ∧
    (f.fault = .none → ¬ met → u.frameAllotted o cyc = false → o = 8 →
      ∃ t, exec (.spineFlit r out f) s = .next t ∧ t.spine.links = u.spine.links ∧ t.data = s.data) ∧
    (f.fault = .none → ¬ met → u.frameAllotted o cyc = false → stops o →
      ∃ t, exec (.spineFlit r out f) s = .next t ∧ t.spine.links = u.spine.links ∧
        tget (⟨0, 0, 0, 0, false⟩ : LastFlit) t.spine.last key = flitSeen cyc f false ∧ Cause.breach ∈ (t.part o).causes ∧
        (∀ q, q ≠ o → t.part q = u.part q) ∧ t.data = s.data) ∧
    (f.fault = .none → met → stops o → stops last.partition →
      ∃ t, exec (.spineFlit r out f) s = .next t ∧ t.link key = (if last.sent then (u.link key).dropLast else u.link key) ∧
        (∀ k, k ≠ key → t.link k = u.link k) ∧ Cause.breach ∈ (t.part o).causes ∧ Cause.breach ∈ (t.part last.partition).causes ∧
        (∀ q, q ≠ o → q ≠ last.partition → t.part q = u.part q) ∧ t.data = s.data)) ∧
  (∀ (s : State) (q cyc : Nat), guardCycle cyc = true → s.frameAllotted q cyc = false) ∧
  (∀ (s : State) (r out : Nat) (f : Flit),
    (routerOk r && outputOk r out && s.routerUp r && (s.routes r f).contains out && s.atInput r f && !s.copied r out f) = false →
    exec (.spineFlit r out f) s = .next s)) ∧
  (∀ (s : State) (w o bytes agent action : Nat), weirNums.contains w = true → o ≤ 8 → (o = 8 → weirClass w = 2) →
    let key := queueKey w o (weirPort w agent)
    let r : WeirReq := { tokens := weirTokens w agent bytes, agent := agent, action := action, qmax := s.qmaxOf agent, write := false, offered := false, rest := 0, id := 0 }
    let own := (s.weirHeld key).any (fun h => h.agent == agent)
    holds s key (s.weirDepth w o) →
    ∃ t, exec (.weirRequest w o bytes agent action) s = .next t ∧
      (∀ k, k ≠ key → t.weirQueue k = s.weirQueue k ∧ t.weirHeld k = s.weirHeld k) ∧ t.data = s.data ∧
      (own = true → t.weirHeld key = s.weirHeld key ++ [r] ∧ t.weirQueue key = s.weirQueue key ∧ ({ t with mem := s.mem } : State) = s) ∧
      (own = false → heldBack (s.weirQueue key) r = true →
        t.weirHeld key = s.weirHeld key ++ [r] ∧ t.weirQueue key = s.weirQueue key ∧ ({ t with mem := s.mem } : State) = s) ∧
      (own = false → heldBack (s.weirQueue key) r = false → s.weirFill key + r.tokens ≤ s.weirDepth w o →
        t.weirHeld key = s.weirHeld key ∧ t.weirQueue key = s.weirQueue key ++ [r] ∧ ({ t with mem := s.mem } : State) = s) ∧
      (own = false → heldBack (s.weirQueue key) r = false → s.weirDepth w o < s.weirFill key + r.tokens →
        t.weirHeld key = s.weirHeld key ++ [{ r with offered := true }] ∧ t.weirQueue key = s.weirQueue key ∧
        (∀ q, q ≠ o → t.part q = s.part q) ∧
        (o < 8 → (s.part o).status = .running ∨ (s.part o).status = .frozen → Cause.breach ∈ (t.part o).causes)))

/-- ACCUMULATE_WRITE (R210 to R212): a sound transaction to sound elements that no other source, no update operation and no ATTEND holds
adds each value to its element by one reservoir addition, leaves every other byte of device memory, and is no longer in transit; at a
near-memory engine no freeze cause arises. A channel update unit asks the weir of its channel for it (R314), which may refuse. A reservoir
addition with a NaN on either side (R212) gives the NaN code and sets no flag. -/
def Obligations.AccumulateAddsValues : Prop :=
  (∀ (s : State) (engine : Nat) (w : AccWrite), lookupBy (fun x => x.engine == engine) s.accq = some w → w.poison = 0 →
    (s.accessRun w.partition w.addr w.bytes).1 = .ok → w.addr + w.bytes ≤ hostBase →
    (∀ v ∈ tget [] s.serving engine, s.clk < v.until' → v.source = w.source) →
    (∀ f ∈ (s.part w.partition).flights, f.opcode ≠ 0x70 ∧ ¬ (0x60 ≤ f.opcode ∧ f.opcode ≤ 0x62 ∧ f.agent = agentOfEng engine)) →
    (∀ k, k < w.values.length → Run.origin (s.devRead (w.addr + 6 * k) 6) = 0) →
    ∃ t, exec (.accumulateWrite engine) s = .next t ∧ t.accq = s.accq.erase w ∧
      (∀ k v, w.values[k]? = some v → Run.plain (t.devRead (w.addr + 6 * k) 6) =
        leBytes 6 (reservoirAdd (leNat (Run.plain (s.devRead (w.addr + 6 * k) 6))) v).1) ∧
      (∀ x, x < w.addr ∨ w.addr + w.bytes ≤ x → t.devByte x = s.devByte x) ∧
      t.data.core = s.data.core ∧ t.data.galley = s.data.galley ∧
      (engine < 256 → (t.part w.partition).causes = (s.part w.partition).causes)) ∧
  (∀ g v, (wf48F.decode 0 g = .nan ∨ fp32 v = .nan) → (reservoirAdd g v).1 = wf48F.nanCode ∧ (reservoirAdd g v).2 = Flags.none)

/-- Replica digests (R250 to R252): a digest that comes before the own one is kept; one that agrees with it is struck off the missing
ones; one that differs marks the divergence; an overdue one is struck off once. Digests of a part that an accepted set does not name, of
the part itself and of any part where the partition has no set change nothing. -/
def Obligations.DigestsCompared : Prop :=  (∀ (s : State) (p part step layer shard value cadence : Nat) (parts : List Nat), p < 8 → (s.part p).replica = some (cadence, parts) →
    cadence ≠ 0 → parts.contains part = true → part ≠ s.selfPart →
    let own := lookupBy (fun (d : Digest) => d.step == step && d.layer == layer && d.shard == shard) (s.part p).digests
    (own = none → exec (.digestReceived p part step layer shard value) s =
      .next (s.setPart p { s.part p with early := (s.part p).early ++ [(part, step, layer, shard, value)] })) ∧
    (∀ d, own = some d → ∃ t, exec (.digestReceived p part step layer shard value) s = .next t ∧
      (t.part p).digests = (s.part p).digests.map (fun e =>
        if e.step = step && e.layer = layer && e.shard = shard then { e with missing := e.missing.erase part } else e) ∧
      (t.part p).diverge = ((s.part p).diverge || decide (d.value ≠ value)) ∧ (∀ q, q ≠ p → t.part q = s.part q) ∧ t.data = s.data)) ∧
  (∀ (s : State) (p part step layer shard value : Nat),
    (s.part p).replica = none ∨ (∃ cadence parts, (s.part p).replica = some (cadence, parts) ∧ (parts.contains part = false ∨ part = s.selfPart)) →
    exec (.digestReceived p part step layer shard value) s = .next s) ∧
  (∀ (s : State) (p part : Nat) (d : Digest), p < 8 → lookupBy (fun e => e.missing.contains part) (s.part p).digests = some d →
    ∃ t, exec (.digestMissing p part) s = .next t ∧ (t.part p).digests =
        modFirst (fun e => e.missing.contains part) (fun e => { e with missing := e.missing.erase part }) (s.part p).digests ∧
      (∀ q, q ≠ p → t.part q = (s.toTime (d.formed + s.digestWait p)).part q) ∧ t.data = s.data)

/-- FRAME_TRANSMIT (R366, R368): an ACTIVE port with nothing to replay and fewer than 128 frames outstanding sends a new frame under the
next SEQ and keeps it; with 128 outstanding it repeats the last SEQ (log entry 13, DEDUCED: R368 gives an idle frame no SEQ); a frame to
replay goes out again under its own SEQ, and after its eighth try the port goes DOWN with cause 4. Before it, what the weirs have let
through takes effect: the state `u` (log entry 38, DESIGN CHOICE). A port that is not ACTIVE sends nothing. FRAME_RECEIVE (R368): a whole
frame with the SEQ expected is accepted and the next SEQ is expected; any other frame is discarded whole: no message, no memory and no
partition changes, and the port goes on discarding, and sends NAK again for a damaged frame (log entry 13, DEDUCED). Before it a watchdog
that is due expires (R436) and what the weirs have let through takes effect (log entry 38, DESIGN CHOICE): the state `u`. TIME_STEER
(R391): by the mean of 1,024 exchanges with its parent a part that follows steers by at most 200 ppm; it is locked where the mean lies
within 2 ns, shows the mean, rounded down or up, and has used it. How far it steers and which way it rounds are free values (log entry
14). With no such mean, or following no parent, it does nothing. -/
def Obligations.FramesExchanged : Prop :=
  (∀ (s : State) (port : Nat),
    let u := s.linkGo
    let q := u.port port
    (18 ≤ port ∨ q.state ≠ .active → exec (.frameTransmit port) s = .next u) ∧
    (port < 18 → q.state = .active →
    (q.sent[q.replayAt]? = none → q.sent.length < 128 →
      ∃ t f, exec (.frameTransmit port) s = .next t ∧ (t.port port).sent = q.sent ++ [f] ∧ f.seq = q.txSeq ∧ f.tries = 0 ∧
        (t.port port).txSeq = q.txSeq + 1 ∧ fld (t.port port).wire 0 2 = q.txSeq.toNat ∧ (t.port port).state = .active) ∧
    (q.sent[q.replayAt]? = none → 128 ≤ q.sent.length →
      ∃ t, exec (.frameTransmit port) s = .next t ∧ (t.port port).sent = q.sent ∧ (t.port port).txSeq = q.txSeq ∧
        fld (t.port port).wire 0 2 = (q.txSeq - 1).toNat ∧ t.data = u.data ∧ t.parts = u.parts) ∧
    (∀ f, q.sent[q.replayAt]? = some f → f.tries < 8 →
      ∃ t, exec (.frameTransmit port) s = .next t ∧ (t.port port).sent = q.sent.set q.replayAt { f with tries := f.tries + 1 } ∧
        (t.port port).replayAt = q.replayAt + 1 ∧ (t.port port).txSeq = q.txSeq ∧ fld (t.port port).wire 0 2 = f.seq.toNat ∧
        t.data = u.data ∧ t.parts = u.parts) ∧
    (∀ f, q.sent[q.replayAt]? = some f → 8 ≤ f.tries →
      ∃ t, exec (.frameTransmit port) s = .next t ∧ (t.port port).state = .down ∧ (t.port port).cause = 4 ∧ (t.port port).sent = q.sent))) ∧
  (∀ (s : State) (port : Nat) (words : List Codeword) (content : List Byte), port < 18 → (s.port port).state = .active →
    let u := s.expireAll.linkGo
    let q := u.port port
    (frameWhole words content = true → BitVec.ofNat 16 (fld content 0 2) = q.rxNext →
      ∃ t, exec (.frameReceive port words content) s = .next t ∧ (t.port port).rxNext = q.rxNext + 1 ∧
        (t.port port).discarding = false ∧ (t.port port).nak = false ∧ (t.port port).state = q.state) ∧
    (frameWhole words content = false ∨ BitVec.ofNat 16 (fld content 0 2) ≠ q.rxNext →
      ∃ t, exec (.frameReceive port words content) s = .next t ∧ (t.port port).rxNext = q.rxNext ∧
        (t.port port).discarding = true ∧ (q.discarding = false → (t.port port).nak = true) ∧
        (frameWhole words content = false → (t.port port).nak = true) ∧ t.lnk.msgs = u.lnk.msgs ∧ t.data = u.data ∧ t.parts = u.parts ∧ t.rst = u.rst)) ∧
  (∀ s : State,
    let q := s.port s.lnk.parent
    (∀ sum, s.lnk.following = true → s.rst.everReady = true → q.mean = some sum →
      ∃ t, exec .timeSteer s = .next t ∧ -200 ≤ t.steer ∧ t.steer ≤ 200 ∧ t.port s.lnk.parent = { q with mean := none } ∧
        (t.lnk.timeState = 2 ↔ -4096 ≤ sum ∧ sum ≤ 4096) ∧
        (∃ m : Int, m * 2048 - 2048 < sum ∧ sum < m * 2048 + 2048 ∧
          t.lnk.offset = BitVec.ofNat 16 (ofSigned 16 (clampInt (-32767) 32767 m))) ∧
        (∀ r, r ≠ s.lnk.parent → t.port r = s.port r) ∧ t.es = s.es ∧ t.data = s.data ∧ t.parts = s.parts ∧ t.rst = s.rst) ∧
    (q.mean = none ∨ s.lnk.following = false ∨ s.rst.everReady = false → exec .timeSteer s = .next s))

/-- A port trains step by step (R361, R362): lanes, width, identity; each step only from the state before it, and nothing but the port
changes. That a port which becomes ACTIVE has 0 as its next SEQ, expects SEQ 0 and keeps no frame is the model's reading (log entry 13,
DEDUCED). -/
def Obligations.PortsTrain : Prop :=  ∀ (s : State) (port : Nat), port < 18 →
    let q := s.port port
    (∀ mask, q.state = .laneTrain → ∃ t, exec (.laneTrainDone port mask) s = .next t ∧
      portBecomes s t port { q with state := .width, ownLanes := (mask % 16) &&& (15 ^^^ s.failedLanes port) }) ∧
    (q.state = .laneTrain → ∃ t, exec (.laneTrainTimeout port) s = .next t ∧ portBecomes s t port { q with state := .down, cause := 1 }) ∧
    (∀ peer, q.state = .width →
      let both := q.ownLanes &&& (peer % 16)
      ∃ t, exec (.widthExchange port peer) s = .next t ∧ portBecomes s t port
        (if widthOf both = 0 then { q with lanes := both, widthCode := 0, used := [], state := .down, cause := 2 }
         else if widthOf both < bits q.ctrl.toNat 2 1 + 1 then
           { q with lanes := both, widthCode := widthOf both, used := lanesUsed both (widthOf both), state := .down, cause := 3 }
         else { q with lanes := both, widthCode := widthOf both, used := lanesUsed both (widthOf both), state := .ident })) ∧
    (∀ serial pp part, q.state = .ident → ∃ t, exec (.identExchange port serial pp part) s = .next t ∧
      (t.port port).state = .active ∧ (t.port port).peerValid = true ∧ (t.port port).peerSerial = BitVec.ofNat 64 serial ∧
      (t.port port).txSeq = 0 ∧ (t.port port).rxNext = 0 ∧ (t.port port).sent = [] ∧ (t.port port).lanes = q.lanes ∧
      (∀ r, r ≠ port → t.port r = s.port r) ∧ ({ t with lnk := { t.lnk with ports := s.lnk.ports } } : State) = s) ∧
    (∀ mask peer serial pp part, (q.state ≠ .laneTrain → exec (.laneTrainDone port mask) s = .next s ∧ exec (.laneTrainTimeout port) s = .next s) ∧
      (q.state ≠ .width → exec (.widthExchange port peer) s = .next s) ∧
      (q.state ≠ .ident → exec (.identExchange port serial pp part) s = .next s))

/-- The host's port commands while D03 is not Off, and a fault in service (R361, R363, Table 12-2; LNK_PORT_CTRL): ENABLE from 0 to 1
trains a port that is OFF or DOWN once its domain is On, clearing it sends the port DOWN with cause 5, RETRAIN trains a port in service or
DOWN again, LOOPBACK 1 and 2 test in an On domain and 0 ends the test; while a running forme names the link group, no port of it is
disabled or tested (R524, log entry 70); LOOPBACK with the reserved value 3 leaves everything (log entry 23, DEDUCED); a fault, behind a
watchdog that is due (R436), sends an ACTIVE port DOWN with its cause and posts a link-down event. LNK_CTRL, LNK_SELF and LNK_TORUS while
D03 is not Off (R380; Tables 12-10 and 12-11): the register takes its value and the routes follow; LOCK holds LNK_SELF until reset, a
dimension out of range leaves LNK_TORUS; no port, message, memory or partition changes. The dimensions that LNK_TORUS holds are in range,
as its writes keep them. -/
def Obligations.PortsAndLinkRegisters : Prop :=
  (∀ (s : State) (port : Nat), port < 18 → (s.dom 3).st ≠ .off →
    let q := s.port port
    let on := s.domOn (portDom port)
    let moded (mode : Nat) : Port := { q with ctrl := BitVec.ofNat 9 (setBits q.ctrl.toNat 5 4 mode) }
    (portEnabled q = false → ∃ t, exec (.portEnable port) s = .next t ∧ portFrame s t port ∧
      t.port port = if on = true ∧ (q.state = .off ∨ q.state = .down) then ({ q with ctrl := q.ctrl ||| 1 } : Port).train
        else { q with ctrl := q.ctrl ||| 1 }) ∧
    (portEnabled q = true → exec (.portEnable port) s = .next s) ∧
    (s.groupInUse port = false → portEnabled q = true → ∃ t, exec (.portDisable port) s = .next t ∧ portFrame s t port ∧
      t.port port = if q.state = .off then { q with ctrl := q.ctrl &&& 0x1FE } else { q with ctrl := q.ctrl &&& 0x1FE, state := .down, cause := 5 }) ∧
    (portEnabled q = false ∨ s.groupInUse port = true → exec (.portDisable port) s = .next s) ∧
    (on = true → portEnabled q = true → q.state ≠ .loopback → q.state ≠ .off →
      ∃ t, exec (.retrain port) s = .next t ∧ portFrame s t port ∧ t.port port = q.train) ∧
    (on = false ∨ portEnabled q = false ∨ q.state = .loopback ∨ q.state = .off → exec (.retrain port) s = .next s) ∧
    (∀ mode, s.groupInUse port = false → mode = 1 ∨ mode = 2 → ∃ t, exec (.loopback port mode) s = .next t ∧ portFrame s t port ∧
      t.port port = if on then { moded mode with state := .loopback, cause := 0 } else moded mode) ∧
    (∃ t, exec (.loopback port 0) s = .next t ∧ portFrame s t port ∧
      t.port port = if q.state ≠ .loopback then moded 0 else if on = true ∧ portEnabled (moded 0) = true
        then ({ moded 0 with state := .off } : Port).train else { moded 0 with state := .off }) ∧
    (∀ mode, 3 ≤ mode ∨ mode ≠ 0 ∧ s.groupInUse port = true → exec (.loopback port mode) s = .next s) ∧
    (∀ cause, q.state = .active → 1 ≤ cause → cause ≤ 6 → ∃ t, exec (.portFault port cause) s = .next t ∧ portFrame s.expireAll t port ∧
      t.port port = { q with state := .down, cause := cause } ∧
      (¬ (s.lnk.following = true ∧ s.lnk.parent = port) →
        ({ t with lnk := s.lnk } : State) = s.expireAll.post 0x301 none (linkAgent port) cause 0)) ∧
    (∀ cause, q.state ≠ .active ∨ cause = 0 ∨ 6 < cause → exec (.portFault port cause) s = .next s)) ∧
  (∀ (s : State) (v : W32), (s.dom 3).st ≠ .off → s.torus.1 ≤ 32 → s.torus.2.1 ≤ 32 →
    let kept (t : State) : Prop := t.lnk.ports = s.lnk.ports ∧ t.lnk.msgs = s.lnk.msgs ∧ t.data = s.data ∧ t.parts = s.parts ∧ t.mem = s.mem
    (∃ t, exec (.lnkCtrlWrite v) s = .next t ∧ t.lnk.level = v.getLsbD 0 ∧ t.lnk.self = s.lnk.self ∧ t.lnk.torus = s.lnk.torus ∧
      routesWritten s t ∧ kept t) ∧
    (s.lnk.lock = true → exec (.lnkSelfWrite v) s = .next s) ∧
    (s.lnk.lock = false → ∃ t, exec (.lnkSelfWrite v) s = .next t ∧ t.lnk.self = v.setWidth 16 ∧ t.lnk.lock = v.getLsbD 31 ∧
      t.lnk.level = s.lnk.level ∧ t.lnk.torus = s.lnk.torus ∧ routesWritten s t ∧ kept t) ∧
    (bits v.toNat 5 0 ≤ 32 → bits v.toNat 13 8 ≤ 32 → bits v.toNat 21 16 ≤ 48 →
      ∃ t, exec (.lnkTorusWrite v) s = .next t ∧ t.lnk.torus = v &&& 0x003F3F3F ∧ t.lnk.self = s.lnk.self ∧ t.lnk.level = s.lnk.level ∧
        routesWritten s t ∧ kept t) ∧
    (32 < bits v.toNat 5 0 ∨ 32 < bits v.toNat 13 8 ∨ 48 < bits v.toNat 21 16 → exec (.lnkTorusWrite v) s = .next s))

/-- Polling and interrupts (R406, R407, R411 to R414): a pass reads every doorbell record and, where no command that it fetches acts at
its stamp (none is fetched, or a POWER is in progress), changes no device memory, register of another block or link; a fetched command is
stamped and joins the queue's end; the part sleeps only if its final pass finds nothing, and a nudge wakes it; a SERVICE, REG_READ or
REG_WRITE acts at its stamp (R417) and keeps what it did, but behind a command that has still to act waits for its row (log entry 28,
DESIGN CHOICE); a ring with new records sends its vector, or sets its pending bit while the vector is masked. -/
def Obligations.HostPollsAndInterrupts : Prop :=  (∀ (s : State) (stores : List HostStore),
    ((s.hostStores stores).polling = false → exec (.pollPass stores) s = .next (s.hostStores stores)) ∧
    ((s.hostStores stores).polling = true →
      let r := (s.hostStores stores).scanPass
      ∃ t, exec (.pollPass stores) s = .next t ∧ t = r.1.setQuiet (if r.2 || !r.1.quietNow then 0 else r.1.hif.quiet + 1) ∧
        (s.pwr.cmd.isSome = true ∨ fetchState s.rst.state = false →
          t.data.dev = s.data.dev ∧ t.data.core = s.data.core ∧ t.num = s.num ∧ t.mem = s.mem ∧ t.rst = s.rst ∧ t.lnk = s.lnk ∧ t.pwr = s.pwr ∧
          t.sec = s.sec))) ∧
  (∀ (s : State) (ring : Nat) (bytes : List Byte), byteAt bytes 0 ≠ 1 → byteAt bytes 0 ≠ 0x14 →
    let c : Cmd := { ring := ring, tag := fld bytes 4 4, stamp := s.es.seq.toNat, time := s.es.time.toNat, bytes := bytes, pre := 0, acted := none }
    (s.stamp.2.actsNow c = false → (s.stampCmd ring bytes).hif.queue = s.hif.queue ++ [c] ∧
      (s.stampCmd ring bytes).es.seq = s.es.seq + 1 ∧ (s.stampCmd ring bytes).data = s.data ∧ (s.stampCmd ring bytes).parts = s.parts) ∧
    (s.stamp.2.actsNow c = true → ∃ (h : HifRegs) (e : Nat × Nat), h.queue = s.hif.queue ++ [c] ∧
      s.stampCmd ring bytes = ({ s.stamp.2 with hif := h } : State).actStamped c ∧
      e = (({ s.stamp.2 with hif := h } : State).act c).1 ∧ ∀ q ∈ (s.stampCmd ring bytes).hif.queue, q.stamp = c.stamp → q.acted = some e)) ∧
  (∀ (s : State) (c : Cmd), c.op ≠ 2 → c.op ≠ 3 → c.op ≠ 4 → s.actsNow c = false) ∧
  (∀ (s : State) (c : Cmd), c.op = 2 ∨ c.op = 3 ∨ c.op = 4 → c.fence = false → s.pwr.cmd = none → s.hif.queue = [] → s.actsNow c = true) ∧
  (∀ (s : State) (stores : List HostStore), s.polling = true → quietPasses ≤ s.hif.quiet →
    let r := (((s.setPoll false).flush).hostStores stores).scanPass
    ∃ t, exec (.pollSleep stores) s = .next t ∧ t = (if r.2 = true then (r.1.setPoll true).flush else r.1) ∧
      (s.pwr.cmd.isSome = true ∨ fetchState s.rst.state = false →
        t.hif.poll = r.2 ∧ t.hif.sleeping = !r.2 ∧ t.hif.quiet = 0 ∧ t.data.dev = s.data.dev ∧ t.num = s.num ∧ t.mem = s.mem ∧ t.rst = s.rst)) ∧
  (∀ s : State, (s.dom 3).st ≠ .off → (s.hif.enable = true → s.hif.poll = false → s.hif.d3 = false →
      ∃ t, exec .nudge s = .next t ∧ t.hif.poll = true ∧ t.hif.sleeping = false ∧ t.hif.quiet = 0 ∧ t.parts = s.parts ∧ t.data.dev = s.data.dev) ∧
    (s.hif.enable = false ∨ s.hif.poll = true ∨ s.hif.d3 = true → exec .nudge s = .next s)) ∧
  (∀ (s : State) (ring : Nat), s.hif.enable = true → s.hostUp = true → s.hif.msixDue.contains ring = true →
    let v := (if ring = 64 then s.eqOf else s.cqOf ring).vector
    ∃ t, exec (.msixSend ring) s = .next t ∧ t.hif.msixDue = s.hif.msixDue.erase ring ∧
      tget false t.hif.msixPending v = s.msixMasked v ∧
      t.hif.msixSent = (if s.msixMasked v then s.hif.msixSent else v :: s.hif.msixSent) ∧
      (∀ w, w ≠ v → tget false t.hif.msixPending w = tget false s.hif.msixPending w) ∧ t.data = s.data)

/-- ENABLE of the host interface, and the host link (R395 to R397, R423 to R425, R538): an enable whose check passes starts ring service,
one that fails leaves it off with its reason in HIF_STATUS; a disable is refused in RUN or with a command in progress, and else advertises
POLL 0; a link reset clears Bus Master Enable, masks every vector and clears the IDE keys, and the rings stay; without D03 the link
neither resets nor trains (R497). That HOST_LINK_DEGRADED carries every training of the link, sets rate and width, flit mode at rate 7,
and posts its event only below x16 and 128 GT/s, is the model's reading (log entry 8, DESIGN CHOICE). -/
def Obligations.HostInterfaceAndLink : Prop :=  (∀ s : State, (s.dom 3).st ≠ .off → s.hif.enable = false →
    (s.hifCode = 0 → ∃ t, exec .hifEnable s = .next t ∧ t.hif.enable = true ∧ t.hif.poll = true ∧ t.hif.sleeping = false ∧
      t.parts = s.parts ∧ t.data.dev = s.data.dev ∧ t.rst = s.rst) ∧
    (s.hifCode ≠ 0 → ∃ t, exec .hifEnable s = .next t ∧ t.hif = { s.hif with reason := BitVec.ofNat 16 s.hifCode } ∧
      ({ t with hif := s.hif, es := s.es } : State) = s)) ∧
  (∀ s : State, (s.dom 3).st ≠ .off → s.hif.enable = true → exec .hifEnable s = .next s ∧
    (s.rst.state ≠ .run → s.cmdInProgress = false →
      let u := if s.hif.poll then (s.setPoll false).flush else s
      u.parts = s.parts ∧ u.data.dev = s.data.dev ∧ u.rst = s.rst ∧ exec .hifDisable s =
        .next { u with hif := { u.hif with enable := false, ringsDue := false, poll := false, sleeping := false, quiet := 0, msixDue := [] } }) ∧
    (s.rst.state = .run ∨ s.cmdInProgress = true → exec .hifDisable s = .next { s with hif := { s.hif with reason := 0x109 } })) ∧
  (∀ s : State, s.domOn 3 = false → exec .hostLinkReset s = .next s ∧ ∀ rate width, exec (.hostLinkDegraded rate width) s = .next s) ∧
  (∀ s : State, s.domOn 3 = true → ∃ t, exec .hostLinkReset s = .next t ∧ t.hif.bme = false ∧ t.hif.d3 = false ∧ t.hif.rate = 0 ∧ t.hif.width = 0 ∧ (∀ v, t.msixMasked v = true) ∧
    t.sec.keysets = [] ∧ t.sec.kemPair = none ∧ t.sec.ideSecure = false ∧ t.hif.enable = s.hif.enable ∧ t.hif.cr = s.hif.cr ∧
    t.hif.cq = s.hif.cq ∧ t.hif.queue = s.hif.queue ∧ t.parts = s.parts ∧ t.data = s.data) ∧
  (∀ (s : State) (rate width : Nat), 1 ≤ rate → rate ≤ 7 → ([1, 2, 4, 8, 16] : List Nat).contains width = true → s.domOn 3 = true →
    ∃ t, exec (.hostLinkDegraded rate width) s = .next t ∧ t.hif = { s.hif with rate := rate, width := width, flitMode := rate == 7 } ∧
      (s.hif.wasEnabled = false ∨ (rate = 7 ∧ width = 16) → t.es = s.es) ∧ ({ t with hif := s.hif, es := s.es } : State) = s) ∧
  (∀ s : State, s.hif.rate ≠ 0 → ∃ t, exec .busMasterEnable s = .next t ∧ t.hif.bme = true ∧ (s.cc.replicaDue = [] → t.parts = s.parts) ∧ t.data.dev = s.data.dev) ∧
  (∀ s : State, exec .d3hotEntry s = .next { s with hif := { s.hif with d3 := true } }) ∧
  (∀ s : State, ∃ t, exec .d0Return s = .next t ∧ t.hif.d3 = false ∧ (s.cc.replicaDue = [] → t.parts = s.parts) ∧ t.data.dev = s.data.dev)

/-- Direct accesses (R10, R398, R399, R519, R520): a BAR2 write outside RUN stores its bytes and no other, poisoned data included, which
it marks (ORIGIN 5); a read answers the bytes, zero for each poisoned one, and is marked poisoned if there is one; in RUN both are
unsupported. While D03 is not Off, a read of a status register answers its value and clears its RC field and nothing else. -/
def Obligations.DirectAccesses : Prop :=  (∀ (s : State) (poisoned : Bool) (offset : Nat) (data : List Byte), s.hif.rate ≠ 0 → s.hif.d3 = false → data ≠ [] →
    offset + data.length ≤ bar2Size →
    let a := s.hif.bar2.toNat + offset
    (s.rst.state ≠ .run → s.bar2Range a data.length = true →
      (∃ t, exec (.bar2Access (.write poisoned) offset data) s = .next t ∧
        (∀ k, t.devByte k = if a ≤ k ∧ k < a + data.length then data.getD (k - a) 0 else s.devByte k) ∧
        (poisoned = true → t.devRead a data.length = data.map (fun b => (b, 5))) ∧
        ({ t with data := s.data } : State) = s ∧ t.data.host = s.data.host ∧ t.data.core = s.data.core) ∧
      exec (.bar2Access .read offset data) s = .next { s with hif := { s.hif with
        readOut := some ((s.devRead a data.length).map (fun x => if x.2 = 0 then x.1 else 0))
        readPoison := (s.devRead a data.length).any (fun x => x.2 != 0) } }) ∧
    (s.rst.state = .run →
      exec (.bar2Access (.write poisoned) offset data) s = .next { s with hif := { s.hif with aer := 1 :: s.hif.aer } } ∧
      exec (.bar2Access .read offset data) s = .next { s with hif := { s.hif with
        aer := 1 :: s.hif.aer, readOut := none, readPoison := false } })) ∧
  (∀ s : State, (s.dom 3).st ≠ .off →
    exec .memStatusRead s = .next { s with hif := { s.hif with readOut := some (leBytes 4 s.mem.reason.toNat), readPoison := false }, mem := { s.mem with reason := 0 } } ∧
    exec .esLostRead s = .next { s with hif := { s.hif with readOut := some (leBytes 4 s.es.lost.toNat), readPoison := false }, es := { s.es with lost := 0 } } ∧
    exec .hifStatusRead s = .next { s with hif := { s.hif with readOut := some (leBytes 4 (s.hifValue .hifStatus)), readPoison := false, reason := 0 } } ∧
    exec .pwrStatusRead s = .next { s with
      hif := { s.hif with readOut := some (leBytes 4 (s.pwrValue .pwrStatus)), readPoison := false }, pwr := { s.pwr with reason := 0 } } ∧
    exec .secStatusRead s = .next { s with
      hif := { s.hif with readOut := some (leBytes 4 (s.secValue .secStatus)), readPoison := false }, sec := { s.sec with reason := 0 } })

/-- Registers with a row of their own (R10, R96, R153, R160, R318, R321, R441, R445, R447), while D03 is not Off: each write has its
effect, under its checks, and touches nothing else. A replica record is read at once where the host interface may read it, else later
(R395, R396). -/
def Obligations.RegisterRows : Prop :=  (∀ (s : State) (core : Nat), (s.dom 3).st ≠ .off → exec (.trapClear core) s =
    .next { s with num := { s.num with traps := tset Trap.zero s.num.traps core Trap.zero } }) ∧
  (∀ (s : State) (p : Nat) (v : W32), (s.dom 3).st ≠ .off → p < 8 →
    ((s.part p).status = .idle →
      exec (.numStepWrite (0x100 + 8 * p) v) s = .next { s with num := { s.num with seedLo := tset 0 s.num.seedLo p v } } ∧
      exec (.numStepWrite (0x104 + 8 * p) v) s = .next { s with num := { s.num with seedHi := tset 0 s.num.seedHi p v } } ∧
      exec (.numStepWrite (0x200 + 4 * p) v) s = .next { s with num := { s.num with step := tset 0 s.num.step p v } }) ∧
    ((s.part p).status ≠ .idle → ∀ off ∈ [0x100 + 8 * p, 0x104 + 8 * p, 0x200 + 4 * p], exec (.numStepWrite off v) s = .next s)) ∧
  (∀ (s : State) (i : Nat), (s.dom 3).st ≠ .off → (i ≤ 143 → i % 8 ≠ 7 → ∃ t, exec (.cntClear i) s = .next t ∧
      t.port (i / 8) = { s.port (i / 8) with cnt := tset 0 (s.port (i / 8)).cnt (i % 8) 0 } ∧ t.es.cntOvf = s.es.cntOvf &&& ~~~(1#144 <<< i) ∧
      (∀ q, q ≠ i / 8 → t.port q = s.port q)) ∧
    (143 < i ∨ i % 8 = 7 → exec (.cntClear i) s = .next s)) ∧
  (∀ (s : State) (off width : Nat) (v : W64), (s.dom 3).st ≠ .off →
    (regAccess off width = none → exec (.registerWrite off width v) s = .next s) ∧
    (∀ r t, s.writeReg off width v.toNat false = some (r, t) → exec (.registerWrite off width v) s = .next t)) ∧
  (∀ (s : State) (w o : Nat) (v : W32), (s.dom 3).st ≠ .off → weirOk w = true → o < 9 →
    let x := v &&& 0xFFFF7F3F
    (s.mem.ctrl = false → exec (.memWeirWrite w o v) s = .next s) ∧
    (s.mem.ctrl = true → ¬ (s.defined o = true ∧ x ≠ tget 0 s.mem.weir (weirKey w o) ∧ (s.part o).status ≠ .idle) →
      (s.badWeir w o x.toNat = true → exec (.memWeirWrite w o v) s = .next { s with mem := { s.mem with reason := 0x608 } }) ∧
      (s.badWeir w o x.toNat = false → ∃ t, exec (.memWeirWrite w o v) s = .next t ∧
        t.mem = { s.mem with weir := tset 0 s.mem.weir (weirKey w o) x } ∧ t.data = s.data ∧ ∀ q, q ≠ o → t.part q = s.part q))) ∧
  (∀ (s : State) (v : W32), (s.dom 3).st ≠ .off → (v.getLsbD 0 = true → exec (.memLevelWrite v) s = .next { s with mem := { s.mem with ctrl := true } }) ∧
    (v.getLsbD 0 = false → s.mem.ctrl = true → (∀ p, p < 8 → (s.part p).status = .idle) → ∃ t, exec (.memLevelWrite v) s = .next t ∧
      t.mem.ctrl = false ∧ t.mem.weir = deriveWeirs s.lay s.transit ∧ t.data = s.data)) ∧
  (∀ (s : State) (v : W32), (s.dom 3).st ≠ .off → (524288 < v.toNat % 2 ^ 20 → exec (.memHostWindowWrite v) s = .next { s with mem := { s.mem with reason := 0x60F } }) ∧
    (v.toNat % 2 ^ 20 ≤ 524288 → (∀ e ∈ s.mem.pte, s.entryAddr hostPage0 ≤ e.1 → e.2.getLsbD 63 = false) →
      exec (.memHostWindowWrite v) s = .next { s with mem := { s.mem with window := BitVec.ofNat 20 (v.toNat % 2 ^ 20) } })) ∧
  (∀ (s : State) (p : Nat) (v : W64) (stores : List HostStore), (s.dom 3).st ≠ .off → p < 8 →
    let u := s.hostStores stores
    let count := leNat (u.hostRead (v.toNat + 2) 2)
    let parts := (upTo count).map (fun k => leNat (u.hostRead (v.toNat + 8 + 2 * k) 2))
    (s.hostUp = true ∨ v = 0 → ∃ t, exec (.ccReplicaWrite p v stores) s = .next t ∧ tget 0 t.cc.replica p = v ∧
      t.cc.replicaOk.getLsbD p = (v.toNat != 0 && decide (2 ≤ count) && decide (count ≤ 64) && parts.contains s.selfPart) ∧
      (∀ q, q ≠ p → t.part q = s.part q) ∧ t.data = u.data) ∧
    (s.hostUp = false → v ≠ 0 → exec (.ccReplicaWrite p v stores) s = .next { u with cc := { s.cc with
      replica := tset 0 s.cc.replica p v, replicaDue := s.cc.replicaDue.filter (· != p) ++ [p] } })) ∧
  (∀ s : State, exec .eventsLost s = .next s.enterLost ∧ (s.es.lostSince = 0 ∨ esRoom ≤ s.es.buffer.length → s.enterLost = s) ∧
    (s.es.lostSince ≠ 0 → s.es.buffer.length < esRoom → s.enterLost.es.lostSince = 0 ∧ s.enterLost.es.seq = s.es.seq + 1 ∧
      ∃ e, s.enterLost.es.buffer = s.es.buffer ++ [e] ∧ e.seq = s.es.seq.toNat ∧ e.type = 0x602 ∧ e.part = none ∧
        e.detail = s.es.firstLost + min s.es.lostSince 0xFFFFFFFF * 2 ^ 32))

/-- Attestation (R535 to R537): a served request answers OP + 0x80, a reserved byte, STATUS and its data; the reports are signed over
their first 256 bytes, a KEM request binds a new key pair to the report; IDE_KEY programs one key set from the pair of the last KEM report
and consumes the pair, and is refused with 0x0714 without one; IDE_GO and IDE_STOP answer in the same form; a request of a wrong length is
answered 0x0711. What identifies the part, its signatures and its decapsulation are opaque (log entry 5). That the row IDE_GO carries a
request of the mailbox that is none of Table 17-8, which is answered 0x0711 as well (R535), is the model's choice (log entry 71, DESIGN
CHOICE). -/
def Obligations.AttestationAnswered : Prop :=  ∀ (s : State), s.doeServed = true →
    let head (op status : Nat) : List Byte := [BitVec.ofNat 8 (op + 0x80), 0, BitVec.ofNat 8 status, BitVec.ofNat 8 (status / 256)]
    (∃ t, exec .getKeys s = .next t ∧ ({ t with sec := { t.sec with doeOut := s.sec.doeOut } } : State) = s ∧ t.sec.doeOut.length = 3606 ∧
      t.sec.doeOut.take 4 = head 1 0 ∧ (t.sec.doeOut.drop 3590).take 8 = leBytes 8 Config.serial.toNat ∧
      t.sec.doeOut.drop 3598 = leBytes 8 Config.meterId.toNat) ∧
    (∀ (nonce : List Byte) (flags : Nat), nonce.length = 32 → ∃ t, exec (.getReport nonce flags) s = .next t ∧
      t.hif = s.hif ∧ t.data = s.data ∧ t.parts = s.parts ∧ t.rst = s.rst ∧
      if Config.pufOk then
        t.sec.doeOut.length = (if flags.testBit 0 then 3108 else 1540) ∧ t.sec.doeOut.take 4 = head 2 0 ∧
          (t.sec.doeOut.drop 4).take 256 = s.reportHead nonce (t.sec.doeOut.drop 1540) ∧ t.sec.reason = s.sec.reason ∧
          (t.sec.doeOut.drop 260).take 1280 = (falconSign false s.freeCtr ((t.sec.doeOut.drop 4).take 256)) ∧
          t.sec.kemPair = (if flags.testBit 0 then some (s.sec.kemCount, nonce) else s.sec.kemPair)
      else t.sec.doeOut = head 2 0x712 ∧ t.sec.reason = 0x712 ∧ t.sec.kemPair = s.sec.kemPair) ∧
    (∀ (nonce : List Byte) (flags : Nat), nonce.length ≠ 32 → ∃ t, exec (.getReport nonce flags) s = .next t ∧
      t.sec = { s.sec with doeOut := head 2 0x711, reason := 0x711 } ∧ ({ t with sec := s.sec } : State) = s) ∧
    let only (t : State) : Prop := ({ t with sec := s.sec } : State) = s
    (∀ (k n : Nat) (nonce ct : List Byte), k < 2 → ct.length = 1568 → s.sec.kemPair = some (n, nonce) →
      ∃ t, exec (.ideKey k ct) s = .next t ∧ only t ∧ t.sec.doeOut = head 3 0 ∧ t.sec.kemPair = none ∧
        tget [] t.sec.keysets k = sized 80 (shake256 80 (Config.kemDecaps n ct ++ nonce ++ [BitVec.ofNat 8 k])) ∧
        tget [] t.sec.keysets (1 - k) = tget [] s.sec.keysets (1 - k) ∧ t.sec.ideSecure = s.sec.ideSecure ∧ t.sec.reason = s.sec.reason) ∧
    (∀ (k : Nat) (ct : List Byte), k < 2 → ct.length = 1568 → s.sec.kemPair = none →
      ∃ t, exec (.ideKey k ct) s = .next t ∧ only t ∧ t.sec = { s.sec with doeOut := head 3 0x714, reason := 0x714 }) ∧
    (∀ (k : Nat) (ct : List Byte), 2 ≤ k ∨ ct.length ≠ 1568 →
      ∃ t, exec (.ideKey k ct) s = .next t ∧ only t ∧ t.sec = { s.sec with doeOut := head 3 0x711, reason := 0x711 }) ∧
    (∀ op : Nat, ∃ t, exec (.ideGo (.malformed op)) s = .next t ∧ only t ∧ t.sec = { s.sec with doeOut := head op 0x711, reason := 0x711 }) ∧
    (∀ k : Nat, ∃ t, exec (.ideGo (.ideGo k)) s = .next t ∧ only t ∧
      t.sec.doeOut = head 4 (if tget [] s.sec.keysets k ≠ [] ∧ s.hif.ideCap = true then 0 else 0x715)) ∧
    (∃ t, exec .ideStop s = .next t ∧ only t ∧ t.sec.doeOut = head 5 0)

/-- The IDE stream (R538), while the mailbox is served: IDE_GO switches it to a programmed key set and makes it Secure, and is refused
with 0x0715 if the set is not programmed or the capability is not enabled; IDE_STOP makes it Insecure, and so does a failed check of a
received TLP, reported through AER alone; a link reset clears both key sets and the key pair. What the mailbox answers is another
statement's (R535). -/
def Obligations.IdeStreamKeyed : Prop :=  ∀ (s : State),
    let only (t : State) : Prop := ({ t with sec := s.sec } : State) = s
    let shown (t : State) : SecRegs := { t.sec with doeOut := s.sec.doeOut }
    (s.doeServed = true →
      (∀ k : Nat, tget [] s.sec.keysets k ≠ [] → s.hif.ideCap = true →
        ∃ t, exec (.ideGo (.ideGo k)) s = .next t ∧ only t ∧ shown t = { s.sec with ideSecure := true, ideSet := k }) ∧
      (∀ k : Nat, tget [] s.sec.keysets k = [] ∨ s.hif.ideCap = false →
        ∃ t, exec (.ideGo (.ideGo k)) s = .next t ∧ only t ∧ shown t = { s.sec with reason := 0x715 }) ∧
      (∃ t, exec .ideStop s = .next t ∧ only t ∧ shown t = { s.sec with ideSecure := false })) ∧
    (s.sec.ideSecure = true → ∃ t, exec .ideCheckFail s = .next t ∧ t.sec = { s.sec with ideSecure := false } ∧
      t.hif = { s.hif with aer := 2 :: s.hif.aer } ∧ ({ t with sec := s.sec, hif := s.hif } : State) = s) ∧
    (s.sec.ideSecure = false → exec .ideCheckFail s = .next s) ∧
    (s.domOn 3 = true → ∃ t, exec .hostLinkReset s = .next t ∧ t.sec.keysets = [] ∧ t.sec.kemPair = none ∧ t.data = s.data ∧ t.parts = s.parts)

/-- The anti-rollback counter (R531, Table 17-10): in READY and RUN a write starts an advance only where valid firmware carries at least
that version; the counter takes the target when the advance ends, not under the inhibit, and a write behind an advance waits. That a write
outside READY and RUN has no effect is the model's reading (log entry 35, DEDUCED). The near-memory self-test (R525): GO tests an engine
that no partition owns, in a stack domain that is On, one at a time; a failed test fences the engine. That a refused SEC_NME_TEST changes
only the reason is the model's reading (log entry 45, DEDUCED). -/
def Obligations.RollbackCounterAndSelfTest : Prop :=
  (∀ (s : State),
    ((s.dom 3).st ≠ .off → ∀ n : Nat, n < 128 →
      (s.rst.state = .ready ∨ s.rst.state = .run →
        (s.sec.advancing = none → s.sec.fwValid = true → n ≤ s.sec.fwSvn.toNat → s.sec.arb.toNat < n →
          exec (.arbAdvance n) s = .next { s with sec := { s.sec with advancing := some n } }) ∧
        (s.sec.advancing = none → s.sec.fwValid = true → n ≤ s.sec.fwSvn.toNat → n ≤ s.sec.arb.toNat → exec (.arbAdvance n) s = .next s) ∧
        (s.sec.advancing = none → s.sec.fwValid = false ∨ s.sec.fwSvn.toNat < n →
          exec (.arbAdvance n) s = .next { s with sec := { s.sec with reason := 0x705 } }) ∧
        (s.sec.advancing ≠ none → exec (.arbAdvance n) s = .next { s with sec := { s.sec with arbWait := s.sec.arbWait ++ [n] } })) ∧
      (s.rst.state ≠ .ready → s.rst.state ≠ .run → exec (.arbAdvance n) s = .next s)) ∧
    (∀ n : Nat, s.sec.advancing = some n →
      (s.pwr.inhibit = true → exec .arbAdvanceDone s = .next s) ∧
      (s.pwr.inhibit = false → ∃ t, exec .arbAdvanceDone s = .next t ∧ t.sec.arb = BitVec.ofNat 7 n ∧
        ({ t with sec := s.sec } : State) = s ∧ t.sec.fwSvn = s.sec.fwSvn ∧
        (s.sec.arbWait.all (fun w => decide (w ≤ n)) = true → n < 128 → t.sec.advancing = none ∧ t.sec.arbWait = []))) ∧
    (s.sec.advancing = none → exec .arbAdvanceDone s = .next s)) ∧
  (∀ (s : State) (v : W32),
    let e := v.toNat % 256
    ((s.dom 3).st ≠ .off →
    (v.getLsbD 31 = true → s.engineOwned e = false → s.sec.nmeUnder = none → s.domOn (11 + e / 32) = true →
      exec (.nmeTest v) s = .next { s with sec := { s.sec with nmeEngine := BitVec.ofNat 8 e, nmeUnder := some e, nmeResult := 0 } }) ∧
    (v.getLsbD 31 = true → s.engineOwned e = true ∨ s.sec.nmeUnder ≠ none →
      exec (.nmeTest v) s = .next { s with sec := { s.sec with reason := 0x731 } }) ∧
    (v.getLsbD 31 = true → s.engineOwned e = false → s.sec.nmeUnder = none → s.domOn (11 + e / 32) = false →
      exec (.nmeTest v) s = .next { s with sec := { s.sec with reason := 0x732 } }) ∧
    (v.getLsbD 31 = false → exec (.nmeTest v) s = .next { s with sec := { s.sec with nmeEngine := v.setWidth 8 } })) ∧
    (∀ (k : Nat) (passed : Bool), s.sec.nmeUnder = some k → ∃ t, exec (.nmeTestDone passed) s = .next t ∧ ({ t with sec := s.sec } : State) = s ∧
      t.sec.nmeUnder = none ∧ t.sec.nmeResult = (if passed then 1 else 2) ∧ t.sec.nmeEngine = s.sec.nmeEngine ∧
      ∀ j : Nat, j < 256 → t.sec.fenced.getLsbD j = (s.sec.fenced.getLsbD j || (!passed && decide (j = k)))) ∧
    (∀ passed : Bool, s.sec.nmeUnder = none → exec (.nmeTestDone passed) s = .next s))

/-- A full reset (R450, R451, R455; Table 15-1): power-on reset, RESET_N with the full scope or before the first READY (R452), and TEST_EN
(R551) clear every domain but D00 and D02, which leave a power-on reset in their own time; power-on reset clears those two as well but for
the meter's ledger. A part-state event that a stop at D01 owes stays owed through further ones (R459), and so does REASON 0x0401 of a stop
at D01 or D03 (Table 15-12). That lost memories read 0 and are sound is the model's choice (log entry 7; R454 leaves them unspecified). A
compute-only reset (R451, R456, R457): core memories, galleys, near-memory SRAM and the activation stores are lost, every partition is
IDLE, D11 to D35 are held; layout, page tables, fuses and meter stay, and so do device and host memory where no cache set is registered
and no update engine is stopped in mid-array. That core memories and near-memory SRAM then read 0 and are sound is the model's choice (log
entry 7: R454 leaves them unspecified). -/
def Obligations.ResetsKeepAndLose : Prop :=
  (∀ (s : State),
    (∃ t, exec .powerOnReset s = .next t ∧ coldFrom s t ∧ t.rst.cause = 1 ∧ t.rst.released = 0 ∧ t.rst.seq = none ∧
      t.mu.slots = s.mu.slots ∧ t.mu.newest = s.mu.newest ∧ t.mu.alarms = s.mu.alarms &&& 1 ∧ t.pins = { PinRegs.reset with prodTest := s.rst.testEn }) ∧
    (∀ scope : Bool, s.rst.porAsserted = false → s.rst.resetLow = false → s.rst.testEn = false → s.released 0 = true → s.released 2 = true →
      scope = false ∨ s.rst.everReady = false →
      ∃ t, exec (.resetNFall scope) s = .next t ∧ coldFrom s t ∧ t.rst.cause = 2 ∧ t.rst.released = 5 ∧ t.rst.seq = none ∧ t.rst.resetLow = true ∧
        t.rst.scopeStrap = scope ∧ t.mu = s.mu ∧ ({ t.pins with driven := s.pins.driven, hiz := s.pins.hiz } : PinRegs) = s.pins ∧
        t.rst.owed = s.rst.owed ∧ t.rst.reason = if s.rst.reason = 0x401 ∧ s.rst.earlyStop = true then 0x401 else 0) ∧
    (∀ scope : Bool, s.rst.porAsserted = false → s.rst.resetLow = false → s.rst.testEn = false → s.released 2 = false →
      scope = false ∨ s.rst.everReady = false →
      ∃ t q, exec (.resetNFall scope) s = .next t ∧ coldFrom s t ∧ t.rst.seq = some q ∧ q.risen = false ∧
        q.left = (if s.released 0 then [2] else [0, 2]) ++ releaseOrder.drop 2 ∧ (∀ r, s.rst.seq = some r → q.gapEnd = r.gapEnd)) ∧
    (∀ scope : Bool, s.rst.resetLow = true → exec (.resetNFall scope) s = .next s) ∧
    (s.rst.porAsserted = false → s.rst.testEn = false → s.released 0 = true → s.released 2 = true →
      ∃ t, exec .testEnHigh s = .next t ∧ coldFrom s t ∧ t.rst.cause = s.rst.cause ∧ t.rst.released = 5 ∧ t.rst.testEn = true ∧ t.mu = s.mu ∧
        t.pins = { s.pins with prodTest := true }) ∧
    (s.rst.porAsserted = false → s.rst.testEn = false → s.released 2 = false →
      ∃ t q, exec .testEnHigh s = .next t ∧ t.rst.seq = some q ∧ q.left = (if s.released 0 then [2] else [0, 2]) ++ releaseOrder.drop 2) ∧
    (s.rst.testEn = true → exec .testEnHigh s = .next s)) ∧
  (∀ (s : State), s.rst.porAsserted = false → s.rst.resetLow = false → s.rst.testEn = false → s.rst.everReady = true → s.rst.seq = none →
    ∃ t, exec (.resetNFall true) s = .next t ∧
      t.rst.cause = 3 ∧ t.rst.computeOnly = true ∧ t.rst.resetLow = true ∧ t.rst.scopeStrap = true ∧
      t.rst.released = s.rst.released &&& 0x7FF ∧ t.rst.locked = s.rst.locked &&& 0x7FF ∧
      (s.rst.state = .ready ∨ s.rst.state = .run → t.rst.state = .reset) ∧
      (s.rst.state ≠ .ready → s.rst.state ≠ .run → t.rst.state = s.rst.state) ∧
      (∀ p, p < 8 → (t.part p).status = .idle ∧ ∀ r ∈ (t.part p).resident, r.enabled = false) ∧
      (∀ c off, c < 1024 → off < coreBytes → tget 0 t.data.core (coreAt c off) = 0) ∧
      (∀ c g r k, c < 1024 → g < 2 → r < 128 → k < 192 → tget 0 t.data.galley (galElem c g r k) = 0) ∧
      (∀ e off, e < 256 → off < sramBytes → tget 0 t.data.sram (sramAt e off) = 0) ∧
      t.data.store = [] ∧ t.accq = [] ∧ t.serving = [] ∧
      t.layout = s.layout ∧ t.mem.pte = s.mem.pte ∧ t.mem.allocs = s.mem.allocs ∧ t.rst.defect = s.rst.defect ∧ t.mu = s.mu ∧
      ((∀ p, p < 8 → s.cset p = none) → s.updating = [] → t.data.dev = s.data.dev ∧ t.data.host = s.data.host))

/-- The release sequence (R458, R459; Tables 15-2 and 15-3): where it starts for each reset, what the release of a domain and the end of
the sequence do once its island reports lock in time, that nothing else is released before, and what a domain that does not lock within
65,536 REFCLK cycles does, which then stays in reset with those after it. A domain that a compute-only reset finds Off, like one marked
failed, stays in reset while its gap counts; so does a field under renewal, which is the model's choice (log entry 20). A stack domain of
a compute-only reset repairs its lanes as it is released. That D01 follows D02 without a gap where RESET_N rose before them (the `risen`
clauses) is the model's choice (log entry 72, DESIGN CHOICE; R548). -/
def Obligations.ReleaseSequence : Prop :=  ∀ (s : State),
    (s.rst.porAsserted = true →
      exec .powerOnResetEnd s = .next { s with rst := { s.rst with porAsserted := false, seq := some { left := releaseOrder, gapEnd := s.clk, risen := false } } }) ∧
    (s.rst.porAsserted = false → exec .powerOnResetEnd s = .next s) ∧
    (∀ src : Bool, s.rst.resetLow = false → exec (.resetNRise src) s = .next s) ∧
    (∀ src : Bool, s.rst.resetLow = true → s.rst.porAsserted = false → s.rst.testEn = false → s.rst.seq = none →
      exec (.resetNRise src) s = .next { s with
        rst := { s.rst with resetLow := false, bootStrap := src,
                            seq := some { left := releaseOrder.drop (if s.rst.computeOnly then 11 else 2), gapEnd := s.clk, risen := false } },
        pins := { s.pins with driven := false, hiz := false } }) ∧
    (∀ (src : Bool) (q : Release), s.rst.resetLow = true → s.rst.porAsserted = false → s.rst.testEn = false → s.rst.seq = some q →
      ∃ t, exec (.resetNRise src) s = .next t ∧
        t.rst.seq = some (if q.left.head? = some 1 then { q with gapEnd := s.clk } else { q with risen := true })) ∧
    (∀ (d e g : Nat) (rest locked : List Nat) (faults : List LaneFault) (up : Bool),
      s.rst.seq = some { left := d :: e :: rest, gapEnd := g, risen := up } →
      s.rst.resetLow = false → s.rst.testEn = false → releasable s d g locked →
      let stays := s.staysDown d = true
      let released := if stays then s.rst.released else s.rst.released ||| 1#36 <<< d
      let seq : Release := { left := e :: rest, risen := up && e != 1,
                             gapEnd := max s.clk g + (if up && e == 1 then 0 else if releaseGroup d = releaseGroup e then 512 else 4096) * 94500 }
      ∃ t, exec (.domainRelease ⟨locked, faults⟩) s = .next t ∧ t.clk = max s.clk g ∧ t.data = s.data ∧
        islandsLock s t d g (d :: e :: rest) locked ∧ t.rst.released = released ∧ t.rst.seq = some seq ∧
        (s.rst.computeOnly = false ∨ d < 11 ∨ 18 < d ∨ (∀ f ∈ faults, f.stack ≠ d - 11) → t.rst = { s.rst with
          released := released, locked := t.rst.locked, owed := if d = 1 ∧ ¬ stays then none else s.rst.owed, seq := some seq }) ∧
        (s.rst.computeOnly = true → 11 ≤ d → d ≤ 18 →
          ((∀ f ∈ faults, f.stack = d - 11 → f.spare ≠ none) → t.rst.state = s.rst.state ∧ t.mem.lost = s.mem.lost) ∧
          (∀ f ∈ faults, f.stack = d - 11 → f.spare = none → s.rst.state ≠ .off → t.rst.state = .lost))) ∧
    (∀ (d g : Nat) (locked : List Nat) (faults : List LaneFault) (up : Bool), s.rst.seq = some { left := [d], gapEnd := g, risen := up } → s.rst.resetLow = false →
      s.rst.testEn = false → 18 < d → d < 36 → releasable s d g locked →
      let down (x : BitVec 36) := if s.staysDown d = true then x else x ||| 1#36 <<< d
      ∃ t, exec (.domainRelease ⟨locked, faults⟩) s = .next t ∧ t.clk = max s.clk g ∧ t.data = s.data ∧ t.rst = { s.rst with
        released := down s.rst.released, locked := down s.rst.locked, seq := none, computeOnly := false,
        state := if s.rst.state ≠ .reset then s.rst.state else if s.rst.computeOnly then .ready else .boot }) ∧
    (∀ (d g : Nat) (rest locked : List Nat) (faults : List LaneFault) (up : Bool),
      s.rst.seq = some { left := d :: rest, gapEnd := g, risen := up } →
      s.rst.resetLow = false → s.rst.testEn = false → s.staysDown d = false →
      s.rst.locked.getLsbD d = false → d ∉ locked ∨ g + 65536 * 94500 < s.clk →
      ∃ t, exec (.domainRelease ⟨locked, faults⟩) s = .next t ∧ islandsLock s t d g (d :: rest) locked ∧
        ({ t with rst := { t.rst with locked := s.rst.locked } } : State) = s) ∧
    (∀ (d g : Nat) (rest : List Nat) (up : Bool), s.rst.seq = some { left := d :: rest, gapEnd := g, risen := up } → s.rst.resetLow = false → s.rst.testEn = false →
      s.staysDown d = false → s.rst.state ≠ .lost →
      (s.rst.locked.getLsbD d = false → ∃ t, exec .lockTimeout s = .next t ∧ t.clk = max s.clk (g + 65536 * 94500) ∧ t.data = s.data ∧
        t.rst = { s.rst with state := .halted, reason := 0x401, domain := BitVec.ofNat 6 d, seq := none, kept := d :: rest, earlyStop := d == 1 || d == 3,
                             owed := if d = 1 then some (PState.code .halted + s.rst.state.code * 16 + d * 256) else s.rst.owed }) ∧
      (s.rst.locked.getLsbD d = true → exec .lockTimeout s = .next s)) ∧
    (s.rst.seq = none → (∀ locked faults, exec (.domainRelease ⟨locked, faults⟩) s = .next s) ∧ exec .lockTimeout s = .next s)

/-- The boot image (R469 to R471): GO fetches it whole from host memory or is refused with its code, also while a fetched image awaits its
check; a relay request asks a neighbour for the first missing range. That the ROM waits for no image once firmware runs is the model's
reading (log entry 21). The boot ROM's check (R528 to R530; Table 17-6): an image that passes every step starts firmware and shows its
digest and version, one that fails is dropped and its code shown, the part stays in BOOT. Digest and signature are opaque (log entry 5).
-/
def Obligations.BootImageTaken : Prop :=
  ((∀ (s : State) (fetched : Bool) (stores : List HostStore), (s.dom 3).st ≠ .off →
    let h := s.hostStores stores
    let n := s.rst.bootLen.toNat
    let a := s.rst.bootAddr.toNat
    let refused (code : W16) : Prop := exec (.bootGo fetched stores) s = .next { h with rst := { s.rst with reason := code } }
    (s.rst.state ≠ .boot ∨ s.rst.bootHost = true ∨ s.rst.fwRunning = true → refused 0x402) ∧
    (s.rst.state = .boot → s.rst.bootHost = false → s.rst.fwRunning = false →
      (n < 64 ∨ 1048576 < n ∨ a % 64 ≠ 0 → refused 0x403) ∧
      (64 ≤ n → n ≤ 1048576 → a % 64 = 0 →
        (fetched = false ∨ s.hostUp = false → refused 0x404) ∧
        (fetched = true → s.hostUp = true → ∃ t, exec (.bootGo fetched stores) s = .next t ∧ t.rst.bootTotal = n ∧ t.rst.bootHost = true ∧
          readBytes t.rst.bootBuf 0 n = h.hostRead a n ∧ t.rst.imageWhole = true ∧ t.rst.reason = s.rst.reason ∧
          ({ t with rst := s.rst } : State) = h)))) ∧
  (∀ (s : State) (port : Nat), port < 18 → s.rst.state = .boot → s.rst.bootStrap = true → s.rst.bootHost = false → s.rst.fwRunning = false →
    (s.port port).state = .active → s.rst.imageWhole = false →
    let total := if s.rst.bootTotal = 0 then 1048576 else s.rst.bootTotal
    ∃ (t : State) (lo hi : Nat), exec (.bootRelayRequest port) s = .next t ∧
      lo ≤ hi ∧ hi ≤ total ∧ (∀ i, i < lo → s.rst.holds i = true) ∧ (∀ i, lo ≤ i → i < hi → s.rst.holds i = false) ∧
      (hi = total ∨ s.rst.holds hi = true) ∧ (s.rst.bootTotal ≠ 0 → lo < hi) ∧
      t.rst = { s.rst with bootMsg := s.rst.bootMsg + 1 } ∧ t.data = s.data ∧
      t = ({ s with rst := t.rst } : State).queueControl port
        (controlFlit 0xFFFF 0xFFFF 1 1 s.rst.bootMsg.toNat 0 1 ([1, 0, 0, 0] ++ leBytes 4 lo ++ leBytes 4 (hi - lo))))) ∧
  (∀ (s : State), s.rst.state = .boot → s.rst.fwRunning = false → s.rst.imageWhole = true →
    let m := readBytes s.rst.bootBuf 0 s.rst.bootTotal
    let key := (m.drop 0x40).take 1793
    let formed := 4096 ≤ m.length ∧ fld m 0 4 = 0x57465658 ∧ fld m 4 2 = 1 ∧ fld m 6 2 = 4096 ∧ fld m 8 4 = m.length ∧
      fld m 0x14 12 = 0 ∧ fld m 0x28 24 = 0 ∧ fld m 0x741 63 = 0 ∧ fld m 0xC80 896 = 0
    let rooted := shake256 32 key = sized 32 Config.rootHash
    let signed := falconVerify key (m.take 0x780 ++ List.replicate 1280 0 ++ m.drop 0xC80) ((m.drop 0x780).take 1280) = true
    let current := s.sec.arb.toNat ≤ fld m 0xC 4 ∧ fld m 0xC 4 ≤ 64
    let bad (t : State) (code : W16) : Prop := t = { s with
      rst := { s.rst with reason := code, bootBuf := [], bootHave := [], bootTotal := 0, bootHost := false }
      sec := { s.sec with reason := code } }
    ∃ t, exec .imageVerify s = .next t ∧
      (formed ∧ rooted ∧ signed ∧ current → t = { s with
        rst := { s.rst with fwRunning := true }
        sec := { s.sec with fwValid := true, fwDigest := shake256 32 m, fwSvn := BitVec.ofNat 7 (fld m 0xC 4) } }) ∧
      (¬ formed → bad t 0x701) ∧ (formed → ¬ rooted → bad t 0x702) ∧ (formed → rooted → ¬ signed → bad t 0x703) ∧
      (formed → rooted → signed → ¬ current → bad t 0x704))

/-- Memory training and the end of link training (R300, R322, R472; Tables 10-9 and 15-6): the part goes from BOOT to LINK_TRAIN where
every faulty lane has a spare, from LINK_TRAIN to TOPO_CHECK once no port trains, where a held GO whose record cannot be fetched is
refused (0x0308); a memory that cannot be used sends it to LOST, and its channels then stand in the model's own list of lost channels (log
entry 62, a choice: no field of R468 names them). Topology agreement (R473 to R475; Tables 15-7, 15-8 and 15-10): GO is held in LINK_TRAIN
and served in TOPO_CHECK; a record with which every port agrees sets LNK_SELF (locked), LNK_TORUS and the time root and takes the part to
READY, else the first reason is shown and the part stays. -/
def Obligations.BringUpAndTopology : Prop :=
  ((∀ (s : State), s.rst.state = .boot → s.rst.fwRunning = true →
    (∀ (density ranks : Nat) (faults : List LaneFault), 1 ≤ density → density ≤ 3 → 1 ≤ ranks → ranks ≤ 2 →
      ∃ t, exec (.memoryTrainingDone (.good density ranks faults)) s = .next t ∧
        t.mem.trained = 64 ∧ t.mem.density = density ∧ t.mem.ranks = ranks ∧ t.data = s.data ∧ t.parts = s.parts ∧ t.lnk = s.lnk ∧
        (if faults.all (fun f => f.spare.isSome) then t.rst.state = .linkTrain ∧ t.mem.lost = s.mem.lost else t.rst.state = .lost)) ∧
    (∀ c : Nat, c < 64 → ∃ t, exec (.memoryTrainingDone (.boardFailed c)) s = .next t ∧ t.rst.state = .lost ∧
      t.mem.lost = s.mem.lost ++ [256 + c] ∧ t.data = s.data) ∧
    (∃ t, exec (.memoryTrainingDone .boardUnsupported) s = .next t ∧ t.rst.state = .lost ∧ t.mem = s.mem ∧ t.data = s.data)) ∧
  (∀ (s : State) (found : MemTraining), s.rst.state ≠ .boot ∨ s.rst.fwRunning = false → exec (.memoryTrainingDone found) s = .next s) ∧
  (∀ (s : State) (fetched : Bool), s.rst.state = .linkTrain →
    ((∀ p, p < 18 → (s.port p).state ≠ .laneTrain ∧ (s.port p).state ≠ .width ∧ (s.port p).state ≠ .ident) → s.rst.topoHeld = none →
      ∃ t, exec .linkTrainEnd s = .next t ∧ t.rst = { s.rst with state := .topoCheck } ∧ t.lnk = s.lnk ∧ t.data = s.data ∧ t.parts = s.parts) ∧
    ((∀ p, p < 18 → (s.port p).state ≠ .laneTrain ∧ (s.port p).state ≠ .width ∧ (s.port p).state ≠ .ident) → s.rst.topoHeld = some fetched →
      fetched = false ∨ s.hostUp = false → ∃ t, exec .linkTrainEnd s = .next t ∧
        t.rst = { s.rst with state := .topoCheck, topoHeld := none, reason := 0x308 } ∧ t.lnk = s.lnk ∧ t.data = s.data ∧ t.parts = s.parts) ∧
    (∀ p, p < 18 → (s.port p).state = .laneTrain ∨ (s.port p).state = .width ∨ (s.port p).state = .ident → exec .linkTrainEnd s = .next s)) ∧
  (∀ s : State, s.rst.state ≠ .linkTrain → exec .linkTrainEnd s = .next s)) ∧
  (∀ (s : State) (fetched : Bool) (stores : List HostStore), (s.dom 3).st ≠ .off →
    let h := s.hostStores stores
    let m := h.hostRead s.rst.topoAddr.toNat 320
    let refused (code : W16) : Prop := exec (.topoGo fetched stores) s = .next { h with rst := { s.rst with reason := code } }
    (s.rst.state = .linkTrain → exec (.topoGo fetched stores) s = .next { h with rst := { s.rst with topoHeld := some fetched } }) ∧
    (s.rst.state ≠ .linkTrain → s.rst.state ≠ .topoCheck → refused 0x405) ∧
    (s.rst.state = .topoCheck →
      (s.rst.topoAddr.toNat % 64 ≠ 0 ∨ fetched = false ∨ s.hostUp = false → refused 0x308) ∧
      (s.rst.topoAddr.toNat % 64 = 0 → fetched = true → s.hostUp = true → ∃ t, exec (.topoGo fetched stores) s = .next t ∧ t.data = h.data ∧
        (topoRecordCode m ≠ 0 → t = { h with rst := { s.rst with topoFail := 0, reason := BitVec.ofNat 16 (topoRecordCode m) } }) ∧
        (topoRecordCode m = 0 →
          (∀ p, p < 18 → t.rst.topoFail.getLsbD p = decide (s.topoPortCode m p ≠ 0)) ∧
          (∀ p, p < 18 → s.topoPortCode m p ≠ 0 → (∀ r, r < p → s.topoPortCode m r = 0) →
            t.rst.state = .topoCheck ∧ t.rst.reason = BitVec.ofNat 16 (s.topoPortCode m p) ∧ ({ t with rst := s.rst } : State) = h) ∧
          ((∀ p, p < 18 → s.topoPortCode m p = 0) →
            t.rst.state = .ready ∧ t.rst.everReady = true ∧ t.rst.reason = s.rst.reason ∧ t.lnk.root.toNat = fld m 0xC 2 ∧
            t.lnk.torus.toNat = byteAt m 8 + byteAt m 9 * 256 + byteAt m 0xA * 65536 ∧
            (s.lnk.lock = false → t.lnk.self.toNat = fld m 6 2 ∧ t.lnk.lock = true))))))

/-- Renewal (R476, R477; Table 15-9): GO on an idle defined partition takes the fields that are not Off out of service, their engines with
them, and clears the enable bits of its formes, or is refused with the first reason; a self-test that found nothing gives the fields back
with zeroed memories, but for those that a reset or a stopped release still holds (R456, R459). A field with two faulty sites is marked
failed and turned Off. That a renewal in HALTED leaves the fields of a stopped release in reset is the model's reading (log entry 20).
Faults of a memory in service (R323, R517; log entry 63): a failed board channel, an HBM4 transfer that fails after its retries and an
uncorrectable error of control memory lose the part; a corrected error is shown in SEC_ERR and leaves all else; an uncorrectable one of a
core-memory word poisons that word and no other. The failure of another block that cannot be removed loses the part as well (R527). The
list of lost channels is the model's own (log entry 62, a choice), and so is the row that carries each fault (log entry 63). -/
def Obligations.RenewalAndLostChannel : Prop :=
  ((∀ (s : State) (v : W32),
    (s.dom 3).st ≠ .off →
    let p := v.toNat % 8
    let refused (code : W16) : Prop := exec (.renewGo v) s = .next { s with rst := { s.rst with
      renewPart := BitVec.ofNat 3 p, reason := code, renewReason := code } }
    (v.getLsbD 8 = false → exec (.renewGo v) s = .next { s with rst := { s.rst with renewPart := BitVec.ofNat 3 p } }) ∧
    (v.getLsbD 8 = true → s.defined p = false → refused 0x407) ∧
    (v.getLsbD 8 = true → s.defined p = true → (s.part p).status ≠ .idle → refused 0x408) ∧
    (v.getLsbD 8 = true → s.defined p = true → (s.part p).status = .idle → s.rst.renewing ≠ none → refused 0x409) ∧
    (v.getLsbD 8 = true → s.defined p = true → (s.part p).status = .idle → s.rst.renewing = none →
      ∃ (t : State) (fields : Nat), exec (.renewGo v) s = .next t ∧ t.rst.renewing = some (p, fields) ∧ t.rst.renewState = 1 ∧
        (∀ f, f < 16 → fields.testBit f = (bit (s.lay p).fields f && (s.dom (19 + f)).st != .off)) ∧
        (∀ d, d < 36 → t.released d = (s.released d && !(decide (19 ≤ d) && decide (d ≤ 34) && fields.testBit (d - 19)))) ∧
        (∀ r ∈ (t.part p).resident, r.enabled = false) ∧ (t.part p).status = .idle ∧ fieldsIdle t fields ∧
        (∀ q, q ≠ p → (t.part q).status = (s.part q).status ∧ (t.part q).resident = (s.part q).resident) ∧
        (fieldsIdle s fields → ∀ q, q ≠ p → t.part q = s.part q) ∧
        ({ t with rst := s.rst, parts := s.parts } : State) = s)) ∧
  (∀ (s : State) (p fields : Nat), s.rst.renewing = some (p, fields) →
    ((∀ f, f < 16 → fields.testBit f = true → s.fieldFailed f = false) →
      ∃ t, exec (.renewComplete []) s = .next t ∧ t.rst.renewing = none ∧ t.rst.renewState = 2 ∧ t.rst.renewFailed = 0 ∧ t.rst.renewReason = 0 ∧
        (∀ f, f < 16 → fields.testBit f = true →
          t.released (19 + f) = (s.released (19 + f) || !({ s with rst := { s.rst with renewing := none } } : State).keptDown (19 + f)) ∧
          (∀ c off, c < 64 → off < coreBytes → tget 0 t.data.core (coreAt (64 * f + c) off) = 0) ∧
          ∀ c, c < 64 → tget Trap.zero t.num.traps (64 * f + c) = Trap.zero ∧ tget 0 t.num.me (64 * f + c) = 0) ∧
        (∀ f c off, f < 16 → fields.testBit f = false → c < 64 → off < coreBytes →
          tget 0 t.data.core (coreAt (64 * f + c) off) = tget 0 s.data.core (coreAt (64 * f + c) off)) ∧
        t.data.dev = s.data.dev ∧ (fieldsIdle s fields → t.parts = s.parts) ∧ t.pwr = s.pwr) ∧
    (∀ f x y : Nat, f < 16 → fields.testBit f = true → x ≠ y →
      ∃ t, exec (.renewComplete [{ field := f, badSites := [x, y], rowRepairs := [], sramLost := false, stopped := false }]) s = .next t ∧
        t.rst.renewing = none ∧ t.rst.renewFailed.getLsbD f = true ∧ t.rst.renewReason = 0x40A ∧ (t.dom (19 + f)).st = .off ∧
        t.released (19 + f) = s.released (19 + f) ∧ t.fieldFailed f = true)) ∧
  (∀ (s : State) (found : List FieldTest), s.rst.renewing = none → exec (.renewComplete found) s = .next s)) ∧
  ((∀ (s : State) (c : Nat),
    (c < 64 → s.mem.trained ≠ 0 → ∃ t, exec (.boardChannelFailed (.board c)) s = .next t ∧
      t.mem = { s.mem with lost := s.mem.lost ++ [256 + c] } ∧ onlyLoss s t ∧ t.sec = s.sec) ∧
    (64 ≤ c ∨ s.mem.trained = 0 → exec (.boardChannelFailed (.board c)) s = .next s) ∧
    (c < 256 → s.mem.trained ≠ 0 → ∃ t, exec (.boardChannelFailed (.transfer c)) s = .next t ∧
      t.mem = { s.mem with lost := s.mem.lost ++ [c] } ∧ onlyLoss s t ∧ t.sec = s.sec) ∧
    (256 ≤ c ∨ s.mem.trained = 0 → exec (.boardChannelFailed (.transfer c)) s = .next s)) ∧
  (∀ (s : State) (b : FixedBlock), ∃ t, exec (.boardChannelFailed (.block b)) s = .next t ∧ t.mem = s.mem ∧ onlyLoss s t ∧ t.sec = s.sec) ∧
  (∀ (s : State) (w : Protected), exec (.boardChannelFailed (.error w true)) s = .next { s with sec := { s.sec with
    err := BitVec.ofNat 32 (0x80000000 + originAt w), errWhere := BitVec.ofNat 64 (whereAt w) } }) ∧
  (∀ s : State, ∃ t, exec (.boardChannelFailed (.error .control false)) s = .next t ∧ onlyLoss s t ∧ t.sec.reason = 0x750 ∧ t.mem = s.mem) ∧
  (∀ (s : State) (core off : Nat), core < 1024 → off < coreBytes →
    ∃ t, exec (.boardChannelFailed (.error (.core core off) false)) s = .next t ∧ t.data.core = s.data.core ∧ t.data.dev = s.data.dev ∧
      (∀ k, t.data.mark .core k = if k = coreAt core off / 8 then 1 else s.data.mark .core k) ∧ t.sec = { s.sec with
        unc := 0x80000001, uncWhere := BitVec.ofNat 64 (whereRes (resBank core (off / 131072))) } ∧ t.rst = s.rst ∧ t.mem = s.mem ∧ t.parts = s.parts))

/-- Thermal protection (R493 to R497; Table 16-5): a reading is kept; two consecutive readings of a sensor at 110 °C (1,760 sixteenths)
trip: HALTED, a freeze cause in every partition that runs, no run starting; two at 120 °C turn every domain but D00 and D02 Off. That a
critical trip outside READY and RUN keeps the part's state is the model's reading (log entry 35, DEDUCED: Table 15-6 against R497). The
shutdown after a trip (Table 16-5): D11 to D34 are Off and TRIPPED, lose their state and are held in reset, the other domains stay, and no
forme that names one of the domains that changed is enabled. That the lost memories read 0 is the model's choice (log entry 7). The
supply-sag inhibit (R499, R500, R509): each unit sees a sag 10 µs after its own comparators did, and its end 1 ms after both rails came
good (which unit first, and whether a held write verifies, are free values: log entry 22); then the power controller blows the held fuse
words, or the meter writes the interrupted record again and commits the pending ones in order, and DELAYED falls. That a record not yet
committed shows COMMIT all ones is log entry 39 (DEDUCED). -/
def Obligations.ProtectionActs : Prop :=
  (∀ (s : State) (i : Nat) (raw : BitVec 16), i < 26 → s.rst.porAsserted = false →
    let v := toSigned 16 raw.toNat
    (v < 1760 → exec (.thermalSample i raw) s = .next { s with pwr := { s.pwr with
      temps := tset 0 s.pwr.temps i (BitVec.ofNat 17 (65536 + raw.toNat)), hot := tset 0 s.pwr.hot i 0, critHot := tset 0 s.pwr.critHot i 0 } }) ∧
    (1760 ≤ v → v < 1920 → tget 0 s.pwr.hot i = 0 → exec (.thermalSample i raw) s = .next { s with pwr := { s.pwr with
      temps := tset 0 s.pwr.temps i (BitVec.ofNat 17 (65536 + raw.toNat)), hot := tset 0 s.pwr.hot i 1, critHot := tset 0 s.pwr.critHot i 0 } }) ∧
    (1760 ≤ v → v < 1920 → 0 < tget 0 s.pwr.hot i → s.pwr.trip = false → ∃ t, exec (.thermalSample i raw) s = .next t ∧
      t.pwr.trip = true ∧ t.pwr.sensor = BitVec.ofNat 5 i ∧ t.pwr.crit = s.pwr.crit ∧ t.temp i = BitVec.ofNat 17 (65536 + raw.toNat) ∧ t.data = s.data ∧
      (s.rst.state = .ready ∨ s.rst.state = .run → t.rst.state = .halted) ∧ t.rst.reason = 0x501 ∧
      (∀ p, p < 8 → ((s.part p).status = .running ∨ (s.part p).status = .frozen → .trip ∈ (t.part p).causes ∧ (t.part p).status = (s.part p).status) ∧
        ((s.part p).status = .starting ∨ (s.part p).status = .idle → (t.part p).status = .idle))) ∧
    (1920 ≤ v → 0 < tget 0 s.pwr.critHot i → s.pwr.crit = false → ∃ t, exec (.thermalSample i raw) s = .next t ∧
      t.pwr.trip = true ∧ t.pwr.crit = true ∧ t.rst.state = (if s.rst.state = .ready ∨ s.rst.state = .run then .halted else s.rst.state) ∧
      t.rst.reason = 0x502 ∧ t.rst.released = s.rst.released &&& 5 ∧
      (∀ d, d < 36 → d ≠ 0 → d ≠ 2 → (t.dom d).st = .off ∧ (t.dom d).tripped = true) ∧ (∀ q, q < 18 → (t.port q).state = .down ∧ (t.port q).cause = 6) ∧ (∀ p, p < 8 → (t.part p).status = .idle) ∧
      t.data.core = [] ∧ t.data.sram = [] ∧ t.data.store = [] ∧ t.mu = s.mu ∧ t.sec = s.sec ∧ t.es.seq = 0)) ∧
  (∀ (s : State),
    (∀ t0 : Nat, s.pwr.tripAt = some t0 → ∃ t, exec .tripShutdown s = .next t ∧ t.pwr.tripAt = none ∧
      (∀ d, 11 ≤ d → d ≤ 34 → (t.dom d).st = .off ∧ (t.dom d).tripped = true ∧ (t.dom d).rate = (s.dom d).rate ∧ t.released d = false ∧
        ((s.dom d).st ≠ .off → (t.dom d).lockFail = false)) ∧
      (∀ d, d < 36 → d < 11 ∨ d = 35 → t.dom d = s.dom d ∧ t.released d = s.released d) ∧
      (∀ c off, c < 1024 → off < coreBytes → tget 0 t.data.core (coreAt c off) = 0) ∧
      (∀ e off, e < 256 → off < sramBytes → tget 0 t.data.sram (sramAt e off) = 0) ∧
      (∀ p d r, p < 8 → 11 ≤ d → d ≤ 34 → (s.dom d).st ≠ .off → r ∈ (t.part p).resident → r.enabled = true → d ∉ Image.domains r.image) ∧
      t.data.dev = s.data.dev ∧ t.data.store = s.data.store ∧ t.mu = s.mu ∧
      ((∀ p, p < 8 → (s.part p).status = .frozen ∨ (s.part p).status = .idle) → t.clk = s.clk) ∧
      (∀ p, p < 8 → (s.part p).status ≠ .frozen → (s.part p).status ≠ .idle → t.clk = max s.clk ((t0 + 100000) * 9450))) ∧
    (s.pwr.tripAt = none → exec .tripShutdown s = .next s)) ∧
  ((∀ s : State,
    (s.rst.porAsserted = true ∨ ((s.pwr.inhibit = true ∨ s.pwr.rails.sagAt = none) ∧ (s.mu.inhibit = true ∨ s.mu.rails.sagAt = none)) →
      exec .inhibitBegin s = .next s) ∧
    (s.rst.porAsserted = false → (s.pwr.inhibit = false ∧ s.pwr.rails.sagAt ≠ none) ∨ (s.mu.inhibit = false ∧ s.mu.rails.sagAt ≠ none) →
      ∃ (t : State) (meter : Bool) (at' : Nat), exec .inhibitBegin s = .next t ∧ t.clk = max s.clk at' ∧
        (if meter then s.mu.inhibit = false ∧ s.mu.rails.sagAt = some at' else s.pwr.inhibit = false ∧ s.pwr.rails.sagAt = some at') ∧
        t.mu = { s.mu with inhibit := s.mu.inhibit || meter } ∧ t.pwr = { s.pwr with inhibit := s.pwr.inhibit || !meter } ∧
        t.rst = s.rst ∧ t.data = s.data) ∧
    (∀ (r : Rails) (a b : Nat), (r.mainLow = some a → r.auxLow = some b → r.sagAt = some (min a b + 94500000)) ∧
      (r.mainLow = some a → r.auxLow = none → r.sagAt = some (a + 94500000)) ∧
      (r.mainLow = none → r.auxLow = some b → r.sagAt = some (b + 94500000)) ∧ (r.mainLow = none → r.auxLow = none → r.sagAt = none))) ∧
  (∀ s : State, (s.pwr.inhibit = true ∧ s.pwr.rails.good ≠ none) ∨ (s.mu.inhibit = true ∧ s.mu.rails.good ≠ none) →
    ∃ (t : State) (meter : Bool) (g : Nat), exec .inhibitEnd s = .next t ∧ t.clk = max s.clk (g + 9450000000) ∧ t.data = s.data ∧
      (if meter then
        s.mu.inhibit = true ∧ s.mu.rails.good = some g ∧ t.mu.inhibit = false ∧ t.mu.pending = [] ∧ t.mu.writing = none ∧ t.mu.alarms.getLsbD 4 = false ∧ t.pwr = s.pwr ∧
        t.rst = s.rst ∧ t.mu.eMain = s.mu.eMain ∧ t.mu.next = s.mu.next ∧
        (∀ (rs : List Ledger) (r : Ledger), s.mu.writing.toList ++ s.mu.pending = rs ++ [r] →
          (t.mu.newest = some r.number ∧ ∃ nonce, tget [] t.mu.slots (r.number % 2048) = r.bytes nonce) ∨
          (t.mu.alarms.getLsbD 3 = true ∧ fld (tget [] t.mu.slots (r.number % 2048)) 0x580 8 = 2 ^ 64 - 1))
      else
        s.pwr.inhibit = true ∧ s.pwr.rails.good = some g ∧ t.pwr = { s.pwr with inhibit := false, heldWrites := [] } ∧ t.mu = s.mu ∧
        (∀ w, s.pwr.heldWrites = [w] → mapFill s.rst.defect < 2048 →
          t.rst.defect = tset 0 s.rst.defect (mapFill s.rst.defect) (BitVec.ofNat 32 w) ∧ t.rst.bootDefect = s.rst.bootDefect.erase w) ∧
        (s.pwr.heldWrites = [] → t.rst = s.rst))) ∧
  (∀ s : State, (s.pwr.inhibit = false ∨ s.pwr.rails.good = none) ∧ (s.mu.inhibit = false ∨ s.mu.rails.good = none) → exec .inhibitEnd s = .next s))

/-- Metering (R503 to R505, R512): a sample adds mV × mA to each rail's energy, every thousandth closes a millisecond with its mean powers
and the range check, 360 J begin a pulse of 20 ms; the comparators of R499 of both units see it; the rest of the machine but PWR_VIN and
the alarm's event stays. That mV times mA counts in picojoules is log entry 39 (DEDUCED); that one sample feeds the comparators of both
units, of which R499 gives each its own, is log entry 22 (DEDUCED). The ledger (R506, R507, R509 to R511; Table 16-7): every 60 s of the
unit's time the interval's record is committed to slot `number` mod 2,048, or kept with DELAYED under the inhibit; a write that fails
raises WRITE_FAIL, one whose COMMIT is still to be written leaves the slot uncommitted; the number advances all the same. After record
2^40 − 1 none is committed, LEDGER_FULL stands, energy and pulses go on. The signature's nonce is a free value (log entry 4); that a
record not committed shows COMMIT all ones is log entry 39 (DEDUCED). Sideband and JTAG (R550, R552, R553; Table 18-4): CCC 0xE0 sets the
read offset of its target, from which a private read answers register bytes and, at the meter, ledger slots, and advances; an instruction
enters the instruction register, a driving one drives, and HIGHZ floats, the contacts only while RESET_N is low; TAP reset selects IDCODE,
whose word the data register then shifts out; SAMPLE/PRELOAD captures what the part drives and fills the update stage, which alone a
driven contact follows. Nothing else changes. The cells of the boundary register and the two free values of SAMPLE/PRELOAD are log entry
40 (the model's); that a ledger slot which no record has reached reads 0 is log entry 65 (DEDUCED). -/
def Obligations.MeterAndSideband : Prop :=
  ((∀ (s : State) (mv ma mv' ma' : Nat) (ok : Bool), s.released 2 = true → s.mu.writing = none →
    let e := s.mu.msMain + mv * ma
    let e' := s.mu.msAux + mv' * ma'
    let total := s.mu.eMain + mv * ma + (s.mu.eAux + mv' * ma')
    let due := s.mu.pulse = none ∧ s.mu.pulseFrom + 360000000000000 ≤ total
    ∃ t, exec (.meterSample mv ma mv' ma' ok) s = .next t ∧
      t.mu.eMain = s.mu.eMain + mv * ma ∧ t.mu.eAux = s.mu.eAux + mv' * ma' ∧ t.pwr.vinMain = BitVec.ofNat 16 mv ∧ t.pwr.vinAux = BitVec.ofNat 16 mv' ∧
      (s.mu.msCount < 999 → t.mu.msCount = s.mu.msCount + 1 ∧ t.mu.msMain = e ∧ t.mu.msAux = e' ∧ t.mu.pMain = s.mu.pMain ∧ t.mu.pMax = s.mu.pMax ∧
        t.mu.overrange = s.mu.overrange) ∧
      (s.mu.msCount = 999 → t.mu.msCount = 0 ∧ t.mu.msMain = 0 ∧ t.mu.msAux = 0 ∧ t.mu.pMain = BitVec.ofNat 32 (e / 1000000) ∧
        t.mu.pAux = BitVec.ofNat 32 (e' / 1000000) ∧ t.mu.pMax = max s.mu.pMax ((e + e') / 1000000) ∧
        t.mu.overrange = (s.mu.overrange || decide (1375000000000 < e + e')) ∧ (1375000000000 < e + e' → t.mu.alarms.getLsbD 1 = true)) ∧
      t.mu.selfCheck = (s.mu.selfCheck || !ok) ∧ (ok = false → t.mu.alarms.getLsbD 2 = true) ∧ t.mu.newest = s.mu.newest ∧ t.mu.slots = s.mu.slots ∧
      (due → t.mu.pulse = some (s.clk / 9450) ∧ t.mu.pulseFrom = s.mu.pulseFrom + 360000000000000) ∧
      (¬ due → t.mu.pulse = s.mu.pulse ∧ t.mu.pulseFrom = s.mu.pulseFrom) ∧
      (∀ r r' : Rails, (r, r') = (s.pwr.rails, t.pwr.rails) ∨ (r, r') = (s.mu.rails, t.mu.rails) →
        r'.mainLow = (if mv < 11200 then some (r.mainLow.getD s.clk) else none) ∧ r'.auxLow = (if mv' < 3150 then some (r.auxLow.getD s.clk) else none) ∧
        r'.good = (if 11500 ≤ mv ∧ 3200 ≤ mv' then some (r.good.getD s.clk) else none)) ∧
      ({ t with mu := s.mu, es := s.es, pwr := { t.pwr with vinMain := s.pwr.vinMain, vinAux := s.pwr.vinAux, rails := s.pwr.rails } } : State) = s) ∧
  (∀ (s : State) (mv ma mv' ma' : Nat) (ok : Bool), s.released 2 = false → exec (.meterSample mv ma mv' ma' ok) s = .next s) ∧
  (∀ (s : State) (t0 : Nat), s.mu.pulse = some t0 → ∃ t, exec .pulseEnd s = .next t ∧ t.clk = max s.clk ((t0 + 20000000) * 9450) ∧ t.data = s.data ∧
    t.mu.eMain = s.mu.eMain ∧ t.mu.eAux = s.mu.eAux ∧ t.mu.slots = s.mu.slots ∧
    (s.mu.eMain + s.mu.eAux < s.mu.pulseFrom + 360000000000000 → t.mu = { s.mu with pulse := none }) ∧
    (s.mu.pulseFrom + 360000000000000 ≤ s.mu.eMain + s.mu.eAux →
      t.mu = { s.mu with pulse := some (t.clk / 9450), pulseFrom := s.mu.pulseFrom + 360000000000000 })) ∧
  (∀ (s : State), s.mu.pulse = none → exec .pulseEnd s = .next s)) ∧
  ((∀ (s : State) (write : LedgerWrite), s.released 2 = true → s.mu.writing = none →
    let m := s.mu
    let now := m.time0 + (m.startT + 60000000000) * 9450
    let rec' : Ledger :=
      { flags := b2n m.first + 8 * b2n m.overrange + 16 * b2n m.selfCheck, number := m.next, boot := m.boot.toNat, interval := 60,
        tStart := m.startT, tEnd := m.startT + 60000000000, eMain := min (m.eMain / 1000000) (2 ^ 64 - 1), eAux := min (m.eAux / 1000000) (2 ^ 64 - 1),
        dMain := min (m.eMain / 1000000) (2 ^ 64 - 1) - min (m.startMain / 1000000) (2 ^ 64 - 1),
        dAux := min (m.eAux / 1000000) (2 ^ 64 - 1) - min (m.startAux / 1000000) (2 ^ 64 - 1), pMax := m.pMax }
    ∃ t, exec (.intervalClose write) s = .next t ∧ t.clk = max s.clk now ∧ t.data = s.data ∧
      t.mu.startT = m.startT + 60000000000 ∧ t.mu.startMain = m.eMain ∧ t.mu.startAux = m.eAux ∧ t.mu.pMax = 0 ∧ t.mu.overrange = false ∧
      t.mu.selfCheck = false ∧ t.mu.first = false ∧ t.mu.eMain = m.eMain ∧ t.mu.eAux = m.eAux ∧ t.mu.pulse = m.pulse ∧ t.mu.boot = m.boot ∧
      (m.next < 2 ^ 40 → m.inhibit = false → t.mu.next = m.next + 1 ∧ t.mu.pending = m.pending ∧
        (write = .verified → t.mu.newest = some m.next ∧ t.mu.slots = tset [] m.slots (m.next % 2048) (rec'.bytes s.freeCtr) ∧
          t.mu.alarms.getLsbD 3 = false ∧ t.mu.writing = none ∧ (m.next = 2 ^ 40 - 1 → t.mu.alarms.getLsbD 0 = true)) ∧
        (write = .failed → t.mu.newest = m.newest ∧ t.mu.writing = none ∧ t.mu.alarms.getLsbD 3 = true ∧
          fld (tget [] t.mu.slots (m.next % 2048)) 0x580 8 = 2 ^ 64 - 1) ∧
        (write = .started → t.mu.newest = m.newest ∧ t.mu.writing = some rec' ∧ t.mu.alarms.getLsbD 3 = m.alarms.getLsbD 3 ∧
          fld (tget [] t.mu.slots (m.next % 2048)) 0x580 8 = 2 ^ 64 - 1)) ∧
      (m.next < 2 ^ 40 → m.inhibit = true → t.mu.newest = m.newest ∧ t.mu.slots = m.slots ∧ t.mu.alarms.getLsbD 4 = true ∧
        (m.pending.length < 16 → t.mu.next = m.next + 1 ∧ t.mu.pending = m.pending ++ [{ rec' with flags := rec'.flags ||| 2 }])) ∧
      (m.inhibit = true → m.pending.length = 16 → t.mu.newest = m.newest ∧ t.mu.slots = m.slots ∧ t.mu.alarms.getLsbD 4 = true ∧
        (t.mu.next = m.next ∧ t.mu.pending.length = 16 ∧ t.mu.pending.take 15 = m.pending.take 15 ∧
          ∀ r, m.pending[15]? = some r → ∃ r', t.mu.pending[15]? = some r' ∧ r'.number = r.number ∧ r'.tStart = r.tStart ∧ r'.tEnd = rec'.tEnd ∧
            r'.dMain = r.dMain + rec'.dMain ∧ r'.dAux = r.dAux + rec'.dAux ∧ r'.flags.testBit 2 = true)) ∧
      (2 ^ 40 ≤ m.next → t.mu.newest = m.newest ∧ t.mu.slots = m.slots ∧ t.mu.next = m.next)) ∧
  (∀ (s : State) (write : LedgerWrite), s.released 2 = false → exec (.intervalClose write) s = .next s) ∧
  (∀ (s : State) (mv ma mv' ma' : Nat) (ok : Bool), s.released 2 = true → 2 ^ 40 ≤ s.mu.next → ∃ t, exec (.meterSample mv ma mv' ma' ok) s = .next t ∧
    t.mu.eMain = s.mu.eMain + mv * ma ∧ t.mu.eAux = s.mu.eAux + mv' * ma' ∧ t.mu.next = s.mu.next ∧
    (s.mu.pulse = none → s.mu.pulseFrom + 360000000000000 ≤ t.mu.eMain + t.mu.eAux → t.mu.pulse ≠ none))) ∧
  (∀ (s : State),
    let loads (i : Instr) (code : BitVec 8) (drives hiz : Bool) : Prop :=
      ∃ t, exec i s = .next t ∧ ({ t with pins := s.pins, freeCtr := s.freeCtr } : State) = s ∧ t.pins.ir = code ∧
        t.pins.driven = (drives && s.rst.resetLow) ∧ t.pins.hiz = (hiz && s.rst.resetLow) ∧ (code ≠ 1 → t.pins.boundary = s.pins.boundary) ∧
        (code = 2 → t.pins.shifted = Config.idcode.toNat) ∧
        ({ t.pins with ir := s.pins.ir, driven := s.pins.driven, hiz := s.pins.hiz, boundary := s.pins.boundary, shifted := s.pins.shifted } :
          PinRegs) = s.pins
    (∀ offset count, let n := min count 256
      exec (.i3cOffsetSelect true ⟨offset, count⟩) s = .next { s with pins := { s.pins with
        mtrOffset := BitVec.ofNat 24 (offset + n), i3cOut := (upTo n).map (fun k => s.meterByte ((offset + k) % 2 ^ 24)) } } ∧
      exec (.i3cOffsetSelect false ⟨offset, count⟩) s = .next { s with pins := { s.pins with
        bmcOffset := BitVec.ofNat 24 (offset + n), i3cOut := (upTo n).map (fun k => s.bmcByte ((offset + k) % 2 ^ 24)) } }) ∧
    (∀ slot k, slot < 2048 → k < 2048 → s.meterByte (0x400000 + 2048 * slot + k) = ((tget [] s.mu.slots slot)[k]?).getD 0) ∧
    (∀ k, k < 4 → s.meterByte (4 + k) = BitVec.ofNat 8 (s.regValue .muStatus / 2 ^ (8 * k)) ∧
      s.bmcByte (0x100004 + k) = BitVec.ofNat 8 (s.regValue .rstcStatus / 2 ^ (8 * k))) ∧
    loads .extest 0x00 true false ∧ loads .samplePreload 0x01 false false ∧ loads .idcode 0x02 false false ∧ loads .extestPulse 0x03 true false ∧
    loads .extestTrain 0x04 true false ∧ loads .clamp 0x05 true false ∧ loads .highz 0x06 false true ∧ loads .bypass 0xFF false false ∧
    loads .tapReset 0x02 false false ∧
    (∃ t, exec .samplePreload s = .next t ∧ ∀ n v, 1 ≤ n → n ≤ 3185 → ({ s with pins := t.pins } : State).contact (.config n) = .drive v →
      t.pins.shifted.testBit (n - 1) = v) ∧
    (s.pins.driven = true → s.pins.hiz = false → ∀ n, 1 ≤ n → n ≤ 3185 → receives n = false → (isLane n = false ∨ s.pins.ir ≠ 3 ∧ s.pins.ir ≠ 4) →
      s.contact (.config n) = .drive (s.pins.boundary.testBit (n - 1))) ∧
    (s.pins.hiz = true → ∀ n, s.contact (.config n) = .hiZ))
end

