-- ==== Sys2Proof/Laws/Bits.lean ====
section
/-! SUPPORT. The laws of sparse tables and of byte memories: what a table reads after a write, and that every operation keeps the
canonical form. No law of reading needs a premise on the table. -/
namespace Sys2Proof.Machine

open Sys2Proof

/-! ## Reading after a write -/

@[simp] theorem tget_nil {α : Type} (d : α) (k : Nat) : tget d [] k = d := rfl

theorem tget_tput {α : Type} (d v : α) (t : Tab α) (k j : Nat) :
    tget d (tput t k v) j = if j = k then v else tget d t j := by
  induction t with
  | nil => simp [tput, tget]
  | cons e t ih =>
    obtain ⟨k', v'⟩ := e
    by_cases h1 : k < k'
    · by_cases hj : j = k <;> simp [tput, tget, h1, hj]
    · by_cases h2 : k = k'
      · subst h2; by_cases hj : j = k <;> simp [tput, tget, hj]
      · by_cases hj : j = k'
        · subst hj; simp [tput, tget, h1, h2, Ne.symm h2]
        · simp [tput, tget, h1, h2, hj, ih]

theorem tget_filter_ne {α : Type} (d : α) (t : Tab α) (k j : Nat) :
    tget d (t.filter (fun e => e.1 != k)) j = if j = k then d else tget d t j := by
  induction t with
  | nil => simp
  | cons e t ih =>
    obtain ⟨k', v'⟩ := e
    by_cases h : k' = k
    · subst h
      have e : ((k', v') :: t).filter (fun e => e.1 != k') = t.filter (fun e => e.1 != k') := by simp
      rw [e, ih]
      by_cases hj : j = k' <;> simp [tget, hj]
    · by_cases hj : j = k'
      · subst hj; simp [tget, h]
      · simp [tget, h, hj, ih]

/-- Reading after a write: the value written at its key, the old value elsewhere. -/
theorem tget_tset {α : Type} [DecidableEq α] (d v : α) (t : Tab α) (k j : Nat) :
    tget d (tset d t k v) j = if j = k then v else tget d t j := by
  unfold tset
  split
  · next h => subst h; exact tget_filter_ne _ _ _ _
  · exact tget_tput _ _ _ _ _

@[simp] theorem tget_tset_same {α : Type} [DecidableEq α] (d v : α) (t : Tab α) (k : Nat) : tget d (tset d t k v) k = v := by
  simp [tget_tset]

theorem tget_tset_ne {α : Type} [DecidableEq α] (d v : α) (t : Tab α) {k j : Nat} (h : j ≠ k) :
    tget d (tset d t k v) j = tget d t j := by simp [tget_tset, h]

/-- A write of one key leaves what another key reads as, whatever each reads as while it is unlisted. -/
theorem tget_tset_other {α : Type} [DecidableEq α] (d e v : α) (t : Tab α) {k j : Nat} (h : j ≠ k) : tget e (tset d t k v) j = tget e t j := by
  unfold tset
  split
  · simpa [tset] using tget_tset_ne e e t h
  · simp [tget_tput, h]

@[simp] theorem tget_tmod_same {α : Type} [DecidableEq α] (d : α) (t : Tab α) (k : Nat) (f : α → α) :
    tget d (tmod d t k f) k = f (tget d t k) := by simp [tmod]

theorem tget_tmod_ne {α : Type} [DecidableEq α] (d : α) (t : Tab α) (f : α → α) {k j : Nat} (h : j ≠ k) :
    tget d (tmod d t k f) j = tget d t j := by simp [tmod, tget_tset_ne, h]

theorem tget_tclear {α : Type} (d : α) (t : Tab α) (lo n j : Nat) :
    tget d (tclear t lo n) j = if lo ≤ j ∧ j < lo + n then d else tget d t j := by
  induction t with
  | nil => simp [tclear]
  | cons e t ih =>
    obtain ⟨k', v'⟩ := e
    by_cases h : lo ≤ k' ∧ k' < lo + n
    · have e1 : tclear ((k', v') :: t) lo n = tclear t lo n := by
        simp [tclear, h.1, h.2]
      rw [e1, ih]
      by_cases hj : j = k'
      · subst hj; simp [h]
      · simp [tget, hj]
    · have e1 : tclear ((k', v') :: t) lo n = (k', v') :: tclear t lo n := by
        simp only [tclear]; rw [List.filter_cons_of_pos]; simp; omega
      rw [e1]
      by_cases hj : j = k'
      · subst hj; simp [tget, h]
      · simp only [tget, hj, if_false, ih]

/-! ## The canonical form -/

theorem Tab.wf_iff {α : Type} [DecidableEq α] (d : α) (t : Tab α) :
    Tab.wf d t = true ↔ t.Pairwise (fun a b => a.1 < b.1) ∧ ∀ e ∈ t, e.2 ≠ d := by
  induction t with
  | nil => simp [Tab.wf]
  | cons e t ih =>
    obtain ⟨k, v⟩ := e
    cases t with
    | nil => simp [Tab.wf]
    | cons e' t =>
      obtain ⟨k', v'⟩ := e'
      simp only [Tab.wf, Bool.and_eq_true, decide_eq_true_eq, ih, List.pairwise_cons, List.mem_cons, forall_eq_or_imp]
      constructor
      · rintro ⟨⟨hv, hk⟩, ⟨hp, hq⟩, h1, h2⟩
        exact ⟨⟨⟨hk, fun a ha => Nat.lt_trans hk (hp a ha)⟩, hp, hq⟩, hv, h1, h2⟩
      · rintro ⟨⟨⟨hk, _⟩, hp, hq⟩, hv, h1, h2⟩
        exact ⟨⟨hv, hk⟩, ⟨hp, hq⟩, h1, h2⟩

theorem Tab.wf_filter {α : Type} [DecidableEq α] {d : α} {t : Tab α} (h : Tab.wf d t = true) (f : Nat × α → Bool) :
    Tab.wf d (t.filter f) = true := by
  rw [Tab.wf_iff] at h ⊢
  exact ⟨h.1.filter f, fun e he => h.2 e (List.mem_filter.1 he).1⟩

theorem Tab.wf_tclear {α : Type} [DecidableEq α] {d : α} {t : Tab α} (h : Tab.wf d t = true) (lo n : Nat) :
    Tab.wf d (tclear t lo n) = true := Tab.wf_filter h _

theorem mem_tput {α : Type} {t : Tab α} {k : Nat} {v : α} {e : Nat × α} (h : e ∈ tput t k v) : e = (k, v) ∨ e ∈ t := by
  induction t with
  | nil => exact Or.inl (List.mem_singleton.1 h)
  | cons e' t ih =>
    obtain ⟨k', v'⟩ := e'
    unfold tput at h
    split at h
    · exact List.mem_cons.1 h
    · split at h
      · rcases List.mem_cons.1 h with h | h
        · exact Or.inl h
        · exact Or.inr (List.mem_cons_of_mem _ h)
      · rcases List.mem_cons.1 h with h | h
        · exact Or.inr (h ▸ List.mem_cons_self)
        · exact (ih h).imp id (List.mem_cons_of_mem _)

theorem Tab.wf_tput {α : Type} [DecidableEq α] {d v : α} {t : Tab α} (h : Tab.wf d t = true) (hv : v ≠ d) (k : Nat) :
    Tab.wf d (tput t k v) = true := by
  rw [Tab.wf_iff] at h ⊢
  refine ⟨?_, fun e he => (mem_tput he).elim (fun x => x ▸ hv) (h.2 e)⟩
  obtain ⟨hp, -⟩ := h
  induction t with
  | nil => simp [tput]
  | cons e t ih =>
    obtain ⟨k', v'⟩ := e
    rw [List.pairwise_cons] at hp
    unfold tput
    split
    · next h1 =>
      refine List.pairwise_cons.2 ⟨fun e he => ?_, List.pairwise_cons.2 hp⟩
      rcases List.mem_cons.1 he with he | he
      · subst he; exact h1
      · exact Nat.lt_trans h1 (hp.1 e he)
    · split
      · next h2 => subst h2; exact List.pairwise_cons.2 hp
      · next h1 h2 =>
        refine List.pairwise_cons.2 ⟨fun e he => ?_, ih hp.2⟩
        rcases mem_tput he with he | he
        · subst he; show k' < k; omega
        · exact hp.1 e he

theorem Tab.wf_tset {α : Type} [DecidableEq α] {d : α} {t : Tab α} (h : Tab.wf d t = true) (k : Nat) (v : α) :
    Tab.wf d (tset d t k v) = true := by
  unfold tset
  split
  · exact Tab.wf_filter h _
  · next hv => exact Tab.wf_tput h hv k

theorem Tab.wf_tmod {α : Type} [DecidableEq α] {d : α} {t : Tab α} (h : Tab.wf d t = true) (k : Nat) (f : α → α) :
    Tab.wf d (tmod d t k f) = true := Tab.wf_tset h _ _

/-- Every write of bytes keeps a memory's canonical form. -/
theorem Memory.wf_writeBytes {m : Tab Byte} (h : Memory.wf m = true) (a : Nat) (bs : List Byte) :
    Memory.wf (writeBytes m a bs) = true := by
  induction bs generalizing m a with
  | nil => exact h
  | cons b bs ih => exact ih (Tab.wf_tset h a b) (a + 1)

/-! ## Byte memories -/

/-- A byte after a store of bytes from `a` upwards: the byte stored inside the range, the old byte outside it. -/
theorem tget_writeBytes (m : Tab Byte) (a : Nat) (bs : List Byte) (x : Nat) :
    tget 0 (writeBytes m a bs) x = if a ≤ x ∧ x < a + bs.length then bs.getD (x - a) 0 else tget 0 m x := by
  induction bs generalizing m a with
  | nil =>
    have : ¬ (a ≤ x ∧ x < a + ([] : List Byte).length) := by simp only [List.length_nil]; omega
    simp only [writeBytes, this, if_false]
  | cons b bs ih =>
    rw [writeBytes, ih, tget_tset]
    by_cases hx : x = a
    · subst hx; simp
    · by_cases h : a + 1 ≤ x ∧ x < a + 1 + bs.length
      · have h' : a ≤ x ∧ x < a + (b :: bs).length := by rw [List.length_cons]; omega
        have e : x - a = (x - (a + 1)) + 1 := by omega
        rw [if_pos h, if_pos h', e, List.getD_cons_succ]
      · have h' : ¬ (a ≤ x ∧ x < a + (b :: bs).length) := by rw [List.length_cons]; omega
        rw [if_neg h, if_neg h', if_neg hx]

theorem tget_writeBytes_out {m : Tab Byte} {a x : Nat} {bs : List Byte} (h : x < a ∨ a + bs.length ≤ x) :
    tget 0 (writeBytes m a bs) x = tget 0 m x := by
  rw [tget_writeBytes, if_neg (by omega)]

@[simp] theorem length_leBytes (n x : Nat) : (leBytes n x).length = n := by
  induction n generalizing x with
  | zero => rfl
  | succ n ih => simp [leBytes, ih]

@[simp] theorem length_readBytes (m : Tab Byte) (a n : Nat) : (readBytes m a n).length = n := by
  induction n generalizing a with
  | zero => rfl
  | succ n ih => simp [readBytes, ih]

/-- The little-endian bytes of a number spell the number (R6). -/
theorem leNat_leBytes (n x : Nat) : leNat (leBytes n x) = x % 256 ^ n := by
  induction n generalizing x with
  | zero => simp [leBytes, leNat, Nat.mod_one]
  | succ n ih =>
    have h : x % 256 ^ (n + 1) = x % 256 + 256 * (x / 256 % 256 ^ n) := by rw [pow_succ, Nat.mul_comm, Nat.mod_mul]
    simp [leBytes, leNat, ih, h]

/-- Reading back what has just been stored. -/
theorem readBytes_writeBytes (m : Tab Byte) (a : Nat) (bs : List Byte) : readBytes (writeBytes m a bs) a bs.length = bs := by
  suffices h : ∀ (k : Nat) (cs : List Byte) (m : Tab Byte), (∀ i, i < cs.length → tget 0 m (k + i) = cs.getD i 0) →
      readBytes m k cs.length = cs by
    refine h a bs _ (fun i hi => ?_)
    rw [tget_writeBytes, if_pos (by omega), Nat.add_sub_cancel_left]
  intro k cs
  induction cs generalizing k with
  | nil => intros; rfl
  | cons c cs ih =>
    intro m hm
    rw [List.length_cons, readBytes]
    have h0 := hm 0 (by simp)
    simp only [Nat.add_zero, List.getD_cons_zero] at h0
    rw [h0, ih (k + 1) m (fun i hi => ?_)]
    have := hm (i + 1) (by simpa using hi)
    rwa [List.getD_cons_succ, show k + (i + 1) = k + 1 + i by omega] at this

end Sys2Proof.Machine
end

