-- ==== Sys2Proof/Laws/State.lean ====
section
/-! SUPPORT. What each named update of the state leaves unchanged, field by field, and what its own accessor then reads. -/
namespace Sys2Proof.Machine

open Sys2Proof

/-! ### State.setPart -/

@[simp] theorem State.setPart_pending (s : State) (p : Nat) (x : Part) : (s.setPart p x).pending = s.pending := rfl
@[simp] theorem State.setPart_freeCtr (s : State) (p : Nat) (x : Part) : (s.setPart p x).freeCtr = s.freeCtr := rfl
@[simp] theorem State.setPart_clk (s : State) (p : Nat) (x : Part) : (s.setPart p x).clk = s.clk := rfl
@[simp] theorem State.setPart_timeAcc (s : State) (p : Nat) (x : Part) : (s.setPart p x).timeAcc = s.timeAcc := rfl
@[simp] theorem State.setPart_steer (s : State) (p : Nat) (x : Part) : (s.setPart p x).steer = s.steer := rfl
@[simp] theorem State.setPart_timeOn (s : State) (p : Nat) (x : Part) : (s.setPart p x).timeOn = s.timeOn := rfl
@[simp] theorem State.setPart_rst (s : State) (p : Nat) (x : Part) : (s.setPart p x).rst = s.rst := rfl
@[simp] theorem State.setPart_pwr (s : State) (p : Nat) (x : Part) : (s.setPart p x).pwr = s.pwr := rfl
@[simp] theorem State.setPart_mu (s : State) (p : Nat) (x : Part) : (s.setPart p x).mu = s.mu := rfl
@[simp] theorem State.setPart_hif (s : State) (p : Nat) (x : Part) : (s.setPart p x).hif = s.hif := rfl
@[simp] theorem State.setPart_cc (s : State) (p : Nat) (x : Part) : (s.setPart p x).cc = s.cc := rfl
@[simp] theorem State.setPart_es (s : State) (p : Nat) (x : Part) : (s.setPart p x).es = s.es := rfl
@[simp] theorem State.setPart_lnk (s : State) (p : Nat) (x : Part) : (s.setPart p x).lnk = s.lnk := rfl
@[simp] theorem State.setPart_mem (s : State) (p : Nat) (x : Part) : (s.setPart p x).mem = s.mem := rfl
@[simp] theorem State.setPart_se (s : State) (p : Nat) (x : Part) : (s.setPart p x).se = s.se := rfl
@[simp] theorem State.setPart_num (s : State) (p : Nat) (x : Part) : (s.setPart p x).num = s.num := rfl
@[simp] theorem State.setPart_sec (s : State) (p : Nat) (x : Part) : (s.setPart p x).sec = s.sec := rfl
@[simp] theorem State.setPart_pins (s : State) (p : Nat) (x : Part) : (s.setPart p x).pins = s.pins := rfl
@[simp] theorem State.setPart_transit (s : State) (p : Nat) (x : Part) : (s.setPart p x).transit = s.transit := rfl
@[simp] theorem State.setPart_layout (s : State) (p : Nat) (x : Part) : (s.setPart p x).layout = s.layout := rfl
@[simp] theorem State.setPart_accq (s : State) (p : Nat) (x : Part) : (s.setPart p x).accq = s.accq := rfl
@[simp] theorem State.setPart_serving (s : State) (p : Nat) (x : Part) : (s.setPart p x).serving = s.serving := rfl
@[simp] theorem State.setPart_updating (s : State) (p : Nat) (x : Part) : (s.setPart p x).updating = s.updating := rfl
@[simp] theorem State.setPart_spine (s : State) (p : Nat) (x : Part) : (s.setPart p x).spine = s.spine := rfl
@[simp] theorem State.setPart_data (s : State) (p : Nat) (x : Part) : (s.setPart p x).data = s.data := rfl

/-! ### State.modPart -/

@[simp] theorem State.modPart_pending (s : State) (p : Nat) (f : Part → Part) : (s.modPart p f).pending = s.pending := rfl
@[simp] theorem State.modPart_freeCtr (s : State) (p : Nat) (f : Part → Part) : (s.modPart p f).freeCtr = s.freeCtr := rfl
@[simp] theorem State.modPart_clk (s : State) (p : Nat) (f : Part → Part) : (s.modPart p f).clk = s.clk := rfl
@[simp] theorem State.modPart_timeAcc (s : State) (p : Nat) (f : Part → Part) : (s.modPart p f).timeAcc = s.timeAcc := rfl
@[simp] theorem State.modPart_steer (s : State) (p : Nat) (f : Part → Part) : (s.modPart p f).steer = s.steer := rfl
@[simp] theorem State.modPart_timeOn (s : State) (p : Nat) (f : Part → Part) : (s.modPart p f).timeOn = s.timeOn := rfl
@[simp] theorem State.modPart_rst (s : State) (p : Nat) (f : Part → Part) : (s.modPart p f).rst = s.rst := rfl
@[simp] theorem State.modPart_pwr (s : State) (p : Nat) (f : Part → Part) : (s.modPart p f).pwr = s.pwr := rfl
@[simp] theorem State.modPart_mu (s : State) (p : Nat) (f : Part → Part) : (s.modPart p f).mu = s.mu := rfl
@[simp] theorem State.modPart_hif (s : State) (p : Nat) (f : Part → Part) : (s.modPart p f).hif = s.hif := rfl
@[simp] theorem State.modPart_cc (s : State) (p : Nat) (f : Part → Part) : (s.modPart p f).cc = s.cc := rfl
@[simp] theorem State.modPart_es (s : State) (p : Nat) (f : Part → Part) : (s.modPart p f).es = s.es := rfl
@[simp] theorem State.modPart_lnk (s : State) (p : Nat) (f : Part → Part) : (s.modPart p f).lnk = s.lnk := rfl
@[simp] theorem State.modPart_mem (s : State) (p : Nat) (f : Part → Part) : (s.modPart p f).mem = s.mem := rfl
@[simp] theorem State.modPart_se (s : State) (p : Nat) (f : Part → Part) : (s.modPart p f).se = s.se := rfl
@[simp] theorem State.modPart_num (s : State) (p : Nat) (f : Part → Part) : (s.modPart p f).num = s.num := rfl
@[simp] theorem State.modPart_sec (s : State) (p : Nat) (f : Part → Part) : (s.modPart p f).sec = s.sec := rfl
@[simp] theorem State.modPart_pins (s : State) (p : Nat) (f : Part → Part) : (s.modPart p f).pins = s.pins := rfl
@[simp] theorem State.modPart_transit (s : State) (p : Nat) (f : Part → Part) : (s.modPart p f).transit = s.transit := rfl
@[simp] theorem State.modPart_layout (s : State) (p : Nat) (f : Part → Part) : (s.modPart p f).layout = s.layout := rfl
@[simp] theorem State.modPart_accq (s : State) (p : Nat) (f : Part → Part) : (s.modPart p f).accq = s.accq := rfl
@[simp] theorem State.modPart_serving (s : State) (p : Nat) (f : Part → Part) : (s.modPart p f).serving = s.serving := rfl
@[simp] theorem State.modPart_updating (s : State) (p : Nat) (f : Part → Part) : (s.modPart p f).updating = s.updating := rfl
@[simp] theorem State.modPart_spine (s : State) (p : Nat) (f : Part → Part) : (s.modPart p f).spine = s.spine := rfl
@[simp] theorem State.modPart_data (s : State) (p : Nat) (f : Part → Part) : (s.modPart p f).data = s.data := rfl

/-! ### State.setDom -/

@[simp] theorem State.setDom_pending (s : State) (d : Nat) (x : Dom) : (s.setDom d x).pending = s.pending := rfl
@[simp] theorem State.setDom_freeCtr (s : State) (d : Nat) (x : Dom) : (s.setDom d x).freeCtr = s.freeCtr := rfl
@[simp] theorem State.setDom_clk (s : State) (d : Nat) (x : Dom) : (s.setDom d x).clk = s.clk := rfl
@[simp] theorem State.setDom_timeAcc (s : State) (d : Nat) (x : Dom) : (s.setDom d x).timeAcc = s.timeAcc := rfl
@[simp] theorem State.setDom_steer (s : State) (d : Nat) (x : Dom) : (s.setDom d x).steer = s.steer := rfl
@[simp] theorem State.setDom_timeOn (s : State) (d : Nat) (x : Dom) : (s.setDom d x).timeOn = s.timeOn := rfl
@[simp] theorem State.setDom_rst (s : State) (d : Nat) (x : Dom) : (s.setDom d x).rst = s.rst := rfl
@[simp] theorem State.setDom_mu (s : State) (d : Nat) (x : Dom) : (s.setDom d x).mu = s.mu := rfl
@[simp] theorem State.setDom_hif (s : State) (d : Nat) (x : Dom) : (s.setDom d x).hif = s.hif := rfl
@[simp] theorem State.setDom_cc (s : State) (d : Nat) (x : Dom) : (s.setDom d x).cc = s.cc := rfl
@[simp] theorem State.setDom_es (s : State) (d : Nat) (x : Dom) : (s.setDom d x).es = s.es := rfl
@[simp] theorem State.setDom_lnk (s : State) (d : Nat) (x : Dom) : (s.setDom d x).lnk = s.lnk := rfl
@[simp] theorem State.setDom_mem (s : State) (d : Nat) (x : Dom) : (s.setDom d x).mem = s.mem := rfl
@[simp] theorem State.setDom_se (s : State) (d : Nat) (x : Dom) : (s.setDom d x).se = s.se := rfl
@[simp] theorem State.setDom_num (s : State) (d : Nat) (x : Dom) : (s.setDom d x).num = s.num := rfl
@[simp] theorem State.setDom_sec (s : State) (d : Nat) (x : Dom) : (s.setDom d x).sec = s.sec := rfl
@[simp] theorem State.setDom_pins (s : State) (d : Nat) (x : Dom) : (s.setDom d x).pins = s.pins := rfl
@[simp] theorem State.setDom_transit (s : State) (d : Nat) (x : Dom) : (s.setDom d x).transit = s.transit := rfl
@[simp] theorem State.setDom_layout (s : State) (d : Nat) (x : Dom) : (s.setDom d x).layout = s.layout := rfl
@[simp] theorem State.setDom_parts (s : State) (d : Nat) (x : Dom) : (s.setDom d x).parts = s.parts := rfl
@[simp] theorem State.setDom_accq (s : State) (d : Nat) (x : Dom) : (s.setDom d x).accq = s.accq := rfl
@[simp] theorem State.setDom_serving (s : State) (d : Nat) (x : Dom) : (s.setDom d x).serving = s.serving := rfl
@[simp] theorem State.setDom_updating (s : State) (d : Nat) (x : Dom) : (s.setDom d x).updating = s.updating := rfl
@[simp] theorem State.setDom_spine (s : State) (d : Nat) (x : Dom) : (s.setDom d x).spine = s.spine := rfl
@[simp] theorem State.setDom_data (s : State) (d : Nat) (x : Dom) : (s.setDom d x).data = s.data := rfl

/-! ### State.setPort -/

@[simp] theorem State.setPort_pending (s : State) (q : Nat) (x : Port) : (s.setPort q x).pending = s.pending := rfl
@[simp] theorem State.setPort_freeCtr (s : State) (q : Nat) (x : Port) : (s.setPort q x).freeCtr = s.freeCtr := rfl
@[simp] theorem State.setPort_clk (s : State) (q : Nat) (x : Port) : (s.setPort q x).clk = s.clk := rfl
@[simp] theorem State.setPort_timeAcc (s : State) (q : Nat) (x : Port) : (s.setPort q x).timeAcc = s.timeAcc := rfl
@[simp] theorem State.setPort_steer (s : State) (q : Nat) (x : Port) : (s.setPort q x).steer = s.steer := rfl
@[simp] theorem State.setPort_timeOn (s : State) (q : Nat) (x : Port) : (s.setPort q x).timeOn = s.timeOn := rfl
@[simp] theorem State.setPort_rst (s : State) (q : Nat) (x : Port) : (s.setPort q x).rst = s.rst := rfl
@[simp] theorem State.setPort_pwr (s : State) (q : Nat) (x : Port) : (s.setPort q x).pwr = s.pwr := rfl
@[simp] theorem State.setPort_mu (s : State) (q : Nat) (x : Port) : (s.setPort q x).mu = s.mu := rfl
@[simp] theorem State.setPort_hif (s : State) (q : Nat) (x : Port) : (s.setPort q x).hif = s.hif := rfl
@[simp] theorem State.setPort_cc (s : State) (q : Nat) (x : Port) : (s.setPort q x).cc = s.cc := rfl
@[simp] theorem State.setPort_es (s : State) (q : Nat) (x : Port) : (s.setPort q x).es = s.es := rfl
@[simp] theorem State.setPort_mem (s : State) (q : Nat) (x : Port) : (s.setPort q x).mem = s.mem := rfl
@[simp] theorem State.setPort_se (s : State) (q : Nat) (x : Port) : (s.setPort q x).se = s.se := rfl
@[simp] theorem State.setPort_num (s : State) (q : Nat) (x : Port) : (s.setPort q x).num = s.num := rfl
@[simp] theorem State.setPort_sec (s : State) (q : Nat) (x : Port) : (s.setPort q x).sec = s.sec := rfl
@[simp] theorem State.setPort_pins (s : State) (q : Nat) (x : Port) : (s.setPort q x).pins = s.pins := rfl
@[simp] theorem State.setPort_transit (s : State) (q : Nat) (x : Port) : (s.setPort q x).transit = s.transit := rfl
@[simp] theorem State.setPort_layout (s : State) (q : Nat) (x : Port) : (s.setPort q x).layout = s.layout := rfl
@[simp] theorem State.setPort_parts (s : State) (q : Nat) (x : Port) : (s.setPort q x).parts = s.parts := rfl
@[simp] theorem State.setPort_accq (s : State) (q : Nat) (x : Port) : (s.setPort q x).accq = s.accq := rfl
@[simp] theorem State.setPort_serving (s : State) (q : Nat) (x : Port) : (s.setPort q x).serving = s.serving := rfl
@[simp] theorem State.setPort_updating (s : State) (q : Nat) (x : Port) : (s.setPort q x).updating = s.updating := rfl
@[simp] theorem State.setPort_spine (s : State) (q : Nat) (x : Port) : (s.setPort q x).spine = s.spine := rfl
@[simp] theorem State.setPort_data (s : State) (q : Nat) (x : Port) : (s.setPort q x).data = s.data := rfl

/-! ### State.modPort -/

@[simp] theorem State.modPort_pending (s : State) (q : Nat) (f : Port → Port) : (s.modPort q f).pending = s.pending := rfl
@[simp] theorem State.modPort_freeCtr (s : State) (q : Nat) (f : Port → Port) : (s.modPort q f).freeCtr = s.freeCtr := rfl
@[simp] theorem State.modPort_clk (s : State) (q : Nat) (f : Port → Port) : (s.modPort q f).clk = s.clk := rfl
@[simp] theorem State.modPort_timeAcc (s : State) (q : Nat) (f : Port → Port) : (s.modPort q f).timeAcc = s.timeAcc := rfl
@[simp] theorem State.modPort_steer (s : State) (q : Nat) (f : Port → Port) : (s.modPort q f).steer = s.steer := rfl
@[simp] theorem State.modPort_timeOn (s : State) (q : Nat) (f : Port → Port) : (s.modPort q f).timeOn = s.timeOn := rfl
@[simp] theorem State.modPort_rst (s : State) (q : Nat) (f : Port → Port) : (s.modPort q f).rst = s.rst := rfl
@[simp] theorem State.modPort_pwr (s : State) (q : Nat) (f : Port → Port) : (s.modPort q f).pwr = s.pwr := rfl
@[simp] theorem State.modPort_mu (s : State) (q : Nat) (f : Port → Port) : (s.modPort q f).mu = s.mu := rfl
@[simp] theorem State.modPort_hif (s : State) (q : Nat) (f : Port → Port) : (s.modPort q f).hif = s.hif := rfl
@[simp] theorem State.modPort_cc (s : State) (q : Nat) (f : Port → Port) : (s.modPort q f).cc = s.cc := rfl
@[simp] theorem State.modPort_es (s : State) (q : Nat) (f : Port → Port) : (s.modPort q f).es = s.es := rfl
@[simp] theorem State.modPort_mem (s : State) (q : Nat) (f : Port → Port) : (s.modPort q f).mem = s.mem := rfl
@[simp] theorem State.modPort_se (s : State) (q : Nat) (f : Port → Port) : (s.modPort q f).se = s.se := rfl
@[simp] theorem State.modPort_num (s : State) (q : Nat) (f : Port → Port) : (s.modPort q f).num = s.num := rfl
@[simp] theorem State.modPort_sec (s : State) (q : Nat) (f : Port → Port) : (s.modPort q f).sec = s.sec := rfl
@[simp] theorem State.modPort_pins (s : State) (q : Nat) (f : Port → Port) : (s.modPort q f).pins = s.pins := rfl
@[simp] theorem State.modPort_transit (s : State) (q : Nat) (f : Port → Port) : (s.modPort q f).transit = s.transit := rfl
@[simp] theorem State.modPort_layout (s : State) (q : Nat) (f : Port → Port) : (s.modPort q f).layout = s.layout := rfl
@[simp] theorem State.modPort_parts (s : State) (q : Nat) (f : Port → Port) : (s.modPort q f).parts = s.parts := rfl
@[simp] theorem State.modPort_accq (s : State) (q : Nat) (f : Port → Port) : (s.modPort q f).accq = s.accq := rfl
@[simp] theorem State.modPort_serving (s : State) (q : Nat) (f : Port → Port) : (s.modPort q f).serving = s.serving := rfl
@[simp] theorem State.modPort_updating (s : State) (q : Nat) (f : Port → Port) : (s.modPort q f).updating = s.updating := rfl
@[simp] theorem State.modPort_spine (s : State) (q : Nat) (f : Port → Port) : (s.modPort q f).spine = s.spine := rfl
@[simp] theorem State.modPort_data (s : State) (q : Nat) (f : Port → Port) : (s.modPort q f).data = s.data := rfl

/-! ### State.setRec -/

@[simp] theorem State.setRec_pending (s : State) (e : Nat) (x : StreamRec) : (s.setRec e x).pending = s.pending := rfl
@[simp] theorem State.setRec_freeCtr (s : State) (e : Nat) (x : StreamRec) : (s.setRec e x).freeCtr = s.freeCtr := rfl
@[simp] theorem State.setRec_clk (s : State) (e : Nat) (x : StreamRec) : (s.setRec e x).clk = s.clk := rfl
@[simp] theorem State.setRec_timeAcc (s : State) (e : Nat) (x : StreamRec) : (s.setRec e x).timeAcc = s.timeAcc := rfl
@[simp] theorem State.setRec_steer (s : State) (e : Nat) (x : StreamRec) : (s.setRec e x).steer = s.steer := rfl
@[simp] theorem State.setRec_timeOn (s : State) (e : Nat) (x : StreamRec) : (s.setRec e x).timeOn = s.timeOn := rfl
@[simp] theorem State.setRec_rst (s : State) (e : Nat) (x : StreamRec) : (s.setRec e x).rst = s.rst := rfl
@[simp] theorem State.setRec_pwr (s : State) (e : Nat) (x : StreamRec) : (s.setRec e x).pwr = s.pwr := rfl
@[simp] theorem State.setRec_mu (s : State) (e : Nat) (x : StreamRec) : (s.setRec e x).mu = s.mu := rfl
@[simp] theorem State.setRec_hif (s : State) (e : Nat) (x : StreamRec) : (s.setRec e x).hif = s.hif := rfl
@[simp] theorem State.setRec_cc (s : State) (e : Nat) (x : StreamRec) : (s.setRec e x).cc = s.cc := rfl
@[simp] theorem State.setRec_es (s : State) (e : Nat) (x : StreamRec) : (s.setRec e x).es = s.es := rfl
@[simp] theorem State.setRec_lnk (s : State) (e : Nat) (x : StreamRec) : (s.setRec e x).lnk = s.lnk := rfl
@[simp] theorem State.setRec_mem (s : State) (e : Nat) (x : StreamRec) : (s.setRec e x).mem = s.mem := rfl
@[simp] theorem State.setRec_num (s : State) (e : Nat) (x : StreamRec) : (s.setRec e x).num = s.num := rfl
@[simp] theorem State.setRec_sec (s : State) (e : Nat) (x : StreamRec) : (s.setRec e x).sec = s.sec := rfl
@[simp] theorem State.setRec_pins (s : State) (e : Nat) (x : StreamRec) : (s.setRec e x).pins = s.pins := rfl
@[simp] theorem State.setRec_transit (s : State) (e : Nat) (x : StreamRec) : (s.setRec e x).transit = s.transit := rfl
@[simp] theorem State.setRec_layout (s : State) (e : Nat) (x : StreamRec) : (s.setRec e x).layout = s.layout := rfl
@[simp] theorem State.setRec_parts (s : State) (e : Nat) (x : StreamRec) : (s.setRec e x).parts = s.parts := rfl
@[simp] theorem State.setRec_accq (s : State) (e : Nat) (x : StreamRec) : (s.setRec e x).accq = s.accq := rfl
@[simp] theorem State.setRec_serving (s : State) (e : Nat) (x : StreamRec) : (s.setRec e x).serving = s.serving := rfl
@[simp] theorem State.setRec_updating (s : State) (e : Nat) (x : StreamRec) : (s.setRec e x).updating = s.updating := rfl
@[simp] theorem State.setRec_spine (s : State) (e : Nat) (x : StreamRec) : (s.setRec e x).spine = s.spine := rfl
@[simp] theorem State.setRec_data (s : State) (e : Nat) (x : StreamRec) : (s.setRec e x).data = s.data := rfl

/-! ### State.setPte -/

@[simp] theorem State.setPte_pending (s : State) (k : Nat) (v : BitVec 64) : (s.setPte k v).pending = s.pending := rfl
@[simp] theorem State.setPte_freeCtr (s : State) (k : Nat) (v : BitVec 64) : (s.setPte k v).freeCtr = s.freeCtr := rfl
@[simp] theorem State.setPte_clk (s : State) (k : Nat) (v : BitVec 64) : (s.setPte k v).clk = s.clk := rfl
@[simp] theorem State.setPte_timeAcc (s : State) (k : Nat) (v : BitVec 64) : (s.setPte k v).timeAcc = s.timeAcc := rfl
@[simp] theorem State.setPte_steer (s : State) (k : Nat) (v : BitVec 64) : (s.setPte k v).steer = s.steer := rfl
@[simp] theorem State.setPte_timeOn (s : State) (k : Nat) (v : BitVec 64) : (s.setPte k v).timeOn = s.timeOn := rfl
@[simp] theorem State.setPte_rst (s : State) (k : Nat) (v : BitVec 64) : (s.setPte k v).rst = s.rst := rfl
@[simp] theorem State.setPte_pwr (s : State) (k : Nat) (v : BitVec 64) : (s.setPte k v).pwr = s.pwr := rfl
@[simp] theorem State.setPte_mu (s : State) (k : Nat) (v : BitVec 64) : (s.setPte k v).mu = s.mu := rfl
@[simp] theorem State.setPte_hif (s : State) (k : Nat) (v : BitVec 64) : (s.setPte k v).hif = s.hif := rfl
@[simp] theorem State.setPte_cc (s : State) (k : Nat) (v : BitVec 64) : (s.setPte k v).cc = s.cc := rfl
@[simp] theorem State.setPte_es (s : State) (k : Nat) (v : BitVec 64) : (s.setPte k v).es = s.es := rfl
@[simp] theorem State.setPte_lnk (s : State) (k : Nat) (v : BitVec 64) : (s.setPte k v).lnk = s.lnk := rfl
@[simp] theorem State.setPte_se (s : State) (k : Nat) (v : BitVec 64) : (s.setPte k v).se = s.se := rfl
@[simp] theorem State.setPte_num (s : State) (k : Nat) (v : BitVec 64) : (s.setPte k v).num = s.num := rfl
@[simp] theorem State.setPte_sec (s : State) (k : Nat) (v : BitVec 64) : (s.setPte k v).sec = s.sec := rfl
@[simp] theorem State.setPte_pins (s : State) (k : Nat) (v : BitVec 64) : (s.setPte k v).pins = s.pins := rfl
@[simp] theorem State.setPte_transit (s : State) (k : Nat) (v : BitVec 64) : (s.setPte k v).transit = s.transit := rfl
@[simp] theorem State.setPte_layout (s : State) (k : Nat) (v : BitVec 64) : (s.setPte k v).layout = s.layout := rfl
@[simp] theorem State.setPte_parts (s : State) (k : Nat) (v : BitVec 64) : (s.setPte k v).parts = s.parts := rfl
@[simp] theorem State.setPte_accq (s : State) (k : Nat) (v : BitVec 64) : (s.setPte k v).accq = s.accq := rfl
@[simp] theorem State.setPte_serving (s : State) (k : Nat) (v : BitVec 64) : (s.setPte k v).serving = s.serving := rfl
@[simp] theorem State.setPte_updating (s : State) (k : Nat) (v : BitVec 64) : (s.setPte k v).updating = s.updating := rfl
@[simp] theorem State.setPte_spine (s : State) (k : Nat) (v : BitVec 64) : (s.setPte k v).spine = s.spine := rfl
@[simp] theorem State.setPte_data (s : State) (k : Nat) (v : BitVec 64) : (s.setPte k v).data = s.data := rfl

/-! ### State.draw -/

@[simp] theorem State.draw_pending (s : State) : (s.draw.2).pending = s.pending := rfl
@[simp] theorem State.draw_clk (s : State) : (s.draw.2).clk = s.clk := rfl
@[simp] theorem State.draw_timeAcc (s : State) : (s.draw.2).timeAcc = s.timeAcc := rfl
@[simp] theorem State.draw_steer (s : State) : (s.draw.2).steer = s.steer := rfl
@[simp] theorem State.draw_timeOn (s : State) : (s.draw.2).timeOn = s.timeOn := rfl
@[simp] theorem State.draw_rst (s : State) : (s.draw.2).rst = s.rst := rfl
@[simp] theorem State.draw_pwr (s : State) : (s.draw.2).pwr = s.pwr := rfl
@[simp] theorem State.draw_mu (s : State) : (s.draw.2).mu = s.mu := rfl
@[simp] theorem State.draw_hif (s : State) : (s.draw.2).hif = s.hif := rfl
@[simp] theorem State.draw_cc (s : State) : (s.draw.2).cc = s.cc := rfl
@[simp] theorem State.draw_es (s : State) : (s.draw.2).es = s.es := rfl
@[simp] theorem State.draw_lnk (s : State) : (s.draw.2).lnk = s.lnk := rfl
@[simp] theorem State.draw_mem (s : State) : (s.draw.2).mem = s.mem := rfl
@[simp] theorem State.draw_se (s : State) : (s.draw.2).se = s.se := rfl
@[simp] theorem State.draw_num (s : State) : (s.draw.2).num = s.num := rfl
@[simp] theorem State.draw_sec (s : State) : (s.draw.2).sec = s.sec := rfl
@[simp] theorem State.draw_pins (s : State) : (s.draw.2).pins = s.pins := rfl
@[simp] theorem State.draw_transit (s : State) : (s.draw.2).transit = s.transit := rfl
@[simp] theorem State.draw_layout (s : State) : (s.draw.2).layout = s.layout := rfl
@[simp] theorem State.draw_parts (s : State) : (s.draw.2).parts = s.parts := rfl
@[simp] theorem State.draw_accq (s : State) : (s.draw.2).accq = s.accq := rfl
@[simp] theorem State.draw_serving (s : State) : (s.draw.2).serving = s.serving := rfl
@[simp] theorem State.draw_updating (s : State) : (s.draw.2).updating = s.updating := rfl
@[simp] theorem State.draw_spine (s : State) : (s.draw.2).spine = s.spine := rfl
@[simp] theorem State.draw_data (s : State) : (s.draw.2).data = s.data := rfl

/-! ### State.stamp -/

@[simp] theorem State.stamp_pending (s : State) : (s.stamp.2).pending = s.pending := rfl
@[simp] theorem State.stamp_freeCtr (s : State) : (s.stamp.2).freeCtr = s.freeCtr := rfl
@[simp] theorem State.stamp_clk (s : State) : (s.stamp.2).clk = s.clk := rfl
@[simp] theorem State.stamp_timeAcc (s : State) : (s.stamp.2).timeAcc = s.timeAcc := rfl
@[simp] theorem State.stamp_steer (s : State) : (s.stamp.2).steer = s.steer := rfl
@[simp] theorem State.stamp_timeOn (s : State) : (s.stamp.2).timeOn = s.timeOn := rfl
@[simp] theorem State.stamp_rst (s : State) : (s.stamp.2).rst = s.rst := rfl
@[simp] theorem State.stamp_pwr (s : State) : (s.stamp.2).pwr = s.pwr := rfl
@[simp] theorem State.stamp_mu (s : State) : (s.stamp.2).mu = s.mu := rfl
@[simp] theorem State.stamp_hif (s : State) : (s.stamp.2).hif = s.hif := rfl
@[simp] theorem State.stamp_cc (s : State) : (s.stamp.2).cc = s.cc := rfl
@[simp] theorem State.stamp_lnk (s : State) : (s.stamp.2).lnk = s.lnk := rfl
@[simp] theorem State.stamp_mem (s : State) : (s.stamp.2).mem = s.mem := rfl
@[simp] theorem State.stamp_se (s : State) : (s.stamp.2).se = s.se := rfl
@[simp] theorem State.stamp_num (s : State) : (s.stamp.2).num = s.num := rfl
@[simp] theorem State.stamp_sec (s : State) : (s.stamp.2).sec = s.sec := rfl
@[simp] theorem State.stamp_pins (s : State) : (s.stamp.2).pins = s.pins := rfl
@[simp] theorem State.stamp_transit (s : State) : (s.stamp.2).transit = s.transit := rfl
@[simp] theorem State.stamp_layout (s : State) : (s.stamp.2).layout = s.layout := rfl
@[simp] theorem State.stamp_parts (s : State) : (s.stamp.2).parts = s.parts := rfl
@[simp] theorem State.stamp_accq (s : State) : (s.stamp.2).accq = s.accq := rfl
@[simp] theorem State.stamp_serving (s : State) : (s.stamp.2).serving = s.serving := rfl
@[simp] theorem State.stamp_updating (s : State) : (s.stamp.2).updating = s.updating := rfl
@[simp] theorem State.stamp_spine (s : State) : (s.stamp.2).spine = s.spine := rfl
@[simp] theorem State.stamp_data (s : State) : (s.stamp.2).data = s.data := rfl

/-! ### State.write -/

@[simp] theorem State.write_pending (s : State) (sp : Space) (a : Nat) (r : Run) : (s.write sp a r).pending = s.pending := rfl
@[simp] theorem State.write_freeCtr (s : State) (sp : Space) (a : Nat) (r : Run) : (s.write sp a r).freeCtr = s.freeCtr := rfl
@[simp] theorem State.write_clk (s : State) (sp : Space) (a : Nat) (r : Run) : (s.write sp a r).clk = s.clk := rfl
@[simp] theorem State.write_timeAcc (s : State) (sp : Space) (a : Nat) (r : Run) : (s.write sp a r).timeAcc = s.timeAcc := rfl
@[simp] theorem State.write_steer (s : State) (sp : Space) (a : Nat) (r : Run) : (s.write sp a r).steer = s.steer := rfl
@[simp] theorem State.write_timeOn (s : State) (sp : Space) (a : Nat) (r : Run) : (s.write sp a r).timeOn = s.timeOn := rfl
@[simp] theorem State.write_rst (s : State) (sp : Space) (a : Nat) (r : Run) : (s.write sp a r).rst = s.rst := rfl
@[simp] theorem State.write_pwr (s : State) (sp : Space) (a : Nat) (r : Run) : (s.write sp a r).pwr = s.pwr := rfl
@[simp] theorem State.write_mu (s : State) (sp : Space) (a : Nat) (r : Run) : (s.write sp a r).mu = s.mu := rfl
@[simp] theorem State.write_hif (s : State) (sp : Space) (a : Nat) (r : Run) : (s.write sp a r).hif = s.hif := rfl
@[simp] theorem State.write_cc (s : State) (sp : Space) (a : Nat) (r : Run) : (s.write sp a r).cc = s.cc := rfl
@[simp] theorem State.write_es (s : State) (sp : Space) (a : Nat) (r : Run) : (s.write sp a r).es = s.es := rfl
@[simp] theorem State.write_lnk (s : State) (sp : Space) (a : Nat) (r : Run) : (s.write sp a r).lnk = s.lnk := rfl
@[simp] theorem State.write_mem (s : State) (sp : Space) (a : Nat) (r : Run) : (s.write sp a r).mem = s.mem := rfl
@[simp] theorem State.write_se (s : State) (sp : Space) (a : Nat) (r : Run) : (s.write sp a r).se = s.se := rfl
@[simp] theorem State.write_num (s : State) (sp : Space) (a : Nat) (r : Run) : (s.write sp a r).num = s.num := rfl
@[simp] theorem State.write_sec (s : State) (sp : Space) (a : Nat) (r : Run) : (s.write sp a r).sec = s.sec := rfl
@[simp] theorem State.write_pins (s : State) (sp : Space) (a : Nat) (r : Run) : (s.write sp a r).pins = s.pins := rfl
@[simp] theorem State.write_transit (s : State) (sp : Space) (a : Nat) (r : Run) : (s.write sp a r).transit = s.transit := rfl
@[simp] theorem State.write_layout (s : State) (sp : Space) (a : Nat) (r : Run) : (s.write sp a r).layout = s.layout := rfl
@[simp] theorem State.write_parts (s : State) (sp : Space) (a : Nat) (r : Run) : (s.write sp a r).parts = s.parts := rfl
@[simp] theorem State.write_accq (s : State) (sp : Space) (a : Nat) (r : Run) : (s.write sp a r).accq = s.accq := rfl
@[simp] theorem State.write_serving (s : State) (sp : Space) (a : Nat) (r : Run) : (s.write sp a r).serving = s.serving := rfl
@[simp] theorem State.write_updating (s : State) (sp : Space) (a : Nat) (r : Run) : (s.write sp a r).updating = s.updating := rfl
@[simp] theorem State.write_spine (s : State) (sp : Space) (a : Nat) (r : Run) : (s.write sp a r).spine = s.spine := rfl

/-! ### State.hostWrite -/

@[simp] theorem State.hostWrite_pending (s : State) (a : Nat) (bs : List Byte) : (s.hostWrite a bs).pending = s.pending := rfl
@[simp] theorem State.hostWrite_freeCtr (s : State) (a : Nat) (bs : List Byte) : (s.hostWrite a bs).freeCtr = s.freeCtr := rfl
@[simp] theorem State.hostWrite_clk (s : State) (a : Nat) (bs : List Byte) : (s.hostWrite a bs).clk = s.clk := rfl
@[simp] theorem State.hostWrite_timeAcc (s : State) (a : Nat) (bs : List Byte) : (s.hostWrite a bs).timeAcc = s.timeAcc := rfl
@[simp] theorem State.hostWrite_steer (s : State) (a : Nat) (bs : List Byte) : (s.hostWrite a bs).steer = s.steer := rfl
@[simp] theorem State.hostWrite_timeOn (s : State) (a : Nat) (bs : List Byte) : (s.hostWrite a bs).timeOn = s.timeOn := rfl
@[simp] theorem State.hostWrite_rst (s : State) (a : Nat) (bs : List Byte) : (s.hostWrite a bs).rst = s.rst := rfl
@[simp] theorem State.hostWrite_pwr (s : State) (a : Nat) (bs : List Byte) : (s.hostWrite a bs).pwr = s.pwr := rfl
@[simp] theorem State.hostWrite_mu (s : State) (a : Nat) (bs : List Byte) : (s.hostWrite a bs).mu = s.mu := rfl
@[simp] theorem State.hostWrite_hif (s : State) (a : Nat) (bs : List Byte) : (s.hostWrite a bs).hif = s.hif := rfl
@[simp] theorem State.hostWrite_cc (s : State) (a : Nat) (bs : List Byte) : (s.hostWrite a bs).cc = s.cc := rfl
@[simp] theorem State.hostWrite_es (s : State) (a : Nat) (bs : List Byte) : (s.hostWrite a bs).es = s.es := rfl
@[simp] theorem State.hostWrite_lnk (s : State) (a : Nat) (bs : List Byte) : (s.hostWrite a bs).lnk = s.lnk := rfl
@[simp] theorem State.hostWrite_mem (s : State) (a : Nat) (bs : List Byte) : (s.hostWrite a bs).mem = s.mem := rfl
@[simp] theorem State.hostWrite_se (s : State) (a : Nat) (bs : List Byte) : (s.hostWrite a bs).se = s.se := rfl
@[simp] theorem State.hostWrite_num (s : State) (a : Nat) (bs : List Byte) : (s.hostWrite a bs).num = s.num := rfl
@[simp] theorem State.hostWrite_sec (s : State) (a : Nat) (bs : List Byte) : (s.hostWrite a bs).sec = s.sec := rfl
@[simp] theorem State.hostWrite_pins (s : State) (a : Nat) (bs : List Byte) : (s.hostWrite a bs).pins = s.pins := rfl
@[simp] theorem State.hostWrite_transit (s : State) (a : Nat) (bs : List Byte) : (s.hostWrite a bs).transit = s.transit := rfl
@[simp] theorem State.hostWrite_layout (s : State) (a : Nat) (bs : List Byte) : (s.hostWrite a bs).layout = s.layout := rfl
@[simp] theorem State.hostWrite_parts (s : State) (a : Nat) (bs : List Byte) : (s.hostWrite a bs).parts = s.parts := rfl
@[simp] theorem State.hostWrite_accq (s : State) (a : Nat) (bs : List Byte) : (s.hostWrite a bs).accq = s.accq := rfl
@[simp] theorem State.hostWrite_serving (s : State) (a : Nat) (bs : List Byte) : (s.hostWrite a bs).serving = s.serving := rfl
@[simp] theorem State.hostWrite_updating (s : State) (a : Nat) (bs : List Byte) : (s.hostWrite a bs).updating = s.updating := rfl
@[simp] theorem State.hostWrite_spine (s : State) (a : Nat) (bs : List Byte) : (s.hostWrite a bs).spine = s.spine := rfl

/-! ### State.hostSend -/

@[simp] theorem State.hostSend_pending (s : State) (a : Nat) (r : Run) : (s.hostSend a r).pending = s.pending := rfl
@[simp] theorem State.hostSend_freeCtr (s : State) (a : Nat) (r : Run) : (s.hostSend a r).freeCtr = s.freeCtr := rfl
@[simp] theorem State.hostSend_clk (s : State) (a : Nat) (r : Run) : (s.hostSend a r).clk = s.clk := rfl
@[simp] theorem State.hostSend_timeAcc (s : State) (a : Nat) (r : Run) : (s.hostSend a r).timeAcc = s.timeAcc := rfl
@[simp] theorem State.hostSend_steer (s : State) (a : Nat) (r : Run) : (s.hostSend a r).steer = s.steer := rfl
@[simp] theorem State.hostSend_timeOn (s : State) (a : Nat) (r : Run) : (s.hostSend a r).timeOn = s.timeOn := rfl
@[simp] theorem State.hostSend_rst (s : State) (a : Nat) (r : Run) : (s.hostSend a r).rst = s.rst := rfl
@[simp] theorem State.hostSend_pwr (s : State) (a : Nat) (r : Run) : (s.hostSend a r).pwr = s.pwr := rfl
@[simp] theorem State.hostSend_mu (s : State) (a : Nat) (r : Run) : (s.hostSend a r).mu = s.mu := rfl
@[simp] theorem State.hostSend_hif (s : State) (a : Nat) (r : Run) : (s.hostSend a r).hif = s.hif := rfl
@[simp] theorem State.hostSend_cc (s : State) (a : Nat) (r : Run) : (s.hostSend a r).cc = s.cc := rfl
@[simp] theorem State.hostSend_es (s : State) (a : Nat) (r : Run) : (s.hostSend a r).es = s.es := rfl
@[simp] theorem State.hostSend_lnk (s : State) (a : Nat) (r : Run) : (s.hostSend a r).lnk = s.lnk := rfl
@[simp] theorem State.hostSend_mem (s : State) (a : Nat) (r : Run) : (s.hostSend a r).mem = s.mem := rfl
@[simp] theorem State.hostSend_se (s : State) (a : Nat) (r : Run) : (s.hostSend a r).se = s.se := rfl
@[simp] theorem State.hostSend_num (s : State) (a : Nat) (r : Run) : (s.hostSend a r).num = s.num := rfl
@[simp] theorem State.hostSend_sec (s : State) (a : Nat) (r : Run) : (s.hostSend a r).sec = s.sec := rfl
@[simp] theorem State.hostSend_pins (s : State) (a : Nat) (r : Run) : (s.hostSend a r).pins = s.pins := rfl
@[simp] theorem State.hostSend_transit (s : State) (a : Nat) (r : Run) : (s.hostSend a r).transit = s.transit := rfl
@[simp] theorem State.hostSend_layout (s : State) (a : Nat) (r : Run) : (s.hostSend a r).layout = s.layout := rfl
@[simp] theorem State.hostSend_parts (s : State) (a : Nat) (r : Run) : (s.hostSend a r).parts = s.parts := rfl
@[simp] theorem State.hostSend_accq (s : State) (a : Nat) (r : Run) : (s.hostSend a r).accq = s.accq := rfl
@[simp] theorem State.hostSend_serving (s : State) (a : Nat) (r : Run) : (s.hostSend a r).serving = s.serving := rfl
@[simp] theorem State.hostSend_updating (s : State) (a : Nat) (r : Run) : (s.hostSend a r).updating = s.updating := rfl
@[simp] theorem State.hostSend_spine (s : State) (a : Nat) (r : Run) : (s.hostSend a r).spine = s.spine := rfl

/-! ### State.hostStores -/

@[simp] theorem State.hostStores_pending (s : State) (l : List HostStore) : (s.hostStores l).pending = s.pending := rfl
@[simp] theorem State.hostStores_freeCtr (s : State) (l : List HostStore) : (s.hostStores l).freeCtr = s.freeCtr := rfl
@[simp] theorem State.hostStores_clk (s : State) (l : List HostStore) : (s.hostStores l).clk = s.clk := rfl
@[simp] theorem State.hostStores_timeAcc (s : State) (l : List HostStore) : (s.hostStores l).timeAcc = s.timeAcc := rfl
@[simp] theorem State.hostStores_steer (s : State) (l : List HostStore) : (s.hostStores l).steer = s.steer := rfl
@[simp] theorem State.hostStores_timeOn (s : State) (l : List HostStore) : (s.hostStores l).timeOn = s.timeOn := rfl
@[simp] theorem State.hostStores_rst (s : State) (l : List HostStore) : (s.hostStores l).rst = s.rst := rfl
@[simp] theorem State.hostStores_pwr (s : State) (l : List HostStore) : (s.hostStores l).pwr = s.pwr := rfl
@[simp] theorem State.hostStores_mu (s : State) (l : List HostStore) : (s.hostStores l).mu = s.mu := rfl
@[simp] theorem State.hostStores_hif (s : State) (l : List HostStore) : (s.hostStores l).hif = s.hif := rfl
@[simp] theorem State.hostStores_cc (s : State) (l : List HostStore) : (s.hostStores l).cc = s.cc := rfl
@[simp] theorem State.hostStores_es (s : State) (l : List HostStore) : (s.hostStores l).es = s.es := rfl
@[simp] theorem State.hostStores_lnk (s : State) (l : List HostStore) : (s.hostStores l).lnk = s.lnk := rfl
@[simp] theorem State.hostStores_mem (s : State) (l : List HostStore) : (s.hostStores l).mem = s.mem := rfl
@[simp] theorem State.hostStores_se (s : State) (l : List HostStore) : (s.hostStores l).se = s.se := rfl
@[simp] theorem State.hostStores_num (s : State) (l : List HostStore) : (s.hostStores l).num = s.num := rfl
@[simp] theorem State.hostStores_sec (s : State) (l : List HostStore) : (s.hostStores l).sec = s.sec := rfl
@[simp] theorem State.hostStores_pins (s : State) (l : List HostStore) : (s.hostStores l).pins = s.pins := rfl
@[simp] theorem State.hostStores_transit (s : State) (l : List HostStore) : (s.hostStores l).transit = s.transit := rfl
@[simp] theorem State.hostStores_layout (s : State) (l : List HostStore) : (s.hostStores l).layout = s.layout := rfl
@[simp] theorem State.hostStores_parts (s : State) (l : List HostStore) : (s.hostStores l).parts = s.parts := rfl
@[simp] theorem State.hostStores_accq (s : State) (l : List HostStore) : (s.hostStores l).accq = s.accq := rfl
@[simp] theorem State.hostStores_serving (s : State) (l : List HostStore) : (s.hostStores l).serving = s.serving := rfl
@[simp] theorem State.hostStores_updating (s : State) (l : List HostStore) : (s.hostStores l).updating = s.updating := rfl
@[simp] theorem State.hostStores_spine (s : State) (l : List HostStore) : (s.hostStores l).spine = s.spine := rfl

/-! ### State.advertise -/

@[simp] theorem State.advertise_pending (s : State) : (s.advertise).pending = s.pending := rfl
@[simp] theorem State.advertise_freeCtr (s : State) : (s.advertise).freeCtr = s.freeCtr := rfl
@[simp] theorem State.advertise_clk (s : State) : (s.advertise).clk = s.clk := rfl
@[simp] theorem State.advertise_timeAcc (s : State) : (s.advertise).timeAcc = s.timeAcc := rfl
@[simp] theorem State.advertise_steer (s : State) : (s.advertise).steer = s.steer := rfl
@[simp] theorem State.advertise_timeOn (s : State) : (s.advertise).timeOn = s.timeOn := rfl
@[simp] theorem State.advertise_rst (s : State) : (s.advertise).rst = s.rst := rfl
@[simp] theorem State.advertise_pwr (s : State) : (s.advertise).pwr = s.pwr := rfl
@[simp] theorem State.advertise_mu (s : State) : (s.advertise).mu = s.mu := rfl
@[simp] theorem State.advertise_cc (s : State) : (s.advertise).cc = s.cc := rfl
@[simp] theorem State.advertise_es (s : State) : (s.advertise).es = s.es := rfl
@[simp] theorem State.advertise_lnk (s : State) : (s.advertise).lnk = s.lnk := rfl
@[simp] theorem State.advertise_mem (s : State) : (s.advertise).mem = s.mem := rfl
@[simp] theorem State.advertise_se (s : State) : (s.advertise).se = s.se := rfl
@[simp] theorem State.advertise_num (s : State) : (s.advertise).num = s.num := rfl
@[simp] theorem State.advertise_sec (s : State) : (s.advertise).sec = s.sec := rfl
@[simp] theorem State.advertise_pins (s : State) : (s.advertise).pins = s.pins := rfl
@[simp] theorem State.advertise_transit (s : State) : (s.advertise).transit = s.transit := rfl
@[simp] theorem State.advertise_layout (s : State) : (s.advertise).layout = s.layout := rfl
@[simp] theorem State.advertise_parts (s : State) : (s.advertise).parts = s.parts := rfl
@[simp] theorem State.advertise_accq (s : State) : (s.advertise).accq = s.accq := rfl
@[simp] theorem State.advertise_serving (s : State) : (s.advertise).serving = s.serving := rfl
@[simp] theorem State.advertise_updating (s : State) : (s.advertise).updating = s.updating := rfl
@[simp] theorem State.advertise_spine (s : State) : (s.advertise).spine = s.spine := rfl
@[simp] theorem State.advertise_data (s : State) : (s.advertise).data = s.data := rfl

/-! ### State.complete -/

@[simp] theorem State.complete_pending (s : State) (ring tag stamp part status reason value detail : Nat) : (s.complete ring tag stamp part status reason value detail).pending = s.pending := rfl
@[simp] theorem State.complete_freeCtr (s : State) (ring tag stamp part status reason value detail : Nat) : (s.complete ring tag stamp part status reason value detail).freeCtr = s.freeCtr := rfl
@[simp] theorem State.complete_clk (s : State) (ring tag stamp part status reason value detail : Nat) : (s.complete ring tag stamp part status reason value detail).clk = s.clk := rfl
@[simp] theorem State.complete_timeAcc (s : State) (ring tag stamp part status reason value detail : Nat) : (s.complete ring tag stamp part status reason value detail).timeAcc = s.timeAcc := rfl
@[simp] theorem State.complete_steer (s : State) (ring tag stamp part status reason value detail : Nat) : (s.complete ring tag stamp part status reason value detail).steer = s.steer := rfl
@[simp] theorem State.complete_timeOn (s : State) (ring tag stamp part status reason value detail : Nat) : (s.complete ring tag stamp part status reason value detail).timeOn = s.timeOn := rfl
@[simp] theorem State.complete_rst (s : State) (ring tag stamp part status reason value detail : Nat) : (s.complete ring tag stamp part status reason value detail).rst = s.rst := rfl
@[simp] theorem State.complete_pwr (s : State) (ring tag stamp part status reason value detail : Nat) : (s.complete ring tag stamp part status reason value detail).pwr = s.pwr := rfl
@[simp] theorem State.complete_mu (s : State) (ring tag stamp part status reason value detail : Nat) : (s.complete ring tag stamp part status reason value detail).mu = s.mu := rfl
@[simp] theorem State.complete_cc (s : State) (ring tag stamp part status reason value detail : Nat) : (s.complete ring tag stamp part status reason value detail).cc = s.cc := rfl
@[simp] theorem State.complete_lnk (s : State) (ring tag stamp part status reason value detail : Nat) : (s.complete ring tag stamp part status reason value detail).lnk = s.lnk := rfl
@[simp] theorem State.complete_mem (s : State) (ring tag stamp part status reason value detail : Nat) : (s.complete ring tag stamp part status reason value detail).mem = s.mem := rfl
@[simp] theorem State.complete_se (s : State) (ring tag stamp part status reason value detail : Nat) : (s.complete ring tag stamp part status reason value detail).se = s.se := rfl
@[simp] theorem State.complete_num (s : State) (ring tag stamp part status reason value detail : Nat) : (s.complete ring tag stamp part status reason value detail).num = s.num := rfl
@[simp] theorem State.complete_sec (s : State) (ring tag stamp part status reason value detail : Nat) : (s.complete ring tag stamp part status reason value detail).sec = s.sec := rfl
@[simp] theorem State.complete_pins (s : State) (ring tag stamp part status reason value detail : Nat) : (s.complete ring tag stamp part status reason value detail).pins = s.pins := rfl
@[simp] theorem State.complete_transit (s : State) (ring tag stamp part status reason value detail : Nat) : (s.complete ring tag stamp part status reason value detail).transit = s.transit := rfl
@[simp] theorem State.complete_layout (s : State) (ring tag stamp part status reason value detail : Nat) : (s.complete ring tag stamp part status reason value detail).layout = s.layout := rfl
@[simp] theorem State.complete_parts (s : State) (ring tag stamp part status reason value detail : Nat) : (s.complete ring tag stamp part status reason value detail).parts = s.parts := rfl
@[simp] theorem State.complete_accq (s : State) (ring tag stamp part status reason value detail : Nat) : (s.complete ring tag stamp part status reason value detail).accq = s.accq := rfl
@[simp] theorem State.complete_serving (s : State) (ring tag stamp part status reason value detail : Nat) : (s.complete ring tag stamp part status reason value detail).serving = s.serving := rfl
@[simp] theorem State.complete_updating (s : State) (ring tag stamp part status reason value detail : Nat) : (s.complete ring tag stamp part status reason value detail).updating = s.updating := rfl
@[simp] theorem State.complete_spine (s : State) (ring tag stamp part status reason value detail : Nat) : (s.complete ring tag stamp part status reason value detail).spine = s.spine := rfl
@[simp] theorem State.complete_data (s : State) (ring tag stamp part status reason value detail : Nat) : (s.complete ring tag stamp part status reason value detail).data = s.data := rfl

/-! ### State.begun -/

@[simp] theorem State.begun_pending (s : State) (c : Cmd) : (s.begun c).pending = s.pending := rfl
@[simp] theorem State.begun_freeCtr (s : State) (c : Cmd) : (s.begun c).freeCtr = s.freeCtr := rfl
@[simp] theorem State.begun_clk (s : State) (c : Cmd) : (s.begun c).clk = s.clk := rfl
@[simp] theorem State.begun_timeAcc (s : State) (c : Cmd) : (s.begun c).timeAcc = s.timeAcc := rfl
@[simp] theorem State.begun_steer (s : State) (c : Cmd) : (s.begun c).steer = s.steer := rfl
@[simp] theorem State.begun_timeOn (s : State) (c : Cmd) : (s.begun c).timeOn = s.timeOn := rfl
@[simp] theorem State.begun_rst (s : State) (c : Cmd) : (s.begun c).rst = s.rst := rfl
@[simp] theorem State.begun_pwr (s : State) (c : Cmd) : (s.begun c).pwr = s.pwr := rfl
@[simp] theorem State.begun_mu (s : State) (c : Cmd) : (s.begun c).mu = s.mu := rfl
@[simp] theorem State.begun_cc (s : State) (c : Cmd) : (s.begun c).cc = s.cc := rfl
@[simp] theorem State.begun_es (s : State) (c : Cmd) : (s.begun c).es = s.es := rfl
@[simp] theorem State.begun_lnk (s : State) (c : Cmd) : (s.begun c).lnk = s.lnk := rfl
@[simp] theorem State.begun_mem (s : State) (c : Cmd) : (s.begun c).mem = s.mem := rfl
@[simp] theorem State.begun_se (s : State) (c : Cmd) : (s.begun c).se = s.se := rfl
@[simp] theorem State.begun_num (s : State) (c : Cmd) : (s.begun c).num = s.num := rfl
@[simp] theorem State.begun_sec (s : State) (c : Cmd) : (s.begun c).sec = s.sec := rfl
@[simp] theorem State.begun_pins (s : State) (c : Cmd) : (s.begun c).pins = s.pins := rfl
@[simp] theorem State.begun_transit (s : State) (c : Cmd) : (s.begun c).transit = s.transit := rfl
@[simp] theorem State.begun_layout (s : State) (c : Cmd) : (s.begun c).layout = s.layout := rfl
@[simp] theorem State.begun_parts (s : State) (c : Cmd) : (s.begun c).parts = s.parts := rfl
@[simp] theorem State.begun_accq (s : State) (c : Cmd) : (s.begun c).accq = s.accq := rfl
@[simp] theorem State.begun_serving (s : State) (c : Cmd) : (s.begun c).serving = s.serving := rfl
@[simp] theorem State.begun_updating (s : State) (c : Cmd) : (s.begun c).updating = s.updating := rfl
@[simp] theorem State.begun_spine (s : State) (c : Cmd) : (s.begun c).spine = s.spine := rfl
@[simp] theorem State.begun_data (s : State) (c : Cmd) : (s.begun c).data = s.data := rfl

/-! ### State.ok -/

@[simp] theorem State.ok_pending (s : State) (c : Cmd) (v : Nat) : (s.ok c v).pending = s.pending := rfl
@[simp] theorem State.ok_freeCtr (s : State) (c : Cmd) (v : Nat) : (s.ok c v).freeCtr = s.freeCtr := rfl
@[simp] theorem State.ok_clk (s : State) (c : Cmd) (v : Nat) : (s.ok c v).clk = s.clk := rfl
@[simp] theorem State.ok_timeAcc (s : State) (c : Cmd) (v : Nat) : (s.ok c v).timeAcc = s.timeAcc := rfl
@[simp] theorem State.ok_steer (s : State) (c : Cmd) (v : Nat) : (s.ok c v).steer = s.steer := rfl
@[simp] theorem State.ok_timeOn (s : State) (c : Cmd) (v : Nat) : (s.ok c v).timeOn = s.timeOn := rfl
@[simp] theorem State.ok_rst (s : State) (c : Cmd) (v : Nat) : (s.ok c v).rst = s.rst := rfl
@[simp] theorem State.ok_pwr (s : State) (c : Cmd) (v : Nat) : (s.ok c v).pwr = s.pwr := rfl
@[simp] theorem State.ok_mu (s : State) (c : Cmd) (v : Nat) : (s.ok c v).mu = s.mu := rfl
@[simp] theorem State.ok_cc (s : State) (c : Cmd) (v : Nat) : (s.ok c v).cc = s.cc := rfl
@[simp] theorem State.ok_lnk (s : State) (c : Cmd) (v : Nat) : (s.ok c v).lnk = s.lnk := rfl
@[simp] theorem State.ok_mem (s : State) (c : Cmd) (v : Nat) : (s.ok c v).mem = s.mem := rfl
@[simp] theorem State.ok_se (s : State) (c : Cmd) (v : Nat) : (s.ok c v).se = s.se := rfl
@[simp] theorem State.ok_num (s : State) (c : Cmd) (v : Nat) : (s.ok c v).num = s.num := rfl
@[simp] theorem State.ok_sec (s : State) (c : Cmd) (v : Nat) : (s.ok c v).sec = s.sec := rfl
@[simp] theorem State.ok_pins (s : State) (c : Cmd) (v : Nat) : (s.ok c v).pins = s.pins := rfl
@[simp] theorem State.ok_transit (s : State) (c : Cmd) (v : Nat) : (s.ok c v).transit = s.transit := rfl
@[simp] theorem State.ok_layout (s : State) (c : Cmd) (v : Nat) : (s.ok c v).layout = s.layout := rfl
@[simp] theorem State.ok_parts (s : State) (c : Cmd) (v : Nat) : (s.ok c v).parts = s.parts := rfl
@[simp] theorem State.ok_accq (s : State) (c : Cmd) (v : Nat) : (s.ok c v).accq = s.accq := rfl
@[simp] theorem State.ok_serving (s : State) (c : Cmd) (v : Nat) : (s.ok c v).serving = s.serving := rfl
@[simp] theorem State.ok_updating (s : State) (c : Cmd) (v : Nat) : (s.ok c v).updating = s.updating := rfl
@[simp] theorem State.ok_spine (s : State) (c : Cmd) (v : Nat) : (s.ok c v).spine = s.spine := rfl
@[simp] theorem State.ok_data (s : State) (c : Cmd) (v : Nat) : (s.ok c v).data = s.data := rfl

/-! ### Events: only the event sequencer changes -/

theorem State.enterLost_frame (s : State) : ∃ e, s.enterLost = { s with es := e } := by
  unfold State.enterLost; split <;> exact ⟨_, rfl⟩
/-- An event changes the event sequencer and nothing else. -/
theorem State.event_frame (s : State) (ty : Nat) (p : Option Nat) (src aux det : Nat) : ∃ e, (s.event ty p src aux det).2 = { s with es := e } := by
  obtain ⟨e, h⟩ := s.enterLost_frame
  simp only [State.event, h]
  split
  · exact ⟨_, rfl⟩
  · split <;> exact ⟨_, rfl⟩
theorem State.post_frame (s : State) (ty : Nat) (p : Option Nat) (src aux det : Nat) : ∃ e, s.post ty p src aux det = { s with es := e } :=
  s.event_frame ty p src aux det

@[simp] theorem State.event_pending (s : State) (ty : Nat) (p : Option Nat) (src aux det : Nat) : (s.event ty p src aux det).2.pending = s.pending := by
  obtain ⟨e, h⟩ := s.event_frame ty p src aux det; rw [h]
@[simp] theorem State.post_pending (s : State) (ty : Nat) (p : Option Nat) (src aux det : Nat) : (s.post ty p src aux det).pending = s.pending := by
  obtain ⟨e, h⟩ := s.post_frame ty p src aux det; rw [h]
@[simp] theorem State.event_freeCtr (s : State) (ty : Nat) (p : Option Nat) (src aux det : Nat) : (s.event ty p src aux det).2.freeCtr = s.freeCtr := by
  obtain ⟨e, h⟩ := s.event_frame ty p src aux det; rw [h]
@[simp] theorem State.post_freeCtr (s : State) (ty : Nat) (p : Option Nat) (src aux det : Nat) : (s.post ty p src aux det).freeCtr = s.freeCtr := by
  obtain ⟨e, h⟩ := s.post_frame ty p src aux det; rw [h]
@[simp] theorem State.event_clk (s : State) (ty : Nat) (p : Option Nat) (src aux det : Nat) : (s.event ty p src aux det).2.clk = s.clk := by
  obtain ⟨e, h⟩ := s.event_frame ty p src aux det; rw [h]
@[simp] theorem State.post_clk (s : State) (ty : Nat) (p : Option Nat) (src aux det : Nat) : (s.post ty p src aux det).clk = s.clk := by
  obtain ⟨e, h⟩ := s.post_frame ty p src aux det; rw [h]
@[simp] theorem State.event_timeAcc (s : State) (ty : Nat) (p : Option Nat) (src aux det : Nat) : (s.event ty p src aux det).2.timeAcc = s.timeAcc := by
  obtain ⟨e, h⟩ := s.event_frame ty p src aux det; rw [h]
@[simp] theorem State.post_timeAcc (s : State) (ty : Nat) (p : Option Nat) (src aux det : Nat) : (s.post ty p src aux det).timeAcc = s.timeAcc := by
  obtain ⟨e, h⟩ := s.post_frame ty p src aux det; rw [h]
@[simp] theorem State.event_steer (s : State) (ty : Nat) (p : Option Nat) (src aux det : Nat) : (s.event ty p src aux det).2.steer = s.steer := by
  obtain ⟨e, h⟩ := s.event_frame ty p src aux det; rw [h]
@[simp] theorem State.post_steer (s : State) (ty : Nat) (p : Option Nat) (src aux det : Nat) : (s.post ty p src aux det).steer = s.steer := by
  obtain ⟨e, h⟩ := s.post_frame ty p src aux det; rw [h]
@[simp] theorem State.event_timeOn (s : State) (ty : Nat) (p : Option Nat) (src aux det : Nat) : (s.event ty p src aux det).2.timeOn = s.timeOn := by
  obtain ⟨e, h⟩ := s.event_frame ty p src aux det; rw [h]
@[simp] theorem State.post_timeOn (s : State) (ty : Nat) (p : Option Nat) (src aux det : Nat) : (s.post ty p src aux det).timeOn = s.timeOn := by
  obtain ⟨e, h⟩ := s.post_frame ty p src aux det; rw [h]
@[simp] theorem State.event_rst (s : State) (ty : Nat) (p : Option Nat) (src aux det : Nat) : (s.event ty p src aux det).2.rst = s.rst := by
  obtain ⟨e, h⟩ := s.event_frame ty p src aux det; rw [h]
@[simp] theorem State.post_rst (s : State) (ty : Nat) (p : Option Nat) (src aux det : Nat) : (s.post ty p src aux det).rst = s.rst := by
  obtain ⟨e, h⟩ := s.post_frame ty p src aux det; rw [h]
@[simp] theorem State.event_pwr (s : State) (ty : Nat) (p : Option Nat) (src aux det : Nat) : (s.event ty p src aux det).2.pwr = s.pwr := by
  obtain ⟨e, h⟩ := s.event_frame ty p src aux det; rw [h]
@[simp] theorem State.post_pwr (s : State) (ty : Nat) (p : Option Nat) (src aux det : Nat) : (s.post ty p src aux det).pwr = s.pwr := by
  obtain ⟨e, h⟩ := s.post_frame ty p src aux det; rw [h]
@[simp] theorem State.event_mu (s : State) (ty : Nat) (p : Option Nat) (src aux det : Nat) : (s.event ty p src aux det).2.mu = s.mu := by
  obtain ⟨e, h⟩ := s.event_frame ty p src aux det; rw [h]
@[simp] theorem State.post_mu (s : State) (ty : Nat) (p : Option Nat) (src aux det : Nat) : (s.post ty p src aux det).mu = s.mu := by
  obtain ⟨e, h⟩ := s.post_frame ty p src aux det; rw [h]
@[simp] theorem State.event_hif (s : State) (ty : Nat) (p : Option Nat) (src aux det : Nat) : (s.event ty p src aux det).2.hif = s.hif := by
  obtain ⟨e, h⟩ := s.event_frame ty p src aux det; rw [h]
@[simp] theorem State.post_hif (s : State) (ty : Nat) (p : Option Nat) (src aux det : Nat) : (s.post ty p src aux det).hif = s.hif := by
  obtain ⟨e, h⟩ := s.post_frame ty p src aux det; rw [h]
@[simp] theorem State.event_cc (s : State) (ty : Nat) (p : Option Nat) (src aux det : Nat) : (s.event ty p src aux det).2.cc = s.cc := by
  obtain ⟨e, h⟩ := s.event_frame ty p src aux det; rw [h]
@[simp] theorem State.post_cc (s : State) (ty : Nat) (p : Option Nat) (src aux det : Nat) : (s.post ty p src aux det).cc = s.cc := by
  obtain ⟨e, h⟩ := s.post_frame ty p src aux det; rw [h]
@[simp] theorem State.event_lnk (s : State) (ty : Nat) (p : Option Nat) (src aux det : Nat) : (s.event ty p src aux det).2.lnk = s.lnk := by
  obtain ⟨e, h⟩ := s.event_frame ty p src aux det; rw [h]
@[simp] theorem State.post_lnk (s : State) (ty : Nat) (p : Option Nat) (src aux det : Nat) : (s.post ty p src aux det).lnk = s.lnk := by
  obtain ⟨e, h⟩ := s.post_frame ty p src aux det; rw [h]
@[simp] theorem State.event_mem (s : State) (ty : Nat) (p : Option Nat) (src aux det : Nat) : (s.event ty p src aux det).2.mem = s.mem := by
  obtain ⟨e, h⟩ := s.event_frame ty p src aux det; rw [h]
@[simp] theorem State.post_mem (s : State) (ty : Nat) (p : Option Nat) (src aux det : Nat) : (s.post ty p src aux det).mem = s.mem := by
  obtain ⟨e, h⟩ := s.post_frame ty p src aux det; rw [h]
@[simp] theorem State.event_se (s : State) (ty : Nat) (p : Option Nat) (src aux det : Nat) : (s.event ty p src aux det).2.se = s.se := by
  obtain ⟨e, h⟩ := s.event_frame ty p src aux det; rw [h]
@[simp] theorem State.post_se (s : State) (ty : Nat) (p : Option Nat) (src aux det : Nat) : (s.post ty p src aux det).se = s.se := by
  obtain ⟨e, h⟩ := s.post_frame ty p src aux det; rw [h]
@[simp] theorem State.event_num (s : State) (ty : Nat) (p : Option Nat) (src aux det : Nat) : (s.event ty p src aux det).2.num = s.num := by
  obtain ⟨e, h⟩ := s.event_frame ty p src aux det; rw [h]
@[simp] theorem State.post_num (s : State) (ty : Nat) (p : Option Nat) (src aux det : Nat) : (s.post ty p src aux det).num = s.num := by
  obtain ⟨e, h⟩ := s.post_frame ty p src aux det; rw [h]
@[simp] theorem State.event_sec (s : State) (ty : Nat) (p : Option Nat) (src aux det : Nat) : (s.event ty p src aux det).2.sec = s.sec := by
  obtain ⟨e, h⟩ := s.event_frame ty p src aux det; rw [h]
@[simp] theorem State.post_sec (s : State) (ty : Nat) (p : Option Nat) (src aux det : Nat) : (s.post ty p src aux det).sec = s.sec := by
  obtain ⟨e, h⟩ := s.post_frame ty p src aux det; rw [h]
@[simp] theorem State.event_pins (s : State) (ty : Nat) (p : Option Nat) (src aux det : Nat) : (s.event ty p src aux det).2.pins = s.pins := by
  obtain ⟨e, h⟩ := s.event_frame ty p src aux det; rw [h]
@[simp] theorem State.post_pins (s : State) (ty : Nat) (p : Option Nat) (src aux det : Nat) : (s.post ty p src aux det).pins = s.pins := by
  obtain ⟨e, h⟩ := s.post_frame ty p src aux det; rw [h]
@[simp] theorem State.event_transit (s : State) (ty : Nat) (p : Option Nat) (src aux det : Nat) : (s.event ty p src aux det).2.transit = s.transit := by
  obtain ⟨e, h⟩ := s.event_frame ty p src aux det; rw [h]
@[simp] theorem State.post_transit (s : State) (ty : Nat) (p : Option Nat) (src aux det : Nat) : (s.post ty p src aux det).transit = s.transit := by
  obtain ⟨e, h⟩ := s.post_frame ty p src aux det; rw [h]
@[simp] theorem State.event_layout (s : State) (ty : Nat) (p : Option Nat) (src aux det : Nat) : (s.event ty p src aux det).2.layout = s.layout := by
  obtain ⟨e, h⟩ := s.event_frame ty p src aux det; rw [h]
@[simp] theorem State.post_layout (s : State) (ty : Nat) (p : Option Nat) (src aux det : Nat) : (s.post ty p src aux det).layout = s.layout := by
  obtain ⟨e, h⟩ := s.post_frame ty p src aux det; rw [h]
@[simp] theorem State.event_parts (s : State) (ty : Nat) (p : Option Nat) (src aux det : Nat) : (s.event ty p src aux det).2.parts = s.parts := by
  obtain ⟨e, h⟩ := s.event_frame ty p src aux det; rw [h]
@[simp] theorem State.post_parts (s : State) (ty : Nat) (p : Option Nat) (src aux det : Nat) : (s.post ty p src aux det).parts = s.parts := by
  obtain ⟨e, h⟩ := s.post_frame ty p src aux det; rw [h]
@[simp] theorem State.event_accq (s : State) (ty : Nat) (p : Option Nat) (src aux det : Nat) : (s.event ty p src aux det).2.accq = s.accq := by
  obtain ⟨e, h⟩ := s.event_frame ty p src aux det; rw [h]
@[simp] theorem State.post_accq (s : State) (ty : Nat) (p : Option Nat) (src aux det : Nat) : (s.post ty p src aux det).accq = s.accq := by
  obtain ⟨e, h⟩ := s.post_frame ty p src aux det; rw [h]
@[simp] theorem State.event_serving (s : State) (ty : Nat) (p : Option Nat) (src aux det : Nat) : (s.event ty p src aux det).2.serving = s.serving := by
  obtain ⟨e, h⟩ := s.event_frame ty p src aux det; rw [h]
@[simp] theorem State.post_serving (s : State) (ty : Nat) (p : Option Nat) (src aux det : Nat) : (s.post ty p src aux det).serving = s.serving := by
  obtain ⟨e, h⟩ := s.post_frame ty p src aux det; rw [h]
@[simp] theorem State.event_updating (s : State) (ty : Nat) (p : Option Nat) (src aux det : Nat) : (s.event ty p src aux det).2.updating = s.updating := by
  obtain ⟨e, h⟩ := s.event_frame ty p src aux det; rw [h]
@[simp] theorem State.post_updating (s : State) (ty : Nat) (p : Option Nat) (src aux det : Nat) : (s.post ty p src aux det).updating = s.updating := by
  obtain ⟨e, h⟩ := s.post_frame ty p src aux det; rw [h]
@[simp] theorem State.event_spine (s : State) (ty : Nat) (p : Option Nat) (src aux det : Nat) : (s.event ty p src aux det).2.spine = s.spine := by
  obtain ⟨e, h⟩ := s.event_frame ty p src aux det; rw [h]
@[simp] theorem State.post_spine (s : State) (ty : Nat) (p : Option Nat) (src aux det : Nat) : (s.post ty p src aux det).spine = s.spine := by
  obtain ⟨e, h⟩ := s.post_frame ty p src aux det; rw [h]
@[simp] theorem State.event_data (s : State) (ty : Nat) (p : Option Nat) (src aux det : Nat) : (s.event ty p src aux det).2.data = s.data := by
  obtain ⟨e, h⟩ := s.event_frame ty p src aux det; rw [h]
@[simp] theorem State.post_data (s : State) (ty : Nat) (p : Option Nat) (src aux det : Nat) : (s.post ty p src aux det).data = s.data := by
  obtain ⟨e, h⟩ := s.post_frame ty p src aux det; rw [h]

/-! ### Accessors after an update -/

@[simp] theorem State.part_setPart (s : State) (p : Nat) (x : Part) : (s.setPart p x).part p = x := tget_tset_same _ _ _ _
theorem State.part_setPart_ne (s : State) {p q : Nat} (x : Part) (h : q ≠ p) : (s.setPart p x).part q = s.part q := tget_tset_ne _ _ _ h
@[simp] theorem State.part_modPart (s : State) (p : Nat) (f : Part → Part) : (s.modPart p f).part p = f (s.part p) := tget_tset_same _ _ _ _
theorem State.part_modPart_ne (s : State) {p q : Nat} (f : Part → Part) (h : q ≠ p) : (s.modPart p f).part q = s.part q := tget_tset_ne _ _ _ h
@[simp] theorem State.dom_setDom (s : State) (d : Nat) (x : Dom) : (s.setDom d x).dom d = x := tget_tset_same _ _ _ _
theorem State.dom_setDom_ne (s : State) {d e : Nat} (x : Dom) (h : e ≠ d) : (s.setDom d x).dom e = s.dom e := tget_tset_ne _ _ _ h
@[simp] theorem State.port_setPort (s : State) (q : Nat) (x : Port) : (s.setPort q x).port q = x := tget_tset_same _ _ _ _
theorem State.port_setPort_ne (s : State) {q r : Nat} (x : Port) (h : r ≠ q) : (s.setPort q x).port r = s.port r := tget_tset_ne _ _ _ h
@[simp] theorem State.port_modPort (s : State) (q : Nat) (f : Port → Port) : (s.modPort q f).port q = f (s.port q) := tget_tset_same _ _ _ _
theorem State.port_modPort_ne (s : State) {q r : Nat} (f : Port → Port) (h : r ≠ q) : (s.modPort q f).port r = s.port r := tget_tset_ne _ _ _ h
@[simp] theorem State.srec_setRec (s : State) (e : Nat) (x : StreamRec) : (s.setRec e x).srec e = x := tget_tset_same _ _ _ _
theorem State.srec_setRec_ne (s : State) {d e : Nat} (x : StreamRec) (h : d ≠ e) : (s.setRec e x).srec d = s.srec d := tget_tset_ne _ _ _ h
@[simp] theorem State.entryAddr_setPte (s : State) (k : Nat) (v : BitVec 64) (j : Nat) : (s.setPte k v).entryAddr j = s.entryAddr j := rfl
@[simp] theorem State.pteRaw_setPte (s : State) (k : Nat) (v : BitVec 64) : (s.setPte k v).pteRaw k = v := tget_tset_same _ _ _ _
theorem State.pteRaw_setPte_ne (s : State) {j k : Nat} (v : BitVec 64) (h : s.entryAddr j ≠ s.entryAddr k) : (s.setPte k v).pteRaw j = s.pteRaw j :=
  tget_tset_other _ _ _ _ h

@[simp] theorem State.part_setDom (s : State) (d : Nat) (x : Dom) (q : Nat) : (s.setDom d x).part q = s.part q := rfl
@[simp] theorem State.part_setPort (s : State) (q : Nat) (x : Port) (q : Nat) : (s.setPort q x).part q = s.part q := rfl
@[simp] theorem State.part_modPort (s : State) (q : Nat) (f : Port → Port) (q : Nat) : (s.modPort q f).part q = s.part q := rfl
@[simp] theorem State.part_setRec (s : State) (e : Nat) (x : StreamRec) (q : Nat) : (s.setRec e x).part q = s.part q := rfl
@[simp] theorem State.part_setPte (s : State) (k : Nat) (v : BitVec 64) (q : Nat) : (s.setPte k v).part q = s.part q := rfl
@[simp] theorem State.part_draw (s : State) (q : Nat) : (s.draw.2).part q = s.part q := rfl
@[simp] theorem State.part_stamp (s : State) (q : Nat) : (s.stamp.2).part q = s.part q := rfl
@[simp] theorem State.part_write (s : State) (sp : Space) (a : Nat) (r : Run) (q : Nat) : (s.write sp a r).part q = s.part q := rfl
@[simp] theorem State.part_hostWrite (s : State) (a : Nat) (bs : List Byte) (q : Nat) : (s.hostWrite a bs).part q = s.part q := rfl
@[simp] theorem State.part_hostSend (s : State) (a : Nat) (r : Run) (q : Nat) : (s.hostSend a r).part q = s.part q := rfl
@[simp] theorem State.part_hostStores (s : State) (l : List HostStore) (q : Nat) : (s.hostStores l).part q = s.part q := rfl
@[simp] theorem State.part_advertise (s : State) (q : Nat) : (s.advertise).part q = s.part q := rfl
@[simp] theorem State.part_complete (s : State) (ring tag stamp part status reason value detail : Nat) (q : Nat) : (s.complete ring tag stamp part status reason value detail).part q = s.part q := rfl
@[simp] theorem State.part_begun (s : State) (c : Cmd) (q : Nat) : (s.begun c).part q = s.part q := rfl
@[simp] theorem State.part_ok (s : State) (c : Cmd) (v : Nat) (q : Nat) : (s.ok c v).part q = s.part q := rfl
@[simp] theorem State.part_post (s : State) (ty : Nat) (p : Option Nat) (src aux det : Nat) (q : Nat) : (s.post ty p src aux det).part q = s.part q := by
  simp [State.part]

/-! ### The three ways of a host command -/

/-- A command at the front that passes the checks of R415 runs its effect on the state it has left the queue of. -/
theorem State.runCmd_ok {s : State} {ops : Nat → Bool} {c : Cmd} (f : Cmd → State → State) (h : s.front ops = some c) (hc : s.cmdCode c = 0) :
    s.runCmd ops f = f c (s.begun c) := by simp [State.runCmd, h, hc]
/-- One that fails them is refused whatever its effect. -/
theorem State.runCmd_deny {s : State} {ops : Nat → Bool} {c : Cmd} (f : Cmd → State → State) (h : s.front ops = some c) (hc : s.cmdCode c ≠ 0) :
    s.runCmd ops f = (s.begun c).deny c (s.cmdCode c) := by simp [State.runCmd, h, hc]
/-- Any other row leaves the state as it is. -/
theorem State.runCmd_none {s : State} {ops : Nat → Bool} (f : Cmd → State → State) (h : s.front ops = none) : s.runCmd ops f = s := by
  simp [State.runCmd, h]
/-- The command that begins next carries the opcode asked for. -/
theorem State.front_op {s : State} {ops : Nat → Bool} {c : Cmd} (h : s.front ops = some c) : ops c.op = true := by
  unfold State.front at h
  split at h
  · cases h
  · split at h
    · split at h
      · next hc => cases h; simp only [Bool.and_eq_true] at hc; exact hc.1
      · cases h
    · cases h
theorem State.answer_ok (s : State) (c : Cmd) (after : State) : s.answer c 0 after = after.ok c 0 := by simp [State.answer]
theorem State.answer_deny {s : State} {c : Cmd} {r : Nat} (after : State) (h : r ≠ 0) : s.answer c r after = s.deny c r := by simp [State.answer, h]

end Sys2Proof.Machine
end

