-- ==== Sys2Proof/Laws/Ops.lean ====
section
/-! SUPPORT. One lemma for each shared operation: everything it can do. Callers cite these and need not unfold the operation. -/
namespace Sys2Proof.Machine

open Sys2Proof

/-! ## Memory -/

theorem Run.plain_sound (bs : List Byte) : Run.plain (Run.sound bs) = bs := by simp [Run.plain, Run.sound, Function.comp_def]
@[simp] theorem Run.length_sound (bs : List Byte) : (Run.sound bs).length = bs.length := by simp [Run.sound]

/-- Marks of poison outside the words that a write touches stay. -/
theorem poisonMarks_out (g : Nat) (base : Nat → Nat) (q : Tab Nat) (a : Nat) (r : Run) (w : Nat)
    (h : w < a / g ∨ (a + r.length + g - 1) / g ≤ w) : tget 0 (poisonMarks g base q a r) w = tget 0 q w := by
  unfold poisonMarks
  dsimp only
  have H : ∀ k ∈ upTo ((a + r.length + g - 1) / g - a / g), a / g + k ≠ w := by
    intro k hk
    have : k < (a + r.length + g - 1) / g - a / g := by simpa [upTo] using hk
    omega
  generalize upTo ((a + r.length + g - 1) / g - a / g) = l at H
  induction l generalizing q with
  | nil => rfl
  | cons k l ih =>
    rw [List.foldl_cons, ih _ (fun k' h' => H k' (List.mem_cons_of_mem _ h'))]
    have hkw := Ne.symm (H k List.mem_cons_self)
    split
    · rw [tget_tset_ne _ _ _ hkw]
    · split
      · rw [tget_tset_ne _ _ _ hkw]
      · rfl

/-- The marks of poison keep their canonical form. -/
theorem Tab.wf_poisonMarks (g : Nat) (base : Nat → Nat) {q : Tab Nat} (h : Tab.wf 0 q = true) (a : Nat) (r : Run) :
    Tab.wf 0 (poisonMarks g base q a r) = true := by
  unfold poisonMarks
  dsimp only
  generalize upTo ((a + r.length + g - 1) / g - a / g) = l
  induction l generalizing q with
  | nil => exact h
  | cons k l ih =>
    rw [List.foldl_cons]; apply ih
    split
    · exact Tab.wf_tset h _ _
    · split
      · exact Tab.wf_tset h _ _
      · exact h

theorem Data.bytes_write (d : Data) (sp : Space) (a : Nat) (r : Run) :
    (d.write sp a r).bytes sp = writeBytes (d.bytes sp) a (d.relative sp a r.plain) := by
  cases sp <;> rfl
theorem Data.poison_write (d : Data) (sp : Space) (a : Nat) (r : Run) :
    (d.write sp a r).poison sp = poisonMarks sp.grain (d.markBase sp) (d.poison sp) a r := by cases sp <;> rfl
theorem Data.write_other (d : Data) {sp sp' : Space} (a : Nat) (r : Run) (h : sp' ≠ sp) :
    (d.write sp a r).bytes sp' = d.bytes sp' ∧ (d.write sp a r).poison sp' = d.poison sp' := by
  cases sp <;> cases sp' <;> first | exact absurd rfl h | exact ⟨rfl, rfl⟩
/-- A store does not change what bytes and marks are stored relative to. -/
@[simp] theorem Data.base_write (d : Data) (sp sp' : Space) (a : Nat) (r : Run) (x : Nat) : (d.write sp a r).base sp' x = d.base sp' x := by
  cases sp <;> rfl
@[simp] theorem Data.markBase_write (d : Data) (sp sp' : Space) (a : Nat) (r : Run) (k : Nat) :
    (d.write sp a r).markBase sp' k = d.markBase sp' k := by cases sp <;> rfl
@[simp] theorem Data.length_relative (d : Data) (sp : Space) (a : Nat) (bs : List Byte) : (d.relative sp a bs).length = bs.length := by
  induction bs generalizing a with
  | nil => rfl
  | cons b bs ih => simp [Data.relative, ih]
theorem Data.getD_relative (d : Data) (sp : Space) (a : Nat) (bs : List Byte) {k : Nat} (h : k < bs.length) :
    (d.relative sp a bs).getD k 0 = bs.getD k 0 ^^^ d.base sp (a + k) := by
  induction bs generalizing a k with
  | nil => simp at h
  | cons b bs ih => cases k with
    | zero => rfl
    | succ k =>
      have h' : k < bs.length := by simpa using h
      simp only [Data.relative, List.getD_cons_succ]; rw [ih _ h']; congr 2; omega
/-- What a byte of a memory reads after a write to it: the byte written inside the range, outside it what it read before. -/
theorem Data.byte_write (d : Data) (sp : Space) (a : Nat) (r : Run) (x : Nat) :
    (d.write sp a r).byte sp x = if a ≤ x ∧ x < a + r.length then r.plain.getD (x - a) 0 else d.byte sp x := by
  unfold Data.byte
  rw [Data.base_write, Data.bytes_write, tget_writeBytes, Data.length_relative]
  have hl : r.plain.length = r.length := by simp [Run.plain]
  rw [hl]
  split
  · next h =>
    rw [Data.getD_relative _ _ _ _ (by omega), BitVec.xor_assoc]
    have : a + (x - a) = x := by omega
    rw [this]; simp
  · rfl
theorem Data.byte_write_other (d : Data) {sp sp' : Space} (a : Nat) (r : Run) (x : Nat) (h : sp' ≠ sp) :
    (d.write sp a r).byte sp' x = d.byte sp' x := by
  unfold Data.byte; rw [Data.base_write, (d.write_other a r h).1]
/-- The mark of a word or block that a write does not touch stays. -/
theorem Data.mark_write_out (d : Data) (sp : Space) (a : Nat) (r : Run) (w : Nat)
    (h : w < a / sp.grain ∨ (a + r.length + sp.grain - 1) / sp.grain ≤ w) : (d.write sp a r).mark sp w = d.mark sp w := by
  unfold Data.mark; rw [Data.markBase_write, Data.poison_write, poisonMarks_out _ _ _ _ _ _ h]
theorem Data.mark_write_other (d : Data) {sp sp' : Space} (a : Nat) (r : Run) (w : Nat) (h : sp' ≠ sp) :
    (d.write sp a r).mark sp' w = d.mark sp' w := by
  unfold Data.mark; rw [Data.markBase_write, (d.write_other a r h).2]
@[simp] theorem Data.host_write (d : Data) (sp : Space) (a : Nat) (r : Run) : (d.write sp a r).host = d.host := by cases sp <;> rfl
@[simp] theorem Data.hostP_write (d : Data) (sp : Space) (a : Nat) (r : Run) : (d.write sp a r).hostP = d.hostP := by cases sp <;> rfl
@[simp] theorem Data.galley_write (d : Data) (sp : Space) (a : Nat) (r : Run) : (d.write sp a r).galley = d.galley := by cases sp <;> rfl
@[simp] theorem Data.galleyN_write (d : Data) (sp : Space) (a : Nat) (r : Run) : (d.write sp a r).galleyN = d.galleyN := by cases sp <;> rfl
@[simp] theorem Data.galleyP_write (d : Data) (sp : Space) (a : Nat) (r : Run) : (d.write sp a r).galleyP = d.galleyP := by cases sp <;> rfl
@[simp] theorem Data.storeTag_write (d : Data) (sp : Space) (a : Nat) (r : Run) : (d.write sp a r).storeTag = d.storeTag := by cases sp <;> rfl

/-- A direct access of the host reaches its block while D03 is not Off, and is lost while it is (R497). -/
theorem State.direct_on {s : State} (f : State → State) (h : (s.dom 3).st ≠ .off) : s.direct f = .next (f s) := by simp [State.direct, h]
theorem State.direct_off {s : State} (f : State → State) (h : (s.dom 3).st = .off) : s.direct f = .next s := by simp [State.direct, h]

/-! ## Events and completions -/

/-- An event without an earlier loss pending: stamped, then masked, lost or kept. -/
theorem State.event_eq (s : State) (ty : Nat) (p : Option Nat) (src aux det : Nat) (h : s.es.lostSince = 0) :
    s.event ty p src aux det = if s.masked ty then (s.es.seq.toNat, s.stamp.2) else
      if s.es.buffer.length ≥ esRoom then
        (s.es.seq.toNat, { s with es := { s.es with seq := s.es.seq + 1, lost := satInc32 s.es.lost, firstLost := if s.es.lostSince = 0 then s.es.seq.toNat else s.es.firstLost, lostSince := s.es.lostSince + 1 } })
      else (s.es.seq.toNat, { s with es := { s.es with seq := s.es.seq + 1, buffer := s.es.buffer ++
        [{ seq := s.es.seq.toNat, type := ty, part := p, time := s.es.time.toNat, source := src, aux := aux, detail := det }] } }) := by
  have e : s.enterLost = s := by simp [State.enterLost, h]
  unfold State.event; rw [e]; rfl

/-- A change of part state changes the part state, and what the event sequencer and the advert show of it. -/
theorem State.setPState_frame (s : State) (st : PState) (r d : Nat) :
    ∃ h e, s.setPState st r d = { s with rst := { s.rst with state := st }, hif := h, es := e } ∧ h.queue = s.hif.queue ∧
      h.compl = s.hif.compl ∧ h.history = s.hif.history := by
  unfold State.setPState; dsimp only
  split
  · obtain ⟨e, he⟩ := State.post_frame { s with rst := { s.rst with state := st } } 0x504 none ccAgent r (st.code + s.rst.state.code * 16 + d * 256)
    rw [he]; exact ⟨_, _, rfl, rfl, rfl, rfl⟩
  · exact ⟨_, _, rfl, rfl, rfl, rfl⟩

/-! ## Freeze causes and breaches -/

theorem Part.addCause_mem (x : Part) (c : Cause) (cyc : Nat) : c ∈ (x.addCause c cyc).causes := by
  have h : c ∈ (if x.causes.contains c = true then x.causes else x.causes ++ [c]) := by
    split
    · next h => simpa using h
    · simp
  unfold Part.addCause Part.addCauseAt
  dsimp only
  split <;> exact h

/-- A cause changes only the causes and the freeze of its partition. -/
theorem Part.addCauseAt_frame (x : Part) (c : Cause) (b : Nat) : ∃ cs f, x.addCauseAt c b = { x with causes := cs, frz := f } := by
  unfold Part.addCauseAt; dsimp only; split <;> exact ⟨_, _, rfl⟩
theorem Part.addCause_frame (x : Part) (c : Cause) (cyc : Nat) : ∃ cs f, x.addCause c cyc = { x with causes := cs, frz := f } :=
  x.addCauseAt_frame c _
/-- The first cause of a running partition sets the freeze boundary (R82). -/
theorem Part.addCause_frz (x : Part) (c : Cause) (cyc : Nat) (h : x.status = .running) (hf : x.frz = .no) :
    (x.addCause c cyc).frz = .pending (freezeBoundaryOf cyc) := by simp [Part.addCause, Part.addCauseAt, h, hf]
/-- A further one brings it forward, never back (R82). -/
theorem Part.addCause_earlier (x : Part) (c : Cause) (cyc b : Nat) (h : x.status = .running) (hf : x.frz = .pending b) :
    (x.addCause c cyc).frz = .pending (min b (freezeBoundaryOf cyc)) := by simp [Part.addCause, Part.addCauseAt, h, hf]
/-- One that arises in a partition that is no longer running leaves its freeze as it is. -/
theorem Part.addCause_stopped (x : Part) (c : Cause) (cyc : Nat) (h : x.status ≠ .running) : (x.addCause c cyc).frz = x.frz := by
  unfold Part.addCause Part.addCauseAt
  cases hs : x.status <;> simp_all

/-- A breach changes the breach store, the event sequencer and its own partition's causes and freeze, nothing else. -/
theorem State.breach_frame (s : State) (p cyc : Nat) (b : BreachInfo) :
    ∃ cc es, s.breach p cyc b = { s with cc := cc, es := es, parts := tset Part.init s.parts p ((s.part p).addCause .breach cyc) } := by
  obtain ⟨e, he⟩ := s.event_frame 1 (some p) b.agentA 0 b.cls
  unfold State.breach
  rcases hq : s.event 1 (some p) b.agentA 0 b.cls with ⟨q, t⟩
  have ht : t = { s with es := e } := by rw [hq] at he; exact he
  subst ht
  exact ⟨_, _, rfl⟩

theorem State.part_breach (s : State) (p cyc : Nat) (b : BreachInfo) : (s.breach p cyc b).part p = (s.part p).addCause .breach cyc := by
  obtain ⟨cc, es, h⟩ := s.breach_frame p cyc b
  rw [h]; exact tget_tset_same _ _ _ _
theorem State.part_breach_ne (s : State) {p q : Nat} (cyc : Nat) (b : BreachInfo) (h : q ≠ p) : (s.breach p cyc b).part q = s.part q := by
  obtain ⟨cc, es, h'⟩ := s.breach_frame p cyc b
  rw [h']; exact tget_tset_ne _ _ _ h

/-! ## Time -/

/-- A partition that time, a trapped NaN or a weir's refusal has changed: its run time, its watchdog, its causes and its freeze, and the
NaNs that it still has to meet. -/
def Part.Drifts (x y : Part) : Prop := ∃ e w cs f ns, y = { x with elapsed := e, wdRun := w, causes := cs, frz := f, nans := ns }

theorem Part.Drifts.refl (x : Part) : x.Drifts x := ⟨_, _, _, _, _, rfl⟩
theorem Part.Drifts.trans {x y z : Part} (h : x.Drifts y) (h' : y.Drifts z) : x.Drifts z := by
  obtain ⟨_, _, _, _, _, rfl⟩ := h
  obtain ⟨_, _, _, _, _, rfl⟩ := h'
  exact ⟨_, _, _, _, _, rfl⟩
theorem Part.drifts_addCauseAt (x : Part) (c : Cause) (b : Nat) : x.Drifts (x.addCauseAt c b) := by
  obtain ⟨_, _, h⟩ := x.addCauseAt_frame c b
  rw [h]; exact ⟨_, _, _, _, _, rfl⟩
theorem Part.drifts_pass (x : Part) (dt : Nat) : x.Drifts (x.pass dt) := ⟨_, _, _, _, _, rfl⟩

/-- What the passing of time may change: the clock, the timestamp, the event sequencer, the queues of the weirs, the trap records, the
breach store, the FIFOs of the spine and, of each partition, what `Part.Drifts` names. -/
def State.Drifts (s t : State) : Prop :=
  (∃ c a e q h ws tr cc l d g ps, t =
    { s with clk := c, timeAcc := a, es := e, mem := { s.mem with queue := q, held := h, waits := ws }, num := { s.num with traps := tr }, cc := cc,
             spine := { s.spine with links := l, delivered := d, direct := g }, parts := ps }) ∧
  ∀ q, (s.part q).Drifts (t.part q)

theorem State.Drifts.refl (s : State) : s.Drifts s := ⟨⟨_, _, _, _, _, _, _, _, _, _, _, _, rfl⟩, fun _ => .refl _⟩
theorem State.Drifts.trans {s t u : State} (h : s.Drifts t) (h' : t.Drifts u) : s.Drifts u := by
  refine ⟨?_, fun q => (h.2 q).trans (h'.2 q)⟩
  obtain ⟨_, _, _, _, _, _, _, _, _, _, _, _, rfl⟩ := h.1
  obtain ⟨_, _, _, _, _, _, _, _, _, _, _, _, rfl⟩ := h'.1
  exact ⟨_, _, _, _, _, _, _, _, _, _, _, _, rfl⟩
theorem State.Drifts.foldl {α : Type} (f : State → α → State) (h : ∀ (s : State) (x : α), s.Drifts (f s x)) (l : List α) (s : State) : s.Drifts (l.foldl f s) := by
  induction l generalizing s with
  | nil => exact .refl _
  | cons x l ih => exact (h s x).trans (ih _)
/-- A change of one partition that drifts. -/
theorem State.drifts_modPart (s : State) (p : Nat) (f : Part → Part) (h : (s.part p).Drifts (f (s.part p))) : s.Drifts (s.modPart p f) := by
  refine ⟨⟨_, _, _, _, _, _, _, _, _, _, _, _, rfl⟩, fun q => ?_⟩
  by_cases hq : q = p
  · subst hq; rw [State.part_modPart]; exact h
  · rw [State.part_modPart_ne _ _ hq]; exact .refl _
theorem State.drifts_freeze (s : State) (p : Nat) (c : Cause) (cyc : Nat) : s.Drifts (s.freeze p c cyc) :=
  s.drifts_modPart p _ ((s.part p).drifts_addCauseAt c _)
theorem State.drifts_post (s : State) (ty : Nat) (p : Option Nat) (src aux det : Nat) : s.Drifts (s.post ty p src aux det) := by
  refine ⟨?_, fun q => ?_⟩
  · obtain ⟨e, h⟩ := s.post_frame ty p src aux det
    rw [h]; exact ⟨_, _, _, _, _, _, _, _, _, _, _, _, rfl⟩
  · rw [State.part_post]; exact .refl _
theorem State.drifts_breach (s : State) (p cyc : Nat) (b : BreachInfo) : s.Drifts (s.breach p cyc b) := by
  refine ⟨?_, fun q => ?_⟩
  · obtain ⟨cc, es, h⟩ := s.breach_frame p cyc b
    rw [h]; exact ⟨_, _, _, _, _, _, _, _, _, _, _, _, rfl⟩
  · by_cases hq : q = p
    · subst hq; rw [State.part_breach]; exact (s.part q).drifts_addCauseAt _ _
    · rw [State.part_breach_ne _ _ _ hq]; exact .refl _
theorem State.drifts_weirOverrun (s : State) (v : Overrun) : s.Drifts (s.weirOverrun v) := by
  unfold State.weirOverrun; dsimp only; split
  · exact s.drifts_breach _ _ _
  · exact .refl _
theorem State.drifts_queues (s : State) (k : Nat) (q h : List WeirReq) : s.Drifts ((s.putQueue k q).putHeld k h) :=
  ⟨⟨_, _, _, _, _, _, _, _, _, _, _, _, rfl⟩, fun _ => .refl _⟩
theorem State.drifts_offerHeld (s : State) (t key : Nat) : s.Drifts (s.offerHeld t key).1 := s.drifts_queues _ _ _
/-- An offer at a weir. -/
theorem State.drifts_offerAt (s : State) (t key : Nat) (rs : List WeirReq) : s.Drifts (s.offerAt t key rs).1 :=
  State.Drifts.trans ⟨⟨_, _, _, _, _, _, _, _, _, _, _, _, rfl⟩, fun _ => .refl _⟩ (State.drifts_offerHeld _ t key)
/-- The records of what the weirs refuse. -/
theorem State.drifts_overruns (a : State × List Overrun) : a.1.Drifts (State.overruns a) := .foldl _ State.drifts_weirOverrun _ _
theorem State.drifts_offer (s : State) (key : Nat) (rs : List WeirReq) : s.Drifts (s.offer key rs) :=
  (s.drifts_offerAt _ key rs).trans (State.drifts_overruns _)
/-- The requests of a transfer's side, in byte order. -/
theorem State.drifts_putWaits (s : State) (k : Nat) (l : List (Nat × WeirReq)) : s.Drifts (s.putWaits k l) :=
  ⟨⟨_, _, _, _, _, _, _, _, _, _, _, _, rfl⟩, fun _ => .refl _⟩
theorem State.drifts_offerSide (t k : Nat) (l : List (Nat × WeirReq)) : ∀ a : State × List Overrun, a.1.Drifts (State.offerSide t k l a).1 := by
  induction l with
  | nil => exact fun a => a.1.drifts_putWaits k []
  | cons r l ih =>
    intro a
    unfold State.offerSide
    split
    · exact a.1.drifts_putWaits _ _
    · exact (a.1.drifts_offerAt t _ _).trans (ih _)
theorem State.drifts_offerNow (s : State) (k : Nat) (rs : List (Nat × WeirReq)) : s.Drifts (s.offerNow k rs) :=
  (State.drifts_offerSide s.clk k _ (s, [])).trans (State.drifts_overruns _)
/-- The requests of a stream's side, of a sender that is no stream, and of a COPY or EXPORT. -/
theorem State.drifts_askUnits (s : State) (w : Who) (qmax : Nat) (write : Bool) (us : List Nat) : s.Drifts (s.askUnits w qmax write us) := s.drifts_offerNow _ _
theorem State.drifts_askWeirs (s : State) (w : Who) (id : Nat) (write : Bool) (l : List (Nat × Nat)) : s.Drifts (s.askWeirs w id write l) := s.drifts_offerNow _ _
theorem State.drifts_askTransfer (s : State) (c : Cmd) (reads writes : List (Nat × Nat)) : s.Drifts (s.askTransfer c reads writes) :=
  (s.drifts_askWeirs _ _ _ _).trans (State.drifts_askWeirs _ _ _ _ _)
/-- A fold over states that carry a list drifts. -/
theorem State.Drifts.foldl_fst {α β : Type} (f : State × β → α → State × β) (h : ∀ (a : State × β) (x : α), a.1.Drifts (f a x).1) (l : List α)
    (a : State × β) : a.1.Drifts (l.foldl f a).1 := by
  induction l generalizing a with
  | nil => exact .refl _
  | cons x l ih => exact (h a x).trans (ih _)
theorem State.drifts_offerSides (t : Nat) (a : State × List Overrun) : a.1.Drifts (State.offerSides t a).1 :=
  .foldl_fst _ (fun a k => State.drifts_offerSide t k _ a) _ _
theorem State.drifts_drainQueue (s : State) (a b key : Nat) : s.Drifts (s.drainQueue a b key).1 := s.drifts_queues _ _ _
theorem State.drifts_drainQueues (a b : Nat) (x : State × List Overrun) : x.1.Drifts (State.drainQueues a b x).1 := by
  unfold State.drainQueues
  exact .foldl_fst (fun x k => ((x.1.drainQueue a b k).1, x.2 ++ (x.1.drainQueue a b k).2)) (fun x k => x.1.drifts_drainQueue a b k) _ _
theorem State.drifts_drainGo (b fuel : Nat) : ∀ (a : Nat) (x : State × List Overrun), x.1.Drifts (State.drainGo b fuel a x).1 := by
  induction fuel with
  | zero => exact fun a x => State.drifts_drainQueues a b x
  | succ n ih =>
    intro a x
    unfold State.drainGo
    split
    · split
      · exact ((State.drifts_drainQueues a _ x).trans (State.drifts_offerSides _ _)).trans (ih _ _)
      · exact State.drifts_drainQueues a b x
    · exact State.drifts_drainQueues a b x
theorem State.drifts_drainWeirs (s : State) (a b : Nat) : s.Drifts (s.drainWeirs a b).1 := State.drifts_drainGo b _ a (s, [])
theorem State.drifts_deliver (s : State) (a b key : Nat) : s.Drifts (s.deliver a b key) := by
  unfold State.deliver; dsimp only
  split
  · exact .refl _
  · split
    · exact .refl _
    · exact ⟨⟨_, _, _, _, _, _, _, _, _, _, _, _, rfl⟩, fun _ => .refl _⟩
theorem State.drifts_drainDirect (s : State) (a b key : Nat) : s.Drifts (s.drainDirect a b key) := by
  unfold State.drainDirect
  split
  · exact .refl _
  · exact ⟨⟨_, _, _, _, _, _, _, _, _, _, _, _, rfl⟩, fun _ => .refl _⟩
theorem State.drifts_deliverAll (s : State) (a b : Nat) : s.Drifts (s.deliverAll a b) :=
  State.Drifts.trans (.foldl _ (fun s k => s.drifts_deliver a b k) _ _) (.foldl _ (fun s k => s.drifts_drainDirect a b k) _ _)
@[simp] theorem State.link_setLink (s : State) (key : Nat) (l : List Hop) : (s.setLink key l).link key = l := tget_tset_same _ _ _ _
theorem State.link_setLink_ne (s : State) {j key : Nat} (l : List Hop) (h : j ≠ key) : (s.setLink key l).link j = s.link j := tget_tset_ne _ _ _ h
@[simp] theorem State.setLink_parts (s : State) (key : Nat) (l : List Hop) : (s.setLink key l).parts = s.parts := rfl
theorem State.passTime_frame (s : State) (dt : Nat) :
    ∃ a t, s.passTime dt = { s with timeAcc := a, es := { s.es with time := t } } := by
  unfold State.passTime
  generalize timeUnit = u, s.timeRate = r
  split <;> exact ⟨_, _, rfl⟩
theorem State.drifts_passTime (s : State) (dt : Nat) : s.Drifts (s.passTime dt) := by
  obtain ⟨a, t, h⟩ := s.passTime_frame dt
  generalize s.passTime dt = u at h
  subst h; exact ⟨⟨_, _, _, _, _, _, _, _, _, _, _, _, rfl⟩, fun _ => .refl _⟩
theorem State.drifts_clk (s : State) (c : Nat) : s.Drifts { s with clk := c } :=
  ⟨⟨_, _, _, _, _, _, _, _, _, _, _, _, rfl⟩, fun _ => .refl _⟩
theorem State.drifts_traps (s : State) (tr : Tab Trap) : s.Drifts { s with num := { s.num with traps := tr } } :=
  ⟨⟨_, _, _, _, _, _, _, _, _, _, _, _, rfl⟩, fun _ => .refl _⟩
theorem State.drifts_trapOne (s : State) (p : Nat) (d : NanDue) : s.Drifts (s.trapOne p d) := by
  unfold State.trapOne
  dsimp only
  split
  · exact s.drifts_traps _
  · generalize tset Trap.zero s.num.traps d.core _ = tr
    split
    · exact (s.drifts_traps tr).trans (State.drifts_post _ _ _ _ _ _)
    · exact ((s.drifts_traps tr).trans (State.drifts_post _ _ _ _ _ _)).trans (State.drifts_freeze _ _ _ _)
/-- What is due is stamped in its order, and the timestamp runs between. -/
theorem State.drifts_meet (s : State) (d : Due) : s.Drifts (s.meet d) := by
  cases d with
  | weir v => exact s.drifts_weirOverrun v
  | nan p n =>
    have h := s.drifts_trapOne p n
    unfold State.meet; dsimp only
    generalize s.trapOne p n = t at h
    exact h.trans (t.drifts_modPart p (fun x => { x with nans := x.nans.erase n }) ⟨_, _, _, _, _, rfl⟩)
theorem State.drifts_meetAll (b : Nat) (l : List Due) : ∀ (now : Nat) (s : State), s.Drifts (State.meetAll b now l s) := by
  induction l with
  | nil => exact fun now s => s.drifts_passTime _
  | cons d l ih => exact fun now s => ((s.drifts_passTime _).trans (State.drifts_meet _ d)).trans (ih _ _)

/-- All that the passing of time does. -/
theorem State.drifts_pass (s : State) (dt : Nat) : s.Drifts (s.pass dt) := by
  unfold State.pass
  split
  · exact .refl _
  · have h1 := (s.drifts_drainWeirs s.clk (s.clk + dt)).trans (State.drifts_deliverAll _ s.clk (s.clk + dt))
    dsimp only
    generalize (s.drainWeirs s.clk (s.clk + dt)).1.deliverAll s.clk (s.clk + dt) = u at h1
    have h2 := State.drifts_meetAll (s.clk + dt) (u.dues (s.clk + dt) (s.drainWeirs s.clk (s.clk + dt)).2) u.clk u
    generalize State.meetAll _ _ _ u = v at h2
    have h3 : v.Drifts (partNums.foldl (fun s p => s.modPart p (·.pass dt)) v) :=
      .foldl _ (fun s p => s.drifts_modPart p _ ((s.part p).drifts_pass dt)) _ _
    generalize partNums.foldl (fun s p => s.modPart p (·.pass dt)) v = w at h3
    exact ((h1.trans h2).trans h3).trans (w.drifts_clk _)
theorem State.drifts_toClk (s : State) (t : Nat) : s.Drifts (s.toClk t) := s.drifts_pass _
theorem State.drifts_toNs (s : State) (t : Nat) : s.Drifts (s.toNs t) := s.drifts_pass _
theorem State.drifts_toTime (s : State) (t : Nat) : s.Drifts (s.toTime t) := by
  unfold State.toTime; split
  · exact s.drifts_pass _
  · exact .refl _
theorem State.drifts_toCycle (s : State) (p cyc : Nat) : s.Drifts (s.toCycle p cyc) := by
  unfold State.toCycle; dsimp only; split
  · exact s.drifts_pass _
  · exact .refl _
theorem State.drifts_expire (s : State) (p : Nat) : s.Drifts (s.expire p) := (s.drifts_post _ _ _ _ _).trans (State.drifts_freeze _ _ _ _)
theorem State.drifts_expireDue (s : State) (p : Nat) : s.Drifts (s.expireDue p) := by
  unfold State.expireDue; split
  · exact s.drifts_expire p
  · exact .refl _

/-- What drifting leaves alone, field by field. -/
theorem State.Drifts.frame {s t : State} (h : s.Drifts t) : t.pending = s.pending ∧ t.data = s.data ∧ t.layout = s.layout ∧ t.rst = s.rst ∧
    t.pwr = s.pwr ∧ t.mu = s.mu ∧ t.hif = s.hif ∧ t.lnk = s.lnk ∧ t.se = s.se ∧ t.sec = s.sec ∧ t.pins = s.pins ∧ t.accq = s.accq ∧
    t.serving = s.serving ∧ t.updating = s.updating ∧ t.mem.weir = s.mem.weir ∧ t.mem.pte = s.mem.pte ∧ t.mem.allocs = s.mem.allocs := by
  obtain ⟨_, _, _, _, _, _, _, _, _, _, _, _, rfl⟩ := h.1
  exact ⟨rfl, rfl, rfl, rfl, rfl, rfl, rfl, rfl, rfl, rfl, rfl, rfl, rfl, rfl, rfl, rfl, rfl⟩
/-- And of each partition everything but run time, watchdog, causes, freeze and the NaNs in flight. -/
theorem State.Drifts.part {s t : State} (h : s.Drifts t) (q : Nat) : (t.part q).status = (s.part q).status ∧
    (t.part q).image = (s.part q).image ∧ (t.part q).resident = (s.part q).resident ∧ (t.part q).seqs = (s.part q).seqs ∧
    (t.part q).toks = (s.part q).toks ∧ (t.part q).flights = (s.part q).flights ∧ (t.part q).cset = (s.part q).cset ∧
    (t.part q).policy = (s.part q).policy ∧ (t.part q).rvAt = (s.part q).rvAt := by
  obtain ⟨_, _, _, _, _, h⟩ := h.2 q
  rw [h]; exact ⟨rfl, rfl, rfl, rfl, rfl, rfl, rfl, rfl, rfl⟩

/-! ## The five ways of an action at its issue (R72) -/

section Issue
variable {s : State} {c : Ctx} {valid : Bool} {busy : Option (Nat × Nat)} {named : List Nat} {run : State → State}

theorem State.issueAction_late (h : s.tokCheck c = .late true) :
    s.issueAction c valid busy named run = (s.step1 c).recordLate c.p c.r.tokIn c.idx c.point := by simp [State.issueAction, h]
theorem State.issueAction_skip (h : s.tokCheck c = .late false) : s.issueAction c valid busy named run =
    (s.step1 c).modPart c.p (fun x => x.modSeqr c.agent (fun q => { q with late := q.late.erase c.r.tokIn })) := by simp [State.issueAction, h]
theorem State.issueAction_bad (h : s.tokCheck c = .fine) (hv : valid = false) :
    s.issueAction c valid busy named run = (s.step1 c).collide c 0 none := by simp [State.issueAction, h, hv]
theorem State.issueAction_busy {b : Nat × Nat} (h : s.tokCheck c = .fine) (hv : valid = true) (hb : busy = some b) :
    s.issueAction c valid busy named run = (s.step1 c).collide c 0 (some b) := by simp [State.issueAction, h, hv, hb]
theorem State.issueAction_unowned {res : Nat} {o : Option (Nat × Nat)} (h : s.tokCheck c = .fine) (hv : valid = true) (hb : busy = none)
    (ho : ownFail (s.part c.p) c 0 named = some (res, o)) :
    s.issueAction c valid busy named run = (s.step1 c).collide c res o := by simp [State.issueAction, h, hv, hb, ho]
theorem State.issueAction_ok (h : s.tokCheck c = .fine) (hv : valid = true) (hb : busy = none) (ho : ownFail (s.part c.p) c 0 named = none) :
    s.issueAction c valid busy named run = run ((s.step1 c).takeToken c) := by simp [State.issueAction, h, hv, hb, ho]

end Issue

theorem State.control_some {s : State} {op p a : Nat} {c : Ctx} (f : Ctx → State → State) (h : issueCtx s op p a = some c) :
    s.control op p a f = f c (s.toCycle p c.point) := by simp [State.control, h]
theorem State.control_none {s : State} {op p a : Nat} (f : Ctx → State → State) (h : issueCtx s op p a = none) : s.control op p a f = s := by
  simp [State.control, h]

/-! ## Commands that fetch a record of theirs from host memory -/

/-- In D3hot a command that passes the checks of R415 waits (R395). -/
theorem State.runFetch_waits {s : State} {op : Nat} {c : Cmd} (f : Cmd → State → State) (h : s.front (· == op) = some c) (hc : s.cmdCode c = 0)
    (hd : s.hif.d3 = true) : s.runFetch op f = s := by simp [State.runFetch, h, hc, hd]
theorem State.runFetch_ok {s : State} {op : Nat} {c : Cmd} (f : Cmd → State → State) (h : s.front (· == op) = some c) (hc : s.cmdCode c = 0)
    (hd : s.hif.d3 = false) : s.runFetch op f = f c (s.begun c) := by
  unfold State.runFetch; rw [hd]; simp only [Bool.false_and, Bool.false_eq_true, if_false]; exact State.runCmd_ok f h hc
theorem State.runFetch_deny {s : State} {op : Nat} {c : Cmd} (f : Cmd → State → State) (h : s.front (· == op) = some c) (hc : s.cmdCode c ≠ 0) :
    s.runFetch op f = (s.begun c).deny c (s.cmdCode c) := by
  have e : (s.front (· == op)).any (fun c => s.cmdCode c == 0) = false := by simp [h, hc]
  unfold State.runFetch; rw [e]; simp only [Bool.and_false, Bool.false_eq_true, if_false]; exact State.runCmd_deny f h hc

end Sys2Proof.Machine
end

