-- ==== Sys2Proof/WellFormed.lean ====
section
/-! DEFINITION. Which commands are well formed: every operand inside the range the spec gives it. A command outside its range still
has a meaning, since `exec` is total; no sender of the spec makes one. -/
namespace Sys2Proof

/-- The partitions are 0 to 7 (R95). -/
def partOk (p : Nat) : Bool := decide (p < 8)
/-- An agent identifier fills 32 bits: KIND in [31:28], the number in [15:0] (R57). -/
def agentOk (a : Nat) : Bool := decide (a < 2 ^ 32)
/-- The ports are 0 to 17 (R57). -/
def portOk (q : Nat) : Bool := decide (q < 18)
/-- A 16-bit field: a token, a record index, a part number. -/
def w16Ok (x : Nat) : Bool := decide (x < 2 ^ 16)
/-- A 32-bit field: a stamp, a step number. -/
def w32Ok (x : Nat) : Bool := decide (x < 2 ^ 32)
/-- A 64-bit field: a serial number, a digest. -/
def w64Ok (x : Nat) : Bool := decide (x < 2 ^ 64)
/-- A BAR0 offset: the window is 16 MiB (R398). -/
def offsetOk (x : Nat) : Bool := decide (x < 2 ^ 24)
/-- The widths of a register access (Table 13-7). -/
def widthOk (w : Nat) : Bool := decide (w = 4 ∨ w = 8)
/-- The stack and the channel of a lane fault (R57, Table 10-9). -/
def laneFaultOk (f : LaneFault) : Bool := decide (f.stack < 8) && decide (f.channel < 32)
/-- Near-memory engines are 0 to 255, and channel update units follow from 256 to 319 (R57). -/
def engineOk (e : Nat) : Bool := decide (e < 320)
/-- A stream engine is 3 × field + index (R57). -/
def streamOk (e : Nat) : Bool := decide (e < 48)
/-- A completion ring 0 to 63, or 64 for the event ring (R426). -/
def ringOk (r : Nat) : Bool := decide (r ≤ 64)
/-- A mask of a port's four lanes (R362). -/
def laneMaskOk (m : Nat) : Bool := decide (m < 16)
/-- The causes that send a port in service DOWN (R363). -/
def causeOk (c : Nat) : Bool := decide (1 ≤ c ∧ c ≤ 6)
/-- A frame has five codewords of 3,200 bytes in all (R365). -/
def frameOk (words : List Codeword) (content : List Byte) : Bool := words.length == 5 && content.length == 3200
/-- A router identifier (R38) and an output of the router. -/
def routerIdOk (r out : Nat) : Bool := decide (r < 256) && decide (r % 16 ≤ 9) && decide (out ≤ 11)
/-- A flit has a header of 16 bytes and a payload of 128 (R40), and names one of the three bridge channels of its row (R49). -/
def flitOk (f : Flit) : Bool := f.header.length == 16 && f.payload.length == 128 && decide (f.bridge < 3) && w32Ok f.source && decide (f.input ≤ 11)
/-- A weir identifier (Table 10-7) and an owner; owner 8 is transit traffic. -/
def weirIdOk (w o : Nat) : Bool := decide (w ≤ 0x142 ∨ w = 0x148 ∨ w = 0x149) && decide (o ≤ 8)
/-- The temperature sensors are 0 to 25 (R493). -/
def sensorOk (k : Nat) : Bool := decide (k < 26)
/-- The power domains are D00 to D35 (Table 16-1). -/
def domainOk (d : Nat) : Bool := decide (d < 36)
/-- The fields are 0 to 15. -/
def fieldTestOk (t : FieldTest) : Bool := decide (t.field < 16)
/-- The board channels are 0 to 63 (R299). -/
def boardOk (c : Nat) : Bool := decide (c < 64)
/-- What the training of the memories can find (R299, Table 10-3). -/
def memTrainingOk : MemTraining → Bool
  | .good density ranks faults => decide (1 ≤ density ∧ density ≤ 3) && decide (ranks ≤ 2) && faults.all laneFaultOk
  | .boardFailed c => boardOk c
  | .boardUnsupported => true
/-- Where an error can be met lies inside its memory, and a failed channel exists (R299, Table 17-1). -/
def memFaultOk : MemFault → Bool
  | .board c => boardOk c
  | .transfer c => decide (c < 256)
  | .error (.core c off) _ => decide (c < 1024) && decide (off < 2097152)
  | .error (.galley c g) _ => decide (c < 1024) && decide (g < 2)
  | .error (.sram e off) _ => decide (e < 256) && decide (off < 524288)
  | .error (.store die off) _ => decide (die < 2) && decide (off < 201326592)
  | .error (.staging q slot off) _ => portOk q && decide (slot < 16) && decide (off < 65536)
  | .error (.dev a) _ => decide (a < 2 ^ 57)
  | .error (.stream e word) _ => decide (e < 48) && decide (word < 65536)
  | .error (.receive q _ word) _ => portOk q && decide (word < 65536)
  | .error .control _ => true
  | .block (.spine die) | .block (.ioDie die) => decide (die < 2)
  | .block _ => true
/-- Host stores go to 64-bit addresses. -/
def storesOk (l : List HostStore) : Bool := l.all (fun c => w64Ok c.1)
/-- The nonce of a report request has 32 bytes (R536). -/
def nonceOk (n : List Byte) : Bool := n.length == 32
/-- An ML-KEM-1024 ciphertext has 1,568 bytes, and a key set is 0 or 1 (R537). -/
def cipherOk (k : Nat) (c : List Byte) : Bool := decide (k < 2) && c.length == 1568

/-- A key set is 0 or 1, and OP is one byte (R535). -/
def doeRequestOk : DoeRequest → Bool
  | .ideGo keyset => decide (keyset < 2)
  | .malformed op => decide (op < 256)

/-- Well-formed commands: one arm per constructor of `Instr`. -/
def Instr.wf : Instr → Bool
  | .nop | .abort | .serviceEnter | .serviceLeave | .regRead | .regWrite => true
  | .layout _ | .load _ => true
  | .unload | .enable | .switch | .resumeContinue | .resumeAbandon | .alloc | .release | .map | .unmap | .copy => true
  | .copyComplete st | .exportComplete st => w32Ok st
  | .exportCmd | .cacheSet | .cacheGive | .cacheJoin | .cacheLeave | .power => true
  | .powerComplete unlocked faults => unlocked.all domainOk && faults.all laneFaultOk
  | .switchServiceStart | .startBroadcast => true
  | .formeNop p a | .loop p a | .endloop p a | .rendezvous p a | .fill p a | .endfill p a | .stepMark p a | .endProg p a => partOk p && agentOk a
  | .mma p a | .drain p a | .combine p a => partOk p && agentOk a
  | .elem p a | .fma p a | .func1 p a | .convert p a | .rowred p a | .softmax p a | .softmaxRec p a | .softmaxBwd p a => partOk p && agentOk a
  | .rmsnorm p a | .layernorm p a | .rmsnormBwd p a | .layernormBwd p a | .colred p a | .join p a | .split p a => partOk p && agentOk a
  | .streamCopy p a | .park p a | .unpark p a => partOk p && agentOk a
  | .rclear p a | .sumsq p a | .update p a | .digest p a | .attend p a | .merge p a => partOk p && agentOk a
  | .send p a | .recv p a | .collective p a => partOk p && agentOk a
  | .actionComplete p a r | .linkActionComplete p a r => partOk p && agentOk a && w16Ok r
  | .deadlineReached p tok => partOk p && w16Ok tok
  | .slotLimit p | .freezeBoundary p | .partitionFrozen p | .thaw p | .rendezvousRelease p | .watchdogExpiry p => partOk p
  | .streamDueReached e => streamOk e
  | .fillItemStart p | .fillOverrun p | .runComplete p | .graceExpiry p => partOk p
  | .digestReceived p part step layer shard dg =>
    partOk p && w16Ok part && w32Ok step && w16Ok layer && w16Ok shard && w64Ok dg
  | .digestMissing p part => partOk p && w16Ok part
  | .spineFlit router out flit => routerIdOk router out && flitOk flit
  | .weirRequest w o _ agent action => weirIdOk w o && agentOk agent && w16Ok action
  | .accumulateWrite engine => engineOk engine
  | .frameTransmit port | .portEnable port | .portDisable port | .retrain port | .laneTrainTimeout port => portOk port
  | .frameReceive port words content => portOk port && frameOk words content
  | .timeSteer => true
  | .loopback port mode => portOk port && decide (mode < 3)
  | .laneTrainDone port mask | .widthExchange port mask => portOk port && laneMaskOk mask
  | .identExchange port serial peerPort peerPart => portOk port && w64Ok serial && portOk peerPort && w16Ok peerPart
  | .portFault port cause => portOk port && causeOk cause
  | .lnkCtrlWrite _ | .lnkSelfWrite _ | .lnkTorusWrite _ => true
  | .pollPass stores | .pollSleep stores => storesOk stores
  | .nudge | .hifEnable | .hifDisable | .hostLinkReset | .busMasterEnable | .d3hotEntry | .d0Return => true
  | .msixSend ring => ringOk ring
  | .hostLinkDegraded rate width => decide (rate < 8) && decide (width ≤ 16)
  | .bar2Access _ offset _ => decide (offset < 2 ^ 36)
  | .registerWrite offset width _ => offsetOk offset && widthOk width
  | .memStatusRead | .hifStatusRead | .pwrStatusRead | .secStatusRead | .esLostRead => true
  | .trapClear core => decide (core < 1024)
  | .numStepWrite offset _ => offsetOk offset
  | .memWeirWrite w o _ => weirIdOk w o
  | .memLevelWrite _ | .memHostWindowWrite _ => true
  | .cntClear index => decide (index < 256)
  | .ccReplicaWrite p _ stores => partOk p && storesOk stores
  | .eventsLost | .getKeys => true
  | .getReport nonce flags => nonceOk nonce && w32Ok flags
  | .ideKey keyset ciphertext => cipherOk keyset ciphertext
  | .ideGo request => doeRequestOk request
  | .ideStop | .ideCheckFail | .powerOnReset | .powerOnResetEnd | .resetNFall _ | .resetNRise _ | .lockTimeout | .testEnHigh => true
  | .domainRelease found => found.locked.all domainOk && found.faults.all laneFaultOk
  | .bootGo _ stores | .topoGo _ stores => storesOk stores
  | .bootRelayRequest port => portOk port
  | .imageVerify | .linkTrainEnd | .renewGo _ => true
  | .memoryTrainingDone found => memTrainingOk found
  | .renewComplete found => found.all fieldTestOk
  | .thermalSample sensor _ => sensorOk sensor
  | .tripShutdown | .inhibitBegin | .inhibitEnd => true
  | .meterSample _ _ _ _ _ | .pulseEnd | .intervalClose _ => true
  | .i3cOffsetSelect _ read => offsetOk read.offset && decide (read.count ≤ 256)
  | .arbAdvance target => decide (target < 128)
  | .nmeTest _ | .nmeTestDone _ => true
  | .extest | .samplePreload | .idcode | .extestPulse | .extestTrain | .clamp | .highz | .bypass => true
  | .boardChannelFailed fault => memFaultOk fault
  | .arbAdvanceDone | .tapReset => true

end Sys2Proof
end

