-- ==== Sys2Proof/Tests/Slice0.lean ====
section
/-! SUPPORT. The package's own tests: ill-formed commands that WellFormed refuses, a few single steps, and, for every statement with
hypotheses, a state and operands that meet them. -/
namespace Sys2Proof.Tests

open Sys2Proof Sys2Proof.Machine

set_option Elab.async false

/-! ## Small states -/

/-- Domains all released, the part in a state, partition 0 with the first field, stack, board channel and link group. -/
def base (st : PState) : State :=
  { State.reset with
    timeOn := true
    rst := { RstRegs.reset with state := st, porAsserted := false, released := 0xFFFFFFFFF, locked := 0xFFFFFFFFF, everReady := true, fwRunning := true }
    hif := { HifRegs.reset with enable := true, bme := true, rate := 7, width := 16 }
    mem := { MemRegs.reset with trained := 64, density := 1, ranks := 1,
                                weir := [0, 0x100, 0x148, 0x149].map (fun w => (weirKey w 0, 0x00100100)) }
    layout := [(0, { fields := 1, stackSet := 1, links := 1, frames := 1, board := 1, sLo := 0, sHi := 16, bLo := 64, bHi := 128, as0 := 0,
                     as0n := 16, as1 := 0, as1n := 0, shares := 0, cuu := 1, nme := 3 })] }

def zeros (n : Nat) : List Byte := List.replicate n 0

/-- A descriptor: opcode, partition, operands and inline payload (Table 13-3). -/
def desc (op part : Nat) (ops inl : List Byte) : List Byte :=
  leBytes 1 op ++ leBytes 1 (cdiv inl.length 64) ++ leBytes 2 inl.length ++ leBytes 4 7 ++ leBytes 1 part ++ zeros 7 ++
    (ops ++ zeros 48).take 48 ++ inl

def cmd (op part : Nat) (ops inl : List Byte) : Cmd := { ring := 0, tag := 7, stamp := 3, time := 0, bytes := desc op part ops inl, pre := 0, acted := none }

/-- A state with one command at the front of the host interface's queue. -/
def queued (s : State) (c : Cmd) : State := { s with hif := { s.hif with queue := [c] } }
def withPart (s : State) (x : Part) : State := { s with parts := [(0, x)] }
def idlePart : Part := Part.init

/-- A record (Table 03-6). -/
def arec (op own tokIn tokOut slot cyc arg : Nat) : List Byte :=
  leBytes 4 arg ++ leBytes 1 cyc ++ leBytes 3 slot ++ leBytes 2 tokOut ++ leBytes 2 tokIn ++ leBytes 2 own ++ leBytes 1 0 ++ leBytes 1 op

/-- An ownership entry that covers every slot of epoch 0. -/
def ownEntry (res agent action : Nat) : List Byte :=
  leBytes 4 res ++ leBytes 4 agent ++ leBytes 2 action ++ leBytes 2 0 ++ leBytes 4 0 ++ leBytes 4 1000 ++ leBytes 4 1000 ++ leBytes 4 1 ++ zeros 4

/-- Offset and length of each section, and their bytes. -/
def layOut (off : Nat) : List (List Byte) → List Byte × List Byte
  | [] => ([], [])
  | b :: bs => let r := layOut (off + b.length) bs
    (leBytes 4 off ++ leBytes 4 b.length ++ r.1, b ++ r.2)

/-- A forme image with one binding: program and parameters in section 2, then ownership entries, tokens, rendezvous and fill entries. -/
def image (agent : Nat) (prog params own tok rv fill : List Byte) : Image :=
  let bind := leBytes 4 agent ++ leBytes 4 0 ++ leBytes 2 (prog.length / 16) ++ zeros 2 ++ leBytes 4 prog.length
  let r := layOut 128 [[], bind, prog ++ params, own, tok, rv, fill, []]
  let m := leBytes 4 0x4D465658 ++ leBytes 2 1 ++ leBytes 2 128 ++ leBytes 4 1 ++ leBytes 4 (128 + r.2.length) ++ leBytes 2 0 ++ leBytes 2 1 ++
    leBytes 2 0 ++ leBytes 2 (rv.length / 16) ++ zeros 8 ++ zeros 8 ++ zeros 24 ++ r.1 ++ r.2
  m.take 0x20 ++ leBytes 8 (crc64 m) ++ m.drop 0x28

/-- A partition that runs a forme from slot 0. -/
def runs (m : Image) : Part := { Part.init with status := .running, cur := 1, image := m, seqs := Image.sequencers m, wdLimit := 5 }
/-- A part in RUN whose partition 0 runs a forme. -/
def running (m : Image) : State := withPart (base .run) (runs m)

def noTok : Nat := 0xFFFF

/-- A running state whose agent stands at one record of an opcode, with a descriptor and ownership of some resources. -/
def oneRecord (agent op : Nat) (d : List Byte) (res : List Nat) : State :=
  running (image agent (arec op (if res.isEmpty then 0xFFFF else 0) noTok noTok 0 0 0 ++ arec 7 noTok noTok noTok 1 0 0) d
    (res.flatMap (fun r => ownEntry r agent 0)) [] [] [])

/-- The context at which an agent stands; of no record where it stands at none. -/
def ctxAt (s : State) (op a : Nat) : Ctx := (issueCtx s op 0 a).getD
  { p := 0, agent := 0, bind := Binding.parse [], idx := 0, r := ARec.parse [], point := 0, base := 0, iter := 0, origin := 0, epoch := 0, fill := none }

/-- The checks of a record, and more that a statement asks, as a flag. -/
def meets (s : State) (op a n : Nat) (valid : State → Ctx → List Byte → Bool) (busy : State → Ctx → Option (Nat × Nat))
    (named : State → Ctx → List Byte → List Nat) (more : State → Ctx → List Byte → Bool) : Bool :=
  let c := ctxAt s op a
  let u := s.toCycle 0 c.point
  match (u.part 0).image.descOf c.bind c.r.arg n with
  | none => false
  | some b => decide (issueCtx s op 0 a = some c) && decide (u.tokCheck c = .fine) && valid u c b && decide (busy u c = none) &&
      decide (c.p = 0) && decide (ownFail (u.part 0) c 0 (named u c b) = none) && more u c b

theorem meets_issues {s : State} {op a n : Nat} {valid : State → Ctx → List Byte → Bool} {busy : State → Ctx → Option (Nat × Nat)}
    {named : State → Ctx → List Byte → List Nat} {more : State → Ctx → List Byte → Bool} (h : meets s op a n valid busy named more = true) :
    ∃ u c b, (u.part 0).image.descOf c.bind c.r.arg n = some b ∧ Issues s u op 0 a c (valid u c b) (busy u c) (named u c b) ∧ more u c b = true := by
  dsimp only [meets] at h
  split at h
  · cases h
  · rename_i b hb
    simp only [Bool.and_eq_true, decide_eq_true_eq] at h
    obtain ⟨⟨⟨⟨⟨⟨h1, h2⟩, h3⟩, h4⟩, h5⟩, h6⟩, h7⟩ := h
    exact ⟨_, ctxAt s op a, b, hb, ⟨h1, rfl, h2, h3, h4, by rw [h5]; exact h6⟩, h7⟩

/-- What holds of the next state. -/
def nextHas (o : Out) (f : State → Bool) : Bool := match o with
  | .next t => f t
  | _ => false
/-! ## Witnesses: the queue, forms, events -/

theorem wit_StepRunsFront : (∃ (s : State) (c : Instr) (rest : List Instr), s.pending = c :: rest) ∧ ∃ s : State, s.pending = [] :=
  ⟨⟨{ base .run with pending := [.nudge] }, .nudge, [], rfl⟩, ⟨base .run, rfl⟩⟩

theorem wit_forms : ∃ s t : State, s.data.wf = true ∧ s.es.buffer.length ≤ esRoom ∧ step s = .next t :=
  ⟨{ base .run with pending := [.nudge] }, _, by decide +kernel, by decide +kernel, rfl⟩

theorem wit_RollbackNeverDecreases : ∃ s t : State, s.rollbackOk ∧ step s = .next t ∧ s.sec.advancing = some 64 :=
  ⟨{ base .run with pending := [.arbAdvanceDone], sec := { SecRegs.reset with fwSvn := 64, advancing := some 64 } }, _,
    ⟨by decide +kernel, by decide +kernel, by intro n h; cases h; decide +kernel⟩, rfl, rfl⟩

def fullBuffer : List Event := List.replicate esRoom { seq := 0, type := 1, part := none, time := 0, source := 0, aux := 0, detail := 0 }

theorem wit_EventsMaskedAndKept :
    (∃ s : State, s.es.lostSince = 0 ∧ s.masked 0x101 = true) ∧ (∃ s : State, s.es.lostSince = 0 ∧ s.masked 0x101 = false ∧ s.es.buffer.length < esRoom) ∧
    (∃ s : State, s.es.lostSince = 0 ∧ s.masked 0x101 = false ∧ esRoom ≤ s.es.buffer.length) ∧
    (∃ s : State, s.es.level = false ∧ s.masked 0x400 = true) ∧ (∃ s : State, s.es.level = true ∧ s.masked 0x41F = true ∧ s.masked 0x41E = false) :=
  ⟨⟨{ base .run with es := { EsRegs.reset with groupMask := 1 } }, by decide +kernel⟩, ⟨base .run, by decide +kernel⟩,
    ⟨{ base .run with es := { EsRegs.reset with buffer := fullBuffer } }, by decide +kernel⟩,
    ⟨{ base .run with es := { EsRegs.reset with groupMask := 8 } }, by decide +kernel⟩,
    ⟨{ base .run with es := { EsRegs.reset with level := true, typeMask := [(4, 0x80000000)] } }, by decide +kernel⟩⟩

/-! ## Witnesses: host commands -/

theorem wit_InvalidCommandRefused :
    (∀ op ∈ [0x10, 0x11, 0x12, 0x13, 0x20, 0x21, 0x22, 0x23, 0x24, 0x25, 0x30, 0x31, 0x32, 0x33, 3, 4, 0x40, 0, 2, 0x15],
      let c := cmd op 8 [] []
      (queued (base .run) c).cmdCode c ≠ 0 ∧ (queued (base .run) c).front (· == op) = some c) ∧
    (let c := cmd 0x0F 0 [] []
     (queued (base .run) c).cmdCode c ≠ 0 ∧ (queued (base .run) c).front (fun op => op == 0 || !knownOp op) = some c) ∧
    (∀ op ∈ [2, 0x15], let c := cmd op 8 (leBytes 1 1) []
      (queued (base .run) c).cmdCode c ≠ 0 ∧ (queued (base .run) c).front (· == op) = some c ∧ c.opnd 0 1 = 1) := by decide +kernel

def resident1 (on : Bool) : Part := { Part.init with resident := [{ id := 1, image := [], enabled := on }] }

theorem wit_NopUnloadRelease :
    (∃ (s : State) (c : Cmd), s.front (fun op => op == 0 || !knownOp op) = some c ∧ s.cmdCode c = 0) ∧
    (∃ (s : State) (c : Cmd), s.serves 0x12 c ∧ ((s.part c.part).find (c.opnd 0 4)).isSome ∧ s.formeInUse c.part (c.opnd 0 4) = false) ∧
    (∃ (s : State) (c : Cmd), s.serves 0x21 c ∧ s.mem.allocs.any (fun x => x.addr == c.opnd 0 8) = true) ∧
    (∃ (s : State) (c : Cmd), s.serves 0x21 c ∧ s.mem.allocs.any (fun x => x.addr == c.opnd 0 8) = false) :=
  ⟨⟨queued (base .run) (cmd 0 0 [] []), cmd 0 0 [] [], by decide +kernel⟩,
   ⟨queued (withPart (base .run) (resident1 false)) (cmd 0x12 0 (leBytes 4 1) []), cmd 0x12 0 (leBytes 4 1) [], by decide +kernel⟩,
   ⟨queued { base .run with mem := { MemRegs.reset with allocs := [⟨pageBytes, 1, 0, 0⟩] } } (cmd 0x21 0 (leBytes 8 pageBytes) []),
    cmd 0x21 0 (leBytes 8 pageBytes) [], by decide +kernel⟩,
   ⟨queued (base .run) (cmd 0x21 0 (leBytes 8 pageBytes) []), cmd 0x21 0 (leBytes 8 pageBytes) [], by decide +kernel⟩⟩

/-- A SERVICE or register access that has acted at its stamp. -/
def acted (c : Cmd) (r v : Nat) : Cmd := { c with acted := some (r, v) }

theorem wit_ServiceMovesPart :
    (∃ (s : State) (c : Cmd), s.serves 2 c ∧ c.acted = none ∧ c.opnd 0 1 = 1 ∧ s.rst.state = .ready) ∧
    (∃ (s : State) (c : Cmd), s.serves 2 c ∧ c.acted = none ∧ c.opnd 0 1 = 1 ∧ s.rst.state ≠ .ready) ∧
    (∃ (s : State) (c : Cmd), s.serves 2 c ∧ c.acted = none ∧ c.opnd 0 1 ≠ 1 ∧ s.rst.state = .run ∧ ∀ p, p < 8 → (s.part p).status = .idle) ∧
    (∃ (s : State) (c : Cmd) (p : Nat), s.serves 2 c ∧ c.acted = none ∧ c.opnd 0 1 ≠ 1 ∧ p < 8 ∧ (s.part p).status ≠ .idle) ∧
    (∀ mode ∈ [0, 1], ∀ r ∈ [0, 0x116], let c := acted (cmd 2 0 (leBytes 1 mode) []) r 0
      (queued (base .run) c).front (· == 2) = some c ∧ c.opnd 0 1 = mode ∧ r / 256 ≠ 5) :=
  ⟨⟨queued (base .ready) (cmd 2 0 (leBytes 1 1) []), cmd 2 0 (leBytes 1 1) [], by decide +kernel⟩,
   ⟨queued (base .run) (cmd 2 0 (leBytes 1 1) []), cmd 2 0 (leBytes 1 1) [], by decide +kernel⟩,
   ⟨queued (base .run) (cmd 2 0 [] []), cmd 2 0 [] [], by decide +kernel⟩,
   ⟨queued { base .run with parts := [(7, { Part.init with status := .frozen })] } (cmd 2 0 [] []), cmd 2 0 [] [], 7, by decide +kernel⟩,
   by decide +kernel⟩

def image1 : Image := image 0 (arec 7 noTok noTok noTok 0 0 0) [] [] [] [] []
def withHost (s : State) (a : Nat) (bs : List Byte) : State := { s with data := { s.data with host := writeBytes s.data.host a bs } }
def layoutRec : List Byte := leBytes 4 0x594C5658 ++ leBytes 1 1 ++ zeros 11
def loadOps (m : Image) : List Byte := leBytes 8 0x1000 ++ leBytes 4 m.length
def loadState (m : Image) : State := queued (withHost (base .run) 0x1000 m) (cmd 0x11 0 (loadOps m) [])
def enableState (m : Image) : State :=
  queued (withPart (base .run) { Part.init with resident := [{ id := 1, image := m, enabled := false }] }) (cmd 0x13 0 (leBytes 4 1) [])

/-- A LAYOUT or LOAD that the host interface may not fetch. -/
def unserved (d3 : Bool) (op : Nat) : State :=
  let s := queued (base .run) (cmd op 0 [] [])
  { s with hif := { s.hif with d3 := d3, bme := false } }
theorem unserved_serves : ∀ d3 ∈ [true, false], ∀ op ∈ [0x10, 0x11],
    (unserved d3 op).serves op (cmd op 0 [] []) ∧ (unserved d3 op).hif.d3 = d3 ∧ (unserved d3 op).hif.bme = false := by decide +kernel

set_option maxRecDepth 100000 in
theorem wit_LayoutLoadEnable :
    (∃ (s : State) (c : Cmd), s.serves 0x10 c ∧ s.hostUp = true ∧ s.layoutCode (s.hostRead (c.opnd 0 8) layoutBytes) = 0) ∧
    (∃ (s : State) (c : Cmd), s.serves 0x11 c ∧ s.hostUp = true ∧
      loadCode (s.hostRead (c.opnd 0 8) (min (c.opnd 8 4) (maxImage + 1))) (c.opnd 8 4) ((s.part c.part).resident.map (·.id)) s.storeUsed = 0) ∧
    (∃ (s : State) (c : Cmd), s.serves 0x11 c ∧ s.hostUp = true ∧
      loadCode (s.hostRead (c.opnd 0 8) (min (c.opnd 8 4) (maxImage + 1))) (c.opnd 8 4) ((s.part c.part).resident.map (·.id)) s.storeUsed / 256 = 2) ∧
    (∃ (s : State) (c : Cmd), s.serves 0x10 c ∧ s.hostUp = true ∧ s.layoutCode (s.hostRead (c.opnd 0 8) layoutBytes) ≠ 0) ∧
    (∀ d3 ∈ [true, false], ∀ op ∈ [0x10, 0x11], ∃ (s : State) (c : Cmd), s.serves op c ∧ s.hif.d3 = d3 ∧ s.hif.bme = false) ∧
    (∃ (s : State) (c : Cmd), s.serves 0x13 c ∧ (s.part c.part).find (c.opnd 0 4) = none) ∧
    (∃ (s : State) (c : Cmd) (r : Resident), s.serves 0x13 c ∧ (s.part c.part).find (c.opnd 0 4) = some r ∧ s.enableCode c.part r.image = 0) ∧
    (∃ (s : State) (c : Cmd) (r : Resident), s.serves 0x13 c ∧ (s.part c.part).find (c.opnd 0 4) = some r ∧ s.enableCode c.part r.image / 256 = 2) :=
  ⟨⟨queued (withHost (base .run) 0x1000 layoutRec) (cmd 0x10 0 (leBytes 8 0x1000) []), cmd 0x10 0 (leBytes 8 0x1000) [], by decide +kernel⟩,
   ⟨loadState image1, cmd 0x11 0 (loadOps image1) [], by decide +kernel⟩,
   ⟨loadState (zeros 128), cmd 0x11 0 (loadOps (zeros 128)) [], by decide +kernel⟩,
   ⟨queued (base .run) (cmd 0x10 0 (leBytes 8 0x1000) []), cmd 0x10 0 (leBytes 8 0x1000) [], by decide +kernel⟩,
   fun d3 h op h' => ⟨unserved d3 op, cmd op 0 [] [], unserved_serves d3 h op h'⟩,
   ⟨queued (base .run) (cmd 0x13 0 [] []), cmd 0x13 0 [] [], by decide +kernel⟩,
   ⟨enableState image1, cmd 0x13 0 (leBytes 4 1) [], { id := 1, image := image1, enabled := false }, by decide +kernel⟩,
   ⟨enableState (zeros 128), cmd 0x13 0 (leBytes 4 1) [], { id := 1, image := zeros 128, enabled := false }, by decide +kernel⟩⟩

def switchCmd (pre : Nat) : Cmd := { cmd 0x14 0 [] (leBytes 1 0 ++ zeros 3 ++ leBytes 4 1) with pre := pre }
def sw (started : Bool) : Sw := { ring := 0, tag := 7, stamp := 3, targets := [(0, 1)], begun := true, started := started }
def withSwitch (s : State) (w : Sw) : State := { s with hif := { s.hif with switches := [w] } }

theorem wit_SwitchServedOrRefused :
    (∃ (s : State) (c : Cmd), s.serves 0x14 c ∧ c.pre = 0) ∧ (∃ (s : State) (c : Cmd), s.serves 0x14 c ∧ c.pre ≠ 0) ∧
    (∃ (s : State) (w : Sw), s.serviceDue = some w ∧ w.targets.all s.targetReady = false) ∧
    (∃ (s : State) (w : Sw), s.serviceDue = some w ∧ w.targets.all s.targetReady = true ∧ (w.targets.map (·.1)).Nodup) ∧
    (∃ (s : State) (w : Sw), lookupBy (fun w => w.started) s.hif.switches = some w) :=
  ⟨⟨queued (base .run) (switchCmd 0), switchCmd 0, by decide +kernel⟩, ⟨queued (base .run) (switchCmd 0x219), switchCmd 0x219, by decide +kernel⟩,
   ⟨withSwitch (withPart (base .run) (resident1 false)) (sw false), sw false, by decide +kernel⟩,
   ⟨withSwitch (withPart (base .run) (resident1 true)) (sw false), sw false, by decide +kernel⟩, ⟨withSwitch (base .run) (sw true), sw true, rfl⟩⟩

def frozenPart (cs : List Cause) : Part := { runs image1 with status := .frozen, frz := .stopped 256, causes := cs }
def haltedStream (cause : Nat) : StreamRec := { StreamRec.zero with state := 2, cause := cause }

/-- A partition that is FROZEN for an exhausted cache, its grace period over at a time. -/
def gracePart (till : Nat) : Part := { frozenPart [.absentPage 0] with grace := some (till, 0, 0) }

theorem wit_ResumeContinueRestarts :
    (∃ (s : State) (c : Cmd) (b : Nat), s.serves 0x15 c ∧ c.opnd 0 1 = 0 ∧ (s.part c.part).status = .frozen ∧
      (∀ g, (s.part c.part).grace = some g → c.time < g.1) ∧ (s.part c.part).grace.isSome = true ∧ ¬ (s.part c.part).causes.any Cause.final = true ∧
      (s.part c.part).frz = .stopped b ∧ s.streamsOf c.part = [] ) ∧
    (∃ (s : State) (c : Cmd) (e : Nat), s.serves 0x15 c ∧ c.opnd 0 1 = 0 ∧ (s.part c.part).status = .frozen ∧ (s.part c.part).grace = none ∧
      e ∈ s.streamsOf c.part ∧ (s.srec e).state = 2 ∧ s.streamCleared c.part (s.srec e) = true) ∧
    (∃ (s : State) (c : Cmd), s.serves 0x15 c ∧ c.opnd 0 1 = 0 ∧ (s.part c.part).status = .running) ∧
    (∃ (s : State) (c : Cmd) (g : Nat × Nat × Nat), s.serves 0x15 c ∧ c.opnd 0 1 = 0 ∧ (s.part c.part).grace = some g ∧ ¬ c.time < g.1) ∧
    (∃ (s : State) (c : Cmd), s.serves 0x15 c ∧ c.opnd 0 1 = 0 ∧ (s.part c.part).status = .frozen ∧ (s.part c.part).causes.any Cause.final = true) ∧
    (∃ (s : State) (c : Cmd) (e : Nat), s.serves 0x15 c ∧ c.opnd 0 1 = 0 ∧ (s.part c.part).status = .frozen ∧
      (s.part c.part).causes.any Cause.final = false ∧ e ∈ s.streamsOf c.part ∧ s.streamCleared c.part (s.srec e) = false) :=
  ⟨⟨queued (withPart (base .run) (gracePart 1)) (cmd 0x15 0 [] []), cmd 0x15 0 [] [], 256, by decide +kernel, by decide +kernel, by decide +kernel,
      (by intro g h; injection h with h; subst h; decide +kernel), by decide +kernel, by decide +kernel, by decide +kernel, by decide +kernel⟩,
   ⟨(queued (withPart (base .run) (frozenPart [])) (cmd 0x15 0 [] [])).setRec 2 (haltedStream 4), cmd 0x15 0 [] [], 2, by decide +kernel⟩,
   ⟨queued (running image1) (cmd 0x15 0 [] []), cmd 0x15 0 [] [], by decide +kernel⟩,
   ⟨queued (withPart (base .run) (gracePart 0)) (cmd 0x15 0 [] []), cmd 0x15 0 [] [], (0, 0, 0), by decide +kernel⟩,
   ⟨queued (withPart (base .run) (frozenPart [.breach])) (cmd 0x15 0 [] []), cmd 0x15 0 [] [], by decide +kernel⟩,
   ⟨(queued (withPart (base .run) (frozenPart [])) (cmd 0x15 0 [] [])).setRec 2 (haltedStream 2), cmd 0x15 0 [] [], 2, by decide +kernel⟩⟩

theorem wit_ResumeAbandonEndsRun : (∃ (s : State) (c : Cmd), s.serves 0x15 c ∧ c.opnd 0 1 ≠ 0 ∧ s.resumable c = true ∧
    (s.part c.part).cset = none) ∧ (∃ (s : State) (c : Cmd), s.serves 0x15 c ∧ c.opnd 0 1 ≠ 0 ∧ s.resumable c = false) :=
  ⟨⟨queued (withPart (base .run) (frozenPart [.breach])) (cmd 0x15 0 (leBytes 1 1) []), cmd 0x15 0 (leBytes 1 1) [], by decide +kernel⟩,
   ⟨queued (running image1) (cmd 0x15 0 (leBytes 1 1) []), cmd 0x15 0 (leBytes 1 1) [], by decide +kernel⟩⟩

def allocOps (tier flags units aff : Nat) : List Byte := leBytes 1 tier ++ leBytes 1 flags ++ zeros 2 ++ leBytes 4 units ++ leBytes 8 aff
def allocCmd (flags units : Nat) : Cmd := cmd 0x20 0 (allocOps 0 flags units 1) []
def withAlloc (s : State) (a : Alloc) : State := { s with mem := { s.mem with allocs := [a] } }
def withDom (s : State) (d : Nat) (st : DState) : State := s.setDom d { Dom.reset with st := st }

/-- An allocation from address 0 on is met by every range that begins inside it. -/
theorem least_after {s : State} {c : Cmd} {n : Nat} (ha : (⟨0, n, 0, 0⟩ : Alloc) ∈ s.mem.allocs) (hu : 0 < c.units) :
    ∀ b, b < n * pageBytes → allocAllowed s c b → ¬ allocFree s c b := by
  intro b hb _ hf
  have h := hf _ ha
  have hp : 0 < c.units * pageBytes := Nat.mul_pos hu (by decide)
  unfold rangesMeet at h
  simp only [Nat.zero_add, Bool.and_eq_false_iff, decide_eq_false_iff_not, bne_eq_false_iff_eq] at h
  omega

theorem alloc_place : 0 < 256 ∧ bit ((base .run).lay 0).stackSet (0 / 32) = true ∧ bit (allocCmd 2 1).affinity (0 / 32) = true ∧
    ((base .run).lay 0).sLo ≤ 2 ∧ 2 + (allocCmd 2 1).units ≤ ((base .run).lay 0).sHi ∧ 2 * pageBytes = 0 * 2147483648 + 2 * pageBytes := by decide +kernel

theorem wit_AllocReturnsLowestFree :
    (∀ c ∈ [allocCmd 0 17, allocCmd 0 16, allocCmd 2 1], let s := queued (base .run) c
      s.serves 0x20 c ∧ (s.lay c.part).sHi ≤ 1024 ∧ (s.lay c.part).bHi * pageBytes ≤ s.cap) ∧
    (queued (base .run) (allocCmd 0 17)).badHint (allocCmd 0 17) = true ∧
    (let s := queued { base .run with layout := [(0, { (base .run).lay 0 with stackSet := 0 })] } (allocCmd 0 16)
     s.serves 0x20 (allocCmd 0 16) ∧ s.badHint (allocCmd 0 16) = false ∧ ∀ a, allocAllowed s (allocCmd 0 16) a → ¬ allocFree s (allocCmd 0 16) a) ∧
    (∀ on ∈ [true, false], let s := queued (withDom (withAlloc (base .run) ⟨0, 2, 0, 0⟩) 11 (if on then .on else .retention)) (allocCmd 2 1)
     s.serves 0x20 (allocCmd 2 1) ∧ s.badHint (allocCmd 2 1) = false ∧ allocAllowed s (allocCmd 2 1) (2 * pageBytes) ∧
      allocFree s (allocCmd 2 1) (2 * pageBytes) ∧ (allocCmd 2 1).zeroes = true ∧ s.servedRange (2 * pageBytes) pageBytes = on ∧
      ∀ b, b < 2 * pageBytes → allocAllowed s (allocCmd 2 1) b → ¬ allocFree s (allocCmd 2 1) b) := by
  refine ⟨by decide +kernel, by decide +kernel, ⟨by decide +kernel, by decide +kernel, ?_⟩, ?_⟩
  · rintro a ⟨ch, k, _, h, _⟩
    have : bit 0 (ch / 32) = true := h
    simp [bit] at this
  · intro on h
    have h' : ∀ on ∈ [true, false], let s := queued (withDom (withAlloc (base .run) ⟨0, 2, 0, 0⟩) 11 (if on then .on else .retention)) (allocCmd 2 1)
        s.serves 0x20 (allocCmd 2 1) ∧ s.badHint (allocCmd 2 1) = false ∧ rangesMeet (2 * pageBytes) (1 * pageBytes) 0 (2 * pageBytes) = false ∧
          (allocCmd 2 1).zeroes = true ∧ s.servedRange (2 * pageBytes) pageBytes = on := by decide +kernel
    obtain ⟨h1, h2, h3, h4, h5⟩ := h' on h
    have ha : (queued (withDom (withAlloc (base .run) ⟨0, 2, 0, 0⟩) 11 (if on then .on else .retention)) (allocCmd 2 1)).mem.allocs = [⟨0, 2, 0, 0⟩] := rfl
    refine ⟨h1, h2, ⟨0, 2, ?_⟩, ?_, h4, h5, least_after (n := 2) (by rw [ha]; exact List.mem_singleton.mpr rfl) (by decide +kernel)⟩
    · have := alloc_place
      exact this
    · intro x hx
      rw [ha, List.mem_singleton] at hx
      subst hx
      exact h3

def mapCmd (op a : Nat) (frame flags : Nat) : Cmd := cmd op 0 (leBytes 8 a ++ leBytes 8 frame ++ leBytes 1 flags) []
def boardPageIn : Nat := boardBase + 64 * pageBytes

theorem wit_MapUnmapWritePage :
    (∃ (s : State) (c : Cmd), s.serves 0x22 c ∧ s.mapCode c = 0 ∧ c.opnd 0 8 < hostBase) ∧
    (∃ (s : State) (c : Cmd), s.serves 0x22 c ∧ s.mapCode c = 0 ∧ hostBase ≤ c.opnd 0 8) ∧
    (∃ (s : State) (c : Cmd), s.serves 0x22 c ∧ s.mapCode c ≠ 0) ∧
    (∃ (s : State) (c : Cmd), s.serves 0x23 c ∧ s.unmapCode c = 0) ∧ (∃ (s : State) (c : Cmd), s.serves 0x23 c ∧ s.unmapCode c ≠ 0) :=
  ⟨⟨queued (base .run) (mapCmd 0x22 boardPageIn 0 1), mapCmd 0x22 boardPageIn 0 1, by decide +kernel⟩,
   ⟨queued { base .run with mem := { (base .run).mem with window := 1 } } (mapCmd 0x22 hostBase pageBytes 0), mapCmd 0x22 hostBase pageBytes 0, by decide +kernel⟩,
   ⟨queued (base .run) (mapCmd 0x22 boardBase 0 0), mapCmd 0x22 boardBase 0 0, by decide +kernel⟩,
   ⟨queued (base .run) (cmd 0x23 0 (leBytes 8 boardPageIn) []), cmd 0x23 0 (leBytes 8 boardPageIn) [], by decide +kernel⟩,
   ⟨queued (base .run) (cmd 0x23 0 (leBytes 8 16) []), cmd 0x23 0 (leBytes 8 16) [], by decide +kernel⟩⟩

def copyCmd (src dst n dir : Nat) : Cmd := cmd 0x24 0 (leBytes 8 src ++ leBytes 8 dst ++ leBytes 4 n ++ leBytes 1 dir) []
def exportCmdOf (rule count layer : Nat) (w r : Nat) : Cmd :=
  cmd 0x25 0 [] (zeros 4 ++ zeros 2 ++ leBytes 1 rule ++ leBytes 1 0 ++ leBytes 4 layer ++ leBytes 4 1 ++ leBytes 8 0 ++ leBytes 8 count ++ zeros 8 ++
    leBytes 8 w ++ leBytes 8 r ++ leBytes 8 0 ++ leBytes 8 0 ++ leBytes 8 0x4000 ++ leBytes 8 4096)
def withBg (s : State) (c : Cmd) (ab : Bool) : State :=
  { s with hif := { s.hif with running := [{ cmd := c, bytesDone := 0, aborted := ab, header := [], epoch := 1 }] } }

theorem wit_CopyExportBegin :
    (∃ (s : State) (c : Cmd), s.serves 0x24 c ∧ s.copyCode c = 0 ∧ Run.origin (s.copySource c) = 0) ∧ (∃ (s : State) (c : Cmd), s.serves 0x24 c ∧ s.copyCode c ≠ 0) ∧
    (∃ (s : State) (c : Cmd), s.serves 0x25 c ∧ s.exportCode c = 0 ∧ Run.origin (s.exportSource c) = 0) ∧ (∃ (s : State) (c : Cmd), s.serves 0x25 c ∧ s.exportCode c ≠ 0) :=
  ⟨⟨queued (base .run) (copyCmd 0x100 0x2000 64 1), copyCmd 0x100 0x2000 64 1, by decide +kernel⟩,
   ⟨queued (withPart (base .run) (runs image1)) (copyCmd 0x100 0x2000 64 1), copyCmd 0x100 0x2000 64 1, by decide +kernel⟩,
   ⟨queued (base .run) (exportCmdOf 2 32 32 0 0x1000), exportCmdOf 2 32 32 0 0x1000, by decide +kernel⟩,
   ⟨queued (base .run) (exportCmdOf 2 32 31 0 0x1000), exportCmdOf 2 32 31 0 0x1000, by decide +kernel⟩⟩

/-- A COPY and an EXPORT whose requests stand at a weir that admits none. -/
theorem wit_TransferWaits : ∀ x ∈ [(0x24, copyCmd 0x100 0x2000 64 1), (0x25, exportCmdOf 2 32 32 0 0x1000)],
    let s := (withBg { base .run with mem := { (base .run).mem with weir := [] } } x.2 false).putHeld (weirKey 0x149 0)
      [{ tokens := 1, agent := ccAgent, action := 0xFFFF, qmax := 0, write := true, offered := true, rest := 0, id := x.2.stamp + 1 }]
    lookupBy (fun (b : Bg) => b.cmd.stamp == x.2.stamp && b.cmd.op == x.1) s.hif.running = some ⟨x.2, 0, false, [], 1⟩ ∧ s.hostUp = true ∧
      s.transferLeft x.2 = none := by decide +kernel

def bg (c : Cmd) (ab : Bool) : Bg := { cmd := c, bytesDone := 0, aborted := ab, header := [], epoch := 1 }
theorem wit_CopyMoves :
    (∃ (s : State) (b : Bg), lookupBy (fun x => x.cmd.stamp == b.cmd.stamp && x.cmd.op == 0x24) s.hif.running = some b ∧ b.aborted = false ∧
      s.hostUp = true ∧ b.cmd.opnd 20 1 = 1 ∧ 0 < b.cmd.opnd 16 4 ∧ b.cmd.opnd 0 8 < hostBase ∧
      b.cmd.opnd 0 8 / pageBytes = (b.cmd.opnd 0 8 + b.cmd.opnd 16 4 - 1) / pageBytes ∧
      s.transferLeft b.cmd = some 0 ∧ ((s.toClk 0).devRead (b.cmd.opnd 0 8) (b.cmd.opnd 16 4)).origin = 0) ∧
    (∃ (s : State) (b : Bg), lookupBy (fun x => x.cmd.stamp == b.cmd.stamp && x.cmd.op == 0x24) s.hif.running = some b ∧ b.aborted = false ∧
      s.hostUp = true ∧ b.cmd.opnd 20 1 = 0 ∧ 0 < b.cmd.opnd 16 4 ∧ b.cmd.opnd 8 8 + b.cmd.opnd 16 4 ≤ hostBase ∧
      b.cmd.opnd 8 8 / pageBytes = (b.cmd.opnd 8 8 + b.cmd.opnd 16 4 - 1) / pageBytes ∧
      s.transferLeft b.cmd = some 0 ∧ ∀ i, i < b.cmd.opnd 16 4 → tget 0 (s.toClk 0).data.hostP ((b.cmd.opnd 0 8 + i) / 8) = 0) :=
  ⟨⟨withBg (base .run) (copyCmd 0x100 0x2000 64 1) false, bg (copyCmd 0x100 0x2000 64 1) false, by decide +kernel⟩,
   ⟨withBg (base .run) (copyCmd 0x100 0x1FFFF0 16 0) false, bg (copyCmd 0x100 0x1FFFF0 16 0) false, by decide +kernel⟩⟩

theorem wit_ExportMoves :
    (∃ (s : State) (b : Bg), lookupBy (fun x => x.cmd.stamp == b.cmd.stamp && x.cmd.op == 0x25) s.hif.running = some b ∧ s.hostUp = true ∧
      b.aborted = false ∧ s.transferLeft b.cmd = some 0 ∧ Run.origin ((s.toClk 0).exportSource b.cmd) = 0) ∧
    (∀ op : Nat, op = 0x24 ∨ op = 0x25 → ∃ (s : State) (b : Bg),
      lookupBy (fun x => x.cmd.stamp == b.cmd.stamp && x.cmd.op == op) s.hif.running = some b ∧ s.hostUp = true ∧ b.aborted = true) := by
  refine ⟨⟨withBg (base .run) (exportCmdOf 2 32 32 0 0x1000) false, bg (exportCmdOf 2 32 32 0 0x1000) false, by decide +kernel⟩, ?_⟩
  rintro op (rfl | rfl)
  · exact ⟨withBg (base .run) (copyCmd 0x100 0x2000 64 1) true, bg (copyCmd 0x100 0x2000 64 1) true, by decide +kernel⟩
  · exact ⟨withBg (base .run) (exportCmdOf 2 32 32 0 0x1000) true, bg (exportCmdOf 2 32 32 0 0x1000) true, by decide +kernel⟩

/-! ## Witnesses: the cache, POWER, registers, ABORT -/

def withDev (s : State) (a : Nat) (bs : List Byte) : State := { s with data := { s.data with dev := writeBytes s.data.dev a bs } }
/-- A cache set record at 0x1000 with one engine, one slot, one page entry and one bucket (Tables 09-8, 09-9 and 09-13). -/
def cacheBytes : List Byte :=
  leBytes 4 0x4B435658 ++ leBytes 2 1 ++ leBytes 2 1 ++ leBytes 1 1 ++ leBytes 1 0x33 ++ leBytes 2 64 ++ leBytes 1 0 ++ leBytes 1 0 ++ leBytes 2 128 ++
    leBytes 2 2048 ++ leBytes 2 1 ++ leBytes 2 1 ++ leBytes 2 1 ++ leBytes 4 0 ++ leBytes 4 0 ++ leBytes 8 0x2000 ++ leBytes 8 0x3000 ++ zeros 16 ++
    leBytes 2 0 ++ leBytes 2 0 ++ leBytes 4 2 ++ leBytes 8 0x4000 ++ leBytes 8 0x5000 ++ leBytes 4 0 ++ leBytes 4 0
def bucketBytes : List Byte := leBytes 1 1 ++ leBytes 1 0 ++ leBytes 2 1 ++ zeros 12 ++ leBytes 4 1 ++ leBytes 2 1 ++ zeros 2 ++ leBytes 8 0x6000
def cached (x : Part) (slotState : Nat) : State :=
  withDev (withDev (withDev (withPart (base .run) { x with cset := some 0x1000, csetRec := cacheBytes }) 0x1000 cacheBytes) 0x3000 bucketBytes) 0x2008 (leBytes 1 slotState)
def cs : CacheSet := (cached Part.init 0).cacheSetAt 0 0x1000
def setCmd (a : Nat) : Cmd := cmd 0x30 0 [] (leBytes 8 a)
def giveCmd (engine : Nat) (pages : List Nat) : Cmd :=
  cmd 0x31 0 [] (leBytes 2 engine ++ leBytes 2 pages.length ++ pages.flatMap (leBytes 8))
def joinCmd (slot : Nat) : Cmd := cmd 0x32 0 [] (leBytes 2 slot ++ leBytes 2 0 ++ leBytes 4 5)
def leaveCmd (slot : Nat) : Cmd := cmd 0x33 0 [] (leBytes 2 slot)
def giveHyps (s : State) (c : Cmd) (e : CacheEng) (i : Nat) : Bool :=
  let pages := (upTo (c.inl 2 2)).map (fun k => c.inl (4 + 8 * k) 8)
  decide (∀ a ∈ pages, a % 262144 = 0 ∧ s.inChannel true e.engine a 262144 = true ∧ a ∉ s.ringPages e ∧ a ∉ s.usedPages cs i) &&
    decide ((dedup pages).length = pages.length)

theorem wit_CacheSetAndGive :
    (∃ (s : State) (c : Cmd), s.serves 0x30 c ∧ s.cacheSetOk c.part (c.inl 0 8) = true ∧ (s.part c.part).status = .idle) ∧
    (∃ (s : State) (c : Cmd), s.serves 0x30 c ∧ s.cacheSetOk c.part (c.inl 0 8) = false) ∧
    (∃ (s : State) (c : Cmd), s.serves 0x30 c ∧ s.cacheSetOk c.part (c.inl 0 8) = true ∧ (s.part c.part).status ≠ .idle) ∧
    (∃ (s : State) (c : Cmd), s.serves 0x31 c ∧ s.cset c.part = some cs ∧ s.cacheIndex cs (c.inl 0 2) = some 0 ∧
      giveHyps s c (s.cacheEng cs 0) 0 = true ∧ (s.cacheEng cs 0).count + (s.usedPages cs 0).length + c.inl 2 2 = (s.cacheEng cs 0).freeCap) ∧
    (∃ (s : State) (c : Cmd), s.serves 0x31 c ∧ s.cset c.part = some cs ∧ s.cacheIndex cs (c.inl 0 2) = some 0 ∧
      giveHyps s c (s.cacheEng cs 0) 0 = true ∧ (s.cacheEng cs 0).freeCap < (s.cacheEng cs 0).count + (s.usedPages cs 0).length + c.inl 2 2) ∧
    (∃ (s : State) (c : Cmd), s.serves 0x31 c ∧ s.cset c.part = none) ∧ (∃ (s : State) (c : Cmd), s.serves 0x32 c ∧ s.cset c.part = none) ∧
    (∃ (s : State) (c : Cmd), s.serves 0x33 c ∧ s.cset c.part = none) :=
  ⟨⟨queued (cached Part.init 0) (setCmd 0x1000), setCmd 0x1000, by decide +kernel⟩, ⟨queued (base .run) (setCmd 0x1000), setCmd 0x1000, by decide +kernel⟩,
   ⟨queued (cached (runs image1) 0) (setCmd 0x1000), setCmd 0x1000, by decide +kernel⟩,
   ⟨queued (cached Part.init 0) (giveCmd 0 [0x40000, 0x80000]), giveCmd 0 [0x40000, 0x80000], by decide +kernel⟩,
   ⟨queued (cached Part.init 0) (giveCmd 0 [0x40000, 0x80000, 0xC0000]), giveCmd 0 [0x40000, 0x80000, 0xC0000], by decide +kernel⟩,
   ⟨queued (base .run) (giveCmd 0 [0x40000]), giveCmd 0 [0x40000], by decide +kernel⟩, ⟨queued (base .run) (joinCmd 0), joinCmd 0, by decide +kernel⟩,
   ⟨queued (base .run) (leaveCmd 0), leaveCmd 0, by decide +kernel⟩⟩

theorem wit_CacheJoinLeave :
    (∃ (s : State) (c : Cmd), s.serves 0x32 c ∧ s.cset c.part = some cs ∧ c.inl 0 2 < cs.slots ∧ (s.seqEntry cs (c.inl 0 2)).state = 0 ∧
      (s.part c.part).status = .idle ∧ cs.seqTable + 16 * cs.slots ≤ hostBase) ∧
    (∃ (s : State) (c : Cmd), s.serves 0x32 c ∧ s.cset c.part = some cs ∧ c.inl 0 2 < cs.slots ∧ (s.seqEntry cs (c.inl 0 2)).state = 0 ∧
      (s.part c.part).status ≠ .idle) ∧
    (∃ (s : State) (c : Cmd), s.serves 0x33 c ∧ s.cset c.part = some cs ∧ c.inl 0 2 < cs.slots ∧ (s.seqEntry cs (c.inl 0 2)).state ≠ 0 ∧
      (s.part c.part).status = .idle) ∧
    (∃ (s : State) (c : Cmd), s.serves 0x33 c ∧ s.cset c.part = some cs ∧ c.inl 0 2 < cs.slots ∧ (s.seqEntry cs (c.inl 0 2)).state ≠ 0 ∧
      (s.part c.part).status ≠ .idle) ∧
    (∃ (s : State) (c : Cmd), s.serves 0x32 c ∧ s.cset c.part = some cs ∧ cs.slots ≤ c.inl 0 2) ∧
    (∃ (s : State) (c : Cmd), s.serves 0x33 c ∧ s.cset c.part = some cs ∧ (s.seqEntry cs (c.inl 0 2)).state = 0) :=
  ⟨⟨queued (cached Part.init 0) (joinCmd 0), joinCmd 0, by decide +kernel⟩, ⟨queued (cached (runs image1) 0) (joinCmd 0), joinCmd 0, by decide +kernel⟩,
   ⟨queued (cached Part.init 1) (leaveCmd 0), leaveCmd 0, by decide +kernel⟩, ⟨queued (cached (runs image1) 1) (leaveCmd 0), leaveCmd 0, by decide +kernel⟩,
   ⟨queued (cached Part.init 0) (joinCmd 1), joinCmd 1, by decide +kernel⟩, ⟨queued (cached Part.init 0) (leaveCmd 0), leaveCmd 0, by decide +kernel⟩⟩

def powerCmd (form target st : Nat) : Cmd :=
  cmd 0x40 0 [] (leBytes 1 1 ++ leBytes 1 form ++ zeros 6 ++ leBytes 1 target ++ leBytes 1 st ++ leBytes 1 0xFF ++ zeros 5)
def powering (tripped : Bool) : State :=
  { base .run with pwr := { PwrRegs.reset with cmd := some { cmd := powerCmd 1 0 0, targets := [(19, .gated, 0)], tripped := tripped } } }

theorem wit_PowerMovesDomains :
    (∃ (s : State) (c : Cmd), s.serves 0x40 c ∧ s.powerCode c = 0 ∧ s.expand c ≠ []) ∧ (∃ (s : State) (c : Cmd), s.serves 0x40 c ∧ s.powerCode c ≠ 0) ∧
    (∃ (s : State) (x : PwrCmd), s.pwr.cmd = some x ∧ (x.targets.map (·.1)).Nodup ∧ x.tripped = false) ∧
    (∃ (s : State) (x : PwrCmd), s.pwr.cmd = some x ∧ (x.targets.map (·.1)).Nodup ∧ x.tripped = true ∧ rated 19 = true) :=
  ⟨⟨queued (base .run) (powerCmd 1 0 1), powerCmd 1 0 1, by decide +kernel⟩, ⟨queued (base .run) (powerCmd 0 0 3), powerCmd 0 0 3, by decide +kernel⟩,
   ⟨powering false, _, rfl, by decide +kernel⟩, ⟨powering true, _, rfl, by decide +kernel⟩⟩

def regCmd (op off width v : Nat) : Cmd := cmd op 0 (leBytes 4 off ++ leBytes 1 width ++ zeros 3 ++ leBytes 8 v) []

theorem wit_Registers :
    (∃ (s : State) (c : Cmd), s.serves 3 c ∧ c.acted = none ∧ c.opnd 0 4 ≠ 0x30 ∧ ((s.begun c).readReg (c.opnd 0 4) (c.opnd 4 1)).isSome = true) ∧
    (∃ (s : State) (c : Cmd), s.serves 3 c ∧ c.acted = none ∧ c.opnd 0 4 ≠ 0x30 ∧ regAccess (c.opnd 0 4) (c.opnd 4 1) = none) ∧
    (∃ (s : State) (c : Cmd), s.serves 4 c ∧ c.acted = none ∧ c.opnd 0 4 ≠ 0x30 ∧
      ((s.begun c).writeReg (c.opnd 0 4) (c.opnd 4 1) (c.opnd 8 8) true).map (·.1) = some 0) ∧
    (∃ (s : State) (c : Cmd), s.serves 4 c ∧ c.acted = none ∧ c.opnd 0 4 ≠ 0x30 ∧
      ((s.begun c).writeReg (c.opnd 0 4) (c.opnd 4 1) (c.opnd 8 8) true).map (·.1) = some 0x60F) ∧
    (∃ (s : State) (c : Cmd), s.serves 4 c ∧ c.acted = none ∧ c.opnd 0 4 ≠ 0x30 ∧ regAccess (c.opnd 0 4) (c.opnd 4 1) = none) ∧
    (∃ (s : State) (c : Cmd), c.acted = none ∧ c.opnd 0 4 = 0x30 ∧ s.serves 3 c) ∧ (∃ (s : State) (c : Cmd), c.acted = none ∧ c.opnd 0 4 = 0x30 ∧ s.serves 4 c) ∧
    (∀ op ∈ [3, 4], ∀ r ∈ [0, 0x60F], let c := acted (regCmd op 0x500008 4 0) r 9
      (queued (base .run) c).serves op c ∧ c.acted = some (r, 9)) :=
  ⟨⟨queued (base .run) (regCmd 3 0x500008 4 0), regCmd 3 0x500008 4 0, by decide +kernel⟩, ⟨queued (base .run) (regCmd 3 0x500006 4 0), regCmd 3 0x500006 4 0, by decide +kernel⟩,
   ⟨queued (base .run) (regCmd 4 0x700018 4 9), regCmd 4 0x700018 4 9, by decide +kernel⟩,
   ⟨queued (base .run) (regCmd 4 0x700014 4 524289), regCmd 4 0x700014 4 524289, by decide +kernel⟩,
   ⟨queued (base .run) (regCmd 4 0xFFFFFC 4 0), regCmd 4 0xFFFFFC 4 0, by decide +kernel⟩,
   ⟨queued (base .run) (regCmd 3 0x30 4 0), regCmd 3 0x30 4 0, by decide +kernel⟩, ⟨queued (base .run) (regCmd 4 0x30 4 0), regCmd 4 0x30 4 0, by decide +kernel⟩,
   by decide +kernel⟩

def abortCmd : Cmd := cmd 1 0 (zeros 4 ++ leBytes 4 5) []
def aborting (o : AbortOut) (st : Hist) : State :=
  let s := queued (base .run) abortCmd
  { s with hif := { s.hif with aborts := [(3, o)], history := [{ ring := 0, tag := 5, stamp := 2, opcode := 0, left := 1, st := st }] } }
def abortHyps (s : State) (o : AbortOut) : Bool :=
  decide (s.front (· == 1) = some abortCmd) && decide (lookupBy (fun a => a.1 == abortCmd.stamp) s.hif.aborts = some (abortCmd.stamp, o))

theorem wit_Abort :
    (∀ o ∈ [AbortOut.notFound, .refused 0x113, .refused 0x114], abortHyps (aborting o .queued) o = true) ∧
    (∀ o ∈ [AbortOut.after 2, .first 2], abortHyps (aborting o (.done 9)) o = true ∧ abortHyps (aborting o .running) o = true ∧
      lookupBy (fun (x : Past) => x.stamp == 2) (aborting o (.done 9)).hif.history = some { ring := 0, tag := 5, stamp := 2, opcode := 0, left := 1, st := .done 9 } ∧
      lookupBy (fun (x : Past) => x.stamp == 2) (aborting o .running).hif.history = some { ring := 0, tag := 5, stamp := 2, opcode := 0, left := 1, st := .running }) := by
  decide +kernel

/-! ## Witnesses: records -/

def anyBytes (n : Nat) : State → Ctx → List Byte → Bool := fun _ _ b => b.length == n
def loopImage : Image := image 0 (arec 1 noTok noTok noTok 0 0 0x3000A ++ arec 2 noTok noTok noTok 9 0 0 ++ arec 7 noTok noTok noTok 40 0 0) [] [] [] [] []
def seqAt (a pc : Nat) (loops : List LoopFrame) : Seqr :=
  { agent := a, pc := pc, loops := loops, last := 0, steps := 0, waiting := false, ended := false, fill := none, late := [] }
def withSeqs (s : State) (qs : List Seqr) : State := s.setPart 0 { s.part 0 with seqs := qs }
def inLoop (iter : Nat) : State := withSeqs (running loopImage) [seqAt 0 1 [{ body := 1, iter := iter, count := 3, period := 10, base := 0 }]]

theorem wit_LoopsRepeat :
    (∃ (s : State) (c : Ctx) (q : Seqr), issueCtx s 1 0 0 = some c ∧ (s.part 0).seqr 0 = some q) ∧
    (∀ iter ∈ [1, 2], ∃ (s : State) (c : Ctx) (q : Seqr) (fr : LoopFrame), issueCtx s 2 0 0 = some c ∧ (s.part 0).seqr 0 = some q ∧
      (s.part 0).topLoop c = some fr ∧ fr.iter = iter ∧ fr.count = 3) := by
  refine ⟨⟨running loopImage, ctxAt (running loopImage) 1 0, seqAt 0 0 [], by decide +kernel⟩, fun iter h => ⟨inLoop iter, ctxAt (inLoop iter) 2 0,
    seqAt 0 1 [{ body := 1, iter := iter, count := 3, period := 10, base := 0 }], { body := 1, iter := iter, count := 3, period := 10, base := 0 }, ?_⟩⟩
  simp only [List.mem_cons, List.not_mem_nil, or_false] at h
  rcases h with rfl | rfl <;> decide +kernel

/-- One agent at a record without a descriptor, another at its side. -/
def bare (op tokIn arg : Nat) (others : List Seqr) : State :=
  withSeqs (running (image 0 (arec op noTok tokIn noTok 0 0 arg ++ arec 7 noTok noTok noTok 1 0 0) [] [] [] [] [])) (seqAt 0 0 [] :: others)

theorem wit_RendezvousAndEnd : ∀ op ∈ [3, 7], ∀ alone ∈ [true, false],
    let s := bare op noTok 0 (if alone then [] else [seqAt 1 0 []])
    let o := if op = 3 then exec (.rendezvous 0 0) s else exec (.endProg 0 0) s
    issueCtx s op 0 0 = some (ctxAt s op 0) ∧ (s.part 0).seqr 0 = some (seqAt 0 0 []) ∧
      nextHas o (fun t => (if op = 3 then (t.part 0).allWaiting else (t.part 0).allEnded) == alone) = true := by decide +kernel

theorem wit_StepAndNopRecords :
    (∃ (s : State) (c : Ctx) (q : Seqr), issueCtx s 6 0 0 = some c ∧ (s.part 0).seqr 0 = some q) ∧
    (∃ (s : State) (c : Ctx) (q : Seqr), issueCtx s 6 0 0 = some c ∧ (s.part 0).seqr 0 = some q ∧
      q.steps ≠ (s.part 0).seqs.foldl (fun m q => max m q.steps) 0) ∧
    (∃ (s u : State) (c : Ctx) (q : Seqr), Issues s u 0 0 0 c true none [] ∧ (s.part 0).seqr 0 = some q ∧ c.r.tokOut = 0xFFFF ∧ c.r.tokIn = 0xFFFF) :=
  ⟨⟨bare 6 noTok 0 [], ctxAt (bare 6 noTok 0 []) 6 0, seqAt 0 0 [], by decide +kernel⟩,
   ⟨bare 6 noTok 0 [{ seqAt 1 0 [] with steps := 1 }], ctxAt (bare 6 noTok 0 [{ seqAt 1 0 [] with steps := 1 }]) 6 0, seqAt 0 0 [], by decide +kernel⟩,
   ⟨bare 0 noTok 0 [], _, ctxAt (bare 0 noTok 0 []) 0 0, seqAt 0 0 [],
     ⟨by decide +kernel, rfl, by decide +kernel, rfl, rfl, by decide +kernel⟩, by decide +kernel⟩⟩

/-- A token entry: COUNT 1, both sides one agent. -/
def tokEntry (agent deadline : Nat) : List Byte := leBytes 4 agent ++ leBytes 4 agent ++ leBytes 1 1 ++ zeros 3 ++ leBytes 4 deadline
def recordState (op tokIn : Nat) (params : List Byte) (own : List Byte) : State :=
  running (image 0 (arec op (if own = [] then noTok else 0) tokIn noTok 0 0 0 ++ arec 7 noTok noTok noTok 1 0 0) params own (tokEntry 0 0x100) [] [])
def mmaDesc (opId galley m n k : Nat) : List Byte :=
  leBytes 4 opId ++ leBytes 1 0 ++ leBytes 1 0 ++ leBytes 1 galley ++ leBytes 1 0 ++ leBytes 2 m ++ leBytes 2 n ++ leBytes 4 k ++ leBytes 4 0 ++
    leBytes 4 0x10000 ++ leBytes 4 128 ++ leBytes 4 128 ++ zeros 32
def flying (agent action op : Nat) : Flight :=
  { forme := 1, agent := agent, action := action, opcode := op, opId := 0, held := [], tokOut := noTok, issue := 0, lanes := 9, ready := 9, pending := 0,
    fill := none, epoch := 0, detached := false }
def withFlight (s : State) (f : Flight) : State := s.setPart 0 { s.part 0 with flights := [f] }
def mmaBusy : State := withFlight (recordState 0x10 noTok (mmaDesc 1 0 1 1 32) []) (flying 0 5 0x12)

theorem wit_RecordChecksBreach :
    (∀ x ∈ engineRows 0 0, let s := recordState x.1 0 (zeros 64) []
      let c := ctxAt s x.1 0
      let u := s.toCycle 0 c.point
      issueCtx s x.1 0 0 = some c ∧ ((u.part 0).image.descOf c.bind c.r.arg x.2.1).isSome = true ∧ u.tokCheck c = .late true) ∧
    (∀ x ∈ engineRows 0 0, let s := recordState x.1 noTok [] []
      let c := ctxAt s x.1 0
      let u := s.toCycle 0 c.point
      issueCtx s x.1 0 0 = some c ∧ (u.part 0).image.descOf c.bind c.r.arg x.2.1 = none ∧ u.tokCheck c = .fine) ∧
    (∀ s ∈ [recordState 0x10 noTok (zeros 64) [], mmaBusy, recordState 0x10 noTok (mmaDesc 1 0 1 1 32) (ownEntry (resGalley 0 1) 0 0)],
      let c := ctxAt s 0x10 0
      let u := s.toCycle 0 c.point
      issueCtx s 0x10 0 0 = some c ∧ ((u.part 0).image.descOf c.bind c.r.arg 64).isSome = true ∧ u.tokCheck c = .fine) ∧
    (MmaDesc.parse (zeros 64)).valid = false ∧ (MmaDesc.parse (mmaDesc 1 0 1 1 32)).valid = true ∧
    (mmaBusy.part 0).lanesBusy 0 (mmaBusy.clkAt 0 0) = some (0, 5) ∧
    (let s := recordState 0x10 noTok (mmaDesc 1 0 1 1 32) (ownEntry (resGalley 0 1) 0 0)
     (s.part 0).lanesBusy 0 (s.clkAt 0 0) = none ∧ ownFail (s.part 0) (ctxAt s 0x10 0) 0 [resGalley 0 0] = some (resGalley 0 0, none)) := by
  decide +kernel

theorem wit_MmaComputesElements : ∀ x ∈ [(0, 0), (2, 0), (1, 1), (3, 1)], ∃ (s u : State) (c : Ctx) (b : List Byte),
    (u.part 0).image.descOf c.bind c.r.arg 64 = some b ∧
    Issues s u 0x10 0 0 c (MmaDesc.parse b).valid ((u.part 0).lanesBusy 0 (u.clkAt 0 c.point)) [resGalley (agNum 0) (MmaDesc.parse b).gal] ∧
    decide ((MmaDesc.parse b).m = 128 ∧ (MmaDesc.parse b).n = 192 ∧ (MmaDesc.parse b).acc = bit x.1 1) = true := by
  intro x h
  have h' : ∀ x ∈ [(0, 0), (2, 0), (1, 1), (3, 1)], meets (oneRecord 0 0x10 (mmaDesc 1 x.1 128 192 32) [resGalley 0 x.2]) 0x10 0 64
      (fun _ _ b => (MmaDesc.parse b).valid) (fun u c => (u.part 0).lanesBusy 0 (u.clkAt 0 c.point))
      (fun _ _ b => [resGalley (agNum 0) (MmaDesc.parse b).gal])
      (fun _ _ b => decide ((MmaDesc.parse b).m = 128 ∧ (MmaDesc.parse b).n = 192 ∧ (MmaDesc.parse b).acc = bit x.1 1)) = true := by decide +kernel
  exact ⟨_, meets_issues (h' x h)⟩

def drainDesc (dest : Nat) : List Byte :=
  leBytes 4 1 ++ leBytes 1 0 ++ leBytes 1 dest ++ leBytes 1 0 ++ leBytes 1 0 ++ leBytes 1 0 ++ leBytes 1 0 ++ leBytes 1 2 ++ leBytes 1 7 ++
    leBytes 4 (if dest = 1 then 1 else 0) ++ leBytes 8 0x1000 ++ leBytes 4 64 ++ leBytes 4 0 ++ zeros 16

theorem wit_TilesCombinedAndDrained :
    (∃ (s u : State) (c : Ctx) (b : List Byte), (u.part 0).image.descOf c.bind c.r.arg 64 = some b ∧
      Issues s u 0x12 0 0 c (MmaDesc.parse b).combineValid ((u.part 0).lanesBusy 0 (u.clkAt 0 c.point)) [resGalley (agNum 0) (MmaDesc.parse b).gal]) ∧
    (∀ dest ∈ [0, 1, 2], ∃ (s u : State) (c : Ctx) (b : List Byte), (u.part 0).image.descOf c.bind c.r.arg 48 = some b ∧
      Issues s u 0x11 0 0 c (u.drainValid 0 (DrainDesc.parse b)) none (u.drainNames 0 (agNum 0) (DrainDesc.parse b)) ∧
      decide ((DrainDesc.parse b).dest = dest ∧ (DrainDesc.parse b).kind = 0 ∧ isMx (DrainDesc.parse b).fmt = false ∧
        rowBytes (DrainDesc.parse b).fmt (DrainDesc.parse b).n ≤ (DrainDesc.parse b).stride) = true) := by
  constructor
  · have h : meets (oneRecord 0 0x12 (mmaDesc 1 0 2 2 0 |>.take 0x14 |> (· ++ zeros 4 ++ leBytes 4 128 ++ zeros 16 ++ leBytes 4 0x1000000 ++ zeros 16)) [resGalley 0 0]) 0x12 0 64
        (fun _ _ b => (MmaDesc.parse b).combineValid) (fun u c => (u.part 0).lanesBusy 0 (u.clkAt 0 c.point))
        (fun _ _ b => [resGalley (agNum 0) (MmaDesc.parse b).gal]) (fun _ _ _ => true) = true := by decide +kernel
    obtain ⟨u, c, b, hb, hi, -⟩ := meets_issues h
    exact ⟨_, u, c, b, hb, hi⟩
  · intro dest h
    have h' : ∀ dest ∈ [0, 1, 2], meets (oneRecord 0 0x11 (drainDesc dest) ((DrainDesc.parse (drainDesc dest)).resources 0 true)) 0x11 0 48
        (fun u _ b => u.drainValid 0 (DrainDesc.parse b)) (fun _ _ => none) (fun u _ b => u.drainNames 0 (agNum 0) (DrainDesc.parse b))
        (fun _ _ b => decide ((DrainDesc.parse b).dest = dest ∧ (DrainDesc.parse b).kind = 0 ∧ isMx (DrainDesc.parse b).fmt = false ∧
          rowBytes (DrainDesc.parse b).fmt (DrainDesc.parse b).n ≤ (DrainDesc.parse b).stride)) = true := by decide +kernel
    exact ⟨_, meets_issues (h' dest h)⟩

def vecDesc (op : Nat) : List Byte :=
  leBytes 4 1 ++ leBytes 1 0 ++ leBytes 1 (if op = 0x2D then 0x81 else 0x80) ++
    leBytes 1 (if op = 0x2D then 0x8B else if (VecDesc.parse (zeros 64)).usesY op then 0x80 else 0) ++ leBytes 1 0x80 ++ leBytes 2 2 ++ leBytes 2 7 ++
    leBytes 4 0 ++ leBytes 4 0x1000 ++ leBytes 4 0x2000 ++ leBytes 4 0x3000 ++ leBytes 4 0x4000 ++ leBytes 4 0x5000 ++ leBytes 4 0 ++ leBytes 4 32 ++
    leBytes 4 0x3F800000 ++ zeros 16
def vecState (op : Nat) : State := oneRecord 0 op (vecDesc op) ((VecDesc.parse (vecDesc op)).resources op 0 true)
def vecMeets (op : Nat) (more : State → Ctx → List Byte → Bool) : Bool :=
  meets (vecState op) op 0 64 (fun _ _ b => (VecDesc.parse b).valid op) (fun u _ => (u.part 0).vecBusy 0)
    (fun u _ b => u.vecNames 0 op (agNum 0) (VecDesc.parse b)) more
def plainOut (op : Nat) (d : VecDesc) : Bool := !isMx (d.outFmt op) && !perTensor (d.outFmt op) d.oScale && !writesStats op && op != 0x2E

theorem wit_VectorRowsRun : ∀ x ∈ vectorRows 0 0, ∃ (s u : State) (c : Ctx) (b : List Byte),
    (u.part 0).image.descOf c.bind c.r.arg 64 = some b ∧
    Issues s u x.1 0 0 c ((VecDesc.parse b).valid x.1) ((u.part 0).vecBusy 0) (u.vecNames 0 x.1 (agNum 0) (VecDesc.parse b)) ∧
    (plainOut x.1 (VecDesc.parse b) || writesStats x.1 || x.1 == 0x2E) = true := by
  intro x h
  have h' : ∀ x ∈ vectorRows 0 0, vecMeets x.1 (fun _ _ b => plainOut x.1 (VecDesc.parse b) || writesStats x.1 || x.1 == 0x2E) = true := by decide +kernel
  exact ⟨vecState x.1, meets_issues (h' x h)⟩

theorem wit_VectorResultStands : ∀ op ∈ [0x25, 0x28, 0x29], ∃ (s u : State) (c : Ctx) (b : List Byte),
    (u.part 0).image.descOf c.bind c.r.arg 64 = some b ∧
    Issues s u op 0 0 c ((VecDesc.parse b).valid op) ((u.part 0).vecBusy 0) (u.vecNames 0 op (agNum 0) (VecDesc.parse b)) ∧
    (let d := VecDesc.parse b
     writesStats op && (vecRow op d.func (fp32 d.const) ((u.issued c).vecRowAt 0 op d 1)).stats.isSome) = true := by
  intro op h
  have h' : ∀ op ∈ [0x25, 0x28, 0x29], vecMeets op (fun u c b => let d := VecDesc.parse b
      writesStats op && (vecRow op d.func (fp32 d.const) ((u.issued c).vecRowAt 0 op d 1)).stats.isSome) = true := by decide +kernel
  exact ⟨vecState op, meets_issues (h' op h)⟩

/-! ## Witnesses: streams, updates, attention, links -/

/-- A part in RUN with a cache set whose partition 0 stands at one record of an agent. -/
def cachedRecord (agent op slotState : Nat) (d : List Byte) (res : List Nat) : State :=
  cached ((oneRecord agent op d res).part 0) slotState
def coreOpnd (unit addr : Nat) : List Byte := leBytes 2 unit ++ zeros 2 ++ leBytes 4 addr ++ zeros 8
def streamDesc (sk dk rows bytes : Nat) (src dst : List Byte) : List Byte :=
  leBytes 4 1 ++ leBytes 1 0 ++ leBytes 1 0 ++ leBytes 1 sk ++ leBytes 1 dk ++ leBytes 4 rows ++ leBytes 4 bytes ++ src ++ dst ++ leBytes 4 64 ++
    leBytes 4 64 ++ leBytes 2 1 ++ leBytes 2 0 ++ leBytes 4 1
def pageOpnd : List Byte := leBytes 8 0x1000 ++ zeros 8
def copyDesc : List Byte := streamDesc 1 1 2 16 (coreOpnd 0 0) (coreOpnd 1 0x100)
def parkDesc : List Byte := streamDesc 9 2 1 262144 pageOpnd (leBytes 8 boardPageIn ++ zeros 8)
def unparkDesc : List Byte := streamDesc 9 0 1 262144 pageOpnd (zeros 16)
def descs : List (Nat × List Byte) := [(0x40, copyDesc), (0x41, parkDesc), (0x42, unparkDesc)]
def srcOf (u : State) (c : Ctx) (b : List Byte) : Opnd := opndOf (u.part 0).image c.bind c.iter (StreamDesc.parse b).srcKind (StreamDesc.parse b).src
def dstOf (u : State) (c : Ctx) (b : List Byte) : Opnd := opndOf (u.part 0).image c.bind c.iter (StreamDesc.parse b).dstKind (StreamDesc.parse b).dst
def streamState (x : Nat × List Byte) : State := cachedRecord 0x10000000 x.1 0 x.2 [resBank 0 0, resBank 1 0]

/-- A FROZEN partition whose one stream, a copy into the pipe of engine 3, waits for an action there. -/
def pipeHalt : State :=
  let s := streamState (0x40, copyDesc)
  let s := s.setPart 0 { s.part 0 with status := .frozen, frz := .stopped 256 }
  s.setRec 0 { haltedStream 3 with formeId := 1, desc := streamDesc 1 7 2 16 (coreOpnd 0 0) (leBytes 2 3 ++ zeros 14), kindOp := 0x40, length := 32 }

/-- The last clause of RESUME CONTINUE: a restarted stream that its pipe still stops. -/
theorem wit_ResumeContinueStillStopped : let s := queued pipeHalt (cmd 0x15 0 [] [])
    s.serves 0x15 (cmd 0x15 0 [] []) ∧ (s.part 0).status = .frozen ∧ (s.part 0).grace = none ∧ (s.part 0).causes.any Cause.final = false ∧
      (s.part 0).frz = .stopped 256 ∧ s.streamsOf 0 = [0] ∧ (s.srec 0).state = 2 ∧ s.streamCleared 0 (s.srec 0) = true ∧
      s.blockedAt 0 = some 3 := by decide +kernel

theorem streams_meet : ∀ x ∈ descs, let s := streamState x
    let c := ctxAt s x.1 0x10000000
    let u := s.toCycle 0 c.point
    (u.part 0).image.descOf c.bind c.r.arg 64 = some x.2 ∧ issueCtx s x.1 0 0x10000000 = some c ∧ u.tokCheck c = .fine ∧
      u.streamValid 0 0 x.1 (StreamDesc.parse x.2) (srcOf u c x.2) (dstOf u c x.2) = true ∧
      (lookupBy (fun f => f.agent == 0x10000000) (u.part 0).flights).map (fun f => ((0x10000000 : Nat), f.action)) = none ∧
      ownFail (u.part c.p) c 0 ((StreamDesc.parse x.2).resources (srcOf u c x.2) (dstOf u c x.2)) = none := by decide +kernel

theorem wit_StreamRecordsRun : ∀ x ∈ descs, ∃ (s u : State) (c : Ctx) (b : List Byte),
    (u.part 0).image.descOf c.bind c.r.arg 64 = some b ∧
    Issues s u x.1 0 0x10000000 c (u.streamValid 0 (agNum 0x10000000) x.1 (StreamDesc.parse b) (srcOf u c b) (dstOf u c b))
      ((lookupBy (fun f => f.agent == 0x10000000) (u.part 0).flights).map (fun f => (0x10000000, f.action)))
      ((StreamDesc.parse b).resources (srcOf u c b) (dstOf u c b)) := by
  intro x h
  obtain ⟨h1, h2, h3, h4, h5, h6⟩ := streams_meet x h
  exact ⟨streamState x, _, _, x.2, h1, h2, rfl, h3, h4, h5, h6⟩

/-- The state after the time of the record's issue has passed. -/
def issuing (s : State) (op : Nat) : State := s.toCycle 0 (ctxAt s op 0x10000000).point

theorem wit_StreamIssues : ∀ x ∈ descs, StreamIssues (streamState x) (issuing (streamState x) x.1) x.1 0 0 (ctxAt (streamState x) x.1 0x10000000) x.2
    (srcOf (issuing (streamState x) x.1) (ctxAt (streamState x) x.1 0x10000000) x.2)
    (dstOf (issuing (streamState x) x.1) (ctxAt (streamState x) x.1 0x10000000) x.2) := by
  intro x h
  obtain ⟨h1, h2, h3, h4, h5, h6⟩ := streams_meet x h
  exact ⟨h1, rfl, rfl, h2, rfl, h3, h4, h5, h6⟩

/-- With no stream record nothing waits. -/
theorem noWaiters_of {s : State} {e : Nat} (h : s.se.recs = []) : noWaiters s e := by simp [noWaiters, State.waitersOf, h]

/-- The copy of two rows of 16 bytes from core 0 to core 1. -/
theorem wit_CopyBetweenMemories : let s := streamState (0x40, copyDesc)
    let u := issuing s 0x40
    let c := ctxAt s 0x40 0x10000000
    let d := StreamDesc.parse copyDesc
    StreamIssues s u 0x40 0 0 c copyDesc (.core 0 0) (.core 1 0x100) ∧ d.transpose = false ∧ opndPlace (.core 0 0) = some (.core, coreAt 0 0) ∧
      opndPlace (.core 1 0x100) = some (.core, coreAt 1 0x100) ∧ noGuards u 0 ∧ noWaiters s 0 ∧ opndServed u 0 true (.core 0 0) d.srcStride d.rows d.rowBytes ∧
      opndServed u 0 false (.core 1 0x100) d.dstStride d.rows d.rowBytes ∧
      (∀ r k r' k', r < d.rows → k < d.rowBytes → r' < d.rows → k' < d.rowBytes →
        coreAt 0 0 + r * d.srcStride + k ≠ coreAt 1 0x100 + r' * d.dstStride + k') := by
  have h := wit_StreamIssues (0x40, copyDesc) (by simp [descs])
  have e : srcOf (issuing (streamState (0x40, copyDesc)) 0x40) (ctxAt (streamState (0x40, copyDesc)) 0x40 0x10000000) copyDesc = .core 0 0 ∧
      dstOf (issuing (streamState (0x40, copyDesc)) 0x40) (ctxAt (streamState (0x40, copyDesc)) 0x40 0x10000000) copyDesc = .core 1 0x100 := by
    decide +kernel
  rw [e.1, e.2] at h
  have n : ((issuing (streamState (0x40, copyDesc)) 0x40).part 0).flights = [] := by decide +kernel
  have d : (StreamDesc.parse copyDesc).rows = 2 ∧ (StreamDesc.parse copyDesc).rowBytes = 16 ∧ (StreamDesc.parse copyDesc).srcStride = 64 := by
    decide +kernel
  have a : coreAt 0 0 = 0 ∧ 2097152 ≤ coreAt 1 0x100 := by decide
  have idle : (streamState (0x40, copyDesc)).se.recs = [] := by decide +kernel
  refine ⟨h, by decide +kernel, rfl, rfl, ?_, noWaiters_of idle, fun _ _ _ _ => trivial, fun _ _ _ _ => trivial, ?_⟩
  · intro f hf
    rw [n] at hf
    cases hf
  · intro r k r' k' h1 h2 h3 h4
    rw [d.1] at h1
    rw [d.2.1] at h2
    rw [d.2.2, a.1]
    omega

/-- The one page-table entry of the cache set, at 0x4000, and a stream record short of a page's end by 64 bytes. -/
def pageState (word : Nat) : State :=
  let s := withDev (cached Part.init 1) 0x4000 (leBytes 8 word)
  s.setRec 0 { StreamRec.zero with state := 1, desc := parkDesc, kindOp := 0x41, length := 262144, position := 262080 }

def pageWords : List Nat := [0, mkPte false 0x40000, mkPte true boardPageIn]

/-- The table has one entry, whichever page the index names. -/
theorem entry_at {s u : State} (h : (u.cacheSetAt 0 0x1000).ng = 1 ∧
    (u.cacheSetAt 0 0x1000).cptEntry (s.cacheEng (u.cacheSetAt 0 0x1000) 0) 0 0 0 = 0x4000) : s.pageEntry (u.cacheSetAt 0 0x1000) 0 0 0 = (0, 0x4000) := by
  simp only [State.pageEntry, h.1, Nat.mod_one, Nat.zero_mod, Nat.zero_mul, Nat.zero_add, h.2]

theorem pageEntry_at (w : Nat) (hw : w ∈ pageWords) : (pageState w).pageEntry ((pageState w).cacheSetAt 0 0x1000) 0 0 0 = (0, 0x4000) := by
  have h : ∀ w ∈ pageWords, ((pageState w).cacheSetAt 0 0x1000).ng = 1 ∧
      ((pageState w).cacheSetAt 0 0x1000).cptEntry ((pageState w).cacheEng ((pageState w).cacheSetAt 0 0x1000) 0) 0 0 0 = 0x4000 := by decide +kernel
  exact entry_at (h w hw)

theorem pageMoves : ((pageState (mkPte false 0x40000)).movePage 0 0 (.dev (pteAddr (mkPte false 0x40000))) (.dev boardPageIn)).1 = .all := by
  decide +kernel

/-- A page to park, one that an UNPARK finds parked, and no page at all. -/
theorem wit_ParkUnpark : (∀ w ∈ pageWords, ∃ (s : State) (index : Nat), s.fwRead (s.pageEntry (s.cacheSetAt 0 0x1000) 0 0 index).2 8 = w) ∧
    (∃ t, (pageState (mkPte false 0x40000)).movePage 0 0 (.dev (pteAddr (mkPte false 0x40000))) (.dev boardPageIn) = (.all, t)) ∧
    (pteValid (mkPte false 0x40000) = true ∧ pteParked (mkPte false 0x40000) = false) ∧ pteParked (mkPte true boardPageIn) = true ∧
    pteValid 0 = false := by
  refine ⟨fun w hw => ⟨pageState w, 0, ?_⟩, ⟨_, Prod.ext pageMoves rfl⟩, by decide +kernel⟩
  rw [pageEntry_at w hw]
  have h : ∀ w ∈ pageWords, (pageState w).fwRead 0x4000 8 = w := by decide +kernel
  exact h w hw

/-- A page of the stack to park, and a parked page with a page of the ring to move back to. -/
def parkReady : State := withDev (streamState (0x41, parkDesc)) 0x4000 (leBytes 8 (mkPte false 0x40000))
def unparkReady : State :=
  withDev (withDev (withDev (streamState (0x42, unparkDesc)) 0x4000 (leBytes 8 (mkPte true boardPageIn))) 0x105C (leBytes 4 1)) 0x5000 (leBytes 8 0x40000)

theorem access_stack {u : State} (h : bit (u.lay 0).stackSet 0 = true ∧ (u.lay 0).sLo = 0 ∧ (u.lay 0).sHi = 16 ∧ u.stackServed 0 = true) {a : Nat}
    (ha : a < 16 * pageBytes) : u.access 0 a = .ok := by
  have e : u.place a = .stack 0 a := by
    unfold pageBytes at ha
    have h1 : a < stackTop := by unfold stackTop; omega
    have h2 : a / 2147483648 = 0 := by omega
    have h3 : a % 2147483648 = a := by omega
    simp only [State.place, h1, if_true, h2, h3]
  simp [State.access, e, h, ha]

theorem access_board {u : State} (h : bit (u.lay 0).board 0 = true ∧ (u.lay 0).bLo = 64 ∧ (u.lay 0).bHi = 128 ∧ u.boardServed 0 = true ∧
    u.cap = 6442450944 ∧ boardPageIn + pageBytes ≤ u.boardTop ∧ (u.pteRaw 64).getLsbD 63 = true) {k : Nat} (hk : k < pageBytes) : u.access 0 (boardPageIn + k) = .ok := by
  obtain ⟨h1, h2, h3, h4, h5, h6, h7⟩ := h
  have pb : pageBytes = 2097152 := rfl
  have bb : boardBase = 1099511627776 := rfl
  have bp : boardPageIn = 1099645845504 := rfl
  have st : stackTop = 549755813888 := rfl
  have hb : hostBase = 72057594037927936 := rfl
  rw [pb] at hk
  have e : u.place (boardPageIn + k) = .board 0 (64 * pageBytes + k) := by
    have a1 : ¬ boardPageIn + k < stackTop := by rw [bp, st]; omega
    have a2 : boardBase ≤ boardPageIn + k := by rw [bp, bb]; omega
    have a3 : boardPageIn + k < u.boardTop := by omega
    have a4 : (boardPageIn + k - boardBase) / 6442450944 = 0 := by rw [bp, bb]; omega
    have a5 : (boardPageIn + k - boardBase) % 6442450944 = 64 * pageBytes + k := by rw [bp, bb, pb]; omega
    simp only [State.place, a1, if_false, a2, a3, decide_true, Bool.and_self, if_true, h5, a4, a5]
  have p : u.pagePresent (boardPageIn + k) = true := by
    have b : boardPage (boardPageIn + k) = 64 := by rw [boardPage, bp, bb, pb]; omega
    have l : ¬ hostBase ≤ boardPageIn + k := by rw [bp, hb]; omega
    simpa only [State.pagePresent, pageKey, l, if_false, b] using h7
  have l1 : 64 * pageBytes + k < 128 * pageBytes := by omega
  simp [State.access, e, h1, h2, h3, h4, p, l1]

theorem wit_ParkUnparkMove :
    (∃ (s u : State) (c : Ctx), StreamIssues s u 0x41 0 0 c parkDesc (.page 0x1000 0 0 0) (.dev boardPageIn) ∧ noGuards u 0 ∧
      (let wd := s.fwRead (s.pageEntry (u.cacheSetAt 0 0x1000) 0 0 0).2 8
       pteValid wd = true ∧ pteParked wd = false ∧ pteAddr wd < stackTop ∧ opndServed u 0 true (.dev (pteAddr wd)) 0 1 262144) ∧
      opndServed u 0 false (.dev boardPageIn) 0 1 262144) ∧
    (∃ (s u : State) (c : Ctx) (pg : Nat) (v : State), StreamIssues s u 0x42 0 0 c unparkDesc (.page 0x1000 0 0 0) .none ∧ noGuards u 0 ∧
      (let ie := s.pageEntry (u.cacheSetAt 0 0x1000) 0 0 0
       let wd := s.fwRead ie.2 8
       pteValid wd = true ∧ pteParked wd = true ∧ s.takePage (s.cacheEng (u.cacheSetAt 0 0x1000) ie.1) = some (pg, v) ∧ pteAddr pg < stackTop ∧
        opndServed u 0 true (.dev (pteAddr wd)) 0 1 262144 ∧ opndServed u 0 false (.dev (pteAddr pg)) 0 1 262144)) := by
  have m : ∀ x ∈ [(parkReady, 0x41, parkDesc, Opnd.dev boardPageIn), (unparkReady, 0x42, unparkDesc, Opnd.none)],
      let c := ctxAt x.1 x.2.1 0x10000000
      let u := issuing x.1 x.2.1
      ((u.part 0).image.descOf c.bind c.r.arg 64 = some x.2.2.1 ∧ srcOf u c x.2.2.1 = .page 0x1000 0 0 0 ∧ dstOf u c x.2.2.1 = x.2.2.2 ∧
        issueCtx x.1 x.2.1 0 0x10000000 = some c ∧ u.tokCheck c = .fine ∧
        u.streamValid 0 0 x.2.1 (StreamDesc.parse x.2.2.1) (.page 0x1000 0 0 0) x.2.2.2 = true ∧
        (lookupBy (fun f => f.agent == 0x10000000) (u.part 0).flights).map (fun f => ((0x10000000 : Nat), f.action)) = none ∧
        ownFail (u.part c.p) c 0 ((StreamDesc.parse x.2.2.1).resources (.page 0x1000 0 0 0) x.2.2.2) = none) ∧
      (u.part 0).flights = [] ∧
      (bit (u.lay 0).stackSet 0 = true ∧ (u.lay 0).sLo = 0 ∧ (u.lay 0).sHi = 16 ∧ u.stackServed 0 = true) ∧
      (bit (u.lay 0).board 0 = true ∧ (u.lay 0).bLo = 64 ∧ (u.lay 0).bHi = 128 ∧ u.boardServed 0 = true ∧
        u.cap = 6442450944 ∧ boardPageIn + pageBytes ≤ u.boardTop ∧ (u.pteRaw 64).getLsbD 63 = true) ∧
      ((u.cacheSetAt 0 0x1000).ng = 1 ∧ (u.cacheSetAt 0 0x1000).cptEntry (x.1.cacheEng (u.cacheSetAt 0 0x1000) 0) 0 0 0 = 0x4000) := by decide +kernel
  have sv : ∀ {u : State} {b : Bool}, (bit (u.lay 0).stackSet 0 = true ∧ (u.lay 0).sLo = 0 ∧ (u.lay 0).sHi = 16 ∧ u.stackServed 0 = true) →
      opndServed u 0 b (.dev 0x40000) 0 1 262144 := by
    intro u b h r k hr hk
    have hr' : r = 0 := by omega
    subst hr'
    exact ⟨by have hb : hostBase = 72057594037927936 := rfl
              rw [hb]; omega, access_stack h (by unfold pageBytes; omega)⟩
  have bv : ∀ {u : State} {b : Bool}, (bit (u.lay 0).board 0 = true ∧ (u.lay 0).bLo = 64 ∧ (u.lay 0).bHi = 128 ∧ u.boardServed 0 = true ∧
      u.cap = 6442450944 ∧ boardPageIn + pageBytes ≤ u.boardTop ∧ (u.pteRaw 64).getLsbD 63 = true) → opndServed u 0 b (.dev boardPageIn) 0 1 262144 := by
    intro u b h r k hr hk
    have hr' : r = 0 := by omega
    subst hr'
    have e : boardPageIn + 0 * 0 + k = boardPageIn + k := by omega
    have bp : boardPageIn = 1099645845504 := rfl
    have hb : hostBase = 72057594037927936 := rfl
    exact ⟨by rw [e, bp, hb]; omega, by rw [e]; exact access_board h (by unfold pageBytes; omega)⟩
  obtain ⟨⟨a1, a2, a3, a4, a5, a6, a7, a8⟩, a9, as, ab, ae⟩ := m _ (List.mem_cons_self ..)
  obtain ⟨⟨b1, b2, b3, b4, b5, b6, b7, b8⟩, b9, bs, bb, be⟩ := m _ (List.mem_cons_of_mem _ (List.mem_cons_self ..))
  have wa : pteAddr (parkReady.fwRead 0x4000 8) = 0x40000 ∧ pteValid (parkReady.fwRead 0x4000 8) = true ∧ pteParked (parkReady.fwRead 0x4000 8) = false := by
    decide +kernel
  have wb : pteAddr (unparkReady.fwRead 0x4000 8) = boardPageIn ∧ pteValid (unparkReady.fwRead 0x4000 8) = true ∧
      pteParked (unparkReady.fwRead 0x4000 8) = true ∧
      (unparkReady.takePage (unparkReady.cacheEng ((issuing unparkReady 0x42).cacheSetAt 0 0x1000) 0)).map (·.1) = some 0x40000 := by decide +kernel
  refine ⟨⟨parkReady, issuing parkReady 0x41, ctxAt parkReady 0x41 0x10000000, ⟨a1, a2, a3, a4, rfl, a5, a6, a7, a8⟩, ?_, ?_, bv ab⟩, ?_⟩
  · intro f hf
    rw [a9] at hf
    cases hf
  · rw [entry_at ae]
    exact ⟨wa.2.1, wa.2.2, by rw [wa.1]; decide, by rw [wa.1]; exact sv as⟩
  · obtain ⟨⟨pg, v⟩, hv, hp⟩ := Option.map_eq_some_iff.mp wb.2.2.2
    have hp' : pg = 0x40000 := hp
    subst hp'
    refine ⟨unparkReady, issuing unparkReady 0x42, ctxAt unparkReady 0x42 0x10000000, 0x40000, v, ⟨b1, b2, b3, b4, rfl, b5, b6, b7, b8⟩, ?_, ?_⟩
    · intro f hf
      rw [b9] at hf
      cases hf
    · rw [entry_at be]
      exact ⟨wb.2.1, wb.2.2.1, hv, by decide, by rw [wb.1]; exact bv bb, sv bs⟩

def updDesc (sel : Nat) (w r m v g aux : Nat) : List Byte :=
  leBytes 4 1 ++ leBytes 1 0 ++ leBytes 1 0 ++ leBytes 1 sel ++ leBytes 1 0 ++ leBytes 4 32 ++ zeros 4 ++ leBytes 8 w ++ leBytes 8 r ++ leBytes 8 m ++
    leBytes 8 v ++ leBytes 8 g ++ leBytes 8 aux
def updDescs : List (Nat × List Byte) :=
  [(0x60, updDesc 0 0 0 0 0 0x10000 0), (0x61, updDesc 0 0 0 0 0 0x10000 0), (0x62, updDesc 0 0x10000 0x20000 0x30000 0x40000 0x50000 0),
   (0x63, updDesc 1 0x10000 0 0 0 0 0x20000)]
def updState (x : Nat × List Byte) : State := oneRecord 0x20000000 x.1 x.2 ((UpdDesc.parse x.2).resources x.1 0)
/-- The same with a channel update unit and a page that is not present. -/
def updAbsent : State :=
  let s := oneRecord 0x30000000 0x60 (updDesc 0 0 0 0 0 boardPageIn 0) [resCuu 0]
  s.setPte 64 0
def updMeets (s : State) (op a : Nat) (more : State → Ctx → List Byte → Bool) : Bool :=
  meets s op a 64 (fun u _ b => u.updValid 0 a op (UpdDesc.parse b)) (fun _ _ => none) (fun _ _ b => (UpdDesc.parse b).resources op (engOfAgent a)) more

theorem wit_UpdateRowsRun : (∀ x ∈ updDescs, ∃ (s u : State) (c : Ctx) (b : List Byte), (u.part 0).image.descOf c.bind c.r.arg 64 = some b ∧
      Issues s u x.1 0 0x20000000 c (u.updValid 0 0x20000000 x.1 (UpdDesc.parse b)) none ((UpdDesc.parse b).resources x.1 (engOfAgent 0x20000000)) ∧
      (!((UpdDesc.parse b).named x.1).any (fun y => (cut pageBytes y.1 y.2).any (fun z => u.access 0 z.1 = .absent))) = true) ∧
    (∃ (s u : State) (c : Ctx) (b : List Byte), (u.part 0).image.descOf c.bind c.r.arg 64 = some b ∧
      Issues s u 0x60 0 0x30000000 c (u.updValid 0 0x30000000 0x60 (UpdDesc.parse b)) none ((UpdDesc.parse b).resources 0x60 (engOfAgent 0x30000000)) ∧
      (((UpdDesc.parse b).named 0x60).any (fun y => (cut pageBytes y.1 y.2).any (fun z => u.access 0 z.1 = .absent))) = true) := by
  constructor
  · intro x h
    have h' : ∀ x ∈ updDescs, updMeets (updState x) x.1 0x20000000
        (fun u _ b => !((UpdDesc.parse b).named x.1).any (fun y => (cut pageBytes y.1 y.2).any (fun z => u.access 0 z.1 = .absent))) = true := by decide +kernel
    exact ⟨_, meets_issues (h' x h)⟩
  · have h : updMeets updAbsent 0x60 0x30000000
        (fun u _ b => ((UpdDesc.parse b).named 0x60).any (fun y => (cut pageBytes y.1 y.2).any (fun z => u.access 0 z.1 = .absent))) = true := by decide +kernel
    exact ⟨_, meets_issues h⟩

theorem wit_RclearClears : let s := updState (0x60, updDesc 0 0 0 0 0 0x10000 0)
    let u := s.toCycle 0 (ctxAt s 0x60 0x20000000).point
    (∀ k, k < 6 * 32 → u.access 0 (0x10000 + k) = .ok) ∧ (s.part 0).flights = [] := by decide +kernel

def attDesc : List Byte :=
  leBytes 4 1 ++ leBytes 1 1 ++ leBytes 1 1 ++ zeros 2 ++ zeros 4 ++ leBytes 2 1 ++ zeros 2 ++ leBytes 4 0x3F800000 ++ leBytes 4 0 ++ leBytes 8 0x1000 ++
    leBytes 8 0x10000 ++ zeros 24
def mergeDesc : List Byte :=
  leBytes 4 1 ++ leBytes 1 0 ++ leBytes 1 1 ++ zeros 2 ++ zeros 4 ++ leBytes 2 1 ++ zeros 2 ++ leBytes 8 0x1000 ++ leBytes 8 0x10000 ++ leBytes 8 0x20000 ++
    zeros 24

theorem wit_AttentionRowsRun :
    (∃ (s u : State) (c : Ctx) (b : List Byte), (u.part 0).image.descOf c.bind c.r.arg 64 = some b ∧
      Issues s u 0x70 0 0x20000000 c (u.attValid 0 0x20000000 (AttDesc.parse b)) none [resEngine (engOfAgent 0x20000000)]) ∧
    (∃ (s u : State) (c : Ctx) (b : List Byte), (u.part 0).image.descOf c.bind c.r.arg 64 = some b ∧
      Issues s u 0x71 0 0x20000000 c (u.mergeValid 0 0x20000000 (MergeDesc.parse b)) none [resEngine (engOfAgent 0x20000000)]) := by
  constructor
  · have h : meets (cachedRecord 0x20000000 0x70 1 attDesc [resNme 0]) 0x70 0x20000000 64 (fun u _ b => u.attValid 0 0x20000000 (AttDesc.parse b))
        (fun _ _ => none) (fun _ _ _ => [resEngine (engOfAgent 0x20000000)]) (fun _ _ _ => true) = true := by decide +kernel
    obtain ⟨u, c, b, hb, hi, -⟩ := meets_issues h
    exact ⟨_, u, c, b, hb, hi⟩
  · have h : meets (cachedRecord 0x20000000 0x71 1 mergeDesc [resNme 0]) 0x71 0x20000000 64
        (fun u _ b => u.mergeValid 0 0x20000000 (MergeDesc.parse b)) (fun _ _ => none) (fun _ _ _ => [resEngine (engOfAgent 0x20000000)])
        (fun _ _ _ => true) = true := by decide +kernel
    obtain ⟨u, c, b, hb, hi, -⟩ := meets_issues h
    exact ⟨_, u, c, b, hb, hi⟩

/-- A rule that skips its step, and one element of each other kind. -/
theorem wit_UpdateElements : ∃ sc : StepScalars, updSkip sc = true := by
  exact ⟨⟨0, 0, 0, 0, 0, 0, 0, 0, 0, 0, 0, 0, 0, 0⟩, by decide +kernel⟩

def linkDesc : List Byte :=
  leBytes 4 1 ++ leBytes 1 5 ++ leBytes 1 0 ++ leBytes 1 1 ++ leBytes 1 0 ++ leBytes 2 9 ++ zeros 2 ++ leBytes 4 16 ++ leBytes 8 0x8000000000000000 ++ zeros 8
def collDesc : List Byte :=
  leBytes 4 1 ++ leBytes 1 0 ++ leBytes 1 0 ++ leBytes 1 5 ++ leBytes 1 0 ++ leBytes 2 2 ++ leBytes 2 0 ++ leBytes 1 0 ++ leBytes 1 1 ++ zeros 2 ++
    leBytes 8 0x8000000000000000 ++ leBytes 8 0x8000000000000100 ++ leBytes 8 0x8000000000000200 ++ zeros 24
def collTableBytes : List Byte := leBytes 2 0 ++ zeros 2 ++ leBytes 4 4 ++ leBytes 2 1 ++ zeros 2 ++ leBytes 4 4
def linkState (op : Nat) : State :=
  let s := oneRecord 0x40000000 op (if op = 0x82 then collDesc else linkDesc) [resBank 0 0]
  { s with data := { s.data with core := writeBytes s.data.core (coreAt 0 0) collTableBytes } }

theorem wit_LinkRecordsBegin :
    (∀ op ∈ [0x80, 0x81], ∃ (s u : State) (c : Ctx) (b : List Byte), s.lnk.grants = [] ∧ (u.part 0).image.descOf c.bind c.r.arg 32 = some b ∧
      Issues s u op 0 0x40000000 c (u.linkValid 0 (agNum 0x40000000) (LinkDesc.parse b) && (u.part 0).linkRoom 0x40000000) none
        (dedup (refRes (LinkDesc.parse b).buf (LinkDesc.parse b).length))) ∧
    (∃ (s u : State) (c : Ctx) (b : List Byte), s.lnk.grants = [] ∧ (u.part 0).image.descOf c.bind c.r.arg 64 = some b ∧
      (let d := CollDesc.parse b
       let tb := tableOf d.n (u.collTable c d)
       Issues s u 0x82 0 0x40000000 c (agNum 0x40000000 < 18 && u.collValid c d && (u.part 0).linkRoom 0x40000000) none
        (dedup (refRes d.table (8 * d.n) ++ refRes d.src (d.srcBytes tb) ++ refRes d.dst (d.dstBytes tb))))) := by
  constructor
  · intro op h
    have h' : ∀ op ∈ [0x80, 0x81], meets (linkState op) op 0x40000000 32
        (fun u _ b => u.linkValid 0 (agNum 0x40000000) (LinkDesc.parse b) && (u.part 0).linkRoom 0x40000000) (fun _ _ => none)
        (fun _ _ b => dedup (refRes (LinkDesc.parse b).buf (LinkDesc.parse b).length)) (fun _ _ _ => true) = true := by decide +kernel
    obtain ⟨u, c, b, hb, hi, -⟩ := meets_issues (h' op h)
    exact ⟨_, u, c, b, rfl, hb, hi⟩
  · let s := linkState 0x82
    let c := ctxAt s 0x82 0x40000000
    exact ⟨s, s.toCycle 0 c.point, c, collDesc, rfl, by decide +kernel, by decide +kernel, rfl, by decide +kernel, by decide +kernel, rfl, by decide +kernel⟩

/-! ## Witnesses: completions, deadlines, freezes -/

def doneMsg : Msg :=
  { id := 0, seq := 0, partition := 0, port := 0, action := 0, issue := 0, coll := false, isSend := true, link := 0, owner := 0, channel := 0, routed := false, peer := 0,
    length := 16, sent := 16, granted := 16, unackd := 0, ended := false, buf := 0, data := [], check := 0, written := 0 }
/-- A SEND in flight of whose 16 bytes some have been sent. -/
def linkFlight (sent : Nat) : State :=
  let s := withFlight (running image1) (flying 0x40000000 0 0x80)
  { s with lnk := { s.lnk with msgs := [{ doneMsg with sent := sent }] } }

/-- A flit from the quad of router 0x59 to the last stack link there, output 7 (Table 02-3). -/
def flit : Flit :=
  { partition := 0, source := 0, input := 4, target := .edge 0x59 2, bridge := 0, tree := [], header := zeros 16, payload := zeros 128
    poison := 0, fault := .none }
/-- An action in flight whose agent has sent `n` flits into one path. -/
def behindFifo (n : Nat) : State := (withFlight (running image1) (flying 0 0 0x10)).setLink (0x59 * 16 + 7) (List.replicate n { flit := flit, left := 0 })

/-- A request that a weir has refused once. -/
def req (agent tokens : Nat) : WeirReq := { tokens := tokens, agent := agent, action := 0, qmax := 0, write := false, offered := true, rest := 0, id := 0 }
/-- What an action waits for besides its flits, as the statement on ACTION_COMPLETE names it. -/
def waitsFor (s : State) (a : Nat) (f : Flight) : Option Nat := if agKind a = 3 then s.weirsLeft a else if f.ready < never then some f.ready else none
/-- An action of a channel update unit whose request stands at a weir; one that admits none, or sixteen tokens a period. -/
def unitFlight (weir : Nat) : State :=
  (({ withFlight (running image1) (flying 0x30000000 0 0x60) with
      mem := { (base .run).mem with weir := [(weirKey 0x100 0, weir)] } } : State).putQueue (weirKey 0x100 0) [req 0x30000000 1])

/-- At a weir with cells, at one with none, and an action with no end. -/
theorem wit_ActionsWait :
    (∃ w, waitsFor (unitFlight 0x00100100) 0x30000000 (flying 0x30000000 0 0x60) = some w) ∧
    waitsFor (unitFlight 0) 0x30000000 (flying 0x30000000 0 0x60) = none ∧ waitsFor (running image1) 0 { flying 0 0 0x10 with ready := never } = none ∧
    waitsFor (running image1) 0 (flying 0 0 0x10) = some 9 := by
  refine ⟨Option.isSome_iff_exists.mp ?_, ?_⟩ <;> decide +kernel

theorem wit_ActionsComplete :
    (∀ held ∈ [true, false], ∃ (s : State) (f : Flight), agKind 0 ≠ 1 ∧ lookupBy (fun f => f.agent == 0 && f.action == 0) (s.part 0).flights = some f ∧
      f.opcode < 0x80 ∧ f.pending = 0 ∧ f.tokOut = 0xFFFF ∧ waitsFor s 0 f = some 9 ∧ (s.toClk (max 9 f.ready)).flitHeld 0 0 = held) ∧
    (∃ (s : State) (f : Flight), agKind 0x10000000 = 1 ∧ lookupBy (fun f => f.agent == 0x10000000 && f.action == 0) (s.part 0).flights = some f ∧
      f.opcode < 0x80 ∧ f.pending = 0 ∧ f.tokOut = 0xFFFF ∧ f.agent = 0x10000000 ∧ (s.srec (agNum 0x10000000)).state = 1 ∧
      (s.srec (agNum 0x10000000)).length ≤ (s.srec (agNum 0x10000000)).position ∧ s.streamLeft 0x10000000 = some 0 ∧
      (s.toClk (max 0 f.ready)).flitHeld 0 0x10000000 = false) ∧
    (∃ (s m : State) (f : Flight), (s.part 0).flights = [] ++ f :: [] ∧ f.agent = 0x40000000 ∧ f.action = 0 ∧ 0x80 ≤ f.opcode ∧
      s.linkSettled (0, agNum 0x40000000, 0, f.issue) = some m ∧ m.linkDone (0, agNum 0x40000000, 0, f.issue) = true ∧ (m.part 0).wdLeft ≠ some 0) ∧
    (∃ (s m : State) (f : Flight), (s.part 0).flights = [] ++ f :: [] ∧ f.agent = 0x40000000 ∧ f.action = 0 ∧ 0x80 ≤ f.opcode ∧
      s.linkSettled (0, agNum 0x40000000, 0, f.issue) = some m ∧ m.linkDone (0, agNum 0x40000000, 0, f.issue) = false) :=
  ⟨fun held h => ⟨behindFifo (if held then 10 else 8), flying 0 0 0x10, by revert held; decide +kernel⟩,
   ⟨(withFlight (running image1) (flying 0x10000000 0 0x40)).setRec 0 { StreamRec.zero with state := 1, length := 16, position := 16 },
     flying 0x10000000 0 0x40, by decide +kernel⟩,
   ⟨linkFlight 16, _, flying 0x40000000 0 0x80, by decide +kernel, rfl, rfl, by decide, rfl, by decide +kernel, by decide +kernel⟩,
   ⟨linkFlight 8, _, flying 0x40000000 0 0x80, by decide +kernel, rfl, rfl, by decide, rfl, by decide +kernel⟩⟩

def waitingToken : State := recordState 0x10 0 [] []
def withFrz (f : Frz) : State := let s := running image1
  s.setPart 0 { s.part 0 with frz := f }

theorem wit_DeadlinesBreach :
    (∀ n ∈ [0, 1], ∃ s : State, tget 0 (s.part 0).toks 0 = n ∧ ((s.part 0).image.token 0).count = 1) ∧
    (∃ (s : State) (c : Ctx) (k b : Nat) (q : Seqr), 0 < (s.part 0).image.tokens ∧ (s.part 0).ctx 0 ((s.part 0).image.token 0).consumer = some c ∧
      (s.part 0).awaits c 0 = some (k, b) ∧
      (let w := (s.part 0).image.token 0
       s.openAt 0 ((b + bits w.deadline 31 8) * 256 + bits w.deadline 7 0) = true ∧
        (s.part 0).seqr w.consumer = some q ∧ q.late.contains 0 = false ∧ tget 0 (s.part 0).toks 0 < w.count)) ∧
    (∃ s : State, (s.part 0).slotLimited = false ∧ s.openAt 0 (2 ^ 48) = true) := by
  refine ⟨fun n h => ⟨waitingToken.setPart 0 { waitingToken.part 0 with toks := if n = 0 then [] else [(0, 1)] }, ?_⟩,
    ⟨waitingToken, (waitingToken.part 0).ctx 0 0 |>.getD (ctxAt waitingToken 0x10 0), 0, 0, seqAt 0 0 [], by decide +kernel⟩,
    ⟨running image1, by decide +kernel⟩⟩
  simp only [List.mem_cons, List.not_mem_nil, or_false] at h
  rcases h with rfl | rfl <;> decide +kernel

/-- A partition that thaws with a stream that has to reach byte 16 of its copy. -/
def thawingStream : State :=
  let s := streamState (0x40, copyDesc)
  let s := s.setPart 0 { s.part 0 with frz := .thawing 256, flights := [flying 0x10000000 0 0x40] }
  s.setRec 0 { StreamRec.zero with state := 1, restarted := true, thawing := true, dueAt := 16, length := 32, desc := copyDesc, kindOp := 0x40, formeId := 1 }

theorem wit_PartitionStopsAndResumes :
    (∃ (s : State) (b : Nat), (s.part 0).frz = .pending b ∧ (s.part 0).status = .running) ∧
    (∃ (s : State) (b : Nat), (s.part 0).frz = .stopped b ∧ (s.part 0).status = .running ∧ (∀ f ∈ (s.part 0).flights, s.settled f = true) ∧
      (∀ n ∈ (s.part 0).nans, n.due ≤ s.clk)) ∧
    (∃ (s : State) (b : Nat), (s.part (s.srec 0).partition).frz = .thawing b ∧ (s.part (s.srec 0).partition).status = .running ∧
      (s.srec 0).state = 1 ∧ (s.srec 0).reached = false ∧ ((s.runStream 0 (s.part (s.srec 0).partition).cycle).srec 0).reached = true) ∧
    (∀ cs ∈ [[], [Cause.breach]], ∃ (s : State) (b : Nat), (s.part 0).status = .running ∧ (s.part 0).frz = .thawing b ∧ s.streamsOf 0 = [0] ∧
      (∀ e ∈ s.streamsOf 0, (s.srec e).reached = true) ∧ (s.part 0).causes = cs) :=
  ⟨⟨withFrz (.pending 256), 256, by decide +kernel⟩, ⟨withFrz (.stopped 256), 256, by decide +kernel⟩, ⟨thawingStream, 256, by decide +kernel⟩,
   fun cs h => ⟨(thawingStream.setRec 0 { thawingStream.srec 0 with position := 16 }).setPart 0 { thawingStream.part 0 with causes := cs }, 256, by
     have h' : ∀ cs ∈ [[], [Cause.breach]], let s : State := (thawingStream.setRec 0 { thawingStream.srec 0 with position := 16 }).setPart 0 ({ thawingStream.part 0 with causes := cs })
         (s.part 0).status = .running ∧ (s.part 0).frz = .thawing 256 ∧ s.streamsOf 0 = [0] ∧
           (∀ e ∈ s.streamsOf 0, (s.srec e).reached = true) ∧ (s.part 0).causes = cs := by decide +kernel
     exact h' cs h⟩⟩

/-! ## Witnesses: rendezvous, ends of runs, fill items -/

def withX (m : Image) (f : Part → Part) : State := let s := running m
  s.setPart 0 (f (s.part 0))
def endRec : List Byte := arec 7 noTok noTok noTok 0 0 0
/-- A forme that stands at a RENDEZVOUS of port 0 and one arrival. -/
def rvImage : Image := image 0 (arec 3 noTok noTok noTok 0 0 0 ++ endRec) [] [] [] (leBytes 4 1 ++ leBytes 2 1 ++ zeros 10) []
def atRv (arrivals : Tab Nat) (x : Part) : Part :=
  { x with seqs := [{ seqAt 0 0 [] with waiting := true }], rvAt := some 0, wdRun := some 0, arrivals := arrivals }

theorem wit_RendezvousReleases : ∃ (s : State) (since : Nat), (s.part 0).rvAt = some since ∧ (s.part 0).allWaiting = true ∧
    (s.part 0).arrivalsOk = true ∧ (s.part 0).fillCur = none ∧ s.openAt 0 (releaseCycle since) = true ∧
    (s.part 0).arrived ((s.part 0).image.rv (s.part 0).rvEntry).1 = 2 :=
  ⟨withX rvImage (atRv [(0, 2)]), 0, by decide +kernel⟩

def endedPart (x : Part) : Part := { x with seqs := [{ seqAt 0 0 [] with ended := true }], ended := some 300 }

theorem wit_RunsEnd :
    (∃ (s : State) (left : Nat), (s.part 0).wdLeft = some left ∧ (s.part 0).frz = .no ∧ (s.pass left).es.lostSince = 0) ∧
    (∃ (s : State) (till id slot : Nat), (s.part 0).grace = some (till, id, slot) ∧ (s.part 0).status = .frozen ∧ s.resumeWaits 0 till = false) ∧
    (∃ (s : State) (last : Nat), (s.part 0).ended = some last ∧ (s.part 0).allEnded = true ∧ (s.part 0).fillCur = none ∧
      (s.part 0).image.fills ≤ (s.part 0).fillNext ∧ (s.part 0).flights ≠ [] ∧ s.openAt 0 ((last / 256 + 1) * 256) = true) :=
  ⟨⟨withX rvImage (atRv []), 5 * 1000 * unitsPerNs, by decide +kernel⟩,
   ⟨withX image1 (fun x => { x with grace := some (5, 0, 0), status := .frozen }), 5, 0, 0, by decide +kernel⟩,
   ⟨withX image1 (fun x => { endedPart x with flights := [flying 0 0 0x10] }), 300, by decide +kernel⟩⟩

/-- A forme with one fill item: its block, then END. -/
def fillImage (gate : Nat) : Image :=
  image 0 (arec 4 noTok noTok noTok 0 0 0 ++ arec 5 noTok noTok noTok 0 0 0 ++ arec 3 noTok noTok noTok 0 0 0 ++ endRec) [] [] (tokEntry 0 0x100)
    (leBytes 4 1 ++ leBytes 2 1 ++ zeros 10) (leBytes 2 gate ++ leBytes 2 3 ++ zeros 4)
def fillSeq (a pc : Nat) : Seqr := { seqAt a 2 [] with waiting := true, fill := some { item := 0, pc := pc, loops := [], done := false } }
def inFill (qs : List Seqr) : State := withX (fillImage noTok) (fun x => { x with fillCur := some (0, 0), seqs := qs })
def beforeFill (gate : Nat) (toks : Tab Nat) : State :=
  withX (fillImage gate) (fun x => { x with seqs := [{ seqAt 0 2 [] with waiting := true }], toks := toks })

theorem wit_FillItemsRun :
    (∃ (s : State) (c : Ctx) (q : Seqr), issueCtx s 4 0 0 = some c ∧ (s.part 0).seqr 0 = some q) ∧
    (∀ alone ∈ [true, false], let s := inFill (if alone then [fillSeq 0 1] else [fillSeq 0 1, fillSeq 1 1])
      let c := ctxAt s 5 0
      issueCtx s 5 0 0 = some c ∧ (((s.toCycle 0 c.point).part 0).modSeqr 0 (fun q => { q with
        last := c.point, fill := q.fill.map (fun f => { f with done := true }) })).fillOver = alone) ∧
    (∀ x ∈ [(noTok, ([] : Tab Nat)), (0, [(0, 1)])], let s := beforeFill x.1 x.2
      let y := s.part 0
      y.fillCur = none ∧ y.fillNext < y.image.fills ∧ (y.image.fillEntry y.fillNext).1 = x.1 ∧
      (x.1 = 0xFFFF ∨ (y.image.token x.1).count ≤ tget 0 y.toks x.1) ∧ y.allWaiting = true ∧ y.arrivalsOk = false ∧
      s.openAt 0 (cdiv y.cycle 256 * 256) = true) ∧
    (let y := endedPart ((beforeFill noTok []).part 0)
     y.allEnded = true ∧ y.fillNext < y.image.fills) ∧
    (∃ (s : State) (i st : Nat), (s.part 0).fillCur = some (i, st) ∧ (s.part 0).fillLate = false ∧
      s.openAt 0 ((st + ((s.part 0).image.fillEntry i).2) * 256) = true) :=
  ⟨⟨inFill [fillSeq 0 0], ctxAt (inFill [fillSeq 0 0]) 4 0, fillSeq 0 0, by decide +kernel⟩, by decide +kernel, by decide +kernel, by decide +kernel,
   ⟨inFill [fillSeq 0 0], 0, 0, by decide +kernel⟩⟩

/-! ## Witnesses: spine, weirs, accumulate-writes, digests -/

/-- A message of firmware to the near-memory engine behind the same link (R51). -/
def message : Flit := { flit with target := .message (.agent 0x2000006C) }
def atSpine (cyc : Nat) (last : Tab LastFlit) : State :=
  let s := running image1
  { s with clk := cyc * spinePeriod, spine := { s.spine with last := last } }
def spineKey : Nat := 0x59 * 16 + 7
def stands (s : State) (out : Nat) (f : Flit) : Bool :=
  routerOk 0x59 && outputOk 0x59 out && s.routerUp 0x59 && (s.routes 0x59 f).contains out && s.atInput 0x59 f && !s.copied 0x59 out f
def afterInput (s : State) (f : Flit) : State := (s.toInput 0x59 f).takeFlit 0x59 7 f
def weirState (held queue : List WeirReq) : State :=
  (((running image1).putHeld (weirKey 0 0) held).putQueue (weirKey 0 0) queue).setRec 0 { StreamRec.zero with state := 1, desc := copyDesc }

theorem wit_SpineFlits :
    (∀ x ∈ [(0, true), (6, true), (7, false), (8, false)], let s := atSpine x.1 []
      let u := afterInput s flit
      stands s 7 flit = true ∧ u.clk / spinePeriod = x.1 ∧ u.frameAllotted (flitOwner flit) x.1 = x.2 ∧ (u.part (flitOwner flit)).status = .running ∧
        tget (⟨0, 0, 0, 0, false⟩ : LastFlit) u.spine.last spineKey = ⟨0, 0, 0, 0, false⟩) ∧
    (∀ x ∈ [(0, false), (248, true), (255, false)], let s := atSpine x.1 []
      let u := afterInput s message
      stands s 7 message = true ∧ u.clk / spinePeriod = x.1 ∧ flitOwner message = 8 ∧ u.frameAllotted 8 x.1 = x.2 ∧
        tget (⟨0, 0, 0, 0, false⟩ : LastFlit) u.spine.last spineKey = ⟨0, 0, 0, 0, false⟩) ∧
    (∀ sent ∈ [true, false], let s := atSpine 3 [(spineKey, ⟨3, 0, 9, 2, sent⟩)]
      let u := afterInput s flit
      stands s 7 flit = true ∧ u.clk / spinePeriod = 3 ∧ (u.part 0).status = .running ∧
        tget (⟨0, 0, 0, 0, false⟩ : LastFlit) u.spine.last spineKey = ⟨3, 0, 9, 2, sent⟩) ∧
    stands (atSpine 0 []) 7 { flit with fault := .header } = true ∧ stands (atSpine 0 []) 8 flit = false ∧
    stands { atSpine 0 [] with spine := { (atSpine 0 []).spine with copies := [(4096 + 0x59 * 16 + 4, [7])] } } 7 flit = false ∧ guardCycle 7 = true ∧ guardCycle 0 = false := by
  decide +kernel

theorem wit_WeirRequests :
    (weirNums.contains 0 = true ∧ queueKey 0 0 (weirPort 0 3) = weirKey 0 0 ∧ (weirState [] []).weirDepth 0 0 = 16) ∧
    (∀ x ∈ [([req 3 17], ([] : List WeirReq)), ([], [req 4 15])], let s := weirState x.1 x.2
      admitHeld 16 [] (s.weirQueue (weirKey 0 0)) (s.weirHeld (weirKey 0 0)) =
        { queue := s.weirQueue (weirKey 0 0), held := s.weirHeld (weirKey 0 0), refused := [] }) ∧
    (((weirState [req 3 17] []).weirHeld (weirKey 0 0)).any (fun h => h.agent == 3) = true ∧
      ((weirState [] [req 4 15]).weirHeld (weirKey 0 0)).any (fun h => h.agent == 3) = false) ∧
    (let s := weirState [] [req 4 15]
     heldBack (s.weirQueue (weirKey 0 0)) (req 3 (weirTokens 0 3 64)) = false ∧ s.weirFill (weirKey 0 0) + weirTokens 0 3 64 = 16 ∧
      16 < s.weirFill (weirKey 0 0) + weirTokens 0 3 65 ∧ (s.part 0).status = .running) ∧
    (let s := weirState [] [req 0x10000000 1]
     s.qmaxOf 0x10000000 ≠ 0 ∧
      heldBack (s.weirQueue (weirKey 0 0)) { req 0x10000000 (weirTokens 0 0x10000000 64) with qmax := s.qmaxOf 0x10000000 } = true) := by
  decide +kernel

def accWrite : AccWrite :=
  { engine := 0, addr := 0x10000, source := 0, opId := 0, values := [0x3F800000, 0x40000000], poison := 0, partition := 0, action := 0 }

theorem wit_AccumulateAddsValues :
    (∃ (s : State) (w : AccWrite), lookupBy (fun x => x.engine == 0) s.accq = some w ∧ w.poison = 0 ∧
      (s.accessRun w.partition w.addr w.bytes).1 = .ok ∧ w.addr + w.bytes ≤ hostBase ∧
      (∀ v ∈ tget [] s.serving 0, s.clk < v.until' → v.source = w.source) ∧
      (∀ f ∈ (s.part w.partition).flights, f.opcode ≠ 0x70 ∧ ¬ (0x60 ≤ f.opcode ∧ f.opcode ≤ 0x62 ∧ f.agent = agentOfEng 0)) ∧
      (∀ k, k < w.values.length → Run.origin (s.devRead (w.addr + 6 * k) 6) = 0)) ∧
    (fp32 0x7FC00000 = .nan ∧ wf48F.decode 0 wf48F.nanCode = .nan) :=
  ⟨⟨{ running image1 with accq := [accWrite] }, accWrite, by decide +kernel⟩, by decide +kernel⟩

def digest (value : Nat) (missing : List Nat) : Digest := { step := 3, layer := 0, shard := 0, value := value, formed := 0, missing := missing }
def replicated (ds : List Digest) : State := withX image1 (fun x => { x with replica := some (1, [0, 1]), digests := ds })

theorem wit_DigestsCompared :
    (∀ ds ∈ [[], [digest 9 [1]]], let s := replicated ds
      (s.part 0).replica = some (1, [0, 1]) ∧ ([0, 1] : List Nat).contains 1 = true ∧ 1 ≠ s.selfPart ∧
        lookupBy (fun (d : Digest) => d.step == 3 && d.layer == 0 && d.shard == 0) (s.part 0).digests = ds.head?) ∧
    (∃ s : State, (s.part 0).replica = none) ∧ ([0, 1] : List Nat).contains 2 = false ∧ (replicated []).selfPart = 0 ∧
    (∃ (s : State) (d : Digest), lookupBy (fun e => e.missing.contains 1) (s.part 0).digests = some d) :=
  ⟨by decide +kernel, ⟨base .run, rfl⟩, by decide, by decide +kernel, ⟨replicated [digest 9 [1]], digest 9 [1], by decide +kernel⟩⟩

/-! ## Witnesses: ports -/

def portIn (st : PortState) : Port := { Port.reset with state := st, lanes := 15, ownLanes := 15, widthCode := 3 }
def withPort (q : Port) : State := (base .run).setPort 17 q
def sentFrame (tries : Nat) : SentFrame := { seq := 0, tags := [], flits := [], carried := [], tries := tries }
def activePort (sent : List SentFrame) (replayAt : Nat) : State := withPort { portIn .active with sent := sent, replayAt := replayAt }
/-- Noise in the last `n` symbols of a codeword. -/
def noise (n : Nat) : List (Nat × BitVec 10) := (List.range n).map (fun i => (543 - i, 1))
/-- A frame of no flit with a right CB_CRC. -/
def wholeFrame : List Byte := zeros 28 ++ leBytes 4 (crc32 (zeros 128)) ++ zeros 96 ++ zeros 3072

theorem wit_FramesExchanged :
    (∀ n ∈ [0, 127, 128], let q := (activePort (List.replicate n (sentFrame 0)) n).linkGo.port 17
      q.state = .active ∧ q.sent[q.replayAt]? = none ∧ q.sent.length = n) ∧
    ((withPort (portIn .down)).linkGo.port 17).state ≠ .active ∧ (∀ tries ∈ [7, 8], let q := (activePort [sentFrame tries] 0).linkGo.port 17
      q.state = .active ∧ q.sent[q.replayAt]? = some (sentFrame tries)) ∧
    (let q := (activePort [] 0).expireAll.linkGo.port 17
     ((activePort [] 0).port 17).state = .active ∧ frameWhole [⟨[]⟩, ⟨noise 15⟩] wholeFrame = true ∧ BitVec.ofNat 16 (fld wholeFrame 0 2) = q.rxNext ∧
      frameWhole [⟨noise 16⟩] wholeFrame = false ∧ frameWhole [] (zeros 3200) = false ∧
      BitVec.ofNat 16 (fld wholeFrame 0 2) ≠ ((withPort { portIn .active with rxNext := 1 }).expireAll.linkGo.port 17).rxNext) ∧
    (∀ m ∈ [some 4096, some 4097, none], let s := withPort { portIn .active with mean := m }
     let t := { s with lnk := { s.lnk with following := true, parent := 17 } }
     t.lnk.following = true ∧ t.rst.everReady = true ∧ (t.port t.lnk.parent).mean = m) := by
  decide +kernel

theorem wit_PortsTrain : ∀ st ∈ [PortState.laneTrain, .width, .ident, .off], ((withPort (portIn st)).port 17).state = st := by decide +kernel

/-- Port 17 in a state, with ENABLE as given and its domain On or not. -/
def portSet (st : PortState) (ctrl : BitVec 9) (on : Bool) : State :=
  let s := withPort { portIn st with ctrl := ctrl }
  if on then s else withDom s (portDom 17) .off

theorem wit_PortsCommanded : ∀ st ∈ [PortState.down, .off, .active, .loopback], ∀ ctrl ∈ [(0 : BitVec 9), 1], ∀ on ∈ [true, false],
    let s := portSet st ctrl on
    (s.dom 3).st ≠ .off ∧ (s.port 17).state = st ∧ portEnabled (s.port 17) = decide (ctrl = 1) ∧ s.domOn (portDom 17) = on := by decide +kernel

theorem wit_LinkRegisters :
    (∀ l ∈ [true, false], let s : State := { base .run with lnk := { (base .run).lnk with lock := l } }
      (s.dom 3).st ≠ .off ∧ s.torus.1 ≤ 32 ∧ s.torus.2.1 ≤ 32 ∧ s.lnk.lock = l) ∧
    (bits 0x302020 5 0 ≤ 32 ∧ bits 0x302020 13 8 ≤ 32 ∧ bits 0x302020 21 16 ≤ 48) ∧
    (32 < bits 0x21 5 0 ∧ 32 < bits 0x2100 13 8 ∧ 48 < bits 0x310000 21 16) := by decide +kernel

/-! ## Witnesses: the host interface -/

def polled (s : State) (quiet : Nat) : State := { s with hif := { s.hif with poll := true, quiet := quiet } }
def ready1 (due : List Nat) (masked : Bool) : State :=
  let s := base .run
  { s with hif := { s.hif with msixDue := due, msixTable := if masked then [] else (upTo 17).map (fun v => (v, BitVec.ofNat 128 (2 ^ 96))) } }

theorem wit_HostPollsAndInterrupts :
    ((base .run).hostStores []).polling = false ∧ ((polled (base .run) 0).hostStores []).polling = true ∧
    (fetchState (base .boot).rst.state = false ∧ (powering false).pwr.cmd.isSome = true ∧ (polled (powering false) 0).polling = true) ∧
    (∀ x ∈ [(0, false), (2, true), (3, true), (4, true)], let bytes := desc x.1 0 [] []
      byteAt bytes 0 ≠ 1 ∧ byteAt bytes 0 ≠ 0x14 ∧
        (base .run).stamp.2.actsNow { ring := 1, tag := 7, stamp := (base .run).es.seq.toNat, time := (base .run).es.time.toNat, bytes := bytes, pre := 0, acted := none } = x.2) ∧
    ((cmd 2 0 [] []).fence = false ∧ (base .run).pwr.cmd = none ∧ (base .run).hif.queue = [] ∧ (queued (base .run) (cmd 0 0 [] [])).actsNow (cmd 0 0 [] []) = false) ∧
    ((polled (base .run) 1000).polling = true ∧ quietPasses ≤ (polled (base .run) 1000).hif.quiet) ∧
    (((base .run).dom 3).st ≠ .off ∧ (base .run).hif.enable = true ∧ (base .run).hif.poll = false ∧ (base .run).hif.d3 = false ∧ (polled (base .run) 0).hif.poll = true) ∧
    (∀ m ∈ [true, false], ∀ ring ∈ [0, 64], let s := ready1 [ring] m
      s.hif.enable = true ∧ s.hostUp = true ∧ s.hif.msixDue.contains ring = true ∧
        s.msixMasked (if ring = 64 then s.eqOf else s.cqOf ring).vector = m) := by decide +kernel

def disabled (rings : Nat) : State :=
  let s := base .ready
  { s with hif := { s.hif with enable := false, flitMode := true, area := 0x200000, rings := BitVec.ofNat 5 rings } }

theorem wit_HostInterfaceAndLink :
    (((disabled 1).dom 3).st ≠ .off ∧ (disabled 1).hif.enable = false ∧ (disabled 1).hifCode = 0) ∧ ((disabled 17).hif.enable = false ∧ (disabled 17).hifCode ≠ 0) ∧
    ((base .ready).hif.enable = true ∧ (base .ready).rst.state ≠ .run ∧ (base .ready).cmdInProgress = false ∧ (base .ready).hif.poll = false ∧
      (polled (base .ready) 0).hif.poll = true ∧ (polled (base .ready) 0).cmdInProgress = false) ∧
    ((base .run).rst.state = .run ∧ (queued (base .ready) abortCmd).cmdInProgress = true) ∧
    (∀ w ∈ [1, 2, 4, 8, 16], ([1, 2, 4, 8, 16] : List Nat).contains w = true) ∧ (base .run).domOn 3 = true ∧ (withDom (base .run) 3 .off).domOn 3 = false ∧ (base .run).hif.rate ≠ 0 ∧
    ((base .run).dom 3).st ≠ .off ∧ (base .run).cc.replicaDue = [] := by decide +kernel

theorem wit_DirectAccesses : ∀ a ∈ [0, 0x1FFFFC],
    (base .ready).hif.rate ≠ 0 ∧ (base .ready).hif.d3 = false ∧ zeros 8 ≠ [] ∧ a + (zeros 8).length ≤ bar2Size ∧ (base .ready).rst.state ≠ .run ∧
      (base .ready).bar2Range ((base .ready).hif.bar2.toNat + a) 8 = true ∧ (base .run).rst.state = .run ∧ ((base .run).dom 3).st ≠ .off := by decide +kernel

def expert (s : State) : State := { s with mem := { s.mem with ctrl := true } }

theorem wit_RegisterRows :
    (((base .run).part 7).status = .idle ∧ ((running image1).part 0).status ≠ .idle ∧ ((base .run).dom 3).st ≠ .off ∧
      ((running image1).dom 3).st ≠ .off ∧ (base .run).hostUp = true ∧ (unserved true 0x10).hostUp = false ∧ ((unserved true 0x10).dom 3).st ≠ .off) ∧
    (regAccess 6 4 = none ∧ ((base .run).writeReg 0x700018 4 9 false).isSome = true) ∧
    (weirOk 0 = true ∧ (base .run).mem.ctrl = false ∧ (expert (base .run)).mem.ctrl = true ∧ ((base .run).part 0).status = .idle) ∧
    ((expert (base .run)).badWeir 0 0 0x00103F02 = true ∧ (expert (base .run)).badWeir 0 0 0x00103F01 = false) ∧
    ((∀ p, p < 8 → ((base .run).part p).status = .idle) ∧ (base .run).mem.pte = []) ∧
    ((base .run).es.lostSince = 0 ∧
      (let s := { base .run with es := { EsRegs.reset with lostSince := 2, firstLost := 5 } }
       s.es.lostSince ≠ 0 ∧ s.es.buffer.length < esRoom) ∧
      (let s := { base .run with es := { EsRegs.reset with lostSince := 2, buffer := fullBuffer } }
       esRoom ≤ s.es.buffer.length)) := by decide +kernel

/-! ## Witnesses: security, resets, boot -/

def withSec (s : State) (x : SecRegs) : State := { s with sec := x }
def withRst (s : State) (f : RstRegs → RstRegs) : State := { s with rst := f s.rst }

theorem wit_AttestationAnswered : (base .run).doeServed = true ∧ (zeros 32).length = 32 ∧ (zeros 31).length ≠ 32 ∧
    (zeros 1568).length = 1568 ∧ (zeros 1567).length ≠ 1568 ∧ (base .run).sec.kemPair = none ∧
    (let s := withSec (base .run) { SecRegs.reset with kemPair := some (0, zeros 32) }
     s.doeServed = true ∧ s.sec.kemPair = some (0, zeros 32)) := by decide +kernel

theorem wit_IdeStreamKeyed :
    (let s := withSec (base .run) { SecRegs.reset with kemPair := some (0, zeros 32), keysets := [(1, zeros 80)] }
     s.doeServed = true ∧ s.sec.kemPair = some (0, zeros 32) ∧ tget [] s.sec.keysets 1 ≠ [] ∧ tget [] s.sec.keysets 0 = [] ∧ (zeros 1568).length = 1568 ∧
      ({ s with hif := { s.hif with ideCap := true } } : State).hif.ideCap = true) ∧
    ((base .run).sec.kemPair = none ∧ (base .run).sec.ideSecure = false) ∧
    (withSec (base .run) { SecRegs.reset with ideSecure := true }).sec.ideSecure = true := by decide +kernel

def firmware (svn arb : Nat) (adv : Option Nat) : State :=
  withSec (base .run) { SecRegs.reset with fwValid := true, fwSvn := BitVec.ofNat 7 svn, arb := BitVec.ofNat 7 arb, advancing := adv }

theorem wit_RollbackCounterAndSelfTest :
    (let s := firmware 64 63 none
     (s.dom 3).st ≠ .off ∧ s.rst.state = .run ∧ s.sec.advancing = none ∧ s.sec.fwValid = true ∧ 64 ≤ s.sec.fwSvn.toNat ∧ s.sec.arb.toNat < 64 ∧ s.sec.fwSvn.toNat < 65 ∧
      63 ≤ s.sec.arb.toNat) ∧
    (let s := firmware 64 63 (some 64)
     s.sec.advancing = some 64 ∧ s.pwr.inhibit = false ∧ s.sec.arbWait.all (fun w => decide (w ≤ 64)) = true ∧
      ({ s with pwr := { s.pwr with inhibit := true } } : State).pwr.inhibit = true) ∧
    ((base .linkTrain).rst.state ≠ .ready ∧ (base .linkTrain).rst.state ≠ .run) ∧
    ((2147483903 : W32).getLsbD 31 = true ∧ (2147483903 : W32).toNat % 256 = 255 ∧ (base .run).engineOwned 255 = false ∧ (base .run).sec.nmeUnder = none ∧
      (base .run).domOn (11 + 255 / 32) = true ∧ (base .run).engineOwned 1 = true ∧ (withDom (base .run) 18 .off).domOn (11 + 255 / 32) = false) ∧
    (withSec (base .run) { SecRegs.reset with nmeUnder := some 255 }).sec.nmeUnder = some 255 := by decide +kernel

theorem wit_ResetsKeepAndLose :
    (∀ ever ∈ [true, false], let s := withRst (base .run) (fun r => { r with everReady := ever })
      s.rst.porAsserted = false ∧ s.rst.resetLow = false ∧ s.rst.testEn = false ∧ s.released 0 = true ∧ s.released 2 = true ∧ s.rst.everReady = ever ∧
        s.rst.seq = none ∧ s.updating = [] ∧ ∀ p, p < 8 → s.cset p = none) ∧
    ((withRst (base .run) (fun r => { r with resetLow := true, testEn := true })).rst.resetLow = true ∧ (base .boot).rst.state ≠ .run) := by
  decide +kernel

def releasing (left : List Nat) (compute : Bool) (locked clk : Nat) : State :=
  let s := withRst (base .reset) (fun r => { r with seq := some { left := left, gapEnd := 5, risen := false }, computeOnly := compute, locked := BitVec.ofNat 36 locked })
  { s with clk := clk }
/-- The state of a sequence that its clauses ask for, apart from what is left of it. -/
def inSequence (s : State) (d : Nat) (compute : Bool) : Bool :=
  decide (s.rst.resetLow = false ∧ s.rst.testEn = false ∧ s.staysDown d = false ∧ s.rst.computeOnly = compute ∧ s.rst.state = .reset)

theorem wit_ReleaseSequence :
    State.reset.rst.porAsserted = true ∧ (base .run).rst.porAsserted = false ∧ (base .run).rst.resetLow = false ∧
    (let s := withRst (base .run) (fun r => { r with resetLow := true })
     s.rst.resetLow = true ∧ s.rst.porAsserted = false ∧ s.rst.testEn = false ∧ s.rst.seq = none) ∧
    (∀ left ∈ [[1], [2, 1]], let s := withRst (base .reset) (fun r => { r with resetLow := true, seq := some { left := left, gapEnd := 5, risen := false } })
     s.rst.resetLow = true ∧ s.rst.porAsserted = false ∧ s.rst.testEn = false ∧ s.rst.seq = some { left := left, gapEnd := 5, risen := false }) ∧
    (∀ locked ∈ [1, 0], let s := releasing [0, 2, 1] false locked 5
      s.rst.seq = some { left := 0 :: 2 :: [1], gapEnd := 5, risen := false } ∧ inSequence s 0 false = true ∧ s.rst.locked.getLsbD 0 = decide (locked = 1) ∧
        s.clk ≤ 5 + 65536 * 94500) ∧
    (∀ compute ∈ [true, false], let s := releasing [34] compute 0 5
      s.rst.seq = some { left := [34], gapEnd := 5, risen := false } ∧ inSequence s 34 compute = true ∧ s.rst.locked.getLsbD 34 = false) ∧
    (let s := releasing [0, 2, 1] false 0 6193152006
     5 + 65536 * 94500 < s.clk ∧ inSequence s 0 false = true) ∧ (base .run).rst.seq = none := by decide +kernel

/-- Domains that stay down, one whose island reports lock in time, a stack domain of a compute-only reset, and the last one of a sequence. -/
theorem wit_DomainsReleased :
    (∀ s ∈ [withDom (releasing [19, 20, 21] false 0 5) 19 .off, withRst (releasing [19, 20, 21] false 0 5) (fun r => { r with renewing := some (0, 1) })],
      s.rst.seq = some { left := 19 :: 20 :: [21], gapEnd := 5, risen := false } ∧ s.staysDown 19 = true) ∧
    (∀ x ∈ [([0, 2, 1], false), ([11, 12, 13], true), ([34], false)], let s := releasing x.1 x.2 0 5
      releasable s (x.1.headD 0) 5 [x.1.headD 0] ∧ inSequence s (x.1.headD 0) x.2 = true ∧ s.rst.state ≠ .off) ∧
    (withRst (releasing [34] false 0 5) (fun r => { r with state := .halted })).rst.state ≠ .reset := by decide +kernel

def booting (f : RstRegs → RstRegs) : State := withRst (base .boot) (fun r => f { r with fwRunning := false })
/-- A firmware image that is formed as R528 asks: a header of 4,096 bytes and nothing behind it. -/
def fwImage : List Byte := leBytes 4 0x57465658 ++ leBytes 2 1 ++ leBytes 2 4096 ++ leBytes 4 4096 ++ zeros 4084

theorem wit_BootGo :
    (∀ n ∈ [64, 1048576], let s := booting (fun r => { r with bootLen := BitVec.ofNat 21 n, bootAddr := 64 })
      s.rst.state = .boot ∧ s.rst.fwRunning = false ∧ s.rst.bootLen.toNat = n ∧ s.rst.bootAddr.toNat % 64 = 0 ∧ s.hostUp = true) ∧
    (∀ n ∈ [63, 1048577], let s := booting (fun r => { r with bootLen := BitVec.ofNat 21 n })
      s.rst.state = .boot ∧ s.rst.fwRunning = false ∧ (s.rst.bootLen.toNat < 64 ∨ 1048576 < s.rst.bootLen.toNat)) ∧
    (base .boot).rst.fwRunning = true ∧ ((base .boot).dom 3).st ≠ .off ∧ (booting (fun r => { r with bootHost := true })).rst.bootHost = true ∧
    (booting id).rst.bootHost = false := by decide +kernel

theorem wit_BootRelay : ∃ s : State, s.rst.state = .boot ∧ s.rst.bootStrap = true ∧ s.rst.bootHost = false ∧ s.rst.fwRunning = false ∧
    (s.port 17).state = .active ∧ s.rst.imageWhole = false :=
  ⟨withRst ((withPort (portIn .active))) (fun r => { r with state := .boot, bootStrap := true, fwRunning := false }), by decide +kernel⟩

def holding (m : List Byte) : State :=
  booting (fun r => { r with bootTotal := m.length, bootHave := [(0, m.length)], bootBuf := writeBytes [] 0 m })
theorem holding_whole (m : List Byte) (h : m ≠ []) : (holding m).rst.imageWhole = true := by
  have go : ∀ fuel i, i + fuel = m.length → RstRegs.firstAt (holding m).rst false m.length fuel i = m.length := by
    intro fuel
    induction fuel with
    | zero => intro i hi; simpa [RstRegs.firstAt] using hi
    | succ n ih =>
      intro i hi
      have hl : ¬ m.length ≤ i := by omega
      have hh : (holding m).rst.holds i = true := by
        simp only [RstRegs.holds, holding, booting, withRst, List.any_cons, List.any_nil, Bool.or_false, Nat.zero_le, decide_true, Bool.true_and,
          decide_eq_true_eq]
        omega
      rw [RstRegs.firstAt, hh, decide_eq_false hl]
      exact ih (i + 1) (by omega)
  have e : (holding m).rst.bootTotal = m.length := rfl
  have z : m.length ≠ 0 := fun c => h (List.length_eq_zero_iff.mp c)
  rw [RstRegs.imageWhole, e, go m.length 0 (Nat.zero_add _)]
  simp [z]

theorem wit_ImageVerify : ∀ m : List Byte, m ≠ [] → ∃ s : State, s.rst.state = .boot ∧ s.rst.fwRunning = false ∧ s.rst.imageWhole = true ∧
    readBytes s.rst.bootBuf 0 s.rst.bootTotal = m :=
  fun m h => ⟨holding m, rfl, rfl, holding_whole m h, readBytes_writeBytes [] 0 m⟩

theorem wit_ImageFormed : let m := fwImage
    4096 ≤ m.length ∧ fld m 0 4 = 0x57465658 ∧ fld m 4 2 = 1 ∧ fld m 6 2 = 4096 ∧ fld m 8 4 = m.length ∧ fld m 0x14 12 = 0 ∧ fld m 0x28 24 = 0 ∧
      fld m 0x741 63 = 0 ∧ fld m 0xC80 896 = 0 ∧ (base .boot).sec.arb.toNat ≤ fld m 0xC 4 ∧ fld m 0xC 4 ≤ 64 ∧ fld (zeros 4096) 0 4 ≠ 0x57465658 := by
  decide +kernel

def topoRecord (extra : List Byte) : List Byte :=
  leBytes 4 0x50545658 ++ leBytes 2 1 ++ leBytes 2 0 ++ leBytes 1 1 ++ leBytes 1 1 ++ leBytes 1 1 ++ leBytes 1 0 ++ leBytes 2 0 ++ extra

def topoState (st : PState) (m : List Byte) (ports : PortState) : State :=
  withRst (withHost ((base st).setPort 17 (portIn ports)) 0x1000 m) (fun r => { r with topoAddr := 0x1000 })

theorem wit_BringUpAndTopology :
    ((base .boot).rst.state = .boot ∧ (base .boot).rst.fwRunning = true ∧ (base .run).rst.state ≠ .boot) ∧
    (let s := topoState .linkTrain [] .active
     s.rst.state = .linkTrain ∧ s.rst.topoHeld = none ∧
      ∀ p, p < 18 → (s.port p).state ≠ .laneTrain ∧ (s.port p).state ≠ .width ∧ (s.port p).state ≠ .ident) ∧
    (let s := withRst (topoState .linkTrain [] .active) (fun r => { r with topoHeld := some true })
     s.rst.state = .linkTrain ∧ s.rst.topoHeld = some true ∧ (s.dom 3).st ≠ .off ∧
      ∀ p, p < 18 → (s.port p).state ≠ .laneTrain ∧ (s.port p).state ≠ .width ∧ (s.port p).state ≠ .ident) ∧
    (∀ st ∈ [PortState.laneTrain, .width, .ident], ((topoState .linkTrain [] st).port 17).state = st) ∧
    (∀ x ∈ [(topoRecord [], PortState.down, 0), (topoRecord [], .active, 0), (zeros 16, .down, 0x301)],
      let s := topoState .topoCheck x.1 x.2.1
      s.rst.state = .topoCheck ∧ s.rst.topoAddr.toNat % 64 = 0 ∧ s.hostUp = true ∧
        topoRecordCode ((s.hostStores []).hostRead s.rst.topoAddr.toNat 320) = x.2.2) ∧
    (let s := topoState .topoCheck (topoRecord []) .down
     (∀ p, p < 18 → s.topoPortCode ((s.hostStores []).hostRead s.rst.topoAddr.toNat 320) p = 0) ∧ s.lnk.lock = false) ∧
    (let s := topoState .topoCheck (topoRecord []) .active
     s.topoPortCode ((s.hostStores []).hostRead s.rst.topoAddr.toNat 320) 17 = 0x307 ∧
      ∀ r, r < 17 → s.topoPortCode ((s.hostStores []).hostRead s.rst.topoAddr.toNat 320) r = 0) := by decide +kernel

theorem wit_RenewalAndLostChannel :
    (let v : W32 := 0x100
     v.getLsbD 8 = true ∧ ((base .run).dom 3).st ≠ .off ∧ (base .run).defined (v.toNat % 8) = true ∧ ((base .run).part 0).status = .idle ∧ (base .run).rst.renewing = none ∧
      ((running image1).part 0).status ≠ .idle ∧ (base .run).defined ((0x101 : W32).toNat % 8) = false) ∧
    (∀ kept ∈ [[], [19]], let s := withRst (base .run) (fun r => { r with renewing := some (0, 0x8001), kept := kept })
      s.rst.renewing = some (0, 0x8001) ∧ (0x8001 : Nat).testBit 0 = true ∧ (0x8001 : Nat).testBit 15 = true ∧ (0x8001 : Nat).testBit 1 = false ∧
        (∀ f, f < 16 → (0x8001 : Nat).testBit f = true → s.fieldFailed f = false) ∧
        ({ s with rst := { s.rst with renewing := none } } : State).keptDown 19 = decide (kept = [19])) ∧
    fieldsIdle (base .run) 0x8001 ∧
    ((base .run).mem.trained ≠ 0 ∧ State.reset.mem.trained = 0) := by
  refine ⟨by decide +kernel, by decide +kernel, ?_, by decide +kernel⟩
  have h : ∀ q, q < 8 → ((base .run).part q).flights = [] ∧ ((base .run).part q).nans = [] := by decide +kernel
  intro q k hq _ _
  rw [(h q hq).1, (h q hq).2]
  exact ⟨by simp, by simp⟩

/-! ## Witnesses: protection, metering -/

def hotState (hot crit : Nat) : State :=
  { running image1 with pwr := { PwrRegs.reset with hot := if hot = 0 then [] else [(25, hot)], critHot := if crit = 0 then [] else [(25, crit)] } }

def ledger (n : Nat) : Ledger :=
  { flags := 2, number := n, boot := 0, interval := 60, tStart := 0, tEnd := 0, eMain := 0, eAux := 0, dMain := 0, dAux := 0, pMax := 0 }

theorem wit_ProtectionActs :
    (toSigned 16 1759 < 1760 ∧ 1760 ≤ toSigned 16 1760 ∧ toSigned 16 1919 < 1920 ∧ 1920 ≤ toSigned 16 1920) ∧
    ((hotState 0 0).rst.porAsserted = false ∧ tget 0 (hotState 0 0).pwr.hot 25 = 0 ∧ 0 < tget 0 (hotState 1 1).pwr.hot 25 ∧
      0 < tget 0 (hotState 1 1).pwr.critHot 25 ∧ (hotState 1 1).pwr.trip = false ∧ (hotState 1 1).pwr.crit = false ∧
      ((hotState 1 1).part 0).status = .running ∧ (hotState 1 1).rst.state = .run) ∧
    (∃ (s : State) (t0 : Nat), s.pwr.tripAt = some t0 ∧ (s.part 0).status ≠ .frozen ∧ (s.part 0).status ≠ .idle) ∧
    (∃ s : State, s.pwr.tripAt = none ∧ ∀ p, p < 8 → (s.part p).status = .frozen ∨ (s.part p).status = .idle) :=
  ⟨by decide +kernel, by decide +kernel, ⟨{ hotState 1 1 with pwr := { PwrRegs.reset with tripAt := some 9 } }, 9, by decide +kernel⟩,
   ⟨base .run, by decide +kernel⟩⟩

def sagging (f : PwrRegs → PwrRegs) (g : MuRegs → MuRegs) : State := { base .run with pwr := f PwrRegs.reset, mu := g State.reset.mu }
def lowRails (main aux : Option Nat) : Rails := { Rails.reset with mainLow := main, auxLow := aux }
def goodRails : Rails := { Rails.reset with good := some 9 }

theorem wit_InhibitHoldsWrites :
    (∀ x ∈ [(none, none), (some 3, none), (none, some 4), (some 3, some 4)], let r := lowRails x.1 x.2
      r.mainLow = x.1 ∧ r.auxLow = x.2 ∧ (r.sagAt = none ↔ x = (none, none))) ∧
    (∀ b ∈ [true, false],
      let s := sagging (fun r => { r with rails := lowRails (some 3) none, inhibit := b }) (fun m => { m with rails := lowRails none (some 4), inhibit := !b })
      s.rst.porAsserted = false ∧ s.pwr.inhibit = b ∧ s.mu.inhibit = !b ∧ s.pwr.rails.sagAt ≠ none ∧ s.mu.rails.sagAt ≠ none) ∧
    (∀ b ∈ [true, false], ∀ c ∈ [true, false],
      let s := sagging (fun r => { r with rails := goodRails, inhibit := b }) (fun m => { m with rails := goodRails, inhibit := c })
      s.pwr.rails.good = some 9 ∧ s.mu.rails.good = some 9 ∧ s.pwr.inhibit = b ∧ s.mu.inhibit = c) ∧
    (∀ x ∈ [(some (ledger 3), [], []), (none, [ledger 3], [ledger 3]), (some (ledger 3), [ledger 4], [ledger 3])],
      let s := sagging id (fun m => { m with writing := x.1, pending := x.2.1 ++ [ledger 5] })
      s.mu.writing.toList ++ s.mu.pending = (x.1.toList ++ x.2.1) ++ [ledger 5]) ∧
    (let s := sagging (fun r => { r with heldWrites := [7] }) id
     s.pwr.heldWrites = [7] ∧ mapFill s.rst.defect < 2048) ∧ State.reset.pwr.rails.good = none ∧ State.reset.pwr.heldWrites = [] := by decide +kernel

def metered (f : MuRegs → MuRegs) : State := { base .run with mu := f State.reset.mu }

theorem wit_MeterAndSideband :
    ((base .run).released 2 = true ∧ (base .run).mu.writing = none ∧ State.reset.released 2 = false) ∧
    (∀ n ∈ [998, 999], (metered (fun m => { m with msCount := n })).mu.msCount = n) ∧
    (let m := (metered (fun m => { m with eMain := 359999999999999, pulse := none })).mu
     m.pulse = none ∧ m.pulseFrom + 360000000000000 = m.eMain + 1 * 1 + (m.eAux + 0)) ∧
    (∀ e ∈ [359999999999999, 360000000000000], let m := (metered (fun m => { m with eMain := e, pulse := some 0 })).mu
      m.pulse = some 0 ∧ m.eMain + m.eAux = e ∧ m.pulseFrom = 0) ∧
    (∀ n ∈ [0, 2 ^ 40 - 1, 2 ^ 40], ∀ inhibit ∈ [true, false], let m := (metered (fun m => { m with next := n, inhibit := inhibit })).mu
      m.next = n ∧ m.inhibit = inhibit) ∧
    (∀ n ∈ [15, 16], let m := (metered (fun m => { m with inhibit := true, pending := (upTo n).map ledger })).mu
      m.next < 2 ^ 40 ∧ m.inhibit = true ∧ m.pending.length = n) ∧
    (let m := (metered (fun m => { m with next := 2 ^ 40, inhibit := true, pending := (upTo 16).map ledger })).mu
     m.inhibit = true ∧ m.pending.length = 16 ∧ 2 ^ 40 ≤ m.next) := by decide +kernel

/-! ## Ill-formed commands are refused -/

theorem test_wf_partition : Instr.wf (.mma 8 0) = false ∧ Instr.wf (.thaw 8) = false ∧ Instr.wf (.mma 7 0) = true := by decide
theorem test_wf_agent : Instr.wf (.loop 0 0x100000000) = false ∧ Instr.wf (.loop 0 0xFFFFFFFF) = true := by decide
theorem test_wf_record : Instr.wf (.actionComplete 0 0 0x10000) = false ∧ Instr.wf (.deadlineReached 0 0x10000) = false := by decide
theorem test_wf_stamp : Instr.wf (.copyComplete 0x100000000) = false ∧ Instr.wf (.exportComplete 0xFFFFFFFF) = true := by decide
theorem test_wf_digest : Instr.wf (.digestReceived 0 0 0 0 0 (2 ^ 64)) = false ∧ Instr.wf (.digestReceived 0 0 0 0 0 (2 ^ 64 - 1)) = true := by decide
theorem test_wf_port : Instr.wf (.frameTransmit 18) = false ∧ Instr.wf (.frameTransmit 17) = true ∧ Instr.wf (.portFault 0 0) = false ∧
    Instr.wf (.portFault 0 7) = false ∧ Instr.wf (.portFault 0 6) = true := by decide
theorem test_wf_frame : Instr.wf (.frameReceive 0 [] []) = false := by decide
theorem test_wf_lanes : Instr.wf (.laneTrainDone 0 16) = false ∧ Instr.wf (.widthExchange 0 15) = true ∧ Instr.wf (.loopback 0 3) = false := by decide
theorem test_wf_ident : Instr.wf (.identExchange 0 0 18 0) = false ∧ Instr.wf (.identExchange 0 (2 ^ 64) 0 0) = false := by decide
theorem test_wf_router : Instr.wf (.spineFlit 0x0A 0 flit) = false ∧ Instr.wf (.spineFlit 0x09 12 flit) = false ∧ Instr.wf (.spineFlit 0xF9 11 flit) = true ∧
    Instr.wf (.spineFlit 0x59 7 { flit with payload := zeros 127 }) = false := by decide +kernel
theorem test_wf_weir : Instr.wf (.weirRequest 0x143 0 64 0 0) = false ∧ Instr.wf (.weirRequest 0x149 8 64 0 0) = true ∧
    Instr.wf (.memWeirWrite 0 9 0) = false := by decide
theorem test_wf_engines : Instr.wf (.accumulateWrite 320) = false ∧ Instr.wf (.streamDueReached 48) = false ∧ Instr.wf (.msixSend 65) = false ∧
    Instr.wf (.msixSend 64) = true := by decide
theorem test_wf_registers : Instr.wf (.registerWrite 0x1000000 4 0) = false ∧ Instr.wf (.registerWrite 0 2 0) = false ∧ Instr.wf (.registerWrite 0 8 0) = true ∧
    Instr.wf (.numStepWrite 0x1000000 0) = false := by decide
theorem test_wf_counters : Instr.wf (.trapClear 1024) = false ∧ Instr.wf (.cntClear 256) = false ∧ Instr.wf (.arbAdvance 128) = false := by decide
theorem test_wf_host : Instr.wf (.hostLinkDegraded 8 16) = false ∧ Instr.wf (.hostLinkDegraded 7 17) = false ∧ Instr.wf (.bar2Access (.write false) (2 ^ 36) []) = false ∧
    Instr.wf (.pollPass [(2 ^ 64, 0)]) = false := by decide
theorem test_wf_security : Instr.wf (.getReport [] 0) = false ∧ Instr.wf (.ideKey 2 []) = false ∧ Instr.wf (.ideGo (.ideGo 2)) = false ∧
    Instr.wf (.ideGo (.malformed 256)) = false := by decide
theorem test_wf_power : Instr.wf (.powerComplete [36] []) = false ∧ Instr.wf (.thermalSample 26 0) = false ∧
    Instr.wf (.domainRelease ⟨[36], []⟩) = false ∧ Instr.wf (.domainRelease ⟨[], [{ stack := 8, channel := 0, lane := 0, spare := none }]⟩) = false := by decide
theorem test_wf_memory : Instr.wf (.memoryTrainingDone (.good 0 1 [])) = false ∧ Instr.wf (.memoryTrainingDone (.boardFailed 64)) = false ∧
    Instr.wf (.boardChannelFailed (.board 64)) = false ∧ Instr.wf (.boardChannelFailed (.transfer 255)) = true ∧
    Instr.wf (.boardChannelFailed (.error (.stream 48 0) false)) = false ∧ Instr.wf (.boardChannelFailed (.error (.receive 18 0 0) false)) = false ∧
    Instr.wf (.boardChannelFailed (.block (.spine 2))) = false ∧ Instr.wf (.boardChannelFailed (.block (.ioDie 2))) = false ∧ Instr.wf (.memoryTrainingDone .boardUnsupported) = true := by decide
theorem test_wf_sideband : Instr.wf (.i3cOffsetSelect true ⟨0xFFFFFF, 256⟩) = true ∧ Instr.wf (.i3cOffsetSelect true ⟨0, 257⟩) = false := by decide
theorem test_wf_renewal : Instr.wf (.renewComplete [{ field := 16, badSites := [], rowRepairs := [], sramLost := false, stopped := false }]) = false := by decide

/-! ## Single steps; the expected values are those of the spec's own tables and rules -/

def stepped (s : State) (i : Instr) (f : State → Bool) : Bool := nextHas (step { s with pending := [i, .nudge] }) (fun t => t.pending == [.nudge] && f t)

/-- The front command leaves the queue first (the row's first-in, first-out queue); R415: a NOP completes OK. -/
theorem test_nop_completes :
    stepped (queued (base .run) (cmd 0 0 [] [])) .nop (fun t => t.hif.compl.map (fun r => (r.tag, r.status, r.reason)) == [(7, 0, 0)] && t.hif.queue == []) = true := by
  decide +kernel

/-- R417: a SERVICE that nothing waits before acts at its stamp, and its row posts what it did then. -/
theorem test_service_acts : let s := (base .ready).stampCmd 0 (desc 2 0 (leBytes 1 1) [])
    s.rst.state = .run ∧ stepped s .serviceEnter (fun t => t.hif.compl.map (fun r => (r.tag, r.status, r.reason)) == [(7, 0, 0)]) = true := by decide +kernel

/-- R67: LOOP opens at its slot; an ENDLOOP of the last iteration goes on past it. -/
theorem test_loop_opens : stepped (running loopImage) (.loop 0 0) (fun t => ((t.part 0).seqr 0).map (fun q => (q.pc, q.loops)) ==
    some (1, [{ body := 1, iter := 0, count := 3, period := 10, base := 0 }])) = true := by decide +kernel
theorem test_endloop_last : stepped (inLoop 2) (.endloop 0 0) (fun t => ((t.part 0).seqr 0).map (fun q => (q.pc, q.loops.length)) == some (2, 0)) = true := by
  decide +kernel

def withCore (s : State) (a : Nat) (bs : List Byte) : State := { s with data := { s.data with core := writeBytes s.data.core a bs } }
/-- Table 06-1, FUNC 0: 1.0 + 2.0 = 3.0. -/
theorem test_elem_adds : stepped (withCore (withCore (vecState 0x20) (coreAt 0 0) (leBytes 4 0x3F800000)) (coreAt 0 0x1000) (leBytes 4 0x40000000)) (.elem 0 0)
    (fun t => readBytes t.data.core (coreAt 0 0x4000) 8 == leBytes 4 0x40400000 ++ zeros 4) = true := by decide +kernel
/-- R173: SPLIT of 1.0 gives the BF16 1.0 and a remainder of 0 at Z. -/
theorem test_split_writes : stepped (withCore (oneRecord 0 0x2E ((vecDesc 0x2E).take 7 ++ leBytes 1 0x81 ++ (vecDesc 0x2E).drop 8)
    ((VecDesc.parse ((vecDesc 0x2E).take 7 ++ leBytes 1 0x81 ++ (vecDesc 0x2E).drop 8)).resources 0x2E 0 true)) (coreAt 0 0) (leBytes 4 0x3F800000)) (.split 0 0)
    (fun t => readBytes t.data.core (coreAt 0 0x4000) 2 == leBytes 2 0x3F80 && readBytes t.data.core (coreAt 0 0x2000) 2 == zeros 2) = true := by decide +kernel
/-- R135: one product of 1.0 and 2.0 in an element that begins at zero. -/
theorem test_mma_multiplies : stepped (withCore (withCore (oneRecord 0 0x10 (mmaDesc 1 0 1 1 32) [resGalley 0 0]) (coreAt 0 0) (leBytes 4 0x3F800000))
    (coreAt 0 0x10000) (leBytes 4 0x40000000)) (.mma 0 0) (fun t => tget 0 t.data.galley (galElem 0 0 0 0) == 0x40000000) = true := by decide +kernel
/-- R332: a stream copy moves both rows to their places. -/
theorem test_stream_copies : stepped (withCore (streamState (0x40, copyDesc)) (coreAt 0 64) (leBytes 4 0x11223344)) (.streamCopy 0 0x10000000)
    (fun t => readBytes t.data.core (coreAt 1 0x140) 4 == leBytes 4 0x11223344) = true := by decide +kernel
/-- R210, R108: FP32 1.0 onto a zero element gives WF48 1.0, exponent 127 at bits 46 to 39. -/
theorem test_accumulate_adds : stepped { running image1 with accq := [accWrite] } (.accumulateWrite 0)
    (fun t => readBytes t.data.dev 0x10000 6 == leBytes 6 0x3F8000000000) = true := by decide +kernel
/-- R225: RCLEAR zeroes its span and no byte behind it. -/
theorem test_rclear_clears : stepped (withDev (updState (0x60, updDesc 0 0 0 0 0 0x10000 0)) 0x100BC (leBytes 8 0xFFFFFFFFFFFFFFFF)) (.rclear 0 0x20000000)
    (fun t => readBytes t.data.dev 0x100BC 8 == zeros 4 ++ leBytes 4 0xFFFFFFFF) = true := by decide +kernel
/-- R77: a record whose token has not come is not run, and its partition gets a freeze cause. -/
theorem test_late_token : stepped (recordState 0x10 0 (zeros 64) []) (.mma 0 0) (fun t => (t.part 0).causes == [.breach] && t.data == State.reset.data) = true := by
  decide +kernel
/-- R495: a second sample in a row at 110.0 degrees trips, a first does not. -/
theorem test_thermal_trips : stepped (hotState 1 0) (.thermalSample 25 1760) (fun t => t.pwr.trip && t.rst.reason == 0x501) = true := by decide +kernel
theorem test_thermal_first : stepped (hotState 0 0) (.thermalSample 25 1760) (fun t => !t.pwr.trip) = true := by decide +kernel
/-- R368: a whole frame in order moves the SEQ expected on. -/
theorem test_frame_accepted : stepped (activePort [] 0) (.frameReceive 17 (List.replicate 5 ⟨[]⟩) wholeFrame)
    (fun t => (t.port 17).rxNext == 1 && !(t.port 17).nak) = true := by decide +kernel
/-- R503: 12,000 mV at 1,000 mA for a microsecond are 12,000,000 pJ. -/
theorem test_meter_counts : stepped (base .run) (.meterSample 12000 1000 0 0 true) (fun t => t.mu.eMain == 12000000 && t.mu.msCount == 1) = true := by decide +kernel
/-- R47: in a guard cycle every flit is outside its frames. -/
theorem test_guard_cycle : stepped (atSpine 7 []) (.spineFlit 0x59 7 flit) (fun t => (t.part 0).causes == [.breach]) = true := by decide +kernel
/-- SHAKE256 of the empty message begins with these bytes (FIPS 202). -/
theorem test_shake256 : shake256 8 [] = [0x46, 0xB9, 0xDD, 0x2B, 0x0B, 0xA8, 0x8D, 0x13] := by decide +kernel
/-- R552: the instruction register takes IDCODE's code when the TAP is reset. -/
theorem test_tap_reset : stepped { base .run with pins := { PinRegs.reset with ir := 0xFF } } .tapReset (fun t => t.pins.ir == 2) = true := by decide +kernel
/-- R28, R29: behind site PQ4 disabled, logical quad Q4 stands at PQ5; without an entry the disabled site is PQ9. -/
theorem test_quad_sites : State.reset.quadSite 3 8 = 8 ∧
    (let s := withRst State.reset (fun r => { r with defect := [(0, BitVec.ofNat 32 (1 * 2 ^ 28 + 3 * 2 ^ 24 + 4 * 2 ^ 20))] })
     s.quadSite 3 3 = 3 ∧ s.quadSite 3 4 = 5 ∧ s.quadSite 2 4 = 4) := by decide +kernel
/-- R49: bridge channel 3y + 1 joins x = 7 of die 0 and x = 0 of die 1 in row y; there it is the second bridge link. -/
theorem test_bridge_crosses : (edgeLinks (routerId 0 7 3))[1]? = some (.bridge 10) ∧ nextRouter (routerId 0 7 3) 6 = some (routerId 1 0 3, 6) := by decide +kernel
/-- R364: the header of codeword 3 is its index at [19:17] over the marker 0x1_5A3C, and fills the first two of 544 symbols. -/
theorem test_codeword_header : (symbolsOf (codeword 3 (zeros 3200))).take 3 = [0x23C, 0x1D6, 0] ∧ (symbolsOf (codeword 3 [])).length = 544 := by decide +kernel
/-- R461: the lower index governs, the map ends at its first zero word, and a contact that it does not name floats. -/
theorem test_pin_map : let s := withRst State.reset (fun r => { r with
      pinmap := [(0, BitVec.ofNat 16 (1 * 2 ^ 13 + 5)), (1, BitVec.ofNat 16 (2 * 2 ^ 13 + 5)), (3, BitVec.ofNat 16 (1 * 2 ^ 13 + 6))] })
    s.mapPin 5 = pinOf 1 ∧ s.mapPin 6 = .hiZ ∧ s.mapPin 7 = .hiZ := by decide +kernel

/-- No row of the opcode table gives a command any bits. -/
theorem test_no_row_has_bits : decodeTableWord 8 0 = none ∧ decodeTableWord 0 0 = none ∧ State.reset.withFetchWord 8 0 = State.reset := ⟨rfl, rfl, rfl⟩

end Sys2Proof.Tests
end

section
/-! Direct accesses of the host (R10, R398, R399, R519, R520): reads of status registers, and reads and writes through BAR2. -/
namespace Sys2Proof.Machine

open Sys2Proof

/-! ## Direct reads of a register -/

/-- Little-endian bytes hold a number's lowest bytes only. -/
theorem leBytes_mod (n x : Nat) : leBytes n (x % 256 ^ n) = leBytes n x := by
  induction n generalizing x with
  | zero => rfl
  | succ n ih =>
    have hlow : x % 256 ^ (n + 1) % 256 = x % 256 := Nat.mod_mod_of_dvd x (Dvd.intro_left _ rfl)
    have hhigh : x % 256 ^ (n + 1) / 256 = x / 256 % 256 ^ n := by
      rw [pow_succ, Nat.mul_comm, Nat.mod_mul_right_div_self]
    have hbyte : BitVec.ofNat 8 (x % 256 ^ (n + 1)) = BitVec.ofNat 8 x := BitVec.eq_of_toNat_eq hlow
    simp only [leBytes, hbyte, hhigh, ih]

/-- A slice of a register that is no byte-wise array is cut out of its value. -/
theorem State.regSlice_of_ne (s : State) {r : Reg} (sub n : Nat) (hroute : r ≠ .lnkRoute) (hmap : r ≠ .fusePinmap) :
    s.regSlice r sub n = s.regValue r / 2 ^ (8 * sub) % 2 ^ (8 * n) := by
  unfold State.regSlice
  split
  · exact absurd rfl hroute
  · exact absurd rfl hmap
  · rfl

/-- A direct read at the offset of a register answers its value and has the effect of its reading. -/
theorem State.directRead_of_regAccess (s : State) {off : Nat} {r : Reg} (h : regAccess off 4 = some (r, 0)) (hroute : r ≠ .lnkRoute)
    (hmap : r ≠ .fusePinmap) : s.directRead off = (s.readEffect r).answered (some (leBytes 4 (s.regValue r))) := by
  have hslice : leBytes 4 (s.regSlice r 0 4) = leBytes 4 (s.regValue r) := by
    rw [s.regSlice_of_ne 0 4 hroute hmap, Nat.mul_zero, pow_zero, Nat.div_one]
    exact leBytes_mod 4 _
  simp [State.directRead, State.readReg, h, hslice]

theorem regAccess_memStatusAt : regAccess memStatusAt 4 = some (.memStatus, 0) := by decide
theorem regAccess_esLostAt : regAccess esLostAt 4 = some (.esLost, 0) := by decide
theorem regAccess_hifStatusAt : regAccess hifStatusAt 4 = some (.hifStatus, 0) := by decide
theorem regAccess_pwrStatusAt : regAccess pwrStatusAt 4 = some (.pwrStatus, 0) := by decide
theorem regAccess_secStatusAt : regAccess secStatusAt 4 = some (.secStatus, 0) := by decide

/-- What each block answers for a register, in the order of the sum that is its value. -/
def State.blockValues (s : State) (r : Reg) : List Nat :=
  [s.hifValue r, s.rstcValue r, s.pwrValue r, s.muValue r, s.ccValue r, s.esValue r, s.lnkValue r, s.memValue r, s.seValue r, s.numValue r,
   s.secValue r, s.fuseValue r]

theorem State.regValue_eq_sum (s : State) (r : Reg) : s.regValue r = (s.blockValues r).sum := by
  simp only [State.regValue, State.blockValues, List.sum_cons, List.sum_nil, Nat.add_zero, Nat.add_assoc]

/-- A register for which all blocks but one answer zero has the value that this one answers. -/
theorem State.regValue_of_block (s : State) (r : Reg) {i : Nat} (hi : i < 12) (h : (s.blockValues r).eraseIdx i = List.replicate 11 0) :
    s.regValue r = (s.blockValues r)[i] := by
  rw [State.regValue_eq_sum, ← List.CommMonoid.add_sum_eraseIdx (l := s.blockValues r) hi, h]
  rfl

theorem State.regValue_memStatus (s : State) : s.regValue .memStatus = s.memValue .memStatus :=
  s.regValue_of_block .memStatus (i := 7) (by decide) rfl
theorem State.regValue_esLost (s : State) : s.regValue .esLost = s.esValue .esLost :=
  s.regValue_of_block .esLost (i := 5) (by decide) rfl
theorem State.regValue_hifStatus (s : State) : s.regValue .hifStatus = s.hifValue .hifStatus :=
  s.regValue_of_block .hifStatus (i := 0) (by decide) rfl
theorem State.regValue_pwrStatus (s : State) : s.regValue .pwrStatus = s.pwrValue .pwrStatus :=
  s.regValue_of_block .pwrStatus (i := 2) (by decide) rfl
theorem State.regValue_secStatus (s : State) : s.regValue .secStatus = s.secValue .secStatus :=
  s.regValue_of_block .secStatus (i := 10) (by decide) rfl

/-- A direct read of a status register while D03 is not Off. -/
theorem State.direct_directRead {s : State} (h : (s.dom 3).st ≠ .off) {off : Nat} {r : Reg} (hoff : regAccess off 4 = some (r, 0))
    (hroute : r ≠ .lnkRoute) (hmap : r ≠ .fusePinmap) :
    s.direct (·.directRead off) = .next ((s.readEffect r).answered (some (leBytes 4 (s.regValue r)))) := by
  rw [State.direct_on _ h, s.directRead_of_regAccess hoff hroute hmap]

section StatusReads
variable {s : State} (h : (s.dom 3).st ≠ .off)
include h

theorem exec_memStatusRead : exec .memStatusRead s =
    .next (({ s with mem := { s.mem with reason := 0 } } : State).answered (some (leBytes 4 s.mem.reason.toNat))) :=
  (State.direct_directRead h regAccess_memStatusAt (by decide) (by decide)).trans (by rw [State.regValue_memStatus]; rfl)
theorem exec_esLostRead : exec .esLostRead s =
    .next (({ s with es := { s.es with lost := 0 } } : State).answered (some (leBytes 4 s.es.lost.toNat))) :=
  (State.direct_directRead h regAccess_esLostAt (by decide) (by decide)).trans (by rw [State.regValue_esLost]; rfl)
theorem exec_hifStatusRead : exec .hifStatusRead s =
    .next (({ s with hif := { s.hif with reason := 0 } } : State).answered (some (leBytes 4 (s.hifValue .hifStatus)))) :=
  (State.direct_directRead h regAccess_hifStatusAt (by decide) (by decide)).trans (by rw [State.regValue_hifStatus]; rfl)
theorem exec_pwrStatusRead : exec .pwrStatusRead s =
    .next (({ s with pwr := { s.pwr with reason := 0 } } : State).answered (some (leBytes 4 (s.pwrValue .pwrStatus)))) :=
  (State.direct_directRead h regAccess_pwrStatusAt (by decide) (by decide)).trans (by rw [State.regValue_pwrStatus]; rfl)
theorem exec_secStatusRead : exec .secStatusRead s =
    .next (({ s with sec := { s.sec with reason := 0 } } : State).answered (some (leBytes 4 (s.secValue .secStatus)))) :=
  (State.direct_directRead h regAccess_secStatusAt (by decide) (by decide)).trans (by rw [State.regValue_secStatus]; rfl)

end StatusReads

/-! ## Poisoned writes -/

@[simp] theorem Run.plain_tainted (o : Nat) (bs : List Byte) : (Run.tainted o bs).plain = bs := by
  simp [Run.plain, Run.tainted, Function.comp_def]
@[simp] theorem Run.length_tainted (o : Nat) (bs : List Byte) : (Run.tainted o bs).length = bs.length := by simp [Run.tainted]
theorem Run.drop_tainted (o n : Nat) (bs : List Byte) : (Run.tainted o bs).drop n = Run.tainted o (bs.drop n) := List.map_drop.symm
theorem Run.take_tainted (o n : Nat) (bs : List Byte) : (Run.tainted o bs).take n = Run.tainted o (bs.take n) := List.map_take.symm

/-- A run that is poisoned throughout has the origin of its poison. -/
theorem Run.origin_tainted {o : Nat} (ho : o ≠ 0) {bs : List Byte} (hbs : bs ≠ []) : Run.origin (Run.tainted o bs) = o := by
  obtain ⟨b, bs, rfl⟩ := List.exists_cons_of_ne_nil hbs
  simp [Run.origin, Run.tainted, ho]

/-- Reading after writes of the keys `c + k`, each to a value of its own. -/
theorem tget_foldl_tset {α : Type} [DecidableEq α] (d : α) (c : Nat) (v : Nat → α) (l : List Nat) (q : Tab α) {w : Nat}
    (hw : w ∈ l.map (c + ·) ∨ tget d q w = v w) : tget d (l.foldl (fun q k => tset d q (c + k) (v (c + k))) q) w = v w := by
  induction l generalizing q with
  | nil => simpa using hw
  | cons k l ih =>
    refine ih _ ?_
    by_cases hk : w = c + k
    · exact .inr (by rw [hk, tget_tset_same])
    · rw [tget_tset_ne _ _ _ hk]
      simpa [hk] using hw

/-- The part of a nonempty range `[a, a + n)` that lies in a word which the range touches is not empty. -/
theorem wordPart_nonempty {g a n w : Nat} (hg : 0 < g) (hn : 0 < n) (hlo : a / g ≤ w) (hhi : w < (a + n + g - 1) / g) :
    max a (w * g) < min (a + n) ((w + 1) * g) := by
  have hstart : (w + 1) * g ≤ a + n + g - 1 := (Nat.le_div_iff_mul_le hg).1 hhi
  have hend : a < (w + 1) * g := (Nat.div_lt_iff_lt_mul hg).1 (Nat.lt_succ_of_le hlo)
  rw [Nat.add_mul, Nat.one_mul] at hstart hend ⊢
  omega

/-- A write that is poisoned throughout marks every word that it touches with its origin (R519). -/
theorem poisonMarks_tainted {g o : Nat} (hg : 0 < g) (ho : o ≠ 0) (base : Nat → Nat) (q : Tab Nat) (a : Nat) {bs : List Byte} (hbs : bs ≠ [])
    {w : Nat} (hlo : a / g ≤ w) (hhi : w < (a + bs.length + g - 1) / g) :
    tget 0 (poisonMarks g base q a (Run.tainted o bs)) w = o ^^^ base w := by
  unfold poisonMarks
  dsimp only
  rw [Run.length_tainted, List.foldl_ext _ (fun q k => tset 0 q (a / g + k) (o ^^^ base (a / g + k)))]
  · refine tget_foldl_tset 0 _ (fun w => o ^^^ base w) _ q (.inl (List.mem_map.2 ⟨w - a / g, ?_, by omega⟩))
    exact List.mem_range.2 (by omega)
  · intro q k hk
    have hk : k < (a + bs.length + g - 1) / g - a / g := by simpa [upTo] using hk
    have hpart := wordPart_nonempty (w := a / g + k) hg (List.length_pos_of_ne_nil hbs) (Nat.le_add_right _ _) (by omega)
    have hseg : (bs.drop (max a ((a / g + k) * g) - a)).take
        (min (a + bs.length) ((a / g + k + 1) * g) - max a ((a / g + k) * g)) ≠ [] := by
      rw [← List.length_pos_iff, List.length_take, List.length_drop]; omega
    rw [Run.drop_tainted, Run.take_tainted, Run.origin_tainted ho hseg, if_pos ho]

theorem Space.grain_pos (sp : Space) : 0 < sp.grain := by cases sp <;> decide

/-- The mark over a byte that a poisoned write has stored is the write's origin. -/
theorem Data.mark_write_tainted (d : Data) (sp : Space) {o : Nat} (ho : o ≠ 0) (a : Nat) (bs : List Byte) {x : Nat}
    (hx : a ≤ x ∧ x < a + bs.length) : (d.write sp a (Run.tainted o bs)).mark sp (x / sp.grain) = o := by
  obtain ⟨hax, hxn⟩ := hx
  have hg := sp.grain_pos
  have hbs : bs ≠ [] := by rintro rfl; simp at hxn; omega
  have hhi : x / sp.grain < (a + bs.length + sp.grain - 1) / sp.grain := by
    rw [Nat.lt_iff_add_one_le, Nat.le_div_iff_mul_le hg, Nat.add_mul, Nat.one_mul]
    have := Nat.div_mul_le_self x sp.grain
    omega
  unfold Data.mark
  rw [Data.markBase_write, Data.poison_write, poisonMarks_tainted hg ho _ _ _ hbs (Nat.div_le_div_right hax) hhi, Nat.xor_assoc,
    Nat.xor_self, Nat.xor_zero]

/-- A read answers a run whose every byte and mark stand in memory. -/
theorem Data.read_eq_of_getElem (d : Data) (sp : Space) (a : Nat) (r : Run)
    (h : ∀ i (hi : i < r.length), (d.byte sp (a + i), d.mark sp ((a + i) / sp.grain)) = r[i]) : d.read sp a r.length = r := by
  induction r generalizing a with
  | nil => rfl
  | cons x r ih =>
    rw [List.length_cons, Data.read]
    refine congrArg₂ _ (h 0 (Nat.succ_pos _)) (ih _ fun i hi => ?_)
    have hnext := h (i + 1) (Nat.succ_lt_succ hi)
    rwa [← Nat.add_assoc, Nat.add_right_comm, List.getElem_cons_succ] at hnext

/-- Poisoned data reads back as it was written, with its origin. -/
theorem Data.read_write_tainted (d : Data) (sp : Space) {o : Nat} (ho : o ≠ 0) (a : Nat) (bs : List Byte) :
    (d.write sp a (Run.tainted o bs)).read sp a bs.length = Run.tainted o bs := by
  have hread := (d.write sp a (Run.tainted o bs)).read_eq_of_getElem sp a (Run.tainted o bs) fun i hi => ?_
  · rwa [Run.length_tainted] at hread
  · rw [Run.length_tainted] at hi
    have hin : a ≤ a + i ∧ a + i < a + bs.length := by omega
    rw [Data.mark_write_tainted d sp ho a bs hin, Data.byte_write, Run.length_tainted, if_pos hin, Run.plain_tainted,
      Nat.add_sub_cancel_left, List.getD_eq_getElem _ _ hi]
    simp [Run.tainted]

/-! ## BAR2 -/

theorem State.cap_le (s : State) : s.cap ≤ 25769803776 := by
  unfold State.cap
  split <;> decide

theorem State.lt_stackTop_of_place {s : State} {a c off : Nat} (h : s.place a = .stack c off) : a < stackTop := by
  unfold State.place at h
  split at h
  · assumption
  · split_ifs at h
theorem State.lt_boardTop_of_place {s : State} {a c off : Nat} (h : s.place a = .board c off) : a < s.boardTop := by
  unfold State.place at h
  split at h
  · cases h
  · split at h
    · next hboard => exact of_decide_eq_true (Bool.and_eq_true_iff.1 hboard).2
    · split_ifs at h

/-- BAR2 reaches stacks and board memory only, which lie below the host window. -/
theorem State.lt_hostBase_of_bar2Serves {s : State} {a : Nat} (h : s.bar2Serves a = true) : a < hostBase := by
  unfold State.bar2Serves at h
  split at h
  · next hplace => exact (State.lt_stackTop_of_place hplace).trans (by decide)
  · next hplace =>
    have htop := State.lt_boardTop_of_place hplace
    have hcap := s.cap_le
    simp only [State.boardTop, boardBase, hostBase] at *
    omega
  · cases h

theorem State.bar2Serves_of_bar2Range {s : State} {a n : Nat} (h : s.bar2Range a n = true) : s.bar2Serves a = true := by
  have hpieces := List.all_eq_true.1 (Bool.and_eq_true_iff.1 h).1
  have hfirst := hpieces 0 (List.mem_range.2 (Nat.succ_pos _))
  rwa [Nat.add_zero, Nat.max_eq_left (Nat.div_mul_le_self a pageBytes)] at hfirst

theorem State.lt_hostBase_of_bar2Range {s : State} {a n : Nat} (h : s.bar2Range a n = true) : a < hostBase :=
  State.lt_hostBase_of_bar2Serves (State.bar2Serves_of_bar2Range h)

theorem State.devWrite_of_lt {s : State} {a : Nat} (r : Run) (h : a < hostBase) : s.devWrite a r = s.write .dev a r := if_pos h
theorem State.devRead_of_lt {s : State} {a : Nat} (n : Nat) (h : a < hostBase) : s.devRead a n = s.data.read .dev a n := if_pos h

/-- The run that a write through BAR2 stores: its data, all of it poisoned (ORIGIN 5) or all of it sound. -/
def bar2Run (poisoned : Bool) (data : List Byte) : Run := if poisoned then Run.tainted 5 data else Run.sound data

theorem bar2Stores_write (poisoned : Bool) (data : List Byte) : bar2Stores (.write poisoned) data = some (bar2Run poisoned data) := rfl
theorem bar2Stores_read (data : List Byte) : bar2Stores .read data = none := rfl
@[simp] theorem plain_bar2Run (poisoned : Bool) (data : List Byte) : (bar2Run poisoned data).plain = data := by
  cases poisoned
  · exact Run.plain_sound data
  · exact Run.plain_tainted 5 data
@[simp] theorem length_bar2Run (poisoned : Bool) (data : List Byte) : (bar2Run poisoned data).length = data.length := by
  cases poisoned
  · exact Run.length_sound data
  · exact Run.length_tainted 5 data

theorem exec_bar2Access (req : Bar2Req) (offset : Nat) (data : List Byte) (s : State) :
    exec (.bar2Access req offset data) s = execBar2Access req offset data s := rfl

section Bar2
variable {s : State} {offset : Nat} {data : List Byte} (hrate : s.hif.rate ≠ 0) (hd3 : s.hif.d3 = false) (hdata : data ≠ [])
  (hin : offset + data.length ≤ bar2Size)
include hrate hd3 hdata hin

/-- In RUN an access of the window is unsupported (R399). -/
theorem exec_bar2Access_run (req : Bar2Req) (hrun : s.rst.state = .run) :
    exec (.bar2Access req offset data) s = .next (s.unsupported (bar2Stores req data).isSome [1]) := by
  simp [exec_bar2Access, execBar2Access, hrate, hd3, hdata, Nat.not_lt.2 hin, hrun]

/-- Outside RUN a write of a range that BAR2 reaches is one write of device memory (R398). -/
theorem exec_bar2Access_write (poisoned : Bool) (hrun : s.rst.state ≠ .run) (hrange : s.bar2Range (s.hif.bar2.toNat + offset) data.length = true) :
    exec (.bar2Access (.write poisoned) offset data) s = .next (s.write .dev (s.hif.bar2.toNat + offset) (bar2Run poisoned data)) := by
  simp [exec_bar2Access, execBar2Access, hrate, hd3, hdata, Nat.not_lt.2 hin, hrun, hrange, bar2Stores_write,
    State.devWrite_of_lt _ (State.lt_hostBase_of_bar2Range hrange)]

/-- Outside RUN a read of such a range sends back what stands there (R398, R520). -/
theorem exec_bar2Access_read (hrun : s.rst.state ≠ .run) (hrange : s.bar2Range (s.hif.bar2.toNat + offset) data.length = true) :
    exec (.bar2Access .read offset data) s = .next (s.sendBack (s.devRead (s.hif.bar2.toNat + offset) data.length)) := by
  simp [exec_bar2Access, execBar2Access, hrate, hd3, hdata, Nat.not_lt.2 hin, hrun, hrange, bar2Stores_read]

end Bar2

/-- What a byte of device memory reads after a write. -/
theorem State.devByte_write (s : State) (a : Nat) (r : Run) (k : Nat) :
    (s.write .dev a r).devByte k = if a ≤ k ∧ k < a + r.length then r.plain.getD (k - a) 0 else s.devByte k := s.data.byte_write .dev a r k

theorem State.devRead_write_tainted (s : State) {a o : Nat} (ho : o ≠ 0) (bs : List Byte) (h : a < hostBase) :
    (s.write .dev a (Run.tainted o bs)).devRead a bs.length = Run.tainted o bs := by
  rw [State.devRead_of_lt _ h]
  exact s.data.read_write_tainted .dev ho a bs

/-! ## The obligation -/

/-- Settles O49: a write of the window is one write of device memory, whose bytes and marks the laws of memory give; a status register's read
is the direct read of its offset. -/
theorem directAccesses : Obligations.DirectAccesses := by
  unfold Obligations.DirectAccesses
  refine ⟨fun s poisoned offset data hrate hd3 hdata hin => ⟨fun hrun hrange => ?_, fun hrun => ?_⟩, fun s h => ?_⟩
  · have hwrite := exec_bar2Access_write hrate hd3 hdata hin poisoned hrun hrange
    refine ⟨⟨_, hwrite, fun k => ?_, fun hpoisoned => ?_, rfl, rfl, rfl⟩, exec_bar2Access_read hrate hd3 hdata hin hrun hrange⟩
    · rw [State.devByte_write, length_bar2Run, plain_bar2Run]
    · subst hpoisoned
      exact s.devRead_write_tainted (by decide) data (State.lt_hostBase_of_bar2Range hrange)
  · exact ⟨exec_bar2Access_run hrate hd3 hdata hin _ hrun, exec_bar2Access_run hrate hd3 hdata hin _ hrun⟩
  · exact ⟨exec_memStatusRead h, exec_esLostRead h, exec_hifStatusRead h, exec_pwrStatusRead h, exec_secStatusRead h⟩

end Sys2Proof.Machine
end

section
/-! Flits at the router outputs of the spine (R42 to R48) and requests at the weirs (R314 to R319, R337). -/
namespace Sys2Proof.Machine

open Sys2Proof

/-! ## Breaches on the spine -/

/-- A partition whose flits are policed: it runs or is FROZEN (R47). -/
abbrev State.Policed (s : State) (q : Nat) : Prop := q < 8 ∧ ((s.part q).status = .running ∨ (s.part q).status = .frozen)

theorem State.Drifts.policed {s t : State} (h : s.Drifts t) {q : Nat} (hq : s.Policed q) : t.Policed q := by
  obtain ⟨hstatus, -⟩ := h.part q
  rwa [State.Policed, hstatus]

/-- A further cause leaves the earlier ones standing. -/
theorem Part.mem_causes_addCauseAt {x : Part} {c : Cause} (d : Cause) (b : Nat) (h : c ∈ x.causes) : c ∈ (x.addCauseAt d b).causes := by
  have hmem : c ∈ (if x.causes.contains d then x.causes else x.causes ++ [d]) := by
    split
    · exact h
    · exact List.mem_append_left _ h
  unfold Part.addCauseAt
  dsimp only
  split <;> exact hmem

theorem State.mem_causes_breach {s : State} {q : Nat} {c : Cause} (p cyc : Nat) (b : BreachInfo) (h : c ∈ (s.part q).causes) :
    c ∈ ((s.breach p cyc b).part q).causes := by
  by_cases hq : q = p
  · subst hq
    rw [State.part_breach]
    exact Part.mem_causes_addCauseAt _ _ h
  · rwa [State.part_breach_ne _ _ _ hq]

section SpineBreach
variable (s : State) (cls router out cyc p source : Nat) (other : Option Nat)

theorem State.spineBreach_of_policed {s : State} {p : Nat} (h : s.Policed p) :
    ∃ b, s.spineBreach cls router out cyc p source other = s.breach p (s.part p).cycle b := by
  obtain ⟨hp, hstatus⟩ := h
  refine ⟨_, if_neg ?_⟩
  rcases hstatus with hstatus | hstatus <;> simp [hp, hstatus]

/-- Traffic that is no partition's leaves no record. -/
theorem State.spineBreach_of_le {p : Nat} (h : 8 ≤ p) : s.spineBreach cls router out cyc p source other = s := by
  simp [State.spineBreach, h]

theorem State.spineBreach_cases : s.spineBreach cls router out cyc p source other = s ∨
    ∃ b, s.spineBreach cls router out cyc p source other = s.breach p (s.part p).cycle b := by
  unfold State.spineBreach
  split
  · exact .inl rfl
  · exact .inr ⟨_, rfl⟩

theorem State.drifts_spineBreach : s.Drifts (s.spineBreach cls router out cyc p source other) := by
  obtain h | ⟨b, h⟩ := s.spineBreach_cases cls router out cyc p source other <;> rw [h]
  · exact .refl _
  · exact s.drifts_breach _ _ _

@[simp] theorem State.spineBreach_spine : (s.spineBreach cls router out cyc p source other).spine = s.spine := by
  obtain h | ⟨b, h⟩ := s.spineBreach_cases cls router out cyc p source other <;> rw [h]
  obtain ⟨cc, es, h⟩ := s.breach_frame p (s.part p).cycle b
  rw [h]

@[simp] theorem State.spineBreach_data : (s.spineBreach cls router out cyc p source other).data = s.data := by
  obtain ⟨-, hdata, -⟩ := (s.drifts_spineBreach cls router out cyc p source other).frame
  exact hdata

theorem State.part_spineBreach_ne {p q : Nat} (h : q ≠ p) : (s.spineBreach cls router out cyc p source other).part q = s.part q := by
  obtain h' | ⟨b, h'⟩ := s.spineBreach_cases cls router out cyc p source other <;> rw [h']
  exact State.part_breach_ne _ _ _ h

theorem State.breach_mem_spineBreach {s : State} {p : Nat} (h : s.Policed p) :
    Cause.breach ∈ ((s.spineBreach cls router out cyc p source other).part p).causes := by
  obtain ⟨b, hb⟩ := State.spineBreach_of_policed cls router out cyc source other h
  rw [hb, State.part_breach]
  exact Part.addCause_mem _ _ _

theorem State.mem_causes_spineBreach {s : State} {q : Nat} {c : Cause} (h : c ∈ (s.part q).causes) :
    c ∈ ((s.spineBreach cls router out cyc p source other).part q).causes := by
  obtain h' | ⟨b, h'⟩ := s.spineBreach_cases cls router out cyc p source other <;> rw [h']
  · exact h
  · exact State.mem_causes_breach _ _ _ h

end SpineBreach

/-! ## A flit at an output -/

theorem State.drifts_toInput (s : State) (r : Nat) (f : Flit) : s.Drifts (s.toInput r f) := by
  unfold State.toInput
  split
  · split
    · exact s.drifts_toClk _
    · exact .refl _
  · exact .refl _

theorem State.takeFlit_frame (s : State) (r out : Nat) (f : Flit) : ∃ sp, s.takeFlit r out f = { s with spine := sp } := by
  unfold State.takeFlit
  split
  · exact ⟨_, rfl⟩
  · exact ⟨_, rfl⟩

@[simp] theorem State.takeFlit_data (s : State) (r out : Nat) (f : Flit) : (s.takeFlit r out f).data = s.data := by
  obtain ⟨sp, h⟩ := s.takeFlit_frame r out f
  rw [h]

@[simp] theorem State.toInput_data (s : State) (r : Nat) (f : Flit) : (s.toInput r f).data = s.data := by
  obtain ⟨-, hdata, -⟩ := (s.drifts_toInput r f).frame
  exact hdata

theorem State.checkFlit_sound (s : State) {f : Flit} (where' : Nat) (h : f.fault = .none) : s.checkFlit f where' = s := by
  simp [State.checkFlit, h]
theorem State.checkFlit_header (s : State) {f : Flit} (where' : Nat) (h : f.fault = .header) : s.checkFlit f where' = s.secUnc 4 where' := by
  simp [State.checkFlit, h]
theorem checkedFlit_sound {f : Flit} (h : f.fault = .none) : checkedFlit f = f := by
  obtain ⟨_, _, _, _, _, _, _, _, _, fault⟩ := f
  subst h
  simp [checkedFlit]

/-- In a guard cycle every flit is outside its frames (R44). -/
theorem State.frameAllotted_guard (s : State) (q : Nat) {cyc : Nat} (h : guardCycle cyc = true) : s.frameAllotted q cyc = false := by
  simp [State.frameAllotted, h]

/-- The flit that an output has taken last, as the model remembers it; none has input 0. -/
def State.lastAt (s : State) (key : Nat) : LastFlit := tget ⟨0, 0, 0, 0, false⟩ s.spine.last key
def State.setLast (s : State) (key : Nat) (l : LastFlit) : State :=
  { s with spine := { s.spine with last := tset ⟨0, 0, 0, 0, false⟩ s.spine.last key l } }

/-- The records of two flits that meet at an output: one for each partition, a single one where both are the same partition's (R47). -/
def State.collision (s : State) (r out cyc : Nat) (f : Flit) (last : LastFlit) : State :=
  if last.partition = flitOwner f then s.spineBreach 5 r out cyc last.partition last.source (some f.source)
  else (s.spineBreach 5 r out cyc last.partition last.source (some f.source)).spineBreach 5 r out cyc (flitOwner f) f.source (some last.source)

/-- What a sound flit does at an output: it goes on where it is in a frame of its owner and has met no other; else its records are made, and
the flit that it has met is not forwarded either (R42, R46, R47). -/
def State.judgeFlit (s : State) (r out cyc : Nat) (f : Flit) (last : LastFlit) (allotted met : Bool) : State :=
  let s := if allotted then s else s.spineBreach 4 r out cyc (flitOwner f) f.source none
  let s := if !met then s else s.collision r out cyc f last
  let s := if met && last.sent then s.withdraw (r * 16 + out) else s
  let s := if allotted && !met then s.sendOn r out (checkedFlit f) else s
  s.setLast (r * 16 + out) (flitSeen cyc f (allotted && !met))

/-- Another flit has taken the output in this cycle (R46). -/
def State.meets (s : State) (key cyc : Nat) : Bool := decide ((s.lastAt key).input ≠ 0) && (s.lastAt key).cycle == cyc

/-- The same, as a proposition. -/
abbrev State.Met (s : State) (key cyc : Nat) : Prop := (s.lastAt key).input ≠ 0 ∧ (s.lastAt key).cycle = cyc

theorem State.meets_iff {s : State} {key cyc : Nat} : s.meets key cyc = true ↔ s.Met key cyc := by
  rw [State.meets, Bool.and_eq_true, decide_eq_true_iff, beq_iff_eq]

/-- A flit can leave by an output: it stands next at its input, the output is one of its route, and no copy of it has taken that one
(R42, R48, R53). -/
def State.canLeave (s : State) (r out : Nat) (f : Flit) : Bool :=
  routerOk r && outputOk r out && s.routerUp r && (s.routes r f).contains out && s.atInput r f && !s.copied r out f

theorem exec_spineFlit (r out : Nat) (f : Flit) (s : State) : exec (.spineFlit r out f) s = execSpineFlit r out f s := rfl

theorem State.not_canLeave (s : State) (r out : Nat) (f : Flit) : (!routerOk r || !outputOk r out || !s.routerUp r ||
    !(s.routes r f).contains out || !s.atInput r f || s.copied r out f) = !s.canLeave r out f := by
  simp only [State.canLeave, Bool.not_and, Bool.not_not]

/-- One that cannot leave there changes nothing. -/
theorem exec_spineFlit_stays {s : State} {r out : Nat} {f : Flit} (h : s.canLeave r out f = false) :
    exec (.spineFlit r out f) s = .next s := by
  rw [exec_spineFlit, execSpineFlit, State.not_canLeave, h]
  rfl

section FlitLeaves
variable {s u : State} {r out : Nat} {f : Flit} (h : s.canLeave r out f = true) (hu : (s.toInput r f).takeFlit r out f = u)
include h hu

/-- One that can has its check codes looked at; with an error in its header it is discarded (R517), else it is judged. -/
theorem exec_spineFlit_leaves {v : State}
    (hv : u.checkFlit f (whereRes (resFrame r out (spineFrame (u.clk / spinePeriod)))) = v) :
    exec (.spineFlit r out f) s = .next (if f.fault = .header then v else v.judgeFlit r out (u.clk / spinePeriod) f (v.lastAt (r * 16 + out))
      (v.frameAllotted (flitOwner f) (u.clk / spinePeriod)) (v.meets (r * 16 + out) (u.clk / spinePeriod))) := by
  subst hu hv
  rw [exec_spineFlit, execSpineFlit, State.not_canLeave, h]
  rfl

theorem exec_spineFlit_header (hf : f.fault = .header) : ∃ w, exec (.spineFlit r out f) s = .next (u.secUnc 4 w) :=
  ⟨_, by rw [exec_spineFlit_leaves h hu (State.checkFlit_header u _ hf), if_pos hf]⟩

theorem exec_spineFlit_sound {cyc : Nat} (hcyc : u.clk / spinePeriod = cyc) (hf : f.fault = .none) : exec (.spineFlit r out f) s =
    .next (u.judgeFlit r out cyc f (u.lastAt (r * 16 + out)) (u.frameAllotted (flitOwner f) cyc) (u.meets (r * 16 + out) cyc)) := by
  rw [exec_spineFlit_leaves h hu (State.checkFlit_sound u _ hf), if_neg (by rw [hf]; decide), hcyc]

end FlitLeaves

/-! ## What the judgement changes -/

@[simp] theorem State.setLast_data (s : State) (key : Nat) (l : LastFlit) : (s.setLast key l).data = s.data := rfl
@[simp] theorem State.setLast_part (s : State) (key : Nat) (l : LastFlit) (q : Nat) : (s.setLast key l).part q = s.part q := rfl
@[simp] theorem State.setLast_link (s : State) (key : Nat) (l : LastFlit) (k : Nat) : (s.setLast key l).link k = s.link k := rfl
@[simp] theorem State.setLast_links (s : State) (key : Nat) (l : LastFlit) : (s.setLast key l).spine.links = s.spine.links := rfl
@[simp] theorem State.lastAt_setLast (s : State) (key : Nat) (l : LastFlit) : (s.setLast key l).lastAt key = l := tget_tset_same _ _ _ _

section Judged
variable {s : State} {r out cyc : Nat} {f : Flit} {last : LastFlit}

theorem State.judgeFlit_sent (hf : f.fault = .none) : s.judgeFlit r out cyc f last true false =
    (s.sendOn r out f).setLast (r * 16 + out) (flitSeen cyc f true) := by
  rw [← checkedFlit_sound hf]; rfl

theorem State.judgeFlit_outside : s.judgeFlit r out cyc f last false false =
    (s.spineBreach 4 r out cyc (flitOwner f) f.source none).setLast (r * 16 + out) (flitSeen cyc f false) := rfl

end Judged

/-- Two flits have met at an output: from `s` to `t` each partition has got its breach, and no other partition has changed (R47). -/
structure State.Collided (s t : State) (p q : Nat) : Prop where
  spine : t.spine = s.spine
  data : t.data = s.data
  left : Cause.breach ∈ (t.part p).causes
  right : Cause.breach ∈ (t.part q).causes
  others : ∀ r, r ≠ p → r ≠ q → t.part r = s.part r

theorem State.collided_collision {s : State} {r out cyc : Nat} {f : Flit} {last : LastFlit} (ho : s.Policed (flitOwner f))
    (hl : s.Policed last.partition) : s.Collided (s.collision r out cyc f last) (flitOwner f) last.partition := by
  unfold State.collision
  split
  · next heq =>
    have hbreach := State.breach_mem_spineBreach 5 r out cyc last.source (some f.source) hl
    exact ⟨by simp, by simp, heq ▸ hbreach, hbreach, fun q _ hq => State.part_spineBreach_ne _ _ _ _ _ _ _ hq⟩
  · have ho' := (s.drifts_spineBreach 5 r out cyc last.partition last.source (some f.source)).policed ho
    have hlast := State.breach_mem_spineBreach 5 r out cyc last.source (some f.source) hl
    exact ⟨by simp, by simp, State.breach_mem_spineBreach _ _ _ _ _ _ ho', State.mem_causes_spineBreach _ _ _ _ _ _ _ hlast,
      fun q hqo hql => (State.part_spineBreach_ne _ _ _ _ _ _ _ hqo).trans (State.part_spineBreach_ne _ _ _ _ _ _ _ hql)⟩

/-- Of two flits that meet neither is forwarded, whether the second one is in its frames or not (R47). -/
theorem State.judgeFlit_met {s : State} {r out cyc : Nat} {f : Flit} {last : LastFlit} (allotted : Bool) (ho : s.Policed (flitOwner f))
    (hl : s.Policed last.partition) : ∃ v : State, s.judgeFlit r out cyc f last allotted true =
        ((if last.sent then v.withdraw (r * 16 + out) else v).setLast (r * 16 + out) (flitSeen cyc f false)) ∧
      s.Collided v (flitOwner f) last.partition := by
  cases allotted
  case true => exact ⟨s.collision r out cyc f last, rfl, State.collided_collision ho hl⟩
  case false =>
    have hdrift := s.drifts_spineBreach 4 r out cyc (flitOwner f) f.source none
    obtain ⟨hspine, hdata, hleft, hright, hothers⟩ :=
      State.collided_collision (r := r) (out := out) (cyc := cyc) (hdrift.policed ho) (hdrift.policed hl)
    exact ⟨_, rfl, hspine.trans (by simp), hdata.trans (by simp), hleft, hright,
      fun q hqo hql => (hothers q hqo hql).trans (State.part_spineBreach_ne _ _ _ _ _ _ _ hqo)⟩

/-! ## SPINE_FLIT -/

section SpineFlit
variable {s u : State} {r out cyc : Nat} {f : Flit} (h : s.canLeave r out f = true) (hu : (s.toInput r f).takeFlit r out f = u)
  (hcyc : u.clk / spinePeriod = cyc) (hf : f.fault = .none)
include hu in
theorem data_of_takeFlit : u.data = s.data := by
  rw [← hu, State.takeFlit_data, State.toInput_data]

include h hu

/-- A flit with an error in its header goes nowhere (R517). -/
theorem spineFlit_discarded (hf : f.fault = .header) :
    ∃ t, exec (.spineFlit r out f) s = .next t ∧ t.spine = u.spine ∧ t.parts = u.parts ∧ t.data = s.data := by
  obtain ⟨w, hw⟩ := exec_spineFlit_header h hu hf
  exact ⟨_, hw, rfl, rfl, (data_of_takeFlit hu :)⟩

include hcyc hf

theorem exec_spineFlit_alone {allotted : Bool} (hm : ¬ u.Met (r * 16 + out) cyc) (ha : u.frameAllotted (flitOwner f) cyc = allotted) :
    exec (.spineFlit r out f) s = .next (u.judgeFlit r out cyc f (u.lastAt (r * 16 + out)) allotted false) := by
  rw [exec_spineFlit_sound h hu hcyc hf, ha, Bool.eq_false_iff.2 (mt State.meets_iff.1 hm)]

/-- In a frame of its owner, and alone at the output, it goes on (R42, R46). -/
theorem spineFlit_goesOn (hm : ¬ u.Met (r * 16 + out) cyc) (ha : u.frameAllotted (flitOwner f) cyc = true) :
    ∃ t, exec (.spineFlit r out f) s = .next t ∧ t.link (r * 16 + out) = u.link (r * 16 + out) ++ [{ flit := onward f r out, left := u.clk }] ∧
      (∀ k, k ≠ r * 16 + out → t.link k = u.link k) ∧ t.lastAt (r * 16 + out) = flitSeen cyc f true ∧ ({ t with spine := u.spine } : State) = u := by
  refine ⟨_, exec_spineFlit_alone h hu hcyc hf hm ha, ?_⟩
  rw [State.judgeFlit_sent hf]
  exact ⟨State.link_setLink _ _ _, fun k hk => State.link_setLink_ne _ _ hk, State.lastAt_setLast _ _ _, rfl⟩

/-- The control complex's traffic outside frame 31 is not forwarded, and leaves no record (R44). -/
theorem spineFlit_outside_complex (hm : ¬ u.Met (r * 16 + out) cyc) (ha : u.frameAllotted (flitOwner f) cyc = false) (ho : flitOwner f = 8) :
    ∃ t, exec (.spineFlit r out f) s = .next t ∧ t.spine.links = u.spine.links ∧ t.data = s.data := by
  refine ⟨_, exec_spineFlit_alone h hu hcyc hf hm ha, ?_⟩
  rw [State.judgeFlit_outside, State.spineBreach_of_le _ _ _ _ _ _ _ ho.ge]
  exact ⟨rfl, (data_of_takeFlit hu :)⟩

/-- A partition's outside its frames is not forwarded, and is a breach of the partition alone (R47). -/
theorem spineFlit_outside (hm : ¬ u.Met (r * 16 + out) cyc) (ha : u.frameAllotted (flitOwner f) cyc = false) (ho : u.Policed (flitOwner f)) :
    ∃ t, exec (.spineFlit r out f) s = .next t ∧ t.spine.links = u.spine.links ∧ t.lastAt (r * 16 + out) = flitSeen cyc f false ∧
      Cause.breach ∈ (t.part (flitOwner f)).causes ∧ (∀ q, q ≠ flitOwner f → t.part q = u.part q) ∧ t.data = s.data := by
  refine ⟨_, exec_spineFlit_alone h hu hcyc hf hm ha, ?_⟩
  rw [State.judgeFlit_outside]
  refine ⟨?_, State.lastAt_setLast _ _ _, State.breach_mem_spineBreach _ _ _ _ _ _ ho, fun q hq => State.part_spineBreach_ne _ _ _ _ _ _ _ hq, ?_⟩
  · rw [State.setLast_links, State.spineBreach_spine]
  · rw [State.setLast_data, State.spineBreach_data, data_of_takeFlit hu]

/-- Of two that meet neither is forwarded, and each partition has its breach (R47). -/
theorem spineFlit_met (hm : u.Met (r * 16 + out) cyc) (ho : u.Policed (flitOwner f)) (hl : u.Policed (u.lastAt (r * 16 + out)).partition) :
    ∃ t, exec (.spineFlit r out f) s = .next t ∧
      t.link (r * 16 + out) = (if (u.lastAt (r * 16 + out)).sent then (u.link (r * 16 + out)).dropLast else u.link (r * 16 + out)) ∧
      (∀ k, k ≠ r * 16 + out → t.link k = u.link k) ∧ Cause.breach ∈ (t.part (flitOwner f)).causes ∧
      Cause.breach ∈ (t.part (u.lastAt (r * 16 + out)).partition).causes ∧
      (∀ q, q ≠ flitOwner f → q ≠ (u.lastAt (r * 16 + out)).partition → t.part q = u.part q) ∧ t.data = s.data := by
  obtain ⟨v, hv, hspine, hdata, hleft, hright, hothers⟩ :=
    State.judgeFlit_met (r := r) (out := out) (cyc := cyc) (u.frameAllotted (flitOwner f) cyc) ho hl
  have hlink (k : Nat) : v.link k = u.link k := congrArg (fun sp : SpineRegs => tget [] sp.links k) hspine
  refine ⟨_, exec_spineFlit_sound h hu hcyc hf, ?_⟩
  rw [State.meets_iff.2 hm, hv, State.setLast_link, State.setLast_data]
  simp only [State.setLast_link, State.setLast_part]
  rw [← data_of_takeFlit hu, ← hdata]
  cases (u.lastAt (r * 16 + out)).sent
  case false => exact ⟨hlink _, fun k _ => hlink k, hleft, hright, hothers, rfl⟩
  case true =>
    exact ⟨(State.link_setLink _ _ _).trans (congrArg _ (hlink _)), fun k hk => (State.link_setLink_ne _ _ hk).trans (hlink k), hleft, hright,
      hothers, rfl⟩

end SpineFlit

/-! ## What enters a weir -/

section Admission
variable {depth : Nat} {blocked : List Nat} {q rest : List WeirReq} {r : WeirReq}

theorem admitHeld_held (hb : (blocked.contains r.agent || heldBack q r) = true) : admitHeld depth blocked q (r :: rest) =
    { admitHeld depth (r.agent :: blocked) q rest with held := r :: (admitHeld depth (r.agent :: blocked) q rest).held } := by
  rw [admitHeld, if_pos hb]

theorem admitHeld_enters (hb : (blocked.contains r.agent || heldBack q r) = false) (hfit : weirFillOf q + r.tokens ≤ depth) (hr : r.rest = 0) :
    admitHeld depth blocked q (r :: rest) = admitHeld depth blocked (q ++ [r]) rest := by
  rw [admitHeld, if_neg (ne_true_of_eq_false hb), if_pos hfit, hr]

theorem admitHeld_enters_first {k : Nat} (hb : (blocked.contains r.agent || heldBack q r) = false) (hfit : weirFillOf q + r.tokens ≤ depth)
    (hr : r.rest = k + 1) : admitHeld depth blocked q (r :: rest) =
      let a := admitHeld depth (r.agent :: blocked) (q ++ [{ r with rest := 0 }]) rest
      { a with held := { r with rest := k, offered := false } :: a.held } := by
  rw [admitHeld, if_neg (ne_true_of_eq_false hb), if_pos hfit, hr]

theorem admitHeld_refused (hb : (blocked.contains r.agent || heldBack q r) = false) (hfit : depth < weirFillOf q + r.tokens) :
    admitHeld depth blocked q (r :: rest) =
      let a := admitHeld depth (r.agent :: blocked) q rest
      { a with held := { r with offered := true } :: a.held, refused := if r.offered then a.refused else (r, weirFillOf q + r.tokens) :: a.refused } := by
  rw [admitHeld, if_neg (ne_true_of_eq_false hb), if_neg (Nat.not_le.2 hfit)]

end Admission

/-- An offer takes nothing out of a queue. -/
theorem length_le_admitHeld (depth : Nat) (blocked : List Nat) (q h : List WeirReq) :
    q.length ≤ (admitHeld depth blocked q h).queue.length := by
  have hgrow (q : List WeirReq) (r : WeirReq) : q.length ≤ (q ++ [r]).length := by simp
  fun_induction admitHeld depth blocked q h with
  | case1 => exact le_rfl
  | case2 _ _ _ _ _ _ ih => exact ih
  | case3 _ _ _ _ _ _ _ ih => exact (hgrow _ _).trans ih
  | case4 _ _ _ _ _ _ _ _ _ ih => exact (hgrow _ _).trans ih
  | case5 _ _ _ _ _ _ _ ih => exact ih

/-- A request that an offer leaves held as it was is held back, or has been refused before: either way it goes on blocking its sender, and whatever
stands behind it is offered as if it were not there. -/
theorem admitHeld_cons_stays {depth : Nat} {q h : List WeirReq} {r : WeirReq} {blocked : List Nat}
    (hstay : admitHeld depth blocked q (r :: h) = { queue := q, held := r :: h, refused := [] }) :
    admitHeld depth (r.agent :: blocked) q h = { queue := q, held := h, refused := [] } ∧
    ∀ rest, admitHeld depth blocked q (r :: rest) =
      { admitHeld depth (r.agent :: blocked) q rest with held := r :: (admitHeld depth (r.agent :: blocked) q rest).held } := by
  cases hb : blocked.contains r.agent || heldBack q r
  case true =>
    refine ⟨?_, fun rest => admitHeld_held hb⟩
    rw [admitHeld_held hb, Admission.mk.injEq, List.cons.injEq] at hstay
    obtain ⟨hq, ⟨-, hh⟩, hl⟩ := hstay
    exact Admission.mk.injEq .. ▸ ⟨hq, hh, hl⟩
  case false =>
    by_cases hfit : weirFillOf q + r.tokens ≤ depth
    · cases hr : r.rest with
      | zero =>
        have hlen := length_le_admitHeld depth blocked (q ++ [r]) h
        rw [← admitHeld_enters hb hfit hr, hstay] at hlen
        simp at hlen
      | succ k =>
        rw [admitHeld_enters_first hb hfit hr, Admission.mk.injEq, List.cons.injEq] at hstay
        obtain ⟨-, ⟨hsame, -⟩, -⟩ := hstay
        have hrest := congrArg WeirReq.rest hsame
        simp [hr] at hrest
    · have hout := Nat.not_le.1 hfit
      rw [admitHeld_refused hb hout, Admission.mk.injEq, List.cons.injEq] at hstay
      obtain ⟨hq, ⟨hsame, hh⟩, hl⟩ := hstay
      have hoffered : r.offered = true := (congrArg WeirReq.offered hsame).symm
      rw [hoffered, if_pos rfl] at hl
      refine ⟨Admission.mk.injEq .. ▸ ⟨hq, hh, hl⟩, fun rest => ?_⟩
      rw [admitHeld_refused hb hout]
      simp only [hsame, hoffered, if_true]

/-- What waits at a queue and cannot enter it blocks what is offered behind it only for its own senders (R319, R337). -/
theorem admitHeld_append {depth : Nat} {q : List WeirReq} (r : WeirReq) (h : List WeirReq) : ∀ (blocked : List Nat),
    admitHeld depth blocked q h = { queue := q, held := h, refused := [] } →
    admitHeld depth blocked q (h ++ [r]) =
      let a := admitHeld depth ((h.map (·.agent)).reverse ++ blocked) q [r]
      { a with held := h ++ a.held } := by
  induction h with
  | nil => exact fun _ _ => rfl
  | cons x h ih =>
    intro blocked hstay
    obtain ⟨hrest, hcons⟩ := admitHeld_cons_stays hstay
    rw [List.cons_append, hcons, ih _ hrest]
    simp

@[simp] theorem State.weirQueue_putQueue (s : State) (key : Nat) (q : List WeirReq) : (s.putQueue key q).weirQueue key = q :=
  tget_tset_same _ _ _ _
@[simp] theorem State.weirHeld_putHeld (s : State) (key : Nat) (h : List WeirReq) : (s.putHeld key h).weirHeld key = h := tget_tset_same _ _ _ _
@[simp] theorem State.weirQueue_putHeld (s : State) (key k : Nat) (h : List WeirReq) : (s.putHeld key h).weirQueue k = s.weirQueue k := rfl
@[simp] theorem State.weirHeld_putQueue (s : State) (key k : Nat) (q : List WeirReq) : (s.putQueue key q).weirHeld k = s.weirHeld k := rfl
theorem State.weirQueue_putQueue_ne (s : State) {key k : Nat} (q : List WeirReq) (h : k ≠ key) :
    (s.putQueue key q).weirQueue k = s.weirQueue k := tget_tset_ne _ _ _ h
theorem State.weirHeld_putHeld_ne (s : State) {key k : Nat} (l : List WeirReq) (h : k ≠ key) :
    (s.putHeld key l).weirHeld k = s.weirHeld k := tget_tset_ne _ _ _ h

/-- From `s` to `t` one queue and what senders hold at it have changed, and nothing else. -/
structure State.Requeued (s t : State) (key : Nat) (q h : List WeirReq) : Prop where
  frame : ({ t with mem := s.mem } : State) = s
  queue : t.weirQueue key = q
  held : t.weirHeld key = h
  others : ∀ k, k ≠ key → t.weirQueue k = s.weirQueue k ∧ t.weirHeld k = s.weirHeld k

theorem State.Requeued.data {s t : State} {key : Nat} {q h : List WeirReq} (H : s.Requeued t key q h) : t.data = s.data :=
  by have h := congrArg State.data H.frame; exact h
theorem State.Requeued.part {s t : State} {key : Nat} {q h : List WeirReq} (H : s.Requeued t key q h) (o : Nat) : t.part o = s.part o :=
  by have h := congrArg (State.part · o) H.frame; exact h

theorem State.putQueue_with_mem (s : State) (key : Nat) (q : List WeirReq) (m : MemRegs) :
    ({ s.putQueue key q with mem := m } : State) = { s with mem := m } := rfl
theorem State.putHeld_with_mem (s : State) (key : Nat) (h : List WeirReq) (m : MemRegs) :
    ({ s.putHeld key h with mem := m } : State) = { s with mem := m } := rfl

/-- A request offered at a queue that nothing held can enter: what the offer makes of it alone, behind what is held. -/
theorem offer_of_holds {s : State} {key : Nat} {a : Admission} (r : WeirReq)
    (hstay : holds s key (s.weirDepth (key % 65536 / 16) (key % 16)))
    (ha : admitHeld (s.weirDepth (key % 65536 / 16) (key % 16)) ((s.weirHeld key).map (·.agent)).reverse (s.weirQueue key) [r] = a) :
    ∃ u, s.Requeued u key a.queue (s.weirHeld key ++ a.held) ∧
      s.offer key [r] = State.overruns (u, a.refused.map (fun x => { at' := s.clk, key := key, req := x.1, tokens := x.2 })) := by
  have happ := admitHeld_append r _ _ hstay
  rw [List.append_nil, ha] at happ
  refine ⟨((s.putHeld key (s.weirHeld key ++ [r])).putQueue key a.queue).putHeld key (s.weirHeld key ++ a.held),
    ⟨by rw [State.putHeld_with_mem, State.putQueue_with_mem, State.putHeld_with_mem], by simp, by simp, fun k hk => ?_⟩, ?_⟩
  · simp [State.weirQueue_putQueue_ne _ _ hk, State.weirHeld_putHeld_ne _ _ hk]
  · have hdepth (w o : Nat) : (s.putHeld key (s.weirHeld key ++ [r])).weirDepth w o = s.weirDepth w o := rfl
    rw [State.offer, State.offerAt, State.offerHeld, State.weirHeld_putHeld, State.weirQueue_putHeld, hdepth, happ]

/-! ## The record of a request that a queue refuses -/

theorem State.weirOverrun_cases (s : State) (v : Overrun) : s.weirOverrun v = s ∨ ∃ cyc b, s.weirOverrun v = s.breach (v.key % 16) cyc b := by
  unfold State.weirOverrun
  dsimp only
  split
  · exact .inr ⟨_, _, rfl⟩
  · exact .inl rfl

theorem State.breach_mem_weirOverrun {s : State} {v : Overrun} (h : s.Policed (v.key % 16)) :
    Cause.breach ∈ ((s.weirOverrun v).part (v.key % 16)).causes := by
  obtain ⟨ho, hstatus⟩ := h
  have hcond : (decide (v.key % 16 < 8) && (decide ((s.part (v.key % 16)).status = .running) ||
      decide ((s.part (v.key % 16)).status = .frozen))) = true := by simpa [ho] using hstatus
  unfold State.weirOverrun
  dsimp only
  rw [if_pos hcond, State.part_breach]
  exact Part.addCause_mem _ _ _

theorem State.weirOverrun_mem (s : State) (v : Overrun) : (s.weirOverrun v).mem = s.mem := by
  obtain h | ⟨cyc, b, h⟩ := s.weirOverrun_cases v <;> rw [h]
  obtain ⟨cc, es, h⟩ := s.breach_frame (v.key % 16) cyc b
  rw [h]
theorem State.weirOverrun_data (s : State) (v : Overrun) : (s.weirOverrun v).data = s.data := by
  obtain ⟨-, hdata, -⟩ := (s.drifts_weirOverrun v).frame
  exact hdata
theorem State.part_weirOverrun_ne (s : State) {v : Overrun} {q : Nat} (h : q ≠ v.key % 16) : (s.weirOverrun v).part q = s.part q := by
  obtain h' | ⟨cyc, b, h'⟩ := s.weirOverrun_cases v <;> rw [h']
  exact State.part_breach_ne _ _ _ h

/-! ## The two rows -/

theorem lt_of_mem_weirNums {w : Nat} (h : weirNums.contains w = true) : w < 0x14A := by
  simp [weirNums, upTo] at h
  omega

/-- The key of a queue tells its weir and its owner. -/
theorem queueKey_parts {w o : Nat} (port : Nat) (hw : w < 0x14A) (ho : o ≤ 8) :
    queueKey w o port % 65536 / 16 = w ∧ queueKey w o port % 16 = o := by
  simp only [queueKey, weirKey]
  omega

/-- The request of a WEIR_REQUEST (R314, R315, R337). -/
def State.requestOf (s : State) (w bytes agent action : Nat) : WeirReq :=
  { tokens := weirTokens w agent bytes, agent := agent, action := action, qmax := s.qmaxOf agent, write := false, offered := false, rest := 0, id := 0 }

theorem exec_weirRequest {s : State} {w o : Nat} (bytes agent action : Nat) (hw : weirNums.contains w = true) (ho : o ≤ 8)
    (hclass : o = 8 → weirClass w = 2) :
    exec (.weirRequest w o bytes agent action) s = .next (s.offer (queueKey w o (weirPort w agent)) [s.requestOf w bytes agent action]) := by
  change execWeirRequest w o bytes agent action s = _
  have hcond : (!weirNums.contains w || decide (8 < o) || (decide (o = 8) && decide (weirClass w ≠ 2))) = false := by
    rw [hw]
    simpa [ho] using hclass
  rw [execWeirRequest, hcond]
  rfl

/-- How an offered request fares at a queue: its sender holds it, it enters, or it is refused (R319, R337). -/
theorem admitHeld_single_held {depth : Nat} {blocked : List Nat} {q : List WeirReq} {r : WeirReq}
    (hb : blocked.contains r.agent = true ∨ heldBack q r = true) :
    admitHeld depth blocked q [r] = { queue := q, held := [r], refused := [] } :=
  admitHeld_held (Bool.or_eq_true_iff.2 hb)

theorem admitHeld_single_enters {depth : Nat} {blocked : List Nat} {q : List WeirReq} {r : WeirReq} (hb : blocked.contains r.agent = false)
    (hback : heldBack q r = false) (hfit : weirFillOf q + r.tokens ≤ depth) (hr : r.rest = 0) :
    admitHeld depth blocked q [r] = { queue := q ++ [r], held := [], refused := [] } :=
  admitHeld_enters (Bool.or_eq_false_iff.2 ⟨hb, hback⟩) hfit hr

theorem admitHeld_single_refused {depth : Nat} {blocked : List Nat} {q : List WeirReq} {r : WeirReq} (hb : blocked.contains r.agent = false)
    (hback : heldBack q r = false) (hfit : depth < weirFillOf q + r.tokens) (hr : r.offered = false) :
    admitHeld depth blocked q [r] = { queue := q, held := [{ r with offered := true }], refused := [(r, weirFillOf q + r.tokens)] } := by
  rw [admitHeld_refused (Bool.or_eq_false_iff.2 ⟨hb, hback⟩) hfit, hr]
  rfl

/-! ## WEIR_REQUEST -/

/-- A sender that holds a request is one of those that what is held blocks. -/
theorem any_agent_eq (h : List WeirReq) (agent : Nat) :
    h.any (fun x => x.agent == agent) = (h.map (·.agent)).reverse.contains agent := by
  rw [Bool.eq_iff_iff, List.any_eq_true, List.contains_iff_mem, List.mem_reverse, List.mem_map]
  simp only [beq_iff_eq]

section WeirRequest
variable {s : State} {w o key : Nat} {bytes agent action : Nat} (hw : weirNums.contains w = true) (ho : o ≤ 8) (hclass : o = 8 → weirClass w = 2)
  (hkey : queueKey w o (weirPort w agent) = key) (hstay : holds s key (s.weirDepth w o))
include hw ho hclass hkey hstay

/-- A request fares at its queue as it would alone behind what its sender holds there. -/
theorem exec_weirRequest_of_holds {a : Admission}
    (ha : admitHeld (s.weirDepth w o) ((s.weirHeld key).map (·.agent)).reverse (s.weirQueue key) [s.requestOf w bytes agent action] = a) :
    ∃ u, s.Requeued u key a.queue (s.weirHeld key ++ a.held) ∧ exec (.weirRequest w o bytes agent action) s =
      .next (State.overruns (u, a.refused.map (fun x => { at' := s.clk, key := key, req := x.1, tokens := x.2 }))) := by
  subst hkey
  obtain ⟨hkw, hko⟩ := queueKey_parts (weirPort w agent) (lt_of_mem_weirNums hw) ho
  obtain ⟨u, hu, hoffer⟩ := offer_of_holds (s.requestOf w bytes agent action) (by rwa [hkw, hko]) (a := a) (by rwa [hkw, hko])
  exact ⟨u, hu, by rw [exec_weirRequest bytes agent action hw ho hclass, hoffer]⟩

/-- Behind one that its sender holds, and where QMAX says so, it is held without a breach (R319, R337). -/
theorem weirRequest_held (hb : (s.weirHeld key).any (fun h => h.agent == agent) = true ∨
    heldBack (s.weirQueue key) (s.requestOf w bytes agent action) = true) :
    ∃ t, s.Requeued t key (s.weirQueue key) (s.weirHeld key ++ [s.requestOf w bytes agent action]) ∧
      exec (.weirRequest w o bytes agent action) s = .next t := by
  rw [any_agent_eq] at hb
  exact exec_weirRequest_of_holds hw ho hclass hkey hstay (admitHeld_single_held hb)

section Alone
variable (hown : (s.weirHeld key).any (fun h => h.agent == agent) = false)
  (hback : heldBack (s.weirQueue key) (s.requestOf w bytes agent action) = false)
include hown hback

/-- One whose tokens fit enters (R314). -/
theorem weirRequest_enters (hfit : s.weirFill key + (s.requestOf w bytes agent action).tokens ≤ s.weirDepth w o) :
    ∃ t, s.Requeued t key (s.weirQueue key ++ [s.requestOf w bytes agent action]) (s.weirHeld key) ∧
      exec (.weirRequest w o bytes agent action) s = .next t := by
  rw [any_agent_eq] at hown
  have hsingle := admitHeld_single_enters hown hback hfit rfl
  obtain ⟨u, hu, hexec⟩ := exec_weirRequest_of_holds hw ho hclass hkey hstay hsingle
  rw [List.append_nil] at hu
  exact ⟨u, hu, hexec⟩

/-- One whose tokens do not is held, and its owner's partition has a breach (R319). -/
theorem weirRequest_refused (hfit : s.weirDepth w o < s.weirFill key + (s.requestOf w bytes agent action).tokens) :
    ∃ t, exec (.weirRequest w o bytes agent action) s = .next t ∧
      (∀ k, k ≠ key → t.weirQueue k = s.weirQueue k ∧ t.weirHeld k = s.weirHeld k) ∧ t.data = s.data ∧
      t.weirHeld key = s.weirHeld key ++ [{ s.requestOf w bytes agent action with offered := true }] ∧ t.weirQueue key = s.weirQueue key ∧
      (∀ q, q ≠ o → t.part q = s.part q) ∧ (s.Policed o → Cause.breach ∈ (t.part o).causes) := by
  obtain ⟨-, hko⟩ := queueKey_parts (weirPort w agent) (lt_of_mem_weirNums hw) ho
  rw [hkey] at hko
  rw [any_agent_eq] at hown
  obtain ⟨u, hu, hexec⟩ := exec_weirRequest_of_holds hw ho hclass hkey hstay (admitHeld_single_refused hown hback hfit rfl)
  have hqueue (v : Overrun) (k : Nat) : (u.weirOverrun v).weirQueue k = u.weirQueue k := congrArg (fun m : MemRegs => tget [] m.queue k) (u.weirOverrun_mem v)
  have hheld (v : Overrun) (k : Nat) : (u.weirOverrun v).weirHeld k = u.weirHeld k := congrArg (fun m : MemRegs => tget [] m.held k) (u.weirOverrun_mem v)
  refine ⟨_, hexec, fun k hk => ?_, (u.weirOverrun_data _).trans hu.data, (hheld _ _).trans hu.held, (hqueue _ _).trans hu.queue,
    fun q hq => (u.part_weirOverrun_ne (hko ▸ hq)).trans (hu.part q), fun hp => ?_⟩
  · exact ⟨(hqueue _ _).trans (hu.others k hk).1, (hheld _ _).trans (hu.others k hk).2⟩
  · rw [State.Policed, ← hu.part o, ← hko] at hp
    exact hko ▸ State.breach_mem_weirOverrun hp

end Alone
end WeirRequest

/-- Settles O41: a flit that can leave is judged by its frame and by the flit before it, each in a lemma of its own; a weir request goes in,
is held or is refused by itself, since what is held at its queue stays as it is. -/
theorem spineAndWeirsPolice : Obligations.SpineAndWeirsPolice := by
  unfold Obligations.SpineAndWeirsPolice
  refine ⟨⟨?_, fun s q cyc => s.frameAllotted_guard q, fun s r out f h => exec_spineFlit_stays h⟩, ?_⟩
  · intro s r out f hr hout hup hroute hat hcopy o u cyc key last met stops
    have hleave : s.canLeave r out f = true := by simp only [State.canLeave, hr, hout, hup, hroute, hat, hcopy]; rfl
    exact ⟨spineFlit_discarded hleave rfl, spineFlit_goesOn hleave rfl rfl, spineFlit_outside_complex hleave rfl rfl,
      spineFlit_outside hleave rfl rfl, spineFlit_met hleave rfl rfl⟩
  · intro s w o bytes agent action hw ho hclass key r own hstay
    cases hown : own
    case true =>
      obtain ⟨t, ht, hexec⟩ := weirRequest_held (bytes := bytes) (action := action) hw ho hclass rfl hstay (.inl hown)
      exact ⟨t, hexec, ht.others, ht.data, fun _ => ⟨ht.held, ht.queue, ht.frame⟩, nofun, nofun, nofun⟩
    case false =>
      cases hback : heldBack (s.weirQueue key) r
      case true =>
        obtain ⟨t, ht, hexec⟩ := weirRequest_held hw ho hclass rfl hstay (.inr hback)
        exact ⟨t, hexec, ht.others, ht.data, nofun, fun _ _ => ⟨ht.held, ht.queue, ht.frame⟩, nofun, nofun⟩
      case false =>
        by_cases hfit : s.weirFill key + r.tokens ≤ s.weirDepth w o
        · obtain ⟨t, ht, hexec⟩ := weirRequest_enters hw ho hclass rfl hstay hown hback hfit
          exact ⟨t, hexec, ht.others, ht.data, nofun, nofun, fun _ _ _ => ⟨ht.held, ht.queue, ht.frame⟩,
            fun _ _ hover => absurd hfit (Nat.not_le.2 hover)⟩
        · have hover := Nat.not_le.1 hfit
          obtain ⟨t, hexec, hothers, hdata, hheld, hqueue, hparts, hbreach⟩ := weirRequest_refused hw ho hclass rfl hstay hown hback hover
          exact ⟨t, hexec, hothers, hdata, nofun, nofun, fun _ _ hfits => absurd hfits hfit,
            fun _ _ _ => ⟨hheld, hqueue, hparts, fun hlt hstatus => hbreach ⟨hlt, hstatus⟩⟩⟩

end Sys2Proof.Machine
end

section
/-! Completions of actions (R53, R73, R77) and of link actions (R377, R436). -/
namespace Sys2Proof.Machine

open Sys2Proof

/-! ## What a completion does to its partition -/

/-- The end of a fill item changes its item, the sequencers' parts of it, and the moments that follow from it (R92). -/
theorem Part.settleFill_frame (x : Part) (cyc : Nat) : ∃ c l n qs rv en, x.settleFill cyc =
    { x with fillCur := c, fillLate := l, fillNext := n, seqs := qs, rvAt := rv, ended := en } := by
  unfold Part.settleFill
  split <;> exact ⟨_, _, _, _, _, _, rfl⟩

@[simp] theorem Part.settleFill_flights (x : Part) (cyc : Nat) : (x.settleFill cyc).flights = x.flights := by
  obtain ⟨_, _, _, _, _, _, h⟩ := x.settleFill_frame cyc
  rw [h]
@[simp] theorem Part.settleFill_toks (x : Part) (cyc : Nat) : (x.settleFill cyc).toks = x.toks := by
  obtain ⟨_, _, _, _, _, _, h⟩ := x.settleFill_frame cyc
  rw [h]
@[simp] theorem Part.settleFill_arrivals (x : Part) (cyc : Nat) : (x.settleFill cyc).arrivals = x.arrivals := by
  obtain ⟨_, _, _, _, _, _, h⟩ := x.settleFill_frame cyc
  rw [h]
@[simp] theorem Part.settleFill_wdLeft (x : Part) (cyc : Nat) : (x.settleFill cyc).wdLeft = x.wdLeft := by
  obtain ⟨_, _, _, _, _, _, h⟩ := x.settleFill_frame cyc
  rw [h]
  rfl

/-- The partition once an action has left its flights. -/
def Part.without (x : Part) (f : Flight) : Part := ({ x with flights := x.flights.erase f }).settleFill x.cycle

@[simp] theorem Part.without_flights (x : Part) (f : Flight) : (x.without f).flights = x.flights.erase f := Part.settleFill_flights _ _
@[simp] theorem Part.without_toks (x : Part) (f : Flight) : (x.without f).toks = x.toks := Part.settleFill_toks _ _
@[simp] theorem Part.without_arrivals (x : Part) (f : Flight) : (x.without f).arrivals = x.arrivals := Part.settleFill_arrivals _ _
@[simp] theorem Part.without_wdLeft (x : Part) (f : Flight) : (x.without f).wdLeft = x.wdLeft := Part.settleFill_wdLeft _ _

/-- The completion of an action without a token changes its partition only (R73). -/
theorem State.finish_tokenless {s : State} (p : Nat) {f : Flight} (h : f.tokOut = 0xFFFF) : s.finish p f = s.modPart p (·.without f) := by
  unfold State.finish State.sendToken
  simp only [h, if_true]
  rfl

/-! ## ACTION_COMPLETE -/

theorem of_lookupBy_eq_some {α : Type} {p : α → Bool} {l : List α} {x : α} (h : lookupBy p l = some x) : p x = true := by
  induction l with
  | nil => cases h
  | cons y l ih =>
    unfold lookupBy at h
    split at h
    · next hy => cases h; exact hy
    · exact ih h

theorem agent_of_lookupBy {l : List Flight} {a r : Nat} {f : Flight} (h : lookupBy (fun f => f.agent == a && f.action == r) l = some f) :
    f.agent = a := by
  have htest := of_lookupBy_eq_some h
  rw [Bool.and_eq_true, beq_iff_eq] at htest
  exact htest.1

/-- The moment at which an action has left what it stands in besides its flits: its weirs and paths, or its own length; none if it never does. -/
def State.actionLeft (s : State) (a : Nat) (f : Flight) : Option Nat :=
  if agKind a = 1 then s.streamLeft a else if agKind a = 3 then s.weirsLeft a else if f.ready < never then some f.ready else none

/-- What an action that can complete does in a state. -/
def State.actionDone (s : State) (p a : Nat) (f : Flight) : State :=
  if agKind a = 1 then ((s.setRec (agNum a) { s.srec (agNum a) with state := 0 }).finish p f).refreshWaits (agNum a)
  else if 0x60 ≤ f.opcode && f.opcode ≤ 0x63 then ({ s with updating := tset none s.updating (engOfAgent a) none } : State).finish p f
  else s.finish p f

theorem State.flightDone_of_not_stream {s : State} {f : Flight} (hpend : f.pending = 0) (ha : agKind f.agent ≠ 1) : s.flightDone f = true := by
  simp [State.flightDone, hpend, ha]
/-- A stream has done its work once its last byte is written (R339). -/
theorem State.flightDone_of_stream {s : State} {f : Flight} (hpend : f.pending = 0) (hstate : (s.srec (agNum f.agent)).state = 1)
    (hpos : (s.srec (agNum f.agent)).length ≤ (s.srec (agNum f.agent)).position) : s.flightDone f = true := by
  simp [State.flightDone, hpend, hstate, hpos]

section ActionComplete
variable {s : State} {p a r : Nat} {f : Flight} (hf : lookupBy (fun f => f.agent == a && f.action == r) (s.part p).flights = some f)
  (hop : f.opcode < 0x80) (hdone : s.flightDone f = true) (hrun : agKind a = 1 → (s.srec (agNum a)).length ≤ (s.srec (agNum a)).position)
include hf hop hdone hrun

/-- An action that has done its work completes once it has left what it stands in, unless a full FIFO holds a flit of its agent. -/
theorem exec_actionComplete : exec (.actionComplete p a r) s = .next (match s.actionLeft a f with
    | some t => if (s.toClk (max t f.ready)).flitHeld p a then s.toClk (max t f.ready) else (s.toClk (max t f.ready)).actionDone p a f
    | none => s) := by
  have hstill : (decide (agKind a = 1) && decide ((s.srec (agNum a)).state = 1) && !(s.srec (agNum a)).waiting &&
      decide ((s.srec (agNum a)).position < (s.srec (agNum a)).length)) = false := by
    by_cases hk : agKind a = 1
    · simp [Nat.not_lt.2 (hrun hk)]
    · simp [hk]
  change execActionComplete p a r s = _
  unfold execActionComplete
  simp only [hf, hdone, hstill, ge_iff_le, Nat.not_le.2 hop, Bool.false_eq_true, if_false]
  change Host.Outcome.next (match true, s.actionLeft a f with | true, some t => _ | _, _ => s) = _
  cases s.actionLeft a f <;> rfl

variable {w : Nat} (hleft : s.actionLeft a f = some w)

/-- What never leaves a weir or ends does not complete. -/
theorem actionComplete_never (hleft : s.actionLeft a f = none) : exec (.actionComplete p a r) s = .next s := by
  rw [exec_actionComplete hf hop hdone hrun, hleft]

include hleft

/-- An action whose flit a full FIFO holds does not complete (R53). -/
theorem actionComplete_held (hheld : (s.toClk (max w f.ready)).flitHeld p a = true) :
    exec (.actionComplete p a r) s = .next (s.toClk (max w f.ready)) := by
  rw [exec_actionComplete hf hop hdone hrun, hleft]
  exact congrArg _ (if_pos hheld)

theorem actionComplete_done (hheld : (s.toClk (max w f.ready)).flitHeld p a = false) :
    exec (.actionComplete p a r) s = .next ((s.toClk (max w f.ready)).actionDone p a f) := by
  rw [exec_actionComplete hf hop hdone hrun, hleft]
  exact congrArg _ (if_neg (ne_true_of_eq_false hheld))

end ActionComplete
/-- A modification of every value of a table that leaves the default alone. -/
theorem tget_map {α : Type} {d : α} (g : α → α) (hg : g d = d) (t : Tab α) (k : Nat) :
    tget d (t.map (fun x => (x.1, g x.2))) k = g (tget d t k) := by
  induction t with
  | nil => exact hg.symm
  | cons x t ih =>
    simp only [List.map_cons, tget]
    split
    · rfl
    · exact ih

/-- A record of an engine that waits for engine `e`, once it names the action `act` there (R341, R342). -/
def StreamRec.refreshed (e act : Nat) (x : StreamRec) : StreamRec :=
  if x.state = 1 ∧ x.waiting = true ∧ x.block = 0x10000000 + e then { x with blockAction := act, refused := 0 } else x

/-- The action that the records of waiting engines name for an engine, 0xFFFF for none (R342). -/
def State.namedAction (s : State) (e : Nat) : Nat := match s.streamFlight e with | some f => f.action | none => 0xFFFF

theorem State.namedAction_idle {s : State} {e : Nat} (h : (s.srec e).state = 0) : s.namedAction e = 0xFFFF := by
  simp [State.namedAction, State.streamFlight, h]

theorem State.srec_refreshWaits (s : State) (e k : Nat) : (s.refreshWaits e).srec k = (s.srec k).refreshed e (s.namedAction e) := by
  have hmap : (s.refreshWaits e).se.recs = s.se.recs.map (fun x => (x.1, x.2.refreshed e (s.namedAction e))) := by
    refine List.map_congr_left fun x _ => ?_
    simp only [StreamRec.refreshed, Bool.and_eq_true, decide_eq_true_iff, and_assoc]
    split <;> rfl
  rw [State.srec, hmap]
  exact tget_map _ rfl _ _

@[simp] theorem State.refreshWaits_part (s : State) (e q : Nat) : (s.refreshWaits e).part q = s.part q := rfl
@[simp] theorem State.refreshWaits_data (s : State) (e : Nat) : (s.refreshWaits e).data = s.data := rfl
@[simp] theorem State.refreshWaits_num (s : State) (e : Nat) : (s.refreshWaits e).num = s.num := rfl

theorem State.Drifts.num {s t : State} (h : s.Drifts t) : ({ t.num with traps := s.num.traps } : NumRegs) = s.num := by
  obtain ⟨_, _, _, _, _, _, _, _, _, _, _, _, rfl⟩ := h.1
  rfl

/-- An action of an engine that is no stream, without a token: it leaves the flights of its partition, and nothing else changes but the note of
the update that ran. -/
theorem State.actionDone_tokenless {s : State} {p a : Nat} {f : Flight} (ha : agKind a ≠ 1) (htok : f.tokOut = 0xFFFF) :
    ∃ up, s.actionDone p a f = ({ s with updating := up } : State).modPart p (·.without f) := by
  rw [State.actionDone, if_neg ha]
  split <;> exact ⟨_, State.finish_tokenless p htok⟩

/-- A stream's, whose engine is free. -/
theorem State.actionDone_stream {s : State} {p a : Nat} {f : Flight} (ha : agKind a = 1) (htok : f.tokOut = 0xFFFF) : s.actionDone p a f =
    ((s.setRec (agNum a) { s.srec (agNum a) with state := 0 }).modPart p (·.without f)).refreshWaits (agNum a) := by
  rw [State.actionDone, if_pos ha, State.finish_tokenless p htok]

theorem State.srec_actionDone_stream {s : State} {p a : Nat} {f : Flight} (ha : agKind a = 1) (htok : f.tokOut = 0xFFFF) (e : Nat) :
    (s.actionDone p a f).srec e = if e = agNum a then { s.srec (agNum a) with state := 0 } else (s.srec e).refreshed (agNum a) 0xFFFF := by
  have hsrec (k : Nat) : ((s.setRec (agNum a) { s.srec (agNum a) with state := 0 }).modPart p (·.without f)).srec k =
      (s.setRec (agNum a) { s.srec (agNum a) with state := 0 }).srec k := rfl
  have hidle : (((s.setRec (agNum a) { s.srec (agNum a) with state := 0 }).modPart p (·.without f)).srec (agNum a)).state = 0 := by
    rw [hsrec, State.srec_setRec]
  rw [State.actionDone_stream ha htok, State.srec_refreshWaits, State.namedAction_idle hidle, hsrec]
  split
  · next he => subst he; rw [State.srec_setRec]; simp [StreamRec.refreshed]
  · next he => rw [State.srec_setRec_ne _ _ he]

/-! ## An arrival (R377, R378, R436) -/

/-- A partition at whose port an arrival is counted, which may be the last condition of a rendezvous (R89). -/
def Part.arrive (x : Part) (port : Nat) : Part :=
  let y := { x with arrivals := tmod 0 x.arrivals port (· + 1) }
  if x.allWaiting && x.rvAt.isSome && !x.arrivalsOk && y.arrivalsOk then { y with rvAt := some x.cycle } else y

@[simp] theorem Part.arrive_flights (x : Part) (port : Nat) : (x.arrive port).flights = x.flights := by
  unfold Part.arrive; dsimp only; split <;> rfl
@[simp] theorem Part.arrive_arrivals (x : Part) (port : Nat) : (x.arrive port).arrivals = tmod 0 x.arrivals port (· + 1) := by
  unfold Part.arrive; dsimp only; split <;> rfl

theorem State.peerArrival_eq (s : State) (p port : Nat) : s.peerArrival p port = (s.expireDue p).stamp.2.modPart p (·.arrive port) := rfl

theorem State.part_freeze_ne (s : State) {p q : Nat} (c : Cause) (cyc : Nat) (h : q ≠ p) : (s.freeze p c cyc).part q = s.part q :=
  State.part_modPart_ne _ _ h
theorem State.part_expireDue_ne (s : State) {p q : Nat} (h : q ≠ p) : (s.expireDue p).part q = s.part q := by
  unfold State.expireDue State.expire
  split
  · rw [State.part_freeze_ne _ _ _ h, State.part_post]
  · rfl
@[simp] theorem State.flights_expireDue (s : State) (p q : Nat) : ((s.expireDue p).part q).flights = (s.part q).flights := by
  obtain ⟨-, -, -, -, -, hflights, -⟩ := (s.drifts_expireDue p).part q
  exact hflights
@[simp] theorem State.arrivals_expireDue (s : State) (p q : Nat) : ((s.expireDue p).part q).arrivals = (s.part q).arrivals := by
  obtain ⟨_, _, _, _, _, h⟩ := (s.drifts_expireDue p).2 q
  rw [h]

@[simp] theorem State.flights_peerArrival (s : State) (p port : Nat) : ((s.peerArrival p port).part p).flights = (s.part p).flights := by
  rw [State.peerArrival_eq, State.part_modPart, Part.arrive_flights, State.part_stamp, State.flights_expireDue]
@[simp] theorem State.arrivals_peerArrival (s : State) (p port : Nat) :
    tget 0 ((s.peerArrival p port).part p).arrivals port = tget 0 (s.part p).arrivals port + 1 := by
  rw [State.peerArrival_eq, State.part_modPart, Part.arrive_arrivals, State.part_stamp, State.arrivals_expireDue, tget_tmod_same]
theorem State.part_peerArrival_ne (s : State) {p q : Nat} (port : Nat) (h : q ≠ p) : (s.peerArrival p port).part q = s.part q := by
  rw [State.peerArrival_eq, State.part_modPart_ne _ _ h, State.part_stamp, State.part_expireDue_ne _ h]
@[simp] theorem State.peerArrival_lnk (s : State) (p port : Nat) : (s.peerArrival p port).lnk = s.lnk := by
  obtain ⟨-, -, -, -, -, -, -, hlnk, -⟩ := (s.drifts_expireDue p).frame
  exact hlnk
@[simp] theorem State.peerArrival_data (s : State) (p port : Nat) : (s.peerArrival p port).data = s.data := by
  obtain ⟨-, hdata, -⟩ := (s.drifts_expireDue p).frame
  exact hdata
/-- It takes one stamp where no watchdog is due. -/
theorem State.seq_peerArrival {s : State} {p : Nat} (port : Nat) (h : (s.part p).wdLeft ≠ some 0) :
    (s.peerArrival p port).es.seq = s.es.seq + 1 := by
  rw [State.peerArrival_eq, State.expireDue, if_neg h]
  rfl

/-! ## LINK_ACTION_COMPLETE -/

/-- What an action in flight is to LINK_ACTION_COMPLETE: none unless it is one of the record, and done at the moment at which all that it has at
the weirs has left them; with the state at that moment. -/
def State.linkReady (s : State) (p a r : Nat) (f : Flight) : Option (Flight × State) :=
  if f.agent == a && f.action == r && decide (f.opcode ≥ 0x80) then
    (s.linkSettled (p, agNum a, r, f.issue)).bind (fun t => if t.linkDone (p, agNum a, r, f.issue) then some (f, t) else none)
  else none

theorem State.linkReady_eq_some {s m : State} {p a r : Nat} {f : Flight} (hmine : f.agent = a ∧ f.action = r ∧ 0x80 ≤ f.opcode)
    (hsettled : s.linkSettled (p, agNum a, r, f.issue) = some m) (hdone : m.linkDone (p, agNum a, r, f.issue) = true) :
    s.linkReady p a r f = some (f, m) := by
  obtain ⟨rfl, rfl, hop⟩ := hmine
  simp [State.linkReady, hop, hsettled, hdone]

theorem State.linkReady_eq_none {s : State} {p a r : Nat} {f : Flight} (h : f.agent = a ∧ f.action = r ∧ 0x80 ≤ f.opcode →
    ¬ ∃ m, s.linkSettled (p, agNum a, r, f.issue) = some m ∧ m.linkDone (p, agNum a, r, f.issue) = true) : s.linkReady p a r f = none := by
  unfold State.linkReady
  split
  · next hcond =>
    have hmine : f.agent = a ∧ f.action = r ∧ 0x80 ≤ f.opcode := by simpa [and_assoc] using hcond
    rw [Option.bind_eq_none_iff]
    exact fun m hm => if_neg fun hdone => h hmine ⟨m, hm, hdone⟩
  · rfl

/-- The messages and the collective of a link action leave its controller. -/
def State.dropLink (s : State) (k : Nat × Nat × Nat × Nat) : State :=
  { s with lnk := { s.lnk with msgs := s.lnk.msgs.filter (fun m => m.key != k), colls := s.lnk.colls.filter (fun c => c.key != k) } }

theorem exec_linkActionComplete {p : Nat} (hp : p < 8) (a r : Nat) (s : State) : exec (.linkActionComplete p a r) s =
    .next (match (s.part p).flights.findSome? (s.linkReady p a r) with
      | none => s.linkGo
      | some (f, m) => ((m.dropLink (p, agNum a, r, f.issue)).modPart p (·.without f)).peerArrival p (agNum a)) := by
  change execLinkActionComplete p a r s = _
  unfold execLinkActionComplete
  change Host.Outcome.next (match (s.part p).flights.findSome? (s.linkReady p a r) with | none => _ | some (f, m) => _) = _
  cases (s.part p).flights.findSome? (s.linkReady p a r)
  case none => rfl
  case some fm => exact congrArg _ (if_pos hp)

/-- Where no action of the record is done, the row does what the weirs have let through (log entry 38). -/
theorem linkActionComplete_none {s : State} {p a r : Nat} (hp : p < 8) (h : ∀ f ∈ (s.part p).flights, s.linkReady p a r f = none) :
    exec (.linkActionComplete p a r) s = .next s.linkGo := by
  rw [exec_linkActionComplete hp, List.findSome?_eq_none_iff.2 h]

/-- The oldest action of the record that is done leaves the flights, and its arrival counts (R377). -/
theorem linkActionComplete_first {s m : State} {p a r : Nat} {before after : List Flight} {f : Flight} (hp : p < 8)
    (hflights : (s.part p).flights = before ++ f :: after) (hbefore : ∀ g ∈ before, s.linkReady p a r g = none)
    (hf : s.linkReady p a r f = some (f, m)) : exec (.linkActionComplete p a r) s =
      .next (((m.dropLink (p, agNum a, r, f.issue)).modPart p (·.without f)).peerArrival p (agNum a)) := by
  rw [exec_linkActionComplete hp, hflights, List.findSome?_append, List.findSome?_eq_none_iff.2 hbefore, Option.none_or,
    List.findSome?_cons_of_isSome (by rw [hf]; rfl), hf]

/-- Settles O35: an action that is done has one next state, which the time passed, its partition without it and, of a stream, its engine's
record make up; a link action's is found by the first of the record's that is done. -/
theorem actionsComplete : Obligations.ActionsComplete := by
  unfold Obligations.ActionsComplete
  refine ⟨?_, ?_, ?_⟩
  · intro s p a r f hp ha hf hop hpend left
    have hag : f.agent = a := agent_of_lookupBy hf
    have hdone : s.flightDone f = true := State.flightDone_of_not_stream hpend (hag ▸ ha)
    have hleft : s.actionLeft a f = left := if_neg ha
    have hrun (h : agKind a = 1) : (s.srec (agNum a)).length ≤ (s.srec (agNum a)).position := absurd h ha
    refine ⟨fun h => actionComplete_never hf hop hdone hrun (hleft.trans h),
      fun w h => actionComplete_held hf hop hdone hrun (hleft.trans h), fun w h htok hheld => ?_⟩
    have hdrift := s.drifts_toClk (max w f.ready)
    obtain ⟨-, hdata, -, hrst, -, -, -, hlnk, hse, -⟩ := hdrift.frame
    obtain ⟨-, -, -, -, htoks, hflights, -⟩ := hdrift.part p
    obtain ⟨up, hup⟩ := State.actionDone_tokenless (s := s.toClk (max w f.ready)) (p := p) ha htok
    refine ⟨_, actionComplete_done hf hop hdone hrun (hleft.trans h) hheld, ?_⟩
    rw [hup]
    refine ⟨?_, ?_, fun q hq => State.part_modPart_ne _ _ hq, hdata, hdrift.num, hse, hlnk, hrst⟩
    · rw [State.part_modPart, Part.without_flights, ← hflights]; rfl
    · rw [State.part_modPart, Part.without_toks, ← htoks]; rfl
  · intro s p a r w f hp ha hf hop hpend htok hag hstate hpos hleft hheld
    have hdrift := s.drifts_toClk (max w f.ready)
    obtain ⟨-, hdata, -, -, -, -, -, -, hse, -⟩ := hdrift.frame
    obtain ⟨-, -, -, -, -, hflights, -⟩ := hdrift.part p
    have hsrec (e : Nat) : (s.toClk (max w f.ready)).srec e = s.srec e := congrArg (fun se : SeRegs => tget StreamRec.zero se.recs e) hse
    refine ⟨_, actionComplete_done hf hop (State.flightDone_of_stream hpend (hag ▸ hstate) (hag ▸ hpos)) (fun _ => hpos)
      ((if_pos ha).trans hleft) hheld, ?_, ?_, fun e he => ?_, fun q hq => ?_, ?_, ?_⟩
    · rw [State.actionDone_stream ha htok, State.refreshWaits_part, State.part_modPart, Part.without_flights, ← hflights]; rfl
    · rw [State.srec_actionDone_stream ha htok, if_pos rfl, hsrec]
    · rw [State.srec_actionDone_stream ha htok, if_neg he, hsrec]; rfl
    · rw [State.actionDone_stream ha htok, State.refreshWaits_part, State.part_modPart_ne _ _ hq]; rfl
    · rw [State.actionDone_stream ha htok, State.refreshWaits_data, State.modPart_data, State.setRec_data, hdata]
    · rw [State.actionDone_stream ha htok, State.refreshWaits_num, State.modPart_num, State.setRec_num]
      exact hdrift.num
  · intro s p a r hp mine done
    refine ⟨fun hnone => linkActionComplete_none hp fun f hf => State.linkReady_eq_none (hnone f hf),
      fun before f after m hflights hbefore hmine hsettled hdone => ?_⟩
    refine ⟨_, linkActionComplete_first hp hflights (fun g hg => State.linkReady_eq_none (hbefore g hg))
      (State.linkReady_eq_some hmine hsettled hdone), ?_, ?_, fun hwd => ?_, fun x hx => ?_, fun q hq => ?_, ?_⟩
    · rw [State.flights_peerArrival, State.part_modPart, Part.without_flights]; rfl
    · rw [State.arrivals_peerArrival, State.part_modPart, Part.without_arrivals]; rfl
    · refine State.seq_peerArrival _ ?_
      rwa [State.part_modPart, Part.without_wdLeft]
    · rw [State.peerArrival_lnk] at hx
      have hkept := (List.mem_filter.1 hx).2
      exact bne_iff_ne.1 hkept
    · rw [State.part_peerArrival_ne _ _ hq, State.part_modPart_ne _ _ hq]; rfl
    · rw [State.peerArrival_data]; rfl

end Sys2Proof.Machine
end

section
/-! What the passing of time keeps of a partition's freeze (R82) and of the control complex's settings (R90). -/
namespace Sys2Proof.Machine

open Sys2Proof

/-- The boundary of a freeze, if there is one, is still to come. -/
def Frz.ahead : Frz → Bool
  | .no | .pending _ => true
  | .stopped _ | .thawing _ => false

/-- How a further cause changes a freeze: not at all once its boundary has come, else to one whose boundary is still to come (R82). -/
def Frz.Goes (f g : Frz) : Prop := g = f ∨ (f.ahead = true ∧ g.ahead = true)

theorem Frz.Goes.refl (f : Frz) : f.Goes f := .inl rfl
theorem Frz.Goes.trans {f g h : Frz} (hfg : f.Goes g) (hgh : g.Goes h) : f.Goes h := by
  obtain rfl | ⟨hf, hg⟩ := hfg
  · exact hgh
  · obtain rfl | ⟨-, hh⟩ := hgh
    · exact .inr ⟨hf, hg⟩
    · exact .inr ⟨hf, hh⟩
theorem Frz.Goes.ahead {f g : Frz} (h : f.Goes g) (hf : f.ahead = true) : g.ahead = true := by
  obtain rfl | ⟨-, hg⟩ := h
  · exact hf
  · exact hg
theorem Frz.Goes.eq {f g : Frz} (h : f.Goes g) (hf : f.ahead = false) : g = f := by
  obtain rfl | ⟨hf', -⟩ := h
  · rfl
  · rw [hf] at hf'; cases hf'

theorem Part.addCauseAt_goes (x : Part) (c : Cause) (b : Nat) : x.frz.Goes (x.addCauseAt c b).frz := by
  unfold Part.addCauseAt
  dsimp only
  split
  · next hfrz => exact .inr ⟨by rw [hfrz]; rfl, rfl⟩
  · next hfrz => exact .inr ⟨by rw [hfrz]; rfl, rfl⟩
  · exact .refl _

/-- What time, a trapped NaN and a weir's refusal keep: freezes go forward, and of the control complex only the breach store changes. -/
structure State.Flows (s t : State) : Prop where
  frz : ∀ q, (s.part q).frz.Goes (t.part q).frz
  cc : ({ t.cc with breach := s.cc.breach, breachCnt := s.cc.breachCnt } : CcRegs) = s.cc

theorem State.Flows.refl (s : State) : s.Flows s := ⟨fun _ => .refl _, rfl⟩
theorem State.Flows.trans {s t u : State} (h : s.Flows t) (h' : t.Flows u) : s.Flows u := by
  refine ⟨fun q => (h.frz q).trans (h'.frz q), ?_⟩
  rw [← h.cc, ← h'.cc]
theorem State.Flows.of_eq {s t : State} (hparts : t.parts = s.parts) (hcc : t.cc = s.cc) : s.Flows t :=
  ⟨fun q => by unfold State.part; rw [hparts]; exact .refl _, by rw [hcc]⟩
theorem State.Flows.foldl {α : Type} {f : State → α → State} (h : ∀ (s : State) (x : α), s.Flows (f s x)) (l : List α) (s : State) : s.Flows (l.foldl f s) := by
  induction l generalizing s with
  | nil => exact .refl _
  | cons x l ih => exact (h s x).trans (ih _)

theorem State.flows_modPart (s : State) (p : Nat) {f : Part → Part} (h : (s.part p).frz.Goes (f (s.part p)).frz) : s.Flows (s.modPart p f) := by
  refine ⟨fun q => ?_, rfl⟩
  by_cases hq : q = p
  · subst hq; rw [State.part_modPart]; exact h
  · rw [State.part_modPart_ne _ _ hq]; exact .refl _
theorem State.flows_freeze (s : State) (p : Nat) (c : Cause) (cyc : Nat) : s.Flows (s.freeze p c cyc) :=
  s.flows_modPart p (Part.addCauseAt_goes _ _ _)
theorem State.flows_post (s : State) (ty : Nat) (p : Option Nat) (src aux det : Nat) : s.Flows (s.post ty p src aux det) :=
  .of_eq (State.post_parts _ _ _ _ _ _) (State.post_cc _ _ _ _ _ _)
theorem State.flows_breach (s : State) (p cyc : Nat) (b : BreachInfo) : s.Flows (s.breach p cyc b) := by
  have hevent : s.Flows (s.event 1 (some p) b.agentA 0 b.cls).2 := .of_eq (State.event_parts _ _ _ _ _ _) (State.event_cc _ _ _ _ _ _)
  have hstore (t : State) (cnt : Tab W32) (recs : Tab (List (List Byte))) :
      t.Flows { t with cc := { t.cc with breach := recs, breachCnt := cnt } } := ⟨fun _ => .refl _, rfl⟩
  exact (hevent.trans (hstore _ _ _)).trans (State.flows_freeze _ _ _ _)
theorem State.flows_weirOverrun (s : State) (v : Overrun) : s.Flows (s.weirOverrun v) := by
  obtain h | ⟨cyc, b, h⟩ := s.weirOverrun_cases v <;> rw [h]
  · exact .refl _
  · exact s.flows_breach _ _ _
theorem State.flows_overruns (a : State × List Overrun) : a.1.Flows (State.overruns a) := .foldl State.flows_weirOverrun _ _

/-! ## Requests at the weirs touch neither partitions nor the control complex -/

/-- Partitions and control complex are the same. -/
def State.SameRuns (s t : State) : Prop := t.parts = s.parts ∧ t.cc = s.cc

theorem State.SameRuns.refl (s : State) : s.SameRuns s := ⟨rfl, rfl⟩
theorem State.SameRuns.trans {s t u : State} (h : s.SameRuns t) (h' : t.SameRuns u) : s.SameRuns u :=
  ⟨h'.1.trans h.1, h'.2.trans h.2⟩
theorem State.SameRuns.flows {s t : State} (h : s.SameRuns t) : s.Flows t := .of_eq h.1 h.2
theorem State.SameRuns.foldl_fst {α β : Type} {f : State × β → α → State × β} (h : ∀ (a : State × β) (x : α), a.1.SameRuns (f a x).1) (l : List α) (a : State × β) :
    a.1.SameRuns (l.foldl f a).1 := by
  induction l generalizing a with
  | nil => exact .refl _
  | cons x l ih => exact (h a x).trans (ih _)
theorem State.SameRuns.foldl {α : Type} {f : State → α → State} (h : ∀ (s : State) (x : α), s.SameRuns (f s x)) (l : List α) (s : State) :
    s.SameRuns (l.foldl f s) := by
  induction l generalizing s with
  | nil => exact .refl _
  | cons x l ih => exact (h s x).trans (ih _)

theorem State.sameRuns_offerSide (t k : Nat) (l : List (Nat × WeirReq)) : ∀ a : State × List Overrun, a.1.SameRuns (State.offerSide t k l a).1 := by
  induction l with
  | nil => exact fun a => ⟨rfl, rfl⟩
  | cons r l ih =>
    intro a
    unfold State.offerSide
    split
    · exact ⟨rfl, rfl⟩
    · exact State.SameRuns.trans (t := (a.1.offerAt t r.1 [r.2]).1) ⟨rfl, rfl⟩ (ih _)
theorem State.sameRuns_offerSides (t : Nat) (a : State × List Overrun) : a.1.SameRuns (State.offerSides t a).1 :=
  .foldl_fst (fun a k => State.sameRuns_offerSide t k _ a) _ _
theorem State.sameRuns_drainQueues (a b : Nat) (x : State × List Overrun) : x.1.SameRuns (State.drainQueues a b x).1 :=
  .foldl_fst (f := fun x k => ((x.1.drainQueue a b k).1, x.2 ++ (x.1.drainQueue a b k).2)) (fun _ _ => ⟨rfl, rfl⟩) _ _
theorem State.sameRuns_drainGo (b fuel : Nat) : ∀ (a : Nat) (x : State × List Overrun), x.1.SameRuns (State.drainGo b fuel a x).1 := by
  induction fuel with
  | zero => exact fun a x => State.sameRuns_drainQueues a b x
  | succ n ih =>
    intro a x
    unfold State.drainGo
    split
    · split
      · exact ((State.sameRuns_drainQueues a _ x).trans (State.sameRuns_offerSides _ _)).trans (ih _ _)
      · exact State.sameRuns_drainQueues a b x
    · exact State.sameRuns_drainQueues a b x
theorem State.sameRuns_deliver (s : State) (a b key : Nat) : s.SameRuns (s.deliver a b key) := by
  unfold State.deliver
  dsimp only
  split
  · exact .refl _
  · split
    · exact .refl _
    · exact ⟨rfl, rfl⟩
theorem State.sameRuns_drainDirect (s : State) (a b key : Nat) : s.SameRuns (s.drainDirect a b key) := by
  unfold State.drainDirect
  split
  · exact .refl _
  · exact ⟨rfl, rfl⟩
theorem State.sameRuns_deliverAll (s : State) (a b : Nat) : s.SameRuns (s.deliverAll a b) :=
  (State.SameRuns.foldl (fun s k => s.sameRuns_deliver a b k) _ _).trans (.foldl (fun s k => s.sameRuns_drainDirect a b k) _ _)
theorem State.sameRuns_passTime (s : State) (dt : Nat) : s.SameRuns (s.passTime dt) := by
  obtain ⟨_, _, h⟩ := s.passTime_frame dt
  rw [h]
  exact ⟨rfl, rfl⟩
/-- An offer at a weir only ever adds breaches. -/
theorem State.flows_offerNow (s : State) (k : Nat) (rs : List (Nat × WeirReq)) : s.Flows (s.offerNow k rs) :=
  (State.sameRuns_offerSide s.clk k _ (s, [])).flows.trans (State.flows_overruns _)

/-! ## Time -/

theorem State.flows_trapOne (s : State) (p : Nat) (d : NanDue) : s.Flows (s.trapOne p d) := by
  have htraps (t : State) (tr : Tab Trap) : t.Flows { t with num := { t.num with traps := tr } } := .of_eq rfl rfl
  unfold State.trapOne
  dsimp only
  split
  · exact htraps _ _
  · split
    · exact (htraps _ _).trans (State.flows_post _ _ _ _ _ _)
    · exact ((htraps _ _).trans (State.flows_post _ _ _ _ _ _)).trans (State.flows_freeze _ _ _ _)
theorem State.flows_meet (s : State) (d : Due) : s.Flows (s.meet d) := by
  cases d with
  | weir v => exact s.flows_weirOverrun v
  | nan p n => exact (s.flows_trapOne p n).trans (State.flows_modPart _ p (f := fun x => { x with nans := x.nans.erase n }) (.refl _))
theorem State.flows_meetAll (b : Nat) (l : List Due) : ∀ (now : Nat) (s : State), s.Flows (State.meetAll b now l s) := by
  induction l with
  | nil => exact fun now s => (s.sameRuns_passTime _).flows
  | cons d l ih => exact fun now s => ((s.sameRuns_passTime _).flows.trans (State.flows_meet _ d)).trans (ih _ _)

theorem State.flows_pass (s : State) (dt : Nat) : s.Flows (s.pass dt) := by
  unfold State.pass
  split
  · exact .refl _
  · have hweirs := ((State.sameRuns_drainGo (s.clk + dt) s.admitFuel s.clk (s, [])).trans (State.sameRuns_deliverAll _ s.clk (s.clk + dt))).flows
    have hmet := State.flows_meetAll (s.clk + dt) (((s.drainWeirs s.clk (s.clk + dt)).1.deliverAll s.clk (s.clk + dt)).dues (s.clk + dt)
      (s.drainWeirs s.clk (s.clk + dt)).2) ((s.drainWeirs s.clk (s.clk + dt)).1.deliverAll s.clk (s.clk + dt)).clk
      ((s.drainWeirs s.clk (s.clk + dt)).1.deliverAll s.clk (s.clk + dt))
    have hpassed (v : State) : v.Flows (partNums.foldl (fun s p => s.modPart p (·.pass dt)) v) :=
      .foldl (fun s p => s.flows_modPart p (f := (·.pass dt)) (.refl _)) _ _
    have hclk (v : State) (c : Nat) : v.Flows { v with clk := c } := .of_eq rfl rfl
    exact ((hweirs.trans hmet).trans (hpassed _)).trans (hclk _ _)
theorem State.flows_toClk (s : State) (t : Nat) : s.Flows (s.toClk t) := s.flows_pass _
theorem State.flows_toCycle (s : State) (p cyc : Nat) : s.Flows (s.toCycle p cyc) := by
  unfold State.toCycle
  dsimp only
  split
  · exact s.flows_pass _
  · exact .refl _

/-- The setting of the watchdog does not change with time. -/
theorem State.Flows.watchdog {s t : State} (h : s.Flows t) (p : Nat) : t.watchdog p = s.watchdog p := by
  unfold State.watchdog
  rw [← h.cc]

section
variable {x y : Part} (h : x.Drifts y)
include h

theorem Part.Drifts.status : y.status = x.status := by obtain ⟨_, _, _, _, _, rfl⟩ := h; rfl
theorem Part.Drifts.image : y.image = x.image := by obtain ⟨_, _, _, _, _, rfl⟩ := h; rfl
theorem Part.Drifts.resident : y.resident = x.resident := by obtain ⟨_, _, _, _, _, rfl⟩ := h; rfl
theorem Part.Drifts.cur : y.cur = x.cur := by obtain ⟨_, _, _, _, _, rfl⟩ := h; rfl
theorem Part.Drifts.lastImage : y.lastImage = x.lastImage := by obtain ⟨_, _, _, _, _, rfl⟩ := h; rfl
theorem Part.Drifts.seqs : y.seqs = x.seqs := by obtain ⟨_, _, _, _, _, rfl⟩ := h; rfl
theorem Part.Drifts.toks : y.toks = x.toks := by obtain ⟨_, _, _, _, _, rfl⟩ := h; rfl
theorem Part.Drifts.arrivals : y.arrivals = x.arrivals := by obtain ⟨_, _, _, _, _, rfl⟩ := h; rfl
theorem Part.Drifts.flights : y.flights = x.flights := by obtain ⟨_, _, _, _, _, rfl⟩ := h; rfl
theorem Part.Drifts.rvAt : y.rvAt = x.rvAt := by obtain ⟨_, _, _, _, _, rfl⟩ := h; rfl
theorem Part.Drifts.rvEntry : y.rvEntry = x.rvEntry := by obtain ⟨_, _, _, _, _, rfl⟩ := h; rfl
theorem Part.Drifts.wdLimit : y.wdLimit = x.wdLimit := by obtain ⟨_, _, _, _, _, rfl⟩ := h; rfl
theorem Part.Drifts.fillNext : y.fillNext = x.fillNext := by obtain ⟨_, _, _, _, _, rfl⟩ := h; rfl
theorem Part.Drifts.fillCur : y.fillCur = x.fillCur := by obtain ⟨_, _, _, _, _, rfl⟩ := h; rfl
theorem Part.Drifts.ended : y.ended = x.ended := by obtain ⟨_, _, _, _, _, rfl⟩ := h; rfl
theorem Part.Drifts.epochSlot : y.epochSlot = x.epochSlot := by obtain ⟨_, _, _, _, _, rfl⟩ := h; rfl
theorem Part.Drifts.swTag : y.swTag = x.swTag := by obtain ⟨_, _, _, _, _, rfl⟩ := h; rfl
theorem Part.Drifts.cset : y.cset = x.cset := by obtain ⟨_, _, _, _, _, rfl⟩ := h; rfl
theorem Part.Drifts.csetRec : y.csetRec = x.csetRec := by obtain ⟨_, _, _, _, _, rfl⟩ := h; rfl
theorem Part.Drifts.cacheQ : y.cacheQ = x.cacheQ := by obtain ⟨_, _, _, _, _, rfl⟩ := h; rfl
theorem Part.Drifts.wdAgain : y.wdAgain = x.wdAgain := by obtain ⟨_, _, _, _, _, rfl⟩ := h; rfl

end

/-- A change of one partition changes the table of partitions only. -/
theorem State.modPart_rest (s : State) (p : Nat) (f : Part → Part) : ({ s.modPart p f with parts := s.parts } : State) = s := rfl

end Sys2Proof.Machine
end

section
/-! Control records of a program (R67, R88 to R93): where a sequencer stands after one, and what stays. -/
namespace Sys2Proof.Machine

open Sys2Proof

/-! ## Sequencers -/

theorem lookupBy_map_of_agent {l : List Seqr} {f : Seqr → Seqr} (hf : ∀ q, (f q).agent = q.agent) (a b : Nat) :
    lookupBy (fun q => q.agent == b) (l.map (fun q => if q.agent = a then f q else q)) =
      (lookupBy (fun q => q.agent == b) l).map (fun q => if q.agent = a then f q else q) := by
  induction l with
  | nil => rfl
  | cons q l ih =>
    have hagent : (if q.agent = a then f q else q).agent = q.agent := by split <;> simp [hf]
    rw [List.map_cons, lookupBy, lookupBy, hagent]
    split
    · rfl
    · exact ih

/-- A change of an agent's sequencer is what its lookup then answers. -/
theorem Part.seqr_modSeqr {x : Part} {a : Nat} {f : Seqr → Seqr} {q : Seqr} (hf : ∀ q, (f q).agent = q.agent) (h : x.seqr a = some q) :
    (x.modSeqr a f).seqr a = some (f q) := by
  have hagent : q.agent = a := by simpa using of_lookupBy_eq_some h
  unfold Part.seqr at h
  simp [Part.seqr, Part.modSeqr, lookupBy_map_of_agent hf, h, hagent]

theorem Part.seqr_modSeqr_ne {x : Part} {a b : Nat} {f : Seqr → Seqr} (hf : ∀ q, (f q).agent = q.agent) (h : b ≠ a) :
    (x.modSeqr a f).seqr b = x.seqr b := by
  unfold Part.seqr Part.modSeqr
  rw [lookupBy_map_of_agent hf]
  cases hq : lookupBy (fun q => q.agent == b) x.seqs
  case none => rfl
  case some q =>
    have hagent : q.agent = b := by simpa using of_lookupBy_eq_some hq
    simp [hagent, h]

@[simp] theorem Seqr.moved_agent (q : Seqr) (c : Ctx) (next : Nat) (f : List LoopFrame → List LoopFrame) : (q.moved c next f).agent = q.agent := by
  unfold Seqr.moved
  split <;> rfl

theorem Part.advance_eq (x : Part) (c : Ctx) (next : Nat) (f : List LoopFrame → List LoopFrame) :
    x.advance c next f = x.modSeqr c.agent (fun q => q.moved c next f) := rfl

/-! ## The context of a record that is due -/

theorem Part.ctx_owner {x : Part} {p a : Nat} {c : Ctx} (h : x.ctx p a = some c) : c.p = p ∧ c.agent = a := by
  unfold Part.ctx at h
  split at h
  · split at h
    · dsimp only at h
      split at h
      · cases h
      · cases h; exact ⟨rfl, rfl⟩
    · dsimp only at h
      split at h
      · cases h
      · cases h; exact ⟨rfl, rfl⟩
  · cases h

/-- A record that is due is its agent's next one, and issue is open at its point (R67). -/
theorem issueCtx_spec {s : State} {op p a : Nat} {c : Ctx} (h : issueCtx s op p a = some c) :
    p < 8 ∧ (s.part p).ctx p a = some c ∧ c.r.opcode = op ∧ s.openAt p c.point = true := by
  unfold issueCtx at h
  split at h
  · cases h
  · next hp =>
    dsimp only at h
    split at h
    · next hctx =>
      split at h
      · next hcond =>
        cases h
        simp only [Bool.and_eq_true, decide_eq_true_eq] at hcond
        exact ⟨by omega, hctx, hcond.1, hcond.2⟩
      · cases h
    · cases h

theorem issueCtx_owner {s : State} {op p a : Nat} {c : Ctx} (h : issueCtx s op p a = some c) : c.p = p ∧ c.agent = a := by
  obtain ⟨-, hctx, -⟩ := issueCtx_spec h
  exact Part.ctx_owner hctx

/-! ## Time up to a record's issue point -/

@[simp] theorem State.toCycle_seqs (s : State) (p cyc q : Nat) : ((s.toCycle p cyc).part q).seqs = (s.part q).seqs := by
  obtain ⟨-, -, -, hseqs, -⟩ := (s.drifts_toCycle p cyc).part q
  exact hseqs
@[simp] theorem State.toCycle_seqr (s : State) (p cyc q a : Nat) : ((s.toCycle p cyc).part q).seqr a = (s.part q).seqr a := by
  unfold Part.seqr
  rw [State.toCycle_seqs]

/-- A partition whose change touches one sequencer only. -/
theorem seqMoved_modSeqr {s u : State} {p a : Nat} {q : Seqr} {f : Seqr → Seqr} (hseqs : (u.part p).seqr a = (s.part p).seqr a)
    (hf : ∀ q, (f q).agent = q.agent) (h : (s.part p).seqr a = some q) : seqMoved u (u.modPart p (·.modSeqr a f)) p a (f q) := by
  refine ⟨?_, fun b hb => ?_, ?_, fun r hr => State.part_modPart_ne _ _ hr, rfl⟩
  · rw [State.part_modPart]
    exact Part.seqr_modSeqr hf (hseqs.trans h)
  · rw [State.part_modPart]
    exact Part.seqr_modSeqr_ne hf hb
  · rw [State.part_modPart]
    rfl

theorem seqMoved_advance {s : State} {op p a : Nat} {c : Ctx} {q : Seqr} (hc : issueCtx s op p a = some c) (hq : (s.part p).seqr a = some q)
    (next : Nat) (f : List LoopFrame → List LoopFrame) :
    seqMoved (s.toCycle p c.point) ((s.toCycle p c.point).modPart p (·.advance c next f)) p a (q.moved c next f) := by
  obtain ⟨-, rfl⟩ := issueCtx_owner hc
  exact seqMoved_modSeqr (s.toCycle_seqr p c.point p c.agent) (fun q => q.moved_agent c next f) hq

/-! ## LOOP, ENDLOOP, FILL -/

theorem exec_loop {s : State} {p a : Nat} {c : Ctx} (h : issueCtx s 1 p a = some c) : exec (.loop p a) s =
    .next ((s.toCycle p c.point).modPart p (·.advance c (c.idx + 1) (fun l =>
      { body := c.idx + 1, iter := 0, count := bits c.r.arg 31 16, period := bits c.r.arg 15 0, base := c.base + c.r.atSlot } :: l))) :=
  congrArg Host.Outcome.next (State.control_some _ h)

theorem exec_endloop {s : State} {p a : Nat} {c : Ctx} (h : issueCtx s 2 p a = some c) : exec (.endloop p a) s =
    .next ((s.toCycle p c.point).modPart p (fun x => match x.topLoop c with
      | some fr =>
        if fr.iter + 1 < fr.count then
          x.advance c fr.body (fun l => { fr with iter := fr.iter + 1, base := fr.base + fr.period } :: l.drop 1)
        else x.advance c (c.idx + 1) (fun l => l.drop 1)
      | none => x.advance c (c.idx + 1) id)) :=
  congrArg Host.Outcome.next (State.control_some _ h)

/-- The innermost loop of a context does not change while time passes. -/
theorem State.toCycle_topLoop (s : State) (p cyc q : Nat) (c : Ctx) : ((s.toCycle p cyc).part q).topLoop c = (s.part q).topLoop c := by
  unfold Part.topLoop
  rw [State.toCycle_seqr]

/-- A change of a partition by a value that depends on it alone. -/
theorem State.modPart_congr {s : State} {p : Nat} {f g : Part → Part} (h : f (s.part p) = g (s.part p)) : s.modPart p f = s.modPart p g := by
  unfold State.modPart
  rw [h]

/-- Settles O24: both records move their agent's sequencer alone; ENDLOOP's way depends on the innermost loop, which time does not change. -/
theorem loopsRepeat : Obligations.LoopsRepeat := by
  unfold Obligations.LoopsRepeat
  refine ⟨fun s p a c q hc hq => ⟨_, exec_loop hc, seqMoved_advance hc hq _ _⟩, fun s p a c q fr hc hq hfr => ?_⟩
  have htop := (s.toCycle_topLoop p c.point p c).trans hfr
  refine ⟨_, exec_endloop hc, fun hmore => ?_, fun hlast => ?_⟩
  · rw [State.modPart_congr (g := (·.advance c fr.body (fun l => { fr with iter := fr.iter + 1, base := fr.base + fr.period } :: l.drop 1)))]
    · exact seqMoved_advance hc hq _ _
    · simp only [htop, hmore, if_true]
  · rw [State.modPart_congr (g := (·.advance c (c.idx + 1) (fun l => l.drop 1)))]
    · exact seqMoved_advance hc hq _ _
    · simp only [htop, hlast, if_false]

/-! ## RENDEZVOUS, END -/

/-- The agent of a context stands at its RENDEZVOUS and waits there (R88). -/
def Seqr.waitAt (q : Seqr) (c : Ctx) : Seqr := { q with waiting := true, pc := c.idx, last := c.point }
/-- The agent of a context has issued its END (R93). -/
def Seqr.endAt (q : Seqr) (c : Ctx) : Seqr := { q with ended := true, pc := c.idx, last := c.point }
/-- The latest issue point of a record of any agent. -/
def Part.lastPoint (x : Part) : Nat := x.seqs.foldl (fun m q => max m q.last) 0

def Part.waitAt (x : Part) (a : Nat) (c : Ctx) : Part := { x.modSeqr a (·.waitAt c) with rvEntry := bits c.r.arg 11 0 }
def Part.endAt (x : Part) (a : Nat) (c : Ctx) : Part := x.modSeqr a (·.endAt c)

theorem exec_rendezvous {s : State} {p a : Nat} {c : Ctx} (h : issueCtx s 3 p a = some c) : exec (.rendezvous p a) s =
    .next ((s.toCycle p c.point).modPart p (fun x => if (x.waitAt a c).allWaiting then
      { x.waitAt a c with rvAt := some (x.waitAt a c).lastPoint, wdRun := some 0, wdLimit := s.watchdog p } else x.waitAt a c)) := by
  refine congrArg Host.Outcome.next ((State.control_some _ h).trans ?_)
  dsimp only
  rw [(s.flows_toCycle p c.point).watchdog]
  rfl

theorem exec_endProg {s : State} {p a : Nat} {c : Ctx} (h : issueCtx s 7 p a = some c) : exec (.endProg p a) s =
    .next ((s.toCycle p c.point).modPart p (fun x => if (x.endAt a c).allEnded then
      { x.endAt a c with ended := some (x.endAt a c).lastPoint } else x.endAt a c)) :=
  congrArg Host.Outcome.next (State.control_some _ h)

/-- Settles O25: the agent's own sequencer waits or has ended; what the last one sets off follows from whether all do. -/
theorem rendezvousAndEnd : Obligations.RendezvousAndEnd := by
  unfold Obligations.RendezvousAndEnd
  refine ⟨fun s p a c q hc hq => ?_, fun s p a c q hc hq => ?_⟩
  · intro u
    have hu : (u.part p).seqr a = some q := (s.toCycle_seqr p c.point p a).trans hq
    obtain ⟨-, -, -, -, -, -, -, -, hrv⟩ := (s.drifts_toCycle p c.point).part p
    have hmine : ((u.part p).waitAt a c).seqr a = some (q.waitAt c) := Part.seqr_modSeqr (f := (·.waitAt c)) (fun _ => rfl) hu
    have hothers (b : Nat) (hb : b ≠ a) : ((u.part p).waitAt a c).seqr b = (s.part p).seqr b :=
      (Part.seqr_modSeqr_ne (f := (·.waitAt c)) (fun _ => rfl) hb).trans (s.toCycle_seqr p c.point p b)
    refine ⟨_, exec_rendezvous hc, ?_⟩
    rw [State.part_modPart]
    split
    · next hall =>
      exact ⟨hmine, hothers, rfl, fun r hr => State.part_modPart_ne _ _ hr, State.modPart_rest _ _ _, fun _ => ⟨rfl, rfl, rfl⟩, fun hnot => absurd (hall.symm.trans hnot) nofun⟩
    · next hsome =>
      exact ⟨hmine, hothers, rfl, fun r hr => State.part_modPart_ne _ _ hr, State.modPart_rest _ _ _, fun hall => absurd hall hsome, fun _ => hrv⟩
  · intro u
    have hu : (u.part p).seqr a = some q := (s.toCycle_seqr p c.point p a).trans hq
    have hended : (u.part p).ended = (s.part p).ended := ((s.drifts_toCycle p c.point).2 p).ended
    have hmine : ((u.part p).endAt a c).seqr a = some (q.endAt c) := Part.seqr_modSeqr (f := (·.endAt c)) (fun _ => rfl) hu
    have hothers (b : Nat) (hb : b ≠ a) : ((u.part p).endAt a c).seqr b = (s.part p).seqr b :=
      (Part.seqr_modSeqr_ne (f := (·.endAt c)) (fun _ => rfl) hb).trans (s.toCycle_seqr p c.point p b)
    refine ⟨_, exec_endProg hc, ?_⟩
    rw [State.part_modPart]
    split
    · next hall =>
      exact ⟨hmine, hothers, fun r hr => State.part_modPart_ne _ _ hr, State.modPart_rest _ _ _, fun _ => rfl, fun hnot => absurd (hall.symm.trans hnot) nofun⟩
    · next hsome =>
      exact ⟨hmine, hothers, fun r hr => State.part_modPart_ne _ _ hr, State.modPart_rest _ _ _, fun hall => absurd hall hsome, fun _ => hended⟩

end Sys2Proof.Machine
end

section
/-! Deadlines, rendezvous and fill items (R60, R77, R89, R92): what each event of a run does to its partition. -/
namespace Sys2Proof.Machine

open Sys2Proof

/-! ## Breaches -/

theorem Part.addCause_seqs (x : Part) (c : Cause) (cyc : Nat) : (x.addCause c cyc).seqs = x.seqs := by
  obtain ⟨_, _, h⟩ := x.addCause_frame c cyc
  rw [h]
theorem Part.addCause_toks (x : Part) (c : Cause) (cyc : Nat) : (x.addCause c cyc).toks = x.toks := by
  obtain ⟨_, _, h⟩ := x.addCause_frame c cyc
  rw [h]
theorem Part.addCause_seqr (x : Part) (c : Cause) (cyc a : Nat) : (x.addCause c cyc).seqr a = x.seqr a := by
  unfold Part.seqr
  rw [Part.addCause_seqs]

theorem Part.addCause_slotLimited (x : Part) (c : Cause) (cyc : Nat) : (x.addCause c cyc).slotLimited = x.slotLimited := by
  obtain ⟨_, _, h⟩ := x.addCause_frame c cyc
  rw [h]
theorem Part.addCause_fillLate (x : Part) (c : Cause) (cyc : Nat) : (x.addCause c cyc).fillLate = x.fillLate := by
  obtain ⟨_, _, h⟩ := x.addCause_frame c cyc
  rw [h]
theorem State.breach_data (s : State) (p cyc : Nat) (b : BreachInfo) : (s.breach p cyc b).data = s.data := by
  obtain ⟨_, _, h⟩ := s.breach_frame p cyc b
  rw [h]
theorem State.breach_num (s : State) (p cyc : Nat) (b : BreachInfo) : (s.breach p cyc b).num = s.num := by
  obtain ⟨_, _, h⟩ := s.breach_frame p cyc b
  rw [h]

/-! ## Tokens and their deadlines (R77) -/

/-- The breach of an arrival that exceeds COUNT (R77). -/
def State.excess (s : State) (p k : Nat) : BreachInfo :=
  { cls := 2, agentA := ((s.part p).image.token k).consumer, actionA := (s.part p).consuming p k,
    other := some (((s.part p).image.token k).producer, 0xFFFF), resource := 0, token := k, seen := ((s.part p).image.token k).count,
    detail := 0, poisoned := false }

theorem State.tokenArrives_below {s : State} {p k : Nat} (cyc : Nat) (h : tget 0 (s.part p).toks k < ((s.part p).image.token k).count) :
    s.tokenArrives p k cyc = s.setPart p { s.part p with toks := tset 0 (s.part p).toks k (tget 0 (s.part p).toks k + 1) } := if_pos h
theorem State.tokenArrives_beyond {s : State} {p k : Nat} (cyc : Nat) (h : ((s.part p).image.token k).count ≤ tget 0 (s.part p).toks k) :
    s.tokenArrives p k cyc = s.breach p cyc (s.excess p k) := if_neg (Nat.not_lt.mpr h)

/-- An arrival changes its own partition only. -/
theorem State.part_tokenArrives_ne (s : State) {p q : Nat} (k cyc : Nat) (hq : q ≠ p) : (s.tokenArrives p k cyc).part q = s.part q := by
  obtain h | h := Nat.lt_or_ge (tget 0 (s.part p).toks k) ((s.part p).image.token k).count
  · rw [State.tokenArrives_below cyc h, State.part_setPart_ne _ _ hq]
  · rw [State.tokenArrives_beyond cyc h, State.part_breach_ne _ _ _ hq]

theorem exec_deadlineReached {s : State} {p tok k base : Nat} {c : Ctx} (hp : p < 8) (htok : tok < (s.part p).image.tokens)
    (hctx : (s.part p).ctx p ((s.part p).image.token tok).consumer = some c) (hawaits : (s.part p).awaits c tok = some (k, base))
    (hlate : ∃ q, (s.part p).seqr ((s.part p).image.token tok).consumer = some q ∧ q.late.contains tok = false)
    (hcount : tget 0 (s.part p).toks tok < ((s.part p).image.token tok).count)
    (hopen : s.openAt p ((base + bits ((s.part p).image.token tok).deadline 31 8) * 256 + bits ((s.part p).image.token tok).deadline 7 0) = true) :
    exec (.deadlineReached p tok) s = .next ((s.toCycle p ((base + bits ((s.part p).image.token tok).deadline 31 8) * 256 +
      bits ((s.part p).image.token tok).deadline 7 0)).lateToken p tok k ((base + bits ((s.part p).image.token tok).deadline 31 8) * 256 +
      bits ((s.part p).image.token tok).deadline 7 0)) := by
  obtain ⟨q, hq, hq'⟩ := hlate
  refine congrArg Host.Outcome.next ?_
  dsimp only
  rw [if_neg (by simp [hp, htok]), hctx]
  dsimp only
  rw [hawaits]
  dsimp only
  rw [hq, Option.map_some, hq', hopen, if_pos]
  simpa using hcount

/-- The breach of a late token changes its consumer's sequencer, and its partition's causes and freeze. -/
theorem State.part_lateToken (s : State) (p k action cyc : Nat) : (s.lateToken p k action cyc).part p =
    ((s.part p).modSeqr ((s.part p).image.token k).consumer (fun q => { q with late := k :: q.late })).addCause .breach cyc := by
  unfold State.lateToken State.recordLate
  rw [State.part_breach, State.part_modPart]
theorem State.part_lateToken_ne (s : State) {p q : Nat} (k action cyc : Nat) (hq : q ≠ p) : (s.lateToken p k action cyc).part q = s.part q := by
  unfold State.lateToken State.recordLate
  rw [State.part_breach_ne _ _ _ hq, State.part_modPart_ne _ _ hq]
theorem State.lateToken_data (s : State) (p k action cyc : Nat) : (s.lateToken p k action cyc).data = s.data := State.breach_data _ _ _ _
theorem State.lateToken_num (s : State) (p k action cyc : Nat) : (s.lateToken p k action cyc).num = s.num := State.breach_num _ _ _ _

/-! ## The slot limit (R60) -/

/-- The breach of a run that would begin slot 2^40 (R60). -/
def slotBreach : BreachInfo :=
  { cls := 7, agentA := ccAgent, actionA := 0xFFFF, other := none, resource := 0, token := 0xFFFF, seen := 0, detail := 0, poisoned := false }

theorem exec_slotLimit {s : State} {p : Nat} (hp : p < 8) (hnew : (s.part p).slotLimited = false) (hopen : s.openAt p (2 ^ 48) = true) :
    exec (.slotLimit p) s = .next (((s.toCycle p (2 ^ 48)).modPart p (fun x => { x with slotLimited := true })).breach p (2 ^ 48) slotBreach) := by
  refine congrArg Host.Outcome.next (if_pos ?_)
  rw [hopen, hnew]
  simp [hp]

/-- Settles O36: an arrival is counted or a breach; the two events pass time up to their cycle, and their breach touches their partition alone. -/
theorem deadlinesBreach : Obligations.DeadlinesBreach := by
  unfold Obligations.DeadlinesBreach
  refine ⟨fun s p k cyc => ⟨fun hbelow => ?_, fun hbeyond => ?_, fun q hq => s.part_tokenArrives_ne k cyc hq⟩,
    fun s p tok k base c hp htok hctx hawaits hopen hlate hcount => ?_, fun s p hp hnew hopen => ?_⟩
  · rw [State.tokenArrives_below cyc hbelow]
    exact ⟨State.part_setPart _ _ _, rfl⟩
  · rw [State.tokenArrives_beyond cyc hbeyond, State.part_breach]
    exact ⟨Part.addCause_toks _ _ _, Part.addCause_mem _ _ _⟩
  · refine ⟨_, exec_deadlineReached hp htok hctx hawaits hlate hcount hopen, ?_, ?_, fun q hq => State.part_lateToken_ne _ _ _ _ hq, ?_, ?_⟩
    · rw [State.part_lateToken]
      exact Part.addCause_mem _ _ _
    · obtain ⟨q, hq, -⟩ := hlate
      refine ⟨{ q with late := tok :: q.late }, ?_, List.mem_cons_self ..⟩
      rw [State.part_lateToken, Part.addCause_seqr, ((s.drifts_toCycle p _).2 p).image]
      exact Part.seqr_modSeqr (f := fun q => { q with late := tok :: q.late }) (fun _ => rfl) ((s.toCycle_seqr _ _ _ _).trans hq)
    · rw [State.lateToken_data]
      exact (s.drifts_toCycle p _).frame.2.1
    · rw [State.lateToken_num]
      exact (s.drifts_toCycle p _).num
  · refine ⟨_, exec_slotLimit hp hnew hopen, ?_, ?_, fun q hq => ?_, ?_⟩
    · rw [State.part_breach]
      exact Part.addCause_mem _ _ _
    · rw [State.part_breach, State.part_modPart]
      exact Part.addCause_slotLimited _ _ _
    · rw [State.part_breach_ne _ _ _ hq, State.part_modPart_ne _ _ hq]
    · rw [State.breach_data]
      exact (s.drifts_toCycle p _).frame.2.1

/-! ## The release of a rendezvous (R89, R378) -/

/-- The arrivals counted at the named ports of a list. -/
def arrivedAt (arr : Tab Nat) (ports : Nat) (l : List Nat) : Nat := (l.map (fun q => if bit ports q then tget 0 arr q else 0)).sum

theorem Part.arrived_eq (x : Part) (ports : Nat) : x.arrived ports = arrivedAt x.arrivals ports (upTo 18) := by
  unfold Part.arrived sumNat arrivedAt
  rw [List.sum_eq_foldl]

theorem arrivedAt_congr {arr arr' : Tab Nat} {ports : Nat} {l : List Nat} (h : ∀ k ∈ l, tget 0 arr' k = tget 0 arr k) :
    arrivedAt arr' ports l = arrivedAt arr ports l := by
  unfold arrivedAt
  congr 1
  exact List.map_congr_left fun k hk => by rw [h k hk]

/-- A port that is not named, or that does not come up, keeps its arrivals. -/
theorem tget_takeArrivals_of_not {ports k : Nat} (l : List Nat) (h : bit ports k = false ∨ k ∉ l) :
    ∀ (arr : Tab Nat) (need : Nat), tget 0 (takeArrivals arr ports need l) k = tget 0 arr k := by
  induction l with
  | nil => exact fun arr need => rfl
  | cons q l ih =>
    intro arr need
    have hrest : bit ports k = false ∨ k ∉ l := h.imp_right fun hk hmem => hk (List.mem_cons_of_mem _ hmem)
    unfold takeArrivals
    split
    · next hq =>
      have hne : k ≠ q := by
        rintro rfl
        obtain h | h := h
        · rw [h] at hq; cases hq
        · exact h (List.mem_cons_self ..)
      rw [ih hrest, tget_tset_ne _ _ _ hne]
    · exact ih hrest _ _

/-- Exactly the arrivals needed are taken, where so many have come. -/
theorem arrivedAt_takeArrivals {ports : Nat} (l : List Nat) (hl : l.Nodup) :
    ∀ (arr : Tab Nat) (need : Nat), need ≤ arrivedAt arr ports l → arrivedAt (takeArrivals arr ports need l) ports l + need = arrivedAt arr ports l := by
  induction l with
  | nil => intro arr need h; simpa [arrivedAt, takeArrivals] using h
  | cons q l ih =>
    intro arr need h
    obtain ⟨hq, hnodup⟩ := List.nodup_cons.mp hl
    have hcons (arr : Tab Nat) : arrivedAt arr ports (q :: l) = (if bit ports q then tget 0 arr q else 0) + arrivedAt arr ports l := by
      simp [arrivedAt]
    rw [hcons] at h
    rw [hcons, hcons]
    unfold takeArrivals
    by_cases hbit : bit ports q = true
    · simp only [hbit, if_true] at h ⊢
      have hrest := arrivedAt_congr (ports := ports) (arr := arr)
        (arr' := tset 0 arr q (tget 0 arr q - min need (tget 0 arr q))) (l := l) fun k hk => tget_tset_ne _ _ _ (fun hkq => hq (hkq ▸ hk))
      have htaken := ih hnodup (tset 0 arr q (tget 0 arr q - min need (tget 0 arr q))) (need - min need (tget 0 arr q)) (by omega)
      rw [tget_takeArrivals_of_not l (.inr hq), tget_tset_same]
      omega
    · simp only [hbit] at h ⊢
      have htaken := ih hnodup arr need (by simpa using h)
      simp only [Bool.false_eq_true, if_false]
      omega

/-- A partition that begins a new epoch at a release boundary (R89). -/
def Part.released (x : Part) (b : Nat) : Part :=
  { x with
    epochSlot := b / 256, epochVal := x.rvEntry + 1, rvAt := none, wdRun := none,
    arrivals := takeArrivals x.arrivals (x.image.rv x.rvEntry).1 (x.image.rv x.rvEntry).2 (upTo 18),
    seqs := x.seqs.map (fun q => { q with
      waiting := false, pc := q.pc + 1, last := b, loops := q.loops.map (fun f => { f with base := b / 256 }) }) }

theorem exec_rendezvousRelease {s : State} {p since : Nat} (hp : p < 8) (hrv : (s.part p).rvAt = some since) (hall : (s.part p).allWaiting = true)
    (harr : (s.part p).arrivalsOk = true) (hfill : (s.part p).fillCur = none) (hopen : s.openAt p (releaseCycle since) = true) :
    exec (.rendezvousRelease p) s = .next ((s.toCycle p (releaseCycle since)).setPart p
      (((s.toCycle p (releaseCycle since)).part p).released (releaseCycle since))) := by
  refine congrArg Host.Outcome.next ?_
  dsimp only
  rw [hrv]
  refine if_pos ?_
  rw [hall, harr, hfill, hopen]
  simp [hp]

/-- Settles O38: time up to the boundary keeps what the release reads; the arrivals taken are exactly those needed. -/
theorem rendezvousReleases : Obligations.RendezvousReleases := by
  unfold Obligations.RendezvousReleases
  intro s p since hp hrv hall harr hfill hopen b rv
  have hdrift := (s.drifts_toCycle p b).2 p
  have hready : rv.2 ≤ arrivedAt (s.part p).arrivals rv.1 (upTo 18) := by
    rw [← Part.arrived_eq]
    exact of_decide_eq_true harr
  have harrivals : (((s.toCycle p b).part p).released b).arrivals = takeArrivals (s.part p).arrivals rv.1 rv.2 (upTo 18) := by
    unfold Part.released
    rw [hdrift.arrivals, hdrift.image, hdrift.rvEntry]
  refine ⟨_, exec_rendezvousRelease hp hrv hall harr hfill hopen, ?_⟩
  rw [State.part_setPart]
  refine ⟨rfl, congrArg (· + 1) hdrift.rvEntry, rfl, rfl, ?_, fun k hk => ?_, ?_, fun q hq => State.part_setPart_ne _ _ hq, (s.drifts_toCycle p b).frame.2.1⟩
  · rw [Part.arrived_eq, Part.arrived_eq, harrivals]
    exact arrivedAt_takeArrivals _ List.nodup_range _ _ hready
  · rw [harrivals]
    exact tget_takeArrivals_of_not _ (.inl hk) _ _
  · rw [← hdrift.seqs]
    rfl

/-! ## Fill items (R92) -/

theorem exec_fill {s : State} {p a : Nat} {c : Ctx} (h : issueCtx s 4 p a = some c) : exec (.fill p a) s = .next ((s.toCycle p c.point).step1 c) :=
  congrArg Host.Outcome.next (State.control_some _ h)

/-- A partition once an agent has closed its part of an item (R92). -/
def Part.closed (x : Part) (a : Nat) (c : Ctx) : Part :=
  x.modSeqr a (fun q => { q with last := c.point, fill := q.fill.map (fun f => { f with done := true }) })

theorem exec_endfill {s : State} {p a : Nat} {c : Ctx} (h : issueCtx s 5 p a = some c) :
    exec (.endfill p a) s = .next ((s.toCycle p c.point).modPart p (fun x => (x.closed a c).settleFill c.point)) :=
  congrArg Host.Outcome.next (State.control_some _ h)

theorem Part.settleFill_open {x : Part} (cyc : Nat) (h : x.fillOver = false) : x.settleFill cyc = x := by
  unfold Part.settleFill
  rw [h]
  rfl
theorem Part.settleFill_over {x : Part} (cyc : Nat) (h : x.fillOver = true) : (x.settleFill cyc).fillCur = none ∧
    (x.settleFill cyc).fillNext = x.fillNext + 1 ∧ ∀ q ∈ (x.settleFill cyc).seqs, q.fill = none := by
  unfold Part.settleFill
  rw [if_pos h]
  refine ⟨rfl, rfl, fun q hq => ?_⟩
  obtain ⟨q, -, rfl⟩ := List.mem_map.mp hq
  rfl

/-- An agent's sequencer once an item has started in a slot (R92): those with a FILL record of it have a context for it. -/
def Seqr.startItem (m : Image) (item slot : Nat) (q : Seqr) : Seqr :=
  match (m.binding q.agent).bind (fun b => fillRecord (m.program b) item) with
  | some k => { q with last := max q.last (slot * 256), fill := some { item := item, pc := k, loops := [], done := false } }
  | none => q

/-- A partition at the start of its next fill item (R92). -/
def Part.startItem (x : Part) (slot : Nat) : Part :=
  let gate := (x.image.fillEntry x.fillNext).1
  { x with fillCur := some (x.fillNext, slot), fillLate := false, seqs := x.seqs.map (Seqr.startItem x.image x.fillNext slot),
           toks := if gate = 0xFFFF then x.toks else tset 0 x.toks gate 0 }

/-- Time changes nothing of what the start of an item reads. -/
theorem Part.Drifts.startItem {x y : Part} (h : x.Drifts y) (slot : Nat) : y.startItem slot = { y with
    fillCur := some (x.fillNext, slot), fillLate := false, seqs := x.seqs.map (Seqr.startItem x.image x.fillNext slot),
    toks := if (x.image.fillEntry x.fillNext).1 = 0xFFFF then x.toks else tset 0 x.toks (x.image.fillEntry x.fillNext).1 0 } := by
  obtain ⟨_, _, _, _, _, rfl⟩ := h
  rfl

theorem exec_fillItemStart {s : State} {p : Nat} (hp : p < 8) (hcur : (s.part p).fillCur = none) (hnext : (s.part p).fillNext < (s.part p).image.fills)
    (hgate : ((s.part p).image.fillEntry (s.part p).fillNext).1 = 0xFFFF ∨
      ((s.part p).image.token ((s.part p).image.fillEntry (s.part p).fillNext).1).count ≤
        tget 0 (s.part p).toks ((s.part p).image.fillEntry (s.part p).fillNext).1)
    (hidle : ((s.part p).allWaiting = true ∧ (s.part p).arrivalsOk = false) ∨ (s.part p).allEnded = true)
    (hopen : s.openAt p (cdiv (s.part p).cycle 256 * 256) = true) :
    exec (.fillItemStart p) s = .next ((s.toCycle p (cdiv (s.part p).cycle 256 * 256)).modPart p (fun x =>
      (x.startItem (cdiv (s.part p).cycle 256)).settleFill (cdiv (s.part p).cycle 256 * 256))) := by
  refine congrArg Host.Outcome.next ((if_pos ?_).trans ?_)
  · rw [hcur, hopen]
    simp only [Bool.and_eq_true, Bool.or_eq_true, decide_eq_true_eq, Bool.not_eq_true', Option.isNone_none, hp, hnext, and_true, true_and]
    exact ⟨hgate, hidle⟩
  · have hdrift := (s.drifts_toCycle p (cdiv (s.part p).cycle 256 * 256)).2 p
    unfold State.modPart Part.startItem
    dsimp only
    rw [hdrift.fillNext, hdrift.image]
    rfl

theorem exec_fillOverrun {s : State} {p i st : Nat} (hp : p < 8) (hcur : (s.part p).fillCur = some (i, st)) (hnew : (s.part p).fillLate = false)
    (hopen : s.openAt p ((st + ((s.part p).image.fillEntry i).2) * 256) = true) :
    exec (.fillOverrun p) s = .next (((s.toCycle p ((st + ((s.part p).image.fillEntry i).2) * 256)).modPart p (fun x => { x with fillLate := true })).breach p
      ((st + ((s.part p).image.fillEntry i).2) * 256) { slotBreach with cls := 8 }) := by
  refine congrArg Host.Outcome.next ?_
  dsimp only
  rw [hcur]
  refine if_pos ?_
  rw [hopen, hnew]
  simp [hp]

/-- Settles O40: FILL moves its agent on, ENDFILL closes its part; the two events act on the partition as it stands at their cycle, whose item and
image are those before it. -/
theorem fillItemsRun : Obligations.FillItemsRun := by
  unfold Obligations.FillItemsRun
  refine ⟨⟨?_, ?_⟩, ?_, ?_⟩
  · intro s p a c q hc hq
    refine ⟨_, exec_fill hc, ?_⟩
    obtain ⟨rfl, -⟩ := issueCtx_owner hc
    exact seqMoved_advance hc hq _ _
  · intro s p a c hc u x
    refine ⟨_, exec_endfill hc, fun r hr => State.part_modPart_ne _ _ hr, State.modPart_rest _ _ _, fun hover => ?_, fun hover => ?_⟩ <;> rw [State.part_modPart]
    · exact Part.settleFill_open _ hover
    · obtain ⟨hcur, hnext, hfill⟩ := Part.settleFill_over c.point hover
      exact ⟨hcur, hnext, hfill, Part.settleFill_flights _ _⟩
  · intro s p hp hcur hnext x gate st hgate hidle hopen y
    have hdrift := (s.drifts_toCycle p (st * 256)).2 p
    refine ⟨_, exec_fillItemStart hp hcur hnext hgate hidle hopen, ?_, fun q hq => State.part_modPart_ne _ _ hq, (s.drifts_toCycle p (st * 256)).frame.2.1⟩
    rw [State.part_modPart]
    refine congrArg (Part.settleFill · (st * 256)) ?_
    exact hdrift.startItem st
  · intro s p i st hp hcur hnew lim hopen
    refine ⟨_, exec_fillOverrun hp hcur hnew hopen, ?_, ?_, fun q hq => ?_, ?_⟩
    · rw [State.part_breach]
      exact Part.addCause_mem _ _ _
    · rw [State.part_breach, State.part_modPart]
      exact Part.addCause_fillLate _ _ _
    · rw [State.part_breach_ne _ _ _ hq, State.part_modPart_ne _ _ hq]
    · rw [State.breach_data]
      exact (s.drifts_toCycle p lim).frame.2.1

end Sys2Proof.Machine
end

section
/-! The end of a run (R86, R93, R292): what it leaves of its partition and of the machine. -/
namespace Sys2Proof.Machine

open Sys2Proof

/-! ## Firmware's stores to device memory -/

/-- Only device and host memory change. -/
def State.Stores (s t : State) : Prop := ∃ d p h q, t = { s with data := { s.data with dev := d, devP := p, host := h, hostP := q } }

theorem State.Stores.refl (s : State) : s.Stores s := ⟨_, _, _, _, rfl⟩
theorem State.Stores.trans {s t u : State} (h : s.Stores t) (h' : t.Stores u) : s.Stores u := by
  obtain ⟨_, _, _, _, rfl⟩ := h
  obtain ⟨_, _, _, _, rfl⟩ := h'
  exact ⟨_, _, _, _, rfl⟩
theorem State.Stores.foldl {α : Type} {f : State → α → State} (h : ∀ (s : State) (x : α), s.Stores (f s x)) (l : List α) (s : State) : s.Stores (l.foldl f s) := by
  induction l generalizing s with
  | nil => exact .refl _
  | cons x l ih => exact (h s x).trans (ih _)

theorem State.stores_devWrite (s : State) (a : Nat) (r : Run) : s.Stores (s.devWrite a r) := by
  unfold State.devWrite
  split
  · exact ⟨_, _, s.data.host, s.data.hostP, rfl⟩
  · exact ⟨s.data.dev, s.data.devP, _, _, rfl⟩
theorem State.stores_fwWrite (s : State) (a n v : Nat) : s.Stores (s.fwWrite a n v) := s.stores_devWrite _ _
theorem State.stores_putSeq (s : State) (c : CacheSet) (slot : Nat) (e : SeqEntry) : s.Stores (s.putSeq c slot e) := s.stores_devWrite _ _
theorem State.stores_givePage (s : State) (c : CacheSet) (i page : Nat) : s.Stores (s.givePage c i page) :=
  (s.stores_fwWrite _ _ _).trans (State.stores_fwWrite _ _ _ _)
theorem State.stores_leaveSlot (s : State) (c : CacheSet) (slot : Nat) : s.Stores (s.leaveSlot c slot) := by
  unfold State.leaveSlot
  refine (State.Stores.foldl (fun s ie => ?_) _ _).trans (State.stores_putSeq _ _ _ _)
  dsimp only
  split
  · split
    · exact s.stores_fwWrite _ _ _
    · exact (s.stores_givePage _ _ _).trans (State.stores_fwWrite _ _ _ _)
  · exact .refl _
theorem State.stores_clearPending (s : State) (c : CacheSet) : s.Stores (s.clearPending c) := .foldl (fun s _ => s.stores_putSeq _ _ _) _ _

/-! ## Cache requests of a partition are served -/

/-- Device memory changes, completion records join those that wait, and of the partition only the held steps of its slots change. -/
structure State.Serves (p : Nat) (s t : State) : Prop where
  rest : ∃ d dp h hp cl hi sq ps, t = { s with
    data := { s.data with dev := d, devP := dp, host := h, hostP := hp }
    hif := { s.hif with compl := cl, history := hi }, es := { s.es with seq := sq }, parts := ps }
  compl : ∀ r ∈ s.hif.compl, r ∈ t.hif.compl
  own : ∃ h, t.part p = { s.part p with held := h }
  others : ∀ q, q ≠ p → t.part q = s.part q

namespace State.Serves
variable {p : Nat} {s t u : State}

theorem refl (p : Nat) (s : State) : s.Serves p s := ⟨⟨_, _, _, _, _, _, _, _, rfl⟩, fun _ h => h, ⟨_, rfl⟩, fun _ _ => rfl⟩
theorem trans (h : s.Serves p t) (h' : t.Serves p u) : s.Serves p u := by
  refine ⟨?_, fun r hr => h'.compl r (h.compl r hr), ?_, fun q hq => (h'.others q hq).trans (h.others q hq)⟩
  · obtain ⟨_, _, _, _, _, _, _, _, ht⟩ := h.rest
    obtain ⟨_, _, _, _, _, _, _, _, hu⟩ := h'.rest
    rw [hu, ht]
    exact ⟨_, _, _, _, _, _, _, _, rfl⟩
  · obtain ⟨_, ht⟩ := h.own
    obtain ⟨_, hu⟩ := h'.own
    rw [hu, ht]
    exact ⟨_, rfl⟩
theorem foldl {α : Type} {f : State → α → State} (h : ∀ (s : State) (x : α), s.Serves p (f s x)) (l : List α) (s : State) : s.Serves p (l.foldl f s) := by
  induction l generalizing s with
  | nil => exact .refl p _
  | cons x l ih => exact (h s x).trans (ih _)

end State.Serves

theorem State.Stores.serves {s t : State} (h : s.Stores t) (p : Nat) : s.Serves p t := by
  obtain ⟨_, _, _, _, rfl⟩ := h
  exact ⟨⟨_, _, _, _, _, _, _, _, rfl⟩, fun _ h => h, ⟨_, rfl⟩, fun _ _ => rfl⟩
theorem State.serves_complete (p : Nat) (s : State) (ring tag stamp part status reason value detail : Nat) :
    s.Serves p (s.complete ring tag stamp part status reason value detail) :=
  ⟨⟨_, _, _, _, _, _, _, _, rfl⟩, fun _ hr => List.mem_append_left _ hr, ⟨_, rfl⟩, fun _ _ => rfl⟩
theorem State.serves_notHeld (s : State) (p slot : Nat) : s.Serves p (s.notHeld p slot) :=
  ⟨⟨_, _, _, _, _, _, _, _, rfl⟩, fun _ hr => hr, ⟨_, State.part_modPart _ _ _⟩, fun _ hq => State.part_modPart_ne _ _ hq⟩

/-- No cache request of the partition waits any more. -/
def Part.served (x : Part) : Part := { x with cacheQ := [] }

theorem State.serves_serveCacheQueue (s : State) (p : Nat) : (s.modPart p Part.served).Serves p (s.serveCacheQueue p) := by
  unfold State.serveCacheQueue
  dsimp only
  split
  · exact .refl p _
  · next c _ =>
    refine (State.Serves.foldl (fun s r => ?_) _ _).trans (State.Serves.foldl (fun s r => ?_) _ _)
    · split
      · exact s.serves_complete p _ _ _ _ _ _ _ _
      · exact (((s.stores_leaveSlot c r.slot).serves p).trans (State.serves_notHeld _ p r.slot)).trans (State.serves_complete p _ _ _ _ _ _ _ _ _)
    · split
      · exact s.serves_complete p _ _ _ _ _ _ _ _
      · exact (((s.stores_putSeq c r.slot _).serves p).trans (State.serves_notHeld _ p r.slot)).trans (State.serves_complete p _ _ _ _ _ _ _ _ _)

/-- Where nothing waits, or no cache set is registered, no request is served. -/
theorem State.serveCacheQueue_none {s : State} {p : Nat} (h : (s.part p).cset = none ∨ (s.part p).cacheQ = []) :
    s.serveCacheQueue p = s.modPart p Part.served := by
  unfold State.serveCacheQueue
  dsimp only
  split
  · rfl
  · next c hc =>
    obtain h | h := h
    · have hcset : ((s.modPart p Part.served).part p).cset = none := by rw [State.part_modPart]; exact h
      have hnone : (s.modPart p Part.served).cset p = none := by unfold State.cset; rw [hcset]; rfl
      exact absurd (hnone.symm.trans hc) nofun
    · rw [h]
      rfl

/-! ## The end of a run -/

/-- A partition whose run has ended, with its cache requests still to be served (R93). -/
def Part.atEnd (x : Part) : Part :=
  { x with
    status := .idle, frz := .no, cur := 0, image := [], lastImage := x.image, seqs := [], toks := [], tokArr := [], tokSent := [],
    flights := x.flights.map Flight.outlive, nans := x.nans.map (fun n => { n with issue := n.issue + runSpan }), causes := [],
    wdAgain := false, wanted := [], writes := [], rvAt := none, wdRun := none, fillCur := none, fillLate := false, ended := none,
    grace := none, spans := [], elapsed := 0, epochSlot := 0, epochVal := 0 }

/-- The run has ended and its SWITCH has completed; the cache requests are still to be served. -/
def State.switched (s : State) (p status reason value detail : Nat) : State :=
  (((s.outliveLinks p).setPart p (s.part p).atEnd).complete (s.part p).swRing (s.part p).swTag (s.part p).swStamp p status reason value detail).advertise

theorem State.endRun_eq (s : State) (p status reason value detail : Nat) :
    s.endRun p status reason value detail = (s.switched p status reason value detail).serveCacheQueue p := rfl

theorem State.part_switched (s : State) (p status reason value detail : Nat) : (s.switched p status reason value detail).part p = (s.part p).atEnd :=
  State.part_setPart _ _ _
theorem State.part_switched_ne (s : State) {p q : Nat} (status reason value detail : Nat) (hq : q ≠ p) :
    (s.switched p status reason value detail).part q = s.part q := State.part_setPart_ne _ _ hq

/-- What the end of a run leaves of the machine: device memory aside, every memory and every unit but the host interface and the links. -/
structure State.RunOver (p : Nat) (s t : State) : Prop where
  rest : ∃ d dp h hp cl hi ad asq at' sq ps l, t = { s with
    data := { s.data with dev := d, devP := dp, host := h, hostP := hp }
    hif := { s.hif with compl := cl, history := hi, advertDue := ad, advertSeq := asq, advertTime := at' }, es := { s.es with seq := sq }, parts := ps, lnk := l }
  compl : ∀ r ∈ s.hif.compl, r ∈ t.hif.compl
  own : ∃ h, t.part p = { (s.part p).atEnd with cacheQ := [], held := h }
  others : ∀ q, q ≠ p → t.part q = s.part q

section
variable {p : Nat} {s t : State} (h : s.RunOver p t)
include h

theorem State.RunOver.srec (e : Nat) : t.srec e = s.srec e := by
  obtain ⟨_, _, _, _, _, _, _, _, _, _, _, _, rfl⟩ := h.rest
  rfl
theorem State.RunOver.queue : t.hif.queue = s.hif.queue := by
  obtain ⟨_, _, _, _, _, _, _, _, _, _, _, _, rfl⟩ := h.rest
  rfl
theorem State.RunOver.data : ∃ d dp h hp, t.data = { s.data with dev := d, devP := dp, host := h, hostP := hp } := by
  obtain ⟨_, _, _, _, _, _, _, _, _, _, _, _, rfl⟩ := h.rest
  exact ⟨_, _, _, _, rfl⟩
theorem State.RunOver.galley : t.data.galley = s.data.galley := by
  obtain ⟨_, _, _, _, hdata⟩ := h.data
  rw [hdata]
theorem State.RunOver.galleyP : t.data.galleyP = s.data.galleyP := by
  obtain ⟨_, _, _, _, hdata⟩ := h.data
  rw [hdata]
theorem State.RunOver.core : t.data.core = s.data.core := by
  obtain ⟨_, _, _, _, hdata⟩ := h.data
  rw [hdata]
theorem State.RunOver.units : ∃ dt hf sq ps l, t = { s with data := dt, hif := hf, es := { s.es with seq := sq }, parts := ps, lnk := l } := by
  obtain ⟨_, _, _, _, _, _, _, _, _, _, _, _, rfl⟩ := h.rest
  exact ⟨_, _, _, _, _, rfl⟩

end

theorem State.switched_frame (s : State) (p status reason value detail : Nat) : ∃ cl hi ad asq at' sq ps l,
    s.switched p status reason value detail = { s with
      hif := { s.hif with compl := cl, history := hi, advertDue := ad, advertSeq := asq, advertTime := at' }, es := { s.es with seq := sq }, parts := ps,
      lnk := l } := ⟨_, _, _, _, _, _, _, _, rfl⟩

theorem State.runOver_endRun (s : State) (p status reason value detail : Nat) : s.RunOver p (s.endRun p status reason value detail) := by
  rw [State.endRun_eq]
  have h := (s.switched p status reason value detail).serves_serveCacheQueue p
  refine ⟨?_, fun r hr => h.compl r (List.mem_append_left _ hr), ?_, fun q hq => ?_⟩
  · obtain ⟨_, _, _, _, _, _, _, _, ht⟩ := h.rest
    rw [ht]
    obtain ⟨_, _, _, _, _, _, _, _, hs⟩ := s.switched_frame p status reason value detail
    rw [hs]
    exact ⟨_, _, _, _, _, _, _, _, _, _, _, _, rfl⟩
  · obtain ⟨_, ht⟩ := h.own
    rw [ht, State.part_modPart, State.part_switched]
    exact ⟨_, rfl⟩
  · rw [h.others q hq, State.part_modPart_ne _ _ hq, State.part_switched_ne _ _ _ _ _ hq]

/-- The SWITCH of the run has its completion record. -/
theorem State.endRun_record (s : State) (p status reason value detail : Nat) : ∃ r ∈ (s.endRun p status reason value detail).hif.compl,
    r.tag = (s.part p).swTag ∧ r.partition = p ∧ r.status = status ∧ r.reason = reason ∧ r.value = value := by
  rw [State.endRun_eq]
  exact ⟨_, ((s.switched p status reason value detail).serves_serveCacheQueue p).compl _ (List.mem_append_right _ (List.mem_singleton_self _)), rfl, rfl, rfl, rfl, rfl⟩

/-- Without a cache request to be served no memory changes. -/
theorem State.endRun_data {s : State} {p : Nat} (status reason value detail : Nat) (h : (s.part p).cset = none ∨ (s.part p).cacheQ = []) :
    (s.endRun p status reason value detail).data = s.data := by
  rw [State.endRun_eq, State.serveCacheQueue_none]
  · rfl
  · rw [State.part_switched]
    exact h

/-! ## The completion of a run (R93) -/

theorem exec_runComplete {s : State} {p last : Nat} (hp : p < 8) (hended : (s.part p).ended = some last) (hall : (s.part p).allEnded = true)
    (hfill : (s.part p).fillCur = none) (hitems : (s.part p).image.fills ≤ (s.part p).fillNext) (hopen : s.openAt p ((last / 256 + 1) * 256) = true) :
    ∃ steps, exec (.runComplete p) s = .next (((s.toCycle p ((last / 256 + 1) * 256)).modPart p (fun x =>
      { x with lastSteps := steps, abandoned := false })).endRun p 0 0 (last / 256 + 1) 0) := by
  refine ⟨(s.part p).seqs.foldl (fun m q => max m q.steps) 0, congrArg Host.Outcome.next ?_⟩
  dsimp only
  rw [hended]
  refine (if_pos ?_).trans ?_
  · rw [hall, hfill, hopen]
    simp [hp, hitems]
  · rw [Nat.mul_div_cancel _ (by decide : 0 < 256)]
    rfl

/-! ## ABANDON (R86) -/

/-- What ABANDON empties besides the galleys and the stream records: pipes, paths, what is held at a weir, the tags of the stores, the links. -/
def State.Clears (s t : State) : Prop := ∃ tg pp pd mm sp aq l, t = { s with
  data := { s.data with storeTag := tg }, se := { s.se with pipes := pp, piped := pd }, mem := mm, spine := sp, accq := aq, lnk := l }

theorem State.Clears.refl (s : State) : s.Clears s := ⟨_, _, _, _, _, _, _, rfl⟩
theorem State.Clears.trans {s t u : State} (h : s.Clears t) (h' : t.Clears u) : s.Clears u := by
  obtain ⟨_, _, _, _, _, _, _, rfl⟩ := h
  obtain ⟨_, _, _, _, _, _, _, rfl⟩ := h'
  exact ⟨_, _, _, _, _, _, _, rfl⟩
theorem State.Clears.foldl {α : Type} {f : State → α → State} (h : ∀ (s : State) (x : α), s.Clears (f s x)) (l : List α) (s : State) : s.Clears (l.foldl f s) := by
  induction l generalizing s with
  | nil => exact .refl _
  | cons x l ih => exact (h s x).trans (ih _)

theorem State.clears_dropHeld (s : State) (of : Nat → WeirReq → Bool) : s.Clears (s.dropHeld of) := by
  have hheld := State.Clears.foldl (f := fun s k => s.putHeld k ((s.weirHeld k).filter (fun r => !of (k % 16) r))) (fun s k => ⟨_, _, _, _, _, _, _, rfl⟩)
    (s.mem.held.map (·.1)) s
  exact hheld.trans ⟨_, _, _, _, _, _, _, rfl⟩
theorem State.clears_sendGrant (s : State) (m : Msg) (n : Nat) : s.Clears (s.sendGrant m n) := by
  unfold State.sendGrant
  dsimp only
  split
  · split
    · exact ⟨_, _, _, _, _, _, _, rfl⟩
    · exact .refl _
  · exact ⟨_, _, _, _, _, _, _, rfl⟩
theorem State.clears_giveUnitsGo (port : Nat) (l : List Msg) : ∀ (free : Nat) (done : List Msg) (s : State), s.Clears (State.giveUnitsGo port free done l s) := by
  induction l with
  | nil => exact fun free done s => ⟨_, _, _, _, _, _, _, rfl⟩
  | cons m l ih =>
    intro free done s
    unfold State.giveUnitsGo
    dsimp only
    split
    · exact ih _ _ _
    · split
      · exact (s.clears_sendGrant _ _).trans (ih _ _ _)
      · exact ((s.clears_sendGrant _ _).trans (State.clears_sendGrant _ _ _)).trans (ih _ _ _)
theorem State.clears_giveAll (s : State) : s.Clears s.giveAll := .foldl (fun s _ => State.clears_giveUnitsGo _ _ _ _ s) _ _

/-- The galleys of a partition's fields are zeroed. -/
def State.galleysZeroed (s : State) (p : Nat) : State := (fieldList (s.lay p).fields).foldl (fun s f => s.zeroGalleys f) s
/-- The streams of a partition are discarded. -/
def State.streamsDropped (s : State) (p : Nat) : State :=
  (s.streamsOf p).foldl (fun s e => s.setRec e { s.srec e with state := 0, cause := 0, thawing := false }) s

theorem State.galleysZeroed_frame (s : State) (p : Nat) : ∃ g gn gp, s.galleysZeroed p = { s with
    data := { s.data with galley := g, galleyN := gn, galleyP := gp } } := by
  unfold State.galleysZeroed
  generalize fieldList (s.lay p).fields = l
  induction l generalizing s with
  | nil => exact ⟨_, _, _, rfl⟩
  | cons f l ih =>
    obtain ⟨_, _, _, h⟩ := ih (s.zeroGalleys f)
    rw [List.foldl_cons, h]
    exact ⟨_, _, _, rfl⟩
theorem State.streamsDropped_frame (s : State) (p : Nat) : ∃ r, s.streamsDropped p = { s with se := { s.se with recs := r } } := by
  unfold State.streamsDropped
  generalize s.streamsOf p = l
  induction l generalizing s with
  | nil => exact ⟨_, rfl⟩
  | cons e l ih =>
    obtain ⟨_, h⟩ := ih (s.setRec e { s.srec e with state := 0, cause := 0, thawing := false })
    rw [List.foldl_cons, h]
    exact ⟨_, rfl⟩

/-- Something that a step of a fold keeps, and that one of its steps brings about, holds after it. -/
theorem foldl_brings {α σ : Type} {P : σ → Prop} {f : σ → α → σ} (keeps : ∀ s x, P s → P (f s x)) {x : α} (brings : ∀ s, P (f s x)) {l : List α}
    (hx : x ∈ l) (s : σ) : P (l.foldl f s) := by
  obtain ⟨l₁, l₂, rfl⟩ := List.append_of_mem hx
  rw [List.foldl_append, List.foldl_cons]
  exact List.foldlRecOn l₂ f (brings _) fun s h x _ => keeps s x h

/-- Every stream of the partition is discarded. -/
theorem State.streamsDropped_state {s : State} {p e : Nat} (he : e ∈ s.streamsOf p) : ((s.streamsDropped p).srec e).state = 0 := by
  refine foldl_brings (P := fun s : State => (s.srec e).state = 0) (fun s x h => ?_) (fun s => ?_) he s
  · by_cases hx : e = x
    · subst hx
      rw [State.srec_setRec]
    · rw [State.srec_setRec_ne _ _ hx]
      exact h
  · rw [State.srec_setRec]

theorem tget_tclear_zero {α : Type} {d : α} {t : Tab α} {j : Nat} (lo n : Nat) (h : tget d t j = d) : tget d (tclear t lo n) j = d := by
  rw [tget_tclear]
  split
  · rfl
  · exact h
theorem tget_tclear_in {α : Type} (d : α) (t : Tab α) {lo n j : Nat} (h : lo ≤ j ∧ j < lo + n) : tget d (tclear t lo n) j = d := by
  rw [tget_tclear, if_pos h]

theorem mem_fieldList {mask f : Nat} : f ∈ fieldList mask ↔ f < 16 ∧ bit mask f = true := by
  simp [fieldList, upTo]

/-- Both galleys of every core of the partition's fields are zero and sound. -/
theorem State.galleysZeroed_zero {s : State} {p f k g : Nat} (hf : f < 16) (hbit : bit (s.lay p).fields f = true) (hk : k < 64) (hg : g < 2) :
    (∀ x y, x < 128 → y < 192 → tget 0 (s.galleysZeroed p).data.galley (galElem (64 * f + k) g x y) = 0) ∧
    tget 0 (s.galleysZeroed p).data.galleyP (galKey (64 * f + k) g) = 0 := by
  have hmem : f ∈ fieldList (s.lay p).fields := mem_fieldList.mpr ⟨hf, hbit⟩
  refine ⟨fun x y hx hy => ?_, ?_⟩
  · refine foldl_brings (P := fun s : State => tget 0 s.data.galley (galElem (64 * f + k) g x y) = 0) (fun s _ h => tget_tclear_zero _ _ h)
      (fun s => tget_tclear_in _ _ ?_) hmem s
    unfold galElem galKey
    omega
  · refine foldl_brings (P := fun s : State => tget 0 s.data.galleyP (galKey (64 * f + k) g) = 0) (fun s _ h => tget_tclear_zero _ _ h)
      (fun s => tget_tclear_in _ _ ?_) hmem s
    unfold galKey
    omega

theorem State.clears_clearPipe (s : State) (e : Nat) : s.Clears (s.clearPipe e) := ⟨_, _, _, _, _, _, _, rfl⟩
theorem State.clears_endLinks (s : State) (p : Nat) : s.Clears (s.endLinks p) := (s.clears_dropHeld _).trans ⟨_, _, _, _, _, _, _, rfl⟩

/-- What ABANDON does to the engines besides zeroing galleys and discarding streams. -/
def State.emptied (s : State) (p : Nat) : State :=
  let es := s.streamsOf p
  let s := (es.foldl State.clearPipe (s.dropHeld (fun _ r => agKind r.agent == 1 && es.contains (agNum r.agent)))).dropDirect es.contains
  (({ s with accq := s.accq.filter (fun w => w.partition != p) } : State).clearTags p).endLinks p

theorem State.abandonEngines_eq (s : State) (p : Nat) : s.abandonEngines p = ((s.galleysZeroed p).streamsDropped p).emptied p := rfl

theorem State.clears_emptied (s : State) (p : Nat) : s.Clears (s.emptied p) := by
  unfold State.emptied
  dsimp only
  generalize s.streamsOf p = es
  have hheld := s.clears_dropHeld (fun _ r => agKind r.agent == 1 && es.contains (agNum r.agent))
  have hpipes := hheld.trans (State.Clears.foldl State.clears_clearPipe es _)
  generalize es.foldl State.clearPipe _ = v at hpipes
  have hpaths : s.Clears (v.dropDirect es.contains) := hpipes.trans ⟨_, _, _, _, _, _, _, rfl⟩
  generalize v.dropDirect es.contains = w at hpaths
  have haccq : s.Clears { w with accq := w.accq.filter (fun x => x.partition != p) } := hpaths.trans ⟨_, _, _, _, _, _, _, rfl⟩
  generalize ({ w with accq := w.accq.filter (fun x => x.partition != p) } : State) = x at haccq
  have htags : s.Clears (x.clearTags p) := haccq.trans ⟨_, _, _, _, _, _, _, rfl⟩
  exact htags.trans (State.clears_endLinks _ p)

/-- The partition's engines are idle and empty; its run has still to end. -/
def State.quiet (s : State) (p : Nat) : State := ((s.abandonEngines p).giveAll.modPart p (fun x => { x with arrivals := [], abandoned := true })).endFlights p

theorem State.abandonRun_eq (s : State) (p status reason detail : Nat) :
    s.abandonRun p status reason detail = (s.quiet p).endRun p status reason (s.part p).slot detail := rfl

/-- A partition whose engines are idle and empty. -/
def Part.quiet (x : Part) : Part := { x with arrivals := [], abandoned := true, flights := [], nans := [] }

theorem State.clears_quieted (s : State) (p : Nat) : ((s.galleysZeroed p).streamsDropped p).Clears (s.abandonEngines p).giveAll :=
  ((State.clears_emptied _ p).trans (State.clears_giveAll _))

/-- What the engines' end leaves of the machine. -/
theorem State.quieted_frame (s : State) (p : Nat) : ∃ g gn gp tg se mm sp aq l, (s.abandonEngines p).giveAll = { s with
    data := { s.data with galley := g, galleyN := gn, galleyP := gp, storeTag := tg }, se := se, mem := mm, spine := sp, accq := aq, lnk := l } := by
  obtain ⟨_, _, _, hz⟩ := s.galleysZeroed_frame p
  obtain ⟨_, hd⟩ := (s.galleysZeroed p).streamsDropped_frame p
  obtain ⟨_, _, _, _, _, _, _, hc⟩ := s.clears_quieted p
  rw [hc, hd, hz]
  exact ⟨_, _, _, _, _, _, _, _, _, rfl⟩

theorem State.quieted_parts (s : State) (p : Nat) : (s.abandonEngines p).giveAll.parts = s.parts := by
  obtain ⟨_, _, _, _, _, _, _, _, _, h⟩ := s.quieted_frame p
  rw [h]

theorem State.part_quiet (s : State) (p : Nat) : (s.quiet p).part p = (s.part p).quiet := by
  unfold State.quiet State.endFlights
  rw [State.part_modPart, State.part_modPart, State.part, State.quieted_parts]
  rfl
theorem State.part_quiet_ne (s : State) {p q : Nat} (hq : q ≠ p) : (s.quiet p).part q = s.part q := by
  unfold State.quiet State.endFlights
  rw [State.part_modPart_ne _ _ hq, State.part_modPart_ne _ _ hq, State.part, State.quieted_parts]
  rfl
theorem State.quiet_frame (s : State) (p : Nat) : ∃ g gn gp tg se mm sp aq l ps, s.quiet p = { s with
    data := { s.data with galley := g, galleyN := gn, galleyP := gp, storeTag := tg }, se := se, mem := mm, spine := sp, accq := aq, lnk := l,
    parts := ps } := by
  unfold State.quiet
  obtain ⟨_, _, _, _, _, _, _, _, _, h⟩ := s.quieted_frame p
  rw [h]
  exact ⟨_, _, _, _, _, _, _, _, _, _, rfl⟩

theorem State.quiet_srec {s : State} {p e : Nat} (he : e ∈ s.streamsOf p) : ((s.quiet p).srec e).state = 0 := by
  obtain ⟨_, _, _, hz⟩ := s.galleysZeroed_frame p
  have he' : e ∈ (s.galleysZeroed p).streamsOf p := by rw [hz]; exact he
  obtain ⟨_, _, _, _, _, _, _, hc⟩ := s.clears_quieted p
  have hrec : (s.quiet p).srec e = ((s.galleysZeroed p).streamsDropped p).srec e := by
    unfold State.quiet
    rw [hc]
    rfl
  rw [hrec]
  exact State.streamsDropped_state he'

theorem State.quiet_galley (s : State) (p : Nat) : (s.quiet p).data.galley = (s.galleysZeroed p).data.galley ∧
    (s.quiet p).data.galleyP = (s.galleysZeroed p).data.galleyP := by
  obtain ⟨_, hd⟩ := (s.galleysZeroed p).streamsDropped_frame p
  obtain ⟨_, _, _, _, _, _, _, hc⟩ := s.clears_quieted p
  unfold State.quiet
  rw [hc, hd]
  exact ⟨rfl, rfl⟩

/-- An abandoned run: its partition is IDLE and empty, its streams are discarded, its galleys zero; core memory and all that is not named stay (R86). -/
structure State.RunDropped (p : Nat) (s t : State) : Prop where
  rest : ∃ dt hf sq se mm sp aq l ps, t = { s with
    data := dt, hif := hf, es := { s.es with seq := sq }, se := se, mem := mm, spine := sp, accq := aq, lnk := l, parts := ps }
  queue : t.hif.queue = s.hif.queue
  core : t.data.core = s.data.core
  compl : ∀ r ∈ s.hif.compl, r ∈ t.hif.compl
  own : ∃ h, t.part p = { (s.part p).quiet.atEnd with cacheQ := [], held := h }
  others : ∀ q, q ≠ p → t.part q = s.part q
  streams : ∀ e ∈ s.streamsOf p, (t.srec e).state = 0
  galleys : t.data.galley = (s.galleysZeroed p).data.galley ∧ t.data.galleyP = (s.galleysZeroed p).data.galleyP

theorem State.runDropped_abandonRun (s : State) (p status reason detail : Nat) : s.RunDropped p (s.abandonRun p status reason detail) := by
  rw [State.abandonRun_eq]
  have hover := (s.quiet p).runOver_endRun p status reason (s.part p).slot detail
  generalize (s.quiet p).endRun p status reason (s.part p).slot detail = t at hover
  obtain ⟨_, _, _, _, _, ht⟩ := hover.units
  have hcore := hover.core
  have hqueue := hover.queue
  have hcompl := hover.compl
  obtain ⟨hgalley, hgalleyP⟩ := s.quiet_galley p
  obtain ⟨_, _, _, _, _, _, _, _, _, _, hs⟩ := s.quiet_frame p
  refine ⟨?_, ?_, ?_, ?_, ?_, fun q hq => (hover.others q hq).trans (s.part_quiet_ne hq), fun e he => ?_, ?_⟩
  · rw [ht, hs]
    exact ⟨_, _, _, _, _, _, _, _, _, rfl⟩
  · rw [hqueue, hs]
  · rw [hcore, hs]
  · rw [hs] at hcompl
    exact hcompl
  · obtain ⟨h, hown⟩ := hover.own
    exact ⟨h, by rw [hown, State.part_quiet]⟩
  · rw [hover.srec]
    exact State.quiet_srec he
  · exact ⟨hover.galley.trans hgalley, hover.galleyP.trans hgalleyP⟩

theorem State.abandonRun_record (s : State) (p status reason detail : Nat) : ∃ r ∈ (s.abandonRun p status reason detail).hif.compl,
    r.tag = (s.part p).swTag ∧ r.partition = p ∧ r.status = status ∧ r.reason = reason := by
  rw [State.abandonRun_eq]
  obtain ⟨r, hr, htag, hpart, hstatus, hreason, -⟩ := (s.quiet p).endRun_record p status reason (s.part p).slot detail
  refine ⟨r, hr, htag.trans ?_, hpart, hstatus, hreason⟩
  rw [State.part_quiet]
  rfl

/-- Without a cache request to be served neither device memory nor host memory changes. -/
theorem State.abandonRun_dev {s : State} {p : Nat} (status reason detail : Nat) (h : (s.part p).cset = none ∨ (s.part p).cacheQ = []) :
    ∃ g gn gp tg, (s.abandonRun p status reason detail).data = { s.data with galley := g, galleyN := gn, galleyP := gp, storeTag := tg } := by
  have hkept : ((s.quiet p).part p).cset = none ∨ ((s.quiet p).part p).cacheQ = [] := by rw [State.part_quiet]; exact h
  obtain ⟨g, gn, gp, tg, _, _, _, _, _, _, hs⟩ := s.quiet_frame p
  have hdata : (s.quiet p).data = { s.data with galley := g, galleyN := gn, galleyP := gp, storeTag := tg } := by rw [hs]
  exact ⟨g, gn, gp, tg, (State.endRun_data status reason (s.part p).slot detail hkept).trans hdata⟩

end Sys2Proof.Machine
end

section
/-! RESUME ABANDON, the end of a grace period and of a run, the expiry of a rendezvous watchdog (R85, R86, R90 to R93, R290 to R292). -/
namespace Sys2Proof.Machine

open Sys2Proof

/-! ## RESUME ABANDON -/

theorem State.frontMode_some {s : State} {op : Nat} {c : Cmd} (f : Nat → Bool) (h : s.front (· == op) = some c) : s.frontMode op f = f (c.opnd 0 1) := by
  unfold State.frontMode
  rw [h]

/-- What an ABANDON does with PENDING of a cache whose grace period runs (R291). -/
def State.graceCleared (s : State) (p : Nat) : State := match (s.part p).grace, s.cset p with
  | some _, some cs => s.clearPending cs
  | _, _ => s

theorem State.stores_graceCleared (s : State) (p : Nat) : s.Stores (s.graceCleared p) := by
  unfold State.graceCleared
  split
  · exact s.stores_clearPending _
  · exact .refl _

theorem State.graceCleared_none {s : State} {p : Nat} (h : (s.part p).cset = none ∨ (s.part p).grace = none) : s.graceCleared p = s := by
  unfold State.graceCleared
  split
  · next hgrace hcset =>
    obtain h | h := h
    · unfold State.cset at hcset
      rw [h] at hcset
      cases hcset
    · rw [h] at hgrace
      cases hgrace
  · rfl

theorem exec_resumeAbandon {s : State} {c : Cmd} (h : s.serves 0x15 c) (hmode : c.opnd 0 1 ≠ 0) : exec .resumeAbandon s =
    .next ((s.begun c).answer c (if s.resumable c then 0 else 0x21A) (((s.begun c).graceCleared c.part).abandonRun c.part 3 0 0)) := by
  refine congrArg Host.Outcome.next ((if_pos ?_).trans (State.runCmd_ok _ h.1 h.2))
  rw [State.frontMode_some _ h.1]
  simpa using hmode

theorem exec_resumeAbandon_ok {s : State} {c : Cmd} (h : s.serves 0x15 c) (hmode : c.opnd 0 1 ≠ 0) (hyes : s.resumable c = true) :
    exec .resumeAbandon s = .next ((((s.begun c).graceCleared c.part).abandonRun c.part 3 0 0).ok c 0) := by
  rw [exec_resumeAbandon h hmode, if_pos hyes, State.answer_ok]

section
variable {s t : State} (h : s.Stores t)
include h

theorem State.Stores.part (q : Nat) : t.part q = s.part q := by obtain ⟨_, _, _, _, rfl⟩ := h; rfl
theorem State.Stores.hif : t.hif = s.hif := by obtain ⟨_, _, _, _, rfl⟩ := h; rfl
theorem State.Stores.core : t.data.core = s.data.core := by obtain ⟨_, _, _, _, rfl⟩ := h; rfl
theorem State.Stores.lay (p : Nat) : t.lay p = s.lay p := by obtain ⟨_, _, _, _, rfl⟩ := h; rfl
theorem State.Stores.streamsOf (p : Nat) : t.streamsOf p = s.streamsOf p := by obtain ⟨_, _, _, _, rfl⟩ := h; rfl
theorem State.Stores.units : t.num = s.num ∧ t.rst = s.rst ∧ t.pwr = s.pwr ∧ t.sec = s.sec := by obtain ⟨_, _, _, _, rfl⟩ := h; exact ⟨rfl, rfl, rfl, rfl⟩

end

theorem State.RunDropped.units {p : Nat} {s t : State} (h : s.RunDropped p t) : t.num = s.num ∧ t.rst = s.rst ∧ t.pwr = s.pwr ∧ t.sec = s.sec := by
  obtain ⟨_, _, _, _, _, _, _, _, _, rfl⟩ := h.rest
  exact ⟨rfl, rfl, rfl, rfl⟩

/-- The memories that an abandoned run whose cache requests and grace period do not matter leaves as they are. -/
theorem State.abandonRun_begun_dev (s : State) (c : Cmd) (h : (s.part c.part).cset = none ∨ ((s.part c.part).cacheQ = [] ∧ (s.part c.part).grace = none)) :
    (((s.begun c).graceCleared c.part).abandonRun c.part 3 0 0).data.dev = s.data.dev ∧
    (((s.begun c).graceCleared c.part).abandonRun c.part 3 0 0).data.host = s.data.host := by
  rw [State.graceCleared_none (s := s.begun c) (h.imp_right And.right)]
  obtain ⟨_, _, _, _, hdata⟩ := State.abandonRun_dev (s := s.begun c) 3 0 0 (h.imp_right And.left)
  rw [hdata]
  exact ⟨rfl, rfl⟩

/-- Settles O15: an accepted ABANDON ends the run on the state with the command begun, whose partitions, streams and layout are those before it. -/
theorem resumeAbandonEndsRun : Obligations.ResumeAbandonEndsRun := by
  unfold Obligations.ResumeAbandonEndsRun
  intro s c hserves hmode
  refine ⟨fun hnot => ?_, fun hyes => ?_⟩
  · rw [exec_resumeAbandon hserves hmode, hnot]
    rfl
  · have hstores := (s.begun c).stores_graceCleared c.part
    have hmems := s.abandonRun_begun_dev c
    obtain ⟨r, hr, htag, hpart, hstatus, -⟩ := ((s.begun c).graceCleared c.part).abandonRun_record c.part 3 0 0
    rw [hstores.part] at htag
    have hdrop := ((s.begun c).graceCleared c.part).runDropped_abandonRun c.part 3 0 0
    refine ⟨_, exec_resumeAbandon_ok hserves hmode hyes, ?_⟩
    generalize (s.begun c).graceCleared c.part = v at *
    generalize v.abandonRun c.part 3 0 0 = w at *
    obtain ⟨held, hown⟩ := hdrop.own
    rw [hstores.part] at hown
    have hown' : (w.ok c 0).part c.part = { (s.part c.part).quiet.atEnd with cacheQ := [], held := held } := hown
    rw [hown']
    obtain ⟨hnum, hrst, hpwr, hsec⟩ := hdrop.units
    obtain ⟨hnum', hrst', hpwr', hsec'⟩ := hstores.units
    refine ⟨hdrop.queue.trans (congrArg HifRegs.queue hstores.hif), rfl, rfl, rfl, rfl, rfl, rfl, rfl, rfl, rfl, rfl,
      fun q hq => (hdrop.others q hq).trans (hstores.part q), fun e he => hdrop.streams e ?_, fun f k g hf hbit hk hg => ?_, hdrop.core.trans hstores.core,
      hmems, ⟨r, List.mem_append_left _ hr, htag, hpart, hstatus⟩, ⟨_, List.mem_append_right _ (List.mem_singleton_self _), rfl, rfl, rfl⟩,
      hnum.trans hnum', hrst.trans hrst', hpwr.trans hpwr', hsec.trans hsec'⟩
    · rw [hstores.streamsOf]
      exact he
    · have hgal : (w.ok c 0).data.galley = (v.galleysZeroed c.part).data.galley := hdrop.galleys.1
      have hgalP : (w.ok c 0).data.galleyP = (v.galleysZeroed c.part).data.galleyP := hdrop.galleys.2
      rw [hgal, hgalP]
      exact State.galleysZeroed_zero hf (by rw [hstores.lay]; exact hbit) hk hg

/-! ## The rendezvous watchdog (R90) -/

theorem State.event_seq (s : State) (ty : Nat) (p : Option Nat) (src aux det : Nat) (h : s.es.lostSince = 0) :
    (s.event ty p src aux det).2.es.seq = s.es.seq + 1 := by
  rw [State.event_eq _ _ _ _ _ _ h]
  split
  · rfl
  · split <;> rfl

/-- A watchdog that can expire runs in a partition that runs. -/
theorem Part.wdLeft_running {x : Part} {left : Nat} (h : x.wdLeft = some left) : x.status = .running := by
  by_contra hrun
  unfold Part.wdLeft at h
  simp [hrun] at h

/-- Whatever time has done to the freeze of a running partition that had none, a further cause leaves its boundary to come. -/
theorem Part.addCause_pending {x : Part} (c : Cause) (cyc : Nat) (hrun : x.status = .running) (hahead : x.frz.ahead = true) :
    ∃ b, (x.addCause c cyc).frz = .pending b := by
  cases hfrz : x.frz with
  | no => exact ⟨_, x.addCause_frz c cyc hrun hfrz⟩
  | pending b => exact ⟨_, x.addCause_earlier c cyc b hrun hfrz⟩
  | stopped b => rw [hfrz] at hahead; cases hahead
  | thawing b => rw [hfrz] at hahead; cases hahead

theorem exec_watchdogExpiry {s : State} {p left : Nat} (hp : p < 8) (hleft : (s.part p).wdLeft = some left) (hfrz : (s.part p).frz = .no) :
    exec (.watchdogExpiry p) s = .next ((s.pass left).expire p) := by
  refine congrArg Host.Outcome.next ?_
  rw [hleft]
  refine if_pos ?_
  unfold Part.later
  rw [Part.wdLeft_running hleft, hfrz]
  simp [hp]

/-- The expiry of a watchdog freezes its partition. -/
theorem State.part_expire (s : State) (p : Nat) : (s.expire p).part p = (s.part p).addCause .watchdog (s.part p).cycle := by
  unfold State.expire State.freeze
  rw [State.part_modPart, State.part_post]

/-! ## The end of a grace period (R290 to R292) -/

/-- The named slot of an exhausted cache stops, and no step of another waits any more (R292). -/
def State.slotStopped (s : State) (p slot : Nat) : State := match s.cset p with
  | some c => (s.clearPending c).putSeq c slot { (s.clearPending c).seqEntry c slot with state := 3 }
  | none => s

theorem State.stores_slotStopped (s : State) (p slot : Nat) : s.Stores (s.slotStopped p slot) := by
  unfold State.slotStopped
  split
  · exact (s.stores_clearPending _).trans (State.stores_putSeq _ _ _ _)
  · exact .refl _

theorem exec_graceExpiry {s : State} {p till id slot : Nat} (hp : p < 8) (hgrace : (s.part p).grace = some (till, id, slot)) (hfrozen : (s.part p).status = .frozen)
    (hwaits : s.resumeWaits p till = false) :
    exec (.graceExpiry p) s = .next (((s.toTime till).slotStopped p slot).abandonRun p 2 0x640 (id + slot * 2 ^ 32)) := by
  refine congrArg Host.Outcome.next ?_
  rw [hgrace, hfrozen]
  refine (if_pos ?_).trans rfl
  simp [hp, hwaits]

/-- A registered record comes from the partition alone. -/
theorem State.cset_eq (s : State) (p : Nat) : s.cset p = (s.part p).cset.map (fun a => CacheSet.parse a (s.part p).csetRec) := by
  unfold State.cset State.cacheSetAt
  cases h : (s.part p).cset with
  | none => rfl
  | some a => simp

theorem State.Drifts.cset {s t : State} (h : s.Drifts t) (p : Nat) : t.cset p = s.cset p := by
  rw [State.cset_eq, State.cset_eq, (h.2 p).cset, (h.2 p).csetRec]

/-- STATE of a slot is a byte of its entry (Table 09-12). -/
theorem State.seqEntry_state {s : State} {c : CacheSet} {slot : Nat} (h : c.seqTable + 16 * (slot + 1) ≤ hostBase) :
    (s.seqEntry c slot).state = (s.devByte (c.seqAt slot + 8)).toNat := by
  have hlow : c.seqAt slot < hostBase := by unfold CacheSet.seqAt; omega
  unfold State.seqEntry
  rw [State.devRead_of_lt _ hlow]
  simp [Data.read, Run.plain, byteAt, fld, leNat, State.devByte]

theorem State.putSeq_state {s : State} {c : CacheSet} {slot : Nat} (e : SeqEntry) (h : c.seqTable + 16 * (slot + 1) ≤ hostBase) :
    ((s.putSeq c slot e).devByte (c.seqAt slot + 8)) = BitVec.ofNat 8 e.state := by
  have hlow : c.seqAt slot < hostBase := by unfold CacheSet.seqAt; omega
  unfold State.putSeq
  rw [State.devWrite_of_lt _ hlow, State.devByte_write, Run.plain_sound, if_pos]
  · simp [leBytes]
  · simp

/-- The end of a grace period leaves the named slot STOPPED, where no cache request is served as the run ends. -/
theorem State.graceEnd_slot {s : State} {p slot : Nat} {cs : CacheSet} (detail : Nat) (hcs : s.cset p = some cs) (hnone : (s.part p).cacheQ = [])
    (hlow : cs.seqTable + 16 * (slot + 1) ≤ hostBase) :
    (((s.slotStopped p slot).abandonRun p 2 0x640 detail).seqEntry cs slot).state = 3 := by
  have hidle : ((s.slotStopped p slot).part p).cset = none ∨ ((s.slotStopped p slot).part p).cacheQ = [] := by
    rw [(s.stores_slotStopped p slot).part]
    exact .inr hnone
  obtain ⟨_, _, _, _, hdata⟩ := State.abandonRun_dev 2 0x640 detail hidle
  have hbyte (a : Nat) : ((s.slotStopped p slot).abandonRun p 2 0x640 detail).devByte a = (s.slotStopped p slot).devByte a := by
    unfold State.devByte
    rw [hdata]
    rfl
  have hslot : s.slotStopped p slot = (s.clearPending cs).putSeq cs slot { (s.clearPending cs).seqEntry cs slot with state := 3 } := by
    unfold State.slotStopped
    rw [hcs]
  rw [State.seqEntry_state hlow, hbyte, hslot, State.putSeq_state _ hlow]
  rfl

/-- Settles O39: the expiry freezes a partition whose freeze boundary is still to come; the two ends of a run follow what `abandonRun` and `endRun`
leave. -/
theorem runsEnd : Obligations.RunsEnd := by
  unfold Obligations.RunsEnd
  refine ⟨⟨fun s p left hp hleft hfrz => ?_, fun s p till id slot hp hgrace hfrozen hwaits => ?_⟩, fun s p last hp hended hall hfill hitems hopen => ?_⟩
  · have hdrift := (s.drifts_pass left).trans (State.drifts_expire _ p)
    have hahead : ((s.pass left).part p).frz.ahead = true := ((s.flows_pass left).frz p).ahead (by rw [hfrz]; rfl)
    have hrun : ((s.pass left).part p).status = .running := ((s.drifts_pass left).2 p).status.trans (Part.wdLeft_running hleft)
    obtain ⟨b, hb⟩ := Part.addCause_pending .watchdog ((s.pass left).part p).cycle hrun hahead
    refine ⟨_, b, exec_watchdogExpiry hp hleft hfrz, ?_, ?_, fun hlost => State.event_seq _ _ _ _ _ _ hlost, hdrift.frame.2.1, hdrift.num, ?_⟩
    · rw [State.part_expire]
      exact Part.addCause_mem _ _ _
    · rw [State.part_expire]
      exact hb
    · obtain ⟨-, -, -, -, -, -, -, hlnk, -⟩ := hdrift.frame
      exact hlnk
  · have hdrift := s.drifts_toTime till
    have hstores := (s.toTime till).stores_slotStopped p slot
    have hdrop := ((s.toTime till).slotStopped p slot).runDropped_abandonRun p 2 0x640 (id + slot * 2 ^ 32)
    obtain ⟨r, hr, htag, hpart, hstatus, hreason⟩ := ((s.toTime till).slotStopped p slot).abandonRun_record p 2 0x640 (id + slot * 2 ^ 32)
    refine ⟨_, exec_graceExpiry hp hgrace hfrozen hwaits, ?_⟩
    obtain ⟨held, hown⟩ := hdrop.own
    rw [hown]
    refine ⟨rfl, rfl, rfl, rfl, ⟨r, hr, ?_, hpart, hstatus, hreason⟩, fun cs hcs hnone hlow => ?_, fun q hq => (hdrop.others q hq).trans (hstores.part q)⟩
    · rw [htag, hstores.part, (hdrift.2 p).swTag]
    · exact State.graceEnd_slot _ ((hdrift.cset p).trans hcs) ((hdrift.2 p).cacheQ.trans hnone) hlow
  · have hdrift := s.drifts_toCycle p ((last / 256 + 1) * 256)
    obtain ⟨steps, hexec⟩ := exec_runComplete hp hended hall hfill hitems hopen
    refine ⟨_, hexec, ?_⟩
    have hover := State.runOver_endRun ((s.toCycle p ((last / 256 + 1) * 256)).modPart p (fun x => { x with lastSteps := steps, abandoned := false })) p
      0 0 (last / 256 + 1) 0
    obtain ⟨r, hr, htag, hpart, hstatus, -, hvalue⟩ := State.endRun_record ((s.toCycle p ((last / 256 + 1) * 256)).modPart p (fun x =>
      { x with lastSteps := steps, abandoned := false })) p 0 0 (last / 256 + 1) 0
    rw [State.part_modPart] at htag
    obtain ⟨held, hown⟩ := hover.own
    rw [State.part_modPart] at hown
    rw [hown]
    refine ⟨rfl, rfl, rfl, rfl, rfl, rfl, (hdrift.2 p).resident, rfl, ⟨r, hr, htag.trans (hdrift.2 p).swTag, hpart, hstatus, hvalue⟩,
      fun q hq => (hover.others q hq).trans (State.part_modPart_ne _ _ hq), hover.core.trans ?_, hover.galley.trans ?_⟩
    · exact congrArg Data.core hdrift.frame.2.1
    · exact congrArg Data.galley hdrift.frame.2.1

end Sys2Proof.Machine
end

section
/-! SWITCH, its service and the start broadcast (R58, R98, R99). -/
namespace Sys2Proof.Machine

open Sys2Proof

/-! ## One record for each partition named (R408) -/

/-- TAG, partition, STATUS and REASON of a completion record. -/
def Compl.answer (r : Compl) : Nat × Nat × Nat × Nat := (r.tag, r.partition, r.status, r.reason)

/-- The REFUSED records of a SWITCH, one for each partition named. -/
def State.refuseEach (s : State) (ring tag stamp reason : Nat) (l : List (Nat × Nat)) : State :=
  l.foldl (fun s e => s.complete ring tag stamp e.1 1 reason 0 0) s

theorem State.refuseEach_frame (s : State) (ring tag stamp reason : Nat) (l : List (Nat × Nat)) :
    ∃ cl hi sq, s.refuseEach ring tag stamp reason l = { s with hif := { s.hif with compl := cl, history := hi }, es := { s.es with seq := sq } } := by
  unfold State.refuseEach
  induction l generalizing s with
  | nil => exact ⟨_, _, _, rfl⟩
  | cons e l ih =>
    obtain ⟨_, _, _, h⟩ := ih (s.complete ring tag stamp e.1 1 reason 0 0)
    rw [List.foldl_cons, h]
    exact ⟨_, _, _, rfl⟩

theorem State.refuseEach_compl (s : State) (ring tag stamp reason : Nat) (l : List (Nat × Nat)) :
    (s.refuseEach ring tag stamp reason l).hif.compl.map Compl.answer = s.hif.compl.map Compl.answer ++ l.map (fun e => (tag, e.1, 1, reason)) := by
  unfold State.refuseEach
  induction l generalizing s with
  | nil => simp
  | cons e l ih =>
    rw [List.foldl_cons, ih]
    simp [State.complete, Compl.answer]

/-! ## SWITCH -/

theorem exec_switch_begun {s : State} {c : Cmd} (h : s.serves 0x14 c) (hpre : c.pre = 0) : exec .switch s = .next { s.begun c with hif := { (s.begun c).hif with
    switches := s.hif.switches.map (fun w => if w.stamp = c.stamp then { w with begun := true } else w) } } := by
  refine congrArg Host.Outcome.next ?_
  rw [h.1]
  simp only [h.2, hpre, ne_eq, not_true_eq_false, if_false]
  rfl

/-- A command that passes the checks of R415 is valid. -/
theorem Cmd.valid_of_cmdCode {s : State} {c : Cmd} (h : s.cmdCode c = 0) : c.valid = true := by
  unfold State.cmdCode at h
  cases hv : c.valid with
  | false => rw [hv] at h; cases h
  | true => rfl

theorem exec_switch_refused {s : State} {c : Cmd} (h : s.serves 0x14 c) (hpre : c.pre ≠ 0) :
    exec .switch s = .next (((s.begun c).dropSwitch c.stamp).refuseEach c.ring c.tag c.stamp c.pre c.entries) := by
  have hop : c.op = 0x14 := by simpa using State.front_op h.1
  refine congrArg Host.Outcome.next ?_
  rw [h.1]
  simp only [h.2, hpre, ne_eq, not_true_eq_false, not_false_eq_true, if_false, if_true]
  unfold State.completeAll
  rw [hop, Cmd.valid_of_cmdCode h.2]
  rfl

/-! ## The service start (R98, R99) -/

theorem exec_switchServiceStart_refused {s : State} {w : Sw} (h : s.serviceDue = some w) (hnot : w.targets.all s.targetReady = false) :
    exec .switchServiceStart s = .next ((s.dropSwitch w.stamp).refuseEach w.ring w.tag w.stamp 0x217 w.targets) := by
  refine congrArg Host.Outcome.next ?_
  rw [h]
  dsimp only
  rw [hnot]
  rfl

/-- A switch is in service. -/
def State.inService (s : State) (w : Sw) : State :=
  { s with hif := { s.hif with switches := s.hif.switches.map (fun (v : Sw) => if v.stamp = w.stamp then { v with started := true } else v) } }

/-- The partitions of a switch are STARTING. -/
def State.startingAll (s : State) (w : Sw) (l : List (Nat × Nat)) : State := l.foldl (fun s t => s.starting w t) s

theorem exec_switchServiceStart {s : State} {w : Sw} (h : s.serviceDue = some w) (hready : w.targets.all s.targetReady = true) :
    exec .switchServiceStart s = .next ((s.inService w).startingAll w w.targets).advertise := by
  refine congrArg Host.Outcome.next ?_
  rw [h]
  dsimp only
  rw [hready]
  rfl

/-- A partition that a switch has made STARTING with a forme. -/
def Part.starting (x : Part) (w : Sw) (forme : Nat) : Part :=
  { x with status := .starting, cur := forme, image := (x.find forme).elim [] (·.image), swRing := w.ring, swTag := w.tag, swStamp := w.stamp }

theorem State.startingAll_data (s : State) (w : Sw) (l : List (Nat × Nat)) : (s.startingAll w l).data = s.data := by
  unfold State.startingAll
  induction l generalizing s with
  | nil => rfl
  | cons t l ih => exact ih _

theorem State.part_startingAll_ne {w : Sw} {q : Nat} (l : List (Nat × Nat)) (h : q ∉ l.map (·.1)) : ∀ s : State, (s.startingAll w l).part q = s.part q := by
  induction l with
  | nil => exact fun s => rfl
  | cons t l ih =>
    intro s
    rw [List.map_cons, List.mem_cons, not_or] at h
    exact (ih h.2 (s.starting w t)).trans (State.part_modPart_ne _ _ h.1)

theorem State.part_startingAll {w : Sw} {x : Nat × Nat} (l : List (Nat × Nat)) (hl : (l.map (·.1)).Nodup) (hx : x ∈ l) :
    ∀ s : State, (s.startingAll w l).part x.1 = (s.part x.1).starting w x.2 := by
  induction l with
  | nil => cases hx
  | cons t l ih =>
    intro s
    rw [List.map_cons, List.nodup_cons] at hl
    obtain rfl | hx := List.mem_cons.mp hx
    · exact (State.part_startingAll_ne l hl.1 (s.starting w x)).trans (State.part_modPart _ _ _)
    · have hne : x.1 ≠ t.1 := fun h => hl.1 (h ▸ List.mem_map_of_mem hx)
      refine (ih hl.2 hx (s.starting w t)).trans (congrArg (Part.starting · w x.2) ?_)
      exact State.part_modPart_ne _ _ hne

/-- A target that is ready is resident. -/
theorem State.targetReady_find {s : State} {t : Nat × Nat} (h : s.targetReady t = true) : ∃ r, (s.part t.1).find t.2 = some r := by
  unfold State.targetReady at h
  split at h
  · next r hr => exact ⟨r, hr⟩
  · cases h

/-! ## The start broadcast (R58) -/

/-- A partition at slot 0 of its forme: counters cleared, sequencers at their first record, the trap policy latched; what is in flight goes on. -/
structure Part.AtSlot0 (x y : Part) (policy : Nat) : Prop where
  status : y.status = .running
  frz : y.frz = .no
  elapsed : y.elapsed = 0
  seqs : y.seqs = Image.sequencers x.image
  toks : y.toks = []
  arrivals : y.arrivals = []
  flights : y.flights = x.flights
  epochSlot : y.epochSlot = 0
  policy : y.policy = policy

/-- What the start of a forme leaves of the machine: all but its partition and the tags of the stores. -/
theorem State.startForme_frame (s : State) (p : Nat) : ∃ tg ps, s.startForme p = { s with data := { s.data with storeTag := tg }, parts := ps } := ⟨_, _, rfl⟩

theorem State.part_startForme (s : State) (p : Nat) : (s.part p).AtSlot0 ((s.startForme p).part p) (s.policyOf p) ∧
    ((s.startForme p).part p).image = (s.part p).image := by
  unfold State.startForme State.clearTags
  dsimp only
  have h (d : Data) (x : Part) : ({ s.setPart p x with data := d } : State).part p = x := State.part_setPart _ _ _
  rw [h]
  exact ⟨⟨rfl, rfl, rfl, rfl, rfl, rfl, rfl, rfl, rfl⟩, rfl⟩
theorem State.part_startForme_ne (s : State) {p q : Nat} (hq : q ≠ p) : (s.startForme p).part q = s.part q := by
  unfold State.startForme State.clearTags
  dsimp only
  have h (d : Data) (x : Part) : ({ s.setPart p x with data := d } : State).part q = s.part q := State.part_setPart_ne _ _ hq
  rw [h]

/-- Slot 0 begins in every partition of a switch. -/
def State.startAll (s : State) (l : List (Nat × Nat)) : State := l.foldl (fun s t => s.startForme t.1) s

theorem State.startAll_frame (s : State) (l : List (Nat × Nat)) : ∃ tg ps, s.startAll l = { s with data := { s.data with storeTag := tg }, parts := ps } := by
  unfold State.startAll
  induction l generalizing s with
  | nil => exact ⟨_, _, rfl⟩
  | cons t l ih =>
    obtain ⟨_, _, h⟩ := ih (s.startForme t.1)
    obtain ⟨_, _, h'⟩ := s.startForme_frame t.1
    rw [List.foldl_cons, h, h']
    exact ⟨_, _, rfl⟩

theorem State.part_startAll_ne {q : Nat} (l : List (Nat × Nat)) (h : q ∉ l.map (·.1)) : ∀ s : State, (s.startAll l).part q = s.part q := by
  induction l with
  | nil => exact fun s => rfl
  | cons t l ih =>
    intro s
    rw [List.map_cons, List.mem_cons, not_or] at h
    exact (ih h.2 (s.startForme t.1)).trans (s.part_startForme_ne h.1)

theorem State.part_startAll {q : Nat} (l : List (Nat × Nat)) (hq : q ∈ l.map (·.1)) :
    ∀ s : State, (s.part q).AtSlot0 ((s.startAll l).part q) (s.policyOf q) := by
  induction l with
  | nil => cases hq
  | cons t l ih =>
    intro s
    obtain ⟨hslot, himage⟩ := s.part_startForme t.1
    by_cases hrest : q ∈ l.map (·.1)
    · have hagain := ih hrest (s.startForme t.1)
      have hsame : ((s.startForme t.1).part q).image = (s.part q).image ∧ ((s.startForme t.1).part q).flights = (s.part q).flights := by
        by_cases hqt : q = t.1
        · subst hqt
          exact ⟨himage, hslot.flights⟩
        · rw [s.part_startForme_ne hqt]
          exact ⟨rfl, rfl⟩
      exact { hagain with seqs := hsame.1 ▸ hagain.seqs, flights := hagain.flights.trans hsame.2 }
    · obtain rfl | h := List.mem_cons.mp (List.map_cons ▸ hq)
      · have hlast := State.part_startAll_ne l hrest (s.startForme t.1)
        change (s.part t.1).AtSlot0 (((s.startForme t.1).startAll l).part t.1) _
        rw [hlast]
        exact hslot
      · exact absurd h hrest

theorem exec_startBroadcast {s : State} {w : Sw} (h : lookupBy (fun w => w.started) s.hif.switches = some w) :
    exec .startBroadcast s = .next ((s.dropSwitch w.stamp).startAll w.targets).advertise := by
  refine congrArg Host.Outcome.next ?_
  rw [h]
  rfl

/-- Settles O13: the refusals post their records only; the two acts of the service go through the partitions of the switch, each of which no other
one touches. -/
theorem switchServedOrRefused : Obligations.SwitchServedOrRefused := by
  unfold Obligations.SwitchServedOrRefused
  refine ⟨⟨fun s c hserves hpre => exec_switch_begun hserves hpre, fun s c hserves hpre => ?_, fun s w hdue hnot => ?_⟩, fun s w hdue hready hnodup => ?_,
    fun s w hstarted => ?_⟩
  · obtain ⟨_, _, _, hframe⟩ := ((s.begun c).dropSwitch c.stamp).refuseEach_frame c.ring c.tag c.stamp c.pre c.entries
    have hcompl := ((s.begun c).dropSwitch c.stamp).refuseEach_compl c.ring c.tag c.stamp c.pre c.entries
    refine ⟨_, exec_switch_refused hserves hpre, ?_, ?_, ?_, ?_, hcompl⟩ <;> rw [hframe] <;> rfl
  · obtain ⟨_, _, _, hframe⟩ := (s.dropSwitch w.stamp).refuseEach_frame w.ring w.tag w.stamp 0x217 w.targets
    have hcompl := (s.dropSwitch w.stamp).refuseEach_compl w.ring w.tag w.stamp 0x217 w.targets
    refine ⟨_, exec_switchServiceStart_refused hdue hnot, ?_, ?_, ?_, hcompl⟩ <;> rw [hframe] <;> rfl
  · refine ⟨_, exec_switchServiceStart hdue hready, (s.inService w).startingAll_data w w.targets, fun x hx => ?_, fun q hq => State.part_startingAll_ne _ hq _⟩
    have hpart : (((s.inService w).startingAll w w.targets).advertise.part x.1) = (s.part x.1).starting w x.2 := State.part_startingAll _ hnodup hx _
    obtain ⟨r, hr⟩ := State.targetReady_find (List.all_eq_true.mp hready x hx)
    rw [hpart]
    refine ⟨rfl, rfl, r, hr, ?_⟩
    unfold Part.starting
    rw [hr]
    rfl
  · obtain ⟨_, _, hframe⟩ := (s.dropSwitch w.stamp).startAll_frame w.targets
    refine ⟨_, exec_startBroadcast hstarted, fun x hx => ?_, fun q hq => State.part_startAll_ne _ hq _, ?_, ?_, ?_, ?_⟩
    · obtain ⟨hstatus, hfrz, helapsed, hseqs, htoks, harrivals, hflights, hepoch, hpolicy⟩ :=
        State.part_startAll w.targets (List.mem_map_of_mem hx) (s.dropSwitch w.stamp)
      exact ⟨hstatus, hfrz, helapsed, hseqs, htoks, harrivals, hflights, hepoch, hpolicy⟩
    all_goals rw [hframe]; rfl

end Sys2Proof.Machine
end

section
/-! LAYOUT, LOAD and ENABLE (R94 to R97, R304). -/
namespace Sys2Proof.Machine

open Sys2Proof

/-! ## Reasons -/

/-- The first reason that applies is one of the list. -/
theorem firstCode_mem {l : List (Nat × Bool)} (h : firstCode l ≠ 0) : firstCode l ∈ l.map (·.1) := by
  induction l with
  | nil => exact absurd rfl h
  | cons x l ih =>
    unfold firstCode at h ⊢
    split
    · exact List.mem_cons_self ..
    · next hx =>
      rw [if_neg hx] at h
      exact List.mem_cons_of_mem _ (ih h)

/-- No reason of LAYOUT, LOAD and ENABLE is one of Table 16-6. -/
theorem State.layoutCode_class (s : State) (r : List Byte) : s.layoutCode r / 256 ≠ 5 := by
  by_cases h : s.layoutCode r = 0
  · rw [h]; decide
  · have hmem := firstCode_mem h
    simp only [List.map_cons, List.map_nil] at hmem
    have hall : ∀ c ∈ [0x0601, 0x0214, 0x0215, 0x0216, 0x021E, 0x0602, 0x0603, 0x0604, 0x0605, 0x0606, 0x0607], c / 256 ≠ 5 := by decide
    exact hall _ hmem
theorem loadCode_class (m : Image) (size : Nat) (ids : List Nat) (used : Nat) : loadCode m size ids used / 256 ≠ 5 := by
  by_cases h : loadCode m size ids used = 0
  · rw [h]; decide
  · have hmem := firstCode_mem h
    simp only [List.map_cons, List.map_nil] at hmem
    have hall : ∀ c ∈ [0x0201, 0x0202, 0x0203, 0x0204, 0x0205], c / 256 ≠ 5 := by decide
    exact hall _ hmem
theorem State.enableCode_class (s : State) (p : Nat) (m : Image) : s.enableCode p m / 256 ≠ 5 := by
  by_cases h : s.enableCode p m = 0
  · rw [h]; decide
  · have hmem := firstCode_mem h
    simp only [List.map_cons, List.map_nil] at hmem
    have hall : ∀ c ∈ [0x0201, 0x0202, 0x0203, 0x0204, 0x0206, 0x0207, 0x0208, 0x0209, 0x020A, 0x020B, 0x020C, 0x020D, 0x020E, 0x020F, 0x0210, 0x0211,
      0x0212, 0x0213], c / 256 ≠ 5 := by decide
    exact hall _ hmem

/-- A refusal with a reason that is not one of Table 16-6 posts its record only. -/
theorem State.deny_eq {s : State} {c : Cmd} {reason : Nat} (h : reason / 256 ≠ 5) :
    s.deny c reason = s.complete c.ring c.tag c.stamp c.part 1 reason 0 0 := by
  unfold State.deny
  rw [if_neg h]
  rfl
theorem State.begun_deny {s : State} {c : Cmd} {reason : Nat} (h : reason / 256 ≠ 5) : (s.begun c).deny c reason = s.completed c 1 reason 0 0 :=
  State.deny_eq h

/-- A refusal with its event (R423) posts a record and an event. -/
theorem State.enableRefused_deny {s : State} {c : Cmd} {reason : Nat} (h : reason / 256 ≠ 5) :
    Sys2Proof.Machine.answered s (((s.begun c).enableRefused reason 0).deny c reason) c 1 reason 0 ∧
    ({ ((s.begun c).enableRefused reason 0).deny c reason with hif := s.hif, es := s.es } : State) = s := by
  obtain ⟨_, hpost⟩ := (s.begun c).post_frame 0x404 none ccAgent reason 0
  rw [State.deny_eq h, State.enableRefused, hpost]
  exact ⟨⟨rfl, _, rfl⟩, rfl⟩

/-! ## A change of several partitions -/

/-- A change of every partition of a list. -/
def State.modParts (s : State) (f : Part → Part) (l : List Nat) : State := l.foldl (fun s p => s.modPart p f) s

theorem State.modParts_frame (s : State) (f : Part → Part) (l : List Nat) : ∃ ps, s.modParts f l = { s with parts := ps } := by
  unfold State.modParts
  induction l generalizing s with
  | nil => exact ⟨_, rfl⟩
  | cons p l ih =>
    obtain ⟨_, h⟩ := ih (s.modPart p f)
    rw [List.foldl_cons, h]
    exact ⟨_, rfl⟩

theorem State.part_modParts_ne {f : Part → Part} {q : Nat} (l : List Nat) (h : q ∉ l) : ∀ s : State, (s.modParts f l).part q = s.part q := by
  induction l with
  | nil => exact fun s => rfl
  | cons p l ih =>
    intro s
    rw [List.mem_cons, not_or] at h
    exact (ih h.2 (s.modPart p f)).trans (State.part_modPart_ne _ _ h.1)

theorem State.part_modParts {f : Part → Part} (l : List Nat) (hl : l.Nodup) (q : Nat) : ∀ s : State,
    (s.modParts f l).part q = if q ∈ l then f (s.part q) else s.part q := by
  induction l with
  | nil => exact fun s => rfl
  | cons p l ih =>
    intro s
    obtain ⟨hp, hl⟩ := List.nodup_cons.mp hl
    change ((s.modPart p f).modParts f l).part q = _
    by_cases hq : q = p
    · subst hq
      rw [State.part_modParts_ne l hp, State.part_modPart, if_pos (List.mem_cons_self ..)]
    · rw [ih hl, State.part_modPart_ne _ _ hq]
      simp [hq]

/-! ## LAYOUT -/

/-- The host interface serves fetches. -/
theorem State.hostUp_iff {s : State} : s.hostUp = true ↔ s.hif.bme = true ∧ s.hif.d3 = false := by
  simp [State.hostUp]

/-- The layout itself, before it disables any forme. -/
def State.laidOut (s : State) (r : List Byte) : State :=
  { s with transit := byteAt r 5, layout := partNums.foldl (fun t p => tset LayoutEntry.none t p (layoutEntry r p)) s.layout,
           mem := if s.mem.ctrl then s.mem else { s.mem with weir := deriveWeirs (layoutEntry r) (byteAt r 5) } }

theorem State.applyLayout_eq (s : State) (r : List Byte) :
    s.applyLayout r = ((s.laidOut r).modParts Part.disableAll (s.disabledBy (layoutEntry r) (byteAt r 5))).advertise := rfl

theorem State.disabledBy_nodup (s : State) (lay : Nat → LayoutEntry) (transit : Nat) : (s.disabledBy lay transit).Nodup := by
  unfold State.disabledBy
  split
  · decide
  · exact List.nodup_nil

theorem exec_layout {s : State} {c : Cmd} (h : s.serves 0x10 c) (hup : s.hostUp = true) : exec (.layout true) s =
    .next (if s.layoutCode (s.hostRead (c.opnd 0 8) layoutBytes) = 0 then ((s.begun c).applyLayout (s.hostRead (c.opnd 0 8) layoutBytes)).ok c 0
      else ((s.begun c).enableRefused (s.layoutCode (s.hostRead (c.opnd 0 8) layoutBytes)) 0).deny c (s.layoutCode (s.hostRead (c.opnd 0 8) layoutBytes))) := by
  obtain ⟨hbme, hd3⟩ := State.hostUp_iff.mp hup
  refine congrArg Host.Outcome.next ((State.runFetch_ok _ h.1 h.2 hd3).trans (if_neg ?_))
  change ¬ (!(true && s.hif.bme)) = true
  rw [hbme]
  decide

theorem exec_load {s : State} {c : Cmd} (h : s.serves 0x11 c) (hup : s.hostUp = true) :
    let m := s.hostRead (c.opnd 0 8) (min (c.opnd 8 4) (maxImage + 1))
    exec (.load true) s = .next ((s.begun c).answer c (loadCode m (c.opnd 8 4) ((s.part c.part).resident.map (·.id)) s.storeUsed)
      ((s.begun c).setPart c.part
        { s.part c.part with resident := (s.part c.part).resident ++ [{ id := Image.formeId m, image := m, enabled := false }] })) := by
  obtain ⟨hbme, hd3⟩ := State.hostUp_iff.mp hup
  refine congrArg Host.Outcome.next ((State.runFetch_ok _ h.1 h.2 hd3).trans (if_neg ?_))
  change ¬ (!(true && s.hif.bme)) = true
  rw [hbme]
  decide

/-- A record that cannot be fetched whole (R415). -/
theorem runFetch_unfetched {s : State} {op : Nat} {c : Cmd} {f : Bool} (run : Cmd → State → State) (h : s.serves op c) (hd3 : s.hif.d3 = false)
    (hno : f = false ∨ s.hif.bme = false) :
    s.runFetch op (fun c s => if !s.canFetch f then s.deny c 0x11C else run c s) = s.completed c 1 0x11C 0 0 := by
  refine (State.runFetch_ok _ h.1 h.2 hd3).trans ((if_pos ?_).trans (State.begun_deny (by decide)))
  change (!(f && s.hif.bme)) = true
  obtain rfl | hbme := hno
  · rfl
  · rw [hbme, Bool.and_false]
    rfl

theorem exec_enable {s : State} {c : Cmd} (h : s.serves 0x13 c) : exec .enable s = .next (match (s.part c.part).find (c.opnd 0 4) with
    | none => (s.begun c).deny c 0x217
    | some r => if s.enableCode c.part r.image = 0 then ((s.begun c).setPart c.part { s.part c.part with
        resident := (s.part c.part).resident.map (fun q => if q.id = r.id then { q with enabled := true } else q) }).ok c 0
      else ((s.begun c).enableRefused (s.enableCode c.part r.image) 0).deny c (s.enableCode c.part r.image)) :=
  congrArg Host.Outcome.next (State.runCmd_ok _ h.1 h.2)

theorem State.lay_laidOut {s : State} {r : List Byte} {p : Nat} (hp : p < 8) : (s.laidOut r).lay p = layoutEntry r p := by
  have hmem : p ∈ partNums := by unfold partNums; interval_cases p <;> decide
  have hentry := tget_foldl_tset LayoutEntry.none 0 (layoutEntry r) partNums s.layout (w := p) (.inl (by simpa using hmem))
  simp only [Nat.zero_add] at hentry
  exact hentry

theorem State.advertise_ok_frame (s : State) (c : Cmd) : ∃ h e, s.advertise.ok c 0 = { s with hif := h, es := e } := ⟨_, _, rfl⟩

/-- What a layout in force leaves of the machine, whatever it does with the partitions. -/
theorem State.laidOut_ok (s : State) (c : Cmd) (r : List Byte) (ps : Tab Part) :
    let t := ({ (s.begun c).laidOut r with parts := ps } : State).advertise.ok c 0
    Sys2Proof.Machine.answered s t c 0 0 0 ∧ (∀ p, p < 8 → t.lay p = layoutEntry r p) ∧ t.transit = byteAt r 5 ∧
      t.mem = (if s.mem.ctrl then s.mem else { s.mem with weir := deriveWeirs (layoutEntry r) (byteAt r 5) }) ∧
      ({ t with transit := s.transit, layout := s.layout, mem := s.mem, parts := s.parts, hif := s.hif, es := s.es } : State) = s :=
  ⟨⟨rfl, _, rfl⟩, fun p hp => by
    obtain ⟨_, _, h⟩ := State.advertise_ok_frame { (s.begun c).laidOut r with parts := ps } c
    rw [h]
    exact State.lay_laidOut (s := s.begun c) hp, rfl, rfl, by
    obtain ⟨_, _, h⟩ := State.advertise_ok_frame { (s.begun c).laidOut r with parts := ps } c
    rw [h]
    rfl⟩

/-- Settles O12: each command acts on the state with it begun, whose layout, memory and partitions are those before it; its checks read nothing else. -/
theorem layoutLoadEnable : Obligations.LayoutLoadEnable := by
  unfold Obligations.LayoutLoadEnable
  refine ⟨?_, ?_, ?_, ?_⟩
  · intro s c hserves hup r aff
    have hexec := exec_layout hserves hup
    refine ⟨fun hgood => ?_, fun hbad => ?_⟩
    · rw [if_pos hgood, State.applyLayout_eq] at hexec
      have hparts (p : Nat) := State.part_modParts aff (s.disabledBy_nodup _ _) (f := Part.disableAll) p ((s.begun c).laidOut r)
      obtain ⟨ps, hframe⟩ := ((s.begun c).laidOut r).modParts_frame Part.disableAll aff
      obtain ⟨hanswered, hlay, htransit, hmem, hrest⟩ := s.laidOut_ok c r ps
      rw [hframe] at hparts
      exact ⟨_, hexec.trans (congrArg (fun u : State => Host.Outcome.next (u.advertise.ok c 0)) hframe), hanswered, hlay, htransit, hmem, hparts, hrest⟩
    · rw [if_neg hbad] at hexec
      exact ⟨_, hexec, State.enableRefused_deny (s.layoutCode_class r)⟩
  · intro s c hserves hup m r
    have hexec := exec_load hserves hup
    refine ⟨fun hgood => hexec.trans ?_, fun hbad => hexec.trans ?_⟩
    · exact congrArg Host.Outcome.next (if_pos hgood)
    · exact congrArg Host.Outcome.next ((State.answer_deny _ hbad).trans (State.begun_deny (loadCode_class _ _ _ _)))
  · intro s c f
    refine ⟨fun hd3 => ⟨fun hserves => ?_, fun hserves => ?_⟩, fun hd3 hno => ⟨fun hserves => ?_, fun hserves => ?_⟩⟩
    · exact congrArg Host.Outcome.next (State.runFetch_waits _ hserves.1 hserves.2 hd3)
    · exact congrArg Host.Outcome.next (State.runFetch_waits _ hserves.1 hserves.2 hd3)
    · exact congrArg Host.Outcome.next (runFetch_unfetched _ hserves hd3 hno)
    · exact congrArg Host.Outcome.next (runFetch_unfetched _ hserves hd3 hno)
  · intro s c hserves
    have hexec := exec_enable hserves
    refine ⟨fun hnone => ?_, fun r hfind => ⟨fun hgood => ?_, fun hbad => ?_⟩⟩
    · rw [hnone] at hexec
      exact hexec.trans (congrArg Host.Outcome.next (State.begun_deny (by decide)))
    · rw [hfind] at hexec
      exact hexec.trans (congrArg Host.Outcome.next (if_pos hgood))
    · rw [hfind] at hexec
      exact ⟨_, hexec.trans (congrArg Host.Outcome.next (if_neg hbad)), State.enableRefused_deny (s.enableCode_class _ _)⟩

end Sys2Proof.Machine
end

section
/-! Registers with a row of their own (R10, R96, R153, R160, R318, R321, R441, R445, R447). -/
namespace Sys2Proof.Machine

open Sys2Proof

/-! ## Seed and step registers (R153) -/

theorem regAccess_numSeedLo {p : Nat} (hp : p < 8) : regAccess (0x900000 + (0x100 + 8 * p) % 1048576) 4 = some (.numSeedLo p, 0) := by
  interval_cases p <;> decide
theorem regAccess_numSeedHi {p : Nat} (hp : p < 8) : regAccess (0x900000 + (0x104 + 8 * p) % 1048576) 4 = some (.numSeedHi p, 0) := by
  interval_cases p <;> decide
theorem regAccess_numStep {p : Nat} (hp : p < 8) : regAccess (0x900000 + (0x200 + 4 * p) % 1048576) 4 = some (.numStep p, 0) := by
  interval_cases p <;> decide

theorem exec_numStepWrite {s : State} {off sub : Nat} {r : Reg} (v : W32) (h : (s.dom 3).st ≠ .off)
    (hr : regAccess (0x900000 + off % 1048576) 4 = some (r, sub)) : exec (.numStepWrite off v) s = .next (s.writeSeed r v) := by
  refine (State.direct_on (fun s => match regAccess (0x900000 + off % 1048576) 4 with
    | some (r, _) => s.writeSeed r v
    | none => s) h).trans ?_
  rw [hr]

theorem exec_registerWrite {s : State} (off width : Nat) (v : W64) (h : (s.dom 3).st ≠ .off) :
    exec (.registerWrite off width v) s = .next (match s.writeReg off width v.toNat false with
      | none => s
      | some (_, s) => s) :=
  State.direct_on (fun s => match s.writeReg off width v.toNat false with
    | none => s
    | some (_, s) => s) h

/-! ## Counters (R445) -/

theorem exec_cntClear {s : State} {i : Nat} (h : (s.dom 3).st ≠ .off) : exec (.cntClear i) s = .next (s.clearCounter i) :=
  State.direct_on (·.clearCounter i) h

/-- A counter of a port is cleared, with its overflow bit (R445). -/
theorem State.clearCounter_spec {s : State} {i : Nat} (hi : i ≤ 143) (hi' : i % 8 ≠ 7) :
    (s.clearCounter i).port (i / 8) = { s.port (i / 8) with cnt := tset 0 (s.port (i / 8)).cnt (i % 8) 0 } ∧
      (s.clearCounter i).es.cntOvf = s.es.cntOvf &&& ~~~(1#144 <<< i) ∧ ∀ q, q ≠ i / 8 → (s.clearCounter i).port q = s.port q := by
  have hports (q : Nat) : (s.clearCounter i).port q = (s.modPort (i / 8) (fun q => { q with cnt := tset 0 q.cnt (i % 8) 0 })).port q := by
    unfold State.clearCounter
    rw [if_pos (by simp [hi, hi'])]
    rfl
  refine ⟨(hports _).trans (State.port_modPort _ _ _), ?_, fun q hq => (hports q).trans (State.port_modPort_ne _ _ hq)⟩
  unfold State.clearCounter
  rw [if_pos (by simp [hi, hi'])]
  rfl

/-! ## The registers of the weirs and the host window (R318, R321) -/

theorem exec_memWeirWrite {s : State} {w o : Nat} (v : W32) (h : (s.dom 3).st ≠ .off) (hw : weirOk w = true) (ho : o < 9) :
    exec (.memWeirWrite w o v) s = .next (s.writeWeir w o v).2 := by
  refine (State.direct_on (fun s => if weirOk w && o < 9 then (s.writeWeir w o v).2 else s) h).trans ?_
  rw [if_pos]
  simp [hw, ho]

/-- A write of MEM_WEIR in the expert view that passes its checks. -/
theorem State.writeWeir_ok {s : State} {w o : Nat} {v : W32} (hctrl : s.mem.ctrl = true)
    (hidle : ¬ (s.defined o = true ∧ v &&& 0xFFFF7F3F ≠ tget 0 s.mem.weir (weirKey w o) ∧ (s.part o).status ≠ .idle))
    (hgood : s.badWeir w o (v &&& 0xFFFF7F3F).toNat = false) :
    (s.writeWeir w o v).2.mem = { s.mem with weir := tset 0 s.mem.weir (weirKey w o) (v &&& 0xFFFF7F3F) } ∧ (s.writeWeir w o v).2.data = s.data ∧
      ∀ q, q ≠ o → (s.writeWeir w o v).2.part q = s.part q := by
  unfold State.writeWeir
  rw [if_neg (by simp [hctrl]), if_neg (by simpa [and_assoc] using hidle), if_neg (Bool.eq_false_iff.mp hgood)]
  dsimp only
  split
  · exact ⟨rfl, rfl, fun q hq => State.part_modPart_ne _ _ hq⟩
  · exact ⟨rfl, rfl, fun q hq => rfl⟩

theorem State.writeWeir_bad {s : State} {w o : Nat} {v : W32} (hctrl : s.mem.ctrl = true)
    (hidle : ¬ (s.defined o = true ∧ v &&& 0xFFFF7F3F ≠ tget 0 s.mem.weir (weirKey w o) ∧ (s.part o).status ≠ .idle))
    (hbad : s.badWeir w o (v &&& 0xFFFF7F3F).toNat = true) : (s.writeWeir w o v).2 = { s with mem := { s.mem with reason := 0x608 } } := by
  unfold State.writeWeir
  rw [if_neg (by simp [hctrl]), if_neg (by simpa [and_assoc] using hidle), if_pos hbad]
  rfl

/-- The basic view in force again: the cells are derived from the layout (R321). -/
theorem State.writeMemLevel_basic {s : State} {v : W32} (hbasic : v.getLsbD 0 = false) (hctrl : s.mem.ctrl = true)
    (hidle : ∀ p, p < 8 → (s.part p).status = .idle) :
    (s.writeMemLevel v).2.mem.ctrl = false ∧ (s.writeMemLevel v).2.mem.weir = deriveWeirs s.lay s.transit ∧ (s.writeMemLevel v).2.data = s.data := by
  have hnone : partNums.any (fun p => decide ((s.part p).status ≠ .idle)) = false := by
    rw [List.any_eq_false]
    intro p hp
    have hlt : p < 8 := by unfold partNums at hp; fin_cases hp <;> decide
    simp [hidle p hlt]
  unfold State.writeMemLevel
  rw [if_neg (Bool.eq_false_iff.mp hbasic), if_neg (by simp [hctrl]), if_neg (Bool.eq_false_iff.mp hnone)]
  obtain ⟨_, hframe⟩ := State.modParts_frame { s with mem := { s.mem with ctrl := false, weir := deriveWeirs s.lay s.transit } } Part.disableAll
    (partNums.filter (s.sharesMove (deriveWeirs s.lay s.transit)))
  unfold State.modParts at hframe
  dsimp only
  rw [hframe]
  exact ⟨rfl, rfl, rfl⟩

/-! ## The replica record of a partition (R447) -/

/-- Number of participants and the participants, as a replica record at an address names them. -/
def State.replicaCount (s : State) (a : Nat) : Nat := leNat (s.hostRead (a + 2) 2)
def State.replicaParts (s : State) (a : Nat) : List Nat := (upTo (s.replicaCount a)).map (fun k => leNat (s.hostRead (a + 8 + 2 * k) 2))
/-- A record that firmware accepts. -/
def State.replicaGood (s : State) (a : Nat) : Bool :=
  decide (a ≠ 0) && decide (2 ≤ s.replicaCount a) && decide (s.replicaCount a ≤ 64) && (s.replicaParts a).contains s.selfPart

theorem getLsbD_setBit {p : Nat} (hp : p < 8) (x : BitVec 8) : (x ||| BitVec.ofNat 8 (2 ^ p)).getLsbD p = true := by
  rw [BitVec.getLsbD_or, BitVec.getLsbD_ofNat]
  simp [hp]
theorem getLsbD_clearBit {p : Nat} (hp : p < 8) (x : BitVec 8) : (x &&& BitVec.ofNat 8 (255 - 2 ^ p)).getLsbD p = false := by
  have hbit : (255 - 2 ^ p).testBit p = false := by interval_cases p <;> decide
  rw [BitVec.getLsbD_and, BitVec.getLsbD_ofNat, hbit, Bool.and_false, Bool.and_false]

theorem State.readReplica_spec {s : State} {p : Nat} (hp : p < 8) :
    let t := s.readReplica p
    t.cc.replica = s.cc.replica ∧ t.cc.replicaOk.getLsbD p = s.replicaGood (tget 0 s.cc.replica p).toNat ∧ (∀ q, q ≠ p → t.part q = s.part q) ∧
      t.data = s.data := by
  intro t
  have hbranch : t = if s.replicaGood (tget 0 s.cc.replica p).toNat then { s with cc := { s.cc with
      replicaDue := s.cc.replicaDue.filter (· != p), replicaOk := s.cc.replicaOk ||| BitVec.ofNat 8 (2 ^ p)
      replicaRec := tset (0, []) s.cc.replicaRec p (leNat (s.hostRead (tget 0 s.cc.replica p).toNat 2), s.replicaParts (tget 0 s.cc.replica p).toNat) } }
      else ({ s with cc := { s.cc with
        replicaDue := s.cc.replicaDue.filter (· != p), replicaOk := s.cc.replicaOk &&& BitVec.ofNat 8 (255 - 2 ^ p)
        replicaRec := tset (0, []) s.cc.replicaRec p (0, []) } } : State).modPart p (fun x => { x with replica := none }) := by
    unfold t State.readReplica State.replicaGood State.replicaParts State.replicaCount State.selfPart
    rfl
  rw [hbranch]
  split
  · next hgood => exact ⟨rfl, (getLsbD_setBit hp _).trans hgood.symm, fun _ _ => rfl, rfl⟩
  · next hbad =>
    exact ⟨rfl, (getLsbD_clearBit hp _).trans (Bool.eq_false_iff.mpr hbad).symm, fun q hq => State.part_modPart_ne _ _ hq, rfl⟩

/-- A record that can be read is read at once (R395, R396). -/
theorem State.writeReplica_now {s : State} {p : Nat} {v : W64} (h : (s.hostUp || decide (v = 0)) = true) :
    s.writeReplica p v = ({ s with cc := { s.cc with replica := tset 0 s.cc.replica p v } } : State).readReplica p := if_pos h

theorem exec_ccReplicaWrite {s : State} {p : Nat} (v : W64) (stores : List HostStore) (h : (s.dom 3).st ≠ .off) (hp : p < 8) :
    exec (.ccReplicaWrite p v stores) s = .next ((s.hostStores stores).writeReplica p v) := by
  refine (State.direct_on (s := s.hostStores stores) (fun s => if p ≥ 8 then s else s.writeReplica p v) h).trans ?_
  rw [if_neg (by omega)]

/-! ## The record of lost events (R441) -/

theorem State.enterLost_kept {s : State} (h : s.es.lostSince = 0 ∨ esRoom ≤ s.es.buffer.length) : s.enterLost = s := by
  unfold State.enterLost
  rw [if_pos (by simpa using h)]

theorem State.enterLost_entered {s : State} (hlost : s.es.lostSince ≠ 0) (hroom : s.es.buffer.length < esRoom) :
    s.enterLost.es.lostSince = 0 ∧ s.enterLost.es.seq = s.es.seq + 1 ∧
      ∃ e, s.enterLost.es.buffer = s.es.buffer ++ [e] ∧ e.seq = s.es.seq.toNat ∧ e.type = 0x602 ∧ e.part = none ∧
        e.detail = s.es.firstLost + min s.es.lostSince 0xFFFFFFFF * 2 ^ 32 := by
  unfold State.enterLost
  rw [if_neg (by simp [hlost, hroom])]
  exact ⟨rfl, rfl, _, rfl, rfl, rfl, rfl, rfl⟩

/-- Settles O50: every row is a direct write of its register's own function, whose branches say what it does. -/
theorem registerRows : Obligations.RegisterRows := by
  unfold Obligations.RegisterRows
  refine ⟨fun s core h => State.direct_on (·.clearTrap core) h, fun s p v h hp => ⟨fun hidle => ⟨?_, ?_, ?_⟩, fun hbusy off hoff => ?_⟩,
    fun s i h => ⟨fun hi hi' => ?_, fun hi => ?_⟩, fun s off width v h => ⟨fun hnone => ?_, fun r t hsome => ?_⟩, ?_, ?_, ?_, ?_, fun s => ?_⟩
  · refine (exec_numStepWrite v h (regAccess_numSeedLo hp)).trans (congrArg Host.Outcome.next (if_pos ?_))
    simpa using hidle
  · refine (exec_numStepWrite v h (regAccess_numSeedHi hp)).trans (congrArg Host.Outcome.next (if_pos ?_))
    simpa using hidle
  · refine (exec_numStepWrite v h (regAccess_numStep hp)).trans (congrArg Host.Outcome.next (if_pos ?_))
    simpa using hidle
  · simp only [List.mem_cons, List.not_mem_nil, or_false] at hoff
    obtain rfl | rfl | rfl := hoff
    · refine (exec_numStepWrite v h (regAccess_numSeedLo hp)).trans (congrArg Host.Outcome.next (if_neg ?_))
      simpa using hbusy
    · refine (exec_numStepWrite v h (regAccess_numSeedHi hp)).trans (congrArg Host.Outcome.next (if_neg ?_))
      simpa using hbusy
    · refine (exec_numStepWrite v h (regAccess_numStep hp)).trans (congrArg Host.Outcome.next (if_neg ?_))
      simpa using hbusy
  · exact ⟨_, exec_cntClear h, State.clearCounter_spec hi hi'⟩
  · refine (exec_cntClear h).trans (congrArg Host.Outcome.next (if_neg ?_))
    simp only [Bool.and_eq_true, decide_eq_true_eq]
    omega
  · refine (exec_registerWrite off width v h).trans ?_
    simp [State.writeReg, hnone]
  · refine (exec_registerWrite off width v h).trans ?_
    rw [hsome]
  · intro s w o v h hw ho x
    have hexec := exec_memWeirWrite v h hw ho
    refine ⟨fun hbasic => hexec.trans ?_, fun hctrl hidle => ⟨fun hbad => ?_, fun hgood => ⟨_, hexec, State.writeWeir_ok hctrl hidle hgood⟩⟩⟩
    · unfold State.writeWeir
      rw [if_pos (by simp [hbasic])]
    · rw [hexec, State.writeWeir_bad hctrl hidle hbad]
  · intro s v h
    have hexec : exec (.memLevelWrite v) s = .next (s.writeMemLevel v).2 := State.direct_on (fun s => (s.writeMemLevel v).2) h
    refine ⟨fun hexpert => hexec.trans ?_, fun hbasic hctrl hidle => ⟨_, hexec, State.writeMemLevel_basic hbasic hctrl hidle⟩⟩
    unfold State.writeMemLevel
    rw [if_pos hexpert]
  · intro s v h
    have hexec : exec (.memHostWindowWrite v) s = .next (s.writeHostWindow v).2 := State.direct_on (fun s => (s.writeHostWindow v).2) h
    refine ⟨fun hlong => hexec.trans ?_, fun hshort hfree => hexec.trans ?_⟩
    · unfold State.writeHostWindow
      rw [if_pos (Bool.or_eq_true_iff.mpr (.inl (decide_eq_true hlong)))]
      rfl
    · unfold State.writeHostWindow
      rw [if_neg]
      simp only [Bool.or_eq_true, decide_eq_true_eq, List.any_eq_true, Bool.and_eq_true, not_or, not_exists, not_and, not_lt]
      exact ⟨hshort, fun e he hle => Bool.eq_false_iff.mp (hfree e he hle)⟩
  · intro s p v stores h hp u count parts
    have hexec := exec_ccReplicaWrite v stores h hp
    refine ⟨fun hread => ⟨_, hexec, ?_⟩, fun hdown hv => hexec.trans ?_⟩
    · have hgo : (u.hostUp || decide (v = 0)) = true := by
        obtain hup | hv := hread
        · exact Bool.or_eq_true_iff.mpr (.inl hup)
        · exact Bool.or_eq_true_iff.mpr (.inr (decide_eq_true hv))
      rw [State.writeReplica_now hgo]
      obtain ⟨hreplica, hok, hparts, hdata⟩ := State.readReplica_spec (s := { u with cc := { u.cc with replica := tset 0 u.cc.replica p v } }) hp
      have hv : tget 0 (tset 0 u.cc.replica p v) p = v := tget_tset_same _ _ _ _
      refine ⟨(congrArg (tget 0 · p) hreplica).trans hv, hok.trans ?_, hparts, hdata⟩
      dsimp only
      rw [hv, Bool.eq_iff_iff.mpr (bne_iff_ne.trans (decide_eq_true_iff (p := v.toNat ≠ 0)).symm)]
      rfl
    · refine congrArg Host.Outcome.next (if_neg ?_)
      change ¬ (s.hostUp || decide (v = 0)) = true
      rw [hdown, decide_eq_false hv]
      decide
  · exact ⟨rfl, State.enterLost_kept, State.enterLost_entered⟩

end Sys2Proof.Machine
end

section
/-! The stream records of a partition: which they are, and what a change of each of them does (R342, R352). -/
namespace Sys2Proof.Machine

open Sys2Proof

/-! ## Entries of a table -/

theorem mem_tput_ne {α : Type} {t : Tab α} {k j : Nat} (v w : α) (h : j ≠ k) : (j, w) ∈ tput t k v ↔ (j, w) ∈ t := by
  induction t with
  | nil => simp [tput, h]
  | cons e t ih =>
    unfold tput
    split
    · simp [h]
    · split
      · next hk =>
        have hne : (j, w) ≠ e := fun he => h (by rw [hk, ← he])
        simp [h, hne]
      · rw [List.mem_cons, List.mem_cons, ih]

theorem tget_mem {α : Type} (d : α) {t : Tab α} {k : Nat} (h : ∃ w, (k, w) ∈ t) : (k, tget d t k) ∈ t := by
  induction t with
  | nil =>
    obtain ⟨w, hw⟩ := h
    cases hw
  | cons e t ih =>
    obtain ⟨k', v'⟩ := e
    unfold tget
    split
    · next hk => exact hk ▸ List.mem_cons_self ..
    · next hk =>
      refine List.mem_cons_of_mem _ (ih ?_)
      obtain ⟨w, hw⟩ := h
      obtain hw | hw := List.mem_cons.mp hw
      · exact absurd (congrArg Prod.fst hw) hk
      · exact ⟨w, hw⟩

/-- A key keeps its property in the table when the new value has it just as the old one has. -/
theorem exists_mem_tput {α : Type} (d : α) {P : α → Prop} {t : Tab α} {k : Nat} {v : α} (hlisted : ∃ w, (k, w) ∈ t) (hv : P v ↔ P (tget d t k)) :
    (∃ w, (k, w) ∈ tput t k v ∧ P w) ↔ ∃ w, (k, w) ∈ t ∧ P w := by
  induction t with
  | nil =>
    obtain ⟨w, hw⟩ := hlisted
    cases hw
  | cons e t ih =>
    obtain ⟨k', v'⟩ := e
    have hfirst := tget_mem d hlisted
    unfold tput
    split
    · refine ⟨?_, fun ⟨w, hw, hP⟩ => ⟨w, List.mem_cons_of_mem _ hw, hP⟩⟩
      rintro ⟨w, hw, hP⟩
      obtain hw | hw := List.mem_cons.mp hw
      · cases hw
        exact ⟨_, hfirst, hv.mp hP⟩
      · exact ⟨w, hw, hP⟩
    · split
      · next hk =>
        subst hk
        rw [tget, if_pos rfl] at hv
        simp [hv, or_and_right, exists_or]
      · next hk =>
        rw [tget, if_neg hk] at hv
        have hrest : ∃ w, (k, w) ∈ t := by
          obtain ⟨w, hw⟩ := hlisted
          obtain hw | hw := List.mem_cons.mp hw
          · exact absurd (congrArg Prod.fst hw) hk
          · exact ⟨w, hw⟩
        simpa [hk] using ih hrest hv

/-! ## The streams of a partition -/

theorem State.mem_streamsOf {s : State} {p e : Nat} : e ∈ s.streamsOf p ↔ ∃ r, (e, r) ∈ s.se.recs ∧ r.partition = p := by
  simp [State.streamsOf]

/-- An engine whose record is not zero has an entry. -/
theorem State.srec_listed {s : State} {e : Nat} (h : s.srec e ≠ StreamRec.zero) : ∃ r, (e, r) ∈ s.se.recs := by
  by_contra hnone
  refine h ?_
  unfold State.srec
  generalize s.se.recs = t at hnone
  induction t with
  | nil => rfl
  | cons x t ih =>
    obtain ⟨k, v⟩ := x
    rw [tget, if_neg, ih]
    · exact fun ⟨r, hr⟩ => hnone ⟨r, List.mem_cons_of_mem _ hr⟩
    · exact fun hk => hnone ⟨v, hk ▸ List.mem_cons_self ..⟩

/-- A record that keeps its partition and is not cleared keeps every engine with a record in its partition. -/
theorem State.mem_streamsOf_setRec {s : State} {p e d : Nat} {r : StreamRec} (hpart : r.partition = (s.srec d).partition)
    (hzero : r = StreamRec.zero → s.srec d = StreamRec.zero) (he : s.srec e ≠ StreamRec.zero) :
    e ∈ (s.setRec d r).streamsOf p ↔ e ∈ s.streamsOf p := by
  rw [State.mem_streamsOf, State.mem_streamsOf]
  unfold State.setRec
  dsimp only
  unfold tset
  by_cases hed : e = d
  · subst hed
    rw [if_neg (fun h => he (hzero h))]
    exact exists_mem_tput (P := fun r => r.partition = p) StreamRec.zero (State.srec_listed he) (by rw [hpart]; rfl)
  · split
    · simp [hed]
    · simp only [mem_tput_ne r _ hed]

/-! ## One change for each stream of a list -/

/-- A step that changes the record of its engine by an idempotent function, under a relation to the first state that it keeps. -/
theorem srec_foldl {R : State → Prop} {f : State → Nat → State} {g : Nat → StreamRec → StreamRec} (hkeep : ∀ t d, R t → R (f t d))
    (hstep : ∀ t d, R t → ∀ e, (f t d).srec e = if e = d then g e (t.srec e) else t.srec e) (hg : ∀ e r, g e (g e r) = g e r) (l : List Nat) (e : Nat) :
    ∀ t, R t → (l.foldl f t).srec e = if e ∈ l then g e (t.srec e) else t.srec e := by
  induction l with
  | nil => exact fun t _ => rfl
  | cons d l ih =>
    intro t ht
    rw [List.foldl_cons, ih _ (hkeep t d ht), hstep t d ht]
    by_cases hed : e = d
    · simp [hed, hg]
    · simp [hed]

theorem State.setRec_srec (s : State) (d e : Nat) (r : StreamRec) : (s.setRec d r).srec e = if e = d then r else s.srec e := by
  split
  · next h => rw [h, State.srec_setRec]
  · next h => rw [State.srec_setRec_ne _ _ h]

/-! ## What decides whom a stream waits for -/

/-- What the wait of a stream at its pipe depends on is the same: memories and pipes, of each record the action, and of each partition what its actions
and cache are. -/
structure State.SameWaits (s t : State) : Prop where
  rest : ∃ rc ps hf es, t = { s with se := { s.se with recs := rc }, parts := ps, hif := hf, es := es }
  recs : ∀ e, ((t.srec e).state = 0 ↔ (s.srec e).state = 0) ∧ (t.srec e).partition = (s.srec e).partition ∧
    (t.srec e).formeId = (s.srec e).formeId ∧ (t.srec e).action = (s.srec e).action ∧ (t.srec e).desc = (s.srec e).desc ∧
    (t.srec e).iter = (s.srec e).iter ∧ (t.srec e).position = (s.srec e).position
  parts : ∀ q, (t.part q).flights = (s.part q).flights ∧ (t.part q).cur = (s.part q).cur ∧ (t.part q).image = (s.part q).image ∧
    (t.part q).lastImage = (s.part q).lastImage ∧ (t.part q).resident = (s.part q).resident ∧ (t.part q).cset = (s.part q).cset ∧
    (t.part q).csetRec = (s.part q).csetRec

namespace State.SameWaits
variable {s t : State} (h : s.SameWaits t)
include h

theorem pipes : t.se.pipes = s.se.pipes := by
  obtain ⟨_, _, _, _, ht⟩ := h.rest
  rw [ht]
theorem piped : t.se.piped = s.se.piped := by
  obtain ⟨_, _, _, _, ht⟩ := h.rest
  rw [ht]
theorem devRead (a n : Nat) : t.devRead a n = s.devRead a n := by
  obtain ⟨_, _, _, _, ht⟩ := h.rest
  rw [ht]
  rfl
theorem cacheSetAt (p a : Nat) : t.cacheSetAt p a = s.cacheSetAt p a := by
  obtain ⟨-, -, -, -, -, hcset, hrec⟩ := h.parts p
  unfold State.cacheSetAt
  rw [hcset, hrec, h.devRead]
theorem imageOf (q forme : Nat) : (t.part q).imageOf forme = (s.part q).imageOf forme := by
  obtain ⟨-, hcur, himage, hlast, hresident, -⟩ := h.parts q
  unfold Part.imageOf
  rw [hcur, himage, hlast, hresident]
theorem streamOpnds (e : Nat) : t.streamOpnds e = s.streamOpnds e := by
  obtain ⟨-, hpart, hforme, -, hdesc, hiter, -⟩ := h.recs e
  unfold State.streamOpnds
  dsimp only
  rw [hpart, hforme, hdesc, hiter, h.imageOf]
theorem streamFlight (e : Nat) : t.streamFlight e = s.streamFlight e := by
  obtain ⟨hstate, hpart, -, haction, -⟩ := h.recs e
  unfold State.streamFlight
  dsimp only
  rw [hpart, haction, (h.parts _).1]
  simp only [hstate]
theorem pipeSpace (e o : Nat) : t.pipeSpace e o = s.pipeSpace e o := by
  unfold State.pipeSpace
  rw [h.streamFlight, h.streamOpnds, h.piped, h.pipes]
theorem blockedAt (e : Nat) : t.blockedAt e = s.blockedAt e := by
  obtain ⟨-, hpart, -, -, -, -, hposition⟩ := h.recs e
  unfold State.blockedAt
  rw [h.streamOpnds, h.pipes, hpart, hposition]
  simp only [h.cacheSetAt, h.pipeSpace]

/-- A change of a record that leaves its action alone. -/
theorem setRec (d : Nat) {r : StreamRec} (hr : (r.state = 0 ↔ (t.srec d).state = 0) ∧ r.partition = (t.srec d).partition ∧
    r.formeId = (t.srec d).formeId ∧ r.action = (t.srec d).action ∧ r.desc = (t.srec d).desc ∧ r.iter = (t.srec d).iter ∧
    r.position = (t.srec d).position) : s.SameWaits (t.setRec d r) := by
  refine ⟨?_, fun e => ?_, h.parts⟩
  · obtain ⟨_, _, _, _, ht⟩ := h.rest
    exact ⟨_, _, _, _, by rw [ht]; rfl⟩
  · by_cases hed : e = d
    · subst hed
      obtain ⟨hstate, hpart, hforme, haction, hdesc, hiter, hposition⟩ := hr
      obtain ⟨hstate', hpart', hforme', haction', hdesc', hiter', hposition'⟩ := h.recs e
      rw [State.srec_setRec]
      exact ⟨hstate.trans hstate', hpart.trans hpart', hforme.trans hforme', haction.trans haction', hdesc.trans hdesc', hiter.trans hiter',
        hposition.trans hposition'⟩
    · rw [State.srec_setRec_ne _ _ hed]
      exact h.recs e

end State.SameWaits

theorem State.SameWaits.refl (s : State) : s.SameWaits s :=
  ⟨⟨_, _, _, _, rfl⟩, fun _ => ⟨.rfl, rfl, rfl, rfl, rfl, rfl, rfl⟩, fun _ => ⟨rfl, rfl, rfl, rfl, rfl, rfl, rfl⟩⟩

end Sys2Proof.Machine
end

section
/-! RESUME CONTINUE (R85, R342, R352; Table 03-13). -/
namespace Sys2Proof.Machine

open Sys2Proof

/-! ## The record of a restarted stream -/

theorem StreamRec.restart_restart (r : StreamRec) : r.restart.restart = r.restart := by
  unfold StreamRec.restart
  by_cases h : r.state = 2 <;> simp [h]

theorem StreamRec.restart_of_ne {r : StreamRec} (h : r.state ≠ 2) : r.restart = r := if_neg h

/-- A restart leaves the action of a record alone. -/
theorem StreamRec.restart_action (r : StreamRec) : (r.restart.state = 0 ↔ r.state = 0) ∧ r.restart.partition = r.partition ∧
    r.restart.formeId = r.formeId ∧ r.restart.action = r.action ∧ r.restart.desc = r.desc ∧ r.restart.iter = r.iter ∧
    r.restart.position = r.position := by
  unfold StreamRec.restart
  split
  · next h => exact ⟨by simp [h], rfl, rfl, rfl, rfl, rfl, rfl⟩
  · exact ⟨.rfl, rfl, rfl, rfl, rfl, rfl, rfl⟩

theorem StreamRec.state_ne_zero {r : StreamRec} (h : r.state ≠ 0) : r ≠ StreamRec.zero := fun hr => h (hr ▸ rfl)

theorem StreamRec.restart_zero {r : StreamRec} (h : r.restart = StreamRec.zero) : r = StreamRec.zero := by
  unfold StreamRec.restart at h
  split at h
  · cases congrArg StreamRec.state h
  · exact h

/-- A restarted record whose pipe is stopped by another engine shows that it waits for it (R342). -/
def StreamRec.waitingOn (r : StreamRec) (other : Option Nat) (action : Nat → Nat) : StreamRec :=
  if r.state = 1 && r.thawing && r.kindOp = 0x40 then match other with
    | some o => { r with waiting := true, block := 0x10000000 + o, blockAction := action o }
    | none => r
  else r

/-- A record that restarts a COPY. -/
def StreamRec.restarts (r : StreamRec) : Bool := r.state = 1 && r.thawing && r.kindOp = 0x40

theorem StreamRec.waitingOn_of_not {r : StreamRec} (o : Option Nat) (f : Nat → Nat) (h : r.restarts = false) : r.waitingOn o f = r :=
  if_neg (Bool.eq_false_iff.mp h)
theorem StreamRec.waitingOn_some {r : StreamRec} (o : Nat) (f : Nat → Nat) (h : r.restarts = true) :
    r.waitingOn (some o) f = { r with waiting := true, block := 0x10000000 + o, blockAction := f o } := if_pos h

theorem StreamRec.waitingOn_none (r : StreamRec) (f : Nat → Nat) : r.waitingOn none f = r := by
  unfold StreamRec.waitingOn
  split <;> rfl

theorem StreamRec.waitingOn_waitingOn (r : StreamRec) (o : Option Nat) (f : Nat → Nat) : (r.waitingOn o f).waitingOn o f = r.waitingOn o f := by
  cases hr : r.restarts with
  | false => rw [StreamRec.waitingOn_of_not o f hr, StreamRec.waitingOn_of_not o f hr]
  | true =>
    cases o with
    | none => rw [StreamRec.waitingOn_none, StreamRec.waitingOn_none]
    | some o =>
      rw [StreamRec.waitingOn_some o f hr]
      exact if_pos hr

theorem StreamRec.waitingOn_action (r : StreamRec) (o : Option Nat) (f : Nat → Nat) : ((r.waitingOn o f).state = 0 ↔ r.state = 0) ∧
    (r.waitingOn o f).partition = r.partition ∧ (r.waitingOn o f).formeId = r.formeId ∧ (r.waitingOn o f).action = r.action ∧
    (r.waitingOn o f).desc = r.desc ∧ (r.waitingOn o f).iter = r.iter ∧ (r.waitingOn o f).position = r.position := by
  unfold StreamRec.waitingOn
  split
  · split
    · exact ⟨.rfl, rfl, rfl, rfl, rfl, rfl, rfl⟩
    · exact ⟨.rfl, rfl, rfl, rfl, rfl, rfl, rfl⟩
  · exact ⟨.rfl, rfl, rfl, rfl, rfl, rfl, rfl⟩

/-! ## The streams of a partition restart -/

/-- The record index of the action in flight of an engine, as a waiting record names it. -/
def State.flightAction (s : State) (e : Nat) : Nat := ((s.streamFlight e).map (·.action)).getD 0xFFFF

theorem State.stillWaits_eq (s : State) (e : Nat) : s.stillWaits e = if (s.srec e).restarts then match s.blockedAt e with
    | some o => s.setRec e { s.srec e with waiting := true, block := 0x10000000 + o, blockAction := s.flightAction o }
    | none => s
  else s := rfl

/-- A stream waits on as its pipe says, and no other record changes. -/
theorem State.srec_stillWaits {s t : State} (h : s.SameWaits t) (d e : Nat) :
    (t.stillWaits d).srec e = if e = d then (t.srec e).waitingOn (s.blockedAt e) s.flightAction else t.srec e := by
  have hblocked := h.blockedAt d
  rw [State.stillWaits_eq]
  cases hcond : (t.srec d).restarts with
  | false =>
    rw [if_neg (by decide)]
    by_cases hed : e = d
    · subst hed
      rw [if_pos rfl, StreamRec.waitingOn_of_not _ _ hcond]
    · rw [if_neg hed]
  | true =>
    rw [if_pos rfl, hblocked]
    cases ho : s.blockedAt d with
    | none =>
      by_cases hed : e = d
      · subst hed
        rw [if_pos rfl, ho, StreamRec.waitingOn_none]
      · rw [if_neg hed]
    | some o =>
      dsimp only
      rw [State.setRec_srec, State.flightAction, h.streamFlight]
      by_cases hed : e = d
      · subst hed
        rw [if_pos rfl, if_pos rfl, ho, StreamRec.waitingOn_some o _ hcond]
        rfl
      · rw [if_neg hed, if_neg hed]

theorem State.SameWaits.stillWaits {s t : State} (h : s.SameWaits t) (d : Nat) : s.SameWaits (t.stillWaits d) := by
  rw [State.stillWaits_eq]
  split
  · split
    · exact h.setRec d ⟨.rfl, rfl, rfl, rfl, rfl, rfl, rfl⟩
    · exact h
  · exact h

theorem State.SameWaits.restart {s t : State} (h : s.SameWaits t) (d : Nat) : s.SameWaits (t.setRec d (t.srec d).restart) :=
  h.setRec d (t.srec d).restart_action

theorem State.SameWaits.foldl {s : State} {f : State → Nat → State} (hf : ∀ t d, s.SameWaits t → s.SameWaits (f t d)) (l : List Nat) :
    ∀ t, s.SameWaits t → s.SameWaits (l.foldl f t) := by
  induction l with
  | nil => exact fun t h => h
  | cons d l ih => exact fun t h => ih _ (hf t d h)

/-- Every halted stream of a list restarts. -/
def State.restarted (s : State) (l : List Nat) : State := l.foldl (fun s e => s.setRec e (s.srec e).restart) s

theorem State.srec_restarted (s : State) (l : List Nat) (e : Nat) : (s.restarted l).srec e = if e ∈ l then (s.srec e).restart else s.srec e :=
  srec_foldl (R := fun _ => True) (g := fun _ r => r.restart) (fun _ _ _ => trivial)
    (fun t d _ e => by
      rw [State.setRec_srec]
      by_cases hed : e = d
      · subst hed; rfl
      · rw [if_neg hed, if_neg hed])
    (fun _ r => r.restart_restart) l e s trivial

/-- A stream that does not rest stays one of its partition. -/
theorem State.mem_streamsOf_restarted {p e : Nat} (l : List Nat) : ∀ s : State, (s.srec e).state ≠ 0 →
    (e ∈ (s.restarted l).streamsOf p ↔ e ∈ s.streamsOf p) := by
  induction l with
  | nil => exact fun s _ => .rfl
  | cons d l ih =>
    intro s he
    have hstill : ((s.setRec d (s.srec d).restart).srec e).state ≠ 0 := by
      rw [State.setRec_srec]
      split
      · next hed => subst hed; exact fun h => he ((s.srec e).restart_action.1.mp h)
      · exact he
    exact (ih _ hstill).trans (State.mem_streamsOf_setRec (s.srec d).restart_action.2.1 StreamRec.restart_zero (StreamRec.state_ne_zero he))

/-! ## An accepted CONTINUE -/

/-- A partition as an accepted CONTINUE leaves it: it runs towards its thaw (Table 03-13). -/
def Part.thawing (x : Part) (b : Nat) : Part :=
  { x with frz := .thawing b, causes := [], wdAgain := x.causes.contains .watchdog, grace := none, status := .running }

/-- The partition leaves FROZEN; its streams have still to restart. -/
def State.unfrozen (s : State) (p b : Nat) : State :=
  (s.setPart p { s.part p with frz := .thawing b, causes := [], wdAgain := (s.part p).causes.contains .watchdog, grace := none }).setStat p .running

theorem State.part_unfrozen (s : State) (p b : Nat) : (s.unfrozen p b).part p = (s.part p).thawing b := by
  have h := State.part_modPart (s.setPart p { s.part p with frz := .thawing b, causes := [], wdAgain := (s.part p).causes.contains .watchdog, grace := none })
    p (fun x => { x with status := .running })
  rw [State.part_setPart] at h
  exact h
theorem State.part_unfrozen_ne (s : State) {p q : Nat} (b : Nat) (hq : q ≠ p) : (s.unfrozen p b).part q = s.part q := by
  have h := State.part_modPart_ne (s.setPart p { s.part p with
    frz := .thawing b, causes := [], wdAgain := (s.part p).causes.contains .watchdog, grace := none }) (fun x => { x with status := .running }) hq
  rw [State.part_setPart_ne _ _ hq] at h
  exact h

theorem State.advertise_frame (s : State) : ∃ ad asq at', s.advertise = { s with hif := { s.hif with advertDue := ad, advertSeq := asq, advertTime := at' } } :=
  ⟨_, _, _, rfl⟩
theorem State.setStat_frame (s : State) (p : Nat) (st : PStat) : ∃ ps ad asq at', s.setStat p st = { s with
    parts := ps, hif := { s.hif with advertDue := ad, advertSeq := asq, advertTime := at' } } := by
  obtain ⟨_, _, _, h⟩ := (s.modPart p (fun x => { x with status := st })).advertise_frame
  unfold State.setStat
  rw [h]
  exact ⟨_, _, _, _, rfl⟩
theorem State.unfrozen_frame (s : State) (p b : Nat) : ∃ ps ad asq at', s.unfrozen p b = { s with
    parts := ps, hif := { s.hif with advertDue := ad, advertSeq := asq, advertTime := at' } } := by
  unfold State.unfrozen
  obtain ⟨_, _, _, _, h⟩ := State.setStat_frame (s.setPart p { s.part p with
    frz := .thawing b, causes := [], wdAgain := (s.part p).causes.contains .watchdog, grace := none }) p .running
  rw [h]
  exact ⟨_, _, _, _, rfl⟩

theorem State.srec_unfrozen (s : State) (p b e : Nat) : (s.unfrozen p b).srec e = s.srec e := by
  obtain ⟨_, _, _, _, h⟩ := s.unfrozen_frame p b
  rw [h]
  rfl
theorem State.streamsOf_unfrozen (s : State) (p b q : Nat) : (s.unfrozen p b).streamsOf q = s.streamsOf q := by
  obtain ⟨_, _, _, _, h⟩ := s.unfrozen_frame p b
  rw [h]
  rfl

theorem State.sameWaits_unfrozen (s : State) (p b : Nat) : s.SameWaits (s.unfrozen p b) := by
  refine ⟨?_, fun e => ?_, fun q => ?_⟩
  · obtain ⟨_, _, _, _, h⟩ := s.unfrozen_frame p b
    exact ⟨s.se.recs, _, _, s.es, h⟩
  · rw [State.srec_unfrozen]
    exact ⟨.rfl, rfl, rfl, rfl, rfl, rfl, rfl⟩
  · by_cases hq : q = p
    · subst hq
      rw [State.part_unfrozen]
      exact ⟨rfl, rfl, rfl, rfl, rfl, rfl, rfl⟩
    · rw [State.part_unfrozen_ne _ _ hq]
      exact ⟨rfl, rfl, rfl, rfl, rfl, rfl, rfl⟩

theorem State.continued_eq {s : State} {p b : Nat} (h : (s.part p).frz = .stopped b) :
    s.continued p = (((s.unfrozen p b).restarted (s.streamsOf p)).streamsOf p).foldl State.stillWaits ((s.unfrozen p b).restarted (s.streamsOf p)) := by
  rw [← s.streamsOf_unfrozen p b]
  unfold State.continued
  dsimp only
  rw [h]
  rfl

theorem State.sameWaits_restarted (s : State) (p b : Nat) (l : List Nat) : s.SameWaits ((s.unfrozen p b).restarted l) :=
  State.SameWaits.foldl (f := fun s e => s.setRec e (s.srec e).restart) (fun _ d h => h.restart d) l _ (s.sameWaits_unfrozen p b)

theorem State.sameWaits_continued {s : State} {p b : Nat} (h : (s.part p).frz = .stopped b) : s.SameWaits (s.continued p) := by
  rw [State.continued_eq h]
  exact State.SameWaits.foldl (fun _ d h => h.stillWaits d) _ _ (s.sameWaits_restarted p b _)

/-- The record of every engine after an accepted CONTINUE. -/
theorem State.srec_continued {s : State} {p b e : Nat} (h : (s.part p).frz = .stopped b) :
    (s.continued p).srec e = if e ∈ s.streamsOf p then (s.srec e).restart.waitingOn (s.blockedAt e) s.flightAction else s.srec e := by
  have hrestarted : ((s.unfrozen p b).restarted (s.streamsOf p)).srec e = if e ∈ s.streamsOf p then (s.srec e).restart else s.srec e := by
    rw [State.srec_restarted, State.srec_unfrozen]
  have hmember (he : (s.srec e).state ≠ 0) : e ∈ ((s.unfrozen p b).restarted (s.streamsOf p)).streamsOf p ↔ e ∈ s.streamsOf p := by
    rw [State.mem_streamsOf_restarted _ _ (by rw [State.srec_unfrozen]; exact he), State.streamsOf_unfrozen]
  have hfold := srec_foldl (R := s.SameWaits) (g := fun e r => r.waitingOn (s.blockedAt e) s.flightAction) (fun _ d h => h.stillWaits d)
    (fun _ d h e => State.srec_stillWaits h d e) (fun e r => r.waitingOn_waitingOn _ _)
    (((s.unfrozen p b).restarted (s.streamsOf p)).streamsOf p) e _ (s.sameWaits_restarted p b (s.streamsOf p))
  rw [State.continued_eq h, hfold, hrestarted]
  by_cases hzero : (s.srec e).state = 0
  · have hrest : (s.srec e).restart = s.srec e := StreamRec.restart_of_ne (by rw [hzero]; decide)
    have hstill : (s.srec e).waitingOn (s.blockedAt e) s.flightAction = s.srec e := StreamRec.waitingOn_of_not _ _ (by simp [StreamRec.restarts, hzero])
    rw [hrest, ite_self, hstill, ite_self, ite_self]
  · by_cases he : e ∈ s.streamsOf p
    · rw [if_pos ((hmember hzero).mpr he), if_pos he, if_pos he]
    · rw [if_neg (mt (hmember hzero).mp he), if_neg he, if_neg he]

/-- A command that begins changes nothing of what a stream waits for. -/
theorem State.sameWaits_begun (s : State) (c : Cmd) : s.SameWaits (s.begun c) :=
  ⟨⟨s.se.recs, s.parts, _, s.es, rfl⟩, fun _ => ⟨.rfl, rfl, rfl, rfl, rfl, rfl, rfl⟩, fun _ => ⟨rfl, rfl, rfl, rfl, rfl, rfl, rfl⟩⟩

theorem State.SameWaits.flightAction {s t : State} (h : s.SameWaits t) : t.flightAction = s.flightAction := by
  funext e
  unfold State.flightAction
  rw [h.streamFlight]

theorem State.srec_continued_begun {s : State} {c : Cmd} {b e : Nat} (h : (s.part c.part).frz = .stopped b) :
    ((s.begun c).continued c.part).srec e =
      if e ∈ s.streamsOf c.part then (s.srec e).restart.waitingOn (s.blockedAt e) s.flightAction else s.srec e := by
  have hbegun := State.srec_continued (s := s.begun c) (e := e) h
  rw [(s.sameWaits_begun c).blockedAt, (s.sameWaits_begun c).flightAction] at hbegun
  exact hbegun

theorem State.resumable_iff {s : State} {c : Cmd} :
    s.resumable c = true ↔ (s.part c.part).status = .frozen ∧ ∀ g, (s.part c.part).grace = some g → c.time < g.1 := by
  unfold State.resumable
  cases hgrace : (s.part c.part).grace with
  | none => simp [hgrace]
  | some g => simp [hgrace]

/-- The first reason that refuses a CONTINUE, 0 for none. -/
def State.continueCode (s : State) (c : Cmd) : Nat := firstCode [(0x21A, !s.resumable c), (0x21B, (s.part c.part).causes.any Cause.final),
  (0x21C, (s.streamsOf c.part).any (fun e => !s.streamCleared c.part (s.srec e)))]

theorem exec_resumeContinue {s : State} {c : Cmd} (h : s.serves 0x15 c) (hmode : c.opnd 0 1 = 0) :
    exec .resumeContinue s = .next ((s.begun c).answer c (s.continueCode c) ((s.begun c).continued c.part)) := by
  refine congrArg Host.Outcome.next ((if_pos ?_).trans (State.runCmd_ok _ h.1 h.2))
  rw [State.frontMode_some _ h.1]
  simpa using hmode

theorem exec_resumeContinue_refused {s : State} {c : Cmd} {code : Nat} (h : s.serves 0x15 c) (hmode : c.opnd 0 1 = 0) (hcode : s.continueCode c = code)
    (hsome : code ≠ 0) (hclass : code / 256 ≠ 5) : exec .resumeContinue s = .next (s.completed c 1 code 0 0) := by
  rw [exec_resumeContinue h hmode, hcode, State.answer_deny _ hsome, State.begun_deny hclass]

theorem exec_resumeContinue_ok {s : State} {c : Cmd} (h : s.serves 0x15 c) (hmode : c.opnd 0 1 = 0) (hcode : s.continueCode c = 0) :
    exec .resumeContinue s = .next (((s.begun c).continued c.part).ok c 0) := by
  rw [exec_resumeContinue h hmode, hcode, State.answer_ok]

/-! ## The streams change nothing but their records -/

/-- Only stream records change. -/
def State.Records (s t : State) : Prop := ∃ rc, t = { s with se := { s.se with recs := rc } }

theorem State.Records.refl (s : State) : s.Records s := ⟨_, rfl⟩
theorem State.Records.trans {s t u : State} (h : s.Records t) (h' : t.Records u) : s.Records u := by
  obtain ⟨_, rfl⟩ := h
  obtain ⟨_, rfl⟩ := h'
  exact ⟨_, rfl⟩
theorem State.Records.foldl {α : Type} {f : State → α → State} (h : ∀ (s : State) (x : α), s.Records (f s x)) (l : List α) (s : State) :
    s.Records (l.foldl f s) := by
  induction l generalizing s with
  | nil => exact .refl _
  | cons x l ih => exact (h s x).trans (ih _)
theorem State.records_setRec (s : State) (e : Nat) (r : StreamRec) : s.Records (s.setRec e r) := ⟨_, rfl⟩
theorem State.records_stillWaits (s : State) (e : Nat) : s.Records (s.stillWaits e) := by
  rw [State.stillWaits_eq]
  split
  · split
    · exact s.records_setRec _ _
    · exact .refl _
  · exact .refl _

theorem State.records_continued {s : State} {p b : Nat} (h : (s.part p).frz = .stopped b) : (s.unfrozen p b).Records (s.continued p) := by
  rw [State.continued_eq h]
  exact (State.Records.foldl (f := fun s e => s.setRec e (s.srec e).restart) (fun s e => s.records_setRec _ _) _ _).trans
    (.foldl State.records_stillWaits _ _)

theorem State.part_continued {s : State} {p b : Nat} (h : (s.part p).frz = .stopped b) (q : Nat) : (s.continued p).part q = (s.unfrozen p b).part q := by
  obtain ⟨_, hrec⟩ := State.records_continued h
  rw [hrec]
  rfl

/-- The host interface shows the change of state only (R412). -/
theorem State.hif_continued {s : State} {p b : Nat} (h : (s.part p).frz = .stopped b) :
    (s.continued p).hif.queue = s.hif.queue ∧ (s.continued p).hif.compl = s.hif.compl := by
  obtain ⟨_, hrec⟩ := State.records_continued h
  obtain ⟨_, _, _, _, hframe⟩ := s.unfrozen_frame p b
  rw [hrec, hframe]
  exact ⟨rfl, rfl⟩

theorem State.srec_ok (s : State) (c : Cmd) (v e : Nat) : (s.ok c v).srec e = s.srec e := rfl

/-- The record of a stream as the clause on CONTINUE gives it. -/
theorem StreamRec.restart_waitingOn {r : StreamRec} {mine : Prop} [Decidable mine] (other : Option Nat) (f : Nat → Nat)
    (r' : StreamRec) (hr : r' = if mine ∧ r.state = 2 then
      { r with state := 1, cause := 0, due := 0, detail := 0, restarted := true, waiting := false, block := 0, blockAction := 0xFFFF, thawing := true }
      else r) :
    let stopped := if mine ∧ r'.state = 1 ∧ r'.thawing = true ∧ r'.kindOp = 0x40 then other else none
    (stopped = none → (if mine then r.restart.waitingOn other f else r) = r') ∧
    (∀ o, stopped = some o → (if mine then r.restart.waitingOn other f else r) =
      { r' with waiting := true, block := 0x10000000 + o, blockAction := f o }) := by
  intro stopped
  by_cases hm : mine
  · have hr' : r' = r.restart := by
      rw [hr]
      unfold StreamRec.restart
      simp only [hm, true_and]
    rw [if_pos hm, hr']
    cases hc : r.restart.restarts with
    | false =>
      have hnone : stopped = none := by
        refine if_neg ?_
        rintro ⟨-, hstate, hthawing, hop⟩
        rw [hr'] at hstate hthawing hop
        rw [StreamRec.restarts, hstate, hthawing, hop] at hc
        cases hc
      exact ⟨fun _ => StreamRec.waitingOn_of_not _ _ hc, fun o ho => absurd (hnone.symm.trans ho) nofun⟩
    | true =>
      have hother : stopped = other := by
        refine if_pos ⟨hm, ?_⟩
        rw [hr']
        simpa [StreamRec.restarts, and_assoc] using hc
      rw [hother]
      exact ⟨fun ho => by rw [ho, StreamRec.waitingOn_none], fun o ho => by rw [ho, StreamRec.waitingOn_some o f hc]⟩
  · have hr' : r' = r := by rw [hr, if_neg (fun h => hm h.1)]
    have hnone : stopped = none := if_neg (fun h => hm h.1)
    rw [if_neg hm]
    exact ⟨fun _ => hr'.symm, fun o ho => absurd (hnone.symm.trans ho) nofun⟩

/-- Settles O14: the reasons come in their order; an accepted CONTINUE restarts the streams of the partition, whose pipes stop them as before. -/
theorem resumeContinueRestarts : Obligations.ResumeContinueRestarts := by
  unfold Obligations.ResumeContinueRestarts
  intro s c hserves hmode x able final cleared
  have hable : able ↔ s.resumable c = true := State.resumable_iff.symm
  have hcleared : cleared ↔ (s.streamsOf c.part).any (fun e => !s.streamCleared c.part (s.srec e)) = false := by
    simp [cleared]
  have hcode : s.continueCode c = if s.resumable c then if (s.part c.part).causes.any Cause.final then 0x21B else
      if (s.streamsOf c.part).any (fun e => !s.streamCleared c.part (s.srec e)) then 0x21C else 0 else 0x21A := by
    unfold State.continueCode firstCode
    cases s.resumable c <;> rfl
  refine ⟨fun hnot => ?_, fun hyes hfinal => ?_, fun hyes hfinal hnot => ?_, fun hyes hfinal hclear b hb => ?_⟩
  · refine exec_resumeContinue_refused hserves hmode (hcode.trans ?_) (by decide) (by decide)
    rw [if_neg (mt hable.mpr hnot)]
  · refine exec_resumeContinue_refused hserves hmode (hcode.trans ?_) (by decide) (by decide)
    rw [if_pos (hable.mp hyes), if_pos hfinal]
  · refine exec_resumeContinue_refused hserves hmode (hcode.trans ?_) (by decide) (by decide)
    rw [if_pos (hable.mp hyes), if_neg hfinal, if_pos (by rw [← Bool.not_eq_false]; exact mt hcleared.mpr hnot)]
  · have hb' : ((s.begun c).part c.part).frz = .stopped b := hb
    obtain ⟨hqueue, hcompl⟩ := State.hif_continued hb'
    have hsrec (e : Nat) := State.srec_continued_begun (e := e) hb
    obtain ⟨_, _, _, _, hrest⟩ := (State.sameWaits_continued hb').rest
    refine ⟨_, exec_resumeContinue_ok hserves hmode (hcode.trans ?_), ⟨hqueue, _, congrArg (· ++ _) hcompl⟩, ?_, fun q hq => ?_, fun e => ?_, ?_⟩
    · rw [if_pos (hable.mp hyes), if_neg hfinal, if_neg (by rw [hcleared.mp hclear]; decide)]
    · rw [State.part_ok, State.part_continued hb', State.part_unfrozen]
      rfl
    · rw [State.part_ok, State.part_continued hb', State.part_unfrozen_ne _ _ hq]
      rfl
    · intro r stopped
      obtain ⟨hnone, hsome⟩ := StreamRec.restart_waitingOn (mine := e ∈ s.streamsOf c.part) (s.blockedAt e) s.flightAction r rfl
      rw [State.srec_ok, hsrec]
      exact ⟨hnone, hsome⟩
    · rw [hrest]
      rfl

end Sys2Proof.Machine
end

section
/-! Records that their token, descriptor or ownership forbids (R72, R75, R77, R136, R139). -/
namespace Sys2Proof.Machine

open Sys2Proof

/-! ## The rows of the engines -/

/-- A row whose record is checked by `State.issueAction` once its descriptor is read. -/
def Checked (op n p a : Nat) (i : Instr) : Prop := ∃ f : Ctx → List Byte → State → State,
  (∀ s, exec i s = .next (s.issueMatrix op p a n f)) ∧ ∀ c b u, ∃ valid busy named run, f c b u = u.issueAction c valid busy named run

theorem checked_mma (p a : Nat) : Checked 0x10 64 p a (.mma p a) := ⟨_, fun _ => rfl, fun _ _ _ => ⟨_, _, _, _, rfl⟩⟩
theorem checked_drain (p a : Nat) : Checked 0x11 48 p a (.drain p a) := ⟨_, fun _ => rfl, fun _ _ _ => ⟨_, _, _, _, rfl⟩⟩
theorem checked_combine (p a : Nat) : Checked 0x12 64 p a (.combine p a) := ⟨_, fun _ => rfl, fun _ _ _ => ⟨_, _, _, _, rfl⟩⟩
theorem checked_vector {op p a : Nat} {i : Instr} (h : ∀ s, exec i s = .next (s.issueVector op p a)) : Checked op 64 p a i :=
  ⟨_, h, fun _ _ _ => ⟨_, _, _, _, rfl⟩⟩
theorem checked_update {op p a : Nat} {i : Instr} (h : ∀ s, exec i s = .next (s.issueUpdate op p a)) : Checked op 64 p a i :=
  ⟨_, h, fun _ _ _ => ⟨_, _, _, _, rfl⟩⟩
theorem checked_attend (p a : Nat) : Checked 0x70 64 p a (.attend p a) := ⟨_, fun _ => rfl, fun _ _ _ => ⟨_, _, _, _, rfl⟩⟩
theorem checked_merge (p a : Nat) : Checked 0x71 64 p a (.merge p a) := ⟨_, fun _ => rfl, fun _ _ _ => ⟨_, _, _, _, rfl⟩⟩

theorem checked_engineRows {p a : Nat} : ∀ x ∈ engineRows p a, Checked x.1 x.2.1 p a x.2.2 := by
  unfold engineRows
  simp only [List.forall_mem_cons]
  refine ⟨checked_mma p a, checked_drain p a, checked_combine p a, checked_vector fun _ => rfl, checked_vector fun _ => rfl, checked_vector fun _ => rfl,
    checked_vector fun _ => rfl, checked_vector fun _ => rfl, checked_vector fun _ => rfl, checked_vector fun _ => rfl, checked_vector fun _ => rfl,
    checked_vector fun _ => rfl, checked_vector fun _ => rfl, checked_vector fun _ => rfl, checked_vector fun _ => rfl, checked_vector fun _ => rfl,
    checked_vector fun _ => rfl, checked_vector fun _ => rfl, checked_update fun _ => rfl, checked_update fun _ => rfl, checked_update fun _ => rfl,
    checked_update fun _ => rfl, checked_attend p a, checked_merge p a, nofun⟩

theorem State.issueMatrix_desc {s : State} {op p a n : Nat} {c : Ctx} {b : List Byte} (f : Ctx → List Byte → State → State) (hc : issueCtx s op p a = some c)
    (hb : ((s.toCycle p c.point).part p).image.descOf c.bind c.r.arg n = some b) : s.issueMatrix op p a n f = f c b (s.toCycle p c.point) := by
  unfold State.issueMatrix
  rw [hc]
  dsimp only
  rw [hb]
theorem State.issueMatrix_noDesc {s : State} {op p a n : Nat} {c : Ctx} (f : Ctx → List Byte → State → State) (hc : issueCtx s op p a = some c)
    (hb : ((s.toCycle p c.point).part p).image.descOf c.bind c.r.arg n = none) :
    s.issueMatrix op p a n f = (s.toCycle p c.point).issueAction c false none [] id := by
  unfold State.issueMatrix
  rw [hc]
  dsimp only
  rw [hb]

/-! ## Collisions -/

/-- A record that collides with a resource other than a galley has no effect but its breach. -/
theorem State.collide_zero (s : State) (c : Ctx) (other : Option (Nat × Nat)) :
    s.collide c 0 other = s.breach c.p c.point (BreachInfo.collision c.agent c.idx 0 other) := rfl

/-- What a breach of a record that is passed over changes: its partition, whose sequencer goes on. -/
theorem State.step1_breach_frame (s : State) {p cyc : Nat} {c : Ctx} (b : BreachInfo) (hp : c.p = p) : let t := (s.step1 c).breach p cyc b
    t.data = s.data ∧ t.num = s.num ∧ Cause.breach ∈ (t.part p).causes ∧ ∀ r, r ≠ p → t.part r = s.part r := by
  subst hp
  intro t
  refine ⟨State.breach_data _ _ _ _, State.breach_num _ _ _ _, ?_, fun r hr => ?_⟩
  · rw [State.part_breach]
    exact Part.addCause_mem _ _ _
  · exact (State.part_breach_ne _ _ _ hr).trans (State.part_modPart_ne _ _ hr)

/-- The resource that one named resource fails with is that one. -/
theorem ownFail_singleton {x : Part} {c : Ctx} {k r res : Nat} {o : Option (Nat × Nat)} (h : ownFail x c k [r] = some (res, o)) : res = r := by
  unfold ownFail at h
  dsimp only at h
  split at h
  · cases h; rfl
  · split at h
    · cases h; rfl
    · cases h

/-- The identifier of a galley (Table 03-8) is one of a galley. -/
theorem bits_resGalley {core g : Nat} (hcore : core < 1024) (hg : g < 2) : bits (resGalley core g) 31 28 = 1 := by
  unfold bits resGalley
  rw [Nat.shiftRight_eq_div_pow]
  omega

/-- The state with the galley of a resource poisoned as a collision poisons it (R75). -/
def State.galleyStruck (s : State) (res : Nat) : State :=
  let key := galKey (bits res 15 0) (bits res 16 16)
  { s with data := { s.data with galleyP := tset 0 s.data.galleyP key (if tget 0 s.data.galleyP key = 0 then 6 else tget 0 s.data.galleyP key) } }

theorem State.galleyStruck_poison (s : State) (res : Nat) :
    tget 0 (s.galleyStruck res).data.galleyP (galKey (bits res 15 0) (bits res 16 16)) ≠ 0 := by
  unfold State.galleyStruck
  dsimp only
  rw [tget_tset_same]
  split
  · decide
  · next hold => exact hold

theorem State.collide_eq_galleyStruck {s : State} {c : Ctx} {res : Nat} (other : Option (Nat × Nat)) (h : bits res 31 28 = 1) :
    s.collide c res other =
      (s.galleyStruck res).breach c.p c.point { BreachInfo.collision c.agent c.idx res other with poisoned := decide (bits res 31 28 = 1) } := by
  unfold State.collide
  simp only [h, if_true]
  rfl

/-- A record that collides with a galley poisons it, and has no other effect but its breach (R75). -/
theorem State.collide_galley {s : State} {c : Ctx} {res : Nat} (other : Option (Nat × Nat)) (h : bits res 31 28 = 1) : let t := s.collide c res other
    t.data.galley = s.data.galley ∧ t.data.core = s.data.core ∧ t.num = s.num ∧
      tget 0 t.data.galleyP (galKey (bits res 15 0) (bits res 16 16)) ≠ 0 ∧ Cause.breach ∈ (t.part c.p).causes := by
  intro t
  subst t
  rw [State.collide_eq_galleyStruck other h, State.breach_data, State.breach_num, State.part_breach]
  exact ⟨rfl, rfl, rfl, s.galleyStruck_poison res, Part.addCause_mem _ _ _⟩

theorem exec_mma {s : State} {p a : Nat} {c : Ctx} {b : List Byte} (hc : issueCtx s 0x10 p a = some c)
    (hb : ((s.toCycle p c.point).part p).image.descOf c.bind c.r.arg 64 = some b) : exec (.mma p a) s = .next ((s.toCycle p c.point).issueAction c
      (MmaDesc.parse b).valid (((s.toCycle p c.point).part p).lanesBusy a ((s.toCycle p c.point).clkAt p c.point)) [resGalley (agNum a) (MmaDesc.parse b).gal]
      (fun s => s.runMma c (MmaDesc.parse b))) :=
  congrArg Host.Outcome.next (State.issueMatrix_desc _ hc hb)

/-- Settles O27: every row of an engine reads its descriptor and then goes through the checks of R72 in one order; what fails is a breach on the state
whose sequencer stands at the next record. -/
theorem recordChecksBreach : Obligations.RecordChecksBreach := by
  unfold Obligations.RecordChecksBreach
  refine ⟨fun s u op n p a i c b hrow hc hu hb hlate => ?_, fun s u op n p a i c hrow hc hu hb hfine => ?_, fun s u p a c b hc ha hu hb hfine => ?_⟩
  · subst hu
    obtain ⟨f, hexec, hissue⟩ := checked_engineRows _ hrow
    obtain ⟨valid, busy, named, run, hf⟩ := hissue c b (s.toCycle p c.point)
    obtain ⟨hdata, hnum, hcause, hothers⟩ := (s.toCycle p c.point).step1_breach_frame (cyc := c.point) _ (issueCtx_owner hc).1
    refine ⟨_, ?_, rfl, hdata.trans (s.drifts_toCycle p c.point).frame.2.1, hnum, hcause, hothers⟩
    rw [hexec, State.issueMatrix_desc f hc hb, hf, State.issueAction_late hlate, (issueCtx_owner hc).1]
  · subst hu
    obtain ⟨f, hexec, -⟩ := checked_engineRows _ hrow
    obtain ⟨hdata, hnum, hcause, hothers⟩ := (s.toCycle p c.point).step1_breach_frame (cyc := c.point) (BreachInfo.collision a c.idx 0 none) (issueCtx_owner hc).1
    refine ⟨_, ?_, rfl, hdata.trans (s.drifts_toCycle p c.point).frame.2.1, hnum, hcause, hothers⟩
    rw [hexec, State.issueMatrix_noDesc f hc hb, State.issueAction_bad hfine rfl, State.collide_zero, (issueCtx_owner hc).1, (issueCtx_owner hc).2]
  · subst hu
    obtain ⟨hp, hagent⟩ := issueCtx_owner hc
    have hexec := exec_mma hc hb
    refine ⟨fun hbad => ?_, fun x hgood hbusy => ?_, fun res o hgood hfree hfail => ?_⟩
    · rw [hexec, State.issueAction_bad hfine hbad, State.collide_zero, hp, hagent]
    · rw [hexec, State.issueAction_busy hfine hgood hbusy, State.collide_zero, hp, hagent]
    · obtain rfl := ownFail_singleton hfail
      have hdata : ((s.toCycle p c.point).step1 c).data = s.data := (s.drifts_toCycle p c.point).frame.2.1
      have hnum : ((s.toCycle p c.point).step1 c).num = (s.toCycle p c.point).num := rfl
      have hres : bits (resGalley (agNum a) (MmaDesc.parse b).gal) 31 28 = 1 := bits_resGalley ha (Nat.mod_lt _ (by decide))
      have hfail' : ownFail ((s.toCycle p c.point).part c.p) c 0 [resGalley (agNum a) (MmaDesc.parse b).gal] = some (resGalley (agNum a) (MmaDesc.parse b).gal, o) := by
        rw [hp]; exact hfail
      rw [State.issueAction_unowned hfine hgood hfree hfail'] at hexec
      obtain ⟨hgalley, hcore, hsame, hpoison, hcause⟩ := State.collide_galley (s := (s.toCycle p c.point).step1 c) (c := c) o hres
      rw [hdata] at hgalley hcore
      rw [hp] at hcause
      exact ⟨_, hexec, hgalley, hcore, hsame.trans hnum, hpoison, hcause⟩

end Sys2Proof.Machine
end

section
/-! What the work of an engine keeps: its accesses of device memory, its flags, its events (R225 to R238, R272 to R275). -/
namespace Sys2Proof.Machine

open Sys2Proof

/-! ## The accesses of an agent -/

/-- A relation that the breaches and the stores of device memory keep, and so every access of an agent. -/
structure AccessKept (R : State → State → Prop) : Prop where
  refl : ∀ s, R s s
  trans : ∀ {s t u}, R s t → R t u → R s u
  breach : ∀ s p cyc b, R s (State.breach s p cyc b)
  stores : ∀ s a r, R s (State.devWrite s a r)

namespace AccessKept
variable {R : State → State → Prop} (h : AccessKept R)
include h

theorem readGo (w : Who) (l : List (Nat × Nat)) : ∀ s, R s (State.agentReadGo w l s).2.2 := by
  induction l with
  | nil => exact h.refl
  | cons x l ih =>
    intro s
    unfold State.agentReadGo
    split
    · exact h.refl s
    · exact h.trans (h.breach s _ _ _) (ih _)
    · exact h.trans (h.breach s _ _ _) (ih _)
    · split
      · split
        · exact ih s
        · exact h.trans (h.breach s _ _ _) (ih _)
      · exact ih s
theorem agentRead (s : State) (w : Who) (a n : Nat) : R s (s.agentRead w a n).2.2 := h.readGo w _ s

theorem writeGo (w : Who) (l : List (Nat × Nat)) : ∀ r s, R s (State.agentWriteGo w l r s).2.2 := by
  induction l with
  | nil => exact fun _ => h.refl
  | cons x l ih =>
    intro r s
    unfold State.agentWriteGo
    split
    · exact h.refl s
    · exact h.trans (h.breach s _ _ _) (ih _ _)
    · exact h.trans (h.breach s _ _ _) (ih _ _)
    · split
      · refine h.trans ?_ (ih _ _)
        split
        · exact h.stores s _ _
        · exact h.breach s _ _ _
      · exact h.trans (h.stores s _ _) (ih _ _)
theorem agentWrite (s : State) (w : Who) (a : Nat) (r : Run) : R s (s.agentWrite w a r).2.2 := h.writeGo w _ r s

theorem readArr (s : State) (w : Who) (addr width count : Nat) : R s (s.readArr w addr width count).2 := h.agentRead s w _ _
theorem readArrIf (c : Prop) [Decidable c] (s : State) (w : Who) (addr width count : Nat) (x : Arr) :
    R s (if c then s.readArr w addr width count else (x, s)).2 := by
  split
  · exact h.readArr s w _ _ _
  · exact h.refl s
theorem foldl {α : Type} {f : State → α → State} (hf : ∀ (s : State) (x : α), R s (f s x)) (l : List α) : ∀ s, R s (l.foldl f s) := by
  induction l with
  | nil => exact h.refl
  | cons x l ih => exact fun s => h.trans (hf s x) (ih _)
/-- The same for an accumulator that holds the state. -/
theorem foldlOn {α β : Type} (st : β → State) {f : β → α → β} (hf : ∀ (b : β) (x : α), R (st b) (st (f b x))) (l : List α) :
    ∀ b, R (st b) (st (l.foldl f b)) := by
  induction l with
  | nil => exact fun b => h.refl _
  | cons x l ih => exact fun b => h.trans (hf b x) (ih _)

/-- And for a fold whose state is known. -/
theorem foldlTo {α β : Type} {f : State × β → α → State × β} {l : List α} {s t : State} {b b' : β} (he : l.foldl f (s, b) = (t, b'))
    (hf : ∀ (sp : State × β) (x : α), R sp.1 (f sp x).1) : R s t := by
  have hfold := h.foldlOn Prod.fst hf l (s, b)
  rwa [he] at hfold

/-- A read of an agent whose result is known. -/
theorem readTo {w : Who} {a n : Nat} {s t : State} {r : Run} {o : Option Nat} (he : s.agentRead w a n = (r, o, t)) : R s t := by
  have hread := h.agentRead s w a n
  rwa [he] at hread

end AccessKept

/-! ## The work of an engine -/

/-- What an engine's work keeps but for the bytes that SUMSQ puts into core memory: galleys, links, resets, and the actions in flight. -/
structure State.Works (s t : State) : Prop where
  galley : t.data.galley = s.data.galley
  sram : t.data.sram = s.data.sram
  lnk : t.lnk = s.lnk
  rst : t.rst = s.rst
  flights : ∀ q, (t.part q).flights = (s.part q).flights

/-- And core memory. -/
structure State.Engages (s t : State) : Prop extends State.Works s t where
  core : t.data.core = s.data.core

theorem State.Works.trans {s t u : State} (h : s.Works t) (h' : t.Works u) : s.Works u :=
  ⟨h'.galley.trans h.galley, h'.sram.trans h.sram, h'.lnk.trans h.lnk, h'.rst.trans h.rst, fun q => (h'.flights q).trans (h.flights q)⟩
theorem State.Engages.refl (s : State) : s.Engages s := ⟨⟨rfl, rfl, rfl, rfl, fun _ => rfl⟩, rfl⟩
theorem State.Engages.trans {s t u : State} (h : s.Engages t) (h' : t.Engages u) : s.Engages u :=
  ⟨h.toWorks.trans h'.toWorks, h'.core.trans h.core⟩

theorem State.Drifts.engages {s t : State} (h : s.Drifts t) : s.Engages t := by
  obtain ⟨-, hdata, -, hrst, -, -, -, hlnk, -⟩ := h.frame
  refine ⟨⟨by rw [hdata], by rw [hdata], hlnk, hrst, fun q => ?_⟩, by rw [hdata]⟩
  obtain ⟨-, -, -, -, -, hflights, -⟩ := h.part q
  exact hflights
theorem State.Stores.engages {s t : State} (h : s.Stores t) : s.Engages t := by
  obtain ⟨_, _, _, _, rfl⟩ := h
  exact ⟨⟨rfl, rfl, rfl, rfl, fun _ => rfl⟩, rfl⟩

theorem State.engages_accessKept : AccessKept State.Engages :=
  ⟨.refl, .trans, fun s p cyc b => (s.drifts_breach p cyc b).engages, fun s a r => (s.stores_devWrite a r).engages⟩

theorem State.engages_modPart (s : State) (p : Nat) {f : Part → Part} (h : (f (s.part p)).flights = (s.part p).flights) : s.Engages (s.modPart p f) := by
  refine ⟨⟨rfl, rfl, rfl, rfl, fun q => ?_⟩, rfl⟩
  by_cases hq : q = p
  · subst hq
    rw [State.part_modPart]
    exact h
  · rw [State.part_modPart_ne _ _ hq]
theorem State.engages_orEng (s : State) (e : Nat) (f : BitVec 4) : s.Engages (s.orEng e f) := by
  unfold State.orEng
  split
  · exact ⟨⟨rfl, rfl, rfl, rfl, fun _ => rfl⟩, rfl⟩
  · exact ⟨⟨rfl, rfl, rfl, rfl, fun _ => rfl⟩, rfl⟩
theorem State.engages_post (s : State) (ty : Nat) (p : Option Nat) (src aux det : Nat) : s.Engages (s.post ty p src aux det) :=
  (s.drifts_post ty p src aux det).engages
theorem State.engages_askWeirs (s : State) (w : Who) (id : Nat) (write : Bool) (l : List (Nat × Nat)) : s.Engages (s.askWeirs w id write l) :=
  (s.drifts_askWeirs w id write l).engages
theorem State.engages_consume (s : State) (p cyc origin agent action at' : Nat) : s.Engages (s.consume p cyc origin agent action at') := by
  unfold State.consume
  split
  · exact .refl s
  · obtain ⟨e, he⟩ := s.event_frame 0x205 (some p) agent (0x720 + origin) at'
    split
    next q t ht =>
    have ht' : t = { s with es := e } := by rw [← he, ht]
    subst ht'
    dsimp only
    refine .trans ?_ (State.drifts_freeze _ _ _ _).engages
    exact ⟨⟨rfl, rfl, rfl, rfl, fun _ => rfl⟩, rfl⟩

/-! ## Update operations -/

theorem State.engages_putElem (s : State) (addr width v : Nat) : s.Engages (s.putElem addr width v) := (s.stores_devWrite _ _).engages

/-- A store that an operation makes under a condition. -/
theorem State.engages_putElemIf (c : Prop) [Decidable c] (s : State) (addr width v : Nat) : s.Engages (if c then s.putElem addr width v else s) := by
  split
  · exact s.engages_putElem _ _ _
  · exact .refl s

theorem State.engages_updOne (sc : StepScalars) (d : UpdDesc) (w r m v g : Arr) (acc : UpdAcc) (k : Nat) :
    acc.data.Engages (updOne sc d w r m v g acc k).data := by
  unfold updOne
  split
  · exact .refl _
  · dsimp only
    split
    · exact acc.data.engages_putElem _ _ _
    · refine .trans ?_ (State.engages_putElemIf _ _ _ _ _)
      refine .trans ?_ (State.engages_putElemIf _ _ _ _ _)
      exact ((acc.data.engages_putElem _ _ _).trans (State.engages_putElem _ _ _ _)).trans (State.engages_putElem _ _ _ _)

theorem State.engages_keepSpan (s : State) (p agent op : Nat) (d : UpdDesc) (record : List Byte) : s.Engages (s.keepSpan p agent op d record) := by
  unfold State.keepSpan
  split
  · exact .refl s
  · dsimp only
    split
    · exact .refl s
    · exact s.engages_modPart p rfl
theorem State.engages_putDigest (s : State) (w : Who) (op : Nat) (d : UpdDesc) (origin : Nat) (crcs : List Nat) :
    s.Engages (s.putDigest w op d origin crcs) :=
  (State.engages_accessKept.agentWrite s w _ _).trans (State.engages_keepSpan _ _ _ _ _ _)
theorem State.engages_runRclear (s : State) (w : Who) (d : UpdDesc) : s.Engages (s.runRclear w d) := State.engages_accessKept.agentWrite s w _ _

theorem State.works_runSumsq (s : State) (c : Ctx) (w : Who) (e : Nat) (d : UpdDesc) : s.Works (s.runSumsq c w e d) := by
  have hread := (State.engages_accessKept.readArr s w d.g 6 d.count).toWorks
  have hwrite (t : State) (f : BitVec 4) (a : Nat) (r : Run) : t.Works ((t.orEng e f).write .core a r) :=
    (t.engages_orEng e f).toWorks.trans ⟨rfl, rfl, rfl, rfl, fun _ => rfl⟩
  unfold State.runSumsq
  dsimp only
  split
  · exact (hread.trans (hwrite _ _ _ _)).trans (State.engages_consume _ _ _ _ _ _ _).toWorks
  · exact (hread.trans (hwrite _ _ _ _)).trans (State.engages_consume _ _ _ _ _ _ _).toWorks

/-- The state that a read of an array leaves. -/
theorem State.Engages.read {s t u : State} {r : Arr × State} {a : Arr} (h : s.Engages t) (hr : t.Engages r.2) (he : r = (a, u)) : s.Engages u := by
  rw [he] at hr
  exact h.trans hr

theorem State.engages_runDigest (s : State) (c : Ctx) (w : Who) (d : UpdDesc) : s.Engages (s.runDigest c w d) := by
  unfold State.runDigest
  extract_lets none' rd
  have hrd (t : State) (i a width : Nat) : t.Engages (rd t i a width).2 := State.engages_accessKept.readArrIf _ t w _ _ _ _
  split
  next aw s1 h1 =>
  split
  next ar s2 h2 =>
  split
  next am s3 h3 =>
  split
  next av s4 h4 =>
  have hread := (((State.Engages.refl s).read (hrd _ _ _ _) h1).read (hrd _ _ _ _) h2).read (hrd _ _ _ _) h3 |>.read (hrd _ _ _ _) h4
  dsimp only
  split
  · exact (hread.trans (State.engages_putDigest _ _ _ _ _ _)).trans (State.engages_consume _ _ _ _ _ _ _)
  · exact hread.trans (State.engages_putDigest _ _ _ _ _ _)

/-- An UPDATE with a digest reads its arrays once more and writes the record. -/
def State.updateDigest (s : State) (w : Who) (d : UpdDesc) (origin : Nat) : State :=
  let none' : Arr := { addr := 0, width := 0, run := [] }
  let (nw, s) := s.readArr w d.w 2 d.count
  let (nr, s) := s.readArr w d.r 2 d.count
  let (nm, s) := if d.rule ≤ 1 then s.readArr w d.m d.mw d.count else (none', s)
  let (nv, s) := if d.rule = 0 then s.readArr w d.v d.mw d.count else (none', s)
  s.putDigest w 0x62 d origin [nw.crc, nr.crc, nm.crc, nv.crc]

theorem State.engages_updateDigest (s : State) (w : Who) (d : UpdDesc) (origin : Nat) : s.Engages (s.updateDigest w d origin) := by
  have hread := State.engages_accessKept.readArr
  have hreadIf := State.engages_accessKept.readArrIf
  unfold State.updateDigest
  dsimp only
  refine .trans ?_ (State.engages_putDigest _ _ _ _ _ _)
  exact (((hread s w _ _ _).trans (hread _ w _ _ _)).trans (hreadIf _ _ w _ _ _ _)).trans (hreadIf _ _ w _ _ _ _)

theorem State.engages_runUpdate (s : State) (c : Ctx) (w : Who) (e : Nat) (d : UpdDesc) : s.Engages (s.runUpdate c w e d) := by
  have hread := State.engages_accessKept.readArr
  have hreadIf := State.engages_accessKept.readArrIf
  unfold State.runUpdate
  extract_lets sc so none' gs
  split
  next aw s1 h1 =>
  split
  next ar s2 h2 =>
  split
  next am s3 h3 =>
  split
  next av s4 h4 =>
  split
  next ag s5 h5 =>
  extract_lets acc t1 fault t2 t3 t4
  have hreads := ((((State.Engages.refl s).read (hread _ _ _ _ _) h1).read (hread _ _ _ _ _) h2).read (hreadIf _ _ _ _ _ _ _) h3).read
    (hreadIf _ _ _ _ _ _ _) h4 |>.read (hread _ _ _ _ _) h5
  have hacc : s5.Engages acc.data := by
    unfold acc
    split
    · exact .refl s5
    · exact State.engages_accessKept.foldlOn UpdAcc.data (State.engages_updOne sc d aw ar am av ag) _ { data := s5, fl := gs.fl, bad := 0, first := 0 }
  have h2 : t1.Engages t2 := by
    unfold t2
    split
    · exact t1.engages_updateDigest w d _
    · exact .refl t1
  have h3 : t2.Engages t3 := by
    unfold t3
    split
    · exact (t2.engages_post _ _ _ _ _).trans (State.engages_modPart _ w.p rfl)
    · exact .refl t2
  have h4 : t3.Engages t4 := by
    unfold t4
    split
    · exact .refl t3
    · exact t3.engages_post _ _ _ _ _
  have hall := ((((hreads.trans hacc).trans (acc.data.engages_orEng e acc.fl)).trans h2).trans h3).trans h4
  clear_value t4 t3 t2 fault
  split
  · exact hall.trans (t4.engages_consume _ _ _ _ _ _)
  · exact hall

/-! ## ATTEND and MERGE -/

/-- One page of a row of an ATTEND is read; the read is a parameter so that no proof unfolds it. -/
def attendPage (read : State → Who → Nat → Nat → Run × Option Nat × State) (c : CacheSet) (q : SeqEntry) (w : Who)
    (sp : State × List (Nat × Run × Nat)) (jw : Nat × Nat) : State × List (Nat × Run × Nat) :=
  let cnt := min c.t (q.length + q.pending - jw.1 * c.t)
  let (r, _, s) := read sp.1 w (pteAddr jw.2) (cnt * c.tokenBytes)
  (s, sp.2 ++ [(cnt, r, pteAddr jw.2)])

theorem engages_attendPage {read : State → Who → Nat → Nat → Run × Option Nat × State} (h : ∀ s w a n, State.Engages s (read s w a n).2.2)
    (c : CacheSet) (q : SeqEntry) (w : Who) (sp : State × List (Nat × Run × Nat)) (jw : Nat × Nat) :
    sp.1.Engages (attendPage read c q w sp jw).1 := h sp.1 w _ _

theorem State.engages_attendRow (d : AttDesc) (c : CacheSet) (idx : Nat) (w : Who) (acc : AttAcc) (kr : Nat × Nat) :
    acc.st.Engages (attendRow d c idx w acc kr).st := by
  unfold attendRow
  extract_lets s e slot q js words
  split
  · exact .refl _
  · split
    · exact .refl _
    · split
      · exact (s.drifts_breach _ _ _).engages
      · split
        next t pages ht =>
        have hreads : s.Engages t := State.engages_accessKept.foldlTo (f := attendPage State.agentRead c q w) ht
          (engages_attendPage State.engages_accessKept.agentRead c q w)
        exact hreads.trans (State.engages_accessKept.agentWrite t w _ _)

theorem State.engages_mergeHead (d : MergeDesc) (c : CacheSet) (w : Who) (slot n : Nat) (acc : AttAcc) (k h : Nat) :
    acc.st.Engages (mergeHead d c w slot n acc k h).st := by
  unfold mergeHead
  extract_lets s hq at'
  split
  next t leaves ht =>
  have hreads : s.Engages t := by
    split at ht
    · cases ht
      exact .refl _
    · refine State.engages_accessKept.foldlTo ht fun sl p => ?_
      split
      next hr => exact State.engages_accessKept.readTo hr
  extract_lets x
  split
  exact hreads.trans (State.engages_accessKept.agentWrite t w _ _)

theorem State.engages_mergeRow (d : MergeDesc) (c : CacheSet) (w : Who) (acc : AttAcc) (k : Nat) : acc.st.Engages (mergeRow d c w acc k).st :=
  State.engages_accessKept.foldlOn AttAcc.st (fun acc h => State.engages_mergeHead d c w _ _ acc k h) _ acc

/-- An action joins those of its partition. -/
theorem State.works_addFlight (s : State) (p : Nat) (f : Flight) : let t := s.addFlight p f
    t.data = s.data ∧ t.lnk = s.lnk ∧ t.rst = s.rst ∧ (t.part p).flights = (s.part p).flights ++ [{ f with forme := (s.part p).cur }] := by
  refine ⟨rfl, rfl, rfl, ?_⟩
  unfold State.addFlight
  rw [State.part_modPart]

/-- The end of an ATTEND or MERGE: its flags join the engine's, and the first poison it met is consumed. -/
def AttAcc.ended (acc : AttAcc) (e p cyc agent action : Nat) : State :=
  let s := acc.st.orEng e acc.fl
  match acc.bad with
  | some (o, at') => s.consume p cyc o agent action at'
  | none => s

theorem AttAcc.engages_ended (acc : AttAcc) (e p cyc agent action : Nat) : acc.st.Engages (acc.ended e p cyc agent action) := by
  unfold AttAcc.ended
  dsimp only
  split
  · exact (acc.st.engages_orEng e _).trans (State.engages_consume _ _ _ _ _ _ _)
  · exact acc.st.engages_orEng e _

theorem State.runAttend_data (s : State) (c : Ctx) (d : AttDesc) : let t := s.runAttend c d
    t.data.core = s.data.core ∧ t.data.sram = s.data.sram ∧ t.data.galley = s.data.galley := by
  intro t
  have hacts (l : List (Nat × Nat)) (cs : CacheSet) (idx cyc e : Nat) (w : Who) : s.Engages
      ((l.foldl (attendRow d cs idx w) { st := s.draw.2, fl := Flags.none, stopped := false, bad := none }).ended e c.p cyc c.agent c.idx) := by
    refine .trans (t := s.draw.2) ⟨⟨rfl, rfl, rfl, rfl, fun _ => rfl⟩, rfl⟩ (.trans ?_ (AttAcc.engages_ended _ _ _ _ _ _))
    exact State.engages_accessKept.foldlOn AttAcc.st (State.engages_attendRow d cs idx w) l { st := s.draw.2, fl := Flags.none, stopped := false, bad := none }
  subst t
  unfold State.runAttend
  extract_lets cs e
  split
  · exact ⟨rfl, rfl, rfl⟩
  · next idx _ =>
    extract_lets rows work
    have h := hacts (rows.zipIdx.map (fun x => (x.2, x.1))) cs idx
    split
    next k u hk =>
    cases hk
    extract_lets w acc t1 t2
    have h2 : s.Engages t2 := h _ _ _
    clear_value t2
    split
    · exact ⟨h2.core, h2.sram, h2.galley⟩
    · exact ⟨h2.core, h2.sram, h2.galley⟩

theorem State.runMerge_works (s : State) (c : Ctx) (d : MergeDesc) : ∃ t f, s.runMerge c d = t.addFlight c.p f ∧ f.agent = c.agent ∧ s.Engages t := by
  unfold State.runMerge
  extract_lets cs e hq n per
  split
  next k u hk =>
  cases hk
  extract_lets w acc t1 t2
  refine ⟨t2, _, rfl, rfl, ?_⟩
  refine .trans (t := s.draw.2) ⟨⟨rfl, rfl, rfl, rfl, fun _ => rfl⟩, rfl⟩ (.trans (t := acc.st) ?_ (AttAcc.engages_ended acc e c.p w.cyc c.agent c.idx))
  exact State.engages_accessKept.foldlOn AttAcc.st (State.engages_mergeRow d cs w) _ { st := s.draw.2, fl := Flags.none, stopped := false, bad := none }

end Sys2Proof.Machine
end

section
/-! The bytes that RCLEAR writes (R225, R228), the update rules on one element (R233), and the issue of update and attention rows. -/
namespace Sys2Proof.Machine

open Sys2Proof

/-! ## Ranges cut at multiples -/

/-- The pieces of a range lie in it. -/
theorem mem_cutGo {g : Nat} (hg : 0 < g) {y : Nat × Nat} : ∀ (fuel : Nat) {a n : Nat}, y ∈ cutGo g fuel a n → a ≤ y.1 ∧ y.1 < a + n := by
  intro fuel
  induction fuel with
  | zero => exact fun h => absurd h List.not_mem_nil
  | succ fuel ih =>
    intro a n h
    unfold cutGo at h
    split at h
    · exact absurd h List.not_mem_nil
    · next hn =>
      have hm := Nat.mod_lt a hg
      obtain rfl | h := List.mem_cons.mp h
      · dsimp only
        omega
      · obtain ⟨hlo, hhi⟩ := ih h
        omega
theorem mem_cut {g a n : Nat} (hg : 0 < g) {y : Nat × Nat} (h : y ∈ cut g a n) : a ≤ y.1 ∧ y.1 < a + n := mem_cutGo hg _ h

theorem reqUnit_pos (a : Nat) : 0 < reqUnit a := by
  unfold reqUnit
  split
  · decide
  · split <;> decide

/-! ## Zeros written to a range -/

/-- From `s` to `t` the bytes of a device range have become zero; the host's memory, the other memories and the units' numbers stay. -/
structure State.ZeroesDev (a n : Nat) (s t : State) : Prop where
  bytes : ∀ k, t.devByte k = if a ≤ k ∧ k < a + n then 0 else s.devByte k
  host : t.data.host = s.data.host
  core : t.data.core = s.data.core
  scalar : t.data.scalar = s.data.scalar
  num : t.num = s.num

theorem State.ZeroesDev.none (a : Nat) (s : State) : s.ZeroesDev a 0 s := ⟨fun k => (if_neg (by omega)).symm, rfl, rfl, rfl, rfl⟩
theorem State.ZeroesDev.append {a m n : Nat} {s t u : State} (h : s.ZeroesDev a m t) (h' : t.ZeroesDev (a + m) n u) : s.ZeroesDev a (m + n) u := by
  refine ⟨fun k => ?_, h'.host.trans h.host, h'.core.trans h.core, h'.scalar.trans h.scalar, h'.num.trans h.num⟩
  rw [h'.bytes, h.bytes]
  by_cases hm : a ≤ k ∧ k < a + m
  · rw [if_neg (by omega), if_pos hm, if_pos (by omega)]
  · rw [if_neg hm]
    by_cases hn : a + m ≤ k ∧ k < a + m + n
    · rw [if_pos hn, if_pos (by omega)]
    · rw [if_neg hn, if_neg (by omega)]

theorem State.zeroesDev_write (s : State) (a n : Nat) (h : a < hostBase) : s.ZeroesDev a n (s.devWrite a (Run.sound (List.replicate n 0))) := by
  rw [State.devWrite_of_lt _ h]
  refine ⟨fun k => ?_, rfl, rfl, rfl, rfl⟩
  rw [State.devByte_write, Run.plain_sound, Run.length_sound, List.length_replicate]
  split
  · rw [List.getD_replicate _ (by omega)]
  · rfl

theorem lookupBy_eq_none {α : Type} {p : α → Bool} {l : List α} (h : ∀ x ∈ l, p x = false) : lookupBy p l = none := by
  induction l with
  | nil => rfl
  | cons x l ih =>
    rw [lookupBy, if_neg (by rw [h x (List.mem_cons_self ..)]; decide), ih fun y hy => h y (List.mem_cons_of_mem x hy)]

/-- No ATTEND in flight guards an address. -/
theorem State.attendGuard_none {s : State} {p : Nat} (a n : Nat) (h : ∀ f ∈ (s.part p).flights, f.opcode ≠ 0x70) : s.attendGuard p a n = none := by
  unfold State.attendGuard
  refine lookupBy_eq_none fun f hf => ?_
  rw [Bool.and_eq_false_iff]
  exact .inl (beq_eq_false_iff_ne.mpr (h f hf))

/-- Stores of device memory change no access. -/
theorem State.Stores.access {s t : State} (h : s.Stores t) (p a : Nat) : t.access p a = s.access p a := by
  obtain ⟨_, _, _, _, rfl⟩ := h
  rfl

/-- Zeros written to a range of the partition below the host window reach every byte of it. -/
theorem State.zeroesDev_writeGo {w : Who} {g : Nat} (hg : 0 < g) : ∀ (fuel a n : Nat) (s : State), n = 0 ∨ a % g + n ≤ fuel * g →
    (∀ x, a ≤ x → x < a + n → s.access w.p x = .ok) → a + n ≤ hostBase → (∀ f ∈ (s.part w.p).flights, f.opcode ≠ 0x70) →
    s.ZeroesDev a n (State.agentWriteGo w (cutGo g fuel a n) (Run.sound (List.replicate n 0)) s).2.2 := by
  intro fuel
  induction fuel with
  | zero =>
    intro a n s hfuel _ _ _
    obtain rfl : n = 0 := by omega
    exact .none a s
  | succ fuel ih =>
    intro a n s hfuel hok hhost hfree
    unfold cutGo
    split
    · next hn =>
      subst hn
      exact .none a s
    · next hn =>
      have hmod := Nat.mod_lt a hg
      generalize hm : min n (g - a % g) = m
      unfold State.agentWriteGo
      rw [hok a (Nat.le_refl a) (by omega)]
      dsimp only
      rw [State.attendGuard_none a m hfree]
      dsimp only
      have htake : (Run.sound (List.replicate n 0)).take m = Run.sound (List.replicate m 0) := by
        unfold Run.sound
        rw [← List.map_take, List.take_replicate, Nat.min_eq_left (by omega)]
      have hdrop : (Run.sound (List.replicate n 0)).drop m = Run.sound (List.replicate (n - m) 0) := by
        unfold Run.sound
        rw [← List.map_drop, List.drop_replicate]
      have hstores := s.stores_devWrite a (Run.sound (List.replicate m 0))
      rw [htake, hdrop]
      have hrest := ih (a + m) (n - m) (s.devWrite a (Run.sound (List.replicate m 0))) ?_
        (fun x hlo hhi => (hstores.access w.p x).trans (hok x (by omega) (by omega))) (by omega) (by rw [hstores.engages.flights]; exact hfree)
      · have hall := (s.zeroesDev_write a m (by omega)).append hrest
        rwa [Nat.add_sub_cancel' (by omega)] at hall
      · by_cases hlast : n ≤ g - a % g
        · exact .inl (by omega)
        · refine .inr ?_
          have hnext : (a + m) % g = 0 := by
            obtain rfl : g - a % g = m := by omega
            rw [← Nat.add_sub_assoc hmod.le, Nat.sub_add_comm (Nat.mod_le a g), Nat.add_mod_right]
            exact Nat.mod_eq_zero_of_dvd (Nat.dvd_sub_mod a)
          have hsucc : (fuel + 1) * g = fuel * g + g := Nat.succ_mul fuel g
          rw [hsucc] at hfuel
          omega

/-- RCLEAR's write (R228). -/
theorem State.zeroesDev_runRclear {s : State} {w : Who} {d : UpdDesc} (hok : ∀ x, d.g ≤ x → x < d.g + 6 * d.count → s.access w.p x = .ok)
    (hhost : d.g + 6 * d.count ≤ hostBase) (hfree : ∀ f ∈ (s.part w.p).flights, f.opcode ≠ 0x70) :
    s.ZeroesDev d.g (6 * d.count) (s.runRclear w d) := by
  unfold State.runRclear State.agentWrite cut
  rw [Run.length_sound, List.length_replicate]
  refine State.zeroesDev_writeGo (reqUnit_pos d.g) _ _ _ s (.inr ?_) hok hhost hfree
  have hmod := Nat.mod_lt d.g (reqUnit_pos d.g)
  have hdiv := Nat.div_add_mod (6 * d.count) (reqUnit d.g)
  have hrem := Nat.mod_lt (6 * d.count) (reqUnit_pos d.g)
  rw [Nat.add_mul, Nat.mul_comm (6 * d.count / _)]
  omega

/-! ## Requests at the weirs change no unit's numbers -/

theorem State.offerSide_num (t k : Nat) (l : List (Nat × WeirReq)) : ∀ a : State × List Overrun, (State.offerSide t k l a).1.num = a.1.num := by
  induction l with
  | nil => exact fun a => rfl
  | cons r l ih =>
    intro a
    unfold State.offerSide
    split
    · rfl
    · exact ih _
theorem State.weirOverrun_num (s : State) (v : Overrun) : (s.weirOverrun v).num = s.num := by
  obtain h | ⟨cyc, b, h⟩ := s.weirOverrun_cases v <;> rw [h]
  exact State.breach_num _ _ _ _
theorem State.overruns_num (a : State × List Overrun) : (State.overruns a).num = a.1.num := by
  obtain ⟨s, l⟩ := a
  unfold State.overruns
  induction l generalizing s with
  | nil => rfl
  | cons v l ih => exact (ih _).trans (s.weirOverrun_num v)
theorem State.askWeirs_num (s : State) (w : Who) (id : Nat) (write : Bool) (l : List (Nat × Nat)) : (s.askWeirs w id write l).num = s.num :=
  (State.overruns_num _).trans (State.offerSide_num _ _ _ (s, []))

theorem State.zeroesDev_askWeirs {a n : Nat} {s t : State} (h : s.ZeroesDev a n t) (w : Who) (id : Nat) (write : Bool) (l : List (Nat × Nat)) :
    s.ZeroesDev a n (t.askWeirs w id write l) := by
  have hdata : (t.askWeirs w id write l).data = t.data := (t.drifts_askWeirs w id write l).frame.2.1
  refine ⟨fun k => ?_, hdata ▸ h.host, hdata ▸ h.core, hdata ▸ h.scalar, (State.askWeirs_num _ _ _ _ _).trans h.num⟩
  rw [← h.bytes]
  exact congrArg (fun d => Data.byte d .dev k) hdata

/-! ## The update rules on one element (R233) -/

theorem updElem_of_skip {sc : StepScalars} (h : updSkip sc = true) (rule : Nat) (bf : Bool) (q : Param) (g : Nat) :
    updElem sc rule bf q g = (q, Flags.none, false) := if_pos h

/-- What an element's update can be: nothing, or the rule's. -/
theorem updElem_cases (sc : StepScalars) (rule : Nat) (bf : Bool) (q : Param) (g : Nat) :
    (updElem sc rule bf q g).1 = q ∨ ∃ gk fl, updElem sc rule bf q g = ((updRule sc rule bf q gk).1, fl, false) := by
  unfold updElem
  split
  · exact .inl rfl
  · dsimp only
    split
    · exact .inr ⟨_, _, rfl⟩
    · exact .inl rfl

theorem updRule_sgdm_v (sc : StepScalars) (bf : Bool) (q : Param) (gk : Num) : (updRule sc 1 bf q gk).1.v = q.v := rfl
theorem updRule_sgd_moments (sc : StepScalars) {rule : Nat} (h : 2 ≤ rule) (bf : Bool) (q : Param) (gk : Num) :
    (updRule sc rule bf q gk).1.m = q.m ∧ (updRule sc rule bf q gk).1.v = q.v := by
  obtain ⟨n, rfl⟩ := Nat.exists_eq_add_of_le' h
  exact ⟨rfl, rfl⟩

theorem updElem_nonfinite {sc : StepScalars} {rule : Nat} {bf : Bool} {q r : Param} {g : Nat} {fl : Flags} (h : updElem sc rule bf q g = (r, fl, true)) :
    r = q := by
  obtain hq | ⟨gk, fl', hrule⟩ := updElem_cases sc rule bf q g
  · rwa [h] at hq
  · rw [hrule] at h
    cases h
theorem updElem_sgd {rule : Nat} (h : 2 ≤ rule) (sc : StepScalars) (bf : Bool) (q : Param) (g : Nat) :
    (updElem sc rule bf q g).1.m = q.m ∧ (updElem sc rule bf q g).1.v = q.v := by
  obtain hq | ⟨gk, fl, hrule⟩ := updElem_cases sc rule bf q g
  · rw [hq]
    exact ⟨rfl, rfl⟩
  · rw [hrule]
    exact updRule_sgd_moments sc h bf q gk
theorem updElem_sgdm (sc : StepScalars) (bf : Bool) (q : Param) (g : Nat) : (updElem sc 1 bf q g).1.v = q.v := by
  obtain hq | ⟨gk, fl, hrule⟩ := updElem_cases sc 1 bf q g
  · rw [hq]
  · rw [hrule]
    exact updRule_sgdm_v sc bf q gk

/-! ## The issue of update and attention rows -/

/-- An array of an operation stands on an absent page (R312). -/
def State.updAbsent (s : State) (p op : Nat) (d : UpdDesc) : Bool :=
  (d.named op).any (fun x => (cut pageBytes x.1 x.2).any (fun y => s.access p y.1 = .absent))

theorem State.runUpd_absent {s : State} {c : Ctx} {op : Nat} {d : UpdDesc} (h : s.updAbsent c.p op d = true) :
    s.runUpd c op d = s.breach c.p c.point (BreachInfo.collision c.agent c.idx (resEngine (engOfAgent c.agent)) none) := if_pos h

/-- What an operation does before it joins the actions in flight. -/
theorem State.runUpd_served {s : State} {c : Ctx} {op : Nat} {d : UpdDesc} (h : s.updAbsent c.p op d = false) :
    ∃ u f, s.runUpd c op d = u.addFlight c.p f ∧ f.agent = c.agent ∧ f.action = c.idx ∧ f.held = d.resources op (engOfAgent c.agent) ∧ s.Works u ∧
      (op = 0x60 → (∀ x, d.g ≤ x → x < d.g + 6 * d.count → s.access c.p x = .ok) → d.g + 6 * d.count ≤ hostBase →
        (∀ f ∈ (s.part c.p).flights, f.opcode ≠ 0x70) → s.ZeroesDev d.g (6 * d.count) u) := by
  unfold State.runUpd
  extract_lets e work per t1 src
  rw [if_neg (by rw [Bool.not_eq_true]; exact h)]
  split
  next k t2 hk =>
  cases hk
  extract_lets w t3 t4
  have hstart : s.Works t1.draw.2 := ⟨rfl, rfl, rfl, rfl, fun _ => rfl⟩
  have hrun : t1.draw.2.Works t3 := by
    unfold t3
    split
    · exact (State.engages_runRclear _ w d).toWorks
    · exact State.works_runSumsq _ c w e d
    · exact (State.engages_runUpdate _ c w e d).toWorks
    · exact (State.engages_runDigest _ c w d).toWorks
  refine ⟨t4, _, rfl, rfl, rfl, rfl, (hstart.trans hrun).trans (State.engages_askWeirs _ _ _ _ _).toWorks, fun hop hok hhost hfree => ?_⟩
  subst hop
  refine State.zeroesDev_askWeirs ?_ _ _ _ _
  obtain ⟨hbytes, hhost', hcore, hscalar, hnum⟩ := State.zeroesDev_runRclear (s := t1.draw.2) (w := w) hok hhost hfree
  exact ⟨hbytes, hhost', hcore, hscalar, hnum⟩

section
variable {s u : State} {op p a : Nat} {c : Ctx} {b : List Byte} (hb : (u.part p).image.descOf c.bind c.r.arg 64 = some b)
include hb

/-- A row of the matrix family whose record passes its checks runs. -/
theorem State.issueMatrix_ok {valid : Bool} {named : List Nat} {run : State → State} (hi : Issues s u op p a c valid none named)
    {f : Ctx → List Byte → State → State} (hf : f c b u = u.issueAction c valid none named run) : s.issueMatrix op p a 64 f = run (u.issued c) := by
  obtain ⟨hdue, rfl, htoken, hgood, hfree, howned⟩ := hi
  rw [State.issueMatrix_desc f hdue hb, hf, State.issueAction_ok htoken hgood hfree howned]
  rfl

theorem State.issueUpdate_ok (hi : Issues s u op p a c (u.updValid p a op (UpdDesc.parse b)) none ((UpdDesc.parse b).resources op (engOfAgent a))) :
    s.issueUpdate op p a = (u.issued c).runUpd c op (UpdDesc.parse b) :=
  State.issueMatrix_ok (run := fun t => t.runUpd c op (UpdDesc.parse b)) hb hi rfl
theorem exec_attend_ok (hi : Issues s u 0x70 p a c (u.attValid p a (AttDesc.parse b)) none [resEngine (engOfAgent a)]) :
    exec (.attend p a) s = .next ((u.issued c).runAttend c (AttDesc.parse b)) :=
  congrArg Host.Outcome.next (State.issueMatrix_ok (run := fun t => t.runAttend c (AttDesc.parse b)) hb hi rfl)
theorem exec_merge_ok (hi : Issues s u 0x71 p a c (u.mergeValid p a (MergeDesc.parse b)) none [resEngine (engOfAgent a)]) :
    exec (.merge p a) s = .next ((u.issued c).runMerge c (MergeDesc.parse b)) :=
  congrArg Host.Outcome.next (State.issueMatrix_ok (run := fun t => t.runMerge c (MergeDesc.parse b)) hb hi rfl)

end

theorem State.engages_issued (u : State) (c : Ctx) : u.Engages (u.issued c) := by
  have hstep : u.Engages (u.step1 c) := u.engages_modPart c.p rfl
  unfold State.issued State.takeToken
  split
  · exact hstep
  · exact hstep.trans (State.engages_modPart _ _ rfl)

/-- Issue changes partitions only. -/
theorem State.issued_frame (u : State) (c : Ctx) : (u.issued c).data = u.data ∧ (u.issued c).num = u.num := by
  unfold State.issued State.takeToken State.step1
  split <;> simp

/-- What issue keeps of the state at the record's issue point, and of the one before it. -/
theorem State.issued_keeps {s u : State} {p : Nat} {c : Ctx} (hu : u = s.toCycle p c.point) : (u.issued c).data = s.data ∧ (u.issued c).lnk = s.lnk ∧
    (u.issued c).rst = s.rst ∧ (u.issued c).num = u.num ∧ ∀ q, ((u.issued c).part q).flights = (s.part q).flights := by
  subst hu
  have htime := s.drifts_toCycle p c.point
  obtain ⟨-, hdata, -⟩ := htime.frame
  obtain ⟨hsame, hnum⟩ := (s.toCycle p c.point).issued_frame c
  obtain ⟨⟨-, -, hlnk, hrst, hflights⟩, -⟩ := htime.engages.trans ((s.toCycle p c.point).engages_issued c)
  exact ⟨hsame.trans hdata, hlnk, hrst, hnum, hflights⟩

theorem exec_updateRows {op p a : Nat} {i : Instr} (h : (op, i) ∈ [(0x60, Instr.rclear p a), (0x61, .sumsq p a), (0x62, .update p a), (0x63, .digest p a)])
    (s : State) : exec i s = .next (s.issueUpdate op p a) := by
  simp only [List.mem_cons, Prod.mk.injEq, List.not_mem_nil, or_false] at h
  obtain ⟨rfl, rfl⟩ | ⟨rfl, rfl⟩ | ⟨rfl, rfl⟩ | ⟨rfl, rfl⟩ := h <;> rfl

/-- Accesses do not depend on the partitions' runs. -/
theorem State.modPart_access (s : State) (q : Nat) (f : Part → Part) (p a : Nat) : (s.modPart q f).access p a = s.access p a := rfl
theorem State.issued_access (u : State) (c : Ctx) (p a : Nat) : (u.issued c).access p a = u.access p a := by
  unfold State.issued State.takeToken State.step1
  split
  · rw [State.modPart_access]
  · rw [State.modPart_access, State.modPart_access]
theorem State.issued_updAbsent (u : State) (c : Ctx) (p op : Nat) (d : UpdDesc) : (u.issued c).updAbsent p op d = u.updAbsent p op d := by
  unfold State.updAbsent
  simp only [State.issued_access]

theorem UpdDesc.resources_eq (d : UpdDesc) (op e : Nat) :
    d.resources op e = if op = 0x61 then [resEngine e, resBank (d.aux / 2 ^ 32) (d.aux % 2 ^ 32 / 131072)] else [resEngine e] := by
  unfold UpdDesc.resources
  split <;> rfl

section
variable {s u : State} {op p a : Nat} {i : Instr} {c : Ctx} {b : List Byte}
  (hrow : (op, i) ∈ [(0x60, Instr.rclear p a), (0x61, .sumsq p a), (0x62, .update p a), (0x63, .digest p a)])
  (hb : (u.part p).image.descOf c.bind c.r.arg 64 = some b)
  (hi : Issues s u op p a c (u.updValid p a op (UpdDesc.parse b)) none ((UpdDesc.parse b).resources op (engOfAgent a)))
include hrow hb hi

/-- An update operation whose arrays are all present joins the actions in flight. -/
theorem updateRow_served (hserved : u.updAbsent p op (UpdDesc.parse b) = false) : ∃ t f, exec i s = .next t ∧
    t = (u.issued c).runUpd c op (UpdDesc.parse b) ∧ (t.part p).flights = (s.part p).flights ++ [f] ∧ f.agent = a ∧ f.action = c.idx ∧
    f.held = (UpdDesc.parse b).resources op (engOfAgent a) ∧ t.data.galley = s.data.galley ∧ t.lnk = s.lnk ∧ t.rst = s.rst := by
  obtain ⟨hp, hagent⟩ := issueCtx_owner hi.due
  obtain ⟨hdata, hlnk, hrst, -, hflights⟩ := State.issued_keeps hi.atPoint
  obtain ⟨v, f, hrun, hfa, hfr, hfh, hworks, -⟩ := State.runUpd_served (s := u.issued c) (c := c) (op := op) (d := UpdDesc.parse b)
    (by rw [State.issued_updAbsent, hp]; exact hserved)
  obtain ⟨hvdata, hvlnk, hvrst, hvflights⟩ := v.works_addFlight c.p f
  refine ⟨_, { f with forme := (v.part p).cur }, (exec_updateRows hrow s).trans (congrArg Host.Outcome.next (State.issueUpdate_ok hb hi)), rfl, ?_,
    hfa.trans hagent, hfr, by rw [← hagent]; exact hfh, ?_, ?_, ?_⟩
  · rw [hrun, ← hflights p, ← hworks.flights p, ← hp]
    exact hvflights
  · rw [hrun, hvdata, hworks.galley, hdata]
  · rw [hrun, hvlnk, hworks.lnk, hlnk]
  · rw [hrun, hvrst, hworks.rst, hrst]

/-- One that names an array on an absent page is a breach (R312). -/
theorem updateRow_absent (habsent : u.updAbsent p op (UpdDesc.parse b) = true) : ∃ t, exec i s = .next t ∧ t.data = s.data ∧
    (t.part p).flights = (s.part p).flights ∧ Cause.breach ∈ (t.part p).causes := by
  obtain ⟨hp, -⟩ := issueCtx_owner hi.due
  obtain ⟨hdata, -, -, -, hflights⟩ := State.issued_keeps hi.atPoint
  have hrun := State.runUpd_absent (s := u.issued c) (c := c) (op := op) (d := UpdDesc.parse b) (by rw [State.issued_updAbsent, hp]; exact habsent)
  refine ⟨_, (exec_updateRows hrow s).trans (congrArg Host.Outcome.next ((State.issueUpdate_ok hb hi).trans hrun)), ?_, ?_, ?_⟩
  · rw [State.breach_data, hdata]
  · rw [← hflights p, (State.drifts_breach _ _ _ _).engages.flights]
  · rw [← hp, State.part_breach]
    exact Part.addCause_mem _ _ _

end

/-- A span in the partition has no absent page. -/
theorem State.updAbsent_rclear {u : State} {p : Nat} {d : UpdDesc} (hok : ∀ x, d.g ≤ x → x < d.g + 6 * d.count → u.access p x = .ok) :
    u.updAbsent p 0x60 d = false := by
  have hnamed : d.named 0x60 = [(d.g, 6 * d.count)] := rfl
  unfold State.updAbsent
  rw [hnamed]
  simp only [List.any_cons, List.any_nil, Bool.or_false, List.any_eq_false, decide_eq_true_eq]
  intro y hy
  obtain ⟨hlo, hhi⟩ := mem_cut (by decide) hy
  rw [hok _ hlo hhi]
  decide

/-- Settles O33: every row past its checks runs its operation, whose accesses keep what is not its own; RCLEAR writes its span piece by piece. -/
theorem updateAndAttentionRun : Obligations.UpdateAndAttentionRun := by
  unfold Obligations.UpdateAndAttentionRun
  refine ⟨⟨?_, fun s u p a c b hb hi => ?_, fun s u p a c b hb hi => ?_⟩, ?_, fun sc rule bf q g => ?_⟩
  · intro s u op p a i c b hrow d hb hi
    exact ⟨updateRow_served hrow hb hi, updateRow_absent hrow hb hi, d.resources_eq op (engOfAgent a)⟩
  · obtain ⟨hdata, -⟩ := State.issued_keeps hi.atPoint
    obtain ⟨hcore, hsram, hgalley⟩ := State.runAttend_data (u.issued c) c (AttDesc.parse b)
    rw [hdata] at hcore hsram hgalley
    exact ⟨_, exec_attend_ok hb hi, rfl, hcore, hsram, hgalley⟩
  · obtain ⟨hp, hagent⟩ := issueCtx_owner hi.due
    obtain ⟨hdata, -, -, -, hflights⟩ := State.issued_keeps hi.atPoint
    obtain ⟨v, f, hrun, hfa, hengages⟩ := State.runMerge_works (u.issued c) c (MergeDesc.parse b)
    obtain ⟨hvdata, -, -, hvflights⟩ := v.works_addFlight c.p f
    refine ⟨_, { f with forme := (v.part p).cur }, exec_merge_ok hb hi, rfl, ?_, ?_, ?_, ?_, hfa.trans hagent⟩
    · rw [hrun, hvdata, hengages.core, hdata]
    · rw [hrun, hvdata, hengages.sram, hdata]
    · rw [hrun, hvdata, hengages.galley, hdata]
    · rw [hrun, ← hflights p, ← hengages.flights p, ← hp]
      exact hvflights
  · intro s u p a c b d hb hi hok hhost hfree
    obtain ⟨hp, -⟩ := issueCtx_owner hi.due
    obtain ⟨hdata, -, -, hnum, hflights⟩ := State.issued_keeps hi.atPoint
    obtain ⟨v, f, hrun, -, -, -, -, hzero⟩ := State.runUpd_served (s := u.issued c) (c := c) (op := 0x60) (d := d)
      (by rw [State.issued_updAbsent, hp]; exact State.updAbsent_rclear hok)
    obtain ⟨hbytes, hvhost, hcore, hscalar, hvnum⟩ := hzero rfl (fun x hlo hhi => by rw [State.issued_access, hp]; exact hok x hlo hhi) hhost
      (fun f hf => hfree f (by rw [← hflights, ← hp]; exact hf))
    obtain ⟨hvdata, -⟩ := v.works_addFlight c.p f
    have hbyte (k : Nat) : (u.issued c).devByte k = s.devByte k := congrArg (fun d => Data.byte d .dev k) hdata
    refine ⟨_, congrArg Host.Outcome.next ((State.issueUpdate_ok (op := 0x60) hb hi).trans hrun), fun k => ?_, ?_, ?_, ?_, hvnum.trans hnum⟩
    · rw [← hbyte]
      exact (congrArg (fun d => Data.byte d .dev k) hvdata).trans (hbytes k)
    · rw [hvdata, hvhost, hdata]
    · rw [hvdata, hcore, hdata]
    · rw [hvdata, hscalar, hdata]
  · refine ⟨fun hskip => updElem_of_skip hskip rule bf q g, fun r fl h => updElem_nonfinite h, fun hrule => updElem_sgd hrule sc bf q g, fun hrule => ?_⟩
    subst hrule
    exact updElem_sgdm sc bf q g

end Sys2Proof.Machine
end

section
/-! What the moves of the streams keep: freezes go forward only, and every record stays in its partition, restarted or not (R341, R352). -/
namespace Sys2Proof.Machine

open Sys2Proof

/-- Freezes go forward; every stream record keeps its partition and whether CONTINUE has restarted it. -/
structure State.Moves (s t : State) : Prop where
  frz : ∀ q, (s.part q).frz.Goes (t.part q).frz
  thawing : ∀ e, (t.srec e).thawing = (s.srec e).thawing
  partition : ∀ e, (t.srec e).partition = (s.srec e).partition

namespace State.Moves

theorem refl (s : State) : s.Moves s := ⟨fun _ => .refl _, fun _ => rfl, fun _ => rfl⟩
theorem trans {s t u : State} (h : s.Moves t) (h' : t.Moves u) : s.Moves u :=
  ⟨fun q => (h.frz q).trans (h'.frz q), fun e => (h'.thawing e).trans (h.thawing e), fun e => (h'.partition e).trans (h.partition e)⟩

/-- A change of neither partitions nor stream records. -/
theorem of_eq {s t : State} (hparts : t.parts = s.parts) (hrecs : t.se.recs = s.se.recs) : s.Moves t := by
  refine ⟨fun q => ?_, fun e => ?_, fun e => ?_⟩
  · unfold State.part
    rw [hparts]
    exact .refl _
  · unfold State.srec
    rw [hrecs]
  · unfold State.srec
    rw [hrecs]

/-- The state that a result of three parts leaves, where the result is known. -/
theorem result {α β : Type} {s t u : State} {x : α × β × State} {a : α} {b : β} (h : s.Moves t) (hx : t.Moves x.2.2) (he : x = (a, b, u)) : s.Moves u := by
  rw [he] at hx
  exact h.trans hx

end State.Moves

theorem State.Flows.moves {s t : State} (h : s.Flows t) (hse : t.se = s.se) : s.Moves t :=
  ⟨h.frz, fun e => by unfold State.srec; rw [hse], fun e => by unfold State.srec; rw [hse]⟩
theorem State.Stores.moves {s t : State} (h : s.Stores t) : s.Moves t := by
  obtain ⟨_, _, _, _, rfl⟩ := h
  exact .of_eq rfl rfl
theorem State.moves_breach (s : State) (p cyc : Nat) (b : BreachInfo) : s.Moves (s.breach p cyc b) := by
  obtain ⟨-, -, -, -, -, -, -, -, hse, -⟩ := (s.drifts_breach p cyc b).frame
  exact (s.flows_breach p cyc b).moves hse
theorem State.moves_freeze (s : State) (p : Nat) (c : Cause) (cyc : Nat) : s.Moves (s.freeze p c cyc) := (s.flows_freeze p c cyc).moves rfl
theorem State.moves_post (s : State) (ty : Nat) (p : Option Nat) (src aux det : Nat) : s.Moves (s.post ty p src aux det) := by
  obtain ⟨_, h⟩ := s.post_frame ty p src aux det
  rw [h]
  exact .of_eq rfl rfl

theorem State.moves_accessKept : AccessKept State.Moves :=
  ⟨.refl, .trans, State.moves_breach, fun s a r => (s.stores_devWrite a r).moves⟩

theorem State.moves_modPart (s : State) (p : Nat) {f : Part → Part} (h : (f (s.part p)).frz = (s.part p).frz) : s.Moves (s.modPart p f) :=
  (s.flows_modPart p (.inl h)).moves rfl
theorem State.moves_setRec (s : State) (e : Nat) {r : StreamRec} (hthawing : r.thawing = (s.srec e).thawing) (hpart : r.partition = (s.srec e).partition) :
    s.Moves (s.setRec e r) := by
  refine ⟨fun q => .refl _, fun d => ?_, fun d => ?_⟩
  · rw [State.setRec_srec]
    split
    · next h => rw [hthawing, h]
    · rfl
  · rw [State.setRec_srec]
    split
    · next h => rw [hpart, h]
    · rfl
theorem State.moves_refreshWaits (s : State) (e : Nat) : s.Moves (s.refreshWaits e) := by
  refine ⟨fun q => .refl _, fun d => ?_, fun d => ?_⟩
  · rw [State.srec_refreshWaits]
    unfold StreamRec.refreshed
    split <;> rfl
  · rw [State.srec_refreshWaits]
    unfold StreamRec.refreshed
    split <;> rfl

/-! ## Requests, paths and pages -/

theorem State.moves_askTokens (s : State) (w : Who) (qmax : Nat) (write : Bool) (us : List (Nat × Nat)) : s.Moves (s.askTokens w qmax write us) := by
  have hse : ∀ k rs, (s.offerNow k rs).se = s.se := fun k rs => by
    obtain ⟨-, -, -, -, -, -, -, -, hse, -⟩ := (s.drifts_offerNow k rs).frame
    exact hse
  exact (s.flows_offerNow _ _).moves (hse _ _)
theorem State.moves_askSides (s : State) (w : Who) (d : StreamDesc) (src dst : Opnd) (q0 q1 : Nat) : s.Moves (s.askSides w d src dst q0 q1) := by
  unfold State.askSides
  extract_lets side
  have hside (t : State) (isDst : Bool) (o : Opnd) : t.Moves (side t isDst o) := by
    unfold side
    split
    · exact t.moves_askTokens _ _ _ _
    · exact .refl t
  exact (hside _ _ _).trans (hside _ _ _)
theorem State.moves_sendFields (s : State) (w : Who) (d : StreamDesc) (src dst : Opnd) (q0 q1 : Nat) : s.Moves (s.sendFields w d src dst q0 q1) := by
  unfold State.sendFields
  extract_lets side
  have hside (t : State) (toQuad : Bool) (o : Opnd) : t.Moves (side t toQuad o) := by
    unfold side
    split
    · unfold State.sendDirect
      split
      · exact .refl t
      · exact .of_eq rfl rfl
    · exact .refl t
  exact (hside _ _ _).trans (hside _ _ _)
theorem State.moves_takePage {s t : State} {e : CacheEng} {pg : Nat} (h : s.takePage e = some (pg, t)) : s.Moves t := by
  unfold State.takePage at h
  split at h
  · cases h
  · cases h
    exact (s.stores_fwWrite _ _ _).moves

/-! ## One move of bytes -/

theorem State.moves_storeReadGo (w : Who) (die inst : Nat) (l : List (Nat × Nat)) : ∀ s : State, s.Moves (State.storeReadGo w die inst l s).2 := by
  induction l with
  | nil => exact .refl
  | cons x l ih =>
    intro s
    unfold State.storeReadGo
    split
    · exact ih s
    · exact (s.moves_breach _ _ _).trans (ih _)
theorem State.moves_opndRead (s : State) (w : Who) (o : Opnd) (off n : Nat) : s.Moves (s.opndRead w o off n).2.2 := by
  unfold State.opndRead
  split
  · exact .refl s
  · exact State.moves_accessKept.agentRead s w _ _
  · exact State.moves_storeReadGo w _ _ _ s
  · exact .refl s
  · exact .refl s
  · exact .refl s
theorem State.moves_opndWrite (s : State) (w : Who) (o : Opnd) (off : Nat) (r : Run) : s.Moves (s.opndWrite w o off r).2.2 := by
  unfold State.opndWrite
  split
  · exact .of_eq rfl rfl
  · exact State.moves_accessKept.agentWrite s w _ _
  · exact .of_eq rfl rfl
  · exact .of_eq rfl rfl
  · exact .of_eq rfl rfl
  · exact .of_eq rfl rfl
  · exact .of_eq rfl rfl
  · exact .refl s

theorem State.moves_tokenPlace (s : State) (c : CacheSet) (slot layer x : Nat) : s.Moves (s.tokenPlace c slot layer x).2.2 := by
  unfold State.tokenPlace
  extract_lets j i e ea w
  split
  · split
    · exact .refl s
    · exact .refl s
  · split
    · exact .refl s
    · next h => exact (State.moves_takePage h).trans (State.stores_fwWrite _ _ _ _).moves
theorem State.moves_appendGo (w : Who) (qmax : Nat) (c : CacheSet) (layer slot len tokens : Nat) (fuel : Nat) :
    ∀ (o : Nat) (r : Run) (s : State), s.Moves (State.appendGo w qmax c layer slot len tokens fuel o r s).2.2 := by
  induction fuel with
  | zero => exact fun _ _ => .refl
  | succ fuel ih =>
    intro o r s
    unfold State.appendGo
    split
    · exact .refl s
    · split
      · next a t h => 
        have hplace := (State.Moves.refl s).result (s.moves_tokenPlace _ _ _ _) h
        exact ((hplace.trans (State.moves_accessKept.agentWrite t w _ _)).trans (State.moves_askTokens _ _ _ _ _)).trans (ih _ _ _)
      · next h => exact (State.Moves.refl s).result (s.moves_tokenPlace _ _ _ _) h
theorem State.moves_appendRow (s : State) (w : Who) (qmax cs layer bucket tokens row o : Nat) (r : Run) :
    s.Moves (s.appendRow w qmax cs layer bucket tokens row o r).2.2 := by
  unfold State.appendRow
  extract_lets c slot e
  split
  · exact .refl s
  · split
    next k m t h =>
    have hgo := (State.Moves.refl s).result (State.moves_appendGo w qmax c layer slot e.length tokens _ _ _ s) h
    dsimp only
    split
    · exact hgo.trans (State.stores_putSeq _ _ _ _).moves
    · exact hgo

theorem State.moves_moveLinear (w : Who) (d : StreamDesc) (src dst : Opnd) (fuel : Nat) :
    ∀ (q n : Nat) (s : State), s.Moves (State.moveLinear w d src dst fuel q n s).2.2 := by
  induction fuel with
  | zero => exact fun _ _ => .refl
  | succ fuel ih =>
    intro q n s
    unfold State.moveLinear
    split
    · exact .refl s
    · extract_lets row o m
      split
      next r rm t1 h1 =>
      have hread : s.Moves t1 := by
        split at h1
        · cases h1
          exact .refl s
        · exact (State.Moves.refl s).result (s.moves_opndRead _ _ _ _) h1
      split
      next k wm t2 h2 =>
      have hwrite : t1.Moves t2 := by
        split at h2
        · exact (State.Moves.refl t1).result (t1.moves_appendRow _ _ _ _ _ _ _ _ _) h2
        · exact (State.Moves.refl t1).result (t1.moves_opndWrite _ _ _ _) h2
      extract_lets se t3
      have hpipe : t2.Moves t3 := by
        unfold t3
        split
        · exact .of_eq rfl rfl
        · exact .refl t2
      have hmoved := (hread.trans hwrite).trans hpipe
      clear_value t3
      split
      · exact hmoved
      · split
        · exact hmoved
        · split
          · exact hmoved
          · split
            next h => exact hmoved.result (ih _ _ t3) h

theorem State.moves_blockRead (w : Who) (d : StreamDesc) (src : Opnd) (b : Block) (l : List Nat) :
    ∀ s : State, s.Moves (State.blockRead w d src b l s).2.2 := by
  induction l with
  | nil => exact .refl
  | cons i l ih =>
    intro s
    unfold State.blockRead
    split
    · next t h =>
      have hread := (State.Moves.refl s).result (s.moves_opndRead _ _ _ _) h
      split
      next h' => exact hread.result (ih t) h'
    · next h => exact (State.Moves.refl s).result (s.moves_opndRead _ _ _ _) h
theorem State.moves_blockWrite (w : Who) (d : StreamDesc) (dst : Opnd) (b : Block) (rs : List Run) (l : List Nat) :
    ∀ s : State, s.Moves (State.blockWrite w d dst b rs l s).2.2 := by
  induction l with
  | nil => exact .refl
  | cons j l ih =>
    intro s
    unfold State.blockWrite
    split
    · next t h =>
      have hwrite := (State.Moves.refl s).result (s.moves_opndWrite _ _ _ _) h
      split
      next h' => exact hwrite.result (ih t) h'
    · next h => exact (State.Moves.refl s).result (s.moves_opndWrite _ _ _ _) h
theorem State.moves_moveTransposed (w : Who) (d : StreamDesc) (src dst : Opnd) (fuel : Nat) :
    ∀ (q : Nat) (s : State), s.Moves (State.moveTransposed w d src dst fuel q s).2.2 := by
  induction fuel with
  | zero => exact fun _ => .refl
  | succ fuel ih =>
    intro q s
    unfold State.moveTransposed
    split
    · exact .refl s
    · extract_lets b
      split
      · next t h =>
        have hread := (State.Moves.refl s).result (State.moves_blockRead w d src b _ s) h
        split
        · next h' => exact (hread.result (State.moves_blockWrite w d dst b _ _ t) h').trans (ih _ _)
        · next h' => exact hread.result (State.moves_blockWrite w d dst b _ _ t) h'
      · next h => exact (State.Moves.refl s).result (State.moves_blockRead w d src b _ s) h

/-! ## Halts and waits -/

theorem State.moves_postWanted (s : State) (p : Nat) : s.Moves (s.postWanted p) := by
  unfold State.postWanted
  split
  · extract_lets ws grace t
    have hposts : s.Moves t := State.moves_accessKept.foldl (fun s w => s.moves_post _ _ _ _ _) ws s
    clear_value t
    exact hposts.trans (t.moves_modPart p rfl)
  · exact .refl s
theorem State.moves_haltWaiting (s : State) (e : Nat) (space : Bool) (d : StreamDesc) (src : Opnd) : s.Moves (s.haltWaiting e space d src) :=
  s.moves_setRec e rfl rfl
theorem State.moves_haltWaiter (s : State) (e : Nat) : s.Moves (s.haltWaiter e) := by
  unfold State.haltWaiter
  split
  · split
    exact s.moves_haltWaiting _ _ _ _
  · exact .refl s
theorem State.moves_pipeWait (s : State) (e other : Nat) (space : Bool) (d : StreamDesc) (src : Opnd) : s.Moves (s.pipeWait e other space d src) := by
  unfold State.pipeWait
  extract_lets r act t
  have hwait : s.Moves t := s.moves_setRec e rfl rfl
  clear_value t
  split
  · exact hwait.trans (t.moves_haltWaiting _ _ _ _)
  · exact hwait

theorem State.moves_haltStream (s : State) (e : Nat) (d : StreamDesc) (src dst : Opnd) (m : Moved) (cyc : Nat) : s.Moves (s.haltStream e d src dst m cyc) := by
  unfold State.haltStream
  extract_lets r unit p halt
  have hhalt (c : Cause) (cause detail cnt map : Nat) (w : Want) : s.Moves (halt (s.freeze p c cyc) cause detail cnt map w) := by
    refine (s.moves_freeze p c cyc).trans (.trans ?_ (State.moves_postWanted _ p))
    refine .trans ?_ (State.moves_modPart _ p rfl)
    exact State.moves_setRec _ e rfl rfl
  split
  · exact hhalt _ _ _ _ _ _
  · exact hhalt _ _ _ _ _ _
  · exact .refl s

theorem Part.settleFill_frz (x : Part) (cyc : Nat) : (x.settleFill cyc).frz = x.frz := by
  obtain ⟨_, _, _, _, _, _, h⟩ := x.settleFill_frame cyc
  rw [h]

theorem State.moves_dropFlight (s : State) (p : Nat) (f : Flight) : s.Moves (s.dropFlight p f) := by
  unfold State.dropFlight
  extract_lets t
  have hdrop : s.Moves t := s.moves_modPart p (Part.settleFill_frz _ _)
  clear_value t
  split
  · refine hdrop.trans (.trans (t := t.clearPipe (agNum f.agent)) ?_ (State.moves_refreshWaits _ _))
    exact .of_eq rfl rfl
  · exact hdrop

/-! ## The moves of a stream -/

/-- A stream whose action a breach stops for good. -/
theorem State.moves_parked (s : State) (e p cyc : Nat) (b : BreachInfo) (f : Flight) :
    s.Moves (((s.breach p cyc b).setRec e { (s.breach p cyc b).srec e with state := 0 }).dropFlight p f) := by
  refine (s.moves_breach p cyc b).trans (.trans ?_ (State.moves_dropFlight _ p f))
  exact State.moves_setRec _ e rfl rfl

/-- A pipe that refuses an engine: a breach, once for each action there (R341). -/
theorem State.moves_refused (s : State) (e p cyc x : Nat) (b : BreachInfo) : s.Moves ((s.breach p cyc b).setRec e { s.srec e with refused := x }) := by
  have hbreach := s.moves_breach p cyc b
  refine hbreach.trans ?_
  exact State.moves_setRec _ e (hbreach.thawing e).symm (hbreach.partition e).symm

/-- The position that a move has reached, and the requests for its bytes. -/
theorem State.moves_reached (s : State) (e pos q : Nat) (w : Who) (d : StreamDesc) (src dst : Opnd) :
    let t := s.setRec e { s.srec e with position := pos, waiting := false, block := 0, blockAction := 0xFFFF }
    s.Moves ((t.askSides w d src dst q pos).sendFields w d src dst q pos) := by
  intro t
  have hrec : s.Moves t := s.moves_setRec e rfl rfl
  clear_value t
  exact (hrec.trans (t.moves_askSides _ _ _ _ _ _)).trans (State.moves_sendFields _ _ _ _ _ _ _)

theorem State.moves_moveStream (s : State) (e cyc : Nat) : s.Moves (s.moveStream e cyc).2 := by
  unfold State.moveStream
  extract_lets r w
  split
  · exact .refl s
  next f _ =>
  split
  next d src dst hopnds =>
  extract_lets avail space pipeOther o act t
  have hrefused : s.Moves t := by
    unfold t
    split
    · exact .refl s
    · exact s.moves_refused e _ _ _ _
  clear_value t space avail pipeOther o
  split
  · exact .refl s
  split
  · exact .refl s
  split
  · exact hrefused.trans (t.moves_pipeWait _ _ _ _ _)
  · exact s.moves_pipeWait _ _ _ _ _
  split
  · exact s.moves_pipeWait _ _ _ _ _
  split
  next pos m u h =>
  have hmove : s.Moves u := by
    split at h
    · exact (State.Moves.refl s).result (State.moves_moveTransposed w d src dst _ _ s) h
    · split at h
      next h' =>
      cases h
      exact (State.Moves.refl s).result (State.moves_moveLinear w d src dst _ _ _ s) h'
  extract_lets old v x
  have hmoved : s.Moves x := hmove.trans (u.moves_reached e pos r.position w d src dst)
  clear_value x
  split
  · split
    · exact hmoved.trans (x.moves_pipeWait _ _ _ _ _)
    · exact hmoved
  · exact hmoved.trans (x.moves_parked e _ cyc _ f)
  · exact hmoved.trans (x.moves_haltStream _ _ _ _ _ _)

theorem State.moves_pump (cyc fuel : Nat) : ∀ (l : List Nat) (s : State), s.Moves (State.pump cyc fuel l s) := by
  induction fuel with
  | zero => exact fun l s => .refl s
  | succ fuel ih =>
    intro l s
    cases l with
    | nil => exact .refl s
    | cons e l =>
      unfold State.pump
      split
      next moved t h =>
      have hmove := s.moves_moveStream e cyc
      rw [h] at hmove
      exact hmove.trans (ih _ t)

/-! ## PARK and UNPARK -/

theorem State.moves_movePage (s : State) (e cyc : Nat) (src dst : Opnd) : s.Moves (s.movePage e cyc src dst).2 := by
  unfold State.movePage
  extract_lets r d w
  split
  next k m t h =>
  have hmove := (State.Moves.refl s).result (State.moves_moveLinear w d src dst _ _ _ s) h
  have hrec : t.Moves (t.setRec e { t.srec e with position := r.position + k }) := t.moves_setRec e rfl rfl
  exact (hmove.trans hrec).trans (State.moves_askSides _ _ _ _ _ _ _)

theorem State.moves_runPark (s : State) (e cyc cs slot layer index board : Nat) (f : Flight) :
    s.Moves (s.runPark e cyc cs slot layer index board f) := by
  unfold State.runPark
  extract_lets r c
  split
  next i ea _ =>
  extract_lets wd
  split
  · exact s.moves_parked e _ cyc _ f
  · have hmove := s.moves_movePage e cyc (.dev (pteAddr wd)) (.dev board)
    split
    · next t h =>
      rw [h] at hmove
      exact hmove.trans ((t.stores_fwWrite _ _ _).trans (State.stores_givePage _ _ _ _)).moves
    · next h =>
      rw [h] at hmove
      exact hmove.trans (State.moves_haltStream _ _ _ _ _ _ _)

theorem State.moves_runUnpark (s : State) (e cyc cs slot layer index : Nat) (f : Flight) : s.Moves (s.runUnpark e cyc cs slot layer index f) := by
  unfold State.runUnpark
  extract_lets r c
  split
  next i ea _ =>
  extract_lets wd old d board
  split
  · exact s.moves_parked e _ cyc _ f
  · split
    · exact s.moves_haltStream _ _ _ _ _ _
    · split
      · exact s.moves_haltStream _ _ _ _ _ _
      · next pg t ht =>
        have hmove := t.moves_movePage e cyc board (.dev (pteAddr pg))
        split
        next h =>
        rw [h] at hmove
        exact ((State.moves_takePage ht).trans hmove).trans (State.stores_fwWrite _ _ _ _).moves

/-- An engine's action that runs from its record's position: streams move, then the partition stops again where a restarted one has halted. -/
theorem State.runStream_cases (s : State) (e cyc : Nat) :
    s.runStream e cyc = s ∨ ∃ u, s.Moves u ∧ s.runStream e cyc = u.stopAgain (s.srec e).partition := by
  unfold State.runStream
  extract_lets r
  split
  · exact .inl rfl
  · split
    refine .inr ⟨_, ?_, rfl⟩
    split
    · exact s.moves_runPark _ _ _ _ _ _ _ _
    · exact s.moves_runUnpark _ _ _ _ _ _ _
    · exact State.moves_pump _ _ _ s

end Sys2Proof.Machine
end

section
/-! The stop of a partition, a restarted stream that halts again, and the thaw (R82 to R87, R352, R353). -/
namespace Sys2Proof.Machine

open Sys2Proof

/-! ## A partition that stops again (R353) -/

/-- A restarted stream of a partition has halted before its due position. -/
def State.haltsShort (s : State) (p : Nat) : Bool :=
  (s.streamsOf p).any (fun e => let r := s.srec e; r.state == 2 && r.thawing && decide (r.position < r.dueAt))

/-- No stream of a list is a restarted one any more. -/
def State.unthawed (s : State) (l : List Nat) : State := l.foldl (fun s e => s.setRec e { s.srec e with thawing := false }) s

theorem State.srec_unthawed (s : State) (l : List Nat) (e : Nat) :
    (s.unthawed l).srec e = if e ∈ l then { s.srec e with thawing := false } else s.srec e :=
  srec_foldl (R := fun _ => True) (g := fun _ r => { r with thawing := false }) (fun _ _ _ => trivial)
    (fun t d _ e => by
      rw [State.setRec_srec]
      by_cases hed : e = d
      · subst hed; rfl
      · rw [if_neg hed, if_neg hed])
    (fun _ _ => rfl) l e s trivial
theorem State.records_unthawed (s : State) (l : List Nat) : s.Records (s.unthawed l) := .foldl (fun s _ => s.records_setRec _ _) l s

/-- The partition stands at its boundary once more, its streams no longer restarted. -/
def State.thawDropped (s : State) (p b : Nat) : State := (s.modPart p (fun x => { x with frz := .stopped b })).unthawed (s.streamsOf p)
/-- Then the events of its halts are posted, and the streams that wait halt. -/
def State.stoppedAgain (s : State) (p b : Nat) : State := ((s.thawDropped p b).postWanted p).haltWaiters p

theorem State.stopAgain_thawing {s : State} {p b : Nat} (h : (s.part p).frz = .thawing b) :
    s.stopAgain p = if s.haltsShort p then s.stoppedAgain p b else s := by
  unfold State.stopAgain
  rw [h]
  rfl

theorem State.moves_haltWaiters (s : State) (p : Nat) : s.Moves (s.haltWaiters p) := State.moves_accessKept.foldl State.moves_haltWaiter _ s

theorem State.moves_stoppedAgain (s : State) (p b : Nat) : (s.thawDropped p b).Moves (s.stoppedAgain p b) :=
  (State.moves_postWanted _ p).trans (State.moves_haltWaiters _ p)

theorem State.part_thawDropped (s : State) (p b : Nat) : (s.thawDropped p b).part p = { s.part p with frz := .stopped b } := by
  obtain ⟨_, h⟩ := State.records_unthawed (s.modPart p (fun x => { x with frz := .stopped b })) (s.streamsOf p)
  unfold State.thawDropped
  rw [h]
  exact s.part_modPart p (fun x => { x with frz := .stopped b })
theorem State.stoppedAgain_frz (s : State) (p b : Nat) : ((s.stoppedAgain p b).part p).frz = .stopped b := by
  have hset : ((s.thawDropped p b).part p).frz = .stopped b := by rw [s.part_thawDropped p b]
  rw [((s.moves_stoppedAgain p b).frz p).eq (by rw [hset]; rfl), hset]
theorem State.stoppedAgain_thawing (s : State) {p e : Nat} (b : Nat) (h : e ∈ s.streamsOf p) : ((s.stoppedAgain p b).srec e).thawing = false := by
  rw [(s.moves_stoppedAgain p b).thawing]
  unfold State.thawDropped
  rw [State.srec_unthawed, if_pos h]

/-- A restarted stream has a record in its partition. -/
theorem State.mem_streamsOf_thawing {s : State} {e : Nat} (h : (s.srec e).thawing = true) : e ∈ s.streamsOf (s.srec e).partition := by
  have hlisted := State.srec_listed (s := s) (e := e) fun hzero => by rw [hzero] at h; cases h
  exact State.mem_streamsOf.mpr ⟨_, tget_mem StreamRec.zero hlisted, rfl⟩

theorem StreamRec.reached_false {r : StreamRec} : r.reached = false ↔ r.thawing = true ∧ r.state ≠ 0 ∧ r.position < r.dueAt := by
  simp [StreamRec.reached, and_assoc]

/-- A restarted stream of a thawing partition. -/
structure State.Thawing (s : State) (e p b : Nat) : Prop where
  frz : (s.part p).frz = .thawing b
  partition : (s.srec e).partition = p
  thawing : (s.srec e).thawing = true

namespace State.Thawing
variable {s : State} {e p b : Nat} (h : s.Thawing e p b)
include h

theorem moves {t : State} (hm : s.Moves t) : t.Thawing e p b :=
  ⟨((hm.frz p).eq (by rw [h.frz]; rfl)).trans h.frz, (hm.partition e).trans h.partition, (hm.thawing e).trans h.thawing⟩

/-- After `State.stopAgain` its partition has stopped, or nothing has changed and it has not halted short of its due position. -/
theorem stopAgain : (((s.stopAgain p).part p).frz = .stopped b ∧ ((s.stopAgain p).srec e).thawing = false) ∨
    (s.stopAgain p = s ∧ ¬ ((s.srec e).state = 2 ∧ (s.srec e).position < (s.srec e).dueAt)) := by
  have hmem : e ∈ s.streamsOf p := h.partition ▸ State.mem_streamsOf_thawing h.thawing
  rw [State.stopAgain_thawing h.frz]
  by_cases hshort : s.haltsShort p = true
  · rw [if_pos hshort]
    exact .inl ⟨s.stoppedAgain_frz p b, s.stoppedAgain_thawing b hmem⟩
  · rw [if_neg hshort]
    refine .inr ⟨rfl, fun ⟨hstate, hpos⟩ => hshort (List.any_eq_true.mpr ⟨e, hmem, ?_⟩)⟩
    simp [hstate, h.thawing, hpos]

/-- After its moves its partition has stopped, or it is a restarted stream of a thawing partition as before. -/
theorem runStream (cyc : Nat) : (((s.runStream e cyc).part p).frz = .stopped b ∧ ((s.runStream e cyc).srec e).thawing = false) ∨
    (s.runStream e cyc).Thawing e p b := by
  obtain hsame | ⟨u, hu, hrun⟩ := s.runStream_cases e cyc
  · rw [hsame]
    exact .inr h
  · rw [hrun, h.partition]
    obtain hstop | ⟨hkeep, -⟩ := (h.moves hu).stopAgain
    · exact .inl hstop
    · rw [hkeep]
      exact .inr (h.moves hu)

/-- And where it halts short of its due position by its moves, its partition has stopped. -/
theorem runStream_short (cyc : Nat) (hstate : (s.srec e).state = 1) (hhalt : ((s.runStream e cyc).srec e).state = 2)
    (hshort : ((s.runStream e cyc).srec e).position < ((s.runStream e cyc).srec e).dueAt) : ((s.runStream e cyc).part p).frz = .stopped b := by
  obtain hsame | ⟨u, hu, hrun⟩ := s.runStream_cases e cyc
  · rw [hsame, hstate] at hhalt
    cases hhalt
  · rw [hrun, h.partition] at hhalt hshort ⊢
    obtain ⟨hstop, -⟩ | ⟨hkeep, hnot⟩ := (h.moves hu).stopAgain
    · exact hstop
    · rw [hkeep] at hhalt hshort
      exact absurd ⟨hhalt, hshort⟩ hnot

/-- STREAM_DUE_REACHED where it runs the stream. -/
theorem exec (hstate : (s.srec e).state = 1) (hreached : (s.srec e).reached = false) :
    Sys2Proof.Machine.exec (.streamDueReached e) s = .next (if ((s.runStream e (s.part p).cycle).srec e).reached then s.runStream e (s.part p).cycle
      else ((s.runStream e (s.part p).cycle).haltWaiter e).stopAgain p) := by
  obtain ⟨hfrz, rfl, -⟩ := h
  refine congrArg Host.Outcome.next ?_
  dsimp only
  rw [hfrz]
  dsimp only
  rw [hstate, hreached]
  rfl

end State.Thawing

end Sys2Proof.Machine
end

section
/-! The freeze boundary, FROZEN and the thaw of a partition (R82 to R84, R87, R91, R379). -/
namespace Sys2Proof.Machine

open Sys2Proof

/-! ## The stream records and events of a stop -/

theorem State.records_haltWaiter (s : State) (e : Nat) : s.Records (s.haltWaiter e) := by
  unfold State.haltWaiter
  split
  · split
    exact s.records_setRec _ _
  · exact .refl s
theorem State.records_haltWaiters (s : State) (p : Nat) : s.Records (s.haltWaiters p) := .foldl State.records_haltWaiter _ s
theorem State.records_settleDue (s : State) (p : Nat) : s.Records (s.settleDue p) := by
  refine .foldl (fun s e => ?_) _ s
  dsimp only
  split
  · exact s.records_setRec _ _
  · exact .refl s

theorem State.posts_frame {α : Type} (f : α → Nat × Nat × Nat × Nat) (p : Nat) (l : List α) (s : State) :
    ∃ es, l.foldl (fun s w => s.post (f w).1 (some p) (f w).2.1 (f w).2.2.1 (f w).2.2.2) s = { s with es := es } := by
  induction l generalizing s with
  | nil => exact ⟨s.es, rfl⟩
  | cons w l ih =>
    obtain ⟨_, h⟩ := s.post_frame (f w).1 (some p) (f w).2.1 (f w).2.2.1 (f w).2.2.2
    rw [List.foldl_cons, h]
    obtain ⟨es, h'⟩ := ih { s with es := _ }
    exact ⟨es, h'⟩

/-- The events of a stopped partition's halts change the event sequencer, and of the partition what the events are about. -/
theorem State.postWanted_frame {s : State} {p b : Nat} (h : (s.part p).frz = .stopped b) :
    ∃ (es : EsRegs) (g : Part → Option (Nat × Nat × Nat)), s.postWanted p = ({ s with es := es } : State).modPart p (fun x => { x with wanted := [], grace := g x }) := by
  unfold State.postWanted
  rw [h]
  extract_lets ws grace t
  obtain ⟨es, hes⟩ := State.posts_frame (fun w : Want => (w.type, w.agent, w.aux, w.detail)) p ws s
  have ht : t = { s with es := es } := hes
  rw [ht]
  exact ⟨es, _, rfl⟩

/-! ## The freeze boundary (R82, R379) -/

/-- A partition that stands at its freeze boundary: its counters stand, its link actions are detached. -/
def Part.frozenAt (x : Part) (b : Nat) : Part :=
  { x with frz := .stopped b, elapsed := b * x.period, flights := x.flights.map (fun f => if f.opcode ≥ 0x80 then { f with detached := true } else f) }

/-- What follows once the partition stands at its boundary. -/
def State.stopsAt (s : State) (p b : Nat) : State :=
  (((s.settleDue p).post 2 (some p) ccAgent 0 (b / 256 % 2 ^ 40)).postWanted p).haltWaiters p

theorem exec_freezeBoundary {s : State} {p b : Nat} (hp : p < 8) (hfrz : (s.part p).frz = .pending b) (hrun : (s.part p).status = .running) :
    exec (.freezeBoundary p) s = .next (((s.toCycle p b).setPart p (((s.toCycle p b).part p).frozenAt b)).stopsAt p b) := by
  refine congrArg Host.Outcome.next ?_
  dsimp only
  rw [hfrz]
  dsimp only
  rw [if_pos (by simp [hp, hrun])]
  rfl

/-- The stop changes stream records, events, and of the partition its halts' events. -/
theorem State.stopsAt_frame {s : State} {p b : Nat} (h : (s.part p).frz = .stopped b) :
    ∃ (rc : Tab StreamRec) (es : EsRegs) (g : Part → Option (Nat × Nat × Nat)), s.stopsAt p b = ({ s with se := { s.se with recs := rc }, es := es } : State).modPart p (fun x => { x with wanted := [], grace := g x }) := by
  obtain ⟨_, hsettle⟩ := s.records_settleDue p
  obtain ⟨_, hpost⟩ := (s.settleDue p).post_frame 2 (some p) ccAgent 0 (b / 256 % 2 ^ 40)
  have hstill : (((s.settleDue p).post 2 (some p) ccAgent 0 (b / 256 % 2 ^ 40)).part p).frz = .stopped b := by
    rw [hpost, hsettle]
    exact h
  obtain ⟨_, g, hwanted⟩ := State.postWanted_frame hstill
  obtain ⟨_, hhalt⟩ := (((s.settleDue p).post 2 (some p) ccAgent 0 (b / 256 % 2 ^ 40)).postWanted p).records_haltWaiters p
  unfold State.stopsAt
  rw [hhalt, hwanted, hpost, hsettle]
  exact ⟨_, _, g, rfl⟩

theorem detached_map (l : List Flight) : ∀ f ∈ l.map (fun f => if f.opcode ≥ 0x80 then { f with detached := true } else f), 0x80 ≤ f.opcode → f.detached = true := by
  intro f hf hop
  obtain ⟨g, -, rfl⟩ := List.mem_map.mp hf
  split
  · rfl
  · next hg =>
    rw [if_neg hg] at hop
    exact absurd hop hg

theorem freezeBoundaryStops {s : State} {p b : Nat} (hp : p < 8) (hfrz : (s.part p).frz = .pending b) (hrun : (s.part p).status = .running) :
    ∃ t, exec (.freezeBoundary p) s = .next t ∧ (t.part p).frz = .stopped b ∧ (t.part p).elapsed = b * (s.part p).period ∧
      (t.part p).status = .running ∧ (∀ f ∈ (t.part p).flights, 0x80 ≤ f.opcode → f.detached = true) ∧
      (t.part p).flights.length = (s.part p).flights.length ∧ (∀ q, q ≠ p → t.part q = (s.toCycle p b).part q) ∧ t.data = s.data := by
  have htime := s.drifts_toCycle p b
  obtain ⟨hstatus, himage, -, -, -, hflights, -⟩ := htime.part p
  obtain ⟨-, hdata, -⟩ := htime.frame
  have hset := (s.toCycle p b).part_setPart p (((s.toCycle p b).part p).frozenAt b)
  obtain ⟨rc, es, g, hframe⟩ := State.stopsAt_frame (s := (s.toCycle p b).setPart p (((s.toCycle p b).part p).frozenAt b)) (b := b) (by rw [hset]; rfl)
  have hpart : (((s.toCycle p b).setPart p (((s.toCycle p b).part p).frozenAt b)).stopsAt p b).part p =
      { ((s.toCycle p b).part p).frozenAt b with wanted := [], grace := g (((s.toCycle p b).part p).frozenAt b) } := by
    rw [hframe, State.part_modPart]
    exact congrArg (fun x : Part => { x with wanted := [], grace := g x }) hset
  have hperiod : ((s.toCycle p b).part p).period = (s.part p).period := by
    unfold Part.period Part.rate
    rw [himage]
  refine ⟨_, exec_freezeBoundary hp hfrz hrun, ?_, ?_, ?_, ?_, ?_, fun q hq => ?_, ?_⟩
  · rw [hpart]
    rfl
  · rw [hpart, ← hperiod]
    rfl
  · rw [hpart]
    exact hstatus.trans hrun
  · rw [hpart]
    exact detached_map _
  · rw [hpart, ← hflights]
    exact List.length_map ..
  · rw [hframe, State.part_modPart_ne _ _ hq]
    exact State.part_setPart_ne _ _ hq
  · rw [hframe]
    exact hdata

/-! ## FROZEN (R84, R158) -/

theorem State.setStat_part (s : State) (p : Nat) (st : PStat) : (s.setStat p st).part p = { s.part p with status := st } :=
  s.part_modPart p (fun x => { x with status := st })
theorem State.setStat_part_ne (s : State) {p q : Nat} (st : PStat) (h : q ≠ p) : (s.setStat p st).part q = s.part q :=
  s.part_modPart_ne (fun x => { x with status := st }) h

theorem exec_partitionFrozen {s : State} {p b : Nat} (hp : p < 8) (hfrz : (s.part p).frz = .stopped b) (hrun : (s.part p).status = .running)
    (hsettled : ∀ f ∈ (s.part p).flights, s.settled f = true) : exec (.partitionFrozen p) s = .next ((s.nansMet p).setStat p .frozen) := by
  refine congrArg Host.Outcome.next ?_
  rw [hrun, hfrz]
  refine if_pos ?_
  rw [Bool.and_eq_true, decide_eq_true_eq]
  exact ⟨hp, List.all_eq_true.mpr hsettled⟩

/-- With no NaN left to meet no time passes. -/
theorem State.nansMet_none {s : State} {p : Nat} (h : ∀ n ∈ (s.part p).nans, n.due ≤ s.clk) : s.nansMet p = s := by
  have hmax : ∀ l : List NanDue, (∀ n ∈ l, n.due ≤ s.clk) → l.foldl (fun t n => max t n.due) s.clk = s.clk := by
    intro l
    induction l with
    | nil => exact fun _ => rfl
    | cons n l ih =>
      intro hl
      rw [List.foldl_cons, Nat.max_eq_left (hl n (List.mem_cons_self ..))]
      exact ih fun m hm => hl m (List.mem_cons_of_mem n hm)
  unfold State.nansMet
  rw [hmax _ h]
  unfold State.toClk State.pass
  rw [Nat.sub_self, if_pos rfl]

theorem partitionFreezes {s : State} {p b : Nat} (hp : p < 8) (hfrz : (s.part p).frz = .stopped b) (hrun : (s.part p).status = .running)
    (hsettled : ∀ f ∈ (s.part p).flights, s.settled f = true) :
    ∃ t, exec (.partitionFrozen p) s = .next t ∧ (t.part p).status = .frozen ∧ (t.part p).frz = .stopped b ∧ (t.part p).flights = (s.part p).flights ∧
      t.data = s.data ∧
      ((∀ n ∈ (s.part p).nans, n.due ≤ s.clk) → t.part p = { s.part p with status := .frozen } ∧ (∀ q, q ≠ p → t.part q = s.part q) ∧
        ({ t with parts := s.parts, hif := s.hif } : State) = s) := by
  have htime : s.Drifts (s.nansMet p) := s.drifts_toClk _
  have hflow : s.Flows (s.nansMet p) := s.flows_toClk _
  obtain ⟨-, -, -, -, -, hflights, -⟩ := htime.part p
  obtain ⟨-, hdata, -⟩ := htime.frame
  refine ⟨_, exec_partitionFrozen hp hfrz hrun hsettled, ?_, ?_, ?_, ?_, fun hnans => ⟨?_, fun q hq => ?_, ?_⟩⟩
  · rw [State.setStat_part]
  · rw [State.setStat_part]
    exact ((hflow.frz p).eq (by rw [hfrz]; rfl)).trans hfrz
  · rw [State.setStat_part]
    exact hflights
  · obtain ⟨_, _, _, _, h⟩ := (s.nansMet p).setStat_frame p .frozen
    rw [h]
    exact hdata
  · rw [State.nansMet_none hnans, State.setStat_part]
  · rw [State.nansMet_none hnans, State.setStat_part_ne _ _ hq]
  · obtain ⟨_, _, _, _, h⟩ := s.setStat_frame p .frozen
    rw [State.nansMet_none hnans, h]

/-! ## The thaw (R87, R91) -/

/-- A partition that issues again after its thaw, with the setting of its watchdog. -/
def Part.thawed (x : Part) (b wd : Nat) : Part :=
  { x with frz := if x.causes.isEmpty then .no else .pending (freezeBoundaryOf b), rvAt := x.rvAt.map (fun t => max t (b - 127)), wdAgain := false
           wdRun := if x.wdAgain then x.wdRun.map (fun _ => 0) else x.wdRun, wdLimit := if x.wdAgain then wd else x.wdLimit
           flights := x.flights.map (fun f => { f with detached := false }) }

/-- The state after a thaw: the partition issues again, its streams are no longer restarted ones, and event 3 is posted. -/
def State.thawedAt (s : State) (p b : Nat) : State :=
  ((s.setPart p ((s.part p).thawed b (s.watchdog p))).unthawed (s.streamsOf p)).post 3 (some p) ccAgent 0 (b / 256 % 2 ^ 40)

theorem exec_thaw {s : State} {p b : Nat} (hp : p < 8) (hrun : (s.part p).status = .running) (hfrz : (s.part p).frz = .thawing b)
    (hreached : ∀ e ∈ s.streamsOf p, (s.srec e).reached = true) : exec (.thaw p) s = .next (s.thawedAt p b) := by
  refine congrArg Host.Outcome.next ?_
  dsimp only
  split
  · next b' _ hb =>
    obtain rfl : b = b' := Frz.thawing.inj (hfrz.symm.trans hb)
    refine if_pos ?_
    rw [Bool.and_eq_true, decide_eq_true_eq]
    exact ⟨hp, List.all_eq_true.mpr hreached⟩
  · next hnot => exact absurd hfrz (hnot b hrun)

theorem State.thawedAt_frame (s : State) (p b : Nat) : ∃ rc es, s.thawedAt p b =
    ({ s with se := { s.se with recs := rc }, es := es } : State).setPart p ((s.part p).thawed b (s.watchdog p)) := by
  obtain ⟨_, hrec⟩ := State.records_unthawed (s.setPart p ((s.part p).thawed b (s.watchdog p))) (s.streamsOf p)
  obtain ⟨_, hpost⟩ := ((s.setPart p ((s.part p).thawed b (s.watchdog p))).unthawed (s.streamsOf p)).post_frame 3 (some p) ccAgent 0 (b / 256 % 2 ^ 40)
  unfold State.thawedAt
  rw [hpost, hrec]
  exact ⟨_, _, rfl⟩
theorem State.thawedAt_part (s : State) (p b : Nat) : (s.thawedAt p b).part p = (s.part p).thawed b (s.watchdog p) := by
  obtain ⟨_, _, h⟩ := s.thawedAt_frame p b
  rw [h, State.part_setPart]
theorem State.thawedAt_part_ne (s : State) {p q : Nat} (b : Nat) (h : q ≠ p) : (s.thawedAt p b).part q = s.part q := by
  obtain ⟨_, _, hframe⟩ := s.thawedAt_frame p b
  rw [hframe, State.part_setPart_ne _ _ h]
  rfl
theorem State.thawedAt_srec (s : State) {p e : Nat} (b : Nat) (h : e ∈ s.streamsOf p) : (s.thawedAt p b).srec e = { s.srec e with thawing := false } := by
  obtain ⟨_, hpost⟩ := ((s.setPart p ((s.part p).thawed b (s.watchdog p))).unthawed (s.streamsOf p)).post_frame 3 (some p) ccAgent 0 (b / 256 % 2 ^ 40)
  have hsrec := (s.setPart p ((s.part p).thawed b (s.watchdog p))).srec_unthawed (s.streamsOf p) e
  rw [if_pos h] at hsrec
  unfold State.thawedAt
  rw [hpost]
  exact hsrec

theorem partitionThaws {s : State} {p b : Nat} (hp : p < 8) (hrun : (s.part p).status = .running) (hfrz : (s.part p).frz = .thawing b)
    (hreached : ∀ e ∈ s.streamsOf p, (s.srec e).reached = true) :
    ∃ t, exec (.thaw p) s = .next t ∧ (t.part p).frz = (if (s.part p).causes = [] then .no else .pending (freezeBoundaryOf b)) ∧
      (t.part p).causes = (s.part p).causes ∧ (t.part p).status = .running ∧ (t.part p).seqs = (s.part p).seqs ∧
      (t.part p).toks = (s.part p).toks ∧ (t.part p).elapsed = (s.part p).elapsed ∧ (∀ f ∈ (t.part p).flights, f.detached = false) ∧
      (∀ e ∈ s.streamsOf p, t.srec e = { s.srec e with thawing := false }) ∧ (∀ q, q ≠ p → t.part q = s.part q) ∧
      ({ t with parts := s.parts, es := s.es, se := s.se } : State) = s := by
  refine ⟨s.thawedAt p b, exec_thaw hp hrun hfrz hreached, ?_⟩
  rw [s.thawedAt_part p b]
  refine ⟨?_, rfl, hrun, rfl, rfl, rfl, fun f hf => ?_, fun e he => s.thawedAt_srec b he, fun q hq => s.thawedAt_part_ne b hq, ?_⟩
  · unfold Part.thawed
    simp only [List.isEmpty_iff]
  · obtain ⟨g, -, rfl⟩ := List.mem_map.mp hf
    rfl
  · obtain ⟨_, _, h⟩ := s.thawedAt_frame p b
    rw [h]
    rfl

/-! ## The obligation -/

/-- Settles O37: a stop and a thaw change of a partition what they name; a restarted stream keeps its mark and its partition its freeze until
`State.stopAgain` finds the stream halted short. -/
theorem partitionStopsAndResumes : Obligations.PartitionStopsAndResumes := by
  unfold Obligations.PartitionStopsAndResumes
  refine ⟨⟨fun s p b hp hfrz hrun => freezeBoundaryStops hp hfrz hrun, fun s p b hp hfrz hrun hsettled => partitionFreezes hp hfrz hrun hsettled⟩, ?_,
    fun s p b hp hrun hfrz hreached => partitionThaws hp hrun hfrz hreached⟩
  intro s e b hfrz _ hstate hreached u
  obtain ⟨hthawing, -, -⟩ := StreamRec.reached_false.mp hreached
  have hstart : s.Thawing e (s.srec e).partition b := ⟨hfrz, rfl, hthawing⟩
  refine ⟨_, hstart.exec hstate hreached, fun hu => if_pos hu, fun hhalt hshort => ?_⟩
  by_cases hu : (u.srec e).reached = true
  · rw [if_pos hu] at hhalt hshort ⊢
    exact hstart.runStream_short _ hstate hhalt hshort
  · rw [if_neg hu] at hhalt hshort ⊢
    have hstill : u.Thawing e (s.srec e).partition b := by
      obtain ⟨-, hdone⟩ | hstill := hstart.runStream (s.part (s.srec e).partition).cycle
      · obtain ⟨hthawing', -⟩ := StreamRec.reached_false.mp (Bool.not_eq_true _ ▸ hu)
        exact absurd (hthawing'.symm.trans hdone) nofun
      · exact hstill
    obtain ⟨hstop, -⟩ | ⟨hkeep, hnot⟩ := (hstill.moves (u.moves_haltWaiter e)).stopAgain
    · exact hstop
    · rw [hkeep] at hhalt hshort
      exact absurd ⟨hhalt, hshort⟩ hnot

end Sys2Proof.Machine
end

section
/-! STEP and FORME_NOP (R153, R250, R287, R559): a step number advances, and what firmware does at a step boundary leaves the arithmetic units alone. -/
namespace Sys2Proof.Machine

open Sys2Proof

/-! ## What the duties at a step boundary keep -/

/-- Sequencers, the NUM block, core memory and the galleys stay. -/
structure State.Spares (s t : State) : Prop where
  seqs : ∀ q, (t.part q).seqs = (s.part q).seqs
  num : t.num = s.num
  core : t.data.core = s.data.core
  galley : t.data.galley = s.data.galley

theorem State.Spares.refl (s : State) : s.Spares s := ⟨fun _ => rfl, rfl, rfl, rfl⟩
theorem State.Spares.trans {s t u : State} (h : s.Spares t) (h' : t.Spares u) : s.Spares u :=
  ⟨fun q => (h'.seqs q).trans (h.seqs q), h'.num.trans h.num, h'.core.trans h.core, h'.galley.trans h.galley⟩

theorem State.Stores.spares {s t : State} (h : s.Stores t) : s.Spares t := by
  obtain ⟨_, _, _, _, rfl⟩ := h
  exact ⟨fun _ => rfl, rfl, rfl, rfl⟩
theorem State.spares_modPart (s : State) (p : Nat) {f : Part → Part} (h : (f (s.part p)).seqs = (s.part p).seqs) : s.Spares (s.modPart p f) := by
  refine ⟨fun q => ?_, rfl, rfl, rfl⟩
  by_cases hq : q = p
  · subst hq
    rw [State.part_modPart]
    exact h
  · rw [State.part_modPart_ne _ _ hq]
theorem State.spares_post (s : State) (ty : Nat) (p : Option Nat) (src aux det : Nat) : s.Spares (s.post ty p src aux det) := by
  obtain ⟨e, h⟩ := s.post_frame ty p src aux det
  rw [h]
  exact ⟨fun _ => rfl, rfl, rfl, rfl⟩
theorem State.Serves.spares {p : Nat} {s t : State} (h : s.Serves p t) : s.Spares t := by
  obtain ⟨⟨_, _, _, _, _, _, _, _, hrest⟩, -, ⟨_, hown⟩, hothers⟩ := h
  refine ⟨fun q => ?_, by rw [hrest], by rw [hrest], by rw [hrest]⟩
  by_cases hq : q = p
  · subst hq
    rw [hown]
  · rw [hothers q hq]

/-- What each step of a fold over states spares, the fold spares. -/
theorem State.Spares.foldlOn {α β : Type} (st : β → State) {f : β → α → β} (hf : ∀ b x, (st b).Spares (st (f b x))) (l : List α) (b : β) :
    (st b).Spares (st (l.foldl f b)) :=
  List.foldlRecOn (motive := fun b' => (st b).Spares (st b')) l f (.refl (st b)) fun b' h x _ => h.trans (hf b' x)
theorem State.Spares.foldl {α : Type} {f : State → α → State} (hf : ∀ (s : State) x, s.Spares (f s x)) (l : List α) (s : State) : s.Spares (l.foldl f s) :=
  .foldlOn id hf l s

/-! ## The cache takes a step (Table 09-14) -/

theorem State.spares_commitPending (s : State) (c : CacheSet) : s.Spares (s.commitPending c) :=
  .foldl (fun s _ => (s.stores_putSeq _ _ _).spares) _ _

theorem State.spares_serveCacheQueue (s : State) (p : Nat) : s.Spares (s.serveCacheQueue p) :=
  (s.spares_modPart p (f := Part.served) rfl).trans (s.serves_serveCacheQueue p).spares

/-- A change of the held steps of a partition's slots. -/
theorem State.spares_held (s : State) (p : Nat) (f : Part → List Nat) : s.Spares (s.modPart p (fun x => { x with held := f x })) := s.spares_modPart p rfl

theorem State.spares_placeSlot (s : State) (p : Nat) (c : CacheSet) (acc : List (Nat × Nat × Nat)) (slot : Nat) :
    s.Spares (s.placeSlot p c acc slot).1 := by
  have hput (e : SeqEntry) : s.Spares (s.putSeq c slot e) := (s.stores_putSeq c slot e).spares
  unfold State.placeSlot
  dsimp only
  split
  · exact .refl s
  · split
    · exact (hput _).trans (State.spares_post _ _ _ _ _ _)
    · split
      · dsimp only
        exact (hput _).trans (State.spares_held _ _ _)
      · split
        · exact hput _
        · dsimp only
          exact ((hput _).trans (State.spares_post _ _ _ _ _ _)).trans (State.spares_held _ _ _)

theorem State.spares_placeAll (s : State) (p : Nat) (c : CacheSet) : s.Spares (s.placeAll p c) := by
  unfold State.placeAll
  split
  next t acc h =>
  have hslots := State.Spares.foldlOn Prod.fst (fun sa slot => sa.1.spares_placeSlot p c sa.2 slot) (upTo c.slots) (s, ([] : List (Nat × Nat × Nat)))
  rw [h] at hslots
  exact hslots.trans (.foldl (fun s b => .foldl (fun s r => (s.stores_fwWrite _ _ _).spares) _ s) _ t)

theorem State.spares_cacheBoundary (s : State) (p : Nat) : s.Spares (s.cacheBoundary p) := by
  unfold State.cacheBoundary
  split
  · exact .refl s
  · next c _ => exact ((s.spares_commitPending c).trans (State.spares_serveCacheQueue _ p)).trans (State.spares_placeAll _ p c)

theorem State.spares_stepDuties (s : State) (p cyc : Nat) : s.Spares (s.stepDuties p cyc) := by
  unfold State.stepDuties
  refine .trans ?_ (State.spares_cacheBoundary _ p)
  split
  · refine s.spares_modPart p ?_
    obtain ⟨_, _, h⟩ := ({ s.part p with diverge := false } : Part).addCauseAt_frame .divergence cyc
    rw [h]
  · exact .refl s

/-! ## The digests of a step (R239, R250, R251) -/

theorem State.spares_diverged (s : State) (p part step layer shard : Nat) : s.Spares (s.diverged p part step layer shard) := by
  have hmark (n : Nat) : s.Spares (s.setPart p { s.part p with diverge := true, divergeEvents := tset 0 (s.part p).divergeEvents step n }) :=
    s.spares_modPart p (f := fun x => { x with diverge := true, divergeEvents := tset 0 x.divergeEvents step n }) rfl
  unfold State.diverged
  dsimp only
  split
  · exact (hmark _).trans (State.spares_post _ _ _ _ _ _)
  · exact hmark _

theorem State.spares_compareDigest (s : State) (p part step layer shard value : Nat) (own : Digest) :
    s.Spares (s.compareDigest p part step layer shard value own) := by
  unfold State.compareDigest
  dsimp only
  split
  · exact s.spares_modPart p rfl
  · exact (s.spares_modPart p rfl).trans (State.spares_diverged _ _ _ _ _ _)

theorem State.spares_queueControl (s : State) (port : Nat) (flit : List Byte) : s.Spares (s.queueControl port flit) := ⟨fun _ => rfl, rfl, rfl, rfl⟩

theorem State.spares_sendDigest (s : State) (d : Digest) : s.Spares (s.sendDigest d) := by
  unfold State.sendDigest
  refine .trans ?_ (.foldl (fun s q => s.spares_queueControl q _) _ _)
  exact ⟨fun _ => rfl, rfl, rfl, rfl⟩

theorem State.spares_formDigest (s : State) (p step layer shard : Nat) (spans : List (Nat × List Byte)) (parts : List Nat) :
    s.Spares (s.formDigest p step layer shard spans parts) := by
  unfold State.formDigest
  refine .trans (.trans ?_ (State.spares_sendDigest _ _)) (.foldl (fun s e => s.spares_compareDigest _ _ _ _ _ _ _) _ _)
  exact s.spares_modPart p rfl

theorem State.formDigests_none {s : State} {p : Nat} (step : Nat) (h : (s.part p).replica = none) : s.formDigests p step = s := by
  unfold State.formDigests
  rw [h]

theorem State.spares_formDigests (s : State) (p step : Nat) : s.Spares (s.formDigests p step) := by
  unfold State.formDigests
  split
  · exact .refl s
  · dsimp only
    split
    · exact s.spares_modPart p rfl
    · refine .trans ?_ (.foldl (fun s k => s.spares_formDigest _ _ _ _ _ _) _ _)
      exact s.spares_modPart p rfl

/-! ## STEP -/

/-- The sequencer past its STEP record, with its step counted (R153). -/
def Seqr.stepped (q : Seqr) (c : Ctx) : Seqr := ({ q with steps := q.steps + 1 } : Seqr).moved c (c.idx + 1) id
@[simp] theorem Seqr.stepped_agent (q : Seqr) (c : Ctx) : (q.stepped c).agent = q.agent := Seqr.moved_agent _ _ _ _

/-- The furthest step that an agent has reached. -/
def Part.topStep (x : Part) : Nat := x.seqs.foldl (fun m q => max m q.steps) 0

/-- What an agent's STEP record sets off once its step `n` is counted; `first` says whether the agent is the first to end it. -/
def State.stepEnds (s : State) (p cyc n : Nat) (first : Prop) [Decidable first] : State :=
  let t := if first then s.stepDuties p cyc else s
  if (t.part p).stepOver n then t.formDigests p (t.stepNumber p n) else t

theorem State.spares_stepEnds (s : State) (p cyc n : Nat) (first : Prop) [Decidable first] : s.Spares (s.stepEnds p cyc n first) := by
  unfold State.stepEnds
  extract_lets t
  have hduties : s.Spares t := by
    unfold t
    split
    · exact s.spares_stepDuties p cyc
    · exact .refl s
  split
  · exact hduties.trans (State.spares_formDigests _ _ _)
  · exact hduties

/-- An agent that is not the first at the boundary of a partition without replicas sets nothing off. -/
theorem State.stepEnds_later {s : State} {p : Nat} (cyc n : Nat) {first : Prop} [Decidable first] (hlater : ¬ first) (hnone : (s.part p).replica = none) :
    s.stepEnds p cyc n first = s := by
  unfold State.stepEnds
  rw [if_neg hlater]
  dsimp only
  rw [s.formDigests_none _ hnone, ite_self]

theorem Part.Drifts.replica {x y : Part} (h : x.Drifts y) : y.replica = x.replica := by
  obtain ⟨_, _, _, _, _, rfl⟩ := h
  rfl

theorem Part.modSeqr_modSeqr (x : Part) {f : Seqr → Seqr} (hf : ∀ q, (f q).agent = q.agent) (a : Nat) (g : Seqr → Seqr) :
    (x.modSeqr a f).modSeqr a g = x.modSeqr a (fun q => g (f q)) := by
  unfold Part.modSeqr
  dsimp only
  rw [List.map_map]
  congr 1
  refine List.map_congr_left fun q _ => ?_
  by_cases hq : q.agent = a
  · simp [hq, hf]
  · simp [hq]

theorem exec_stepMark {s : State} {p a : Nat} {c : Ctx} {q : Seqr} (hc : issueCtx s 6 p a = some c) (hq : (s.part p).seqr a = some q) :
    exec (.stepMark p a) s = .next (((s.toCycle p c.point).modPart p (·.modSeqr a (·.stepped c))).stepEnds p c.point q.steps
      (q.steps = (s.part p).topStep)) := by
  obtain ⟨-, hagent⟩ := issueCtx_owner hc
  have hown : (((s.toCycle p c.point).part p).seqr a).map (·.steps) = some q.steps := by rw [State.toCycle_seqr, hq]; rfl
  have htop : ((s.toCycle p c.point).part p).topStep = (s.part p).topStep := by unfold Part.topStep; rw [State.toCycle_seqs]
  have hstep : (((s.toCycle p c.point).part p).modSeqr a (fun q => { q with steps := q.steps + 1 })).advance c (c.idx + 1) id =
      ((s.toCycle p c.point).part p).modSeqr a (·.stepped c) := by
    rw [Part.advance_eq, hagent, Part.modSeqr_modSeqr]
    · rfl
    · exact fun _ => rfl
  refine congrArg Host.Outcome.next ((State.control_some _ hc).trans ?_)
  dsimp only
  rw [hown, hstep, ← htop]
  rfl

theorem stepMark_counts {s : State} {p a : Nat} {c : Ctx} {q : Seqr} (hc : issueCtx s 6 p a = some c) (hq : (s.part p).seqr a = some q) :
    let u := s.toCycle p c.point
    ∃ t, exec (.stepMark p a) s = .next t ∧ (t.part p).seqr a = some (q.stepped c) ∧ (∀ b, b ≠ a → (t.part p).seqr b = (s.part p).seqr b) ∧
      t.num = u.num ∧ t.data.core = s.data.core ∧ t.data.galley = s.data.galley ∧
      (q.steps ≠ (s.part p).topStep → (s.part p).replica = none → seqMoved u t p a (q.stepped c)) := by
  intro u
  have hmoved : seqMoved u (u.modPart p (·.modSeqr a (·.stepped c))) p a (q.stepped c) :=
    seqMoved_modSeqr (s.toCycle_seqr p c.point p a) (fun q => q.stepped_agent c) hq
  have ⟨hmine, hothers, _⟩ := hmoved
  have hkept := (u.modPart p (·.modSeqr a (·.stepped c))).spares_stepEnds p c.point q.steps (q.steps = (s.part p).topStep)
  have hseqr (b : Nat) := congrArg (lookupBy (fun q => q.agent == b)) (hkept.seqs p)
  obtain ⟨-, hdata, -⟩ := (s.drifts_toCycle p c.point).frame
  refine ⟨_, exec_stepMark hc hq, (hseqr a).trans hmine, fun b hb => ?_, hkept.num, ?_, ?_, fun hlater hnone => ?_⟩
  · exact ((hseqr b).trans (hothers b hb)).trans (s.toCycle_seqr p c.point p b)
  · rw [hkept.core, State.modPart_data, hdata]
  · rw [hkept.galley, State.modPart_data, hdata]
  · rw [State.stepEnds_later _ _ hlater]
    · exact hmoved
    · rw [State.part_modPart]
      exact ((s.drifts_toCycle p c.point).2 p).replica.trans hnone

/-! ## FORME_NOP -/

theorem exec_formeNop {s u : State} {p a : Nat} {c : Ctx} (hi : Issues s u 0 p a c true none []) :
    exec (.formeNop p a) s = .next ((u.issued c).sendToken p c.r.tokOut a c.point) := by
  obtain ⟨hdue, rfl, htoken, hgood, hfree, howned⟩ := hi
  exact congrArg Host.Outcome.next ((State.control_some _ hdue).trans (State.issueAction_ok htoken hgood hfree howned))

theorem State.sendToken_none (s : State) (p agent cyc : Nat) : s.sendToken p 0xFFFF agent cyc = s := if_pos rfl
theorem State.issued_untaken {u : State} {c : Ctx} (h : c.r.tokIn = 0xFFFF) : u.issued c = u.step1 c := if_pos h

/-- Settles O26: the step is counted on the sequencer before anything else happens, and the duties at a boundary spare the sequencers, the NUM block,
core memory and the galleys. -/
theorem stepAndNopRecords : Obligations.StepAndNopRecords := by
  unfold Obligations.StepAndNopRecords
  refine ⟨fun s p a c q hc hq => stepMark_counts hc hq, fun s u p a c q hi hq => ⟨exec_formeNop hi, fun hout hin => ⟨_, exec_formeNop hi, ?_⟩⟩⟩
  obtain ⟨hp, -⟩ := issueCtx_owner hi.due
  rw [hout, State.sendToken_none, State.issued_untaken hin, hi.atPoint, State.step1, hp]
  exact seqMoved_advance hi.due hq _ _

end Sys2Proof.Machine
end

section
/-! The walk of MMA and COMBINE over a galley's region (R135, R154): each element is visited once in each chunk group. -/
namespace Sys2Proof.Machine

open Sys2Proof

/-! ## Elements of a galley -/

/-- Two elements of one galley with the same key are the same element. -/
theorem galElem_inj {core g m n m' n' : Nat} (hn : n < 192) (hn' : n' < 192) : galElem core g m n = galElem core g m' n' ↔ m = m' ∧ n = n' := by
  unfold galElem
  constructor
  · intro h
    omega
  · rintro ⟨rfl, rfl⟩
    rfl

/-- A key of a region of `rows` rows and `cols` columns. -/
def InRegion (core g rows cols k : Nat) : Prop := ∃ m n, m < rows ∧ n < cols ∧ k = galElem core g m n

/-- A region cleared row by row. -/
def clearRegion (core g rows cols : Nat) (t : Tab Nat) : Tab Nat := (upTo rows).foldl (fun t m => tclear t (galElem core g m 0) cols) t

theorem tget_clearRegion_in {core g rows cols m n : Nat} (t : Tab Nat) (hm : m < rows) (hn : n < cols) :
    tget 0 (clearRegion core g rows cols t) (galElem core g m n) = 0 := by
  refine foldl_brings (P := fun t => tget 0 t (galElem core g m n) = 0) (fun t x h => tget_tclear_zero _ _ h) (fun t => tget_tclear_in 0 t ?_)
    (List.mem_range.mpr hm) t
  unfold galElem
  omega

theorem tget_clearRegion_out {core g rows cols k : Nat} (t : Tab Nat) (hk : ¬ InRegion core g rows cols k) :
    tget 0 (clearRegion core g rows cols t) k = tget 0 t k := by
  refine List.foldlRecOn (motive := fun t' => tget 0 t' k = tget 0 t k) _ _ rfl fun t' h m hm => ?_
  rw [tget_tclear, if_neg, h]
  rintro ⟨hlo, hhi⟩
  refine hk ⟨m, k - galElem core g m 0, List.mem_range.mp hm, by omega, ?_⟩
  unfold galElem at *
  omega

/-! ## The order of a walk -/

/-- A fold whose steps do nothing. -/
theorem foldl_keeps {α β : Type} {f : β → α → β} {l : List α} (h : ∀ y, ∀ x ∈ l, f y x = y) (y : β) : l.foldl f y = y :=
  List.foldlRecOn (motive := (· = y)) l f rfl fun _ hy x hx => (h _ x hx).trans hy

/-- A fold over a list without duplicates that acts at one element. -/
theorem foldl_ite_eq {α β : Type} [DecidableEq α] {l : List α} (hl : l.Nodup) (x : α) (h : β → β) (y : β) :
    l.foldl (fun y z => if z = x then h y else y) y = if x ∈ l then h y else y := by
  have hother {l : List α} (hx : x ∉ l) (y : β) : l.foldl (fun y z => if z = x then h y else y) y = y :=
    foldl_keeps (fun y z hz => if_neg fun hzx : z = x => hx (hzx ▸ hz)) y
  split
  · next hx =>
    obtain ⟨l₁, l₂, rfl⟩ := List.append_of_mem hx
    obtain ⟨hnot, -⟩ := List.nodup_cons.mp (List.nodup_middle.mp hl)
    rw [List.mem_append, not_or] at hnot
    obtain ⟨h₁, h₂⟩ := hnot
    rw [List.foldl_append, List.foldl_cons, hother h₁, if_pos rfl, hother h₂]
  · next hx => exact hother hx y

/-- The columns of block `b`. -/
def blockCols (cols b : Nat) : List Nat := (upTo 48).map (48 * b + ·) |>.filter (· < cols)

theorem mem_blockCols {cols b n : Nat} : n ∈ blockCols cols b ↔ n < cols ∧ n / 48 = b := by
  simp only [blockCols, upTo, List.mem_filter, List.mem_map, List.mem_range, decide_eq_true_eq]
  constructor
  · rintro ⟨⟨i, hi, rfl⟩, hn⟩
    omega
  · rintro ⟨hn, rfl⟩
    exact ⟨⟨n % 48, by omega, by omega⟩, hn⟩

theorem nodup_blockCols (cols b : Nat) : (blockCols cols b).Nodup :=
  (List.nodup_range.map fun i j h => by simpa using h).filter _

theorem walkOrder_row {groups rows blocks : Nat} {x : Nat × Nat × Nat} (hx : x ∈ walkOrder groups rows blocks) : x.2.1 < rows := by
  simp only [walkOrder, upTo, List.mem_flatMap, List.mem_map, List.mem_range] at hx
  obtain ⟨g, -, m, hm, b, -, rfl⟩ := hx
  exact hm

/-- A step of a walk that replaces each element of one row and block of columns by a value formed from its old one. -/
def Visits (core gal cols : Nat) (elem : Nat → Nat → Nat → Nat → Nat) (step : WalkAcc → (Nat × Nat × Nat) × Nat → WalkAcc) : Prop :=
  ∀ acc x k, tget 0 (step acc x).gal k =
    (blockCols cols x.1.2.2).foldl (fun y n => if k = galElem core gal x.1.2.1 n then elem x.1.1 x.1.2.1 n y else y) (tget 0 acc.gal k)

/-- What a step of a walk does to element `(m, n)`: one at its own row and block of columns changes it. -/
def visited (elem : Nat → Nat → Nat → Nat → Nat) (m n y : Nat) (x : Nat × Nat × Nat) : Nat :=
  if x.2.2 = n / 48 then if x.2.1 = m then elem x.1 m n y else y else y

section
variable {core gal rows cols groups : Nat} {elem : Nat → Nat → Nat → Nat → Nat} {step : WalkAcc → (Nat × Nat × Nat) × Nat → WalkAcc}
  (hstep : Visits core gal cols elem step)
include hstep

theorem Visits.step_in {m n : Nat} (hcols : cols ≤ 192) (hn : n < cols) (acc : WalkAcc) (x : (Nat × Nat × Nat) × Nat) :
    tget 0 (step acc x).gal (galElem core gal m n) = visited elem m n (tget 0 acc.gal (galElem core gal m n)) x.1 := by
  rw [hstep]
  have hvisit (y n' : Nat) (hn' : n' ∈ blockCols cols x.1.2.2) : (if galElem core gal m n = galElem core gal x.1.2.1 n' then elem x.1.1 x.1.2.1 n' y else y) =
      if n' = n then (if x.1.2.1 = m then elem x.1.1 m n y else y) else y := by
    have hkey : galElem core gal m n = galElem core gal x.1.2.1 n' ↔ m = x.1.2.1 ∧ n = n' :=
      galElem_inj (by omega) (by have := (mem_blockCols.mp hn').1; omega)
    by_cases hmine : n' = n ∧ x.1.2.1 = m
    · obtain ⟨rfl, rfl⟩ := hmine
      simp
    · rw [if_neg (mt hkey.mp fun h => hmine ⟨h.2.symm, h.1.symm⟩)]
      split
      · next hcol => rw [if_neg fun hrow => hmine ⟨hcol, hrow⟩]
      · rfl
  rw [List.foldl_ext _ _ _ hvisit, foldl_ite_eq (nodup_blockCols _ _) n (fun y => if x.1.2.1 = m then elem x.1.1 m n y else y)]
  have hmem : n ∈ blockCols cols x.1.2.2 ↔ x.1.2.2 = n / 48 := by
    rw [mem_blockCols]
    exact ⟨fun h => h.2.symm, fun h => ⟨hn, h.symm⟩⟩
  simp only [hmem]
  rfl

/-- An element of the region after a walk: each chunk group has changed it once, in ascending order. -/
theorem Visits.walk_in {m n : Nat} (hcols : cols ≤ 192) (hm : m < rows) (hn : n < cols) (acc : WalkAcc) :
    tget 0 (((walkOrder groups rows (cdiv cols 48)).zipIdx).foldl step acc).gal (galElem core gal m n) =
      (upTo groups).foldl (fun y g => elem g m n y) (tget 0 acc.gal (galElem core gal m n)) := by
  calc
    _ = ((walkOrder groups rows (cdiv cols 48)).zipIdx).foldl (fun y x => visited elem m n y x.1) (tget 0 acc.gal (galElem core gal m n)) :=
      (List.foldl_hom (fun acc : WalkAcc => tget 0 acc.gal (galElem core gal m n)) fun acc x => (hstep.step_in hcols hn acc x).symm).symm
    _ = (walkOrder groups rows (cdiv cols 48)).foldl (visited elem m n) (tget 0 acc.gal (galElem core gal m n)) := by
      rw [← List.foldl_map (f := Prod.fst) (g := visited elem m n), List.zipIdx_map_fst]
    _ = _ := by
      unfold walkOrder
      rw [List.foldl_flatMap]
      refine List.foldl_ext _ _ _ fun y g _ => ?_
      rw [List.foldl_flatMap]
      have hrow (y m' : Nat) : ((upTo (cdiv cols 48)).map fun b => (g, m', b)).foldl (visited elem m n) y = if m' = m then elem g m n y else y := by
        rw [List.foldl_map]
        refine (foldl_ite_eq List.nodup_range (n / 48) (fun y => if m' = m then elem g m n y else y) y).trans (if_pos ?_)
        unfold cdiv
        rw [List.mem_range]
        omega
      simp only [hrow]
      exact (foldl_ite_eq List.nodup_range m (elem g m n) y).trans (if_pos (List.mem_range.mpr hm))

/-- What lies outside the region stays. -/
theorem Visits.walk_out {k : Nat} (hk : ¬ InRegion core gal rows cols k) (acc : WalkAcc) :
    tget 0 (((walkOrder groups rows (cdiv cols 48)).zipIdx).foldl step acc).gal k = tget 0 acc.gal k := by
  refine List.foldlRecOn (motive := fun (acc' : WalkAcc) => tget 0 acc'.gal k = tget 0 acc.gal k) _ _ rfl fun acc' h x hx => ?_
  rw [hstep, foldl_keeps, h]
  intro y n hn
  rw [if_neg]
  intro hkey
  exact hk ⟨x.1.2.1, n, walkOrder_row (List.fst_mem_of_mem_zipIdx hx), (mem_blockCols.mp hn).1, hkey⟩

end

end Sys2Proof.Machine
end

section
/-! MMA (R135, R137, R142, R150, R153): what its walk makes of every element, and what its end changes besides. -/
namespace Sys2Proof.Machine

open Sys2Proof

/-! ## The end of a walk -/

/-- What the consumption of poison and the NaNs of an action change: events, fault records, and what drifts of the partitions. -/
def State.Alarms (s t : State) : Prop := (∃ e sc ps, t = { s with es := e, sec := sc, parts := ps }) ∧ ∀ q, (s.part q).Drifts (t.part q)

theorem State.Alarms.refl (s : State) : s.Alarms s := ⟨⟨_, _, _, rfl⟩, fun _ => .refl _⟩
theorem State.Alarms.trans {s t u : State} (h : s.Alarms t) (h' : t.Alarms u) : s.Alarms u := by
  obtain ⟨⟨_, _, _, rfl⟩, hparts⟩ := h
  obtain ⟨⟨_, _, _, rfl⟩, hparts'⟩ := h'
  exact ⟨⟨_, _, _, rfl⟩, fun q => (hparts q).trans (hparts' q)⟩

theorem State.alarms_modPart (s : State) (p : Nat) {f : Part → Part} (h : (s.part p).Drifts (f (s.part p))) : s.Alarms (s.modPart p f) :=
  ⟨⟨_, _, _, rfl⟩, (s.drifts_modPart p f h).2⟩

theorem State.alarms_consume (s : State) (p cyc origin agent action at' : Nat) : s.Alarms (s.consume p cyc origin agent action at') := by
  unfold State.consume
  split
  · exact .refl s
  · obtain ⟨e, he⟩ := s.event_frame 0x205 (some p) agent (0x720 + origin) at'
    split
    next q t ht =>
    have ht' : t = { s with es := e } := by rw [← he, ht]
    subst ht'
    dsimp only
    refine .trans ?_ (State.alarms_modPart _ p (Part.drifts_addCauseAt _ _ _))
    exact ⟨⟨_, _, _, rfl⟩, fun _ => .refl _⟩

theorem State.alarms_trapNans (s : State) (p core opId action issue fmtA fmtB : Nat) (ns : List NanAt) :
    s.Alarms (s.trapNans p core opId action issue fmtA fmtB ns) := s.alarms_modPart p ⟨_, _, _, _, _, rfl⟩

section
variable {s t : State} (h : s.Alarms t)
include h
theorem State.Alarms.data : t.data = s.data := by obtain ⟨⟨_, _, _, rfl⟩, -⟩ := h; rfl
theorem State.Alarms.num : t.num = s.num := by obtain ⟨⟨_, _, _, rfl⟩, -⟩ := h; rfl
theorem State.Alarms.accq : t.accq = s.accq := by obtain ⟨⟨_, _, _, rfl⟩, -⟩ := h; rfl
end

theorem State.poisonGalley_frame (s : State) (core g origin : Nat) :
    ∃ gp, s.poisonGalley core g origin = { s with data := { s.data with galleyP := gp } } := by
  unfold State.poisonGalley
  dsimp only
  split
  · exact ⟨s.data.galleyP, rfl⟩
  · exact ⟨_, rfl⟩

/-- What a walk's action leaves when it has been issued: the galley, its count, and the actions in flight; every memory stays. -/
structure State.Walked (s t : State) (p core gal count : Nat) (agent action : Nat) (galley : Tab Nat) : Prop where
  galley : t.data.galley = galley
  count : tget 0 t.data.galleyN (galKey core gal) = count
  data : ({ t.data with galley := s.data.galley, galleyN := s.data.galleyN, galleyP := s.data.galleyP } : Data) = s.data
  flight : ∃ f, (t.part p).flights = (s.part p).flights ++ [f] ∧ f.agent = agent ∧ f.action = action ∧ f.held = [resGalley core gal]

/-- A finished walk before its alarms: the galley, its count and the core's flags. -/
def State.walkDone (s : State) (core gal count : Nat) (acc : WalkAcc) : State :=
  ({ s with data := { s.data with galley := acc.gal, galleyN := tset 0 s.data.galleyN (galKey core gal) count } } : State).orMe core acc.fl

theorem State.endWalk_alarms (s : State) (c : Ctx) (core gal count opId fmtA fmtB : Nat) (acc : WalkAcc) : ∃ gp,
    ({ s.walkDone core gal count acc with data := { (s.walkDone core gal count acc).data with galleyP := gp } } : State).Alarms
      (s.endWalk c core gal count opId fmtA fmtB acc) := by
  unfold State.endWalk
  dsimp only
  split
  · next cyc o w _ =>
    obtain ⟨gp, hgp⟩ := (s.walkDone core gal count acc).poisonGalley_frame core gal o
    exact ⟨gp, hgp ▸ (State.alarms_consume _ _ _ _ _ _ _).trans (State.alarms_trapNans _ _ _ _ _ _ _ _ _)⟩
  · exact ⟨s.data.galleyP, State.alarms_trapNans _ _ _ _ _ _ _ _ _⟩

theorem State.endWalk_walked (s : State) (c : Ctx) (core gal count opId fmtA fmtB : Nat) (acc : WalkAcc) {f : Flight} (ha : f.agent = c.agent)
    (hr : f.action = c.idx) (hh : f.held = [resGalley core gal]) :
    s.Walked ((s.endWalk c core gal count opId fmtA fmtB acc).addFlight c.p f) c.p core gal count c.agent c.idx acc.gal := by
  obtain ⟨gp, halarms⟩ := s.endWalk_alarms c core gal count opId fmtA fmtB acc
  obtain ⟨hdata, -, -, hflights⟩ := (s.endWalk c core gal count opId fmtA fmtB acc).works_addFlight c.p f
  have hkept := (halarms.2 c.p).flights
  refine ⟨?_, ?_, ?_, _, hflights.trans (congrArg (· ++ _) hkept), ha, hr, hh⟩
  · rw [hdata, halarms.data]
    rfl
  · rw [hdata, halarms.data]
    exact tget_tset_same _ _ _ _
  · rw [hdata, halarms.data]
    rfl

/-! ## The operands -/

theorem getD_map_upTo {α : Type} (f : Nat → α) (d : α) {n i : Nat} (h : i < n) : ((upTo n).map f).getD i d = f i := by
  simp [upTo, h]

theorem State.operandIn_getD (s : State) (core base stride fmt kind scale k : Nat) {rows r j : Nat} (hr : r < rows) (hj : j < cdiv k 32) (none' : ChunkIn) :
    ((s.operandIn core base stride fmt kind scale k rows).getD r []).getD j none' = s.chunkIn core base stride fmt kind scale k r j := by
  unfold State.operandIn
  rw [getD_map_upTo _ _ hr, getD_map_upTo _ _ hj]

/-! ## The walk of an MMA -/

/-- The chunks of a group, ascending (R135). -/
def MmaDesc.groupChunks (d : MmaDesc) (g : Nat) : List Nat :=
  (upTo (stepCost d.fmtA d.fmtB).2).map (g * (stepCost d.fmtA d.fmtB).2 + ·) |>.filter (· < d.chunks)

/-- What one chunk group makes of an element: `a` and `b` give the chunks of a row and of a column. -/
def MmaDesc.added (d : MmaDesc) (keyOf : Nat → Nat → SrKey) (c0 : Nat) (a b : Nat → Nat → ChunkIn) (g m n x : Nat) : Nat :=
  fp32Code (laneStep (keyOf (d.row0 + m) (d.col0 + n)) (d.fmtA = 0) (d.fmtB = 0) c0 d.kBase ((d.groupChunks g).map fun j => (j, a m j, b n j)) (fp32 x)).1

theorem MmaDesc.added_congr {d : MmaDesc} {a a' b b' : Nat → Nat → ChunkIn} {m n : Nat} (ha : ∀ j, j < d.chunks → a m j = a' m j)
    (hb : ∀ j, j < d.chunks → b n j = b' n j) (keyOf : Nat → Nat → SrKey) (c0 g x : Nat) :
    d.added keyOf c0 a b g m n x = d.added keyOf c0 a' b' g m n x := by
  have hins : (d.groupChunks g).map (fun j => (j, a m j, b n j)) = (d.groupChunks g).map fun j => (j, a' m j, b' n j) := by
    refine List.map_congr_left fun j hj => ?_
    have hlt : j < d.chunks := by simpa using (List.mem_filter.mp hj).2
    rw [ha j hlt, hb j hlt]
  unfold MmaDesc.added
  rw [hins]

/-- A chunk as the walk looks it up. -/
def chunkAt (l : List (List ChunkIn)) (r j : Nat) : ChunkIn := (l.getD r []).getD j { vals := [], poison := 0, place := 0 }

theorem visits_mmaStep (d : MmaDesc) (keyOf : Nat → Nat → SrKey) (core c0 cyc : Nat) (as bs : List (List ChunkIn)) :
    Visits core d.gal d.n (d.added keyOf c0 (chunkAt as) (chunkAt bs))
      (fun acc x => mmaStep d keyOf core c0 cyc x.2 as bs acc x.1.1 x.1.2.1 x.1.2.2) := by
  intro acc x k
  refine (List.foldl_hom (fun acc : WalkAcc => tget 0 acc.gal k) fun acc n => ?_).symm
  refine Eq.trans ?_ (tget_tset _ _ _ _ _).symm
  split
  · next h =>
    subst h
    rfl
  · rfl

/-- The galley from which an MMA starts: its region cleared unless ACC is set (R137). -/
def MmaDesc.base (d : MmaDesc) (core : Nat) (t : Tab Nat) : Tab Nat := if d.acc then t else clearRegion core d.gal d.m d.n t

theorem MmaDesc.tget_base_in {d : MmaDesc} {m n : Nat} (core : Nat) (t : Tab Nat) (hm : m < d.m) (hn : n < d.n) :
    tget 0 (d.base core t) (galElem core d.gal m n) = if d.acc then tget 0 t (galElem core d.gal m n) else 0 := by
  unfold MmaDesc.base
  split
  · rfl
  · exact tget_clearRegion_in t hm hn
theorem MmaDesc.tget_base_out {d : MmaDesc} {core k : Nat} (t : Tab Nat) (hk : ¬ InRegion core d.gal d.m d.n k) :
    tget 0 (d.base core t) k = tget 0 t k := by
  unfold MmaDesc.base
  split
  · rfl
  · exact tget_clearRegion_out t hk

/-- The chunks that the galley has counted before the action (R142). -/
def MmaDesc.counted (d : MmaDesc) (core : Nat) (t : Tab Nat) : Nat := if d.acc then tget 0 t (galKey core d.gal) else 0

/-- The bounds on a region that the descriptor's validity gives (R139). -/
theorem MmaDesc.n_le {d : MmaDesc} (h : d.valid = true) : d.n ≤ 192 := by
  simp only [MmaDesc.valid, Bool.and_eq_true, decide_eq_true_eq] at h
  omega

/-- An MMA ends as a walk does; the elements of its region are what the chunk groups make of them, the others stay. -/
theorem State.runMma_spec (s : State) (c : Ctx) {d : MmaDesc} (hn : d.n ≤ 192) : ∃ galley,
    s.Walked (s.runMma c d) c.p (agNum c.agent) d.gal (min 256 (d.counted (agNum c.agent) s.data.galleyN + d.chunks)) c.agent c.idx galley ∧
    (∀ m n, m < d.m → n < d.n → tget 0 galley (galElem (agNum c.agent) d.gal m n) =
      (upTo (cdiv d.chunks (stepCost d.fmtA d.fmtB).2)).foldl (fun x g => d.added (s.srKey c d.opId) (d.counted (agNum c.agent) s.data.galleyN)
        (s.chunkIn (agNum c.agent) d.aAddr d.aStride d.fmtA d.kindA d.aScale d.k) (s.chunkIn (agNum c.agent) d.bAddr d.bStride d.fmtB d.kindB d.bScale d.k) g m n x)
        (if d.acc then tget 0 s.data.galley (galElem (agNum c.agent) d.gal m n) else 0)) ∧
    ∀ k, ¬ InRegion (agNum c.agent) d.gal d.m d.n k → tget 0 galley k = tget 0 s.data.galley k := by
  refine ⟨_, s.endWalk_walked c (agNum c.agent) d.gal _ d.opId d.fmtA d.fmtB _ rfl rfl rfl, fun m n hm hn' => ?_, fun k hk => ?_⟩
  · refine ((visits_mmaStep d _ _ _ _ _ _).walk_in hn hm hn' _).trans ?_
    rw [← d.tget_base_in _ _ hm hn']
    refine List.foldl_ext _ _ _ fun x g _ => MmaDesc.added_congr (fun j hj => ?_) (fun j hj => ?_) _ _ _ _
    · exact s.operandIn_getD _ _ _ _ _ _ _ hm hj _
    · exact s.operandIn_getD _ _ _ _ _ _ _ hn' hj _
  · exact ((visits_mmaStep d _ _ _ _ _ _).walk_out hk _).trans (MmaDesc.tget_base_out _ hk)

/-! ## The row -/

/-- A row of the matrix engine whose record passes its checks runs. -/
theorem exec_matrix_ok {s u : State} {op n p a : Nat} {i : Instr} {c : Ctx} {b : List Byte} {valid : Bool} {busy : Option (Nat × Nat)} {named : List Nat}
    {f : Ctx → List Byte → State → State} {run : State → State} (hb : (u.part p).image.descOf c.bind c.r.arg n = some b)
    (hi : Issues s u op p a c valid busy named) (hexec : exec i s = .next (s.issueMatrix op p a n f))
    (hf : f c b u = u.issueAction c valid busy named run) : exec i s = .next (run (u.issued c)) := by
  obtain ⟨hdue, rfl, htoken, hgood, hfree, howned⟩ := hi
  rw [hexec, State.issueMatrix_desc f hdue hb, hf, State.issueAction_ok htoken hgood hfree howned]
  rfl

/-- Settles O28: the walk visits each element of the region once in each chunk group; what ends it changes no memory. -/
theorem mmaComputesElements : Obligations.MmaComputesElements := by
  unfold Obligations.MmaComputesElements
  intro s u p a c b d hb hi v core cps c0 ins
  obtain ⟨rfl, rfl⟩ := issueCtx_owner hi.due
  obtain ⟨hdata, -, -, -, hflights⟩ := State.issued_keeps hi.atPoint
  have hexec : exec (.mma c.p c.agent) s = .next (v.runMma c d) := exec_matrix_ok (run := fun t => t.runMma c d) hb hi rfl rfl
  obtain ⟨galley, hwalked, hin, hout⟩ := v.runMma_spec c (d.n_le hi.good)
  rw [hdata] at hin hout hwalked
  refine ⟨_, hexec, fun m n hm hn => ?_, fun k hk => ?_, hwalked.count, ?_, ?_⟩
  · rw [hwalked.galley]
    exact hin m n hm hn
  · rw [hwalked.galley]
    exact hout k fun ⟨m, n, hm, hn, hkey⟩ => hk m n hm hn hkey
  · rw [← hdata]
    exact hwalked.data
  · rw [← hflights]
    exact hwalked.flight

end Sys2Proof.Machine
end

section
/-! Bytes of a memory read in parts, and rows written to core memory one behind another (R106, R141). -/
namespace Sys2Proof.Machine

open Sys2Proof

/-! ## Parts of a read -/

theorem Data.read_drop (d : Data) (sp : Space) (k : Nat) : ∀ a n, (d.read sp a n).drop k = d.read sp (a + k) (n - k) := by
  induction k with
  | zero => exact fun a n => rfl
  | succ k ih =>
    intro a n
    cases n with
    | zero => rw [Nat.zero_sub]; rfl
    | succ n => rw [Data.read, List.drop_succ_cons, ih, Nat.add_sub_add_right, Nat.add_assoc, Nat.add_comm 1 k]
theorem Data.read_take (d : Data) (sp : Space) (k : Nat) : ∀ a n, k ≤ n → (d.read sp a n).take k = d.read sp a k := by
  induction k with
  | zero => exact fun _ _ _ => rfl
  | succ k ih =>
    intro a n h
    obtain ⟨n, rfl⟩ := Nat.exists_eq_add_of_le' h
    exact congrArg _ (ih (a + 1) (n + k) (Nat.le_add_left k n))

/-! ## Writing rows to core memory -/

theorem Data.plain_read (d : Data) (sp : Space) (n : Nat) : ∀ a, Run.plain (d.read sp a n) = (upTo n).map fun i => d.byte sp (a + i) := by
  induction n with
  | zero => exact fun _ => rfl
  | succ n ih =>
    intro a
    rw [Data.read, Run.plain, List.map_cons, ← Run.plain, ih, upTo, upTo, List.range_succ_eq_map, List.map_cons, List.map_map]
    refine congrArg _ (List.map_congr_left fun i _ => ?_)
    rw [Function.comp_apply, Nat.add_right_comm, Nat.add_assoc]

/-- What a write stores reads back. -/
theorem Data.plain_read_write (d : Data) (sp : Space) (a : Nat) (r : Run) : Run.plain ((d.write sp a r).read sp a r.length) = r.plain := by
  rw [Data.plain_read]
  refine List.ext_getElem (by simp [upTo, Run.plain]) fun i hi hi' => ?_
  have hlt : i < r.length := by simpa [Run.plain] using hi'
  simp only [upTo, List.getElem_map, List.getElem_range]
  rw [Data.byte_write, if_pos (by omega), Nat.add_sub_cancel_left, List.getD_eq_getElem _ _ hi']
/-- A write leaves what it does not touch. -/
theorem Data.plain_read_write_out (d : Data) (sp : Space) {a b n : Nat} {r : Run} (h : b + n ≤ a ∨ a + r.length ≤ b) :
    Run.plain ((d.write sp a r).read sp b n) = Run.plain (d.read sp b n) := by
  rw [Data.plain_read, Data.plain_read]
  refine List.map_congr_left fun i hi => ?_
  have hlt : i < n := List.mem_range.mp hi
  rw [Data.byte_write, if_neg (by omega)]

/-- One row of a drain or of another row-wise write, with its scales. -/
def State.putRow (s : State) (core addr stride scale per origin : Nat) (x : (List Byte × List Byte) × Nat) : State :=
  let s := s.write .core (coreAt core (addr + x.2 * stride)) (Run.tainted origin x.1.1)
  if x.1.2.isEmpty then s else s.write .core (coreAt core (scale + x.2 * per)) (Run.tainted origin x.1.2)

theorem State.putRows_eq (s : State) (core addr stride scale per origin : Nat) (rows : List (List Byte × List Byte)) :
    s.putRows core addr stride scale per origin rows = rows.zipIdx.foldl (fun s x => s.putRow core addr stride scale per origin x) s := rfl

theorem State.putRow_unscaled (s : State) (core addr stride scale per origin : Nat) {x : (List Byte × List Byte) × Nat} (h : x.1.2 = []) :
    s.putRow core addr stride scale per origin x = s.write .core (coreAt core (addr + x.2 * stride)) (Run.tainted origin x.1.1) := by
  unfold State.putRow
  rw [h]
  rfl

section
variable (core addr stride scale per origin : Nat)

/-- Rows without scales leave what lies before the first of them. -/
theorem State.plain_read_putRows_before {b n : Nat} (rows : List (List Byte × List Byte)) : ∀ (k : Nat) (s : State), (∀ x ∈ rows, x.2 = []) →
    b + n ≤ coreAt core (addr + k * stride) →
    Run.plain (((rows.zipIdx k).foldl (fun s x => s.putRow core addr stride scale per origin x) s).read .core b n) = Run.plain (s.read .core b n) := by
  induction rows with
  | nil => exact fun _ _ _ _ => rfl
  | cons x rows ih =>
    intro k s hscale hbefore
    rw [List.forall_mem_cons] at hscale
    obtain ⟨hx, hrows⟩ := hscale
    have hnext : coreAt core (addr + k * stride) ≤ coreAt core (addr + (k + 1) * stride) := by
      unfold coreAt
      rw [Nat.succ_mul]
      omega
    rw [List.zipIdx_cons, List.foldl_cons, ih _ _ hrows (hbefore.trans hnext), State.putRow_unscaled (x := (x, k)) _ _ _ _ _ _ _ hx]
    exact s.data.plain_read_write_out .core (.inl hbefore)

/-- Each of several rows without scales, none longer than the stride, stands at its address. -/
theorem State.plain_read_putRows (rows : List (List Byte × List Byte)) : ∀ (k : Nat) (s : State), (∀ x ∈ rows, x.2 = []) →
    (rows.length ≤ 1 ∨ ∀ x ∈ rows, x.1.length ≤ stride) → ∀ r (hr : r < rows.length),
    Run.plain (((rows.zipIdx k).foldl (fun s x => s.putRow core addr stride scale per origin x) s).read .core (coreAt core (addr + (k + r) * stride))
      rows[r].1.length) = rows[r].1 := by
  induction rows with
  | nil => exact fun _ _ _ _ r hr => absurd hr (Nat.not_lt_zero r)
  | cons x rows ih =>
    intro k s hscale hfit r hr
    obtain ⟨hx, hrows⟩ := List.forall_mem_cons.mp hscale
    rw [List.zipIdx_cons, List.foldl_cons]
    cases r with
    | zero =>
      have hwritten : Run.plain ((s.putRow core addr stride scale per origin (x, k)).read .core (coreAt core (addr + k * stride)) x.1.length) = x.1 := by
        rw [State.putRow_unscaled (x := (x, k)) _ _ _ _ _ _ _ hx]
        have hread := s.data.plain_read_write .core (coreAt core (addr + k * stride)) (Run.tainted origin x.1)
        rwa [Run.length_tainted, Run.plain_tainted] at hread
      cases rows with
      | nil => exact hwritten
      | cons y rows =>
        have hlen : x.1.length ≤ stride := (hfit.resolve_left (by simp)) x List.mem_cons_self
        refine (State.plain_read_putRows_before core addr stride scale per origin _ _ _ hrows ?_).trans hwritten
        rw [List.getElem_cons_zero, Nat.add_zero, Nat.succ_mul]
        unfold coreAt
        omega
    | succ r =>
      have hfit' : rows.length ≤ 1 ∨ ∀ x ∈ rows, x.1.length ≤ stride :=
        hfit.imp (fun h => by rw [List.length_cons] at h; omega) fun h => (List.forall_mem_cons.mp h).2
      have hrest := ih (k + 1) (s.putRow core addr stride scale per origin (x, k)) hrows hfit' r (Nat.lt_of_succ_lt_succ hr)
      rwa [Nat.add_assoc, Nat.add_comm 1 r] at hrest

end

/-! ## Rows of a format without scales -/

theorem rowEncode_unscaled {fmt : Nat} (h : isMx fmt = false) (xs : List Num) :
    (rowEncode fmt xs).2.1 = [] ∧ (rowEncode fmt xs).1.length ≤ rowBytes fmt xs.length := by
  unfold rowEncode rowBytes
  rw [h]
  split
  · exact ⟨rfl, Nat.zero_le _⟩
  · simp [packElems]

end Sys2Proof.Machine
end

section
/-! COMBINE (R154): its walk adds a tile of core memory to the region. -/
namespace Sys2Proof.Machine

open Sys2Proof

/-- What a COMBINE makes of an element: `word` gives the run of bytes of its place in core memory (R154). -/
def MmaDesc.combined (d : MmaDesc) (keyOf : Nat → Nat → SrKey) (word : Nat → Nat → Run) (_ m n x : Nat) : Nat :=
  fp32Code (addRound fp32F (.stochastic (srRandom (keyOf (d.row0 + m) (d.col0 + n)) (0x80000000 + d.kBase))) (fp32 x)
    (fp32 (leNat (Run.plain (word m n))))).v

theorem MmaDesc.combined_congr {d : MmaDesc} {word word' : Nat → Nat → Run} {m n : Nat} (keyOf : Nat → Nat → SrKey) (g g' x : Nat)
    (h : word m n = word' m n) : d.combined keyOf word g m n x = d.combined keyOf word' g' m n x := by
  unfold MmaDesc.combined
  rw [h]

theorem visits_combineStep (d : MmaDesc) (keyOf : Nat → Nat → SrKey) (core cyc : Nat) (rows : List Run) :
    Visits core d.gal d.n (d.combined keyOf fun m n => ((rows.getD m []).drop (4 * n)).take 4)
      (fun acc x => combineStep d keyOf core cyc x.2 rows acc x.1.2.1 x.1.2.2) := by
  intro acc x k
  refine (List.foldl_hom (fun acc : WalkAcc => tget 0 acc.gal k) fun acc n => ?_).symm
  refine Eq.trans ?_ (tget_tset _ _ _ _ _).symm
  split
  · next h =>
    subst h
    rfl
  · rfl

theorem MmaDesc.combine_n_le {d : MmaDesc} (h : d.combineValid = true) : d.n ≤ 192 := by
  simp only [MmaDesc.combineValid, Bool.and_eq_true, decide_eq_true_eq] at h
  omega

/-- The word of an element in the row that a COMBINE has read. -/
theorem State.read_word (s : State) (core a : Nat) {cols n : Nat} (hn : n < cols) :
    ((s.read .core (coreAt core a) (4 * cols)).drop (4 * n)).take 4 = s.read .core (coreAt core (a + 4 * n)) 4 := by
  unfold State.read
  rw [Data.read_drop, Data.read_take]
  · unfold coreAt
    rw [Nat.add_assoc]
  · omega

theorem State.runCombine_spec (s : State) (c : Ctx) {d : MmaDesc} (hn : d.n ≤ 192) : ∃ galley,
    s.Walked (s.runCombine c d) c.p (agNum c.agent) d.gal (tget 0 s.data.galleyN (galKey (agNum c.agent) d.gal)) c.agent c.idx galley ∧
    (∀ m n, m < d.m → n < d.n → tget 0 galley (galElem (agNum c.agent) d.gal m n) = d.combined (s.srKey c d.opId)
      (fun m n => s.read .core (coreAt (agNum c.agent) (d.aAddr + m * d.aStride + 4 * n)) 4) 0 m n (tget 0 s.data.galley (galElem (agNum c.agent) d.gal m n))) ∧
    ∀ k, ¬ InRegion (agNum c.agent) d.gal d.m d.n k → tget 0 galley k = tget 0 s.data.galley k := by
  refine ⟨_, s.endWalk_walked c (agNum c.agent) d.gal _ d.opId 0 0 _ rfl rfl rfl, fun m n hm hn' => ?_, fun k hk => ?_⟩
  · refine ((visits_combineStep d _ _ _ _).walk_in hn hm hn' _).trans ?_
    have hone : upTo 1 = [0] := rfl
    rw [hone, List.foldl_cons, List.foldl_nil]
    refine MmaDesc.combined_congr _ _ _ _ ?_
    rw [getD_map_upTo _ _ hm]
    exact s.read_word _ _ hn'
  · exact (visits_combineStep d _ _ _ _).walk_out hk _

end Sys2Proof.Machine
end

section
/-! DRAIN (R141, R211): what it writes, sends and keeps. -/
namespace Sys2Proof.Machine

open Sys2Proof

/-! ## What a drain to core memory changes -/

/-- Core memory and its poison, events, fault records and numbers change; of the partitions neither images nor actions in flight do. -/
structure State.Drains (s t : State) : Prop where
  rest : ∃ co cp e sc nm ps, t = { s with data := { s.data with core := co, coreP := cp }, es := e, sec := sc, num := nm, parts := ps }
  parts : ∀ q, (t.part q).image = (s.part q).image ∧ (t.part q).flights = (s.part q).flights

theorem State.Drains.refl (s : State) : s.Drains s := ⟨⟨_, _, _, _, _, _, rfl⟩, fun _ => ⟨rfl, rfl⟩⟩
theorem State.Drains.trans {s t u : State} (h : s.Drains t) (h' : t.Drains u) : s.Drains u := by
  obtain ⟨⟨_, _, _, _, _, _, rfl⟩, hparts⟩ := h
  obtain ⟨⟨_, _, _, _, _, _, rfl⟩, hparts'⟩ := h'
  exact ⟨⟨_, _, _, _, _, _, rfl⟩, fun q => ⟨(hparts' q).1.trans (hparts q).1, (hparts' q).2.trans (hparts q).2⟩⟩

theorem State.Alarms.drains {s t : State} (h : s.Alarms t) : s.Drains t := by
  obtain ⟨⟨_, _, _, rfl⟩, hparts⟩ := h
  exact ⟨⟨_, _, _, _, _, _, rfl⟩, fun q => ⟨(hparts q).image, (hparts q).flights⟩⟩
theorem State.drains_write (s : State) (a : Nat) (r : Run) : s.Drains (s.write .core a r) := ⟨⟨_, _, _, _, _, _, rfl⟩, fun _ => ⟨rfl, rfl⟩⟩
theorem State.drains_orMe (s : State) (core : Nat) (f : Flags) : s.Drains (s.orMe core f) := ⟨⟨_, _, _, _, _, _, rfl⟩, fun _ => ⟨rfl, rfl⟩⟩
theorem State.drains_post (s : State) (ty : Nat) (p : Option Nat) (src aux det : Nat) : s.Drains (s.post ty p src aux det) := by
  obtain ⟨e, h⟩ := s.post_frame ty p src aux det
  rw [h]
  exact ⟨⟨_, _, _, _, _, _, rfl⟩, fun _ => ⟨rfl, rfl⟩⟩
theorem State.drains_writes (s : State) (p : Nat) (f : Part → List GroupWrite) : s.Drains (s.modPart p fun x => { x with writes := f x }) := by
  refine ⟨⟨_, _, _, _, _, _, rfl⟩, fun q => ?_⟩
  by_cases hq : q = p
  · subst hq
    rw [State.part_modPart]
    exact ⟨rfl, rfl⟩
  · rw [State.part_modPart_ne _ _ hq]
    exact ⟨rfl, rfl⟩

theorem State.drains_putRow (s : State) (core addr stride scale per origin : Nat) (x : (List Byte × List Byte) × Nat) :
    s.Drains (s.putRow core addr stride scale per origin x) := by
  unfold State.putRow
  dsimp only
  split
  · exact s.drains_write _ _
  · exact (s.drains_write _ _).trans (State.drains_write _ _ _)
theorem State.drains_putRows (s : State) (core addr stride scale per origin : Nat) (rows : List (List Byte × List Byte)) :
    s.Drains (s.putRows core addr stride scale per origin rows) := by
  rw [State.putRows_eq]
  exact List.foldlRecOn (motive := fun t => s.Drains t) _ _ (.refl s) fun t h x _ => h.trans (t.drains_putRow _ _ _ _ _ _ x)

theorem State.drains_tensorWrite (s : State) (p core op opId n fmt hist margin addr : Nat) (vals : List (Num × Nat)) (others : Nat → List Num) :
    s.Drains (s.tensorWrite p core op opId n fmt hist margin addr vals others).2.2 := by
  unfold State.tensorWrite
  extract_lets unit low run all g w g' t
  have hdone : s.Drains t := s.drains_writes p fun x => x.writes.erase g
  split
  · dsimp only
    split
    · exact hdone.trans ((t.drains_write _ _).trans (State.drains_post _ _ _ _ _ _))
    · exact hdone.trans (t.drains_write _ _)
  · dsimp only
    exact hdone.trans (t.drains_writes p _)

/-- The resources that a drain names depend on the partition's image alone. -/
theorem State.Drains.names {s t : State} (h : s.Drains t) (p core : Nat) (d : DrainDesc) : t.drainNames p core d = s.drainNames p core d := by
  unfold State.drainNames State.recordCore
  rw [(h.parts p).1]

/-- A drain of a core is in flight (R141). -/
def State.DrainFlies (s t : State) (c : Ctx) (d : DrainDesc) : Prop := ∃ f, (t.part c.p).flights = (s.part c.p).flights ++ [f] ∧
  f.agent = c.agent ∧ f.action = c.idx ∧ f.held = s.drainNames c.p (agNum c.agent) d

theorem State.Drains.flies {s u : State} (h : s.Drains u) {c : Ctx} {d : DrainDesc} {f : Flight} (ha : f.agent = c.agent) (hr : f.action = c.idx)
    (hh : f.held = u.drainNames c.p (agNum c.agent) d) : s.DrainFlies (u.addFlight c.p f) c d := by
  obtain ⟨-, -, -, hflights⟩ := u.works_addFlight c.p f
  exact ⟨_, hflights.trans (congrArg (· ++ _) (h.parts c.p).2), ha, hr, hh.trans (h.names _ _ _)⟩

/-- A drain to core memory drains, then joins the actions in flight. -/
theorem State.runDrain_drains (s : State) (c : Ctx) (d : DrainDesc) : ∃ u f, s.runDrain c d = u.addFlight c.p f ∧ s.Drains u ∧
    f.agent = c.agent ∧ f.action = c.idx ∧ f.held = u.drainNames c.p (agNum c.agent) d := by
  unfold State.runDrain
  extract_lets core gal target vals own low bank
  split
  next w recO t1 h1 =>
  have hrecord : s.Drains t1 := by
    split at h1
    · have htensor := s.drains_tensorWrite c.p core 0x11 d.opId 48 d.fmt d.hist d.margin d.scale (vals.flatten.map (fun v => (v, own)))
        (fun u => (((s.part c.p).image.opDesc u 0x11 d.opId 48).map (fun b => (s.drainVals u (DrainDesc.parse b)).flatten)).getD [])
      rwa [h1] at htensor
    · cases h1
      exact .refl s
  extract_lets origin
  split
  next t2 fl h2 =>
  have hrows : t1.Drains t2 := by
    split at h2
    · cases h2
      exact t1.drains_putRows _ _ _ _ _ _ _
    · cases h2
      exact t1.drains_putRows _ _ _ _ _ _ _
  extract_lets t3
  refine ⟨t3, _, rfl, ?_, rfl, rfl, rfl⟩
  exact ((hrecord.trans hrows).trans (State.drains_orMe _ _ _)).trans (State.alarms_consume _ _ _ _ _ _ _).drains

/-- The converted rows of a drain, each with its block scales (R141). -/
def State.drainRows (s : State) (core : Nat) (d : DrainDesc) : List (List Byte × List Byte) :=
  (s.drainVals core d).map fun xs => ((rowEncode d.fmt xs).1, (rowEncode d.fmt xs).2.1)

/-- Without a per-tensor record the converted rows are all that is written. -/
theorem State.runDrain_data (s : State) (c : Ctx) {d : DrainDesc} (hkind : d.kind ≠ 2) : ∃ origin, (s.runDrain c d).data =
    (s.putRows (if d.dest = 1 then d.unit else agNum c.agent) d.addr d.stride d.scale (cdiv d.n 32) origin (s.drainRows (agNum c.agent) d)).data := by
  unfold State.runDrain
  simp only [if_neg hkind]
  refine ⟨if tget 0 s.data.galleyP (galKey (agNum c.agent) (d.galley % 2)) ≠ 0 then tget 0 s.data.galleyP (galKey (agNum c.agent) (d.galley % 2)) else 0, ?_⟩
  rw [State.addFlight, State.modPart_data, (State.alarms_consume _ _ _ _ _ _ _).data, List.map_map]
  rfl

/-- With DEST 2 a drain sends its accumulate-writes and changes no memory (R211, R217). -/
theorem State.runDrainAcc_sends (s : State) (c : Ctx) (d : DrainDesc) : let t := s.runDrainAcc c d
    t.data = s.data ∧ t.num = s.num ∧ t.accq = s.accq ++ s.drainWrites c d ∧ s.DrainFlies t c d := by
  have halarms := State.alarms_consume { s with accq := s.accq ++ s.drainWrites c d } c.p c.point (tget 0 s.data.galleyP (galKey (agNum c.agent) (d.galley % 2)))
    c.agent c.idx (whereRes (resGalley (agNum c.agent) (d.galley % 2)))
  refine ⟨halarms.data, halarms.num, halarms.accq, ?_⟩
  exact halarms.drains.flies rfl rfl rfl

/-- A drain to core memory keeps every other memory and the galleys (R141). -/
theorem State.runDrain_keeps (s : State) (c : Ctx) (d : DrainDesc) : let t := s.runDrain c d
    (∃ co cp, t.data = { s.data with core := co, coreP := cp }) ∧ t.accq = s.accq ∧ s.DrainFlies t c d := by
  obtain ⟨u, f, hrun, hdrains, ha, hr, hh⟩ := s.runDrain_drains c d
  rw [hrun]
  obtain ⟨co, cp, _, _, _, _, hu⟩ := hdrains.rest
  refine ⟨⟨co, cp, ?_⟩, ?_, hdrains.flies ha hr hh⟩
  · rw [State.addFlight, State.modPart_data, hu]
  · rw [State.addFlight, State.modPart_accq, hu]

theorem State.length_of_mem_drainVals (s : State) {core : Nat} {d : DrainDesc} {xs : List Num} (h : xs ∈ s.drainVals core d) : xs.length = d.n := by
  obtain ⟨r, -, rfl⟩ := List.mem_map.mp h
  simp [upTo]
@[simp] theorem State.length_drainVals (s : State) (core : Nat) (d : DrainDesc) : (s.drainVals core d).length = d.m := by
  simp [State.drainVals, upTo]
@[simp] theorem State.length_drainRows (s : State) (core : Nat) (d : DrainDesc) : (s.drainRows core d).length = d.m := by
  simp [State.drainRows]
theorem State.getElem_drainRows (s : State) {core r : Nat} {d : DrainDesc} (hr : r < (s.drainRows core d).length) :
    (s.drainRows core d)[r].1 = (rowEncode d.fmt ((s.drainVals core d).getD r [])).1 := by
  have hvals : r < (s.drainVals core d).length := by simpa using hr
  simp only [State.drainRows, List.getElem_map, List.getD_eq_getElem _ _ hvals]
theorem State.drainRows_unscaled (s : State) {core : Nat} {d : DrainDesc} (hfmt : isMx d.fmt = false) :
    ∀ x ∈ s.drainRows core d, x.2 = [] ∧ x.1.length ≤ rowBytes d.fmt d.n := by
  intro x hx
  obtain ⟨xs, hxs, rfl⟩ := List.mem_map.mp hx
  rw [← s.length_of_mem_drainVals hxs]
  exact rowEncode_unscaled hfmt xs

/-- The rows of a drain to core memory in a format without scales stand at their addresses. -/
theorem State.runDrain_rows (s : State) (c : Ctx) {d : DrainDesc} (hkind : d.kind = 0) (hfmt : isMx d.fmt = false)
    (hfit : d.m = 1 ∨ rowBytes d.fmt d.n ≤ d.stride) {r : Nat} (hr : r < d.m) :
    let row := (rowEncode d.fmt ((s.drainVals (agNum c.agent) d).getD r [])).1
    Run.plain ((s.runDrain c d).read .core (coreAt (if d.dest = 1 then d.unit else agNum c.agent) (d.addr + r * d.stride)) row.length) = row := by
  intro row
  obtain ⟨origin, hdata⟩ := s.runDrain_data c (d := d) (by omega)
  have hunscaled := s.drainRows_unscaled (core := agNum c.agent) hfmt
  have hfits : (s.drainRows (agNum c.agent) d).length ≤ 1 ∨ ∀ x ∈ s.drainRows (agNum c.agent) d, x.1.length ≤ d.stride :=
    hfit.imp (fun h => by rw [State.length_drainRows, h]) fun h x hx => (hunscaled x hx).2.trans h
  have hread := s.plain_read_putRows (if d.dest = 1 then d.unit else agNum c.agent) d.addr d.stride d.scale (cdiv d.n 32) origin _ 0
    (fun x hx => (hunscaled x hx).1) hfits r (by rwa [State.length_drainRows])
  rw [State.getElem_drainRows, Nat.zero_add] at hread
  unfold State.read
  rw [hdata]
  exact hread

/-! ## The obligation -/

theorem State.image_modPart (s : State) (p : Nat) {f : Part → Part} (h : (f (s.part p)).image = (s.part p).image) (q : Nat) :
    ((s.modPart p f).part q).image = (s.part q).image := by
  by_cases hq : q = p
  · subst hq
    rw [State.part_modPart, h]
  · rw [State.part_modPart_ne _ _ hq]
/-- Issue changes no image. -/
theorem State.issued_image (u : State) (c : Ctx) (q : Nat) : ((u.issued c).part q).image = (u.part q).image := by
  unfold State.issued State.takeToken State.step1
  split
  · rw [State.image_modPart]
    rfl
  · rw [State.image_modPart, State.image_modPart]
    · rfl
    · rfl
theorem State.issued_drainNames (u : State) (c : Ctx) (p core : Nat) (d : DrainDesc) : (u.issued c).drainNames p core d = u.drainNames p core d := by
  unfold State.drainNames State.recordCore
  rw [State.issued_image]

/-- The transactions of a drain depend on no partition. -/
theorem State.modPart_drainWrites (s : State) (q : Nat) (f : Part → Part) (c : Ctx) (d : DrainDesc) : (s.modPart q f).drainWrites c d = s.drainWrites c d := rfl
theorem State.issued_drainWrites (u : State) (c : Ctx) (d : DrainDesc) :
    (u.issued c).drainWrites c d = u.drainWrites c d ∧ (u.issued c).accq = u.accq := by
  unfold State.issued State.takeToken State.step1
  split
  · exact ⟨State.modPart_drainWrites _ _ _ _ _, rfl⟩
  · exact ⟨(State.modPart_drainWrites _ _ _ _ _).trans (State.modPart_drainWrites _ _ _ _ _), rfl⟩

theorem State.Drifts.accq {s t : State} (h : s.Drifts t) : t.accq = s.accq := by
  obtain ⟨_, _, _, _, _, _, _, _, _, _, _, haccq, -⟩ := h.frame
  exact haccq

section
variable {s u : State} {p a : Nat} {c : Ctx} {b : List Byte} (hb : (u.part p).image.descOf c.bind c.r.arg 48 = some b)
  (hi : Issues s u 0x11 p a c (u.drainValid p (DrainDesc.parse b)) none (u.drainNames p (agNum a) (DrainDesc.parse b)))
include hi

theorem Issues.drainFlies {t : State} (h : (u.issued c).DrainFlies t c (DrainDesc.parse b)) : ∃ f, (t.part p).flights = (s.part p).flights ++ [f] ∧
    f.agent = a ∧ f.action = c.idx ∧ f.held = u.drainNames p (agNum a) (DrainDesc.parse b) := by
  obtain ⟨rfl, rfl⟩ := issueCtx_owner hi.due
  obtain ⟨-, -, -, -, hflights⟩ := State.issued_keeps hi.atPoint
  rw [← hflights, ← u.issued_drainNames c]
  exact h

theorem Issues.drainQueue : (u.issued c).drainWrites c (DrainDesc.parse b) = u.drainWrites c (DrainDesc.parse b) ∧ (u.issued c).accq = s.accq := by
  obtain ⟨hwrites, haccq⟩ := u.issued_drainWrites c (DrainDesc.parse b)
  refine ⟨hwrites, haccq.trans ?_⟩
  rw [hi.atPoint]
  exact (s.drifts_toCycle p c.point).accq

include hb

theorem exec_drain : exec (.drain p a) s = .next (if (DrainDesc.parse b).dest = 2 then (u.issued c).runDrainAcc c (DrainDesc.parse b)
    else (u.issued c).runDrain c (DrainDesc.parse b)) :=
  exec_matrix_ok (run := fun t => if (DrainDesc.parse b).dest = 2 then t.runDrainAcc c (DrainDesc.parse b) else t.runDrain c (DrainDesc.parse b)) hb hi rfl rfl

end

/-- Settles O29: a COMBINE walks its region once; a drain sends its region, or writes row after row, none of which reaches into another. -/
theorem tilesCombinedAndDrained : Obligations.TilesCombinedAndDrained := by
  unfold Obligations.TilesCombinedAndDrained
  constructor
  · intro s u p a c b d hb hi v core
    obtain ⟨rfl, rfl⟩ := issueCtx_owner hi.due
    obtain ⟨hdata, -, -, -, hflights⟩ := State.issued_keeps hi.atPoint
    have hexec : exec (.combine c.p c.agent) s = .next (v.runCombine c d) := exec_matrix_ok (run := fun t => t.runCombine c d) hb hi rfl rfl
    obtain ⟨galley, hwalked, hin, hout⟩ := v.runCombine_spec c (d.combine_n_le hi.good)
    rw [hdata] at hout
    refine ⟨_, hexec, fun m n hm hn => ?_, fun k hk => ?_, ?_, ?_⟩
    · rw [hwalked.galley, State.read, ← hdata]
      exact hin m n hm hn
    · rw [hwalked.galley]
      exact hout k fun ⟨m, n, hm, hn, hkey⟩ => hk m n hm hn hkey
    · rw [← hdata]
      exact hwalked.data
    · rw [← hflights]
      exact hwalked.flight
  · intro s u p a c b d hb hi core
    obtain ⟨hdata, -, -, hnum, -⟩ := State.issued_keeps hi.atPoint
    obtain ⟨hwrites, haccq⟩ := hi.drainQueue
    have hexec := exec_drain hb hi
    split at hexec
    · next hdest =>
      obtain ⟨hsame, hnums, hsent, hflight⟩ := (u.issued c).runDrainAcc_sends c d
      rw [hdata] at hsame
      rw [hwrites, haccq] at hsent
      refine ⟨_, hexec, ?_⟩
      rw [hsame]
      exact ⟨rfl, rfl, rfl, rfl, rfl, rfl, hi.drainFlies hflight, fun _ => ⟨rfl, hnums.trans hnum, hsent⟩, fun h => absurd hdest h, fun h => absurd hdest h⟩
    · next hdest =>
      obtain ⟨⟨co, cp, hkept⟩, hsent, hflight⟩ := (u.issued c).runDrain_keeps c d
      rw [hdata] at hkept
      refine ⟨_, hexec, ?_⟩
      rw [hkept]
      refine ⟨rfl, rfl, rfl, rfl, rfl, rfl, hi.drainFlies hflight, fun h => absurd h hdest, fun _ => hsent.trans haccq, fun _ hkind hfmt hfit r hr => ?_⟩
      have hvals : (u.issued c).drainVals core d = s.drainVals core d := by
        unfold State.drainVals
        rw [hdata]
      obtain ⟨-, hagent⟩ := issueCtx_owner hi.due
      have hrows := (u.issued c).runDrain_rows c hkind hfmt hfit hr
      rwa [hagent, hvals] at hrows

end Sys2Proof.Machine
end

section
/-! Rows of bytes that a fold over states writes to core memory: what stands in each of them, and what lies outside all of them (R106, R164). -/
namespace Sys2Proof.Machine

open Sys2Proof

/-! ## Bytes of core memory -/

theorem Data.byte_core (d : Data) (k : Nat) : d.byte .core k = tget 0 d.core k := by simp [Data.byte, Data.bytes, Data.base]

/-- Bytes of core memory read back in one piece. -/
theorem State.plain_read_core {s : State} {a : Nat} {bs : List Byte} (h : ∀ i, i < bs.length → tget 0 s.data.core (a + i) = bs.getD i 0) :
    Run.plain (s.read .core a bs.length) = bs := by
  unfold State.read
  rw [Data.plain_read]
  refine List.ext_getElem (by simp [upTo]) fun i _ hi => ?_
  simp only [upTo, List.getElem_map, List.getElem_range]
  rw [Data.byte_core, h i hi, List.getD_eq_getElem _ _ hi]

/-- A step that writes `bs` from address `a` of core memory on, and no other byte there. -/
def PutsAt (step : State → State) (a : Nat) (bs : List Byte) : Prop :=
  ∀ s k, tget 0 (step s).data.core k = if a ≤ k ∧ k < a + bs.length then bs.getD (k - a) 0 else tget 0 s.data.core k

theorem putsAt_write (a : Nat) (r : Run) : PutsAt (fun s => s.write .core a r) a r.plain := by
  intro s k
  have hbyte := s.data.byte_write .core a r k
  rw [Data.byte_core, Data.byte_core] at hbyte
  rw [Run.plain, List.length_map]
  exact hbyte
theorem putsAt_id (a : Nat) : PutsAt id a [] := by
  intro s k
  rw [if_neg (by simp)]
  rfl

/-! ## Steps one after another -/

section
variable {α : Type} {step : State → α → State} {place : α → Nat} {bytes : α → List Byte} {l : List α}

/-- A byte in none of the rows stays. -/
theorem foldl_putsAt_out (h : ∀ x ∈ l, PutsAt (step · x) (place x) (bytes x)) {k : Nat} (hk : ∀ x ∈ l, k < place x ∨ place x + (bytes x).length ≤ k)
    (s : State) : tget 0 (l.foldl step s).data.core k = tget 0 s.data.core k := by
  refine List.foldlRecOn (motive := fun t : State => tget 0 t.data.core k = tget 0 s.data.core k) _ _ rfl fun t ht x hx => ?_
  have hout := hk x hx
  rw [h x hx t k, if_neg (by omega), ht]

/-- Each of several rows, none of which reaches into a later one, stands at its place. -/
theorem plain_read_foldl_putsAt (h : ∀ x ∈ l, PutsAt (step · x) (place x) (bytes x))
    (hrows : l.Pairwise fun x y => place x + (bytes x).length ≤ place y) {x : α} (hx : x ∈ l) (s : State) :
    Run.plain ((l.foldl step s).read .core (place x) (bytes x).length) = bytes x := by
  induction l generalizing s with
  | nil => exact absurd hx List.not_mem_nil
  | cons y l ih =>
    obtain ⟨hy, hl⟩ := List.forall_mem_cons.mp h
    obtain ⟨hbefore, hrest⟩ := List.pairwise_cons.mp hrows
    rw [List.foldl_cons]
    obtain rfl | hx := List.mem_cons.mp hx
    · refine State.plain_read_core fun i hi => ?_
      rw [foldl_putsAt_out hl fun z hz => .inl (by have := hbefore z hz; omega), hy s, if_pos (by omega), Nat.add_sub_cancel_left]
    · exact ih hl hrest hx _

end

/-- Rows that are no longer than their pitch reach into no later one, and one row alone reaches into none. -/
theorem pairwise_rows {α : Type} {l : List α} {bytes : α → List Byte} (core addr : Nat) {pitch : Nat}
    (hfit : l.length ≤ 1 ∨ ∀ x ∈ l, (bytes x).length ≤ pitch) : l.zipIdx.Pairwise fun x y =>
      coreAt core (addr + x.2 * pitch) + (bytes x.1).length ≤ coreAt core (addr + y.2 * pitch) := by
  rw [List.pairwise_iff_getElem]
  intro i j hi hj hij
  rw [List.length_zipIdx] at hi hj
  have hlen : (bytes l[i]).length ≤ pitch := hfit.elim (fun h => by omega) fun h => h _ (List.getElem_mem hi)
  have hnext : (i + 1) * pitch ≤ j * pitch := Nat.mul_le_mul_right _ hij
  rw [Nat.succ_mul] at hnext
  simp only [List.getElem_zipIdx, Nat.zero_add, coreAt]
  omega

/-- The entry of a list at an index, with that index. -/
theorem getElem_mem_zipIdx {α : Type} {l : List α} {r : Nat} (hr : r < l.length) : (l[r], r) ∈ l.zipIdx :=
  List.mem_zipIdx_iff_getElem?.mpr (List.getElem?_eq_getElem hr)

end Sys2Proof.Machine
end

section
/-! The vector rows (R168 to R173, R180 to R185): what an action changes besides its results. -/
namespace Sys2Proof.Machine

open Sys2Proof

/-! ## What a vector action may change -/

/-- Core memory and its poison, events, fault records, free values and the flags of vector engines change, and no flag is lost; of the partitions
neither images nor actions in flight do. -/
structure State.Computes (s t : State) : Prop where
  rest : ∃ co cp e sc ve fc ps, t =
    { s with data := { s.data with core := co, coreP := cp }, es := e, sec := sc, num := { s.num with ve := ve }, freeCtr := fc, parts := ps }
  flags : ∀ core, tget 0 s.num.ve core &&& tget 0 t.num.ve core = tget 0 s.num.ve core
  parts : ∀ q, (t.part q).image = (s.part q).image ∧ (t.part q).flights = (s.part q).flights

theorem State.Computes.refl (s : State) : s.Computes s := ⟨⟨_, _, _, _, _, _, _, rfl⟩, fun _ => BitVec.and_self, fun _ => ⟨rfl, rfl⟩⟩
theorem State.Computes.trans {s t u : State} (h : s.Computes t) (h' : t.Computes u) : s.Computes u := by
  refine ⟨?_, fun core => ?_, fun q => ⟨(h'.parts q).1.trans (h.parts q).1, (h'.parts q).2.trans (h.parts q).2⟩⟩
  · obtain ⟨_, _, _, _, _, _, _, rfl⟩ := h.rest
    obtain ⟨_, _, _, _, _, _, _, rfl⟩ := h'.rest
    exact ⟨_, _, _, _, _, _, _, rfl⟩
  · rw [← h.flags core, BitVec.and_assoc, h'.flags core]

theorem State.Drains.computes {s t : State} (h : s.Drains t) (hnum : t.num = s.num) : s.Computes t := by
  obtain ⟨⟨co, cp, e, sc, nm, ps, rfl⟩, hparts⟩ := h
  obtain rfl : nm = s.num := hnum
  exact ⟨⟨co, cp, e, sc, s.num.ve, s.freeCtr, ps, rfl⟩, fun _ => BitVec.and_self, hparts⟩
theorem State.computes_write (s : State) (a : Nat) (r : Run) : s.Computes (s.write .core a r) := (s.drains_write a r).computes rfl
theorem State.Alarms.computes {s t : State} (h : s.Alarms t) : s.Computes t := h.drains.computes h.num
theorem State.computes_draw (s : State) : s.Computes s.draw.2 := ⟨⟨_, _, _, _, _, _, _, rfl⟩, fun _ => BitVec.and_self, fun _ => ⟨rfl, rfl⟩⟩
/-- Flags accrue (R157). -/
theorem State.computes_orVe (s : State) (core : Nat) (f : Flags) : s.Computes (s.orVe core f) := by
  refine ⟨⟨_, _, _, _, _, _, _, rfl⟩, fun k => ?_, fun _ => ⟨rfl, rfl⟩⟩
  have hnew : (s.orVe core f).num.ve = tmod 0 s.num.ve core (· ||| f) := rfl
  rw [hnew]
  by_cases hk : k = core
  · subst hk
    rw [tget_tmod_same]
    generalize tget 0 s.num.ve k = x
    ext i
    simp only [BitVec.getElem_and, BitVec.getElem_or, Bool.and_or_distrib_left, Bool.and_self]
    cases x[i] <;> simp
  · rw [tget_tmod_ne _ _ _ hk, BitVec.and_self]

theorem State.Computes.foldl {α : Type} {step : State → α → State} (h : ∀ s x, State.Computes s (step s x)) (l : List α) (s : State) :
    s.Computes (l.foldl step s) :=
  List.foldlRecOn (motive := fun t => s.Computes t) _ _ (.refl s) fun t ht x _ => ht.trans (h t x)

/-! ## The record of a per-tensor scale, and rows under it -/

@[simp] theorem State.putRow_num (s : State) (core addr stride scale per origin : Nat) (x : (List Byte × List Byte) × Nat) :
    (s.putRow core addr stride scale per origin x).num = s.num := by
  unfold State.putRow
  dsimp only
  split <;> rfl
theorem State.putRows_num (s : State) (core addr stride scale per origin : Nat) (rows : List (List Byte × List Byte)) :
    (s.putRows core addr stride scale per origin rows).num = s.num := by
  rw [State.putRows_eq]
  exact List.foldlRecOn (motive := fun t : State => t.num = s.num) _ _ rfl fun t ht x _ => (t.putRow_num _ _ _ _ _ _ x).trans ht
theorem State.tensorWrite_num (s : State) (p core op opId n fmt hist margin addr : Nat) (vals : List (Num × Nat)) (others : Nat → List Num) :
    (s.tensorWrite p core op opId n fmt hist margin addr vals others).2.2.num = s.num := by
  unfold State.tensorWrite
  extract_lets unit low run all g w g' t
  split
  · dsimp only
    split
    · exact State.post_num _ _ _ _ _ _
    · rfl
  · rfl

/-! ## The three writes of an action -/

/-- Bytes between the rows of OUT (Table 06-2). -/
def VecDesc.outPitch (d : VecDesc) (op : Nat) : Nat := if (d.outShape op).1 = 1 then 0 else d.pitch (d.outFmt op)

/-- One row of results with its block scales (R164). -/
def State.putLine (core op : Nat) (d : VecDesc) (s : State) (x : List (Num × Nat) × Nat) : State :=
  let e := vecEncode (d.outFmt op) x.1
  let s := s.write .core (coreAt core (d.out + x.2 * d.outPitch op)) e.1
  if e.2.1.isEmpty then s else s.write .core (coreAt core (d.oScale + x.2 * cdiv (d.outShape op).2 32)) e.2.1

theorem State.computes_putLine (core op : Nat) (d : VecDesc) (s : State) (x : List (Num × Nat) × Nat) : s.Computes (State.putLine core op d s x) := by
  unfold State.putLine
  extract_lets e t
  split
  · exact s.computes_write _ _
  · exact (s.computes_write _ _).trans (State.computes_write _ _ _)

/-- Without a per-tensor record the rows are written one by one (R170). -/
theorem State.vecWrite_lines (s : State) (p core : Nat) {op : Nat} {d : VecDesc} (rows : List (List (Num × Nat)))
    (h : perTensor (d.outFmt op) d.oScale = false) : (s.vecWrite p core op d rows).1 = rows.zipIdx.foldl (State.putLine core op d) s := by
  unfold State.vecWrite
  simp only [h, Bool.false_eq_true, if_false]
  exact (List.foldl_hom Prod.fst fun _ _ => rfl).symm

theorem State.computes_vecWrite (s : State) (p core op : Nat) (d : VecDesc) (rows : List (List (Num × Nat))) :
    s.Computes (s.vecWrite p core op d rows).1 := by
  by_cases h : perTensor (d.outFmt op) d.oScale = true
  · unfold State.vecWrite
    simp only [h, if_true]
    exact ((s.drains_tensorWrite _ _ _ _ _ _ _ _ _ _ _).trans (State.drains_putRows _ _ _ _ _ _ _ _)).computes
      ((State.putRows_num _ _ _ _ _ _ _ _).trans (s.tensorWrite_num _ _ _ _ _ _ _ _ _ _ _))
  · rw [s.vecWrite_lines p core rows (Bool.not_eq_true _ ▸ h)]
    exact State.Computes.foldl (State.computes_putLine core op d) _ _

/-- The remainders of one row of SPLIT (R173). -/
def State.putRemainders (core : Nat) (d : VecDesc) (s : State) (x : VOut × Nat) : State :=
  s.write .core (coreAt core (d.z + x.2 * d.stride * 2)) (x.1.extra.flatMap fun e => (leBytes 2 e.1).map fun b => (b, e.2))

/-- The statistics record of a row (R182, R184). -/
def statBytes (a b e : Num) : List Byte := leBytes 4 (fp32Code a) ++ leBytes 4 (fp32Code b) ++ leBytes 4 (fp32Code e) ++ leBytes 4 0
def State.putStats (core : Nat) (d : VecDesc) (s : State) (x : VOut × Nat) : State := match x.1.stats with
  | some (a, b, e) => s.write .core (coreAt core (d.stat + 16 * x.2)) (Run.tainted x.1.statPoison (statBytes a b e))
  | none => s

theorem State.computes_putStats (core : Nat) (d : VecDesc) (s : State) (x : VOut × Nat) : s.Computes (State.putStats core d s x) := by
  unfold State.putStats
  split
  · exact s.computes_write _ _
  · exact .refl s

/-- The state with the rows of OUT. -/
def State.linesWritten (s : State) (c : Ctx) (op : Nat) (d : VecDesc) : State :=
  (s.vecWrite c.p (agNum c.agent) op d (vecLines op (s.vecOuts (agNum c.agent) op d))).1
/-- And with the remainders of a SPLIT. -/
def State.remaindersWritten (s : State) (c : Ctx) (op : Nat) (d : VecDesc) : State :=
  if op = 0x2E then (s.vecOuts (agNum c.agent) op d).zipIdx.foldl (State.putRemainders (agNum c.agent) d) (s.linesWritten c op d) else s.linesWritten c op d
/-- And with the statistics: all that a vector action writes. -/
def State.vecWritten (s : State) (c : Ctx) (op : Nat) (d : VecDesc) : State :=
  if writesStats op then (s.vecOuts (agNum c.agent) op d).zipIdx.foldl (State.putStats (agNum c.agent) d) (s.remaindersWritten c op d)
  else s.remaindersWritten c op d

theorem State.computes_vecWritten (s : State) (c : Ctx) (op : Nat) (d : VecDesc) : s.Computes (s.vecWritten c op d) := by
  have hlined : s.Computes (s.linesWritten c op d) := s.computes_vecWrite _ _ _ _ _
  have hsplit : s.Computes (s.remaindersWritten c op d) := by
    unfold State.remaindersWritten
    split
    · exact hlined.trans (State.Computes.foldl (fun t x => t.computes_write _ _) _ _)
    · exact hlined
  unfold State.vecWritten
  split
  · exact hsplit.trans (State.Computes.foldl (State.computes_putStats _ d) _ _)
  · exact hsplit

/-! ## The action -/

/-- An action writes, its flags accrue, its alarms go off; then it joins the actions in flight. -/
theorem State.runVector_computes (s : State) (c : Ctx) (op : Nat) (d : VecDesc) : ∃ v f, s.runVector c op d = v.addFlight c.p f ∧ s.Computes v ∧
    v.data = (s.vecWritten c op d).data ∧ f.agent = c.agent ∧ f.action = c.idx ∧ f.held = v.vecNames c.p op (agNum c.agent) d := by
  unfold State.runVector
  extract_lets core outs
  split
  next origin own _ =>
  extract_lets bank
  split
  next s1 ofl recO h1 =>
  extract_lets s2 s3 s4
  have hlined : s.linesWritten c op d = s1 := congrArg Prod.fst h1
  have hstored : s.vecWritten c op d = s3 := by
    unfold State.vecWritten State.remaindersWritten
    rw [hlined]
    rfl
  have hwritten : s.Computes s3 := hstored ▸ s.computes_vecWritten c op d
  split
  next k1 s5 h5 =>
  split
  next k2 s6 h6 =>
  cases h5
  cases h6
  extract_lets cyc at' last s7 nans s8
  have hflags : s3.Computes s4.draw.2.draw.2 := ((s3.computes_orVe _ _).trans (State.computes_draw _)).trans (State.computes_draw _)
  have hconsume : s4.draw.2.draw.2.Alarms s7 := State.alarms_consume _ _ _ _ _ _ _
  have halarms : s4.draw.2.draw.2.Alarms s8 := hconsume.trans (s7.alarms_trapNans _ _ _ _ _ _ _ _)
  refine ⟨s8, _, rfl, (hwritten.trans hflags).trans halarms.computes, ?_, rfl, rfl, rfl⟩
  rw [halarms.data, hstored]
  rfl

/-! ## The row -/

theorem exec_vectorRows {p a : Nat} : ∀ x ∈ vectorRows p a, ∀ s, exec x.2 s = .next (s.issueVector x.1 p a) := by
  unfold vectorRows
  simp only [List.forall_mem_cons]
  exact ⟨fun _ => rfl, fun _ => rfl, fun _ => rfl, fun _ => rfl, fun _ => rfl, fun _ => rfl, fun _ => rfl, fun _ => rfl, fun _ => rfl, fun _ => rfl,
    fun _ => rfl, fun _ => rfl, fun _ => rfl, fun _ => rfl, fun _ => rfl, nofun⟩

/-- Time changes no flag. -/
theorem State.Drifts.ve {s t : State} (h : s.Drifts t) : t.num.ve = s.num.ve := by
  obtain ⟨_, _, _, _, _, _, _, _, _, _, _, _, rfl⟩ := h.1
  rfl
theorem State.issued_blocks (u : State) (c : Ctx) : (u.issued c).mem = u.mem ∧ (u.issued c).hif = u.hif ∧ (u.issued c).se = u.se := by
  unfold State.issued State.takeToken State.step1
  split <;> exact ⟨rfl, rfl, rfl⟩
/-- The resources that an action names depend on the partition's image alone. -/
theorem State.vecNames_congr {s t : State} {p : Nat} (h : (t.part p).image = (s.part p).image) (op core : Nat) (d : VecDesc) :
    t.vecNames p op core d = s.vecNames p op core d := by
  unfold State.vecNames State.recordCore
  rw [h]

/-- What issue and time before it keep for a vector action: flags, commands, stream engines. -/
theorem State.issued_keeps_vector {s u : State} {p : Nat} {c : Ctx} (hu : u = s.toCycle p c.point) : (u.issued c).num.ve = s.num.ve ∧
    (u.issued c).hif = s.hif ∧ (u.issued c).se = s.se := by
  subst hu
  have htime := s.drifts_toCycle p c.point
  obtain ⟨-, -, -, -, -, -, htimeHif, -, htimeSe, -⟩ := htime.frame
  obtain ⟨-, hhif, hse⟩ := (s.toCycle p c.point).issued_blocks c
  obtain ⟨-, hnum⟩ := (s.toCycle p c.point).issued_frame c
  exact ⟨by rw [hnum, htime.ve], hhif.trans htimeHif, hse.trans htimeSe⟩

/-- A vector row whose record passes its checks runs. -/
theorem exec_vector_ok {s u : State} {op p a : Nat} {i : Instr} {c : Ctx} {b : List Byte} (hrow : (op, i) ∈ vectorRows p a)
    (hb : (u.part p).image.descOf c.bind c.r.arg 64 = some b)
    (hi : Issues s u op p a c ((VecDesc.parse b).valid op) ((u.part p).vecBusy a) (u.vecNames p op (agNum a) (VecDesc.parse b))) :
    exec i s = .next ((u.issued c).runVector c op (VecDesc.parse b)) :=
  exec_matrix_ok (run := fun t => t.runVector c op (VecDesc.parse b)) hb hi (exec_vectorRows _ hrow s) rfl

/-- Settles O30: an action changes only what `State.Computes` names, and then joins the actions in flight. -/
theorem vectorRowsRun : Obligations.VectorRowsRun := by
  unfold Obligations.VectorRowsRun
  intro s u op p a i c b hrow d hb hi
  obtain ⟨hp, hagent⟩ := issueCtx_owner hi.due
  obtain ⟨hdata, hlnk, hrst, -, hflights⟩ := State.issued_keeps hi.atPoint
  obtain ⟨hve, hhif, hse⟩ := State.issued_keeps_vector hi.atPoint
  obtain ⟨hmem, -⟩ := u.issued_blocks c
  obtain ⟨v, f, hrun, hcomputes, -, hfa, hfr, hfh⟩ := (u.issued c).runVector_computes c op d
  obtain ⟨-, -, -, hjoined⟩ := v.works_addFlight c.p f
  obtain ⟨himage, hsame⟩ := hcomputes.parts p
  have hflags := hcomputes.flags (agNum a)
  rw [hve] at hflags
  refine ⟨_, exec_vector_ok hrow hb hi, rfl, ?_⟩
  rw [hrun]
  refine ⟨⟨{ f with forme := (v.part p).cur }, ?_, hfa.trans hagent, hfr, ?_⟩, hflags, ?_⟩
  · rw [← hflights p, ← hsame, ← hp]
    exact hjoined
  · refine hfh.trans ?_
    rw [hp, hagent]
    exact State.vecNames_congr (himage.trans (u.issued_image c p)) op (agNum a) d
  · obtain ⟨_, _, _, _, _, _, _, rfl⟩ := hcomputes.rest
    rw [← hdata]
    exact ⟨rfl, hmem, hlnk, hhif, hrst, hse⟩

end Sys2Proof.Machine
end

section
/-! The results, statistics and remainders of the vector rows (R164, R168, R173, R180, R182, R184): how long each is and where it stands. -/
namespace Sys2Proof.Machine

open Sys2Proof

/-! ## Rows of results and their length -/

/-- The results of the rows of an action other than COLRED. -/
theorem State.vecOuts_rows (s : State) (core : Nat) {op : Nat} (d : VecDesc) (h : op ≠ 0x2C) :
    s.vecOuts core op d = (upTo d.rows).map fun r => vecRow op d.func (fp32 d.const) (s.vecRowAt core op d r) := by
  unfold State.vecOuts
  rw [if_neg h, List.map_map]
  rfl

/-- The lines that an action writes are those of its rows, of every row for ROWRED, and down the columns for COLRED. -/
theorem State.vecLines_vecOuts (s : State) (core op : Nat) (d : VecDesc) :
    vecLines op (s.vecOuts core op d) = (upTo (d.outShape op).1).map (vectorLine s core op d) := by
  by_cases hcol : op = 0x2C
  · subst hcol
    rfl
  · rw [s.vecOuts_rows core d hcol]
    unfold vecLines VecDesc.outShape
    by_cases hrow : op = 0x24
    · subst hrow
      simp [vectorLine, upTo, List.flatMap_def, Function.comp_def]
    · simp [vectorLine, hcol, hrow, Function.comp_def]

@[simp] theorem length_upTo (n : Nat) : (upTo n).length = n := List.length_range
@[simp] theorem length_maskBits (n : Nat) (run : Run) : (maskBits n run).length = n := by simp [maskBits]
@[simp] theorem length_vecRowIn (fmt n : Nat) (run scales : Run) (tensor : Nat) (mask : Nat → Bool) : (vecRowIn fmt n run scales tensor mask).length = n := by
  simp [vecRowIn]
@[simp] theorem State.length_vecRowAt_xs (s : State) (core op : Nat) (d : VecDesc) (r : Nat) : (s.vecRowAt core op d r).xs.length = d.n :=
  length_vecRowIn _ _ _ _ _ _
@[simp] theorem State.length_vecRowAt_mask (s : State) (core op : Nat) (d : VecDesc) (r : Nat) : (s.vecRowAt core op d r).mask.length = d.n :=
  length_maskBits _ _
/-- A result stands at every position of the mask (R561). -/
@[simp] theorem length_scatter (mask : List Bool) : ∀ ys, (scatter mask ys).length = mask.length := by
  induction mask with
  | nil => exact fun _ => rfl
  | cons b mask ih =>
    intro ys
    cases b with
    | true => exact congrArg Nat.succ (ih ys)
    | false => cases ys with
      | nil => exact congrArg Nat.succ (ih [])
      | cons y ys => exact congrArg Nat.succ (ih ys)
@[simp] theorem length_vecRowElem (op func : Nat) (k : Num) (r : VRow) : (vecRowElem op func k r).out.length = r.xs.length := by simp [vecRowElem]
theorem length_vecRowElem_extra (func : Nat) (k : Num) (r : VRow) : (vecRowElem 0x2E func k r).extra.length = r.xs.length := by simp [vecRowElem]
@[simp] theorem length_vecColred (n : Nat) (rs : List VRow) : (vecColred n rs).out.length = n := by simp [vecColred]

theorem length_vecRowRow (op : Nat) (k : Num) (r : VRow) : (vecRowRow op k r).out.length = r.mask.length := by
  unfold vecRowRow
  dsimp only
  rw [List.length_map, length_scatter]

/-- A row other than ROWRED's yields a result for each of its elements. -/
theorem State.length_vecRow (s : State) (core : Nat) {op : Nat} (d : VecDesc) (r : Nat) (h : op ≠ 0x24) :
    (vecRow op d.func (fp32 d.const) (s.vecRowAt core op d r)).out.length = d.n := by
  unfold vecRow
  rw [if_neg h]
  split
  · rw [length_vecRowRow, State.length_vecRowAt_mask]
  · rw [length_vecRowElem, State.length_vecRowAt_xs]

theorem length_vectorLine (s : State) (core op : Nat) (d : VecDesc) (r : Nat) : (vectorLine s core op d r).length = (d.outShape op).2 := by
  unfold vectorLine VecDesc.outShape
  by_cases hcol : op = 0x2C
  · subst hcol
    exact length_vecColred _ _
  · by_cases hrow : op = 0x24
    · subst hrow
      simp [vecRow, vecRowRed, List.length_flatMap, Function.comp_def]
    · simpa [hcol, hrow] using s.length_vecRow core d r hrow

/-! ## The bytes of a row -/

/-- A row of a format without scales is no longer than its elements, and has no block scales. -/
theorem vecEncode_unscaled {fmt : Nat} (h : isMx fmt = false) (vals : List (Num × Nat)) :
    (vecEncode fmt vals).2.1 = [] ∧ (Run.plain (vecEncode fmt vals).1).length ≤ rowBytes fmt vals.length := by
  obtain ⟨hscale, hlen⟩ := rowEncode_unscaled h (vals.map (·.1))
  rw [List.length_map] at hlen
  unfold vecEncode Run.plain
  dsimp only
  rw [hscale]
  exact ⟨rfl, by simpa using hlen⟩

/-- What R167 asks of the distance between rows. -/
theorem VecDesc.stride_of_valid {d : VecDesc} {op : Nat} (h : d.valid op = true) : d.n ≤ d.stride ∧ 8 ∣ d.stride := by
  simp only [VecDesc.valid, Bool.and_eq_true, decide_eq_true_eq] at h
  omega

/-- A row of `n` elements fits the distance between rows. -/
theorem VecDesc.rowBytes_le_pitch {d : VecDesc} {op fmt : Nat} (h : d.valid op = true) (hfmt : isMx fmt = false) : rowBytes fmt d.n ≤ d.pitch fmt := by
  obtain ⟨hle, q, hq⟩ := VecDesc.stride_of_valid h
  have hbits : d.n * fmtBits fmt ≤ 8 * (q * fmtBits fmt) := by
    rw [← Nat.mul_assoc, ← hq]
    exact Nat.mul_le_mul_right _ hle
  unfold rowBytes VecDesc.pitch cdiv
  rw [hfmt, if_neg Bool.false_ne_true, hq, Nat.mul_assoc]
  omega

/-- Several rows of OUT lie apart, a single one has no neighbour. -/
theorem VecDesc.rowBytes_le_outPitch {d : VecDesc} {op : Nat} (h : d.valid op = true) (hfmt : isMx (d.outFmt op) = false) :
    (d.outShape op).1 = 1 ∨ rowBytes (d.outFmt op) (d.outShape op).2 ≤ d.outPitch op := by
  refine or_iff_not_imp_left.mpr fun hmany => ?_
  unfold VecDesc.outPitch
  rw [if_neg hmany]
  have hn : (d.outShape op).2 = d.n := by
    unfold VecDesc.outShape at hmany ⊢
    split
    · next hop => exact absurd (by rw [if_pos hop]) hmany
    · split <;> rfl
  rw [hn]
  exact VecDesc.rowBytes_le_pitch h hfmt

/-! ## Where the rows of OUT stand -/

/-- The bytes of a row of results in the format of OUT. -/
def VecDesc.lineBytes (d : VecDesc) (op : Nat) (x : List (Num × Nat)) : List Byte := Run.plain (vecEncode (d.outFmt op) x).1

theorem putsAt_putLine (core : Nat) {op : Nat} {d : VecDesc} (hfmt : isMx (d.outFmt op) = false) (x : List (Num × Nat) × Nat) :
    PutsAt (State.putLine core op d · x) (coreAt core (d.out + x.2 * d.outPitch op)) (d.lineBytes op x.1) := by
  obtain ⟨hscale, -⟩ := vecEncode_unscaled hfmt x.1
  have hstep : (State.putLine core op d · x) = fun s => s.write .core (coreAt core (d.out + x.2 * d.outPitch op)) (vecEncode (d.outFmt op) x.1).1 := by
    funext s
    unfold State.putLine
    simp only [hscale, List.isEmpty_nil, if_true]
  rw [hstep]
  exact putsAt_write _ _

/-- The lines of an action, in a format without scales, reach into no other one. -/
theorem State.pairwise_lines (s : State) (core : Nat) {op : Nat} {d : VecDesc} (h : d.valid op = true) (hfmt : isMx (d.outFmt op) = false) :
    ((upTo (d.outShape op).1).map (vectorLine s core op d)).zipIdx.Pairwise fun x y =>
      coreAt core (d.out + x.2 * d.outPitch op) + (d.lineBytes op x.1).length ≤ coreAt core (d.out + y.2 * d.outPitch op) := by
  refine pairwise_rows core d.out ((VecDesc.rowBytes_le_outPitch h hfmt).imp (fun hone => ?_) fun hfit x hx => ?_)
  · rw [List.length_map, length_upTo, hone]
  · obtain ⟨r, -, rfl⟩ := List.mem_map.mp hx
    obtain ⟨-, hlen⟩ := vecEncode_unscaled hfmt (vectorLine s core op d r)
    rw [length_vectorLine] at hlen
    exact hlen.trans hfit

/-! ## Statistics and remainders -/

/-- What stands in the statistics record of a row. -/
def VOut.record (o : VOut) : List Byte := match o.stats with
  | some (a, b, e) => statBytes a b e
  | none => []
theorem VOut.record_some {o : VOut} {a b e : Num} (h : o.stats = some (a, b, e)) : o.record = statBytes a b e := by
  unfold VOut.record
  rw [h]
theorem VOut.record_none {o : VOut} (h : o.stats = none) : o.record = [] := by
  unfold VOut.record
  rw [h]
theorem VOut.length_record (o : VOut) : o.record.length ≤ 16 := by
  unfold VOut.record
  split
  · simp [statBytes]
  · exact Nat.zero_le _

theorem putsAt_putStats (core : Nat) (d : VecDesc) (x : VOut × Nat) :
    PutsAt (State.putStats core d · x) (coreAt core (d.stat + x.2 * 16)) x.1.record := by
  rw [Nat.mul_comm x.2]
  rcases h : x.1.stats with _ | ⟨a, b, e⟩
  · have hstep : (State.putStats core d · x) = id := by
      funext s
      unfold State.putStats
      rw [h]
      rfl
    rw [hstep, VOut.record_none h]
    exact putsAt_id _
  · have hstep : (State.putStats core d · x) =
        fun s => s.write .core (coreAt core (d.stat + 16 * x.2)) (Run.tainted x.1.statPoison (statBytes a b e)) := by
      funext s
      unfold State.putStats
      rw [h]
    have hput := putsAt_write (coreAt core (d.stat + 16 * x.2)) (Run.tainted x.1.statPoison (statBytes a b e))
    rw [hstep, VOut.record_some h]
    rwa [Run.plain_tainted] at hput

/-- The remainders of a row as bytes (R173). -/
def VOut.remainders (o : VOut) : List Byte := o.extra.flatMap fun e => leBytes 2 e.1

theorem putsAt_putRemainders (core : Nat) (d : VecDesc) (x : VOut × Nat) :
    PutsAt (State.putRemainders core d · x) (coreAt core (d.z + x.2 * (d.stride * 2))) x.1.remainders := by
  have hput := putsAt_write (coreAt core (d.z + x.2 * d.stride * 2)) (x.1.extra.flatMap fun e => (leBytes 2 e.1).map fun b => (b, e.2))
  rw [Run.plain, List.map_flatMap, Nat.mul_assoc] at hput
  simp only [List.map_map, Function.comp_def, List.map_id'] at hput
  unfold State.putRemainders
  rw [Nat.mul_assoc]
  exact hput

theorem VOut.length_remainders (o : VOut) : o.remainders.length = 2 * o.extra.length := by
  simp [VOut.remainders, List.length_flatMap, Nat.mul_comm]

/-- A SPLIT has a remainder for each of its elements. -/
theorem State.length_remainders (s : State) (core : Nat) (d : VecDesc) (r : Nat) :
    (vecRow 0x2E d.func (fp32 d.const) (s.vecRowAt core 0x2E d r)).remainders.length = 2 * d.n := by
  rw [VOut.length_remainders]
  exact congrArg (2 * ·) ((length_vecRowElem_extra d.func (fp32 d.const) _).trans (s.length_vecRowAt_xs _ _ _ _))

/-- Row `r` of what an action other than COLRED yields, with its number. -/
theorem State.mem_vecOuts (s : State) (core : Nat) {op : Nat} {d : VecDesc} (h : op ≠ 0x2C) {r : Nat} (hr : r < d.rows) :
    (vecRow op d.func (fp32 d.const) (s.vecRowAt core op d r), r) ∈ (s.vecOuts core op d).zipIdx := by
  rw [s.vecOuts_rows core d h]
  have hmem := getElem_mem_zipIdx (l := (upTo d.rows).map fun r => vecRow op d.func (fp32 d.const) (s.vecRowAt core op d r)) (r := r) (by simpa using hr)
  simpa [upTo] using hmem

/-! ## What stands in core memory when an action has run -/

section
variable (s : State) (c : Ctx) {op : Nat} {d : VecDesc}

/-- What is written of core memory when an action has run. -/
theorem State.runVector_data : (s.runVector c op d).data = (s.vecWritten c op d).data := by
  obtain ⟨v, f, hrun, -, hdata, -⟩ := s.runVector_computes c op d
  rw [hrun, ← hdata]
  rfl
theorem State.runVector_read (sp : Space) (a n : Nat) : (s.runVector c op d).read sp a n = (s.vecWritten c op d).read sp a n :=
  congrArg (fun x => Data.read x sp a n) (s.runVector_data c)

/-- The lines are all that is written without statistics, remainders, scales and a record. -/
theorem State.vecWritten_lines (htensor : perTensor (d.outFmt op) d.oScale = false) (hstats : writesStats op = false) (hsplit : op ≠ 0x2E) :
    s.vecWritten c op d = ((upTo (d.outShape op).1).map (vectorLine s (agNum c.agent) op d)).zipIdx.foldl (State.putLine (agNum c.agent) op d) s := by
  unfold State.vecWritten State.remaindersWritten State.linesWritten
  rw [hstats, if_neg Bool.false_ne_true, if_neg hsplit, s.vecWrite_lines _ _ _ htensor, s.vecLines_vecOuts]

/-- The statistics are the last that an action writes. -/
theorem State.vecWritten_stats (hstats : writesStats op = true) : s.vecWritten c op d =
    (s.vecOuts (agNum c.agent) op d).zipIdx.foldl (State.putStats (agNum c.agent) d) (s.remaindersWritten c op d) := if_pos hstats
/-- The remainders are the last that a SPLIT writes. -/
theorem State.vecWritten_remainders : s.vecWritten c 0x2E d =
    (s.vecOuts (agNum c.agent) 0x2E d).zipIdx.foldl (State.putRemainders (agNum c.agent) d) (s.linesWritten c 0x2E d) := rfl

section
variable (hfmt : isMx (d.outFmt op) = false) (htensor : perTensor (d.outFmt op) d.oScale = false)
  (hstats : writesStats op = false) (hsplit : op ≠ 0x2E)
include hfmt htensor hstats hsplit

/-- Every line stands at its place. -/
theorem State.runVector_line (hvalid : d.valid op = true) {r : Nat} (hr : r < (d.outShape op).1) :
    Run.plain ((s.runVector c op d).read .core (coreAt (agNum c.agent) (d.out + r * d.outPitch op))
      (d.lineBytes op (vectorLine s (agNum c.agent) op d r)).length) = d.lineBytes op (vectorLine s (agNum c.agent) op d r) := by
  rw [State.runVector_read, s.vecWritten_lines c htensor hstats hsplit]
  have hmem := getElem_mem_zipIdx (l := (upTo (d.outShape op).1).map (vectorLine s (agNum c.agent) op d)) (r := r) (by simpa using hr)
  simp only [upTo, List.getElem_map, List.getElem_range] at hmem
  exact plain_read_foldl_putsAt (fun x _ => putsAt_putLine _ hfmt x) (s.pairwise_lines _ hvalid hfmt) hmem s

/-- Core memory outside them stays. -/
theorem State.runVector_out {k : Nat} (hk : ∀ r, r < (d.outShape op).1 → k < coreAt (agNum c.agent) (d.out + r * d.outPitch op) ∨
    coreAt (agNum c.agent) (d.out + r * d.outPitch op) + (d.lineBytes op (vectorLine s (agNum c.agent) op d r)).length ≤ k) :
    tget 0 (s.runVector c op d).data.core k = tget 0 s.data.core k := by
  rw [State.runVector_data, s.vecWritten_lines c htensor hstats hsplit]
  refine foldl_putsAt_out (fun x _ => putsAt_putLine _ hfmt x) (fun x hx => ?_) s
  obtain ⟨r, hr, rfl⟩ := List.mem_iff_getElem.mp hx
  simp only [List.length_zipIdx, List.length_map, length_upTo] at hr
  simpa [upTo] using hk r hr

end

/-- The statistics of a row stand in its record. -/
theorem State.runVector_stats (hstats : writesStats op = true) {r : Nat} (hr : r < d.rows) {x y z : Num}
    (h : (vecRow op d.func (fp32 d.const) (s.vecRowAt (agNum c.agent) op d r)).stats = some (x, y, z)) :
    Run.plain ((s.runVector c op d).read .core (coreAt (agNum c.agent) (d.stat + 16 * r)) 16) = statBytes x y z := by
  have hop : op ≠ 0x2C := by
    rintro rfl
    exact absurd hstats (by decide)
  have hread := plain_read_foldl_putsAt (fun x _ => putsAt_putStats (agNum c.agent) d x)
    (pairwise_rows (agNum c.agent) d.stat (.inr fun o _ => o.length_record)) (s.mem_vecOuts (agNum c.agent) hop hr) (s.remaindersWritten c op d)
  rw [VOut.record_some h, Nat.mul_comm] at hread
  rw [State.runVector_read, s.vecWritten_stats c hstats]
  exact hread

/-- The remainders of a row of SPLIT stand at its place. -/
theorem State.runVector_remainders (hvalid : d.valid 0x2E = true) {r : Nat} (hr : r < d.rows) :
    Run.plain ((s.runVector c 0x2E d).read .core (coreAt (agNum c.agent) (d.z + r * d.stride * 2)) (2 * d.n)) =
      (vecRow 0x2E d.func (fp32 d.const) (s.vecRowAt (agNum c.agent) 0x2E d r)).remainders := by
  obtain ⟨hle, -⟩ := VecDesc.stride_of_valid hvalid
  have hfit : ∀ o ∈ s.vecOuts (agNum c.agent) 0x2E d, o.remainders.length ≤ d.stride * 2 := by
    intro o ho
    rw [s.vecOuts_rows _ _ (by decide)] at ho
    obtain ⟨q, -, rfl⟩ := List.mem_map.mp ho
    rw [State.length_remainders]
    omega
  have hread := plain_read_foldl_putsAt (fun x _ => putsAt_putRemainders (agNum c.agent) d x) (pairwise_rows (agNum c.agent) d.z (.inr hfit))
    (s.mem_vecOuts (agNum c.agent) (by decide) hr) (s.linesWritten c 0x2E d)
  rw [State.length_remainders, ← Nat.mul_assoc] at hread
  rw [State.runVector_read, s.vecWritten_remainders]
  exact hread

end

/-- Settles O31: every part of what an action writes is a row at its place, and the rows of one part do not overlap. -/
theorem vectorResultStands : Obligations.VectorResultStands := by
  unfold Obligations.VectorResultStands
  constructor
  · intro s u op p a i c b hrow d hb hi hfmt htensor hstats hsplit orows pitch row
    obtain ⟨hdata, -⟩ := State.issued_keeps hi.atPoint
    have hexec : exec i s = .next ((u.issued c).runVector c op d) := exec_vector_ok hrow hb hi
    obtain ⟨-, rfl⟩ := issueCtx_owner hi.due
    refine ⟨_, hexec, fun r hr => (u.issued c).runVector_line c hfmt htensor hstats hsplit hi.good hr, fun k hk => ?_⟩
    rw [← hdata]
    exact (u.issued c).runVector_out c hfmt htensor hstats hsplit hk
  · intro s u op p a i c b hrow d hb hi out
    have hexec : exec i s = .next ((u.issued c).runVector c op d) := exec_vector_ok hrow hb hi
    obtain ⟨-, rfl⟩ := issueCtx_owner hi.due
    refine ⟨_, hexec, fun hstats r x y z hr h => (u.issued c).runVector_stats c hstats hr h, fun hop r hr => ?_⟩
    subst hop
    exact (u.issued c).runVector_remainders c hi.good hr

end Sys2Proof.Machine
end

section
/-! ACCUMULATE_WRITE (R210 to R216): what a transaction makes of its elements, and what it leaves alone. -/
namespace Sys2Proof.Machine

open Sys2Proof

/-! ## Sound writes of a part of a word -/

theorem Run.drop_sound (n : Nat) (bs : List Byte) : (Run.sound bs).drop n = Run.sound (bs.drop n) := Run.drop_tainted 0 n bs
theorem Run.take_sound (n : Nat) (bs : List Byte) : (Run.sound bs).take n = Run.sound (bs.take n) := Run.take_tainted 0 n bs
theorem Run.origin_sound (bs : List Byte) : Run.origin (Run.sound bs) = 0 := by
  have hnone : (Run.sound bs).find? (fun x => x.2 != 0) = none := by simp [Run.sound]
  unfold Run.origin
  rw [hnone]
  rfl

/-- A sound write that covers no whole word leaves every mark of poison (R519). -/
theorem poisonMarks_sound {g : Nat} (base : Nat → Nat) (q : Tab Nat) (a : Nat) {bs : List Byte} (h : bs.length < g) :
    poisonMarks g base q a (Run.sound bs) = q := by
  unfold poisonMarks
  refine List.foldlRecOn (motive := fun t => t = q) _ _ rfl fun t ht k _ => ?_
  subst ht
  dsimp only
  rw [Run.drop_sound, Run.take_sound, Run.origin_sound, if_neg (by decide), if_neg]
  rw [Run.length_sound, List.length_take, List.length_drop]
  omega
theorem Data.mark_write_sound (d : Data) (sp : Space) (a : Nat) {bs : List Byte} (h : bs.length < sp.grain) (k : Nat) :
    (d.write sp a (Run.sound bs)).mark sp k = d.mark sp k := by
  unfold Data.mark
  rw [Data.markBase_write, Data.poison_write, poisonMarks_sound _ _ _ h]

/-! ## Elements of the reservoir -/

/-- From `s` to `t` only bytes of device memory in a range and the numbers of units, their flags among them, may have changed; no mark of poison has. -/
structure State.Accumulates (a n : Nat) (s t : State) : Prop where
  rest : ∃ d q nm, t = { s with data := { s.data with dev := d, devP := q }, num := nm }
  out : ∀ x, x < a ∨ a + n ≤ x → t.devByte x = s.devByte x
  mark : ∀ k, t.data.mark .dev k = s.data.mark .dev k

theorem State.Accumulates.none (a : Nat) (s : State) : s.Accumulates a 0 s := ⟨⟨_, _, _, rfl⟩, fun _ _ => rfl, fun _ => rfl⟩
theorem State.Accumulates.append {a m n : Nat} {s t u : State} (h : s.Accumulates a m t) (h' : t.Accumulates (a + m) n u) :
    s.Accumulates a (m + n) u := by
  refine ⟨?_, fun x hx => (h'.out x (by omega)).trans (h.out x (by omega)), fun k => (h'.mark k).trans (h.mark k)⟩
  obtain ⟨_, _, _, rfl⟩ := h.rest
  obtain ⟨_, _, _, rfl⟩ := h'.rest
  exact ⟨_, _, _, rfl⟩

/-- What lies outside the range reads as before. -/
theorem State.Accumulates.devRead {a n : Nat} {s t : State} (h : s.Accumulates a n t) {b m : Nat} (hb : b < hostBase)
    (hout : b + m ≤ a ∨ a + n ≤ b) : t.devRead b m = s.devRead b m := by
  rw [State.devRead_of_lt _ hb, State.devRead_of_lt _ hb]
  clear hb
  induction m generalizing b with
  | zero => rfl
  | succ m ih =>
    have hbyte : t.data.byte .dev b = s.data.byte .dev b := h.out b (by omega)
    rw [Data.read, Data.read, hbyte, h.mark, ih (by omega)]

/-- The sum that a sound value makes of an element: WF48 code and flags (R212). -/
def State.elemSum (s : State) (a v : Nat) : Nat × Flags := reservoirAdd (leNat (Run.plain (s.devRead a 6))) v

theorem State.addElem_sound {s : State} {a : Nat} (hsound : Run.origin (s.devRead a 6) = 0) (e v : Nat) (acc : Nat × Nat) :
    s.addElem e 0 acc (a, v) = ((s.devWrite a (Run.sound (leBytes 6 (s.elemSum a v).1))).orEng e (s.elemSum a v).2, acc) := by
  unfold State.addElem State.elemSum
  simp only [hsound, ne_eq, not_true_eq_false, if_false]

theorem State.accumulates_orEng (s : State) (a e : Nat) (f : Flags) : s.Accumulates a 0 (s.orEng e f) := by
  unfold State.orEng
  split
  · exact ⟨⟨_, _, _, rfl⟩, fun _ _ => rfl, fun _ => rfl⟩
  · exact ⟨⟨_, _, _, rfl⟩, fun _ _ => rfl, fun _ => rfl⟩
theorem State.accumulates_devWrite (s : State) {a : Nat} (ha : a < hostBase) (g : Nat) :
    s.Accumulates a 6 (s.devWrite a (Run.sound (leBytes 6 g))) := by
  rw [State.devWrite_of_lt _ ha]
  refine ⟨⟨_, _, s.num, rfl⟩, fun x hx => ?_, s.data.mark_write_sound .dev a (by rw [length_leBytes]; decide)⟩
  rw [State.devByte_write, Run.length_sound, length_leBytes, if_neg (by omega)]

/-- One element takes its sum. -/
theorem State.accumulates_elem (s : State) {a : Nat} (ha : a < hostBase) (e v : Nat) :
    let t := (s.devWrite a (Run.sound (leBytes 6 (s.elemSum a v).1))).orEng e (s.elemSum a v).2
    s.Accumulates a 6 t ∧ Run.plain (t.devRead a 6) = leBytes 6 (s.elemSum a v).1 := by
  intro t
  have hflags := State.accumulates_orEng (s.devWrite a (Run.sound (leBytes 6 (s.elemSum a v).1))) (a + 6) e (s.elemSum a v).2
  refine ⟨(s.accumulates_devWrite ha _).append hflags, ?_⟩
  rw [hflags.devRead ha (.inl (Nat.le_refl _)), State.devWrite_of_lt _ ha, State.devRead_of_lt _ ha]
  have hread := s.data.plain_read_write .dev a (Run.sound (leBytes 6 (s.elemSum a v).1))
  rwa [Run.length_sound, length_leBytes, Run.plain_sound] at hread

/-- The values of a transaction from number `k` on, with the addresses of their elements. -/
def accElems (addr k : Nat) (vs : List Nat) : List (Nat × Nat) := (vs.zipIdx k).map fun x => (addr + 6 * x.2, x.1)

/-- Sound elements take the values one after another (R212, R213). -/
theorem State.foldl_addElem (addr e : Nat) (acc : Nat × Nat) (vs : List Nat) : ∀ (k : Nat) (s : State), addr + 6 * (k + vs.length) ≤ hostBase →
    (∀ i, i < vs.length → Run.origin (s.devRead (addr + 6 * (k + i)) 6) = 0) →
    ∃ t, (accElems addr k vs).foldl (fun sa x => sa.1.addElem e 0 sa.2 x) (s, acc) = (t, acc) ∧
      s.Accumulates (addr + 6 * k) (6 * vs.length) t ∧
      ∀ i v, vs[i]? = some v → Run.plain (t.devRead (addr + 6 * (k + i)) 6) = leBytes 6 (s.elemSum (addr + 6 * (k + i)) v).1 := by
  induction vs with
  | nil => exact fun k s _ _ => ⟨s, rfl, .none _ s, fun i v h => nomatch h⟩
  | cons v vs ih =>
    intro k s hhost hsound
    rw [List.length_cons] at hhost hsound ⊢
    have hlt : addr + 6 * k < hostBase := by omega
    obtain ⟨hone, hsum⟩ := s.accumulates_elem hlt e v
    have helem := State.addElem_sound (hsound 0 (Nat.succ_pos _)) e v acc
    rw [Nat.add_zero] at helem
    generalize (s.devWrite (addr + 6 * k) _).orEng e _ = u at hone hsum helem
    have hlater (i : Nat) (hi : i < vs.length) : u.devRead (addr + 6 * (k + 1 + i)) 6 = s.devRead (addr + 6 * (k + 1 + i)) 6 :=
      hone.devRead (by omega) (.inr (by omega))
    obtain ⟨t, hfold, hrest, hsums⟩ := ih (k + 1) u (by omega) fun i hi => by
      rw [hlater i hi, Nat.add_assoc, Nat.add_comm 1 i]
      exact hsound (i + 1) (Nat.succ_lt_succ hi)
    refine ⟨t, ?_, ?_, fun i x hx => ?_⟩
    · rw [← hfold, ← helem]
      rfl
    · rw [Nat.mul_succ, Nat.add_comm _ 6]
      exact hone.append hrest
    · cases i with
      | zero =>
        obtain rfl : v = x := by simpa using hx
        rw [Nat.add_zero, hrest.devRead hlt (.inl (by omega)), hsum]
      | succ i =>
        rw [List.getElem?_cons_succ] at hx
        obtain ⟨hi, -⟩ := List.getElem?_eq_some_iff.mp hx
        have hnext := hsums i x hx
        unfold State.elemSum at hnext ⊢
        rwa [hlater i hi, Nat.add_assoc, Nat.add_comm 1 i] at hnext

/-! ## Requests of a sender that asks no weir -/

/-- A sender that asks for nothing and has nothing waiting meets no refusal. -/
theorem State.askWeirs_nil_parts {s : State} {w : Who} {id : Nat} {write : Bool} (h : s.sideWaits (sideKey w.p w.agent id write) = []) :
    (s.askWeirs w id write []).parts = s.parts := by
  unfold State.askWeirs State.offerNow
  rw [h]
  rfl
theorem cuuWeir_of_lt {e : Nat} (h : e < 256) (n : Nat) : cuuWeir e n = [] := if_pos h

/-! ## A transaction that is applied -/

theorem State.part_accDone_causes (s : State) (w : AccWrite) (t q : Nat) : ((s.accDone w t).part q).causes = (s.part q).causes := by
  unfold State.accDone
  by_cases hq : q = w.partition
  · subst hq
    rw [State.part_modPart]
  · rw [State.part_modPart_ne _ _ hq]

/-- What lets an engine apply a transaction: it is sound and served, and nothing else holds its elements (R212, R215, R229, R275, R298). -/
structure State.Applies (s : State) (engine : Nat) (w : AccWrite) : Prop where
  sound : w.poison = 0
  served : (s.accessRun w.partition w.addr w.bytes).1 = .ok
  source : ∀ v ∈ tget [] s.serving engine, s.clk < v.until' → v.source = w.source
  free : ∀ f ∈ (s.part w.partition).flights, f.opcode ≠ 0x70 ∧ ¬ (0x60 ≤ f.opcode ∧ f.opcode ≤ 0x62 ∧ f.agent = agentOfEng engine)

/-- The state in which an engine takes up a transaction: it has forgotten those that it has finished. -/
def State.taken (s : State) (engine : Nat) (w : AccWrite) : State :=
  { s with accq := s.accq.erase w, serving := tset [] s.serving engine ((tget [] s.serving engine).filter fun v => s.clk < v.until') }

/-- A transaction that is applied: its values are added, the weir is asked, and it is done with. -/
theorem State.accumulate_applied {s t : State} {engine : Nat} {w : AccWrite} (h : s.Applies engine w)
    (hfold : w.elems.foldl (fun sa x => sa.1.addElem engine 0 sa.2 x) (s.taken engine w, (0, 0)) = (t, (0, 0))) :
    ∃ sv clk, s.accumulate engine w = (({ t.askWeirs { p := w.partition, cyc := (s.part w.partition).cycle, agent := agentOfEng engine, action := 0xFFFF }
      0 false (cuuWeir engine 768) with serving := sv } : State).accDone w clk) := by
  have hguard : (s.taken engine w).attendGuard w.partition w.addr w.bytes = none :=
    State.attendGuard_none _ _ fun f hf => (h.free f hf).1
  obtain ⟨x, hserved⟩ : ∃ x, (s.taken engine w).accessRun w.partition w.addr w.bytes = (.ok, x) := ⟨_, Prod.ext h.served rfl⟩
  unfold State.accumulate
  extract_lets p cyc s1 live s2 clash held party
  rw [show s2.accessRun p w.addr w.bytes = (.ok, x) from hserved]
  dsimp only
  rw [show s2.attendGuard p w.addr w.bytes = none from hguard]
  dsimp only
  have hclash : clash = false := List.any_eq_false.mpr fun v hv => by
    obtain ⟨hmem, hlive⟩ := List.mem_filter.mp hv
    simp [h.source v hmem (of_decide_eq_true hlive)]
  have hheld : held = false := List.any_eq_false.mpr fun f hf => by
    obtain ⟨-, hother⟩ := h.free f hf
    simp only [Bool.and_eq_true, decide_eq_true_eq]
    rintro ⟨⟨⟨hlo, hhi⟩, hagent⟩, -⟩
    exact hother ⟨hlo, hhi, hagent⟩
  rw [hclash, hheld, Bool.or_false, if_neg Bool.false_ne_true, h.sound]
  rw [show w.elems.foldl (fun sa x => sa.1.addElem engine 0 sa.2 x) (s2, (0, 0)) = (t, (0, 0)) from hfold]
  exact ⟨_, _, rfl⟩

/-- An engine that applies a transaction to sound elements adds each value to its element, leaves every other byte, and is done with it. A
near-memory engine asks no weir, so no freeze cause arises where nothing of its own waits for one. -/
theorem exec_accumulateWrite_adds {s : State} {engine : Nat} {w : AccWrite} (hfirst : lookupBy (fun x => x.engine == engine) s.accq = some w)
    (h : s.Applies engine w) (hhost : w.addr + w.bytes ≤ hostBase)
    (hsound : ∀ k, k < w.values.length → Run.origin (s.devRead (w.addr + 6 * k) 6) = 0) :
    ∃ t, exec (.accumulateWrite engine) s = .next t ∧ t.accq = s.accq.erase w ∧
      (∀ k v, w.values[k]? = some v → Run.plain (t.devRead (w.addr + 6 * k) 6) = leBytes 6 (s.elemSum (w.addr + 6 * k) v).1) ∧
      (∀ x, x < w.addr ∨ w.addr + w.bytes ≤ x → t.devByte x = s.devByte x) ∧
      t.data.core = s.data.core ∧ t.data.galley = s.data.galley ∧
      (engine < 256 → s.sideWaits (sideKey w.partition (agentOfEng engine) 0 false) = [] →
        (t.part w.partition).causes = (s.part w.partition).causes) := by
  unfold AccWrite.bytes at hhost ⊢
  obtain ⟨u, hfold, hadds, hsums⟩ := (s.taken engine w).foldl_addElem w.addr engine (0, 0) w.values 0 (by omega) fun i hi => by
    rw [Nat.zero_add]
    exact hsound i hi
  obtain ⟨sv, clk, hdone⟩ := State.accumulate_applied h hfold
  have hexec : exec (.accumulateWrite engine) s = .next (s.accumulate engine w) := by
    change execAccumulateWrite engine s = _
    rw [execAccumulateWrite, hfirst]
  generalize hwho : ({ p := w.partition, cyc := (s.part w.partition).cycle, agent := agentOfEng engine, action := 0xFFFF } : Who) = who at hdone
  generalize hasked : u.askWeirs who 0 false (cuuWeir engine 768) = v at hdone
  have hdrifts : u.Drifts v := hasked ▸ u.drifts_askWeirs who 0 false _
  obtain ⟨-, hdata, -, -, -, -, -, -, -, -, -, haccq, -⟩ := hdrifts.frame
  obtain ⟨_, _, _, hu⟩ := hadds.rest
  have hread (k : Nat) (hk : w.addr + 6 * k < hostBase) : (s.accumulate engine w).devRead (w.addr + 6 * k) 6 = u.devRead (w.addr + 6 * k) 6 := by
    rw [State.devRead_of_lt _ hk, State.devRead_of_lt _ hk, hdone, ← hdata]
    rfl
  refine ⟨_, hexec, ?_, fun k x hx => ?_, fun x hx => ?_, ?_, ?_, fun hnear hwait => ?_⟩
  · rw [hdone, State.accDone, State.modPart_accq]
    change v.accq = _
    rw [haccq, hu]
    rfl
  · obtain ⟨hk, -⟩ := List.getElem?_eq_some_iff.mp hx
    rw [hread k (by omega)]
    have hsum := hsums k x hx
    rwa [Nat.zero_add] at hsum
  · rw [hdone]
    change v.data.byte .dev x = _
    rw [hdata]
    exact hadds.out x (by omega)
  · rw [hdone]
    change v.data.core = _
    rw [hdata, hu]
    rfl
  · rw [hdone]
    change v.data.galley = _
    rw [hdata, hu]
    rfl
  · rw [hdone, State.part_accDone_causes]
    rw [cuuWeir_of_lt hnear] at hasked
    subst hwho
    have hparts : v.parts = u.parts := hasked ▸ State.askWeirs_nil_parts (by rw [hu]; exact hwait)
    change (tget Part.init v.parts w.partition).causes = _
    rw [hparts, hu]
    rfl

/-! ## NaNs -/

/-- A NaN on either side of an addition is propagated and raises no flag (R212). -/
theorem addRound_nan {f : FpFmt} {md : Rounding} {a b : Num} (h : a = .nan ∨ b = .nan) : addRound f md a b = Res.propagated := by
  obtain rfl | rfl := h
  · rfl
  · cases a <;> rfl
theorem reservoirAdd_nan {g v : Nat} (h : wf48F.decode 0 g = .nan ∨ fp32 v = .nan) : reservoirAdd g v = (wf48F.nanCode, Flags.none) := by
  unfold reservoirAdd
  rw [addRound_nan h]
  rfl

/-! ## The obligation fails -/

/-- One value on its way to near-memory engine 0. -/
def oneValue : AccWrite := { engine := 0, addr := 0x10000, source := 0, opId := 0, values := [0x3F800000], poison := 0, partition := 0, action := 0 }

/-- A request of near-memory engine 0, of one token. -/
def oneToken : WeirReq := { tokens := 1, agent := agentOfEng 0, action := 0xFFFF, qmax := 1, write := false, offered := false, rest := 0, id := 0 }

/-- Partition 0 runs, owns the pages of `oneValue`, and has no depth at weir 0, at which `oneToken` still has to be offered. -/
def requestWaits : State := { State.reset with
  rst := { RstRegs.reset with released := 0xFFFFFFFFF }
  mem := { MemRegs.reset with waits := [(sideKey 0 (agentOfEng 0) 0 false, [(queueKey 0 0 0, oneToken)])] }
  layout := [(0, { LayoutEntry.none with fields := 1, stackSet := 1, sHi := 16 })]
  parts := [(0, { Part.init with status := .running })]
  accq := [oneValue] }

theorem requestWaits_applies : requestWaits.Applies 0 oneValue := ⟨rfl, by decide +kernel, nofun, nofun⟩
theorem requestWaits_sound : ∀ k, k < oneValue.values.length → Run.origin (requestWaits.devRead (oneValue.addr + 6 * k) 6) = 0 := by decide

/-- The engine asks no weir for the transaction, but what waited is offered with it, and refused (R319). -/
theorem breach_mem_requestWaits : Cause.breach ∈ ((requestWaits.accumulate 0 oneValue).part 0).causes := by decide +kernel

/-- Refutes O42: the clause that no freeze cause arises at a near-memory engine fails where a request of that engine waits behind its side.
No premise excludes `requestWaits`, though in the model a near-memory engine never comes to ask a weir. `exec_accumulateWrite_adds` gives the
other clauses, and this one where nothing waits; `reservoirAdd_nan` gives the part on NaN. -/
theorem not_accumulateAddsValues : ¬ Obligations.AccumulateAddsValues := by
  unfold Obligations.AccumulateAddsValues
  rintro ⟨hadds, -⟩
  obtain ⟨hpoison, hserved, hsource, hfree⟩ := requestWaits_applies
  obtain ⟨t, hexec, -, -, -, -, -, hcauses⟩ :=
    hadds requestWaits 0 oneValue rfl hpoison hserved (by decide) hsource hfree requestWaits_sound
  have ht : requestWaits.accumulate 0 oneValue = t := Host.Outcome.next.inj hexec
  have hbreach := breach_mem_requestWaits
  rw [ht, show (t.part 0).causes = [] from hcauses (by decide)] at hbreach
  exact List.not_mem_nil hbreach

end Sys2Proof.Machine
end

section
/-! Replica digests (R250 to R252): what a comparison does to its partition, and the rows that bring a digest or miss one. -/
namespace Sys2Proof.Machine

open Sys2Proof

/-! ## Comparison -/

section
variable (s : State) (p part step layer shard : Nat)

/-- A divergence changes two fields of its own partition (R251). -/
theorem State.part_diverged : ∃ n, (s.diverged p part step layer shard).part p = { s.part p with diverge := true, divergeEvents := n } := by
  refine ⟨tset 0 (s.part p).divergeEvents step (min 16 (tget 0 (s.part p).divergeEvents step + 1)), ?_⟩
  unfold State.diverged
  dsimp only
  split
  · rw [State.part_post, State.part_setPart]
  · rw [State.part_setPart]
theorem State.part_diverged_ne {q : Nat} (hq : q ≠ p) : (s.diverged p part step layer shard).part q = s.part q := by
  unfold State.diverged
  dsimp only
  split
  · rw [State.part_post, State.part_setPart_ne _ _ hq]
  · rw [State.part_setPart_ne _ _ hq]
@[simp] theorem State.diverged_data : (s.diverged p part step layer shard).data = s.data := by
  unfold State.diverged
  dsimp only
  split
  · rw [State.post_data, State.setPart_data]
  · rfl

end

/-- The part owes a partition's own digest of a step, layer and shard no longer. -/
def Part.received (part step layer shard : Nat) (x : Part) : Part := { x with digests := x.digests.map (fun d =>
  if d.step = step && d.layer = layer && d.shard = shard then { d with missing := d.missing.erase part } else d) }

section
variable {s : State} {p part step layer shard value : Nat} {own : Digest}

theorem State.compareDigest_agrees (h : own.value = value) :
    s.compareDigest p part step layer shard value own = s.modPart p (.received part step layer shard) := if_pos h
theorem State.compareDigest_differs (h : own.value ≠ value) : s.compareDigest p part step layer shard value own =
    (s.modPart p (.received part step layer shard)).diverged p part step layer shard := if_neg h

end

section
variable (s : State) (p part step layer shard value : Nat) (own : Digest)

/-- A comparison strikes the part off the own digest, and marks the divergence where the values differ (R251). -/
theorem State.part_compareDigest : ∃ n, (s.compareDigest p part step layer shard value own).part p =
    { Part.received part step layer shard (s.part p) with
      diverge := (s.part p).diverge || decide (own.value ≠ value), divergeEvents := n } := by
  by_cases h : own.value = value
  · rw [State.compareDigest_agrees h, State.part_modPart, decide_eq_false (not_not_intro h), Bool.or_false]
    exact ⟨_, rfl⟩
  · obtain ⟨n, hdiverged⟩ := (s.modPart p (.received part step layer shard)).part_diverged p part step layer shard
    rw [State.compareDigest_differs h, hdiverged, State.part_modPart, decide_eq_true h, Bool.or_true]
    exact ⟨n, rfl⟩
theorem State.part_compareDigest_ne {q : Nat} (hq : q ≠ p) : (s.compareDigest p part step layer shard value own).part q = s.part q := by
  have hreceived := State.part_modPart_ne s (.received part step layer shard) hq
  by_cases h : own.value = value
  · rw [State.compareDigest_agrees h, hreceived]
  · rw [State.compareDigest_differs h, State.part_diverged_ne _ _ _ _ _ _ hq, hreceived]
theorem State.compareDigest_data : (s.compareDigest p part step layer shard value own).data = s.data := by
  by_cases h : own.value = value
  · rw [State.compareDigest_agrees h, State.modPart_data]
  · rw [State.compareDigest_differs h, State.diverged_data, State.modPart_data]

end

/-! ## DIGEST_RECEIVED -/

section
variable {s : State} {p part cadence : Nat} {parts : List Nat}

/-- A partition compares digests of a part: the set that it has accepted names the part, which is another one (R250). -/
structure State.Compares (s : State) (p part cadence : Nat) (parts : List Nat) : Prop where
  valid : p < 8
  replica : (s.part p).replica = some (cadence, parts)
  nonzero : cadence ≠ 0
  named : parts.contains part = true
  other : part ≠ s.selfPart

theorem State.Compares.meets (h : s.Compares p part cadence parts) :
    (decide (cadence = 0) || !parts.contains part || decide (part = s.selfPart)) = false := by
  rw [h.named, decide_eq_false h.nonzero, decide_eq_false h.other]
  rfl

theorem exec_digestReceived_early (h : s.Compares p part cadence parts) {step layer shard : Nat} (value : Nat)
    (hown : lookupBy (fun (d : Digest) => d.step == step && d.layer == layer && d.shard == shard) (s.part p).digests = none) :
    exec (.digestReceived p part step layer shard value) s =
      .next (s.setPart p { s.part p with early := (s.part p).early ++ [(part, step, layer, shard, value)] }) := by
  change execDigestReceived p part step layer shard value s = _
  simp only [execDigestReceived, if_neg (Nat.not_le_of_lt h.valid), h.replica, h.meets, hown, Bool.false_eq_true, if_false]
theorem exec_digestReceived_own (h : s.Compares p part cadence parts) {step layer shard : Nat} (value : Nat) {d : Digest}
    (hown : lookupBy (fun (d : Digest) => d.step == step && d.layer == layer && d.shard == shard) (s.part p).digests = some d) :
    exec (.digestReceived p part step layer shard value) s = .next (s.compareDigest p part step layer shard value d) := by
  change execDigestReceived p part step layer shard value s = _
  simp only [execDigestReceived, if_neg (Nat.not_le_of_lt h.valid), h.replica, h.meets, hown, Bool.false_eq_true, if_false]
theorem exec_digestReceived_noSet (part step layer shard value : Nat) (h : (s.part p).replica = none) :
    exec (.digestReceived p part step layer shard value) s = .next s := by
  change execDigestReceived p part step layer shard value s = _
  simp [execDigestReceived, h]
theorem exec_digestReceived_notNamed (step layer shard value : Nat) (h : (s.part p).replica = some (cadence, parts))
    (hpart : parts.contains part = false ∨ part = s.selfPart) :
    exec (.digestReceived p part step layer shard value) s = .next s := by
  change execDigestReceived p part step layer shard value s = _
  obtain hnot | hself := hpart
  · simp only [execDigestReceived, h, hnot, Bool.not_false, Bool.or_true, Bool.true_or, if_true, ite_self]
  · simp only [execDigestReceived, h, hself, decide_true, Bool.or_true, if_true, ite_self]

end

/-! ## DIGEST_MISSING -/

/-- The first digest of a partition that a part still owes is struck off. -/
def Part.overdue (x : Part) (part : Nat) : Part :=
  { x with digests := modFirst (fun e => e.missing.contains part) (fun e => { e with missing := e.missing.erase part }) x.digests }

theorem exec_digestMissing {s : State} {p part : Nat} {d : Digest} (hp : p < 8)
    (hdue : lookupBy (fun e => e.missing.contains part) (s.part p).digests = some d) : exec (.digestMissing p part) s =
    .next (((s.toTime (d.formed + s.digestWait p)).modPart p (·.overdue part)).post 0x106 (some p) ccAgent part d.step) := by
  change execDigestMissing p part s = _
  simp only [execDigestMissing, if_neg (Nat.not_le_of_lt hp), hdue]
  rfl

theorem Part.Drifts.digests {x y : Part} (h : x.Drifts y) : y.digests = x.digests := by
  obtain ⟨_, _, _, _, _, rfl⟩ := h
  rfl

/-! ## The obligation -/

/-- Settles O43: a comparison changes only its own partition, and until a digest falls overdue time changes no digest. -/
theorem digestsCompared : Obligations.DigestsCompared := by
  unfold Obligations.DigestsCompared
  refine ⟨?_, ?_, ?_⟩
  · intro s p part step layer shard value cadence parts hp hreplica hcadence hnamed hother own
    have h : s.Compares p part cadence parts := ⟨hp, hreplica, hcadence, hnamed, hother⟩
    refine ⟨exec_digestReceived_early h value, fun d hown => ⟨_, exec_digestReceived_own h value hown, ?_, ?_, ?_, ?_⟩⟩
    · obtain ⟨_, hpart⟩ := s.part_compareDigest p part step layer shard value d
      rw [hpart]
      rfl
    · obtain ⟨_, hpart⟩ := s.part_compareDigest p part step layer shard value d
      rw [hpart]
    · exact fun q hq => s.part_compareDigest_ne p part step layer shard value d hq
    · exact s.compareDigest_data p part step layer shard value d
  · rintro s p part step layer shard value (hnone | ⟨cadence, parts, hreplica, hpart⟩)
    · exact exec_digestReceived_noSet part step layer shard value hnone
    · exact exec_digestReceived_notNamed step layer shard value hreplica hpart
  · intro s p part d hp hdue
    have hdrifts := s.drifts_toTime (d.formed + s.digestWait p)
    obtain ⟨-, hdata, -⟩ := hdrifts.frame
    refine ⟨_, exec_digestMissing hp hdue, ?_, fun q hq => ?_, ?_⟩
    · rw [State.part_post, State.part_modPart, Part.overdue, (hdrifts.2 p).digests]
    · rw [State.part_post, State.part_modPart_ne _ _ hq]
    · rw [State.post_data, State.modPart_data, hdata]

end Sys2Proof.Machine
end

section
/-! COPY and EXPORT begin (R253, R254, R314, R418): what they put in progress and ask of the weirs where their source is sound, and their refusals. -/
namespace Sys2Proof.Machine

open Sys2Proof

/-! ## Sound sources -/

/-- A run has origin 0 where each of its bytes is sound. -/
theorem Run.origin_eq_zero {r : Run} : Run.origin r = 0 ↔ ∀ x ∈ r, x.2 = 0 := by
  unfold Run.origin
  cases hfind : r.find? (fun x => x.2 != 0) with
  | none => simpa using hfind
  | some y =>
    have hy : y.2 ≠ 0 := by simpa using List.find?_some hfind
    exact iff_of_false hy fun h => hy (h y (List.mem_of_find?_eq_some hfind))

/-- No poison stands in a sound run. -/
theorem Run.find?_zipIdx {r : Run} (h : Run.origin r = 0) : r.zipIdx.find? (fun x => x.1.2 != 0) = none := by
  rw [List.find?_eq_none]
  intro x hx
  simp [Run.origin_eq_zero.mp h x.1 (List.fst_mem_of_mem_zipIdx hx)]
theorem poisonStop_sound (a : Nat) {r : Run} (h : Run.origin r = 0) : poisonStop a r = none := by
  rw [poisonStop, Run.find?_zipIdx h, Option.map_none]
theorem exportStop_sound (c : Cmd) {r : Run} (h : Run.origin r = 0) : exportStop c r = none := by
  rw [exportStop, Run.find?_zipIdx h, Option.map_none]

/-! ## The rows -/

/-- A refusal as a command begins posts its record, and one of Table 16-6 is kept as the last of its kind. -/
theorem State.deny_begun (s : State) (c : Cmd) (reason : Nat) : (s.begun c).deny c reason = s.refused c reason := by
  unfold State.deny State.refused
  split <;> rfl

/-- An EXPORT takes the next epoch of its partition (R254). -/
def State.epochTaken (s : State) (p : Nat) : State := s.modPart p (fun x => { x with exportEpoch := x.exportEpoch + 1 })
theorem State.part_epochTaken (s : State) (p : Nat) : (s.epochTaken p).part p = { s.part p with exportEpoch := (s.part p).exportEpoch + 1 } :=
  State.part_modPart _ _ _
theorem State.part_epochTaken_ne (s : State) {p q : Nat} (h : q ≠ p) : (s.epochTaken p).part q = s.part q := State.part_modPart_ne _ _ h

/-- An EXPORT in progress: it bears the epoch that it has taken, and so does its header. -/
def State.exporting (s : State) (c : Cmd) : State :=
  let t := s.epochTaken c.part
  let epoch := (t.part c.part).exportEpoch.toNat
  t.inProgress c (t.exportHeader c epoch) epoch
theorem State.exporting_running (s : State) (c : Cmd) :
    let epoch := ((s.part c.part).exportEpoch + 1).toNat
    (s.exporting c).hif.running = s.hif.running ++
      [{ cmd := c, bytesDone := 0, aborted := false, header := (s.epochTaken c.part).exportHeader c epoch, epoch := epoch }] := by
  unfold State.exporting
  dsimp only
  rw [State.part_epochTaken]
  rfl

section
variable {s : State} {c : Cmd}

theorem exec_copy_sound (h : s.serves 0x24 c) (hcode : s.copyCode c = 0) (hsound : Run.origin (s.copySource c) = 0) :
    exec .copy s = .next (((s.begun c).inProgress c [] 0).askTransfer c
      (if c.opnd 20 1 = 0 then [(0x148, c.opnd 16 4)] else s.weirsOf (c.opnd 0 8) (c.opnd 16 4) false)
      (if c.opnd 20 1 = 1 then [(0x149, c.opnd 16 4)] else s.weirsOf (c.opnd 8 8) (c.opnd 16 4) true)) := by
  obtain ⟨hfront, hvalid⟩ := h
  change execCopy s = _
  have hstop : poisonStop (c.opnd 0 8) ((s.begun c).copySource c) = none := poisonStop_sound _ hsound
  rw [execCopy, State.runCmd_ok _ hfront hvalid, if_neg (c := (s.begun c).copyCode c ≠ 0) (not_not_intro hcode), hstop]
  rfl
theorem exec_copy_refused (h : s.serves 0x24 c) (hcode : s.copyCode c ≠ 0) : exec .copy s = .next (s.refused c (s.copyCode c)) := by
  obtain ⟨hfront, hvalid⟩ := h
  change execCopy s = _
  rw [execCopy, State.runCmd_ok _ hfront hvalid, if_pos (c := (s.begun c).copyCode c ≠ 0) hcode]
  exact congrArg _ (s.deny_begun c _)

theorem exec_exportCmd_sound (h : s.serves 0x25 c) (hcode : s.exportCode c = 0) (hsound : Run.origin (s.exportSource c) = 0) :
    exec .exportCmd s = .next (((s.begun c).exporting c).askTransfer c
      (firstBytes (exportPayload c) (joinWeirs ((exportArrays c).flatMap (fun a => s.weirsOf a.1 a.2 false)))) [(0x149, 128 + exportPayload c)]) := by
  obtain ⟨hfront, hvalid⟩ := h
  change execExportCmd s = _
  have hbytes : ((exportStop c (s.exportSource c)).map (·.1)).getD (128 + exportPayload c) = 128 + exportPayload c := by
    rw [exportStop_sound c hsound, Option.map_none, Option.getD_none]
  rw [execExportCmd, State.runCmd_ok _ hfront hvalid, if_pos (c := (s.begun c).exportCode c = 0) hcode]
  change (let n := ((exportStop c (s.exportSource c)).map (·.1)).getD (128 + exportPayload c)
    Host.Outcome.next (((s.begun c).exporting c).askTransfer c (firstBytes (n - 128) _) [(0x149, n)])) = _
  rw [hbytes]
  dsimp only
  rw [Nat.add_sub_cancel_left]
  rfl
theorem exec_exportCmd_refused (h : s.serves 0x25 c) (hcode : s.exportCode c ≠ 0) : exec .exportCmd s = .next (s.refused c (s.exportCode c)) := by
  obtain ⟨hfront, hvalid⟩ := h
  change execExportCmd s = _
  rw [execExportCmd, State.runCmd_ok _ hfront hvalid, if_neg (c := (s.begun c).exportCode c = 0) hcode]
  exact congrArg _ (s.deny_begun c _)

end

/-! ## The obligation -/

/-- Settles O18: from a sound source no poison shortens what either command asks of the weirs. -/
theorem copyExportBegin : Obligations.CopyExportBegin := by
  unfold Obligations.CopyExportBegin
  refine ⟨fun s c h => ⟨exec_copy_sound h, exec_copy_refused h⟩, fun s c h => ⟨fun hcode hsound => ?_, exec_exportCmd_refused h⟩⟩
  exact ⟨_, _, exec_exportCmd_sound h hcode hsound, (s.begun c).part_epochTaken c.part, fun q hq => (s.begun c).part_epochTaken_ne hq,
    (s.begun c).exporting_running c, rfl⟩

end Sys2Proof.Machine
end

section
/-! COPY_COMPLETE and EXPORT_COMPLETE (R253, R314, R418, R419, R522): the bytes that they leave in memory, and their completion records. -/
namespace Sys2Proof.Machine

open Sys2Proof

/-! ## Bytes that a transfer reads and writes -/

@[simp] theorem Data.length_read (d : Data) (sp : Space) (a n : Nat) : (d.read sp a n).length = n := by
  have hplain := congrArg List.length (d.plain_read sp n a)
  simpa [Run.plain, upTo] using hplain
theorem Data.getD_plain_read (d : Data) (sp : Space) (a : Nat) {n i : Nat} (h : i < n) : (Run.plain (d.read sp a n)).getD i 0 = d.byte sp (a + i) := by
  rw [Data.plain_read, List.getD_eq_getElem _ _ (by simpa [upTo] using h), List.getElem_map]
  simp [upTo]

theorem getD_readBytes (m : Tab Byte) {n i : Nat} (h : i < n) : ∀ a, (readBytes m a n).getD i 0 = tget 0 m (a + i) := by
  induction n generalizing i with
  | zero => exact absurd h (Nat.not_lt_zero i)
  | succ n ih =>
    intro a
    cases i with
    | zero => rfl
    | succ i => rw [readBytes, List.getD_cons_succ, ih (Nat.lt_of_succ_lt_succ h), Nat.add_assoc, Nat.add_comm 1 i]

theorem State.plain_hostFetch (s : State) (a n : Nat) : (s.hostFetch a n).plain = s.hostRead a n := by
  unfold State.hostFetch Run.plain
  rw [List.map_map]
  exact List.zipIdx_map_fst 0 _
@[simp] theorem State.length_hostFetch (s : State) (a n : Nat) : (s.hostFetch a n).length = n := by
  simp [State.hostFetch, State.hostRead]
/-- A range of host memory without a poisoned word is sound (R517). -/
theorem State.origin_hostFetch {s : State} {a n : Nat} (h : ∀ i, i < n → tget 0 s.data.hostP ((a + i) / 8) = 0) :
    Run.origin (s.hostFetch a n) = 0 := by
  rw [Run.origin_eq_zero]
  intro x hx
  obtain ⟨y, hy, rfl⟩ := List.mem_map.mp hx
  have hlt : y.2 < n := by
    have := List.snd_lt_of_mem_zipIdx hy
    rwa [State.hostRead, length_readBytes, Nat.add_zero] at this
  rw [h _ hlt]

theorem State.tget_hostWrite (s : State) (a : Nat) (bs : List Byte) (k : Nat) : tget 0 (s.hostWrite a bs).data.host k =
    if a ≤ k ∧ k < a + bs.length then bs.getD (k - a) 0 else tget 0 s.data.host k := tget_writeBytes _ _ _ _

theorem State.hostWrite_dev (s : State) (a : Nat) (bs : List Byte) : (s.hostWrite a bs).data.dev = s.data.dev := rfl

/-! ## A range within one piece -/

theorem cut_one {g a n : Nat} (hg : 0 < g) (hn : 0 < n) (h : a / g = (a + n - 1) / g) : cut g a n = [(a, n)] := by
  have hend : (a + n - 1) % g < g := Nat.mod_lt _ hg
  have hfit : n ≤ g - a % g := by
    have hlast := Nat.div_add_mod (a + n - 1) g
    have hfirst := Nat.div_add_mod a g
    rw [← h] at hlast
    omega
  rw [cut, cutGo, if_neg (Nat.ne_of_gt hn), Nat.min_eq_left hfit, Nat.sub_self, cutGo, if_pos rfl]

/-! ## The end of a background transfer -/

theorem State.dropHeld_frame (s : State) (of : Nat → WeirReq → Bool) : ∃ m, s.dropHeld of = { s with mem := m } := by
  have hheld : ∃ m, (s.mem.held.map (·.1)).foldl (fun s k => s.putHeld k ((s.weirHeld k).filter (fun r => !of (k % 16) r))) s = { s with mem := m } :=
    List.foldlRecOn (motive := fun t => ∃ m, t = { s with mem := m }) _ _ ⟨s.mem, rfl⟩ fun t ht k _ => by
      obtain ⟨_, rfl⟩ := ht
      exact ⟨_, rfl⟩
  obtain ⟨_, hm⟩ := hheld
  unfold State.dropHeld
  dsimp only
  rw [hm]
  exact ⟨_, rfl⟩

/-- A background transfer is in progress no more, and asks the weirs for nothing. -/
def State.withdrawn (s : State) (b : Bg) : State :=
  { s with hif := { s.hif with running := s.hif.running.filter (fun x => x.cmd.stamp != b.cmd.stamp) } }.dropHeld (fun _ => ofTransfer b.cmd)
theorem State.withdrawn_frame (s : State) (b : Bg) : ∃ h m, s.withdrawn b = { s with hif := h, mem := m } := by
  obtain ⟨_, hm⟩ := State.dropHeld_frame
    { s with hif := { s.hif with running := s.hif.running.filter (fun x => x.cmd.stamp != b.cmd.stamp) } } (fun _ => ofTransfer b.cmd)
  exact ⟨_, _, hm⟩
@[simp] theorem State.withdrawn_data (s : State) (b : Bg) : (s.withdrawn b).data = s.data := by
  obtain ⟨_, _, h⟩ := s.withdrawn_frame b
  rw [h]
@[simp] theorem State.withdrawn_parts (s : State) (b : Bg) : (s.withdrawn b).parts = s.parts := by
  obtain ⟨_, _, h⟩ := s.withdrawn_frame b
  rw [h]

/-- The completion record of a command. -/
theorem State.mem_complete (s : State) (ring tag stamp part status reason value detail : Nat) :
    ∃ r ∈ (s.complete ring tag stamp part status reason value detail).hif.compl,
      r.tag = tag ∧ r.status = status ∧ r.value = value ∧ r.detail = detail :=
  ⟨_, List.mem_append_right _ (List.mem_singleton_self _), rfl, rfl, rfl, rfl⟩

section
variable (s : State) {b : Bg} (len free detail : Nat) (write : Nat → State → State)

/-- A transfer that was not aborted and has met no poison has moved all its bytes. -/
theorem State.endTransfer_whole (h : b.aborted = false) : s.endTransfer b len none free write detail =
    (write len (s.withdrawn b)).complete b.cmd.ring b.cmd.tag b.cmd.stamp b.cmd.part 0 0 len detail := by
  simp only [State.endTransfer, h, Bool.false_eq_true, if_false]
  rfl
/-- One that was aborted has moved some of them, however many it met of poison (R522). -/
theorem State.endTransfer_aborted (stop : Option (Nat × Nat × Nat)) (h : b.aborted = true) :
    ∃ k, k ≤ len ∧ s.endTransfer b len stop free write detail =
      (write k (s.withdrawn b)).complete b.cmd.ring b.cmd.tag b.cmd.stamp b.cmd.part 2 0 k detail := by
  have hfree : free % (len / 16 + 1) * 16 ≤ len := by
    have hlt : free % (len / 16 + 1) < len / 16 + 1 := Nat.mod_lt _ (Nat.succ_pos _)
    omega
  unfold State.endTransfer
  simp only [h, if_true]
  obtain _ | ⟨n, o, at'⟩ := stop
  · exact ⟨_, Nat.min_le_left _ _, rfl⟩
  · exact ⟨_, (Nat.min_le_right _ _).trans hfree, rfl⟩

end

/-! ## The rows -/

/-- The model clock at which a transfer ends: an aborted one ends now (R422), any other once its requests have left the weirs (R314). -/
def State.transferEnds (s : State) (b : Bg) : Option Nat := if b.aborted then some s.clk else s.transferLeft b.cmd
theorem State.transferEnds_aborted (s : State) {b : Bg} (h : b.aborted = true) : s.transferEnds b = some s.clk := if_pos h
theorem State.transferEnds_running (s : State) {b : Bg} (h : b.aborted = false) : s.transferEnds b = s.transferLeft b.cmd := by
  rw [State.transferEnds, h]
  rfl
theorem State.toClk_clk (s : State) : s.toClk s.clk = s := by
  rw [State.toClk, Nat.sub_self, State.pass, if_pos rfl]

/-- What a COPY makes of the first bytes of its source. -/
def copyWrite (c : Cmd) (r : Run) (n : Nat) (s : State) : State :=
  if c.opnd 20 1 = 1 then s.hostWrite (c.opnd 8 8) ((r.take n).map (·.1))
  else (cut pageBytes (c.opnd 8 8) n).foldl (fun s x => s.devWrite x.1 ((r.drop (x.1 - c.opnd 8 8)).take x.2)) s

theorem copyWrite_parts (c : Cmd) (r : Run) (n : Nat) (s : State) : (copyWrite c r n s).parts = s.parts := by
  unfold copyWrite
  split
  · rw [State.hostWrite_parts]
  · obtain ⟨_, _, _, _, h⟩ := State.Stores.foldl (f := fun s x => s.devWrite x.1 ((r.drop (x.1 - c.opnd 8 8)).take x.2))
      (fun s x => s.stores_devWrite _ _) (cut pageBytes (c.opnd 8 8) n) s
    rw [h]

section
variable {s : State} {b : Bg} {u : Nat}

/-- The transfer in progress under a stamp and an opcode. -/
abbrev State.Carries (s : State) (op : Nat) (b : Bg) : Prop :=
  lookupBy (fun x => x.cmd.stamp == b.cmd.stamp && x.cmd.op == op) s.hif.running = some b

theorem exec_copyComplete_waits (h : s.Carries 0x24 b) (hup : s.hostUp = true) (hends : s.transferEnds b = none) :
    exec (.copyComplete b.cmd.stamp) s = .next s := by
  change execCopyComplete b.cmd.stamp s = _
  unfold State.transferEnds at hends
  simp only [execCopyComplete, h, hup, hends, Bool.not_true, Bool.false_and, Bool.false_eq_true, if_false]
theorem exec_copyComplete_ends (h : s.Carries 0x24 b) (hup : s.hostUp = true) (hends : s.transferEnds b = some u) :
    exec (.copyComplete b.cmd.stamp) s = .next ((s.toClk u).draw.2.endTransfer b (b.cmd.opnd 16 4)
      ((poisonStop (b.cmd.opnd 0 8) ((s.toClk u).copySource b.cmd)).map (fun x => (x.1, x.2.1, whereDev (b.cmd.opnd 0 8 + x.2.2))))
      (s.toClk u).draw.1 (copyWrite b.cmd ((s.toClk u).copySource b.cmd)) 0) := by
  change execCopyComplete b.cmd.stamp s = _
  unfold State.transferEnds at hends
  simp only [execCopyComplete, h, hup, hends, Bool.not_true, Bool.false_and, Bool.false_eq_true, if_false]
  rfl

/-- The whole of an EXPORT: its header, and its payload behind it (R253). -/
def State.exportBytes (s : State) (b : Bg) : List Byte :=
  exportWhole b.header (Run.plain (s.exportSource b.cmd)) ++ Run.plain (s.exportSource b.cmd)

theorem exec_exportComplete_waits (h : s.Carries 0x25 b) (hup : s.hostUp = true) (hends : s.transferEnds b = none) :
    exec (.exportComplete b.cmd.stamp) s = .next s := by
  change execExportComplete b.cmd.stamp s = _
  unfold State.transferEnds at hends
  simp only [execExportComplete, h, hup, hends, Bool.not_true, Bool.false_eq_true, if_false]
theorem exec_exportComplete_ends (h : s.Carries 0x25 b) (hup : s.hostUp = true) (hends : s.transferEnds b = some u) :
    exec (.exportComplete b.cmd.stamp) s = .next ((s.toClk u).draw.2.endTransfer b ((s.toClk u).exportBytes b).length
      (exportStop b.cmd ((s.toClk u).exportSource b.cmd)) (s.toClk u).draw.1
      (fun m t => t.hostWrite (b.cmd.inl 0x48 8) (((s.toClk u).exportBytes b).take m)) b.epoch) := by
  change execExportComplete b.cmd.stamp s = _
  unfold State.transferEnds at hends
  simp only [execExportComplete, h, hup, hends, Bool.not_true, Bool.false_eq_true, if_false]
  rfl

/-- A COPY from a sound source writes all of it. -/
theorem exec_copyComplete_sound (h : s.Carries 0x24 b) (hup : s.hostUp = true) (hends : s.transferEnds b = some u) (hrun : b.aborted = false)
    (hsound : Run.origin ((s.toClk u).copySource b.cmd) = 0) : exec (.copyComplete b.cmd.stamp) s =
    .next ((copyWrite b.cmd ((s.toClk u).copySource b.cmd) (b.cmd.opnd 16 4) ((s.toClk u).draw.2.withdrawn b)).complete
      b.cmd.ring b.cmd.tag b.cmd.stamp b.cmd.part 0 0 (b.cmd.opnd 16 4) 0) := by
  rw [exec_copyComplete_ends h hup hends, poisonStop_sound _ hsound, Option.map_none, State.endTransfer_whole _ _ _ _ _ hrun]
/-- An EXPORT of sound arrays writes all of it. -/
theorem exec_exportComplete_sound (h : s.Carries 0x25 b) (hup : s.hostUp = true) (hends : s.transferEnds b = some u) (hrun : b.aborted = false)
    (hsound : Run.origin ((s.toClk u).exportSource b.cmd) = 0) : exec (.exportComplete b.cmd.stamp) s =
    .next ((((s.toClk u).draw.2.withdrawn b).hostWrite (b.cmd.inl 0x48 8) ((s.toClk u).exportBytes b)).complete
      b.cmd.ring b.cmd.tag b.cmd.stamp b.cmd.part 0 0 ((s.toClk u).exportBytes b).length b.epoch) := by
  rw [exec_exportComplete_ends h hup hends, exportStop_sound _ hsound, State.endTransfer_whole _ _ _ _ _ hrun, List.take_length]

end

/-! ## The bytes of a COPY -/

section
variable {s : State} {c : Cmd} {r : Run}

theorem State.copySource_device (hdir : c.opnd 20 1 = 1) (hn : 0 < c.opnd 16 4)
    (hpage : c.opnd 0 8 / pageBytes = (c.opnd 0 8 + c.opnd 16 4 - 1) / pageBytes) : s.copySource c = s.devRead (c.opnd 0 8) (c.opnd 16 4) := by
  rw [State.copySource, if_neg (by rw [hdir]; decide), cut_one (by decide) hn hpage, List.flatMap_singleton]
theorem State.copySource_host (hdir : c.opnd 20 1 = 0) : s.copySource c = s.hostFetch (c.opnd 0 8) (c.opnd 16 4) := if_pos hdir

theorem copyWrite_host (hdir : c.opnd 20 1 = 1) (hlen : r.length = c.opnd 16 4) :
    copyWrite c r (c.opnd 16 4) s = s.hostWrite (c.opnd 8 8) r.plain := by
  rw [copyWrite, if_pos hdir, ← hlen, List.take_length, Run.plain]
theorem copyWrite_device (hdir : c.opnd 20 1 = 0) (hlen : r.length = c.opnd 16 4) (hn : 0 < c.opnd 16 4) (hdst : c.opnd 8 8 < hostBase)
    (hpage : c.opnd 8 8 / pageBytes = (c.opnd 8 8 + c.opnd 16 4 - 1) / pageBytes) :
    copyWrite c r (c.opnd 16 4) s = s.write .dev (c.opnd 8 8) r := by
  rw [copyWrite, if_neg (by rw [hdir]; decide), cut_one (by decide) hn hpage, List.foldl_cons, List.foldl_nil, Nat.sub_self, List.drop_zero, ← hlen,
    List.take_length, State.devWrite_of_lt _ hdst]

end

section
variable {s : State} {b : Bg} {u : Nat} (h : s.Carries 0x24 b) (hup : s.hostUp = true) (hends : s.transferEnds b = some u)
include h hup hends

theorem copyComplete_toHost (hrun : b.aborted = false) (hdir : b.cmd.opnd 20 1 = 1) (hn : 0 < b.cmd.opnd 16 4) (hsrc : b.cmd.opnd 0 8 < hostBase)
    (hpage : b.cmd.opnd 0 8 / pageBytes = (b.cmd.opnd 0 8 + b.cmd.opnd 16 4 - 1) / pageBytes)
    (hsound : Run.origin ((s.toClk u).devRead (b.cmd.opnd 0 8) (b.cmd.opnd 16 4)) = 0) :
    ∃ t, exec (.copyComplete b.cmd.stamp) s = .next t ∧
      (∀ k, tget 0 t.data.host k = if b.cmd.opnd 8 8 ≤ k ∧ k < b.cmd.opnd 8 8 + b.cmd.opnd 16 4 then
        (s.toClk u).devByte (b.cmd.opnd 0 8 + (k - b.cmd.opnd 8 8)) else tget 0 (s.toClk u).data.host k) ∧
      t.data.dev = (s.toClk u).data.dev ∧ t.parts = (s.toClk u).parts ∧
      ∃ q ∈ t.hif.compl, q.tag = b.cmd.tag ∧ q.status = 0 ∧ q.value = b.cmd.opnd 16 4 := by
  have hsource : (s.toClk u).copySource b.cmd = _ := State.copySource_device hdir hn hpage
  have hexec := exec_copyComplete_sound h hup hends hrun (by rwa [hsource])
  rw [hsource, State.devRead_of_lt _ hsrc, copyWrite_host hdir (Data.length_read _ _ _ _)] at hexec
  obtain ⟨q, hq, htag, hstatus, hvalue, -⟩ := State.mem_complete _ _ _ _ _ _ _ _ _
  refine ⟨_, hexec, fun k => ?_, ?_, ?_, q, hq, htag, hstatus, hvalue⟩
  · rw [State.complete_data, State.tget_hostWrite, State.withdrawn_data, State.draw_data, Run.plain, List.length_map, Data.length_read]
    exact if_ctx_congr Iff.rfl (fun hk => Data.getD_plain_read _ _ _ (by omega)) fun _ => rfl
  · rw [State.complete_data, State.hostWrite_dev, State.withdrawn_data, State.draw_data]
  · rw [State.complete_parts, State.hostWrite_parts, State.withdrawn_parts, State.draw_parts]

theorem copyComplete_toDevice (hrun : b.aborted = false) (hdir : b.cmd.opnd 20 1 = 0) (hn : 0 < b.cmd.opnd 16 4)
    (hdst : b.cmd.opnd 8 8 + b.cmd.opnd 16 4 ≤ hostBase)
    (hpage : b.cmd.opnd 8 8 / pageBytes = (b.cmd.opnd 8 8 + b.cmd.opnd 16 4 - 1) / pageBytes)
    (hsound : ∀ i, i < b.cmd.opnd 16 4 → tget 0 (s.toClk u).data.hostP ((b.cmd.opnd 0 8 + i) / 8) = 0) :
    ∃ t, exec (.copyComplete b.cmd.stamp) s = .next t ∧
      (∀ k, t.devByte k = if b.cmd.opnd 8 8 ≤ k ∧ k < b.cmd.opnd 8 8 + b.cmd.opnd 16 4 then
        tget 0 (s.toClk u).data.host (b.cmd.opnd 0 8 + (k - b.cmd.opnd 8 8)) else (s.toClk u).devByte k) ∧
      t.data.host = (s.toClk u).data.host ∧ t.parts = (s.toClk u).parts ∧
      ∃ q ∈ t.hif.compl, q.tag = b.cmd.tag ∧ q.status = 0 ∧ q.value = b.cmd.opnd 16 4 := by
  have hsource : (s.toClk u).copySource b.cmd = _ := State.copySource_host hdir
  have hexec := exec_copyComplete_sound h hup hends hrun (by rw [hsource]; exact State.origin_hostFetch hsound)
  rw [hsource, copyWrite_device hdir (State.length_hostFetch _ _ _) hn (by omega) hpage] at hexec
  obtain ⟨q, hq, htag, hstatus, hvalue, -⟩ := State.mem_complete _ _ _ _ _ _ _ _ _
  refine ⟨_, hexec, fun k => ?_, ?_, ?_, q, hq, htag, hstatus, hvalue⟩
  · have hbyte : ((s.toClk u).draw.2.withdrawn b).devByte k = (s.toClk u).devByte k := by
      rw [State.devByte, State.withdrawn_data, State.draw_data, State.devByte]
    rw [State.devByte, State.complete_data, ← State.devByte, State.devByte_write, hbyte, State.length_hostFetch, State.plain_hostFetch]
    exact if_ctx_congr Iff.rfl (fun hk => getD_readBytes _ (by omega) _) fun _ => rfl
  · rw [State.complete_data]
    change (((s.toClk u).draw.2.withdrawn b).data.write .dev _ _).host = _
    rw [Data.host_write, State.withdrawn_data, State.draw_data]
  · rw [State.complete_parts, State.write_parts, State.withdrawn_parts, State.draw_parts]

end

/-! ## The bytes of an EXPORT -/

theorem exportComplete_toHost {s : State} {b : Bg} {u : Nat} (h : s.Carries 0x25 b) (hup : s.hostUp = true) (hends : s.transferEnds b = some u)
    (hrun : b.aborted = false) (hsound : Run.origin ((s.toClk u).exportSource b.cmd) = 0) :
    ∃ t, exec (.exportComplete b.cmd.stamp) s = .next t ∧
      (∀ k, tget 0 t.data.host k = if b.cmd.inl 0x48 8 ≤ k ∧ k < b.cmd.inl 0x48 8 + ((s.toClk u).exportBytes b).length then
        ((s.toClk u).exportBytes b).getD (k - b.cmd.inl 0x48 8) 0 else tget 0 (s.toClk u).data.host k) ∧
      t.data.dev = (s.toClk u).data.dev ∧ t.parts = (s.toClk u).parts ∧
      ∃ q ∈ t.hif.compl, q.tag = b.cmd.tag ∧ q.status = 0 ∧ q.value = ((s.toClk u).exportBytes b).length ∧ q.detail = b.epoch := by
  refine ⟨_, exec_exportComplete_sound h hup hends hrun hsound, fun k => ?_, ?_, ?_, State.mem_complete _ _ _ _ _ _ _ _ _⟩
  · rw [State.complete_data, State.tget_hostWrite, State.withdrawn_data, State.draw_data]
  · rw [State.complete_data, State.hostWrite_dev, State.withdrawn_data, State.draw_data]
  · rw [State.complete_parts, State.hostWrite_parts, State.withdrawn_parts, State.draw_parts]

/-! ## Aborted transfers -/

section
variable {s : State} {b : Bg} (hup : s.hostUp = true) (habort : b.aborted = true)
include hup habort

theorem copyComplete_aborted (h : s.Carries 0x24 b) : ∃ t, exec (.copyComplete b.cmd.stamp) s = .next t ∧ t.parts = s.parts ∧
    ∃ q ∈ t.hif.compl, q.tag = b.cmd.tag ∧ q.status = 2 ∧ q.value ≤ b.cmd.opnd 16 4 := by
  have hexec := exec_copyComplete_ends h hup (s.transferEnds_aborted habort)
  rw [State.toClk_clk] at hexec
  obtain ⟨k, hk, hends⟩ := s.draw.2.endTransfer_aborted (b.cmd.opnd 16 4) s.draw.1 0 (copyWrite b.cmd (s.copySource b.cmd))
    ((poisonStop (b.cmd.opnd 0 8) (s.copySource b.cmd)).map (fun x => (x.1, x.2.1, whereDev (b.cmd.opnd 0 8 + x.2.2)))) habort
  rw [hends] at hexec
  obtain ⟨q, hq, htag, hstatus, hvalue, -⟩ := State.mem_complete _ _ _ _ _ _ _ _ _
  refine ⟨_, hexec, ?_, q, hq, htag, hstatus, hvalue.trans_le hk⟩
  rw [State.complete_parts, copyWrite_parts, State.withdrawn_parts, State.draw_parts]
theorem exportComplete_aborted (h : s.Carries 0x25 b) : ∃ t, exec (.exportComplete b.cmd.stamp) s = .next t ∧ t.parts = s.parts ∧
    ∃ q ∈ t.hif.compl, q.tag = b.cmd.tag ∧ q.status = 2 ∧ q.value ≤ (s.exportBytes b).length := by
  have hexec := exec_exportComplete_ends h hup (s.transferEnds_aborted habort)
  rw [State.toClk_clk] at hexec
  obtain ⟨k, hk, hends⟩ := s.draw.2.endTransfer_aborted (s.exportBytes b).length s.draw.1 b.epoch
    (fun m t => t.hostWrite (b.cmd.inl 0x48 8) ((s.exportBytes b).take m)) (exportStop b.cmd (s.exportSource b.cmd)) habort
  rw [hends] at hexec
  obtain ⟨q, hq, htag, hstatus, hvalue, -⟩ := State.mem_complete _ _ _ _ _ _ _ _ _
  refine ⟨_, hexec, ?_, q, hq, htag, hstatus, hvalue.trans_le hk⟩
  rw [State.complete_parts, State.hostWrite_parts, State.withdrawn_parts, State.draw_parts]

end

/-! ## The obligation -/

/-- Settles O19: from a sound source a transfer writes its whole length; an aborted one ends at once, at a length that it need not have completed. -/
theorem copyExportMoveBytes : Obligations.CopyExportMoveBytes := by
  unfold Obligations.CopyExportMoveBytes
  refine ⟨fun s b h hrun hup => ?_, fun s b op hop h hup => ⟨fun hexport hrun => ?_, fun habort => ?_⟩⟩
  · have hends := s.transferEnds_running hrun
    refine ⟨fun hleft => exec_copyComplete_waits h hup (hends.trans hleft), fun u hleft => ⟨fun hdir hn hsrc hpage hsound => ?_,
      fun hdir hn hdst hpage hsound => ?_⟩⟩
    · exact copyComplete_toHost h hup (hends.trans hleft) hrun hdir hn hsrc hpage hsound
    · exact copyComplete_toDevice h hup (hends.trans hleft) hrun hdir hn hdst hpage hsound
  · subst hexport
    have hends := s.transferEnds_running hrun
    exact ⟨fun hleft => exec_exportComplete_waits h hup (hends.trans hleft),
      fun u hleft hsound => exportComplete_toHost h hup (hends.trans hleft) hrun hsound⟩
  · obtain rfl | rfl := hop
    · exact copyComplete_aborted hup habort h
    · exact exportComplete_aborted hup habort h

end Sys2Proof.Machine
end

section
/-! The cache commands (R277, R278, R285, R287 to R289): what they register, store, queue and refuse. -/
namespace Sys2Proof.Machine

open Sys2Proof

/-! ## Fields of records in memory -/

theorem fld_take {b : List Byte} {off n k : Nat} (h : off + n ≤ k) : fld (b.take k) off n = fld b off n := by
  unfold fld
  rw [List.drop_take, List.take_take, Nat.min_eq_left (by omega)]
theorem fld_leBytes (n x : Nat) : fld (leBytes n x) 0 n = x % 256 ^ n := by
  rw [fld, List.drop_zero, List.take_of_length_le (length_leBytes n x).le, leNat_leBytes]
theorem fld_leBytes_append (n x : Nat) (b : List Byte) : fld (leBytes n x ++ b) 0 n = x % 256 ^ n := by
  rw [fld, List.drop_zero, List.take_left' (length_leBytes n x), leNat_leBytes]
theorem fld_append_right {a : List Byte} {k : Nat} (h : a.length ≤ k) (b : List Byte) (n : Nat) :
    fld (a ++ b) k n = fld b (k - a.length) n := by
  rw [fld, List.drop_append, List.drop_eq_nil_of_le h, List.nil_append]
  rfl

theorem leNat_lt (b : List Byte) : leNat b < 256 ^ b.length := by
  induction b with
  | nil => exact Nat.one_pos
  | cons x b ih =>
    have hx : x.toNat < 256 := x.isLt
    rw [leNat, List.length_cons, pow_succ]
    omega
theorem fld_lt (b : List Byte) (off n : Nat) : fld b off n < 256 ^ n :=
  (leNat_lt _).trans_le (Nat.pow_le_pow_right (by decide) (List.length_take_le _ _))

/-- A field within what a write stores reads back, whatever else a longer read takes in. -/
theorem Data.fld_read_write (d : Data) (sp : Space) (a : Nat) {r : Run} {n off m : Nat} (hn : r.length ≤ n) (h : off + m ≤ r.length) :
    fld (Run.plain ((d.write sp a r).read sp a n)) off m = fld r.plain off m := by
  rw [← fld_take h, Run.plain, ← List.map_take, Data.read_take _ _ _ _ _ hn]
  exact congrArg (fld · off m) (d.plain_read_write sp a r)

/-! ## Entries of the sequence table -/

/-- What the bytes of an entry hold of its values (Table 09-11). -/
def SeqEntry.stored (e : SeqEntry) : SeqEntry :=
  { seqId := e.seqId % 256 ^ 4, length := e.length % 256 ^ 4, state := e.state % 256 ^ 1, bucket := e.bucket % 256 ^ 1, row := e.row % 256 ^ 2,
    pending := e.pending % 256 ^ 2 }

theorem CacheSet.seqAt_lt {c : CacheSet} {slot : Nat} (hslot : slot < c.slots) (hlow : c.seqTable + 16 * c.slots ≤ hostBase) :
    c.seqAt slot < hostBase := by
  unfold CacheSet.seqAt
  omega

section
variable {c : CacheSet} {slot : Nat} (hslot : slot < c.slots) (hlow : c.seqTable + 16 * c.slots ≤ hostBase)
include hslot hlow

theorem State.seqEntry_putSeq (s : State) (e : SeqEntry) : (s.putSeq c slot e).seqEntry c slot = e.stored := by
  have hat := CacheSet.seqAt_lt hslot hlow
  unfold State.putSeq State.seqEntry byteAt
  rw [State.devWrite_of_lt _ hat, State.devRead_of_lt _ hat, State.write]
  simp only [Data.fld_read_write, Run.length_sound, Run.plain_sound, List.length_append, List.append_assoc, fld_leBytes, fld_leBytes_append,
    fld_append_right, length_leBytes, Nat.reduceAdd, Nat.reduceSub, Nat.reduceLeDiff]
  rfl
theorem State.seqEntry_putSeq_ne (s : State) (e : SeqEntry) {j : Nat} (hj : j < c.slots) (hne : j ≠ slot) :
    (s.putSeq c slot e).seqEntry c j = s.seqEntry c j := by
  have hrun : Run.plain ((s.putSeq c slot e).devRead (c.seqAt j) 16) = Run.plain (s.devRead (c.seqAt j) 16) := by
    rw [State.putSeq, State.devWrite_of_lt _ (CacheSet.seqAt_lt hslot hlow), State.devRead_of_lt _ (CacheSet.seqAt_lt hj hlow),
      State.devRead_of_lt _ (CacheSet.seqAt_lt hj hlow)]
    refine s.data.plain_read_write_out .dev ?_
    simp only [Run.length_sound, List.length_append, length_leBytes, CacheSet.seqAt]
    omega
  unfold State.seqEntry
  rw [hrun]
theorem State.putSeq_host (s : State) (e : SeqEntry) : (s.putSeq c slot e).data.host = s.data.host := by
  rw [State.putSeq, State.devWrite_of_lt _ (CacheSet.seqAt_lt hslot hlow)]
  exact Data.host_write _ _ _ _

/-- The entries of the other slots stay as a sequence joins. -/
theorem State.seqEntry_joinSlot_ne (s : State) (seqId : Nat) {j : Nat} (hj : j < c.slots) (hne : j ≠ slot) :
    (s.joinSlot c slot seqId).seqEntry c j = s.seqEntry c j := State.seqEntry_putSeq_ne hslot hlow s _ hj hne
theorem State.joinSlot_host (s : State) (seqId : Nat) : (s.joinSlot c slot seqId).data.host = s.data.host := State.putSeq_host hslot hlow s _

/-- A slot that has left is FREE and has nothing pending (R287). -/
theorem State.seqEntry_leaveSlot (s : State) :
    ((s.leaveSlot c slot).seqEntry c slot).state = 0 ∧ ((s.leaveSlot c slot).seqEntry c slot).pending = 0 := by
  unfold State.leaveSlot
  rw [State.seqEntry_putSeq hslot hlow]
  exact ⟨rfl, rfl⟩
/-- A slot that has joined is ACTIVE, with its SEQ_ID and length 0 (R287). -/
theorem State.seqEntry_joinSlot (s : State) {seqId : Nat} (hid : seqId < 256 ^ 4) :
    (s.joinSlot c slot seqId).seqEntry c slot = { seqId := seqId, length := 0, state := 1, bucket := 0xFF, row := 0xFFFF, pending := 0 } := by
  rw [State.joinSlot, State.seqEntry_putSeq hslot hlow, SeqEntry.stored, Nat.mod_eq_of_lt hid]
  rfl

end

theorem State.stores_joinSlot (s : State) (c : CacheSet) (slot seqId : Nat) : s.Stores (s.joinSlot c slot seqId) := s.stores_putSeq c slot _

/-! ## Answers -/

theorem Cmd.inl_lt (c : Cmd) (off n : Nat) : c.inl off n < 256 ^ n := fld_lt _ _ _

/-- What a command finds of its partition's cache as it begins is what stood there. -/
@[simp] theorem State.cset_begun (s : State) (c : Cmd) (p : Nat) : (s.begun c).cset p = s.cset p := rfl
@[simp] theorem State.seqEntry_begun (s : State) (c : Cmd) (cs : CacheSet) (slot : Nat) : (s.begun c).seqEntry cs slot = s.seqEntry cs slot := rfl
@[simp] theorem State.cacheSetOk_begun (s : State) (c : Cmd) (p a : Nat) : (s.begun c).cacheSetOk p a = s.cacheSetOk p a := by
  unfold State.cacheSetOk
  rfl
@[simp] theorem State.cacheIndex_begun (s : State) (c : Cmd) (cs : CacheSet) (engine : Nat) :
    (s.begun c).cacheIndex cs engine = s.cacheIndex cs engine := rfl

section
variable {s : State} {c : Cmd}

/-- A command whose effect is a refusal, with a reason that is not one of Table 16-6, is completed and nothing else. -/
theorem State.runCmd_refuses {op r : Nat} {f : Cmd → State → State} (h : s.serves op c) (hf : f c (s.begun c) = (s.begun c).deny c r)
    (hclass : r / 256 ≠ 5) : s.runCmd (· == op) f = s.completed c 1 r 0 0 := by
  rw [State.runCmd_ok f h.1 h.2, hf, State.begun_deny hclass]

/-- After firmware's stores, a slot that leaves or joins counts no held step, and its command completes OK. -/
theorem State.Stores.notHeld_ok {t : State} (h : (s.begun c).Stores t) (slot : Nat) :
    Sys2Proof.Machine.answered s ((t.notHeld c.part slot).ok c 0) c 0 0 0 ∧
    ((t.notHeld c.part slot).ok c 0).parts = tset Part.init s.parts c.part { s.part c.part with held := (s.part c.part).held.erase slot } := by
  obtain ⟨_, _, _, _, rfl⟩ := h
  exact ⟨⟨rfl, _, rfl⟩, rfl⟩

@[simp] theorem State.seqEntry_ok (t : State) (c : Cmd) (value : Nat) (cs : CacheSet) (j : Nat) : (t.ok c value).seqEntry cs j = t.seqEntry cs j := rfl
@[simp] theorem State.seqEntry_notHeld (t : State) (p slot : Nat) (cs : CacheSet) (j : Nat) : (t.notHeld p slot).seqEntry cs j = t.seqEntry cs j := rfl
theorem State.host_notHeld_ok (t : State) (c : Cmd) (slot : Nat) : ((t.notHeld c.part slot).ok c 0).data.host = t.data.host := rfl

/-- A request that waits for the step boundary leaves its command incomplete. -/
theorem State.queueCache_waits (s : State) (c : Cmd) (leave : Bool) (slot seqId : Nat) :
    let t := (s.begun c).queueCache c leave slot seqId
    t.hif.queue = s.hif.queue.tail ∧ t.hif.compl = s.hif.compl ∧ t.data = s.data ∧
      (t.part c.part).cacheQ.length = (s.part c.part).cacheQ.length + 1 ∧ ∀ q, q ≠ c.part → t.part q = s.part q := by
  refine ⟨rfl, rfl, rfl, ?_, fun q hq => State.part_modPart_ne _ _ hq⟩
  rw [State.queueCache, State.part_modPart]
  exact List.length_append

/-! ## CACHE_SET -/

/-- The first reason that refuses a CACHE_SET (Table 09-16). -/
def State.cacheSetCode (s : State) (c : Cmd) : Nat :=
  firstCode [(0x641, !s.cacheSetOk c.part (c.inl 0 8)), (0x642, decide ((s.part c.part).status ≠ .idle))]

theorem exec_cacheSet (h : s.serves 0x30 c) : exec .cacheSet s = .next (if s.cacheSetCode c = 0 then
      ((s.begun c).modPart c.part (fun x => { x with cset := some (c.inl 0 8), csetRec := s.cacheCopy (c.inl 0 8), held := [] })).ok c 0
    else ((s.begun c).enableRefused (s.cacheSetCode c) 0).deny c (s.cacheSetCode c)) := by
  refine congrArg Host.Outcome.next ((State.runCmd_ok _ h.1 h.2).trans ?_)
  simp only [State.cacheSetOk_begun]
  rfl

theorem State.cacheSetCode_of_bad (hbad : s.cacheSetOk c.part (c.inl 0 8) = false) : s.cacheSetCode c = 0x641 := by
  simp [State.cacheSetCode, firstCode, hbad]
theorem State.cacheSetCode_of_busy (hgood : s.cacheSetOk c.part (c.inl 0 8) = true) (hbusy : (s.part c.part).status ≠ .idle) :
    s.cacheSetCode c = 0x642 := by
  simp [State.cacheSetCode, firstCode, hgood, hbusy]
theorem State.cacheSetCode_of_idle (hgood : s.cacheSetOk c.part (c.inl 0 8) = true) (hidle : (s.part c.part).status = .idle) :
    s.cacheSetCode c = 0 := by
  simp [State.cacheSetCode, firstCode, hgood, hidle]

theorem exec_cacheSet_ok (h : s.serves 0x30 c) (hcode : s.cacheSetCode c = 0) : exec .cacheSet s = .next { s.completed c 0 0 0 0 with
    parts := tset Part.init s.parts c.part { s.part c.part with cset := some (c.inl 0 8), csetRec := s.cacheCopy (c.inl 0 8), held := [] } } := by
  rw [exec_cacheSet h, if_pos hcode]
  rfl
theorem exec_cacheSet_refused {r : Nat} (h : s.serves 0x30 c) (hcode : s.cacheSetCode c = r) (hsome : r ≠ 0) (hclass : r / 256 ≠ 5) :
    ∃ t, exec .cacheSet s = .next t ∧ answered s t c 1 r 0 ∧ t.parts = s.parts ∧ t.data = s.data := by
  obtain ⟨hanswered, hrest⟩ := State.enableRefused_deny (s := s) (c := c) hclass
  exact ⟨_, by rw [exec_cacheSet h, hcode, if_neg hsome], hanswered, congrArg (·.parts) hrest, congrArg (·.data) hrest⟩

/-! ## CACHE_GIVE -/

/-- The pages that a CACHE_GIVE names (Table 09-15). -/
def Cmd.pages (c : Cmd) : List Nat := (upTo (c.inl 2 2)).map (fun k => c.inl (4 + 8 * k) 8)

/-- The first reason that keeps pages out of an engine's ring (R285, Table 09-16). -/
def State.giveCode (s : State) (cs : CacheSet) (i : Nat) (pages : List Nat) : Nat :=
  let e := s.cacheEng cs i
  firstCode [
    (0x643, pages.any (fun a => a % 262144 != 0 || !s.inChannel true e.engine a 262144 || (s.ringPages e).contains a || (s.usedPages cs i).contains a) ||
      decide ((dedup pages).length ≠ pages.length)),
    (0x644, decide (e.freeCap < (s.ringPages e).length + (s.usedPages cs i).length + pages.length))]

theorem exec_cacheGive {cs : CacheSet} {i : Nat} (h : s.serves 0x31 c) (hset : s.cset c.part = some cs) (hindex : s.cacheIndex cs (c.inl 0 2) = some i) :
    exec .cacheGive s = .next ((s.begun c).answer c (s.giveCode cs i c.pages) (c.pages.foldl (fun s a => s.givePage cs i a) (s.begun c))) := by
  refine congrArg Host.Outcome.next ((State.runCmd_ok _ h.1 h.2).trans ?_)
  simp only [State.cset_begun, hset, State.cacheIndex_begun, hindex]
  rfl

@[simp] theorem State.length_ringPages (s : State) (e : CacheEng) : (s.ringPages e).length = e.count := by
  simp [State.ringPages, upTo]

/-- Pages of the engine's own channel that are each named once and held nowhere are refused only where the ring cannot hold them. -/
theorem State.giveCode_fresh {cs : CacheSet} {i : Nat} {pages : List Nat}
    (hfresh : ∀ a ∈ pages, a % 262144 = 0 ∧ s.inChannel true (s.cacheEng cs i).engine a 262144 = true ∧ a ∉ s.ringPages (s.cacheEng cs i) ∧
      a ∉ s.usedPages cs i)
    (honce : (dedup pages).length = pages.length) : s.giveCode cs i pages =
      if (s.cacheEng cs i).freeCap < (s.cacheEng cs i).count + (s.usedPages cs i).length + pages.length then 0x644 else 0 := by
  have hnone : pages.any (fun a => a % 262144 != 0 || !s.inChannel true (s.cacheEng cs i).engine a 262144 ||
      (s.ringPages (s.cacheEng cs i)).contains a || (s.usedPages cs i).contains a) = false := by
    rw [List.any_eq_false]
    intro a ha
    obtain ⟨haligned, hchannel, hring, hused⟩ := hfresh a ha
    simp [haligned, hchannel, hring, hused]
  simp only [State.giveCode, hnone, honce, firstCode, State.length_ringPages, ne_eq, not_true_eq_false, decide_false, Bool.or_false, Bool.false_eq_true,
    if_false, decide_eq_true_eq]

/-! ## CACHE_JOIN and CACHE_LEAVE -/

theorem exec_cacheJoin {cs : CacheSet} (h : s.serves 0x32 c) (hset : s.cset c.part = some cs) : exec .cacheJoin s = .next (
    if cs.slots ≤ c.inl 0 2 ∨ (s.seqEntry cs (c.inl 0 2)).state ≠ 0 then s.completed c 1 0x645 0 0
    else if (s.part c.part).status = .idle then
      (((s.begun c).joinSlot cs (c.inl 0 2) (c.inl 4 4)).notHeld c.part (c.inl 0 2)).ok c 0
    else (s.begun c).queueCache c false (c.inl 0 2) (c.inl 4 4)) := by
  refine congrArg Host.Outcome.next ((State.runCmd_ok _ h.1 h.2).trans ?_)
  simp only [State.cset_begun, hset, Bool.or_eq_true, decide_eq_true_eq]
  rw [State.begun_deny (by decide)]
  rfl

theorem exec_cacheLeave {cs : CacheSet} (h : s.serves 0x33 c) (hset : s.cset c.part = some cs) : exec .cacheLeave s = .next (
    if cs.slots ≤ c.inl 0 2 ∨ (s.seqEntry cs (c.inl 0 2)).state = 0 then s.completed c 1 0x646 0 0
    else if (s.part c.part).status = .idle then (((s.begun c).leaveSlot cs (c.inl 0 2)).notHeld c.part (c.inl 0 2)).ok c 0
    else (s.begun c).queueCache c true (c.inl 0 2) 0) := by
  refine congrArg Host.Outcome.next ((State.runCmd_ok _ h.1 h.2).trans ?_)
  simp only [State.cset_begun, hset, Bool.or_eq_true, decide_eq_true_eq]
  rw [State.begun_deny (by decide)]
  rfl

/-! ## Without a registered record -/

section
variable (hset : s.cset c.part = none)
include hset

theorem exec_cacheGive_noSet (h : s.serves 0x31 c) : exec .cacheGive s = .next (s.completed c 1 0x647 0 0) :=
  congrArg Host.Outcome.next (State.runCmd_refuses h (by simp only [State.cset_begun, hset]) (by decide))
theorem exec_cacheJoin_noSet (h : s.serves 0x32 c) : exec .cacheJoin s = .next (s.completed c 1 0x647 0 0) :=
  congrArg Host.Outcome.next (State.runCmd_refuses h (by simp only [State.cset_begun, hset]) (by decide))
theorem exec_cacheLeave_noSet (h : s.serves 0x33 c) : exec .cacheLeave s = .next (s.completed c 1 0x647 0 0) :=
  congrArg Host.Outcome.next (State.runCmd_refuses h (by simp only [State.cset_begun, hset]) (by decide))

end

end

/-! ## The obligations -/

/-- Settles O20: each command runs on the state with it begun, whose partitions and memory are those before it; pages that pass the first check can
only overfill the ring. -/
theorem cacheSetAndGive : Obligations.CacheSetAndGive := by
  unfold Obligations.CacheSetAndGive
  refine ⟨fun s c h => ⟨fun hgood hidle => ?_, fun hbad => ?_, fun hgood hbusy => ?_⟩, fun s c cs i h hset hindex => ?_,
    fun s c hset => ⟨exec_cacheGive_noSet hset, exec_cacheJoin_noSet hset, exec_cacheLeave_noSet hset⟩⟩
  · exact exec_cacheSet_ok h (State.cacheSetCode_of_idle hgood hidle)
  · exact exec_cacheSet_refused h (State.cacheSetCode_of_bad hbad) (by decide) (by decide)
  · exact exec_cacheSet_refused h (State.cacheSetCode_of_busy hgood hbusy) (by decide) (by decide)
  · intro pages e hfresh honce
    have hexec : exec .cacheGive s = .next ((s.begun c).answer c (s.giveCode cs i pages) _) := exec_cacheGive h hset hindex
    rw [State.giveCode_fresh hfresh honce] at hexec
    refine ⟨fun hfits => ?_, fun hover => ?_⟩
    · rw [hexec, if_neg (Nat.not_lt.2 hfits), State.answer_ok]
      rfl
    · rw [hexec, if_pos hover, State.answer_deny _ (by decide), State.begun_deny (by decide)]

/-- Settles O21: in an IDLE partition the slot's entry is written last and reads back whole; in one that runs the request joins those that wait. -/
theorem cacheJoinLeave : Obligations.CacheJoinLeave := by
  unfold Obligations.CacheJoinLeave
  refine ⟨fun s c cs h hset hslot hstate => ?_, fun s c cs h hset hslot hstate => ?_, fun s c cs hset => ⟨fun h hno => ?_, fun h hno => ?_⟩⟩
  · have hexec := exec_cacheJoin h hset
    rw [if_neg (not_or.2 ⟨Nat.not_le.2 hslot, not_not_intro hstate⟩)] at hexec
    refine ⟨fun hidle hlow => ?_, fun hbusy => ?_⟩
    · rw [if_pos hidle] at hexec
      obtain ⟨hanswered, hparts⟩ := ((s.begun c).stores_joinSlot cs (c.inl 0 2) (c.inl 4 4)).notHeld_ok (c.inl 0 2)
      refine ⟨_, hexec, hanswered, ?_, fun j hne hj => ?_, ?_, hparts⟩
      · rw [State.seqEntry_ok, State.seqEntry_notHeld, State.seqEntry_joinSlot hslot hlow _ (c.inl_lt 4 4)]
      · rw [State.seqEntry_ok, State.seqEntry_notHeld, State.seqEntry_joinSlot_ne hslot hlow _ _ hj hne, State.seqEntry_begun]
      · rw [State.host_notHeld_ok, State.joinSlot_host hslot hlow, State.begun_data]
    · rw [if_neg hbusy] at hexec
      exact ⟨_, hexec, s.queueCache_waits c _ _ _⟩
  · have hexec := exec_cacheLeave h hset
    rw [if_neg (not_or.2 ⟨Nat.not_le.2 hslot, hstate⟩)] at hexec
    refine ⟨fun hidle hlow => ?_, fun hbusy => ?_⟩
    · rw [if_pos hidle] at hexec
      obtain ⟨hanswered, hparts⟩ := ((s.begun c).stores_leaveSlot cs (c.inl 0 2)).notHeld_ok (c.inl 0 2)
      obtain ⟨hfree, hpending⟩ := State.seqEntry_leaveSlot hslot hlow (s.begun c)
      refine ⟨_, hexec, hanswered, ?_, ?_, hparts⟩
      · rw [State.seqEntry_ok, State.seqEntry_notHeld, hfree]
      · rw [State.seqEntry_ok, State.seqEntry_notHeld, hpending]
    · rw [if_neg hbusy] at hexec
      exact ⟨_, hexec, s.queueCache_waits c _ _ _⟩
  · rw [exec_cacheJoin h hset, if_pos hno]
  · rw [exec_cacheLeave h hset, if_pos hno]

end Sys2Proof.Machine
end

section
/-! ALLOC (R306, R486): the lowest free address that a hint allows, and what an allocation changes. -/
namespace Sys2Proof.Machine

open Sys2Proof

/-! ## The addresses that a hint allows (Table 10-6) -/

/-- The first element of a rising list that passes a test is the least one that does. -/
theorem find?_of_least {l : List Nat} {test : Nat → Bool} {a : Nat} (hl : l.Pairwise (· ≤ ·)) (ha : a ∈ l) (htest : test a = true)
    (hleast : ∀ b ∈ l, b < a → test b = false) : l.find? test = some a := by
  induction l with
  | nil => cases ha
  | cons b l ih =>
    obtain ⟨hb, hl⟩ := List.pairwise_cons.1 hl
    by_cases hab : a = b
    · rw [← hab, List.find?_cons_of_pos htest]
    · have ha : a ∈ l := (List.mem_cons.1 ha).resolve_left hab
      have hlt : b < a := lt_of_le_of_ne (hb a ha) (Ne.symm hab)
      rw [List.find?_cons_of_neg (Bool.eq_false_iff.1 (hleast b List.mem_cons_self hlt))]
      exact ih hl ha (fun x hx => hleast x (List.mem_cons_of_mem _ hx))

/-- The addresses in the channels of one tier, channel after channel: channel `ch` begins at `start ch`, and a range of `units` pages lies between
the pages `lo` and `hi` of it. -/
def channelStarts (start : Nat → Nat) (ok : Nat → Bool) (channels lo hi units : Nat) : List Nat :=
  (upTo channels).flatMap (fun ch => if ok ch then (upTo (hi + 1 - lo - units)).map (fun k => start ch + (lo + k) * pageBytes) else [])

theorem mem_channelStarts {start : Nat → Nat} {ok : Nat → Bool} {channels lo hi units a : Nat} :
    a ∈ channelStarts start ok channels lo hi units ↔
      ∃ ch k, ch < channels ∧ ok ch = true ∧ lo ≤ k ∧ k + units ≤ hi ∧ a = start ch + k * pageBytes := by
  simp only [channelStarts, upTo, List.mem_flatMap, List.mem_range]
  constructor
  · rintro ⟨ch, hch, ha⟩
    split at ha
    · next hok =>
      obtain ⟨k, hk, rfl⟩ := List.mem_map.1 ha
      rw [List.mem_range] at hk
      exact ⟨ch, lo + k, hch, hok, by omega, by omega, rfl⟩
    · cases ha
  · rintro ⟨ch, k, hch, hok, hlo, hhi, rfl⟩
    refine ⟨ch, hch, ?_⟩
    rw [if_pos hok, List.mem_map]
    exact ⟨k - lo, List.mem_range.2 (by omega), by rw [Nat.add_sub_cancel' hlo]⟩

/-- They rise where the range ends within its channel. -/
theorem pairwise_channelStarts {start : Nat → Nat} {hi : Nat} (hstart : ∀ ch d, ch < d → start ch + hi * pageBytes ≤ start d)
    (ok : Nat → Bool) (channels lo units : Nat) : (channelStarts start ok channels lo hi units).Pairwise (· ≤ ·) := by
  have hin : ∀ ch, ∀ a ∈ (if ok ch then (upTo (hi + 1 - lo - units)).map (fun k => start ch + (lo + k) * pageBytes) else []),
      start ch ≤ a ∧ a ≤ start ch + hi * pageBytes := by
    intro ch a ha
    split at ha
    · obtain ⟨k, hk, rfl⟩ := List.mem_map.1 ha
      have hk : k < hi + 1 - lo - units := List.mem_range.1 hk
      exact ⟨Nat.le_add_right _ _, Nat.add_le_add_left (Nat.mul_le_mul_right _ (by omega)) _⟩
    · cases ha
  refine List.pairwise_flatMap.2 ⟨fun ch _ => ?_, List.pairwise_lt_range.imp (fun {ch d} hlt a ha b hb => ?_)⟩
  · split
    · exact List.pairwise_map.2 (List.pairwise_lt_range.imp (fun hlt => Nat.add_le_add_left (Nat.mul_le_mul_right _ (by omega)) _))
    · exact List.Pairwise.nil
  · exact (hin ch a ha).2.trans ((hstart ch d hlt).trans (hin d b hb).1)

/-- The addresses in the host window. -/
def State.windowStarts (s : State) (units : Nat) : List Nat :=
  ((upTo (s.mem.window.toNat + 1 - units)).filter (fun k => (upTo units).all (fun i => !s.pagePresent (hostBase + (k + i) * pageBytes)))).map
    (fun k => hostBase + k * pageBytes)

theorem State.mem_windowStarts {s : State} {units a : Nat} : a ∈ s.windowStarts units ↔
    ∃ k, k + units ≤ s.mem.window.toNat ∧ (∀ i, i < units → s.pagePresent (hostBase + (k + i) * pageBytes) = false) ∧ a = hostBase + k * pageBytes := by
  simp only [State.windowStarts, upTo, List.mem_map, List.mem_filter, List.mem_range, List.all_eq_true, Bool.not_eq_true', and_assoc,
    Nat.lt_sub_iff_add_lt, Nat.lt_succ_iff, eq_comm (a := a)]

theorem State.pairwise_windowStarts (s : State) (units : Nat) : (s.windowStarts units).Pairwise (· ≤ ·) :=
  List.pairwise_map.2 ((List.pairwise_lt_range.filter _).imp (fun hlt => Nat.add_le_add_left (Nat.mul_le_mul_right _ hlt.le) _))

section
variable {s : State} {c : Cmd}

/-- The addresses that a command's hint allows, as the model lists them. -/
def State.hintStarts (s : State) (c : Cmd) : List Nat := s.allocStarts c.part c.tier c.units c.affinity

theorem State.hintStarts_stack (h : c.tier = 0) : s.hintStarts c = channelStarts (· * 2147483648)
    (fun ch => bit (s.lay c.part).stackSet (ch / 32) && bit c.affinity (ch / 32)) 256 (s.lay c.part).sLo (s.lay c.part).sHi c.units := by
  rw [State.hintStarts, h]
  rfl
theorem State.hintStarts_board (h : c.tier = 1) : s.hintStarts c = channelStarts (boardBase + · * s.cap)
    (fun ch => bit (s.lay c.part).board ch && bit c.affinity ch) 64 (s.lay c.part).bLo (s.lay c.part).bHi c.units := by
  rw [State.hintStarts, h]
  rfl
theorem State.hintStarts_window {n : Nat} (h : c.tier = n + 2) : s.hintStarts c = s.windowStarts c.units := by
  rw [State.hintStarts, h]
  rfl

theorem State.mem_hintStarts {a : Nat} : a ∈ s.hintStarts c ↔ allocAllowed s c a := by
  match htier : c.tier with
  | 0 => simp only [State.hintStarts_stack htier, mem_channelStarts, allocAllowed, htier, Bool.and_eq_true, and_assoc]
  | 1 => simp only [State.hintStarts_board htier, mem_channelStarts, allocAllowed, htier, Bool.and_eq_true, and_assoc]
  | n + 2 => simp only [State.hintStarts_window htier, State.mem_windowStarts, allocAllowed, htier]

theorem State.pairwise_hintStarts (hstack : (s.lay c.part).sHi ≤ 1024) (hboard : (s.lay c.part).bHi * pageBytes ≤ s.cap) :
    (s.hintStarts c).Pairwise (· ≤ ·) := by
  match htier : c.tier with
  | 0 =>
    rw [State.hintStarts_stack htier]
    refine pairwise_channelStarts (fun ch d hlt => ?_) _ _ _ _
    unfold pageBytes
    omega
  | 1 =>
    rw [State.hintStarts_board htier]
    refine pairwise_channelStarts (fun ch d hlt => ?_) _ _ _ _
    have hnext : (ch + 1) * s.cap ≤ d * s.cap := Nat.mul_le_mul_right _ hlt
    rw [Nat.add_one_mul] at hnext
    omega
  | n + 2 =>
    rw [State.hintStarts_window htier]
    exact s.pairwise_windowStarts _

/-! ## Free ranges -/

/-- The address at which an ALLOC finds its range. -/
def State.foundAt (s : State) (c : Cmd) : Option Nat := s.freeRun c.units (s.hintStarts c)

/-- The model's test of a free range. -/
theorem allocFree_iff {a : Nat} :
    (!s.mem.allocs.any (fun x => rangesMeet a (c.units * pageBytes) x.addr (x.units * pageBytes))) = true ↔ allocFree s c a := by
  rw [Bool.not_eq_true', List.any_eq_false]
  exact forall₂_congr (fun _ _ => Bool.not_eq_true _ ▸ Iff.rfl)

theorem State.foundAt_none (h : ∀ a, allocAllowed s c a → ¬ allocFree s c a) : s.foundAt c = none :=
  List.find?_eq_none.2 (fun a ha hfree => h a (State.mem_hintStarts.1 ha) (allocFree_iff.1 hfree))

theorem State.foundAt_least {a : Nat} (hstack : (s.lay c.part).sHi ≤ 1024) (hboard : (s.lay c.part).bHi * pageBytes ≤ s.cap)
    (hallowed : allocAllowed s c a) (hfree : allocFree s c a) (hleast : ∀ b, b < a → allocAllowed s c b → ¬ allocFree s c b) :
    s.foundAt c = some a :=
  find?_of_least (State.pairwise_hintStarts hstack hboard) (State.mem_hintStarts.2 hallowed) (allocFree_iff.2 hfree)
    (fun b hb hlt => Bool.eq_false_iff.2 (fun hf => hleast b hlt (State.mem_hintStarts.1 hb) (allocFree_iff.1 hf)))

/-! ## The row -/

theorem exec_alloc (h : s.serves 0x20 c) : exec .alloc s = .next (if s.badHint c then (s.begun c).deny c 0x60D else match s.foundAt c with
    | none => (s.begun c).deny c 0x60E
    | some a => if c.zeroes && !s.servedRange a (c.units * pageBytes) then (s.begun c).deny c 0x50B else ((s.begun c).allocated c a).ok c a) :=
  congrArg Host.Outcome.next (State.runCmd_ok _ h.1 h.2)

theorem exec_alloc_badHint (h : s.serves 0x20 c) (hbad : s.badHint c = true) : exec .alloc s = .next (s.completed c 1 0x60D 0 0) := by
  rw [exec_alloc h, if_pos hbad, State.begun_deny (by decide)]

theorem exec_alloc_none (h : s.serves 0x20 c) (hgood : s.badHint c = false) (hnone : s.foundAt c = none) :
    exec .alloc s = .next (s.completed c 1 0x60E 0 0) := by
  rw [exec_alloc h, if_neg (Bool.eq_false_iff.1 hgood), hnone, State.begun_deny (by decide)]

section
variable {a : Nat} (h : s.serves 0x20 c) (hgood : s.badHint c = false) (hfound : s.foundAt c = some a)
include h hgood hfound

theorem exec_alloc_unserved (hzero : c.zeroes = true) (hserved : s.servedRange a (c.units * pageBytes) = false) :
    exec .alloc s = .next (s.refused c 0x50B) := by
  rw [exec_alloc h, if_neg (Bool.eq_false_iff.1 hgood), hfound, ← State.deny_begun]
  simp only [hzero, hserved, Bool.not_false, Bool.and_self, if_true]

theorem exec_alloc_some (hserved : c.zeroes = true → s.servedRange a (c.units * pageBytes) = true) :
    exec .alloc s = .next (((s.begun c).allocated c a).ok c a) := by
  have hok : (c.zeroes && !s.servedRange a (c.units * pageBytes)) = false := by
    rw [Bool.and_eq_false_iff, Bool.not_eq_false']
    exact (Bool.eq_false_or_eq_true c.zeroes).symm.imp_right hserved
  rw [exec_alloc h, if_neg (Bool.eq_false_iff.1 hgood), hfound]
  simp only [hok, Bool.false_eq_true, if_false]

end

end

/-! ## What an allocation changes -/

/-- A range of device memory zeroed, its poison included. -/
def Data.zeroDev (d : Data) (a n : Nat) : Data :=
  { d with dev := tclear d.dev a n, devP := tclear d.devP (a / 64) (n / 64), devZeroed := d.devZeroed ++ [(a, n)] }

theorem Data.zeroed_zeroDev (d : Data) (a n k : Nat) : (d.zeroDev a n).zeroed k = (d.zeroed k || (decide (a ≤ k) && decide (k < a + n))) := by
  simp only [Data.zeroed, Data.zeroDev, List.any_append, List.any_cons, List.any_nil, Bool.or_false]

theorem Data.byte_zeroDev (d : Data) (a n k : Nat) : (d.zeroDev a n).byte .dev k = if a ≤ k ∧ k < a + n then 0 else d.byte .dev k := by
  have hbyte : tget 0 ((d.zeroDev a n).bytes .dev) k = if a ≤ k ∧ k < a + n then 0 else tget 0 d.dev k := tget_tclear 0 d.dev a n k
  have hepoch : (d.zeroDev a n).devEpoch = d.devEpoch := rfl
  simp only [Data.byte, Data.base, hbyte, hepoch, d.zeroed_zeroDev a n k]
  split
  · next hin => simp [hin]
  · next hout =>
    have hout : (decide (a ≤ k) && decide (k < a + n)) = false := by simpa using hout
    rw [hout, Bool.or_false]
    rfl

/-- A block of 64 bytes inside a zeroed range is sound. -/
theorem Data.mark_zeroDev (d : Data) {a k units : Nat} (hlo : a ≤ 64 * k) (hhi : 64 * k + 64 ≤ a + units * pageBytes) :
    (d.zeroDev a (units * pageBytes)).mark .dev k = 0 := by
  have hzeroed : (d.zeroDev a (units * pageBytes)).zeroed (64 * k) = true := by
    rw [d.zeroed_zeroDev, decide_eq_true hlo, decide_eq_true (show 64 * k < a + units * pageBytes by omega), Bool.and_self, Bool.or_true]
  have hin : a / 64 ≤ k ∧ k < a / 64 + units * pageBytes / 64 := by
    unfold pageBytes at hhi ⊢
    omega
  simp only [Data.mark, Data.markBase, hzeroed, Bool.or_true, if_true, Nat.xor_zero]
  exact tget_tclear_in 0 _ hin

/-- Entries stand where the memory block alone puts them. -/
theorem State.entryAddr_of_mem {s t : State} (h : t.mem = s.mem) (k : Nat) : t.entryAddr k = s.entryAddr k := by
  simp only [State.entryAddr, State.fwBase, State.boardTop, State.cap, h]
/-- The page tables with the board pages of a range pinned. -/
def State.pinnedTable (s : State) (a n : Nat) : Tab (BitVec 64) :=
  (cut pageBytes a n).foldl (fun t x => tset (newEntry (boardPage x.1)) t (s.entryAddr (boardPage x.1)) pinnedEntry) s.mem.pte
theorem State.pinBoard_of_mem {s t : State} (h : t.mem = s.mem) (a n : Nat) :
    t.pinBoard a n = { t with mem := { t.mem with pte := s.pinnedTable a n } } := by
  simp only [State.pinBoard, State.pinnedTable, State.entryAddr_of_mem h, h]

/-- An allocation is entered among those made. -/
def State.allocEntered (s : State) (c : Cmd) (a : Nat) : State :=
  { s with mem := { s.mem with allocs := s.mem.allocs ++ [{ addr := a, units := c.units, tier := c.tier, partition := c.part }] } }

/-- The stages of an allocation of `n` bytes. -/
def State.allocStages (s : State) (c : Cmd) (a n : Nat) : State :=
  let u := if c.zeroes then s.zeroDev a n else s
  (if c.pins then u.pinBoard a n else u).allocEntered c a

theorem State.allocStages_eq (s : State) (c : Cmd) (a n : Nat) : s.allocStages c a n = { s with
    data := if c.zeroes then s.data.zeroDev a n else s.data
    mem := { s.mem with
      pte := if c.pins then s.pinnedTable a n else s.mem.pte
      allocs := s.mem.allocs ++ [{ addr := a, units := c.units, tier := c.tier, partition := c.part }] } } := by
  unfold State.allocStages
  cases c.zeroes <;> cases c.pins
  · rfl
  · exact congrArg (·.allocEntered c a) (State.pinBoard_of_mem (s := s) (t := s) rfl a n)
  · rfl
  · exact congrArg (·.allocEntered c a) (State.pinBoard_of_mem (s := s) (t := s.zeroDev a n) rfl a n)

/-- What an allocation leaves: the range zeroed and its pages pinned where the command asks for it, and its entry among the allocations. -/
theorem State.allocated_eq (s : State) (c : Cmd) (a : Nat) : s.allocated c a = { s with
    data := if c.zeroes then s.data.zeroDev a (c.units * pageBytes) else s.data
    mem := { s.mem with
      pte := if c.pins then s.pinnedTable a (c.units * pageBytes) else s.mem.pte
      allocs := s.mem.allocs ++ [{ addr := a, units := c.units, tier := c.tier, partition := c.part }] } } :=
  s.allocStages_eq c a _

theorem State.devByte_allocated (s : State) (c : Cmd) (a k : Nat) : (s.allocated c a).devByte k =
    if c.zeroes = true ∧ a ≤ k ∧ k < a + c.units * pageBytes then 0 else s.devByte k := by
  rw [State.allocated_eq]
  cases c.zeroes with
  | false => simp only [Bool.false_eq_true, false_and, if_false, State.devByte]
  | true =>
    simp only [true_and, if_true]
    exact s.data.byte_zeroDev a _ k

/-! ## The obligation -/

/-- Settles O16: the addresses that a hint allows are listed from the lowest on, so the first free one is the least. -/
theorem allocReturnsLowestFree : Obligations.AllocReturnsLowestFree := by
  unfold Obligations.AllocReturnsLowestFree
  intro s c h hstack hboard
  refine ⟨exec_alloc_badHint h, fun hgood hnone => exec_alloc_none h hgood (State.foundAt_none hnone), fun a hgood hallowed hfree hleast => ?_⟩
  have hfound := State.foundAt_least hstack hboard hallowed hfree hleast
  refine ⟨exec_alloc_unserved h hgood hfound, fun hserved => ⟨_, exec_alloc_some h hgood hfound hserved, ?_⟩⟩
  refine ⟨?_, ?_, fun k => (s.begun c).devByte_allocated c a k, fun k hlo hhi hzero => ?_, fun hpins => ?_, fun hpins => ?_, ?_, ?_, ?_⟩
  all_goals rw [State.allocated_eq]
  · exact ⟨rfl, _, rfl⟩
  · rfl
  · rw [if_pos hzero]
    exact s.data.mark_zeroDev hlo hhi
  · rw [if_neg (Bool.eq_false_iff.1 hpins)]
    rfl
  · rw [if_pos hpins]
    rfl
  · rfl
  · rfl
  · cases c.zeroes <;> rfl

end Sys2Proof.Machine
end

section
/-! MAP and UNMAP (R309, R311): the word of the page table that each writes, and their refusals. -/
namespace Sys2Proof.Machine

open Sys2Proof

/-! ## The rows -/

section
variable {s : State} {c : Cmd}

/-- A command that begins and is answered with a reason is refused with it. -/
theorem State.answer_begun {r : Nat} (after : State) (h : r ≠ 0) : (s.begun c).answer c r after = s.refused c r := by
  rw [State.answer_deny after h, State.deny_begun]

theorem exec_map (h : s.serves 0x22 c) : exec .map s =
    .next ((s.begun c).answer c (s.mapCode c) ((s.begun c).setPte (pageKey (c.opnd 0 8)) c.mapWord)) :=
  congrArg Host.Outcome.next (State.runCmd_ok _ h.1 h.2)

/-- The word of a page after its UNMAP. -/
def State.unmapWord (s : State) (c : Cmd) : BitVec 64 := BitVec.ofNat 64 (putBit (s.pteRaw (pageKey (c.opnd 0 8))).toNat 63 false)

theorem exec_unmap (h : s.serves 0x23 c) : exec .unmap s =
    .next ((s.begun c).answer c (s.unmapCode c) ((s.begun c).setPte (pageKey (c.opnd 0 8)) (s.unmapWord c))) :=
  congrArg Host.Outcome.next (State.runCmd_ok _ h.1 h.2)

/-- A page whose word has been written is present where bit 63 of the word is set (Table 10-8). -/
theorem State.pagePresent_setPte_ok (s : State) (c : Cmd) (a : Nat) (w : BitVec 64) : ((s.setPte (pageKey a) w).ok c 0).pagePresent a = w.getLsbD 63 :=
  congrArg (·.getLsbD 63) (s.pteRaw_setPte (pageKey a) w)

theorem exec_map_ok (h : s.serves 0x22 c) (hcode : s.mapCode c = 0) :
    exec .map s = .next (((s.begun c).setPte (pageKey (c.opnd 0 8)) c.mapWord).ok c 0) := by
  rw [exec_map h, hcode, State.answer_ok]
theorem exec_unmap_ok (h : s.serves 0x23 c) (hcode : s.unmapCode c = 0) :
    exec .unmap s = .next (((s.begun c).setPte (pageKey (c.opnd 0 8)) (s.unmapWord c)).ok c 0) := by
  rw [exec_unmap h, hcode, State.answer_ok]

end

/-! ## PRESENT -/

theorem Cmd.part_lt (c : Cmd) : c.part < 8 := by
  unfold Cmd.part bits
  omega
theorem Cmd.opnd_lt (c : Cmd) (off n : Nat) : c.opnd off n < 256 ^ n := fld_lt _ _ _

theorem b2n_le (b : Bool) : b2n b ≤ 1 := by cases b <;> decide

/-- PARTITION and FRAME of a word that MAP stores stay below its PINNED bit. -/
theorem Cmd.mapFields_lt (c : Cmd) : (if hostBase ≤ c.opnd 0 8 then c.part * 2 ^ 58 + c.opnd 8 8 / pageBytes else 0) < 2 ^ 62 := by
  have hpart := c.part_lt
  have hframe := c.opnd_lt 8 8
  unfold pageBytes
  split <;> omega

theorem Cmd.mapWord_present (c : Cmd) : c.mapWord.getLsbD 63 = true := by
  have hpin := b2n_le (bit (c.opnd 16 1) 0)
  have hfields := c.mapFields_lt
  rw [Cmd.mapWord, BitVec.getLsbD_ofNat, Nat.testBit_eq_decide_div_mod_eq, Bool.and_eq_true, decide_eq_true_eq, decide_eq_true_eq]
  omega

theorem State.unmapWord_absent (s : State) (c : Cmd) : (s.unmapWord c).getLsbD 63 = false := by
  rw [State.unmapWord, BitVec.getLsbD_ofNat, Nat.testBit_eq_decide_div_mod_eq, Bool.and_eq_false_iff, decide_eq_false_iff_not, decide_eq_false_iff_not]
  simp only [putBit, setBits, b2n, Bool.false_eq_true, if_false, Nat.shiftRight_eq_div_pow]
  omega

/-! ## The obligation -/

/-- Settles O17: each command begins and is answered with its first reason; the word that MAP stores has PRESENT set, and UNMAP clears that bit alone. -/
theorem mapUnmapWritePage : Obligations.MapUnmapWritePage := by
  unfold Obligations.MapUnmapWritePage
  refine ⟨⟨fun s c h => ⟨fun hcode => exec_map_ok h hcode, fun hcode => ?_⟩, fun s c h => ⟨fun hcode => exec_unmap_ok h hcode, fun hcode => ?_⟩⟩,
    fun s t c h hcode hexec => ?_, fun s t c h hcode hexec => ?_⟩
  · rw [exec_map h, State.answer_begun _ hcode]
  · rw [exec_unmap h, State.answer_begun _ hcode]
  · cases (exec_map_ok h hcode).symm.trans hexec
    rw [State.pagePresent_setPte_ok, c.mapWord_present]
  · cases (exec_unmap_ok h hcode).symm.trans hexec
    rw [State.pagePresent_setPte_ok, s.unmapWord_absent]

end Sys2Proof.Machine
end

section
/-! Masks that a sum of powers of two spells, a change of the part state, and entries of the defect map (R322, R462 to R468, R527). -/
namespace Sys2Proof.Machine

open Sys2Proof

/-! ## Masks -/

theorem sumNat_eq_sum (l : List Nat) : sumNat l = l.sum := List.sum_eq_foldl.symm

/-- The sum of the powers of two of a rising list is the mask of its members. -/
theorem testBit_sumTwoPow {l : List Nat} (hl : l.Pairwise (· < ·)) (i : Nat) : (sumNat (l.map (2 ^ ·))).testBit i = true ↔ i ∈ l := by
  rw [sumNat_eq_sum, ← Nat.mem_bitIndices, Nat.bitIndices_sum_map_two_pow hl.sortedLT]

/-- Numbers that a test leaves out add nothing to the sum. -/
theorem sumNat_ite (test : Nat → Prop) [DecidablePred test] (l : List Nat) :
    sumNat (l.map (fun i => if test i then 0 else 2 ^ i)) = sumNat ((l.filter (fun i => ¬ test i)).map (2 ^ ·)) := by
  rw [sumNat_eq_sum, sumNat_eq_sum]
  induction l with
  | nil => rfl
  | cons i l ih =>
    by_cases h : test i
    · simp [h, ih]
    · simp [h, ih]

theorem pairwise_upTo (n : Nat) : (upTo n).Pairwise (· < ·) := List.pairwise_lt_range
theorem mem_upTo {n i : Nat} : i ∈ upTo n ↔ i < n := List.mem_range

theorem testBit_sumIte {l : List Nat} (hl : l.Pairwise (· < ·)) (test : Nat → Prop) [DecidablePred test] (i : Nat) :
    (sumNat (l.map (fun i => if test i then 0 else 2 ^ i))).testBit i = true ↔ i ∈ l ∧ ¬ test i := by
  rw [sumNat_ite, testBit_sumTwoPow (hl.filter _), List.mem_filter, decide_eq_true_eq]

/-! ## The part state -/

/-- A change of the part state moves the advert and posts its event; nothing else of the host interface changes. -/
theorem State.setPState_advert (s : State) (st : PState) (r d : Nat) : ∃ ad asq at' e, s.setPState st r d = { s with
    rst := { s.rst with state := st }, hif := { s.hif with advertDue := ad, advertSeq := asq, advertTime := at' }, es := e } := by
  unfold State.setPState
  dsimp only
  split
  · obtain ⟨e, he⟩ := State.post_frame { s with rst := { s.rst with state := st } } 0x504 none ccAgent r (st.code + s.rst.state.code * 16 + d * 256)
    rw [he]
    exact ⟨_, _, _, _, rfl⟩
  · exact ⟨_, _, _, _, rfl⟩

/-- A loss takes the part to LOST, unless it is OFF. -/
theorem State.lose_frame (s : State) (r : Nat) : ∃ h e, s.lose r = { s with
    rst := { s.rst with state := if s.rst.state = .off then .off else .lost }, hif := h, es := e } := by
  unfold State.lose
  by_cases hoff : s.rst.state = .off
  · refine ⟨s.hif, s.es, ?_⟩
    simp only [hoff, decide_true, Bool.true_or, if_true]
    rw [← hoff]
  by_cases hlost : s.rst.state = .lost
  · refine ⟨s.hif, s.es, ?_⟩
    simp only [hlost, decide_true, Bool.or_true, if_true, reduceCtorEq, if_false]
    rw [← hlost]
  · obtain ⟨h, e, he, _⟩ := s.setPState_frame .lost r 0x3F
    simp only [hoff, hlost, decide_false, Bool.or_self, Bool.false_eq_true, if_false]
    exact ⟨h, e, he⟩

/-! ## Entries of the defect map -/

/-- From `s` to `t` entries have been appended to the defect map, and domains turned Off. -/
def State.Repairs (s t : State) : Prop :=
  ∃ df bd r hw ds e, t = { s with rst := { s.rst with defect := df, bootDefect := bd, reason := r }, pwr := { s.pwr with heldWrites := hw, doms := ds }, es := e }

theorem State.Repairs.refl (s : State) : s.Repairs s := ⟨_, _, _, _, _, _, rfl⟩
theorem State.Repairs.trans {s t u : State} (h : s.Repairs t) (h' : t.Repairs u) : s.Repairs u := by
  obtain ⟨_, _, _, _, _, _, rfl⟩ := h
  obtain ⟨_, _, _, _, _, _, rfl⟩ := h'
  exact ⟨_, _, _, _, _, _, rfl⟩
theorem State.Repairs.foldl {α : Type} {f : State → α → State} (h : ∀ (s : State) (x : α), s.Repairs (f s x)) (l : List α) :
    ∀ s : State, s.Repairs (l.foldl f s) := by
  induction l with
  | nil => exact State.Repairs.refl
  | cons x l ih => exact fun s => (h s x).trans (ih _)

theorem State.repairs_burnDefect (s : State) (w : Nat) : s.Repairs (s.burnDefect w) := by
  unfold State.burnDefect
  dsimp only
  split
  · exact ⟨_, _, _, _, _, _, rfl⟩
  · split
    · obtain ⟨e, he⟩ := State.post_frame
        { s with rst := { s.rst with bootDefect := s.rst.bootDefect ++ [w], reason := 0x406 } } 0x504 none ccAgent 0x406 (s.rst.state.code * 17 + 0x3F * 256)
      exact ⟨_, _, _, _, _, _, he⟩
    · exact ⟨_, _, _, _, _, _, rfl⟩

theorem State.repairs_appendDefect (s : State) (w : Nat) : s.Repairs (s.appendDefect w) := by
  unfold State.appendDefect
  split
  · exact ⟨_, _, _, _, _, _, rfl⟩
  · exact s.repairs_burnDefect w

end Sys2Proof.Machine
end

section
/-! Memory training and the end of link training (R300, R322, R472; Tables 10-9 and 15-6). -/
namespace Sys2Proof.Machine

open Sys2Proof

/-! ## Repairs of lanes (Table 10-9) -/

/-- What firmware does about one faulty lane: an entry of the defect map for its spare, or the channels of its stack among the lost ones. -/
def State.repairLane (s : State) (f : LaneFault) : State := match f.spare with
  | some sp => s.appendDefect (0x30000000 + f.stack % 8 * 2 ^ 25 + f.channel % 32 * 2 ^ 20 + f.lane % 1024 * 2 ^ 10 + sp % 1024)
  | none => { s with mem := { s.mem with lost := s.mem.lost ++ (f.channel % 32 :: (upTo 32).filter (· != f.channel % 32)).map (32 * (f.stack % 8) + ·) } }

/-- From `s` to `t` lanes have been repaired or given up: the defect map, the repairs shown and the list of lost channels may change. -/
def State.LaneRepairs (s t : State) : Prop :=
  ∃ df bd r hw ds e rp l, t = { s with
    rst := { s.rst with defect := df, bootDefect := bd, reason := r }, pwr := { s.pwr with heldWrites := hw, doms := ds }, es := e
    mem := { s.mem with repair := rp, lost := l } }

theorem State.LaneRepairs.refl (s : State) : s.LaneRepairs s := ⟨_, _, _, _, _, _, _, _, rfl⟩
theorem State.LaneRepairs.trans {s t u : State} (h : s.LaneRepairs t) (h' : t.LaneRepairs u) : s.LaneRepairs u := by
  obtain ⟨_, _, _, _, _, _, _, _, rfl⟩ := h
  obtain ⟨_, _, _, _, _, _, _, _, rfl⟩ := h'
  exact ⟨_, _, _, _, _, _, _, _, rfl⟩
theorem State.Repairs.laneRepairs {s t : State} (h : s.Repairs t) : s.LaneRepairs t := by
  obtain ⟨_, _, _, _, _, _, rfl⟩ := h
  exact ⟨_, _, _, _, _, _, _, _, rfl⟩
theorem State.laneRepairs_showRepairs (s : State) : s.LaneRepairs s.showRepairs := ⟨_, _, _, _, _, _, _, _, rfl⟩

theorem State.lost_showRepairs (s : State) : s.showRepairs.mem.lost = s.mem.lost := by simp only [State.showRepairs]

theorem State.laneRepairs_repairLane (s : State) (f : LaneFault) : s.LaneRepairs (s.repairLane f) := by
  unfold State.repairLane
  split
  · exact (s.repairs_appendDefect _).laneRepairs
  · exact ⟨_, _, _, _, _, _, _, _, rfl⟩

theorem State.laneRepairs_foldl (l : List LaneFault) : ∀ s : State, s.LaneRepairs (l.foldl State.repairLane s) := by
  induction l with
  | nil => exact State.LaneRepairs.refl
  | cons f l ih => exact fun s => (s.laneRepairs_repairLane f).trans (ih _)

/-- Where every faulty lane has a spare, no channel is lost. -/
theorem State.repairs_repairLanes {l : List LaneFault} (h : ∀ f ∈ l, f.spare.isSome = true) : ∀ s : State, s.Repairs (l.foldl State.repairLane s) := by
  induction l with
  | nil => exact State.Repairs.refl
  | cons f l ih =>
    intro s
    obtain ⟨sp, hsp⟩ := Option.isSome_iff_exists.1 (h f List.mem_cons_self)
    have hf : s.Repairs (s.repairLane f) := by
      unfold State.repairLane
      rw [hsp]
      exact s.repairs_appendDefect _
    exact hf.trans (ih (fun g hg => h g (List.mem_cons_of_mem _ hg)) _)

theorem State.laneRepair_eq (s : State) (faults : List LaneFault) : s.laneRepair faults =
    if faults.any (fun f => f.spare.isNone) then (faults.foldl State.repairLane s).showRepairs.lose 0x612
    else (faults.foldl State.repairLane s).showRepairs := rfl

theorem all_isSome_iff {faults : List LaneFault} : faults.all (fun f => f.spare.isSome) = true ↔ faults.any (fun f => f.spare.isNone) = false := by
  simp [List.all_eq_true, List.any_eq_false, Option.isSome_iff_ne_none]

theorem State.laneRepair_spared {s : State} {faults : List LaneFault} (h : faults.all (fun f => f.spare.isSome) = true) :
    s.LaneRepairs (s.laneRepair faults) ∧ (s.laneRepair faults).mem.lost = s.mem.lost := by
  have hrepairs := State.repairs_repairLanes (List.all_eq_true.1 h) s
  rw [State.laneRepair_eq, all_isSome_iff.1 h, if_neg Bool.false_ne_true]
  refine ⟨hrepairs.laneRepairs.trans (State.laneRepairs_showRepairs _), ?_⟩
  obtain ⟨_, _, _, _, _, _, he⟩ := hrepairs
  rw [State.lost_showRepairs, he]

theorem State.laneRepair_lost {s : State} {faults : List LaneFault} (h : faults.all (fun f => f.spare.isSome) = false) :
    ∃ t, s.LaneRepairs t ∧ s.laneRepair faults = t.lose 0x612 := by
  have hany : faults.any (fun f => f.spare.isNone) = true :=
    (Bool.eq_false_or_eq_true _).resolve_right (fun hnone => Bool.eq_false_iff.1 h (all_isSome_iff.2 hnone))
  exact ⟨_, (State.laneRepairs_foldl faults s).trans (State.laneRepairs_showRepairs _), by rw [State.laneRepair_eq, hany, if_pos rfl]⟩

/-! ## MEMORY_TRAINING_DONE -/

section
variable {s : State}

theorem exec_memoryTrainingDone_not {found : MemTraining} (h : s.rst.state ≠ .boot ∨ s.rst.fwRunning = false) :
    exec (.memoryTrainingDone found) s = .next s := by
  refine congrArg Host.Outcome.next (if_pos ?_)
  simpa using h

section
variable (hboot : s.rst.state = .boot) (hfw : s.rst.fwRunning = true)
include hboot hfw

theorem State.training : ¬ (decide (s.rst.state ≠ .boot) || !s.rst.fwRunning) = true := by
  rw [hboot, hfw]
  decide

theorem exec_memoryTrainingDone_boardFailed (c : Nat) : exec (.memoryTrainingDone (.boardFailed c)) s =
    .next (({ s with mem := { s.mem with trained := 63, lost := s.mem.lost ++ [256 + c % 64] } } : State).lose 0x610) :=
  congrArg Host.Outcome.next (if_neg (State.training hboot hfw))

theorem exec_memoryTrainingDone_boardUnsupported : exec (.memoryTrainingDone .boardUnsupported) s = .next (s.lose 0x611) :=
  congrArg Host.Outcome.next (if_neg (State.training hboot hfw))

/-- The memory block once its memories have been trained. -/
def State.memTrained (s : State) (density ranks : Nat) : State := { s with mem := { s.mem with trained := 64, density := density, ranks := ranks } }

theorem exec_memoryTrainingDone_good {density ranks : Nat} (faults : List LaneFault) (hdensity : 1 ≤ density ∧ density ≤ 3) (hranks : 1 ≤ ranks ∧ ranks ≤ 2) :
    exec (.memoryTrainingDone (.good density ranks faults)) s = .next (let t := (s.memTrained density ranks).laneRepair faults
      if t.rst.state = .boot then t.setPState .linkTrain 0 else t) := by
  refine congrArg Host.Outcome.next ((if_neg (State.training hboot hfw)).trans (if_neg ?_))
  simp only [Bool.or_eq_true, decide_eq_true_eq]
  omega

theorem memoryTrained_spared {density ranks : Nat} {faults : List LaneFault} (hdensity : 1 ≤ density ∧ density ≤ 3) (hranks : 1 ≤ ranks ∧ ranks ≤ 2)
    (hspares : faults.all (fun f => f.spare.isSome) = true) : ∃ t, exec (.memoryTrainingDone (.good density ranks faults)) s = .next t ∧
      t.mem.trained = 64 ∧ t.mem.density = density ∧ t.mem.ranks = ranks ∧ t.data = s.data ∧ t.parts = s.parts ∧ t.lnk = s.lnk ∧
      t.rst.state = .linkTrain ∧ t.mem.lost = s.mem.lost := by
  obtain ⟨⟨_, _, _, _, _, _, _, _, he⟩, hlost⟩ := State.laneRepair_spared (s := s.memTrained density ranks) hspares
  have hstate : ((s.memTrained density ranks).laneRepair faults).rst.state = .boot := by
    rw [he]
    exact hboot
  refine ⟨_, exec_memoryTrainingDone_good hboot hfw faults hdensity hranks, ?_⟩
  dsimp only
  rw [if_pos hstate]
  obtain ⟨_, _, htrain, _⟩ := State.setPState_frame ((s.memTrained density ranks).laneRepair faults) .linkTrain 0 0x3F
  rw [htrain]
  refine ⟨?_, ?_, ?_, ?_, ?_, ?_, rfl, hlost⟩
  all_goals
    dsimp only
    rw [he]
    rfl

theorem memoryTrained_lost {density ranks : Nat} {faults : List LaneFault} (hdensity : 1 ≤ density ∧ density ≤ 3) (hranks : 1 ≤ ranks ∧ ranks ≤ 2)
    (hspares : faults.all (fun f => f.spare.isSome) = false) : ∃ t, exec (.memoryTrainingDone (.good density ranks faults)) s = .next t ∧
      t.mem.trained = 64 ∧ t.mem.density = density ∧ t.mem.ranks = ranks ∧ t.data = s.data ∧ t.parts = s.parts ∧ t.lnk = s.lnk ∧
      t.rst.state = .lost := by
  obtain ⟨u, ⟨_, _, _, _, _, _, _, _, rfl⟩, he⟩ := State.laneRepair_lost (s := s.memTrained density ranks) hspares
  refine ⟨_, exec_memoryTrainingDone_good hboot hfw faults hdensity hranks, ?_⟩
  rw [he]
  obtain ⟨_, _, hlost⟩ := State.lose_frame _ 0x612
  rw [hlost]
  simp only [State.memTrained, hboot, reduceCtorEq, if_false, and_self]

end

end

/-! ## LINK_TRAIN_END -/

/-- No port trains. -/
def State.portsTrained (s : State) : Bool := (upTo 18).all (fun p => match (s.port p).state with
  | .laneTrain | .width | .ident => false
  | _ => true)

theorem State.portsTrained_iff {s : State} : s.portsTrained = true ↔
    ∀ p, p < 18 → (s.port p).state ≠ .laneTrain ∧ (s.port p).state ≠ .width ∧ (s.port p).state ≠ .ident := by
  rw [State.portsTrained, List.all_eq_true]
  refine forall_congr' (fun p => imp_congr mem_upTo ?_)
  cases (s.port p).state <;> decide

/-- The part checks its topology next; a held GO has been taken up. -/
def State.linksTrained (s : State) : State := ({ s with rst := { s.rst with topoHeld := none } } : State).setPState .topoCheck 0

theorem State.linksTrained_frame (s : State) : ∃ ad asq at' e, s.linksTrained = { s with
    rst := { s.rst with state := .topoCheck, topoHeld := none }
    hif := { s.hif with advertDue := ad, advertSeq := asq, advertTime := at' }, es := e } :=
  State.setPState_advert _ .topoCheck 0 0x3F

theorem exec_linkTrainEnd (s : State) : exec .linkTrainEnd s = .next (if s.rst.state = .linkTrain && s.portsTrained then
    match s.rst.topoHeld with
    | some fetched => (s.linksTrained.topoFetch fetched).2
    | none => s.linksTrained
  else s) := rfl

theorem exec_linkTrainEnd_waits {s : State} (h : s.rst.state ≠ .linkTrain ∨ s.portsTrained = false) : exec .linkTrainEnd s = .next s := by
  rw [exec_linkTrainEnd, if_neg]
  simpa [Classical.or_iff_not_imp_left] using h

section
variable {s : State} (hstate : s.rst.state = .linkTrain) (htrained : s.portsTrained = true)
include hstate htrained

theorem exec_linkTrainEnd_free (hheld : s.rst.topoHeld = none) : exec .linkTrainEnd s = .next s.linksTrained := by
  rw [exec_linkTrainEnd, hstate, htrained, hheld]
  rfl

theorem exec_linkTrainEnd_held {fetched : Bool} (hheld : s.rst.topoHeld = some fetched) :
    exec .linkTrainEnd s = .next (s.linksTrained.topoFetch fetched).2 := by
  rw [exec_linkTrainEnd, hstate, htrained, hheld]
  rfl

end

/-- A record that cannot be fetched is refused. -/
theorem State.topoFetch_refused {s : State} {fetched : Bool} (h : s.rst.topoAddr.toNat % 64 ≠ 0 ∨ fetched = false ∨ s.hostUp = false) :
    s.topoFetch fetched = s.rstRefuse 0x308 := by
  refine if_pos ?_
  simpa [or_assoc] using h

theorem State.topoFetch_fetched {s : State} {fetched : Bool} (haddr : s.rst.topoAddr.toNat % 64 = 0) (hfetched : fetched = true) (hup : s.hostUp = true) :
    s.topoFetch fetched = s.topoCheck (s.hostRead s.rst.topoAddr.toNat topoBytes) := by
  refine if_neg ?_
  simp [haddr, hfetched, hup]

/-! ## Bring-up to TOPO_CHECK -/

theorem memoryTrained {s : State} (hboot : s.rst.state = .boot) (hfw : s.rst.fwRunning = true) :
    (∀ (density ranks : Nat) (faults : List LaneFault), 1 ≤ density → density ≤ 3 → 1 ≤ ranks → ranks ≤ 2 →
      ∃ t, exec (.memoryTrainingDone (.good density ranks faults)) s = .next t ∧
        t.mem.trained = 64 ∧ t.mem.density = density ∧ t.mem.ranks = ranks ∧ t.data = s.data ∧ t.parts = s.parts ∧ t.lnk = s.lnk ∧
        (if faults.all (fun f => f.spare.isSome) then t.rst.state = .linkTrain ∧ t.mem.lost = s.mem.lost else t.rst.state = .lost)) ∧
    (∀ c : Nat, c < 64 → ∃ t, exec (.memoryTrainingDone (.boardFailed c)) s = .next t ∧ t.rst.state = .lost ∧
      t.mem.lost = s.mem.lost ++ [256 + c] ∧ t.data = s.data) ∧
    (∃ t, exec (.memoryTrainingDone .boardUnsupported) s = .next t ∧ t.rst.state = .lost ∧ t.mem = s.mem ∧ t.data = s.data) := by
  refine ⟨fun density ranks faults hlo hhi hlo' hhi' => ?_, fun c hc => ⟨_, exec_memoryTrainingDone_boardFailed hboot hfw c, ?_⟩,
    ⟨_, exec_memoryTrainingDone_boardUnsupported hboot hfw, ?_⟩⟩
  · by_cases hspares : faults.all (fun f => f.spare.isSome) = true
    · simp only [hspares, if_true]
      exact memoryTrained_spared hboot hfw ⟨hlo, hhi⟩ ⟨hlo', hhi'⟩ hspares
    · simp only [hspares, Bool.false_eq_true, if_false]
      exact memoryTrained_lost hboot hfw ⟨hlo, hhi⟩ ⟨hlo', hhi'⟩ (Bool.eq_false_iff.2 hspares)
  · obtain ⟨_, _, he⟩ := State.lose_frame ({ s with mem := { s.mem with trained := 63, lost := s.mem.lost ++ [256 + c % 64] } }) 0x610
    rw [he]
    simp [hboot, Nat.mod_eq_of_lt hc]
  · obtain ⟨_, _, he⟩ := State.lose_frame s 0x611
    rw [he]
    simp [hboot]

theorem linkTrainingEnds {s : State} (fetched : Bool) (hstate : s.rst.state = .linkTrain) :
    ((∀ p, p < 18 → (s.port p).state ≠ .laneTrain ∧ (s.port p).state ≠ .width ∧ (s.port p).state ≠ .ident) → s.rst.topoHeld = none →
      ∃ t, exec .linkTrainEnd s = .next t ∧ t.rst = { s.rst with state := .topoCheck } ∧ t.lnk = s.lnk ∧ t.data = s.data ∧ t.parts = s.parts) ∧
    ((∀ p, p < 18 → (s.port p).state ≠ .laneTrain ∧ (s.port p).state ≠ .width ∧ (s.port p).state ≠ .ident) → s.rst.topoHeld = some fetched →
      fetched = false ∨ s.hostUp = false → ∃ t, exec .linkTrainEnd s = .next t ∧
        t.rst = { s.rst with state := .topoCheck, topoHeld := none, reason := 0x308 } ∧ t.lnk = s.lnk ∧ t.data = s.data ∧ t.parts = s.parts) ∧
    (∀ p, p < 18 → (s.port p).state = .laneTrain ∨ (s.port p).state = .width ∨ (s.port p).state = .ident → exec .linkTrainEnd s = .next s) := by
  obtain ⟨_, _, _, _, hframe⟩ := s.linksTrained_frame
  refine ⟨fun htrained hheld => ⟨_, exec_linkTrainEnd_free hstate (State.portsTrained_iff.2 htrained) hheld, ?_⟩,
    fun htrained hheld hno => ⟨_, exec_linkTrainEnd_held hstate (State.portsTrained_iff.2 htrained) hheld, ?_⟩, fun p hp htrains => ?_⟩
  · rw [hframe, ← hheld]
    exact ⟨rfl, rfl, rfl, rfl⟩
  · have hup : s.linksTrained.hostUp = s.hostUp := by rw [hframe]; rfl
    rw [State.topoFetch_refused (.inr (hup.symm ▸ hno)), hframe]
    exact ⟨rfl, rfl, rfl, rfl⟩
  · refine exec_linkTrainEnd_waits (.inr (Bool.eq_false_iff.2 (fun htrained => ?_)))
    obtain ⟨hlane, hwidth, hident⟩ := State.portsTrained_iff.1 htrained p hp
    exact htrains.elim hlane (Or.elim · hwidth hident)

end Sys2Proof.Machine
end

section
/-! Topology agreement (R473 to R475; Tables 15-7, 15-8 and 15-10): GO held, refused or served, and what agreement sets. -/
namespace Sys2Proof.Machine

open Sys2Proof

/-! ## What the ports and the time of a part take from its routes -/

/-- From `s` to `t` routes, parent, ports and time may have changed; the part's number, its torus and the time root stay. -/
def State.Relinks (s t : State) : Prop :=
  ∃ l e k n, t = { s with lnk := l, es := e, steer := k, freeCtr := n } ∧
    l.self = s.lnk.self ∧ l.lock = s.lnk.lock ∧ l.torus = s.lnk.torus ∧ l.root = s.lnk.root

theorem State.Relinks.refl (s : State) : s.Relinks s := ⟨_, _, _, _, rfl, rfl, rfl, rfl, rfl⟩
theorem State.Relinks.trans {s t u : State} (h : s.Relinks t) (h' : t.Relinks u) : s.Relinks u := by
  obtain ⟨_, _, _, _, rfl, hself, hlock, htorus, hroot⟩ := h
  obtain ⟨_, _, _, _, rfl, hself', hlock', htorus', hroot'⟩ := h'
  exact ⟨_, _, _, _, rfl, hself'.trans hself, hlock'.trans hlock, htorus'.trans htorus, hroot'.trans hroot⟩
theorem State.Relinks.foldl {f : State → Nat → State} (h : ∀ (s : State) p, s.Relinks (f s p)) (l : List Nat) : ∀ s : State, s.Relinks (l.foldl f s) := by
  induction l with
  | nil => exact State.Relinks.refl
  | cons p l ih => exact fun s => (h s p).trans (ih _)

theorem State.relinks_modPort (s : State) (port : Nat) (f : Port → Port) : s.Relinks (s.modPort port f) := ⟨_, _, _, _, rfl, rfl, rfl, rfl, rfl⟩
theorem State.relinks_post (s : State) (ty : Nat) (p : Option Nat) (src aux det : Nat) : s.Relinks (s.post ty p src aux det) := by
  obtain ⟨_, he⟩ := s.post_frame ty p src aux det
  rw [he]
  exact ⟨_, _, _, _, rfl, rfl, rfl, rfl, rfl⟩

theorem State.relinks_parentAgain (s : State) : s.Relinks s.parentAgain := by
  unfold State.parentAgain
  split
  · exact State.Relinks.refl s
  · dsimp only
    split <;> exact ⟨_, _, _, _, rfl, rfl, rfl, rfl, rfl⟩

theorem State.relinks_deriveRoutes (s : State) : s.Relinks s.deriveRoutes := by
  unfold State.deriveRoutes
  split
  · exact State.Relinks.refl s
  · refine State.Relinks.trans ?_ (State.relinks_parentAgain _)
    exact ⟨_, _, _, _, rfl, rfl, rfl, rfl, rfl⟩

theorem State.relinks_parentLost (s : State) (port : Nat) : s.Relinks (s.parentLost port) := by
  unfold State.parentLost
  split
  · refine State.Relinks.trans ?_ (State.relinks_post _ _ _ _ _ _)
    exact ⟨_, _, _, _, rfl, rfl, rfl, rfl, rfl⟩
  · exact State.Relinks.refl s

theorem State.relinks_portDown (s : State) (port cause : Nat) : s.Relinks (s.portDown port cause false) := by
  unfold State.portDown
  simp only [Bool.false_eq_true, if_false]
  split
  · exact State.Relinks.trans (s.relinks_modPort port _) (State.relinks_parentLost _ _)
  · exact s.relinks_modPort port _

theorem State.relinks_portOff (s : State) (port : Nat) : s.Relinks (s.portOff port) := by
  unfold State.portOff
  split
  · exact State.Relinks.refl s
  · dsimp only
    split
    · exact s.relinks_modPort port _
    · exact (s.relinks_modPort port _).trans (State.relinks_portDown _ _ _)

theorem State.relinks_stepTime (s : State) : s.Relinks s.stepTime := ⟨_, _, _, _, rfl, rfl, rfl, rfl, rfl⟩

/-! ## What agreement writes (R475) -/

/-- The words that firmware writes on agreement to LNK_SELF, LNK_TORUS and the time root. -/
def selfWord (m : List Byte) : W32 := BitVec.ofNat 32 (2 ^ 31 + fld m 6 2)
def torusWord (m : List Byte) : W32 := BitVec.ofNat 32 (byteAt m 8 + byteAt m 9 * 2 ^ 8 + byteAt m 0xA * 2 ^ 16)
def rootWord (m : List Byte) : W32 := BitVec.ofNat 32 (fld m 0xC 2)

theorem selfWord_self (m : List Byte) : ((selfWord m).setWidth 16).toNat = fld m 6 2 := by
  have hself := fld_lt m 6 2
  simp only [selfWord, BitVec.toNat_setWidth, BitVec.toNat_ofNat]
  omega
theorem selfWord_lock (m : List Byte) : (selfWord m).getLsbD 31 = true := by
  have hself := fld_lt m 6 2
  rw [selfWord, BitVec.getLsbD_ofNat, Nat.testBit_eq_decide_div_mod_eq, Bool.and_eq_true, decide_eq_true_eq, decide_eq_true_eq]
  omega
theorem rootWord_root (m : List Byte) : ((rootWord m).setWidth 16).toNat = fld m 0xC 2 := by
  have hroot := fld_lt m 0xC 2
  simp only [rootWord, BitVec.toNat_setWidth, BitVec.toNat_ofNat]
  omega

/-- A record that passes its own checks gives dimensions within 32, 32 and 48. -/
theorem torus_of_topoRecordCode {m : List Byte} (h : topoRecordCode m = 0) : byteAt m 8 ≤ 32 ∧ byteAt m 9 ≤ 32 ∧ byteAt m 0xA ≤ 48 := by
  unfold topoRecordCode at h
  split at h
  · cases h
  · split at h
    · cases h
    · next hdims =>
      simp only [Bool.or_eq_true, decide_eq_true_eq, not_or] at hdims
      omega

/-- A mask acts on the parts of a number one by one. -/
theorem and_two_pow_mul_add {k a b c d : Nat} (hb : b < 2 ^ k) (hd : d < 2 ^ k) :
    (2 ^ k * a + b) &&& (2 ^ k * c + d) = 2 ^ k * (a &&& c) + (b &&& d) := by
  refine Nat.eq_of_testBit_eq (fun i => ?_)
  rw [Nat.testBit_and, Nat.testBit_two_pow_mul_add _ hb, Nat.testBit_two_pow_mul_add _ hd, Nat.testBit_two_pow_mul_add _ (Nat.and_lt_two_pow _ hd)]
  split <;> rw [Nat.testBit_and]
theorem and_63 {x : Nat} (h : x < 64) : x &&& 63 = x := Nat.and_two_pow_sub_one_of_lt_two_pow (n := 6) h

section
variable {m : List Byte} (h : topoRecordCode m = 0)
include h

theorem torusWord_toNat : (torusWord m).toNat = byteAt m 8 + byteAt m 9 * 256 + byteAt m 0xA * 65536 := by
  obtain ⟨hx, hy, hz⟩ := torus_of_topoRecordCode h
  rw [torusWord, BitVec.toNat_ofNat]
  omega

theorem torusWord_masked : torusWord m &&& 0x003F3F3F = torusWord m := by
  obtain ⟨hx, hy, hz⟩ := torus_of_topoRecordCode h
  have hbytes : byteAt m 8 + byteAt m 9 * 256 + byteAt m 0xA * 65536 = 2 ^ 8 * (2 ^ 8 * byteAt m 0xA + byteAt m 9) + byteAt m 8 := by ring
  apply BitVec.eq_of_toNat_eq
  rw [BitVec.toNat_and, torusWord_toNat h, hbytes, show (0x003F3F3F : W32).toNat = 2 ^ 8 * (2 ^ 8 * 63 + 63) + 63 from rfl,
    and_two_pow_mul_add (by omega) (by decide), and_two_pow_mul_add (by omega) (by decide), and_63 (by omega), and_63 (by omega), and_63 (by omega)]

theorem torusWord_fields : (bits (torusWord m).toNat 5 0 ≤ 32 && bits (torusWord m).toNat 13 8 ≤ 32 && bits (torusWord m).toNat 21 16 ≤ 48) = true := by
  obtain ⟨hx, hy, hz⟩ := torus_of_topoRecordCode h
  rw [torusWord_toNat h]
  simp only [bits, Nat.shiftRight_eq_div_pow, Bool.and_eq_true, decide_eq_true_eq]
  omega

end

/-- From `s` to `t` the links' registers, and what follows them, may have changed. -/
def State.Reroutes (s t : State) : Prop := ∃ l e k n, t = { s with lnk := l, es := e, steer := k, freeCtr := n }

theorem State.Reroutes.trans {s t u : State} (h : s.Reroutes t) (h' : t.Reroutes u) : s.Reroutes u := by
  obtain ⟨_, _, _, _, rfl⟩ := h
  obtain ⟨_, _, _, _, rfl⟩ := h'
  exact ⟨_, _, _, _, rfl⟩

namespace State.Relinks
variable {s t : State} (h : s.Relinks t)
include h

theorem reroutes : s.Reroutes t := by
  obtain ⟨_, _, _, _, he, _⟩ := h
  exact ⟨_, _, _, _, he⟩
theorem self : t.lnk.self = s.lnk.self ∧ t.lnk.lock = s.lnk.lock := by
  obtain ⟨_, _, _, _, rfl, hself, hlock, _⟩ := h
  exact ⟨hself, hlock⟩
theorem torus : t.lnk.torus = s.lnk.torus := by
  obtain ⟨_, _, _, _, rfl, _, _, htorus, _⟩ := h
  exact htorus
theorem root : t.lnk.root = s.lnk.root := by
  obtain ⟨_, _, _, _, rfl, _, _, _, hroot⟩ := h
  exact hroot

end State.Relinks

/-- From a state whose link registers alone have been written. -/
theorem State.Relinks.of_write {s t : State} {l : LnkRegs} (h : ({ s with lnk := l } : State).Relinks t) : s.Reroutes t := by
  obtain ⟨_, _, _, _, rfl, _⟩ := h
  exact ⟨_, _, _, _, rfl⟩

theorem State.writeLnkSelf_spec (s : State) (v : W32) : s.Reroutes (s.writeLnkSelf v) ∧
    (s.lnk.lock = false → (s.writeLnkSelf v).lnk.self = v.setWidth 16 ∧ (s.writeLnkSelf v).lnk.lock = v.getLsbD 31) := by
  unfold State.writeLnkSelf
  split
  · next hlock => exact ⟨(State.Relinks.refl s).reroutes, fun hopen => absurd (hlock.symm.trans hopen) (by decide)⟩
  · have hroutes := State.relinks_deriveRoutes { s with lnk := { s.lnk with self := v.setWidth 16, lock := v.getLsbD 31 } }
    exact ⟨hroutes.of_write, fun _ => hroutes.self⟩

theorem State.writeLnkTorus_spec (s : State) {m : List Byte} (h : topoRecordCode m = 0) : let t := s.writeLnkTorus (torusWord m)
    s.Reroutes t ∧ t.lnk.torus = torusWord m ∧ t.lnk.self = s.lnk.self ∧ t.lnk.lock = s.lnk.lock := by
  unfold State.writeLnkTorus
  dsimp only
  rw [if_pos (torusWord_fields h)]
  have hroutes := State.relinks_deriveRoutes { s with lnk := { s.lnk with torus := torusWord m &&& 0x003F3F3F } }
  exact ⟨hroutes.of_write, hroutes.torus.trans (torusWord_masked h), hroutes.self⟩

theorem State.writeTimeRoot_spec (s : State) (v : W32) : let t := s.writeTimeRoot v
    s.Reroutes t ∧ t.lnk.root = v.setWidth 16 ∧ t.lnk.torus = s.lnk.torus ∧ t.lnk.self = s.lnk.self ∧ t.lnk.lock = s.lnk.lock := by
  have hroutes := State.relinks_parentAgain { s with lnk := { s.lnk with root := v.setWidth 16 } }
  exact ⟨hroutes.of_write, hroutes.root, hroutes.torus, hroutes.self⟩

/-! ## Agreement -/

/-- The registers that agreement writes from a record, and its ports that the record leaves out taken out of service. -/
def State.topoWritten (s : State) (m : List Byte) : State :=
  (upTo 18).foldl (fun s p => if bit (byteAt (topoPort m p) 0) 0 then s else s.portOff p)
    (((s.writeLnkSelf (selfWord m)).writeLnkTorus (torusWord m)).writeTimeRoot (rootWord m))

/-- A part that has once been READY takes its parent again, and the time from it. -/
def State.timeTaken (s : State) : State :=
  let t := ({ s with rst := { s.rst with everReady := true } } : State).parentAgain
  if t.lnk.following then t.stepTime else t

theorem State.topoAgree_eq (s : State) (m : List Byte) : s.topoAgree m = (s.topoWritten m).timeTaken.setPState .ready 0 := rfl

theorem State.topoWritten_spec (s : State) {m : List Byte} (h : topoRecordCode m = 0) : let t := s.topoWritten m
    s.Reroutes t ∧ t.lnk.root.toNat = fld m 0xC 2 ∧ t.lnk.torus.toNat = byteAt m 8 + byteAt m 9 * 256 + byteAt m 0xA * 65536 ∧
      (s.lnk.lock = false → t.lnk.self.toNat = fld m 6 2 ∧ t.lnk.lock = true) := by
  obtain ⟨hroutes, hself⟩ := s.writeLnkSelf_spec (selfWord m)
  obtain ⟨hroutes', htorus, hself', hlock'⟩ := (s.writeLnkSelf (selfWord m)).writeLnkTorus_spec h
  obtain ⟨hroutes'', hroot, htorus'', hself'', hlock''⟩ := ((s.writeLnkSelf (selfWord m)).writeLnkTorus (torusWord m)).writeTimeRoot_spec (rootWord m)
  have hports : State.Relinks _ (s.topoWritten m) := State.Relinks.foldl (fun t p => by
    split
    · exact State.Relinks.refl t
    · exact t.relinks_portOff p) (upTo 18) (((s.writeLnkSelf (selfWord m)).writeLnkTorus (torusWord m)).writeTimeRoot (rootWord m))
  refine ⟨((hroutes.trans hroutes').trans hroutes'').trans hports.reroutes, ?_, ?_, fun hopen => ⟨?_, ?_⟩⟩
  · rw [hports.root, hroot, rootWord_root]
  · rw [hports.torus, htorus'', htorus, torusWord_toNat h]
  · rw [hports.self.1, hself'', hself', (hself hopen).1, selfWord_self]
  · rw [hports.self.2, hlock'', hlock', (hself hopen).2, selfWord_lock]

theorem State.relinks_timeTaken (s : State) : ({ s with rst := { s.rst with everReady := true } } : State).Relinks s.timeTaken := by
  unfold State.timeTaken
  have hparent := State.relinks_parentAgain { s with rst := { s.rst with everReady := true } }
  dsimp only
  split
  · exact hparent.trans (State.relinks_stepTime _)
  · exact hparent

/-- A part that agrees on a record becomes READY with its number, torus and time root (R475). -/
theorem State.topoAgree_spec (s : State) {m : List Byte} (h : topoRecordCode m = 0) : let t := s.topoAgree m
    t.data = s.data ∧ t.rst = { s.rst with state := .ready, everReady := true } ∧
      t.lnk.root.toNat = fld m 0xC 2 ∧ t.lnk.torus.toNat = byteAt m 8 + byteAt m 9 * 256 + byteAt m 0xA * 65536 ∧
      (s.lnk.lock = false → t.lnk.self.toNat = fld m 6 2 ∧ t.lnk.lock = true) := by
  obtain ⟨⟨_, _, _, _, hwritten⟩, hroot, htorus, hself⟩ := s.topoWritten_spec h
  have htaken := (s.topoWritten m).relinks_timeTaken
  obtain ⟨_, _, hready, _⟩ := (s.topoWritten m).timeTaken.setPState_frame .ready 0 0x3F
  have hlnk : (s.topoAgree m).lnk = (s.topoWritten m).timeTaken.lnk := by rw [State.topoAgree_eq, hready]
  refine ⟨?_, ?_, ?_, ?_, ?_⟩
  · obtain ⟨_, _, _, _, he, _⟩ := htaken
    rw [State.topoAgree_eq, hready, he, hwritten]
  · obtain ⟨_, _, _, _, he, _⟩ := htaken
    rw [State.topoAgree_eq, hready, he, hwritten]
  · rw [hlnk, htaken.root]
    exact hroot
  · rw [hlnk, htaken.torus]
    exact htorus
  · rw [hlnk, htaken.self.1, htaken.self.2]
    exact hself

/-! ## The check of a record -/

/-- Each port with the reason with which it fails, 0 if it agrees or the record itself fails. -/
def State.topoCodes (s : State) (m : List Byte) : List (Nat × Nat) :=
  (upTo 18).map (fun p => (p, if topoRecordCode m = 0 then s.topoPortCode m p else 0))
/-- The first reason of a record: its own, else that of the first port that fails. -/
def State.topoFirst (s : State) (m : List Byte) : Nat :=
  if topoRecordCode m ≠ 0 then topoRecordCode m else (((s.topoCodes m).find? (fun c => c.2 != 0)).map (·.2)).getD 0
/-- The mask of the ports that fail. -/
def State.topoMask (s : State) (m : List Byte) : BitVec 18 :=
  BitVec.ofNat 18 (sumNat ((s.topoCodes m).map (fun c => if c.2 = 0 then 0 else 2 ^ c.1)))
def State.topoShown (s : State) (m : List Byte) : State := { s with rst := { s.rst with topoFail := s.topoMask m } }

theorem State.topoCheck_eq (s : State) (m : List Byte) : s.topoCheck m =
    if s.topoFirst m = 0 then (0, (s.topoShown m).topoAgree m) else (s.topoShown m).rstRefuse (s.topoFirst m) := rfl

section
variable {s : State} {m : List Byte}

theorem State.topoMask_bad (h : topoRecordCode m ≠ 0) : s.topoMask m = 0 := by
  have hzero : (s.topoCodes m).map (fun c => if c.2 = 0 then 0 else 2 ^ c.1) = (upTo 18).map (fun _ => 0) := by
    simp only [State.topoCodes, List.map_map, Function.comp_def, if_neg h, if_true]
  rw [State.topoMask, hzero]
  rfl

section
variable (h : topoRecordCode m = 0)
include h

theorem State.topoMask_getLsbD {p : Nat} (hp : p < 18) : (s.topoMask m).getLsbD p = decide (s.topoPortCode m p ≠ 0) := by
  have hsum : (s.topoCodes m).map (fun c => if c.2 = 0 then 0 else 2 ^ c.1) = (upTo 18).map (fun p => if s.topoPortCode m p = 0 then 0 else 2 ^ p) := by
    simp only [State.topoCodes, List.map_map, Function.comp_def, if_pos h]
  rw [State.topoMask, hsum, BitVec.getLsbD_ofNat, decide_eq_true hp, Bool.true_and, Bool.eq_iff_iff, testBit_sumIte (pairwise_upTo 18), mem_upTo,
    decide_eq_true_eq, and_iff_right hp]

theorem State.topoFirst_agrees (hall : ∀ p, p < 18 → s.topoPortCode m p = 0) : s.topoFirst m = 0 := by
  have hnone : (s.topoCodes m).find? (fun c => c.2 != 0) = none := by
    rw [List.find?_eq_none]
    intro c hc
    obtain ⟨p, hp, rfl⟩ := List.mem_map.1 hc
    simp [hall p (mem_upTo.1 hp)]
  rw [State.topoFirst, if_neg (not_not_intro h), hnone]
  rfl

theorem State.topoFirst_port {p : Nat} (hp : p < 18) (hcode : s.topoPortCode m p ≠ 0) (hfirst : ∀ r, r < p → s.topoPortCode m r = 0) :
    s.topoFirst m = s.topoPortCode m p := by
  have hfound : (upTo 18).find? (fun r => s.topoPortCode m r != 0) = some p :=
    find?_of_least ((pairwise_upTo 18).imp Nat.le_of_lt) (mem_upTo.2 hp) (bne_iff_ne.2 hcode) (fun r _ hr => by simp [hfirst r hr])
  rw [State.topoFirst, if_neg (not_not_intro h), State.topoCodes, List.find?_map]
  simp only [Function.comp_def, if_pos h, hfound, Option.map_some, Option.getD_some]

end

/-! ## TOPO_GO -/

theorem exec_topoGo (fetched : Bool) (stores : List HostStore) (h : (s.dom 3).st ≠ .off) :
    exec (.topoGo fetched stores) s = .next ((s.hostStores stores).topoGo fetched).2 :=
  State.direct_on (s := s.hostStores stores) (fun s => (s.topoGo fetched).2) h

theorem State.topoGo_held (fetched : Bool) (h : s.rst.state = .linkTrain) :
    s.topoGo fetched = (0, { s with rst := { s.rst with topoHeld := some fetched } }) := by rw [State.topoGo, h]
theorem State.topoGo_served (fetched : Bool) (h : s.rst.state = .topoCheck) : s.topoGo fetched = s.topoFetch fetched := by rw [State.topoGo, h]
theorem State.topoGo_refused (fetched : Bool) (htrain : s.rst.state ≠ .linkTrain) (hcheck : s.rst.state ≠ .topoCheck) :
    s.topoGo fetched = s.rstRefuse 0x405 := by
  unfold State.topoGo
  split
  · next h => exact absurd h htrain
  · next h => exact absurd h hcheck
  · rfl

end

/-- The outcome of a check of a record in TOPO_CHECK, from the state `h` with the host's stores made. -/
theorem State.topoCheck_spec {h : State} (m : List Byte) (hcheck : h.rst.state = .topoCheck) : let t := (h.topoCheck m).2
    t.data = h.data ∧
    (topoRecordCode m ≠ 0 → t = { h with rst := { h.rst with topoFail := 0, reason := BitVec.ofNat 16 (topoRecordCode m) } }) ∧
    (topoRecordCode m = 0 →
      (∀ p, p < 18 → t.rst.topoFail.getLsbD p = decide (h.topoPortCode m p ≠ 0)) ∧
      (∀ p, p < 18 → h.topoPortCode m p ≠ 0 → (∀ r, r < p → h.topoPortCode m r = 0) →
        t.rst.state = .topoCheck ∧ t.rst.reason = BitVec.ofNat 16 (h.topoPortCode m p) ∧ ({ t with rst := h.rst } : State) = h) ∧
      ((∀ p, p < 18 → h.topoPortCode m p = 0) →
        t.rst.state = .ready ∧ t.rst.everReady = true ∧ t.rst.reason = h.rst.reason ∧ t.lnk.root.toNat = fld m 0xC 2 ∧
        t.lnk.torus.toNat = byteAt m 8 + byteAt m 9 * 256 + byteAt m 0xA * 65536 ∧
        (h.lnk.lock = false → t.lnk.self.toNat = fld m 6 2 ∧ t.lnk.lock = true))) := by
  rw [State.topoCheck_eq]
  refine ⟨?_, fun hbad => ?_, fun hgood => ⟨fun p hp => ?_, fun p hp hcode hfirst => ?_, fun hall => ?_⟩⟩
  · split
    · next hzero =>
      have hgood : topoRecordCode m = 0 := by
        by_contra hbad
        exact hbad (by rwa [State.topoFirst, if_pos hbad] at hzero)
      exact ((h.topoShown m).topoAgree_spec hgood).1
    · rfl
  · have hfirst : h.topoFirst m = topoRecordCode m := if_pos hbad
    rw [hfirst, if_neg hbad, State.topoShown, State.topoMask_bad hbad]
    rfl
  · rw [← State.topoMask_getLsbD hgood hp]
    split
    · rw [((h.topoShown m).topoAgree_spec hgood).2.1]
      rfl
    · rfl
  · rw [State.topoFirst_port hgood hp hcode hfirst, if_neg hcode]
    exact ⟨hcheck, rfl, rfl⟩
  · rw [State.topoFirst_agrees hgood hall, if_pos rfl]
    obtain ⟨_, hrst, hlnk⟩ := (h.topoShown m).topoAgree_spec hgood
    dsimp only
    rw [hrst]
    exact ⟨rfl, rfl, rfl, hlnk⟩

/-! ## The obligation -/

/-- Settles O57: training leaves what repairs and losses leave; agreement writes the three registers once, and every later step keeps them. -/
theorem bringUpAndTopology : Obligations.BringUpAndTopology := by
  unfold Obligations.BringUpAndTopology
  refine ⟨⟨fun s hboot hfw => memoryTrained hboot hfw, fun s found h => exec_memoryTrainingDone_not h, fun s fetched hstate => linkTrainingEnds fetched hstate,
    fun s h => exec_linkTrainEnd_waits (.inl h)⟩, fun s fetched stores hdom => ?_⟩
  have hexec := exec_topoGo fetched stores hdom
  refine ⟨fun htrain => ?_, fun htrain hcheck => ?_, fun hcheck => ⟨fun hno => ?_, fun haddr hfetched hup => ?_⟩⟩
  · exact hexec.trans (congrArg (fun x => Host.Outcome.next x.2) (State.topoGo_held (s := s.hostStores stores) fetched htrain))
  · exact hexec.trans (congrArg (fun x => Host.Outcome.next x.2) (State.topoGo_refused (s := s.hostStores stores) fetched htrain hcheck))
  · rw [State.topoGo_served (s := s.hostStores stores) fetched hcheck] at hexec
    exact hexec.trans (congrArg (fun x => Host.Outcome.next x.2) (State.topoFetch_refused (s := s.hostStores stores) hno))
  · rw [State.topoGo_served (s := s.hostStores stores) fetched hcheck,
      State.topoFetch_fetched (s := s.hostStores stores) haddr hfetched hup] at hexec
    exact ⟨_, hexec, State.topoCheck_spec _ hcheck⟩

end Sys2Proof.Machine
end

section
/-! Renewal of a partition's fields (R456, R459, R464, R476, R477; Table 15-9). -/
namespace Sys2Proof.Machine

open Sys2Proof

/-! ## Engines that go with a field -/

/-- A partition without the actions and NaNs of the engines that go. -/
def Part.dropEngines (gone : Nat → Bool) (x : Part) : Part :=
  ({ x with flights := x.flights.filter (fun f => !gone f.agent), nans := x.nans.filter (fun n => !gone n.core) } : Part).settleFill x.cycle

/-- An action or NaN of a partition belongs to an engine that goes. -/
def Part.busyWith (gone : Nat → Bool) (x : Part) : Bool := x.flights.any (fun f => gone f.agent) || x.nans.any (fun n => gone n.core)

theorem Part.busyWith_false {gone : Nat → Bool} {x : Part} : x.busyWith gone = false ↔
    (∀ f ∈ x.flights, gone f.agent = false) ∧ ∀ n ∈ x.nans, gone n.core = false := by
  simp [Part.busyWith]

theorem State.dropEngines_eq (s : State) (gone : Nat → Bool) : s.dropEngines gone =
    if partNums.any (fun p => (s.part p).busyWith gone) then s.modParts (Part.dropEngines gone) partNums else s := rfl

/-- No engine of a field has an action in flight or a NaN to come. -/
def State.idleOf (s : State) (gone : Nat → Bool) : Prop := ∀ q, q < 8 → (s.part q).busyWith gone = false

theorem mem_partNums {q : Nat} : q ∈ partNums ↔ q < 8 := by
  simp only [partNums, List.mem_cons, List.not_mem_nil, or_false]
  omega

theorem State.dropEngines_idle {s : State} {gone : Nat → Bool} (h : s.idleOf gone) : s.dropEngines gone = s := by
  have hnone : partNums.any (fun p => (s.part p).busyWith gone) = false :=
    List.any_eq_false.2 (fun q hq => Bool.eq_false_iff.1 (h q (mem_partNums.1 hq)))
  rw [State.dropEngines_eq, hnone]
  rfl

/-- From `x` to `y` actions and NaNs have left a partition whose status and formes stay. -/
def Part.Sheds (x y : Part) : Prop := y.status = x.status ∧ y.resident = x.resident ∧ y.flights ⊆ x.flights ∧ y.nans ⊆ x.nans

theorem Part.Sheds.refl (x : Part) : x.Sheds x := ⟨rfl, rfl, List.Subset.refl _, List.Subset.refl _⟩
theorem Part.Sheds.trans {x y z : Part} (h : x.Sheds y) (h' : y.Sheds z) : x.Sheds z := by
  obtain ⟨hstatus, hresident, hflights, hnans⟩ := h
  obtain ⟨hstatus', hresident', hflights', hnans'⟩ := h'
  exact ⟨hstatus'.trans hstatus, hresident'.trans hresident, List.Subset.trans hflights' hflights, List.Subset.trans hnans' hnans⟩
theorem Part.Sheds.busyWith {x y : Part} (h : x.Sheds y) {gone : Nat → Bool} (hidle : x.busyWith gone = false) : y.busyWith gone = false := by
  obtain ⟨_, _, hflights, hnans⟩ := h
  obtain ⟨hf, hn⟩ := Part.busyWith_false.1 hidle
  exact Part.busyWith_false.2 ⟨fun f hmem => hf f (hflights hmem), fun n hmem => hn n (hnans hmem)⟩

theorem Part.dropEngines_sheds (gone : Nat → Bool) (x : Part) : x.Sheds (x.dropEngines gone) := by
  unfold Part.dropEngines
  obtain ⟨_, _, _, _, _, _, he⟩ := Part.settleFill_frame
    { x with flights := x.flights.filter (fun f => !gone f.agent), nans := x.nans.filter (fun n => !gone n.core) } x.cycle
  rw [he]
  exact ⟨rfl, rfl, List.filter_subset_self _, List.filter_subset_self _⟩

theorem Part.dropEngines_idle (gone : Nat → Bool) (x : Part) : (x.dropEngines gone).busyWith gone = false := by
  unfold Part.dropEngines
  obtain ⟨_, _, _, _, _, _, he⟩ := Part.settleFill_frame
    { x with flights := x.flights.filter (fun f => !gone f.agent), nans := x.nans.filter (fun n => !gone n.core) } x.cycle
  rw [he, Part.busyWith_false]
  exact ⟨fun f hf => by simpa using (List.mem_filter.1 hf).2, fun n hn => by simpa using (List.mem_filter.1 hn).2⟩

/-- From `s` to `t` partitions have shed actions; the rest of the machine stays. -/
def State.Sheds (s t : State) : Prop := (∃ ps, t = { s with parts := ps }) ∧ ∀ q, (s.part q).Sheds (t.part q)

theorem State.Sheds.refl (s : State) : s.Sheds s := ⟨⟨_, rfl⟩, fun _ => Part.Sheds.refl _⟩
theorem State.Sheds.trans {s t u : State} (h : s.Sheds t) (h' : t.Sheds u) : s.Sheds u := by
  obtain ⟨⟨_, rfl⟩, hparts⟩ := h
  obtain ⟨⟨_, rfl⟩, hparts'⟩ := h'
  exact ⟨⟨_, rfl⟩, fun q => (hparts q).trans (hparts' q)⟩

theorem State.part_dropEngines (s : State) (gone : Nat → Bool) (q : Nat) : (s.dropEngines gone).part q =
    if partNums.any (fun p => (s.part p).busyWith gone) ∧ q < 8 then (s.part q).dropEngines gone else s.part q := by
  rw [State.dropEngines_eq]
  by_cases hany : partNums.any (fun p => (s.part p).busyWith gone)
  · rw [if_pos hany, State.part_modParts _ (by decide)]
    simp only [hany, true_and, mem_partNums]
  · rw [if_neg hany, if_neg (fun h => hany h.1)]

theorem State.sheds_dropEngines (s : State) (gone : Nat → Bool) : s.Sheds (s.dropEngines gone) := by
  refine ⟨?_, fun q => ?_⟩
  · rw [State.dropEngines_eq]
    split
    · exact s.modParts_frame _ _
    · exact ⟨_, rfl⟩
  · rw [State.part_dropEngines]
    split
    · exact Part.dropEngines_sheds gone _
    · exact Part.Sheds.refl _

theorem State.idleOf_dropEngines (s : State) (gone : Nat → Bool) : (s.dropEngines gone).idleOf gone := by
  intro q hq
  rw [State.part_dropEngines]
  split
  · exact Part.dropEngines_idle gone _
  · next hnot =>
    have hnone : ¬ partNums.any (fun p => (s.part p).busyWith gone) = true := fun hany => hnot ⟨hany, hq⟩
    exact Bool.eq_false_iff.2 (List.any_eq_false.1 (Bool.eq_false_iff.2 hnone) q (mem_partNums.2 hq))

theorem State.Sheds.idleOf {s t : State} (h : s.Sheds t) {gone : Nat → Bool} (hidle : s.idleOf gone) : t.idleOf gone :=
  fun q hq => (h.2 q).busyWith (hidle q hq)

theorem fieldsIdle_iff {s : State} {fields : Nat} : fieldsIdle s fields ↔ ∀ f, f < 16 → fields.testBit f = true → s.idleOf (inField f) :=
  ⟨fun h f hf hbit q hq => Part.busyWith_false.2 (h q f hq hf hbit), fun h q f hq hf hbit => Part.busyWith_false.1 (h f hf hbit q hq)⟩

/-! ## RENEW_GO -/

/-- The engines of the fields of a mask are in use no more. -/
def State.fieldsDropped (s : State) (fields : Nat) : State := (fieldList fields).foldl (fun s f => s.dropEngines (inField f)) s

theorem State.sheds_fieldsDropped (s : State) (fields : Nat) : s.Sheds (s.fieldsDropped fields) :=
  List.foldlRecOn (motive := s.Sheds) _ _ (State.Sheds.refl s) (fun t h f _ => h.trans (t.sheds_dropEngines (inField f)))

theorem State.fieldsIdle_fieldsDropped (s : State) (fields : Nat) : fieldsIdle (s.fieldsDropped fields) fields :=
  fieldsIdle_iff.2 (fun _ hf hbit => foldl_brings (P := fun t : State => t.idleOf _) (fun t g h => (t.sheds_dropEngines (inField g)).idleOf h)
    (fun t => t.idleOf_dropEngines _) (mem_fieldList.2 ⟨hf, hbit⟩) s)

theorem State.fieldsDropped_idle {s : State} {fields : Nat} (h : fieldsIdle s fields) : s.fieldsDropped fields = s := by
  refine List.foldlRecOn (motive := (· = s)) _ _ rfl (fun t ht f hf => ?_)
  obtain ⟨hlt, hbit⟩ := mem_fieldList.1 hf
  rw [ht, State.dropEngines_idle (fieldsIdle_iff.1 h f hlt hbit)]

section
variable {s : State} {v : W32}

/-- The fields that a renewal of a partition takes out of service: those that are not Off. -/
def State.renewMask (s : State) (p : Nat) : Nat :=
  sumNat ((fieldList (s.lay p).fields).map (fun f => if (s.dom (19 + f)).st = .off then 0 else 2 ^ f))

theorem pairwise_fieldList (mask : Nat) : (fieldList mask).Pairwise (· < ·) := (pairwise_upTo 16).filter _

theorem State.testBit_renewMask (s : State) (p f : Nat) :
    (s.renewMask p).testBit f = true ↔ f < 16 ∧ bit (s.lay p).fields f = true ∧ (s.dom (19 + f)).st ≠ .off := by
  rw [State.renewMask, testBit_sumIte (pairwise_fieldList _) (fun f => (s.dom (19 + f)).st = .off), mem_fieldList, and_assoc]

/-- The domains of the fields of a mask. -/
theorem getLsbD_fieldDomains {mask : Nat} (hmask : ∀ f, mask.testBit f = true → f < 16) {d : Nat} (hd : d < 36) :
    (BitVec.ofNat 36 (mask * 2 ^ 19)).getLsbD d = (decide (19 ≤ d) && decide (d ≤ 34) && mask.testBit (d - 19)) := by
  rw [BitVec.getLsbD_ofNat, decide_eq_true hd, Bool.true_and, Nat.testBit_mul_two_pow]
  by_cases hbit : mask.testBit (d - 19) = true
  · have hlt := hmask _ hbit
    simp only [hbit, Bool.and_true]
    by_cases h19 : 19 ≤ d
    · simp [h19, show d ≤ 34 by omega]
    · simp [h19]
  · simp [Bool.eq_false_iff.2 hbit]

/-- A write of the partition to renew. -/
def State.renewNamed (s : State) (p : Nat) : State := { s with rst := { s.rst with renewPart := BitVec.ofNat 3 p } }

/-- None of the formes of a partition is enabled any more. -/
def Part.disarmed (x : Part) : Part := { x with resident := x.resident.map (fun r => { r with enabled := false }) }

/-- The renewal of a partition begins: its fields that are not Off leave service, and its formes are enabled no more. -/
def State.renewBegun (s : State) (p : Nat) : State :=
  let fields := s.renewMask p
  let mask := BitVec.ofNat 36 (fields * 2 ^ 19)
  let u := s.fieldsDropped fields
  { u.modPart p Part.disarmed with
    rst := { u.rst with
      renewing := some (p, fields), renewState := 1, renewFailed := 0, renewReason := 0
      kept := if u.rst.state = .halted then u.rst.kept else u.rst.kept.filter (fun d => d < 19 || !bit fields (d - 19))
      released := u.rst.released &&& ~~~mask, locked := u.rst.locked &&& ~~~mask } }

/-- What GO answers: the first reason that holds, or the renewal begins. -/
def State.renewAnswer (s : State) (p : Nat) : Nat × State :=
  if !s.defined p then (s.renewNamed p).renewRefuse 0x407
  else if (s.part p).status ≠ .idle then (s.renewNamed p).renewRefuse 0x408
  else if s.rst.renewing.isSome then (s.renewNamed p).renewRefuse 0x409
  else (0, (s.renewNamed p).renewBegun p)

theorem exec_renewGo (h : (s.dom 3).st ≠ .off) (hgo : v.getLsbD 8 = true) :
    exec (.renewGo v) s = .next (s.renewAnswer (v.toNat % 8)).2 := by
  have hwrite : s.writeRenew v = s.renewAnswer (v.toNat % 8) := if_neg (by rw [hgo]; decide)
  exact (State.direct_on (fun s => (s.writeRenew v).2) h).trans (congrArg (fun x => Host.Outcome.next x.2) hwrite)

theorem exec_renewGo_noGo (h : (s.dom 3).st ≠ .off) (hgo : v.getLsbD 8 = false) :
    exec (.renewGo v) s = .next (s.renewNamed (v.toNat % 8)) := by
  have hwrite : s.writeRenew v = (0, s.renewNamed (v.toNat % 8)) := if_pos (by rw [hgo]; rfl)
  exact (State.direct_on (fun s => (s.writeRenew v).2) h).trans (congrArg (fun x => Host.Outcome.next x.2) hwrite)

end

section
variable (s : State) (p : Nat)

theorem State.released_renewBegun {d : Nat} (hd : d < 36) : (s.renewBegun p).released d =
    (s.released d && !(decide (19 ≤ d) && decide (d ≤ 34) && (s.renewMask p).testBit (d - 19))) := by
  obtain ⟨⟨_, he⟩, _⟩ := s.sheds_fieldsDropped (s.renewMask p)
  have hrst : (s.fieldsDropped (s.renewMask p)).rst = s.rst := congrArg (·.rst) he
  have hmask := getLsbD_fieldDomains (fun f hf => ((s.testBit_renewMask p f).1 hf).1) hd
  rw [State.released, State.renewBegun, hrst, ← hmask]
  simp only [BitVec.getLsbD_and, BitVec.getLsbD_not, decide_eq_true hd, Bool.true_and]
  rfl

theorem State.renewBegun_frame : ({ s.renewBegun p with rst := s.rst, parts := s.parts } : State) = s := by
  obtain ⟨⟨_, he⟩, _⟩ := s.sheds_fieldsDropped (s.renewMask p)
  rw [State.renewBegun, he]
  rfl

/-- The partition that a renewal names, with its formes disabled. -/
theorem State.part_renewBegun : (s.renewBegun p).part p = ((s.fieldsDropped (s.renewMask p)).part p).disarmed :=
  State.part_modPart (s.fieldsDropped (s.renewMask p)) p Part.disarmed
theorem State.part_renewBegun_ne {q : Nat} (h : q ≠ p) : (s.renewBegun p).part q = (s.fieldsDropped (s.renewMask p)).part q :=
  State.part_modPart_ne (s.fieldsDropped (s.renewMask p)) Part.disarmed h

theorem State.status_renewBegun : ((s.renewBegun p).part p).status = (s.part p).status := by
  rw [State.part_renewBegun]
  exact ((s.sheds_fieldsDropped _).2 p).1

theorem State.resident_renewBegun : ∀ r ∈ ((s.renewBegun p).part p).resident, r.enabled = false := by
  rw [State.part_renewBegun]
  intro r hr
  obtain ⟨_, _, rfl⟩ := List.mem_map.1 hr
  rfl

theorem State.fieldsIdle_renewBegun : fieldsIdle (s.renewBegun p) (s.renewMask p) := by
  intro q f hq hf hbit
  have hidle := s.fieldsIdle_fieldsDropped (s.renewMask p) q f hq hf hbit
  by_cases hp : q = p
  · subst hp
    rw [State.part_renewBegun]
    exact hidle
  · rw [State.part_renewBegun_ne _ _ hp]
    exact hidle

end

/-- The renewal of an idle defined partition, where none is under way. -/
theorem renewal_begins {s : State} {v : W32} (hdom : (s.dom 3).st ≠ .off) (hgo : v.getLsbD 8 = true) (hdef : s.defined (v.toNat % 8) = true)
    (hidle : (s.part (v.toNat % 8)).status = .idle) (hnone : s.rst.renewing = none) : let p := v.toNat % 8
    ∃ (t : State) (fields : Nat), exec (.renewGo v) s = .next t ∧ t.rst.renewing = some (p, fields) ∧ t.rst.renewState = 1 ∧
      (∀ f, f < 16 → fields.testBit f = (bit (s.lay p).fields f && (s.dom (19 + f)).st != .off)) ∧
      (∀ d, d < 36 → t.released d = (s.released d && !(decide (19 ≤ d) && decide (d ≤ 34) && fields.testBit (d - 19)))) ∧
      (∀ r ∈ (t.part p).resident, r.enabled = false) ∧ (t.part p).status = .idle ∧ fieldsIdle t fields ∧
      (∀ q, q ≠ p → (t.part q).status = (s.part q).status ∧ (t.part q).resident = (s.part q).resident) ∧
      (fieldsIdle s fields → ∀ q, q ≠ p → t.part q = s.part q) ∧
      ({ t with rst := s.rst, parts := s.parts } : State) = s := by
  intro p
  have hexec : exec (.renewGo v) s = .next ((s.renewNamed p).renewBegun p) := by
    have hyes : s.renewAnswer p = (0, (s.renewNamed p).renewBegun p) := by
      simp only [State.renewAnswer, p, hdef, hidle, hnone, Bool.not_true, Bool.false_eq_true, if_false, ne_eq, not_true_eq_false, Option.isSome_none]
    exact (exec_renewGo hdom hgo).trans (congrArg (fun x => Host.Outcome.next x.2) hyes)
  have hmask : ∀ f, f < 16 → ((s.renewNamed p).renewMask p).testBit f = (bit (s.lay p).fields f && (s.dom (19 + f)).st != .off) := by
    intro f hf
    rw [Bool.eq_iff_iff, State.testBit_renewMask, Bool.and_eq_true, bne_iff_ne, and_iff_right hf]
    rfl
  have hsheds := (s.renewNamed p).sheds_fieldsDropped ((s.renewNamed p).renewMask p)
  refine ⟨_, _, hexec, rfl, rfl, hmask, fun d hd => State.released_renewBegun _ p hd, State.resident_renewBegun _ p,
    (State.status_renewBegun _ p).trans hidle, State.fieldsIdle_renewBegun _ p, fun q hq => ?_, fun hfields q hq => ?_, ?_⟩
  · rw [State.part_renewBegun_ne _ _ hq]
    obtain ⟨hstatus, hresident, _⟩ := hsheds.2 q
    exact ⟨hstatus, hresident⟩
  · rw [State.part_renewBegun_ne _ _ hq, State.fieldsDropped_idle (s := s.renewNamed p) hfields]
    rfl
  · exact congrArg (fun t : State => { t with rst := s.rst }) (State.renewBegun_frame (s.renewNamed p) p)

end Sys2Proof.Machine
end

section
/-! The end of a renewal (R456, R459, R464, R477; Table 15-9): fields given back with zeroed memories, and fields marked failed. -/
namespace Sys2Proof.Machine

open Sys2Proof

/-! ## A field that the map marks failed -/

theorem State.fieldFailed_congr {s t : State} (hdefect : t.rst.defect = s.rst.defect) (hboot : t.rst.bootDefect = s.rst.bootDefect) (f : Nat) :
    t.fieldFailed f = s.fieldFailed f := by
  rw [State.fieldFailed, State.defects, hdefect, hboot]
  rfl

/-- Each word below the end of the map has a KIND. -/
theorem kind_of_lt_mapFill {t : Tab W32} {k : Nat} (h : k < mapFill t) : bits (tget (0 : W32) t k).toNat 31 28 ≠ 0 := by
  unfold mapFill at h
  cases hfind : (upTo 2048).find? (fun k => bits (tget (0 : W32) t k).toNat 31 28 == 0) with
  | none =>
    rw [hfind] at h
    simpa using List.find?_eq_none.1 hfind k (mem_upTo.2 h)
  | some j =>
    rw [hfind] at h
    obtain ⟨_, _, hfirst⟩ := List.find?_range_eq_some.1 hfind
    simpa using hfirst k h

/-- A word stands in the map where it and every word before it have a KIND. -/
theorem lt_mapFill {t : Tab W32} {k : Nat} (hk : k < 2048) (h : ∀ j, j ≤ k → bits (tget (0 : W32) t j).toNat 31 28 ≠ 0) : k < mapFill t := by
  unfold mapFill
  cases hfind : (upTo 2048).find? (fun k => bits (tget (0 : W32) t k).toNat 31 28 == 0) with
  | none => exact hk
  | some j =>
    have hzero := List.find?_some hfind
    exact Nat.lt_of_not_le (fun hle => h j hle (by simpa using hzero))

/-- An entry that has been appended is in force. -/
theorem State.mem_defects_appendDefect (s : State) {w : Nat} (hw : w < 2 ^ 32) (hkind : bits w 31 28 ≠ 0) : w ∈ (s.appendDefect w).defects := by
  unfold State.appendDefect State.burnDefect
  dsimp only
  split_ifs with hinhibit hroom
  · exact List.mem_append_right _ (List.mem_append_right _ List.mem_cons_self)
  · have hword : (BitVec.ofNat 32 w).toNat = w := by rw [BitVec.toNat_ofNat, Nat.mod_eq_of_lt hw]
    have hplace : mapFill s.rst.defect < mapFill (tset 0 s.rst.defect (mapFill s.rst.defect) (BitVec.ofNat 32 w)) := by
      refine lt_mapFill hroom (fun j hj => ?_)
      rw [tget_tset]
      split
      · rwa [hword]
      · exact kind_of_lt_mapFill (by omega)
    refine List.mem_append_left _ (List.mem_map.2 ⟨_, mem_upTo.2 hplace, ?_⟩)
    rw [tget_tset_same, hword]
  · rw [State.defects, State.post_rst]
    exact List.mem_append_right _ (List.mem_append_right _ List.mem_cons_self)
  · exact List.mem_append_right _ (List.mem_append_right _ List.mem_cons_self)

/-- The kind-6 entry of a field. -/
def failedWord (f : Nat) : Nat := 0x60000000 + f * 2 ^ 24

theorem State.fieldFailed_appendDefect (s : State) {f : Nat} (hf : f < 16) : (s.appendDefect (failedWord f)).fieldFailed f = true := by
  have hkind : bits (failedWord f) 31 28 = 6 := by
    simp only [bits, failedWord, Nat.shiftRight_eq_div_pow]
    omega
  have hfield : bits (failedWord f) 27 24 = f := by
    simp only [bits, failedWord, Nat.shiftRight_eq_div_pow]
    omega
  have hin := s.mem_defects_appendDefect (w := failedWord f) (by unfold failedWord; omega) (by rw [hkind]; decide)
  exact List.any_eq_true.2 ⟨_, hin, by rw [hkind, hfield, beq_self_eq_true, beq_self_eq_true]; rfl⟩

/-! ## Two faulty sites -/

/-- What a self-test reports of a field with two faulty sites and nothing else. -/
def twoSites (f x y : Nat) : FieldTest := { field := f, badSites := [x, y], rowRepairs := [], sramLost := false, stopped := false }

/-- A domain is turned Off. -/
def State.domOff (s : State) (d : Nat) : State := s.setDom d { s.dom d with st := .off }

section
variable {f x y : Nat} (hf : f < 16) (hxy : x ≠ y)
include hf hxy

theorem State.renewField_twoSites (s : State) : ∃ t, s.Repairs t ∧ s.renewField (twoSites f x y) = (t.appendDefect (failedWord f)).domOff (19 + f) := by
  have hsites : dedup [x, y] = [x, y] := by simp [dedup, hxy.symm]
  have hfield : f % 16 = f := Nat.mod_eq_of_lt hf
  refine ⟨if !s.fieldSited f then s.appendDefect (0x10000000 + f * 2 ^ 24 + x % 16 * 2 ^ 20) else s, ?_, ?_⟩
  · split
    · exact s.repairs_appendDefect _
    · exact State.Repairs.refl s
  · simp only [State.renewField, twoSites, hsites, hfield, List.foldl_nil]
    exact if_pos rfl

theorem State.renewField_fails (s : State) : s.Repairs (s.renewField (twoSites f x y)) ∧ ((s.renewField (twoSites f x y)).dom (19 + f)).st = .off ∧
    (s.renewField (twoSites f x y)).fieldFailed f = true := by
  obtain ⟨t, ht, he⟩ := s.renewField_twoSites hf hxy
  rw [he]
  refine ⟨(ht.trans (t.repairs_appendDefect _)).trans ⟨_, _, _, _, _, _, rfl⟩, ?_, t.fieldFailed_appendDefect hf⟩
  rw [State.domOff, State.dom_setDom]

end

/-! ## Cleared fields -/

/-- What clearing a field does to memories and registers; its engines' actions go besides. -/
theorem State.clearField_eq (s : State) (f : Nat) : ∃ d n se sp ps, s.clearField f = { s with data := d, num := n, se := se, spine := sp, parts := ps } ∧
    d.core = tclear s.data.core (coreAt (f * 64) 0) (64 * coreBytes) ∧ d.dev = s.data.dev ∧
    n.me = tclear s.num.me (f * 64) 64 ∧ n.traps = tclear s.num.traps (f * 64) 64 ∧
    (s.idleOf (inField f) → ps = s.parts) := by
  obtain ⟨⟨_, he⟩, _⟩ := ((s.zeroGalleys f).dropDirect (fun e => e / 3 == f)).sheds_dropEngines (inField f)
  have hidle : s.idleOf (inField f) → _ := State.dropEngines_idle (s := (s.zeroGalleys f).dropDirect (fun e => e / 3 == f))
  unfold State.clearField
  dsimp only
  rw [he] at hidle ⊢
  exact ⟨_, _, _, _, _, rfl, rfl, rfl, rfl, rfl, fun h => congrArg (·.parts) (hidle h)⟩

/-- The fields of a mask cleared. -/
def State.fieldsCleared (s : State) (fields : Nat) : State := (fieldList fields).foldl (fun s f => s.clearField f) s

section
variable (s : State) (fields : Nat)

theorem State.fieldsCleared_frame : ∃ d n se sp ps, s.fieldsCleared fields = { s with data := d, num := n, se := se, spine := sp, parts := ps } := by
  refine List.foldlRecOn (motive := fun t => ∃ d n se sp ps, t = { s with data := d, num := n, se := se, spine := sp, parts := ps })
    (fieldList fields) (fun s f => s.clearField f) (b := s) ⟨_, _, _, _, _, rfl⟩ ?_
  rintro _ ⟨_, _, _, _, _, rfl⟩ f _
  obtain ⟨_, _, _, _, _, he, _⟩ := State.clearField_eq _ f
  exact ⟨_, _, _, _, _, he⟩

theorem State.fieldsCleared_dev : (s.fieldsCleared fields).data.dev = s.data.dev := by
  refine List.foldlRecOn (motive := fun t : State => t.data.dev = s.data.dev) _ _ rfl (fun t ht f _ => ?_)
  obtain ⟨_, _, _, _, _, he, _, hdev, _⟩ := t.clearField_eq f
  rw [he]
  exact hdev.trans ht

theorem State.fieldsCleared_parts (h : fieldsIdle s fields) : (s.fieldsCleared fields).parts = s.parts := by
  refine List.foldlRecOn (motive := fun t : State => t.parts = s.parts) _ _ rfl (fun t ht f hf => ?_)
  obtain ⟨_, _, _, _, _, he, _, _, _, _, hparts⟩ := t.clearField_eq f
  obtain ⟨hlt, hbit⟩ := mem_fieldList.1 hf
  have hidle : t.idleOf (inField f) := by
    have hs := fieldsIdle_iff.1 h f hlt hbit
    unfold State.idleOf State.part at hs ⊢
    rwa [ht]
  rw [he]
  exact (hparts hidle).trans ht

section
variable {s fields} {f c : Nat} (hc : c < 64)
include hc

theorem State.fieldsCleared_core {off : Nat} (hf : f ∈ fieldList fields) (hoff : off < coreBytes) :
    tget 0 (s.fieldsCleared fields).data.core (coreAt (64 * f + c) off) = 0 := by
  refine foldl_brings (P := fun t : State => tget 0 t.data.core (coreAt (64 * f + c) off) = 0) (fun t g h => ?_) (fun t => ?_) hf s
  · obtain ⟨_, _, _, _, _, he, hcore, _⟩ := t.clearField_eq g
    rw [he]
    exact (congrArg (fun m => tget 0 m _) hcore).trans (tget_tclear_zero _ _ h)
  · obtain ⟨_, _, _, _, _, he, hcore, _⟩ := t.clearField_eq f
    rw [he]
    refine (congrArg (fun m => tget 0 m _) hcore).trans (tget_tclear_in 0 _ ?_)
    unfold coreAt coreBytes at *
    omega

theorem State.fieldsCleared_core_out {off : Nat} (hf : f ∉ fieldList fields) (hoff : off < coreBytes) :
    tget 0 (s.fieldsCleared fields).data.core (coreAt (64 * f + c) off) = tget 0 s.data.core (coreAt (64 * f + c) off) := by
  refine List.foldlRecOn (motive := fun t : State => tget 0 t.data.core _ = tget 0 s.data.core _) _ _ rfl (fun t ht g hg => ?_)
  obtain ⟨_, _, _, _, _, he, hcore, _⟩ := t.clearField_eq g
  have hne : g ≠ f := fun h => hf (h ▸ hg)
  rw [he]
  refine ((congrArg (fun m => tget 0 m _) hcore).trans ((tget_tclear _ _ _ _ _).trans (if_neg ?_))).trans ht
  unfold coreAt coreBytes at *
  omega

theorem State.fieldsCleared_num (hf : f ∈ fieldList fields) : tget Trap.zero (s.fieldsCleared fields).num.traps (64 * f + c) = Trap.zero ∧
    tget 0 (s.fieldsCleared fields).num.me (64 * f + c) = 0 := by
  refine foldl_brings (P := fun t : State => tget Trap.zero t.num.traps (64 * f + c) = Trap.zero ∧ tget 0 t.num.me (64 * f + c) = 0)
    (fun t g h => ?_) (fun t => ?_) hf s
  · obtain ⟨_, _, _, _, _, he, _, _, hme, htraps, _⟩ := t.clearField_eq g
    rw [he]
    exact ⟨(congrArg (fun m => tget Trap.zero m _) htraps).trans (tget_tclear_zero _ _ h.1), (congrArg (fun m => tget 0 m _) hme).trans (tget_tclear_zero _ _ h.2)⟩
  · obtain ⟨_, _, _, _, _, he, _, _, hme, htraps, _⟩ := t.clearField_eq f
    have hin : f * 64 ≤ 64 * f + c ∧ 64 * f + c < f * 64 + 64 := by omega
    rw [he]
    exact ⟨(congrArg (fun m => tget Trap.zero m _) htraps).trans (tget_tclear_in _ _ hin), (congrArg (fun m => tget 0 m _) hme).trans (tget_tclear_in _ _ hin)⟩

end

end

/-! ## RENEW_COMPLETE -/

/-- The fields of a mask that the map marks failed. -/
def State.failedOf (s : State) (fields : Nat) : List Nat := (fieldList fields).filter s.fieldFailed
/-- Those that go back into service where no release has stopped. -/
def State.backOf (s : State) (fields : Nat) : List Nat :=
  (fieldList fields).filter (fun f => !(s.failedOf fields).contains f && !s.keptDown (19 + f))
/-- The registers that a renewal leaves from the self-test's reports `found` of its fields. -/
def State.renewTested (s : State) (fields : Nat) (found : List FieldTest) : State :=
  ((found.filter (fun t => bit fields (t.field % 16))).foldl State.renewField { s with rst := { s.rst with renewing := none } }).fieldsCleared fields

/-- The first field at which a release has stopped. -/
def State.stopOf (s : State) (fields : Nat) (found : List FieldTest) : Option Nat :=
  (fieldList fields).find? (fun f => !(s.failedOf fields).contains f &&
    (found.filter (fun t => bit fields (t.field % 16))).any (fun t => t.field % 16 == f && t.stopped))

theorem State.stopOf_none (s : State) (fields : Nat) {found : List FieldTest} (h : ∀ t ∈ found, t.stopped = false) : s.stopOf fields found = none := by
  refine List.find?_eq_none.2 (fun f _ hf => ?_)
  obtain ⟨t, ht, hstopped⟩ := List.any_eq_true.1 (Bool.and_eq_true_iff.1 hf).2
  rw [h t (List.mem_filter.1 ht).1, Bool.and_false] at hstopped
  cases hstopped

/-- The end of a renewal, with the field at which a release has stopped. -/
def State.renewEnded (s : State) (fields : Nat) (stop : Option Nat) : State :=
  let failed := s.failedOf fields
  let up := (fieldList fields).filter (fun f => !failed.contains f && stop.all (fun k => decide (f < k)) && !s.keptDown (19 + f))
  let stay := ((fieldList fields).filter (fun f => stop.any (fun k => decide (k ≤ f)))).map (19 + ·)
  let mask := BitVec.ofNat 36 (sumNat (up.map (fun f => 2 ^ (19 + f))))
  let failMask := sumNat (failed.map (2 ^ ·))
  let code := if !failed.isEmpty then 0x40A else if stop.isSome then 0x401 else 0
  let dom := (stop.map (19 + ·)).getD 0x3F
  let s : State := { s with rst := { s.rst with
    kept := s.rst.kept ++ stay, renewState := if stop.isSome then 3 else 2, renewFailed := BitVec.ofNat 16 failMask,
    renewReason := BitVec.ofNat 16 code, reason := if code = 0 then s.rst.reason else BitVec.ofNat 16 code,
    released := s.rst.released ||| mask, locked := s.rst.locked ||| mask
    domain := if stop.isSome then BitVec.ofNat 6 dom else s.rst.domain, earlyStop := s.rst.earlyStop && code = 0 } }
  s.post 0x504 none ccAgent code (s.rst.state.code * 17 + dom * 2 ^ 8 + 2 ^ 15 + fields * 2 ^ 16 + failMask * 2 ^ 32)

/-- From `u`, in which the fields are cleared, to `t` a renewal ends whose releases have not stopped. -/
structure State.Renewed (u t : State) (fields : Nat) : Prop where
  frame : ∃ r e, t = { u with rst := r, es := e }
  renewing : t.rst.renewing = u.rst.renewing
  state : t.rst.renewState = 2
  failed : t.rst.renewFailed = BitVec.ofNat 16 (sumNat ((u.failedOf fields).map (2 ^ ·)))
  reason : t.rst.renewReason = BitVec.ofNat 16 (if (u.failedOf fields).isEmpty then 0 else 0x40A)
  released : t.rst.released = u.rst.released ||| BitVec.ofNat 36 (sumNat ((u.backOf fields).map (fun f => 2 ^ (19 + f))))
  defects : t.rst.defect = u.rst.defect ∧ t.rst.bootDefect = u.rst.bootDefect

theorem State.renewed_renewEnded (u : State) (fields : Nat) : u.Renewed (u.renewEnded fields none) fields := by
  have hback : u.backOf fields = (fieldList fields).filter (fun f => !(u.failedOf fields).contains f &&
      (none : Option Nat).all (fun k => decide (f < k)) && !u.keptDown (19 + f)) := by
    simp only [State.backOf, Option.all_none, Bool.and_true]
  have hcode : (if (u.failedOf fields).isEmpty then 0 else 0x40A) =
      if !(u.failedOf fields).isEmpty then 0x40A else if (none : Option Nat).isSome then 0x401 else 0 := by
    cases (u.failedOf fields).isEmpty <;> rfl
  obtain ⟨e, he⟩ : ∃ e, u.renewEnded fields none = _ := State.post_frame _ _ _ _ _ _
  rw [he]
  refine ⟨⟨_, _, rfl⟩, rfl, rfl, rfl, ?_, ?_, ⟨rfl, rfl⟩⟩
  · rw [hcode]
  · rw [hback]

theorem exec_renewComplete_none {s : State} (found : List FieldTest) (h : s.rst.renewing = none) : exec (.renewComplete found) s = .next s := by
  have hexec : exec (.renewComplete found) s = execRenewComplete found s := rfl
  rw [hexec, execRenewComplete, h]

section
variable {s : State} {p fields : Nat} (h : s.rst.renewing = some (p, fields))
include h

theorem exec_renewComplete (found : List FieldTest) : exec (.renewComplete found) s =
    .next ((s.renewTested fields found).renewEnded fields ((s.renewTested fields found).stopOf fields found)) := by
  have hexec : exec (.renewComplete found) s = execRenewComplete found s := rfl
  rw [hexec, execRenewComplete, h]
  rfl

theorem renewal_ends {found : List FieldTest} (hstop : ∀ t ∈ found, t.stopped = false) :
    ∃ t, exec (.renewComplete found) s = .next t ∧ (s.renewTested fields found).Renewed t fields := by
  refine ⟨_, exec_renewComplete h found, ?_⟩
  rw [State.stopOf_none _ _ hstop]
  exact State.renewed_renewEnded _ _

end

end Sys2Proof.Machine
end

section
/-! What a self-test's reports leave, faults of memories in service (R323, R517, R527; log entry 63), and the statement on both. -/
namespace Sys2Proof.Machine

open Sys2Proof

/-! ## The fields that a renewal gives back or marks failed -/

section
variable {u t : State} {fields f : Nat}

theorem State.mem_failedOf : f ∈ u.failedOf fields ↔ f ∈ fieldList fields ∧ u.fieldFailed f = true := List.mem_filter

theorem State.mem_backOf : f ∈ u.backOf fields ↔ f ∈ fieldList fields ∧ f ∉ u.failedOf fields ∧ u.keptDown (19 + f) = false := by
  simp [State.backOf, List.mem_filter]

theorem State.failedOf_eq_nil (h : ∀ f, f < 16 → fields.testBit f = true → u.fieldFailed f = false) : u.failedOf fields = [] := by
  refine List.filter_eq_nil_iff.2 (fun f hf => ?_)
  obtain ⟨hlt, hbit⟩ := mem_fieldList.1 hf
  rw [h f hlt hbit]
  exact Bool.false_ne_true

variable (h : u.Renewed t fields) (hf : f < 16)
include h hf

theorem State.Renewed.released_field : t.released (19 + f) = (u.released (19 + f) || decide (f ∈ u.backOf fields)) := by
  have hdomains : (u.backOf fields).map (fun f => 2 ^ (19 + f)) = ((u.backOf fields).map (19 + ·)).map (2 ^ ·) := by
    rw [List.map_map]
    rfl
  have hrising : ((u.backOf fields).map (19 + ·)).Pairwise (· < ·) :=
    List.pairwise_map.2 (((pairwise_fieldList fields).filter _).imp (fun hlt => Nat.add_lt_add_left hlt 19))
  have hmask : (sumNat ((u.backOf fields).map (fun f => 2 ^ (19 + f)))).testBit (19 + f) = decide (f ∈ u.backOf fields) := by
    rw [hdomains, Bool.eq_iff_iff, testBit_sumTwoPow hrising, decide_eq_true_eq, List.mem_map]
    exact ⟨fun ⟨g, hg, he⟩ => Nat.add_left_cancel he ▸ hg, fun hf => ⟨f, hf, rfl⟩⟩
  rw [State.released, h.released, BitVec.getLsbD_or, BitVec.getLsbD_ofNat, hmask, decide_eq_true (show 19 + f < 36 by omega), Bool.true_and]
  rfl

theorem State.Renewed.failed_field : t.rst.renewFailed.getLsbD f = decide (f ∈ u.failedOf fields) := by
  have hrising : (u.failedOf fields).Pairwise (· < ·) := (pairwise_fieldList fields).filter _
  rw [h.failed, BitVec.getLsbD_ofNat, decide_eq_true hf, Bool.true_and, Bool.eq_iff_iff, testBit_sumTwoPow hrising, decide_eq_true_eq]

end

/-- No renewal is under way any more. -/
def State.renewOver (s : State) : State := { s with rst := { s.rst with renewing := none } }

section
variable {s : State} {p fields : Nat} (h : s.rst.renewing = some (p, fields))
include h

/-- A self-test that found nothing, in fields that no entry of the map marks failed. -/
theorem renewal_gives_back (hsound : ∀ f, f < 16 → fields.testBit f = true → s.fieldFailed f = false) :
    ∃ t, exec (.renewComplete []) s = .next t ∧ t.rst.renewing = none ∧ t.rst.renewState = 2 ∧ t.rst.renewFailed = 0 ∧ t.rst.renewReason = 0 ∧
      (∀ f, f < 16 → fields.testBit f = true →
        t.released (19 + f) = (s.released (19 + f) || !s.renewOver.keptDown (19 + f)) ∧
        (∀ c off, c < 64 → off < coreBytes → tget 0 t.data.core (coreAt (64 * f + c) off) = 0) ∧
        ∀ c, c < 64 → tget Trap.zero t.num.traps (64 * f + c) = Trap.zero ∧ tget 0 t.num.me (64 * f + c) = 0) ∧
      (∀ f c off, f < 16 → fields.testBit f = false → c < 64 → off < coreBytes →
        tget 0 t.data.core (coreAt (64 * f + c) off) = tget 0 s.data.core (coreAt (64 * f + c) off)) ∧
      t.data.dev = s.data.dev ∧ (fieldsIdle s fields → t.parts = s.parts) ∧ t.pwr = s.pwr := by
  obtain ⟨t, hexec, hend⟩ := renewal_ends h (found := []) (by simp)
  have hclear : s.renewTested fields [] = s.renewOver.fieldsCleared fields := rfl
  rw [hclear] at hend
  obtain ⟨d, n, se, sp, ps, hu⟩ := s.renewOver.fieldsCleared_frame fields
  have hrst : (s.renewOver.fieldsCleared fields).rst = s.renewOver.rst := congrArg (·.rst) hu
  have hpwr : (s.renewOver.fieldsCleared fields).pwr = s.pwr := congrArg (·.pwr) hu
  have hkept : ∀ d, (s.renewOver.fieldsCleared fields).keptDown d = s.renewOver.keptDown d := by
    intro d
    rw [hu]
    rfl
  have hfailed : (s.renewOver.fieldsCleared fields).failedOf fields = [] := by
    refine State.failedOf_eq_nil (fun f hf hbit => ?_)
    rw [State.fieldFailed_congr (s := s) (congrArg (·.defect) hrst) (congrArg (·.bootDefect) hrst)]
    exact hsound f hf hbit
  obtain ⟨r, e, ht⟩ := hend.frame
  have hdata : t.data = (s.renewOver.fieldsCleared fields).data := congrArg (·.data) ht
  have hnum : t.num = (s.renewOver.fieldsCleared fields).num := congrArg (·.num) ht
  refine ⟨t, hexec, ?_, hend.state, ?_, ?_, fun f hf hbit => ⟨?_, fun c off hc hoff => ?_, fun c hc => ?_⟩, fun f c off hf hbit hc hoff => ?_, ?_,
    fun hidle => ?_, (congrArg (·.pwr) ht).trans hpwr⟩
  · rw [hend.renewing, hrst]
    rfl
  · rw [hend.failed, hfailed]
    rfl
  · rw [hend.reason, hfailed]
    rfl
  · have hin : f ∈ fieldList fields := mem_fieldList.2 ⟨hf, hbit⟩
    have hback : decide (f ∈ (s.renewOver.fieldsCleared fields).backOf fields) = !s.renewOver.keptDown (19 + f) := by
      rw [Bool.eq_iff_iff, decide_eq_true_eq, State.mem_backOf, hfailed, hkept, Bool.not_eq_true']
      exact ⟨fun hb => hb.2.2, fun hk => ⟨hin, List.not_mem_nil, hk⟩⟩
    rw [hend.released_field hf, hback, State.released, hrst]
    rfl
  · rw [hdata]
    exact State.fieldsCleared_core hc (mem_fieldList.2 ⟨hf, hbit⟩) hoff
  · rw [hnum]
    exact State.fieldsCleared_num hc (mem_fieldList.2 ⟨hf, hbit⟩)
  · have hout : f ∉ fieldList fields := fun hin => Bool.false_ne_true (hbit.symm.trans (mem_fieldList.1 hin).2)
    rw [hdata]
    exact State.fieldsCleared_core_out hc hout hoff
  · rw [hdata]
    exact s.renewOver.fieldsCleared_dev fields
  · exact (congrArg (·.parts) ht).trans (s.renewOver.fieldsCleared_parts fields hidle)

/-- A self-test that found two faulty sites in a field. -/
theorem renewal_fails_field {f x y : Nat} (hf : f < 16) (hbit : fields.testBit f = true) (hxy : x ≠ y) :
    ∃ t, exec (.renewComplete [twoSites f x y]) s = .next t ∧ t.rst.renewing = none ∧ t.rst.renewFailed.getLsbD f = true ∧
      t.rst.renewReason = 0x40A ∧ (t.dom (19 + f)).st = .off ∧ t.released (19 + f) = s.released (19 + f) ∧ t.fieldFailed f = true := by
  obtain ⟨t, hexec, hend⟩ := renewal_ends h (found := [twoSites f x y]) (by simp [twoSites])
  have htested : s.renewTested fields [twoSites f x y] = (s.renewOver.renewField (twoSites f x y)).fieldsCleared fields := by
    have hkeep : [twoSites f x y].filter (fun t => bit fields (t.field % 16)) = [twoSites f x y] := by
      refine List.filter_eq_self.2 (fun t ht => ?_)
      rw [List.mem_singleton.1 ht, twoSites, Nat.mod_eq_of_lt hf]
      exact hbit
    rw [State.renewTested, hkeep]
    rfl
  obtain ⟨hrep, hoff, hfail⟩ := s.renewOver.renewField_fails hf hxy
  obtain ⟨d, n, se, sp, ps, hu⟩ := (s.renewOver.renewField (twoSites f x y)).fieldsCleared_frame fields
  rw [← htested] at hu
  generalize s.renewTested fields [twoSites f x y] = u at hend hu
  generalize s.renewOver.renewField (twoSites f x y) = w at hrep hoff hfail hu
  have hrst : u.rst = w.rst := congrArg (·.rst) hu
  obtain ⟨df, bd, rr, hw, ds, e', hrep⟩ := hrep
  have hmarked : f ∈ u.failedOf fields := by
    refine State.mem_failedOf.2 ⟨mem_fieldList.2 ⟨hf, hbit⟩, ?_⟩
    rw [State.fieldFailed_congr (congrArg (·.defect) hrst) (congrArg (·.bootDefect) hrst)]
    exact hfail
  have hback : decide (f ∈ u.backOf fields) = false := decide_eq_false (fun hb => (State.mem_backOf.1 hb).2.1 hmarked)
  obtain ⟨r, e, ht⟩ := hend.frame
  have hpwr : t.pwr = w.pwr := (congrArg (·.pwr) ht).trans (congrArg (·.pwr) hu)
  refine ⟨t, hexec, ?_, ?_, ?_, ?_, ?_, ?_⟩
  · rw [hend.renewing, hrst, hrep]
    rfl
  · rw [hend.failed_field hf, decide_eq_true hmarked]
  · rw [hend.reason, if_neg (fun hnil => List.ne_nil_of_mem hmarked (List.isEmpty_iff.1 hnil))]
    rfl
  · rw [State.dom, hpwr]
    exact hoff
  · rw [hend.released_field hf, hback, Bool.or_false, State.released, hrst, hrep]
    rfl
  · rw [State.fieldFailed_congr (hend.defects.1.trans (congrArg (·.defect) hrst)) (hend.defects.2.trans (congrArg (·.bootDefect) hrst))]
    exact hfail

end

/-! ## A renewal that does not begin -/

/-- A renewal refused. -/
def State.renewRefused (s : State) (p : Nat) (code : W16) : State :=
  { s with rst := { s.rst with renewPart := BitVec.ofNat 3 p, reason := code, renewReason := code } }

section
variable {s : State} {v : W32} (hdom : (s.dom 3).st ≠ .off) (hgo : v.getLsbD 8 = true)
include hdom hgo

theorem renewal_refused {code : Nat} (h : s.renewAnswer (v.toNat % 8) = (s.renewNamed (v.toNat % 8)).renewRefuse code) :
    exec (.renewGo v) s = .next (s.renewRefused (v.toNat % 8) (BitVec.ofNat 16 code)) :=
  (exec_renewGo hdom hgo).trans (congrArg (fun x => Host.Outcome.next x.2) h)

theorem renewal_refused_undefined (hdef : s.defined (v.toNat % 8) = false) :
    exec (.renewGo v) s = .next (s.renewRefused (v.toNat % 8) 0x407) := by
  refine renewal_refused hdom hgo ?_
  simp only [State.renewAnswer, hdef, Bool.not_false, if_true]

theorem renewal_refused_busy (hdef : s.defined (v.toNat % 8) = true) (hbusy : (s.part (v.toNat % 8)).status ≠ .idle) :
    exec (.renewGo v) s = .next (s.renewRefused (v.toNat % 8) 0x408) := by
  refine renewal_refused hdom hgo ?_
  simp only [State.renewAnswer, hdef, hbusy, Bool.not_true, Bool.false_eq_true, if_false, ne_eq, not_false_eq_true, if_true]

theorem renewal_refused_renewing (hdef : s.defined (v.toNat % 8) = true) (hidle : (s.part (v.toNat % 8)).status = .idle)
    (hrenewing : s.rst.renewing ≠ none) : exec (.renewGo v) s = .next (s.renewRefused (v.toNat % 8) 0x409) := by
  have hsome : s.rst.renewing.isSome = true := Option.isSome_iff_ne_none.2 hrenewing
  refine renewal_refused hdom hgo ?_
  simp only [State.renewAnswer, hdef, hidle, hsome, Bool.not_true, Bool.false_eq_true, if_false, ne_eq, not_true_eq_false, if_true]

end

/-! ## Faults of memories in service -/

theorem exec_boardChannelFailed_board (s : State) (c : Nat) : exec (.boardChannelFailed (.board c)) s =
    .next (if c < 64 && s.mem.trained ≠ 0 then s.loseChannel (256 + c) 0x613 else s) := rfl
theorem exec_boardChannelFailed_transfer (s : State) (c : Nat) : exec (.boardChannelFailed (.transfer c)) s =
    .next (if c < 256 && s.mem.trained ≠ 0 then s.loseChannel c 0x614 else s) := rfl

theorem State.lose_onlyLoss (s : State) (r : Nat) : (s.lose r).mem = s.mem ∧ onlyLoss s (s.lose r) ∧ (s.lose r).sec = s.sec := by
  obtain ⟨h, e, he⟩ := s.lose_frame r
  rw [he]
  exact ⟨rfl, ⟨rfl, rfl, rfl, rfl, rfl, rfl⟩, rfl⟩

theorem State.loseChannel_onlyLoss (s : State) (c r : Nat) : (s.loseChannel c r).mem = { s.mem with lost := s.mem.lost ++ [c] } ∧
    onlyLoss s (s.loseChannel c r) ∧ (s.loseChannel c r).sec = s.sec :=
  State.lose_onlyLoss { s with mem := { s.mem with lost := s.mem.lost ++ [c] } } r

theorem channel_failed (s : State) (c : Nat) :
    (c < 64 → s.mem.trained ≠ 0 → ∃ t, exec (.boardChannelFailed (.board c)) s = .next t ∧
      t.mem = { s.mem with lost := s.mem.lost ++ [256 + c] } ∧ onlyLoss s t ∧ t.sec = s.sec) ∧
    (64 ≤ c ∨ s.mem.trained = 0 → exec (.boardChannelFailed (.board c)) s = .next s) ∧
    (c < 256 → s.mem.trained ≠ 0 → ∃ t, exec (.boardChannelFailed (.transfer c)) s = .next t ∧
      t.mem = { s.mem with lost := s.mem.lost ++ [c] } ∧ onlyLoss s t ∧ t.sec = s.sec) ∧
    (256 ≤ c ∨ s.mem.trained = 0 → exec (.boardChannelFailed (.transfer c)) s = .next s) := by
  rw [exec_boardChannelFailed_board, exec_boardChannelFailed_transfer]
  refine ⟨fun hc htrained => ⟨_, ?_, s.loseChannel_onlyLoss (256 + c) 0x613⟩, fun hnot => ?_,
    fun hc htrained => ⟨_, ?_, s.loseChannel_onlyLoss c 0x614⟩, fun hnot => ?_⟩
  · rw [if_pos (by simp [hc, htrained])]
  · rw [if_neg (by simpa using fun hc => hnot.resolve_left (by omega))]
  · rw [if_pos (by simp [hc, htrained])]
  · rw [if_neg (by simpa using fun hc => hnot.resolve_left (by omega))]

theorem control_error (s : State) : ∃ t, exec (.boardChannelFailed (.error .control false)) s = .next t ∧
    onlyLoss s t ∧ t.sec.reason = 0x750 ∧ t.mem = s.mem := by
  obtain ⟨hmem, hloss, hsec⟩ := State.lose_onlyLoss
    { s.secUnc (originAt .control) (whereAt .control) with sec := { (s.secUnc (originAt .control) (whereAt .control)).sec with reason := 0x750 } } 0x750
  exact ⟨_, rfl, hloss, congrArg (·.reason) hsec, hmem⟩

theorem State.coreP_strike (s : State) (a o : Nat) : (s.strike .core a o).data.coreP = tset 0 s.data.coreP (a / 8) o := by
  have hbase : o ^^^ s.data.markBase .core (a / 8) = o := Nat.xor_zero o
  rw [State.strike]
  exact congrArg (tset 0 s.data.coreP (a / 8)) hbase

theorem State.coreMark_strike (s : State) (a o k : Nat) : (s.strike .core a o).data.mark .core k =
    if k = a / 8 then o else s.data.mark .core k := by
  have hmark : ∀ d : Data, d.mark .core k = tget 0 d.coreP k := fun d => Nat.xor_zero _
  rw [hmark, hmark, State.coreP_strike, tget_tset]

theorem core_error (s : State) (core off : Nat) : ∃ t, exec (.boardChannelFailed (.error (.core core off) false)) s = .next t ∧
    t.data.core = s.data.core ∧ t.data.dev = s.data.dev ∧
    (∀ k, t.data.mark .core k = if k = coreAt core off / 8 then 1 else s.data.mark .core k) ∧ t.sec = { s.sec with
      unc := 0x80000001, uncWhere := BitVec.ofNat 64 (whereRes (resBank core (off / 131072))) } ∧ t.rst = s.rst ∧ t.mem = s.mem ∧ t.parts = s.parts :=
  ⟨_, rfl, rfl, rfl, State.coreMark_strike (s.secUnc 1 (whereAt (.core core off))) (coreAt core off) 1, rfl, rfl, rfl, rfl⟩

/-! ## The statement -/

/-- Settles O58: the two commands of a renewal by their lemmas above, and each fault by what it leaves. -/
theorem renewalAndLostChannel : Obligations.RenewalAndLostChannel := by
  unfold Obligations.RenewalAndLostChannel
  refine ⟨⟨fun s v hdom => ?_, fun s p fields h => ⟨renewal_gives_back h, fun f x y hf hbit hxy => renewal_fails_field h hf hbit hxy⟩,
      fun s found => exec_renewComplete_none found⟩,
    channel_failed, fun s b => ⟨_, rfl, s.lose_onlyLoss 0⟩, fun s w => rfl, control_error, fun s core off _ _ => core_error s core off⟩
  exact ⟨exec_renewGo_noGo hdom, renewal_refused_undefined hdom, renewal_refused_busy hdom, renewal_refused_renewing hdom, renewal_begins hdom⟩

end Sys2Proof.Machine
end

section
/-! The memories under a stream (R332, R336): what a served read or write of an operand does, and where the rows of a linear move stand. -/
namespace Sys2Proof.Machine

open Sys2Proof

/-! ## Bytes put into one memory -/

/-- Only one memory, its poison and, for an activation store, the region tags change. -/
structure State.Within (sp : Space) (s t : State) : Prop where
  rest : ∃ b q g, t = { s with data := { s.data.put sp b q with storeTag := g } }
  tags : sp ≠ .store → t.data.storeTag = s.data.storeTag

theorem State.Within.refl (sp : Space) (s : State) : s.Within sp s :=
  ⟨⟨s.data.bytes sp, s.data.poison sp, s.data.storeTag, by cases sp <;> rfl⟩, fun _ => rfl⟩
theorem State.Within.trans {sp : Space} {s t u : State} (h : s.Within sp t) (h' : t.Within sp u) : s.Within sp u := by
  refine ⟨?_, fun hsp => (h'.tags hsp).trans (h.tags hsp)⟩
  obtain ⟨_, _, _, rfl⟩ := h.rest
  obtain ⟨b, q, g, rfl⟩ := h'.rest
  exact ⟨b, q, g, by cases sp <;> rfl⟩

/-- From `s` to `t` bytes have come to stand in memory `sp` from address `a` on; every other byte of every memory stays. -/
structure State.Puts (sp : Space) (a : Nat) (bs : List Byte) (s t : State) : Prop extends State.Within sp s t where
  bytes : ∀ m k, t.data.byte m k = if m = sp ∧ a ≤ k ∧ k < a + bs.length then bs.getD (k - a) 0 else s.data.byte m k

theorem State.Puts.none (sp : Space) (a : Nat) (s : State) : s.Puts sp a [] s :=
  ⟨.refl sp s, fun _ _ => (if_neg fun h => by obtain ⟨-, hlo, hhi⟩ := h; simp at hhi; omega).symm⟩
theorem State.Puts.append {sp : Space} {a : Nat} {bs cs : List Byte} {s t u : State} (h : s.Puts sp a bs t) (h' : t.Puts sp (a + bs.length) cs u) :
    s.Puts sp a (bs ++ cs) u := by
  refine ⟨h.toWithin.trans h'.toWithin, fun m k => ?_⟩
  rw [h'.bytes, h.bytes, List.length_append]
  by_cases hm : m = sp
  · simp only [hm, true_and]
    by_cases hfirst : k < a + bs.length
    · rw [if_neg (by omega : ¬ (a + bs.length ≤ k ∧ k < a + bs.length + cs.length))]
      refine if_ctx_congr (by omega) (fun hk => ?_) fun _ => rfl
      exact (List.getD_append _ _ _ _ (by omega)).symm
    · rw [if_neg (by omega : ¬ (a ≤ k ∧ k < a + bs.length))]
      refine if_ctx_congr (by omega) (fun hk => ?_) fun _ => rfl
      rw [List.getD_append_right _ _ _ _ (by omega), Nat.sub_sub]
  · simp only [hm, false_and, if_false]

theorem State.puts_write (s : State) (sp : Space) (a : Nat) (r : Run) : s.Puts sp a r.plain (s.write sp a r) := by
  refine ⟨⟨⟨writeBytes (s.data.bytes sp) a (s.data.relative sp a r.plain), poisonMarks sp.grain (s.data.markBase sp) (s.data.poison sp) a r,
    s.data.storeTag, ?_⟩, fun _ => Data.storeTag_write _ _ _ _⟩, fun m k => ?_⟩
  · have htags := s.data.storeTag_write sp a r
    change s.write sp a r = { s with data := { s.data.write sp a r with storeTag := s.data.storeTag } }
    rw [← htags]
    rfl
  · rw [Run.plain, List.length_map, ← Run.plain]
    by_cases hm : m = sp
    · subst hm
      simp only [true_and]
      exact s.data.byte_write m a r k
    · rw [if_neg fun h => hm h.1]
      exact s.data.byte_write_other a r k hm
/-- A store's regions take their tags as well (R204). -/
theorem State.puts_storeWrite (s : State) (die inst a : Nat) (r : Run) : s.Puts .store (storeAt die a) r.plain (s.storeWrite die inst a r) := by
  obtain ⟨⟨_, htags⟩, hbytes⟩ := s.puts_write .store (storeAt die a) r
  exact ⟨⟨⟨_, _, _, rfl⟩, fun h => absurd rfl h⟩, hbytes⟩

section
variable {sp : Space} {s t : State} (h : s.Within sp t)
include h

theorem State.Within.access (p a : Nat) : t.access p a = s.access p a := by
  obtain ⟨_, _, _, rfl⟩ := h.rest
  rfl
theorem State.Within.part (q : Nat) : t.part q = s.part q := by
  obtain ⟨_, _, _, rfl⟩ := h.rest
  rfl
theorem State.Within.se : t.se = s.se := by
  obtain ⟨_, _, _, rfl⟩ := h.rest
  rfl
theorem State.Within.host : t.data.host = s.data.host := by
  obtain ⟨_, _, _, rfl⟩ := h.rest
  cases sp <;> rfl

end

/-- Of the memories only the device's changes. -/
theorem State.Within.dev {s t : State} (h : s.Within .dev t) : ({ t.data with dev := s.data.dev, devP := s.data.devP } : Data) = s.data := by
  have htags := h.tags (by decide)
  obtain ⟨_, _, _, rfl⟩ := h.rest
  change _ = s.data.storeTag at htags
  simp only at htags
  rw [htags]
  rfl

/-! ## Ranges in pieces -/

/-- A property of ranges cut at multiples holds when it holds of the empty range and of a piece with the range behind it. -/
theorem cut_induction {g : Nat} (hg : 0 < g) {P : Nat → Nat → List (Nat × Nat) → Prop} (nil : ∀ a, P a 0 [])
    (cons : ∀ a m n l, 0 < m → P (a + m) n l → P a (m + n) ((a, m) :: l)) (a n : Nat) : P a n (cut g a n) := by
  have hgo : ∀ fuel a n, n = 0 ∨ a % g + n ≤ fuel * g → P a n (cutGo g fuel a n) := by
    intro fuel
    induction fuel with
    | zero =>
      intro a n hfuel
      obtain rfl : n = 0 := by omega
      exact nil a
    | succ fuel ih =>
      intro a n hfuel
      unfold cutGo
      split
      · next hn =>
        subst hn
        exact nil a
      · next hn =>
        have hmod := Nat.mod_lt a hg
        have hrest := cons a (min n (g - a % g)) _ _ (by omega) (ih (a + min n (g - a % g)) (n - min n (g - a % g)) ?_)
        · rwa [Nat.add_sub_cancel' (Nat.min_le_left _ _)] at hrest
        · by_cases hlast : n ≤ g - a % g
          · exact .inl (by omega)
          · have hnext : (a + (g - a % g)) % g = 0 := by
              rw [← Nat.add_sub_assoc hmod.le, Nat.sub_add_comm (Nat.mod_le a g), Nat.add_mod_right]
              exact Nat.mod_eq_zero_of_dvd (Nat.dvd_sub_mod a)
            rw [Nat.succ_mul] at hfuel
            rw [Nat.min_eq_right (by omega), hnext]
            exact .inr (by omega)
  refine hgo _ a n (.inr ?_)
  have hmod := Nat.mod_lt a hg
  have hdiv := Nat.div_add_mod n g
  have hrem := Nat.mod_lt n hg
  rw [Nat.add_mul, Nat.mul_comm (n / g)]
  omega

theorem Data.read_append (d : Data) (sp : Space) (a m n : Nat) : d.read sp a m ++ d.read sp (a + m) n = d.read sp a (m + n) := by
  have hsplit := List.take_append_drop m (d.read sp a (m + n))
  rwa [Data.read_take _ _ _ _ _ (Nat.le_add_right m n), Data.read_drop, Nat.add_sub_cancel_left] at hsplit

/-! ## Accesses that are served -/

theorem State.updGuard_none {s : State} {p : Nat} (a n : Nat) (h : noGuards s p) : s.updGuard p a n = none := by
  unfold State.updGuard
  refine lookupBy_eq_none fun f hf => ?_
  have hop := h f hf
  simp [Nat.not_le.mpr hop]
theorem State.attendGuard_free {s : State} {p : Nat} (a n : Nat) (h : noGuards s p) : s.attendGuard p a n = none :=
  State.attendGuard_none a n fun f hf hop => by have hlow := h f hf; omega

/-- A range of device memory below the host window, all of it present and on. -/
def State.devServed (s : State) (p a n : Nat) : Prop := ∀ k, k < n → a + k < hostBase ∧ s.access p (a + k) = .ok

theorem State.devServed.first {s : State} {p a n : Nat} (h : s.devServed p a n) (hn : 0 < n) : a < hostBase ∧ s.access p a = .ok := h 0 hn
theorem State.devServed.left {s : State} {p a m n : Nat} (h : s.devServed p a (m + n)) : s.devServed p a m := fun k hk => h k (by omega)
theorem State.devServed.right {s : State} {p a m n : Nat} (h : s.devServed p a (m + n)) : s.devServed p (a + m) n := fun k hk => by
  rw [Nat.add_assoc]
  exact h (m + k) (by omega)

theorem State.agentRead_served {s : State} {w : Who} {a n : Nat} (h : s.devServed w.p a n) (hfree : noGuards s w.p) :
    s.agentRead w a n = (s.data.read .dev a n, none, s) := by
  unfold State.agentRead
  refine cut_induction (reqUnit_pos a) (P := fun a n l => s.devServed w.p a n → State.agentReadGo w l s = (s.data.read .dev a n, none, s))
    (fun a _ => rfl) (fun a m n l hm ih h => ?_) a n h
  obtain ⟨hlow, hok⟩ := h.left.first hm
  unfold State.agentReadGo
  simp only [hok, State.updGuard_none a m hfree, ih h.right, State.devRead_of_lt _ hlow, Data.read_append]

theorem State.devServed.stay {sp : Space} {s t : State} {p a n : Nat} (h : s.devServed p a n) (ht : s.Within sp t) : t.devServed p a n := fun k hk => by
  rw [ht.access]
  exact h k hk
theorem noGuards.stay {sp : Space} {s t : State} {p : Nat} (h : noGuards s p) (ht : s.Within sp t) : noGuards t p := by
  unfold noGuards
  rw [ht.part]
  exact h

theorem State.agentWrite_served {w : Who} {a : Nat} {r : Run} {s : State} (h : s.devServed w.p a r.length) (hfree : noGuards s w.p) :
    ∃ t, s.agentWrite w a r = (r.length, none, t) ∧ s.Puts .dev a r.plain t := by
  unfold State.agentWrite
  refine cut_induction (reqUnit_pos a) (P := fun a n l => ∀ (r : Run) (s : State), r.length = n → s.devServed w.p a n → noGuards s w.p →
    ∃ t, State.agentWriteGo w l r s = (n, none, t) ∧ s.Puts .dev a r.plain t) (fun a r s hr _ _ => ?_) (fun a m n l hm ih r s hr h hfree => ?_)
    a r.length r s rfl h hfree
  · rw [List.eq_nil_of_length_eq_zero hr]
    exact ⟨s, rfl, .none .dev a s⟩
  · obtain ⟨hlow, hok⟩ := h.left.first hm
    have hput := s.puts_write .dev a (r.take m)
    have hlen : (Run.plain (r.take m)).length = m := by simp [Run.plain, hr]
    obtain ⟨t, ht, hrest⟩ := ih (r.drop m) (s.write .dev a (r.take m)) (by simp [hr]) (h.right.stay hput.toWithin) (noGuards.stay hfree hput.toWithin)
    refine ⟨t, ?_, ?_⟩
    · unfold State.agentWriteGo
      simp only [hok, State.attendGuard_free a m hfree, State.devWrite_of_lt _ hlow, ht]
    · have hall := hput.append (bs := Run.plain (r.take m)) (by rwa [hlen])
      rwa [Run.plain, Run.plain, ← List.map_append, List.take_append_drop] at hall

theorem State.storeRead_served {s : State} (w : Who) {die inst a n : Nat}
    (h : ∀ k, k < n → tget 0 s.data.storeTag (storeTagKey die ((a + k) / 16384)) = inst + 1) :
    s.storeRead w die inst a n = (s.data.read .store (storeAt die a) n, s) := by
  unfold State.storeRead
  refine cut_induction (by decide) (P := fun a n l => (∀ k, k < n → tget 0 s.data.storeTag (storeTagKey die ((a + k) / 16384)) = inst + 1) →
    State.storeReadGo w die inst l s = (s.data.read .store (storeAt die a) n, s)) (fun a _ => rfl) (fun a m n l hm ih h => ?_) a n h
  have hfirst := h 0 (by omega)
  rw [Nat.add_zero] at hfirst
  have hrest := ih fun k hk => by
    rw [Nat.add_assoc]
    exact h (m + k) (by omega)
  unfold State.storeReadGo
  simp only [hfirst, if_true, hrest]
  have hnext : storeAt die (a + m) = storeAt die a + m := (Nat.add_assoc _ _ _).symm
  rw [hnext]
  exact congrArg (·, s) (s.data.read_append .store _ m n)

/-! ## Operands -/

section
variable {s : State} {w : Who} {o : Opnd} {sp : Space} {base stride rows n r : Nat} (hplace : opndPlace o = some (sp, base))
  (hfree : noGuards s w.p) (hr : r < rows)
include hplace hfree hr

/-- A row of a served source is read as it stands in its memory. -/
theorem State.opndRead_served (hscalar : ∀ e, o ≠ .scalar e) (h : opndServed s w.p true o stride rows n) :
    s.opndRead w o (r * stride) n = (s.data.read sp (base + r * stride) n, .all, s) := by
  cases o with
  | core k x => cases hplace; rw [coreAt, Nat.add_assoc]; rfl
  | sram k x => cases hplace; rw [sramAt, Nat.add_assoc]; rfl
  | link q sl x => cases hplace; rw [stagingAt, Nat.add_assoc]; rfl
  | store die inst x lim =>
    cases hplace
    rw [storeAt, Nat.add_assoc]
    simp only [State.opndRead, State.storeRead_served w fun k hk => h r k hr hk rfl]
    rfl
  | scalar e => exact absurd rfl (hscalar e)
  | dev x =>
    cases hplace
    simp only [State.opndRead, State.agentRead_served (fun k hk => h r k hr hk) hfree]
  | _ => cases hplace

/-- A row written to a served destination stands there. -/
theorem State.opndWrite_served {x : Run} (hx : x.length = n) (h : opndServed s w.p false o stride rows n) :
    ∃ t, s.opndWrite w o (r * stride) x = (n, .all, t) ∧ s.Puts sp (base + r * stride) x.plain t := by
  cases o with
  | core k y => cases hplace; rw [coreAt, Nat.add_assoc, ← hx]; exact ⟨_, rfl, s.puts_write _ _ _⟩
  | sram k y => cases hplace; rw [sramAt, Nat.add_assoc, ← hx]; exact ⟨_, rfl, s.puts_write _ _ _⟩
  | link q sl y => cases hplace; rw [stagingAt, Nat.add_assoc, ← hx]; exact ⟨_, rfl, s.puts_write _ _ _⟩
  | store die inst y lim => cases hplace; rw [storeAt, Nat.add_assoc, ← hx]; exact ⟨_, rfl, s.puts_storeWrite _ _ _ _⟩
  | scalar e => cases hplace; rw [← hx]; exact ⟨_, rfl, s.puts_write _ _ _⟩
  | dev y =>
    cases hplace
    subst hx
    obtain ⟨t, ht, hput⟩ := State.agentWrite_served (r := x) (fun k hk => h r k hr hk) hfree
    refine ⟨t, ?_, hput⟩
    simp only [State.opndWrite, ht]
  | _ => cases hplace

end

/-! ## Rows one after another -/

/-- What a copy between memories keeps from row to row: both sides served and unguarded, at most one of them in an activation store, no row's
destination among the sources of the rows behind it, and the destination rows apart from each other. -/
structure State.Copies (s : State) (w : Who) (d : StreamDesc) (src dst : Opnd) (sm dm : Space) (sa da : Nat) : Prop where
  source : opndPlace src = some (sm, sa)
  dest : opndPlace dst = some (dm, da)
  notScalar : ∀ e, src ≠ .scalar e
  stores : ¬ (sm = .store ∧ dm = .store)
  free : noGuards s w.p
  reads : opndServed s w.p true src d.srcStride d.rows d.rowBytes
  writes : opndServed s w.p false dst d.dstStride d.rows d.rowBytes
  apart : sm = dm → ∀ r k r' k', r < r' → r' < d.rows → k < d.rowBytes → k' < d.rowBytes → sa + r' * d.srcStride + k' ≠ da + r * d.dstStride + k
  fits : d.rows = 1 ∨ d.rowBytes ≤ d.dstStride

/-- From `s` to `t` the rows `[lo, lo + n)` have come to stand at the destination; every other byte of every memory stays. -/
structure State.Copied (d : StreamDesc) (sm dm : Space) (sa da lo n : Nat) (s t : State) : Prop extends State.Within dm s t where
  moved : ∀ r k, lo ≤ r → r < lo + n → k < d.rowBytes → t.data.byte dm (da + r * d.dstStride + k) = s.data.byte sm (sa + r * d.srcStride + k)
  kept : ∀ m x, (m = dm → ∀ r k, lo ≤ r → r < lo + n → k < d.rowBytes → x ≠ da + r * d.dstStride + k) → t.data.byte m x = s.data.byte m x

section
variable {s : State} {w : Who} {d : StreamDesc} {src dst : Opnd} {sm dm : Space} {sa da : Nat}

theorem State.Copies.stay {t : State} (h : s.Copies w d src dst sm dm sa da) (ht : s.Within dm t) : t.Copies w d src dst sm dm sa da := by
  refine { h with free := noGuards.stay h.free ht, reads := ?_, writes := ?_ }
  · have hreads := h.reads
    have hsource := h.source
    intro r k hr hk
    cases src with
    | dev x =>
      dsimp only
      rw [ht.access]
      exact hreads r k hr hk
    | store die inst x lim =>
      cases hsource
      dsimp only
      rw [ht.tags fun hdm => h.stores ⟨rfl, hdm⟩]
      exact hreads r k hr hk
    | _ => trivial
  · have hwrites := h.writes
    intro r k hr hk
    cases dst with
    | dev x =>
      dsimp only
      rw [ht.access]
      exact hwrites r k hr hk
    | store die inst x lim => exact nofun
    | _ => trivial

/-- One row of a linear move: what it writes, and the rest of the move behind it. -/
theorem State.moveLinear_row (h : s.Copies w d src dst sm dm sa da) (hpos : 0 < d.rowBytes) {r : Nat} (hr : r < d.rows) (fuel n : Nat) :
    ∃ t, s.Puts dm (da + r * d.dstStride) (s.data.read sm (sa + r * d.srcStride) d.rowBytes).plain t ∧
      State.moveLinear w d src dst (fuel + 1) (r * d.rowBytes) (d.rowBytes + n) s =
        let x := State.moveLinear w d src dst fuel ((r + 1) * d.rowBytes) n t
        (d.rowBytes + x.1, x.2.1, x.2.2) := by
  have hread := State.opndRead_served h.source h.free hr h.notScalar h.reads
  obtain ⟨t, hwrite, hput⟩ := State.opndWrite_served (x := s.data.read sm (sa + r * d.srcStride) d.rowBytes) h.dest h.free hr (Data.length_read _ _ _ _) h.writes
  refine ⟨t, hput, ?_⟩
  have hdest := h.dest
  have hsource := h.source
  rw [State.moveLinear, if_neg (by omega)]
  extract_lets row o m
  have hrow : row = r := Nat.mul_div_cancel _ hpos
  have ho : o = 0 := Nat.mul_mod_left _ _
  have hm : m = d.rowBytes := by omega
  clear_value row o m
  subst hrow ho hm
  split
  next x rm t1 h1 =>
  have h1' : s.opndRead w src (row * d.srcStride) d.rowBytes = (x, rm, t1) := by
    split at h1
    · cases hsource
    · exact h1
  rw [hread] at h1'
  cases h1'
  split
  next k wm t2 h2 =>
  have h2' : s.opndWrite w dst (row * d.dstStride) (s.data.read sm (sa + row * d.srcStride) d.rowBytes) = (k, wm, t2) := by
    split at h2
    · cases hdest
    · exact h2
  rw [hwrite] at h2'
  cases h2'
  extract_lets se t3
  have ht3 : t3 = t := by
    unfold t3
    split
    · cases hsource
    · rfl
  clear_value t3
  subst ht3
  rw [if_neg (not_not.mpr rfl), if_neg (not_not.mpr rfl), if_neg (Nat.lt_irrefl _), ← Nat.succ_mul, Nat.add_sub_cancel_left]

/-- A row that stands at its place, and the rows behind it. -/
theorem State.Copied.cons {t v : State} {r n : Nat} (h : s.Copies w d src dst sm dm sa da) (hr : r + (n + 1) ≤ d.rows)
    (hput : s.Puts dm (da + r * d.dstStride) (s.data.read sm (sa + r * d.srcStride) d.rowBytes).plain t) (hrest : t.Copied d sm dm sa da (r + 1) n v) :
    s.Copied d sm dm sa da r (n + 1) v := by
  have hlen : (s.data.read sm (sa + r * d.srcStride) d.rowBytes).plain.length = d.rowBytes := by simp [Run.plain]
  have hbytes := hput.bytes
  rw [hlen] at hbytes
  refine ⟨hput.toWithin.trans hrest.toWithin, fun i k hlo hhi hk => ?_, fun m x hx => ?_⟩
  · obtain rfl | hlt := Nat.eq_or_lt_of_le hlo
    · rw [hrest.kept, hbytes, if_pos ⟨rfl, by omega, by omega⟩, Nat.add_sub_cancel_left, Data.getD_plain_read _ _ _ hk]
      intro _ j q hj hj' _
      have hstride : d.rowBytes ≤ d.dstStride := h.fits.resolve_left (by omega)
      have hnext : (r + 1) * d.dstStride ≤ j * d.dstStride := Nat.mul_le_mul_right _ hj
      rw [Nat.succ_mul] at hnext
      omega
    · rw [hrest.moved i k hlt (by omega) hk, hbytes, if_neg]
      rintro ⟨hspace, hfrom, hto⟩
      exact h.apart hspace r (sa + i * d.srcStride + k - (da + r * d.dstStride)) i k hlt (by omega) (by omega) hk (by omega)
  · rw [hrest.kept, hbytes, if_neg]
    · rintro ⟨hspace, hfrom, hto⟩
      exact hx hspace r (x - (da + r * d.dstStride)) (Nat.le_refl r) (by omega) (by omega) (by omega)
    · exact fun hspace i k hlo hhi hk => hx hspace i k (by omega) (by omega) hk

/-- A linear move of the rows from one on goes through (R332). -/
theorem State.moveLinear_rows (hpos : 0 < d.rowBytes) (n : Nat) : ∀ {s : State} {r : Nat} (fuel : Nat), s.Copies w d src dst sm dm sa da → r + n = d.rows →
    ∃ t, s.Copied d sm dm sa da r n t ∧ State.moveLinear w d src dst (fuel + n) (r * d.rowBytes) (n * d.rowBytes) s = (n * d.rowBytes, .all, t) := by
  induction n with
  | zero =>
    intro s r fuel h hr
    refine ⟨s, ⟨.refl dm s, fun i k hlo hhi _ => by omega, fun _ _ _ => rfl⟩, ?_⟩
    rw [Nat.zero_mul]
    cases fuel <;> rfl
  | succ n ih =>
    intro s r fuel h hr
    obtain ⟨t, hput, hrow⟩ := State.moveLinear_row h hpos (r := r) (by omega) (fuel + n) (n * d.rowBytes)
    obtain ⟨v, hrest, hmove⟩ := ih fuel (h.stay hput.toWithin) (r := r + 1) (by omega)
    refine ⟨v, .cons h (by omega) hput hrest, ?_⟩
    rw [Nat.succ_mul, Nat.add_comm (n * d.rowBytes), ← Nat.add_assoc, hrow, hmove]

/-- The move of a whole stream between memories. -/
theorem State.moveLinear_whole (h : s.Copies w d src dst sm dm sa da) (hpos : 0 < d.rowBytes) :
    ∃ t, s.Copied d sm dm sa da 0 d.rows t ∧ State.moveLinear w d src dst (d.rows + 2) 0 d.length s = (d.length, .all, t) := by
  obtain ⟨t, hcopied, hmove⟩ := State.moveLinear_rows hpos d.rows (r := 0) 2 h (Nat.zero_add _)
  rw [Nat.zero_mul, Nat.add_comm 2] at hmove
  exact ⟨t, hcopied, hmove⟩

end

end Sys2Proof.Machine
end

section
/-! The issue of a stream action: its record, its flight, and the engines that wait for its engine (R334, R341, R342, R350). -/
namespace Sys2Proof.Machine

open Sys2Proof

/-! ## Numbers of stream engines (R328) -/

theorem agNum_stream {e : Nat} (he : e < 48) : agNum (0x10000000 + e) = e := by
  unfold agNum bits
  rw [Nat.shiftRight_zero]
  omega

/-! ## The record of an issue -/

theorem lookupBy_append {α : Type} {p : α → Bool} {l : List α} (h : lookupBy p l = none) (l' : List α) : lookupBy p (l ++ l') = lookupBy p l' := by
  induction l with
  | nil => rfl
  | cons x l ih =>
    unfold lookupBy at h
    split at h
    · cases h
    · next hx =>
      rw [List.cons_append, lookupBy, if_neg hx]
      exact ih h
theorem of_lookupBy_eq_none {α : Type} {p : α → Bool} {l : List α} (h : lookupBy p l = none) : ∀ x ∈ l, p x = false := by
  induction l with
  | nil => exact nofun
  | cons x l ih =>
    unfold lookupBy at h
    split at h
    · cases h
    · next hx => exact List.forall_mem_cons.mpr ⟨Bool.eq_false_iff.mpr hx, ih h⟩

theorem mem_tset {α : Type} [DecidableEq α] {d v : α} {t : Tab α} {k : Nat} {x : Nat × α} (h : x ∈ tset d t k v) : x = (k, v) ∨ x ∈ t := by
  unfold tset at h
  split at h
  · exact .inr (List.mem_filter.mp h).1
  · exact mem_tput h

/-- A context names its agent's binding. -/
theorem Part.ctx_bind {x : Part} {p a : Nat} {c : Ctx} (h : x.ctx p a = some c) : x.image.binding a = some c.bind := by
  unfold Part.ctx at h
  split at h
  · next hb =>
    split at h
    · dsimp only at h
      split at h
      · cases h
      · cases h; exact hb
    · dsimp only at h
      split at h
      · cases h
      · cases h; exact hb
  · cases h

theorem Frz.ahead_of_open {x : Part} {cyc : Nat} (h : x.open? cyc = true) : x.frz.ahead = true := by
  unfold Part.open? at h
  cases hfrz : x.frz with
  | no => rfl
  | pending b => rfl
  | stopped b => simp [hfrz] at h
  | thawing b => simp [hfrz] at h

/-- Issue changes the sequencers and token counters of its partition. -/
theorem State.part_issued (u : State) (c : Ctx) : ∃ sq tk, (u.issued c).part c.p = { u.part c.p with seqs := sq, toks := tk } := by
  have hstep : (u.step1 c).part c.p = (u.part c.p).advance c (c.idx + 1) id := State.part_modPart _ _ _
  unfold State.issued State.takeToken
  split
  · rw [hstep]
    exact ⟨_, _, rfl⟩
  · rw [State.part_modPart, hstep]
    exact ⟨_, _, rfl⟩
/-- And no other part of the machine. -/
theorem State.issued_rest (u : State) (c : Ctx) : ∃ ps, u.issued c = { u with parts := ps } := by
  unfold State.issued State.takeToken State.step1
  split <;> exact ⟨_, rfl⟩

/-- The record of a stream action at its issue (R350). -/
def Ctx.streamRec (c : Ctx) (op p forme : Nat) (b : List Byte) : StreamRec :=
  { StreamRec.zero with
    state := 1, partition := p, formeId := forme, opId := (StreamDesc.parse b).opId, action := c.idx, epoch := c.epoch,
    length := (StreamDesc.parse b).length, blockAction := 0xFFFF, desc := b, kindOp := op, iter := c.iter, issue := c.point }
/-- Its flight, with the resources that it owns (R335). -/
def Ctx.streamFlight (c : Ctx) (forme : Nat) (b : List Byte) (src dst : Opnd) : Flight :=
  { flightOf c (StreamDesc.parse b).opId ((StreamDesc.parse b).resources src dst) with forme := forme }

/-- The state from which the engine of a record that has passed its checks runs it. -/
def State.streamBegun (u : State) (op p e : Nat) (c : Ctx) (b : List Byte) (src dst : Opnd) : State :=
  let s := (u.issued c).addFlight p (flightOf c (StreamDesc.parse b).opId ((StreamDesc.parse b).resources src dst))
  ((s.setRec e (c.streamRec op p (u.part p).cur b)).clearPipe e).refreshWaits e

theorem State.part_addFlight (s : State) (p : Nat) (f : Flight) :
    (s.addFlight p f).part p = { s.part p with flights := (s.part p).flights ++ [{ f with forme := (s.part p).cur }] } := State.part_modPart _ _ _
/-- An engine whose record and pipe begin anew, and the engines that wait for it: only stream engines change. -/
theorem State.rec_begun (v : State) (e : Nat) (r : StreamRec) : ∃ se, ((v.setRec e r).clearPipe e).refreshWaits e = { v with se := se } := ⟨_, rfl⟩

theorem State.srec_clearPipe (s : State) (e k : Nat) : (s.clearPipe e).srec k = s.srec k := rfl
theorem State.streamBegun_part (u : State) (op p e : Nat) (c : Ctx) (b : List Byte) (src dst : Opnd) (q : Nat) :
    (u.streamBegun op p e c b src dst).part q =
      ((u.issued c).addFlight p (flightOf c (StreamDesc.parse b).opId ((StreamDesc.parse b).resources src dst))).part q := by
  unfold State.streamBegun
  dsimp only
  obtain ⟨se, hse⟩ := State.rec_begun ((u.issued c).addFlight p (flightOf c (StreamDesc.parse b).opId ((StreamDesc.parse b).resources src dst))) e
    (c.streamRec op p (u.part p).cur b)
  rw [hse]
  rfl
/-- Only partitions and stream engines change at the issue. -/
theorem State.streamBegun_rest (u : State) (op p e : Nat) (c : Ctx) (b : List Byte) (src dst : Opnd) :
    ∃ ps se, u.streamBegun op p e c b src dst = { u with parts := ps, se := se } := by
  unfold State.streamBegun
  dsimp only
  obtain ⟨se, hse⟩ := State.rec_begun ((u.issued c).addFlight p (flightOf c (StreamDesc.parse b).opId ((StreamDesc.parse b).resources src dst))) e
    (c.streamRec op p (u.part p).cur b)
  obtain ⟨ps, hps⟩ := u.issued_rest c
  rw [hse, hps]
  exact ⟨_, se, rfl⟩

theorem State.streamFlight_of {s : State} {e : Nat} {l : List Flight} {f : Flight} (hstate : (s.srec e).state ≠ 0)
    (hflights : (s.part (s.srec e).partition).flights = l ++ [f]) (hidle : ∀ g ∈ l, g.agent ≠ 0x10000000 + e) (hagent : f.agent = 0x10000000 + e)
    (haction : f.action = (s.srec e).action) : s.streamFlight e = some f := by
  unfold State.streamFlight
  dsimp only
  rw [if_neg hstate, hflights, lookupBy_append (lookupBy_eq_none fun g hg => by simp [hidle g hg])]
  simp [lookupBy, hagent, haction]

theorem exec_streamRows {op p a : Nat} {i : Instr} (h : (op, i) ∈ [(0x40, Instr.streamCopy p a), (0x41, .park p a), (0x42, .unpark p a)]) (s : State) :
    exec i s = .next (s.issueStream op p a) := by
  simp only [List.mem_cons, Prod.mk.injEq, List.not_mem_nil, or_false] at h
  obtain ⟨rfl, rfl⟩ | ⟨rfl, rfl⟩ | ⟨rfl, rfl⟩ := h <;> rfl

end Sys2Proof.Machine
end

section
/-! From the checks of a stream record to the state from which its engine runs it. -/
open Sys2Proof Sys2Proof.Machine

section
variable {s u : State} {op p e : Nat} {c : Ctx} {b : List Byte} {src dst : Opnd} (he : e < 48) (h : StreamIssues s u op p e c b src dst)
include he h

theorem StreamIssues.runs : s.issueStream op p (0x10000000 + e) = (u.streamBegun op p e c b src dst).runStream e c.point := by
  obtain ⟨hb, rfl, rfl, hdue, rfl, htoken, hgood, hfree, howned⟩ := h
  unfold State.issueStream
  rw [hdue]
  simp only [hb, agNum_stream he]
  exact State.issueAction_ok htoken hgood hfree howned

end

section
variable {s u : State} {op p e : Nat} {c : Ctx} {b : List Byte} {src dst : Opnd} (h : StreamIssues s u op p e c b src dst)
include h

theorem StreamIssues.issue : Issues s u op p (0x10000000 + e) c (u.streamValid p e op (StreamDesc.parse b) src dst)
    ((lookupBy (fun f => f.agent == 0x10000000 + e) (u.part p).flights).map (fun f => (0x10000000 + e, f.action)))
    ((StreamDesc.parse b).resources src dst) := h.2.2.2
theorem StreamIssues.drifts : s.Drifts u := by
  rw [h.issue.atPoint]
  exact s.drifts_toCycle p c.point
theorem StreamIssues.opcode : c.r.opcode = op := by
  obtain ⟨-, -, hop, -⟩ := issueCtx_spec h.issue.due
  exact hop

/-- No action of the engine is in flight. -/
theorem StreamIssues.idle : ∀ f ∈ (s.part p).flights, f.agent ≠ 0x10000000 + e := by
  rw [← (h.drifts.2 p).flights]
  have hnone := of_lookupBy_eq_none (Option.map_eq_none_iff.mp h.issue.free)
  exact fun f hf => beq_eq_false_iff_ne.mp (hnone f hf)

/-- Issue has not passed a freeze boundary. -/
theorem StreamIssues.ahead : (u.part p).frz.ahead = true := by
  obtain ⟨-, -, -, hopen⟩ := issueCtx_spec h.issue.due
  unfold State.openAt at hopen
  rw [Bool.and_eq_true] at hopen
  obtain ⟨hopen, -⟩ := hopen
  have hflows := s.flows_toCycle p c.point
  rw [← h.issue.atPoint] at hflows
  exact (hflows.frz p).ahead (Frz.ahead_of_open hopen)

/-- What the partition is from which the engine runs. -/
theorem StreamIssues.begunPart : ∃ sq tk, (u.streamBegun op p e c b src dst).part p = { u.part p with
    seqs := sq, toks := tk, flights := (s.part p).flights ++ [c.streamFlight (u.part p).cur b src dst] } := by
  obtain ⟨hp, -⟩ := issueCtx_owner h.issue.due
  subst hp
  obtain ⟨sq, tk, hissued⟩ := u.part_issued c
  refine ⟨sq, tk, ?_⟩
  rw [State.streamBegun_part, State.part_addFlight, hissued, ← (h.drifts.2 c.p).flights]
  rfl

theorem StreamIssues.begunFlights :
    ((u.streamBegun op p e c b src dst).part p).flights = (s.part p).flights ++ [c.streamFlight (u.part p).cur b src dst] := by
  obtain ⟨_, _, hpart⟩ := h.begunPart
  rw [hpart]

/-- The records of the engines that wait for this one name its new action. -/
theorem StreamIssues.begunRecs (k : Nat) : (u.streamBegun op p e c b src dst).srec k =
    (if k = e then c.streamRec op p (u.part p).cur b else s.srec k).refreshed e c.idx := by
  have hidle := h.idle
  obtain ⟨hp, hagent⟩ := issueCtx_owner h.issue.due
  have hflights := h.begunFlights
  rw [State.streamBegun_part] at hflights
  obtain ⟨-, -, hse⟩ := State.issued_keeps_vector h.issue.atPoint (c := c)
  unfold State.streamBegun
  generalize hv : (u.issued c).addFlight p (flightOf c (StreamDesc.parse b).opId ((StreamDesc.parse b).resources src dst)) = v at hflights ⊢
  have hvse : v.se = s.se := by
    rw [← hv]
    exact hse
  dsimp only
  have hnew : ((v.setRec e (c.streamRec op p (u.part p).cur b)).clearPipe e).srec e = c.streamRec op p (u.part p).cur b := by
    rw [State.srec_clearPipe, State.srec_setRec]
  have hflight : ((v.setRec e (c.streamRec op p (u.part p).cur b)).clearPipe e).streamFlight e = some (c.streamFlight (u.part p).cur b src dst) := by
    refine State.streamFlight_of ?_ ?_ hidle hagent ?_
    · rw [hnew]
      exact Nat.one_ne_zero
    · rw [hnew]
      exact hflights
    · rw [hnew]
      rfl
  rw [State.srec_refreshWaits, State.namedAction, hflight]
  rw [State.srec_clearPipe, State.setRec_srec]
  unfold State.srec
  rw [hvse]
  rfl

end

end

section
/-! The engine of a stream record at its first move: what it reads of the machine (R334, R350). -/
open Sys2Proof Sys2Proof.Machine

section
variable {s u : State} {op p e : Nat} {c : Ctx} {b : List Byte} {src dst : Opnd} (h : StreamIssues s u op p e c b src dst)
include h

theorem StreamIssues.begunData : (u.streamBegun op p e c b src dst).data = s.data := by
  obtain ⟨-, hdata, -⟩ := h.drifts.frame
  obtain ⟨_, _, hw⟩ := u.streamBegun_rest op p e c b src dst
  rw [hw]
  exact hdata

/-- Its own record is new. -/
theorem StreamIssues.begunRec : (u.streamBegun op p e c b src dst).srec e = c.streamRec op p (u.part p).cur b := by
  rw [h.begunRecs, if_pos rfl]
  exact if_neg fun hwait => Bool.false_ne_true hwait.2.1

theorem StreamIssues.begunFlight : (u.streamBegun op p e c b src dst).streamFlight e = some (c.streamFlight (u.part p).cur b src dst) := by
  obtain ⟨-, hagent⟩ := issueCtx_owner h.issue.due
  refine State.streamFlight_of ?_ ?_ h.idle hagent ?_
  · rw [h.begunRec]
    exact Nat.one_ne_zero
  · rw [h.begunRec]
    exact h.begunFlights
  · rw [h.begunRec]
    rfl

theorem StreamIssues.begunOpnds : (u.streamBegun op p e c b src dst).streamOpnds e = (StreamDesc.parse b, src, dst) := by
  obtain ⟨-, hctx, -⟩ := issueCtx_spec h.issue.due
  obtain ⟨_, _, hpart⟩ := h.begunPart
  have hbind : (u.part p).image.binding (0x10000000 + e) = some c.bind := by
    rw [(h.drifts.2 p).image]
    exact Part.ctx_bind hctx
  have himage : ((u.streamBegun op p e c b src dst).part p).imageOf (u.part p).cur = (u.part p).image := by
    rw [hpart]
    exact if_pos rfl
  have hrec := h.begunRec
  obtain ⟨-, hsrc, hdst, -⟩ := h
  unfold State.streamOpnds
  dsimp only
  rw [hrec]
  dsimp only [Ctx.streamRec]
  rw [himage, hbind]
  exact congrArg (StreamDesc.parse b, ·) (congrArg₂ Prod.mk hsrc hdst)

theorem StreamIssues.begunAhead : ((u.streamBegun op p e c b src dst).part p).frz.ahead = true := by
  obtain ⟨_, _, hpart⟩ := h.begunPart
  rw [hpart]
  exact h.ahead

theorem StreamIssues.begunCacheSet (a : Nat) : (u.streamBegun op p e c b src dst).cacheSetAt p a = u.cacheSetAt p a := by
  obtain ⟨_, _, hpart⟩ := h.begunPart
  unfold State.cacheSetAt
  rw [hpart]
  obtain ⟨_, _, hw⟩ := u.streamBegun_rest op p e c b src dst
  rw [hw]
  rfl

/-- Stream actions guard no range of device memory. -/
theorem StreamIssues.begunFree (hop : op < 0x60) (hfree : noGuards u p) : noGuards (u.streamBegun op p e c b src dst) p := by
  intro f hf
  rw [h.begunFlights, List.mem_append, List.mem_singleton] at hf
  obtain hf | rfl := hf
  · rw [← (h.drifts.2 p).flights] at hf
    exact hfree f hf
  · exact lt_of_eq_of_lt h.opcode hop

/-- A stream action past its checks (R334, R350). -/
theorem StreamIssues.begins {i : Instr} (he : e < 48)
    (hrow : (op, i) ∈ [(0x40, Instr.streamCopy p (0x10000000 + e)), (0x41, .park p (0x10000000 + e)), (0x42, .unpark p (0x10000000 + e))]) :
    exec i s = .next ((u.streamBegun op p e c b src dst).runStream e c.point) := by
  rw [exec_streamRows hrow, h.runs he]

end

theorem opndServed.of_eq {u v : State} {p : Nat} {source : Bool} {o : Opnd} {stride rows n : Nat} (h : opndServed u p source o stride rows n)
    (haccess : ∀ a, v.access p a = u.access p a) (htags : v.data.storeTag = u.data.storeTag) : opndServed v p source o stride rows n := by
  intro r k hr hk
  have hrow := h r k hr hk
  cases o with
  | dev x =>
    dsimp only at hrow ⊢
    rwa [haccess]
  | store die inst x lim =>
    dsimp only at hrow ⊢
    rwa [htags]
  | _ => trivial

/-- A single row stands where its operand says, whatever the stride. -/
theorem opndServed.single {u : State} {p : Nat} {source : Bool} {o : Opnd} {n : Nat} (h : opndServed u p source o 0 1 n) (stride : Nat) :
    opndServed u p source o stride 1 n := by
  intro r k hr hk
  obtain rfl : r = 0 := by omega
  rw [Nat.zero_mul, ← Nat.zero_mul 0]
  exact h 0 k hr hk

theorem opndServed.begun {u : State} {p : Nat} {source : Bool} {o : Opnd} {stride rows n : Nat} (h : opndServed u p source o stride rows n)
    (op e : Nat) (c : Ctx) (b : List Byte) (src dst : Opnd) : opndServed (u.streamBegun op p e c b src dst) p source o stride rows n := by
  obtain ⟨_, _, hw⟩ := u.streamBegun_rest op p e c b src dst
  rw [hw]
  exact h.of_eq (fun _ => rfl) rfl

end

section
/-! STREAM_COPY between memories: the engine moves the whole stream at its first turn (R332, R339). -/
namespace Sys2Proof.Machine

open Sys2Proof

/-! ## Around a move -/

theorem State.drifts_askSides (s : State) (w : Who) (d : StreamDesc) (src dst : Opnd) (q0 q1 : Nat) : s.Drifts (s.askSides w d src dst q0 q1) := by
  unfold State.askSides
  extract_lets side
  have hside (t : State) (isDst : Bool) (o : Opnd) : t.Drifts (side t isDst o) := by
    unfold side
    split
    · exact t.drifts_askUnits _ _ _ _
    · exact .refl t
  exact (hside _ _ _).trans (hside _ _ _)
theorem State.drifts_sendFields (s : State) (w : Who) (d : StreamDesc) (src dst : Opnd) (q0 q1 : Nat) : s.Drifts (s.sendFields w d src dst q0 q1) := by
  unfold State.sendFields
  extract_lets side
  have hside (t : State) (toQuad : Bool) (o : Opnd) : t.Drifts (side t toQuad o) := by
    unfold side
    split
    · unfold State.sendDirect
      split
      · exact .refl t
      · exact ⟨⟨_, _, _, _, _, _, _, _, _, _, _, _, rfl⟩, fun _ => .refl _⟩
    · exact .refl t
  exact (hside _ _ _).trans (hside _ _ _)

theorem State.stopAgain_ahead {s : State} {p : Nat} (h : (s.part p).frz.ahead = true) : s.stopAgain p = s := by
  unfold State.stopAgain
  split
  · next hfrz =>
    rw [hfrz] at h
    cases h
  · rfl

/-- The operands of an engine rest on its record and on the formes of its partition. -/
theorem State.streamOpnds_congr {s t : State} {e : Nat} {r r' : StreamRec} (hs : s.srec e = r) (ht : t.srec e = r')
    (hsame : (r'.partition, r'.formeId, r'.desc, r'.iter) = (r.partition, r.formeId, r.desc, r.iter)) (hparts : ∀ q, (s.part q).Drifts (t.part q)) :
    t.streamOpnds e = s.streamOpnds e := by
  simp only [Prod.mk.injEq] at hsame
  obtain ⟨hpart, hforme, hdesc, hiter⟩ := hsame
  have himage : (t.part r.partition).imageOf r.formeId = (s.part r.partition).imageOf r.formeId := by
    have hdrift := hparts r.partition
    unfold Part.imageOf
    rw [hdrift.cur, hdrift.image, hdrift.lastImage, hdrift.resident]
  unfold State.streamOpnds
  dsimp only
  rw [hs, ht, hpart, hforme, hdesc, hiter, himage]

/-! ## The turns of an engine -/

/-- An engine whose stream is at its end moves no more. -/
theorem State.moveStream_ended {s : State} {e : Nat} (cyc : Nat) {x : StreamDesc × Opnd × Opnd} (hopnds : s.streamOpnds e = x)
    (h : x.1.length ≤ (s.srec e).position) : s.moveStream e cyc = (false, s) := by
  obtain ⟨d, src, dst⟩ := x
  unfold State.moveStream
  extract_lets r w
  split
  · rfl
  · rw [hopnds]
    exact if_pos (by simp [r, h])

/-- An engine that moves its whole stream at its first turn, without pipes. -/
theorem State.pump_whole {s t : State} {e cyc : Nat} (hmoves : s.moveStream e cyc = (true, t)) (hended : t.moveStream e cyc = (false, t))
    (hpeers : t.pipePeers e = []) (fuel : Nat) : State.pump cyc (fuel + 4) [e, e] s = t := by
  simp only [State.pump, hmoves, hended, hpeers, List.append_nil, List.cons_append, List.nil_append, if_true, Bool.false_eq_true, if_false]

/-- The state of an engine that has moved a whole stream from `s` to `t`. -/
def State.streamed (t : State) (e : Nat) (w : Who) (d : StreamDesc) (src dst : Opnd) : State :=
  let t := t.setRec e { t.srec e with position := d.length, waiting := false, block := 0, blockAction := 0xFFFF }
  (t.askSides w d src dst 0 d.length).sendFields w d src dst 0 d.length

theorem State.streamed_drifts (t : State) (e : Nat) (w : Who) (d : StreamDesc) (src dst : Opnd) :
    (t.setRec e { t.srec e with position := d.length, waiting := false, block := 0, blockAction := 0xFFFF }).Drifts (t.streamed e w d src dst) :=
  (State.drifts_askSides _ _ _ _ _ _ _).trans (State.drifts_sendFields _ _ _ _ _ _ _)
theorem State.streamed_data (t : State) (e : Nat) (w : Who) (d : StreamDesc) (src dst : Opnd) : (t.streamed e w d src dst).data = t.data := by
  obtain ⟨-, hdata, -⟩ := (t.streamed_drifts e w d src dst).frame
  exact hdata
theorem State.streamed_srec (t : State) (e : Nat) (w : Who) (d : StreamDesc) (src dst : Opnd) :
    (t.streamed e w d src dst).srec e = { t.srec e with position := d.length, waiting := false, block := 0, blockAction := 0xFFFF } := by
  obtain ⟨-, -, -, -, -, -, -, -, hse, -⟩ := (t.streamed_drifts e w d src dst).frame
  unfold State.srec
  rw [hse]
  exact State.srec_setRec _ _ _

theorem State.pipePeers_none {s : State} {e : Nat} {d : StreamDesc} {src dst : Opnd} {x y : Space × Nat} (hopnds : s.streamOpnds e = (d, src, dst))
    (hsource : opndPlace src = some x) (hdest : opndPlace dst = some y) : s.pipePeers e = [] := by
  unfold State.pipePeers
  rw [hopnds]
  dsimp only
  split
  · cases hsource
  · split
    · cases hdest
    · rfl

section
variable {s : State} {e cyc : Nat} {w : Who} {d : StreamDesc} {src dst : Opnd} {sm dm : Space} {sa da : Nat}

theorem isHostAddr_served {p stride rows n : Nat} {source : Bool} {o : Opnd} (h : opndServed s p source o stride rows n) (hrows : 0 < rows) (hn : 0 < n) :
    isHostAddr o = false := by
  have hfirst := h 0 0 hrows hn
  cases o with
  | dev x =>
    obtain ⟨hlow, -⟩ := hfirst
    rw [Nat.zero_mul] at hlow
    exact decide_eq_false (Nat.not_le.mpr hlow)
  | _ => rfl

variable {f : Flight} (hflight : s.streamFlight e = some f) (hopnds : s.streamOpnds e = (d, src, dst)) (hstate : (s.srec e).state = 1)
  (hkind : (s.srec e).kindOp = 0x40) (hpos : (s.srec e).position = 0)
  (hw : w = { p := (s.srec e).partition, cyc := cyc, agent := 0x10000000 + e, action := (s.srec e).action })
  (h : s.Copies w d src dst sm dm sa da) (htrans : d.transpose = false) (hrows : 0 < d.rows) (hbytes : 0 < d.rowBytes)
include hflight hopnds hstate hkind hpos hw h htrans hrows hbytes

/-- The turn that moves all of a copy between memories. -/
theorem State.moveStream_whole : ∃ t, s.Copied d sm dm sa da 0 d.rows t ∧ s.moveStream e cyc = (true, t.streamed e w d src dst) := by
  obtain ⟨t, hcopied, hmove⟩ := State.moveLinear_whole h hbytes
  have hlength : 0 < d.length := Nat.mul_pos hrows hbytes
  have hsource := h.source
  have hdest := h.dest
  refine ⟨t, hcopied, ?_⟩
  unfold State.moveStream
  extract_lets r v
  have hv : v = w := hw.symm
  have hr : r = s.srec e := rfl
  clear_value r v
  subst hv hr
  split
  next hnone => exact absurd (hnone.symm.trans hflight) nofun
  next f' hf =>
  split
  next d' src' dst' hx =>
  cases hopnds.symm.trans hx
  extract_lets avail space pipeOther o act t0
  have havail : avail = d.length := by
    unfold avail
    split
    · cases hsource
    · rw [hpos, Nat.sub_zero]
  have hspace : space = .room d.length := by
    unfold space
    split
    · cases hdest
    · rw [hpos, Nat.sub_zero]
  clear_value avail space pipeOther o act t0
  rw [if_neg (by simp [hstate, hkind, hpos, hlength.ne']), if_neg (by simp [isHostAddr_served h.reads hrows hbytes, isHostAddr_served h.writes hrows hbytes])]
  split
  · cases hspace
  · cases hspace
  next n =>
  cases hspace
  rw [if_neg (by omega)]
  split
  next pos m x hmoved =>
  rw [if_neg (by simp [htrans]), havail, Nat.min_self, hpos, hmove] at hmoved
  cases hmoved
  rw [hpos, Nat.zero_add]
  exact if_neg hlength.ne'

/-- An engine at which no other one waits copies its stream and then rests. -/
theorem State.runStream_copy (hahead : (s.part (s.srec e).partition).frz.ahead = true) (hwaiters : s.waitersOf e = []) :
    ∃ t, s.Copied d sm dm sa da 0 d.rows t ∧ s.runStream e cyc = t.streamed e w d src dst := by
  obtain ⟨t, hcopied, hmoves⟩ := State.moveStream_whole hflight hopnds hstate hkind hpos hw h htrans hrows hbytes
  refine ⟨t, hcopied, ?_⟩
  have hrec : t.srec e = s.srec e := by
    unfold State.srec
    rw [hcopied.se]
  have hopnds' : (t.streamed e w d src dst).streamOpnds e = (d, src, dst) := by
    rw [← hopnds]
    refine State.streamOpnds_congr hrec.symm (t.streamed_srec e w d src dst) rfl fun q => ?_
    rw [← hcopied.part]
    exact (t.streamed_drifts e w d src dst).2 q
  have hended := State.moveStream_ended cyc hopnds' (by rw [State.streamed_srec])
  have hpeers := State.pipePeers_none hopnds h.source h.dest
  have hpeers' := State.pipePeers_none hopnds' h.source h.dest
  obtain ⟨fuel, hfuel⟩ : ∃ fuel, s.pumpFuel = fuel + 4 := ⟨60 + 4 * sumNat (s.se.recs.map (fun x => x.2.length)), by unfold State.pumpFuel; omega⟩
  have hpump := State.pump_whole hmoves hended hpeers' fuel
  have hfrz := (s.moves_pump cyc s.pumpFuel [e, e]).frz (s.srec e).partition
  rw [hfuel, hpump] at hfrz
  unfold State.runStream
  extract_lets r
  split
  next hnone => exact absurd (hnone.symm.trans hflight) nofun
  next f' hf =>
  split
  next d' src' dst' hx =>
  cases hopnds.symm.trans hx
  split
  next h41 => exact absurd (h41.symm.trans hkind) (by decide)
  next h42 => exact absurd (h42.symm.trans hkind) (by decide)
  next =>
  rw [hwaiters, hpeers, List.append_nil, List.singleton_append, hfuel, hpump]
  exact State.stopAgain_ahead (hfrz.ahead hahead)

end

end Sys2Proof.Machine
end

section
/-! From a STREAM_COPY record to the bytes at its destination (R332, R334, R342). -/
namespace Sys2Proof.Machine

open Sys2Proof

/-! ## No engine waits -/

theorem State.waitersOf_nil_iff (s : State) (e : Nat) :
    s.waitersOf e = [] ↔ ∀ x ∈ s.se.recs, ¬ (x.2.state = 1 ∧ x.2.waiting = true ∧ x.2.block = 0x10000000 + e) := by
  unfold State.waitersOf
  rw [List.map_eq_nil_iff, List.filter_eq_nil_iff]
  simp only [Bool.and_eq_true, beq_iff_eq, and_assoc]
/-- A new record that does not wait, and the renewed names in those that do, let no engine wait. -/
theorem State.waitersOf_rec_begun {s : State} {e : Nat} {r : StreamRec} (h : s.waitersOf e = []) (hr : r.waiting = false) :
    (((s.setRec e r).clearPipe e).refreshWaits e).waitersOf e = [] := by
  rw [State.waitersOf_nil_iff] at h ⊢
  have hset : ∀ x ∈ (s.setRec e r).se.recs, ¬ (x.2.state = 1 ∧ x.2.waiting = true ∧ x.2.block = 0x10000000 + e) := by
    intro x hx
    obtain rfl | hx := mem_tset hx
    · exact fun hwait => Bool.false_ne_true (hr.symm.trans hwait.2.1)
    · exact h x hx
  intro x hx
  obtain ⟨y, hy, rfl⟩ := List.mem_map.mp hx
  have hold := hset y hy
  split
  · exact hold
  · exact hold

/-! ## What validity says (R334) -/

theorem opndOf_scalar {m : Image} {b : Binding} {iter kind : Nat} {o : List Byte} {e : Nat} (h : opndOf m b iter kind o = .scalar e) : kind = 5 := by
  unfold opndOf at h
  split at h
  case h_6 => rfl
  case h_4 =>
    unfold slabOpnd at h
    split at h
    · cases h
    · dsimp only at h
      split at h <;> cases h
  case h_11 => cases h
  all_goals split at h <;> cases h

theorem streamValid_copy {s : State} {p e : Nat} {d : StreamDesc} {src dst : Opnd} (h : s.streamValid p e 0x40 d src dst = true) (ht : d.transpose = false) :
    d.srcKind ≠ 5 ∧ 0 < d.rows ∧ 0 < d.rowBytes ∧ (d.rows = 1 ∨ d.rowBytes ≤ d.dstStride) := by
  unfold State.streamValid StreamDesc.dstShape at h
  simp only [ht, if_true, Bool.false_eq_true, if_false, Bool.and_eq_true, Bool.or_eq_true, decide_eq_true_eq] at h
  obtain ⟨⟨⟨⟨⟨⟨hkinds, hfields⟩, -⟩, -⟩, -⟩, -⟩, -⟩ := h
  obtain ⟨⟨⟨hfields, -⟩, hstride⟩, -⟩ := hfields
  obtain ⟨⟨⟨⟨⟨⟨⟨⟨⟨-, hrows⟩, -⟩, hbytes⟩, -⟩, -⟩, -⟩, -⟩, -⟩, -⟩ := hfields
  exact ⟨by omega, hrows, by omega, hstride⟩
theorem streamValid_page {s : State} {p e op : Nat} {d : StreamDesc} {src dst : Opnd} (h : s.streamValid p e op d src dst = true) (hop : op ≠ 0x40) :
    d.rows = 1 ∧ d.rowBytes = 262144 := by
  unfold State.streamValid at h
  simp only [Bool.and_eq_true, Bool.or_eq_true, decide_eq_true_eq] at h
  obtain ⟨⟨⟨⟨-, hpage⟩, -⟩, -⟩, -⟩ := h
  exact hpage.resolve_left hop

/-- Who moves the bytes of a stream record (R336). -/
def Ctx.streamWho (c : Ctx) (p e : Nat) : Who := { p := p, cyc := c.point, agent := 0x10000000 + e, action := c.idx }

end Sys2Proof.Machine
end

section
open Sys2Proof Sys2Proof.Machine

theorem StreamIssues.begunAlone {s u : State} {op p e : Nat} {c : Ctx} {b : List Byte} {src dst : Opnd} (h : StreamIssues s u op p e c b src dst)
    (hwait : noWaiters s e) : (u.streamBegun op p e c b src dst).waitersOf e = [] := by
  obtain ⟨-, -, hse⟩ := State.issued_keeps_vector h.issue.atPoint (c := c)
  refine State.waitersOf_rec_begun ?_ rfl
  have hv : ∀ f, ((u.issued c).addFlight p f).waitersOf e = s.waitersOf e := fun f => by
    unfold State.waitersOf
    rw [← hse]
    rfl
  exact (hv _).trans hwait

section
variable {s u : State} {p e : Nat} {c : Ctx} {b : List Byte} {src dst : Opnd} {sm dm : Space} {sa da : Nat}
  (h : StreamIssues s u 0x40 p e c b src dst) (ht : (StreamDesc.parse b).transpose = false)
  (hsource : opndPlace src = some (sm, sa)) (hdest : opndPlace dst = some (dm, da)) (hstores : ¬ (sm = .store ∧ dm = .store)) (hfree : noGuards u p)
  (hreads : opndServed u p true src (StreamDesc.parse b).srcStride (StreamDesc.parse b).rows (StreamDesc.parse b).rowBytes)
  (hwrites : opndServed u p false dst (StreamDesc.parse b).dstStride (StreamDesc.parse b).rows (StreamDesc.parse b).rowBytes)
  (hapart : sm = dm → ∀ r k r' k', r < (StreamDesc.parse b).rows → k < (StreamDesc.parse b).rowBytes → r' < (StreamDesc.parse b).rows →
    k' < (StreamDesc.parse b).rowBytes → sa + r * (StreamDesc.parse b).srcStride + k ≠ da + r' * (StreamDesc.parse b).dstStride + k')
include h ht hsource hdest hstores hfree hreads hwrites hapart

theorem StreamIssues.copies : (u.streamBegun 0x40 p e c b src dst).Copies (c.streamWho p e) (StreamDesc.parse b) src dst sm dm sa da := by
  have hguards := h.begunFree (by decide) hfree
  have hvalid := h.issue.good
  obtain ⟨-, hsrc, -, -⟩ := h
  obtain ⟨hkind, -, -, hstride⟩ := streamValid_copy hvalid ht
  exact {
    source := hsource
    dest := hdest
    notScalar := fun k hk => hkind (opndOf_scalar (hsrc.trans hk))
    stores := hstores
    free := hguards
    reads := hreads.begun _ _ _ _ _ _
    writes := hwrites.begun _ _ _ _ _ _
    apart := fun hspace r k r' k' hlt hr' hk hk' => hapart hspace r' k' r k hr' hk' (hlt.trans hr') hk
    fits := hstride }

theorem StreamIssues.copied (he : e < 48) (hwait : noWaiters s e) : ∃ t,
    (u.streamBegun 0x40 p e c b src dst).Copied (StreamDesc.parse b) sm dm sa da 0 (StreamDesc.parse b).rows t ∧
      exec (.streamCopy p (0x10000000 + e)) s = .next (t.streamed e (c.streamWho p e) (StreamDesc.parse b) src dst) := by
  obtain ⟨-, hrows, hbytes, -⟩ := streamValid_copy h.issue.good ht
  have hrec := h.begunRec
  have hcopies := h.copies ht hsource hdest hstores hfree hreads hwrites hapart
  obtain ⟨t, hcopied, hrun⟩ := State.runStream_copy h.begunFlight h.begunOpnds (by rw [hrec]; rfl) (by rw [hrec]; rfl) (by rw [hrec]; rfl)
    (by rw [hrec]; rfl) hcopies ht hrows hbytes (by rw [hrec]; exact h.begunAhead) (h.begunAlone hwait)
  refine ⟨t, hcopied, ?_⟩
  rw [h.begins he (.head _), hrun]

end

end

section
/-! PARK and UNPARK: the page that moves, and the entry that does not allow it (R344, R345). -/
namespace Sys2Proof.Machine

open Sys2Proof

/-! ## The move of a page -/

/-- In `m` a page has moved from device address `a` of the memories `d` to `a'`; every other byte is as in `d`, and the record, once `r`, shows the
full length. -/
structure State.PageMoved (e a a' : Nat) (d : Data) (r : StreamRec) (m : State) : Prop where
  bytes : ∀ k, m.devByte k = if a' ≤ k ∧ k < a' + 262144 then d.byte .dev (a + (k - a')) else d.byte .dev k
  rest : ({ m.data with dev := d.dev, devP := d.devP } : Data) = d
  record : m.srec e = { r with position := 262144 }

section
variable {s : State} {e cyc a a' : Nat} (hrows : (StreamDesc.parse (s.srec e).desc).rows = 1) (hbytes : (StreamDesc.parse (s.srec e).desc).rowBytes = 262144)
  (hpos : (s.srec e).position = 0) (hfree : noGuards s (s.srec e).partition) (hreads : opndServed s (s.srec e).partition true (.dev a) 0 1 262144)
  (hwrites : opndServed s (s.srec e).partition false (.dev a') 0 1 262144)
include hrows hbytes hpos hfree hreads hwrites

theorem State.movePage_whole : ∃ m, s.movePage e cyc (.dev a) (.dev a') = (.all, m) ∧ State.PageMoved e a a' s.data (s.srec e) m := by
  unfold State.movePage
  extract_lets r d w
  have hdrows : d.rows = 1 := hrows
  have hdbytes : d.rowBytes = 262144 := hbytes
  have hposr : r.position = 0 := hpos
  have hcopies : s.Copies w d (.dev a) (.dev a') .dev .dev a a' := {
    source := rfl
    dest := rfl
    notScalar := nofun
    stores := by decide
    free := hfree
    reads := by rw [hdrows, hdbytes]; exact opndServed.single hreads _
    writes := by rw [hdrows, hdbytes]; exact opndServed.single hwrites _
    apart := fun _ r k r' k' hlt hr' => by omega
    fits := .inl hrows }
  obtain ⟨t, hcopied, hmove⟩ := State.moveLinear_whole hcopies (by omega)
  have hlength : d.length = 262144 := by rw [StreamDesc.length, hdrows, hdbytes]
  rw [hdrows, hlength] at hmove
  rw [hposr, hlength, hmove]
  clear_value r w
  refine ⟨_, rfl, ?_⟩
  have hdrifts := (t.setRec e { t.srec e with position := 0 + 262144 }).drifts_askSides w d (.dev a) (.dev a') 0 (0 + 262144)
  generalize (t.setRec e { t.srec e with position := 0 + 262144 }).askSides w d (.dev a) (.dev a') 0 (0 + 262144) = m at hdrifts ⊢
  obtain ⟨-, hdata, -, -, -, -, -, -, hse, -⟩ := hdrifts.frame
  have htdata : m.data = t.data := hdata
  refine ⟨fun k => ?_, ?_, ?_⟩
  · unfold State.devByte
    rw [htdata]
    split
    · next hin =>
      have hmoved := hcopied.moved 0 (k - a') (Nat.le_refl 0) (by omega) (by omega)
      rw [Nat.zero_mul, Nat.zero_mul, Nat.add_zero, Nat.add_zero, Nat.add_sub_cancel' hin.1] at hmoved
      exact hmoved
    · next hout =>
      refine hcopied.kept .dev k fun _ r q hlo hhi hq => ?_
      obtain rfl : r = 0 := by omega
      rw [Nat.zero_mul]
      omega
  · rw [htdata]
    exact hcopied.dev
  · unfold State.srec
    rw [hse]
    refine (State.srec_setRec _ _ _).trans ?_
    unfold State.srec
    rw [hcopied.se]

end

/-! ## An entry that does not allow it -/

/-- What a COLLISION of a stream leaves: the record is free, the flight gone (R275). -/
def State.collided (s : State) (e cyc : Nat) (i : BreachInfo) (f : Flight) : State :=
  ((s.breach (s.srec e).partition cyc i).setRec e { (s.breach (s.srec e).partition cyc i).srec e with state := 0 }).dropFlight (s.srec e).partition f

theorem State.collided_moves (s : State) (e cyc : Nat) (i : BreachInfo) (f : Flight) : s.Moves (s.collided e cyc i f) := s.moves_parked e _ cyc i f

/-- A partition without one of its flights; a fill item may end with it. -/
def Part.dropped (x : Part) (f : Flight) : Part := ({ x with flights := x.flights.erase f } : Part).settleFill x.cycle

theorem Part.dropped_flights (x : Part) (f : Flight) : (x.dropped f).flights = x.flights.erase f := Part.settleFill_flights _ _
theorem Part.dropped_causes (x : Part) (f : Flight) : (x.dropped f).causes = x.causes := by
  obtain ⟨_, _, _, _, _, _, hfill⟩ := ({ x with flights := x.flights.erase f } : Part).settleFill_frame x.cycle
  rw [Part.dropped, hfill]

theorem State.part_clearPipe (s : State) (e q : Nat) : (s.clearPipe e).part q = s.part q := rfl
theorem State.dropFlight_part (s : State) (p : Nat) (f : Flight) : (s.dropFlight p f).part p = (s.part p).dropped f := by
  unfold State.dropFlight
  dsimp only
  split
  · rw [State.refreshWaits_part, State.part_clearPipe]
    exact State.part_modPart _ _ _
  · exact State.part_modPart _ _ _
theorem State.dropFlight_data (s : State) (p : Nat) (f : Flight) : (s.dropFlight p f).data = s.data := by
  unfold State.dropFlight
  dsimp only
  split
  · rfl
  · rfl
/-- A free engine stays free when an action leaves it. -/
theorem State.dropFlight_free {s : State} {e : Nat} (h : (s.srec e).state = 0) (p : Nat) (f : Flight) : ((s.dropFlight p f).srec e).state = 0 := by
  unfold State.dropFlight
  dsimp only
  split
  · rw [State.srec_refreshWaits, State.srec_clearPipe, StreamRec.refreshed, if_neg fun hwait => Nat.zero_ne_one (h.symm.trans hwait.1)]
    exact h
  · exact h

theorem State.collided_part {s : State} {e p : Nat} (cyc : Nat) (i : BreachInfo) (f : Flight) (hp : (s.srec e).partition = p) :
    (s.collided e cyc i f).part p = ((s.part p).addCause .breach cyc).dropped f := by
  subst hp
  unfold State.collided
  rw [State.dropFlight_part, State.part_setRec, State.part_breach]

theorem State.collided_data (s : State) (e cyc : Nat) (i : BreachInfo) (f : Flight) : (s.collided e cyc i f).data = s.data := by
  unfold State.collided
  rw [State.dropFlight_data, State.setRec_data, State.breach_data]
theorem State.collided_free (s : State) (e cyc : Nat) (i : BreachInfo) (f : Flight) : ((s.collided e cyc i f).srec e).state = 0 := by
  unfold State.collided
  exact State.dropFlight_free (congrArg StreamRec.state (State.srec_setRec _ _ _)) _ f
theorem State.collided_flights {s : State} {e p : Nat} (cyc : Nat) (i : BreachInfo) {f : Flight} {l : List Flight} (hp : (s.srec e).partition = p)
    (hflights : (s.part p).flights = l ++ [f]) (hf : f ∉ l) : ((s.collided e cyc i f).part p).flights = l := by
  obtain ⟨_, _, hcause⟩ := (s.part p).addCause_frame .breach cyc
  rw [State.collided_part cyc i f hp, Part.dropped_flights, hcause]
  dsimp only
  rw [hflights, List.erase_append_right _ hf, List.erase_cons_head, List.append_nil]
theorem State.collided_cause {s : State} {e p : Nat} (cyc : Nat) (i : BreachInfo) (f : Flight) (hp : (s.srec e).partition = p) :
    Cause.breach ∈ ((s.collided e cyc i f).part p).causes := by
  rw [State.collided_part cyc i f hp, Part.dropped_causes]
  exact (s.part p).addCause_mem .breach cyc

/-! ## The two records from their engine on -/

section
variable {s : State} {e cyc cs slot layer index board : Nat} {d : StreamDesc} {o : Opnd} {f : Flight} (hflight : s.streamFlight e = some f)
include hflight

theorem State.runStream_park (hopnds : s.streamOpnds e = (d, .page cs slot layer index, .dev board)) (hkind : (s.srec e).kindOp = 0x41) :
    s.runStream e cyc = (s.runPark e cyc cs slot layer index board f).stopAgain (s.srec e).partition := by
  unfold State.runStream
  dsimp only
  rw [hflight, hopnds, hkind]
  rfl
theorem State.runStream_unpark (hopnds : s.streamOpnds e = (d, .page cs slot layer index, o)) (hkind : (s.srec e).kindOp = 0x42) :
    s.runStream e cyc = (s.runUnpark e cyc cs slot layer index f).stopAgain (s.srec e).partition := by
  unfold State.runStream
  dsimp only
  rw [hflight, hopnds, hkind]
  rfl

end

section
variable {s : State} {e cyc cs slot layer index board wd : Nat} {set : CacheSet} {ie : Nat × Nat} {f : Flight}
  (hset : s.cacheSetAt (s.srec e).partition cs = set) (hie : s.pageEntry set slot layer index = ie) (hwd : s.fwRead ie.2 8 = wd)
include hset hie hwd

theorem State.runPark_moves {m : State} (hvalid : pteValid wd = true) (hparked : pteParked wd = false)
    (hmove : s.movePage e cyc (.dev (pteAddr wd)) (.dev board) = (.all, m)) :
    s.runPark e cyc cs slot layer index board f = (m.fwWrite ie.2 8 (mkPte true board)).givePage set ie.1 (pteAddr wd) := by
  subst hset hie hwd
  unfold State.runPark
  dsimp only
  rw [if_neg (by simp [hvalid, hparked]), hmove]
theorem State.runPark_collides (h : pteValid wd = false ∨ pteParked wd = true) :
    ∃ i, s.runPark e cyc cs slot layer index board f = s.collided e cyc i f := by
  subst hset hie hwd
  unfold State.runPark
  dsimp only
  rw [if_pos (by simpa using h)]
  exact ⟨_, rfl⟩
theorem State.runUnpark_moves {pg : Nat} {v m : State} (hvalid : pteValid wd = true) (hparked : pteParked wd = true)
    (haccess : s.access (s.srec e).partition (pteAddr wd) = .ok) (htake : s.takePage (s.cacheEng set ie.1) = some (pg, v))
    (hmove : v.movePage e cyc (.dev (pteAddr wd)) (.dev (pteAddr pg)) = (.all, m)) :
    s.runUnpark e cyc cs slot layer index f = m.fwWrite ie.2 8 (mkPte false pg) := by
  subst hset hie hwd
  unfold State.runUnpark
  dsimp only
  rw [if_neg (by simp [hvalid, hparked]), if_neg (by rw [haccess]; decide), htake]
  dsimp only
  rw [hmove]
theorem State.runUnpark_collides (h : pteValid wd = false ∨ pteParked wd = false) :
    ∃ i, s.runUnpark e cyc cs slot layer index f = s.collided e cyc i f := by
  subst hset hie hwd
  unfold State.runUnpark
  dsimp only
  rw [if_pos (by simpa using h.symm)]
  exact ⟨_, rfl⟩

end

end Sys2Proof.Machine
end

section
/-! From a PARK or UNPARK record to the page that has moved (R344, R345). -/
open Sys2Proof Sys2Proof.Machine

section
variable {s u : State} {op p e : Nat} {c : Ctx} {b : List Byte} {src dst : Opnd} (h : StreamIssues s u op p e c b src dst)
include h

/-! ## What firmware reads at the engine's first move -/

theorem StreamIssues.begunDevRead (a n : Nat) : (u.streamBegun op p e c b src dst).devRead a n = s.devRead a n := by
  have hdrifts := h.drifts
  obtain ⟨_, _, hw⟩ := u.streamBegun_rest op p e c b src dst
  rw [hw]
  obtain ⟨_, _, _, _, _, _, _, _, _, _, _, _, rfl⟩ := hdrifts.1
  rfl
theorem StreamIssues.begunFwRead (a n : Nat) : (u.streamBegun op p e c b src dst).fwRead a n = s.fwRead a n := by
  unfold State.fwRead
  rw [h.begunDevRead]
theorem StreamIssues.begunEng (set : CacheSet) (i : Nat) : (u.streamBegun op p e c b src dst).cacheEng set i = s.cacheEng set i := by
  unfold State.cacheEng
  dsimp only
  rw [h.begunDevRead]
theorem StreamIssues.begunEntry (set : CacheSet) (slot layer index : Nat) :
    (u.streamBegun op p e c b src dst).pageEntry set slot layer index = s.pageEntry set slot layer index := by
  unfold State.pageEntry
  dsimp only
  rw [h.begunEng]
theorem StreamIssues.begunFwWrite (a n v : Nat) : ((u.streamBegun op p e c b src dst).fwWrite a n v).data = (s.fwWrite a n v).data := by
  have hdrifts := h.drifts
  obtain ⟨_, _, hw⟩ := u.streamBegun_rest op p e c b src dst
  rw [hw]
  obtain ⟨_, _, _, _, _, _, _, _, _, _, _, _, rfl⟩ := hdrifts.1
  unfold State.fwWrite State.devWrite
  split
  · rfl
  · rfl
/-- The head of a ring is the page that it was before the record. -/
theorem StreamIssues.begunTakePage {eng : CacheEng} {pg : Nat} {v : State} (htake : s.takePage eng = some (pg, v)) :
    ∃ v', (u.streamBegun op p e c b src dst).takePage eng = some (pg, v') ∧ v'.data = v.data ∧ (u.streamBegun op p e c b src dst).Stores v' := by
  unfold State.takePage at htake ⊢
  split at htake
  · cases htake
  · next hring =>
    cases htake
    rw [if_neg hring, h.begunFwRead]
    exact ⟨_, rfl, h.begunFwWrite _ _ _, State.stores_fwWrite _ _ _ _⟩

theorem StreamIssues.begunCacheSetOf (a : Nat) :
    (u.streamBegun op p e c b src dst).cacheSetAt ((u.streamBegun op p e c b src dst).srec e).partition a = u.cacheSetAt p a := by
  rw [h.begunRec]
  exact h.begunCacheSet a

/-- The record of a page action is one row of a page (R344). -/
theorem StreamIssues.begunPage (hop : op ≠ 0x40) : (StreamDesc.parse ((u.streamBegun op p e c b src dst).srec e).desc).rows = 1 ∧
    (StreamDesc.parse ((u.streamBegun op p e c b src dst).srec e).desc).rowBytes = 262144 := by
  rw [h.begunRec]
  exact streamValid_page h.issue.good hop

/-- A COLLISION leaves memory as it was and the engine free. -/
theorem StreamIssues.collides (i : BreachInfo) :
    let t := (u.streamBegun op p e c b src dst).collided e c.point i (c.streamFlight (u.part p).cur b src dst)
    t.stopAgain p = t ∧ (t.srec e).state = 0 ∧ t.data = s.data ∧ (t.part p).flights = (s.part p).flights ∧ Cause.breach ∈ (t.part p).causes := by
  obtain ⟨-, hagent⟩ := issueCtx_owner h.issue.due
  have hpart : ((u.streamBegun op p e c b src dst).srec e).partition = p := by
    rw [h.begunRec]
    rfl
  have hahead := ((State.collided_moves _ e c.point i (c.streamFlight (u.part p).cur b src dst)).frz p).ahead h.begunAhead
  refine ⟨State.stopAgain_ahead hahead, State.collided_free _ _ _ _ _, (State.collided_data _ _ _ _ _).trans h.begunData,
    State.collided_flights _ _ hpart h.begunFlights fun hmem => h.idle _ hmem hagent, State.collided_cause _ _ _ hpart⟩

end

section
variable {s u : State} {p e : Nat} {c : Ctx} {b : List Byte} {cs slot layer index board : Nat}

theorem StreamIssues.park_moves (h : StreamIssues s u 0x41 p e c b (.page cs slot layer index) (.dev board)) (he : e < 48) {set : CacheSet} {ie : Nat × Nat}
    {wd : Nat} (hset : u.cacheSetAt p cs = set) (hie : s.pageEntry set slot layer index = ie) (hwd : s.fwRead ie.2 8 = wd) (hvalid : pteValid wd = true)
    (hparked : pteParked wd = false) (hfree : noGuards u p) (hreads : opndServed u p true (.dev (pteAddr wd)) 0 1 262144)
    (hwrites : opndServed u p false (.dev board) 0 1 262144) :
    ∃ m, exec (.park p (0x10000000 + e)) s = .next (((m.fwWrite ie.2 8 (mkPte true board)).givePage set ie.1 (pteAddr wd)).stopAgain p) ∧
      State.PageMoved e (pteAddr wd) board s.data (c.streamRec 0x41 p (u.part p).cur b) m := by
  have hrec := h.begunRec
  obtain ⟨hrows, hbytes⟩ := h.begunPage (by decide)
  obtain ⟨m, hmove, hmoved⟩ := State.movePage_whole (cyc := c.point) hrows hbytes (by rw [hrec]; rfl) (by rw [hrec]; exact h.begunFree (by decide) hfree)
    (by rw [hrec]; exact hreads.begun _ _ _ _ _ _) (by rw [hrec]; exact hwrites.begun _ _ _ _ _ _)
  rw [h.begunData, hrec] at hmoved
  refine ⟨m, ?_, hmoved⟩
  rw [h.begins he (.tail _ (.head _)), State.runStream_park h.begunFlight h.begunOpnds (by rw [hrec]; rfl),
    State.runPark_moves ((h.begunCacheSetOf cs).trans hset) ((h.begunEntry _ _ _ _).trans hie) ((h.begunFwRead _ _).trans hwd) hvalid hparked hmove, hrec]
  rfl
theorem StreamIssues.park_collides (h : StreamIssues s u 0x41 p e c b (.page cs slot layer index) (.dev board)) (he : e < 48)
    (hentry : pteValid (s.fwRead (s.pageEntry (u.cacheSetAt p cs) slot layer index).2 8) = false ∨
      pteParked (s.fwRead (s.pageEntry (u.cacheSetAt p cs) slot layer index).2 8) = true) :
    ∃ t, exec (.park p (0x10000000 + e)) s = .next t ∧ (t.srec e).state = 0 ∧ t.data = s.data ∧ (t.part p).flights = (s.part p).flights ∧
      Cause.breach ∈ (t.part p).causes := by
  have hrec := h.begunRec
  obtain ⟨i, hrun⟩ := State.runPark_collides (cyc := c.point) (board := board) (f := c.streamFlight (u.part p).cur b (.page cs slot layer index) (.dev board))
    (h.begunCacheSetOf cs) (h.begunEntry _ _ _ _) (h.begunFwRead _ _) hentry
  obtain ⟨hstop, hleft⟩ := h.collides i
  refine ⟨_, ?_, hleft⟩
  rw [h.begins he (.tail _ (.head _)), State.runStream_park h.begunFlight h.begunOpnds (by rw [hrec]; rfl), hrun, hrec]
  exact congrArg Host.Outcome.next hstop

theorem StreamIssues.unpark_moves (h : StreamIssues s u 0x42 p e c b (.page cs slot layer index) .none) (he : e < 48) {set : CacheSet} {ie : Nat × Nat}
    {wd pg : Nat} {v : State} (hset : u.cacheSetAt p cs = set) (hie : s.pageEntry set slot layer index = ie) (hwd : s.fwRead ie.2 8 = wd)
    (hvalid : pteValid wd = true) (hparked : pteParked wd = true) (htake : s.takePage (s.cacheEng set ie.1) = some (pg, v)) (hfree : noGuards u p)
    (hreads : opndServed u p true (.dev (pteAddr wd)) 0 1 262144) (hwrites : opndServed u p false (.dev (pteAddr pg)) 0 1 262144) :
    ∃ m, exec (.unpark p (0x10000000 + e)) s = .next ((m.fwWrite ie.2 8 (mkPte false pg)).stopAgain p) ∧
      State.PageMoved e (pteAddr wd) (pteAddr pg) v.data (c.streamRec 0x42 p (u.part p).cur b) m := by
  obtain ⟨hrows, hbytes⟩ := h.begunPage (by decide)
  obtain ⟨v', htake', hdata, hstores⟩ := h.begunTakePage htake
  have hrec := h.begunRec
  have hrec' : v'.srec e = c.streamRec 0x42 p (u.part p).cur b := by
    rw [← hrec]
    obtain ⟨_, _, _, _, rfl⟩ := hstores
    rfl
  have hserved (source : Bool) (a : Nat) (ha : opndServed u p source (.dev a) 0 1 262144) : opndServed v' p source (.dev a) 0 1 262144 :=
    fun r k hr hk => by
      dsimp only
      rw [hstores.access]
      exact ha.begun _ _ _ _ _ _ r k hr hk
  have hguards : noGuards v' p := by
    unfold noGuards
    rw [hstores.part]
    exact h.begunFree (by decide) hfree
  obtain ⟨m, hmove, hmoved⟩ := State.movePage_whole (cyc := c.point) (by rw [hrec', ← hrec]; exact hrows) (by rw [hrec', ← hrec]; exact hbytes)
    (by rw [hrec']; rfl) (by rw [hrec']; exact hguards) (by rw [hrec']; exact hserved _ _ hreads) (by rw [hrec']; exact hserved _ _ hwrites)
  have haccess : (u.streamBegun 0x42 p e c b (.page cs slot layer index) .none).access p (pteAddr wd) = .ok := by
    obtain ⟨-, hfirst⟩ := hreads.begun 0x42 e c b (.page cs slot layer index) .none 0 0 (by omega) (by omega)
    rwa [Nat.zero_mul, Nat.add_zero] at hfirst
  rw [hdata, hrec'] at hmoved
  refine ⟨m, ?_, hmoved⟩
  rw [h.begins he (.tail _ (.tail _ (.head _))), State.runStream_unpark h.begunFlight h.begunOpnds (by rw [hrec]; rfl),
    State.runUnpark_moves ((h.begunCacheSetOf cs).trans hset) ((h.begunEntry _ _ _ _).trans hie) ((h.begunFwRead _ _).trans hwd) hvalid hparked
      (by rw [hrec]; exact haccess) ((congrArg _ (h.begunEng _ _)).trans htake') hmove, hrec]
  rfl
theorem StreamIssues.unpark_collides (h : StreamIssues s u 0x42 p e c b (.page cs slot layer index) .none) (he : e < 48)
    (hentry : pteValid (s.fwRead (s.pageEntry (u.cacheSetAt p cs) slot layer index).2 8) = false ∨
      pteParked (s.fwRead (s.pageEntry (u.cacheSetAt p cs) slot layer index).2 8) = false) :
    ∃ t, exec (.unpark p (0x10000000 + e)) s = .next t ∧ (t.srec e).state = 0 ∧ t.data = s.data ∧ (t.part p).flights = (s.part p).flights ∧
      Cause.breach ∈ (t.part p).causes := by
  have hrec := h.begunRec
  obtain ⟨i, hrun⟩ := State.runUnpark_collides (cyc := c.point) (f := c.streamFlight (u.part p).cur b (.page cs slot layer index) .none)
    (h.begunCacheSetOf cs) (h.begunEntry _ _ _ _) (h.begunFwRead _ _) hentry
  obtain ⟨hstop, hleft⟩ := h.collides i
  refine ⟨_, ?_, hleft⟩
  rw [h.begins he (.tail _ (.tail _ (.head _))), State.runStream_unpark h.begunFlight h.begunOpnds (by rw [hrec]; rfl), hrun, hrec]
  exact congrArg Host.Outcome.next hstop

end

end

section
/-! What a stream record does (R332 to R347). -/
namespace Sys2Proof.Machine

open Sys2Proof

/-- Settles O32: a record's engine begins with its new record; a copy moves row by row, a page in one row; an entry that does not allow the page to
move frees the engine. -/
theorem streamRecordsRun : Obligations.StreamRecordsRun := by
  unfold Obligations.StreamRecordsRun
  refine ⟨?_, ?_, ?_, ?_⟩
  · intro s u op p e i c b src dst hrow he h d
    obtain ⟨-, hagent⟩ := issueCtx_owner h.issue.due
    obtain ⟨_, _, hw⟩ := u.streamBegun_rest op p e c b src dst
    refine ⟨u.streamBegun op p e c b src dst, c.streamFlight (u.part p).cur b src dst, h.begins he hrow, h.begunData, ?_, ?_, ?_, fun k hk => ?_,
      h.begunFlights, hagent, rfl, rfl⟩
    · rw [hw]
    · rw [hw]
    · rw [h.begunRec, (h.drifts.2 p).cur]
      rfl
    · rw [h.begunRecs, if_neg hk]
      rfl
  · intro s u p e c b src dst sm dm sa da he h ht hsource hdest hstores hfree hwait d hreads hwrites hapart
    obtain ⟨t, hcopied, hrun⟩ := h.copied ht hsource hdest hstores hfree hreads hwrites hapart he hwait
    have hrec : t.srec e = c.streamRec 0x40 p (u.part p).cur b := by
      rw [← h.begunRec, State.srec, hcopied.se]
      rfl
    refine ⟨_, hrun, fun r k hr hk => ?_, fun m x hx => ?_, ?_, ?_, ?_⟩
    · rw [State.streamed_data, hcopied.moved r k (Nat.zero_le r) (lt_of_lt_of_eq hr (Nat.zero_add _).symm) hk, h.begunData]
    · rw [State.streamed_data, hcopied.kept m x fun hm r k _ hr hk => hx hm r k (lt_of_lt_of_eq hr (Nat.zero_add _)) hk, h.begunData]
    · rw [State.streamed_data, hcopied.host, h.begunData]
    · rw [State.streamed_srec, hrec]
      rfl
    · rw [State.streamed_srec]
  · intro s u p e c b cs slot layer index board he h set ie wd
    refine ⟨fun hvalid hparked _ hfree hreads hwrites => ?_, h.park_collides he⟩
    obtain ⟨m, hrun, hbytes, hrest, hrec⟩ := h.park_moves he rfl rfl rfl hvalid hparked hfree hreads hwrites
    exact ⟨m, hrun, hbytes, hrest, by rw [hrec]; rfl, by rw [hrec]⟩
  · intro s u p e c b cs slot layer index he h set ie wd
    refine ⟨fun pg v hvalid hparked htake _ hfree hreads hwrites => ?_, h.unpark_collides he⟩
    obtain ⟨m, hrun, hbytes, hrest, hrec⟩ := h.unpark_moves he rfl rfl rfl hvalid hparked htake hfree hreads hwrites
    exact ⟨m, hrun, hbytes, hrest, by rw [hrec]; rfl, by rw [hrec]⟩

end Sys2Proof.Machine
end

section
/-! Training of a port (R361, R362; Table 12-13): lanes, width and identity, each from the state before it. -/
namespace Sys2Proof.Machine

open Sys2Proof

/-! ## One port that changes -/

theorem portBecomes_setPort (s : State) (port : Nat) (q : Port) : portBecomes s (s.setPort port q) port q :=
  ⟨State.port_setPort s port q, fun _ hr => State.port_setPort_ne s q hr, rfl⟩

theorem portBecomes.trans {s t u : State} {port : Nat} {q q' : Port} (h : portBecomes s t port q) (h' : portBecomes t u port q') :
    portBecomes s u port q' := by
  obtain ⟨-, hothers, hrest⟩ := h
  obtain ⟨hport', hothers', hrest'⟩ := h'
  refine ⟨hport', fun r hr => (hothers' r hr).trans (hothers r hr), ?_⟩
  rw [← hrest, ← hrest']

theorem portBecomes.modPort {s t : State} {port : Nat} {q : Port} (h : portBecomes s t port q) (f : Port → Port) :
    portBecomes s (t.modPort port f) port (f q) := by
  refine h.trans ?_
  obtain ⟨rfl, -⟩ := h
  exact portBecomes_setPort t port _

/-- A port out of service goes DOWN without an event, and the time does not change its parent (R363, R391). -/
theorem State.portDown_idle {s : State} {port : Nat} (cause : Nat) (fault : Bool) (h : (s.port port).state ≠ .active) :
    s.portDown port cause fault = s.modPort port (fun q => { q with state := .down, cause := cause }) := if_neg h

theorem portBecomes.down {s t : State} {port : Nat} {q : Port} (h : portBecomes s t port q) (hidle : q.state ≠ .active) (cause : Nat) :
    portBecomes s (t.portDown port cause false) port { q with state := .down, cause := cause } := by
  rw [State.portDown_idle cause false (by rw [h.1]; exact hidle)]
  exact h.modPort fun q => { q with state := .down, cause := cause }

/-! ## The rows of training -/

/-- The lanes and the width on which both ends agree (R362). -/
def Port.agreed (q : Port) (both : Nat) : Port := { q with lanes := both, widthCode := widthOf both, used := lanesUsed both (widthOf both) }

/-- No lane that passes at both ends gives no width, and no lane is used. -/
theorem Port.agreed_none {q : Port} {both : Nat} (h : widthOf both = 0) : q.agreed both = { q with lanes := both, widthCode := 0, used := [] } := by
  unfold Port.agreed
  rw [h]
  rfl

/-- A port whose ends know each other is in service: it has 0 as its next SEQ, expects SEQ 0 and keeps no frame (log entry 13). -/
def Port.inService (q : Port) (serial peerPort peerPart : Nat) : Port := { q with
  state := .active, peerValid := true, peerSerial := BitVec.ofNat 64 serial, peerPort := peerPort % 32, peerPart := peerPart % 65536,
  txSeq := 0, rxNext := 0, nak := false, discarding := false, sent := [], replayAt := 0, txTimes := [], rxSeq := 0, rxTime := 0,
  exchanges := 0, offsetSum := 0, mean := none, lastOffset := none, lastDelay := none }

section
variable {s : State} {port : Nat} (hp : port < 18)
include hp

theorem exec_laneTrainDone (mask : Nat) (h : (s.port port).state = .laneTrain) : exec (.laneTrainDone port mask) s =
    .next (s.setPort port { s.port port with state := .width, ownLanes := (mask % 16) &&& (15 ^^^ s.failedLanes port) }) :=
  congrArg Host.Outcome.next (if_pos (by simp [hp, h]))

theorem exec_laneTrainTimeout (h : (s.port port).state = .laneTrain) : exec (.laneTrainTimeout port) s = .next (s.portDown port 1 false) :=
  congrArg Host.Outcome.next (if_pos (by simp [hp, h]))

theorem exec_widthExchange (peer : Nat) (h : (s.port port).state = .width) :
    let both := (s.port port).ownLanes &&& (peer % 16)
    let t := s.setPort port ((s.port port).agreed both)
    exec (.widthExchange port peer) s = .next (if widthOf both = 0 then t.portDown port 2 false
      else if widthOf both < bits (s.port port).ctrl.toNat 2 1 + 1 then t.portDown port 3 false
      else t.modPort port (fun q => { q with state := .ident })) :=
  congrArg Host.Outcome.next (if_pos (by simp [hp, h]))

theorem exec_identExchange (serial pp part : Nat) (h : (s.port port).state = .ident) :
    exec (.identExchange port serial pp part) s = .next (s.setPort port ((s.port port).inService serial pp part)) :=
  congrArg Host.Outcome.next (if_pos (by simp [hp, h]))

/-- The ends agree on a width, or the port goes DOWN with cause 2 or 3 (R362). -/
theorem widthExchange_becomes (peer : Nat) (h : (s.port port).state = .width) :
    let both := (s.port port).ownLanes &&& (peer % 16)
    let q := (s.port port).agreed both
    ∃ t, exec (.widthExchange port peer) s = .next t ∧ portBecomes s t port
      (if widthOf both = 0 then { q with state := .down, cause := 2 }
       else if widthOf both < bits (s.port port).ctrl.toNat 2 1 + 1 then { q with state := .down, cause := 3 }
       else { q with state := .ident }) := by
  intro both q
  have hset := portBecomes_setPort s port q
  have hidle : q.state ≠ .active := by
    change (s.port port).state ≠ .active
    rw [h]
    decide
  refine ⟨_, exec_widthExchange hp peer h, ?_⟩
  split
  · exact hset.down hidle 2
  · split
    · exact hset.down hidle 3
    · exact hset.modPort fun q => { q with state := .ident }

end

/-- Each row of training acts in its own state only (R361). -/
theorem training_waits (s : State) (port mask peer serial pp part : Nat) :
    ((s.port port).state ≠ .laneTrain → exec (.laneTrainDone port mask) s = .next s ∧ exec (.laneTrainTimeout port) s = .next s) ∧
    ((s.port port).state ≠ .width → exec (.widthExchange port peer) s = .next s) ∧
    ((s.port port).state ≠ .ident → exec (.identExchange port serial pp part) s = .next s) := by
  refine ⟨fun h => ⟨?_, ?_⟩, fun h => ?_, fun h => ?_⟩ <;> exact congrArg Host.Outcome.next (if_neg (by simp [h]))

/-- Settles O45: every row of training changes its own port alone; a width is agreed on before the port goes on or DOWN. -/
theorem portsTrain : Obligations.PortsTrain := by
  unfold Obligations.PortsTrain
  intro s port hp q
  refine ⟨fun mask h => ⟨_, exec_laneTrainDone hp mask h, portBecomes_setPort _ _ _⟩, fun h => ⟨_, exec_laneTrainTimeout hp h, ?_⟩,
    fun peer h => ?_, fun serial pp part h => ?_, training_waits s port⟩
  · have hidle : q.state ≠ .active := by
      rw [h]
      decide
    rw [State.portDown_idle 1 false hidle]
    exact portBecomes_setPort _ _ _
  · intro both
    obtain ⟨t, hexec, hbecomes⟩ := widthExchange_becomes hp peer h
    refine ⟨t, hexec, ?_⟩
    split
    · next hnone =>
      rw [if_pos hnone, Port.agreed_none hnone] at hbecomes
      exact hbecomes
    · next hsome =>
      rw [if_neg hsome] at hbecomes
      exact hbecomes
  · obtain ⟨hport, hothers, hrest⟩ := portBecomes_setPort s port (q.inService serial pp part)
    refine ⟨_, exec_identExchange hp serial pp part h, ?_⟩
    rw [hport]
    exact ⟨rfl, rfl, rfl, rfl, rfl, rfl, rfl, hothers, hrest⟩

end Sys2Proof.Machine
end

section
/-! A write of LOOPBACK that ends no test (R361, R391): the port stays in service, and a part that follows it goes on following. -/
namespace Sys2Proof.Machine

open Sys2Proof

/-- LOOPBACK 0 on a port that is not under test changes its CTRL and nothing else. -/
theorem exec_loopback_ends_nothing {s : State} {port : Nat} (hp : port < 18) (hon : (s.dom 3).st ≠ .off) (h : (s.port port).state ≠ .loopback) :
    exec (.loopback port 0) s =
      .next (s.setPort port { s.port port with ctrl := BitVec.ofNat 9 (setBits (s.port port).ctrl.toNat 5 4 0) }) := by
  refine (State.direct_on _ hon).trans (congrArg Host.Outcome.next ((if_pos hp).trans ?_))
  simp [State.portLoop, h]

/-- A part that follows its parent port 0, which is ACTIVE. -/
def followsPort : State := { State.reset with
  lnk := { LnkRegs.reset with following := true, timeState := 2, parent := 0, ports := [(0, { Port.reset with state := .active })] } }

/-- Refutes O46: `portFrame` asks of LOOPBACK 0, as of every port command, that a parent port ACTIVE before it is followed no more. Where no test is
under way the write leaves the port ACTIVE, and `followsPort` goes on following it, as R391 has it: the clause lacks the premise that the port has
left ACTIVE. -/
theorem not_portsAndLinkRegisters : ¬ Obligations.PortsAndLinkRegisters := by
  unfold Obligations.PortsAndLinkRegisters
  rintro ⟨hcommands, -⟩
  obtain ⟨-, -, -, -, -, -, -, ⟨t, hexec, ⟨-, -, -, -, -, -, hunfollowed⟩, -⟩, -⟩ := hcommands followsPort 0 (by decide) (by decide)
  have ht := (exec_loopback_ends_nothing (s := followsPort) (port := 0) (by decide) (by decide) (by decide)).symm.trans hexec
  obtain ⟨hstill, -⟩ := hunfollowed rfl rfl rfl
  rw [← Host.Outcome.next.inj ht] at hstill
  exact absurd hstill (by decide)

end Sys2Proof.Machine
end

section
/-! What the rows of the links leave alone (R371 to R389): the states of the ports, the grants that wait, the actions in flight. -/
namespace Sys2Proof.Machine

open Sys2Proof

/-! ## What the traffic of the links may change -/

/-- A port that has conveyed traffic: the flags of its reductions, its counters, its queue and the time of its last discard may have changed. -/
def Port.Conveys (x y : Port) : Prop := ∃ r c q d, y = { x with redFlags := r, cnt := c, queue := q, lastDiscard := d }

theorem Port.Conveys.refl (x : Port) : x.Conveys x := ⟨_, _, _, _, rfl⟩
theorem Port.Conveys.trans {x y z : Port} (h : x.Conveys y) (h' : y.Conveys z) : x.Conveys z := by
  obtain ⟨_, _, _, _, rfl⟩ := h
  obtain ⟨_, _, _, _, rfl⟩ := h'
  exact ⟨_, _, _, _, rfl⟩

/-- Its state and its sequence stay. -/
theorem Port.Conveys.sequence {x y : Port} (h : x.Conveys y) : y.state = x.state ∧ y.txSeq = x.txSeq ∧ y.sent = x.sent ∧ y.replayAt = x.replayAt ∧
    y.wire = x.wire ∧ y.rxNext = x.rxNext ∧ y.discarding = x.discarding ∧ y.nak = x.nak := by
  obtain ⟨_, _, _, _, rfl⟩ := h
  exact ⟨rfl, rfl, rfl, rfl, rfl, rfl, rfl, rfl⟩

/-- No port has changed but by the traffic that it has conveyed. -/
def State.Conveys (s t : State) : Prop := ∀ r, (s.port r).Conveys (t.port r)

theorem State.Conveys.refl (s : State) : s.Conveys s := fun _ => .refl _
theorem State.Conveys.trans {s t u : State} (h : s.Conveys t) (h' : t.Conveys u) : s.Conveys u := fun r => (h r).trans (h' r)
theorem State.Conveys.foldl {α : Type} {f : State → α → State} (h : ∀ (s : State) (x : α), s.Conveys (f s x)) (l : List α) :
    ∀ s : State, s.Conveys (l.foldl f s) := by
  induction l with
  | nil => exact .refl
  | cons x l ih => exact fun s => (h s x).trans (ih _)
theorem State.Conveys.of_ports {s t : State} (h : t.lnk.ports = s.lnk.ports) : s.Conveys t := fun r => by
  unfold State.port
  rw [h]
  exact .refl _

/-- Besides, no grant has been claimed, and every action in flight is so still. -/
structure State.Lands (s t : State) : Prop where
  conveys : s.Conveys t
  grants : t.lnk.grants = s.lnk.grants
  flights : ∀ q, (t.part q).flights = (s.part q).flights

theorem State.Lands.refl (s : State) : s.Lands s := ⟨.refl s, rfl, fun _ => rfl⟩
theorem State.Lands.trans {s t u : State} (h : s.Lands t) (h' : t.Lands u) : s.Lands u :=
  ⟨h.conveys.trans h'.conveys, h'.grants.trans h.grants, fun q => (h'.flights q).trans (h.flights q)⟩
theorem State.Lands.foldl {α : Type} {f : State → α → State} (h : ∀ (s : State) (x : α), s.Lands (f s x)) (l : List α) :
    ∀ s : State, s.Lands (l.foldl f s) := by
  induction l with
  | nil => exact .refl
  | cons x l ih => exact fun s => (h s x).trans (ih _)

/-- And no memory has changed. -/
structure State.Gives (s t : State) : Prop extends State.Lands s t where
  data : t.data = s.data

theorem State.Gives.refl (s : State) : s.Gives s := ⟨.refl s, rfl⟩
theorem State.Gives.trans {s t u : State} (h : s.Gives t) (h' : t.Gives u) : s.Gives u := ⟨h.toLands.trans h'.toLands, h'.data.trans h.data⟩
theorem State.Gives.foldl {α : Type} {f : State → α → State} (h : ∀ (s : State) (x : α), s.Gives (f s x)) (l : List α) :
    ∀ s : State, s.Gives (l.foldl f s) := by
  induction l with
  | nil => exact .refl
  | cons x l ih => exact fun s => (h s x).trans (ih _)

theorem State.Gives.of_eq {s t : State} (hports : t.lnk.ports = s.lnk.ports) (hgrants : t.lnk.grants = s.lnk.grants) (hparts : t.parts = s.parts)
    (hdata : t.data = s.data) : s.Gives t := ⟨⟨.of_ports hports, hgrants, fun q => by unfold State.part; rw [hparts]⟩, hdata⟩

theorem State.Drifts.gives {s t : State} (h : s.Drifts t) : s.Gives t := by
  obtain ⟨-, hdata, -, -, -, -, -, hlnk, -⟩ := h.frame
  refine ⟨⟨.of_ports (by rw [hlnk]), by rw [hlnk], fun q => ?_⟩, hdata⟩
  obtain ⟨-, -, -, -, -, hflights, -⟩ := h.part q
  exact hflights
theorem State.Works.lands {s t : State} (h : s.Works t) : s.Lands t := ⟨.of_ports (by rw [h.lnk]), by rw [h.lnk], h.flights⟩
theorem State.Stores.lands {s t : State} (h : s.Stores t) : s.Lands t := h.engages.toWorks.lands

theorem State.gives_post (s : State) (ty : Nat) (p : Option Nat) (src aux det : Nat) : s.Gives (s.post ty p src aux det) :=
  (s.drifts_post ty p src aux det).gives
theorem State.gives_setPort (s : State) (port : Nat) {q : Port} (h : (s.port port).Conveys q) : s.Gives (s.setPort port q) := by
  refine ⟨⟨fun r => ?_, rfl, fun _ => rfl⟩, rfl⟩
  by_cases hr : r = port
  · subst hr
    rw [State.port_setPort]
    exact h
  · rw [State.port_setPort_ne _ _ hr]
    exact .refl _
theorem State.gives_modPort (s : State) (port : Nat) {f : Port → Port} (h : ∀ q : Port, q.Conveys (f q)) : s.Gives (s.modPort port f) :=
  s.gives_setPort port (h _)
theorem State.gives_modPart (s : State) (p : Nat) {f : Part → Part} (h : (f (s.part p)).flights = (s.part p).flights) : s.Gives (s.modPart p f) := by
  refine ⟨⟨fun _ => .refl _, rfl, fun q => ?_⟩, rfl⟩
  by_cases hq : q = p
  · subst hq
    rw [State.part_modPart]
    exact h
  · rw [State.part_modPart_ne _ _ hq]

/-- A counter of a port counts (R445). -/
theorem State.gives_count (s : State) (port w : Nat) : s.Gives (s.count port w) := by
  unfold State.count
  dsimp only
  split
  · exact .refl s
  · have hcount : s.Gives (s.setPort port { s.port port with cnt := tset 0 (s.port port).cnt w (tget 0 (s.port port).cnt w + 1) }) :=
      s.gives_setPort port ⟨_, _, _, _, rfl⟩
    split
    · refine (hcount.trans ?_).trans (State.gives_post _ _ _ _ _ _)
      exact .of_eq rfl rfl rfl rfl
    · exact hcount

/-! ## Units of the receive buffers (R375) -/

theorem State.gives_queueFlit (s : State) (port : Nat) (f : QFlit) : s.Gives (s.queueFlit port f) := s.gives_modPort port fun _ => ⟨_, _, _, _, rfl⟩
theorem State.gives_sendGrant (s : State) (m : Msg) (n : Nat) : s.Gives (s.sendGrant m n) := by
  unfold State.sendGrant
  dsimp only
  split
  · split
    · exact s.gives_queueFlit _ _
    · exact .refl s
  · exact s.gives_queueFlit _ _
theorem State.gives_giveUnitsGo (port : Nat) (l : List Msg) :
    ∀ (free : Nat) (done : List Msg) (s : State), s.Gives (State.giveUnitsGo port free done l s) := by
  induction l with
  | nil => exact fun free done s => .of_eq rfl rfl rfl rfl
  | cons m l ih =>
    intro free done s
    unfold State.giveUnitsGo
    dsimp only
    split
    · exact ih _ _ _
    · split
      · exact (s.gives_sendGrant _ _).trans (ih _ _ _)
      · exact ((s.gives_sendGrant _ _).trans (State.gives_sendGrant _ _ _)).trans (ih _ _ _)
theorem State.gives_giveUnits (s : State) (port : Nat) : s.Gives (s.giveUnits port) := State.gives_giveUnitsGo _ _ _ _ s
theorem State.gives_giveAll (s : State) : s.Gives s.giveAll := .foldl (fun s q => s.gives_giveUnits q) _ s

/-! ## Link buffer references (R373) -/

theorem State.gives_askRef (s : State) (w : Who) (id : Nat) (write : Bool) (r off n : Nat) : s.Gives (s.askRef w id write r off n) := by
  unfold State.askRef
  split
  · exact (s.drifts_askWeirs _ _ _ _).gives
  · exact .refl s
theorem State.lands_accessKept : AccessKept State.Lands :=
  ⟨.refl, .trans, fun s p cyc b => (s.drifts_breach p cyc b).gives.toLands, fun s a r => (s.stores_devWrite a r).lands⟩
theorem State.lands_refRead (s : State) (w : Who) (r off n : Nat) : s.Lands (s.refRead w r off n).2 := by
  unfold State.refRead
  split
  · exact State.lands_accessKept.agentRead s w _ _
  · exact .refl s
  · exact .refl s
theorem State.lands_write (s : State) (sp : Space) (a : Nat) (r : Run) : s.Lands (s.write sp a r) :=
  ⟨.of_ports rfl, rfl, fun _ => rfl⟩
theorem State.lands_refWrite (s : State) (w : Who) (r off : Nat) (x : Run) : s.Lands (s.refWrite w r off x) := by
  unfold State.refWrite
  split
  · exact State.lands_accessKept.agentWrite s w _ _
  · exact s.lands_write _ _ _
  · exact s.lands_write _ _ _

theorem State.lands_peerArrival (s : State) (p port : Nat) : s.Lands (s.peerArrival p port) := by
  rw [State.peerArrival_eq]
  have hstamped : (s.expireDue p).Gives (s.expireDue p).stamp.2 := .of_eq rfl rfl rfl rfl
  exact (((s.drifts_expireDue p).gives.trans hstamped).trans (State.gives_modPart _ p (f := (·.arrive port)) (Part.arrive_flights _ _))).toLands
theorem State.lands_landed (s : State) (k : Nat × Nat × Nat × Nat) (n : Nat) (arrives : Bool) : s.Lands (s.landed k n arrives) := by
  unfold State.landed
  dsimp only
  split
  · refine State.Lands.trans (State.Gives.toLands ?_) (State.lands_peerArrival _ _ _)
    exact .of_eq rfl rfl rfl rfl
  · exact State.Gives.toLands (.of_eq rfl rfl rfl rfl)
theorem State.lands_refPut (s : State) (k : Nat × Nat × Nat × Nat) (r off : Nat) (x : Run) (arrives : Bool) : s.Lands (s.refPut k r off x arrives) := by
  unfold State.refPut
  dsimp only
  split
  · refine (State.Gives.trans ?_ (State.gives_askRef _ _ _ _ _ _ _)).toLands
    exact .of_eq rfl rfl rfl rfl
  · exact (s.lands_refWrite _ _ _ _).trans (State.lands_landed _ _ _ _)

theorem State.gives_endSending (s : State) (k : Nat × Nat × Nat × Nat) : s.Gives (s.endSending k) := .of_eq rfl rfl rfl rfl
theorem State.lands_linkConsume (s : State) (k : Nat × Nat × Nat × Nat) (cyc origin at' : Nat) : s.Lands (s.linkConsume k cyc origin at') := by
  unfold State.linkConsume
  split
  · exact .refl s
  · exact (s.engages_consume _ _ _ _ _ _).toWorks.lands.trans (State.gives_endSending _ k).toLands

/-! ## The steps of a collective (R386 to R389) -/

theorem State.gives_setColl (s : State) (c : Coll) : s.Gives (s.setColl c) := .of_eq rfl rfl rfl rfl
theorem State.gives_addMsg (s : State) (m : Msg) : s.Gives (s.addMsg m) := .of_eq rfl rfl rfl rfl
theorem State.lands_collWrite (s : State) (c : Coll) : s.Lands (s.collWrite c) := by
  unfold State.collWrite
  dsimp only
  split
  · exact .refl s
  · split <;> exact s.lands_refPut _ _ _ _ _
theorem State.lands_collEnter (fuel : Nat) : ∀ (c : Coll) (s : State), s.Lands (State.collEnter fuel c s) := by
  induction fuel with
  | zero => exact fun _ => .refl
  | succ fuel ih =>
    intro c s
    unfold State.collEnter
    dsimp only
    split
    · exact (s.lands_collWrite c).trans (State.gives_setColl _ _).toLands
    · have hjoined : s.Lands (c.msgs.foldl State.addMsg (s.setColl c)) :=
        (s.gives_setColl c).toLands.trans (State.Gives.foldl State.gives_addMsg _ _).toLands
      generalize c.msgs.foldl State.addMsg (s.setColl c) = v at hjoined
      have harrived (b : Bool) : s.Lands (if b = true then v.peerArrival c.partition c.port else v) := by
        split
        · exact hjoined.trans (v.lands_peerArrival _ _)
        · exact hjoined
      split
      · exact harrived _
      · exact (harrived _).trans (ih _ _)

/-! ## Grants that are claimed (R375, R385) -/

/-- What a grant that is taken leaves alone: it may end a collective, so that an action leaves the flights. -/
structure State.Takes (s t : State) : Prop where
  conveys : s.Conveys t
  data : t.data = s.data

theorem State.Gives.takes {s t : State} (h : s.Gives t) : s.Takes t := ⟨h.conveys, h.data⟩
theorem State.Takes.refl (s : State) : s.Takes s := ⟨.refl s, rfl⟩
theorem State.Takes.trans {s t u : State} (h : s.Takes t) (h' : t.Takes u) : s.Takes u := ⟨h.conveys.trans h'.conveys, h'.data.trans h.data⟩
theorem State.Takes.foldl {α : Type} {f : State → α → State} (h : ∀ (s : State) (x : α), s.Takes (f s x)) (l : List α) :
    ∀ s : State, s.Takes (l.foldl f s) := by
  induction l with
  | nil => exact .refl
  | cons x l ih => exact fun s => (h s x).trans (ih _)

theorem State.gives_credit (s : State) (g : Grant) : s.Gives (s.credit g) := by
  unfold State.credit
  dsimp only
  have hgranted : s.Gives { s with lnk := { s.lnk with
      msgs := modFirst (·.takes g) (fun m => { m with granted := min m.length (m.granted + g.bytes) }) s.lnk.msgs } } := .of_eq rfl rfl rfl rfl
  split
  · split
    · exact hgranted
    · exact hgranted.trans (State.gives_askRef _ _ _ _ _ _ _)
  · exact hgranted
theorem State.takes_collMismatch (s : State) (c : Coll) (other : Nat) : s.Takes (s.collMismatch c other) := by
  unfold State.collMismatch
  dsimp only
  refine State.Takes.trans ?_ (State.gives_post _ _ _ _ _ _).takes
  refine State.Takes.trans ?_ (State.gives_giveAll _).takes
  exact ⟨.of_ports rfl, rfl⟩
theorem State.takes_takeGrant (s : State) (g : Grant) : s.Takes (s.takeGrant g) := by
  unfold State.takeGrant
  split
  · split
    · split
      · exact (s.gives_credit g).takes
      · exact s.takes_collMismatch _ _
    · exact (s.gives_credit g).takes
  · split
    · exact s.takes_collMismatch _ _
    · exact ⟨.of_ports rfl, rfl⟩
theorem State.takes_claimGrants (s : State) : s.Takes s.claimGrants := by
  refine State.Takes.trans ?_ (.foldl State.takes_takeGrant _ _)
  exact ⟨.of_ports rfl, rfl⟩
/-- Where no grant waits there is none to claim. -/
theorem State.claimGrants_none {s : State} (h : s.lnk.grants = []) : s.claimGrants = s := by
  unfold State.claimGrants
  rw [h, List.foldl_nil, ← h]

theorem State.conveys_collSettle (s : State) : s.Conveys s.collSettle := s.takes_claimGrants.conveys.trans (State.gives_giveAll _).conveys
/-- Where no grant waits, what follows a change of a collective's messages ends no action. -/
theorem State.lands_collSettle {s : State} (h : s.lnk.grants = []) : s.Lands s.collSettle := by
  unfold State.collSettle
  rw [State.claimGrants_none h]
  exact s.gives_giveAll.toLands

end Sys2Proof.Machine
end

section
/-! SEND, RECV and COLLECTIVE at their issue (R371 to R375, R383 to R385). -/
namespace Sys2Proof.Machine

open Sys2Proof

/-! ## Messages in their order (R375) -/

theorem mem_insertMsg (m : Msg) (l : List Msg) : m ∈ insertMsg m l := by
  induction l with
  | nil => exact List.mem_singleton_self m
  | cons x l ih =>
    unfold insertMsg
    split
    · exact List.mem_cons_self
    · exact List.mem_cons_of_mem x ih

theorem length_insertMsg (m : Msg) (l : List Msg) : (insertMsg m l).length = l.length + 1 := by
  induction l with
  | nil => rfl
  | cons x l ih =>
    unfold insertMsg
    split
    · rfl
    · rw [List.length_cons, ih, List.length_cons]

/-- A message that may have been given units: it is granted no more bytes than it has, unless it was before. -/
def Msg.Given (m m' : Msg) : Prop := ∃ g, g ≤ max m.granted m.length ∧ m' = { m with granted := g }

theorem Msg.Given.refl (m : Msg) : m.Given m := ⟨m.granted, Nat.le_max_left _ _, rfl⟩
theorem Msg.Given.trans {m m' m'' : Msg} (h : m.Given m') (h' : m'.Given m'') : m.Given m'' := by
  obtain ⟨g, hg, rfl⟩ := h
  obtain ⟨g', hg', rfl⟩ := h'
  exact ⟨g', hg'.trans (max_le hg (Nat.le_max_right _ _)), rfl⟩
/-- One more unit, or what is left of the message. -/
theorem Msg.given_unit (m : Msg) : m.Given { m with granted := m.granted + min grantUnit (m.length - m.granted) } := ⟨_, by omega, rfl⟩

theorem exists_mem_of_given {l l' : List Msg} {m : Msg} (h : List.Forall₂ Msg.Given l l') (hm : m ∈ l) :
    ∃ g, g ≤ max m.granted m.length ∧ ({ m with granted := g } : Msg) ∈ l' := by
  induction h with
  | nil => cases hm
  | cons hgiven _ ih =>
    obtain rfl | htail := List.mem_cons.1 hm
    · obtain ⟨g, hg, rfl⟩ := hgiven
      exact ⟨g, hg, List.mem_cons_self⟩
    · obtain ⟨g, hg, hmem⟩ := ih htail
      exact ⟨g, hg, List.mem_cons_of_mem _ hmem⟩

/-- Units go to the messages one by one, which keep their order. -/
theorem State.giveUnitsGo_msgs (port : Nat) (l : List Msg) : ∀ (free : Nat) (done : List Msg) (s : State),
    ∃ l', (State.giveUnitsGo port free done l s).lnk.msgs = done ++ l' ∧ List.Forall₂ Msg.Given l l' := by
  induction l with
  | nil => exact fun free done s => ⟨[], (List.append_nil done).symm, .nil⟩
  | cons m l ih =>
    have hnext {m' : Msg} (hgiven : m.Given m') (free : Nat) (done : List Msg) (s : State) :
        ∃ l', (State.giveUnitsGo port free (done ++ [m']) l s).lnk.msgs = done ++ l' ∧ List.Forall₂ Msg.Given (m :: l) l' := by
      obtain ⟨l', hmsgs, hall⟩ := ih free (done ++ [m']) s
      exact ⟨m' :: l', by rw [hmsgs, List.append_assoc]; rfl, .cons hgiven hall⟩
    intro free done s
    unfold State.giveUnitsGo
    dsimp only
    split
    · exact hnext (.refl m) _ _ _
    · split
      · exact hnext m.given_unit _ _ _
      · exact hnext (m.given_unit.trans (Msg.given_unit _)) _ _ _

theorem State.giveUnits_msgs (s : State) (port : Nat) : List.Forall₂ Msg.Given s.lnk.msgs (s.giveUnits port).lnk.msgs := by
  obtain ⟨l', hmsgs, hall⟩ := State.giveUnitsGo_msgs port s.lnk.msgs
    (16 - sumNat ((s.lnk.msgs.filter (fun m => !m.isSend && m.link == port)).map Msg.units)) [] s
  unfold State.giveUnits
  rw [hmsgs]
  exact hall

/-! ## SEND and RECV -/

/-- A link action joins those in flight, and its message those of its controller. -/
def State.msgJoined (s : State) (c : Ctx) (p : Nat) (send : Bool) (d : LinkDesc) : State :=
  (s.addFlight p (flightOf c d.opId (dedup (refRes d.buf d.length)))).addMsg (linkMsg c s.lnk.nextMsg send d)

theorem State.msgJoined_spec (s : State) (c : Ctx) (p : Nat) (send : Bool) (d : LinkDesc) : let t := s.msgJoined c p send d
    t.data = s.data ∧ t.lnk.grants = s.lnk.grants ∧ t.lnk.msgs = insertMsg (linkMsg c s.lnk.nextMsg send d) s.lnk.msgs ∧
    (t.part p).flights = (s.part p).flights ++ [{ flightOf c d.opId (dedup (refRes d.buf d.length)) with forme := (s.part p).cur }] := by
  obtain ⟨-, -, -, hflights⟩ := s.works_addFlight p (flightOf c d.opId (dedup (refRes d.buf d.length)))
  exact ⟨rfl, rfl, rfl, hflights⟩

section
variable {s u : State} {op p a : Nat} {c : Ctx} {b : List Byte} (hb : (u.part p).image.descOf c.bind c.r.arg 32 = some b)
  (hi : Issues s u op p a c (u.linkValid p (agNum a) (LinkDesc.parse b) && (u.part p).linkRoom a) none
    (dedup (refRes (LinkDesc.parse b).buf (LinkDesc.parse b).length)))
include hb hi

/-- A record past its checks: its message joins, and takes the grants that wait or is given units. -/
theorem State.issueMsg_ok (send : Bool) : s.issueMsg op p a send =
    let v := (u.issued c).msgJoined c p send (LinkDesc.parse b)
    if send then v.claimGrants else v.giveUnits (agNum a) := by
  obtain ⟨hdue, rfl, htoken, hgood, hfree, howned⟩ := hi
  unfold State.issueMsg
  rw [State.issueMatrix_desc _ hdue hb]
  exact State.issueAction_ok htoken hgood hfree howned

omit hb in
/-- What of the state in which its message has joined is known from the one before the row. -/
theorem msgJoined_of_issues (send : Bool) : ∃ f, f.agent = a ∧ f.action = c.idx ∧
    f.held = dedup (refRes (LinkDesc.parse b).buf (LinkDesc.parse b).length) ∧
    let t := (u.issued c).msgJoined c p send (LinkDesc.parse b)
    t.data = s.data ∧ t.lnk.grants = s.lnk.grants ∧ t.lnk.msgs = insertMsg (linkMsg c s.lnk.nextMsg send (LinkDesc.parse b)) s.lnk.msgs ∧
    (t.part p).flights = (s.part p).flights ++ [f] := by
  obtain ⟨-, hagent⟩ := issueCtx_owner hi.due
  obtain ⟨hdata, hlnk, -, -, hflights⟩ := State.issued_keeps hi.atPoint
  have hjoined := (u.issued c).msgJoined_spec c p send (LinkDesc.parse b)
  rw [hdata, hlnk, hflights] at hjoined
  exact ⟨_, hagent, rfl, rfl, hjoined⟩

end

section
variable {s u : State} {p a : Nat} {c : Ctx} {b : List Byte} (hb : (u.part p).image.descOf c.bind c.r.arg 32 = some b)
include hb

theorem exec_send_begins (hi : Issues s u 0x80 p a c (u.linkValid p (agNum a) (LinkDesc.parse b) && (u.part p).linkRoom a) none
      (dedup (refRes (LinkDesc.parse b).buf (LinkDesc.parse b).length))) : ∃ t f, exec (.send p a) s = .next t ∧ t.data = s.data ∧
    (s.lnk.grants = [] → t.lnk.msgs = insertMsg (linkMsg c s.lnk.nextMsg true (LinkDesc.parse b)) s.lnk.msgs ∧
      (t.part p).flights = (s.part p).flights ++ [f]) ∧
    f.agent = a ∧ f.action = c.idx ∧ f.held = dedup (refRes (LinkDesc.parse b).buf (LinkDesc.parse b).length) := by
  obtain ⟨f, hagent, haction, hheld, hdata, hgrants, hmsgs, hflights⟩ := msgJoined_of_issues hi true
  refine ⟨_, f, congrArg Host.Outcome.next (State.issueMsg_ok hb hi true), (State.takes_claimGrants _).data.trans hdata, fun hnone => ?_,
    hagent, haction, hheld⟩
  dsimp only
  rw [if_pos rfl, State.claimGrants_none (hgrants.trans hnone)]
  exact ⟨hmsgs, hflights⟩

theorem exec_recv_begins (hi : Issues s u 0x81 p a c (u.linkValid p (agNum a) (LinkDesc.parse b) && (u.part p).linkRoom a) none
      (dedup (refRes (LinkDesc.parse b).buf (LinkDesc.parse b).length))) : ∃ t f, exec (.recv p a) s = .next t ∧ t.data = s.data ∧
    t.lnk.msgs.length = s.lnk.msgs.length + 1 ∧
    (∃ g, g ≤ (LinkDesc.parse b).length ∧ ({ linkMsg c s.lnk.nextMsg false (LinkDesc.parse b) with granted := g } : Msg) ∈ t.lnk.msgs) ∧
    t.lnk.grants = s.lnk.grants ∧ (t.part p).flights = (s.part p).flights ++ [f] ∧ f.agent = a ∧ f.action = c.idx ∧
    f.held = dedup (refRes (LinkDesc.parse b).buf (LinkDesc.parse b).length) := by
  obtain ⟨f, hagent, haction, hheld, hdata, hgrants, hmsgs, hflights⟩ := msgJoined_of_issues hi false
  have hgives := State.gives_giveUnits ((u.issued c).msgJoined c p false (LinkDesc.parse b)) (agNum a)
  have hgiven := State.giveUnits_msgs ((u.issued c).msgJoined c p false (LinkDesc.parse b)) (agNum a)
  rw [hmsgs] at hgiven
  refine ⟨_, f, congrArg Host.Outcome.next (State.issueMsg_ok hb hi false), hgives.data.trans hdata, ?_, ?_, hgives.grants.trans hgrants,
    (hgives.flights p).trans hflights, hagent, haction, hheld⟩
  · exact hgiven.length_eq.symm.trans (length_insertMsg _ _)
  · obtain ⟨g, hg, hmem⟩ := exists_mem_of_given hgiven (mem_insertMsg _ _)
    exact ⟨g, hg.trans (max_le (Nat.zero_le _) le_rfl), hmem⟩

end

/-! ## COLLECTIVE (R383 to R385) -/

/-- A collective's first step: what it reads, writes and sends ends no action where no grant waits. -/
theorem State.lands_collStart {s : State} (c : Coll) (h : s.lnk.grants = []) : s.Lands (s.collStart c) := by
  have hread := s.lands_refRead (s.collAgent c) (CollDesc.parse c.desc).src 0 ((CollDesc.parse c.desc).srcBytes c.table)
  unfold State.collStart
  extract_lets d own
  split
  next x v hv =>
  rw [hv] at hread
  extract_lets work placed begun
  have hplaced : v.Lands placed := by
    unfold placed
    split
    · exact v.lands_refPut _ _ _ _ _
    · exact .refl v
  have hentered := ((hread.trans hplaced).trans (placed.gives_setColl begun).toLands).trans
    (State.lands_collEnter (collSteps d.kind d.n + 2) begun _)
  exact hentered.trans (State.lands_collSettle (hentered.grants.trans h))

/-- A collective joins the actions in flight, and stays among them where no grant waits that could end it. -/
theorem State.flights_runColl {s : State} (c : Ctx) (d : CollDesc) (desc : List Byte) (h : s.lnk.grants = []) :
    ∃ f, ((s.runColl c d desc).part c.p).flights = (s.part c.p).flights ++ [f] ∧ f.agent = c.agent ∧ f.action = c.idx := by
  have hread := s.lands_refRead (collWho c) d.table 0 (8 * d.n)
  unfold State.runColl
  split
  next table v hv =>
  rw [hv] at hread
  extract_lets t flown l numbered cl l' joined consumed asked
  obtain ⟨-, hlnk, -, hflights⟩ := v.works_addFlight c.p (flightOf c d.opId
    (dedup (refRes d.table (8 * d.n) ++ refRes d.src (d.srcBytes t) ++ refRes d.dst (d.dstBytes t))))
  have hjoined : flown.Gives joined := .of_eq rfl rfl rfl rfl
  have hasked : flown.Lands asked := (hjoined.toLands.trans (joined.lands_linkConsume _ _ _ _)).trans
    ((consumed.gives_askRef _ _ _ _ _ _).trans (State.gives_askRef _ _ _ _ _ _ _)).toLands
  have hnone : asked.lnk.grants = [] := hasked.grants.trans ((congrArg LnkRegs.grants hlnk).trans (hread.grants.trans h))
  refine ⟨_, Eq.trans ?_ (hflights.trans (congrArg (· ++ _) (hread.flights c.p))), rfl, rfl⟩
  split
  · exact ((State.lands_collStart cl hnone).flights c.p).trans (hasked.flights c.p)
  · exact hasked.flights c.p

/-- A record past its checks has a valid descriptor, so that its table is read for the collective alone. -/
theorem exec_collective_ok {s u : State} {p a : Nat} {c : Ctx} {b : List Byte} (hb : (u.part p).image.descOf c.bind c.r.arg 64 = some b) :
    let d := CollDesc.parse b
    let tb := tableOf d.n (u.collTable c d)
    Issues s u 0x82 p a c (agNum a < 18 && u.collValid c d && (u.part p).linkRoom a) none
      (dedup (refRes d.table (8 * d.n) ++ refRes d.src (d.srcBytes tb) ++ refRes d.dst (d.dstBytes tb))) →
    exec (.collective p a) s = .next ((u.issued c).runColl c d b) := by
  intro d tb hi
  have hvalid : u.collValid c d = true := by
    have hgood := hi.good
    rw [Bool.and_eq_true, Bool.and_eq_true] at hgood
    obtain ⟨⟨-, hvalid⟩, -⟩ := hgood
    exact hvalid
  refine congrArg Host.Outcome.next (State.issueMatrix_ok (run := fun t => t.runColl c d b) hb hi ?_)
  dsimp only
  rw [if_neg (by rw [hvalid, Bool.not_true, Bool.and_false]; decide)]

/-- Settles O34: past its checks each record runs on the state in which it has issued, whose memories, messages and grants are those before the
row; what it does ends an action only by a grant that waits. -/
theorem linkRecordsBegin : Obligations.LinkRecordsBegin := by
  unfold Obligations.LinkRecordsBegin
  refine ⟨?_, ?_⟩
  · intro s u p a c b d hb
    exact ⟨exec_send_begins hb, exec_recv_begins hb⟩
  · intro s u p a c b d tb hb hi
    obtain ⟨hp, hagent⟩ := issueCtx_owner hi.due
    obtain ⟨-, hlnk, -⟩ := State.issued_keeps hi.atPoint
    refine ⟨_, exec_collective_ok hb hi, rfl, fun hnone => ?_⟩
    obtain ⟨f, hflights, hfa, hfr⟩ := State.flights_runColl (s := u.issued c) c d b (by rw [hlnk]; exact hnone)
    refine ⟨f, ?_, hfa.trans hagent, hfr⟩
    rw [← hp, hflights]
    exact List.mem_append_right _ (List.mem_singleton_self f)

end Sys2Proof.Machine
end

section
/-! What frames convey between ports (R365 to R381, R433, R434, R471): nothing that a frame's flits do changes a port's sequence or its state. -/
namespace Sys2Proof.Machine

open Sys2Proof

/-! ## The flits of a frame that is sent -/

theorem State.lands_msgRead (s : State) (m : Msg) (n : Nat) : s.Lands (s.msgRead m n).2 := by
  unfold State.msgRead
  split
  · exact .refl s
  · exact s.lands_refRead _ _ _ _
theorem State.lands_nextFlit (port o fuel : Nat) : ∀ s : State, s.Lands (State.nextFlit port o fuel s).2 := by
  induction fuel with
  | zero => exact .refl
  | succ fuel ih =>
    intro s
    unfold State.nextFlit
    extract_lets here
    split
    · exact .refl s
    · next m _ =>
      extract_lets n
      have hread := s.lands_msgRead m n
      split
      next r v hv =>
      rw [hv] at hread
      split
      · exact (hread.trans (v.lands_linkConsume _ _ _ _)).trans (ih _)
      · exact hread.trans (State.Gives.toLands (.of_eq rfl rfl rfl rfl))
theorem State.lands_fillPositions (port n : Nat) : ∀ (c : Nat) (s : State), s.Lands (State.fillPositions port n c s).2.2 := by
  induction n with
  | zero => exact fun _ => .refl
  | succ n ih =>
    intro c s
    unfold State.fillPositions
    dsimp only
    generalize s.cellOwner (0x140 + linkGroup port) (c % 64) = o1
    split
    · exact ih _ s
    · split
      · exact ih _ s
      · next o _ =>
        split
        · split
          · exact ih _ s
          · exact (s.gives_modPort port fun _ => ⟨_, _, _, _, rfl⟩).toLands.trans (ih _ _)
        · have hnext := State.lands_nextFlit port o (s.lnk.msgs.length + 1) s
          split
          · next hflit =>
            rw [hflit] at hnext
            exact hnext.trans (ih _ _)
          · next hflit =>
            rw [hflit] at hnext
            exact hnext.trans (ih _ _)

/-! ## The image relay and control messages (R433, R434, R471) -/

theorem State.conveys_queueControl (s : State) (port : Nat) (flit : List Byte) : s.Conveys (s.queueControl port flit) := (s.gives_queueFlit _ _).conveys
theorem State.conveys_relayData (s : State) (off total : Nat) (bs : List Byte) : s.Conveys (s.relayData off total bs) := by
  unfold State.relayData
  split
  · exact .refl s
  · exact .of_ports rfl
theorem State.conveys_relayAnswer (s : State) (port off len : Nat) : s.Conveys (s.relayAnswer port off len) := by
  unfold State.relayAnswer
  split
  · exact .refl s
  · extract_lets total bs pieces msgs
    refine .foldl (fun s m => ?_) _ s
    refine State.Conveys.trans ?_ (.foldl (fun s x => s.conveys_queueControl _ _) _ _)
    exact .of_ports rfl
theorem State.conveys_controlDeliver (s : State) (port : Nat) (flit : List Byte) : s.Conveys (s.controlDeliver port flit) := by
  unfold State.controlDeliver
  dsimp only
  split
  · split
    · exact s.conveys_relayAnswer _ _ _
    · exact s.conveys_relayData _ _ _
    · exact .refl s
  · exact .refl s
theorem State.conveys_spread (s : State) (port : Nat) (flit : List Byte) : s.Conveys (s.spread port flit) := by
  unfold State.spread
  dsimp only
  split
  · exact .refl s
  · exact .foldl (fun s q => s.conveys_queueControl _ _) _ s
theorem State.conveys_unmatched (s : State) (port src owner channel : Nat) : s.Conveys (s.unmatched port src owner channel) :=
  ((s.gives_count port 4).trans (State.gives_post _ _ _ _ _ _)).conveys

/-! ## Transit (R381) -/

theorem State.conveys_transitDrop (s : State) (port word dest src : Nat) : s.Conveys (s.transitDrop port word dest src) := by
  have hcount := (s.gives_count port word).conveys
  unfold State.transitDrop
  extract_lets v now due
  split
  · refine hcount.trans ((State.Gives.trans ?_ (State.gives_post _ _ _ _ _ _)).conveys)
    exact v.gives_modPort port fun _ => ⟨_, _, _, _, rfl⟩
  · exact hcount
theorem State.conveys_forward (s : State) (port dest src at' : Nat) (tag : W16) (flit : List Byte) : s.Conveys (s.forward port dest src at' tag flit) := by
  unfold State.forward
  dsimp only
  split
  · exact s.conveys_transitDrop _ _ _ _
  · split
    · exact s.conveys_transitDrop _ _ _ _
    · exact (s.gives_queueFlit _ _).conveys
theorem State.conveys_controlFlitIn (s : State) (port : Nat) (flit : List Byte) : s.Conveys (s.controlFlitIn port flit) := by
  unfold State.controlFlitIn
  extract_lets dest src kind
  split
  · exact s.conveys_unmatched _ _ _ _
  · split
    · split
      · exact (s.conveys_controlDeliver port flit).trans (State.conveys_spread _ _ _)
      · split
        split
        · refine State.Conveys.trans (State.Conveys.trans ?_ (State.conveys_controlDeliver _ _ _)) (State.conveys_spread _ _ _)
          exact .of_ports rfl
        · exact .refl s
    · split
      · exact s.conveys_controlDeliver port flit
      · exact s.conveys_forward _ _ _ _ _ _

/-! ## Data and grants (R375, R376) -/

theorem State.conveys_collReceived (s : State) (m : Msg) : s.Conveys (s.collReceived m) := by
  unfold State.collReceived
  split
  · exact .refl s
  · next c _ =>
    extract_lets d
    split
    · exact .refl s
    · next cm _ =>
      extract_lets own bad consumed
      split
      next x fl _ =>
      extract_lets c' flagged put kept l received
      have hflagged : s.Lands flagged := (s.lands_linkConsume _ _ _ _).trans (consumed.gives_modPort _ fun _ => ⟨_, _, _, _, rfl⟩).toLands
      have hput : flagged.Lands put := by
        unfold put
        split
        · exact flagged.lands_refPut _ _ _ _ _
        · exact .refl flagged
      have hkept : put.Gives received := (put.gives_setColl c').trans (.of_eq rfl rfl rfl rfl)
      have hreceived : s.Lands received := (hflagged.trans hput).trans hkept.toLands
      split
      · exact hreceived.conveys
      · exact (hreceived.trans (State.lands_collEnter _ _ _)).conveys.trans (State.conveys_collSettle _)
theorem State.conveys_deliverData (s : State) (port src owner channel : Nat) (routed : Bool) (payload : List Byte) :
    s.Conveys (s.deliverData port src owner channel routed payload) := by
  unfold State.deliverData
  extract_lets fits
  split
  · exact s.conveys_unmatched _ _ _ _
  · next m _ =>
    extract_lets n r m' taken put received
    split
    · exact s.conveys_unmatched _ _ _ _
    · have htaken : s.Conveys taken := .of_ports rfl
      have hput : taken.Conveys put := by
        unfold put
        split
        · exact .refl taken
        · exact (taken.lands_refPut _ _ _ _ _).conveys
      have hreceived : put.Conveys received := by
        unfold received
        split
        · exact put.conveys_collReceived _
        · exact .refl put
      exact ((htaken.trans hput).trans hreceived).trans (received.gives_giveUnits _).conveys
theorem State.conveys_grantsIn (s : State) (way : Option Nat) (owner n : Nat) (bs : List Byte) : s.Conveys (s.grantsIn way owner n bs) := by
  refine .foldl (fun s k => ?_) _ s
  dsimp only
  split
  · exact .refl s
  · exact (s.takes_takeGrant _).conveys

/-- A flit of an accepted frame. -/
theorem State.conveys_flitIn (s : State) (port : Nat) (tag : W16) (flit : List Byte) : s.Conveys (s.flitIn port tag flit) := by
  unfold State.flitIn
  split
  · exact s.conveys_deliverData _ _ _ _ _ _
  · dsimp only
    split
    · split
      · exact s.conveys_grantsIn _ _ _ _
      · exact s.conveys_deliverData _ _ _ _ _ _
    · exact s.conveys_forward _ _ _ _ _ _
  · exact s.conveys_grantsIn _ _ _ _
  · exact s.conveys_controlFlitIn _ _
  · exact .refl s

end Sys2Proof.Machine
end

section
/-! FRAME_TRANSMIT, FRAME_RECEIVE and TIME_STEER (R366, R368, R390, R391). -/
namespace Sys2Proof.Machine

open Sys2Proof

/-! ## What a frame counts and carries -/

/-- A count leaves everything alone but its port's counter and, once it overflows, the event sequencer. -/
theorem State.count_frame (s : State) (port w : Nat) : ∃ l e, s.count port w = { s with lnk := l, es := e } ∧ l.msgs = s.lnk.msgs := by
  unfold State.count
  dsimp only
  split
  · exact ⟨_, _, rfl, rfl⟩
  · split
    · generalize hv : ({ s.setPort port _ with es := _ } : State) = v
      obtain ⟨e, he⟩ := v.post_frame 0x601 none ccAgent 0 (8 * port + w)
      rw [he, ← hv]
      exact ⟨_, _, rfl, rfl⟩
    · exact ⟨_, _, rfl, rfl⟩

/-- SEQ stands first in a frame. -/
theorem fld_frameOf_seq (seq ack : Nat) (nak : Bool) (tx rx rxSeq : Nat) (tags : List W16) (flits : List (List Byte)) :
    fld (frameOf seq ack nak tx rx rxSeq tags flits) 0 2 = seq % 65536 := by
  simp only [frameOf, controlBlock, List.append_assoc]
  exact fld_leBytes_append 2 seq _

/-- A number of 16 bits fits SEQ. -/
theorem toNat_mod_seq (x : W16) : x.toNat % 65536 = x.toNat := Nat.mod_eq_of_lt x.isLt

/-- A frame that goes out leaves the sequence of its port and its state alone. -/
theorem State.sendFrame_spec (s : State) (port seq : Nat) (tags : List W16) (flits : List (List Byte)) :
    let t := s.sendFrame port seq tags flits
    (t.port port).sent = (s.port port).sent ∧ (t.port port).replayAt = (s.port port).replayAt ∧ (t.port port).txSeq = (s.port port).txSeq ∧
      (t.port port).state = (s.port port).state ∧ fld (t.port port).wire 0 2 = seq % 65536 ∧ t.data = s.data ∧ t.parts = s.parts := by
  unfold State.sendFrame
  dsimp only
  rw [State.port_setPort]
  exact ⟨rfl, rfl, rfl, rfl, fld_frameOf_seq _ _ _ _ _ _ _ _, rfl, rfl⟩

/-! ## FRAME_TRANSMIT (R366, R368) -/

/-- A frame to replay has its next try. -/
def State.retried (s : State) (port : Nat) (f : SentFrame) : State :=
  let q := s.port port
  (s.setPort port { q with sent := q.sent.set q.replayAt { f with tries := f.tries + 1 }, replayAt := q.replayAt + 1 }).sendFrame port
    f.seq.toNat f.tags f.flits

/-- A new frame is kept until its ACK comes. -/
def Port.keeps (q : Port) (tags : List W16) (flits : List (List Byte)) (carried : List (Nat × Nat)) : Port :=
  { q with sent := q.sent ++ [{ seq := q.txSeq, tags := tags, flits := flits, carried := carried, tries := 0 }],
           replayAt := q.sent.length + 1, txSeq := q.txSeq + 1 }

/-- A new frame: its positions are filled, and it goes out under the next SEQ. -/
def State.newFrame (s : State) (port : Nat) : State :=
  let (fs, cr, v) := State.fillPositions port 24 (s.port port).cell s
  let w := v.modPort port (·.keeps (fs.map (·.1)) (fs.map (·.2)) cr)
  w.sendFrame port (((w.port port).txSeq - 1).toNat) (fs.map (·.1)) (fs.map (·.2))

theorem exec_frameTransmit_idle {s : State} {port : Nat} (h : 18 ≤ port ∨ (s.linkGo.port port).state ≠ .active) :
    exec (.frameTransmit port) s = .next s.linkGo :=
  congrArg Host.Outcome.next (if_pos (by simpa using h))

section
variable {s : State} {port : Nat} (hp : port < 18) (hactive : (s.linkGo.port port).state = .active)
include hp hactive

/-- An ACTIVE port replays a frame, unless its tries are over, or sends a new one, unless too many are outstanding. -/
theorem exec_frameTransmit : exec (.frameTransmit port) s =
    .next (match (s.linkGo.port port).sent[(s.linkGo.port port).replayAt]? with
      | some f => if 8 ≤ f.tries then s.linkGo.expireAll.portDown port 4 true else (s.linkGo.retried port f).count port 3
      | none => if 128 ≤ (s.linkGo.port port).sent.length then
          s.linkGo.sendFrame port ((s.linkGo.port port).txSeq - 1).toNat idleTags idleFlits
        else s.linkGo.newFrame port) :=
  congrArg Host.Outcome.next (if_neg (by simp [hp, hactive]))

theorem exec_frameTransmit_new (hreplay : (s.linkGo.port port).sent[(s.linkGo.port port).replayAt]? = none)
    (hroom : (s.linkGo.port port).sent.length < 128) : exec (.frameTransmit port) s = .next (s.linkGo.newFrame port) := by
  rw [exec_frameTransmit hp hactive, hreplay]
  exact congrArg Host.Outcome.next (if_neg (Nat.not_le.2 hroom))
theorem exec_frameTransmit_full (hreplay : (s.linkGo.port port).sent[(s.linkGo.port port).replayAt]? = none)
    (hfull : 128 ≤ (s.linkGo.port port).sent.length) : exec (.frameTransmit port) s =
      .next (s.linkGo.sendFrame port ((s.linkGo.port port).txSeq - 1).toNat idleTags idleFlits) := by
  rw [exec_frameTransmit hp hactive, hreplay]
  exact congrArg Host.Outcome.next (if_pos hfull)
theorem exec_frameTransmit_retry {f : SentFrame} (hreplay : (s.linkGo.port port).sent[(s.linkGo.port port).replayAt]? = some f)
    (htries : f.tries < 8) : exec (.frameTransmit port) s = .next ((s.linkGo.retried port f).count port 3) := by
  rw [exec_frameTransmit hp hactive, hreplay]
  exact congrArg Host.Outcome.next (if_neg (Nat.not_le.2 htries))
theorem exec_frameTransmit_over {f : SentFrame} (hreplay : (s.linkGo.port port).sent[(s.linkGo.port port).replayAt]? = some f)
    (htries : 8 ≤ f.tries) : exec (.frameTransmit port) s = .next (s.linkGo.expireAll.portDown port 4 true) := by
  rw [exec_frameTransmit hp hactive, hreplay]
  exact congrArg Host.Outcome.next (if_pos htries)

end

theorem State.newFrame_spec (s : State) (port : Nat) : let t := s.newFrame port
    ∃ f, (t.port port).sent = (s.port port).sent ++ [f] ∧ f.seq = (s.port port).txSeq ∧ f.tries = 0 ∧
      (t.port port).txSeq = (s.port port).txSeq + 1 ∧ fld (t.port port).wire 0 2 = (s.port port).txSeq.toNat ∧
      (t.port port).state = (s.port port).state := by
  have hfilled := (s.lands_fillPositions port 24 (s.port port).cell).conveys port
  unfold State.newFrame
  split
  next fs cr v hfill =>
  rw [hfill] at hfilled
  extract_lets w
  have hkept : w.port port = (v.port port).keeps (fs.map (·.1)) (fs.map (·.2)) cr := State.port_modPort _ _ _
  obtain ⟨hvstate, hvseq, hvsent, -⟩ := hfilled.sequence
  obtain ⟨hsent, -, hseq, hstate, hwire, -⟩ := w.sendFrame_spec port (((w.port port).txSeq - 1).toNat) (fs.map (·.1)) (fs.map (·.2))
  have hnext : (w.port port).txSeq = (s.port port).txSeq + 1 := by
    rw [hkept, ← hvseq]
    rfl
  refine ⟨{ seq := (v.port port).txSeq, tags := fs.map (·.1), flits := fs.map (·.2), carried := cr, tries := 0 }, ?_, hvseq, rfl, ?_, ?_, ?_⟩
  · rw [hsent, hkept, ← hvsent]
    rfl
  · rw [hseq, hnext]
  · refine hwire.trans ?_
    rw [hnext, BitVec.add_sub_cancel, toNat_mod_seq]
  · rw [hstate, hkept, ← hvstate]
    rfl

/-- With too many frames outstanding the last SEQ goes out once more (log entry 13). -/
theorem State.idleFrame_spec (s : State) (port : Nat) : let t := s.sendFrame port ((s.port port).txSeq - 1).toNat idleTags idleFlits
    (t.port port).sent = (s.port port).sent ∧ (t.port port).txSeq = (s.port port).txSeq ∧
      fld (t.port port).wire 0 2 = ((s.port port).txSeq - 1).toNat ∧ t.data = s.data ∧ t.parts = s.parts := by
  obtain ⟨hsent, -, hseq, -, hwire, hdata, hparts⟩ := s.sendFrame_spec port ((s.port port).txSeq - 1).toNat idleTags idleFlits
  exact ⟨hsent, hseq, hwire.trans (toNat_mod_seq _), hdata, hparts⟩

theorem State.retried_spec (s : State) (port : Nat) (f : SentFrame) : let q := s.port port
    let t := (s.retried port f).count port 3
    (t.port port).sent = q.sent.set q.replayAt { f with tries := f.tries + 1 } ∧ (t.port port).replayAt = q.replayAt + 1 ∧
      (t.port port).txSeq = q.txSeq ∧ fld (t.port port).wire 0 2 = f.seq.toNat ∧ t.data = s.data ∧ t.parts = s.parts := by
  intro q t
  obtain ⟨hsent, hat, hseq, -, hwire, hdata, hparts⟩ := (s.setPort port { q with
    sent := q.sent.set q.replayAt { f with tries := f.tries + 1 }, replayAt := q.replayAt + 1 }).sendFrame_spec port f.seq.toNat f.tags f.flits
  rw [State.port_setPort] at hsent hat hseq
  obtain ⟨-, hcseq, hcsent, hcat, hcwire, -⟩ := (((s.retried port f).gives_count port 3).conveys port).sequence
  obtain ⟨l, e, hframe, -⟩ := (s.retried port f).count_frame port 3
  refine ⟨hcsent.trans hsent, hcat.trans hat, hcseq.trans hseq, ?_, ?_, ?_⟩
  · unfold t
    rw [hcwire]
    exact hwire.trans (toNat_mod_seq _)
  · unfold t
    rw [hframe]
    exact hdata
  · unfold t
    rw [hframe]
    exact hparts

theorem State.port_post (s : State) (ty : Nat) (p : Option Nat) (src aux det r : Nat) : (s.post ty p src aux det).port r = s.port r :=
  congrArg (fun l : LnkRegs => tget Port.reset l.ports r) (State.post_lnk _ _ _ _ _ _)
/-- A port in service that goes DOWN by a fault keeps its frames, whatever the part that followed it does. -/
theorem State.port_parentLost (s : State) (port r : Nat) : (s.parentLost port).port r = s.port r := by
  unfold State.parentLost
  split
  · exact State.port_post _ _ _ _ _ _ r
  · rfl
theorem State.port_portDown (s : State) (port cause : Nat) (fault : Bool) :
    (s.portDown port cause fault).port port = { s.port port with state := .down, cause := cause } := by
  unfold State.portDown
  dsimp only
  split
  · rw [State.port_parentLost]
    split
    · rw [State.port_post, State.port_modPort]
    · rw [State.port_modPort]
  · rw [State.port_modPort]
theorem State.port_expireAll (s : State) (r : Nat) : s.expireAll.port r = s.port r := by
  obtain ⟨-, -, -, -, -, -, -, hlnk, -⟩ := (State.Drifts.foldl State.expireDue (fun s p => s.drifts_expireDue p) partNums s).frame
  exact congrArg (fun l : LnkRegs => tget Port.reset l.ports r) hlnk

/-! ## FRAME_RECEIVE (R368) -/

/-- What comes of a frame before it is accepted or discarded: its errors are counted and, where it is whole, its times taken (R390). -/
def State.heard (s : State) (port : Nat) (words : List Codeword) (content : List Byte) : State :=
  let v := words.foldl (fun s w => if w.wrong = 0 then s else s.count port (if w.decodes then 1 else 2)) s
  if frameWhole words content then v.exchange port content else v

/-- The valid flits of a frame are delivered. -/
def State.flitsIn (s : State) (port : Nat) (content : List Byte) : State :=
  (upTo 24).foldl (fun s k =>
    let t := BitVec.ofNat 16 (fld content (0x20 + 2 * k) 2)
    if tagValid t then s.flitIn port t ((content.drop (128 + 128 * k)).take 128) else s) s

/-- A frame that is accepted: the next SEQ is expected, what it acknowledges is so, and its flits are delivered. -/
def State.accepted (s : State) (port : Nat) (content : List Byte) : State :=
  (((s.modPort port (fun q => { q with rxNext := q.rxNext + 1, discarding := false, nak := false })).count port 0).acked port
    (BitVec.ofNat 16 (fld content 2 2)) (bit (byteAt content 4) 0)).flitsIn port content

/-- A port that discards a frame. -/
def Port.discards (q : Port) (whole : Bool) : Port := { q with discarding := true, nak := q.nak || !q.discarding || !whole }

theorem exec_frameReceive {s : State} {port : Nat} (words : List Codeword) (content : List Byte) (hp : port < 18) (hactive : (s.port port).state = .active) :
    let v := s.expireAll.linkGo.heard port words content
    exec (.frameReceive port words content) s = .next (
      if frameWhole words content && BitVec.ofNat 16 (fld content 0 2) = (v.port port).rxNext then v.accepted port content
      else v.modPort port (·.discards (frameWhole words content))) :=
  congrArg Host.Outcome.next (if_neg (by simp [hp, hactive]))

/-- What a frame's errors and times leave alone: what its port expects, and all but ports and the event sequencer. -/
structure State.Hears (port : Nat) (s t : State) : Prop where
  rxNext : (t.port port).rxNext = (s.port port).rxNext
  discarding : (t.port port).discarding = (s.port port).discarding
  state : (t.port port).state = (s.port port).state
  msgs : t.lnk.msgs = s.lnk.msgs
  data : t.data = s.data
  parts : t.parts = s.parts
  rst : t.rst = s.rst

theorem State.Hears.refl (port : Nat) (s : State) : s.Hears port s := ⟨rfl, rfl, rfl, rfl, rfl, rfl, rfl⟩
theorem State.Hears.trans {port : Nat} {s t u : State} (h : s.Hears port t) (h' : t.Hears port u) : s.Hears port u :=
  ⟨h'.rxNext.trans h.rxNext, h'.discarding.trans h.discarding, h'.state.trans h.state, h'.msgs.trans h.msgs, h'.data.trans h.data,
    h'.parts.trans h.parts, h'.rst.trans h.rst⟩
theorem State.Hears.foldl {α : Type} {port : Nat} {f : State → α → State} (h : ∀ (s : State) (x : α), s.Hears port (f s x)) (l : List α) :
    ∀ s : State, s.Hears port (l.foldl f s) := by
  induction l with
  | nil => exact .refl port
  | cons x l ih => exact fun s => (h s x).trans (ih _)

theorem State.hears_count (s : State) (port w : Nat) : s.Hears port (s.count port w) := by
  obtain ⟨hstate, -, -, -, -, hnext, hdiscarding, -⟩ := ((s.gives_count port w).conveys port).sequence
  obtain ⟨l, e, hframe, hmsgs⟩ := s.count_frame port w
  refine ⟨hnext, hdiscarding, hstate, ?_, ?_, ?_, ?_⟩ <;> rw [hframe]
  exact hmsgs
theorem Port.exchanged_expects (q : Port) (t1 t2 t3 t4 : Nat) : (q.exchanged t1 t2 t3 t4).rxNext = q.rxNext ∧
    (q.exchanged t1 t2 t3 t4).discarding = q.discarding ∧ (q.exchanged t1 t2 t3 t4).state = q.state := by
  unfold Port.exchanged
  dsimp only
  split <;> exact ⟨rfl, rfl, rfl⟩
theorem State.hears_exchange (s : State) (port : Nat) (content : List Byte) : s.Hears port (s.exchange port content) := by
  unfold State.exchange
  dsimp only
  split
  · obtain ⟨hnext, hdiscarding, hstate⟩ := (s.port port).exchanged_expects _ _ _ _
    refine ⟨?_, ?_, ?_, rfl, rfl, rfl, rfl⟩ <;> rw [State.port_setPort]
    · exact hnext
    · exact hdiscarding
    · exact hstate
  · refine ⟨?_, ?_, ?_, rfl, rfl, rfl, rfl⟩ <;> rw [State.port_setPort]
theorem State.hears_heard (s : State) (port : Nat) (words : List Codeword) (content : List Byte) : s.Hears port (s.heard port words content) := by
  have hcounted := State.Hears.foldl (port := port)
    (f := fun (s : State) (w : Codeword) => if w.wrong = 0 then s else s.count port (if w.decodes then 1 else 2))
    (fun s w => by
      split
      · exact .refl port s
      · exact s.hears_count port _) words s
  unfold State.heard
  dsimp only
  split
  · exact hcounted.trans (State.hears_exchange _ port content)
  · exact hcounted

theorem State.conveys_flitsIn (s : State) (port : Nat) (content : List Byte) : s.Conveys (s.flitsIn port content) := by
  refine .foldl (fun s k => ?_) _ s
  dsimp only
  split
  · exact s.conveys_flitIn _ _ _
  · exact .refl s
theorem State.port_acked (s : State) (port : Nat) (ack : W16) (nak : Bool) :
    ∃ sent at', (s.acked port ack nak).port port = { s.port port with sent := sent, replayAt := at' } := ⟨_, _, State.port_setPort _ _ _⟩

/-- An accepted frame moves the SEQ expected on by one; no flit of it does more to its port than any traffic. -/
theorem State.accepted_spec (s : State) (port : Nat) (content : List Byte) : let t := s.accepted port content
    (t.port port).rxNext = (s.port port).rxNext + 1 ∧ (t.port port).discarding = false ∧ (t.port port).nak = false ∧
      (t.port port).state = (s.port port).state := by
  unfold State.accepted
  generalize hv : s.modPort port _ = v
  have hvport := State.port_modPort s port (fun q => { q with rxNext := q.rxNext + 1, discarding := false, nak := false })
  rw [hv] at hvport
  obtain ⟨hcstate, -, -, -, -, hcnext, hcdiscarding, hcnak⟩ := ((v.gives_count port 0).conveys port).sequence
  generalize v.count port 0 = w at hcstate hcnext hcdiscarding hcnak
  obtain ⟨_, _, hacked⟩ := w.port_acked port (BitVec.ofNat 16 (fld content 2 2)) (bit (byteAt content 4) 0)
  obtain ⟨htstate, -, -, -, -, htnext, htdiscarding, htnak⟩ := (State.conveys_flitsIn
    (w.acked port (BitVec.ofNat 16 (fld content 2 2)) (bit (byteAt content 4) 0)) port content port).sequence
  rw [hacked] at htstate htnext htdiscarding htnak
  rw [hvport] at hcstate hcnext hcdiscarding hcnak
  exact ⟨htnext.trans hcnext, htdiscarding.trans hcdiscarding, htnak.trans hcnak, htstate.trans hcstate⟩

/-- A frame that is whole and in order is accepted. -/
theorem frameReceive_accepts {s : State} {port : Nat} {words : List Codeword} {content : List Byte} (hp : port < 18)
    (hactive : (s.port port).state = .active) (hwhole : frameWhole words content = true)
    (horder : BitVec.ofNat 16 (fld content 0 2) = (s.expireAll.linkGo.port port).rxNext) :
    exec (.frameReceive port words content) s = .next ((s.expireAll.linkGo.heard port words content).accepted port content) := by
  have hheard := s.expireAll.linkGo.hears_heard port words content
  rw [exec_frameReceive words content hp hactive, hheard.rxNext, hwhole, horder]
  exact congrArg Host.Outcome.next (if_pos (by simp))

/-- Any other frame is discarded. -/
theorem frameReceive_discards {s : State} {port : Nat} {words : List Codeword} {content : List Byte} (hp : port < 18)
    (hactive : (s.port port).state = .active)
    (h : frameWhole words content = false ∨ BitVec.ofNat 16 (fld content 0 2) ≠ (s.expireAll.linkGo.port port).rxNext) :
    exec (.frameReceive port words content) s =
      .next ((s.expireAll.linkGo.heard port words content).modPort port (·.discards (frameWhole words content))) := by
  have hheard := s.expireAll.linkGo.hears_heard port words content
  rw [exec_frameReceive words content hp hactive, hheard.rxNext]
  refine congrArg Host.Outcome.next (if_neg ?_)
  obtain hdamaged | horder := h
  · simp [hdamaged]
  · simp [horder]

/-! ## TIME_STEER (R391) -/

/-- The mean offset in nanoseconds, of twice the sum of 1,024 offsets: rounded down, or up where the free value `k` is odd (log entry 14). -/
def meanOffset (sum : Int) (k : Nat) : Int := sum / 2048 + (if sum % 2048 ≠ 0 then ((k % 2 : Nat) : Int) else 0)

theorem meanOffset_near (sum : Int) (k : Nat) : meanOffset sum k * 2048 - 2048 < sum ∧ sum < meanOffset sum k * 2048 + 2048 := by
  unfold meanOffset
  split <;> omega

/-- The mean has been used: the rate is steered by at most 200 ppm, and the mean is shown. -/
def State.steered (s : State) (sum : Int) (k k' n : Nat) : State :=
  let v := s.modPort s.lnk.parent (fun q => { q with mean := none })
  { v with
    freeCtr := n
    steer := ((k' % 401 : Nat) : Int) - 200
    lnk := { v.lnk with timeState := if -4096 ≤ sum && sum ≤ 4096 then 2 else 1
                        offset := BitVec.ofNat 16 (ofSigned 16 (clampInt (-32767) 32767 (meanOffset sum k))) } }

theorem State.steer_steered (s : State) (sum : Int) (k k' n : Nat) : -200 ≤ (s.steered sum k k' n).steer ∧ (s.steered sum k k' n).steer ≤ 200 := by
  unfold State.steered
  dsimp only
  omega
theorem State.port_steered (s : State) (sum : Int) (k k' n : Nat) :
    (s.steered sum k k' n).port s.lnk.parent = { s.port s.lnk.parent with mean := none } :=
  State.port_modPort _ _ (fun q => { q with mean := none })
theorem State.port_steered_ne (s : State) (sum : Int) (k k' n : Nat) {r : Nat} (hr : r ≠ s.lnk.parent) : (s.steered sum k k' n).port r = s.port r :=
  State.port_modPort_ne _ (fun q => { q with mean := none }) hr
theorem State.timeState_steered (s : State) (sum : Int) (k k' n : Nat) :
    (s.steered sum k k' n).lnk.timeState = 2 ↔ -4096 ≤ sum ∧ sum ≤ 4096 := by
  unfold State.steered
  dsimp only
  split
  · next hlocked => simpa using hlocked
  · next hfree => simpa using hfree

theorem exec_timeSteer {s : State} {sum : Int} (hfollows : s.lnk.following = true) (hready : s.rst.everReady = true)
    (hmean : (s.port s.lnk.parent).mean = some sum) : ∃ k k' n, exec .timeSteer s = .next (s.steered sum k k' n) := by
  refine ⟨s.draw.1, s.draw.2.draw.1, s.draw.2.draw.2.freeCtr, congrArg Host.Outcome.next ?_⟩
  dsimp only
  rw [hmean, hfollows, hready]
  rfl

theorem exec_timeSteer_idle {s : State} (h : (s.port s.lnk.parent).mean = none ∨ s.lnk.following = false ∨ s.rst.everReady = false) :
    exec .timeSteer s = .next s := by
  refine congrArg Host.Outcome.next ?_
  dsimp only
  split
  · next sum hmean =>
    rw [hmean] at h
    obtain h | h | h := h
    · cases h
    · rw [h]
      rfl
    · rw [h, Bool.and_false]
      rfl
  · rfl

/-- Settles O44: a frame sent leaves its port's sequence as its kind says; one received is accepted or discarded by what the port expects, which
neither its errors nor what it conveys change; the steering and the rounding lie within R391 whatever the free values are. -/
theorem framesExchanged : Obligations.FramesExchanged := by
  unfold Obligations.FramesExchanged
  refine ⟨?_, ?_, ?_⟩
  · intro s port u q
    refine ⟨exec_frameTransmit_idle, fun hp hactive =>
      ⟨fun hreplay hroom => ?_, fun hreplay hfull => ?_, fun f hreplay htries => ?_, fun f hreplay htries => ?_⟩⟩
    · obtain ⟨f, hnew⟩ := u.newFrame_spec port
      rw [hactive] at hnew
      exact ⟨_, f, exec_frameTransmit_new hp hactive hreplay hroom, hnew⟩
    · exact ⟨_, exec_frameTransmit_full hp hactive hreplay hfull, u.idleFrame_spec port⟩
    · exact ⟨_, exec_frameTransmit_retry hp hactive hreplay htries, u.retried_spec port f⟩
    · refine ⟨_, exec_frameTransmit_over hp hactive hreplay htries, ?_⟩
      rw [State.port_portDown, State.port_expireAll]
      exact ⟨rfl, rfl, rfl⟩
  · intro s port words content hp hactive u q
    have hheard := u.hears_heard port words content
    refine ⟨fun hwhole horder => ⟨_, frameReceive_accepts hp hactive hwhole horder, ?_⟩, fun h => ⟨_, frameReceive_discards hp hactive h, ?_⟩⟩
    · obtain ⟨hnext, hdiscarding, hnak, hstate⟩ := (u.heard port words content).accepted_spec port content
      exact ⟨hnext.trans (congrArg (· + 1) hheard.rxNext), hdiscarding, hnak, hstate.trans hheard.state⟩
    · rw [State.port_modPort]
      refine ⟨hheard.rxNext, rfl, fun hkeeping => ?_, fun hdamaged => ?_, hheard.msgs, hheard.data, hheard.parts, hheard.rst⟩
      · have hwas := hheard.discarding.trans hkeeping
        simp only [Port.discards]
        rw [hwas, Bool.not_false, Bool.or_true, Bool.true_or]
      · simp [Port.discards, hdamaged]
  · intro s q
    refine ⟨fun sum hfollows hready hmean => ?_, exec_timeSteer_idle⟩
    obtain ⟨k, k', n, hexec⟩ := exec_timeSteer hfollows hready hmean
    obtain ⟨hlow, hhigh⟩ := meanOffset_near sum k
    obtain ⟨hleast, hmost⟩ := s.steer_steered sum k k' n
    exact ⟨_, hexec, hleast, hmost, s.port_steered sum k k' n, s.timeState_steered sum k k' n, ⟨meanOffset sum k, hlow, hhigh, rfl⟩,
      fun r hr => s.port_steered_ne sum k k' n hr, rfl, rfl, rfl, rfl⟩

end Sys2Proof.Machine
end

section
/-! What every step keeps: the queue behind the front command, the bound of the event buffer, the range and order of the anti-rollback
counter, and the canonical form of the memories. -/
namespace Sys2Proof.Machine

open Sys2Proof

/-- What every step keeps, from one state to another: the queue of commands, the bound of the event buffer (R441), the range of the
anti-rollback counter, which does not fall (R531), and the canonical form of the memories. -/
structure State.Keeps (s t : State) : Prop where
  queue : t.pending = s.pending
  buffer : s.esBounded → t.esBounded
  counter : s.rollbackOk → t.rollbackOk ∧ s.sec.arb.toNat ≤ t.sec.arb.toNat
  form : s.data.wf = true → t.data.wf = true

/-- A meaning that goes on to a state which keeps all that. -/
def State.Goes (s : State) (o : Out) : Prop := ∃ t, o = .next t ∧ s.Keeps t

theorem State.Keeps.refl (s : State) : s.Keeps s := ⟨rfl, id, fun h => ⟨h, le_rfl⟩, id⟩

theorem State.Keeps.trans {s t u : State} (h : s.Keeps t) (h' : t.Keeps u) : s.Keeps u where
  queue := h'.queue.trans h.queue
  buffer := h'.buffer ∘ h.buffer
  counter hs := ⟨(h'.counter (h.counter hs).1).1, (h.counter hs).2.trans (h'.counter (h.counter hs).1).2⟩
  form := h'.form ∘ h.form

/-- One change after another; the later one first, since it says what the earlier one has to give. -/
theorem State.Keeps.after {s t u : State} (h' : t.Keeps u) (h : s.Keeps t) : s.Keeps u := h.trans h'

/-- A change of none of the fields that matter. -/
theorem State.Keeps.same {s t : State} (h : (t.pending, t.es.buffer, t.sec.fwSvn, t.sec.arb, t.sec.advancing, t.data) =
    (s.pending, s.es.buffer, s.sec.fwSvn, s.sec.arb, s.sec.advancing, s.data)) : s.Keeps t := by
  simp only [Prod.mk.injEq] at h
  obtain ⟨hq, hb, hv, ha, hn, hd⟩ := h
  exact ⟨hq, by simp [State.esBounded, hb], by simp [State.rollbackOk, hv, ha, hn], by simp [hd]⟩

theorem State.Keeps.ite {s t u : State} {c : Prop} [Decidable c] (h : s.Keeps t) (h' : s.Keeps u) : s.Keeps (if c then t else u) := by
  split
  · exact h
  · exact h'

theorem State.Keeps.foldl {α : Type} {f : State → α → State} (h : ∀ s x, State.Keeps s (f s x)) (l : List α) (s : State) :
    s.Keeps (l.foldl f s) := by
  induction l generalizing s with
  | nil => exact .refl _
  | cons x l ih => exact (ih _).after (h s x)

/-- A fold over states that carry something else along. -/
theorem State.Keeps.foldl_fst {α β : Type} {f : State × β → α → State × β} (h : ∀ a x, State.Keeps a.1 (f a x).1) (l : List α) (a : State × β) :
    a.1.Keeps (l.foldl f a).1 := by
  induction l generalizing a with
  | nil => exact .refl _
  | cons x l ih => exact (ih _).after (h a x)

theorem State.Keeps.foldl_snd {α β : Type} {f : β × State → α → β × State} (h : ∀ a x, State.Keeps a.2 (f a x).2) (l : List α) (a : β × State) :
    a.2.Keeps (l.foldl f a).2 := by
  induction l generalizing a with
  | nil => exact .refl _
  | cons x l ih => exact (ih _).after (h a x)

/-- A meaning that follows a change. -/
theorem State.Goes.after {s t : State} {o : Out} (h : s.Keeps t) (g : t.Goes o) : s.Goes o :=
  let ⟨u, ho, hk⟩ := g
  ⟨u, ho, h.trans hk⟩

theorem State.Goes.ite {s : State} {o o' : Out} {c : Prop} [Decidable c] (h : s.Goes o) (h' : s.Goes o') : s.Goes (if c then o else o') := by
  split
  · exact h
  · exact h'

/-- The state that a result of three parts leaves, where the result is known. -/
theorem State.Keeps.result {α β : Type} {s t u : State} {x : α × β × State} {a : α} {b : β} (h : s.Keeps t) (hx : t.Keeps x.2.2) (he : x = (a, b, u)) :
    s.Keeps u := by
  rw [he] at hx
  exact h.trans hx

/-- The same where it has two parts, the state first or last. -/
theorem State.Keeps.fst {α : Type} {s t u : State} {x : State × α} {a : α} (h : s.Keeps t) (hx : t.Keeps x.1) (he : x = (u, a)) : s.Keeps u := by
  rw [he] at hx
  exact h.trans hx
theorem State.Keeps.snd {α : Type} {s t u : State} {x : α × State} {a : α} (h : s.Keeps t) (hx : t.Keeps x.2) (he : x = (a, u)) : s.Keeps u := by
  rw [he] at hx
  exact h.trans hx

theorem State.Keeps.ite_fst {α : Type} {s : State} {x y : State × α} {c : Prop} [Decidable c] (h : s.Keeps x.1) (h' : s.Keeps y.1) :
    s.Keeps (if c then x else y).1 := by
  split
  · exact h
  · exact h'
theorem State.Keeps.ite_snd {α : Type} {s : State} {x y : α × State} {c : Prop} [Decidable c] (h : s.Keeps x.2) (h' : s.Keeps y.2) :
    s.Keeps (if c then x else y).2 := by
  split
  · exact h
  · exact h'

/-- A change of the memories alone. -/
theorem State.Keeps.memory {s t : State} (h : (t.pending, t.es.buffer, t.sec.fwSvn, t.sec.arb, t.sec.advancing) =
    (s.pending, s.es.buffer, s.sec.fwSvn, s.sec.arb, s.sec.advancing)) (hd : s.data.wf = true → t.data.wf = true) : s.Keeps t := by
  simp only [Prod.mk.injEq] at h
  obtain ⟨hq, hb, hv, ha, hn⟩ := h
  exact ⟨hq, by simp [State.esBounded, hb], by simp [State.rollbackOk, hv, ha, hn], hd⟩

/-! ### The canonical form of the memories -/

theorem Data.wf_iff (d : Data) : d.wf = true ↔ (∀ sp, Memory.wf (d.bytes sp) = true ∧ Tab.wf 0 (d.poison sp) = true) ∧
    (Memory.wf d.host = true ∧ Tab.wf 0 d.hostP = true) ∧
    (Tab.wf 0 d.galley = true ∧ Tab.wf 0 d.galleyN = true ∧ Tab.wf 0 d.galleyP = true) ∧ Tab.wf 0 d.storeTag = true := by
  constructor
  · intro h
    simp only [Data.wf, Bool.and_eq_true] at h
    refine ⟨fun sp => ?_, ?_, ?_, ?_⟩ <;> first | (cases sp <;> simp_all [Data.bytes, Data.poison]) | simp_all
  · rintro ⟨hs, ⟨hh, hp⟩, ⟨hg, hn, hq⟩, ht⟩
    have h1 := hs .core; have h2 := hs .sram; have h3 := hs .store
    have h4 := hs .dev; have h5 := hs .staging; have h6 := hs .scalar
    simp_all [Data.wf, Data.bytes, Data.poison]

/-- A memory with its marks of poison replaced. -/
theorem Data.wf_put {d : Data} (h : d.wf = true) (sp : Space) {b : Tab Byte} {q : Tab Nat} (hb : Memory.wf b = true) (hq : Tab.wf 0 q = true) :
    (d.put sp b q).wf = true := by
  rw [Data.wf_iff] at h ⊢
  obtain ⟨hs, hh, hg, ht⟩ := h
  refine ⟨fun sp' => ?_, ?_, ?_, ?_⟩
  · have h := hs sp'
    cases sp <;> cases sp' <;> first | exact ⟨hb, hq⟩ | exact h
  all_goals cases sp <;> assumption

theorem Data.wf_write {d : Data} (h : d.wf = true) (sp : Space) (a : Nat) (r : Run) : (d.write sp a r).wf = true :=
  have ⟨hb, hq⟩ := ((Data.wf_iff d).1 h).1 sp
  Data.wf_put h sp (Memory.wf_writeBytes hb _ _) (Tab.wf_poisonMarks _ _ hq _ _)

/-- Host memory with its marks replaced. -/
theorem Data.wf_host {d : Data} (h : d.wf = true) {b : Tab Byte} {q : Tab Nat} (hb : Memory.wf d.host = true → Memory.wf b = true)
    (hq : Tab.wf 0 d.hostP = true → Tab.wf 0 q = true) : ({ d with host := b, hostP := q } : Data).wf = true := by
  rw [Data.wf_iff] at h ⊢
  obtain ⟨hs, ⟨hh, hp⟩, hg, ht⟩ := h
  exact ⟨fun sp => by have h := hs sp; cases sp <;> exact h, ⟨hb hh, hq hp⟩, hg, ht⟩

/-- The galleys replaced. -/
theorem Data.wf_galleys {d : Data} (h : d.wf = true) {g : Tab Nat} {n p : Tab Nat} (hg : Tab.wf 0 d.galley = true → Tab.wf 0 g = true)
    (hn : Tab.wf 0 d.galleyN = true → Tab.wf 0 n = true) (hp : Tab.wf 0 d.galleyP = true → Tab.wf 0 p = true) :
    ({ d with galley := g, galleyN := n, galleyP := p } : Data).wf = true := by
  rw [Data.wf_iff] at h ⊢
  obtain ⟨hs, hh, ⟨h1, h2, h3⟩, ht⟩ := h
  exact ⟨fun sp => by have h := hs sp; cases sp <;> exact h, hh, ⟨hg h1, hn h2, hp h3⟩, ht⟩

/-- The tags of the activation stores replaced. -/
theorem Data.wf_tags {d : Data} (h : d.wf = true) {t : Tab Nat} (ht : Tab.wf 0 d.storeTag = true → Tab.wf 0 t = true) :
    ({ d with storeTag := t } : Data).wf = true := by
  rw [Data.wf_iff] at h ⊢
  obtain ⟨hs, hh, hg, h1⟩ := h
  exact ⟨fun sp => by have h := hs sp; cases sp <;> exact h, hh, hg, ht h1⟩

/-- Bytes and their marks lost. -/
theorem Data.wf_clear {d : Data} (h : d.wf = true) (sp : Space) (a n b m : Nat) :
    (d.put sp (tclear (d.bytes sp) a n) (tclear (d.poison sp) b m)).wf = true :=
  have ⟨hb, hq⟩ := ((Data.wf_iff d).1 h).1 sp
  Data.wf_put h sp (Tab.wf_tclear hb ..) (Tab.wf_tclear hq ..)

theorem Tab.wf_foldl_tset {α β : Type} [DecidableEq α] {d : α} {t : Tab α} (h : Tab.wf d t = true) (k : β → Nat) (v : β → α) (l : List β) :
    Tab.wf d (l.foldl (fun m x => tset d m (k x) (v x)) t) = true := by
  induction l generalizing t with
  | nil => exact h
  | cons x l ih => exact ih (Tab.wf_tset h _ _)

end Sys2Proof.Machine
end

section
/-! The basic operations of the state keep it. -/
namespace Sys2Proof.Machine

open Sys2Proof

/-! ### Machine/Ops -/

theorem State.keeps_setPart (s : State) (p : Nat) (x : Part) : s.Keeps (s.setPart p x) := by
  unfold State.setPart
  exact .same (by rfl)

theorem State.keeps_modPart (s : State) (p : Nat) (f : Part → Part) : s.Keeps (s.modPart p f) := by
  unfold State.modPart
  exact State.keeps_setPart ..

theorem State.keeps_setDom (s : State) (d : Nat) (x : Dom) : s.Keeps (s.setDom d x) := by
  unfold State.setDom
  dsimp only
  exact .same (by rfl)

theorem State.keeps_setPort (s : State) (q : Nat) (x : Port) : s.Keeps (s.setPort q x) := by
  unfold State.setPort
  dsimp only
  exact .same (by rfl)

theorem State.keeps_modPort (s : State) (q : Nat) (f : Port → Port) : s.Keeps (s.modPort q f) := by
  unfold State.modPort
  exact State.keeps_setPort ..

theorem State.keeps_setRec (s : State) (e : Nat) (x : StreamRec) : s.Keeps (s.setRec e x) := by
  unfold State.setRec
  dsimp only
  exact .same (by rfl)

theorem State.keeps_draw (s : State) : s.Keeps s.draw.2 := by
  unfold State.draw
  exact .same (by rfl)

theorem State.keeps_write (s : State) (sp : Space) (a : Nat) (r : Run) : s.Keeps (s.write sp a r) :=
  .memory (by rfl) fun h => Data.wf_write h sp a r

theorem State.keeps_store (s : State) (sp : Space) (a : Nat) (bs : List Byte) : s.Keeps (s.store sp a bs) := by
  unfold State.store
  exact State.keeps_write ..

theorem State.keeps_hostSend (s : State) (a : Nat) (r : Run) : s.Keeps (s.hostSend a r) :=
  .memory (by rfl) fun h => Data.wf_host h (fun h => Memory.wf_writeBytes h _ _) (fun h => Tab.wf_poisonMarks _ _ h _ _)

theorem State.keeps_hostWrite (s : State) (a : Nat) (bs : List Byte) : s.Keeps (s.hostWrite a bs) :=
  .memory (by rfl) fun h => Data.wf_host h (fun h => Memory.wf_writeBytes h _ _) (fun h => Tab.wf_poisonMarks _ _ h _ _)

theorem State.keeps_hostStores (s : State) (l : List HostStore) : s.Keeps (s.hostStores l) :=
  .memory (by rfl) fun h => Data.wf_host h (fun h => Tab.wf_foldl_tset h _ _ _) (fun h => Tab.wf_foldl_tset h _ _ _)

/-- A direct access to a register block (R497; log entry 46). -/
theorem State.direct_goes {s : State} {f : State → State} (h : ∀ s, State.Keeps s (f s)) : s.Goes (s.direct f) :=
  ⟨_, rfl, .ite (.refl _) (h s)⟩

theorem State.keeps_stamp (s : State) : s.Keeps s.stamp.2 := by
  unfold State.stamp
  dsimp only
  exact .same (by rfl)

/-- The events-lost record enters only where there is room (R441). -/
theorem State.keeps_enterLost (s : State) : s.Keeps s.enterLost := by
  unfold State.enterLost
  split
  · exact .refl _
  · next h =>
    refine ⟨rfl, fun _ => ?_, fun h => ⟨h, le_rfl⟩, id⟩
    simp only [Bool.or_eq_true, decide_eq_true_eq, not_or] at h
    simp only [State.esBounded, State.stamp, List.length_append, List.length_singleton]
    omega

/-- An event's record enters only where there is room (R441). -/
theorem State.keeps_event (s : State) (type : Nat) (part : Option Nat) (source aux detail : Nat) : s.Keeps (s.event type part source aux detail).2 := by
  unfold State.event
  dsimp only
  generalize hu : s.enterLost = u
  refine State.Keeps.after ?_ (hu ▸ s.keeps_enterLost)
  split
  · exact .same (by rfl)
  · split
    · exact .same (by rfl)
    · next h =>
      refine ⟨rfl, fun _ => ?_, fun h => ⟨h, le_rfl⟩, id⟩
      simp only [State.stamp] at h
      simp only [State.esBounded, State.stamp, List.length_append, List.length_singleton]
      omega

theorem State.keeps_post (s : State) (type : Nat) (part : Option Nat) (source aux detail : Nat) : s.Keeps (s.post type part source aux detail) := by
  unfold State.post
  exact State.keeps_event ..

theorem State.keeps_advertise (s : State) : s.Keeps s.advertise := by
  unfold State.advertise
  dsimp only
  exact .same (by rfl)

theorem State.keeps_count (s : State) (port w : Nat) : s.Keeps (s.count port w) := by
  unfold State.count
  dsimp only
  exact .ite (.refl _) (.ite ((State.keeps_post ..).after (.after (.same (by rfl)) (State.keeps_setPort ..))) (State.keeps_setPort ..))

theorem State.keeps_complete (s : State) (ring tag stamp part status reason value detail : Nat) : s.Keeps
    (s.complete ring tag stamp part status reason value detail) := by
  unfold State.complete
  dsimp only
  exact .after (.same (by rfl)) (State.keeps_stamp ..)

theorem State.keeps_setPState (s : State) (st : PState) (reason dom : Nat) : s.Keeps (s.setPState st reason dom) := by
  unfold State.setPState
  dsimp only
  exact .ite ((State.keeps_advertise ..).after ((State.keeps_post ..).after (.same (by rfl)))) (.same (by rfl))

theorem State.keeps_lose (s : State) (reason : Nat) : s.Keeps (s.lose reason) := by
  unfold State.lose
  exact .ite (.refl _) (State.keeps_setPState ..)

theorem State.keeps_freeze (s : State) (p : Nat) (c : Cause) (cyc : Nat) : s.Keeps (s.freeze p c cyc) := by
  unfold State.freeze
  exact State.keeps_modPart ..

theorem State.keeps_breach (s : State) (p cyc : Nat) (b : BreachInfo) : s.Keeps (s.breach p cyc b) := by
  have h := s.keeps_event 1 (some p) b.agentA 0 b.cls
  unfold State.breach
  generalize s.event 1 (some p) b.agentA 0 b.cls = x at h
  obtain ⟨q, t⟩ := x
  exact (State.keeps_freeze ..).after (.trans h (.same (by rfl)))

theorem State.keeps_consume (s : State) (p cyc origin agent action where' : Nat) : s.Keeps (s.consume p cyc origin agent action where') := by
  unfold State.consume
  dsimp only
  exact .ite (.refl _) ((State.keeps_freeze ..).after (.after (.same (by rfl)) (State.keeps_event ..)))

theorem State.keeps_secErr (s : State) (origin where' : Nat) : s.Keeps (s.secErr origin where') := by
  unfold State.secErr
  dsimp only
  exact .same (by rfl)

theorem State.keeps_secUnc (s : State) (origin where' : Nat) : s.Keeps (s.secUnc origin where') := by
  unfold State.secUnc
  dsimp only
  exact .same (by rfl)

theorem State.keeps_setPte (s : State) (k : Nat) (v : BitVec 64) : s.Keeps (s.setPte k v) := by
  unfold State.setPte
  dsimp only
  exact .same (by rfl)

theorem State.keeps_devWrite (s : State) (a : Nat) (r : Run) : s.Keeps (s.devWrite a r) := by
  unfold State.devWrite
  exact .ite (State.keeps_write ..) (State.keeps_hostSend ..)

theorem State.keeps_orMe (s : State) (c : Nat) (f : BitVec 4) : s.Keeps (s.orMe c f) := by
  unfold State.orMe
  dsimp only
  exact .same (by rfl)

theorem State.keeps_orVe (s : State) (c : Nat) (f : BitVec 4) : s.Keeps (s.orVe c f) := by
  unfold State.orVe
  dsimp only
  exact .same (by rfl)

theorem State.keeps_orEng (s : State) (e : Nat) (f : BitVec 4) : s.Keeps (s.orEng e f) := by
  unfold State.orEng
  dsimp only
  exact .ite (.same (by rfl)) (.same (by rfl))

theorem State.keeps_trapOne (s : State) (p : Nat) (d : NanDue) : s.Keeps (s.trapOne p d) := by
  unfold State.trapOne
  dsimp only
  refine .ite ?_ ?_
  · exact .same (by rfl)
  · exact .ite ((State.keeps_post ..).after (.same (by rfl))) ((State.keeps_freeze ..).after ((State.keeps_post ..).after (.same (by rfl))))

theorem State.keeps_trapNans (s : State) (p core opId action issue fmtA fmtB : Nat) (ns : List NanAt) : s.Keeps
    (s.trapNans p core opId action issue fmtA fmtB ns) := by
  unfold State.trapNans
  exact State.keeps_modPart ..

/-! ### Machine/CacheSet -/

theorem State.keeps_fwWrite (s : State) (a n v : Nat) : s.Keeps (s.fwWrite a n v) := by
  unfold State.fwWrite
  exact State.keeps_devWrite ..

theorem State.keeps_putSeq (s : State) (c : CacheSet) (slot : Nat) (e : SeqEntry) : s.Keeps (s.putSeq c slot e) := by
  unfold State.putSeq
  exact State.keeps_devWrite ..

theorem State.keeps_takePage (s : State) (e : CacheEng) {x : Nat × State} (h : s.takePage e = some x) : s.Keeps x.2 := by
  unfold State.takePage at h
  split at h
  · cases h
  · cases h; exact State.keeps_fwWrite ..

theorem State.keeps_givePage (s : State) (c : CacheSet) (i page : Nat) : s.Keeps (s.givePage c i page) := by
  unfold State.givePage
  dsimp only
  exact (State.keeps_fwWrite ..).after (State.keeps_fwWrite ..)

theorem State.keeps_leaveSlot (s : State) (c : CacheSet) (slot : Nat) : s.Keeps (s.leaveSlot c slot) := by
  unfold State.leaveSlot
  dsimp only
  exact (State.keeps_putSeq ..).after (.foldl (fun s x => .ite ((State.keeps_fwWrite ..).after (.ite (.refl _) (State.keeps_givePage ..)))
    (.refl _)) _ _)

theorem State.keeps_joinSlot (s : State) (c : CacheSet) (slot seqId : Nat) : s.Keeps (s.joinSlot c slot seqId) := by
  unfold State.joinSlot
  exact State.keeps_putSeq ..

theorem State.keeps_notHeld (s : State) (p slot : Nat) : s.Keeps (s.notHeld p slot) := by
  unfold State.notHeld
  exact State.keeps_modPart ..

theorem State.keeps_placeSlot (s : State) (p : Nat) (c : CacheSet) (acc : List (Nat × Nat × Nat)) (slot : Nat) :
    s.Keeps (s.placeSlot p c acc slot).1 := by
  unfold State.placeSlot
  dsimp only
  split
  · exact .refl _
  · split
    · exact (State.keeps_post ..).after (State.keeps_putSeq ..)
    · split
      · dsimp only
        exact (State.keeps_modPart ..).after (State.keeps_putSeq ..)
      · split
        · exact State.keeps_putSeq ..
        · dsimp only
          exact (State.keeps_modPart ..).after ((State.keeps_post ..).after (State.keeps_putSeq ..))

theorem State.keeps_placeAll (s : State) (p : Nat) (c : CacheSet) : s.Keeps (s.placeAll p c) := by
  unfold State.placeAll
  refine .after (.foldl (fun _ _ => .foldl (fun _ _ => State.keeps_fwWrite ..) _ _) _ _) ?_
  exact .foldl_fst (f := fun a slot => a.1.placeSlot p c a.2 slot) (fun a _ => a.1.keeps_placeSlot ..) _ (s, [])

theorem State.keeps_commitPending (s : State) (c : CacheSet) : s.Keeps (s.commitPending c) := by
  unfold State.commitPending
  dsimp only
  exact .foldl (fun s x => (State.keeps_putSeq ..)) _ _

theorem State.keeps_clearPending (s : State) (c : CacheSet) : s.Keeps (s.clearPending c) := by
  unfold State.clearPending
  dsimp only
  exact .foldl (fun s x => (State.keeps_putSeq ..)) _ _

/-! ### Machine/Floorplan -/

theorem State.keeps_setLink (s : State) (key : Nat) (l : List Hop) : s.Keeps (s.setLink key l) := by
  unfold State.setLink
  dsimp only
  exact .same (by rfl)

theorem State.keeps_deliver (s : State) (a b key : Nat) : s.Keeps (s.deliver a b key) := by
  unfold State.deliver
  refine .ite (.refl _) ?_
  split
  · exact .refl _
  · exact .same (by rfl)

theorem State.keeps_setDirect (s : State) (key : Nat) (l : List Burst) : s.Keeps (s.setDirect key l) := by
  unfold State.setDirect
  dsimp only
  exact .same (by rfl)

theorem State.keeps_drainDirect (s : State) (a b key : Nat) : s.Keeps (s.drainDirect a b key) := by
  unfold State.drainDirect
  split
  · exact .refl _
  · exact State.keeps_setDirect ..

theorem State.keeps_sendDirect (s : State) (p engine core bytes : Nat) (toQuad transpose : Bool) : s.Keeps
    (s.sendDirect p engine core bytes toQuad transpose) := by
  unfold State.sendDirect
  dsimp only
  exact .ite (.refl _) (State.keeps_setDirect ..)

theorem State.keeps_dropDirect (s : State) (engines : Nat → Bool) : s.Keeps (s.dropDirect engines) := by
  unfold State.dropDirect
  dsimp only
  exact .same (by rfl)

theorem State.keeps_deliverAll (s : State) (a b : Nat) : s.Keeps (s.deliverAll a b) := by
  unfold State.deliverAll
  exact .after (.foldl (fun s x => (State.keeps_drainDirect ..)) _ _) (.foldl (fun s x => (State.keeps_deliver ..)) _ _)

/-! ### Machine/Clock -/

theorem State.keeps_putQueue (s : State) (key : Nat) (q : List WeirReq) : s.Keeps (s.putQueue key q) := by
  unfold State.putQueue
  dsimp only
  exact .same (by rfl)

theorem State.keeps_putHeld (s : State) (key : Nat) (q : List WeirReq) : s.Keeps (s.putHeld key q) := by
  unfold State.putHeld
  dsimp only
  exact .same (by rfl)

theorem State.keeps_weirOverrun (s : State) (v : Overrun) : s.Keeps (s.weirOverrun v) := by
  unfold State.weirOverrun
  dsimp only
  exact .ite (State.keeps_breach ..) (.refl _)

theorem State.keeps_offerHeld (s : State) (t key : Nat) : s.Keeps (s.offerHeld t key).1 := by
  unfold State.offerHeld
  dsimp only
  exact (State.keeps_putHeld ..).after (State.keeps_putQueue ..)

theorem State.keeps_offerAt (s : State) (t key : Nat) (rs : List WeirReq) : s.Keeps (s.offerAt t key rs).1 := by
  unfold State.offerAt
  exact (State.keeps_offerHeld ..).after (State.keeps_putHeld ..)

theorem State.keeps_overruns (a : State × List Overrun) : a.1.Keeps (State.overruns a) := by
  unfold State.overruns
  exact .foldl (fun s x => (State.keeps_weirOverrun ..)) _ _

theorem State.keeps_offer (s : State) (key : Nat) (rs : List WeirReq) : s.Keeps (s.offer key rs) := by
  unfold State.offer
  exact (State.keeps_overruns ..).after (State.keeps_offerAt ..)

theorem State.keeps_putWaits (s : State) (k : Nat) (l : List (Nat × WeirReq)) : s.Keeps (s.putWaits k l) := by
  unfold State.putWaits
  dsimp only
  exact .same (by rfl)

theorem State.keeps_offerSide (t k : Nat) (l : List (Nat × WeirReq)) (a : State × List Overrun) : a.1.Keeps (State.offerSide t k l a).1 := by
  induction l generalizing a with
  | nil => exact State.keeps_putWaits ..
  | cons r l ih =>
    unfold State.offerSide
    split
    · exact State.keeps_putWaits ..
    · exact (ih _).after (a.1.keeps_offerAt t _ _)

theorem State.keeps_offerNow (s : State) (k : Nat) (rs : List (Nat × WeirReq)) : s.Keeps (s.offerNow k rs) :=
  (State.keeps_overruns _).after (State.keeps_offerSide s.clk k _ (s, []))

theorem State.keeps_offerSides (t : Nat) (a : State × List Overrun) : a.1.Keeps (State.offerSides t a).1 :=
  .foldl_fst (fun _ _ => State.keeps_offerSide ..) _ _

theorem State.keeps_drainQueue (s : State) (a b key : Nat) : s.Keeps (s.drainQueue a b key).1 := by
  unfold State.drainQueue
  dsimp only
  exact (State.keeps_putHeld ..).after (State.keeps_putQueue ..)

theorem State.keeps_drainQueues (a b : Nat) (x : State × List Overrun) : x.1.Keeps (State.drainQueues a b x).1 := by
  unfold State.drainQueues
  exact .foldl_fst (f := fun x k => ((x.1.drainQueue a b k).1, x.2 ++ (x.1.drainQueue a b k).2)) (fun _ _ => State.keeps_drainQueue ..) _ _

theorem State.keeps_drainGo (b fuel a : Nat) (x : State × List Overrun) : x.1.Keeps (State.drainGo b fuel a x).1 := by
  induction fuel generalizing a x with
  | zero => exact State.keeps_drainQueues ..
  | succ n ih =>
    unfold State.drainGo
    split
    · split
      · exact (ih _ _).after ((State.keeps_offerSides ..).after (State.keeps_drainQueues ..))
      · exact State.keeps_drainQueues ..
    · exact State.keeps_drainQueues ..

theorem State.keeps_drainWeirs (s : State) (a b : Nat) : s.Keeps (s.drainWeirs a b).1 := State.keeps_drainGo b _ a (s, [])

theorem State.keeps_passTime (s : State) (dt : Nat) : s.Keeps (s.passTime dt) := by
  unfold State.passTime
  dsimp only
  exact .ite (.same (by rfl)) (.refl _)

theorem State.keeps_meet (s : State) (x1 : Due) : s.Keeps (s.meet x1) := by
  unfold State.meet
  split
  · exact State.keeps_weirOverrun ..
  · exact (State.keeps_modPart ..).after (State.keeps_trapOne ..)

theorem State.keeps_meetAll (b now : Nat) (l : List Due) (s : State) : s.Keeps (State.meetAll b now l s) := by
  induction l generalizing now s with
  | nil => exact State.keeps_passTime ..
  | cons d l ih => exact (ih _ _).after ((State.keeps_meet ..).after (State.keeps_passTime ..))

theorem State.keeps_pass (s : State) (dt : Nat) : s.Keeps (s.pass dt) := by
  unfold State.pass
  split
  · exact .refl _
  · have h1 := (State.keeps_deliverAll _ s.clk (s.clk + dt)).after (s.keeps_drainWeirs s.clk (s.clk + dt))
    dsimp only
    generalize (s.drainWeirs s.clk (s.clk + dt)).1.deliverAll s.clk (s.clk + dt) = u at h1
    have h2 := (State.keeps_meetAll (s.clk + dt) u.clk (u.dues (s.clk + dt) (s.drainWeirs s.clk (s.clk + dt)).2) u).after h1
    generalize State.meetAll _ _ _ u = v at h2
    have h3 : s.Keeps (partNums.foldl (fun s p => s.modPart p (·.pass dt)) v) := .after (.foldl (fun _ _ => State.keeps_modPart ..) _ _) h2
    generalize partNums.foldl (fun s p => s.modPart p (·.pass dt)) v = w at h3
    exact h3.trans (.same (by rfl))

theorem State.keeps_toClk (s : State) (t : Nat) : s.Keeps (s.toClk t) := by
  unfold State.toClk
  exact State.keeps_pass ..

theorem State.keeps_toNs (s : State) (n : Nat) : s.Keeps (s.toNs n) := by
  unfold State.toNs
  exact State.keeps_toClk ..

theorem State.keeps_toTime (s : State) (t : Nat) : s.Keeps (s.toTime t) := by
  unfold State.toTime
  exact .ite (State.keeps_pass ..) (.refl _)

theorem State.keeps_toCycle (s : State) (p cyc : Nat) : s.Keeps (s.toCycle p cyc) := by
  unfold State.toCycle
  dsimp only
  exact .ite (State.keeps_pass ..) (.refl _)

/-! ### Machine/Issue -/

theorem State.keeps_step1 (s : State) (c : Ctx) : s.Keeps (s.step1 c) := by
  unfold State.step1
  exact State.keeps_modPart ..

theorem State.keeps_tokenArrives (s : State) (p k cyc : Nat) : s.Keeps (s.tokenArrives p k cyc) := by
  unfold State.tokenArrives
  dsimp only
  exact .ite (State.keeps_setPart ..) (State.keeps_breach ..)

theorem State.keeps_sendToken (s : State) (p k agent cyc : Nat) : s.Keeps (s.sendToken p k agent cyc) := by
  unfold State.sendToken
  dsimp only
  refine .ite ?_ ?_
  · exact .refl _
  · refine .ite ?_ ?_
    · exact .ite ((State.keeps_tokenArrives ..).after (State.keeps_setPart ..)) (State.keeps_setPart ..)
    · exact State.keeps_tokenArrives ..

theorem State.keeps_recordLate (s : State) (p k action cyc : Nat) : s.Keeps (s.recordLate p k action cyc) := by
  unfold State.recordLate
  dsimp only
  exact State.keeps_breach ..

theorem State.keeps_lateToken (s : State) (p k action cyc : Nat) : s.Keeps (s.lateToken p k action cyc) := by
  unfold State.lateToken
  dsimp only
  exact (State.keeps_recordLate ..).after (State.keeps_modPart ..)

theorem State.keeps_takeToken (s : State) (c : Ctx) : s.Keeps (s.takeToken c) := by
  unfold State.takeToken
  exact .ite (.refl _) (State.keeps_modPart ..)

/-- A collision poisons a galley. -/
theorem State.keeps_collide (s : State) (c : Ctx) (res : Nat) (other : Option (Nat × Nat)) : s.Keeps (s.collide c res other) := by
  unfold State.collide
  refine (State.keeps_breach ..).after (.ite (.memory (by rfl) fun h => ?_) (.refl _))
  exact Data.wf_galleys h id id (Tab.wf_tset · _ _)

theorem State.keeps_addFlight (s : State) (p : Nat) (f : Flight) : s.Keeps (s.addFlight p f) := by
  unfold State.addFlight
  exact State.keeps_modPart ..

theorem State.keeps_issueAction (s : State) (c : Ctx) (valid : Bool) (busy : Option (Nat × Nat)) (named : List Nat) {run : State → State}
    (h : ∀ s, State.Keeps s (run s)) : s.Keeps (s.issueAction c valid busy named run) := by
  have h1 := s.keeps_step1 c
  unfold State.issueAction
  dsimp only
  split
  · exact (State.keeps_recordLate ..).after h1
  · exact (State.keeps_modPart ..).after h1
  · split
    · exact (State.keeps_collide ..).after h1
    · split
      · exact (State.keeps_collide ..).after h1
      · split
        · exact (State.keeps_collide ..).after h1
        · exact (h _).after ((State.keeps_takeToken ..).after h1)

theorem State.keeps_finish (s : State) (p : Nat) (f : Flight) : s.Keeps (s.finish p f) := by
  unfold State.finish
  dsimp only
  exact (State.keeps_sendToken ..).after (State.keeps_modPart ..)

end Sys2Proof.Machine
end

section
/-! The records of a forme's programs, streams and flights keep it. -/
namespace Sys2Proof.Machine

open Sys2Proof

/-! ### Machine/Access -/

theorem State.keeps_notServed (s : State) (w : Who) : s.Keeps (s.notServed w) := by
  unfold State.notServed
  exact State.keeps_breach ..

/-- Breaches and stores of device memory keep all that, and so does every access of an agent. -/
theorem State.keeps_accessKept : AccessKept State.Keeps := ⟨.refl, .trans, State.keeps_breach, State.keeps_devWrite⟩

theorem State.keeps_agentRead (s : State) (w : Who) (a n : Nat) : s.Keeps (s.agentRead w a n).2.2 := State.keeps_accessKept.agentRead s w a n

theorem State.keeps_agentWrite (s : State) (w : Who) (a : Nat) (r : Run) : s.Keeps (s.agentWrite w a r).2.2 := State.keeps_accessKept.agentWrite s w a r

theorem State.keeps_askTokens (s : State) (w : Who) (qmax : Nat) (write : Bool) (us : List (Nat × Nat)) : s.Keeps (s.askTokens w qmax write us) := by
  unfold State.askTokens
  dsimp only
  exact State.keeps_offerNow ..

theorem State.keeps_askUnits (s : State) (w : Who) (qmax : Nat) (write : Bool) (us : List Nat) : s.Keeps (s.askUnits w qmax write us) := by
  unfold State.askUnits
  exact State.keeps_askTokens ..

theorem State.keeps_askWeirs (s : State) (w : Who) (id : Nat) (write : Bool) (l : List (Nat × Nat)) : s.Keeps (s.askWeirs w id write l) := by
  unfold State.askWeirs
  exact State.keeps_offerNow ..

theorem State.keeps_dropHeld (s : State) (of : Nat → WeirReq → Bool) : s.Keeps (s.dropHeld of) := by
  unfold State.dropHeld
  dsimp only
  exact .after (.same (by rfl)) (.foldl (fun s x => (State.keeps_putHeld ..)) _ _)

theorem State.keeps_storeReadGo (w : Who) (die inst : Nat) (l : List (Nat × Nat)) (s : State) : s.Keeps (State.storeReadGo w die inst l s).2 := by
  induction l generalizing s with
  | nil => exact .refl _
  | cons x l ih =>
    unfold State.storeReadGo
    split
    · exact ih s
    · exact (ih _).after (s.keeps_breach ..)

theorem State.keeps_storeRead (s : State) (w : Who) (die inst a n : Nat) : s.Keeps (s.storeRead w die inst a n).2 := by
  unfold State.storeRead
  exact State.keeps_storeReadGo ..

theorem State.keeps_storeWrite (s : State) (die inst a : Nat) (r : Run) : s.Keeps (s.storeWrite die inst a r) :=
  .memory (by rfl) fun h => Data.wf_tags (Data.wf_write h ..) fun h => Tab.wf_foldl_tset h _ _ _

theorem State.keeps_clearTags (s : State) (p : Nat) : s.Keeps (s.clearTags p) :=
  .memory (by rfl) fun h => Data.wf_tags h fun h => Tab.wf_tclear (Tab.wf_tclear h _ _) _ _

/-! ### Machine/Matrix -/

theorem State.keeps_poisonGalley (s : State) (core g origin : Nat) : s.Keeps (s.poisonGalley core g origin) :=
  .ite (.refl _) (.memory (by rfl) fun h => Data.wf_galleys h id id (Tab.wf_tset · _ _))

/-- The galleys at the end of a walk are those that the walk has written. -/
theorem State.keeps_endWalk (s : State) (c : Ctx) (core gal count opId fmtA fmtB : Nat) {acc : WalkAcc}
    (h : Tab.wf 0 s.data.galley = true → Tab.wf 0 acc.gal = true) : s.Keeps (s.endWalk c core gal count opId fmtA fmtB acc) := by
  unfold State.endWalk
  dsimp only
  refine (State.keeps_trapNans ..).after ?_
  have h1 : s.Keeps { s with data := { s.data with galley := acc.gal, galleyN := tset 0 s.data.galleyN (galKey core gal) count } } :=
    .memory (by rfl) fun hw => Data.wf_galleys hw h (Tab.wf_tset · _ _) id
  split
  · exact (State.keeps_consume ..).after ((State.keeps_poisonGalley ..).after ((State.keeps_orMe ..).after h1))
  · exact (State.keeps_orMe ..).after h1

theorem foldl_keeps_galley {α : Type} {f : WalkAcc → α → WalkAcc} (h : ∀ acc x, Tab.wf 0 acc.gal = true → Tab.wf 0 (f acc x).gal = true) (l : List α)
    {acc : WalkAcc} (hacc : Tab.wf 0 acc.gal = true) : Tab.wf 0 (l.foldl f acc).gal = true := by
  induction l generalizing acc with
  | nil => exact hacc
  | cons x l ih => exact ih (h _ _ hacc)

theorem mmaWalk_keeps_galley (d : MmaDesc) (keyOf : Nat → Nat → SrKey) (core c0 cyc : Nat) (as bs : List (List ChunkIn)) {acc : WalkAcc}
    (h : Tab.wf 0 acc.gal = true) : Tab.wf 0 (mmaWalk d keyOf core c0 cyc as bs acc).gal = true :=
  foldl_keeps_galley (fun _ _ h => foldl_keeps_galley (fun _ _ h => Tab.wf_tset h _ _) _ h) _ h

theorem Tab.wf_foldl_tclear {α β : Type} [DecidableEq α] {d : α} {t : Tab α} (h : Tab.wf d t = true) (k n : β → Nat) (l : List β) :
    Tab.wf d (l.foldl (fun m x => tclear m (k x) (n x)) t) = true := by
  induction l generalizing t with
  | nil => exact h
  | cons x l ih => exact ih (Tab.wf_tclear h _ _)

theorem State.keeps_runMma (s : State) (c : Ctx) (d : MmaDesc) : s.Keeps (s.runMma c d) := by
  unfold State.runMma
  refine (State.keeps_addFlight ..).after (State.keeps_endWalk _ _ _ _ _ _ _ _ fun h => mmaWalk_keeps_galley _ _ _ _ _ _ _ ?_)
  dsimp only
  split
  · exact h
  · exact Tab.wf_foldl_tclear h _ _ _

theorem State.keeps_issueMatrix (s : State) (op p a n : Nat) {f : Ctx → List Byte → State → State} (h : ∀ c b s, State.Keeps s (f c b s)) :
    s.Keeps (s.issueMatrix op p a n f) := by
  unfold State.issueMatrix
  split
  · exact .refl _
  · dsimp only
    split
    · exact (State.keeps_issueAction (h := State.Keeps.refl) ..).after (State.keeps_toCycle ..)
    · exact (h ..).after (State.keeps_toCycle ..)

theorem execMma_goes (p a : Nat) (s : State) : s.Goes (execMma p a s) := by
  unfold execMma
  dsimp only
  exact ⟨_, rfl, (State.keeps_issueMatrix (h := fun _ _ s => (State.keeps_issueAction (h := fun s => (State.keeps_runMma ..)) ..)) ..)⟩

theorem State.keeps_runCombine (s : State) (c : Ctx) (d : MmaDesc) : s.Keeps (s.runCombine c d) := by
  unfold State.runCombine
  refine (State.keeps_addFlight ..).after (State.keeps_endWalk _ _ _ _ _ _ _ _ fun h => ?_)
  exact foldl_keeps_galley (fun _ _ h => foldl_keeps_galley (fun _ _ h => Tab.wf_tset h _ _) _ h) _ h

theorem execCombine_goes (p a : Nat) (s : State) : s.Goes (execCombine p a s) := by
  unfold execCombine
  dsimp only
  exact ⟨_, rfl, (State.keeps_issueMatrix (h := fun _ _ s => (State.keeps_issueAction (h := fun s => (State.keeps_runCombine ..)) ..)) ..)⟩

theorem State.keeps_putRows (s : State) (core addr stride scale per origin : Nat) (rows : List (List Byte × List Byte)) : s.Keeps
    (s.putRows core addr stride scale per origin rows) := by
  unfold State.putRows
  dsimp only
  exact .foldl (fun s x => .ite (State.keeps_write ..) ((State.keeps_write ..).after (State.keeps_write ..))) _ _

theorem State.keeps_tensorWrite (s : State) (p core op opId n fmt hist margin addr : Nat) (vals : List (Num × Nat)) (others : Nat → List Num) :
    s.Keeps (s.tensorWrite p core op opId n fmt hist margin addr vals others).2.2 := by
  unfold State.tensorWrite
  dsimp only
  split
  · exact .after (.ite (State.keeps_post ..) (.refl _)) ((State.keeps_write ..).after (State.keeps_modPart ..))
  · dsimp only
    exact (State.keeps_modPart ..).after (State.keeps_modPart ..)

theorem State.keeps_runDrain (s : State) (c : Ctx) (d : DrainDesc) : s.Keeps (s.runDrain c d) := by
  unfold State.runDrain
  dsimp only
  by_cases hk : d.kind = 2
  · simp only [if_pos hk]
    exact (State.keeps_addFlight ..).after ((State.keeps_consume ..).after ((State.keeps_orMe ..).after
      ((State.keeps_putRows ..).after (State.keeps_tensorWrite ..))))
  · simp only [if_neg hk]
    exact (State.keeps_addFlight ..).after ((State.keeps_consume ..).after ((State.keeps_orMe ..).after (State.keeps_putRows ..)))

theorem State.keeps_runDrainAcc (s : State) (c : Ctx) (d : DrainDesc) : s.Keeps (s.runDrainAcc c d) := by
  unfold State.runDrainAcc
  dsimp only
  exact (State.keeps_addFlight ..).after ((State.keeps_consume ..).after (.same (by rfl)))

theorem execDrain_goes (p a : Nat) (s : State) : s.Goes (execDrain p a s) := by
  unfold execDrain
  dsimp only
  exact ⟨_, rfl, (State.keeps_issueMatrix
    (h := fun _ _ s => (State.keeps_issueAction (h := fun s => .ite (State.keeps_runDrainAcc ..) (State.keeps_runDrain ..)) ..)) ..)⟩

/-! ### Machine/Attention -/

-- NOSRC Sys2Proof.AttAcc.st

theorem State.keeps_attendRow (d : AttDesc) (c : CacheSet) (idx : Nat) (w : Who) (acc : AttAcc) (kr : Nat × Nat) :
    acc.st.Keeps (attendRow d c idx w acc kr).st := by
  unfold attendRow
  dsimp only
  split
  · exact .refl _
  · split
    · exact .refl _
    · split
      · exact State.keeps_breach ..
      · refine (State.keeps_agentWrite ..).after ?_
        exact .foldl_fst (fun _ _ => State.keeps_agentRead ..) _ (acc.st, [])

theorem AttAcc.keeps_foldl {α : Type} {f : AttAcc → α → AttAcc} (h : ∀ (acc : AttAcc) x, acc.st.Keeps (f acc x).st) (l : List α) (acc : AttAcc) :
    acc.st.Keeps (l.foldl f acc).st := by
  induction l generalizing acc with
  | nil => exact .refl _
  | cons x l ih => exact (ih _).after (h acc x)

theorem State.keeps_runAttend (s : State) (c : Ctx) (d : AttDesc) : s.Keeps (s.runAttend c d) := by
  unfold State.runAttend
  dsimp only
  split
  · exact .refl _
  · next idx _ =>
    generalize hacc : List.foldl _ _ _ = acc
    have h : s.Keeps acc.st := hacc ▸ .after (AttAcc.keeps_foldl (State.keeps_attendRow d _ idx _) _ _) (State.keeps_draw s)
    have h' := (State.keeps_orEng acc.st (agNum c.agent) acc.fl).after h
    refine .ite ?_ ((State.keeps_addFlight ..).after ?_) <;>
    · split
      · exact (State.keeps_consume ..).after h'
      · exact h'

theorem execAttend_goes (p a : Nat) (s : State) : s.Goes (execAttend p a s) := by
  unfold execAttend
  dsimp only
  exact ⟨_, rfl, (State.keeps_issueMatrix (h := fun _ _ s => (State.keeps_issueAction (h := fun s => (State.keeps_runAttend ..)) ..)) ..)⟩

theorem State.keeps_mergeHead (d : MergeDesc) (c : CacheSet) (w : Who) (slot n : Nat) (acc : AttAcc) (k h : Nat) :
    acc.st.Keeps (mergeHead d c w slot n acc k h).st := by
  unfold mergeHead
  dsimp only
  refine (State.keeps_agentWrite ..).after ?_
  split
  · exact .refl _
  · exact .foldl_fst (fun _ _ => State.keeps_agentRead ..) _ (acc.st, [])

theorem State.keeps_mergeRow (d : MergeDesc) (c : CacheSet) (w : Who) (acc : AttAcc) (k : Nat) : acc.st.Keeps (mergeRow d c w acc k).st :=
  AttAcc.keeps_foldl (fun _ _ => State.keeps_mergeHead ..) _ _

theorem State.keeps_runMerge (s : State) (c : Ctx) (d : MergeDesc) : s.Keeps (s.runMerge c d) := by
  unfold State.runMerge
  dsimp only
  generalize hacc : List.foldl _ _ _ = acc
  have h : s.Keeps acc.st := hacc ▸ .after (AttAcc.keeps_foldl (State.keeps_mergeRow d _ _) _ _) (State.keeps_draw s)
  have h' := (State.keeps_orEng acc.st (agNum c.agent) acc.fl).after h
  refine (State.keeps_addFlight ..).after ?_
  split
  · exact (State.keeps_consume ..).after h'
  · exact h'

theorem execMerge_goes (p a : Nat) (s : State) : s.Goes (execMerge p a s) := by
  unfold execMerge
  dsimp only
  exact ⟨_, rfl, (State.keeps_issueMatrix (h := fun _ _ s => (State.keeps_issueAction (h := fun s => (State.keeps_runMerge ..)) ..)) ..)⟩

/-! ### Machine/Control -/

theorem State.keeps_control (s : State) (op p a : Nat) {f : Ctx → State → State} (h : ∀ c s, State.Keeps s (f c s)) : s.Keeps (s.control op p a f) := by
  unfold State.control
  split
  · exact (h ..).after (State.keeps_toCycle ..)
  · exact .refl _

theorem execFormeNop_goes (p a : Nat) (s : State) : s.Goes (execFormeNop p a s) := by
  unfold execFormeNop
  exact ⟨_, rfl, (State.keeps_control (h := fun _ s => (State.keeps_issueAction (h := fun s => (State.keeps_sendToken ..)) ..)) ..)⟩

theorem execLoop_goes (p a : Nat) (s : State) : s.Goes (execLoop p a s) := by
  unfold execLoop
  dsimp only
  exact ⟨_, rfl, (State.keeps_control (h := fun _ s => (State.keeps_modPart ..)) ..)⟩

theorem execEndloop_goes (p a : Nat) (s : State) : s.Goes (execEndloop p a s) := by
  unfold execEndloop
  exact ⟨_, rfl, (State.keeps_control (h := fun _ s => (State.keeps_modPart ..)) ..)⟩

theorem execRendezvous_goes (p a : Nat) (s : State) : s.Goes (execRendezvous p a s) := by
  unfold execRendezvous
  dsimp only
  exact ⟨_, rfl, (State.keeps_control (h := fun _ s => (State.keeps_modPart ..)) ..)⟩

theorem execFill_goes (p a : Nat) (s : State) : s.Goes (execFill p a s) := by
  unfold execFill
  exact ⟨_, rfl, (State.keeps_control (h := fun _ s => (State.keeps_step1 ..)) ..)⟩

theorem execEndfill_goes (p a : Nat) (s : State) : s.Goes (execEndfill p a s) := by
  unfold execEndfill
  exact ⟨_, rfl, (State.keeps_control (h := fun _ s => (State.keeps_modPart ..)) ..)⟩

theorem execEndProg_goes (p a : Nat) (s : State) : s.Goes (execEndProg p a s) := by
  unfold execEndProg
  dsimp only
  exact ⟨_, rfl, (State.keeps_control (h := fun _ s => (State.keeps_modPart ..)) ..)⟩

/-! ### Machine/Grants -/

theorem State.keeps_queueFlit (s : State) (port : Nat) (f : QFlit) : s.Keeps (s.queueFlit port f) := by
  unfold State.queueFlit
  exact State.keeps_modPort ..

theorem State.keeps_sendGrant (s : State) (m : Msg) (n : Nat) : s.Keeps (s.sendGrant m n) := by
  unfold State.sendGrant
  dsimp only
  exact .ite (.ite (State.keeps_queueFlit ..) (.refl _)) (State.keeps_queueFlit ..)

theorem State.keeps_giveUnitsGo (port free : Nat) (done l : List Msg) (s : State) : s.Keeps (State.giveUnitsGo port free done l s) := by
  induction l generalizing free done s with
  | nil => exact .same (by rfl)
  | cons m l ih =>
    unfold State.giveUnitsGo
    dsimp only
    split
    · exact ih ..
    · split
      · exact (ih ..).after (State.keeps_sendGrant ..)
      · exact (ih ..).after ((State.keeps_sendGrant ..).after (State.keeps_sendGrant ..))

theorem State.keeps_giveUnits (s : State) (port : Nat) : s.Keeps (s.giveUnits port) := by
  unfold State.giveUnits
  dsimp only
  exact State.keeps_giveUnitsGo ..

theorem State.keeps_giveAll (s : State) : s.Keeps s.giveAll := by
  unfold State.giveAll
  exact .foldl (fun s x => (State.keeps_giveUnits ..)) _ _

theorem State.keeps_addMsg (s : State) (m : Msg) : s.Keeps (s.addMsg m) := by
  unfold State.addMsg
  dsimp only
  exact .same (by rfl)

/-! ### Machine/Stream -/

theorem State.keeps_opndRead (s : State) (w : Who) (o : Opnd) (off n : Nat) : s.Keeps (s.opndRead w o off n).2.2 := by
  unfold State.opndRead
  split
  · exact .refl _
  · exact State.keeps_agentRead ..
  · exact State.keeps_storeRead ..
  · exact .refl _
  · exact .refl _
  · exact .refl _

theorem State.keeps_opndWrite (s : State) (w : Who) (o : Opnd) (off : Nat) (r : Run) : s.Keeps (s.opndWrite w o off r).2.2 := by
  unfold State.opndWrite
  dsimp only
  split
  · exact State.keeps_write ..
  · exact State.keeps_agentWrite ..
  · exact State.keeps_storeWrite ..
  · exact State.keeps_write ..
  · exact State.keeps_write ..
  · exact State.keeps_write ..
  · exact .same (by rfl)
  · exact .refl _

theorem State.keeps_tokenPlace (s : State) (c : CacheSet) (slot layer x : Nat) : s.Keeps (s.tokenPlace c slot layer x).2.2 := by
  unfold State.tokenPlace
  dsimp only
  split
  · split <;> exact .refl _
  · split
    · exact .refl _
    · next h => exact (State.keeps_fwWrite ..).after (s.keeps_takePage _ h)

theorem State.keeps_appendGo (w : Who) (qmax : Nat) (c : CacheSet) (layer slot len tokens fuel o : Nat) (r : Run) (s : State) :
    s.Keeps (State.appendGo w qmax c layer slot len tokens fuel o r s).2.2 := by
  induction fuel generalizing o r s with
  | zero => exact .refl _
  | succ fuel ih =>
    unfold State.appendGo
    split
    · exact .refl _
    · have h := s.keeps_tokenPlace c slot layer (len + o / c.tokenBytes)
      split
      · next hx =>
        rw [hx] at h
        exact (ih ..).after ((State.keeps_askTokens ..).after ((State.keeps_agentWrite ..).after h))
      · next hx => rw [hx] at h; exact h

theorem State.keeps_appendRow (s : State) (w : Who) (qmax cs layer bucket tokens row o : Nat) (r : Run) :
    s.Keeps (s.appendRow w qmax cs layer bucket tokens row o r).2.2 := by
  unfold State.appendRow
  dsimp only
  split
  · exact .refl _
  · exact .after (.ite (State.keeps_putSeq ..) (.refl _)) (State.keeps_appendGo ..)

theorem State.keeps_moveLinear (w : Who) (d : StreamDesc) (src dst : Opnd) (fuel q n : Nat) (s : State) :
    s.Keeps (State.moveLinear w d src dst fuel q n s).2.2 := by
  induction fuel generalizing q n s with
  | zero => exact .refl _
  | succ fuel ih =>
    unfold State.moveLinear
    split
    · exact .refl s
    extract_lets row o m
    split
    next r rm t1 h1 =>
    have hread : s.Keeps t1 := by
      split at h1
      · cases h1
        exact .refl s
      · exact (State.Keeps.refl s).result (s.keeps_opndRead _ _ _ _) h1
    split
    next k wm t2 h2 =>
    have hwrite : s.Keeps t2 := by
      split at h2
      · exact hread.result (t1.keeps_appendRow _ _ _ _ _ _ _ _ _) h2
      · exact hread.result (t1.keeps_opndWrite _ _ _ _) h2
    extract_lets se t3
    have hmoved : s.Keeps t3 := by
      unfold t3
      split
      · exact hwrite.trans (.same (by rfl))
      · exact hwrite
    clear_value t3
    split
    · exact hmoved
    split
    · exact hmoved
    split
    · exact hmoved
    split
    next h => exact hmoved.result (ih _ _ t3) h

theorem State.keeps_blockRead (w : Who) (d : StreamDesc) (src : Opnd) (b : Block) (l : List Nat) (s : State) :
    s.Keeps (State.blockRead w d src b l s).2.2 := by
  induction l generalizing s with
  | nil => exact .refl _
  | cons i l ih =>
    unfold State.blockRead
    have h := s.keeps_opndRead w src ((b.row + i) * d.srcStride + 2 * b.col) (2 * b.cols)
    split
    · next hx => rw [hx] at h; exact (ih _).after h
    · next hx => rw [hx] at h; exact h

theorem State.keeps_blockWrite (w : Who) (d : StreamDesc) (dst : Opnd) (b : Block) (rs : List Run) (l : List Nat) (s : State) :
    s.Keeps (State.blockWrite w d dst b rs l s).2.2 := by
  induction l generalizing s with
  | nil => exact .refl _
  | cons j l ih =>
    unfold State.blockWrite
    have h := s.keeps_opndWrite w dst ((b.col + j) * d.dstStride + 2 * b.row) (rs.flatMap (fun r => (r.drop (2 * j)).take 2))
    split
    · next hx => rw [hx] at h; exact (ih _).after h
    · next hx => rw [hx] at h; exact h

theorem State.keeps_moveTransposed (w : Who) (d : StreamDesc) (src dst : Opnd) (fuel q : Nat) (s : State) :
    s.Keeps (State.moveTransposed w d src dst fuel q s).2.2 := by
  induction fuel generalizing q s with
  | zero => exact .refl _
  | succ fuel ih =>
    unfold State.moveTransposed
    split
    · exact .refl _
    · dsimp only
      have h := s.keeps_blockRead w d src (d.blockAt (srcUnit src / 2) q) (upTo (d.blockAt (srcUnit src / 2) q).rows)
      split
      · next rs s1 hx =>
        rw [hx] at h
        have h1 := s1.keeps_blockWrite w d dst (d.blockAt (srcUnit src / 2) q) rs (upTo (d.blockAt (srcUnit src / 2) q).cols)
        split
        · next hy => rw [hy] at h1; exact (ih ..).after (h1.after h)
        · next hy => rw [hy] at h1; exact h1.after h
      · next hx => rw [hx] at h; exact h

theorem State.keeps_askSides (s : State) (w : Who) (d : StreamDesc) (src dst : Opnd) (q0 q1 : Nat) : s.Keeps (s.askSides w d src dst q0 q1) := by
  unfold State.askSides
  dsimp only
  split
  · exact (State.keeps_askUnits ..).after (by split; exacts [(State.keeps_askUnits ..), .refl _])
  · split
    · exact State.keeps_askUnits ..
    · exact .refl _

theorem State.keeps_sendFields (s : State) (w : Who) (d : StreamDesc) (src dst : Opnd) (q0 q1 : Nat) : s.Keeps (s.sendFields w d src dst q0 q1) := by
  unfold State.sendFields
  dsimp only
  split
  · exact (State.keeps_sendDirect ..).after (by split; exacts [(State.keeps_sendDirect ..), .refl _])
  · split
    · exact State.keeps_sendDirect ..
    · exact .refl _

theorem State.keeps_haltWaiting (s : State) (e : Nat) (space : Bool) (d : StreamDesc) (src : Opnd) : s.Keeps (s.haltWaiting e space d src) := by
  unfold State.haltWaiting
  dsimp only
  exact State.keeps_setRec ..

theorem State.keeps_postWanted (s : State) (p : Nat) : s.Keeps (s.postWanted p) := by
  unfold State.postWanted
  dsimp only
  split
  · exact (State.keeps_modPart ..).after (.foldl (fun s x => (State.keeps_post ..)) _ _)
  · exact .refl _

theorem State.keeps_haltStream (s : State) (e : Nat) (d : StreamDesc) (src dst : Opnd) (m : Moved) (cyc : Nat) : s.Keeps
    (s.haltStream e d src dst m cyc) := by
  unfold State.haltStream
  dsimp only
  split
  · exact (State.keeps_postWanted ..).after ((State.keeps_modPart ..).after ((State.keeps_setRec ..).after (State.keeps_freeze ..)))
  · exact (State.keeps_postWanted ..).after ((State.keeps_modPart ..).after ((State.keeps_setRec ..).after (State.keeps_freeze ..)))
  · exact .refl _

theorem State.keeps_taintStaged (s : State) (e word : Nat) : s.Keeps (s.taintStaged e word) := by
  unfold State.taintStaged
  dsimp only
  refine .ite ?_ ?_
  · exact .refl _
  · split
    · exact State.keeps_devWrite ..
    · exact State.keeps_write ..
    · exact .refl _

theorem State.keeps_pipeWait (s : State) (e other : Nat) (space : Bool) (d : StreamDesc) (src : Opnd) : s.Keeps (s.pipeWait e other space d src) := by
  unfold State.pipeWait
  dsimp only
  split
  · exact (State.keeps_haltWaiting ..).after (State.keeps_setRec ..)
  · exact State.keeps_setRec ..

theorem State.keeps_refreshWaits (s : State) (e : Nat) : s.Keeps (s.refreshWaits e) := by
  unfold State.refreshWaits
  dsimp only
  exact .same (by rfl)

theorem State.keeps_clearPipe (s : State) (e : Nat) : s.Keeps (s.clearPipe e) := by
  unfold State.clearPipe
  dsimp only
  exact .same (by rfl)

theorem State.keeps_dropFlight (s : State) (p : Nat) (f : Flight) : s.Keeps (s.dropFlight p f) := by
  unfold State.dropFlight
  dsimp only
  refine .ite ?_ ?_
  · exact (State.keeps_refreshWaits ..).after ((State.keeps_clearPipe ..).after (State.keeps_modPart ..))
  · exact State.keeps_modPart ..

theorem State.keeps_haltWaiter (s : State) (e : Nat) : s.Keeps (s.haltWaiter e) := by
  unfold State.haltWaiter
  dsimp only
  exact .ite (State.keeps_haltWaiting ..) (.refl _)

theorem State.keeps_haltWaiters (s : State) (p : Nat) : s.Keeps (s.haltWaiters p) := by
  unfold State.haltWaiters
  exact .foldl (fun s x => (State.keeps_haltWaiter ..)) _ _

theorem State.keeps_settleDue (s : State) (p : Nat) : s.Keeps (s.settleDue p) := by
  unfold State.settleDue
  dsimp only
  exact .foldl (fun s x => .ite (State.keeps_setRec ..) (.refl _)) _ _

theorem State.keeps_stopAgain (s : State) (p : Nat) : s.Keeps (s.stopAgain p) := by
  unfold State.stopAgain
  dsimp only
  split
  · refine .ite ?_ ?_
    · exact (State.keeps_haltWaiters ..).after
        ((State.keeps_postWanted ..).after (.after (.foldl (fun s x => (State.keeps_setRec ..)) _ _) (State.keeps_modPart ..)))
    · exact .refl _
  · exact .refl _

theorem State.keeps_moveStream (s : State) (e cyc : Nat) : s.Keeps (s.moveStream e cyc).2 := by
  unfold State.moveStream
  extract_lets r w
  split
  · exact .refl s
  next f _ =>
  split
  next d src dst _ =>
  extract_lets avail space pipeOther o act t
  have hrefused : s.Keeps t := .ite (.refl s) ((State.keeps_setRec ..).after (State.keeps_breach ..))
  clear_value t space avail pipeOther o
  split
  · exact .refl s
  split
  · exact .refl s
  split
  · exact (State.keeps_pipeWait ..).after hrefused
  · exact State.keeps_pipeWait ..
  split
  · exact State.keeps_pipeWait ..
  split
  next pos m u h =>
  have hmove : s.Keeps u := by
    split at h
    · exact (State.Keeps.refl s).result (State.keeps_moveTransposed ..) h
    · split at h
      next h' =>
      cases h
      exact (State.Keeps.refl s).result (State.keeps_moveLinear ..) h'
  extract_lets old v x
  have hmoved : s.Keeps x := (State.keeps_sendFields ..).after ((State.keeps_askSides ..).after ((State.keeps_setRec ..).after hmove))
  clear_value x
  split
  · split
    · exact (State.keeps_pipeWait ..).after hmoved
    · exact hmoved
  · exact (State.keeps_dropFlight ..).after ((State.keeps_setRec ..).after ((State.keeps_breach ..).after hmoved))
  · exact (State.keeps_haltStream ..).after hmoved

theorem State.keeps_pump (cyc fuel : Nat) (l : List Nat) (s : State) : s.Keeps (State.pump cyc fuel l s) := by
  induction fuel generalizing l s with
  | zero => exact .refl _
  | succ fuel ih => cases l with
    | nil => exact .refl _
    | cons e l => exact (ih ..).after (State.keeps_moveStream ..)

theorem State.keeps_movePage (s : State) (e cyc : Nat) (src dst : Opnd) : s.Keeps (s.movePage e cyc src dst).2 := by
  unfold State.movePage
  dsimp only
  exact (State.keeps_askSides ..).after ((State.keeps_setRec ..).after (State.keeps_moveLinear ..))

theorem State.keeps_runPark (s : State) (e cyc cs slot layer index board : Nat) (f : Flight) :
    s.Keeps (s.runPark e cyc cs slot layer index board f) := by
  unfold State.runPark
  dsimp only
  split
  · exact (State.keeps_dropFlight ..).after ((State.keeps_setRec ..).after (State.keeps_breach ..))
  · generalize s.pageEntry _ slot layer index = ie
    have h := s.keeps_movePage e cyc (.dev (pteAddr (s.fwRead ie.2 8))) (.dev board)
    split
    · next hx => rw [hx] at h; exact (State.keeps_givePage ..).after ((State.keeps_fwWrite ..).after h)
    · next hx => rw [hx] at h; exact (State.keeps_haltStream ..).after h

theorem State.keeps_runUnpark (s : State) (e cyc cs slot layer index : Nat) (f : Flight) : s.Keeps (s.runUnpark e cyc cs slot layer index f) := by
  unfold State.runUnpark
  dsimp only
  split
  · exact (State.keeps_dropFlight ..).after ((State.keeps_setRec ..).after (State.keeps_breach ..))
  · split
    · exact State.keeps_haltStream ..
    · split
      · exact State.keeps_haltStream ..
      · next h => exact (State.keeps_fwWrite ..).after ((State.keeps_movePage ..).after (s.keeps_takePage _ h))

theorem State.keeps_runStream (s : State) (e cyc : Nat) : s.Keeps (s.runStream e cyc) := by
  unfold State.runStream
  dsimp only
  split
  · exact .refl _
  · exact (State.keeps_stopAgain ..).after (by split; exacts [(State.keeps_runPark ..), (State.keeps_runUnpark ..), (State.keeps_pump ..)])

theorem State.keeps_issueStream (s : State) (op p a : Nat) : s.Keeps (s.issueStream op p a) := by
  unfold State.issueStream
  dsimp only
  split
  · exact .refl _
  · split
    · exact (State.keeps_issueAction (h := fun s => .refl _) ..).after (State.keeps_toCycle ..)
    · exact (State.keeps_issueAction
        (h := fun s => (State.keeps_runStream ..).after
        ((State.keeps_refreshWaits ..).after
        ((State.keeps_clearPipe ..).after ((State.keeps_setRec ..).after (State.keeps_addFlight ..))))) ..).after (State.keeps_toCycle ..)

theorem execStreamCopy_goes (p a : Nat) (s : State) : s.Goes (execStreamCopy p a s) := by
  unfold execStreamCopy
  exact ⟨_, rfl, (State.keeps_issueStream ..)⟩

theorem execPark_goes (p a : Nat) (s : State) : s.Goes (execPark p a s) := by
  unfold execPark
  exact ⟨_, rfl, (State.keeps_issueStream ..)⟩

theorem execUnpark_goes (p a : Nat) (s : State) : s.Goes (execUnpark p a s) := by
  unfold execUnpark
  exact ⟨_, rfl, (State.keeps_issueStream ..)⟩

/-! ### Machine/RunEvents -/

theorem State.keeps_setStat (s : State) (p : Nat) (st : PStat) : s.Keeps (s.setStat p st) := by
  unfold State.setStat
  exact (State.keeps_advertise ..).after (State.keeps_modPart ..)

theorem execActionComplete_goes (p a r : Nat) (s : State) : s.Goes (execActionComplete p a r s) := by
  unfold execActionComplete
  dsimp only
  refine ⟨_, rfl, ?_⟩
  split
  · exact .refl _
  · refine .ite ?_ ?_
    · exact .refl _
    · split
      · exact .ite (State.keeps_runStream ..) (.refl _)
      · split
        · refine .ite ?_ ?_
          · exact (State.keeps_toClk ..).after (.ite (State.keeps_runStream ..) (.refl _))
          · refine .ite ?_ ?_
            · exact (State.keeps_refreshWaits ..).after
                ((State.keeps_finish ..).after
                ((State.keeps_setRec ..).after ((State.keeps_toClk ..).after (.ite (State.keeps_runStream ..) (.refl _)))))
            · refine .ite ?_ ?_
              · exact (State.keeps_finish ..).after
                  (.after (.same (by rfl)) ((State.keeps_toClk ..).after (.ite (State.keeps_runStream ..) (.refl _))))
              · exact (State.keeps_finish ..).after ((State.keeps_toClk ..).after (.ite (State.keeps_runStream ..) (.refl _)))
        · exact .ite (State.keeps_runStream ..) (.refl _)

theorem execDeadlineReached_goes (p tok : Nat) (s : State) : s.Goes (execDeadlineReached p tok s) := by
  unfold execDeadlineReached
  dsimp only
  refine ⟨_, rfl, ?_⟩
  refine .ite ?_ ?_
  · exact .refl _
  · split
    · exact .refl _
    · split
      · exact .refl _
      · exact .ite ((State.keeps_lateToken ..).after (State.keeps_toCycle ..)) (.refl _)

theorem execSlotLimit_goes (p : Nat) (s : State) : s.Goes (execSlotLimit p s) := by
  unfold execSlotLimit
  dsimp only
  exact ⟨_, rfl, .ite ((State.keeps_breach ..).after ((State.keeps_modPart ..).after (State.keeps_toCycle ..))) (.refl _)⟩

theorem execFreezeBoundary_goes (p : Nat) (s : State) : s.Goes (execFreezeBoundary p s) := by
  unfold execFreezeBoundary
  dsimp only
  refine ⟨_, rfl, ?_⟩
  split
  · refine .ite ?_ ?_
    · exact (State.keeps_haltWaiters ..).after
        ((State.keeps_postWanted ..).after
        ((State.keeps_post ..).after ((State.keeps_settleDue ..).after ((State.keeps_setPart ..).after (State.keeps_toCycle ..)))))
    · exact .refl _
  · exact .refl _

theorem State.keeps_nansMet (s : State) (p : Nat) : s.Keeps (s.nansMet p) := by
  unfold State.nansMet
  exact State.keeps_toClk ..

theorem execPartitionFrozen_goes (p : Nat) (s : State) : s.Goes (execPartitionFrozen p s) := by
  unfold execPartitionFrozen
  dsimp only
  refine ⟨_, rfl, ?_⟩
  split
  · exact .ite ((State.keeps_setStat ..).after (State.keeps_nansMet ..)) (.refl _)
  · exact .refl _

theorem execStreamDueReached_goes (e : Nat) (s : State) : s.Goes (execStreamDueReached e s) := by
  unfold execStreamDueReached
  dsimp only
  refine ⟨_, rfl, ?_⟩
  split
  · refine .ite ?_ ?_
    · refine .ite ?_ ?_
      · exact State.keeps_runStream ..
      · exact (State.keeps_stopAgain ..).after ((State.keeps_haltWaiter ..).after (State.keeps_runStream ..))
    · exact .refl _
  · exact .refl _

theorem execThaw_goes (p : Nat) (s : State) : s.Goes (execThaw p s) := by
  unfold execThaw
  dsimp only
  refine ⟨_, rfl, ?_⟩
  split
  · refine .ite ?_ ?_
    · exact (State.keeps_post ..).after (.after (.foldl (fun s x => (State.keeps_setRec ..)) _ _) (State.keeps_setPart ..))
    · exact .refl _
  · exact .refl _

theorem execRendezvousRelease_goes (p : Nat) (s : State) : s.Goes (execRendezvousRelease p s) := by
  unfold execRendezvousRelease
  dsimp only
  refine ⟨_, rfl, ?_⟩
  split
  · exact .ite ((State.keeps_setPart ..).after (State.keeps_toCycle ..)) (.refl _)
  · exact .refl _

theorem State.keeps_expire (s : State) (p : Nat) : s.Keeps (s.expire p) := by
  unfold State.expire
  exact (State.keeps_freeze ..).after (State.keeps_post ..)

theorem State.keeps_expireDue (s : State) (p : Nat) : s.Keeps (s.expireDue p) := by
  unfold State.expireDue
  exact .ite (State.keeps_expire ..) (.refl _)

theorem execWatchdogExpiry_goes (p : Nat) (s : State) : s.Goes (execWatchdogExpiry p s) := by
  unfold execWatchdogExpiry
  dsimp only
  refine ⟨_, rfl, ?_⟩
  split
  · exact .ite ((State.keeps_expire ..).after (State.keeps_pass ..)) (.refl _)
  · exact .refl _

theorem execFillItemStart_goes (p : Nat) (s : State) : s.Goes (execFillItemStart p s) := by
  unfold execFillItemStart
  dsimp only
  exact ⟨_, rfl, .ite ((State.keeps_setPart ..).after (State.keeps_toCycle ..)) (.refl _)⟩

theorem execFillOverrun_goes (p : Nat) (s : State) : s.Goes (execFillOverrun p s) := by
  unfold execFillOverrun
  dsimp only
  refine ⟨_, rfl, ?_⟩
  split
  · exact .ite ((State.keeps_breach ..).after ((State.keeps_modPart ..).after (State.keeps_toCycle ..))) (.refl _)
  · exact .refl _

theorem State.keeps_serveCacheQueue (s : State) (p : Nat) : s.Keeps (s.serveCacheQueue p) := by
  unfold State.serveCacheQueue
  dsimp only
  split
  · exact State.keeps_modPart ..
  · exact .after (.foldl (fun s x => .ite (State.keeps_complete ..)
      ((State.keeps_complete ..).after ((State.keeps_notHeld ..).after (State.keeps_joinSlot ..)))) _ _)
      (.after (.foldl (fun s x => .ite (State.keeps_complete ..)
      ((State.keeps_complete ..).after ((State.keeps_notHeld ..).after (State.keeps_leaveSlot ..)))) _ _) (State.keeps_modPart ..))

theorem State.keeps_outliveLinks (s : State) (p : Nat) : s.Keeps (s.outliveLinks p) := by
  unfold State.outliveLinks
  dsimp only
  exact .same (by rfl)

theorem State.keeps_endRun (s : State) (p status reason value detail : Nat) : s.Keeps (s.endRun p status reason value detail) := by
  unfold State.endRun
  dsimp only
  exact (State.keeps_serveCacheQueue ..).after
    ((State.keeps_advertise ..).after ((State.keeps_complete ..).after ((State.keeps_setPart ..).after (State.keeps_outliveLinks ..))))

theorem execRunComplete_goes (p : Nat) (s : State) : s.Goes (execRunComplete p s) := by
  unfold execRunComplete
  dsimp only
  refine ⟨_, rfl, ?_⟩
  split
  · exact .ite ((State.keeps_endRun ..).after ((State.keeps_modPart ..).after (State.keeps_toCycle ..))) (.refl _)
  · exact .refl _

theorem State.keeps_zeroGalleys (s : State) (f : Nat) : s.Keeps (s.zeroGalleys f) :=
  .memory (by rfl) fun h => Data.wf_galleys h (Tab.wf_tclear · _ _) (Tab.wf_tclear · _ _) (Tab.wf_tclear · _ _)

theorem State.keeps_endLinks (s : State) (p : Nat) : s.Keeps (s.endLinks p) :=
  (s.keeps_dropHeld (fun o r => o == p && agKind r.agent == 4)).trans (.same (by rfl))

theorem State.keeps_endFlights (s : State) (p : Nat) : s.Keeps (s.endFlights p) := by
  unfold State.endFlights
  exact State.keeps_modPart ..

theorem State.keeps_abandonEngines (s : State) (p : Nat) : s.Keeps (s.abandonEngines p) := by
  unfold State.abandonEngines
  extract_lets s1 s2 es s3 s4 s5
  have h1 : s.Keeps s1 := .foldl (fun _ _ => State.keeps_zeroGalleys ..) _ _
  have h2 : s.Keeps s2 := .after (.foldl (fun _ _ => State.keeps_setRec ..) _ _) h1
  have h4 : s.Keeps s4 := (State.keeps_dropDirect ..).after (.after (.foldl State.keeps_clearPipe _ _) ((State.keeps_dropHeld ..).after h2))
  clear_value s4
  exact (State.keeps_endLinks ..).after ((State.keeps_clearTags ..).after (h4.trans (.same (by rfl))))

theorem State.keeps_abandonRun (s : State) (p status reason detail : Nat) : s.Keeps (s.abandonRun p status reason detail) := by
  unfold State.abandonRun
  dsimp only
  exact (State.keeps_endRun ..).after
    ((State.keeps_endFlights ..).after ((State.keeps_modPart ..).after ((State.keeps_giveAll ..).after (State.keeps_abandonEngines ..))))

theorem State.keeps_graceEnd (s : State) (p seq slot : Nat) : s.Keeps (s.graceEnd p seq slot) := by
  unfold State.graceEnd
  dsimp only
  exact (State.keeps_abandonRun ..).after (by split; exacts [(State.keeps_putSeq ..).after (State.keeps_clearPending ..), .refl _])

theorem execGraceExpiry_goes (p : Nat) (s : State) : s.Goes (execGraceExpiry p s) := by
  unfold execGraceExpiry
  dsimp only
  refine ⟨_, rfl, ?_⟩
  split
  · exact .ite ((State.keeps_graceEnd ..).after (State.keeps_toTime ..)) (.refl _)
  · exact .refl _

end Sys2Proof.Machine
end

section
/-! Vector rows, link actions, ports, frames and the update engines keep it. -/
namespace Sys2Proof.Machine

open Sys2Proof

/-! ### Machine/HostQueue -/

theorem State.keeps_begun (s : State) (c : Cmd) : s.Keeps (s.begun c) := by
  unfold State.begun
  dsimp only
  exact .same (by rfl)

theorem State.keeps_ok (s : State) (c : Cmd) (value : Nat) : s.Keeps (s.ok c value) := by
  unfold State.ok
  exact State.keeps_complete ..

theorem State.keeps_deny (s : State) (c : Cmd) (reason : Nat) : s.Keeps (s.deny c reason) := by
  unfold State.deny
  dsimp only
  exact (State.keeps_complete ..).after (.ite (.same (by rfl)) (.refl _))

theorem State.keeps_completeAll (s : State) (c : Cmd) (status reason : Nat) : s.Keeps (s.completeAll c status reason) := by
  unfold State.completeAll
  exact .ite (.foldl (fun s x => (State.keeps_complete ..)) _ _) (State.keeps_complete ..)

theorem State.keeps_runCmd (s : State) (ops : Nat → Bool) {f : Cmd → State → State} (h : ∀ c s, State.Keeps s (f c s)) : s.Keeps (s.runCmd ops f) := by
  unfold State.runCmd
  split
  · exact .refl _
  · exact .ite ((h ..).after (State.keeps_begun ..)) ((State.keeps_deny ..).after (State.keeps_begun ..))

theorem State.keeps_answer {s t : State} (h : s.Keeps t) (c : Cmd) (reason : Nat) : s.Keeps (s.answer c reason t) :=
  .ite ((State.keeps_ok ..).after h) (State.keeps_deny ..)

theorem State.keeps_enableRefused (s : State) (reason offset : Nat) : s.Keeps (s.enableRefused reason offset) := by
  unfold State.enableRefused
  exact State.keeps_post ..

theorem State.keeps_dropSwitch (s : State) (stamp : Nat) : s.Keeps (s.dropSwitch stamp) := by
  unfold State.dropSwitch
  dsimp only
  exact .same (by rfl)

theorem State.keeps_abortDecide (s : State) (c : Cmd) : s.Keeps (s.abortDecide c) := by
  unfold State.abortDecide
  extract_lets put r
  have hput {t : State} (ht : s.Keeps t) (o : AbortOut) : s.Keeps (put t o) := ht.trans (.same (by rfl))
  clear_value put
  split
  · exact hput (.refl s) _
  split
  · exact hput (.refl s) _
  split
  · exact hput (.refl s) _
  split
  · exact hput (.refl s) _
  · split
    · split
      · exact hput (.refl s) _
      · exact hput ((State.keeps_completeAll ..).after ((State.keeps_dropSwitch ..).after (.same (by rfl)))) _
    · exact hput (.refl s) _
  · split
    · exact hput (.same (by rfl)) _
    split
    · split
      · exact hput (.after (.foldl (fun _ _ => State.keeps_complete ..) _ _) (State.keeps_dropSwitch ..)) _
      · exact hput (.refl s) _
    split
    · exact hput (.foldl (fun _ _ => .after (.foldl (fun _ _ => State.keeps_complete ..) _ _) (State.keeps_modPart ..)) _ _) _
    · exact hput (.refl s) _

/-! ### Machine/HostInterface -/

theorem State.keeps_putCr (s : State) (i : Nat) (r : Ring) : s.Keeps (s.putCr i r) := by
  unfold State.putCr
  dsimp only
  exact .same (by rfl)

theorem State.keeps_putCq (s : State) (j : Nat) (r : Ring) : s.Keeps (s.putCq j r) := by
  unfold State.putCq
  dsimp only
  exact .same (by rfl)

theorem State.keeps_putEq (s : State) (r : Ring) : s.Keeps (s.putEq r) := by
  unfold State.putEq
  dsimp only
  exact .same (by rfl)

theorem State.keeps_hifLevel (s : State) (v : Bool) : s.Keeps (s.hifLevel v) := by
  unfold State.hifLevel
  dsimp only
  exact .ite (.same (by rfl)) (.same (by rfl))

theorem State.keeps_writeDb (s : State) (r : Ring) (reason : Nat) : s.Keeps (s.writeDb r reason) := by
  unfold State.writeDb
  exact State.keeps_hostWrite ..

theorem State.keeps_putRecord (s : State) (r : Ring) (f : Nat → List Byte) : s.Keeps (s.putRecord r f).1 := by
  unfold State.putRecord
  exact State.keeps_hostWrite ..

theorem State.keeps_due (s : State) (k : Nat) (r : Ring) : s.Keeps (s.due k r) := by
  unfold State.due
  dsimp only
  exact .ite (.same (by rfl)) (.refl _)

theorem keeps_flushCompl (l kept : List Compl) (full : List Nat) (s : State) : s.Keeps (flushCompl l kept full s) := by
  induction l generalizing kept full s with
  | nil => exact .same (by rfl)
  | cons c l ih =>
    unfold flushCompl
    dsimp only
    split
    · exact ih ..
    · exact (ih ..).after ((State.keeps_due ..).after ((State.keeps_writeDb ..).after ((State.keeps_putCq ..).after (State.keeps_putRecord ..))))

theorem State.due_es (s : State) (k : Nat) (r : Ring) : (s.due k r).es = s.es := by
  unfold State.due
  split <;> rfl

/-- Events that go out leave those behind them, no more than there were. -/
theorem keeps_flushEvents (l : List Event) (s : State) (h : s.esBounded → l.length ≤ esRoom) : s.Keeps (flushEvents l s) := by
  induction l generalizing s with
  | nil => exact .refl _
  | cons e l ih =>
    unfold flushEvents
    dsimp only
    split
    · have hlen (hs : s.esBounded) : l.length ≤ esRoom := (Nat.le_succ _).trans (h hs)
      have hput := s.keeps_putRecord s.eqOf e.bytes
      generalize s.putRecord s.eqOf e.bytes = x at hput
      have htake : s.Keeps { x.1 with es := { x.1.es with buffer := l } } := ⟨hput.queue, hlen, hput.counter, hput.form⟩
      refine (ih _ fun hb => ?_).after ((State.keeps_due ..).after ((State.keeps_writeDb ..).after ((State.keeps_putEq ..).after htake)))
      simp only [State.esBounded, State.due_es] at hb
      exact hb
    · exact .refl _

theorem State.keeps_flush (s : State) : s.Keeps s.flush := by
  unfold State.flush
  split
  · exact .refl _
  · extract_lets s1 s2 s3 s4
    have h1 : s.Keeps s1 := keeps_flushCompl ..
    have h2 : s.Keeps s2 := (State.keeps_enterLost ..).after ((keeps_flushEvents s1.es.buffer s1 id).after h1)
    have h3 : s.Keeps s3 := (keeps_flushEvents s2.es.buffer s2 id).after h2
    exact .ite ((State.keeps_hostWrite ..).after (h3.trans (.same (by rfl)))) h3

theorem State.keeps_tick (s : State) : s.Keeps s.tick := by
  unfold State.tick
  exact (State.keeps_flush ..).after (State.keeps_pass ..)

theorem State.keeps_setQuiet (s : State) (n : Nat) : s.Keeps (s.setQuiet n) := by
  unfold State.setQuiet
  dsimp only
  exact .same (by rfl)

theorem State.keeps_setPoll (s : State) (v : Bool) : s.Keeps (s.setPoll v) := by
  unfold State.setPoll
  dsimp only
  exact (State.keeps_advertise ..).after (.same (by rfl))

theorem State.keeps_nudged (s : State) : s.Keeps s.nudged := by
  unfold State.nudged
  exact .ite ((State.keeps_flush ..).after (State.keeps_setPoll ..)) (.refl _)

theorem execNudge_goes (s : State) : s.Goes (execNudge s) := by
  unfold execNudge
  exact State.direct_goes (h := fun s => (State.keeps_nudged ..)) ..

theorem State.keeps_sendVector (s : State) (v : Nat) : s.Keeps (s.sendVector v) := by
  unfold State.sendVector
  dsimp only
  exact .ite (.same (by rfl)) (.same (by rfl))

theorem execMsixSend_goes (ring : Nat) (s : State) : s.Goes (execMsixSend ring s) := by
  unfold execMsixSend
  dsimp only
  exact ⟨_, rfl, .ite ((State.keeps_sendVector ..).after (.after (.same (by rfl)) (.ite (.refl _) (State.keeps_toNs ..)))) (.refl _)⟩

theorem State.keeps_openRings (s : State) : s.Keeps s.openRings := by
  unfold State.openRings
  extract_lets s1 s2 r s3
  have h1 : s.Keeps s1 := .foldl (fun _ _ => .ite ((State.keeps_writeDb ..).after (State.keeps_putCr ..)) (.refl _)) _ _
  have h2 : s.Keeps s2 := .after (.foldl (fun _ _ => .ite ((State.keeps_writeDb ..).after (State.keeps_putCq ..)) (.refl _)) _ _) h1
  have h3 : s.Keeps s3 := (State.keeps_writeDb ..).after ((State.keeps_putEq ..).after h2)
  exact h3.trans (.same (by rfl))

theorem State.keeps_startRings (s : State) : s.Keeps s.startRings := by
  unfold State.startRings
  dsimp only
  exact (State.keeps_flush ..).after ((State.keeps_setPoll ..).after (.after (.same (by rfl)) (.ite (State.keeps_openRings ..) (.same (by rfl)))))

theorem State.keeps_readReplica (s : State) (p : Nat) : s.Keeps (s.readReplica p) := by
  unfold State.readReplica
  dsimp only
  exact .ite (.after (.same (by rfl)) (.same (by rfl))) ((State.keeps_modPart ..).after (.after (.same (by rfl)) (.same (by rfl))))

theorem State.keeps_writeReplica (s : State) (p : Nat) (v : W64) : s.Keeps (s.writeReplica p v) := by
  unfold State.writeReplica
  dsimp only
  exact .ite ((State.keeps_readReplica ..).after (.same (by rfl))) (.after (.same (by rfl)) (.same (by rfl)))

theorem State.keeps_sendPending (s : State) : s.Keeps s.sendPending := by
  unfold State.sendPending
  exact .foldl (fun s x => .ite (.refl _) (State.keeps_sendVector ..)) _ _

theorem State.keeps_hostAgain (s : State) : s.Keeps s.hostAgain := by
  unfold State.hostAgain
  refine .ite ?_ ?_
  · exact .refl _
  · exact (State.keeps_sendPending ..).after
      ((State.keeps_flush ..).after (.after (.foldl (fun s x => (State.keeps_readReplica ..)) _ _) (.ite (State.keeps_openRings ..) (.refl _))))

theorem State.keeps_hifTryEnable (s : State) (cmd : Bool) : s.Keeps (s.hifTryEnable cmd).2 := by
  unfold State.hifTryEnable
  dsimp only
  exact .ite_snd (.refl _) (.ite_snd (State.keeps_startRings ..) ((State.keeps_enableRefused ..).after (.ite (.refl _) (.same (by rfl)))))

theorem State.keeps_hifTryDisable (s : State) (cmd : Bool) : s.Keeps (s.hifTryDisable cmd).2 := by
  unfold State.hifTryDisable
  dsimp only
  exact .ite_snd (.refl _)
    (.ite_snd (.ite (.refl _) (.same (by rfl))) (.after (.same (by rfl)) (.ite ((State.keeps_flush ..).after (State.keeps_setPoll ..)) (.refl _))))

theorem execHifEnable_goes (s : State) : s.Goes (execHifEnable s) := by
  unfold execHifEnable
  exact State.direct_goes (h := fun s => (State.keeps_hifTryEnable ..)) ..

theorem execHifDisable_goes (s : State) : s.Goes (execHifDisable s) := by
  unfold execHifDisable
  exact State.direct_goes (h := fun s => (State.keeps_hifTryDisable ..)) ..

theorem execHostLinkReset_goes (s : State) : s.Goes (execHostLinkReset s) := by
  unfold execHostLinkReset
  dsimp only
  split
  · exact ⟨_, rfl, .refl _⟩
  · exact ⟨_, rfl, (State.keeps_post ..).after (.same (by rfl))⟩

theorem execHostLinkDegraded_goes (rate width : Nat) (s : State) : s.Goes (execHostLinkDegraded rate width s) := by
  unfold execHostLinkDegraded
  dsimp only
  exact ⟨_, rfl, .ite (.refl _) (.ite ((State.keeps_post ..).after (.same (by rfl))) (.same (by rfl)))⟩

theorem execBusMasterEnable_goes (s : State) : s.Goes (execBusMasterEnable s) := by
  unfold execBusMasterEnable
  dsimp only
  exact ⟨_, rfl, .ite (.refl _) ((State.keeps_hostAgain ..).after (.same (by rfl)))⟩

theorem execD3hotEntry_goes (s : State) : s.Goes (execD3hotEntry s) := by
  unfold execD3hotEntry
  dsimp only
  exact ⟨_, rfl, .same (by rfl)⟩

theorem execD0Return_goes (s : State) : s.Goes (execD0Return s) := by
  unfold execD0Return
  dsimp only
  exact ⟨_, rfl, (State.keeps_hostAgain ..).after (.same (by rfl))⟩

theorem State.keeps_answered (s : State) (r : Option (List Byte)) : s.Keeps (s.answered r) := by
  unfold State.answered
  dsimp only
  exact .same (by rfl)

theorem State.keeps_unsupported (s : State) (write : Bool) (aer : List Nat) : s.Keeps (s.unsupported write aer) := by
  unfold State.unsupported
  dsimp only
  exact .ite (.same (by rfl)) ((State.keeps_answered ..).after (.same (by rfl)))

theorem State.keeps_sendBack (s : State) (r : Run) : s.Keeps (s.sendBack r) := .same (by rfl)

theorem execBar2Access_goes (req : Bar2Req) (offset : Nat) (data : List Byte) (s : State) : s.Goes (execBar2Access req offset data s) := by
  unfold execBar2Access
  dsimp only
  refine ⟨_, rfl, ?_⟩
  refine .ite ?_ ?_
  · exact .refl _
  · refine .ite ?_ ?_
    · exact State.keeps_unsupported ..
    · refine .ite ?_ ?_
      · exact State.keeps_unsupported ..
      · split
        · exact State.keeps_devWrite ..
        · exact State.keeps_sendBack ..

/-! ### Machine/Vector -/

theorem State.keeps_vecWrite (s : State) (p core op : Nat) (d : VecDesc) (rows : List (List (Num × Nat))) : s.Keeps (s.vecWrite p core op d rows).1 := by
  unfold State.vecWrite
  dsimp only
  split
  · exact (State.keeps_putRows ..).after (State.keeps_tensorWrite ..)
  · refine .foldl_fst (fun _ _ => ?_) _ (s, Flags.none)
    exact .after (.ite (.refl _) (State.keeps_write ..)) (State.keeps_write ..)

theorem State.keeps_runVector (s : State) (c : Ctx) (op : Nat) (d : VecDesc) : s.Keeps (s.runVector c op d) := by
  unfold State.runVector
  dsimp only
  exact (State.keeps_addFlight ..).after
    ((State.keeps_trapNans ..).after
    ((State.keeps_consume ..).after
    ((State.keeps_draw ..).after
    ((State.keeps_draw ..).after
    ((State.keeps_orVe ..).after
    (.ite (.after (.foldl (fun s x => by split; exacts [(State.keeps_write ..), .refl _]) _ _)
    (.ite (.after (.foldl (fun s x => (State.keeps_write ..)) _ _) (State.keeps_vecWrite ..)) (State.keeps_vecWrite ..)))
    (.ite (.after (.foldl (fun s x => (State.keeps_write ..)) _ _) (State.keeps_vecWrite ..)) (State.keeps_vecWrite ..))))))))

theorem State.keeps_issueVector (s : State) (op p a : Nat) : s.Keeps (s.issueVector op p a) := by
  unfold State.issueVector
  dsimp only
  exact State.keeps_issueMatrix (h := fun _ _ s => (State.keeps_issueAction (h := fun s => (State.keeps_runVector ..)) ..)) ..

theorem execElem_goes (p a : Nat) (s : State) : s.Goes (execElem p a s) := by
  unfold execElem
  exact ⟨_, rfl, (State.keeps_issueVector ..)⟩

theorem execFma_goes (p a : Nat) (s : State) : s.Goes (execFma p a s) := by
  unfold execFma
  exact ⟨_, rfl, (State.keeps_issueVector ..)⟩

theorem execFunc1_goes (p a : Nat) (s : State) : s.Goes (execFunc1 p a s) := by
  unfold execFunc1
  exact ⟨_, rfl, (State.keeps_issueVector ..)⟩

theorem execConvert_goes (p a : Nat) (s : State) : s.Goes (execConvert p a s) := by
  unfold execConvert
  exact ⟨_, rfl, (State.keeps_issueVector ..)⟩

theorem execRowred_goes (p a : Nat) (s : State) : s.Goes (execRowred p a s) := by
  unfold execRowred
  exact ⟨_, rfl, (State.keeps_issueVector ..)⟩

theorem execSoftmax_goes (p a : Nat) (s : State) : s.Goes (execSoftmax p a s) := by
  unfold execSoftmax
  exact ⟨_, rfl, (State.keeps_issueVector ..)⟩

theorem execSoftmaxRec_goes (p a : Nat) (s : State) : s.Goes (execSoftmaxRec p a s) := by
  unfold execSoftmaxRec
  exact ⟨_, rfl, (State.keeps_issueVector ..)⟩

theorem execSoftmaxBwd_goes (p a : Nat) (s : State) : s.Goes (execSoftmaxBwd p a s) := by
  unfold execSoftmaxBwd
  exact ⟨_, rfl, (State.keeps_issueVector ..)⟩

theorem execRmsnorm_goes (p a : Nat) (s : State) : s.Goes (execRmsnorm p a s) := by
  unfold execRmsnorm
  exact ⟨_, rfl, (State.keeps_issueVector ..)⟩

theorem execLayernorm_goes (p a : Nat) (s : State) : s.Goes (execLayernorm p a s) := by
  unfold execLayernorm
  exact ⟨_, rfl, (State.keeps_issueVector ..)⟩

theorem execRmsnormBwd_goes (p a : Nat) (s : State) : s.Goes (execRmsnormBwd p a s) := by
  unfold execRmsnormBwd
  exact ⟨_, rfl, (State.keeps_issueVector ..)⟩

theorem execLayernormBwd_goes (p a : Nat) (s : State) : s.Goes (execLayernormBwd p a s) := by
  unfold execLayernormBwd
  exact ⟨_, rfl, (State.keeps_issueVector ..)⟩

theorem execColred_goes (p a : Nat) (s : State) : s.Goes (execColred p a s) := by
  unfold execColred
  exact ⟨_, rfl, (State.keeps_issueVector ..)⟩

theorem execJoin_goes (p a : Nat) (s : State) : s.Goes (execJoin p a s) := by
  unfold execJoin
  exact ⟨_, rfl, (State.keeps_issueVector ..)⟩

theorem execSplit_goes (p a : Nat) (s : State) : s.Goes (execSplit p a s) := by
  unfold execSplit
  exact ⟨_, rfl, (State.keeps_issueVector ..)⟩

/-! ### Machine/Messages -/

theorem State.keeps_askRef (s : State) (w : Who) (id : Nat) (write : Bool) (r off n : Nat) : s.Keeps (s.askRef w id write r off n) := by
  unfold State.askRef
  exact .ite (State.keeps_askWeirs ..) (.refl _)

theorem State.keeps_refRead (s : State) (w : Who) (r off n : Nat) : s.Keeps (s.refRead w r off n).2 := by
  unfold State.refRead
  split
  · exact State.keeps_agentRead ..
  · exact .refl _
  · exact .refl _

theorem State.keeps_refWrite (s : State) (w : Who) (r off : Nat) (x : Run) : s.Keeps (s.refWrite w r off x) := by
  unfold State.refWrite
  split
  · exact State.keeps_agentWrite ..
  · exact State.keeps_write ..
  · exact State.keeps_write ..

theorem State.keeps_peerArrival (s : State) (p port : Nat) : s.Keeps (s.peerArrival p port) := by
  unfold State.peerArrival
  dsimp only
  exact (State.keeps_modPart ..).after ((State.keeps_stamp ..).after (State.keeps_expireDue ..))

theorem State.keeps_landed (s : State) (k : Nat × Nat × Nat × Nat) (n : Nat) (arrives : Bool) : s.Keeps (s.landed k n arrives) := by
  unfold State.landed
  dsimp only
  exact .ite ((State.keeps_peerArrival ..).after (.same (by rfl))) (.same (by rfl))

theorem State.keeps_refPut (s : State) (k : Nat × Nat × Nat × Nat) (r off : Nat) (x : Run) (arrives : Bool) : s.Keeps
    (s.refPut k r off x arrives) := by
  unfold State.refPut
  dsimp only
  exact .ite ((State.keeps_askRef ..).after (.same (by rfl))) ((State.keeps_landed ..).after (State.keeps_refWrite ..))

theorem State.keeps_writeOut (s : State) (lw : LinkWrite) : s.Keeps (s.writeOut lw) := by
  unfold State.writeOut
  dsimp only
  exact (State.keeps_landed ..).after ((State.keeps_refWrite ..).after (.same (by rfl)))

theorem State.keeps_flushWrites (s : State) : s.Keeps s.flushWrites := by
  unfold State.flushWrites
  exact .foldl (fun s x => .ite (State.keeps_writeOut ..) (.refl _)) _ _

theorem State.keeps_endSending (s : State) (k : Nat × Nat × Nat × Nat) : s.Keeps (s.endSending k) := by
  unfold State.endSending
  dsimp only
  exact .same (by rfl)

theorem State.keeps_collMismatch (s : State) (c : Coll) (other : Nat) : s.Keeps (s.collMismatch c other) := by
  unfold State.collMismatch
  dsimp only
  exact (State.keeps_post ..).after ((State.keeps_giveAll ..).after ((State.keeps_modPart ..).after (.same (by rfl))))

theorem State.keeps_credit (s : State) (g : Grant) : s.Keeps (s.credit g) := by
  unfold State.credit
  dsimp only
  split
  · exact .ite (.same (by rfl)) ((State.keeps_askRef ..).after (.same (by rfl)))
  · exact .same (by rfl)

theorem State.keeps_takeGrant (s : State) (g : Grant) : s.Keeps (s.takeGrant g) := by
  unfold State.takeGrant
  dsimp only
  split
  · split
    · exact .ite (State.keeps_credit ..) (State.keeps_collMismatch ..)
    · exact State.keeps_credit ..
  · split
    · exact State.keeps_collMismatch ..
    · exact .same (by rfl)

theorem State.keeps_claimGrants (s : State) : s.Keeps s.claimGrants := by
  unfold State.claimGrants
  dsimp only
  exact .after (.foldl (fun s x => (State.keeps_takeGrant ..)) _ _) (.same (by rfl))

theorem State.keeps_issueMsg (s : State) (op p a : Nat) (send : Bool) : s.Keeps (s.issueMsg op p a send) := by
  unfold State.issueMsg
  dsimp only
  exact State.keeps_issueMatrix
    (h := fun _ _ s => (State.keeps_issueAction
    (h := fun s => .ite ((State.keeps_claimGrants ..).after ((State.keeps_addMsg ..).after (State.keeps_addFlight ..)))
    ((State.keeps_giveUnits ..).after ((State.keeps_addMsg ..).after (State.keeps_addFlight ..)))) ..)) ..

theorem execSend_goes (p a : Nat) (s : State) : s.Goes (execSend p a s) := by
  unfold execSend
  exact ⟨_, rfl, (State.keeps_issueMsg ..)⟩

theorem execRecv_goes (p a : Nat) (s : State) : s.Goes (execRecv p a s) := by
  unfold execRecv
  exact ⟨_, rfl, (State.keeps_issueMsg ..)⟩

theorem State.keeps_setColl (s : State) (c : Coll) : s.Keeps (s.setColl c) := by
  unfold State.setColl
  dsimp only
  exact .same (by rfl)

theorem State.keeps_collWrite (s : State) (c : Coll) : s.Keeps (s.collWrite c) := by
  unfold State.collWrite
  dsimp only
  exact .ite (.refl _) (.ite (State.keeps_refPut ..) (State.keeps_refPut ..))

theorem State.keeps_collEnter (fuel : Nat) (c : Coll) (s : State) : s.Keeps (State.collEnter fuel c s) := by
  induction fuel generalizing c s with
  | zero => exact .refl _
  | succ fuel ih =>
    unfold State.collEnter
    dsimp only
    split
    · exact (State.keeps_setColl ..).after (State.keeps_collWrite ..)
    · have h := State.Keeps.after (.foldl State.keeps_addMsg c.msgs (s.setColl c)) (s.keeps_setColl c)
      have h' : s.Keeps (if (CollDesc.parse c.desc).kind = 5 && c.msgs.all (·.isSend) then
          (c.msgs.foldl State.addMsg (s.setColl c)).peerArrival c.partition c.port else c.msgs.foldl State.addMsg (s.setColl c)) :=
        .ite ((State.keeps_peerArrival ..).after h) h
      exact .ite h' ((ih ..).after h')

theorem State.keeps_collSettle (s : State) : s.Keeps s.collSettle := by
  unfold State.collSettle
  exact (State.keeps_giveAll ..).after (State.keeps_claimGrants ..)

theorem State.keeps_linkConsume (s : State) (k : Nat × Nat × Nat × Nat) (cyc origin where' : Nat) : s.Keeps (s.linkConsume k cyc origin where') := by
  unfold State.linkConsume
  exact .ite (.refl _) ((State.keeps_endSending ..).after (State.keeps_consume ..))

theorem State.keeps_collReceived (s : State) (m : Msg) : s.Keeps (s.collReceived m) := by
  unfold State.collReceived
  split
  · exact .refl _
  extract_lets d
  split
  · exact .refl _
  extract_lets own bad s1
  split
  next x fl _ =>
  extract_lets c' s2 s3 s4 links s5
  have h1 : s.Keeps s1 := State.keeps_linkConsume ..
  have h3 : s.Keeps s3 := .after (.ite (State.keeps_refPut ..) (.refl _)) ((State.keeps_modPort ..).after h1)
  have h4 : s.Keeps s4 := (State.keeps_setColl ..).after h3
  have h5 : s.Keeps s5 := h4.trans (.same (by rfl))
  clear_value s5
  exact .ite h5 ((State.keeps_collSettle ..).after ((State.keeps_collEnter ..).after h5))

theorem State.keeps_collStart (s : State) (c : Coll) : s.Keeps (s.collStart c) := by
  unfold State.collStart
  dsimp only
  exact (State.keeps_collSettle ..).after
    ((State.keeps_collEnter ..).after
    ((State.keeps_setColl ..).after (.ite ((State.keeps_refPut ..).after (State.keeps_refRead ..)) (State.keeps_refRead ..))))

theorem State.keeps_linkGo (s : State) : s.Keeps s.linkGo := by
  unfold State.linkGo
  dsimp only
  refine .ite ?_ ?_
  · exact .refl _
  · exact (State.keeps_giveAll ..).after (.after (.foldl (fun s x => .ite (State.keeps_collStart ..) (.refl _)) _ _) (State.keeps_flushWrites ..))

theorem State.keeps_runColl (s : State) (c : Ctx) (d : CollDesc) (desc : List Byte) : s.Keeps (s.runColl c d desc) := by
  unfold State.runColl
  split
  next table s0 hread =>
  extract_lets t s1 l1 s2 cl l2 s3 s4 s5
  have h1 : s.Keeps s1 := (State.keeps_addFlight ..).after (.snd (.refl s) (State.keeps_refRead ..) hread)
  have h3 : s.Keeps s3 := h1.trans (.same (by rfl))
  have h4 : s.Keeps s4 := (State.keeps_linkConsume ..).after h3
  have h5 : s.Keeps s5 := (State.keeps_askRef ..).after ((State.keeps_askRef ..).after h4)
  exact .ite ((State.keeps_collStart ..).after h5) h5

theorem execCollective_goes (p a : Nat) (s : State) : s.Goes (execCollective p a s) := by
  unfold execCollective
  dsimp only
  exact ⟨_, rfl, (State.keeps_issueMatrix (h := fun _ _ s => (State.keeps_issueAction (h := fun s => (State.keeps_runColl ..)) ..).after
    (.ite ((State.keeps_askRef ..).after (State.keeps_refRead ..)) (.refl _))) ..)⟩

theorem State.keeps_linkSettled {s t : State} {k : Nat × Nat × Nat × Nat} (h : s.linkSettled k = some t) : s.Keeps t := by
  unfold State.linkSettled at h
  obtain ⟨n, -, rfl⟩ := Option.map_eq_some_iff.1 h
  exact (State.keeps_linkGo ..).after (State.keeps_toClk ..)

/-- The state to which an action in flight has settled. -/
theorem State.keeps_findSettled {s t : State} {l : List Flight} {op : Flight → Bool} {key : Flight → Nat × Nat × Nat × Nat}
    {done : State → Nat × Nat × Nat × Nat → Bool} {f : Flight}
    (h : l.findSome? (fun g => if op g then (s.linkSettled (key g)).bind (fun u => if done u (key g) then some (g, u) else none) else none) = some (f, t)) :
    s.Keeps t := by
  obtain ⟨g, -, hg⟩ := List.exists_of_findSome?_eq_some h
  split at hg
  · obtain ⟨u, hu, hdone⟩ := Option.bind_eq_some_iff.1 hg
    split at hdone
    · cases hdone
      exact State.keeps_linkSettled hu
    · cases hdone
  · cases hg

theorem execLinkActionComplete_goes (p a r : Nat) (s : State) : s.Goes (execLinkActionComplete p a r s) := by
  unfold execLinkActionComplete
  refine ⟨_, rfl, ?_⟩
  split
  · exact State.keeps_linkGo ..
  · next f t hsome =>
    have ht : s.Keeps t := State.keeps_findSettled hsome
    exact .ite ((State.keeps_peerArrival ..).after ((State.keeps_modPart ..).after (ht.trans (.same (by rfl))))) ht

/-! ### Machine/Links -/

theorem State.keeps_portStart (s : State) (port : Nat) : s.Keeps (s.portStart port) := by
  unfold State.portStart
  dsimp only
  exact .ite (State.keeps_setPort ..) (.refl _)

theorem State.keeps_parentLost (s : State) (port : Nat) : s.Keeps (s.parentLost port) := by
  unfold State.parentLost
  dsimp only
  exact .ite ((State.keeps_post ..).after (.same (by rfl))) (.refl _)

theorem State.keeps_portDown (s : State) (port cause : Nat) (fault : Bool) : s.Keeps (s.portDown port cause fault) := by
  unfold State.portDown
  dsimp only
  refine .ite ?_ ?_
  · exact (State.keeps_parentLost ..).after (.ite ((State.keeps_post ..).after (State.keeps_modPort ..)) (State.keeps_modPort ..))
  · exact State.keeps_modPort ..

theorem State.keeps_portOff (s : State) (port : Nat) : s.Keeps (s.portOff port) := by
  unfold State.portOff
  dsimp only
  exact .ite (.refl _) (.ite (State.keeps_modPort ..) ((State.keeps_portDown ..).after (State.keeps_modPort ..)))

theorem State.keeps_portOn (s : State) (port : Nat) : s.Keeps (s.portOn port) := by
  unfold State.portOn
  dsimp only
  refine .ite ?_ ?_
  · exact .refl _
  · refine .ite ?_ ?_
    · exact (State.keeps_setPort ..).after (State.keeps_setPort ..)
    · exact (State.keeps_portStart ..).after (State.keeps_setPort ..)

theorem State.keeps_portRetrain (s : State) (port : Nat) : s.Keeps (s.portRetrain port) := by
  unfold State.portRetrain
  dsimp only
  exact .ite (.ite ((State.keeps_parentLost ..).after (State.keeps_setPort ..)) (State.keeps_setPort ..)) (.refl _)

theorem State.keeps_portLoop (s : State) (port mode : Nat) : s.Keeps (s.portLoop port mode) := by
  unfold State.portLoop
  dsimp only
  refine .ite ?_ ?_
  · exact .refl _
  · refine .ite ?_ ?_
    · exact .ite ((State.keeps_portStart ..).after (State.keeps_setPort ..)) (State.keeps_setPort ..)
    · refine .ite ?_ ?_
      · exact State.keeps_setPort ..
      · exact .ite ((State.keeps_parentLost ..).after (State.keeps_setPort ..)) (State.keeps_setPort ..)

theorem execPortEnable_goes (port : Nat) (s : State) : s.Goes (execPortEnable port s) := by
  unfold execPortEnable
  exact State.direct_goes (h := fun s => .ite (State.keeps_portOn ..) (.refl _)) ..

theorem execPortDisable_goes (port : Nat) (s : State) : s.Goes (execPortDisable port s) := by
  unfold execPortDisable
  exact State.direct_goes (h := fun s => .ite (State.keeps_portOff ..) (.refl _)) ..

theorem execRetrain_goes (port : Nat) (s : State) : s.Goes (execRetrain port s) := by
  unfold execRetrain
  exact State.direct_goes (h := fun s => .ite (State.keeps_portRetrain ..) (.refl _)) ..

theorem execLoopback_goes (port mode : Nat) (s : State) : s.Goes (execLoopback port mode s) := by
  unfold execLoopback
  exact State.direct_goes (h := fun s => .ite (State.keeps_portLoop ..) (.refl _)) ..

theorem execLaneTrainDone_goes (port mask : Nat) (s : State) : s.Goes (execLaneTrainDone port mask s) := by
  unfold execLaneTrainDone
  dsimp only
  exact ⟨_, rfl, .ite (State.keeps_setPort ..) (.refl _)⟩

theorem execLaneTrainTimeout_goes (port : Nat) (s : State) : s.Goes (execLaneTrainTimeout port s) := by
  unfold execLaneTrainTimeout
  exact ⟨_, rfl, .ite (State.keeps_portDown ..) (.refl _)⟩

theorem execWidthExchange_goes (port peerMask : Nat) (s : State) : s.Goes (execWidthExchange port peerMask s) := by
  unfold execWidthExchange
  dsimp only
  refine ⟨_, rfl, ?_⟩
  refine .ite ?_ ?_
  · refine .ite ?_ ?_
    · exact (State.keeps_portDown ..).after (State.keeps_setPort ..)
    · refine .ite ?_ ?_
      · exact (State.keeps_portDown ..).after (State.keeps_setPort ..)
      · exact (State.keeps_modPort ..).after (State.keeps_setPort ..)
  · exact .refl _

theorem execIdentExchange_goes (port serial peerPort peerPart : Nat) (s : State) : s.Goes (execIdentExchange port serial peerPort peerPart s) := by
  unfold execIdentExchange
  dsimp only
  exact ⟨_, rfl, .ite (State.keeps_setPort ..) (.refl _)⟩

theorem State.keeps_expireAll (s : State) : s.Keeps s.expireAll := by
  unfold State.expireAll
  exact .foldl (fun s x => (State.keeps_expireDue ..)) _ _

theorem execPortFault_goes (port cause : Nat) (s : State) : s.Goes (execPortFault port cause s) := by
  unfold execPortFault
  exact ⟨_, rfl, .ite ((State.keeps_portDown ..).after (State.keeps_expireAll ..)) (.refl _)⟩

theorem State.keeps_parentAgain (s : State) : s.Keeps s.parentAgain := by
  unfold State.parentAgain
  dsimp only
  exact .ite (.refl _) (.ite (.same (by rfl)) (.same (by rfl)))

theorem State.keeps_deriveRoutes (s : State) : s.Keeps s.deriveRoutes := by
  unfold State.deriveRoutes
  dsimp only
  exact .ite (.refl _) ((State.keeps_parentAgain ..).after (.same (by rfl)))

theorem State.keeps_writeLnkCtrl (s : State) (v : W32) : s.Keeps (s.writeLnkCtrl v) := by
  unfold State.writeLnkCtrl
  dsimp only
  exact (State.keeps_deriveRoutes ..).after (.same (by rfl))

theorem State.keeps_writeLnkSelf (s : State) (v : W32) : s.Keeps (s.writeLnkSelf v) := by
  unfold State.writeLnkSelf
  dsimp only
  exact .ite (.refl _) ((State.keeps_deriveRoutes ..).after (.same (by rfl)))

theorem State.keeps_writeLnkTorus (s : State) (v : W32) : s.Keeps (s.writeLnkTorus v) := by
  unfold State.writeLnkTorus
  dsimp only
  exact .ite ((State.keeps_deriveRoutes ..).after (.same (by rfl))) (.refl _)

theorem State.keeps_writeTimeRoot (s : State) (v : W32) : s.Keeps (s.writeTimeRoot v) := by
  unfold State.writeTimeRoot
  dsimp only
  exact (State.keeps_parentAgain ..).after (.same (by rfl))

theorem State.keeps_msgRead (s : State) (m : Msg) (n : Nat) : s.Keeps (s.msgRead m n).2 := by
  unfold State.msgRead
  exact .ite_snd (.refl _) (State.keeps_refRead ..)

theorem State.keeps_nextFlit (port o fuel : Nat) (s : State) : s.Keeps (State.nextFlit port o fuel s).2 := by
  induction fuel generalizing s with
  | zero => exact .refl _
  | succ fuel ih =>
    unfold State.nextFlit
    extract_lets here
    split
    · exact .refl _
    · next m _ =>
      extract_lets n
      have h := s.keeps_msgRead m n
      generalize s.msgRead m n = x at h
      obtain ⟨r, t⟩ := x
      exact .ite_snd ((ih _).after ((State.keeps_linkConsume ..).after h)) (h.trans (.same (by rfl)))

theorem State.keeps_fillPositions (port n c : Nat) (s : State) : s.Keeps (State.fillPositions port n c s).2.2 := by
  induction n generalizing c s with
  | zero => exact .refl _
  | succ n ih =>
    unfold State.fillPositions
    extract_lets w o1 o2
    clear_value o1 o2
    split
    next f cr t h =>
    refine (ih _ _).after ?_
    split at h
    · cases h; exact .refl _
    split at h
    · cases h; exact .refl _
    split at h
    · split at h
      · cases h; exact .refl _
      · cases h; exact State.keeps_modPort ..
    · have hflit (o : Nat) := s.keeps_nextFlit port o (s.lnk.msgs.length + 1)
      split at h
      · next hx => cases h; exact .snd (.refl s) (hflit _) hx
      · next hx => cases h; exact .snd (.refl s) (hflit _) hx

theorem State.keeps_sendFrame (s : State) (port seq : Nat) (tags : List W16) (flits : List (List Byte)) : s.Keeps
    (s.sendFrame port seq tags flits) := by
  unfold State.sendFrame
  dsimp only
  exact State.keeps_setPort ..

theorem execFrameTransmit_goes (port : Nat) (s : State) : s.Goes (execFrameTransmit port s) := by
  unfold execFrameTransmit
  extract_lets t q
  have h : s.Keeps t := State.keeps_linkGo ..
  clear_value t q
  refine ⟨_, rfl, .after ?_ h⟩
  refine .ite (.refl _) ?_
  split
  · exact .ite ((State.keeps_portDown ..).after (State.keeps_expireAll ..))
      ((State.keeps_count ..).after ((State.keeps_sendFrame ..).after (State.keeps_setPort ..)))
  · refine .ite (State.keeps_sendFrame ..) ?_
    split
    next fs cr u hfill =>
    have hfill : t.Keeps u := (State.Keeps.refl t).result (State.keeps_fillPositions port 24 _ t) hfill
    exact (State.keeps_sendFrame ..).after ((State.keeps_modPort ..).after hfill)

theorem State.keeps_relayData (s : State) (off total : Nat) (bs : List Byte) : s.Keeps (s.relayData off total bs) := by
  unfold State.relayData
  dsimp only
  exact .ite (.refl _) (.same (by rfl))

theorem State.keeps_queueControl (s : State) (port : Nat) (flit : List Byte) : s.Keeps (s.queueControl port flit) := by
  unfold State.queueControl
  exact State.keeps_queueFlit ..

theorem State.keeps_relayAnswer (s : State) (port off len : Nat) : s.Keeps (s.relayAnswer port off len) := by
  unfold State.relayAnswer
  dsimp only
  exact .ite (.refl _) (.foldl (fun s x => .after (.foldl (fun s x => (State.keeps_queueControl ..)) _ _) (.same (by rfl))) _ _)

theorem State.keeps_unmatched (s : State) (port src owner channel : Nat) : s.Keeps (s.unmatched port src owner channel) := by
  unfold State.unmatched
  exact (State.keeps_post ..).after (State.keeps_count ..)

theorem State.keeps_transitDrop (s : State) (port word dest src : Nat) : s.Keeps (s.transitDrop port word dest src) := by
  unfold State.transitDrop
  dsimp only
  exact .ite ((State.keeps_post ..).after ((State.keeps_modPort ..).after (State.keeps_count ..))) (State.keeps_count ..)

theorem State.keeps_forward (s : State) (port dest src at' : Nat) (tag : W16) (flit : List Byte) : s.Keeps
    (s.forward port dest src at' tag flit) := by
  unfold State.forward
  dsimp only
  exact .ite (State.keeps_transitDrop ..) (.ite (State.keeps_transitDrop ..) (State.keeps_queueFlit ..))

theorem State.keeps_controlDeliver (s : State) (port : Nat) (flit : List Byte) : s.Keeps (s.controlDeliver port flit) := by
  unfold State.controlDeliver
  dsimp only
  refine .ite ?_ ?_
  · split
    · exact State.keeps_relayAnswer ..
    · exact State.keeps_relayData ..
    · exact .refl _
  · exact .refl _

theorem State.keeps_spread (s : State) (port : Nat) (flit : List Byte) : s.Keeps (s.spread port flit) := by
  unfold State.spread
  dsimp only
  exact .ite (.refl _) (.foldl (fun s x => (State.keeps_queueControl ..)) _ _)

theorem State.keeps_controlFlitIn (s : State) (port : Nat) (flit : List Byte) : s.Keeps (s.controlFlitIn port flit) := by
  unfold State.controlFlitIn
  dsimp only
  refine .ite ?_ ?_
  · exact State.keeps_unmatched ..
  · refine .ite ?_ ?_
    · refine .ite ?_ ?_
      · exact (State.keeps_spread ..).after (State.keeps_controlDeliver ..)
      · exact .ite ((State.keeps_spread ..).after ((State.keeps_controlDeliver ..).after (.same (by rfl)))) (.refl _)
    · exact .ite (State.keeps_controlDeliver ..) (State.keeps_forward ..)

theorem State.keeps_deliverData (s : State) (port src owner channel : Nat) (routed : Bool) (payload : List Byte) : s.Keeps
    (s.deliverData port src owner channel routed payload) := by
  unfold State.deliverData
  dsimp only
  split
  · exact State.keeps_unmatched ..
  · refine .ite ?_ ?_
    · exact State.keeps_unmatched ..
    · exact (State.keeps_giveUnits ..).after
        (.ite ((State.keeps_collReceived ..).after (.ite (.same (by rfl)) ((State.keeps_refPut ..).after (.same (by rfl)))))
        (.ite (.same (by rfl)) ((State.keeps_refPut ..).after (.same (by rfl)))))

theorem State.keeps_grantsIn (s : State) (way : Option Nat) (owner n : Nat) (bs : List Byte) : s.Keeps (s.grantsIn way owner n bs) := by
  unfold State.grantsIn
  dsimp only
  exact .foldl (fun s x => .ite (.refl _) (State.keeps_takeGrant ..)) _ _

theorem State.keeps_flitIn (s : State) (port : Nat) (tag : W16) (flit : List Byte) : s.Keeps (s.flitIn port tag flit) := by
  unfold State.flitIn
  dsimp only
  split
  · exact State.keeps_deliverData ..
  · exact .ite (.ite (State.keeps_grantsIn ..) (State.keeps_deliverData ..)) (State.keeps_forward ..)
  · exact State.keeps_grantsIn ..
  · exact State.keeps_controlFlitIn ..
  · exact .refl _

theorem State.keeps_acked (s : State) (port : Nat) (ack : W16) (nak : Bool) : s.Keeps (s.acked port ack nak) := by
  unfold State.acked
  dsimp only
  exact (State.keeps_setPort ..).after (.same (by rfl))

theorem State.keeps_exchange (s : State) (port : Nat) (content : List Byte) : s.Keeps (s.exchange port content) := by
  unfold State.exchange
  dsimp only
  exact State.keeps_setPort ..

theorem execFrameReceive_goes (port : Nat) (words : List Codeword) (content : List Byte) (s : State) :
    s.Goes (execFrameReceive port words content s) := by
  unfold execFrameReceive
  extract_lets s1 s2 whole s3 s4 s5
  have h2 : s.Keeps s2 := .after (.foldl (fun _ _ => .ite (.refl _) (State.keeps_count ..)) _ _)
    ((State.keeps_linkGo ..).after (State.keeps_expireAll ..))
  have h3 : s.Keeps s3 := .ite ((State.keeps_exchange ..).after h2) h2
  have h5 : s.Keeps s5 := (State.keeps_acked ..).after ((State.keeps_count ..).after ((State.keeps_modPort ..).after h3))
  refine ⟨_, rfl, .ite (.refl _) (.ite ?_ ((State.keeps_modPort ..).after h3))⟩
  exact .after (.foldl (fun _ _ => .ite (State.keeps_flitIn ..) (.refl _)) _ _) h5

theorem execTimeSteer_goes (s : State) : s.Goes (execTimeSteer s) := by
  refine ⟨_, rfl, ?_⟩
  split
  · exact .ite (.same (by rfl)) (.refl _)
  · exact .refl _

/-! ### Machine/UpdateEngine -/

theorem State.keeps_readArr (s : State) (w : Who) (addr width count : Nat) : s.Keeps (s.readArr w addr width count).2 := by
  unfold State.readArr
  exact State.keeps_agentRead ..

theorem State.keeps_keepSpan (s : State) (p agent op : Nat) (d : UpdDesc) (record : List Byte) : s.Keeps (s.keepSpan p agent op d record) := by
  unfold State.keepSpan
  dsimp only
  split
  · exact .refl _
  · exact .ite (.refl _) (State.keeps_modPart ..)

theorem State.keeps_putDigest (s : State) (w : Who) (op : Nat) (d : UpdDesc) (origin : Nat) (crcs : List Nat) : s.Keeps
    (s.putDigest w op d origin crcs) := by
  unfold State.putDigest
  dsimp only
  exact (State.keeps_keepSpan ..).after (State.keeps_agentWrite ..)

-- NOSRC Sys2Proof.UpdAcc.data

theorem State.keeps_putElem (s : State) (addr width v : Nat) : s.Keeps (s.putElem addr width v) := by
  unfold State.putElem
  exact State.keeps_devWrite ..

theorem State.keeps_readArrIf (c : Prop) [Decidable c] (s : State) (w : Who) (addr width count : Nat) (x : Arr) :
    s.Keeps (if c then s.readArr w addr width count else (x, s)).2 := .ite_snd (State.keeps_readArr ..) (.refl _)

theorem State.keeps_updOne (sc : StepScalars) (d : UpdDesc) (w r m v g : Arr) (acc : UpdAcc) (k : Nat) :
    acc.data.Keeps (updOne sc d w r m v g acc k).data := by
  have hif (c : Prop) [Decidable c] (s : State) (addr width v : Nat) : s.Keeps (if c then s.putElem addr width v else s) :=
    .ite (State.keeps_putElem ..) (.refl _)
  unfold updOne
  split
  · exact .refl _
  · dsimp only
    split
    · exact State.keeps_putElem ..
    · exact (hif ..).after ((hif ..).after ((State.keeps_putElem ..).after ((State.keeps_putElem ..).after (State.keeps_putElem ..))))

theorem State.keeps_updateDigest (s : State) (w : Who) (d : UpdDesc) (origin : Nat) : s.Keeps (s.updateDigest w d origin) := by
  unfold State.updateDigest
  exact (State.keeps_putDigest ..).after ((State.keeps_readArrIf ..).after ((State.keeps_readArrIf ..).after
    ((State.keeps_readArr ..).after (State.keeps_readArr ..))))

theorem State.keeps_runUpdate (s : State) (c : Ctx) (w : Who) (e : Nat) (d : UpdDesc) : s.Keeps (s.runUpdate c w e d) := by
  unfold State.runUpdate
  extract_lets sc so none' gs
  split
  next aw s1 h1 =>
  split
  next ar s2 h2 =>
  split
  next am s3 h3 =>
  split
  next av s4 h4 =>
  split
  next ag s5 h5 =>
  extract_lets acc t1 fault t2 t3 t4
  have hreads : s.Keeps s5 := .snd (.snd (.snd (.snd (.snd (.refl s) (State.keeps_readArr ..) h1) (State.keeps_readArr ..) h2)
    (State.keeps_readArrIf ..) h3) (State.keeps_readArrIf ..) h4) (State.keeps_readArr ..) h5
  have hacc : s5.Keeps acc.data := by
    unfold acc
    split
    · exact .refl s5
    · exact State.keeps_accessKept.foldlOn UpdAcc.data (State.keeps_updOne sc d aw ar am av ag) _ { data := s5, fl := gs.fl, bad := 0, first := 0 }
  have h1 : s.Keeps t1 := (State.keeps_orEng ..).after (hacc.after hreads)
  have h2 : s.Keeps t2 := .after (.ite (t1.keeps_updateDigest w d _) (.refl _)) h1
  have h3 : s.Keeps t3 := .after (.ite ((State.keeps_modPart ..).after (State.keeps_post ..)) (.refl _)) h2
  have h4 : s.Keeps t4 := .after (.ite (.refl _) (State.keeps_post ..)) h3
  clear_value t4 t3 t2 fault
  split
  · exact (State.keeps_consume ..).after h4
  · exact h4

theorem State.keeps_runRclear (s : State) (w : Who) (d : UpdDesc) : s.Keeps (s.runRclear w d) := by
  unfold State.runRclear
  exact State.keeps_agentWrite ..

theorem State.keeps_runSumsq (s : State) (c : Ctx) (w : Who) (e : Nat) (d : UpdDesc) : s.Keeps (s.runSumsq c w e d) := by
  unfold State.runSumsq
  dsimp only
  split <;> exact (State.keeps_consume ..).after ((State.keeps_write ..).after ((State.keeps_orEng ..).after (State.keeps_readArr ..)))

theorem State.keeps_runDigest (s : State) (c : Ctx) (w : Who) (d : UpdDesc) : s.Keeps (s.runDigest c w d) := by
  unfold State.runDigest
  extract_lets none' rd
  have hrd (t : State) (i a width : Nat) : t.Keeps (rd t i a width).2 := State.keeps_readArrIf ..
  clear_value rd
  split
  next aw s1 h1 =>
  split
  next ar s2 h2 =>
  split
  next am s3 h3 =>
  split
  next av s4 h4 =>
  have h : s.Keeps s4 := .snd (.snd (.snd (.snd (.refl s) (hrd ..) h1) (hrd ..) h2) (hrd ..) h3) (hrd ..) h4
  dsimp only
  split
  · exact (State.keeps_consume ..).after ((State.keeps_putDigest ..).after h)
  · exact (State.keeps_putDigest ..).after h

theorem State.keeps_cutUpdate (s : State) (e : Nat) : s.Keeps (s.cutUpdate e) := by
  unfold State.cutUpdate
  dsimp only
  split
  · exact .refl _
  · exact .after (.same (by rfl)) (.foldl (fun s x => .foldl (fun s x => (State.keeps_devWrite ..)) _ _) _ _)

theorem State.keeps_runUpd (s : State) (c : Ctx) (op : Nat) (d : UpdDesc) : s.Keeps (s.runUpd c op d) := by
  unfold State.runUpd
  extract_lets e work per t _
  have ht : s.Keeps t := .same (by rfl)
  clear_value t
  split
  · exact State.keeps_breach ..
  · split
    next k u hu =>
    have hu : s.Keeps u := .snd ht (State.keeps_draw t) hu
    dsimp only
    refine (State.keeps_addFlight ..).after ((State.keeps_askWeirs ..).after (.after ?_ hu))
    split
    · exact State.keeps_runRclear ..
    · exact State.keeps_runSumsq ..
    · exact State.keeps_runUpdate ..
    · exact State.keeps_runDigest ..

theorem State.keeps_issueUpdate (s : State) (op p a : Nat) : s.Keeps (s.issueUpdate op p a) := by
  unfold State.issueUpdate
  dsimp only
  exact State.keeps_issueMatrix (h := fun _ _ s => (State.keeps_issueAction (h := fun s => (State.keeps_runUpd ..)) ..)) ..

theorem execRclear_goes (p a : Nat) (s : State) : s.Goes (execRclear p a s) := by
  unfold execRclear
  exact ⟨_, rfl, (State.keeps_issueUpdate ..)⟩

theorem execSumsq_goes (p a : Nat) (s : State) : s.Goes (execSumsq p a s) := by
  unfold execSumsq
  exact ⟨_, rfl, (State.keeps_issueUpdate ..)⟩

theorem execUpdate_goes (p a : Nat) (s : State) : s.Goes (execUpdate p a s) := by
  unfold execUpdate
  exact ⟨_, rfl, (State.keeps_issueUpdate ..)⟩

theorem execDigest_goes (p a : Nat) (s : State) : s.Goes (execDigest p a s) := by
  unfold execDigest
  exact ⟨_, rfl, (State.keeps_issueUpdate ..)⟩

theorem State.keeps_addElem (s : State) (e origin : Nat) (acc x : Nat × Nat) : s.Keeps (s.addElem e origin acc x).1 := by
  unfold State.addElem
  dsimp only
  exact .ite_fst (.ite (.refl _) (State.keeps_devWrite ..)) ((State.keeps_orEng ..).after (State.keeps_devWrite ..))

theorem State.keeps_accDone (s : State) (w : AccWrite) (t : Nat) : s.Keeps (s.accDone w t) := by
  unfold State.accDone
  exact State.keeps_modPart ..

theorem State.keeps_poisonElems (s : State) (w : AccWrite) : s.Keeps (s.poisonElems w) := by
  unfold State.poisonElems
  exact .foldl (fun s x => (State.keeps_devWrite ..)) _ _

theorem State.keeps_accumulate (s : State) (engine : Nat) (w : AccWrite) : s.Keeps (s.accumulate engine w) := by
  unfold State.accumulate
  extract_lets p cyc s1 live s2 clash held party
  have h2 : s.Keeps s2 := .same (by rfl)
  clear_value s2 live
  split
  · exact (State.keeps_accDone ..).after ((State.keeps_breach ..).after h2)
  · split
    · exact (State.keeps_accDone ..).after ((State.keeps_breach ..).after h2)
    · split
      · exact (State.keeps_accDone ..).after ((State.keeps_breach ..).after ((State.keeps_poisonElems ..).after h2))
      · split
        next s3 bad h =>
        have h3 : s.Keeps s3 := h2.fst (.foldl_fst (fun _ _ => State.keeps_addElem ..) _ (s2, (0, 0))) h
        extract_lets t s4 start past v s5
        have h5 : s.Keeps s5 := ((State.keeps_askWeirs ..).after h3).trans (.same (by rfl))
        exact (State.keeps_accDone ..).after ((State.keeps_consume ..).after h5)
  · exact (State.keeps_accDone ..).after ((State.keeps_breach ..).after h2)

theorem execAccumulateWrite_goes (engine : Nat) (s : State) : s.Goes (execAccumulateWrite engine s) := by
  unfold execAccumulateWrite
  refine ⟨_, rfl, ?_⟩
  split
  · exact State.keeps_accumulate ..
  · exact .refl _

end Sys2Proof.Machine
end

section
/-! Resets, bring-up, host commands, power and metering keep it. -/
namespace Sys2Proof.Machine

open Sys2Proof

/-! ### Machine/Reset -/

theorem State.keeps_dropEngines (s : State) (gone : Nat → Bool) : s.Keeps (s.dropEngines gone) := by
  unfold State.dropEngines
  exact .ite (.foldl (fun s x => (State.keeps_modPart ..)) _ _) (.refl _)

theorem State.keeps_clearField (s : State) (f : Nat) : s.Keeps (s.clearField f) := by
  have h : s.Keeps (((s.zeroGalleys f).dropDirect (fun e => e / 3 == f)).dropEngines (inField f)) :=
    (State.keeps_dropEngines ..).after ((State.keeps_dropDirect ..).after (State.keeps_zeroGalleys ..))
  exact .after (.memory (by rfl) (Data.wf_clear · .core (coreAt (f * 64) 0) (64 * coreBytes) (coreAt (f * 64) 0 / 8) (64 * coreBytes / 8))) h

theorem State.keeps_clearStack (s : State) (k : Nat) : s.Keeps (s.clearStack k) :=
  .after (.memory (by rfl) fun h => by
    have h1 := Data.wf_clear h .sram (sramAt (32 * k) 0) (32 * sramBytes) (sramAt (32 * k) 0 / 8) (32 * sramBytes / 8)
    exact Data.wf_clear h1 .scalar (scalarAt (32 * k)) (32 * 64) (scalarAt (32 * k) / 8) (32 * 8)) (State.keeps_dropEngines ..)

theorem State.keeps_clearStores (s : State) : s.Keeps s.clearStores := by
  refine .memory (by rfl) fun h => ?_
  have h1 : (s.data.put .store [] []).wf = true := Data.wf_put h .store rfl rfl
  exact Data.wf_tags (t := []) h1 (fun _ => rfl)

theorem State.keeps_clearDomain (s : State) (d : Nat) : s.Keeps (s.clearDomain d) := by
  unfold State.clearDomain
  exact .ite (State.keeps_clearStack ..) (.ite (State.keeps_clearField ..) (.ite (State.keeps_clearStores ..) (.refl _)))

theorem State.keeps_burnDefect (s : State) (w : Nat) : s.Keeps (s.burnDefect w) := by
  unfold State.burnDefect
  dsimp only
  exact .ite (.same (by rfl)) (.ite ((State.keeps_post ..).after (.same (by rfl))) (.same (by rfl)))

theorem State.keeps_appendDefect (s : State) (w : Nat) : s.Keeps (s.appendDefect w) := by
  unfold State.appendDefect
  dsimp only
  exact .ite (.same (by rfl)) (State.keeps_burnDefect ..)

theorem State.keeps_showRepairs (s : State) : s.Keeps s.showRepairs := by
  unfold State.showRepairs
  dsimp only
  exact .same (by rfl)

theorem State.keeps_laneRepair (s : State) (faults : List LaneFault) : s.Keeps (s.laneRepair faults) := by
  unfold State.laneRepair
  dsimp only
  refine .ite ?_ ?_
  · exact (State.keeps_lose ..).after
      ((State.keeps_showRepairs ..).after (.foldl (fun s x => by split; exacts [(State.keeps_appendDefect ..), .same (by rfl)]) _ _))
  · exact (State.keeps_showRepairs ..).after (.foldl (fun s x => by split; exacts [(State.keeps_appendDefect ..), .same (by rfl)]) _ _)

theorem Data.wf_kept {d : Data} (h : d.wf = true) (e : Nat) :
    ({ Data.empty with host := d.host, hostP := d.hostP, devEpoch := e } : Data).wf = true := by
  have ⟨_, ⟨hh, hp⟩, _⟩ := (Data.wf_iff d).1 h
  rw [Data.wf_iff]
  exact ⟨fun sp => by cases sp <;> exact ⟨rfl, rfl⟩, ⟨hh, hp⟩, ⟨rfl, rfl, rfl⟩, rfl⟩

/-- A reset keeps the counter and leaves no firmware, no advance and no event. -/
theorem State.Keeps.lost {s t : State} (hq : t.pending = s.pending) (hb : t.es.buffer = []) (ha : t.sec.arb = s.sec.arb)
    (hv : t.sec.fwSvn = 0) (hn : t.sec.advancing = none) (hd : s.data.wf = true → t.data.wf = true) : s.Keeps t where
  queue := hq
  buffer _ := by simp [State.esBounded, hb]
  counter h := by
    refine ⟨⟨by simp [hv], by simpa [ha] using h.2.1, by simp [hn]⟩, by simp [ha]⟩
  form := hd

theorem State.keeps_cleared (s : State) (rst : RstRegs) : s.Keeps (s.cleared rst) :=
  .lost rfl rfl rfl rfl rfl (fun h => Data.wf_kept h _)

theorem State.keeps_fullReset (s : State) : s.Keeps s.fullReset := by
  unfold State.fullReset
  dsimp only
  exact State.keeps_cleared ..

theorem State.keeps_setSeq (s : State) (q : Option Release) : s.Keeps (s.setSeq q) := by
  unfold State.setSeq
  dsimp only
  exact .same (by rfl)

theorem State.keeps_startSeq (s : State) (left : List Nat) (gapEnd : Nat) : s.Keeps (s.startSeq left gapEnd) := by
  unfold State.startSeq
  exact State.keeps_setSeq ..

theorem State.keeps_holdFull (s : State) : s.Keeps s.holdFull := by
  unfold State.holdFull
  dsimp only
  exact .ite (State.keeps_fullReset ..) ((State.keeps_startSeq ..).after (State.keeps_fullReset ..))

theorem State.keeps_cutRun (s : State) (p : Nat) : s.Keeps (s.cutRun p) := by
  unfold State.cutRun
  extract_lets x s1 s2 s3
  have h1 : s.Keeps s1 := by
    unfold s1
    split
    · exact .ite (State.keeps_clearPending ..) (.refl _)
    · exact .refl _
  have h2 : s.Keeps s2 := .after (.foldl (fun _ _ => State.keeps_complete ..) _ _) ((State.keeps_modPart ..).after h1)
  have h3 : s.Keeps s3 := (State.keeps_endFlights ..).after ((State.keeps_endLinks ..).after ((State.keeps_modPart ..).after h2))
  exact .ite h3 (.ite ((State.keeps_complete ..).after ((State.keeps_modPart ..).after h3))
    ((State.keeps_endRun ..).after ((State.keeps_modPart ..).after h3)))

theorem State.keeps_endSwitches (s : State) (status reason : Nat) : s.Keeps (s.endSwitches status reason) := by
  unfold State.endSwitches
  dsimp only
  exact .after (.foldl (fun s x => .foldl (fun s x => (State.keeps_complete ..)) _ _) _ _) (.same (by rfl))

theorem State.keeps_computeReset (s : State) : s.Keeps s.computeReset := by
  unfold State.computeReset
  extract_lets s1 s2 s3 s4 keep
  have h1 : s.Keeps s1 := .ite (State.keeps_setPState ..) (.refl _)
  have h2 : s.Keeps s2 := .after (.foldl (fun s _ => State.keeps_cutUpdate ..) _ _) h1
  have h3 : s.Keeps s3 := (State.keeps_endSwitches ..).after (.after (.foldl (fun s _ => State.keeps_cutRun ..) _ _) h2)
  have h4 : s.Keeps s4 := .after (.foldl (fun s _ => State.keeps_clearDomain ..) _ _) h3
  clear_value keep s4
  exact h4.trans (.same (by rfl))

theorem execPowerOnReset_goes (s : State) : s.Goes (execPowerOnReset s) := by
  unfold execPowerOnReset
  extract_lets _ t
  have h : s.Keeps t := State.keeps_cleared ..
  clear_value t
  exact ⟨_, rfl, h.trans (.same (by rfl))⟩

theorem execPowerOnResetEnd_goes (s : State) : s.Goes (execPowerOnResetEnd s) := by
  unfold execPowerOnResetEnd
  dsimp only
  exact ⟨_, rfl, .ite ((State.keeps_startSeq ..).after (.same (by rfl))) (.refl _)⟩

theorem State.keeps_scanPins (s : State) : s.Keeps s.scanPins := by
  unfold State.scanPins
  dsimp only
  exact .same (by rfl)

theorem execResetNFall_goes (scope : Bool) (s : State) : s.Goes (execResetNFall scope s) := by
  unfold execResetNFall
  dsimp only
  refine ⟨_, rfl, ?_⟩
  refine .ite ?_ ?_
  · exact .refl _
  · refine .ite ?_ ?_
    · exact (State.keeps_scanPins ..).after (.same (by rfl))
    · refine .ite ?_ ?_
      · exact (State.keeps_computeReset ..).after ((State.keeps_scanPins ..).after (.same (by rfl)))
      · exact (State.keeps_holdFull ..).after ((State.keeps_scanPins ..).after (.same (by rfl)))

theorem execResetNRise_goes (bootSrc : Bool) (s : State) : s.Goes (execResetNRise bootSrc s) := by
  unfold execResetNRise
  dsimp only
  refine ⟨_, rfl, ?_⟩
  refine .ite ?_ ?_
  · exact .refl _
  · refine .ite ?_ ?_
    · exact (State.keeps_scanPins ..).after (.same (by rfl))
    · split
      · exact (State.keeps_setSeq ..).after ((State.keeps_scanPins ..).after (.same (by rfl)))
      · exact (State.keeps_startSeq ..).after ((State.keeps_scanPins ..).after (.same (by rfl)))

theorem State.keeps_onRelease (s : State) (d : Nat) : s.Keeps (s.onRelease d) := by
  unfold State.onRelease
  dsimp only
  split
  · split
    · exact (State.keeps_post ..).after (.same (by rfl))
    · exact .same (by rfl)
  · exact .same (by rfl)
  · exact .foldl (fun s x => (State.keeps_portStart ..)) _ _
  · exact .foldl (fun s x => (State.keeps_portStart ..)) _ _
  · exact .foldl (fun s x => (State.keeps_portStart ..)) _ _
  · exact .refl _

theorem State.keeps_sequenceDone (s : State) : s.Keeps s.sequenceDone := by
  have h : s.Keeps (s.setSeq none) := State.keeps_setSeq ..
  unfold State.sequenceDone
  generalize s.setSeq none = t at h
  extract_lets _ _ u
  have hu : s.Keeps u := h.trans (.same (by rfl))
  exact .ite (.ite ((State.keeps_setPState ..).after hu) hu) (.ite ((State.keeps_setPState ..).after h) h)

theorem State.keeps_lockIslands (s : State) (ds : List Nat) : s.Keeps (s.lockIslands ds) := by
  unfold State.lockIslands
  dsimp only
  exact .same (by rfl)

theorem State.keeps_releaseNext (s : State) (d : Nat) (rest : List Nat) (risen : Bool) (faults : List LaneFault) : s.Keeps
    (s.releaseNext d rest risen faults) := by
  unfold State.releaseNext
  dsimp only
  split
  · exact (State.keeps_setSeq ..).after
      (.ite ((State.keeps_laneRepair ..).after (.ite (.refl _) ((State.keeps_onRelease ..).after (.same (by rfl)))))
      (.ite (.refl _) ((State.keeps_onRelease ..).after (.same (by rfl)))))
  · exact (State.keeps_sequenceDone ..).after
      (.ite ((State.keeps_laneRepair ..).after (.ite (.refl _) ((State.keeps_onRelease ..).after (.same (by rfl)))))
      (.ite (.refl _) ((State.keeps_onRelease ..).after (.same (by rfl)))))

theorem execDomainRelease_goes (found : LockReport) (s : State) : s.Goes (execDomainRelease found s) := by
  unfold execDomainRelease
  dsimp only
  refine ⟨_, rfl, ?_⟩
  split
  · split
    · refine .ite ?_ ?_
      · exact .refl _
      · refine .ite ?_ ?_
        · exact (State.keeps_releaseNext ..).after ((State.keeps_toClk ..).after (State.keeps_lockIslands ..))
        · exact State.keeps_lockIslands ..
    · exact State.keeps_sequenceDone ..
  · exact .refl _

theorem State.keeps_lockTimedOut {s t : State} (h : s.Keeps t) (left : List Nat) (dom : BitVec 6) (early : Bool) (owed : Option Nat) (d : Nat) :
    s.Keeps (let u : State := { t with rst := { t.rst with seq := none, kept := left, reason := 0x401, domain := dom, earlyStop := early, owed := owed } }
      if u.rst.state = .lost then u else u.setPState .halted 0x401 d) := by
  extract_lets _ u
  have hu : s.Keeps u := h.trans (.same (by rfl))
  exact .ite hu ((State.keeps_setPState ..).after hu)

theorem execLockTimeout_goes (s : State) : s.Goes (execLockTimeout s) := by
  refine ⟨_, rfl, ?_⟩
  split
  · next q _ =>
    split
    · exact .ite (State.keeps_lockTimedOut (s.keeps_toClk q.limit) ..) (.refl _)
    · exact .refl _
  · exact .refl _

theorem execTestEnHigh_goes (s : State) : s.Goes (execTestEnHigh s) := by
  unfold execTestEnHigh
  dsimp only
  exact ⟨_, rfl, .ite (.refl _) (.after (.same (by rfl)) (.ite (.refl _) (State.keeps_holdFull ..)))⟩

/-! ### Machine/BringUp -/

theorem State.keeps_rstRefuse (s : State) (code : Nat) : s.Keeps (s.rstRefuse code).2 := by
  unfold State.rstRefuse
  dsimp only
  exact .same (by rfl)

theorem State.keeps_bootGo (s : State) (fetched : Bool) : s.Keeps (s.bootGo fetched).2 := by
  unfold State.bootGo
  dsimp only
  exact .ite_snd (State.keeps_rstRefuse ..) (.ite_snd (State.keeps_rstRefuse ..) (.ite_snd (State.keeps_rstRefuse ..) (.same (by rfl))))

theorem execBootGo_goes (fetched : Bool) (stores : List HostStore) (s : State) : s.Goes (execBootGo fetched stores s) :=
  .after (State.keeps_hostStores ..) (State.direct_goes (h := fun _ => State.keeps_bootGo ..) ..)

theorem execBootRelayRequest_goes (port : Nat) (s : State) : s.Goes (execBootRelayRequest port s) := by
  unfold execBootRelayRequest
  dsimp only
  exact ⟨_, rfl, .ite ((State.keeps_queueControl ..).after (.same (by rfl))) (.refl _)⟩

theorem State.imageCode_version {s : State} {m : List Byte} (h : s.imageCode m = 0) : fld m 0xC 4 ≤ 64 := by
  unfold State.imageCode at h
  extract_lets rsv key unsigned at h
  clear_value rsv key unsigned
  split at h
  · simp at h
  split at h
  · simp at h
  split at h
  · simp at h
  split at h
  · simp at h
  · next hv => simp at hv; exact hv.2

theorem execImageVerify_goes (s : State) : s.Goes (execImageVerify s) := by
  refine ⟨_, rfl, ?_⟩
  refine .ite (.refl _) ?_
  extract_lets m code
  split
  · next hc =>
    have hv := State.imageCode_version hc
    refine ⟨rfl, id, fun ⟨_, ha, hn⟩ => ⟨⟨?_, ha, hn⟩, le_rfl⟩, id⟩
    rw [BitVec.toNat_ofNat]
    omega
  · clear_value code
    exact .same (by rfl)

theorem execMemoryTrainingDone_goes (found : MemTraining) (s : State) : s.Goes (execMemoryTrainingDone found s) := by
  unfold execMemoryTrainingDone
  dsimp only
  refine ⟨_, rfl, ?_⟩
  refine .ite ?_ ?_
  · exact .refl _
  · split
    · exact (State.keeps_lose ..).after (.same (by rfl))
    · exact State.keeps_lose ..
    · refine .ite ?_ ?_
      · exact State.keeps_lose ..
      · refine .ite ?_ ?_
        · exact (State.keeps_setPState ..).after ((State.keeps_laneRepair ..).after (.same (by rfl)))
        · exact (State.keeps_laneRepair ..).after (.same (by rfl))

theorem State.keeps_stepTime (s : State) : s.Keeps s.stepTime := by
  unfold State.stepTime
  dsimp only
  exact (State.keeps_modPort ..).after (.after (.same (by rfl)) (State.keeps_draw ..))

theorem State.keeps_topoAgree (s : State) (m : List Byte) : s.Keeps (s.topoAgree m) := by
  unfold State.topoAgree
  dsimp only
  exact (State.keeps_setPState ..).after
    (.ite ((State.keeps_stepTime ..).after
    ((State.keeps_parentAgain ..).after
    (.after (.same (by rfl)) (.after (.foldl (fun s x => .ite (.refl _) (State.keeps_portOff ..)) _ _)
    ((State.keeps_writeTimeRoot ..).after ((State.keeps_writeLnkTorus ..).after (State.keeps_writeLnkSelf ..)))))))
    ((State.keeps_parentAgain ..).after
    (.after (.same (by rfl)) (.after (.foldl (fun s x => .ite (.refl _) (State.keeps_portOff ..)) _ _)
    ((State.keeps_writeTimeRoot ..).after ((State.keeps_writeLnkTorus ..).after (State.keeps_writeLnkSelf ..)))))))

theorem State.keeps_topoCheck (s : State) (m : List Byte) : s.Keeps (s.topoCheck m).2 := by
  unfold State.topoCheck
  dsimp only
  exact .ite_snd ((State.keeps_topoAgree ..).after (.same (by rfl))) ((State.keeps_rstRefuse ..).after (.same (by rfl)))

theorem State.keeps_topoFetch (s : State) (fetched : Bool) : s.Keeps (s.topoFetch fetched).2 := by
  unfold State.topoFetch
  dsimp only
  exact .ite_snd (State.keeps_rstRefuse ..) (State.keeps_topoCheck ..)

theorem State.keeps_topoGo (s : State) (fetched : Bool) : s.Keeps (s.topoGo fetched).2 := by
  unfold State.topoGo
  dsimp only
  split
  · exact .same (by rfl)
  · exact State.keeps_topoFetch ..
  · exact State.keeps_rstRefuse ..

theorem execTopoGo_goes (fetched : Bool) (stores : List HostStore) (s : State) : s.Goes (execTopoGo fetched stores s) :=
  .after (State.keeps_hostStores ..) (State.direct_goes (h := fun _ => State.keeps_topoGo ..) ..)

theorem execLinkTrainEnd_goes (s : State) : s.Goes (execLinkTrainEnd s) := by
  unfold execLinkTrainEnd
  dsimp only
  refine ⟨_, rfl, ?_⟩
  refine .ite ?_ ?_
  · split
    · exact (State.keeps_topoFetch ..).after ((State.keeps_setPState ..).after (.same (by rfl)))
    · exact (State.keeps_setPState ..).after (.same (by rfl))
  · exact .refl _

theorem State.keeps_renewRefuse (s : State) (code : Nat) : s.Keeps (s.renewRefuse code).2 := by
  unfold State.renewRefuse
  dsimp only
  exact .same (by rfl)

theorem State.keeps_writeRenew (s : State) (v : W32) : s.Keeps (s.writeRenew v).2 := by
  unfold State.writeRenew
  extract_lets p _ s1 fields mask s2 kept
  have h1 : s.Keeps s1 := .same (by rfl)
  have h2 : s.Keeps s2 := .after (.foldl (fun s _ => State.keeps_dropEngines ..) _ _) h1
  clear_value s2 kept mask
  have h3 : s.Keeps (s2.modPart p (fun x => { x with resident := x.resident.map (fun r => { r with enabled := false }) })) :=
    (State.keeps_modPart ..).after h2
  exact .ite_snd h1 (.ite_snd ((State.keeps_renewRefuse ..).after h1) (.ite_snd ((State.keeps_renewRefuse ..).after h1)
    (.ite_snd ((State.keeps_renewRefuse ..).after h1) (h3.trans (.same (by rfl))))))

theorem execRenewGo_goes (v : W32) (s : State) : s.Goes (execRenewGo v s) := by
  unfold execRenewGo
  exact State.direct_goes (h := fun s => (State.keeps_writeRenew ..)) ..

theorem State.keeps_renewField (s : State) (t : FieldTest) : s.Keeps (s.renewField t) := by
  unfold State.renewField
  extract_lets f s1 sites room s2 s3
  have h1 : s.Keeps s1 := .foldl (fun _ _ => State.keeps_appendDefect ..) t.rowRepairs s
  clear_value s1 sites room
  have h2 : s.Keeps s2 := by
    unfold s2
    split
    · exact .ite ((State.keeps_appendDefect ..).after h1) h1
    · exact h1
  exact .ite ((State.keeps_setDom ..).after ((State.keeps_appendDefect ..).after h2)) h2

theorem execRenewComplete_goes (found : List FieldTest) (s : State) : s.Goes (execRenewComplete found s) := by
  unfold execRenewComplete
  dsimp only
  refine ⟨_, rfl, ?_⟩
  split
  · exact .refl _
  · exact (State.keeps_post ..).after
      (.after (.same (by rfl)) (.after (.foldl (fun s x => (State.keeps_clearField ..)) _ _)
      (.after (.foldl (fun s x => (State.keeps_renewField ..)) _ _) (.same (by rfl)))))

theorem State.keeps_strike (s : State) (sp : Space) (a o : Nat) : s.Keeps (s.strike sp a o) :=
  .memory (by rfl) fun h => have ⟨hb, hq⟩ := ((Data.wf_iff _).1 h).1 sp; Data.wf_put h sp hb (Tab.wf_tset hq ..)

theorem State.keeps_strikeGalley (s : State) (c g o : Nat) : s.Keeps (s.strikeGalley c g o) :=
  .ite (.refl _) (.memory (by rfl) (Data.wf_galleys · id id (Tab.wf_tset · ..)))

theorem State.keeps_poisonAt (s : State) (w : Protected) : s.Keeps (s.poisonAt w) := by
  unfold State.poisonAt
  dsimp only
  split
  · exact State.keeps_strike ..
  · exact State.keeps_strikeGalley ..
  · exact State.keeps_strike ..
  · exact State.keeps_strike ..
  · exact State.keeps_strike ..
  · exact .ite (.same (by rfl)) (State.keeps_taintStaged ..)
  · split
    · exact .ite (.same (by rfl)) (.same (by rfl))
    · exact .refl _
  · split
    · exact State.keeps_strike ..
    · exact State.keeps_strike ..
    · exact .refl _
  · exact (State.keeps_lose ..).after (.same (by rfl))

theorem State.keeps_loseChannel (s : State) (c reason : Nat) : s.Keeps (s.loseChannel c reason) := by
  unfold State.loseChannel
  dsimp only
  exact (State.keeps_lose ..).after (.same (by rfl))

theorem State.keeps_countEcc (s : State) (a : Nat) : s.Keeps (s.countEcc a) := by
  unfold State.countEcc
  dsimp only
  split
  · split
    · exact .ite ((State.keeps_loseChannel ..).after (.same (by rfl))) (.same (by rfl))
    · exact .same (by rfl)
  · exact .refl _

theorem execBoardChannelFailed_goes (fault : MemFault) (s : State) : s.Goes (execBoardChannelFailed fault s) := by
  unfold execBoardChannelFailed
  dsimp only
  refine ⟨_, rfl, ?_⟩
  split
  · exact .ite (State.keeps_loseChannel ..) (.refl _)
  · exact .ite (State.keeps_loseChannel ..) (.refl _)
  · exact State.keeps_lose ..
  · exact State.keeps_secErr ..
  · split
    · exact (State.keeps_countEcc ..).after ((State.keeps_poisonAt ..).after (State.keeps_secUnc ..))
    · exact (State.keeps_poisonAt ..).after (State.keeps_secUnc ..)

/-! ### Machine/Layout -/

theorem State.keeps_applyLayout (s : State) (r : List Byte) : s.Keeps (s.applyLayout r) := by
  unfold State.applyLayout
  dsimp only
  exact (State.keeps_advertise ..).after (.after (.foldl (fun s x => (State.keeps_modPart ..)) _ _) (.same (by rfl)))

/-! ### Machine/HostCommands -/

theorem execNop_goes (s : State) : s.Goes (execNop s) := by
  unfold execNop
  exact ⟨_, rfl, (State.keeps_runCmd (h := fun _ s => (State.keeps_ok ..)) ..)⟩

theorem execAbort_goes (s : State) : s.Goes (execAbort s) := by
  unfold execAbort
  dsimp only
  refine ⟨_, rfl, ?_⟩
  split
  · exact .refl _
  · split
    · exact (State.keeps_complete ..).after (State.keeps_begun ..)
    · exact (State.keeps_complete ..).after (State.keeps_begun ..)
    · split
      · exact (State.keeps_complete ..).after (State.keeps_begun ..)
      · exact .refl _
    · split
      · exact (State.keeps_complete ..).after (State.keeps_begun ..)
      · exact .refl _
    · exact (State.keeps_complete ..).after (State.keeps_begun ..)

theorem State.keeps_runFetch (s : State) (op : Nat) {f : Cmd → State → State} (h : ∀ c s, State.Keeps s (f c s)) : s.Keeps (s.runFetch op f) :=
  .ite (.refl _) (State.keeps_runCmd s _ h)

theorem execLayout_goes (fetched : Bool) (s : State) : s.Goes (execLayout fetched s) := by
  unfold execLayout
  dsimp only
  exact ⟨_, rfl, (State.keeps_runFetch (h := fun _ s => .ite (State.keeps_deny ..) (.ite ((State.keeps_ok ..).after (State.keeps_applyLayout ..))
    ((State.keeps_deny ..).after (State.keeps_enableRefused ..)))) ..)⟩

theorem execLoad_goes (fetched : Bool) (s : State) : s.Goes (execLoad fetched s) :=
  ⟨_, rfl, State.keeps_runFetch (h := fun _ _ => .ite (State.keeps_deny ..) (State.keeps_answer (State.keeps_setPart ..) ..)) ..⟩

theorem execUnload_goes (s : State) : s.Goes (execUnload s) :=
  ⟨_, rfl, State.keeps_runCmd (h := fun _ _ => State.keeps_answer (State.keeps_setPart ..) ..) ..⟩

theorem execEnable_goes (s : State) : s.Goes (execEnable s) := by
  refine ⟨_, rfl, State.keeps_runCmd (h := fun c t => ?_) ..⟩
  dsimp only
  split
  · exact State.keeps_deny ..
  · exact .ite ((State.keeps_ok ..).after (State.keeps_setPart ..)) ((State.keeps_deny ..).after (State.keeps_enableRefused ..))

theorem execSwitch_goes (s : State) : s.Goes (execSwitch s) := by
  refine ⟨_, rfl, ?_⟩
  split
  · exact .refl _
  · next c _ =>
    extract_lets r t
    have h : s.Keeps t := State.keeps_begun ..
    clear_value t r
    exact .ite ((State.keeps_completeAll ..).after ((State.keeps_dropSwitch ..).after h)) (h.trans (.same (by rfl)))

theorem State.keeps_stillWaits (s : State) (e : Nat) : s.Keeps (s.stillWaits e) := by
  unfold State.stillWaits
  dsimp only
  refine .ite ?_ ?_
  · split
    · exact State.keeps_setRec ..
    · exact .refl _
  · exact .refl _

theorem State.keeps_continued (s : State) (p : Nat) : s.Keeps (s.continued p) := by
  unfold State.continued
  dsimp only
  exact .after (.foldl (fun s x => (State.keeps_stillWaits ..)) _ _) (.after (.foldl (fun s x => (State.keeps_setRec ..)) _ _)
    ((State.keeps_setStat ..).after (State.keeps_setPart ..)))

theorem execResumeContinue_goes (s : State) : s.Goes (execResumeContinue s) :=
  ⟨_, rfl, .ite (State.keeps_runCmd (h := fun _ _ => State.keeps_answer (State.keeps_continued ..) ..) ..) (.refl _)⟩

theorem execResumeAbandon_goes (s : State) : s.Goes (execResumeAbandon s) := by
  refine ⟨_, rfl, .ite (State.keeps_runCmd (h := fun c t => State.keeps_answer ((State.keeps_abandonRun ..).after ?_) ..) ..) (.refl _)⟩
  split
  · exact State.keeps_clearPending ..
  · exact .refl _

theorem State.keeps_zeroDev (s : State) (a n : Nat) : s.Keeps (s.zeroDev a n) :=
  .memory (by rfl) (Data.wf_clear · .dev a n (a / 64) (n / 64))

theorem State.keeps_pinBoard (s : State) (a n : Nat) : s.Keeps (s.pinBoard a n) := by
  unfold State.pinBoard
  dsimp only
  exact .same (by rfl)

theorem State.keeps_allocated (s : State) (c : Cmd) (a : Nat) : s.Keeps (s.allocated c a) := by
  unfold State.allocated
  dsimp only
  exact .after (.same (by rfl)) (.ite ((State.keeps_pinBoard ..).after (.ite (State.keeps_zeroDev ..) (.refl _)))
    (.ite (State.keeps_zeroDev ..) (.refl _)))

theorem execAlloc_goes (s : State) : s.Goes (execAlloc s) := by
  unfold execAlloc
  exact ⟨_, rfl, (State.keeps_runCmd
    (h := fun _ s => .ite (State.keeps_deny ..)
    (by split; exacts [(State.keeps_deny ..), .ite (State.keeps_deny ..) ((State.keeps_ok ..).after (State.keeps_allocated ..))])) ..)⟩

theorem execRelease_goes (s : State) : s.Goes (execRelease s) :=
  ⟨_, rfl, State.keeps_runCmd (h := fun _ _ => State.keeps_answer (.same (by rfl)) ..) ..⟩

theorem execMap_goes (s : State) : s.Goes (execMap s) :=
  ⟨_, rfl, State.keeps_runCmd (h := fun _ _ => State.keeps_answer (State.keeps_setPte ..) ..) ..⟩

theorem execUnmap_goes (s : State) : s.Goes (execUnmap s) :=
  ⟨_, rfl, State.keeps_runCmd (h := fun _ _ => State.keeps_answer (State.keeps_setPte ..) ..) ..⟩

theorem State.keeps_inProgress (s : State) (c : Cmd) (header : List Byte) (epoch : Nat) : s.Keeps (s.inProgress c header epoch) := by
  unfold State.inProgress
  dsimp only
  exact .same (by rfl)

theorem State.keeps_askTransfer (s : State) (c : Cmd) (reads writes : List (Nat × Nat)) : s.Keeps (s.askTransfer c reads writes) := by
  unfold State.askTransfer
  dsimp only
  exact (State.keeps_askWeirs ..).after (State.keeps_askWeirs ..)

theorem State.keeps_endTransfer (s : State) (b : Bg) (len : Nat) (stop : Option (Nat × Nat × Nat)) (free : Nat) {write : Nat → State → State}
    (h : ∀ n s, State.Keeps s (write n s)) (detail : Nat) : s.Keeps (s.endTransfer b len stop free write detail) := by
  unfold State.endTransfer
  extract_lets c _ t fin
  have ht : s.Keeps t := .after (State.keeps_dropHeld ..) (.same (by rfl))
  have hfin (u : State) (st reason n : Nat) : u.Keeps (fin u st reason n) := State.keeps_complete ..
  clear_value t fin
  split
  · refine .ite ((hfin ..).after ((h ..).after ht)) ?_
    extract_lets u
    have hu : s.Keeps u := (State.keeps_post ..).after ((h ..).after ht)
    exact .after (hfin ..) (hu.trans (.same (by rfl)))
  · exact .ite ((hfin ..).after ((h ..).after ht)) ((hfin ..).after ((h ..).after ht))

theorem execCopy_goes (s : State) : s.Goes (execCopy s) := by
  unfold execCopy
  dsimp only
  exact ⟨_, rfl, (State.keeps_runCmd
    (h := fun _ s => .ite (State.keeps_deny ..) ((State.keeps_askTransfer ..).after (State.keeps_inProgress ..))) ..)⟩

theorem execCopyComplete_goes (stamp : Nat) (s : State) : s.Goes (execCopyComplete stamp s) := by
  unfold execCopyComplete
  refine ⟨_, rfl, ?_⟩
  split
  · exact .refl _
  · dsimp only
    refine .ite (.refl _) ?_
    split
    · exact .refl _
    · refine .after (State.keeps_endTransfer (h := fun n t => ?_) ..) ((State.keeps_draw ..).after (State.keeps_toClk ..))
      exact .ite (State.keeps_hostWrite ..) (.foldl (fun _ _ => State.keeps_devWrite ..) _ _)

theorem execExportCmd_goes (s : State) : s.Goes (execExportCmd s) := by
  unfold execExportCmd
  dsimp only
  exact ⟨_, rfl, (State.keeps_runCmd
    (h := fun _ s => .ite ((State.keeps_askTransfer ..).after ((State.keeps_inProgress ..).after (State.keeps_modPart ..)))
    (State.keeps_deny ..)) ..)⟩

theorem execExportComplete_goes (stamp : Nat) (s : State) : s.Goes (execExportComplete stamp s) := by
  unfold execExportComplete
  refine ⟨_, rfl, ?_⟩
  split
  · exact .refl _
  · dsimp only
    refine .ite (.refl _) ?_
    split
    · exact .refl _
    · exact .after (State.keeps_endTransfer (h := fun _ _ => State.keeps_hostWrite ..) ..) ((State.keeps_draw ..).after (State.keeps_toClk ..))

theorem execCacheSet_goes (s : State) : s.Goes (execCacheSet s) := by
  unfold execCacheSet
  dsimp only
  exact ⟨_, rfl, (State.keeps_runCmd (h := fun _ s => .ite ((State.keeps_ok ..).after (State.keeps_modPart ..))
    ((State.keeps_deny ..).after (State.keeps_enableRefused ..))) ..)⟩

theorem execCacheGive_goes (s : State) : s.Goes (execCacheGive s) := by
  refine ⟨_, rfl, State.keeps_runCmd (h := fun c t => ?_) ..⟩
  split
  · exact State.keeps_deny ..
  · extract_lets pages
    split
    · exact State.keeps_deny ..
    · exact State.keeps_answer (.foldl (fun _ _ => State.keeps_givePage ..) _ _) ..

theorem State.keeps_queueCache (s : State) (c : Cmd) (leave : Bool) (slot seqId : Nat) : s.Keeps (s.queueCache c leave slot seqId) := by
  unfold State.queueCache
  exact State.keeps_modPart ..

theorem execCacheJoin_goes (s : State) : s.Goes (execCacheJoin s) := by
  refine ⟨_, rfl, State.keeps_runCmd (h := fun c t => ?_) ..⟩
  dsimp only
  split
  · exact State.keeps_deny ..
  · exact .ite (State.keeps_deny ..) (.ite ((State.keeps_ok ..).after ((State.keeps_notHeld ..).after (State.keeps_joinSlot ..)))
      (State.keeps_queueCache ..))

theorem execCacheLeave_goes (s : State) : s.Goes (execCacheLeave s) := by
  refine ⟨_, rfl, State.keeps_runCmd (h := fun c t => ?_) ..⟩
  dsimp only
  split
  · exact State.keeps_deny ..
  · exact .ite (State.keeps_deny ..) (.ite ((State.keeps_ok ..).after ((State.keeps_notHeld ..).after (State.keeps_leaveSlot ..)))
      (State.keeps_queueCache ..))

/-! ### Machine/Power -/

theorem execPower_goes (s : State) : s.Goes (execPower s) := by
  unfold execPower
  dsimp only
  exact ⟨_, rfl, (State.keeps_runCmd
    (h := fun _ s => .ite (State.keeps_deny ..) (.after (.same (by rfl)) (.foldl (fun s x => (State.keeps_setDom ..)) _ _))) ..)⟩

theorem State.keeps_disableNaming (s : State) (ds : List Nat) : s.Keeps (s.disableNaming ds) := by
  unfold State.disableNaming
  exact .foldl (fun s x => (State.keeps_modPart ..)) _ _

theorem State.keeps_domainEffect (s : State) (d : Nat) (new : DState) : s.Keeps (s.domainEffect d new) := by
  unfold State.domainEffect
  dsimp only
  exact .ite (.ite (.foldl (fun s x => (State.keeps_portDown ..)) _ _) (State.keeps_clearDomain ..)) (.refl _)

theorem State.keeps_afterOn (s : State) (d : Nat) (old new : DState) : s.Keeps (s.afterOn d old new) := by
  unfold State.afterOn
  dsimp only
  exact .ite (.foldl (fun s x => (State.keeps_portStart ..).after (State.keeps_modPort ..)) _ _) (.refl _)

theorem State.keeps_moveDomain (s : State) (t : Nat × DState × Nat) (fail : Nat) (tripped : Bool) : s.Keeps (s.moveDomain t fail tripped).1 := by
  unfold State.moveDomain
  split
  next d want rate =>
  extract_lets x off relock bad st r s1 s2 down b _ s3
  have h2 : s.Keeps s2 := (State.keeps_setDom ..).after (State.keeps_domainEffect ..)
  clear_value s2 down b st
  have h3 : s.Keeps s3 := h2.trans (.ite (.refl _) (.same (by rfl)))
  exact (State.keeps_afterOn ..).after h3

theorem execPowerComplete_goes (unlocked : List Nat) (faults : List LaneFault) (s : State) : s.Goes (execPowerComplete unlocked faults s) := by
  refine ⟨_, rfl, ?_⟩
  split
  · exact .refl _
  · next x _ =>
    extract_lets old
    split
    next t bad hf =>
    have h0 : s.Keeps { s with pwr := { s.pwr with cmd := none } } := .same (by rfl)
    have h1 : s.Keeps t := by
      refine h0.fst (.foldl_fst (fun a y => ?_) x.targets (_, false)) hf
      exact State.keeps_moveDomain ..
    extract_lets back t2 changed t3 t4
    have h3 : s.Keeps t3 := (State.keeps_disableNaming ..).after ((State.keeps_laneRepair ..).after h1)
    have h4 : s.Keeps t4 := .ite h3 ((State.keeps_post ..).after h3)
    exact .ite ((State.keeps_deny ..).after h4) (.ite ((State.keeps_deny ..).after h4) ((State.keeps_ok ..).after h4))

theorem State.keeps_thermalTrip (s : State) (sensor raw : Nat) : s.Keeps (s.thermalTrip sensor raw) := by
  unfold State.thermalTrip
  extract_lets x1 s1 s2 x3 s3 s4 s5 x6 s6
  have h1 : s.Keeps s1 := .same (by rfl)
  have h2 : s.Keeps s2 := .after (.foldl (fun t p => by
    extract_lets x
    split
    · exact State.keeps_freeze ..
    · exact State.keeps_freeze ..
    · exact (State.keeps_complete ..).after (State.keeps_setPart ..)
    · exact .refl _) _ _) h1
  clear_value s2
  have h3 : s.Keeps s3 := h2.trans (.same (by rfl))
  have h4 : s.Keeps s4 := (State.keeps_endSwitches ..).after h3
  have h5 : s.Keeps s5 := .ite ((State.keeps_post ..).after h4) h4
  clear_value s5
  have h6 : s.Keeps s6 := h5.trans (.same (by rfl))
  exact .ite ((State.keeps_setPState ..).after h6) ((State.keeps_advertise ..).after h6)

theorem Data.wf_sramLost {d : Data} (h : d.wf = true) :
    ({ d with core := [], sram := [], store := [], staging := [], scalar := [], coreP := [], sramP := [], storeP := [], stagingP := [],
              scalarP := [], galley := [], galleyN := [], galleyP := [], storeTag := [] } : Data).wf = true := by
  have ⟨hs, hh, _⟩ := (Data.wf_iff d).1 h
  rw [Data.wf_iff]
  refine ⟨fun sp => ?_, hh, ⟨rfl, rfl, rfl⟩, rfl⟩
  cases sp with
  | dev => exact hs .dev
  | core | sram | store | staging | scalar => exact ⟨rfl, rfl⟩

theorem State.keeps_criticalTrip (s : State) (sensor : Nat) : s.Keeps (s.criticalTrip sensor) := by
  unfold State.criticalTrip
  extract_lets t ports doms
  have hq : t.pending = s.pending := rfl
  have hb : t.es.buffer = [] := rfl
  clear_value t ports doms
  exact ⟨hq, fun _ => by simp [State.esBounded, hb], fun h => ⟨h, le_rfl⟩, Data.wf_sramLost⟩

theorem execThermalSample_goes (sensor : Nat) (raw : BitVec 16) (s : State) : s.Goes (execThermalSample sensor raw s) := by
  unfold execThermalSample
  dsimp only
  refine ⟨_, rfl, ?_⟩
  refine .ite ?_ ?_
  · exact .refl _
  · exact .ite ((State.keeps_criticalTrip ..).after (.same (by rfl))) (.ite ((State.keeps_thermalTrip ..).after (.same (by rfl))) (.same (by rfl)))

theorem execTripShutdown_goes (s : State) : s.Goes (execTripShutdown s) := by
  refine ⟨_, rfl, ?_⟩
  split
  · exact .refl _
  · extract_lets stopped s1 ds changed s2 mask s3
    have h1 : s.Keeps s1 := .ite (.refl _) (State.keeps_toNs ..)
    have h2 : s.Keeps s2 := .after (.foldl (fun _ _ => (State.keeps_setDom ..).after (State.keeps_domainEffect ..)) _ _) h1
    have h3 : s.Keeps s3 := (State.keeps_disableNaming ..).after h2
    clear_value s3 mask
    exact h3.trans (.same (by rfl))

theorem State.keeps_whichUnit (s : State) (power meter : Option Nat) : s.Keeps (s.whichUnit power meter).2 := by
  unfold State.whichUnit
  split
  · exact State.keeps_draw ..
  · exact .refl _
  · exact .refl _
  · exact .refl _

theorem execInhibitBegin_goes (s : State) : s.Goes (execInhibitBegin s) := by
  refine ⟨_, rfl, .ite (.refl _) ?_⟩
  split
  case h_3 t hx => exact .snd (.refl s) (State.keeps_whichUnit ..) hx
  all_goals
    next x t hx =>
    have h : s.Keeps t := .snd (.refl s) (State.keeps_whichUnit ..) hx
    extract_lets u
    have hu : s.Keeps u := (State.keeps_toClk ..).after h
    clear_value u
    exact hu.trans (.same (by rfl))

theorem State.keeps_burnHeld (s : State) : s.Keeps s.burnHeld := by
  unfold State.burnHeld
  dsimp only
  exact .after (.foldl (fun s x => (State.keeps_burnDefect ..).after (.same (by rfl))) _ _) (.same (by rfl))

/-! ### Machine/Meter -/

theorem State.keeps_alarm (s : State) (i : Nat) : s.Keeps (s.alarm i) := by
  unfold State.alarm
  dsimp only
  exact .ite (.refl _) (.ite ((State.keeps_post ..).after (.same (by rfl))) (.same (by rfl)))

theorem State.keeps_unalarm (s : State) (i : Nat) : s.Keeps (s.unalarm i) := by
  unfold State.unalarm
  dsimp only
  exact .same (by rfl)

theorem State.keeps_pulseDue (s : State) : s.Keeps s.pulseDue := by
  unfold State.pulseDue
  dsimp only
  exact .ite (.same (by rfl)) (.refl _)

theorem State.keeps_millisecond (s : State) : s.Keeps s.millisecond := by
  unfold State.millisecond
  dsimp only
  exact .ite ((State.keeps_alarm ..).after (.same (by rfl))) (.same (by rfl))

theorem State.keeps_pulseEnded {s t : State} (h : s.Keeps t) : s.Keeps ({ t with mu := { t.mu with pulse := none } } : State).pulseDue :=
  (State.keeps_pulseDue ..).after (h.trans (.same (by rfl)))

theorem execPulseEnd_goes (s : State) : s.Goes (execPulseEnd s) := by
  refine ⟨_, rfl, ?_⟩
  split
  · exact State.keeps_pulseEnded (State.keeps_toNs ..)
  · exact .refl _

theorem State.keeps_writeSlot (s : State) (r : Ledger) : s.Keeps (s.writeSlot r) := by
  unfold State.writeSlot
  dsimp only
  exact .same (by rfl)

theorem State.keeps_commitRecord (s : State) (r : Ledger) (verified : Bool) : s.Keeps (s.commitRecord r verified) := by
  unfold State.commitRecord
  dsimp only
  refine .ite ?_ ?_
  · exact .ite ((State.keeps_alarm ..).after ((State.keeps_unalarm ..).after (.same (by rfl)))) ((State.keeps_unalarm ..).after (.same (by rfl)))
  · exact (State.keeps_alarm ..).after (State.keeps_writeSlot ..)

theorem State.keeps_commitHeld (s : State) (r : Ledger) : s.Keeps (s.commitHeld r) := by
  unfold State.commitHeld
  exact (State.keeps_commitRecord ..).after (State.keeps_draw ..)

theorem State.keeps_finishWrite (s : State) : s.Keeps s.finishWrite := by
  unfold State.finishWrite
  dsimp only
  split
  · exact .ite (.refl _) ((State.keeps_commitHeld ..).after (.same (by rfl)))
  · exact .refl _

theorem execMeterSample_goes (mainMv mainMa auxMv auxMa : Nat) (checkOk : Bool) (s : State) : s.Goes
    (execMeterSample mainMv mainMa auxMv auxMa checkOk s) := by
  unfold execMeterSample
  dsimp only
  refine ⟨_, rfl, ?_⟩
  refine .ite ?_ ?_
  · exact .refl _
  · exact (State.keeps_pulseDue ..).after
      (.ite (.ite (.after (.same (by rfl)) (State.keeps_finishWrite ..))
      ((State.keeps_alarm ..).after (.after (.same (by rfl)) (State.keeps_finishWrite ..))))
      ((State.keeps_millisecond ..).after (.ite (.after (.same (by rfl)) (State.keeps_finishWrite ..))
      ((State.keeps_alarm ..).after (.after (.same (by rfl)) (State.keeps_finishWrite ..))))))

theorem State.keeps_keepRecord (s : State) (r : Ledger) : s.Keeps (s.keepRecord r) := by
  unfold State.keepRecord
  dsimp only
  exact (State.keeps_alarm ..).after (.ite (.same (by rfl)) (.same (by rfl)))

theorem State.keeps_dueRecord (s : State) (r : Ledger) (write : LedgerWrite) : s.Keeps (s.dueRecord r write) := by
  unfold State.dueRecord
  extract_lets _ t u
  have ht : s.Keeps t := .same (by rfl)
  have hu : s.Keeps u := (State.keeps_writeSlot ..).after ht
  clear_value u t
  refine .ite (State.keeps_keepRecord ..) (.ite (.refl _) ?_)
  split
  · exact (State.keeps_commitRecord ..).after ht
  · exact (State.keeps_commitRecord ..).after ht
  · exact hu.trans (.same (by rfl))

/-- The next metering interval begins. -/
theorem State.keeps_intervalBegun {s t : State} (h : s.Keeps t) (from' main aux : Nat) : s.Keeps { t with mu := { t.mu with
    startT := from', startMain := main, startAux := aux, pMax := 0, overrange := false, selfCheck := false, first := false } } := h.trans (.same (by rfl))

theorem execIntervalClose_goes (write : LedgerWrite) (s : State) : s.Goes (execIntervalClose write s) := by
  refine ⟨_, rfl, .ite (.refl _) ?_⟩
  extract_lets s1 m r s2 s3 s4
  have h1 : s.Keeps s1 := (State.keeps_finishWrite ..).after (State.keeps_toClk ..)
  have h2 : s.Keeps s2 := (State.keeps_dueRecord ..).after h1
  have h3 : s.Keeps s3 := .ite h2 ((State.keeps_unalarm ..).after h2)
  have h4 : s.Keeps s4 := .ite h3 ((State.keeps_unalarm ..).after h3)
  exact State.keeps_intervalBegun h4 ..

theorem State.keeps_writePending (s : State) : s.Keeps s.writePending := by
  unfold State.writePending
  dsimp only
  exact (State.keeps_unalarm ..).after (.after (.foldl (fun s x => (State.keeps_commitHeld ..)) _ _) (.same (by rfl)))

theorem execInhibitEnd_goes (s : State) : s.Goes (execInhibitEnd s) := by
  refine ⟨_, rfl, ?_⟩
  split
  · next hx => exact (State.keeps_writePending ..).after ((State.keeps_toClk ..).after (.snd (.refl s) (State.keeps_whichUnit ..) hx))
  · next hx => exact (State.keeps_burnHeld ..).after ((State.keeps_toClk ..).after (.snd (.refl s) (State.keeps_whichUnit ..) hx))
  · next hx => exact .snd (.refl s) (State.keeps_whichUnit ..) hx

end Sys2Proof.Machine
end

section
/-! Replica digests, security, the spine, registers, pins and polling keep it. -/
namespace Sys2Proof.Machine

open Sys2Proof

/-! ### Machine/Replica -/

theorem State.keeps_diverged (s : State) (p part step layer shard : Nat) : s.Keeps (s.diverged p part step layer shard) := by
  unfold State.diverged
  dsimp only
  exact .ite ((State.keeps_post ..).after (State.keeps_setPart ..)) (State.keeps_setPart ..)

theorem State.keeps_compareDigest (s : State) (p part step layer shard value : Nat) (own : Digest) : s.Keeps
    (s.compareDigest p part step layer shard value own) := by
  unfold State.compareDigest
  dsimp only
  exact .ite (State.keeps_modPart ..) ((State.keeps_diverged ..).after (State.keeps_modPart ..))

theorem State.keeps_sendDigest (s : State) (d : Digest) : s.Keeps (s.sendDigest d) := by
  unfold State.sendDigest
  dsimp only
  exact .after (.foldl (fun s x => (State.keeps_queueControl ..)) _ _) (.same (by rfl))

theorem State.keeps_formDigest (s : State) (p step layer shard : Nat) (spans : List (Nat × List Byte)) (parts : List Nat) : s.Keeps
    (s.formDigest p step layer shard spans parts) := by
  unfold State.formDigest
  dsimp only
  exact .after (.foldl (fun s x => (State.keeps_compareDigest ..)) _ _) ((State.keeps_sendDigest ..).after (State.keeps_modPart ..))

theorem State.keeps_formDigests (s : State) (p step : Nat) : s.Keeps (s.formDigests p step) := by
  unfold State.formDigests
  dsimp only
  split
  · exact .refl _
  · refine .ite ?_ ?_
    · exact State.keeps_modPart ..
    · exact .after (.foldl (fun s x => (State.keeps_formDigest ..)) _ _) (State.keeps_modPart ..)

theorem State.keeps_cacheBoundary (s : State) (p : Nat) : s.Keeps (s.cacheBoundary p) := by
  unfold State.cacheBoundary
  split
  · exact .refl _
  · exact (State.keeps_placeAll ..).after ((State.keeps_serveCacheQueue ..).after (State.keeps_commitPending ..))

theorem State.keeps_stepDuties (s : State) (p cyc : Nat) : s.Keeps (s.stepDuties p cyc) := by
  unfold State.stepDuties
  dsimp only
  exact (State.keeps_cacheBoundary ..).after (.ite (State.keeps_modPart ..) (.refl _))

theorem execStepMark_goes (p a : Nat) (s : State) : s.Goes (execStepMark p a s) := by
  unfold execStepMark
  dsimp only
  exact ⟨_, rfl, (State.keeps_control
    (h := fun _ s => .ite ((State.keeps_formDigests ..).after (.ite ((State.keeps_stepDuties ..).after (State.keeps_setPart ..))
    (State.keeps_setPart ..))) (.ite ((State.keeps_stepDuties ..).after (State.keeps_setPart ..)) (State.keeps_setPart ..))) ..)⟩

theorem execDigestReceived_goes (p part step layer shard digest : Nat) (s : State) : s.Goes
    (execDigestReceived p part step layer shard digest s) := by
  unfold execDigestReceived
  dsimp only
  refine ⟨_, rfl, ?_⟩
  refine .ite ?_ ?_
  · exact .refl _
  · split
    · exact .refl _
    · refine .ite ?_ ?_
      · exact .refl _
      · split
        · exact State.keeps_compareDigest ..
        · exact State.keeps_setPart ..

theorem execDigestMissing_goes (p part : Nat) (s : State) : s.Goes (execDigestMissing p part s) := by
  unfold execDigestMissing
  dsimp only
  refine ⟨_, rfl, ?_⟩
  refine .ite ?_ ?_
  · exact .refl _
  · split
    · exact (State.keeps_post ..).after ((State.keeps_setPart ..).after (State.keeps_toTime ..))
    · exact .refl _

theorem execCcReplicaWrite_goes (p : Nat) (v : W64) (stores : List HostStore) (s : State) : s.Goes (execCcReplicaWrite p v stores s) :=
  .after (State.keeps_hostStores ..) (State.direct_goes (h := fun _ => .ite (.refl _) (State.keeps_writeReplica ..)) ..)

/-! ### Machine/Schedule -/

theorem State.keeps_starting (s : State) (w : Sw) (t : Nat × Nat) : s.Keeps (s.starting w t) := by
  unfold State.starting
  exact State.keeps_modPart ..

theorem execSwitchServiceStart_goes (s : State) : s.Goes (execSwitchServiceStart s) := by
  unfold execSwitchServiceStart
  dsimp only
  refine ⟨_, rfl, ?_⟩
  split
  · exact .refl _
  · refine .ite ?_ ?_
    · exact (State.keeps_advertise ..).after (.after (.foldl (fun s x => (State.keeps_starting ..)) _ _) (.same (by rfl)))
    · exact .after (.foldl (fun s x => (State.keeps_complete ..)) _ _) (State.keeps_dropSwitch ..)

theorem State.keeps_startForme (s : State) (p : Nat) : s.Keeps (s.startForme p) := by
  unfold State.startForme
  dsimp only
  exact (State.keeps_clearTags ..).after (State.keeps_setPart ..)

theorem execStartBroadcast_goes (s : State) : s.Goes (execStartBroadcast s) := by
  unfold execStartBroadcast
  refine ⟨_, rfl, ?_⟩
  split
  · exact .refl _
  · exact (State.keeps_advertise ..).after (.after (.foldl (fun s x => (State.keeps_startForme ..)) _ _) (State.keeps_dropSwitch ..))

/-! ### Machine/Security -/

theorem State.keeps_secReason (s : State) (code : Nat) : s.Keeps (s.secReason code) := by
  unfold State.secReason
  dsimp only
  exact .same (by rfl)

theorem State.keeps_doeAnswer (s : State) (op status : Nat) (data : List Byte) : s.Keeps (s.doeAnswer op status data) := by
  unfold State.doeAnswer
  dsimp only
  exact .ite (.same (by rfl)) ((State.keeps_secReason ..).after (.same (by rfl)))

theorem execGetKeys_goes (s : State) : s.Goes (execGetKeys s) := by
  unfold execGetKeys
  exact ⟨_, rfl, .ite (.refl _) (State.keeps_doeAnswer ..)⟩

theorem execGetReport_goes (nonce : List Byte) (flags : Nat) (s : State) : s.Goes (execGetReport nonce flags s) := by
  unfold execGetReport
  dsimp only
  refine ⟨_, rfl, ?_⟩
  refine .ite ?_ ?_
  · exact .refl _
  · refine .ite ?_ ?_
    · exact State.keeps_doeAnswer ..
    · exact .ite (State.keeps_doeAnswer ..) ((State.keeps_doeAnswer ..).after (.ite (.after (.same (by rfl)) (.same (by rfl))) (.same (by rfl))))

theorem execIdeKey_goes (keyset : Nat) (ciphertext : List Byte) (s : State) : s.Goes (execIdeKey keyset ciphertext s) := by
  unfold execIdeKey
  dsimp only
  refine ⟨_, rfl, ?_⟩
  refine .ite ?_ ?_
  · exact .refl _
  · refine .ite ?_ ?_
    · exact State.keeps_doeAnswer ..
    · split
      · exact State.keeps_doeAnswer ..
      · exact (State.keeps_doeAnswer ..).after (.same (by rfl))

theorem execIdeGo_goes (request : DoeRequest) (s : State) : s.Goes (execIdeGo request s) := by
  unfold execIdeGo
  dsimp only
  refine ⟨_, rfl, ?_⟩
  refine .ite ?_ ?_
  · exact .refl _
  · split
    · exact State.keeps_doeAnswer ..
    · exact .ite (State.keeps_doeAnswer ..) ((State.keeps_doeAnswer ..).after (.same (by rfl)))

theorem execIdeStop_goes (s : State) : s.Goes (execIdeStop s) := by
  unfold execIdeStop
  dsimp only
  exact ⟨_, rfl, .ite (.refl _) ((State.keeps_doeAnswer ..).after (.same (by rfl)))⟩

theorem execIdeCheckFail_goes (s : State) : s.Goes (execIdeCheckFail s) := by
  unfold execIdeCheckFail
  dsimp only
  exact ⟨_, rfl, .ite (.same (by rfl)) (.refl _)⟩

/-- An advance begins only to a version above the counter that the firmware in force carries. -/
theorem State.keeps_arbBegin (s : State) (target : Nat) : s.Keeps (s.arbBegin target).2 := by
  unfold State.arbBegin
  split
  · exact State.keeps_secReason ..
  · split
    · exact .refl _
    next hv ha =>
    refine ⟨rfl, id, fun ⟨hf, ha', _⟩ => ⟨⟨hf, ha', ?_⟩, le_rfl⟩, id⟩
    rintro n ⟨⟩
    simp only [Bool.or_eq_true, decide_eq_true_eq, not_or] at hv
    change s.sec.arb.toNat ≤ target ∧ target ≤ 64
    omega

theorem State.keeps_arbNext (l : List Nat) (s : State) : s.Keeps (arbNext l s) := by
  induction l generalizing s with
  | nil => exact .same (by rfl)
  | cons t rest ih =>
    have h : s.Keeps (s.arbBegin t).2 := State.keeps_arbBegin ..
    exact .ite (h.trans (.same (by rfl))) ((ih _).after h)

theorem State.keeps_writeArb (s : State) (target : Nat) : s.Keeps (s.writeArb target).2 := by
  unfold State.writeArb
  dsimp only
  exact .ite_snd (.refl _) (.ite_snd (.same (by rfl)) (State.keeps_arbBegin ..))

theorem execArbAdvance_goes (target : Nat) (s : State) : s.Goes (execArbAdvance target s) := by
  unfold execArbAdvance
  exact State.direct_goes (h := fun s => (State.keeps_writeArb ..)) ..

-- RECURSIVE Sys2Proof.arbNext

theorem execArbAdvanceDone_goes (s : State) : s.Goes (execArbAdvanceDone s) := by
  refine ⟨_, rfl, ?_⟩
  split
  · next t ht =>
    refine .ite (.refl _) ((State.keeps_arbNext ..).after ⟨rfl, id, fun ⟨hf, _, hn⟩ => ?_, id⟩)
    have ⟨hle, hmax⟩ := hn t ht
    have ht : (BitVec.ofNat 7 t).toNat = t := by rw [BitVec.toNat_ofNat]; omega
    refine ⟨⟨hf, ?_, by simp⟩, ?_⟩
    · change (BitVec.ofNat 7 t).toNat ≤ 64
      omega
    · change s.sec.arb.toNat ≤ (BitVec.ofNat 7 t).toNat
      omega
  · exact .refl _

theorem State.keeps_writeNme (s : State) (v : W32) : s.Keeps (s.writeNme v).2 := by
  unfold State.writeNme
  dsimp only
  exact .ite_snd (.ite_snd (State.keeps_secReason ..) (.ite_snd (State.keeps_secReason ..) (.same (by rfl)))) (.same (by rfl))

theorem execNmeTest_goes (v : W32) (s : State) : s.Goes (execNmeTest v s) := by
  unfold execNmeTest
  exact State.direct_goes (h := fun s => (State.keeps_writeNme ..)) ..

theorem execNmeTestDone_goes (passed : Bool) (s : State) : s.Goes (execNmeTestDone passed s) := by
  unfold execNmeTestDone
  dsimp only
  refine ⟨_, rfl, ?_⟩
  split
  · exact .same (by rfl)
  · exact .refl _

/-! ### Machine/SpineWeir -/

theorem State.keeps_spineBreach (s : State) (cls router out cyc partition source : Nat) (other : Option Nat) : s.Keeps
    (s.spineBreach cls router out cyc partition source other) := by
  unfold State.spineBreach
  exact .ite (.refl _) (State.keeps_breach ..)

theorem State.keeps_toInput (s : State) (r : Nat) (f : Flit) : s.Keeps (s.toInput r f) := by
  unfold State.toInput
  split
  · split
    · exact State.keeps_toClk ..
    · exact .refl _
  · exact .refl _

theorem State.keeps_takeFlit (s : State) (r out : Nat) (f : Flit) : s.Keeps (s.takeFlit r out f) := by
  unfold State.takeFlit
  split
  · extract_lets here gone all t
    have h : s.Keeps t := State.keeps_setLink ..
    clear_value t
    exact h.trans (.same (by rfl))
  · exact .refl _

theorem State.keeps_sendOn (s : State) (r out : Nat) (f : Flit) : s.Keeps (s.sendOn r out f) := by
  unfold State.sendOn
  exact State.keeps_setLink ..

theorem State.keeps_withdraw (s : State) (key : Nat) : s.Keeps (s.withdraw key) := by
  unfold State.withdraw
  exact State.keeps_setLink ..

theorem State.keeps_checkFlit (s : State) (f : Flit) (where' : Nat) : s.Keeps (s.checkFlit f where') := by
  unfold State.checkFlit
  split
  · exact .refl _
  · exact State.keeps_secErr ..
  · exact State.keeps_secUnc ..
  · exact State.keeps_secUnc ..

theorem execSpineFlit_goes (router out : Nat) (flit : Flit) (s : State) : s.Goes (execSpineFlit router out flit s) := by
  unfold execSpineFlit
  extract_lets s1 cyc key s2 none' last allotted met s3 s4 s5 sound s6
  have h2 : s.Keeps s2 := (State.keeps_checkFlit ..).after ((State.keeps_takeFlit ..).after (State.keeps_toInput ..))
  have h3 : s.Keeps s3 := .ite h2 ((State.keeps_spineBreach ..).after h2)
  have h4 : s.Keeps s4 := .ite h3 (.ite ((State.keeps_spineBreach ..).after h3)
    ((State.keeps_spineBreach ..).after ((State.keeps_spineBreach ..).after h3)))
  have h5 : s.Keeps s5 := .ite ((State.keeps_withdraw ..).after h4) h4
  have h6 : s.Keeps s6 := .ite ((State.keeps_sendOn ..).after h5) h5
  clear_value s6 sound
  exact ⟨_, rfl, .ite (.refl _) (.ite h2 (h6.trans (.same (by rfl))))⟩

theorem execWeirRequest_goes (w o bytes agent action : Nat) (s : State) : s.Goes (execWeirRequest w o bytes agent action s) := by
  unfold execWeirRequest
  exact ⟨_, rfl, .ite (.refl _) (State.keeps_offer ..)⟩

/-! ### Machine/Registers -/

theorem State.keeps_readEffect (s : State) (r : Reg) : s.Keeps (s.readEffect r) := by
  unfold State.readEffect
  dsimp only
  split
  · exact .same (by rfl)
  · exact .same (by rfl)
  · exact .same (by rfl)
  · exact .same (by rfl)
  · exact .same (by rfl)
  · exact .refl _

-- NORES Sys2Proof.State.readReg

theorem State.keeps_memRefuse (s : State) (code : Nat) : s.Keeps (s.memRefuse code).2 := by
  unfold State.memRefuse
  dsimp only
  exact .same (by rfl)

theorem State.keeps_writeWeir (s : State) (w o : Nat) (x : W32) : s.Keeps (s.writeWeir w o x).2 := by
  unfold State.writeWeir
  dsimp only
  exact .ite_snd (.refl _)
    (.ite_snd (State.keeps_memRefuse ..)
    (.ite_snd (State.keeps_memRefuse ..) (.ite ((State.keeps_modPart ..).after (.same (by rfl))) (.same (by rfl)))))

theorem State.keeps_writeMemLevel (s : State) (v : W32) : s.Keeps (s.writeMemLevel v).2 := by
  unfold State.writeMemLevel
  dsimp only
  exact .ite_snd (.same (by rfl))
    (.ite_snd (.refl _) (.ite_snd (State.keeps_memRefuse ..) (.after (.foldl (fun s x => (State.keeps_modPart ..)) _ _) (.same (by rfl)))))

theorem State.keeps_writeHostWindow (s : State) (v : W32) : s.Keeps (s.writeHostWindow v).2 := by
  unfold State.writeHostWindow
  dsimp only
  exact .ite_snd (State.keeps_memRefuse ..) (.same (by rfl))

theorem State.keeps_writeHostLat (s : State) (v : W32) : s.Keeps (s.writeHostLat v).2 := by
  unfold State.writeHostLat
  dsimp only
  exact .ite_snd (State.keeps_memRefuse ..) (.same (by rfl))

theorem State.keeps_hifRefuse (s : State) (code : Nat) : s.Keeps (s.hifRefuse code).2 := by
  unfold State.hifRefuse
  dsimp only
  exact .same (by rfl)

theorem State.keeps_writeHifCtrl (s : State) (v : Nat) (cmd : Bool) : s.Keeps (s.writeHifCtrl v cmd).2 := by
  unfold State.writeHifCtrl
  dsimp only
  exact .ite_snd ((State.keeps_hifTryEnable ..).after (State.keeps_hifLevel ..))
    (.ite_snd ((State.keeps_hifLevel ..).after (State.keeps_hifTryDisable ..)) (State.keeps_hifTryDisable ..))

theorem State.keeps_hifFixed {s t : State} (h : s.Keeps t) : s.Keeps (s.hifFixed t).2 := .ite_snd (State.keeps_hifRefuse ..) h

theorem State.keeps_writeRing (s : State) (kind i v : Nat) : s.Keeps (s.writeRing kind i v).2 := by
  refine .ite_snd (.refl _) (State.keeps_hifFixed ?_)
  split
  · exact State.keeps_putCr ..
  · exact State.keeps_putCq ..
  · exact State.keeps_putEq ..

theorem State.keeps_writeMsix (s : State) (i v : Nat) : s.Keeps (s.writeMsix i v) := by
  unfold State.writeMsix
  dsimp only
  exact .ite ((State.keeps_sendVector ..).after (.same (by rfl))) (.same (by rfl))

theorem State.keeps_writePortCtrl (s : State) (port v : Nat) : s.Keeps (s.writePortCtrl port v) := by
  unfold State.writePortCtrl
  dsimp only
  refine .ite ?_ ?_
  · exact (State.keeps_portRetrain ..).after
      (.ite (.ite ((State.keeps_portOn ..).after (State.keeps_modPort ..)) (.ite ((State.keeps_portOff ..).after (State.keeps_modPort ..))
      (State.keeps_modPort ..)))
      ((State.keeps_portLoop ..).after (.ite ((State.keeps_portOn ..).after (State.keeps_modPort ..))
      (.ite ((State.keeps_portOff ..).after (State.keeps_modPort ..)) (State.keeps_modPort ..)))))
  · refine .ite ?_ ?_
    · refine .ite ?_ ?_
      · exact (State.keeps_portOn ..).after (State.keeps_modPort ..)
      · exact .ite ((State.keeps_portOff ..).after (State.keeps_modPort ..)) (State.keeps_modPort ..)
    · exact (State.keeps_portLoop ..).after (.ite ((State.keeps_portOn ..).after (State.keeps_modPort ..))
        (.ite ((State.keeps_portOff ..).after (State.keeps_modPort ..)) (State.keeps_modPort ..)))

theorem State.keeps_writeRoute (s : State) (sub n v : Nat) : s.Keeps (s.writeRoute sub n v) := by
  unfold State.writeRoute
  dsimp only
  exact .ite (.refl _) ((State.keeps_parentAgain ..).after (.same (by rfl)))

theorem State.keeps_clearCounter (s : State) (i : Nat) : s.Keeps (s.clearCounter i) := by
  unfold State.clearCounter
  dsimp only
  exact .ite (.after (.same (by rfl)) (State.keeps_modPort ..)) (.refl _)

theorem State.keeps_clearTrap (s : State) (core : Nat) : s.Keeps (s.clearTrap core) := by
  unfold State.clearTrap
  dsimp only
  exact .same (by rfl)

theorem State.keeps_writeSeed (s : State) (r : Reg) (v : W32) : s.Keeps (s.writeSeed r v) := by
  unfold State.writeSeed
  dsimp only
  split
  · exact .ite (.same (by rfl)) (.refl _)
  · exact .ite (.same (by rfl)) (.refl _)
  · exact .ite (.same (by rfl)) (.refl _)
  · exact .refl _

theorem State.keeps_rstcLevel (s : State) (v : Bool) : s.Keeps (s.rstcLevel v) := by
  unfold State.rstcLevel
  dsimp only
  exact .same (by rfl)

theorem State.keeps_ccLevel (s : State) (v : Bool) : s.Keeps (s.ccLevel v) := by
  unfold State.ccLevel
  dsimp only
  exact .same (by rfl)

theorem State.keeps_esLevel (s : State) (v : Bool) : s.Keeps (s.esLevel v) := by
  unfold State.esLevel
  dsimp only
  exact .same (by rfl)

theorem State.keeps_seLevel (s : State) (v : Bool) : s.Keeps (s.seLevel v) := by
  unfold State.seLevel
  dsimp only
  exact .same (by rfl)

theorem State.keeps_numLevel (s : State) (v : Bool) : s.Keeps (s.numLevel v) := by
  unfold State.numLevel
  dsimp only
  exact .same (by rfl)

theorem State.keeps_hifPut (s : State) (cmd : Bool) (v : Nat) (r : Reg) : s.Keeps (s.hifPut cmd v r).2 := by
  unfold State.hifPut
  split
  · exact State.keeps_writeHifCtrl ..
  · exact State.keeps_hifFixed (.same (by rfl))
  · exact State.keeps_hifFixed (.same (by rfl))
  · exact .ite_snd (State.keeps_hifFixed (.same (by rfl))) (.refl _)
  · exact State.keeps_nudged ..
  · exact .ite_snd (State.keeps_hifRefuse ..) (.same (by rfl))
  · exact State.keeps_writeRing ..
  · exact State.keeps_writeMsix ..
  · exact .refl _

theorem State.keeps_rstcPut (s : State) (v : Nat) (r : Reg) : s.Keeps (s.rstcPut v r).2 := by
  unfold State.rstcPut
  split
  · have h : s.Keeps (s.rstcLevel (bit v 0)) := State.keeps_rstcLevel ..
    exact h.trans (.same (by rfl))
  · exact .same (by rfl)
  · exact .same (by rfl)
  · exact .ite_snd (State.keeps_bootGo ..) (.refl _)
  · exact .same (by rfl)
  · exact .ite_snd (State.keeps_topoGo ..) (.refl _)
  · exact State.keeps_writeRenew ..
  · exact .ite (.same (by rfl)) (.refl _)
  · exact .refl _

theorem State.keeps_pwrPut (s : State) (v : Nat) (x2 : Reg) : s.Keeps (s.pwrPut v x2).2 := by
  unfold State.pwrPut
  dsimp only
  split
  · exact .same (by rfl)
  · exact .ite (.same (by rfl)) (.refl _)
  · exact .refl _

theorem State.keeps_ccPut (s : State) (v : Nat) (x2 : Reg) : s.Keeps (s.ccPut v x2).2 := by
  unfold State.ccPut
  dsimp only
  split
  · exact State.keeps_ccLevel ..
  · exact .same (by rfl)
  · exact .ite (.same (by rfl)) (.refl _)
  · exact State.keeps_writeReplica ..
  · exact .refl _

theorem State.keeps_esPut (s : State) (v m : Nat) (x3 : Reg) : s.Keeps (s.esPut v m x3).2 := by
  unfold State.esPut
  dsimp only
  split
  · exact (State.keeps_esLevel ..).after (.same (by rfl))
  · exact .ite (.same (by rfl)) (.refl _)
  · exact .same (by rfl)
  · exact State.keeps_clearCounter ..
  · exact .refl _

theorem State.keeps_lnkPut (s : State) (v : Nat) (r : Reg) : s.Keeps (s.lnkPut v r).2 := by
  unfold State.lnkPut
  split
  · exact State.keeps_writeLnkCtrl ..
  · exact State.keeps_writeLnkSelf ..
  · exact State.keeps_writeLnkTorus ..
  · exact State.keeps_writeTimeRoot ..
  · exact State.keeps_writePortCtrl ..
  · dsimp only
    exact State.keeps_modPort ..
  · exact .refl _

theorem State.keeps_memPut (s : State) (v : Nat) (x2 : Reg) : s.Keeps (s.memPut v x2).2 := by
  unfold State.memPut
  split
  · exact State.keeps_writeMemLevel ..
  · exact State.keeps_writeHostWindow ..
  · exact State.keeps_writeHostLat ..
  · exact State.keeps_writeWeir ..
  · exact .refl _

theorem State.keeps_sePut (s : State) (v : Nat) (x2 : Reg) : s.Keeps (s.sePut v x2).2 := by
  unfold State.sePut
  dsimp only
  split
  · exact (State.keeps_seLevel ..).after (.same (by rfl))
  · exact .ite (.same (by rfl)) (.refl _)
  · exact .refl _

theorem State.keeps_numPut (s : State) (v m : Nat) (x3 : Reg) : s.Keeps (s.numPut v m x3).2 := by
  unfold State.numPut
  dsimp only
  split
  · exact State.keeps_numLevel ..
  · exact .same (by rfl)
  · exact .ite (.same (by rfl)) (.refl _)
  · exact .same (by rfl)
  · exact .same (by rfl)
  · exact .same (by rfl)
  · exact .same (by rfl)
  · exact .same (by rfl)
  · exact .ite (State.keeps_clearTrap ..) (.refl _)
  · exact State.keeps_writeSeed ..

theorem State.keeps_secPut (s : State) (v : Nat) (x2 : Reg) : s.Keeps (s.secPut v x2).2 := by
  unfold State.secPut
  dsimp only
  split
  · exact .same (by rfl)
  · exact State.keeps_writeArb ..
  · exact .ite (.same (by rfl)) (.refl _)
  · exact .ite (.same (by rfl)) (.refl _)
  · exact State.keeps_writeNme ..
  · exact .same (by rfl)
  · exact .same (by rfl)
  · exact .refl _

theorem State.keeps_regPut (s : State) (b : Nat) (cmd : Bool) (r : Reg) (v m : Nat) : s.Keeps (s.regPut b cmd r v m).2 := by
  unfold State.regPut
  split
  · exact State.keeps_hifPut ..
  · exact State.keeps_rstcPut ..
  · exact State.keeps_pwrPut ..
  · exact State.keeps_ccPut ..
  · exact State.keeps_esPut ..
  · exact State.keeps_lnkPut ..
  · exact State.keeps_memPut ..
  · exact State.keeps_sePut ..
  · exact State.keeps_numPut ..
  · exact .refl _
  · exact State.keeps_secPut ..

-- NORES Sys2Proof.State.writeReg

theorem State.keeps_readReg {s t : State} {off width v : Nat} (h : s.readReg off width = some (v, t)) : s.Keeps t := by
  obtain ⟨x, _, hx⟩ := Option.map_eq_some_iff.1 h
  cases hx
  exact State.keeps_readEffect ..

theorem State.keeps_writeReg {s t : State} {off width v r : Nat} {cmd : Bool} (h : s.writeReg off width v cmd = some (r, t)) : s.Keeps t := by
  obtain ⟨x, _, hx⟩ := Option.map_eq_some_iff.1 h
  split at hx
  · cases hx
    exact State.keeps_writeRoute ..
  · exact .snd (.refl s) (State.keeps_regPut ..) hx

theorem execRegisterWrite_goes (offset width : Nat) (v : W64) (s : State) : s.Goes (execRegisterWrite offset width v s) := by
  refine State.direct_goes (h := fun t => ?_) ..
  split
  · exact .refl _
  · next h => exact State.keeps_writeReg h

theorem State.keeps_directRead (s : State) (off : Nat) : s.Keeps (s.directRead off) := by
  unfold State.directRead
  split
  · exact State.keeps_answered ..
  · next h => exact (State.keeps_answered ..).after (State.keeps_readReg h)

theorem execMemStatusRead_goes (s : State) : s.Goes (execMemStatusRead s) := by
  unfold execMemStatusRead
  exact State.direct_goes (h := fun s => (State.keeps_directRead ..)) ..

theorem execHifStatusRead_goes (s : State) : s.Goes (execHifStatusRead s) := by
  unfold execHifStatusRead
  exact State.direct_goes (h := fun s => (State.keeps_directRead ..)) ..

theorem execPwrStatusRead_goes (s : State) : s.Goes (execPwrStatusRead s) := by
  unfold execPwrStatusRead
  exact State.direct_goes (h := fun s => (State.keeps_directRead ..)) ..

theorem execSecStatusRead_goes (s : State) : s.Goes (execSecStatusRead s) := by
  unfold execSecStatusRead
  exact State.direct_goes (h := fun s => (State.keeps_directRead ..)) ..

theorem execEsLostRead_goes (s : State) : s.Goes (execEsLostRead s) := by
  unfold execEsLostRead
  exact State.direct_goes (h := fun s => (State.keeps_directRead ..)) ..

theorem execTrapClear_goes (core : Nat) (s : State) : s.Goes (execTrapClear core s) := by
  unfold execTrapClear
  exact State.direct_goes (h := fun s => (State.keeps_clearTrap ..)) ..

theorem execNumStepWrite_goes (offset : Nat) (v : W32) (s : State) : s.Goes (execNumStepWrite offset v s) := by
  unfold execNumStepWrite
  exact State.direct_goes (h := fun s => by split; exacts [(State.keeps_writeSeed ..), .refl _]) ..

theorem execMemWeirWrite_goes (w o : Nat) (v : W32) (s : State) : s.Goes (execMemWeirWrite w o v s) := by
  unfold execMemWeirWrite
  exact State.direct_goes (h := fun s => .ite (State.keeps_writeWeir ..) (.refl _)) ..

theorem execMemLevelWrite_goes (v : W32) (s : State) : s.Goes (execMemLevelWrite v s) := by
  unfold execMemLevelWrite
  exact State.direct_goes (h := fun s => (State.keeps_writeMemLevel ..)) ..

theorem execMemHostWindowWrite_goes (v : W32) (s : State) : s.Goes (execMemHostWindowWrite v s) := by
  unfold execMemHostWindowWrite
  exact State.direct_goes (h := fun s => (State.keeps_writeHostWindow ..)) ..

theorem execCntClear_goes (index : Nat) (s : State) : s.Goes (execCntClear index s) := by
  unfold execCntClear
  exact State.direct_goes (h := fun s => (State.keeps_clearCounter ..)) ..

theorem execLnkCtrlWrite_goes (v : W32) (s : State) : s.Goes (execLnkCtrlWrite v s) := by
  unfold execLnkCtrlWrite
  exact State.direct_goes (h := fun s => (State.keeps_writeLnkCtrl ..)) ..

theorem execLnkSelfWrite_goes (v : W32) (s : State) : s.Goes (execLnkSelfWrite v s) := by
  unfold execLnkSelfWrite
  exact State.direct_goes (h := fun s => (State.keeps_writeLnkSelf ..)) ..

theorem execLnkTorusWrite_goes (v : W32) (s : State) : s.Goes (execLnkTorusWrite v s) := by
  unfold execLnkTorusWrite
  exact State.direct_goes (h := fun s => (State.keeps_writeLnkTorus ..)) ..

theorem execEventsLost_goes (s : State) : s.Goes (execEventsLost s) := by
  unfold execEventsLost
  exact ⟨_, rfl, (State.keeps_enterLost ..)⟩

/-! ### Machine/Pins -/

theorem execI3cOffsetSelect_goes (meter : Bool) (read : I3cRead) (s : State) : s.Goes (execI3cOffsetSelect meter read s) := by
  unfold execI3cOffsetSelect
  dsimp only
  exact ⟨_, rfl, .ite (.same (by rfl)) (.same (by rfl))⟩

theorem State.keeps_shiftOut (s : State) (v : Nat) : s.Keeps (s.shiftOut v) := by
  unfold State.shiftOut
  dsimp only
  exact .same (by rfl)

theorem State.keeps_captureCells (s : State) : s.Keeps s.captureCells := by
  unfold State.captureCells
  exact (State.keeps_shiftOut ..).after (State.keeps_draw ..)

theorem State.keeps_preloadCells (s : State) : s.Keeps s.preloadCells := by
  unfold State.preloadCells
  dsimp only
  exact .after (.same (by rfl)) (State.keeps_draw ..)

theorem State.keeps_jtag (s : State) (code : Nat) : s.Keeps (s.jtag code) := by
  unfold State.jtag
  dsimp only
  exact (State.keeps_scanPins ..).after (.same (by rfl))

theorem State.keeps_extest (s : State) (code : Nat) : s.Keeps (s.extest code) := by
  unfold State.extest
  dsimp only
  refine .ite ?_ ?_
  · exact (State.keeps_captureCells ..).after (State.keeps_jtag ..)
  · exact (State.keeps_shiftOut ..).after (State.keeps_jtag ..)

theorem execExtest_goes (s : State) : s.Goes (execExtest s) := by
  unfold execExtest
  exact ⟨_, rfl, (State.keeps_extest ..)⟩

theorem execSamplePreload_goes (s : State) : s.Goes (execSamplePreload s) := by
  unfold execSamplePreload
  exact ⟨_, rfl, (State.keeps_preloadCells ..).after ((State.keeps_captureCells ..).after (State.keeps_jtag ..))⟩

theorem execIdcode_goes (s : State) : s.Goes (execIdcode s) := by
  unfold execIdcode
  exact ⟨_, rfl, (State.keeps_shiftOut ..).after (State.keeps_jtag ..)⟩

theorem execExtestPulse_goes (s : State) : s.Goes (execExtestPulse s) := by
  unfold execExtestPulse
  exact ⟨_, rfl, (State.keeps_extest ..)⟩

theorem execExtestTrain_goes (s : State) : s.Goes (execExtestTrain s) := by
  unfold execExtestTrain
  exact ⟨_, rfl, (State.keeps_extest ..)⟩

theorem execClamp_goes (s : State) : s.Goes (execClamp s) := by
  unfold execClamp
  exact ⟨_, rfl, (State.keeps_shiftOut ..).after (State.keeps_jtag ..)⟩

theorem execHighz_goes (s : State) : s.Goes (execHighz s) := by
  unfold execHighz
  exact ⟨_, rfl, (State.keeps_shiftOut ..).after (State.keeps_jtag ..)⟩

theorem execBypass_goes (s : State) : s.Goes (execBypass s) := by
  unfold execBypass
  exact ⟨_, rfl, (State.keeps_shiftOut ..).after (State.keeps_jtag ..)⟩

theorem execTapReset_goes (s : State) : s.Goes (execTapReset s) := by
  unfold execTapReset
  exact ⟨_, rfl, (State.keeps_shiftOut ..).after (State.keeps_jtag ..)⟩

/-! ### Machine/Polling -/

theorem State.keeps_serviced (s : State) (enter : Bool) : s.Keeps (s.serviced enter) := by
  unfold State.serviced
  exact .ite (State.keeps_setPState ..) (.ite (State.keeps_setPState ..) (.refl _))

theorem State.keeps_act (s : State) (c : Cmd) : s.Keeps (s.act c).2 := by
  refine .ite_snd (.refl _) (.ite_snd (.ite_snd (State.keeps_serviced ..) (.refl _)) (.ite_snd (.refl _) (.ite_snd ?_ ?_)))
  · split
    · exact .refl _
    · next h => exact State.keeps_readReg h
  · split
    · exact .refl _
    · next h => exact State.keeps_writeReg h

theorem State.keeps_report (s : State) (c : Cmd) (a : Nat × Nat) : s.Keeps (s.report c a) := by
  unfold State.report
  exact .ite (State.keeps_ok ..) (State.keeps_deny ..)

theorem State.keeps_runActing (s : State) (op : Nat) : s.Keeps (s.runActing op) := by
  unfold State.runActing
  dsimp only
  split
  · exact .refl _
  · split
    · exact (State.keeps_report ..).after (State.keeps_begun ..)
    · exact (State.keeps_report ..).after ((State.keeps_act ..).after (State.keeps_begun ..))

theorem execServiceEnter_goes (s : State) : s.Goes (execServiceEnter s) := by
  unfold execServiceEnter
  exact ⟨_, rfl, .ite (State.keeps_runActing ..) (.refl _)⟩

theorem execServiceLeave_goes (s : State) : s.Goes (execServiceLeave s) := by
  unfold execServiceLeave
  exact ⟨_, rfl, .ite (State.keeps_runActing ..) (.refl _)⟩

theorem execRegRead_goes (s : State) : s.Goes (execRegRead s) := by
  unfold execRegRead
  exact ⟨_, rfl, (State.keeps_runActing ..)⟩

theorem execRegWrite_goes (s : State) : s.Goes (execRegWrite s) := by
  unfold execRegWrite
  exact ⟨_, rfl, (State.keeps_runActing ..)⟩

theorem State.keeps_actStamped (s : State) (c : Cmd) : s.Keeps (s.actStamped c) := by
  unfold State.actStamped
  dsimp only
  exact .after (.same (by rfl)) (State.keeps_act ..)

theorem State.keeps_stampCmd (s : State) (ring : Nat) (bytes : List Byte) : s.Keeps (s.stampCmd ring bytes) := by
  unfold State.stampCmd
  dsimp only
  refine .ite ?_ ?_
  · exact (State.keeps_abortDecide ..).after (.after (.same (by rfl)) (State.keeps_stamp ..))
  · refine .ite ?_ ?_
    · exact (State.keeps_actStamped ..).after (.after (.same (by rfl)) (State.keeps_stamp ..))
    · exact .ite (.after (.same (by rfl)) (.after (.same (by rfl)) (State.keeps_stamp ..))) (.after (.same (by rfl)) (State.keeps_stamp ..))

-- RECURSIVE Sys2Proof.fetchRing

theorem State.keeps_fetchRing (i fuel left : Nat) (s : State) : s.Keeps (fetchRing i fuel left s) := by
  induction fuel generalizing left s with
  | zero => exact .refl _
  | succ fuel ih => exact .ite (.refl _) ((ih ..).after ((State.keeps_stampCmd ..).after (State.keeps_putCr ..)))

theorem keeps_pollRing (acc : State × Bool) (i : Nat) : acc.1.Keeps (pollRing acc i).1 := by
  unfold pollRing
  extract_lets s r d changed restart r' s1 s2 n reason r2 s3
  have h2 : acc.1.Keeps s2 := .ite ((State.keeps_writeDb ..).after (State.keeps_putCr ..)) (State.keeps_putCr ..)
  refine .ite_fst (.refl _) (.ite_fst h2 (.ite_fst ?_ (.ite_fst h2 ?_)))
  · exact (State.keeps_post ..).after ((State.keeps_writeDb ..).after ((State.keeps_putCr ..).after h2))
  · exact (State.keeps_writeDb ..).after ((State.keeps_fetchRing ..).after h2)

theorem keeps_pollCq (acc : State × Bool) (j : Nat) : acc.1.Keeps (pollCq acc j).1 := by
  unfold pollCq
  dsimp only
  exact .ite_fst (.refl _) (State.keeps_putCq ..)

theorem State.keeps_scanPass (s : State) : s.Keeps s.scanPass.1 := by
  unfold State.scanPass
  extract_lets acc r d acc' acc2
  have h1 : s.Keeps acc.1 := .foldl_fst (fun _ _ => keeps_pollCq ..) _ (s, false)
  have h2 : s.Keeps acc2.1 := .after (.foldl_fst (fun _ _ => keeps_pollRing ..) _ (_, _))
    ((State.keeps_flush ..).after ((State.keeps_putEq ..).after h1))
  exact (State.keeps_flush ..).after h2

theorem execPollPass_goes (stores : List HostStore) (s : State) : s.Goes (execPollPass stores s) := by
  unfold execPollPass
  dsimp only
  refine ⟨_, rfl, ?_⟩
  refine .ite ?_ ?_
  · exact State.keeps_hostStores ..
  · exact (State.keeps_setQuiet ..).after ((State.keeps_scanPass ..).after (State.keeps_hostStores ..))

theorem execPollSleep_goes (stores : List HostStore) (s : State) : s.Goes (execPollSleep stores s) := by
  unfold execPollSleep
  dsimp only
  refine ⟨_, rfl, ?_⟩
  refine .ite ?_ ?_
  · exact State.keeps_hostStores ..
  · refine .ite ?_ ?_
    · exact (State.keeps_flush ..).after
        ((State.keeps_setPoll ..).after
        ((State.keeps_scanPass ..).after ((State.keeps_hostStores ..).after ((State.keeps_flush ..).after (State.keeps_setPoll ..)))))
    · exact (State.keeps_scanPass ..).after ((State.keeps_hostStores ..).after ((State.keeps_flush ..).after (State.keeps_setPoll ..)))

end Sys2Proof.Machine
end

section
/-! Every command goes on and keeps it (O6, O3, O4, O5), the step itself (O1) and reset (O2). -/
namespace Sys2Proof.Machine

open Sys2Proof

/-- Every command goes on, and keeps what every step keeps. -/
theorem exec_goes (i : Instr) (s : State) : s.Goes (exec i s) := by
  cases i with
  | nop => exact execNop_goes ..
  | abort => exact execAbort_goes ..
  | serviceEnter => exact execServiceEnter_goes ..
  | serviceLeave => exact execServiceLeave_goes ..
  | regRead => exact execRegRead_goes ..
  | regWrite => exact execRegWrite_goes ..
  | layout fetched => exact execLayout_goes ..
  | load fetched => exact execLoad_goes ..
  | unload => exact execUnload_goes ..
  | enable => exact execEnable_goes ..
  | switch => exact execSwitch_goes ..
  | resumeContinue => exact execResumeContinue_goes ..
  | resumeAbandon => exact execResumeAbandon_goes ..
  | alloc => exact execAlloc_goes ..
  | release => exact execRelease_goes ..
  | map => exact execMap_goes ..
  | unmap => exact execUnmap_goes ..
  | copy => exact execCopy_goes ..
  | copyComplete stamp => exact execCopyComplete_goes ..
  | exportCmd => exact execExportCmd_goes ..
  | exportComplete stamp => exact execExportComplete_goes ..
  | cacheSet => exact execCacheSet_goes ..
  | cacheGive => exact execCacheGive_goes ..
  | cacheJoin => exact execCacheJoin_goes ..
  | cacheLeave => exact execCacheLeave_goes ..
  | power => exact execPower_goes ..
  | powerComplete unlocked faults => exact execPowerComplete_goes ..
  | switchServiceStart => exact execSwitchServiceStart_goes ..
  | startBroadcast => exact execStartBroadcast_goes ..
  | formeNop p a => exact execFormeNop_goes ..
  | loop p a => exact execLoop_goes ..
  | endloop p a => exact execEndloop_goes ..
  | rendezvous p a => exact execRendezvous_goes ..
  | fill p a => exact execFill_goes ..
  | endfill p a => exact execEndfill_goes ..
  | stepMark p a => exact execStepMark_goes ..
  | endProg p a => exact execEndProg_goes ..
  | mma p a => exact execMma_goes ..
  | drain p a => exact execDrain_goes ..
  | combine p a => exact execCombine_goes ..
  | elem p a => exact execElem_goes ..
  | fma p a => exact execFma_goes ..
  | func1 p a => exact execFunc1_goes ..
  | convert p a => exact execConvert_goes ..
  | rowred p a => exact execRowred_goes ..
  | softmax p a => exact execSoftmax_goes ..
  | softmaxRec p a => exact execSoftmaxRec_goes ..
  | softmaxBwd p a => exact execSoftmaxBwd_goes ..
  | rmsnorm p a => exact execRmsnorm_goes ..
  | layernorm p a => exact execLayernorm_goes ..
  | rmsnormBwd p a => exact execRmsnormBwd_goes ..
  | layernormBwd p a => exact execLayernormBwd_goes ..
  | colred p a => exact execColred_goes ..
  | join p a => exact execJoin_goes ..
  | split p a => exact execSplit_goes ..
  | streamCopy p a => exact execStreamCopy_goes ..
  | park p a => exact execPark_goes ..
  | unpark p a => exact execUnpark_goes ..
  | rclear p a => exact execRclear_goes ..
  | sumsq p a => exact execSumsq_goes ..
  | update p a => exact execUpdate_goes ..
  | digest p a => exact execDigest_goes ..
  | attend p a => exact execAttend_goes ..
  | merge p a => exact execMerge_goes ..
  | send p a => exact execSend_goes ..
  | recv p a => exact execRecv_goes ..
  | collective p a => exact execCollective_goes ..
  | actionComplete p a r => exact execActionComplete_goes ..
  | linkActionComplete p a r => exact execLinkActionComplete_goes ..
  | deadlineReached p tok => exact execDeadlineReached_goes ..
  | slotLimit p => exact execSlotLimit_goes ..
  | freezeBoundary p => exact execFreezeBoundary_goes ..
  | partitionFrozen p => exact execPartitionFrozen_goes ..
  | streamDueReached e => exact execStreamDueReached_goes ..
  | thaw p => exact execThaw_goes ..
  | rendezvousRelease p => exact execRendezvousRelease_goes ..
  | watchdogExpiry p => exact execWatchdogExpiry_goes ..
  | fillItemStart p => exact execFillItemStart_goes ..
  | fillOverrun p => exact execFillOverrun_goes ..
  | runComplete p => exact execRunComplete_goes ..
  | graceExpiry p => exact execGraceExpiry_goes ..
  | digestReceived p part step layer shard digest => exact execDigestReceived_goes ..
  | digestMissing p part => exact execDigestMissing_goes ..
  | spineFlit router out flit => exact execSpineFlit_goes ..
  | weirRequest w o bytes agent action => exact execWeirRequest_goes ..
  | accumulateWrite engine => exact execAccumulateWrite_goes ..
  | frameTransmit port => exact execFrameTransmit_goes ..
  | frameReceive port words content => exact execFrameReceive_goes ..
  | timeSteer => exact execTimeSteer_goes ..
  | portEnable port => exact execPortEnable_goes ..
  | portDisable port => exact execPortDisable_goes ..
  | retrain port => exact execRetrain_goes ..
  | loopback port mode => exact execLoopback_goes ..
  | laneTrainDone port mask => exact execLaneTrainDone_goes ..
  | laneTrainTimeout port => exact execLaneTrainTimeout_goes ..
  | widthExchange port peerMask => exact execWidthExchange_goes ..
  | identExchange port serial peerPort peerPart => exact execIdentExchange_goes ..
  | portFault port cause => exact execPortFault_goes ..
  | lnkCtrlWrite v => exact execLnkCtrlWrite_goes ..
  | lnkSelfWrite v => exact execLnkSelfWrite_goes ..
  | lnkTorusWrite v => exact execLnkTorusWrite_goes ..
  | pollPass stores => exact execPollPass_goes ..
  | pollSleep stores => exact execPollSleep_goes ..
  | nudge => exact execNudge_goes ..
  | msixSend ring => exact execMsixSend_goes ..
  | hifEnable => exact execHifEnable_goes ..
  | hifDisable => exact execHifDisable_goes ..
  | hostLinkReset => exact execHostLinkReset_goes ..
  | hostLinkDegraded rate width => exact execHostLinkDegraded_goes ..
  | busMasterEnable => exact execBusMasterEnable_goes ..
  | d3hotEntry => exact execD3hotEntry_goes ..
  | d0Return => exact execD0Return_goes ..
  | bar2Access req offset data => exact execBar2Access_goes ..
  | registerWrite offset width v => exact execRegisterWrite_goes ..
  | memStatusRead => exact execMemStatusRead_goes ..
  | hifStatusRead => exact execHifStatusRead_goes ..
  | pwrStatusRead => exact execPwrStatusRead_goes ..
  | secStatusRead => exact execSecStatusRead_goes ..
  | esLostRead => exact execEsLostRead_goes ..
  | trapClear core => exact execTrapClear_goes ..
  | numStepWrite offset v => exact execNumStepWrite_goes ..
  | memWeirWrite w o v => exact execMemWeirWrite_goes ..
  | memLevelWrite v => exact execMemLevelWrite_goes ..
  | memHostWindowWrite v => exact execMemHostWindowWrite_goes ..
  | cntClear index => exact execCntClear_goes ..
  | ccReplicaWrite p v stores => exact execCcReplicaWrite_goes ..
  | eventsLost => exact execEventsLost_goes ..
  | getKeys => exact execGetKeys_goes ..
  | getReport nonce flags => exact execGetReport_goes ..
  | ideKey keyset ciphertext => exact execIdeKey_goes ..
  | ideGo request => exact execIdeGo_goes ..
  | ideStop => exact execIdeStop_goes ..
  | ideCheckFail => exact execIdeCheckFail_goes ..
  | powerOnReset => exact execPowerOnReset_goes ..
  | powerOnResetEnd => exact execPowerOnResetEnd_goes ..
  | resetNFall scope => exact execResetNFall_goes ..
  | resetNRise bootSrc => exact execResetNRise_goes ..
  | domainRelease found => exact execDomainRelease_goes ..
  | lockTimeout => exact execLockTimeout_goes ..
  | testEnHigh => exact execTestEnHigh_goes ..
  | bootGo fetched stores => exact execBootGo_goes ..
  | bootRelayRequest port => exact execBootRelayRequest_goes ..
  | imageVerify => exact execImageVerify_goes ..
  | memoryTrainingDone found => exact execMemoryTrainingDone_goes ..
  | linkTrainEnd => exact execLinkTrainEnd_goes ..
  | topoGo fetched stores => exact execTopoGo_goes ..
  | renewGo v => exact execRenewGo_goes ..
  | renewComplete found => exact execRenewComplete_goes ..
  | thermalSample sensor reading => exact execThermalSample_goes ..
  | tripShutdown => exact execTripShutdown_goes ..
  | inhibitBegin => exact execInhibitBegin_goes ..
  | inhibitEnd => exact execInhibitEnd_goes ..
  | meterSample mainMv mainMa auxMv auxMa checkOk => exact execMeterSample_goes ..
  | pulseEnd => exact execPulseEnd_goes ..
  | intervalClose write => exact execIntervalClose_goes ..
  | i3cOffsetSelect meter read => exact execI3cOffsetSelect_goes ..
  | arbAdvance target => exact execArbAdvance_goes ..
  | nmeTest v => exact execNmeTest_goes ..
  | nmeTestDone passed => exact execNmeTestDone_goes ..
  | extest => exact execExtest_goes ..
  | samplePreload => exact execSamplePreload_goes ..
  | idcode => exact execIdcode_goes ..
  | extestPulse => exact execExtestPulse_goes ..
  | extestTrain => exact execExtestTrain_goes ..
  | clamp => exact execClamp_goes ..
  | highz => exact execHighz_goes ..
  | bypass => exact execBypass_goes ..
  | boardChannelFailed fault => exact execBoardChannelFailed_goes ..
  | arbAdvanceDone => exact execArbAdvanceDone_goes ..
  | tapReset => exact execTapReset_goes ..

/-- A step takes the front command, if there is one, and keeps everything else that every step keeps. -/
theorem step_goes (s : State) : ∃ t, step s = .next t ∧ ({ s with pending := s.pending.tail } : State).Keeps t := by
  unfold step
  split
  · next h =>
    have hk := State.keeps_tick s
    exact ⟨_, rfl, by simp [h, hk.queue], hk.buffer, hk.counter, hk.form⟩
  · next c rest h =>
    obtain ⟨t, ht, hk⟩ := exec_goes c { s with pending := rest }
    exact ⟨t, ht, by rw [h]; exact hk⟩

/-- A step that goes on to `t`, from what the state with the queue's rest keeps. -/
theorem step_keeps {s t : State} (h : step s = .next t) : ({ s with pending := s.pending.tail } : State).Keeps t := by
  obtain ⟨u, hu, hk⟩ := step_goes s
  obtain rfl : t = u := by simpa [h] using hu
  exact hk

/-- Settles O6: every command goes on, and none touches what waits behind it. -/
theorem queueFirstInFirstOut : Obligations.QueueFirstInFirstOut := by
  intro s
  obtain ⟨t, ht, hk⟩ := step_goes s
  exact ⟨t, ht, hk.queue⟩

/-- Settles O3: the form of the memories is among what every command keeps. -/
theorem memoryFormKept : Obligations.MemoryFormKept := fun _ _ hs h => (step_keeps h).form hs

/-- Settles O4: the bound of the event buffer is among what every command keeps. -/
theorem eventBufferBounded : Obligations.EventBufferBounded := fun _ _ hs h => (step_keeps h).buffer hs

/-- Settles O5: an advance begins only to a version above the counter, and nothing else writes it. -/
theorem rollbackNeverDecreases : Obligations.RollbackNeverDecreases := fun _ _ hs h => (step_keeps h).counter hs

/-- Settles O1: the two branches of a step. -/
theorem stepRunsFront : Obligations.StepRunsFront := by
  refine ⟨fun s c rest h => ?_, fun s h => ?_⟩
  · simp only [step, h]
  · simp only [step, h]

/-- Settles O2: reset leaves the fields' reset values, and every memory empty. -/
theorem resetValuesAndForms : Obligations.ResetValuesAndForms := by
  refine ⟨⟨rfl, rfl, rfl, rfl, rfl, rfl, rfl, rfl, rfl, rfl, rfl, rfl, rfl, fun _ => ⟨rfl, rfl⟩,
    fun _ => rfl, fun _ => ⟨rfl, rfl⟩⟩, rfl, ?_, ?_⟩
  · exact Nat.zero_le _
  · exact ⟨Nat.zero_le _, Nat.zero_le _, by rintro _ ⟨⟩⟩

end Sys2Proof.Machine
end

section
/-! Stores of sound and of poisoned bytes (O7). -/
namespace Sys2Proof.Machine

open Sys2Proof

/-- Reading a key after a fold of which one step gives it a value and no other step changes it. -/
theorem tget_foldl_of_step {α : Type} {d v : α} {w j : Nat} {f : Tab α → Nat → Tab α} (hset : ∀ q, tget d (f q j) w = v)
    (hkeep : ∀ q k, k ≠ j → tget d (f q k) w = tget d q w) (l : List Nat) (q : Tab α) (h : j ∈ l ∨ tget d q w = v) :
    tget d (l.foldl f q) w = v := by
  induction l generalizing q with
  | nil => simpa using h
  | cons k l ih =>
    refine ih _ ?_
    by_cases hk : k = j
    · exact .inr (hk ▸ hset q)
    · rw [hkeep q k hk]
      exact h.imp_left fun h => (List.mem_cons.1 h).resolve_left (Ne.symm hk)

/-- A sound write over a whole word leaves it the mark from which its own origin is counted (R519). -/
theorem poisonMarks_sound_whole {g : Nat} (hg : 0 < g) (base : Nat → Nat) (q : Tab Nat) (a : Nat) {bs : List Byte} {w : Nat} (hlo : a ≤ w * g)
    (hhi : (w + 1) * g ≤ a + bs.length) : tget 0 (poisonMarks g base q a (Run.sound bs)) w = base w := by
  have hw : (w + 1) * g = w * g + g := Nat.succ_mul w g
  have hfirst : a / g ≤ w := Nat.div_le_of_le_mul (by rwa [Nat.mul_comm])
  have hlast : w < (a + bs.length + g - 1) / g := by rw [Nat.lt_iff_add_one_le, Nat.le_div_iff_mul_le hg]; omega
  unfold poisonMarks
  simp only [Run.length_sound, Run.drop_sound, Run.take_sound, Run.origin_sound, ne_eq, not_true_eq_false, if_false]
  refine tget_foldl_of_step (j := w - a / g) (fun q => ?_) (fun q k hk => ?_) _ q (.inl (List.mem_range.2 (by omega)))
  · have hk : a / g + (w - a / g) = w := by omega
    rw [hk, if_pos, tget_tset_same]
    rw [List.length_take, List.length_drop]
    omega
  · split
    · exact tget_tset_ne _ _ _ (by omega)
    · rfl

/-- A sound write over a whole word clears its mark of poison. -/
theorem Data.mark_write_sound_whole (d : Data) (sp : Space) (a : Nat) {bs : List Byte} {w : Nat} (hlo : a ≤ w * sp.grain)
    (hhi : (w + 1) * sp.grain ≤ a + bs.length) : (d.write sp a (Run.sound bs)).mark sp w = 0 := by
  unfold Data.mark
  rw [Data.markBase_write, Data.poison_write, poisonMarks_sound_whole sp.grain_pos _ _ _ hlo hhi, Nat.xor_self]

/-- Settles O7: bytes and marks after a write, inside its range and outside it. -/
theorem storeReadsBack : Obligations.StoreReadsBack := by
  refine ⟨fun s sp a bs => ⟨fun x => ?_, fun sp' hsp x => ?_, fun w hw => ?_, fun w hlo hhi => ?_, ?_, ?_, rfl⟩,
    fun s sp a o bs ho x hlo hhi => ⟨?_, ?_⟩⟩
  · have h := s.data.byte_write sp a (Run.sound bs) x
    rwa [Run.length_sound, Run.plain_sound] at h
  · exact ⟨s.data.byte_write_other a _ x hsp, s.data.mark_write_other a _ x hsp⟩
  · exact s.data.mark_write_out sp a _ w (by rwa [Run.length_sound])
  · exact s.data.mark_write_sound_whole sp a hlo hhi
  · exact s.data.host_write sp a _
  · exact s.data.galley_write sp a _
  · exact s.data.mark_write_tainted sp ho a bs ⟨hlo, hhi⟩
  · have h := s.data.byte_write sp a (Run.tainted o bs) x
    rwa [Run.length_tainted, Run.plain_tainted, if_pos ⟨hlo, hhi⟩] at h

end Sys2Proof.Machine
end

section
/-! Events and their masks (O8). -/
namespace Sys2Proof.Machine

open Sys2Proof

theorem State.masked_iff (s : State) (g : Nat) {k : Nat} (hk : k < 256) :
    s.masked (256 * g + k) = true ↔ 1 ≤ g ∧ g ≤ 4 ∧ (s.es.groupMask.getLsbD (g - 1) = true ∨ (s.typeMaskOf g).getLsbD k = true) := by
  have hg : (256 * g + k) / 256 = g := by omega
  have hm : (256 * g + k) % 256 = k := by omega
  unfold State.masked
  simp [hg, hm, BitVec.getLsbD, and_assoc]

theorem regAccess_esTypeMask {g : Nat} (hlo : 1 ≤ g) (hhi : g ≤ 4) : regAccess (0x500040 + 4 * g) 4 = some (.esTypeMask g, 0) := by
  interval_cases g <;> decide

/-- A whole 4-byte register written takes the low 32 bits of the value. -/
theorem ofNat_mergeBytes (old : Nat) (v : W64) : BitVec.ofNat 32 (mergeBytes old 0 4 v.toNat) = v.setWidth 32 := by
  apply BitVec.eq_of_toNat_eq
  simp only [mergeBytes, BitVec.toNat_ofNat, BitVec.toNat_setWidth]
  omega

/-- What a write of ES_TYPE_MASK does: the new masks in the expert view, nothing in the basic one. -/
theorem State.writeReg_esTypeMask (s : State) {g : Nat} (hlo : 1 ≤ g) (hhi : g ≤ 4) (v : W64) :
    s.writeReg (0x500040 + 4 * g) 4 v.toNat false = some (0, if s.es.level then
      { s with es := { s.es with typeMask := tset 0 s.es.typeMask g (v.setWidth 32 &&& 0xFFFFFFFE) } } else s) := by
  have hblock : (0x500040 + 4 * g) / 1048576 = 5 := by omega
  unfold State.writeReg
  rw [regAccess_esTypeMask hlo hhi, hblock]
  simp only [Option.map_some, State.regPut, State.esPut, ofNat_mergeBytes]

/-- Settles O8: which types are masked, and what an event leaves as it is masked, kept or lost. -/
theorem eventsMaskedAndKept : Obligations.EventsMaskedAndKept := by
  refine ⟨fun s g k hk => ⟨s.masked_iff g hk, fun hlo hhi hbasic => ⟨?_, fun v => ?_⟩, fun hlo hhi hexpert hon v => ?_⟩,
    fun s ty p src aux det hlost => ?_⟩
  · simp [State.typeMaskOf, hbasic, BitVec.getLsbD]
  · by_cases hon : (s.dom 3).st = .off
    · exact State.direct_off (fun s => match s.writeReg (0x500040 + 4 * g) 4 v.toNat false with
        | none => s
        | some (_, s) => s) hon
    · rw [exec_registerWrite _ _ v hon, s.writeReg_esTypeMask hlo hhi v, hbasic]
      rfl
  · rw [exec_registerWrite _ _ v hon, s.writeReg_esTypeMask hlo hhi v, hexpert]
    exact ⟨_, rfl, by simp [State.typeMaskOf, hexpert], rfl⟩
  · unfold State.post
    rw [State.event_eq _ _ _ _ _ _ hlost]
    by_cases hm : s.masked ty = true
    · rw [if_pos hm]
      exact ⟨rfl, rfl, fun _ => ⟨rfl, rfl⟩, fun h => absurd hm (by simp [h]), fun h => absurd hm (by simp [h]), rfl⟩
    · rw [if_neg hm]
      by_cases hroom : esRoom ≤ s.es.buffer.length
      · rw [if_pos hroom]
        exact ⟨rfl, rfl, (absurd · hm), fun _ h => absurd hroom (Nat.not_le.2 h), fun _ _ => ⟨rfl, rfl, congrArg (· + 1) hlost⟩, rfl⟩
      · rw [if_neg hroom]
        exact ⟨rfl, rfl, (absurd · hm), fun _ _ => ⟨rfl, rfl⟩, fun _ h => absurd h hroom, rfl⟩

end Sys2Proof.Machine
end

section
/-! Host commands: the refusals of R415 (O9), NOP, UNLOAD and RELEASE (O10), SERVICE (O11), the register commands and ABORT (O23). -/
namespace Sys2Proof.Machine

open Sys2Proof

/-! ## Commands that fail a check of R415 -/

/-- The reasons of R415 are of class 1. -/
theorem State.cmdCode_class (s : State) (c : Cmd) : s.cmdCode c / 256 ≠ 5 := by
  unfold State.cmdCode
  split_ifs <;> decide

section
variable {s : State} {c : Cmd}

theorem State.runCmd_invalid {ops : Nat → Bool} (f : Cmd → State → State) (h : s.front ops = some c) (hc : s.cmdCode c ≠ 0) :
    s.runCmd ops f = s.completed c 1 (s.cmdCode c) 0 0 :=
  (State.runCmd_deny f h hc).trans (State.begun_deny (s.cmdCode_class c))
theorem State.runFetch_invalid {op : Nat} (f : Cmd → State → State) (h : s.front (· == op) = some c) (hc : s.cmdCode c ≠ 0) :
    s.runFetch op f = s.completed c 1 (s.cmdCode c) 0 0 :=
  (State.runFetch_deny f h hc).trans (State.begun_deny (s.cmdCode_class c))

/-! ## Commands that act at their stamp (R417) -/

theorem State.runActing_acted {op : Nat} {a : Nat × Nat} (h : s.front (· == op) = some c) (ha : c.acted = some a) :
    s.runActing op = (s.begun c).report c a := by simp [State.runActing, h, ha]
theorem State.runActing_acts {op : Nat} (h : s.front (· == op) = some c) (ha : c.acted = none) :
    s.runActing op = ((s.begun c).act c).2.report c ((s.begun c).act c).1 := by simp [State.runActing, h, ha]

theorem State.act_invalid (hc : s.cmdCode c ≠ 0) : s.act c = ((s.cmdCode c, 0), s) := if_pos hc

/-- One that has still to act and fails a check of R415 is refused. -/
theorem State.runActing_invalid {op : Nat} (h : s.front (· == op) = some c) (ha : c.acted = none) (hc : s.cmdCode c ≠ 0) :
    s.runActing op = s.completed c 1 (s.cmdCode c) 0 0 := by
  have hact : (s.begun c).act c = ((s.cmdCode c, 0), s.begun c) := State.act_invalid hc
  rw [State.runActing_acts h ha, hact]
  exact (if_neg hc).trans (State.begun_deny (s.cmdCode_class c))

/-- The row of SERVICE of the MODE that the front command carries. -/
theorem exec_serviceEnter (h : s.front (· == 2) = some c) (hmode : c.opnd 0 1 = 1) : exec .serviceEnter s = .next (s.runActing 2) :=
  congrArg Host.Outcome.next (if_pos (by simp [State.frontMode_some _ h, hmode]))
theorem exec_serviceLeave (h : s.front (· == 2) = some c) (hmode : c.opnd 0 1 ≠ 1) : exec .serviceLeave s = .next (s.runActing 2) :=
  congrArg Host.Outcome.next (if_pos (by simp [State.frontMode_some _ h, hmode]))

/-- The row of a RESUME whose MODE is its own refuses a command that fails a check of R415. -/
theorem exec_resumeContinue_invalid (h : s.front (· == 0x15) = some c) (hc : s.cmdCode c ≠ 0) (hmode : c.opnd 0 1 = 0) :
    exec .resumeContinue s = .next (s.completed c 1 (s.cmdCode c) 0 0) :=
  congrArg Host.Outcome.next ((if_pos (by simp [State.frontMode_some _ h, hmode])).trans (State.runCmd_invalid _ h hc))
theorem exec_resumeAbandon_invalid (h : s.front (· == 0x15) = some c) (hc : s.cmdCode c ≠ 0) (hmode : c.opnd 0 1 ≠ 0) :
    exec .resumeAbandon s = .next (s.completed c 1 (s.cmdCode c) 0 0) :=
  congrArg Host.Outcome.next ((if_pos (by simp [State.frontMode_some _ h, hmode])).trans (State.runCmd_invalid _ h hc))

end

/-- Settles O9: each of these rows runs its command only once it has passed the checks of R415. -/
theorem invalidCommandRefused : Obligations.InvalidCommandRefused := by
  intro s c hc
  refine ⟨fun f x hx h => ?_, fun h => congrArg Host.Outcome.next (State.runCmd_invalid _ h hc),
    fun ha h => congrArg Host.Outcome.next (State.runActing_invalid h ha hc), fun ha h => congrArg Host.Outcome.next (State.runActing_invalid h ha hc),
    fun ha h => ⟨fun hmode => ?_, fun hmode => ?_⟩, fun h => ⟨exec_resumeContinue_invalid h hc, exec_resumeAbandon_invalid h hc⟩⟩
  · simp only [List.mem_cons, List.not_mem_nil, or_false] at hx
    obtain rfl | rfl | hx := hx
    · exact congrArg Host.Outcome.next (State.runFetch_invalid _ h hc)
    · exact congrArg Host.Outcome.next (State.runFetch_invalid _ h hc)
    · obtain rfl | rfl | rfl | rfl | rfl | rfl | rfl | rfl | rfl | rfl | rfl | rfl | rfl := hx <;>
        exact congrArg Host.Outcome.next (State.runCmd_invalid _ h hc)
  · rw [exec_serviceEnter h hmode, State.runActing_invalid h ha hc]
  · rw [exec_serviceLeave h hmode, State.runActing_invalid h ha hc]

/-- Settles O10: the effect of each row on the state that its command has left. -/
theorem nopUnloadRelease : Obligations.NopUnloadRelease := by
  refine ⟨fun s c h hc => ?_, fun s c ⟨h, hc⟩ hfind hfree => ?_, fun s c ⟨h, hc⟩ hany => ?_, fun s c ⟨h, hc⟩ hnone => ?_⟩
  · exact congrArg Host.Outcome.next (State.runCmd_ok _ h hc)
  · refine congrArg Host.Outcome.next ((State.runCmd_ok _ h hc).trans (if_pos ?_))
    have hfree' : (s.begun c).formeInUse c.part (c.opnd 0 4) = false := hfree
    have hfind' : (((s.begun c).part c.part).find (c.opnd 0 4)).isNone = false := by simpa using hfind
    rw [hfree', hfind']
    rfl
  · exact congrArg Host.Outcome.next ((State.runCmd_ok _ h hc).trans (if_pos (if_pos hany)))
  · refine congrArg Host.Outcome.next ((State.runCmd_ok _ h hc).trans ?_)
    have hcode : (if (s.begun c).mem.allocs.any (fun x => x.addr == c.opnd 0 8) then 0 else 0x60D) = 0x60D := if_neg (by simpa using hnone)
    dsimp only
    rw [hcode]
    exact State.begun_deny (by decide)

end Sys2Proof.Machine
end

section
/-! SERVICE (O11) and the register commands and ABORT (O23). -/
namespace Sys2Proof.Machine

open Sys2Proof

section
variable {s : State} {c : Cmd}

/-! ## SERVICE (R417) -/

theorem State.act_service (hc : s.cmdCode c = 0) (hop : c.op = 2) : s.act c =
    if s.serviceCode (c.opnd 0 1 == 1) = 0 then ((0, 0), s.serviced (c.opnd 0 1 == 1)) else ((s.serviceCode (c.opnd 0 1 == 1), 0), s) := by
  unfold State.act
  rw [if_neg (by simp [hc]), if_pos hop]

theorem State.serviceCode_class (enter : Bool) : s.serviceCode enter / 256 ≠ 5 := by
  unfold State.serviceCode
  split_ifs <;> decide

theorem State.op_of_front {op : Nat} (h : s.front (· == op) = some c) : c.op = op := by simpa using State.front_op h

/-- A SERVICE that has still to act and passes its test changes the part state as it completes. -/
theorem State.runActing_service (h : s.serves 2 c) (ha : c.acted = none) (hok : s.serviceCode (c.opnd 0 1 == 1) = 0) :
    s.runActing 2 = ((s.begun c).serviced (c.opnd 0 1 == 1)).ok c 0 := by
  have hact := (State.act_service (s := s.begun c) h.2 (State.op_of_front h.1)).trans (if_pos hok)
  rw [State.runActing_acts h.1 ha, hact]
  rfl
theorem State.runActing_service_refused {r : Nat} (h : s.serves 2 c) (ha : c.acted = none) (hcode : s.serviceCode (c.opnd 0 1 == 1) = r)
    (hr : r ≠ 0) : s.runActing 2 = s.completed c 1 r 0 0 := by
  subst hcode
  have hact := (State.act_service (s := s.begun c) h.2 (State.op_of_front h.1)).trans (if_neg hr)
  rw [State.runActing_acts h.1 ha, hact]
  exact (if_neg hr).trans (State.begun_deny (State.serviceCode_class _))

/-- A change of the part state as a command completes: its record, the state, and what the event sequencer and the advert show of it. -/
theorem State.setPState_ok (st : PState) : ((s.begun c).setPState st 0).ok c 0 |> fun t =>
    t.rst = { s.rst with state := st } ∧ Sys2Proof.Machine.answered s t c 0 0 0 ∧ ({ t with rst := s.rst, hif := s.hif, es := s.es } : State) = s := by
  obtain ⟨h, e, ht, hqueue, hcompl, _⟩ := (s.begun c).setPState_frame st 0 63
  rw [ht]
  exact ⟨rfl, ⟨hqueue, _, congrArg (· ++ _) hcompl⟩, rfl⟩

theorem State.serviceCode_leave_idle (h : ∀ p, p < 8 → (s.part p).status = .idle) : s.serviceCode false = 0 := by
  refine (if_neg (by decide)).trans (if_neg ?_)
  rw [List.any_eq_true]
  rintro ⟨p, hp, hbusy⟩
  exact of_decide_eq_true hbusy (h p (List.mem_range.1 hp))
theorem State.serviceCode_leave_busy {p : Nat} (hp : p < 8) (h : (s.part p).status ≠ .idle) : s.serviceCode false = 0x116 := by
  refine (if_neg (by decide)).trans (if_pos ?_)
  exact List.any_eq_true.2 ⟨p, List.mem_range.2 hp, decide_eq_true h⟩

/-- What has acted at its stamp completes with what it did there. -/
theorem State.report_acted {r v : Nat} (hr : r / 256 ≠ 5) :
    (s.begun c).report c (r, v) = if r = 0 then s.completed c 0 0 v 0 else s.completed c 1 r 0 0 := by
  unfold State.report
  rw [State.begun_deny hr]
  rfl

end

/-- Settles O11: the test of each MODE, and a change of the part state as the command completes. -/
theorem serviceMovesPart : Obligations.ServiceMovesPart := by
  refine ⟨fun s c h ha hmode hready => ?_, fun s c h ha hmode hnot => ?_, fun s c h ha hmode hrun hidle => ?_, fun s c p h ha hmode hp hbusy => ?_,
    fun s c r v h ha hr => ⟨fun hmode => ?_, fun hmode => ?_⟩⟩
  · have henter : (c.opnd 0 1 == 1) = true := by simp [hmode]
    rw [exec_serviceEnter h.1 hmode, State.runActing_service h ha (by rw [henter]; exact (if_pos rfl).trans (if_pos hready)), henter]
    exact ⟨_, rfl, State.setPState_ok .run⟩
  · have henter : (c.opnd 0 1 == 1) = true := by simp [hmode]
    rw [exec_serviceEnter h.1 hmode,
      State.runActing_service_refused h ha (r := 0x115) (by rw [henter]; exact (if_pos rfl).trans (if_neg hnot)) (by decide)]
  · have hleave : (c.opnd 0 1 == 1) = false := by simp [hmode]
    rw [exec_serviceLeave h.1 hmode, State.runActing_service h ha (by rw [hleave]; exact State.serviceCode_leave_idle hidle), hleave]
    have hserviced : (s.begun c).serviced false = (s.begun c).setPState .ready 0 := (if_neg (by decide)).trans (if_pos hrun)
    rw [hserviced]
    exact ⟨_, rfl, State.setPState_ok .ready⟩
  · have hleave : (c.opnd 0 1 == 1) = false := by simp [hmode]
    rw [exec_serviceLeave h.1 hmode,
      State.runActing_service_refused h ha (r := 0x116) (by rw [hleave]; exact State.serviceCode_leave_busy hp hbusy) (by decide)]
  · rw [exec_serviceEnter h hmode, State.runActing_acted h ha, State.report_acted hr]
  · rw [exec_serviceLeave h hmode, State.runActing_acted h ha, State.report_acted hr]

section
variable {s : State} {c : Cmd}

/-! ## REG_READ and REG_WRITE (R417) -/

theorem State.act_nudge (hc : s.cmdCode c = 0) (hop : c.op ≠ 2) (hoff : c.opnd 0 4 = 0x30) : s.act c = ((0x11B, 0), s) := by
  unfold State.act
  rw [if_neg (by simp [hc]), if_neg hop, if_pos hoff]
theorem State.act_read (hc : s.cmdCode c = 0) (hop : c.op = 3) (hoff : c.opnd 0 4 ≠ 0x30) {v : Nat} {t : State}
    (h : s.readReg (c.opnd 0 4) (c.opnd 4 1) = some (v, t)) : s.act c = ((0, v), t) := by simp [State.act, hc, hop, hoff, h]
theorem State.act_read_illegal (hc : s.cmdCode c = 0) (hop : c.op = 3) (hoff : c.opnd 0 4 ≠ 0x30)
    (h : regAccess (c.opnd 0 4) (c.opnd 4 1) = none) : s.act c = ((0x11B, 0), s) := by simp [State.act, hc, hop, hoff, State.readReg, h]
theorem State.act_write (hc : s.cmdCode c = 0) (hop : c.op = 4) (hoff : c.opnd 0 4 ≠ 0x30) {r : Nat} {t : State}
    (h : s.writeReg (c.opnd 0 4) (c.opnd 4 1) (c.opnd 8 8) true = some (r, t)) : s.act c = ((r, 0), t) := by
  simp [State.act, hc, hop, hoff, h]
theorem State.act_write_illegal (hc : s.cmdCode c = 0) (hop : c.op = 4) (hoff : c.opnd 0 4 ≠ 0x30)
    (h : regAccess (c.opnd 0 4) (c.opnd 4 1) = none) : s.act c = ((0x11B, 0), s) := by simp [State.act, hc, hop, hoff, State.writeReg, h]

/-- A command that acts as it begins completes with what it does there. -/
theorem State.runActing_of_act {op : Nat} {a : Nat × Nat} {t : State} (h : s.front (· == op) = some c) (ha : c.acted = none)
    (hact : (s.begun c).act c = (a, t)) : s.runActing op = t.report c a := by rw [State.runActing_acts h ha, hact]

theorem exec_regRead_of_act {a : Nat × Nat} {t : State} (h : s.serves 3 c) (ha : c.acted = none) (hact : (s.begun c).act c = (a, t)) :
    exec .regRead s = .next (t.report c a) := congrArg Host.Outcome.next (State.runActing_of_act h.1 ha hact)
theorem exec_regWrite_of_act {a : Nat × Nat} {t : State} (h : s.serves 4 c) (ha : c.acted = none) (hact : (s.begun c).act c = (a, t)) :
    exec .regWrite s = .next (t.report c a) := congrArg Host.Outcome.next (State.runActing_of_act h.1 ha hact)
theorem exec_regRead_acted {a : Nat × Nat} (h : s.serves 3 c) (ha : c.acted = some a) : exec .regRead s = .next ((s.begun c).report c a) :=
  congrArg Host.Outcome.next (State.runActing_acted h.1 ha)
theorem exec_regWrite_acted {a : Nat × Nat} (h : s.serves 4 c) (ha : c.acted = some a) : exec .regWrite s = .next ((s.begun c).report c a) :=
  congrArg Host.Outcome.next (State.runActing_acted h.1 ha)

theorem State.report_deny {t : State} {r v : Nat} (hr : r ≠ 0) : t.report c (r, v) = t.deny c r := if_neg hr
theorem State.report_illegal : (s.begun c).report c (0x11B, 0) = s.completed c 1 0x11B 0 0 := State.report_acted (by decide)
theorem State.report_refused {r v : Nat} (hr : r ≠ 0) : (s.begun c).report c (r, v) = s.refused c r :=
  (State.report_deny hr).trans (State.deny_begun s c r)

/-! ## ABORT (R421, R422) -/

theorem exec_abort_notFound (h : s.front (· == 1) = some c) (ho : lookupBy (fun a => a.1 == c.stamp) s.hif.aborts = some (c.stamp, .notFound)) :
    exec .abort s = .next (s.completed c 5 0 0 0) := by
  refine congrArg Host.Outcome.next ?_
  simp only [h, ho]
  rfl
theorem exec_abort_refused {r : Nat} (h : s.front (· == 1) = some c)
    (ho : lookupBy (fun a => a.1 == c.stamp) s.hif.aborts = some (c.stamp, .refused r)) : exec .abort s = .next (s.completed c 1 r 0 0) := by
  refine congrArg Host.Outcome.next ?_
  simp only [h, ho]
  rfl

section
variable {k : Nat} {x : Past} (h : s.front (· == 1) = some c) (hx : lookupBy (fun x => x.stamp == k) s.hif.history = some x)
include h hx

theorem exec_abort_after {q : Nat} (ho : lookupBy (fun a => a.1 == c.stamp) s.hif.aborts = some (c.stamp, .after k)) (hdone : x.st = .done q) :
    exec .abort s = .next (s.completed c 4 0 q 0) := by
  refine congrArg Host.Outcome.next ?_
  simp only [h, ho, hx, hdone]
  rfl
theorem exec_abort_first {q : Nat} (ho : lookupBy (fun a => a.1 == c.stamp) s.hif.aborts = some (c.stamp, .first k)) (hdone : x.st = .done q) :
    exec .abort s = .next (s.completed c 0 0 q 0) := by
  refine congrArg Host.Outcome.next ?_
  simp only [h, ho, hx, hdone]
  rfl

/-- An ABORT whose target has still to complete waits at the front. -/
theorem exec_abort_waits {o : AbortOut} (ho : lookupBy (fun a => a.1 == c.stamp) s.hif.aborts = some (c.stamp, o))
    (hwaits : o = .after k ∨ o = .first k) (hdone : x.st.isDone = false) : exec .abort s = .next s := by
  refine congrArg Host.Outcome.next ?_
  obtain rfl | rfl := hwaits
  all_goals
    simp only [h, ho, hx]
    cases hst : x.st with
    | done q => rw [hst] at hdone; cases hdone
    | queued => rfl
    | running => rfl

end
end

/-- Settles O23: what a register command does as it begins or has done at its stamp, and what an ABORT has decided at its own. -/
theorem registerAndAbortCommands : Obligations.RegisterAndAbortCommands := by
  refine ⟨⟨fun s c h ha hoff => ⟨fun v t hread => ?_, fun hillegal => ?_⟩,
    fun s c h ha hoff => ⟨fun t hwrite => ?_, fun r t hr hwrite => ?_, fun hillegal => ?_⟩,
    fun s c ha hoff => ⟨fun h => ?_, fun h => ?_⟩, fun s c v ha => ⟨fun h => exec_regRead_acted h ha, fun h => exec_regWrite_acted h ha⟩,
    fun s c r v hr ha => ⟨fun h => ?_, fun h => ?_⟩⟩, fun s c o h ho => ⟨?_, ?_, fun k x q hx hdone => ⟨?_, ?_⟩, fun k x hx hdone hwaits =>
      exec_abort_waits h hx ho hwaits hdone⟩⟩
  · exact exec_regRead_of_act h ha (State.act_read (s := s.begun c) h.2 (State.op_of_front h.1) hoff hread)
  · rw [exec_regRead_of_act h ha (State.act_read_illegal h.2 (State.op_of_front h.1) hoff hillegal), State.report_illegal]
  · exact exec_regWrite_of_act h ha (State.act_write (s := s.begun c) h.2 (State.op_of_front h.1) hoff hwrite)
  · exact (exec_regWrite_of_act h ha (State.act_write (s := s.begun c) h.2 (State.op_of_front h.1) hoff hwrite)).trans (congrArg Host.Outcome.next (State.report_deny hr))
  · rw [exec_regWrite_of_act h ha (State.act_write_illegal h.2 (State.op_of_front h.1) hoff hillegal), State.report_illegal]
  · rw [exec_regRead_of_act h ha (State.act_nudge h.2 (by rw [State.op_of_front h.1]; decide) hoff), State.report_illegal]
  · rw [exec_regWrite_of_act h ha (State.act_nudge h.2 (by rw [State.op_of_front h.1]; decide) hoff), State.report_illegal]
  · rw [exec_regRead_acted h ha, State.report_refused hr]
  · rw [exec_regWrite_acted h ha, State.report_refused hr]
  · rintro rfl
    exact exec_abort_notFound h ho
  · rintro r rfl
    exact exec_abort_refused h ho
  · rintro rfl
    exact exec_abort_after h hx ho hdone
  · rintro rfl
    exact exec_abort_first h hx ho hdone

end Sys2Proof.Machine
end

section
/-! The IDE stream (O52), the anti-rollback counter and the near-memory self-test (O53). -/
namespace Sys2Proof.Machine

open Sys2Proof

/-! ## The IDE stream (R538) -/

section
variable {s : State} (h : s.doeServed = true) {k : Nat}
include h

theorem exec_ideGo_set (hset : tget [] s.sec.keysets k ≠ []) (hcap : s.hif.ideCap = true) :
    exec (.ideGo (.ideGo k)) s = .next (({ s with sec := { s.sec with ideSecure := true, ideSet := k } } : State).doeAnswer 4 0 []) :=
  congrArg Host.Outcome.next ((if_neg (by simp [h])).trans (if_neg (by simp [hset, hcap])))
theorem exec_ideGo_refused (hbad : tget [] s.sec.keysets k = [] ∨ s.hif.ideCap = false) :
    exec (.ideGo (.ideGo k)) s = .next (s.doeAnswer 4 0x715 []) :=
  congrArg Host.Outcome.next ((if_neg (by simp [h])).trans (if_pos (by obtain hbad | hbad := hbad <;> simp [hbad])))
theorem exec_ideStop : exec .ideStop s = .next (({ s with sec := { s.sec with ideSecure := false } } : State).doeAnswer 5 0 []) :=
  congrArg Host.Outcome.next (if_neg (by simp [h]))

end

/-- Settles O52: what each row does to the stream, beside its answer in the mailbox. -/
theorem ideStreamKeyed : Obligations.IdeStreamKeyed := by
  intro s
  refine ⟨fun hserved => ⟨fun k hset hcap => ⟨_, exec_ideGo_set hserved hset hcap, rfl, rfl⟩,
    fun k hbad => ⟨_, exec_ideGo_refused hserved hbad, rfl, rfl⟩, ⟨_, exec_ideStop hserved, rfl, rfl⟩⟩,
    fun hsecure => ⟨_, congrArg Host.Outcome.next (if_pos hsecure), rfl, rfl, rfl⟩,
    fun hplain => congrArg Host.Outcome.next (if_neg (by simp [hplain])), fun hon => ?_⟩
  refine ⟨_, if_neg (by simp [hon]), ?_⟩
  simp

/-! ## The anti-rollback counter (R531) -/

section
variable {s : State} {n : Nat}

theorem exec_arbAdvance (hon : (s.dom 3).st ≠ .off) (hn : n < 128) : exec (.arbAdvance n) s = .next (s.writeArb n).2 := by
  have h : exec (.arbAdvance n) s = .next (s.writeArb (n % 128)).2 := State.direct_on (fun s => (s.writeArb (n % 128)).2) hon
  rwa [Nat.mod_eq_of_lt hn] at h

theorem State.writeArb_begins (hst : s.rst.state = .ready ∨ s.rst.state = .run) (hnone : s.sec.advancing = none) : s.writeArb n = s.arbBegin n := by
  unfold State.writeArb
  rw [if_neg (by obtain h | h := hst <;> simp [h]), if_neg (by simp [hnone])]
theorem State.writeArb_waits (hst : s.rst.state = .ready ∨ s.rst.state = .run) (hsome : s.sec.advancing ≠ none) :
    s.writeArb n = (0, { s with sec := { s.sec with arbWait := s.sec.arbWait ++ [n] } }) := by
  unfold State.writeArb
  rw [if_neg (by obtain h | h := hst <;> simp [h]), if_pos (Option.isSome_iff_ne_none.2 hsome)]
theorem State.writeArb_elsewhere (hready : s.rst.state ≠ .ready) (hrun : s.rst.state ≠ .run) : s.writeArb n = (0, s) :=
  if_pos (by simp [hready, hrun])

theorem State.arbBegin_refused (h : s.sec.fwValid = false ∨ s.sec.fwSvn.toNat < n) : s.arbBegin n = (0x705, s.secReason 0x705) :=
  if_pos (by obtain h | h := h <;> simp [h])
theorem State.arbBegin_served (hvalid : s.sec.fwValid = true) (hn : n ≤ s.sec.fwSvn.toNat) :
    s.arbBegin n = if n ≤ s.sec.arb.toNat then (0, s) else (0, { s with sec := { s.sec with advancing := some n } }) :=
  if_neg (by simp [hvalid, hn])

/-- A write of the target leaves the machine outside SEC, and of SEC the counter, the version of the firmware and the writes that wait. -/
theorem State.arbBegin_frame (s : State) (n : Nat) : ∃ x, (s.arbBegin n).2 = { s with sec := x } ∧ x.arb = s.sec.arb ∧ x.fwSvn = s.sec.fwSvn ∧
    (n ≤ s.sec.arb.toNat → x.advancing = s.sec.advancing) := by
  unfold State.arbBegin
  split
  · exact ⟨_, rfl, rfl, rfl, fun _ => rfl⟩
  · split
    · exact ⟨_, rfl, rfl, rfl, fun _ => rfl⟩
    · next h => exact ⟨_, rfl, rfl, rfl, fun hle => absurd hle h⟩

/-- The writes that waited change SEC only, and neither the counter nor the version; once none of them is above the counter they all end. -/
theorem arbNext_frame (l : List Nat) (s : State) : ∃ x, arbNext l s = { s with sec := x } ∧ x.arb = s.sec.arb ∧ x.fwSvn = s.sec.fwSvn ∧
    (s.sec.advancing = none → (∀ w ∈ l, w ≤ s.sec.arb.toNat) → x.advancing = none ∧ x.arbWait = []) := by
  induction l generalizing s with
  | nil => exact ⟨_, rfl, rfl, rfl, fun h _ => ⟨h, rfl⟩⟩
  | cons t rest ih =>
    obtain ⟨x, hx, harb, hsvn, hadv⟩ := s.arbBegin_frame t
    unfold arbNext
    rw [hx]
    dsimp only
    split
    · next hsome =>
      refine ⟨_, rfl, harb, hsvn, fun hnone hall => ?_⟩
      rw [hadv (hall t List.mem_cons_self), hnone] at hsome
      cases hsome
    · next hnone =>
      obtain ⟨y, hy, harb', hsvn', hend⟩ := ih { s with sec := x }
      refine ⟨y, hy, harb'.trans harb, hsvn'.trans hsvn, fun _ hall => hend (by simpa using hnone) fun w hw => ?_⟩
      exact (hall w (List.mem_cons_of_mem _ hw)).trans_eq (congrArg _ harb.symm)

theorem exec_arbAdvanceDone_inhibited (h : s.sec.advancing = some n) (hinh : s.pwr.inhibit = true) : exec .arbAdvanceDone s = .next s := by
  refine congrArg Host.Outcome.next ?_
  simp only [h, hinh, if_true]
theorem exec_arbAdvanceDone (h : s.sec.advancing = some n) (hinh : s.pwr.inhibit = false) : exec .arbAdvanceDone s =
    .next (arbNext s.sec.arbWait { s with sec := { s.sec with advancing := none, arb := BitVec.ofNat 7 n } }) := by
  refine congrArg Host.Outcome.next ?_
  simp only [h, hinh, Bool.false_eq_true, if_false]
theorem exec_arbAdvanceDone_idle (h : s.sec.advancing = none) : exec .arbAdvanceDone s = .next s := by
  refine congrArg Host.Outcome.next ?_
  simp only [h]

end

/-! ## The near-memory self-test (R525) -/

section
variable {s : State} {v : W32}

theorem exec_nmeTest (hon : (s.dom 3).st ≠ .off) : exec (.nmeTest v) s = .next (s.writeNme v).2 := State.direct_on (fun s => (s.writeNme v).2) hon

theorem State.writeNme_go (hgo : v.getLsbD 31 = true) : s.writeNme v =
    if s.engineOwned (v.toNat % 256) || s.sec.nmeUnder.isSome then (0x731, s.secReason 0x731)
    else if !s.domOn (11 + v.toNat % 256 / 32) then (0x732, s.secReason 0x732)
    else (0, { s with sec := { s.sec with nmeEngine := BitVec.ofNat 8 (v.toNat % 256), nmeUnder := some (v.toNat % 256), nmeResult := 0 } }) :=
  if_pos hgo
theorem State.writeNme_select (hgo : v.getLsbD 31 = false) : s.writeNme v = (0, { s with sec := { s.sec with nmeEngine := v.setWidth 8 } }) := by
  have hengine : BitVec.ofNat 8 (v.toNat % 256) = v.setWidth 8 := by
    apply BitVec.eq_of_toNat_eq
    simp
  unfold State.writeNme
  rw [hgo, ← hengine]
  rfl

theorem exec_nmeTestDone {k : Nat} {passed : Bool} (h : s.sec.nmeUnder = some k) : exec (.nmeTestDone passed) s = .next { s with sec := { s.sec with
    nmeUnder := none, nmeResult := if passed then 1 else 2, fenced := if passed then s.sec.fenced else s.sec.fenced ||| (1#256 <<< k) } } := by
  refine congrArg Host.Outcome.next ?_
  simp only [h]
theorem exec_nmeTestDone_idle {passed : Bool} (h : s.sec.nmeUnder = none) : exec (.nmeTestDone passed) s = .next s := by
  refine congrArg Host.Outcome.next ?_
  simp only [h]

/-- A mask with one more bit. -/
theorem getLsbD_or_shiftLeft_one (x : BitVec 256) (k : Nat) {j : Nat} (hj : j < 256) :
    (x ||| (1#256 <<< k)).getLsbD j = (x.getLsbD j || decide (j = k)) := by
  rw [BitVec.getLsbD_or, BitVec.getLsbD_shiftLeft, BitVec.getLsbD_one]
  refine congrArg (x.getLsbD j || ·) (Bool.eq_iff_iff.2 ?_)
  simp only [Bool.and_eq_true, decide_eq_true_eq, Bool.not_eq_true', decide_eq_false_iff_not]
  omega

end

/-- Settles O53: the branches of a write of the target and of the self-test, and the writes that wait behind an advance. -/
theorem rollbackCounterAndSelfTest : Obligations.RollbackCounterAndSelfTest := by
  refine ⟨fun s => ⟨fun hon n hn => ⟨fun hst => ⟨fun hnone hvalid hsvn harb => ?_, fun hnone hvalid hsvn harb => ?_, fun hnone hbad => ?_,
      fun hsome => ?_⟩, fun hready hrun => ?_⟩, fun n hadv => ⟨exec_arbAdvanceDone_inhibited hadv, fun hinh => ?_⟩, exec_arbAdvanceDone_idle⟩,
    fun s v => ⟨fun hon => ⟨fun hgo howner hunder hdom => ?_, fun hgo hbusy => ?_, fun hgo howner hunder hdom => ?_, fun hgo => ?_⟩,
      fun k passed hunder => ?_, fun passed => exec_nmeTestDone_idle⟩⟩
  · rw [exec_arbAdvance hon hn, State.writeArb_begins hst hnone, State.arbBegin_served hvalid hsvn, if_neg (Nat.not_le.2 harb)]
  · rw [exec_arbAdvance hon hn, State.writeArb_begins hst hnone, State.arbBegin_served hvalid hsvn, if_pos harb]
  · rw [exec_arbAdvance hon hn, State.writeArb_begins hst hnone, State.arbBegin_refused hbad]
    rfl
  · rw [exec_arbAdvance hon hn, State.writeArb_waits hst hsome]
  · rw [exec_arbAdvance hon hn, State.writeArb_elsewhere hready hrun]
  · obtain ⟨x, hx, harb, hsvn, hend⟩ := arbNext_frame s.sec.arbWait { s with sec := { s.sec with advancing := none, arb := BitVec.ofNat 7 n } }
    refine ⟨_, exec_arbAdvanceDone hadv hinh, ?_⟩
    rw [hx]
    refine ⟨harb, rfl, hsvn, fun hall hn => hend rfl fun w hw => ?_⟩
    have hle : w ≤ n := by simpa using List.all_eq_true.1 hall w hw
    have hcounter : (BitVec.ofNat 7 n).toNat = n := by rw [BitVec.toNat_ofNat]; omega
    exact hle.trans_eq hcounter.symm
  · rw [exec_nmeTest hon, State.writeNme_go hgo, if_neg (by simp [howner, hunder]), if_neg (by simp [hdom])]
  · rw [exec_nmeTest hon, State.writeNme_go hgo, if_pos (by simpa [Option.isSome_iff_ne_none] using hbusy)]
    rfl
  · rw [exec_nmeTest hon, State.writeNme_go hgo, if_neg (by simp [howner, hunder]), if_pos (by simp [hdom])]
    rfl
  · rw [exec_nmeTest hon, State.writeNme_select hgo]
  · refine ⟨_, exec_nmeTestDone hunder, rfl, rfl, rfl, rfl, fun j hj => ?_⟩
    cases passed with
    | true => simp
    | false => exact getLsbD_or_shiftLeft_one _ k hj

end Sys2Proof.Machine
end

section
/-! Attestation over the DOE mailbox (O51). -/
namespace Sys2Proof.Machine

open Sys2Proof

@[simp] theorem length_sized (n : Nat) (b : List Byte) : (sized n b).length = n := by simp [sized]

/-- Bytes 0x000 to 0x0FF of a report. -/
theorem State.length_reportHead (s : State) {nonce : List Byte} (hn : nonce.length = 32) (kem : List Byte) : (s.reportHead nonce kem).length = 256 := by
  have hkem : (if kem.isEmpty then List.replicate 32 (0 : Byte) else sized 32 (shake256 32 kem)).length = 32 := by split <;> simp
  simp only [State.reportHead, List.length_append, length_leBytes, length_sized, hn, hkem]

theorem length_falconSign (meter : Bool) (draw : Nat) (m : List Byte) : (falconSign meter draw m).length = 1280 := by
  simp [falconSign, falconBytes]

/-- The first four bytes of an answer: the response code, a reserved byte and the status. -/
def doeHead (op status : Nat) : List Byte := [BitVec.ofNat 8 (op + 0x80), 0, BitVec.ofNat 8 status, BitVec.ofNat 8 (status / 256)]

theorem length_doeHead (op status : Nat) : (doeHead op status).length = 4 := rfl

theorem State.doeAnswer_ok (s : State) (op : Nat) (data : List Byte) :
    s.doeAnswer op 0 data = { s with sec := { s.sec with doeOut := doeHead op 0 ++ data } } := rfl
theorem State.doeAnswer_refused (s : State) (op : Nat) {status : Nat} (h : status ≠ 0) :
    s.doeAnswer op status [] = { s with sec := { s.sec with doeOut := doeHead op status, reason := BitVec.ofNat 16 status } } := if_neg h


/-- A list cut at the length of its first part. -/
theorem take_of_length {α : Type} {l r : List α} {n : Nat} (h : l.length = n) : (l ++ r).take n = l := by rw [← h, List.take_left]
theorem drop_of_length {α : Type} {l r : List α} {n : Nat} (h : l.length = n) : (l ++ r).drop n = r := by rw [← h, List.drop_left]

section
variable {s : State} (h : s.doeServed = true)
include h

theorem exec_getKeys : exec .getKeys s = .next (s.doeAnswer 1 0
    (sized 1793 Config.identityKey ++ sized 1793 Config.meterKey ++ leBytes 8 Config.serial.toNat ++ leBytes 8 Config.meterId.toNat)) :=
  congrArg Host.Outcome.next (if_neg (by simp [h]))

/-- The new key pair's public part, where a request asks for one. -/
def State.reportKey (s : State) (flags : Nat) : List Byte := if bit flags 0 then sized 1568 (Config.kemEncapsKey s.sec.kemCount) else []

/-- The state once a report has been drawn up: a signature is drawn, and a key pair where the request asks for one. -/
def State.reported (s : State) (nonce : List Byte) (flags : Nat) : State :=
  if bit flags 0 then { s with freeCtr := s.freeCtr + 1, sec := { s.sec with kemPair := some (s.sec.kemCount, nonce), kemCount := s.sec.kemCount + 1 } }
  else { s with freeCtr := s.freeCtr + 1 }

theorem exec_getReport {nonce : List Byte} (hn : nonce.length = 32) (flags : Nat) (hpuf : Config.pufOk = true) :
    exec (.getReport nonce flags) s = .next ((s.reported nonce flags).doeAnswer 2 0 (s.reportHead nonce (s.reportKey flags) ++
      falconSign false s.freeCtr (s.reportHead nonce (s.reportKey flags)) ++ s.reportKey flags)) :=
  congrArg Host.Outcome.next (((if_neg (by simp [h])).trans (if_neg (by simp [hn]))).trans (if_neg (by simp [hpuf])))
theorem exec_getReport_noKey {nonce : List Byte} (hn : nonce.length = 32) (flags : Nat) (hpuf : Config.pufOk = false) :
    exec (.getReport nonce flags) s = .next (s.doeAnswer 2 0x712 []) :=
  congrArg Host.Outcome.next (((if_neg (by simp [h])).trans (if_neg (by simp [hn]))).trans (if_pos (by simp [hpuf])))
theorem exec_getReport_badLength {nonce : List Byte} (hn : nonce.length ≠ 32) (flags : Nat) :
    exec (.getReport nonce flags) s = .next (s.doeAnswer 2 0x711 []) :=
  congrArg Host.Outcome.next ((if_neg (by simp [h])).trans (if_pos hn))

/-- The key set that a ciphertext agrees on with the pair of the last report. -/
def ideKeyset (k n : Nat) (nonce ct : List Byte) : List Byte := sized 80 (shake256 80 (Config.kemDecaps n ct ++ nonce ++ leBytes 1 k))

theorem exec_ideKey {k n : Nat} {nonce ct : List Byte} (hk : k < 2) (hct : ct.length = 1568) (hpair : s.sec.kemPair = some (n, nonce)) :
    exec (.ideKey k ct) s = .next (({ s with sec := { s.sec with
      kemPair := none, keysets := tset [] s.sec.keysets k (ideKeyset k n nonce ct) } } : State).doeAnswer 3 0 []) := by
  refine congrArg Host.Outcome.next (((if_neg (by simp [h])).trans (if_neg (by simp [hct]; omega))).trans ?_)
  simp only [hpair]
  rfl
theorem exec_ideKey_noPair {k : Nat} {ct : List Byte} (hk : k < 2) (hct : ct.length = 1568) (hpair : s.sec.kemPair = none) :
    exec (.ideKey k ct) s = .next (s.doeAnswer 3 0x714 []) := by
  refine congrArg Host.Outcome.next (((if_neg (by simp [h])).trans (if_neg (by simp [hct]; omega))).trans ?_)
  simp only [hpair]
theorem exec_ideKey_malformed {k : Nat} {ct : List Byte} (hbad : 2 ≤ k ∨ ct.length ≠ 1568) :
    exec (.ideKey k ct) s = .next (s.doeAnswer 3 0x711 []) := by
  refine congrArg Host.Outcome.next ((if_neg (by simp [h])).trans (if_pos ?_))
  simp only [Bool.or_eq_true, decide_eq_true_eq]
  omega
theorem exec_ideGo_malformed (op : Nat) : exec (.ideGo (.malformed op)) s = .next (s.doeAnswer op 0x711 []) :=
  congrArg Host.Outcome.next (if_neg (by simp [h]))

end

/-- A report served: its length, its signature over its first 256 bytes, and the key pair bound to it. -/
theorem State.reported_spec (s : State) {nonce : List Byte} (hn : nonce.length = 32) (flags : Nat) :
    let key := s.reportKey flags
    let t := (s.reported nonce flags).doeAnswer 2 0 (s.reportHead nonce key ++ falconSign false s.freeCtr (s.reportHead nonce key) ++ key)
    t.sec.doeOut.length = (if flags.testBit 0 then 3108 else 1540) ∧ t.sec.doeOut.take 4 = doeHead 2 0 ∧
      (t.sec.doeOut.drop 4).take 256 = s.reportHead nonce (t.sec.doeOut.drop 1540) ∧ t.sec.reason = s.sec.reason ∧
      (t.sec.doeOut.drop 260).take 1280 = (falconSign false s.freeCtr ((t.sec.doeOut.drop 4).take 256)) ∧
      t.sec.kemPair = (if flags.testBit 0 then some (s.sec.kemCount, nonce) else s.sec.kemPair) := by
  intro key t
  have hhead := s.length_reportHead hn key
  have hsig := length_falconSign false s.freeCtr (s.reportHead nonce key)
  have hout : t.sec.doeOut = doeHead 2 0 ++ (s.reportHead nonce key ++ (falconSign false s.freeCtr (s.reportHead nonce key) ++ key)) := by
    rw [← List.append_assoc (s.reportHead nonce key)]
    rfl
  have hkey : key.length = if flags.testBit 0 then 1568 else 0 := by
    show (if bit flags 0 then sized 1568 (Config.kemEncapsKey s.sec.kemCount) else []).length = _
    unfold bit
    split <;> simp
  have hsigned : (t.sec.doeOut.drop 4).take 256 = s.reportHead nonce key := by
    rw [hout, drop_of_length (length_doeHead 2 0), take_of_length hhead]
  have hafterHead : t.sec.doeOut.drop 260 = falconSign false s.freeCtr (s.reportHead nonce key) ++ key := by
    rw [hout, ← List.append_assoc, drop_of_length (by simp [doeHead, hhead])]
  have hafterSig : t.sec.doeOut.drop 1540 = key := by
    rw [show 1540 = 260 + 1280 from rfl, ← List.drop_drop, hafterHead, drop_of_length hsig]
  refine ⟨?_, by rw [hout, take_of_length (length_doeHead 2 0)], by rw [hsigned, hafterSig], ?_, by rw [hafterHead, hsigned, take_of_length hsig], ?_⟩
  · rw [hout]
    simp only [List.length_append, hhead, hsig, hkey, doeHead, List.length_cons, List.length_nil]
    split <;> rfl
  · show (s.reported nonce flags).sec.reason = _
    unfold State.reported
    split <;> rfl
  · show (s.reported nonce flags).sec.kemPair = _
    unfold State.reported bit
    split <;> rfl

/-- The identifiers at the end of GET_KEYS's answer. -/
theorem keysAnswered (s : State) :
    let out := (s.doeAnswer 1 0 (sized 1793 Config.identityKey ++ sized 1793 Config.meterKey ++ leBytes 8 Config.serial.toNat ++
      leBytes 8 Config.meterId.toNat)).sec.doeOut
    (out.drop 3590).take 8 = leBytes 8 Config.serial.toNat ∧ out.drop 3598 = leBytes 8 Config.meterId.toNat := by
  intro out
  have hout : out = (doeHead 1 0 ++ (sized 1793 Config.identityKey ++ sized 1793 Config.meterKey)) ++ (leBytes 8 Config.serial.toNat ++
      leBytes 8 Config.meterId.toNat) := by
    rw [List.append_assoc, ← List.append_assoc (sized 1793 Config.identityKey ++ _)]
    rfl
  have hids : out.drop 3590 = leBytes 8 Config.serial.toNat ++ leBytes 8 Config.meterId.toNat := by
    rw [hout, drop_of_length (by simp [doeHead])]
  have hlen := length_leBytes 8 Config.serial.toNat
  exact ⟨by rw [hids, take_of_length hlen], by rw [show 3598 = 3590 + 8 from rfl, ← List.drop_drop, hids, drop_of_length hlen]⟩

/-- Settles O51: what each request of the mailbox answers. -/
theorem attestationAnswered : Obligations.AttestationAnswered := by
  intro s h
  refine ⟨?_, fun nonce flags hn => ?_, fun nonce flags hn => ⟨_, exec_getReport_badLength h hn flags, rfl, rfl⟩,
    fun k n nonce ct hk hct hpair => ⟨_, exec_ideKey h hk hct hpair, rfl, rfl, rfl, tget_tset_same .., tget_tset_ne _ _ _ (by omega), rfl, rfl⟩,
    fun k ct hk hct hpair => ⟨_, exec_ideKey_noPair h hk hct hpair, rfl, rfl⟩,
    fun k ct hbad => ⟨_, exec_ideKey_malformed h hbad, rfl, rfl⟩, fun op => ⟨_, exec_ideGo_malformed h op, rfl, rfl⟩, fun k => ?_,
    ⟨_, exec_ideStop h, rfl, rfl⟩⟩
  · refine ⟨_, exec_getKeys h, rfl, ?_, rfl, ?_⟩
    · simp [State.doeAnswer_ok, doeHead]
    · exact keysAnswered s
  · by_cases hpuf : Config.pufOk = true
    · refine ⟨_, exec_getReport h hn flags hpuf, ?_⟩
      rw [if_pos hpuf]
      refine ⟨?_, ?_, ?_, ?_, s.reported_spec hn flags⟩
      all_goals
        rw [State.doeAnswer_ok]
        unfold State.reported
        split <;> rfl
    · rw [Bool.not_eq_true] at hpuf
      refine ⟨_, exec_getReport_noKey h hn flags hpuf, rfl, rfl, rfl, rfl, ?_⟩
      rw [hpuf]
      exact ⟨rfl, rfl, rfl⟩
  · split
    · next hgo => exact ⟨_, exec_ideGo_set h hgo.1 hgo.2, rfl, rfl⟩
    · next hno =>
      refine ⟨_, exec_ideGo_refused h ?_, rfl, rfl⟩
      by_cases hset : tget [] s.sec.keysets k = []
      · exact .inl hset
      · exact .inr (by simpa [hset] using hno)

end Sys2Proof.Machine
end

section
/-! POWER and its completion (R489 to R492; Tables 16-1 to 16-3, 16-6). -/
namespace Sys2Proof.Machine

open Sys2Proof

/-! ## What changes no power domain -/

/-- The domains, and the POWER command in progress. -/
def State.powering (s : State) : Tab Dom × Option PwrCmd := (s.pwr.doms, s.pwr.cmd)

theorem State.dom_of_powering {s t : State} (h : t.powering = s.powering) (d : Nat) : t.dom d = s.dom d :=
  congrArg (fun x : Tab Dom × Option PwrCmd => tget Dom.reset x.1 d) h

theorem State.powering_of_pwr {s t : State} (h : t.pwr = s.pwr) : t.powering = s.powering := congrArg (fun x => (x.doms, x.cmd)) h

theorem State.powering_foldl {α : Type} {f : State → α → State} (h : ∀ s x, (f s x).powering = s.powering) (l : List α) (s : State) :
    (l.foldl f s).powering = s.powering := by
  induction l generalizing s with
  | nil => rfl
  | cons x l ih => exact (ih _).trans (h s x)

theorem State.powering_post (s : State) (ty : Nat) (p : Option Nat) (src aux det : Nat) : (s.post ty p src aux det).powering = s.powering :=
  State.powering_of_pwr (s.post_pwr ty p src aux det)

theorem State.powering_portDown (s : State) (port cause : Nat) (fault : Bool) : (s.portDown port cause fault).powering = s.powering := by
  have hlost : ∀ u : State, (u.parentLost port).powering = u.powering := by
    intro u
    unfold State.parentLost
    split
    · exact State.powering_post ..
    · rfl
  unfold State.portDown
  dsimp only
  split
  · rw [hlost]
    split
    · exact State.powering_post ..
    · rfl
  · rfl

theorem State.powering_portStart (s : State) (port : Nat) : (s.portStart port).powering = s.powering := by
  unfold State.portStart
  dsimp only
  split <;> rfl

theorem State.powering_clearDomain (s : State) (d : Nat) : (s.clearDomain d).powering = s.powering := by
  unfold State.clearDomain
  split
  · obtain ⟨⟨_, he⟩, -⟩ := s.sheds_dropEngines (fun a => agKind a == 2 && agNum a / 32 == d - 11)
    unfold State.clearStack
    rw [he]
    rfl
  · split
    · obtain ⟨_, _, _, _, _, he, -⟩ := s.clearField_eq (d - 19)
      rw [he]
      rfl
    · split <;> rfl

theorem State.powering_domainEffect (s : State) (d : Nat) (new : DState) : (s.domainEffect d new).powering = s.powering := by
  unfold State.domainEffect
  split
  · split
    · exact State.powering_foldl (fun s k => State.powering_portDown ..) _ s
    · exact s.powering_clearDomain d
  · rfl

theorem State.powering_afterOn (s : State) (d : Nat) (old new : DState) : (s.afterOn d old new).powering = s.powering := by
  unfold State.afterOn
  split
  · refine State.powering_foldl (fun s k => ?_) _ s
    exact (State.powering_portStart _ (6 * (d - 6) + k)).trans rfl
  · rfl

theorem State.powering_disableNaming (s : State) (ds : List Nat) : (s.disableNaming ds).powering = s.powering :=
  State.powering_foldl (f := fun s p => s.modPart p _) (fun _ _ => rfl) partNums s

theorem State.powering_lose (s : State) (r : Nat) : (s.lose r).powering = s.powering := by
  obtain ⟨_, _, he⟩ := s.lose_frame r
  rw [he]
  rfl

theorem State.powering_appendDefect (s : State) (w : Nat) : (s.appendDefect w).powering = s.powering := by
  unfold State.appendDefect
  split
  · rfl
  · unfold State.burnDefect
    dsimp only
    split
    · rfl
    · split
      · exact State.powering_post ..
      · rfl

theorem State.powering_repairLane (s : State) (f : LaneFault) : (s.repairLane f).powering = s.powering := by
  unfold State.repairLane
  split
  · exact s.powering_appendDefect _
  · rfl

theorem State.powering_laneRepair (s : State) (faults : List LaneFault) : (s.laneRepair faults).powering = s.powering := by
  have hshow : ∀ u : State, u.showRepairs.powering = u.powering := fun _ => by simp only [State.showRepairs, State.powering]
  have hlanes : (faults.foldl State.repairLane s).showRepairs.powering = s.powering :=
    (hshow _).trans (State.powering_foldl State.powering_repairLane faults s)
  rw [State.laneRepair_eq]
  split
  · exact (State.powering_lose ..).trans hlanes
  · exact hlanes

/-! ## POWER -/

/-- The domains named marked busy. -/
def State.markBusy (s : State) (ds : List (Nat × DState × Nat)) : State := ds.foldl (fun s t => s.setDom t.1 { s.dom t.1 with busy := true }) s

theorem State.markBusy_frame (ds : List (Nat × DState × Nat)) (s : State) : ∃ x, s.markBusy ds = { s with pwr := { s.pwr with doms := x } } := by
  induction ds generalizing s with
  | nil => exact ⟨_, rfl⟩
  | cons t ds ih => exact ih (s.setDom t.1 { s.dom t.1 with busy := true })

theorem State.dom_markBusy (ds : List (Nat × DState × Nat)) (s : State) (d : Nat) :
    (s.markBusy ds).dom d = if ds.any (fun t => t.1 == d) then { s.dom d with busy := true } else s.dom d := by
  induction ds generalizing s with
  | nil => rfl
  | cons t ds ih =>
    refine (ih _).trans ?_
    by_cases h : t.1 = d
    · subst h
      simp
    · rw [State.dom_setDom_ne _ _ (Ne.symm h), List.any_cons, beq_false_of_ne h, Bool.false_or]

/-- What a POWER asks of its domains: for each its state and its rate. -/
def State.powerTargets (s : State) (c : Cmd) : List (Nat × DState × Nat) :=
  (s.expand c).map (fun e => (e.target, stateOf e.st, if e.rate = 0xFF then (s.dom e.target).rate else e.rate))

section
variable {s : State} {c : Cmd}

theorem exec_power_passes (h : s.serves 0x40 c) (hcode : s.powerCode c = 0) : exec .power s =
    .next { (s.begun c).markBusy (s.powerTargets c) with pwr := { ((s.begun c).markBusy (s.powerTargets c)).pwr with
      cmd := some { cmd := c, targets := s.powerTargets c, tripped := false } } } := by
  refine congrArg Host.Outcome.next ((State.runCmd_ok _ h.1 h.2).trans ?_)
  exact if_neg (not_not_intro hcode)

theorem exec_power_refused (h : s.serves 0x40 c) (hcode : s.powerCode c ≠ 0) : exec .power s = .next (s.refused c (s.powerCode c)) := by
  refine congrArg Host.Outcome.next ((State.runCmd_ok _ h.1 h.2).trans ((if_pos hcode).trans ?_))
  exact s.deny_begun c _

theorem power_serves (h : s.serves 0x40 c) (hcode : s.powerCode c = 0) :
    ∃ t, exec .power s = .next t ∧ t.hif.queue = s.hif.queue.tail ∧ t.hif.compl = s.hif.compl ∧
      t.pwr.cmd = some { cmd := c, tripped := false, targets := s.powerTargets c } ∧
      (∀ d, t.dom d = if (s.expand c).any (fun e => e.target == d) then { s.dom d with busy := true } else s.dom d) ∧
      ({ t with pwr := s.pwr, hif := s.hif } : State) = s := by
  obtain ⟨ds, he⟩ := (s.begun c).markBusy_frame (s.powerTargets c)
  refine ⟨_, exec_power_passes h hcode, ?_, ?_, rfl, fun d => ?_, ?_⟩
  · rw [he]
    rfl
  · rw [he]
    rfl
  · exact ((s.begun c).dom_markBusy (s.powerTargets c) d).trans (by rw [State.powerTargets, List.any_map]; rfl)
  · rw [he]
    rfl

end

/-! ## One transition -/

section
variable (x : Dom) (d : Nat) (want : DState) (rate fail : Nat) (tripped : Bool)

/-- Whether a domain that has to lock for its new state or rate does not. -/
def Dom.misses : Bool := decide (fail ≠ 0) && (x.st == .off && want == .on || x.rate != rate) && !(tripped && rated d) && want != .off

/-- The state in which a transition ends (R492, R498). -/
def Dom.endState : DState :=
  if (tripped && rated d) = true then .off
  else if x.misses d want rate fail tripped = true then (if (x.st == .off || decide (fail = 2)) = true then .off else .gated) else want

/-- The domain after a transition. -/
def Dom.moved : Dom :=
  { x with st := x.endState d want rate fail tripped, rate := if (tripped && rated d || x.misses d want rate fail tripped) = true then x.rate else rate,
           busy := false, lockFail := x.misses d want rate fail tripped, tripped := x.tripped || (tripped && rated d) }

theorem Dom.misses_locked : x.misses d want rate 0 tripped = false := rfl

theorem Dom.moved_fair (h : ¬ (tripped = true ∧ rated d = true)) :
    x.moved d want rate 0 tripped = { x with st := want, rate := rate, busy := false, lockFail := false } := by
  rw [← Bool.and_eq_true, Bool.not_eq_true] at h
  simp [Dom.moved, Dom.endState, Dom.misses_locked, h]

variable {d tripped} in
theorem Dom.moved_tripped (htrip : tripped = true) (hrated : rated d = true) :
    x.moved d want rate fail tripped = { x with st := .off, busy := false, lockFail := false, tripped := true } := by
  simp [Dom.moved, Dom.endState, Dom.misses, htrip, hrated]

end

/-- A domain that ends Off goes into reset, one that does not leaves it unless it is kept there. -/
def State.followReset (s : State) (d : Nat) (down : Bool) : State :=
  if (!down && s.keptDown d) = true then s else { s with rst := { s.rst with
    released := if down then s.rst.released &&& ~~~(1#36 <<< d) else s.rst.released ||| 1#36 <<< d
    locked := if down then s.rst.locked &&& ~~~(1#36 <<< d) else s.rst.locked ||| 1#36 <<< d } }

theorem State.powering_followReset (s : State) (d : Nat) (down : Bool) : (s.followReset d down).powering = s.powering := by
  unfold State.followReset
  split <;> rfl

theorem State.moveDomain_eq (s : State) (d : Nat) (want : DState) (rate fail : Nat) (tripped : Bool) :
    s.moveDomain (d, want, rate) fail tripped =
      (((((s.domainEffect d ((s.dom d).endState d want rate fail tripped)).setDom d ((s.dom d).moved d want rate fail tripped)).followReset d
        (decide ((s.dom d).endState d want rate fail tripped = .off))).afterOn d (s.dom d).st ((s.dom d).endState d want rate fail tripped)),
        (s.dom d).misses d want rate fail tripped) := rfl

theorem State.moveDomain_powering (s : State) (y : Nat × DState × Nat) (fail : Nat) (tripped : Bool) :
    (s.moveDomain y fail tripped).1.powering = (s.setDom y.1 ((s.dom y.1).moved y.1 y.2.1 y.2.2 fail tripped)).powering := by
  obtain ⟨d, want, rate⟩ := y
  rw [State.moveDomain_eq]
  refine (State.powering_afterOn ..).trans ((State.powering_followReset ..).trans ?_)
  have heffect := s.powering_domainEffect d ((s.dom d).endState d want rate fail tripped)
  exact congrArg (fun x : Tab Dom × Option PwrCmd => (tset Dom.reset x.1 d ((s.dom d).moved d want rate fail tripped), x.2)) heffect

/-! ## All transitions of a command -/

/-- The transitions of a command, one after the other, and whether a domain did not lock. -/
def State.moveAll (s : State) (targets : List (Nat × DState × Nat)) (fail : Nat → Nat) (tripped : Bool) (bad : Bool) : State × Bool :=
  targets.foldl (fun acc t => ((acc.1.moveDomain t (fail t.1) tripped).1, acc.2 || (acc.1.moveDomain t (fail t.1) tripped).2)) (s, bad)

section
variable (fail : Nat → Nat) (tripped : Bool)

theorem State.cmd_moveAll (l : List (Nat × DState × Nat)) (s : State) (bad : Bool) : (s.moveAll l fail tripped bad).1.pwr.cmd = s.pwr.cmd := by
  induction l generalizing s bad with
  | nil => rfl
  | cons y l ih => exact (ih _ _).trans (congrArg Prod.snd (s.moveDomain_powering y (fail y.1) tripped))

theorem State.dom_moveDomain_same (s : State) (y : Nat × DState × Nat) (n : Nat) :
    (s.moveDomain y n tripped).1.dom y.1 = (s.dom y.1).moved y.1 y.2.1 y.2.2 n tripped :=
  (State.dom_of_powering (s.moveDomain_powering y n tripped) y.1).trans (s.dom_setDom _ _)

theorem State.dom_moveDomain_ne (s : State) (y : Nat × DState × Nat) (n : Nat) {d : Nat} (h : d ≠ y.1) :
    (s.moveDomain y n tripped).1.dom d = s.dom d :=
  (State.dom_of_powering (s.moveDomain_powering y n tripped) d).trans (s.dom_setDom_ne _ h)

theorem State.dom_moveAll_other {d : Nat} (l : List (Nat × DState × Nat)) (h : d ∉ l.map (·.1)) (s : State) (bad : Bool) :
    (s.moveAll l fail tripped bad).1.dom d = s.dom d := by
  induction l generalizing s bad with
  | nil => rfl
  | cons y l ih =>
    rw [List.map_cons, List.mem_cons, not_or] at h
    exact (ih h.2 _ _).trans (s.dom_moveDomain_ne tripped y (fail y.1) h.1)

/-- Every domain named once moves once. -/
theorem State.dom_moveAll {y : Nat × DState × Nat} (l : List (Nat × DState × Nat)) (hnodup : (l.map (·.1)).Nodup) (hy : y ∈ l) (s : State) (bad : Bool) :
    (s.moveAll l fail tripped bad).1.dom y.1 = (s.dom y.1).moved y.1 y.2.1 y.2.2 (fail y.1) tripped := by
  induction l generalizing s bad with
  | nil => cases hy
  | cons z l ih =>
    rw [List.map_cons, List.nodup_cons] at hnodup
    obtain ⟨hz, hnodup⟩ := hnodup
    rcases List.mem_cons.1 hy with rfl | hy
    · exact (State.dom_moveAll_other fail tripped l hz _ _).trans (s.dom_moveDomain_same tripped y (fail y.1))
    · have hne : y.1 ≠ z.1 := fun heq => hz (heq ▸ List.mem_map_of_mem hy)
      exact (ih hnodup hy _ _).trans (by rw [s.dom_moveDomain_ne tripped z (fail z.1) hne])

theorem State.moveAll_locked (l : List (Nat × DState × Nat)) (s : State) : (s.moveAll l (fun _ => 0) tripped false).2 = false := by
  have hstep : ∀ (u : State) (y : Nat × DState × Nat), (u.moveDomain y 0 tripped).2 = false := fun u y => rfl
  induction l generalizing s with
  | nil => rfl
  | cons y l ih => exact (congrArg (fun b => (State.moveAll (s.moveDomain y 0 tripped).1 l (fun _ => 0) tripped (false || b)).2) (hstep s y)).trans (ih _)

end

/-! ## POWER_COMPLETE -/

/-- What follows once every domain of a command has moved: lanes repaired, formes disabled, the event, and the command's record. -/
def State.powerEnds (s : State) (x : PwrCmd) (bad : Bool) (old : List (Nat × DState × Nat)) (faults : List LaneFault) : State :=
  let back := (old.filter (fun o => o.2.1 == .off && (s.dom o.1).st != .off && decide (11 ≤ o.1) && decide (o.1 ≤ 18))).map (·.1 - 11)
  let s := s.laneRepair (faults.filter (fun f => back.contains f.stack))
  let changed := (old.filter (fun o => (s.dom o.1).st != o.2.1 || (s.dom o.1).rate != o.2.2)).map (·.1)
  let s := s.disableNaming changed
  let s := if changed.isEmpty then s else s.post 0x503 none ccAgent (if bad then 0x50A else 0) (sumNat (changed.map (2 ^ ·)))
  if x.tripped then s.deny x.cmd 0x507 else if bad then s.deny x.cmd 0x50A else s.ok x.cmd 0

theorem exec_powerComplete {s : State} {x : PwrCmd} (unlocked : List Nat) (faults : List LaneFault) (h : s.pwr.cmd = some x) :
    exec (.powerComplete unlocked faults) s = .next
      ((({ s with pwr := { s.pwr with cmd := none } } : State).moveAll x.targets (fun d => (unlocked.filter (· == d)).length) x.tripped false).1.powerEnds x
        (({ s with pwr := { s.pwr with cmd := none } } : State).moveAll x.targets (fun d => (unlocked.filter (· == d)).length) x.tripped false).2
        (x.targets.map (fun t => (t.1, (s.dom t.1).st, (s.dom t.1).rate))) faults) := by
  change execPowerComplete unlocked faults s = _
  unfold execPowerComplete
  rw [h]
  rfl

/-- A record answers a command with a status and a reason. -/
def hasRecord (t : State) (c : Cmd) (status reason : Nat) : Prop := ∃ r ∈ t.hif.compl, r.tag = c.tag ∧ r.status = status ∧ r.reason = reason

theorem State.powering_deny (s : State) (c : Cmd) (reason : Nat) : (s.deny c reason).powering = s.powering := by
  unfold State.deny
  dsimp only
  split <;> rfl

theorem hasRecord_complete (s : State) (c : Cmd) (status reason value : Nat) :
    hasRecord (s.complete c.ring c.tag c.stamp c.part status reason value 0) c status reason :=
  ⟨_, List.mem_append_right _ (List.mem_singleton_self _), rfl, rfl, rfl⟩
theorem hasRecord_deny (s : State) (c : Cmd) (reason : Nat) : hasRecord (s.deny c reason) c 1 reason := hasRecord_complete _ c 1 reason 0
theorem hasRecord_ok (s : State) (c : Cmd) (value : Nat) : hasRecord (s.ok c value) c 0 0 := hasRecord_complete s c 0 0 value

theorem State.powerEnds_powering (s : State) (x : PwrCmd) (bad : Bool) (old : List (Nat × DState × Nat)) (faults : List LaneFault) :
    (s.powerEnds x bad old faults).powering = s.powering := by
  unfold State.powerEnds
  extract_lets back s1 changed s2 s3
  have hs2 : s2.powering = s.powering := (State.powering_disableNaming ..).trans (s.powering_laneRepair _)
  have hs3 : s3.powering = s.powering := by
    unfold s3
    split
    · exact hs2
    · exact (State.powering_post ..).trans hs2
  refine Eq.trans ?_ hs3
  split
  · exact State.powering_deny ..
  · split
    · exact State.powering_deny ..
    · rfl

section
variable (s : State) {x : PwrCmd} (bad : Bool) (old : List (Nat × DState × Nat)) (faults : List LaneFault)

theorem State.powerEnds_tripped (h : x.tripped = true) : hasRecord (s.powerEnds x bad old faults) x.cmd 1 0x507 := by
  unfold State.powerEnds
  extract_lets
  rw [if_pos h]
  exact hasRecord_deny ..

theorem State.powerEnds_ok (h : x.tripped = false) : hasRecord (s.powerEnds x false old faults) x.cmd 0 0 := by
  unfold State.powerEnds
  extract_lets
  rw [h, if_neg Bool.false_ne_true, if_neg Bool.false_ne_true]
  exact hasRecord_ok ..

end

theorem powerComplete_moves {s : State} {x : PwrCmd} (unlocked : List Nat) (faults : List LaneFault) (h : s.pwr.cmd = some x)
    (hnodup : (x.targets.map (·.1)).Nodup) : ∃ t, exec (.powerComplete unlocked faults) s = .next t ∧ t.pwr.cmd = none ∧
      (∀ y ∈ x.targets, y.1 ∉ unlocked → ¬ (x.tripped = true ∧ rated y.1 = true) →
        t.dom y.1 = { s.dom y.1 with st := y.2.1, rate := y.2.2, busy := false, lockFail := false }) ∧
      (∀ y ∈ x.targets, x.tripped = true → rated y.1 = true →
        t.dom y.1 = { s.dom y.1 with st := .off, busy := false, lockFail := false, tripped := true }) ∧
      (∀ d, d ∉ x.targets.map (·.1) → t.dom d = s.dom d) ∧
      (unlocked = [] → x.tripped = false → ∃ r ∈ t.hif.compl, r.tag = x.cmd.tag ∧ r.status = 0) ∧
      (x.tripped = true → ∃ r ∈ t.hif.compl, r.tag = x.cmd.tag ∧ r.status = 1 ∧ r.reason = 0x507) := by
  let idle : State := { s with pwr := { s.pwr with cmd := none } }
  let fail : Nat → Nat := fun d => (unlocked.filter (· == d)).length
  let moved := idle.moveAll x.targets fail x.tripped false
  have hpower := moved.1.powerEnds_powering x moved.2 (x.targets.map (fun t => (t.1, (s.dom t.1).st, (s.dom t.1).rate))) faults
  have hmoved : ∀ y ∈ x.targets, moved.1.dom y.1 = (s.dom y.1).moved y.1 y.2.1 y.2.2 (fail y.1) x.tripped :=
    fun y hy => idle.dom_moveAll fail x.tripped x.targets hnodup hy false
  refine ⟨_, exec_powerComplete unlocked faults h, (congrArg Prod.snd hpower).trans (idle.cmd_moveAll fail x.tripped x.targets false),
    fun y hy hlocked hoff => ?_, fun y hy htrip hrated => ?_, fun d hd => ?_, fun hlocked htrip => ?_, fun htrip => ?_⟩
  · have hzero : fail y.1 = 0 := by
      refine List.length_eq_zero_iff.2 (List.filter_eq_nil_iff.2 (fun z hz heq => hlocked ?_))
      rwa [← eq_of_beq heq]
    exact (State.dom_of_powering hpower y.1).trans ((hmoved y hy).trans (by rw [hzero, Dom.moved_fair _ _ _ _ _ hoff]))
  · exact (State.dom_of_powering hpower y.1).trans ((hmoved y hy).trans (Dom.moved_tripped _ _ _ _ htrip hrated))
  · exact (State.dom_of_powering hpower d).trans (idle.dom_moveAll_other fail x.tripped x.targets hd false)
  · have hbad : moved.2 = false := by
      unfold moved fail
      rw [hlocked]
      exact idle.moveAll_locked x.tripped x.targets
    obtain ⟨r, hmem, htag, hstatus, -⟩ := moved.1.powerEnds_ok (x.targets.map (fun t => (t.1, (s.dom t.1).st, (s.dom t.1).rate))) faults htrip
    rw [← hbad] at hmem
    exact ⟨r, hmem, htag, hstatus⟩
  · exact moved.1.powerEnds_tripped moved.2 _ faults htrip

/-- Settles O22: a transition moves its own domain alone, and what follows the transitions moves none. -/
theorem powerMovesDomains : Obligations.PowerMovesDomains :=
  ⟨fun _ _ h => ⟨power_serves h, exec_power_refused h⟩, fun _ _ unlocked faults => powerComplete_moves unlocked faults⟩

end Sys2Proof.Machine
end

section
/-! The boot image (R469 to R471, R528 to R530; Table 17-6). -/
namespace Sys2Proof.Machine

open Sys2Proof

/-! ## GO -/

section
variable {s : State} (fetched : Bool)

theorem State.bootGo_not (h : s.rst.state ≠ .boot ∨ s.rst.bootHost = true ∨ s.rst.fwRunning = true) : s.bootGo fetched = s.rstRefuse 0x402 :=
  if_pos (by simpa [or_assoc] using h)

section
variable (hstate : s.rst.state = .boot) (hhost : s.rst.bootHost = false) (hfw : s.rst.fwRunning = false)
include hstate hhost hfw

theorem State.bootGo_asks : s.bootGo fetched =
    if (s.rst.bootLen.toNat < 64 || 1048576 < s.rst.bootLen.toNat || s.rst.bootAddr.toNat % 64 ≠ 0) = true then s.rstRefuse 0x403
    else if (!fetched || !s.hostUp) = true then s.rstRefuse 0x404
    else (0, { s with rst := { s.rst with
      bootBuf := writeBytes [] 0 (s.hostRead s.rst.bootAddr.toNat s.rst.bootLen.toNat), bootHave := [(0, s.rst.bootLen.toNat)],
      bootTotal := s.rst.bootLen.toNat, bootHost := true } }) :=
  if_neg (by simp [hstate, hhost, hfw])

theorem State.bootGo_range (h : s.rst.bootLen.toNat < 64 ∨ 1048576 < s.rst.bootLen.toNat ∨ s.rst.bootAddr.toNat % 64 ≠ 0) :
    s.bootGo fetched = s.rstRefuse 0x403 :=
  (State.bootGo_asks fetched hstate hhost hfw).trans (if_pos (by simpa [or_assoc] using h))

section
variable {fetched} (hmin : 64 ≤ s.rst.bootLen.toNat) (hmax : s.rst.bootLen.toNat ≤ 1048576) (halign : s.rst.bootAddr.toNat % 64 = 0)
include hmin hmax halign

theorem State.bootGo_unserved (h : fetched = false ∨ s.hostUp = false) : s.bootGo fetched = s.rstRefuse 0x404 :=
  (State.bootGo_asks fetched hstate hhost hfw).trans ((if_neg (by simp [hmin, hmax, halign])).trans (if_pos (by simpa using h)))

theorem State.bootGo_fetches (hfetched : fetched = true) (hup : s.hostUp = true) : s.bootGo fetched = (0, { s with rst := { s.rst with
    bootBuf := writeBytes [] 0 (s.hostRead s.rst.bootAddr.toNat s.rst.bootLen.toNat), bootHave := [(0, s.rst.bootLen.toNat)],
    bootTotal := s.rst.bootLen.toNat, bootHost := true } }) :=
  (State.bootGo_asks fetched hstate hhost hfw).trans ((if_neg (by simp [hmin, hmax, halign])).trans (if_neg (by simp [hfetched, hup])))

end
end
end

theorem exec_bootGo {s : State} (fetched : Bool) (stores : List HostStore) (h : (s.dom 3).st ≠ .off) :
    exec (.bootGo fetched stores) s = .next ((s.hostStores stores).bootGo fetched).2 :=
  State.direct_on (s := s.hostStores stores) (fun s => (s.bootGo fetched).2) h

/-! ## Ranges of the image held (R471) -/

/-- A search from `i` on stops at the first byte that is held or missing as asked, or at the end of the image. -/
theorem RstRegs.firstAt_spec (r : RstRegs) (want : Bool) {total : Nat} (fuel i : Nat) (h : i + fuel = total) :
    i ≤ r.firstAt want total fuel i ∧ r.firstAt want total fuel i ≤ total ∧
      (∀ j, i ≤ j → j < r.firstAt want total fuel i → r.holds j = !want) ∧
      (r.firstAt want total fuel i = total ∨ r.holds (r.firstAt want total fuel i) = want) := by
  induction fuel generalizing i with
  | zero =>
    refine ⟨le_rfl, h.le, fun j hij hj => absurd hj (not_lt_of_ge hij), Or.inl h⟩
  | succ fuel ih =>
    unfold RstRegs.firstAt
    split
    · next hstop =>
      rw [Bool.or_eq_true, decide_eq_true_iff, beq_iff_eq] at hstop
      exact ⟨le_rfl, by omega, fun j hij hj => absurd hj (not_lt_of_ge hij), hstop.imp (fun htotal => by omega) id⟩
    · next hgo =>
      rw [Bool.or_eq_true, decide_eq_true_iff, beq_iff_eq, not_or] at hgo
      obtain ⟨hlo, hhi, hmiss, hend⟩ := ih (i + 1) (by omega)
      refine ⟨by omega, hhi, fun j hij hj => ?_, hend⟩
      rcases Nat.eq_or_lt_of_le hij with rfl | hlt
      · exact Bool.eq_not_of_ne hgo.2
      · exact hmiss j hlt hj

/-- An image that one range covers is whole. -/
theorem RstRegs.imageWhole_of_covered {r : RstRegs} (htotal : r.bootTotal ≠ 0) (hhave : r.bootHave = [(0, r.bootTotal)]) : r.imageWhole = true := by
  obtain ⟨-, hle, -, hend⟩ := r.firstAt_spec false (total := r.bootTotal) r.bootTotal 0 (Nat.zero_add _)
  unfold RstRegs.imageWhole
  rw [Bool.and_eq_true, bne_iff_ne, beq_iff_eq]
  refine ⟨htotal, hend.elim id (fun hmiss => le_antisymm hle (not_lt.1 (fun hlt => ?_)))⟩
  rw [RstRegs.holds, hhave, List.any_cons, List.any_nil, Bool.or_false] at hmiss
  exact absurd hmiss (by simpa using hlt)

theorem bootGo_answers (s : State) (fetched : Bool) (stores : List HostStore) (hon : (s.dom 3).st ≠ .off) :
    let h := s.hostStores stores
    let n := s.rst.bootLen.toNat
    let a := s.rst.bootAddr.toNat
    let refused (code : W16) : Prop := exec (.bootGo fetched stores) s = .next { h with rst := { s.rst with reason := code } }
    (s.rst.state ≠ .boot ∨ s.rst.bootHost = true ∨ s.rst.fwRunning = true → refused 0x402) ∧
    (s.rst.state = .boot → s.rst.bootHost = false → s.rst.fwRunning = false →
      (n < 64 ∨ 1048576 < n ∨ a % 64 ≠ 0 → refused 0x403) ∧
      (64 ≤ n → n ≤ 1048576 → a % 64 = 0 →
        (fetched = false ∨ s.hostUp = false → refused 0x404) ∧
        (fetched = true → s.hostUp = true → ∃ t, exec (.bootGo fetched stores) s = .next t ∧ t.rst.bootTotal = n ∧ t.rst.bootHost = true ∧
          readBytes t.rst.bootBuf 0 n = h.hostRead a n ∧ t.rst.imageWhole = true ∧ t.rst.reason = s.rst.reason ∧
          ({ t with rst := s.rst } : State) = h))) := by
  intro h n a refused
  have hgo := exec_bootGo fetched stores hon
  have hrefused : ∀ code : Nat, h.bootGo fetched = h.rstRefuse code → refused (BitVec.ofNat 16 code) := fun code hcode => by
    unfold refused
    rw [hgo, hcode]
    rfl
  refine ⟨fun hnot => hrefused 0x402 (State.bootGo_not fetched hnot), fun hstate hhost hfw => ⟨fun hrange =>
    hrefused 0x403 (State.bootGo_range fetched hstate hhost hfw hrange), fun hmin hmax halign => ⟨fun hunserved =>
      hrefused 0x404 (State.bootGo_unserved hstate hhost hfw hmin hmax halign hunserved), fun hfetched hup => ?_⟩⟩⟩
  have htaken := State.bootGo_fetches (s := h) hstate hhost hfw hmin hmax halign hfetched hup
  refine ⟨_, hgo, ?_⟩
  rw [htaken]
  have hlength : (h.hostRead a n).length = n := length_readBytes ..
  have hread : readBytes (writeBytes [] 0 (h.hostRead a n)) 0 n = h.hostRead a n :=
    (congrArg _ hlength.symm).trans (readBytes_writeBytes [] 0 (h.hostRead a n))
  exact ⟨rfl, rfl, hread, RstRegs.imageWhole_of_covered (Nat.ne_of_gt (Nat.lt_of_lt_of_le (Nat.succ_pos _) hmin)) rfl, rfl, rfl⟩

/-! ## BOOT_RELAY_REQUEST -/

theorem bootRelayRequest_asks {s : State} {port : Nat} (hport : port < 18) (hstate : s.rst.state = .boot) (hstrap : s.rst.bootStrap = true)
    (hhost : s.rst.bootHost = false) (hfw : s.rst.fwRunning = false) (hactive : (s.port port).state = .active) (hwhole : s.rst.imageWhole = false) :
    let total := if s.rst.bootTotal = 0 then 1048576 else s.rst.bootTotal
    ∃ (t : State) (lo hi : Nat), exec (.bootRelayRequest port) s = .next t ∧
      lo ≤ hi ∧ hi ≤ total ∧ (∀ i, i < lo → s.rst.holds i = true) ∧ (∀ i, lo ≤ i → i < hi → s.rst.holds i = false) ∧
      (hi = total ∨ s.rst.holds hi = true) ∧ (s.rst.bootTotal ≠ 0 → lo < hi) ∧
      t.rst = { s.rst with bootMsg := s.rst.bootMsg + 1 } ∧ t.data = s.data ∧
      t = ({ s with rst := t.rst } : State).queueControl port
        (controlFlit 0xFFFF 0xFFFF 1 1 s.rst.bootMsg.toNat 0 1 ([1, 0, 0, 0] ++ leBytes 4 lo ++ leBytes 4 (hi - lo))) := by
  intro total
  let lo := s.rst.firstAt false total total 0
  obtain ⟨-, hlo, hheld, hlomiss⟩ := s.rst.firstAt_spec false (total := total) total 0 (Nat.zero_add _)
  obtain ⟨hlohi, hhi, hmiss, hend⟩ := s.rst.firstAt_spec true (total := total) (total - lo) lo (Nat.add_sub_cancel' hlo)
  refine ⟨_, lo, s.rst.firstAt true total (total - lo) lo, congrArg Host.Outcome.next (if_pos ?_), hlohi, hhi, fun i hi => hheld i (Nat.zero_le _) hi,
    hmiss, hend, fun htotal => ?_, ?_, ?_, ?_⟩
  · simp [hport, hstate, hstrap, hhost, hfw, hactive, hwhole]
  · have htotal' : total = s.rst.bootTotal := if_neg htotal
    have hne : lo ≠ total := fun heq => by
      rw [RstRegs.imageWhole, bne_iff_ne.2 htotal, Bool.true_and, beq_eq_false_iff_ne, ← htotal'] at hwhole
      exact hwhole heq
    refine lt_of_le_of_ne hlohi (fun heq => ?_)
    have hmissing : s.rst.holds lo = false := hlomiss.resolve_left hne
    rw [← heq] at hend
    exact Bool.false_ne_true (hmissing.symm.trans (hend.resolve_left hne))
  · rfl
  · rfl
  · rfl

/-! ## IMAGE_VERIFY (Table 17-6) -/

section
variable (s : State) (m : List Byte)

/-- Step 1: the image's form. -/
def imageFormed : Prop :=
  4096 ≤ m.length ∧ fld m 0 4 = 0x57465658 ∧ fld m 4 2 = 1 ∧ fld m 6 2 = 4096 ∧ fld m 8 4 = m.length ∧
    fld m 0x14 12 = 0 ∧ fld m 0x28 24 = 0 ∧ fld m 0x741 63 = 0 ∧ fld m 0xC80 896 = 0
/-- Step 2: its key is the root's. -/
def imageRooted : Prop := shake256 32 ((m.drop 0x40).take 1793) = sized 32 Config.rootHash
/-- Step 3: its signature. -/
def imageSigned : Prop :=
  falconVerify ((m.drop 0x40).take 1793) (m.take 0x780 ++ List.replicate 1280 0 ++ m.drop 0xC80) ((m.drop 0x780).take 1280) = true
/-- Step 4: its version. -/
def State.imageCurrent : Prop := s.sec.arb.toNat ≤ fld m 0xC 4 ∧ fld m 0xC 4 ≤ 64

variable {s m}

theorem imageFormed_iff : imageFormed m ↔ ¬ (decide (m.length < 4096) || decide (fld m 0 4 ≠ 0x57465658) || decide (fld m 4 2 ≠ 1) ||
    decide (fld m 6 2 ≠ 4096) || decide (fld m 8 4 ≠ m.length) ||
    !(zeroAt m 0x14 12 && zeroAt m 0x28 24 && zeroAt m 0x741 63 && zeroAt m 0xC80 896)) = true := by
  simp only [imageFormed, zeroAt, Bool.or_eq_true, decide_eq_true_iff, not_or, not_lt, not_not, Bool.not_eq_true', Bool.not_eq_false, Bool.and_eq_true,
    beq_iff_eq, and_assoc]

theorem State.imageCurrent_iff : s.imageCurrent m ↔ ¬ (decide (fld m 0xC 4 < s.sec.arb.toNat) || decide (64 < fld m 0xC 4)) = true := by
  simp only [State.imageCurrent, Bool.or_eq_true, decide_eq_true_iff, not_or, not_lt]

theorem State.imageCode_unformed (h : ¬ imageFormed m) : s.imageCode m = 0x701 := if_pos (not_not.1 (imageFormed_iff.not.1 h))

section
variable (hformed : imageFormed m)
include hformed

theorem State.imageCode_unrooted (h : ¬ imageRooted m) : s.imageCode m = 0x702 := (if_neg (imageFormed_iff.1 hformed)).trans (if_pos h)

variable (hrooted : imageRooted m)
include hrooted

theorem State.imageCode_unsigned (h : ¬ imageSigned m) : s.imageCode m = 0x703 := by
  refine (if_neg (imageFormed_iff.1 hformed)).trans ((if_neg (not_not_intro hrooted)).trans (if_pos ?_))
  rwa [Bool.not_eq_true', ← Bool.not_eq_true]

variable (hsigned : imageSigned m)
include hsigned

theorem State.imageCode_signed :
    s.imageCode m = if (decide (fld m 0xC 4 < s.sec.arb.toNat) || decide (64 < fld m 0xC 4)) = true then 0x704 else 0 := by
  refine (if_neg (imageFormed_iff.1 hformed)).trans ((if_neg (not_not_intro hrooted)).trans (if_neg ?_))
  rwa [Bool.not_eq_true', Bool.not_eq_false]

theorem State.imageCode_old (h : ¬ s.imageCurrent m) : s.imageCode m = 0x704 :=
  (State.imageCode_signed hformed hrooted hsigned).trans (if_pos (not_not.1 (State.imageCurrent_iff.not.1 h)))
theorem State.imageCode_good (h : s.imageCurrent m) : s.imageCode m = 0 :=
  (State.imageCode_signed hformed hrooted hsigned).trans (if_neg (State.imageCurrent_iff.1 h))

end
end

/-- The image that the part holds. -/
def State.imageHeld (s : State) : List Byte := readBytes s.rst.bootBuf 0 s.rst.bootTotal

/-- Firmware starts from the image held. -/
def State.firmwareStarts (s : State) : State :=
  { s with
    rst := { s.rst with fwRunning := true }
    sec := { s.sec with fwValid := true, fwDigest := shake256 32 s.imageHeld, fwSvn := BitVec.ofNat 7 (fld s.imageHeld 0xC 4) } }
/-- The image held is dropped with a code. -/
def State.imageDropped (s : State) (code : W16) : State :=
  { s with
    rst := { s.rst with reason := code, bootBuf := [], bootHave := [], bootTotal := 0, bootHost := false }
    sec := { s.sec with reason := code } }

theorem exec_imageVerify {s : State} (hstate : s.rst.state = .boot) (hfw : s.rst.fwRunning = false) (hwhole : s.rst.imageWhole = true) :
    exec .imageVerify s = .next (if s.imageCode s.imageHeld = 0 then s.firmwareStarts else s.imageDropped (BitVec.ofNat 16 (s.imageCode s.imageHeld))) :=
  congrArg Host.Outcome.next (if_neg (by simp [hstate, hfw, hwhole]))

/-- Settles O56: a search for the first byte held or missing gives the range asked for, and the checks of Table 17-6 give one code each. -/
theorem bootImageTaken : Obligations.BootImageTaken := by
  refine ⟨⟨bootGo_answers, fun s port hport hstate hstrap hhost hfw hactive hwhole =>
    bootRelayRequest_asks hport hstate hstrap hhost hfw hactive hwhole⟩, fun s hstate hfw hwhole => ?_⟩
  have hverify := exec_imageVerify hstate hfw hwhole
  intro m key formed rooted signed current bad
  have hbad : ∀ code : Nat, code ≠ 0 → s.imageCode m = code →
      (if s.imageCode s.imageHeld = 0 then s.firmwareStarts else s.imageDropped (BitVec.ofNat 16 (s.imageCode s.imageHeld))) =
        s.imageDropped (BitVec.ofNat 16 code) := fun code hne hcode => by
    rw [show s.imageCode s.imageHeld = code from hcode, if_neg hne]
  refine ⟨_, hverify, fun hgood => ?_, fun hformed => ?_, fun hformed hrooted => ?_, fun hformed hrooted hsigned => ?_,
    fun hformed hrooted hsigned hcurrent => ?_⟩
  · obtain ⟨hformed, hrooted, hsigned, hcurrent⟩ := hgood
    exact if_pos (State.imageCode_good hformed hrooted hsigned hcurrent)
  · exact hbad 0x701 (by decide) (State.imageCode_unformed hformed)
  · exact hbad 0x702 (by decide) (State.imageCode_unrooted hformed hrooted)
  · exact hbad 0x703 (by decide) (State.imageCode_unsigned hformed hrooted hsigned)
  · exact hbad 0x704 (by decide) (State.imageCode_old hformed hrooted hsigned hcurrent)

end Sys2Proof.Machine
end

section
/-! The release sequence (R458, R459; Tables 15-2 and 15-3). -/
namespace Sys2Proof.Machine

open Sys2Proof

/-! ## Where a sequence starts -/

/-- The order of Table 15-3 is that of the domains of a full reset after D00 and D02, and ends with that of a compute-only reset. -/
theorem releaseOrder_eq : [0, 2] ++ fullOrder = releaseOrder := by decide
theorem releaseOrder_drop_full : fullOrder = releaseOrder.drop 2 := by decide
theorem releaseOrder_drop_compute : computeOrder = releaseOrder.drop 11 := by decide

/-! ## Islands that lock -/

theorem getLsbD_lockFold (ds : List Nat) (l : BitVec 36) {k : Nat} (hk : k < 36) :
    (ds.foldl (fun l d => l ||| (1#36 <<< d)) l).getLsbD k = (l.getLsbD k || ds.contains k) := by
  induction ds generalizing l with
  | nil => exact (Bool.or_false _).symm
  | cons d ds ih =>
    have hbit : (1#36 <<< d).getLsbD k = (k == d) := by
      rw [BitVec.getLsbD_shiftLeft, BitVec.getLsbD_one]
      rw [Bool.eq_iff_iff, beq_iff_eq]
      simp only [Bool.and_eq_true, Bool.not_eq_true', decide_eq_true_iff, decide_eq_false_iff_not]
      omega
    rw [List.foldl_cons, ih, BitVec.getLsbD_or, hbit, List.contains_cons, Bool.or_assoc]

/-- The islands of a report that lock: those of domains still to be released that do not stay down, the first one's in time (R458, R459). -/
def State.locking (s : State) (d g : Nat) (left locked : List Nat) : List Nat :=
  locked.filter (fun l => left.contains l && !s.staysDown l && (l != d || decide (s.clk ≤ g + refclk 65536)))

theorem State.contains_locking (s : State) (d g : Nat) (left locked : List Nat) (k : Nat) : (s.locking d g left locked).contains k =
    (locked.contains k && left.contains k && !s.staysDown k && (k != d || decide (s.clk ≤ g + 65536 * 94500))) := by
  rw [Bool.eq_iff_iff, List.contains_iff_mem]
  unfold State.locking refclk
  rw [List.mem_filter, ← List.contains_iff_mem]
  simp only [Bool.and_eq_true, and_assoc]

/-- Once its islands have locked. -/
def State.locked (s : State) (d g : Nat) (left locked : List Nat) : State := s.lockIslands (s.locking d g left locked)

theorem State.getLsbD_locked (s : State) (d g : Nat) (left locked : List Nat) {k : Nat} (hk : k < 36) :
    (s.locked d g left locked).rst.locked.getLsbD k = (s.rst.locked.getLsbD k ||
      (locked.contains k && left.contains k && !s.staysDown k && (k != d || decide (s.clk ≤ g + 65536 * 94500)))) :=
  (getLsbD_lockFold _ _ hk).trans (by rw [s.contains_locking])

/-! ## One release -/

theorem State.clk_pass (s : State) (dt : Nat) : (s.pass dt).clk = s.clk + dt := by
  unfold State.pass
  split
  · next h => rw [h, Nat.add_zero]
  · rfl
theorem State.clk_toClk (s : State) (t : Nat) : (s.toClk t).clk = max s.clk t := by
  rw [State.toClk, State.clk_pass]
  omega

theorem State.onRelease_frame (s : State) (d : Nat) : ∃ tm e m l, s.onRelease d =
    { s with timeOn := tm, es := e, mu := m, lnk := l, rst := { s.rst with owed := if d = 1 then none else s.rst.owed } } := by
  have hports : ∀ (k : Nat), ∃ l, (upTo 6).foldl (fun s j => s.portStart (6 * (k - 6) + j)) s = { s with lnk := l } := fun k => by
    refine List.foldlRecOn (motive := fun t => ∃ l, t = { s with lnk := l }) (upTo 6) (fun s j => s.portStart (6 * (k - 6) + j)) ⟨s.lnk, rfl⟩ ?_
    rintro _ ⟨_, rfl⟩ j _
    unfold State.portStart
    dsimp only
    split <;> exact ⟨_, rfl⟩
  unfold State.onRelease
  split
  · dsimp only
    split
    · obtain ⟨_, he⟩ := State.post_frame { s with timeOn := true, rst := { s.rst with owed := none } } 0x504 none ccAgent 0x401 _
      rw [he]
      exact ⟨_, _, _, _, rfl⟩
    · exact ⟨_, _, _, _, rfl⟩
  · exact ⟨_, _, _, _, rfl⟩
  · obtain ⟨_, he⟩ := hports 6
    exact ⟨_, _, _, _, he⟩
  · obtain ⟨_, he⟩ := hports 7
    exact ⟨_, _, _, _, he⟩
  · obtain ⟨_, he⟩ := hports 8
    exact ⟨_, _, _, _, he⟩
  · next hd _ _ _ _ =>
    refine ⟨s.timeOn, s.es, s.mu, s.lnk, ?_⟩
    rw [if_neg hd]

/-- A domain leaves reset, unless it stays down. -/
def State.released1 (s : State) (d : Nat) : State :=
  if s.staysDown d then s else ({ s with rst := { s.rst with released := s.rst.released ||| (1#36 <<< d) } } : State).onRelease d

theorem State.released1_frame (s : State) (d : Nat) : ∃ tm e m l, s.released1 d =
    { s with timeOn := tm, es := e, mu := m, lnk := l, rst := { s.rst with
      released := if s.staysDown d = true then s.rst.released else s.rst.released ||| 1#36 <<< d
      owed := if d = 1 ∧ ¬ s.staysDown d = true then none else s.rst.owed } } := by
  unfold State.released1
  by_cases h : s.staysDown d = true
  · simp only [h, if_true, not_true_eq_false, and_false, if_false]
    exact ⟨_, _, _, _, rfl⟩
  · obtain ⟨tm, e, m, l, he⟩ := State.onRelease_frame { s with rst := { s.rst with released := s.rst.released ||| (1#36 <<< d) } } d
    refine ⟨tm, e, m, l, ?_⟩
    simp only [h, he, Bool.false_eq_true, if_false, not_false_eq_true, and_true]

/-- A base die of a compute-only reset repairs its lanes. -/
def State.dieRepaired (s : State) (d : Nat) (faults : List LaneFault) : State :=
  if s.rst.computeOnly && 11 ≤ d && d ≤ 18 then s.laneRepair (faults.filter (fun f => f.stack == d - 11)) else s

theorem State.laneRepair_rst (s : State) (faults : List LaneFault) : ∃ st df bd r, (s.laneRepair faults).rst =
    { s.rst with state := st, defect := df, bootDefect := bd, reason := r } ∧ (s.laneRepair faults).data = s.data ∧ (s.laneRepair faults).clk = s.clk := by
  by_cases h : faults.all (fun f => f.spare.isSome) = true
  · obtain ⟨⟨_, _, _, _, _, _, _, _, he⟩, -⟩ := State.laneRepair_spared (s := s) h
    rw [he]
    exact ⟨_, _, _, _, rfl, rfl, rfl⟩
  · obtain ⟨t, ⟨_, _, _, _, _, _, _, _, rfl⟩, he⟩ := State.laneRepair_lost (s := s) (Bool.eq_false_iff.2 h)
    obtain ⟨_, _, hlose⟩ := State.lose_frame _ 0x612
    rw [he, hlose]
    exact ⟨_, _, _, _, rfl, rfl, rfl⟩

theorem State.laneRepair_nil (s : State) : (s.laneRepair []).rst = s.rst := by
  rw [State.laneRepair_eq]
  simp only [List.any_nil, Bool.false_eq_true, if_false, List.foldl_nil, State.showRepairs]

section
variable (s : State) (d : Nat) (faults : List LaneFault)

theorem State.dieRepaired_rst : ∃ st df bd r, (s.dieRepaired d faults).rst = { s.rst with state := st, defect := df, bootDefect := bd, reason := r } ∧
    (s.dieRepaired d faults).data = s.data ∧ (s.dieRepaired d faults).clk = s.clk := by
  unfold State.dieRepaired
  split
  · exact s.laneRepair_rst _
  · exact ⟨_, _, _, _, rfl, rfl, rfl⟩

variable {s d faults}

theorem State.dieRepaired_none (h : s.rst.computeOnly = false ∨ d < 11 ∨ 18 < d ∨ ∀ f ∈ faults, f.stack ≠ d - 11) :
    (s.dieRepaired d faults).rst = s.rst := by
  unfold State.dieRepaired
  split
  · next hdie =>
    have hnone : faults.filter (fun f => f.stack == d - 11) = [] := by
      simp only [Bool.and_eq_true, decide_eq_true_iff] at hdie
      refine List.filter_eq_nil_iff.2 (fun f hf heq => ?_)
      rcases h with h | h | h | h
      · simp [h] at hdie
      · omega
      · omega
      · exact h f hf (eq_of_beq heq)
    rw [hnone, State.laneRepair_nil]
  · rfl

section
variable (hcompute : s.rst.computeOnly = true) (hlo : 11 ≤ d) (hhi : d ≤ 18)
include hcompute hlo hhi

theorem State.dieRepaired_eq : s.dieRepaired d faults = s.laneRepair (faults.filter (fun f => f.stack == d - 11)) :=
  if_pos (by simp [hcompute, hlo, hhi])

theorem State.dieRepaired_spared (h : ∀ f ∈ faults, f.stack = d - 11 → f.spare ≠ none) :
    (s.dieRepaired d faults).rst.state = s.rst.state ∧ (s.dieRepaired d faults).mem.lost = s.mem.lost := by
  have hall : (faults.filter (fun f => f.stack == d - 11)).all (fun f => f.spare.isSome) = true := by
    simp only [List.all_eq_true, List.mem_filter, beq_iff_eq, and_imp]
    exact fun f hf hstack => Option.isSome_iff_ne_none.2 (h f hf hstack)
  obtain ⟨⟨_, _, _, _, _, _, _, _, he⟩, hlost⟩ := State.laneRepair_spared (s := s) hall
  rw [State.dieRepaired_eq hcompute hlo hhi]
  exact ⟨by rw [he], hlost⟩

theorem State.dieRepaired_lost {f : LaneFault} (hf : f ∈ faults) (hstack : f.stack = d - 11) (hspare : f.spare = none) (hoff : s.rst.state ≠ .off) :
    (s.dieRepaired d faults).rst.state = .lost := by
  have hnot : (faults.filter (fun f => f.stack == d - 11)).all (fun f => f.spare.isSome) = false := by
    refine List.all_eq_false.2 ⟨f, List.mem_filter.2 ⟨hf, beq_iff_eq.2 hstack⟩, ?_⟩
    simp [hspare]
  obtain ⟨t, ⟨_, _, _, _, _, _, _, _, rfl⟩, he⟩ := State.laneRepair_lost (s := s) hnot
  obtain ⟨_, _, hlose⟩ := State.lose_frame _ 0x612
  rw [State.dieRepaired_eq hcompute hlo hhi, he, hlose]
  exact if_neg hoff

end
end

theorem State.releaseNext_eq (s : State) (d e : Nat) (rest : List Nat) (up : Bool) (faults : List LaneFault) :
    s.releaseNext d (e :: rest) up faults = ((s.released1 d).dieRepaired d faults).setSeq (some
      { left := e :: rest, risen := up && e != 1,
        gapEnd := ((s.released1 d).dieRepaired d faults).clk + (if up && e == 1 then 0 else gapAfter d e) }) := rfl
theorem State.releaseNext_last (s : State) (d : Nat) (up : Bool) (faults : List LaneFault) :
    s.releaseNext d [] up faults = ((s.released1 d).dieRepaired d faults).sequenceDone := rfl

/-! ## DOMAIN_RELEASE -/

section
variable {s : State} {d g : Nat} {rest locked : List Nat} {up : Bool} (faults : List LaneFault)

theorem exec_domainRelease (hseq : s.rst.seq = some { left := d :: rest, gapEnd := g, risen := up }) (hlow : s.rst.resetLow = false)
    (htest : s.rst.testEn = false) : exec (.domainRelease ⟨locked, faults⟩) s = .next
      (if s.staysDown d || (s.locked d g (d :: rest) locked).rst.locked.getLsbD d then
        ((s.locked d g (d :: rest) locked).toClk g).releaseNext d rest up faults
      else s.locked d g (d :: rest) locked) := by
  have hheld : s.heldInReset d = false := by simp [State.heldInReset, hlow, htest]
  change execDomainRelease ⟨locked, faults⟩ s = _
  unfold execDomainRelease
  rw [hseq]
  exact congrArg Host.Outcome.next (if_neg (Bool.eq_false_iff.1 hheld))

variable {faults}

theorem releasable_locks (h : releasable s d g locked) :
    (s.staysDown d || (s.locked d g (d :: rest) locked).rst.locked.getLsbD d) = true := by
  by_cases hstays : s.staysDown d = true
  · rw [hstays, Bool.true_or]
  · rw [Bool.not_eq_true] at hstays
    rcases h with h | h | ⟨hmem, hd, hclk⟩
    · exact absurd (hstays.symm.trans h) Bool.false_ne_true
    · have hd : d < 36 := by
        by_contra hge
        rw [BitVec.getLsbD_of_ge _ _ (not_lt.1 hge)] at h
        exact Bool.false_ne_true h
      rw [s.getLsbD_locked _ _ _ _ hd, h, Bool.true_or, Bool.or_true]
    · rw [s.getLsbD_locked _ _ _ _ hd]
      simp [hmem, hstays, hclk]

/-- What stands before the release itself: time at the end of the gap, the islands locked. -/
theorem State.gapOver_frame (s : State) (d g : Nat) (left locked : List Nat) :
    ((s.locked d g left locked).toClk g).rst = (s.locked d g left locked).rst ∧ ((s.locked d g left locked).toClk g).data = s.data ∧
      ((s.locked d g left locked).toClk g).clk = max s.clk g ∧ (∀ k, ((s.locked d g left locked).toClk g).staysDown k = s.staysDown k) ∧
      ((s.locked d g left locked).toClk g).mem.lost = s.mem.lost := by
  have hclk := (s.locked d g left locked).clk_toClk g
  obtain ⟨⟨_, _, _, _, _, _, _, _, _, _, _, _, he⟩, -⟩ := (s.locked d g left locked).drifts_toClk g
  rw [he] at hclk ⊢
  exact ⟨rfl, rfl, hclk, fun _ => rfl, rfl⟩

theorem domainRelease_next {e : Nat} (hseq : s.rst.seq = some { left := d :: e :: rest, gapEnd := g, risen := up }) (hlow : s.rst.resetLow = false)
    (htest : s.rst.testEn = false) (h : releasable s d g locked) (faults : List LaneFault) :
    let stays := s.staysDown d = true
    let released := if stays then s.rst.released else s.rst.released ||| 1#36 <<< d
    let seq : Release := { left := e :: rest, risen := up && e != 1,
                           gapEnd := max s.clk g + (if up && e == 1 then 0 else if releaseGroup d = releaseGroup e then 512 else 4096) * 94500 }
    ∃ t, exec (.domainRelease ⟨locked, faults⟩) s = .next t ∧ t.clk = max s.clk g ∧ t.data = s.data ∧
      islandsLock s t d g (d :: e :: rest) locked ∧ t.rst.released = released ∧ t.rst.seq = some seq ∧
      (s.rst.computeOnly = false ∨ d < 11 ∨ 18 < d ∨ (∀ f ∈ faults, f.stack ≠ d - 11) → t.rst = { s.rst with
        released := released, locked := t.rst.locked, owed := if d = 1 ∧ ¬ stays then none else s.rst.owed, seq := some seq }) ∧
      (s.rst.computeOnly = true → 11 ≤ d → d ≤ 18 →
        ((∀ f ∈ faults, f.stack = d - 11 → f.spare ≠ none) → t.rst.state = s.rst.state ∧ t.mem.lost = s.mem.lost) ∧
        (∀ f ∈ faults, f.stack = d - 11 → f.spare = none → s.rst.state ≠ .off → t.rst.state = .lost)) := by
  intro stays released seq
  have hexec := (exec_domainRelease (locked := locked) faults hseq hlow htest).trans (congrArg Host.Outcome.next (if_pos (releasable_locks h)))
  rw [State.releaseNext_eq] at hexec
  obtain ⟨hrst, hdata, hclk, hstays, hlost⟩ := s.gapOver_frame d g (d :: e :: rest) locked
  have hlocked := fun k (hk : k < 36) => s.getLsbD_locked d g (d :: e :: rest) locked hk
  obtain ⟨_, _, _, _, hleft⟩ := State.released1_frame ((s.locked d g (d :: e :: rest) locked).toClk g) d
  generalize (s.locked d g (d :: e :: rest) locked).toClk g = u at hexec hrst hdata hclk hstays hleft hlost
  rw [hstays] at hleft
  have hvrst : (u.released1 d).rst = { (s.locked d g (d :: e :: rest) locked).rst with
      released := released, owed := if d = 1 ∧ ¬ stays then none else s.rst.owed } := by
    rw [hleft, hrst]
    rfl
  have hvdata : (u.released1 d).data = s.data := by
    rw [hleft]
    exact hdata
  have hvclk : (u.released1 d).clk = max s.clk g := by
    rw [hleft]
    exact hclk
  have hvlost : (u.released1 d).mem.lost = s.mem.lost := by
    rw [hleft]
    exact hlost
  generalize u.released1 d = v at hexec hvrst hvdata hvclk hvlost
  have hcompute : v.rst.computeOnly = s.rst.computeOnly := by rw [hvrst]; rfl
  have hstate : v.rst.state = s.rst.state := by rw [hvrst]; rfl
  obtain ⟨_, _, _, _, hwrst, hwdata, hwclk⟩ := v.dieRepaired_rst d faults
  have hseq : (some { left := e :: rest, risen := up && e != 1, gapEnd := (v.dieRepaired d faults).clk + (if up && e == 1 then 0 else gapAfter d e) } :
      Option Release) = some seq := by
    unfold seq
    rw [hwclk, hvclk]
    unfold gapAfter refclk
    split
    · rw [Nat.zero_mul]
    · rfl
  rw [hseq] at hexec
  refine ⟨_, hexec, hwclk.trans hvclk, hwdata.trans hvdata, fun k hk => ?_, ?_, rfl, fun hnone => ?_, fun hcomp hlo hhi => ⟨fun hspared => ?_,
    fun f hf hstack hspare hoff => ?_⟩⟩
  · have hw : (v.dieRepaired d faults).rst.locked = (s.locked d g (d :: e :: rest) locked).rst.locked := by rw [hwrst, hvrst]
    exact (congrArg (fun l : BitVec 36 => l.getLsbD k) hw).trans (hlocked k hk)
  · have hw : (v.dieRepaired d faults).rst.released = released := by rw [hwrst, hvrst]
    exact hw
  · have hw : (v.dieRepaired d faults).rst = v.rst := State.dieRepaired_none (by rwa [hcompute])
    unfold State.setSeq
    rw [hw, hvrst]
    rfl
  · obtain ⟨hst, hlo'⟩ := State.dieRepaired_spared (hcompute.trans hcomp) hlo hhi hspared
    exact ⟨hst.trans hstate, hlo'.trans hvlost⟩
  · exact State.dieRepaired_lost (hcompute.trans hcomp) hlo hhi hf hstack hspare (by rwa [hstate])

theorem domainRelease_unlocked (hseq : s.rst.seq = some { left := d :: rest, gapEnd := g, risen := up }) (hlow : s.rst.resetLow = false)
    (htest : s.rst.testEn = false) (hstays : s.staysDown d = false) (hunlocked : s.rst.locked.getLsbD d = false)
    (hlate : d ∉ locked ∨ g + 65536 * 94500 < s.clk) (faults : List LaneFault) :
    ∃ t, exec (.domainRelease ⟨locked, faults⟩) s = .next t ∧ islandsLock s t d g (d :: rest) locked ∧
      ({ t with rst := { t.rst with locked := s.rst.locked } } : State) = s := by
  have hno : (s.staysDown d || (s.locked d g (d :: rest) locked).rst.locked.getLsbD d) = false := by
    rw [hstays, Bool.false_or]
    by_cases hd : d < 36
    · rw [s.getLsbD_locked _ _ _ _ hd, hunlocked]
      rcases hlate with hmem | hclk
      · simp [hmem]
      · simp [hclk]
    · exact BitVec.getLsbD_of_ge _ _ (not_lt.1 hd)
  exact ⟨_, (exec_domainRelease faults hseq hlow htest).trans (congrArg Host.Outcome.next (if_neg (Bool.eq_false_iff.1 hno))),
    fun k hk => s.getLsbD_locked d g (d :: rest) locked hk, rfl⟩

/-! ## The last release -/

/-- No release sequence is under way any more. -/
def State.noSeq (s : State) : State := { s with rst := { s.rst with seq := none, computeOnly := false } }

theorem State.noSeq_full {s : State} (h : s.rst.computeOnly = false) : s.setSeq none = s.noSeq := by
  unfold State.setSeq State.noSeq
  rw [← h]

theorem State.sequenceDone_eq (s : State) :
    s.sequenceDone = if s.rst.state = .reset then s.noSeq.setPState (if s.rst.computeOnly then .ready else .boot) 0 else s.noSeq := by
  by_cases h : s.rst.computeOnly = true
  · rw [if_pos h]
    exact if_pos h
  · rw [if_neg h, ← State.noSeq_full (Bool.not_eq_true _ ▸ h)]
    exact if_neg h

theorem State.sequenceDone_frame (s : State) : ∃ h e, s.sequenceDone = { s with hif := h, es := e, rst := { s.rst with
    seq := none, computeOnly := false, state := if s.rst.state ≠ .reset then s.rst.state else if s.rst.computeOnly then .ready else .boot } } := by
  rw [State.sequenceDone_eq]
  by_cases hreset : s.rst.state = .reset
  · obtain ⟨h, e, he, -⟩ := s.noSeq.setPState_frame (if s.rst.computeOnly then .ready else .boot) 0 63
    rw [if_pos hreset, if_neg (not_not_intro hreset), he]
    exact ⟨h, e, rfl⟩
  · rw [if_neg hreset, if_pos hreset]
    exact ⟨_, _, rfl⟩

/-- The island of the last domain locks, unless the domain stays down. -/
theorem State.locked_last (h : releasable s d g locked) (hhi : d < 36) :
    (s.locked d g [d] locked).rst.locked = if s.staysDown d = true then s.rst.locked else s.rst.locked ||| 1#36 <<< d := by
  have hbit : ∀ k, k < 36 → (1#36 <<< d).getLsbD k = (k == d) := fun k hk => by
    have hfold := getLsbD_lockFold [d] 0#36 hk
    rwa [List.foldl_cons, List.foldl_nil, BitVec.zero_or, BitVec.getLsbD_zero, Bool.false_or, List.contains_cons, List.contains_nil, Bool.or_false]
      at hfold
  refine BitVec.eq_of_getLsbD_eq (fun k hk => ?_)
  rw [s.getLsbD_locked _ _ _ _ hk]
  by_cases hk' : k = d
  · subst hk'
    by_cases hstays : s.staysDown k = true
    · simp [hstays]
    · have hlocks := releasable_locks (rest := []) h
      rw [Bool.not_eq_true] at hstays
      rw [s.getLsbD_locked _ _ _ _ hk, hstays, Bool.false_or] at hlocks
      rw [hstays, hlocks, if_neg Bool.false_ne_true, BitVec.getLsbD_or, hbit k hk, beq_self_eq_true, Bool.or_true]
  · by_cases hstays : s.staysDown d = true
    · simp [hstays, hk']
    · rw [if_neg hstays, BitVec.getLsbD_or, hbit k hk]
      simp [hk']

theorem domainRelease_last (hseq : s.rst.seq = some { left := [d], gapEnd := g, risen := up }) (hlow : s.rst.resetLow = false)
    (htest : s.rst.testEn = false) (hlo : 18 < d) (hhi : d < 36) (h : releasable s d g locked) (faults : List LaneFault) :
    let down (x : BitVec 36) := if s.staysDown d = true then x else x ||| 1#36 <<< d
    ∃ t, exec (.domainRelease ⟨locked, faults⟩) s = .next t ∧ t.clk = max s.clk g ∧ t.data = s.data ∧ t.rst = { s.rst with
      released := down s.rst.released, locked := down s.rst.locked, seq := none, computeOnly := false,
      state := if s.rst.state ≠ .reset then s.rst.state else if s.rst.computeOnly then .ready else .boot } := by
  intro down
  have hexec := (exec_domainRelease (locked := locked) faults hseq hlow htest).trans (congrArg Host.Outcome.next (if_pos (releasable_locks h)))
  rw [State.releaseNext_last] at hexec
  obtain ⟨hrst, hdata, hclk, hstays, hlost⟩ := s.gapOver_frame d g [d] locked
  have hlocked := State.locked_last h hhi
  obtain ⟨_, _, _, _, hleft⟩ := State.released1_frame ((s.locked d g [d] locked).toClk g) d
  generalize (s.locked d g [d] locked).toClk g = u at hexec hrst hdata hclk hstays hleft
  rw [hstays] at hleft
  have hdie : (u.released1 d).dieRepaired d faults = u.released1 d := if_neg (by simp [Nat.not_le.2 hlo])
  obtain ⟨_, _, hdone⟩ := (u.released1 d).sequenceDone_frame
  rw [hdie, hdone, hleft] at hexec
  refine ⟨_, hexec, hclk, hdata, ?_⟩
  have hd : ¬ (d = 1 ∧ ¬ s.staysDown d = true) := fun h => by omega
  simp only [if_neg hd]
  rw [hrst]
  unfold down
  rw [← hlocked]
  rfl

end

/-! ## LOCK_TIMEOUT -/

/-- A sequence that has stopped at a domain, before the part state follows. -/
def State.stoppedAt (s : State) (d : Nat) (left : List Nat) : State :=
  { s with rst := { s.rst with
    seq := none, kept := left, reason := 0x401, domain := BitVec.ofNat 6 d, earlyStop := d == 1 || d == 3
    owed := if d = 1 then some (PState.code .halted + s.rst.state.code * 16 + d * 256) else s.rst.owed } }

theorem State.clk_setPState (s : State) (st : PState) (r d : Nat) : (s.setPState st r d).clk = s.clk := by
  obtain ⟨_, _, he, -⟩ := s.setPState_frame st r d
  rw [he]
theorem State.data_setPState (s : State) (st : PState) (r d : Nat) : (s.setPState st r d).data = s.data := by
  obtain ⟨_, _, he, -⟩ := s.setPState_frame st r d
  rw [he]
theorem State.rst_setPState (s : State) (st : PState) (r d : Nat) : (s.setPState st r d).rst = { s.rst with state := st } := by
  obtain ⟨_, _, he, -⟩ := s.setPState_frame st r d
  rw [he]
theorem State.clk_stoppedAt (s : State) (d : Nat) (left : List Nat) : (s.stoppedAt d left).clk = s.clk := rfl
theorem State.data_stoppedAt (s : State) (d : Nat) (left : List Nat) : (s.stoppedAt d left).data = s.data := rfl

/-- A sequence stops at a domain: the part is halted, unless it is lost. -/
def State.stopAt (s : State) (d : Nat) (left : List Nat) : State :=
  let owed := if d = 1 then some (PState.code .halted + s.rst.state.code * 16 + d * 256) else s.rst.owed
  let s : State := { s with rst := { s.rst with
    seq := none, kept := left, reason := 0x401, domain := BitVec.ofNat 6 d, earlyStop := d == 1 || d == 3, owed := owed } }
  if s.rst.state = .lost then s else s.setPState .halted 0x401 d

theorem State.stopAt_eq {s : State} (d : Nat) (left : List Nat) (h : s.rst.state ≠ .lost) :
    s.stopAt d left = (s.stoppedAt d left).setPState .halted 0x401 d := if_neg h

theorem exec_lockTimeout {s : State} {q : Release} {d : Nat} {rest : List Nat} (hseq : s.rst.seq = some q) (hleft : q.left = d :: rest) :
    exec .lockTimeout s = .next
      (if (!s.heldInReset d && !s.staysDown d && !s.rst.locked.getLsbD d) = true then (s.toClk q.limit).stopAt d (d :: rest) else s) := by
  change execLockTimeout s = _
  unfold execLockTimeout
  split
  · next q' hq =>
    obtain rfl : q = q' := Option.some.inj (hseq.symm.trans hq)
    split
    · next d' rest' hq' =>
      obtain ⟨rfl, rfl⟩ : d = d' ∧ rest = rest' := List.cons_eq_cons.1 (hleft.symm.trans hq')
      rw [hleft]
      exact congrArg (fun t => Host.Outcome.next (ite _ t s)) (rfl : _ = State.stopAt _ d (d :: rest))
    · next hnil => exact absurd (hleft.symm.trans hnil) (List.cons_ne_nil _ _)
  · next hnone => exact absurd (hseq.symm.trans hnone) nofun

/-- The moment at which a sequence stops waiting for the lock of its first domain. -/
theorem Release.limit_eq (left : List Nat) (g : Nat) (up : Bool) : Release.limit ⟨left, g, up⟩ = g + 65536 * 94500 := by
  have h : ∀ q : Release, q.limit = q.gapEnd + 65536 * 94500 := fun q => by rw [Release.limit, refclk]
  exact (h _).trans (congrArg (fun x => x + 65536 * 94500) rfl)

section
variable {s : State} {d g : Nat} {rest : List Nat} {up : Bool} (hseq : s.rst.seq = some { left := d :: rest, gapEnd := g, risen := up })
include hseq

theorem exec_lockTimeout_locked (hlocked : s.rst.locked.getLsbD d = true) : exec .lockTimeout s = .next s :=
  (exec_lockTimeout hseq rfl).trans (congrArg Host.Outcome.next (if_neg (by simp [hlocked])))

variable (hlow : s.rst.resetLow = false) (htest : s.rst.testEn = false) (hstays : s.staysDown d = false) (hlost : s.rst.state ≠ .lost)
include hlow htest hstays hlost

theorem exec_lockTimeout_unlocked (hunlocked : s.rst.locked.getLsbD d = false) :
    exec .lockTimeout s = .next (((s.toClk (Release.limit ⟨d :: rest, g, up⟩)).stoppedAt d (d :: rest)).setPState .halted 0x401 d) := by
  have hheld : s.heldInReset d = false := by simp [State.heldInReset, hlow, htest]
  have hexec := (exec_lockTimeout hseq rfl).trans (congrArg Host.Outcome.next (if_pos (by simp [hheld, hstays, hunlocked])))
  obtain ⟨-, -, -, hrst, -⟩ := (s.drifts_toClk (Release.limit ⟨d :: rest, g, up⟩)).frame
  rwa [State.stopAt_eq _ _ fun h => hlost ((congrArg RstRegs.state hrst).symm.trans h)] at hexec

theorem lockTimeout_stops (hunlocked : s.rst.locked.getLsbD d = false) :
    ∃ t, exec .lockTimeout s = .next t ∧ t.clk = max s.clk (g + 65536 * 94500) ∧ t.data = s.data ∧
      t.rst = { s.rst with state := .halted, reason := 0x401, domain := BitVec.ofNat 6 d, seq := none, kept := d :: rest, earlyStop := d == 1 || d == 3,
                           owed := if d = 1 then some (PState.code .halted + s.rst.state.code * 16 + d * 256) else s.rst.owed } := by
  have hexec := exec_lockTimeout_unlocked hseq hlow htest hstays hlost hunlocked
  obtain ⟨-, hdata, -, hrst, -⟩ := (s.drifts_toClk (Release.limit ⟨d :: rest, g, up⟩)).frame
  have hclk := s.clk_toClk (Release.limit ⟨d :: rest, g, up⟩)
  rw [← Release.limit_eq (d :: rest) g up]
  generalize Release.limit ⟨d :: rest, g, up⟩ = lim at hexec hdata hrst hclk ⊢
  generalize s.toClk lim = u at hexec hdata hrst hclk
  refine ⟨_, hexec, ?_, ?_, ?_⟩
  · rw [State.clk_setPState, State.clk_stoppedAt, hclk]
  · rw [State.data_setPState, State.data_stoppedAt, hdata]
  · rw [State.rst_setPState, State.stoppedAt, hrst]

end

/-! ## RESET_N rises -/

section
variable {s : State} (src : Bool) (hlow : s.rst.resetLow = true) (hpor : s.rst.porAsserted = false) (htest : s.rst.testEn = false)
include hlow hpor htest

theorem exec_resetNRise_starts (hseq : s.rst.seq = none) : exec (.resetNRise src) s = .next { s with
    rst := { s.rst with resetLow := false, bootStrap := src,
                        seq := some { left := releaseOrder.drop (if s.rst.computeOnly then 11 else 2), gapEnd := s.clk, risen := false } },
    pins := { s.pins with driven := false, hiz := false } } := by
  have hleft : (if s.rst.computeOnly then computeOrder else fullOrder) = releaseOrder.drop (if s.rst.computeOnly then 11 else 2) := by
    split
    · exact releaseOrder_drop_compute
    · exact releaseOrder_drop_full
  rw [← hleft]
  refine congrArg Host.Outcome.next ((if_neg (by simp [hlow])).trans ((if_neg ?_).trans ?_))
  · change ¬ (s.rst.porAsserted || s.rst.testEn) = true
    simp [hpor, htest]
  · dsimp only [State.scanPins]
    rw [hseq]
    rfl

theorem exec_resetNRise_goesOn {q : Release} (hseq : s.rst.seq = some q) : ∃ t, exec (.resetNRise src) s = .next t ∧
    t.rst.seq = some (if q.left.head? = some 1 then { q with gapEnd := s.clk } else { q with risen := true }) := by
  refine ⟨_, congrArg Host.Outcome.next ((if_neg (by simp [hlow])).trans ((if_neg ?_).trans rfl)), ?_⟩
  · change ¬ (s.rst.porAsserted || s.rst.testEn) = true
    simp [hpor, htest]
  · dsimp only [State.scanPins]
    rw [hseq]
    rfl

end

theorem exec_resetNRise_high {s : State} (src : Bool) (h : s.rst.resetLow = false) : exec (.resetNRise src) s = .next s :=
  congrArg Host.Outcome.next (if_pos (by simp [h]))

theorem exec_powerOnResetEnd {s : State} (h : s.rst.porAsserted = true) : exec .powerOnResetEnd s = .next
    { s with rst := { s.rst with porAsserted := false, seq := some { left := releaseOrder, gapEnd := s.clk, risen := false } } } := by
  rw [← releaseOrder_eq]
  exact congrArg Host.Outcome.next (if_pos h)
theorem exec_powerOnResetEnd_not {s : State} (h : s.rst.porAsserted = false) : exec .powerOnResetEnd s = .next s :=
  congrArg Host.Outcome.next (if_neg (Bool.eq_false_iff.1 h))

/-- Settles O55: what a release sets going changes neither the sequence nor the islands, and time alone passes before it. -/
theorem releaseSequence : Obligations.ReleaseSequence := by
  refine fun s => ⟨exec_powerOnResetEnd, exec_powerOnResetEnd_not, fun src h => exec_resetNRise_high src h,
    fun src hlow hpor htest hseq => exec_resetNRise_starts src hlow hpor htest hseq,
    fun src q hlow hpor htest hseq => exec_resetNRise_goesOn src hlow hpor htest hseq,
    fun d e g rest locked faults up hseq hlow htest h => domainRelease_next hseq hlow htest h faults,
    fun d g locked faults up hseq hlow htest hlo hhi h => domainRelease_last hseq hlow htest hlo hhi h faults,
    fun d g rest locked faults up hseq hlow htest hstays hunlocked hlate => domainRelease_unlocked hseq hlow htest hstays hunlocked hlate faults,
    fun d g rest up hseq hlow htest hstays hlost => ⟨lockTimeout_stops hseq hlow htest hstays hlost, exec_lockTimeout_locked hseq⟩,
    fun hseq => ⟨fun locked faults => ?_, ?_⟩⟩
  · change execDomainRelease ⟨locked, faults⟩ s = _
    unfold execDomainRelease
    rw [hseq]
  · change execLockTimeout s = _
    unfold execLockTimeout
    rw [hseq]

end Sys2Proof.Machine
end

section
/-! What a compute-only reset loses and keeps (R451, R456, R457; Table 15-2). -/
namespace Sys2Proof.Machine

open Sys2Proof

/-! ## What the steps of a compute-only reset leave alone -/

/-- The registers of D02, the layout, the page tables and the meter stay. -/
structure State.Lasts (s t : State) : Prop where
  rst : t.rst = s.rst
  layout : t.layout = s.layout
  pte : t.mem.pte = s.mem.pte
  allocs : t.mem.allocs = s.mem.allocs
  mu : t.mu = s.mu

namespace State.Lasts
variable {s t u : State}

theorem refl (s : State) : s.Lasts s := ⟨rfl, rfl, rfl, rfl, rfl⟩
theorem trans (h : s.Lasts t) (h' : t.Lasts u) : s.Lasts u :=
  ⟨h'.rst.trans h.rst, h'.layout.trans h.layout, h'.pte.trans h.pte, h'.allocs.trans h.allocs, h'.mu.trans h.mu⟩
theorem foldl {α : Type} {f : State → α → State} (h : ∀ s x, State.Lasts s (f s x)) (l : List α) (s : State) : s.Lasts (l.foldl f s) := by
  induction l generalizing s with
  | nil => exact refl s
  | cons x l ih => exact (h s x).trans (ih _)

end State.Lasts

theorem State.Stores.lasts {s t : State} (h : s.Stores t) : s.Lasts t := by
  obtain ⟨_, _, _, _, rfl⟩ := h
  exact ⟨rfl, rfl, rfl, rfl, rfl⟩
theorem State.RunOver.lasts {p : Nat} {s t : State} (h : s.RunOver p t) : s.Lasts t := by
  obtain ⟨_, _, _, _, _, _, _, _, _, _, _, _, rfl⟩ := h.rest
  exact ⟨rfl, rfl, rfl, rfl, rfl⟩
theorem State.Sheds.lasts {s t : State} (h : s.Sheds t) : s.Lasts t := by
  obtain ⟨⟨_, rfl⟩, -⟩ := h
  exact ⟨rfl, rfl, rfl, rfl, rfl⟩

theorem State.lasts_complete (s : State) (ring tag stamp part status reason value detail : Nat) :
    s.Lasts (s.complete ring tag stamp part status reason value detail) := ⟨rfl, rfl, rfl, rfl, rfl⟩

theorem State.lasts_dropHeld (s : State) (of : Nat → WeirReq → Bool) : s.Lasts (s.dropHeld of) := by
  have hheld : s.Lasts ((s.mem.held.map (·.1)).foldl (fun s k => s.putHeld k ((s.weirHeld k).filter (fun r => !of (k % 16) r))) s) :=
    .foldl (f := fun s k => s.putHeld k ((s.weirHeld k).filter (fun r => !of (k % 16) r))) (fun _ _ => ⟨rfl, rfl, rfl, rfl, rfl⟩) _ s
  exact hheld.trans ⟨rfl, rfl, rfl, rfl, rfl⟩

theorem State.lasts_endLinks (s : State) (p : Nat) : s.Lasts (s.endLinks p) :=
  (s.lasts_dropHeld (fun o r => o == p && agKind r.agent == 4)).trans ⟨rfl, rfl, rfl, rfl, rfl⟩

theorem State.lasts_clearDomain (s : State) (d : Nat) : s.Lasts (s.clearDomain d) := by
  unfold State.clearDomain
  split
  · exact (s.sheds_dropEngines _).lasts.trans ⟨rfl, rfl, rfl, rfl, rfl⟩
  · split
    · obtain ⟨_, _, _, _, _, he, -⟩ := s.clearField_eq (d - 19)
      rw [he]
      exact ⟨rfl, rfl, rfl, rfl, rfl⟩
    · split <;> exact ⟨rfl, rfl, rfl, rfl, rfl⟩

theorem State.lasts_cutUpdate (s : State) (e : Nat) : s.Lasts (s.cutUpdate e) := by
  unfold State.cutUpdate
  split
  · exact .refl s
  · refine State.Lasts.trans (.foldl ?_ _ s) ⟨rfl, rfl, rfl, rfl, rfl⟩
    refine fun s l => .foldl (fun s x => ?_) l s
    exact (s.stores_devWrite x.1 x.2).lasts

theorem State.lasts_endSwitches (s : State) (status reason : Nat) : s.Lasts (s.endSwitches status reason) := by
  unfold State.endSwitches
  dsimp only
  refine State.Lasts.trans ?_ (.foldl ?_ _ _)
  · exact ⟨rfl, rfl, rfl, rfl, rfl⟩
  · refine fun s w => .foldl (fun s t => ?_) _ s
    exact s.lasts_complete ..

/-! ## Runs cut off (Table 15-2, step 2) -/

/-- A partition whose formes are disabled and whose actions and cache requests are gone. -/
def Part.cutOff (x : Part) : Part :=
  { x with cacheQ := [], resident := x.resident.map (fun r => { r with enabled := false }), flights := [], nans := [] }

/-- A partition cut off: its cache requests completed, its formes disabled, its link actions and flights ended. -/
def State.cutOff (s : State) (p : Nat) : State :=
  let x := s.part p
  let s := match s.cset p with
    | some c => if x.cset.isSome then s.clearPending c else s
    | none => s
  let s := x.cacheQ.foldl (fun s r => s.complete r.ring r.tag r.stamp p stReset 0 0 0) (s.modPart p (fun x => { x with cacheQ := [] }))
  ((s.modPart p (fun x => { x with resident := x.resident.map (fun r => { r with enabled := false }) })).endLinks p).endFlights p

theorem State.cutRun_eq (s : State) (p : Nat) : s.cutRun p =
    if (s.part p).status = .idle then s.cutOff p
    else if (s.part p).status = .starting then
      ((s.cutOff p).modPart p (fun x => { x with status := .idle, cur := 0, image := [] })).complete
        (s.part p).swRing (s.part p).swTag (s.part p).swStamp p stReset 0 0 0
    else ((s.cutOff p).modPart p (fun x => { x with arrivals := [], abandoned := true })).endRun p stReset 0 (s.part p).slot 0 := rfl

/-- What the end of a partition's run leaves alone: the other partitions, the registration of its cache, and, where there is none, device and host
memory. -/
structure State.Cuts (p : Nat) (s t : State) : Prop where
  lasts : s.Lasts t
  cset : (t.part p).cset = (s.part p).cset
  others : ∀ q, q ≠ p → t.part q = s.part q
  outer : (s.part p).cset = none → t.data.dev = s.data.dev ∧ t.data.host = s.data.host

namespace State.Cuts
variable {p : Nat} {s t u : State}

theorem refl (p : Nat) (s : State) : s.Cuts p s := ⟨.refl s, rfl, fun _ _ => rfl, fun _ => ⟨rfl, rfl⟩⟩
theorem trans (h : s.Cuts p t) (h' : t.Cuts p u) : s.Cuts p u where
  lasts := h.lasts.trans h'.lasts
  cset := h'.cset.trans h.cset
  others q hq := (h'.others q hq).trans (h.others q hq)
  outer hnone := by
    obtain ⟨hdev, hhost⟩ := h.outer hnone
    obtain ⟨hdev', hhost'⟩ := h'.outer (h.cset.trans hnone)
    exact ⟨hdev'.trans hdev, hhost'.trans hhost⟩
theorem foldl {α : Type} {f : State → α → State} (h : ∀ s x, State.Cuts p s (f s x)) (l : List α) (s : State) : s.Cuts p (l.foldl f s) := by
  induction l generalizing s with
  | nil => exact refl p s
  | cons x l ih => exact (h s x).trans (ih _)

end State.Cuts

theorem State.cuts_complete (p : Nat) (s : State) (ring tag stamp part status reason value detail : Nat) :
    s.Cuts p (s.complete ring tag stamp part status reason value detail) := ⟨s.lasts_complete .., rfl, fun _ _ => rfl, fun _ => ⟨rfl, rfl⟩⟩
theorem State.cuts_modPart (s : State) (p : Nat) (f : Part → Part) (h : (f (s.part p)).cset = (s.part p).cset) : s.Cuts p (s.modPart p f) :=
  ⟨⟨rfl, rfl, rfl, rfl, rfl⟩, (congrArg Part.cset (s.part_modPart p f)).trans h, fun _ hq => s.part_modPart_ne f hq, fun _ => ⟨rfl, rfl⟩⟩
theorem State.parts_endLinks (s : State) (p : Nat) : (s.endLinks p).parts = s.parts := by
  obtain ⟨_, _, _, _, _, _, _, he⟩ := s.clears_endLinks p
  rw [he]
theorem State.part_endLinks (s : State) (p q : Nat) : (s.endLinks p).part q = s.part q := by
  rw [State.part, s.parts_endLinks]
  rfl
theorem State.cuts_endLinks (s : State) (p : Nat) : s.Cuts p (s.endLinks p) := by
  refine ⟨s.lasts_endLinks p, by rw [s.part_endLinks], fun q _ => s.part_endLinks p q, fun _ => ?_⟩
  obtain ⟨_, _, _, _, _, _, _, he⟩ := s.clears_endLinks p
  rw [he]
  exact ⟨rfl, rfl⟩
theorem State.cuts_endRun (s : State) (p status reason value detail : Nat) : s.Cuts p (s.endRun p status reason value detail) := by
  have h := s.runOver_endRun p status reason value detail
  refine ⟨h.lasts, ?_, h.others, fun hnone => ?_⟩
  · obtain ⟨_, hown⟩ := h.own
    rw [hown]
    rfl
  · rw [State.endRun_data status reason value detail (Or.inl hnone)]
    exact ⟨rfl, rfl⟩

/-- Steps of sequences that stood for a run cut off stand for it no more. -/
def State.unpended (s : State) (p : Nat) : State := match s.cset p with
  | some c => if (s.part p).cset.isSome then s.clearPending c else s
  | none => s

theorem State.cset_none {s : State} {p : Nat} (h : (s.part p).cset = none) : s.cset p = none := by
  rw [State.cset, h]
  rfl

theorem State.stores_unpended (s : State) (p : Nat) : s.Stores (s.unpended p) := by
  unfold State.unpended
  split
  · split
    · exact s.stores_clearPending _
    · exact .refl s
  · exact .refl s

theorem State.cuts_unpended (s : State) (p : Nat) : s.Cuts p (s.unpended p) := by
  have h := s.stores_unpended p
  refine ⟨h.lasts, congrArg Part.cset (h.part p), fun q _ => h.part q, fun hnone => ?_⟩
  rw [State.unpended, State.cset_none hnone]
  exact ⟨rfl, rfl⟩

/-- The cache requests of a partition complete RESET. -/
def State.requestsEnded (s : State) (p : Nat) (q : List CacheReq) : State :=
  q.foldl (fun s r => s.complete r.ring r.tag r.stamp p stReset 0 0 0) (s.modPart p (fun x => { x with cacheQ := [] }))

theorem State.part_completeAll (p : Nat) (q : List CacheReq) (s : State) (r : Nat) :
    (q.foldl (fun s r => s.complete r.ring r.tag r.stamp p stReset 0 0 0) s).part r = s.part r := by
  induction q generalizing s with
  | nil => rfl
  | cons x q ih => exact (ih _).trans rfl

theorem State.cutOff_eq (s : State) (p : Nat) : s.cutOff p =
    ((((s.unpended p).requestsEnded p (s.part p).cacheQ).modPart p
      (fun x => { x with resident := x.resident.map (fun r => { r with enabled := false }) })).endLinks p).endFlights p := rfl

theorem State.cuts_cutOff (s : State) (p : Nat) : s.Cuts p (s.cutOff p) := by
  rw [State.cutOff_eq]
  have hrequests : (s.unpended p).Cuts p ((s.unpended p).requestsEnded p (s.part p).cacheQ) :=
    ((s.unpended p).cuts_modPart p (fun x => { x with cacheQ := [] }) rfl).trans (.foldl (fun s r => s.cuts_complete p ..) _ _)
  refine ((s.cuts_unpended p).trans hrequests).trans ?_
  generalize (s.unpended p).requestsEnded p (s.part p).cacheQ = u
  exact ((u.cuts_modPart p _ rfl).trans (State.cuts_endLinks _ p)).trans (State.cuts_modPart _ p _ rfl)

theorem State.part_cutOff (s : State) (p : Nat) : (s.cutOff p).part p = (s.part p).cutOff := by
  rw [State.cutOff_eq, State.endFlights, State.part_modPart, State.part_endLinks, State.part_modPart, State.requestsEnded, State.part_completeAll,
    State.part_modPart, (s.stores_unpended p).part]
  rfl

theorem State.cuts_cutRun (s : State) (p : Nat) : s.Cuts p (s.cutRun p) := by
  rw [State.cutRun_eq]
  split
  · exact s.cuts_cutOff p
  · split
    · exact ((s.cuts_cutOff p).trans (State.cuts_modPart _ p _ rfl)).trans (State.cuts_complete p ..)
    · exact ((s.cuts_cutOff p).trans (State.cuts_modPart _ p _ rfl)).trans (State.cuts_endRun ..)

/-- No forme of an idle partition is enabled. -/
def Part.stopped (x : Part) : Prop := x.status = .idle ∧ ∀ r ∈ x.resident, r.enabled = false

theorem Part.cutOff_disabled (x : Part) : ∀ r ∈ x.cutOff.resident, r.enabled = false := by
  intro r hr
  obtain ⟨r', -, rfl⟩ := List.mem_map.1 hr
  rfl

theorem State.cutRun_stops (s : State) (p : Nat) : ((s.cutRun p).part p).stopped := by
  have hdisabled := (s.part p).cutOff_disabled
  rw [← s.part_cutOff p] at hdisabled
  rw [State.cutRun_eq]
  split
  · next hidle =>
    exact ⟨(congrArg Part.status (s.part_cutOff p)).trans hidle, hdisabled⟩
  · split
    · rw [State.part_complete, State.part_modPart]
      exact ⟨rfl, hdisabled⟩
    · obtain ⟨_, hown⟩ := (((s.cutOff p).modPart p (fun x => { x with arrivals := [], abandoned := true })).runOver_endRun p stReset 0 (s.part p).slot 0).own
      rw [hown, State.part_modPart]
      exact ⟨rfl, hdisabled⟩

/-! ## Memories of the domains held -/

theorem State.data_dropEngines (s : State) (gone : Nat → Bool) : (s.dropEngines gone).data = s.data := by
  obtain ⟨⟨_, he⟩, -⟩ := s.sheds_dropEngines gone
  rw [he]

theorem State.data_clearStack (s : State) (k : Nat) : (s.clearStack k).data = { s.data with
    sram := tclear s.data.sram (sramAt (32 * k) 0) (32 * sramBytes), sramP := tclear s.data.sramP (sramAt (32 * k) 0 / 8) (32 * sramBytes / 8)
    scalar := tclear s.data.scalar (scalarAt (32 * k)) (32 * 64), scalarP := tclear s.data.scalarP (scalarAt (32 * k) / 8) (32 * 8) } := by
  unfold State.clearStack
  dsimp only
  rw [s.data_dropEngines]

theorem State.data_clearField (s : State) (f : Nat) : (s.clearField f).data = { (s.zeroGalleys f).data with
    core := tclear s.data.core (coreAt (f * 64) 0) (64 * coreBytes), coreP := tclear s.data.coreP (coreAt (f * 64) 0 / 8) (64 * coreBytes / 8) } := by
  unfold State.clearField
  dsimp only
  rw [State.data_dropEngines]
  rfl

/-- A memory of the part is lost with one domain, and no other domain brings it back. -/
theorem State.clearDomain_keeps {P : Data → Prop} (hstack : ∀ (s : State) k, P s.data → P (s.clearStack k).data)
    (hfield : ∀ (s : State) f, P s.data → P (s.clearField f).data) (hstores : ∀ s : State, P s.data → P s.clearStores.data) (s : State) (d : Nat)
    (h : P s.data) : P (s.clearDomain d).data := by
  unfold State.clearDomain
  split
  · exact hstack s _ h
  · split
    · exact hfield s _ h
    · split
      · exact hstores s h
      · exact h

theorem State.clearDomain_stack (s : State) {k : Nat} (h : k < 8) : s.clearDomain (11 + k) = s.clearStack k := by
  refine (if_pos ?_).trans (by rw [Nat.add_sub_cancel_left])
  rw [Bool.and_eq_true, decide_eq_true_iff, decide_eq_true_iff]
  omega
theorem State.clearDomain_field (s : State) {f : Nat} (h : f < 16) : s.clearDomain (19 + f) = s.clearField f := by
  refine (if_neg ?_).trans ((if_pos ?_).trans (by rw [Nat.add_sub_cancel_left]))
  · rw [Bool.and_eq_true, decide_eq_true_iff, decide_eq_true_iff]
    omega
  · rw [Bool.and_eq_true, decide_eq_true_iff, decide_eq_true_iff]
    omega
theorem State.clearDomain_stores (s : State) : s.clearDomain 35 = s.clearStores := rfl

theorem mem_computeOrder {d : Nat} : d ∈ computeOrder ↔ 11 ≤ d ∧ d ≤ 35 := by
  rw [releaseOrder_drop_compute]
  simp only [releaseOrder, List.cons_append, List.nil_append, List.drop_succ_cons, List.drop_zero, List.mem_cons, List.not_mem_nil, or_false]
  omega

theorem State.clearDomain_core (s : State) {c off : Nat} (hc : c < 1024) (hoff : off < coreBytes) :
    tget 0 (s.clearDomain (19 + c / 64)).data.core (coreAt c off) = 0 := by
  rw [s.clearDomain_field (by omega), s.data_clearField]
  refine tget_tclear_in _ _ ?_
  unfold coreAt coreBytes at *
  omega
theorem State.clearDomain_sram (s : State) {e off : Nat} (he : e < 256) (hoff : off < sramBytes) :
    tget 0 (s.clearDomain (11 + e / 32)).data.sram (sramAt e off) = 0 := by
  rw [s.clearDomain_stack (by omega), s.data_clearStack]
  refine tget_tclear_in _ _ ?_
  unfold sramAt sramBytes at *
  omega

/-- Every domain of a compute-only reset loses its state. -/
def State.heldDown (s : State) : State := computeOrder.foldl (fun s d => s.clearDomain d) s

section
variable (s : State)

theorem State.heldDown_loses {P : Data → Prop} {d : Nat} (hd : 11 ≤ d ∧ d ≤ 35) (hstack : ∀ (s : State) k, P s.data → P (s.clearStack k).data)
    (hfield : ∀ (s : State) f, P s.data → P (s.clearField f).data) (hstores : ∀ s : State, P s.data → P s.clearStores.data)
    (hloses : ∀ s : State, P (s.clearDomain d).data) : P s.heldDown.data :=
  foldl_brings (P := fun s : State => P s.data) (fun s d h => s.clearDomain_keeps hstack hfield hstores d h) hloses (mem_computeOrder.2 hd) s

theorem State.heldDown_core {c off : Nat} (hc : c < 1024) (hoff : off < coreBytes) : tget 0 s.heldDown.data.core (coreAt c off) = 0 := by
  refine s.heldDown_loses (P := fun d => tget 0 d.core (coreAt c off) = 0) (d := 19 + c / 64) (by omega) (fun s k h => ?_) (fun s f h => ?_) (fun s h => h)
    (fun s => ?_)
  · rw [s.data_clearStack]
    exact h
  · rw [s.data_clearField]
    exact tget_tclear_zero _ _ h
  · exact s.clearDomain_core hc hoff

theorem State.heldDown_galley {c g r k : Nat} (hc : c < 1024) (hg : g < 2) (hr : r < 128) (hk : k < 192) :
    tget 0 s.heldDown.data.galley (galElem c g r k) = 0 := by
  refine s.heldDown_loses (P := fun d => tget 0 d.galley (galElem c g r k) = 0) (d := 19 + c / 64) (by omega) (fun s k h => ?_) (fun s f h => ?_)
    (fun s h => h) (fun s => ?_)
  · rw [s.data_clearStack]
    exact h
  · rw [s.data_clearField]
    exact tget_tclear_zero _ _ h
  · rw [s.clearDomain_field (by omega), s.data_clearField]
    refine tget_tclear_in _ _ ?_
    unfold galElem galKey
    omega

theorem State.heldDown_sram {e off : Nat} (he : e < 256) (hoff : off < sramBytes) : tget 0 s.heldDown.data.sram (sramAt e off) = 0 := by
  refine s.heldDown_loses (P := fun d => tget 0 d.sram (sramAt e off) = 0) (d := 11 + e / 32) (by omega) (fun s k h => ?_) (fun s f h => ?_) (fun s h => h)
    (fun s => ?_)
  · rw [s.data_clearStack]
    exact tget_tclear_zero _ _ h
  · rw [s.data_clearField]
    exact h
  · exact s.clearDomain_sram he hoff

theorem State.heldDown_store : s.heldDown.data.store = [] := by
  refine s.heldDown_loses (P := fun d => d.store = []) (d := 35) (by omega) (fun s k h => ?_) (fun s f h => ?_) (fun s h => rfl) (fun s => rfl)
  · rw [s.data_clearStack]
    exact h
  · rw [s.data_clearField]
    exact h

theorem State.heldDown_outer : s.heldDown.data.dev = s.data.dev ∧ s.heldDown.data.host = s.data.host := by
  refine List.foldlRecOn (motive := fun t : State => t.data.dev = s.data.dev ∧ t.data.host = s.data.host) _ _ ⟨rfl, rfl⟩ (fun t ht d _ => ?_)
  refine t.clearDomain_keeps (P := fun x => x.dev = s.data.dev ∧ x.host = s.data.host) (fun s k h => ?_) (fun s f h => ?_) (fun s h => h) d ht
  · rw [s.data_clearStack]
    exact h
  · rw [s.data_clearField]
    exact h

theorem State.lasts_heldDown : s.Lasts s.heldDown := .foldl (fun s d => s.lasts_clearDomain d) _ s

/-- A partition that has stopped stays so while domains lose their state. -/
theorem State.stopped_heldDown {p : Nat} (h : (s.part p).stopped) : (s.heldDown.part p).stopped := by
  have hsheds : ∀ (t : State) (gone : Nat → Bool), (t.part p).stopped → ((t.dropEngines gone).part p).stopped := fun t gone ht => by
    obtain ⟨hstatus, hresident, -, -⟩ := (t.sheds_dropEngines gone).2 p
    unfold Part.stopped
    rw [hstatus, hresident]
    exact ht
  refine List.foldlRecOn (motive := fun t : State => (t.part p).stopped) _ _ h (fun t ht d _ => ?_)
  unfold State.clearDomain
  split
  · exact hsheds _ _ ht
  · split
    · exact hsheds _ _ ht
    · split <;> exact ht

end

/-! ## The compute-only reset -/

/-- A part in READY or RUN goes to RESET. -/
def State.halting (s : State) : State := if s.rst.state = .ready || s.rst.state = .run then s.setPState .reset 0 else s

theorem State.halting_frame (s : State) : ∃ h e, s.halting = { s with hif := h, es := e, rst := { s.rst with
    state := if s.rst.state = .ready ∨ s.rst.state = .run then .reset else s.rst.state } } := by
  unfold State.halting
  by_cases h : s.rst.state = .ready ∨ s.rst.state = .run
  · obtain ⟨hif, e, he, -⟩ := s.setPState_frame .reset 0 63
    refine ⟨hif, e, (if_pos (by simpa using h)).trans ?_⟩
    rw [if_pos h]
    exact he
  · refine ⟨s.hif, s.es, (if_neg (by simpa using h)).trans ?_⟩
    rw [if_neg h]

theorem State.halting_stays (s : State) : s.halting.data = s.data ∧ s.halting.parts = s.parts ∧ s.halting.updating = s.updating ∧
    s.halting.layout = s.layout ∧ s.halting.mem = s.mem ∧ s.halting.mu = s.mu := by
  obtain ⟨_, _, he⟩ := s.halting_frame
  rw [he]
  exact ⟨rfl, rfl, rfl, rfl, rfl, rfl⟩
theorem State.halting_rst (s : State) :
    s.halting.rst = { s.rst with state := if s.rst.state = .ready ∨ s.rst.state = .run then .reset else s.rst.state } := by
  obtain ⟨_, _, he⟩ := s.halting_frame
  rw [he]

/-- Every update engine stops, every run is cut off, and the SWITCH commands that wait end. -/
def State.runsCut (s : State) : State :=
  (partNums.foldl (fun s p => s.cutRun p) ((s.updating.map (·.1)).foldl (fun s e => s.cutUpdate e) s)).endSwitches stReset 0

/-- The registers of D02 once the domains are held, and what waits at the weirs. -/
def State.computeHeld (s : State) : State :=
  let keep (t : Tab (List WeirReq)) : Tab (List WeirReq) := (t.map (fun e =>
    (e.1, if 256 ≤ e.1 / 16 ∧ e.1 % 16 = 8 then e.2 else e.2.filter (fun r => r.agent == ccAgent)))).filter (fun e => e.2 != [])
  { s with
    accq := [], serving := []
    mem := { s.mem with
      queue := keep s.mem.queue, held := keep s.mem.held
      waits := (s.mem.waits.map (fun e => (e.1, e.2.filter (fun x => x.2.agent == ccAgent)))).filter (fun e => e.2 != []) }
    rst := { s.rst with
      cause := 3, computeOnly := true, seq := none, kept := []
      released := s.rst.released &&& 0x7FF, locked := s.rst.locked &&& 0x7FF
      renewing := none, renewState := if s.rst.renewing.isSome then 3 else s.rst.renewState } }

theorem State.computeReset_eq (s : State) : s.computeReset = s.halting.runsCut.heldDown.computeHeld := by
  unfold State.computeReset State.computeHeld State.heldDown State.runsCut State.halting
  rfl

theorem State.lasts_runsCut (s : State) : s.Lasts s.runsCut := by
  refine State.Lasts.trans ?_ (State.lasts_endSwitches ..)
  exact (State.Lasts.foldl (fun s e => s.lasts_cutUpdate e) _ s).trans (.foldl (fun s p => (s.cuts_cutRun p).lasts) _ _)

theorem State.part_endSwitches (s : State) (status reason q : Nat) : (s.endSwitches status reason).part q = s.part q := by
  unfold State.endSwitches
  dsimp only
  refine List.foldlRecOn (motive := fun t : State => t.part q = s.part q) _ _ rfl (fun t ht w _ => ?_)
  exact List.foldlRecOn (motive := fun t : State => t.part q = s.part q) _ _ ht (fun u hu x _ => hu)

theorem State.data_endSwitches (s : State) (status reason : Nat) : (s.endSwitches status reason).data = s.data := by
  unfold State.endSwitches
  dsimp only
  refine List.foldlRecOn (motive := fun t : State => t.data = s.data) _ _ rfl (fun t ht w _ => ?_)
  exact List.foldlRecOn (motive := fun t : State => t.data = s.data) _ _ ht (fun u hu x _ => hu)

theorem State.runsCut_stops (s : State) {p : Nat} (hp : p < 8) : (s.runsCut.part p).stopped := by
  unfold State.runsCut
  rw [State.part_endSwitches]
  refine foldl_brings (P := fun t : State => (t.part p).stopped) (fun t q ht => ?_) (fun t => t.cutRun_stops p) (mem_partNums.2 hp) _
  by_cases hq : p = q
  · subst hq
    exact t.cutRun_stops p
  · rw [(t.cuts_cutRun q).others p hq]
    exact ht

/-- No step of a run stands in a cache set, and no update engine is stopped in mid-array: device and host memory stay. -/
theorem State.runsCut_outer {s : State} (hcset : ∀ p, p < 8 → (s.part p).cset = none) (hupdating : s.updating = []) :
    s.runsCut.data.dev = s.data.dev ∧ s.runsCut.data.host = s.data.host := by
  unfold State.runsCut
  rw [State.data_endSwitches, hupdating, List.map_nil, List.foldl_nil]
  refine (List.foldlRecOn (motive := fun t : State => (∀ p, p < 8 → (t.part p).cset = none) ∧ t.data.dev = s.data.dev ∧ t.data.host = s.data.host)
    partNums (fun s p => s.cutRun p) ⟨hcset, rfl, rfl⟩ ?_).2
  rintro t ⟨hnone, hdev, hhost⟩ q hq
  have hcuts := t.cuts_cutRun q
  obtain ⟨hdev', hhost'⟩ := hcuts.outer (hnone q (mem_partNums.1 hq))
  refine ⟨fun p hp => ?_, hdev'.trans hdev, hhost'.trans hhost⟩
  by_cases hpq : p = q
  · subst hpq
    exact hcuts.cset.trans (hnone p hp)
  · rw [hcuts.others p hpq]
    exact hnone p hp

theorem State.heldDown_runsCut_outer {s : State} (hcset : ∀ p, p < 8 → (s.part p).cset = none) (hupdating : s.updating = []) :
    s.runsCut.heldDown.data.dev = s.data.dev ∧ s.runsCut.heldDown.data.host = s.data.host := by
  obtain ⟨hdev, hhost⟩ := s.runsCut.heldDown_outer
  obtain ⟨hdev', hhost'⟩ := State.runsCut_outer hcset hupdating
  exact ⟨hdev.trans hdev', hhost.trans hhost'⟩

theorem State.cset_none_iff {s : State} {p : Nat} : s.cset p = none ↔ (s.part p).cset = none := Option.map_eq_none_iff

theorem exec_resetNFall_compute {s : State} (hlow : s.rst.resetLow = false) (hpor : s.rst.porAsserted = false) (htest : s.rst.testEn = false)
    (hready : s.rst.everReady = true) (hseq : s.rst.seq = none) :
    exec (.resetNFall true) s = .next
      ({ s with rst := { s.rst with resetLow := true, scopeStrap := true } } : State).scanPins.halting.runsCut.heldDown.computeHeld := by
  rw [← State.computeReset_eq]
  refine congrArg Host.Outcome.next ((if_neg (by simp [hlow])).trans ((if_neg ?_).trans (if_pos ?_)))
  · change ¬ (s.rst.porAsserted || s.rst.testEn) = true
    simp [hpor, htest]
  · change (true && s.rst.everReady && !(s.rst.seq.isSome && !s.rst.computeOnly)) = true
    simp [hready, hseq]

theorem computeReset_loses (s : State) (hpor : s.rst.porAsserted = false) (hlow : s.rst.resetLow = false) (htest : s.rst.testEn = false)
    (hready : s.rst.everReady = true) (hseq : s.rst.seq = none) : ∃ t, exec (.resetNFall true) s = .next t ∧
      t.rst.cause = 3 ∧ t.rst.computeOnly = true ∧ t.rst.resetLow = true ∧ t.rst.scopeStrap = true ∧
      t.rst.released = s.rst.released &&& 0x7FF ∧ t.rst.locked = s.rst.locked &&& 0x7FF ∧
      (s.rst.state = .ready ∨ s.rst.state = .run → t.rst.state = .reset) ∧
      (s.rst.state ≠ .ready → s.rst.state ≠ .run → t.rst.state = s.rst.state) ∧
      (∀ p, p < 8 → (t.part p).status = .idle ∧ ∀ r ∈ (t.part p).resident, r.enabled = false) ∧
      (∀ c off, c < 1024 → off < coreBytes → tget 0 t.data.core (coreAt c off) = 0) ∧
      (∀ c g r k, c < 1024 → g < 2 → r < 128 → k < 192 → tget 0 t.data.galley (galElem c g r k) = 0) ∧
      (∀ e off, e < 256 → off < sramBytes → tget 0 t.data.sram (sramAt e off) = 0) ∧
      t.data.store = [] ∧ t.accq = [] ∧ t.serving = [] ∧
      t.layout = s.layout ∧ t.mem.pte = s.mem.pte ∧ t.mem.allocs = s.mem.allocs ∧ t.rst.defect = s.rst.defect ∧ t.mu = s.mu ∧
      ((∀ p, p < 8 → s.cset p = none) → s.updating = [] → t.data.dev = s.data.dev ∧ t.data.host = s.data.host) := by
  let low : State := ({ s with rst := { s.rst with resetLow := true, scopeStrap := true } } : State).scanPins
  have hlasts : low.halting.Lasts low.halting.runsCut.heldDown := low.halting.lasts_runsCut.trans low.halting.runsCut.lasts_heldDown
  have hrst : low.halting.runsCut.heldDown.rst = { s.rst with
      resetLow := true, scopeStrap := true, state := if s.rst.state = .ready ∨ s.rst.state = .run then .reset else s.rst.state } :=
    hlasts.rst.trans low.halting_rst
  obtain ⟨hdata, hparts, hupd, hlayout, hmem, hmu⟩ := low.halting_stays
  have hexec : exec (.resetNFall true) s = .next low.halting.runsCut.heldDown.computeHeld := exec_resetNFall_compute hlow hpor htest hready hseq
  have hstops := fun p hp => low.halting.runsCut.stopped_heldDown (low.halting.runsCut_stops (p := p) hp)
  have hcore := fun c off hc hoff => low.halting.runsCut.heldDown_core (c := c) (off := off) hc hoff
  have hgalley := fun c g r k hc hg hr hk => low.halting.runsCut.heldDown_galley (c := c) (g := g) (r := r) (k := k) hc hg hr hk
  have hsram := fun e off he hoff => low.halting.runsCut.heldDown_sram (e := e) (off := off) he hoff
  have hstore := low.halting.runsCut.heldDown_store
  have houter : (∀ p, p < 8 → s.cset p = none) → s.updating = [] → low.halting.runsCut.heldDown.data.dev = s.data.dev ∧ low.halting.runsCut.heldDown.data.host = s.data.host := by
    intro hcset hupdating
    have hnone : ∀ p, p < 8 → (low.halting.part p).cset = none := fun p hp => by
      have hpart : low.halting.part p = s.part p := congrArg (fun ps : Tab Part => tget Part.init ps p) hparts
      rw [hpart]
      exact State.cset_none_iff.1 (hcset p hp)
    obtain ⟨hdev, hhost⟩ := State.heldDown_runsCut_outer hnone (hupd.trans hupdating)
    exact ⟨hdev.trans (congrArg Data.dev hdata), hhost.trans (congrArg Data.host hdata)⟩
  generalize low.halting.runsCut.heldDown = v at hexec hrst hlasts hstops hcore hgalley hsram hstore houter
  refine ⟨_, hexec, rfl, rfl, ?_, ?_, ?_, ?_, fun hrun => ?_, fun hr hrun => ?_, hstops, hcore, hgalley, hsram, hstore, rfl, rfl, ?_, ?_, ?_, ?_, ?_, houter⟩
  · exact congrArg RstRegs.resetLow hrst
  · exact congrArg RstRegs.scopeStrap hrst
  · have hreleased : v.rst.released = s.rst.released := by rw [hrst]
    exact congrArg (· &&& 0x7FF) hreleased
  · have hlocked : v.rst.locked = s.rst.locked := by rw [hrst]
    exact congrArg (· &&& 0x7FF) hlocked
  · exact (congrArg RstRegs.state hrst).trans (if_pos hrun)
  · exact (congrArg RstRegs.state hrst).trans (if_neg (not_or.2 ⟨hr, hrun⟩))
  · exact hlasts.layout.trans hlayout
  · exact hlasts.pte.trans (congrArg MemRegs.pte hmem)
  · exact hlasts.allocs.trans (congrArg MemRegs.allocs hmem)
  · have hdefect : v.rst.defect = s.rst.defect := by rw [hrst]
    exact hdefect
  · exact hlasts.mu.trans hmu

end Sys2Proof.Machine
end

section
/-! What a full reset loses and keeps (R450, R451, R455; Table 15-1). -/
namespace Sys2Proof.Machine

open Sys2Proof

/-! ## The domains of failed fields -/

theorem tget_offDoms (c : Nat → Bool) (l : List Nat) (t : Tab Dom) (f : Nat) :
    tget Dom.reset (l.foldl (fun t f => if c f then tset Dom.reset t (19 + f) { Dom.reset with st := .off } else t) t) (19 + f) =
      if l.contains f && c f then { Dom.reset with st := .off } else tget Dom.reset t (19 + f) := by
  induction l generalizing t with
  | nil => rfl
  | cons x l ih =>
    refine (ih _).trans ?_
    by_cases hx : f = x
    · subst hx
      by_cases hc : c f = true
      · simp [hc, tget_tset_same]
      · simp [hc]
    · have hne : 19 + f ≠ 19 + x := by omega
      by_cases hc : c x = true
      · simp [hc, tget_tset_ne _ _ _ hne, hx]
      · simp [hc, hx]

/-- The machine without a repair held for one boot. -/
def State.unrepaired (s : State) : State := { s with rst := { s.rst with bootDefect := [] } }

theorem State.failedDoms_eq (s : State) : s.failedDoms = (upTo 16).foldl
    (fun t f => if s.unrepaired.fieldFailed f then tset Dom.reset t (19 + f) { Dom.reset with st := .off } else t) [] := rfl

/-- Where no repair is held for one boot, a field that the fuse map marks failed is Off, every other one On. -/
theorem State.failedDoms_field {s : State} (h : s.rst.bootDefect = []) {f : Nat} (hf : f < 16) :
    (tget Dom.reset s.failedDoms (19 + f)).st = if s.fieldFailed f then .off else .on := by
  have hmem : (upTo 16).contains f = true := by simpa [upTo] using hf
  have hfailed : s.unrepaired.fieldFailed f = s.fieldFailed f := State.fieldFailed_congr (s := s) (t := s.unrepaired) rfl h.symm f
  rw [State.failedDoms_eq, tget_offDoms, hmem, Bool.true_and, hfailed]
  split <;> rfl

/-! ## The state of a full reset -/

/-- D00 of a full reset: the part is in RESET, with its fuses. -/
structure RstRegs.Cold (s r : RstRegs) : Prop where
  state : r.state = .reset
  defect : r.defect = s.defect
  pinmap : r.pinmap = s.pinmap
  bootDefect : r.bootDefect = []
  fwRunning : r.fwRunning = false
  everReady : r.everReady = false

/-- The machine under a full reset with all its domains On. -/
def State.underReset (s : State) (rst : RstRegs) : State :=
  { State.reset with
    pending := s.pending, freeCtr := s.freeCtr + 1, clk := s.clk, mu := s.mu, pins := s.pins,
    rst := rst
    sec := { SecRegs.reset with arb := s.sec.arb, kemCount := s.sec.kemCount, fuses := ⟨s.rst.defect, s.rst.pinmap, s.sec.arb⟩ }, data := s.dataAfter }

/-- The domains of failed fields are Off. -/
def State.withFailed (s : State) : State := { s with pwr := { s.pwr with doms := s.failedDoms } }

theorem State.doms_withFailed (s : State) : s.withFailed.pwr.doms = s.failedDoms := by
  simp only [State.withFailed]

theorem State.cleared_eq (s : State) (r : RstRegs) : s.cleared r = (s.underReset r).withFailed := rfl

theorem State.dom_cleared (s : State) (r r' : RstRegs) (m : MuRegs) (p : PinRegs) (d : Nat) :
    ({ s.cleared r with rst := r', mu := m, pins := p } : State).dom d = tget Dom.reset (s.underReset r).failedDoms d := by
  rw [State.cleared_eq]
  exact congrArg (fun t : Tab Dom => tget Dom.reset t d) (State.doms_withFailed (s.underReset r))

/-- Whatever D00, the meter and the pins hold after it, a full reset leaves the rest of the machine cold. -/
theorem coldFrom_cleared {s : State} {r r' : RstRegs} (m : MuRegs) (p : PinRegs) (hr : s.rst.Cold r) (hr' : s.rst.Cold r') :
    coldFrom s { s.cleared r with rst := r', mu := m, pins := p } := by
  refine ⟨rfl, rfl, rfl, rfl, rfl, rfl, fun f hf => ?_, hr'.state, hr'.defect, hr'.pinmap, hr'.fwRunning, hr'.everReady⟩
  have hunder : (s.underReset r).rst = r := rfl
  have hfailed : (s.underReset r).fieldFailed f = ({ s.cleared r with rst := r', mu := m, pins := p } : State).fieldFailed f :=
    State.fieldFailed_congr (hr.defect.trans hr'.defect.symm) (hr.bootDefect.trans hr'.bootDefect.symm) f
  rw [State.dom_cleared, State.failedDoms_field (by rw [hunder]; exact hr.bootDefect) hf, hfailed]

/-- What RSTC keeps through a full reset. -/
theorem RstRegs.cold_cleared (r : RstRegs) (cause : BitVec 3) : r.Cold (r.cleared cause) := ⟨rfl, rfl, rfl, rfl, rfl, rfl⟩

/-! ## POWER_ON_RESET -/

theorem powerOnReset_cold (s : State) : ∃ t, exec .powerOnReset s = .next t ∧ coldFrom s t ∧ t.rst.cause = 1 ∧ t.rst.released = 0 ∧ t.rst.seq = none ∧
    t.mu.slots = s.mu.slots ∧ t.mu.newest = s.mu.newest ∧ t.mu.alarms = s.mu.alarms &&& 1 ∧ t.pins = { PinRegs.reset with prodTest := s.rst.testEn } := by
  let r : RstRegs := { s.rst.cleared 1 with porAsserted := true, scopeStrap := false, bootStrap := false }
  have hcold : s.rst.Cold r := ⟨rfl, rfl, rfl, rfl, rfl, rfl⟩
  exact ⟨{ s.cleared r with rst := r, mu := s.mu.powerOn s.clk, pins := { PinRegs.reset with prodTest := s.rst.testEn } }, rfl,
    coldFrom_cleared _ _ hcold hcold, rfl, rfl, rfl, rfl, rfl, rfl, rfl⟩

/-! ## RESET_N and TEST_EN in a full reset -/

/-- D00 while RESET_N or TEST_EN holds a full reset. -/
def State.heldRst (s : State) : RstRegs :=
  let r := s.rst.cleared 2
  let kept := s.rst.reason == 0x401 && s.rst.earlyStop
  let hold := (upTo 3).filter (fun d => d != 1 && s.released d)
  { r with
    reason := if kept then s.rst.reason else 0, earlyStop := kept, owed := s.rst.owed, released := BitVec.ofNat 36 (sumNat (hold.map (2 ^ ·))),
    locked := BitVec.ofNat 36 (sumNat (hold.map (2 ^ ·))) }

theorem State.fullReset_eq (s : State) : s.fullReset = s.cleared s.heldRst := rfl

theorem State.cold_heldRst (s : State) : s.rst.Cold s.heldRst := ⟨rfl, rfl, rfl, rfl, rfl, rfl⟩

theorem State.released_heldRst {s : State} (h0 : s.released 0 = true) (h2 : s.released 2 = true) : s.heldRst.released = 5 := by
  have hhold : (upTo 3).filter (fun d => d != 1 && s.released d) = [0, 2] := by
    simp [upTo, List.range_succ, h0, h2]
  unfold State.heldRst
  rw [hhold]
  rfl

theorem State.reason_heldRst (s : State) : s.heldRst.reason = if s.rst.reason = 0x401 ∧ s.rst.earlyStop = true then 0x401 else 0 := by
  unfold State.heldRst
  by_cases h : s.rst.reason = 0x401 ∧ s.rst.earlyStop = true
  · simp [h]
  · simp only [if_neg h]
    refine if_neg ?_
    simpa using h

/-- RESET_N is low, the strap sampled, and the contacts follow. -/
def State.resetLowered (s : State) (scope : Bool) : State := ({ s with rst := { s.rst with resetLow := true, scopeStrap := scope } } : State).scanPins

section
variable {s : State} (hpor : s.rst.porAsserted = false) (htest : s.rst.testEn = false)
include hpor htest

theorem exec_resetNFall_full {scope : Bool} (hlow : s.rst.resetLow = false) (hscope : scope = false ∨ s.rst.everReady = false) :
    exec (.resetNFall scope) s = .next (s.resetLowered scope).holdFull := by
  refine congrArg Host.Outcome.next ((if_neg (by simp [hlow])).trans ((if_neg ?_).trans (if_neg ?_)))
  · change ¬ (s.rst.porAsserted || s.rst.testEn) = true
    simp [hpor, htest]
  · change ¬ (scope && s.rst.everReady && !(s.rst.seq.isSome && !s.rst.computeOnly)) = true
    rcases hscope with h | h <;> simp [h]

theorem exec_testEnHigh_full : exec .testEnHigh s = .next { s.holdFull with
    rst := { s.holdFull.rst with testEn := true, cause := s.rst.cause }, pins := { s.holdFull.pins with prodTest := true } } := by
  refine congrArg Host.Outcome.next ((if_neg (by simp [htest])).trans ?_)
  rw [hpor]
  rfl

end

section
variable {s : State}

theorem State.holdFull_released (h0 : s.released 0 = true) (h2 : s.released 2 = true) : s.holdFull = s.cleared s.heldRst := by
  have hwait : [0, 2].filter (fun d => !s.released d) = [] := by simp [h0, h2]
  unfold State.holdFull
  rw [hwait]
  rfl

/-- The domains that leave a power-on reset in their own time. -/
def State.powerOnLeft (s : State) : List Nat := (if s.released 0 then [2] else [0, 2]) ++ releaseOrder.drop 2

theorem State.holdFull_waits (h2 : s.released 2 = false) : s.holdFull = (s.cleared s.heldRst).startSeq s.powerOnLeft ((s.rst.seq.map (·.gapEnd)).getD s.clk) := by
  have hwait : [0, 2].filter (fun d => !s.released d) = if s.released 0 then [2] else [0, 2] := by
    cases h : s.released 0 <;> simp [h, h2]
  have hempty : (if s.released 0 then [2] else [0, 2] : List Nat).isEmpty = false := by split <;> rfl
  unfold State.holdFull State.powerOnLeft
  rw [hwait, ← releaseOrder_drop_full, ← State.fullReset_eq]
  exact if_neg (by rw [hempty]; exact Bool.false_ne_true)

end

theorem State.cleared_eta (s : State) (r : RstRegs) : ({ s.cleared r with rst := r, mu := s.mu, pins := s.pins } : State) = s.cleared r := by
  simp only [State.cleared]

theorem coldFrom_held (s : State) : coldFrom s (s.cleared s.heldRst) := by
  have hcold := coldFrom_cleared s.mu s.pins s.cold_heldRst s.cold_heldRst
  rwa [State.cleared_eta] at hcold

/-- A sequence that starts with the reset leaves the machine as cold. -/
theorem coldFrom_startSeq (s : State) (left : List Nat) (gapEnd : Nat) : coldFrom s ((s.cleared s.heldRst).startSeq left gapEnd) :=
  coldFrom_cleared (r' := { s.heldRst with seq := some { left := left, gapEnd := gapEnd, risen := false } }) s.mu s.pins s.cold_heldRst
    ⟨rfl, rfl, rfl, rfl, rfl, rfl⟩

theorem coldFrom_testEn (s : State) : coldFrom s { s.cleared s.heldRst with
    rst := { (s.cleared s.heldRst).rst with testEn := true, cause := s.rst.cause }, pins := { (s.cleared s.heldRst).pins with prodTest := true } } :=
  coldFrom_cleared (r' := { s.heldRst with testEn := true, cause := s.rst.cause }) s.mu { s.pins with prodTest := true } s.cold_heldRst
    ⟨rfl, rfl, rfl, rfl, rfl, rfl⟩

/-- Neither the level of RESET_N nor its strap counts for what is lost. -/
theorem coldFrom_resetLowered {s t : State} {scope : Bool} (h : coldFrom (s.resetLowered scope) t) : coldFrom s t := h

theorem fullReset_loses (s : State) :
    (∃ t, exec .powerOnReset s = .next t ∧ coldFrom s t ∧ t.rst.cause = 1 ∧ t.rst.released = 0 ∧ t.rst.seq = none ∧
      t.mu.slots = s.mu.slots ∧ t.mu.newest = s.mu.newest ∧ t.mu.alarms = s.mu.alarms &&& 1 ∧ t.pins = { PinRegs.reset with prodTest := s.rst.testEn }) ∧
    (∀ scope : Bool, s.rst.porAsserted = false → s.rst.resetLow = false → s.rst.testEn = false → s.released 0 = true → s.released 2 = true →
      scope = false ∨ s.rst.everReady = false →
      ∃ t, exec (.resetNFall scope) s = .next t ∧ coldFrom s t ∧ t.rst.cause = 2 ∧ t.rst.released = 5 ∧ t.rst.seq = none ∧ t.rst.resetLow = true ∧
        t.rst.scopeStrap = scope ∧ t.mu = s.mu ∧ ({ t.pins with driven := s.pins.driven, hiz := s.pins.hiz } : PinRegs) = s.pins ∧
        t.rst.owed = s.rst.owed ∧ t.rst.reason = if s.rst.reason = 0x401 ∧ s.rst.earlyStop = true then 0x401 else 0) ∧
    (∀ scope : Bool, s.rst.porAsserted = false → s.rst.resetLow = false → s.rst.testEn = false → s.released 2 = false →
      scope = false ∨ s.rst.everReady = false →
      ∃ t q, exec (.resetNFall scope) s = .next t ∧ coldFrom s t ∧ t.rst.seq = some q ∧ q.risen = false ∧
        q.left = (if s.released 0 then [2] else [0, 2]) ++ releaseOrder.drop 2 ∧ (∀ r, s.rst.seq = some r → q.gapEnd = r.gapEnd)) ∧
    (∀ scope : Bool, s.rst.resetLow = true → exec (.resetNFall scope) s = .next s) ∧
    (s.rst.porAsserted = false → s.rst.testEn = false → s.released 0 = true → s.released 2 = true →
      ∃ t, exec .testEnHigh s = .next t ∧ coldFrom s t ∧ t.rst.cause = s.rst.cause ∧ t.rst.released = 5 ∧ t.rst.testEn = true ∧ t.mu = s.mu ∧
        t.pins = { s.pins with prodTest := true }) ∧
    (s.rst.porAsserted = false → s.rst.testEn = false → s.released 2 = false →
      ∃ t q, exec .testEnHigh s = .next t ∧ t.rst.seq = some q ∧ q.left = (if s.released 0 then [2] else [0, 2]) ++ releaseOrder.drop 2) ∧
    (s.rst.testEn = true → exec .testEnHigh s = .next s) := by
  refine ⟨powerOnReset_cold s, fun scope hpor hlow htest h0 h2 hscope => ?_, fun scope hpor hlow htest h2 hscope => ?_,
    fun scope hlow => congrArg Host.Outcome.next (if_pos hlow), fun hpor htest h0 h2 => ?_, fun hpor htest h2 => ?_,
    fun htest => congrArg Host.Outcome.next (if_pos htest)⟩
  · have hexec := exec_resetNFall_full hpor htest hlow hscope
    rw [State.holdFull_released (s := s.resetLowered scope) h0 h2] at hexec
    have hreleased := State.released_heldRst (s := s.resetLowered scope) h0 h2
    exact ⟨_, hexec, coldFrom_resetLowered (coldFrom_held (s.resetLowered scope)), rfl, hreleased, rfl, rfl, rfl, rfl, rfl, rfl,
      (s.resetLowered scope).reason_heldRst⟩
  · have hexec := exec_resetNFall_full hpor htest hlow hscope
    rw [State.holdFull_waits (s := s.resetLowered scope) h2] at hexec
    refine ⟨_, _, hexec, coldFrom_resetLowered (coldFrom_startSeq (s.resetLowered scope) _ _), rfl, rfl, rfl, fun r hr => ?_⟩
    have hseq : (s.resetLowered scope).rst.seq = some r := hr
    rw [hseq]
    rfl
  · have hexec := exec_testEnHigh_full hpor htest
    rw [State.holdFull_released h0 h2] at hexec
    exact ⟨_, hexec, coldFrom_testEn s, rfl, State.released_heldRst h0 h2, rfl, rfl, rfl⟩
  · have hexec := exec_testEnHigh_full hpor htest
    rw [State.holdFull_waits h2] at hexec
    exact ⟨_, _, hexec, rfl, rfl⟩

/-- Settles O54: every domain is cleared to the same state by a full reset, and a compute-only one clears the memories of D11 to D35 alone. -/
theorem resetsKeepAndLose : Obligations.ResetsKeepAndLose := ⟨fullReset_loses, computeReset_loses⟩

end Sys2Proof.Machine
end

section
/-! Thermal protection (R493 to R498; Table 16-5). -/
namespace Sys2Proof.Machine

open Sys2Proof

/-! ## One reading of a sensor -/

/-- A reading is kept, with the counts of consecutive readings at the two levels. -/
def State.sampled (s : State) (i : Nat) (raw : BitVec 16) (n k : Nat) : State :=
  { s with pwr := { s.pwr with
    temps := tset 0 s.pwr.temps i (BitVec.ofNat 17 (65536 + raw.toNat)), hot := tset 0 s.pwr.hot i (min n 2),
    critHot := tset 0 s.pwr.critHot i (min k 2) } }

section
variable {s : State} {i : Nat} {raw : BitVec 16} (hi : i < 26) (hpor : s.rst.porAsserted = false)
include hi hpor

theorem exec_thermalSample {n k : Nat} (hn : (if tripLevel ≤ toSigned 16 raw.toNat then tget 0 s.pwr.hot i + 1 else 0) = n)
    (hk : (if critLevel ≤ toSigned 16 raw.toNat then tget 0 s.pwr.critHot i + 1 else 0) = k) :
    exec (.thermalSample i raw) s = .next (if (decide (2 ≤ k) && !s.pwr.crit) = true then (s.sampled i raw n k).criticalTrip i
      else if (decide (2 ≤ n) && !s.pwr.trip) = true then (s.sampled i raw n k).thermalTrip i raw.toNat else s.sampled i raw n k) := by
  subst hn hk
  refine congrArg Host.Outcome.next ((if_neg ?_).trans rfl)
  simp [hpor, hi]

theorem exec_thermalSample_cool (h : toSigned 16 raw.toNat < 1760) : exec (.thermalSample i raw) s = .next (s.sampled i raw 0 0) := by
  have hn : ¬ tripLevel ≤ toSigned 16 raw.toNat := by unfold tripLevel; omega
  have hk : ¬ critLevel ≤ toSigned 16 raw.toNat := by unfold critLevel; omega
  rw [exec_thermalSample hi hpor (if_neg hn) (if_neg hk)]
  rfl

theorem exec_thermalSample_first (hlo : 1760 ≤ toSigned 16 raw.toNat) (hhi : toSigned 16 raw.toNat < 1920) (hhot : tget 0 s.pwr.hot i = 0) :
    exec (.thermalSample i raw) s = .next (s.sampled i raw 1 0) := by
  have hk : ¬ critLevel ≤ toSigned 16 raw.toNat := by unfold critLevel; omega
  rw [exec_thermalSample hi hpor (if_pos hlo) (if_neg hk), hhot]
  rfl

theorem exec_thermalSample_trips (hlo : 1760 ≤ toSigned 16 raw.toNat) (hhi : toSigned 16 raw.toNat < 1920) (hhot : 0 < tget 0 s.pwr.hot i)
    (htrip : s.pwr.trip = false) :
    exec (.thermalSample i raw) s = .next ((s.sampled i raw (tget 0 s.pwr.hot i + 1) 0).thermalTrip i raw.toNat) := by
  have hk : ¬ critLevel ≤ toSigned 16 raw.toNat := by unfold critLevel; omega
  rw [exec_thermalSample hi hpor (if_pos hlo) (if_neg hk), if_neg (by simp), if_pos]
  rw [htrip, decide_eq_true (by omega)]
  rfl

theorem exec_thermalSample_critical (hlo : 1920 ≤ toSigned 16 raw.toNat) (hhot : 0 < tget 0 s.pwr.critHot i) (hcrit : s.pwr.crit = false) :
    exec (.thermalSample i raw) s = .next ((s.sampled i raw (tget 0 s.pwr.hot i + 1) (tget 0 s.pwr.critHot i + 1)).criticalTrip i) := by
  have hn : tripLevel ≤ toSigned 16 raw.toNat := by unfold tripLevel; omega
  rw [exec_thermalSample hi hpor (if_pos hn) (if_pos hlo), if_pos]
  rw [hcrit, decide_eq_true (by omega)]
  rfl

end

/-! ## A trip (steps 2 to 4 of Table 16-5) -/

theorem State.endSwitches_frame (s : State) (status reason : Nat) : ∃ h e, s.endSwitches status reason = { s with hif := h, es := e } := by
  unfold State.endSwitches
  dsimp only
  refine List.foldlRecOn (motive := fun t : State => ∃ h e, t = { s with hif := h, es := e }) _ _ ⟨_, _, rfl⟩ ?_
  rintro t ht w _
  refine List.foldlRecOn (motive := fun t : State => ∃ h e, t = { s with hif := h, es := e }) _ _ ht ?_
  rintro _ ⟨_, _, rfl⟩ x _
  exact ⟨_, _, rfl⟩

/-- What a trip does to one partition. -/
def State.tripPart (s : State) (p : Nat) : State :=
  let x := s.part p
  match x.status with
  | .running | .frozen => s.freeze p .trip x.cycle
  | .starting => (s.setPart p { x with status := .idle, cur := 0, image := [] }).complete x.swRing x.swTag x.swStamp p stAborted 0x501 0 0
  | .idle => s

/-- A partition that runs takes the freeze cause of a trip, and no run starts. -/
def Part.Trips (x y : Part) : Prop :=
  (x.status = .running ∨ x.status = .frozen → .trip ∈ y.causes ∧ y.status = x.status) ∧ (x.status = .starting ∨ x.status = .idle → y.status = .idle)

theorem Part.trips_addCause (x : Part) (cyc : Nat) (h : x.status = .running ∨ x.status = .frozen) : x.Trips (x.addCause .trip cyc) := by
  refine ⟨fun _ => ⟨x.addCause_mem .trip cyc, ?_⟩, fun h' => ?_⟩
  · obtain ⟨_, _, he⟩ := x.addCause_frame .trip cyc
    rw [he]
  · rcases h with h | h <;> rw [h] at h' <;> simp at h'

theorem State.tripPart_frame (s : State) (p : Nat) : ∃ ps h e, s.tripPart p = { s with parts := ps, hif := h, es := e } := by
  unfold State.tripPart
  dsimp only
  split <;> exact ⟨_, _, _, rfl⟩

theorem State.tripPart_own (s : State) (p : Nat) : (s.part p).Trips ((s.tripPart p).part p) := by
  unfold State.tripPart
  dsimp only
  split
  · next h =>
    rw [State.freeze, State.part_modPart]
    exact (s.part p).trips_addCause _ (Or.inl h)
  · next h =>
    rw [State.freeze, State.part_modPart]
    exact (s.part p).trips_addCause _ (Or.inr h)
  · next h =>
    rw [State.part_complete, State.part_setPart]
    exact ⟨fun h' => by rw [h] at h'; simp at h', fun _ => rfl⟩
  · next h => exact ⟨fun h' => by rw [h] at h'; simp at h', fun _ => h⟩

theorem State.tripPart_others (s : State) {p q : Nat} (hq : q ≠ p) : (s.tripPart p).part q = s.part q := by
  unfold State.tripPart
  dsimp only
  split
  · exact s.part_freeze_ne _ _ hq
  · exact s.part_freeze_ne _ _ hq
  · rw [State.part_complete, State.part_setPart_ne _ _ hq]
  · rfl

/-- Every partition trips. -/
def State.tripParts (s : State) : State := partNums.foldl State.tripPart s

theorem State.tripParts_frame (s : State) : ∃ ps h e, s.tripParts = { s with parts := ps, hif := h, es := e } := by
  refine List.foldlRecOn (motive := fun t : State => ∃ ps h e, t = { s with parts := ps, hif := h, es := e }) _ _ ⟨_, _, _, rfl⟩ ?_
  rintro _ ⟨_, _, _, rfl⟩ p _
  exact State.tripPart_frame _ p

theorem State.foldl_tripPart_other {q : Nat} (l : List Nat) (h : q ∉ l) (s : State) : (l.foldl State.tripPart s).part q = s.part q := by
  induction l generalizing s with
  | nil => rfl
  | cons p l ih =>
    rw [List.mem_cons, not_or] at h
    exact (ih h.2 _).trans (s.tripPart_others h.1)

theorem State.tripParts_part (s : State) {q : Nat} (hq : q < 8) : (s.part q).Trips (s.tripParts.part q) := by
  suffices h : ∀ (l : List Nat), l.Nodup → q ∈ l → ∀ u : State, u.part q = s.part q → (s.part q).Trips ((l.foldl State.tripPart u).part q) from
    h partNums (by decide) (mem_partNums.2 hq) s rfl
  intro l
  induction l with
  | nil => exact fun _ h => absurd h List.not_mem_nil
  | cons p l ih =>
    intro hnodup hmem u hu
    obtain ⟨hp, hnodup⟩ := List.nodup_cons.1 hnodup
    rcases List.mem_cons.1 hmem with rfl | hmem
    · rw [List.foldl_cons, State.foldl_tripPart_other l hp, ← hu]
      exact u.tripPart_own q
    · have hne : q ≠ p := fun heq => hp (heq ▸ hmem)
      exact ih hnodup hmem (u.tripPart p) ((u.tripPart_others hne).trans hu)

/-- The registers of a trip. -/
def State.tripNoted (s : State) (sensor : Nat) : State := { s with pwr := { s.pwr with
    trip := true, sensor := BitVec.ofNat 5 sensor, tripAt := some s.ns, cmd := s.pwr.cmd.map (fun c => { c with tripped := true }) } }

/-- The SWITCH commands that wait end with a trip. -/
def State.tripSwitches (s : State) : State :=
  ({ s with hif := { s.hif with switches := s.hif.switches.filter (fun w => !w.started) } } : State).endSwitches stAborted 0x501
/-- The event of a trip. -/
def State.tripEvent (s : State) (sensor raw : Nat) : State :=
  if s.domOn 1 then s.post 0x501 none ccAgent 0x501 (sensor + raw % 2 ^ 16 * 2 ^ 16) else s
/-- The part's state after a trip. -/
def State.tripHalts (s : State) : State :=
  if s.rst.state = .ready || s.rst.state = .run then ({ s with rst := { s.rst with reason := 0x501 } } : State).setPState .halted 0x501
  else ({ s with rst := { s.rst with reason := 0x501 } } : State).advertise

theorem State.thermalTrip_eq (s : State) (sensor raw : Nat) :
    s.thermalTrip sensor raw = ((s.tripNoted sensor).tripParts.tripSwitches.tripEvent sensor raw).tripHalts := by
  unfold State.thermalTrip
  extract_lets r1 s1 s2 r2 s3 s4 s5 r3 s6
  have h1 : s1 = s.tripNoted sensor := rfl
  have h2 : s2 = s1.tripParts := rfl
  have h4 : s4 = s2.tripSwitches := rfl
  have h5 : s5 = s4.tripEvent sensor raw := rfl
  rw [← h1, ← h2, ← h4, ← h5]
  clear_value s5
  rfl

theorem State.tripSwitches_frame (s : State) : ∃ h e, s.tripSwitches = { s with hif := h, es := e } := by
  obtain ⟨_, _, he⟩ := State.endSwitches_frame { s with hif := { s.hif with switches := s.hif.switches.filter (fun w => !w.started) } } stAborted 0x501
  exact ⟨_, _, he⟩
theorem State.tripEvent_frame (s : State) (sensor raw : Nat) : ∃ e, s.tripEvent sensor raw = { s with es := e } := by
  unfold State.tripEvent
  split
  · exact s.post_frame ..
  · exact ⟨_, rfl⟩
theorem State.tripHalts_frame (s : State) : ∃ h e, s.tripHalts = { s with hif := h, es := e, rst := { s.rst with
    reason := 0x501, state := if s.rst.state = .ready ∨ s.rst.state = .run then .halted else s.rst.state } } := by
  unfold State.tripHalts
  by_cases hrun : s.rst.state = .ready ∨ s.rst.state = .run
  · obtain ⟨h, e, he, -⟩ := State.setPState_frame { s with rst := { s.rst with reason := 0x501 } } .halted 0x501 63
    rw [if_pos (by simpa using hrun), if_pos hrun, he]
    exact ⟨h, e, rfl⟩
  · rw [if_neg (by simpa using hrun), if_neg hrun]
    exact ⟨_, _, rfl⟩

theorem State.tripEnds_frame (s : State) (sensor raw : Nat) : ∃ h e, (s.tripSwitches.tripEvent sensor raw).tripHalts =
    { s with hif := h, es := e, rst := { s.rst with
      reason := 0x501, state := if s.rst.state = .ready ∨ s.rst.state = .run then .halted else s.rst.state } } := by
  obtain ⟨_, _, hhalts⟩ := (s.tripSwitches.tripEvent sensor raw).tripHalts_frame
  obtain ⟨_, hevent⟩ := s.tripSwitches.tripEvent_frame sensor raw
  obtain ⟨_, _, hswitches⟩ := s.tripSwitches_frame
  rw [hhalts, hevent, hswitches]
  exact ⟨_, _, rfl⟩

theorem thermalSample_trips {s : State} {i : Nat} {raw : BitVec 16} (hi : i < 26) (hpor : s.rst.porAsserted = false)
    (hlo : 1760 ≤ toSigned 16 raw.toNat) (hhi : toSigned 16 raw.toNat < 1920) (hhot : 0 < tget 0 s.pwr.hot i) (htrip : s.pwr.trip = false) :
    ∃ t, exec (.thermalSample i raw) s = .next t ∧
      t.pwr.trip = true ∧ t.pwr.sensor = BitVec.ofNat 5 i ∧ t.pwr.crit = s.pwr.crit ∧ t.temp i = BitVec.ofNat 17 (65536 + raw.toNat) ∧ t.data = s.data ∧
      (s.rst.state = .ready ∨ s.rst.state = .run → t.rst.state = .halted) ∧ t.rst.reason = 0x501 ∧
      (∀ p, p < 8 → ((s.part p).status = .running ∨ (s.part p).status = .frozen → .trip ∈ (t.part p).causes ∧ (t.part p).status = (s.part p).status) ∧
        ((s.part p).status = .starting ∨ (s.part p).status = .idle → (t.part p).status = .idle)) := by
  have hexec := exec_thermalSample_trips hi hpor hlo hhi hhot htrip
  rw [State.thermalTrip_eq] at hexec
  let u := (s.sampled i raw (tget 0 s.pwr.hot i + 1) 0).tripNoted i
  have hparts := fun q hq => u.tripParts_part (q := q) hq
  obtain ⟨_, _, _, htrips⟩ := u.tripParts_frame
  obtain ⟨_, _, hends⟩ := u.tripParts.tripEnds_frame i raw.toNat
  refine ⟨_, hexec, ?_⟩
  rw [hends]
  rw [htrips] at hparts ⊢
  exact ⟨rfl, rfl, rfl, tget_tset_same _ _ _ _, rfl, fun hrun => if_pos hrun, rfl, hparts⟩

/-! ## A critical trip (R497) -/

/-- Every port DOWN with cause DOMAIN. -/
def State.critPorts (s : State) : Tab Port :=
  (upTo 18).foldl (fun u q => tset Port.reset u q { s.port q with state := .down, cause := 6 }) s.lnk.ports
/-- Every domain but D00 and D02 Off and TRIPPED. -/
def State.critDoms (s : State) : Tab Dom :=
  (allDoms.filter (fun d => d != 0 && d != 2)).foldl (fun u d => tset Dom.reset u d
    { st := .off, rate := (s.dom d).rate, busy := false, tripped := true, lockFail := (s.dom d).lockFail && (s.dom d).st == .off }) []

theorem foldl_tset_brings {α : Type} [DecidableEq α] {d : α} {P : α → Prop} {f : Nat → α} (hf : ∀ x, P (f x)) {l : List Nat} {k : Nat} (hk : k ∈ l) (t : Tab α) :
    P (tget d (l.foldl (fun u x => tset d u x (f x)) t) k) := by
  refine foldl_brings (P := fun u : Tab α => P (tget d u k)) (fun u x hu => ?_) (fun u => ?_) hk t
  · by_cases hx : k = x
    · subst hx
      rw [tget_tset_same]
      exact hf k
    · rw [tget_tset_ne _ _ _ hx]
      exact hu
  · rw [tget_tset_same]
    exact hf k

theorem State.critPorts_down (s : State) {q : Nat} (hq : q < 18) :
    (tget Port.reset s.critPorts q).state = .down ∧ (tget Port.reset s.critPorts q).cause = 6 :=
  foldl_tset_brings (P := fun x : Port => x.state = .down ∧ x.cause = 6) (fun _ => ⟨rfl, rfl⟩) (mem_upTo.2 hq) s.lnk.ports

theorem State.critDoms_off (s : State) {d : Nat} (hd : d < 36) (h0 : d ≠ 0) (h2 : d ≠ 2) :
    (tget Dom.reset s.critDoms d).st = .off ∧ (tget Dom.reset s.critDoms d).tripped = true := by
  refine foldl_tset_brings (P := fun x : Dom => x.st = .off ∧ x.tripped = true) (fun _ => ⟨rfl, rfl⟩) (List.mem_filter.2 ⟨mem_upTo.2 hd, ?_⟩) []
  simp [h0, h2]

theorem State.criticalTrip_units (s : State) (i : Nat) :
    (s.criticalTrip i).pwr = { s.pwr with
      trip := true, crit := true, sensor := BitVec.ofNat 5 i, doms := s.critDoms, cmd := none, tripAt := none } ∧
    (s.criticalTrip i).rst = { s.rst with
      state := if s.rst.state = .ready ∨ s.rst.state = .run then .halted else s.rst.state
      reason := 0x502, seq := none, renewing := none, fwRunning := false, topoHeld := none
      released := s.rst.released &&& 5, locked := s.rst.locked &&& 5 } ∧
    (s.criticalTrip i).lnk.ports = s.critPorts ∧ (s.criticalTrip i).parts = [] ∧ (s.criticalTrip i).mu = s.mu ∧ (s.criticalTrip i).sec = s.sec ∧
    (s.criticalTrip i).es = EsRegs.reset ∧ (s.criticalTrip i).data.core = [] ∧ (s.criticalTrip i).data.sram = [] ∧ (s.criticalTrip i).data.store = [] := by
  have hparts : (s.cleared s.rst).parts = [] ∧ (s.cleared s.rst).mu = s.mu ∧ (s.cleared s.rst).es = EsRegs.reset := by
    simp only [State.cleared, State.reset, and_self]
  unfold State.criticalTrip
  generalize s.cleared s.rst = u at hparts
  obtain ⟨hparts, hmu, hes⟩ := hparts
  exact ⟨rfl, rfl, rfl, hparts, hmu, rfl, hes, rfl, rfl, rfl⟩

theorem thermalSample_critical {s : State} {i : Nat} {raw : BitVec 16} (hi : i < 26) (hpor : s.rst.porAsserted = false)
    (hlo : 1920 ≤ toSigned 16 raw.toNat) (hhot : 0 < tget 0 s.pwr.critHot i) (hcrit : s.pwr.crit = false) :
    ∃ t, exec (.thermalSample i raw) s = .next t ∧
      t.pwr.trip = true ∧ t.pwr.crit = true ∧ t.rst.state = (if s.rst.state = .ready ∨ s.rst.state = .run then .halted else s.rst.state) ∧
      t.rst.reason = 0x502 ∧ t.rst.released = s.rst.released &&& 5 ∧
      (∀ d, d < 36 → d ≠ 0 → d ≠ 2 → (t.dom d).st = .off ∧ (t.dom d).tripped = true) ∧ (∀ q, q < 18 → (t.port q).state = .down ∧ (t.port q).cause = 6) ∧
      (∀ p, p < 8 → (t.part p).status = .idle) ∧
      t.data.core = [] ∧ t.data.sram = [] ∧ t.data.store = [] ∧ t.mu = s.mu ∧ t.sec = s.sec ∧ t.es.seq = 0 := by
  let u := s.sampled i raw (tget 0 s.pwr.hot i + 1) (tget 0 s.pwr.critHot i + 1)
  obtain ⟨hpwr, hrst, hports, hparts, hmu, hsec, hes, hcore, hsram, hstore⟩ := u.criticalTrip_units i
  refine ⟨_, exec_thermalSample_critical hi hpor hlo hhot hcrit, ?_, ?_, ?_, ?_, ?_, fun d hd h0 h2 => ?_, fun q hq => ?_, fun p _ => ?_, hcore, hsram,
    hstore, hmu, hsec, ?_⟩
  · rw [hpwr]
  · rw [hpwr]
  · rw [hrst]
    rfl
  · rw [hrst]
  · rw [hrst]
    rfl
  · have hdoms : (u.criticalTrip i).pwr.doms = u.critDoms := by rw [hpwr]
    rw [State.dom, hdoms]
    exact u.critDoms_off hd h0 h2
  · rw [State.port, hports]
    exact u.critPorts_down hq
  · rw [State.part, hparts]
    rfl
  · rw [hes]
    rfl

/-! ## The shutdown after a trip -/

/-- D11 to D34. -/
def ratedDoms : List Nat := allDoms.filter rated

theorem mem_ratedDoms {d : Nat} : d ∈ ratedDoms ↔ 11 ≤ d ∧ d ≤ 34 := by
  simp only [ratedDoms, allDoms, List.mem_filter, mem_upTo, rated, Bool.and_eq_true, decide_eq_true_iff]
  omega
theorem ratedDoms_nodup : ratedDoms.Nodup := by decide

/-- A domain Off and TRIPPED. -/
def Dom.shut (x : Dom) : Dom := { x with st := .off, tripped := true, lockFail := x.lockFail && x.st == .off }

/-- One domain is turned Off by a trip. -/
def State.shutDomain (s : State) (d : Nat) : State := (s.domainEffect d .off).setDom d (s.dom d).shut

/-- What a shutdown leaves alone. -/
structure State.Shuts (s t : State) : Prop where
  lasts : s.Lasts t
  clk : t.clk = s.clk
  dev : t.data.dev = s.data.dev
  store : t.data.store = s.data.store

theorem State.Shuts.refl (s : State) : s.Shuts s := ⟨.refl s, rfl, rfl, rfl⟩
theorem State.Shuts.trans {s t u : State} (h : s.Shuts t) (h' : t.Shuts u) : s.Shuts u :=
  ⟨h.lasts.trans h'.lasts, h'.clk.trans h.clk, h'.dev.trans h.dev, h'.store.trans h.store⟩

theorem State.clk_clearDomain (s : State) (d : Nat) : (s.clearDomain d).clk = s.clk := by
  unfold State.clearDomain
  split
  · obtain ⟨⟨_, he⟩, -⟩ := s.sheds_dropEngines (fun a => agKind a == 2 && agNum a / 32 == d - 11)
    unfold State.clearStack
    rw [he]
  · split
    · obtain ⟨_, _, _, _, _, he, -⟩ := s.clearField_eq (d - 19)
      rw [he]
    · split <;> rfl

section
variable (s : State) {d : Nat} (hd : 11 ≤ d ∧ d ≤ 34)
include hd

theorem State.domainEffect_rated : s.domainEffect d .off = s.clearDomain d := by
  refine (if_pos rfl).trans (if_neg ?_)
  rw [Bool.and_eq_true, decide_eq_true_iff, decide_eq_true_iff]
  omega

/-- A stack or a field loses its memory; device memory and the activation stores stay. -/
theorem State.clearDomain_rated {P : Data → Prop} (hstack : ∀ k, k < 8 → P (s.clearStack k).data) (hfield : ∀ f, f < 16 → P (s.clearField f).data) :
    P (s.clearDomain d).data := by
  by_cases h : d ≤ 18
  · have hk := hstack (d - 11) (by omega)
    rwa [← s.clearDomain_stack (by omega), Nat.add_sub_cancel' hd.1] at hk
  · have hf := hfield (d - 19) (by omega)
    rwa [← s.clearDomain_field (by omega), Nat.add_sub_cancel' (by omega : 19 ≤ d)] at hf

theorem State.shuts_shutDomain : s.Shuts (s.shutDomain d) := by
  unfold State.shutDomain
  rw [s.domainEffect_rated hd]
  have hlasts := s.lasts_clearDomain d
  have hdata : (s.clearDomain d).data.dev = s.data.dev ∧ (s.clearDomain d).data.store = s.data.store := by
    refine s.clearDomain_rated (P := fun x => x.dev = s.data.dev ∧ x.store = s.data.store) hd (fun k _ => ?_) (fun f _ => ?_)
    · rw [s.data_clearStack]
      exact ⟨rfl, rfl⟩
    · rw [s.data_clearField]
      exact ⟨rfl, rfl⟩
  exact ⟨hlasts.trans ⟨rfl, rfl, rfl, rfl, rfl⟩, s.clk_clearDomain d, hdata.1, hdata.2⟩

end

theorem State.dom_shutDomain (s : State) (d : Nat) : (s.shutDomain d).dom d = (s.dom d).shut := State.dom_setDom ..
theorem State.dom_shutDomain_ne (s : State) {d e : Nat} (h : e ≠ d) : (s.shutDomain d).dom e = s.dom e :=
  (State.dom_setDom_ne _ _ h).trans (State.dom_of_powering (s.powering_domainEffect d .off) e)

/-- D11 to D34 are turned Off. -/
def State.shutAll (s : State) : State := ratedDoms.foldl State.shutDomain s

theorem State.foldl_shutDomain_other {e : Nat} (l : List Nat) (h : e ∉ l) (s : State) : (l.foldl State.shutDomain s).dom e = s.dom e := by
  induction l generalizing s with
  | nil => rfl
  | cons d l ih =>
    rw [List.mem_cons, not_or] at h
    exact (ih h.2 _).trans (s.dom_shutDomain_ne h.1)

theorem State.foldl_shutDomain_dom {e : Nat} (l : List Nat) (hnodup : l.Nodup) (h : e ∈ l) (s : State) :
    (l.foldl State.shutDomain s).dom e = (s.dom e).shut := by
  induction l generalizing s with
  | nil => cases h
  | cons d l ih =>
    obtain ⟨hd, hnodup⟩ := List.nodup_cons.1 hnodup
    rcases List.mem_cons.1 h with rfl | h
    · exact (State.foldl_shutDomain_other l hd _).trans (s.dom_shutDomain e)
    · have hne : e ≠ d := fun heq => hd (heq ▸ h)
      exact (ih hnodup h _).trans (by rw [s.dom_shutDomain_ne hne])

section
variable (s : State)

theorem State.dom_shutAll {d : Nat} (hd : 11 ≤ d ∧ d ≤ 34) : s.shutAll.dom d = (s.dom d).shut :=
  State.foldl_shutDomain_dom ratedDoms ratedDoms_nodup (mem_ratedDoms.2 hd) s
theorem State.dom_shutAll_other {d : Nat} (hd : ¬ (11 ≤ d ∧ d ≤ 34)) : s.shutAll.dom d = s.dom d :=
  State.foldl_shutDomain_other ratedDoms (fun h => hd (mem_ratedDoms.1 h)) s

theorem State.shuts_shutAll : s.Shuts s.shutAll :=
  List.foldlRecOn (motive := fun t => s.Shuts t) ratedDoms State.shutDomain (.refl s) fun t ht _ hd => ht.trans (t.shuts_shutDomain (mem_ratedDoms.1 hd))

theorem State.data_shutDomain {d : Nat} (hd : 11 ≤ d ∧ d ≤ 34) : (s.shutDomain d).data = (s.clearDomain d).data := by
  unfold State.shutDomain
  rw [s.domainEffect_rated hd]
  rfl

/-- A memory that one of D11 to D34 loses, and that no other of them brings back, is lost. -/
theorem State.shutAll_loses {P : Data → Prop} {d : Nat} (hd : 11 ≤ d ∧ d ≤ 34) (hstack : ∀ (s : State) k, P s.data → P (s.clearStack k).data)
    (hfield : ∀ (s : State) f, P s.data → P (s.clearField f).data) (hloses : ∀ s : State, P (s.clearDomain d).data) : P s.shutAll.data := by
  obtain ⟨l₁, l₂, hl⟩ := List.append_of_mem (mem_ratedDoms.2 hd)
  have hrated : ∀ x ∈ l₂, 11 ≤ x ∧ x ≤ 34 := fun x hx => mem_ratedDoms.1 (hl ▸ List.mem_append_right _ (List.mem_cons_of_mem _ hx))
  unfold State.shutAll
  rw [hl, List.foldl_append, List.foldl_cons]
  refine List.foldlRecOn (motive := fun t : State => P t.data) l₂ State.shutDomain ?_ (fun t ht x hx => ?_)
  · rw [State.data_shutDomain _ hd]
    exact hloses _
  · rw [State.data_shutDomain _ (hrated x hx)]
    exact t.clearDomain_rated (hrated x hx) (fun k _ => hstack t k ht) (fun f _ => hfield t f ht)

theorem State.shutAll_core {c off : Nat} (hc : c < 1024) (hoff : off < coreBytes) : tget 0 s.shutAll.data.core (coreAt c off) = 0 := by
  refine s.shutAll_loses (P := fun d => tget 0 d.core (coreAt c off) = 0) (d := 19 + c / 64) (by omega) (fun s k h => ?_) (fun s f h => ?_) (fun s => ?_)
  · rw [s.data_clearStack]
    exact h
  · rw [s.data_clearField]
    exact tget_tclear_zero _ _ h
  · exact s.clearDomain_core hc hoff

theorem State.shutAll_sram {e off : Nat} (he : e < 256) (hoff : off < sramBytes) : tget 0 s.shutAll.data.sram (sramAt e off) = 0 := by
  refine s.shutAll_loses (P := fun d => tget 0 d.sram (sramAt e off) = 0) (d := 11 + e / 32) (by omega) (fun s k h => ?_) (fun s f h => ?_) (fun s => ?_)
  · rw [s.data_clearStack]
    exact tget_tclear_zero _ _ h
  · rw [s.data_clearField]
    exact h
  · exact s.clearDomain_sram he hoff

end

/-- D11 to D34 in reset. -/
def ratedMask : BitVec 36 := BitVec.ofNat 36 (sumNat (ratedDoms.map (2 ^ ·)))

theorem getLsbD_ratedMask {d : Nat} (hd : d < 36) : ratedMask.getLsbD d = decide (11 ≤ d ∧ d ≤ 34) := by
  have hall : ∀ d : Fin 36, ratedMask.getLsbD d = decide (11 ≤ d.val ∧ d.val ≤ 34) := by decide
  exact hall ⟨d, hd⟩

/-- The partitions have stopped, or have had 100 µs since the trip. -/
def State.tripWaited (s : State) (t : Nat) : State :=
  if partNums.all (fun p => decide ((s.part p).status = .frozen) || decide ((s.part p).status = .idle)) then s else s.toNs (t + 100000)

/-- Of D11 to D34 those that change state. -/
def State.ratedOn (s : State) : List Nat := ratedDoms.filter (fun d => (s.dom d).st != .off)

theorem State.mem_ratedOn {s : State} {d : Nat} : d ∈ s.ratedOn ↔ (11 ≤ d ∧ d ≤ 34) ∧ (s.dom d).st ≠ .off := by
  rw [State.ratedOn, List.mem_filter, mem_ratedDoms, bne_iff_ne]

/-- The registers once D11 to D34 are Off. -/
def State.shutNoted (s : State) : State :=
  { s with
    pwr := { s.pwr with tripAt := none, cmd := s.pwr.cmd.map (fun c => { c with tripped := true }) }
    rst := { s.rst with released := s.rst.released &&& ~~~ratedMask, locked := s.rst.locked &&& ~~~ratedMask } }

theorem exec_tripShutdown {s : State} {t : Nat} (h : s.pwr.tripAt = some t) :
    exec .tripShutdown s = .next ((s.tripWaited t).shutAll.disableNaming (s.tripWaited t).ratedOn).shutNoted := by
  change execTripShutdown s = _
  unfold execTripShutdown
  rw [h]
  refine congrArg Host.Outcome.next ?_
  dsimp -zeta only
  extract_lets stopped s1 ds changed s2 mask s3
  have h1 : s1 = s.tripWaited t := rfl
  have hchanged : changed = s1.ratedOn := rfl
  have h2 : s2 = s1.shutAll := rfl
  have h3 : s3 = s2.disableNaming changed := rfl
  have hmask : mask = ratedMask := rfl
  rw [← h1, ← hchanged, ← h2, ← h3, State.shutNoted, ← hmask]

theorem State.drifts_tripWaited (s : State) (t : Nat) : s.Drifts (s.tripWaited t) := by
  unfold State.tripWaited
  split
  · exact .refl s
  · exact s.drifts_toNs _

section
variable {s : State} (t : Nat)

theorem State.clk_tripWaited_stopped (h : ∀ p, p < 8 → (s.part p).status = .frozen ∨ (s.part p).status = .idle) : (s.tripWaited t).clk = s.clk := by
  have hall : partNums.all (fun p => decide ((s.part p).status = .frozen) || decide ((s.part p).status = .idle)) = true := by
    simp only [List.all_eq_true, Bool.or_eq_true, decide_eq_true_iff]
    exact fun p hp => h p (mem_partNums.1 hp)
  unfold State.tripWaited
  rw [if_pos hall]

theorem State.clk_tripWaited_running {p : Nat} (hp : p < 8) (hfrozen : (s.part p).status ≠ .frozen) (hidle : (s.part p).status ≠ .idle) :
    (s.tripWaited t).clk = max s.clk ((t + 100000) * 9450) := by
  have hnot : partNums.all (fun p => decide ((s.part p).status = .frozen) || decide ((s.part p).status = .idle)) = false :=
    List.all_eq_false.2 ⟨p, mem_partNums.2 hp, by simp [hfrozen, hidle]⟩
  unfold State.tripWaited
  rw [hnot, if_neg Bool.false_ne_true]
  exact s.clk_toClk _

end

/-- A forme that names a domain that changed is enabled no more. -/
def Part.naming (ds : List Nat) (x : Part) : Part := { x with
  resident := x.resident.map (fun r => if r.enabled && (Image.domains r.image).any ds.contains then { r with enabled := false } else r) }

theorem State.disableNaming_eq (s : State) (ds : List Nat) : s.disableNaming ds = s.modParts (Part.naming ds) partNums := rfl

theorem Part.naming_enabled {ds : List Nat} {x : Part} {r : Resident} (hr : r ∈ (x.naming ds).resident) (henabled : r.enabled = true) {d : Nat}
    (hd : d ∈ ds) : d ∉ Image.domains r.image := by
  intro hmem
  obtain ⟨r', -, hr'⟩ := List.mem_map.1 hr
  split at hr'
  · rw [← hr'] at henabled
    exact Bool.false_ne_true henabled
  · next hnot =>
    subst hr'
    refine hnot (Bool.and_eq_true_iff.2 ⟨henabled, List.any_eq_true.2 ⟨d, hmem, List.contains_iff_mem.2 hd⟩⟩)

/-- What the registers of the shutdown leave, and what they change. -/
theorem State.dom_shutNoted (s : State) (d : Nat) : s.shutNoted.dom d = s.dom d := rfl
theorem State.part_shutNoted (s : State) (p : Nat) : s.shutNoted.part p = s.part p := rfl
theorem State.released_shutNoted (s : State) {d : Nat} (hd : d < 36) :
    s.shutNoted.released d = (s.rst.released.getLsbD d && !decide (11 ≤ d ∧ d ≤ 34)) := by
  have hbit : s.shutNoted.released d = (s.rst.released &&& ~~~ratedMask).getLsbD d := rfl
  rw [hbit, BitVec.getLsbD_and, BitVec.getLsbD_not, getLsbD_ratedMask hd, decide_eq_true hd, Bool.true_and]

/-- What disabling formes leaves. -/
theorem State.disableNaming_frame (s : State) (ds : List Nat) : (∀ d, (s.disableNaming ds).dom d = s.dom d) ∧ (s.disableNaming ds).rst = s.rst ∧
    (s.disableNaming ds).data = s.data ∧ (s.disableNaming ds).mu = s.mu ∧ (s.disableNaming ds).clk = s.clk := by
  obtain ⟨ps, hframe⟩ := s.modParts_frame (Part.naming ds) partNums
  rw [← State.disableNaming_eq] at hframe
  rw [hframe]
  exact ⟨fun _ => rfl, rfl, rfl, rfl, rfl⟩

theorem State.part_disableNaming (s : State) (ds : List Nat) {p : Nat} (hp : p < 8) : (s.disableNaming ds).part p = (s.part p).naming ds := by
  rw [State.disableNaming_eq, State.part_modParts _ (by decide), if_pos (mem_partNums.2 hp)]

/-- What the shutdown leaves of a state, clock aside: `w` is the state it acts on. -/
theorem shutDown_leaves {s w u v : State} (hdrift : s.Drifts w) (hshuts : w.Shuts u)
    (hin : ∀ d, 11 ≤ d ∧ d ≤ 34 → u.dom d = (w.dom d).shut) (hout : ∀ d, ¬(11 ≤ d ∧ d ≤ 34) → u.dom d = w.dom d)
    (hdom : ∀ d, v.dom d = u.dom d) (hrst : v.rst = u.rst) (hpart : ∀ p, p < 8 → v.part p = (u.part p).naming w.ratedOn) :
    (∀ d, 11 ≤ d → d ≤ 34 → (v.shutNoted.dom d).st = .off ∧ (v.shutNoted.dom d).tripped = true ∧ (v.shutNoted.dom d).rate = (s.dom d).rate ∧
        v.shutNoted.released d = false ∧ ((s.dom d).st ≠ .off → (v.shutNoted.dom d).lockFail = false)) ∧
      (∀ d, d < 36 → d < 11 ∨ d = 35 → v.shutNoted.dom d = s.dom d ∧ v.shutNoted.released d = s.released d) ∧
      (∀ p d r, p < 8 → 11 ≤ d → d ≤ 34 → (s.dom d).st ≠ .off → r ∈ (v.shutNoted.part p).resident → r.enabled = true → d ∉ Image.domains r.image) := by
  obtain ⟨-, -, -, hwrst, hwpwr, -⟩ := hdrift.frame
  have hwdom : ∀ d, w.dom d = s.dom d := fun d => congrArg (fun p : PwrRegs => tget Dom.reset p.doms d) hwpwr
  have hrst' : v.rst = s.rst := (hrst.trans hshuts.lasts.rst).trans hwrst
  refine ⟨fun d hlo hhi => ?_, fun d hd hout' => ?_, fun p d r hp hlo hhi hst hr henabled => ?_⟩
  · have hshut : v.shutNoted.dom d = (s.dom d).shut := by rw [State.dom_shutNoted, hdom, hin d ⟨hlo, hhi⟩, hwdom]
    rw [hshut, State.released_shutNoted v (by omega)]
    refine ⟨rfl, rfl, rfl, by simp [hlo, hhi], fun hst => ?_⟩
    simp [Dom.shut, hst]
  · rw [State.dom_shutNoted, hdom, hout d (by omega), hwdom, State.released_shutNoted v hd, hrst']
    refine ⟨rfl, ?_⟩
    rw [decide_eq_false (by omega), Bool.not_false, Bool.and_true]
    rfl
  · rw [State.part_shutNoted, hpart p hp] at hr
    exact Part.naming_enabled hr henabled (State.mem_ratedOn.2 ⟨⟨hlo, hhi⟩, by rwa [hwdom]⟩)

theorem State.data_shutNoted (s : State) : s.shutNoted.data = s.data := rfl
theorem State.mu_shutNoted (s : State) : s.shutNoted.mu = s.mu := rfl
theorem State.clk_shutNoted (s : State) : s.shutNoted.clk = s.clk := rfl

theorem tripShutdown_acts {s : State} {t0 : Nat} (h : s.pwr.tripAt = some t0) : ∃ t, exec .tripShutdown s = .next t ∧ t.pwr.tripAt = none ∧
      (∀ d, 11 ≤ d → d ≤ 34 → (t.dom d).st = .off ∧ (t.dom d).tripped = true ∧ (t.dom d).rate = (s.dom d).rate ∧ t.released d = false ∧
        ((s.dom d).st ≠ .off → (t.dom d).lockFail = false)) ∧
      (∀ d, d < 36 → d < 11 ∨ d = 35 → t.dom d = s.dom d ∧ t.released d = s.released d) ∧
      (∀ c off, c < 1024 → off < coreBytes → tget 0 t.data.core (coreAt c off) = 0) ∧
      (∀ e off, e < 256 → off < sramBytes → tget 0 t.data.sram (sramAt e off) = 0) ∧
      (∀ p d r, p < 8 → 11 ≤ d → d ≤ 34 → (s.dom d).st ≠ .off → r ∈ (t.part p).resident → r.enabled = true → d ∉ Image.domains r.image) ∧
      t.data.dev = s.data.dev ∧ t.data.store = s.data.store ∧ t.mu = s.mu ∧
      ((∀ p, p < 8 → (s.part p).status = .frozen ∨ (s.part p).status = .idle) → t.clk = s.clk) ∧
      (∀ p, p < 8 → (s.part p).status ≠ .frozen → (s.part p).status ≠ .idle → t.clk = max s.clk ((t0 + 100000) * 9450)) := by
  have hstopped := fun hstopped => State.clk_tripWaited_stopped (s := s) t0 hstopped
  have hrunning := fun p hp hfrozen hidle => State.clk_tripWaited_running (s := s) t0 (p := p) hp hfrozen hidle
  have hdrift := s.drifts_tripWaited t0
  have hexec := exec_tripShutdown h
  generalize s.tripWaited t0 = w at hstopped hrunning hdrift hexec
  obtain ⟨-, hwdata, -, -, -, hwmu, -⟩ := hdrift.frame
  obtain ⟨hdom, hrst, hdata, hmu, hclk⟩ := w.shutAll.disableNaming_frame w.ratedOn
  have hpart := fun p hp => w.shutAll.part_disableNaming w.ratedOn (p := p) hp
  have hshuts := w.shuts_shutAll
  obtain ⟨hdown, hother, hformes⟩ := shutDown_leaves hdrift hshuts (fun d hd => w.dom_shutAll hd) (fun d hd => w.dom_shutAll_other hd) hdom hrst hpart
  have hdata' := (State.data_shutNoted _).trans hdata
  have hclk' := ((State.clk_shutNoted _).trans hclk).trans hshuts.clk
  have hmu' := ((State.mu_shutNoted _).trans hmu).trans (hshuts.lasts.mu.trans hwmu)
  refine ⟨_, hexec, rfl, hdown, hother, fun c off hc hoff => ?_, fun e off he hoff => ?_, hformes, ?_, ?_, hmu', fun hall => hclk'.trans (hstopped hall),
    fun p hp hfrozen hidle => hclk'.trans (hrunning p hp hfrozen hidle)⟩
  · rw [hdata']
    exact w.shutAll_core hc hoff
  · rw [hdata']
    exact w.shutAll_sram he hoff
  · rw [hdata', hshuts.dev, hwdata]
  · rw [hdata', hshuts.store, hwdata]

theorem exec_tripShutdown_none {s : State} (h : s.pwr.tripAt = none) : exec .tripShutdown s = .next s := by
  change execTripShutdown s = _
  unfold execTripShutdown
  rw [h]

/-! ## The supply-sag inhibit (R499, R500) -/

theorem Rails.sagAt_both {r : Rails} {a b : Nat} (ha : r.mainLow = some a) (hb : r.auxLow = some b) : r.sagAt = some (min a b + sagTime) := by
  rw [Rails.sagAt, ha, hb]
theorem Rails.sagAt_main {r : Rails} {a : Nat} (ha : r.mainLow = some a) (hb : r.auxLow = none) : r.sagAt = some (a + sagTime) := by
  rw [Rails.sagAt, ha, hb]
theorem Rails.sagAt_aux {r : Rails} {b : Nat} (ha : r.mainLow = none) (hb : r.auxLow = some b) : r.sagAt = some (b + sagTime) := by
  rw [Rails.sagAt, ha, hb]
theorem Rails.sagAt_none {r : Rails} (ha : r.mainLow = none) (hb : r.auxLow = none) : r.sagAt = none := by
  rw [Rails.sagAt, ha, hb]

theorem onlyIf_eq_some {b : Bool} {o : Option Nat} {a : Nat} : onlyIf b o = some a ↔ b = true ∧ o = some a := by
  cases b <;> simp [onlyIf]
theorem onlyIf_eq_none {b : Bool} {o : Option Nat} : onlyIf b o = none ↔ b = false ∨ o = none := by
  cases b <;> simp [onlyIf]

theorem State.whichUnit_none (s : State) : s.whichUnit none none = (none, s) := rfl

/-- One of the units whose comparators answer is taken. -/
theorem State.whichUnit_some (s : State) {power meter : Option Nat} (h : power ≠ none ∨ meter ≠ none) :
    ∃ (m : Bool) (a n : Nat), s.whichUnit power meter = (some (m, a), { s with freeCtr := n }) ∧ (bif m then meter else power) = some a := by
  match power, meter, h with
  | some a, some b, _ =>
    by_cases hodd : s.draw.1 % 2 = 1
    · exact ⟨true, b, _, Prod.ext (congrArg some (if_pos hodd)) rfl, rfl⟩
    · exact ⟨false, a, _, Prod.ext (congrArg some (if_neg hodd)) rfl, rfl⟩
  | some a, none, _ => exact ⟨false, a, s.freeCtr, rfl, rfl⟩
  | none, some b, _ => exact ⟨true, b, s.freeCtr, rfl, rfl⟩
  | none, none, h => exact absurd h (by simp)

/-- The power controller, or the meter, takes the inhibit. -/
def State.inhibited (s : State) (meter : Bool) : State :=
  bif meter then { s with mu := { s.mu with inhibit := true } } else { s with pwr := { s.pwr with inhibit := true } }

/-- What the inhibit's end does for the power controller, or the meter. -/
def State.resumed (s : State) (meter : Bool) : State := bif meter then s.writePending else s.burnHeld

theorem exec_inhibitBegin_none {s : State} (h : s.rst.porAsserted = true ∨
    ((s.pwr.inhibit = true ∨ s.pwr.rails.sagAt = none) ∧ (s.mu.inhibit = true ∨ s.mu.rails.sagAt = none))) : exec .inhibitBegin s = .next s := by
  change execInhibitBegin s = _
  refine congrArg Host.Outcome.next ?_
  by_cases hpor : s.rst.porAsserted = true
  · exact if_pos hpor
  · obtain ⟨hpower, hmeter⟩ := h.resolve_left hpor
    have hpower' : onlyIf (!s.pwr.inhibit) s.pwr.rails.sagAt = none := onlyIf_eq_none.2 (by simpa using hpower)
    have hmeter' : onlyIf (!s.mu.inhibit) s.mu.rails.sagAt = none := onlyIf_eq_none.2 (by simpa using hmeter)
    rw [if_neg hpor, hpower', hmeter']
    rfl

theorem exec_inhibitBegin {s : State} (hpor : s.rst.porAsserted = false)
    (h : (s.pwr.inhibit = false ∧ s.pwr.rails.sagAt ≠ none) ∨ (s.mu.inhibit = false ∧ s.mu.rails.sagAt ≠ none)) :
    ∃ (m : Bool) (a n : Nat), exec .inhibitBegin s = .next ((({ s with freeCtr := n } : State).toClk a).inhibited m) ∧
      (bif m then onlyIf (!s.mu.inhibit) s.mu.rails.sagAt else onlyIf (!s.pwr.inhibit) s.pwr.rails.sagAt) = some a := by
  have hsome : onlyIf (!s.pwr.inhibit) s.pwr.rails.sagAt ≠ none ∨ onlyIf (!s.mu.inhibit) s.mu.rails.sagAt ≠ none := by
    simpa [onlyIf_eq_none] using h
  obtain ⟨m, a, n, hunit, ha⟩ := s.whichUnit_some hsome
  refine ⟨m, a, n, ?_, ha⟩
  change execInhibitBegin s = _
  refine congrArg Host.Outcome.next ?_
  rw [if_neg (by simp [hpor]), hunit]
  cases m <;> rfl

theorem MuRegs.inhibit_or_true (m : MuRegs) : { m with inhibit := m.inhibit || true } = { m with inhibit := true } := by rw [Bool.or_true]
theorem MuRegs.inhibit_or_false (m : MuRegs) : { m with inhibit := m.inhibit || false } = m := by rw [Bool.or_false]
theorem PwrRegs.inhibit_or_true (m : PwrRegs) : { m with inhibit := m.inhibit || true } = { m with inhibit := true } := by rw [Bool.or_true]
theorem PwrRegs.inhibit_or_false (m : PwrRegs) : { m with inhibit := m.inhibit || false } = m := by rw [Bool.or_false]

theorem inhibitBegin_acts {s : State} (hpor : s.rst.porAsserted = false)
    (h : (s.pwr.inhibit = false ∧ s.pwr.rails.sagAt ≠ none) ∨ (s.mu.inhibit = false ∧ s.mu.rails.sagAt ≠ none)) :
    ∃ (t : State) (meter : Bool) (at' : Nat), exec .inhibitBegin s = .next t ∧ t.clk = max s.clk at' ∧
      (if meter then s.mu.inhibit = false ∧ s.mu.rails.sagAt = some at' else s.pwr.inhibit = false ∧ s.pwr.rails.sagAt = some at') ∧
      t.mu = { s.mu with inhibit := s.mu.inhibit || meter } ∧ t.pwr = { s.pwr with inhibit := s.pwr.inhibit || !meter } ∧
      t.rst = s.rst ∧ t.data = s.data := by
  obtain ⟨m, a, n, hexec, ha⟩ := exec_inhibitBegin hpor h
  have hclk := ({ s with freeCtr := n } : State).clk_toClk a
  obtain ⟨-, hdata, -, hrst, hpwr, hmu, -⟩ := (({ s with freeCtr := n } : State).drifts_toClk a).frame
  refine ⟨_, m, a, hexec, ?_⟩
  generalize ({ s with freeCtr := n } : State).toClk a = v at hclk hdata hrst hpwr hmu ⊢
  cases m with
  | true =>
    obtain ⟨hoff, hat⟩ := onlyIf_eq_some.1 ha
    refine ⟨hclk, ⟨by simpa using hoff, hat⟩, ?_, ?_, hrst, hdata⟩
    · exact (congrArg (fun m : MuRegs => { m with inhibit := true }) hmu).trans s.mu.inhibit_or_true.symm
    · exact hpwr.trans s.pwr.inhibit_or_false.symm
  | false =>
    obtain ⟨hoff, hat⟩ := onlyIf_eq_some.1 ha
    refine ⟨hclk, ⟨by simpa using hoff, hat⟩, ?_, ?_, hrst, hdata⟩
    · exact hmu.trans s.mu.inhibit_or_false.symm
    · exact (congrArg (fun p : PwrRegs => { p with inhibit := true }) hpwr).trans s.pwr.inhibit_or_true.symm

/-! ## Alarms and records (R510, R512) -/

/-- An alarm raised: its bit, and the event it may post. -/
theorem State.alarm_frame (s : State) (i : Nat) :
    ∃ e, s.alarm i = { s with es := e, mu := { s.mu with alarms := s.mu.alarms ||| (1#5 <<< i) } } := by
  unfold State.alarm
  split
  · next hset =>
    have hkept : s.mu.alarms ||| (1#5 <<< i) = s.mu.alarms := by
      refine BitVec.eq_of_getLsbD_eq fun j hj => ?_
      rw [BitVec.getLsbD_or, BitVec.getLsbD_shiftLeft, BitVec.getLsbD_one]
      by_cases hji : j = i
      · rw [hji, hset, Bool.true_or]
      · have hne : decide (j - i = 0) = false ∨ decide (j < i) = true := by simp only [decide_eq_true_eq, decide_eq_false_iff_not]; omega
        obtain hne | hne := hne
        · rw [hne, Bool.and_false, Bool.and_false, Bool.or_false]
        · rw [hne, Bool.not_true, Bool.and_false, Bool.false_and, Bool.or_false]
    rw [hkept]
    exact ⟨s.es, rfl⟩
  · dsimp only
    split
    · exact State.post_frame _ _ _ _ _ _
    · exact ⟨s.es, rfl⟩

theorem getLsbD_alarm {a : BitVec 5} {i : Nat} (hi : i < 5) : (a ||| (1#5 <<< i)).getLsbD i = true := by
  rw [BitVec.getLsbD_or, BitVec.getLsbD_shiftLeft, decide_eq_true hi, Nat.sub_self]
  simp

/-- What the commit of one record may change of the machine: the slots, the newest number, the alarms, their event, and the draw. -/
def State.Ledgered (s t : State) : Prop := ∃ n e sl nw al,
  t = { s with freeCtr := n, es := e, mu := { s.mu with slots := sl, newest := nw, alarms := al } }

theorem State.Ledgered.refl (s : State) : s.Ledgered s := ⟨s.freeCtr, s.es, s.mu.slots, s.mu.newest, s.mu.alarms, rfl⟩
theorem State.Ledgered.trans {s t u : State} (h : s.Ledgered t) (h' : t.Ledgered u) : s.Ledgered u := by
  obtain ⟨_, _, _, _, _, rfl⟩ := h
  obtain ⟨n, e, sl, nw, al, rfl⟩ := h'
  exact ⟨n, e, sl, nw, al, rfl⟩
theorem State.ledgered_alarm (s : State) (i : Nat) : s.Ledgered (s.alarm i) := by
  obtain ⟨e, h⟩ := s.alarm_frame i
  exact ⟨s.freeCtr, e, s.mu.slots, s.mu.newest, _, h⟩
theorem State.ledgered_unalarm (s : State) (i : Nat) : s.Ledgered (s.unalarm i) := ⟨s.freeCtr, s.es, s.mu.slots, s.mu.newest, _, rfl⟩
theorem State.ledgered_writeSlot (s : State) (r : Ledger) : s.Ledgered (s.writeSlot r) := ⟨_, s.es, _, s.mu.newest, s.mu.alarms, rfl⟩

/-- A record whose write verifies is the newest; one whose write fails leaves an uncommitted slot and WRITE_FAIL. -/
def State.Committed (s : State) (r : Ledger) : Prop :=
  (s.mu.newest = some r.number ∧ ∃ nonce, tget [] s.mu.slots (r.number % 2048) = r.bytes nonce) ∨
  (s.mu.alarms.getLsbD 3 = true ∧ fld (tget [] s.mu.slots (r.number % 2048)) 0x580 8 = 2 ^ 64 - 1)

/-- The slot, the newest number and the alarm of a verified commit. -/
def State.writeNewest (s : State) (r : Ledger) : State :=
  ({ s with freeCtr := s.freeCtr + 1
            mu := { s.mu with slots := tset [] s.mu.slots (r.number % 2048) (r.bytes s.freeCtr), newest := some r.number } } : State).unalarm 3

theorem State.commitRecord_true (s : State) (r : Ledger) :
    s.commitRecord r true = if r.number = lastRecord then (s.writeNewest r).alarm 0 else s.writeNewest r := by
  unfold State.commitRecord
  exact if_pos rfl
theorem State.commitRecord_false (s : State) (r : Ledger) : s.commitRecord r false = (s.writeSlot r).alarm 3 := by
  unfold State.commitRecord
  exact if_neg Bool.false_ne_true

theorem State.ledgered_writeNewest (s : State) (r : Ledger) : s.Ledgered (s.writeNewest r) := ⟨_, s.es, _, some r.number, _, rfl⟩

theorem State.commitRecord_verified (s : State) (r : Ledger) : ∃ e al, s.commitRecord r true =
    { s.writeNewest r with es := e, mu := { (s.writeNewest r).mu with alarms := al } } := by
  rw [State.commitRecord_true]
  generalize s.writeNewest r = v
  split
  · obtain ⟨e, h⟩ := v.alarm_frame 0
    exact ⟨e, _, h⟩
  · exact ⟨v.es, v.mu.alarms, rfl⟩

theorem State.ledgered_commitRecord (s : State) (r : Ledger) (verified : Bool) : s.Ledgered (s.commitRecord r verified) := by
  cases verified with
  | true =>
    rw [State.commitRecord_true]
    split
    · exact (s.ledgered_writeNewest r).trans ((s.writeNewest r).ledgered_alarm 0)
    · exact s.ledgered_writeNewest r
  | false =>
    rw [State.commitRecord_false]
    exact (s.ledgered_writeSlot r).trans ((s.writeSlot r).ledgered_alarm 3)

theorem Ledger.length_head (r : Ledger) : r.head.length = 128 := by
  simp [Ledger.head, length_leBytes]

theorem length_take_head_append {a b : List Byte} (ha : a.length = 128) (hb : b.length = 1280) (c : List Byte) : ((a ++ b ++ c).take 0x580).length = 0x580 := by
  rw [List.length_take, List.length_append, List.length_append, ha, hb]
  omega

/-- The COMMIT of a record is its eight bytes at 0x580. -/
theorem Ledger.length_before_commit (r : Ledger) (nonce : Nat) : ((r.bytes nonce).take 0x580).length = 0x580 := by
  rw [Ledger.bytes, List.append_assoc]
  exact length_take_head_append r.length_head (length_falconSign ..) _

theorem fld_commit {a : List Byte} (ha : a.length = 0x580) (x : Nat) (b : List Byte) : fld (a ++ leBytes 8 x ++ b) 0x580 8 = x % 256 ^ 8 := by
  rw [List.append_assoc, fld_append_right ha.le, ha, Nat.sub_self, fld_leBytes_append]

theorem State.slot_writeSlot (s : State) (r : Ledger) : fld (tget [] (s.writeSlot r).mu.slots (r.number % 2048)) 0x580 8 = 2 ^ 64 - 1 := by
  rw [State.writeSlot, tget_tset_same, fld_commit (r.length_before_commit _)]
  rfl

theorem State.slot_writeNewest (s : State) (r : Ledger) : tget [] (s.writeNewest r).mu.slots (r.number % 2048) = r.bytes s.freeCtr := by
  rw [State.writeNewest, State.unalarm, tget_tset_same]

theorem State.committed_of_newest {s : State} {r : Ledger} {nonce : Nat} (hnewest : s.mu.newest = some r.number)
    (hslot : tget [] s.mu.slots (r.number % 2048) = r.bytes nonce) (e : EsRegs) (al : BitVec 5) :
    ({ s with es := e, mu := { s.mu with alarms := al } } : State).Committed r := .inl ⟨hnewest, nonce, hslot⟩

theorem State.committed_alarm {s : State} {r : Ledger} (hslot : fld (tget [] s.mu.slots (r.number % 2048)) 0x580 8 = 2 ^ 64 - 1) :
    (s.alarm 3).Committed r := by
  obtain ⟨e, h⟩ := s.alarm_frame 3
  rw [h]
  exact .inr ⟨getLsbD_alarm (by decide), hslot⟩

theorem State.committed_commitRecord (s : State) (r : Ledger) (verified : Bool) : (s.commitRecord r verified).Committed r := by
  cases verified with
  | true =>
    obtain ⟨e, al, h⟩ := s.commitRecord_verified r
    rw [h]
    exact State.committed_of_newest rfl (s.slot_writeNewest r) e al
  | false =>
    rw [State.commitRecord_false]
    exact State.committed_alarm (s.slot_writeSlot r)

theorem State.ledgered_commitHeld (s : State) (r : Ledger) : s.Ledgered (s.commitHeld r) :=
  .trans ⟨_, s.es, s.mu.slots, s.mu.newest, s.mu.alarms, rfl⟩ (s.draw.2.ledgered_commitRecord r _)

theorem State.ledgered_commits (s : State) (rs : List Ledger) : s.Ledgered (rs.foldl State.commitHeld s) :=
  List.foldlRecOn (motive := fun t => s.Ledgered t) rs State.commitHeld (.refl s) fun t ht r _ => ht.trans (t.ledgered_commitHeld r)

/-- DELAYED falls; no other alarm does. -/
theorem getLsbD_undelay (a : BitVec 5) : (a &&& ~~~(1#5 <<< 4)).getLsbD 4 = false ∧ (a &&& ~~~(1#5 <<< 4)).getLsbD 3 = a.getLsbD 3 := by
  constructor <;> simp

theorem State.Committed.unalarm_delayed {s : State} {r : Ledger} (h : s.Committed r) : (s.unalarm 4).Committed r := by
  obtain h | ⟨halarm, hslot⟩ := h
  · exact .inl h
  · exact .inr ⟨(getLsbD_undelay s.mu.alarms).2.trans halarm, hslot⟩

/-- The meter with no record waiting. -/
def State.unheld (s : State) : State := { s with mu := { s.mu with inhibit := false, pending := [], writing := none } }

theorem State.writePending_eq (s : State) :
    s.writePending = ((s.mu.writing.toList ++ s.mu.pending).foldl State.commitHeld s.unheld).unalarm 4 := rfl

theorem State.writePending_frame (s : State) : ∃ n e sl nw al, al.getLsbD 4 = false ∧ s.writePending =
    { s with freeCtr := n, es := e, mu := { s.mu with inhibit := false, pending := [], writing := none, slots := sl, newest := nw, alarms := al } } := by
  obtain ⟨n, e, sl, nw, al, h⟩ := s.unheld.ledgered_commits (s.mu.writing.toList ++ s.mu.pending)
  refine ⟨n, e, sl, nw, _, (getLsbD_undelay al).1, ?_⟩
  rw [State.writePending_eq, h]
  rfl

theorem State.committed_writePending (s : State) {rs : List Ledger} {r : Ledger} (h : s.mu.writing.toList ++ s.mu.pending = rs ++ [r]) :
    s.writePending.Committed r := by
  rw [State.writePending_eq, h, List.foldl_append]
  exact ((rs.foldl State.commitHeld s.unheld).draw.2.committed_commitRecord r _).unalarm_delayed

theorem State.burnDefect_frame (s : State) (w : Nat) : ∃ r e, s.burnDefect w = { s with rst := r, es := e } := by
  unfold State.burnDefect
  dsimp only
  split
  · exact ⟨_, s.es, rfl⟩
  · split
    · obtain ⟨e, h⟩ := State.post_frame (s := { s with rst := { s.rst with bootDefect := s.rst.bootDefect ++ [w], reason := 0x406 } }) 0x504 none ccAgent 0x406
        (s.rst.state.code * 17 + 0x3F * 256)
      exact ⟨_, e, h⟩
    · exact ⟨_, s.es, rfl⟩

/-- A held fuse word is blown: it is held no more. -/
def State.burnWord (s : State) (w : Nat) : State := ({ s with rst := { s.rst with bootDefect := s.rst.bootDefect.erase w } } : State).burnDefect w

/-- The power controller with no fuse word waiting. -/
def State.unheldWords (s : State) : State := { s with pwr := { s.pwr with heldWrites := [], inhibit := false } }

theorem State.burnHeld_eq (s : State) : s.burnHeld = s.pwr.heldWrites.foldl State.burnWord s.unheldWords := rfl

theorem State.burnHeld_frame (s : State) : ∃ r e, s.burnHeld = { s with pwr := { s.pwr with heldWrites := [], inhibit := false }, rst := r, es := e } := by
  rw [State.burnHeld_eq]
  refine List.foldlRecOn (motive := fun t => ∃ r e, t = { s with pwr := { s.pwr with heldWrites := [], inhibit := false }, rst := r, es := e })
    s.pwr.heldWrites State.burnWord ⟨s.rst, s.es, rfl⟩ fun t ht w _ => ?_
  obtain ⟨_, _, rfl⟩ := ht
  exact State.burnDefect_frame _ w

theorem State.burnDefect_free {s : State} (w : Nat) {k : Nat} (hk : mapFill s.rst.defect = k) (h : k < 2048) : s.burnDefect w =
    { s with rst := { s.rst with defect := tset 0 s.rst.defect k (BitVec.ofNat 32 w) } } := by
  subst hk
  unfold State.burnDefect
  exact if_pos h

theorem State.rst_burnWord {s : State} (w : Nat) {k : Nat} (hk : mapFill s.rst.defect = k) (h : k < 2048) :
    (s.burnWord w).rst = { s.rst with defect := tset 0 s.rst.defect k (BitVec.ofNat 32 w), bootDefect := s.rst.bootDefect.erase w } := by
  exact congrArg State.rst (State.burnDefect_free (s := { s with rst := { s.rst with bootDefect := s.rst.bootDefect.erase w } }) w hk h)

theorem State.rst_burnHeld_one {s : State} {w : Nat} (h : s.pwr.heldWrites = [w]) (hfree : mapFill s.rst.defect < 2048) :
    s.burnHeld.rst = { s.rst with
      defect := tset 0 s.rst.defect (mapFill s.rst.defect) (BitVec.ofNat 32 w), bootDefect := s.rst.bootDefect.erase w } := by
  have hrst : s.unheldWords.rst = s.rst := rfl
  rw [State.burnHeld_eq, h, List.foldl_cons, List.foldl_nil, State.rst_burnWord w (by rw [hrst]) hfree, hrst]

theorem State.rst_burnHeld_none {s : State} (h : s.pwr.heldWrites = []) : s.burnHeld.rst = s.rst := by
  rw [State.burnHeld_eq, h]
  rfl

theorem exec_inhibitEnd_none {s : State} (hpower : s.pwr.inhibit = false ∨ s.pwr.rails.good = none)
    (hmeter : s.mu.inhibit = false ∨ s.mu.rails.good = none) : exec .inhibitEnd s = .next s := by
  change execInhibitEnd s = _
  refine congrArg Host.Outcome.next ?_
  rw [onlyIf_eq_none.2 hpower, onlyIf_eq_none.2 hmeter]
  rfl

theorem State.resumed_true (s : State) : s.resumed true = s.writePending := rfl
theorem State.resumed_false (s : State) : s.resumed false = s.burnHeld := rfl
theorem goodTime_eq : goodTime = 9450000000 := rfl

theorem exec_inhibitEnd {s : State} (h : (s.pwr.inhibit = true ∧ s.pwr.rails.good ≠ none) ∨ (s.mu.inhibit = true ∧ s.mu.rails.good ≠ none)) :
    ∃ (m : Bool) (g n at' : Nat), at' = g + 9450000000 ∧ exec .inhibitEnd s = .next ((({ s with freeCtr := n } : State).toClk at').resumed m) ∧
      (bif m then onlyIf s.mu.inhibit s.mu.rails.good else onlyIf s.pwr.inhibit s.pwr.rails.good) = some g := by
  have hsome : onlyIf s.pwr.inhibit s.pwr.rails.good ≠ none ∨ onlyIf s.mu.inhibit s.mu.rails.good ≠ none := by
    simpa [onlyIf_eq_none] using h
  obtain ⟨m, g, n, hunit, hg⟩ := s.whichUnit_some hsome
  refine ⟨m, g, n, g + goodTime, by rw [goodTime_eq], ?_, hg⟩
  change execInhibitEnd s = _
  refine congrArg Host.Outcome.next ?_
  rw [hunit]
  generalize goodTime = w
  cases m with
  | true => rw [State.resumed_true]
  | false => rw [State.resumed_false]

/-- The meter's records are written. -/
theorem State.resumed_meter (s : State) : (s.resumed true).clk = s.clk ∧ (s.resumed true).data = s.data ∧ (s.resumed true).mu.inhibit = false ∧
    (s.resumed true).mu.pending = [] ∧ (s.resumed true).mu.writing = none ∧ (s.resumed true).mu.alarms.getLsbD 4 = false ∧
    (s.resumed true).pwr = s.pwr ∧ (s.resumed true).rst = s.rst ∧ (s.resumed true).mu.eMain = s.mu.eMain ∧ (s.resumed true).mu.next = s.mu.next := by
  obtain ⟨n, e, sl, nw, al, hdelayed, h⟩ := s.writePending_frame
  rw [State.resumed_true, h]
  exact ⟨rfl, rfl, rfl, rfl, rfl, hdelayed, rfl, rfl, rfl, rfl⟩

/-- The power controller's fuse words are blown. -/
theorem State.resumed_power (s : State) : (s.resumed false).clk = s.clk ∧ (s.resumed false).data = s.data ∧
    (s.resumed false).pwr = { s.pwr with inhibit := false, heldWrites := [] } ∧ (s.resumed false).mu = s.mu := by
  obtain ⟨r, e, h⟩ := s.burnHeld_frame
  rw [State.resumed_false, h]
  exact ⟨rfl, rfl, rfl, rfl⟩

theorem inhibitEnd_acts {s : State} (h : (s.pwr.inhibit = true ∧ s.pwr.rails.good ≠ none) ∨ (s.mu.inhibit = true ∧ s.mu.rails.good ≠ none)) :
    ∃ (t : State) (meter : Bool) (g : Nat), exec .inhibitEnd s = .next t ∧ t.clk = max s.clk (g + 9450000000) ∧ t.data = s.data ∧
      (if meter then
        s.mu.inhibit = true ∧ s.mu.rails.good = some g ∧ t.mu.inhibit = false ∧ t.mu.pending = [] ∧ t.mu.writing = none ∧ t.mu.alarms.getLsbD 4 = false ∧
        t.pwr = s.pwr ∧ t.rst = s.rst ∧ t.mu.eMain = s.mu.eMain ∧ t.mu.next = s.mu.next ∧
        (∀ (rs : List Ledger) (r : Ledger), s.mu.writing.toList ++ s.mu.pending = rs ++ [r] → t.Committed r)
      else
        s.pwr.inhibit = true ∧ s.pwr.rails.good = some g ∧ t.pwr = { s.pwr with inhibit := false, heldWrites := [] } ∧ t.mu = s.mu ∧
        (∀ w, s.pwr.heldWrites = [w] → mapFill s.rst.defect < 2048 →
          t.rst.defect = tset 0 s.rst.defect (mapFill s.rst.defect) (BitVec.ofNat 32 w) ∧ t.rst.bootDefect = s.rst.bootDefect.erase w) ∧
        (s.pwr.heldWrites = [] → t.rst = s.rst)) := by
  obtain ⟨m, g, n, at', hat', hexec, hg⟩ := exec_inhibitEnd h
  have hclk := ({ s with freeCtr := n } : State).clk_toClk at'
  obtain ⟨-, hdata, -, hrst, hpwr, hmu, -⟩ := (({ s with freeCtr := n } : State).drifts_toClk at').frame
  refine ⟨_, m, g, hexec, ?_⟩
  rw [← hat']
  generalize ({ s with freeCtr := n } : State).toClk at' = v at hclk hdata hrst hpwr hmu ⊢
  change v.rst = s.rst at hrst
  change v.pwr = s.pwr at hpwr
  change v.mu = s.mu at hmu
  cases m with
  | true =>
    obtain ⟨hon, hat⟩ := onlyIf_eq_some.1 hg
    obtain ⟨hclk', hdata', hinhibit, hpending, hwriting, hdelayed, hpwr', hrst', hmain, hnext⟩ := v.resumed_meter
    exact ⟨hclk'.trans hclk, hdata'.trans hdata, hon, hat, hinhibit, hpending, hwriting, hdelayed, hpwr'.trans hpwr, hrst'.trans hrst,
      hmain.trans (congrArg MuRegs.eMain hmu), hnext.trans (congrArg MuRegs.next hmu),
      fun rs r hrs => v.committed_writePending (by rw [hmu, hrs])⟩
  | false =>
    obtain ⟨hon, hat⟩ := onlyIf_eq_some.1 hg
    obtain ⟨hclk', hdata', hpwr', hmu'⟩ := v.resumed_power
    refine ⟨hclk'.trans hclk, hdata'.trans hdata, hon, hat, hpwr'.trans (by rw [hpwr]), hmu'.trans hmu, fun w hw hfree => ?_, fun hnone => ?_⟩
    · rw [← hpwr] at hw
      rw [← hrst] at hfree ⊢
      rw [State.resumed_false, State.rst_burnHeld_one hw hfree]
      exact ⟨rfl, rfl⟩
    · rw [← hpwr] at hnone
      exact (State.rst_burnHeld_none hnone).trans hrst

/-- Settles O59: a reading, the shutdown and the ends of the inhibit, each from what its command makes of the state. -/
theorem protectionActs : Obligations.ProtectionActs := by
  unfold Obligations.ProtectionActs
  refine ⟨fun s i raw hi hpor => ⟨?_, ?_, ?_, ?_⟩, fun s => ⟨fun t0 h => tripShutdown_acts h, exec_tripShutdown_none⟩,
    fun s => ⟨exec_inhibitBegin_none, inhibitBegin_acts, fun r a b => ⟨Rails.sagAt_both, Rails.sagAt_main, Rails.sagAt_aux, Rails.sagAt_none⟩⟩,
    fun s h => inhibitEnd_acts h, fun s h => exec_inhibitEnd_none h.1 h.2⟩
  · exact exec_thermalSample_cool hi hpor
  · exact exec_thermalSample_first hi hpor
  · exact thermalSample_trips hi hpor
  · exact thermalSample_critical hi hpor

end Sys2Proof.Machine
end

section
/-! O60: metering and the ledger, the sideband and JTAG (R503 to R512, R550 to R553). -/
namespace Sys2Proof.Machine

open Sys2Proof

/-! ## One sample (R503 to R505) -/

theorem heldSince_eq (old : Option Nat) (holds : Bool) (now : Nat) : heldSince old holds now = if holds = true then some (old.getD now) else none := by
  cases holds <;> cases old <;> rfl

theorem Rails.see_eq (r : Rails) (main aux now : Nat) :
    (r.see main aux now).mainLow = (if main < 11200 then some (r.mainLow.getD now) else none) ∧
    (r.see main aux now).auxLow = (if aux < 3150 then some (r.auxLow.getD now) else none) ∧
    (r.see main aux now).good = (if 11500 ≤ main ∧ 3200 ≤ aux then some (r.good.getD now) else none) := by
  unfold Rails.see
  simp only [heldSince_eq, decide_eq_true_eq, Bool.and_eq_true, and_self]

/-- The registers of the unit with a sample of `a` and `b` picojoules counted. -/
def MuRegs.count (m : MuRegs) (a b : Nat) (ok : Bool) (r : Rails) : MuRegs := { m with
  rails := r, eMain := m.eMain + a, eAux := m.eAux + b, msCount := m.msCount + 1, msMain := m.msMain + a, msAux := m.msAux + b,
  selfCheck := m.selfCheck || !ok }

/-- Every thousandth sample closes a millisecond. -/
def MuRegs.closeMs (m : MuRegs) : MuRegs := if m.msCount < 1000 then m else { m with
  pMain := BitVec.ofNat 32 (m.msMain / 1000000), pAux := BitVec.ofNat 32 (m.msAux / 1000000), msCount := 0, msMain := 0, msAux := 0,
  pMax := max m.pMax ((m.msMain + m.msAux) / 1000000), overrange := m.overrange || decide (rangeLimit * 1000000 < m.msMain + m.msAux) }

/-- A pulse begins when it is due. -/
def MuRegs.startPulse (m : MuRegs) (now : Nat) : MuRegs :=
  if m.pulse.isNone && m.pulseFrom + pulseEnergy ≤ m.eMain + m.eAux then { m with pulse := some now, pulseFrom := m.pulseFrom + pulseEnergy } else m

theorem MuRegs.closeMs_early {m : MuRegs} (h : m.msCount < 1000) : m.closeMs = m := if_pos h

theorem MuRegs.closeMs_alarms (m : MuRegs) (al : BitVec 5) : ({ m with alarms := al } : MuRegs).closeMs = { m.closeMs with alarms := al } := by
  unfold MuRegs.closeMs
  split <;> rfl
theorem MuRegs.startPulse_alarms (m : MuRegs) (now : Nat) (al : BitVec 5) :
    ({ m with alarms := al } : MuRegs).startPulse now = { m.startPulse now with alarms := al } := by
  unfold MuRegs.startPulse
  split <;> rfl

/-- The power controller with a sample seen. -/
def PwrRegs.see (p : PwrRegs) (mv mv' now : Nat) : PwrRegs :=
  { p with vinMain := BitVec.ofNat 16 mv, vinAux := BitVec.ofNat 16 mv', rails := p.rails.see mv mv' now }

/-- A sample but for the alarms that it may raise. -/
def State.counted (s : State) (mv ma mv' ma' : Nat) (ok : Bool) : State := { s with
  pwr := s.pwr.see mv mv' s.clk
  mu := s.mu.count (mv * ma) (mv' * ma') ok (s.mu.rails.see mv mv' s.clk) }

/-- The alarm of the converter check, where it failed. -/
def State.checked (s : State) (ok : Bool) : State := if ok then s else s.alarm 2

/-- The millisecond's end, where it is due. -/
def State.msDue (s : State) : State := if s.mu.msCount < 1000 then s else s.millisecond

theorem State.pulseDue_eq (s : State) : s.pulseDue = { s with mu := s.mu.startPulse s.ns } := by
  unfold State.pulseDue MuRegs.startPulse
  split <;> rfl

/-- `t` is `s` but for an event, and for alarms of which none has fallen. -/
def State.Alarmed (s t : State) : Prop :=
  ∃ e al, t = { s with es := e, mu := { s.mu with alarms := al } } ∧ ∀ i, s.mu.alarms.getLsbD i = true → al.getLsbD i = true

theorem State.Alarmed.refl (s : State) : s.Alarmed s := ⟨s.es, s.mu.alarms, rfl, fun _ h => h⟩

theorem State.alarmed_alarm (s : State) (i : Nat) : s.Alarmed (s.alarm i) := by
  obtain ⟨e, h⟩ := s.alarm_frame i
  refine ⟨e, _, h, fun j hj => ?_⟩
  rw [BitVec.getLsbD_or, hj, Bool.true_or]

theorem State.alarm_raised (s : State) {i : Nat} (hi : i < 5) : (s.alarm i).mu.alarms.getLsbD i = true := by
  obtain ⟨e, h⟩ := s.alarm_frame i
  rw [h]
  exact getLsbD_alarm hi

theorem State.checked_alarmed (s : State) (ok : Bool) : s.Alarmed (s.checked ok) ∧ (ok = false → (s.checked ok).mu.alarms.getLsbD 2 = true) := by
  cases ok with
  | true => exact ⟨.refl s, fun h => absurd h (by decide)⟩
  | false => exact ⟨s.alarmed_alarm 2, fun _ => s.alarm_raised (by decide)⟩

theorem State.msDue_alarmed (s : State) : ({ s with mu := s.mu.closeMs } : State).Alarmed s.msDue ∧
    (1000 ≤ s.mu.msCount → rangeLimit * 1000000 < s.mu.msMain + s.mu.msAux → s.msDue.mu.alarms.getLsbD 1 = true) := by
  unfold State.msDue MuRegs.closeMs
  by_cases hcount : s.mu.msCount < 1000
  · rw [if_pos hcount, if_pos hcount]
    exact ⟨.refl s, fun h => absurd hcount (by omega)⟩
  · rw [if_neg hcount, if_neg hcount]
    unfold State.millisecond
    dsimp only
    by_cases hhigh : rangeLimit * 1000000 < s.mu.msMain + s.mu.msAux
    · rw [if_pos (decide_eq_true hhigh)]
      exact ⟨State.alarmed_alarm _ 1, fun _ _ => State.alarm_raised _ (by decide)⟩
    · rw [if_neg (by simpa using hhigh)]
      exact ⟨.refl _, fun _ h => absurd h hhigh⟩

theorem exec_meterSample {s : State} (hon : s.released 2 = true) (mv ma mv' ma' : Nat) (ok : Bool) :
    exec (.meterSample mv ma mv' ma' ok) s = .next ((((s.finishWrite.counted mv ma mv' ma' ok).checked ok).msDue).pulseDue) :=
  congrArg Host.Outcome.next (if_neg (by simp [State.muOn, hon]))

theorem exec_meterSample_off {s : State} (hoff : s.released 2 = false) (mv ma mv' ma' : Nat) (ok : Bool) :
    exec (.meterSample mv ma mv' ma' ok) s = .next s :=
  congrArg Host.Outcome.next (if_pos (by simp [State.muOn, hoff]))

/-- What a sample leaves, the alarms aside. -/
theorem State.counted_leaves (s : State) (mv ma mv' ma' : Nat) (ok : Bool) : ∃ e al,
    (((s.counted mv ma mv' ma' ok).checked ok).msDue).pulseDue = { s with
      es := e
      pwr := s.pwr.see mv mv' s.clk
      mu := { ((s.mu.count (mv * ma) (mv' * ma') ok (s.mu.rails.see mv mv' s.clk)).closeMs).startPulse s.ns with alarms := al } } ∧
    (ok = false → al.getLsbD 2 = true) ∧
    (999 ≤ s.mu.msCount → rangeLimit * 1000000 < s.mu.msMain + mv * ma + (s.mu.msAux + mv' * ma') → al.getLsbD 1 = true) := by
  obtain ⟨⟨e, al, hchecked, -⟩, hfailed⟩ := (s.counted mv ma mv' ma' ok).checked_alarmed ok
  rw [hchecked] at hfailed ⊢
  obtain ⟨⟨e', al', hms, hkept⟩, hhigh⟩ := ({ s.counted mv ma mv' ma' ok with
    es := e, mu := { (s.counted mv ma mv' ma' ok).mu with alarms := al } } : State).msDue_alarmed
  rw [hms] at hhigh ⊢
  refine ⟨e', al', ?_, fun hok => ?_, fun hcount hrange => hhigh (Nat.succ_le_succ hcount) hrange⟩
  · rw [State.pulseDue_eq]
    dsimp only
    rw [MuRegs.closeMs_alarms, MuRegs.startPulse_alarms, MuRegs.startPulse_alarms]
    rfl
  · refine hkept 2 ?_
    dsimp only
    rw [MuRegs.closeMs_alarms]
    exact hfailed hok

/-- What the end of a millisecond leaves. -/
theorem MuRegs.closeMs_keeps (m : MuRegs) : m.closeMs.eMain = m.eMain ∧ m.closeMs.eAux = m.eAux ∧ m.closeMs.selfCheck = m.selfCheck ∧
    m.closeMs.newest = m.newest ∧ m.closeMs.slots = m.slots ∧ m.closeMs.rails = m.rails ∧ m.closeMs.pulse = m.pulse ∧
    m.closeMs.pulseFrom = m.pulseFrom ∧ m.closeMs.next = m.next := by
  unfold MuRegs.closeMs
  split <;> exact ⟨rfl, rfl, rfl, rfl, rfl, rfl, rfl, rfl, rfl⟩

theorem MuRegs.closeMs_due {m : MuRegs} (h : 1000 ≤ m.msCount) : m.closeMs = { m with
    pMain := BitVec.ofNat 32 (m.msMain / 1000000), pAux := BitVec.ofNat 32 (m.msAux / 1000000), msCount := 0, msMain := 0, msAux := 0,
    pMax := max m.pMax ((m.msMain + m.msAux) / 1000000), overrange := m.overrange || decide (rangeLimit * 1000000 < m.msMain + m.msAux) } :=
  if_neg (by omega)

/-- What the begin of a pulse leaves. -/
theorem MuRegs.startPulse_frame (m : MuRegs) (now : Nat) : ∃ p f, m.startPulse now = { m with pulse := p, pulseFrom := f } := by
  unfold MuRegs.startPulse
  split
  · exact ⟨_, _, rfl⟩
  · exact ⟨m.pulse, m.pulseFrom, rfl⟩

theorem MuRegs.startPulse_due {m : MuRegs} (now : Nat) (hpulse : m.pulse = none) (hdue : m.pulseFrom + pulseEnergy ≤ m.eMain + m.eAux) :
    m.startPulse now = { m with pulse := some now, pulseFrom := m.pulseFrom + pulseEnergy } := if_pos (by simp [hpulse, hdue])

theorem MuRegs.startPulse_none {m : MuRegs} (now : Nat) (h : ¬ (m.pulse = none ∧ m.pulseFrom + pulseEnergy ≤ m.eMain + m.eAux)) :
    m.startPulse now = m := if_neg (by simpa using h)

theorem State.finishWrite_none {s : State} (h : s.mu.writing = none) : s.finishWrite = s := by
  unfold State.finishWrite
  rw [h]

/-- The rails of one unit before and after a sample. -/
def Rails.Seen (r r' : Rails) (mv mv' now : Nat) : Prop :=
  r'.mainLow = (if mv < 11200 then some (r.mainLow.getD now) else none) ∧ r'.auxLow = (if mv' < 3150 then some (r.auxLow.getD now) else none) ∧
  r'.good = (if 11500 ≤ mv ∧ 3200 ≤ mv' then some (r.good.getD now) else none)

theorem meterSample_counts (s : State) (mv ma mv' ma' : Nat) (ok : Bool) (hon : s.released 2 = true) (hwriting : s.mu.writing = none) :
    let e := s.mu.msMain + mv * ma
    let e' := s.mu.msAux + mv' * ma'
    let total := s.mu.eMain + mv * ma + (s.mu.eAux + mv' * ma')
    let due := s.mu.pulse = none ∧ s.mu.pulseFrom + 360000000000000 ≤ total
    ∃ t, exec (.meterSample mv ma mv' ma' ok) s = .next t ∧
      t.mu.eMain = s.mu.eMain + mv * ma ∧ t.mu.eAux = s.mu.eAux + mv' * ma' ∧ t.pwr.vinMain = BitVec.ofNat 16 mv ∧ t.pwr.vinAux = BitVec.ofNat 16 mv' ∧
      (s.mu.msCount < 999 → t.mu.msCount = s.mu.msCount + 1 ∧ t.mu.msMain = e ∧ t.mu.msAux = e' ∧ t.mu.pMain = s.mu.pMain ∧ t.mu.pMax = s.mu.pMax ∧
        t.mu.overrange = s.mu.overrange) ∧
      (s.mu.msCount = 999 → t.mu.msCount = 0 ∧ t.mu.msMain = 0 ∧ t.mu.msAux = 0 ∧ t.mu.pMain = BitVec.ofNat 32 (e / 1000000) ∧
        t.mu.pAux = BitVec.ofNat 32 (e' / 1000000) ∧ t.mu.pMax = max s.mu.pMax ((e + e') / 1000000) ∧
        t.mu.overrange = (s.mu.overrange || decide (1375000000000 < e + e')) ∧ (1375000000000 < e + e' → t.mu.alarms.getLsbD 1 = true)) ∧
      t.mu.selfCheck = (s.mu.selfCheck || !ok) ∧ (ok = false → t.mu.alarms.getLsbD 2 = true) ∧ t.mu.newest = s.mu.newest ∧ t.mu.slots = s.mu.slots ∧
      (due → t.mu.pulse = some (s.clk / 9450) ∧ t.mu.pulseFrom = s.mu.pulseFrom + 360000000000000) ∧
      (¬ due → t.mu.pulse = s.mu.pulse ∧ t.mu.pulseFrom = s.mu.pulseFrom) ∧
      (∀ r r' : Rails, (r, r') = (s.pwr.rails, t.pwr.rails) ∨ (r, r') = (s.mu.rails, t.mu.rails) → r.Seen r' mv mv' s.clk) ∧
      ({ t with mu := s.mu, es := s.es, pwr := { t.pwr with vinMain := s.pwr.vinMain, vinAux := s.pwr.vinAux, rails := s.pwr.rails } } : State) = s := by
  intro e e' total due
  obtain ⟨es, al, hsample, hfailed, hrange⟩ := s.counted_leaves mv ma mv' ma' ok
  have hexec := exec_meterSample hon mv ma mv' ma' ok
  rw [State.finishWrite_none hwriting, hsample] at hexec
  have hcount : (s.mu.count (mv * ma) (mv' * ma') ok (s.mu.rails.see mv mv' s.clk)).msCount = s.mu.msCount + 1 := rfl
  have hearly := MuRegs.closeMs_early (m := s.mu.count (mv * ma) (mv' * ma') ok (s.mu.rails.see mv mv' s.clk))
  have hclose := MuRegs.closeMs_due (m := s.mu.count (mv * ma) (mv' * ma') ok (s.mu.rails.see mv mv' s.clk))
  obtain ⟨hmain, haux, hcheck, hnewest, hslots, hrails, hpulse, hfrom, -⟩ :=
    MuRegs.closeMs_keeps (s.mu.count (mv * ma) (mv' * ma') ok (s.mu.rails.see mv mv' s.clk))
  generalize (s.mu.count (mv * ma) (mv' * ma') ok (s.mu.rails.see mv mv' s.clk)).closeMs = n at *
  rw [hcount] at hearly hclose
  have hduePulse := fun h h' => n.startPulse_due s.ns h h'
  have hnonePulse := fun h => n.startPulse_none s.ns h
  obtain ⟨p, f, hn⟩ := n.startPulse_frame s.ns
  rw [hn] at hexec hduePulse hnonePulse
  have hdue : due ↔ n.pulse = none ∧ n.pulseFrom + pulseEnergy ≤ n.eMain + n.eAux := by
    rw [hpulse, hfrom, hmain, haux]
    rfl
  refine ⟨_, hexec, hmain, haux, rfl, rfl, fun h => ?_, fun h => ?_, hcheck, hfailed, hnewest, hslots, fun h => ?_, fun h => ?_, fun r r' h => ?_, rfl⟩
  · rw [hearly (by omega)]
    exact ⟨rfl, rfl, rfl, rfl, rfl, rfl⟩
  · rw [hclose (by omega)]
    exact ⟨rfl, rfl, rfl, rfl, rfl, rfl, rfl, hrange (by omega)⟩
  · obtain ⟨hnone, hsum⟩ := hdue.1 h
    have hstart := hduePulse hnone hsum
    exact ⟨congrArg MuRegs.pulse hstart, (congrArg MuRegs.pulseFrom hstart).trans (by rw [hfrom]; rfl)⟩
  · have hkept := hnonePulse (fun h' => h (hdue.2 h'))
    exact ⟨(congrArg MuRegs.pulse hkept).trans hpulse, (congrArg MuRegs.pulseFrom hkept).trans hfrom⟩
  · obtain h | h := h
    · obtain ⟨rfl, rfl⟩ := Prod.ext_iff.1 h
      exact Rails.see_eq ..
    · obtain ⟨rfl, hr'⟩ := Prod.ext_iff.1 h
      have hseen : r' = s.mu.rails.see mv mv' s.clk := hr'.trans hrails
      rw [hseen]
      exact Rails.see_eq ..

/-! ## Pulses -/

theorem exec_pulseEnd_none {s : State} (h : s.mu.pulse = none) : exec .pulseEnd s = .next s := by
  change execPulseEnd s = _
  unfold execPulseEnd
  rw [h]

theorem State.clk_toNs (s : State) (n : Nat) : (s.toNs n).clk = max s.clk (n * 9450) := s.clk_toClk _

theorem State.pulseDue_setMu (s : State) (m : MuRegs) : ({ s with mu := m } : State).pulseDue = { s with mu := m.startPulse s.ns } :=
  State.pulseDue_eq _

/-- The unit with its contact released. -/
def MuRegs.endPulse (m : MuRegs) : MuRegs := { m with pulse := none }

theorem MuRegs.endPulse_eMain (m : MuRegs) : m.endPulse.eMain = m.eMain := rfl
theorem MuRegs.endPulse_eAux (m : MuRegs) : m.endPulse.eAux = m.eAux := rfl
theorem MuRegs.endPulse_pulseFrom (m : MuRegs) : m.endPulse.pulseFrom = m.pulseFrom := rfl
theorem pulseEnergy_eq : pulseEnergy = 360000000000000 := rfl

theorem exec_pulseEnd {s : State} {t0 : Nat} (h : s.mu.pulse = some t0) :
    exec .pulseEnd s = .next ({ s.toNs (t0 + 20000000) with mu := (s.toNs (t0 + 20000000)).mu.endPulse } : State).pulseDue := by
  change execPulseEnd s = _
  unfold execPulseEnd
  rw [h]
  dsimp only
  generalize t0 + 20000000 = w
  rfl

/-- What the end of a pulse leaves, given the state `u` at that time. -/
theorem endPulse_leaves {s u : State} {at' : Nat} (hclk : u.clk = at') (hdata : u.data = s.data) (hmu : u.mu = s.mu) :
    ∃ t, ({ u with mu := u.mu.endPulse } : State).pulseDue = t ∧ t.clk = at' ∧ t.data = s.data ∧ t.mu.eMain = s.mu.eMain ∧ t.mu.eAux = s.mu.eAux ∧
      t.mu.slots = s.mu.slots ∧ (s.mu.eMain + s.mu.eAux < s.mu.pulseFrom + 360000000000000 → t.mu = { s.mu with pulse := none }) ∧
      (s.mu.pulseFrom + 360000000000000 ≤ s.mu.eMain + s.mu.eAux →
        t.mu = { s.mu with pulse := some (t.clk / 9450), pulseFrom := s.mu.pulseFrom + 360000000000000 }) := by
  have hdue := fun hsum => s.mu.endPulse.startPulse_due u.ns rfl hsum
  have hnone := fun hsum => s.mu.endPulse.startPulse_none u.ns hsum
  obtain ⟨p, f, hpulse⟩ := s.mu.endPulse.startPulse_frame u.ns
  rw [MuRegs.endPulse_eMain, MuRegs.endPulse_eAux, MuRegs.endPulse_pulseFrom, pulseEnergy_eq] at hdue hnone
  refine ⟨_, rfl, ?_⟩
  rw [State.pulseDue_setMu, hmu]
  exact ⟨hclk, hdata, (congrArg MuRegs.eMain hpulse).trans rfl, (congrArg MuRegs.eAux hpulse).trans rfl, (congrArg MuRegs.slots hpulse).trans rfl,
    fun hsum => hnone fun hsum' => absurd hsum'.2 (Nat.not_le.2 hsum), hdue⟩

theorem pulseEnd_acts {s : State} {t0 : Nat} (h : s.mu.pulse = some t0) : ∃ t, exec .pulseEnd s = .next t ∧
    t.clk = max s.clk ((t0 + 20000000) * 9450) ∧ t.data = s.data ∧ t.mu.eMain = s.mu.eMain ∧ t.mu.eAux = s.mu.eAux ∧ t.mu.slots = s.mu.slots ∧
    (s.mu.eMain + s.mu.eAux < s.mu.pulseFrom + 360000000000000 → t.mu = { s.mu with pulse := none }) ∧
    (s.mu.pulseFrom + 360000000000000 ≤ s.mu.eMain + s.mu.eAux →
      t.mu = { s.mu with pulse := some (t.clk / 9450), pulseFrom := s.mu.pulseFrom + 360000000000000 }) := by
  obtain ⟨-, hdata, -, -, -, hmu, -⟩ := (s.drifts_toNs (t0 + 20000000)).frame
  obtain ⟨t, ht, hleaves⟩ := endPulse_leaves (s.clk_toNs (t0 + 20000000)) hdata hmu
  exact ⟨t, by rw [exec_pulseEnd h, ht], hleaves⟩

/-! ## The ledger (R506 to R511) -/

theorem State.Drifts.freeCtr {s t : State} (h : s.Drifts t) : t.freeCtr = s.freeCtr := by
  obtain ⟨_, _, _, _, _, _, _, _, _, _, _, _, rfl⟩ := h.1
  rfl

/-- When the interval closes. -/
def MuRegs.closesAt (m : MuRegs) : Nat := m.time0 + (m.startT + 60000000000) * 9450

/-- The record of the interval that closes. -/
def MuRegs.record (m : MuRegs) : Ledger :=
  { flags := b2n m.first + 8 * b2n m.overrange + 16 * b2n m.selfCheck, number := m.next, boot := m.boot.toNat, interval := 60,
    tStart := m.startT, tEnd := m.startT + 60000000000, eMain := min (m.eMain / 1000000) (2 ^ 64 - 1), eAux := min (m.eAux / 1000000) (2 ^ 64 - 1),
    dMain := min (m.eMain / 1000000) (2 ^ 64 - 1) - min (m.startMain / 1000000) (2 ^ 64 - 1),
    dAux := min (m.eAux / 1000000) (2 ^ 64 - 1) - min (m.startAux / 1000000) (2 ^ 64 - 1), pMax := m.pMax }

theorem interval_ns : interval * 1000000000 = 60000000000 := rfl

theorem State.closing_eq (s : State) : s.closing = s.mu.record := by
  unfold State.closing MuRegs.record microJ
  rw [interval_ns]
  rfl

/-- The unit at the start of an interval that follows one with the registers `m`. -/
def MuRegs.reopen (n m : MuRegs) (tEnd : Nat) : MuRegs :=
  { n with startT := tEnd, startMain := m.eMain, startAux := m.eAux, pMax := 0, overrange := false, selfCheck := false, first := false }

/-- An interval's end: the alarms of the range and of the check fall where the interval did not raise them. -/
def State.reopen (s : State) (m : MuRegs) (tEnd : Nat) : State :=
  let s := if m.overrange then s else s.unalarm 1
  let s := if m.selfCheck then s else s.unalarm 2
  { s with mu := s.mu.reopen m tEnd }

theorem getLsbD_unalarm (a : BitVec 5) {i j : Nat} (h : i ≠ j) : (a &&& ~~~(1#5 <<< j)).getLsbD i = a.getLsbD i := by
  by_cases hi : i < 5
  · rw [BitVec.getLsbD_and, BitVec.getLsbD_not, BitVec.getLsbD_shiftLeft, BitVec.getLsbD_one]
    have hne : decide (i - j = 0) = false ∨ decide (i < j) = true := by simp only [decide_eq_true_eq, decide_eq_false_iff_not]; omega
    obtain hne | hne := hne <;> simp [hne, hi]
  · rw [BitVec.getLsbD_of_ge _ _ (by omega), BitVec.getLsbD_of_ge _ _ (by omega)]

theorem State.reopen_frame (s : State) (m : MuRegs) (tEnd : Nat) : ∃ al, s.reopen m tEnd = { s with mu := { s.mu.reopen m tEnd with alarms := al } } ∧
    ∀ i, i ≠ 1 → i ≠ 2 → al.getLsbD i = s.mu.alarms.getLsbD i := by
  unfold State.reopen
  cases m.overrange <;> cases m.selfCheck
  · exact ⟨_, rfl, fun i h1 h2 => (getLsbD_unalarm _ h2).trans (getLsbD_unalarm _ h1)⟩
  · exact ⟨_, rfl, fun i h1 _ => getLsbD_unalarm _ h1⟩
  · exact ⟨_, rfl, fun i _ h2 => getLsbD_unalarm _ h2⟩
  · exact ⟨s.mu.alarms, rfl, fun _ _ _ => rfl⟩

theorem exec_intervalClose_off {s : State} (hoff : s.released 2 = false) (write : LedgerWrite) : exec (.intervalClose write) s = .next s :=
  congrArg Host.Outcome.next (if_pos (by simp [State.muOn, hoff]))

theorem exec_intervalClose {s u : State} (hon : s.released 2 = true) (write : LedgerWrite) (hu : (s.toClk s.mu.closesAt).finishWrite = u) :
    exec (.intervalClose write) s = .next ((u.dueRecord u.mu.record write).reopen u.mu u.mu.record.tEnd) := by
  refine congrArg Host.Outcome.next ((if_neg (by simp [State.muOn, hon])).trans ?_)
  have hat : s.mu.time0 + (s.mu.startT + interval * 1000000000) * unitsPerNs = s.mu.closesAt := by
    rw [interval_ns]
    rfl
  rw [hat, hu, State.reopen, ← State.closing_eq]
  rfl

theorem lastRecord_lt {n : Nat} : lastRecord < n ↔ 2 ^ 40 ≤ n := Nat.succ_le_iff.symm
theorem le_lastRecord {n : Nat} : n ≤ lastRecord ↔ n < 2 ^ 40 := Nat.lt_succ_iff.symm

/-- The number after the one of the record that falls due. -/
def State.numbered (s : State) : State := { s with mu := { s.mu with next := s.mu.next + 1 } }

/-- The COMMIT of a record is still to come. -/
def State.startWrite (s : State) (r : Ledger) : State := { s with mu := { s.mu with writing := some r } }

theorem State.startWrite_mu (s : State) (r : Ledger) : (s.startWrite r).mu.newest = s.mu.newest ∧ (s.startWrite r).mu.slots = s.mu.slots ∧
    (s.startWrite r).mu.next = s.mu.next ∧ (s.startWrite r).mu.pending = s.mu.pending ∧ (s.startWrite r).mu.alarms = s.mu.alarms ∧
    (s.startWrite r).mu.writing = some r := ⟨rfl, rfl, rfl, rfl, rfl, rfl⟩

section
variable {s : State} (r : Ledger)

theorem State.dueRecord_written (hoff : s.mu.inhibit = false) (hnext : s.mu.next < 2 ^ 40) (verified : Bool) :
    s.dueRecord r (if verified then .verified else .failed) = s.numbered.commitRecord r verified := by
  unfold State.dueRecord
  rw [hoff, if_neg (by simp), if_neg (by simpa [lastRecord_lt] using hnext)]
  cases verified <;> rfl

theorem State.dueRecord_started (hoff : s.mu.inhibit = false) (hnext : s.mu.next < 2 ^ 40) :
    s.dueRecord r .started = (s.numbered.writeSlot r).startWrite r := by
  unfold State.dueRecord
  rw [hoff, if_neg (by simp), if_neg (by simpa [lastRecord_lt] using hnext)]
  rfl

theorem State.dueRecord_kept (hon : s.mu.inhibit = true) (h : 16 ≤ s.mu.pending.length ∨ s.mu.next < 2 ^ 40) (write : LedgerWrite) :
    s.dueRecord r write = s.keepRecord r := by
  unfold State.dueRecord
  refine if_pos ?_
  simpa only [hon, le_lastRecord, Bool.true_and, Bool.or_eq_true, decide_eq_true_eq] using h

theorem State.dueRecord_spent (h : 2 ^ 40 ≤ s.mu.next) (hroom : s.mu.inhibit = true → s.mu.pending.length < 16) (write : LedgerWrite) :
    s.dueRecord r write = s := by
  unfold State.dueRecord
  refine (if_neg ?_).trans (if_pos ?_)
  · simp only [le_lastRecord, Bool.and_eq_true, Bool.or_eq_true, decide_eq_true_eq, not_and, not_or]
    exact fun hon => ⟨Nat.not_le.2 (hroom hon), Nat.not_lt.2 h⟩
  · simp only [lastRecord_lt, Bool.or_eq_true, decide_eq_true_eq]
    exact .inr h

/-- The record that falls due during an inhibit carries DELAYED. -/
def Ledger.delayed (r : Ledger) : Ledger := { r with flags := r.flags ||| 2 }

theorem State.keepRecord_append (h : s.mu.pending.length < 16) : ∃ e, s.keepRecord r = { s with es := e, mu := { s.mu with
    pending := s.mu.pending ++ [r.delayed], next := s.mu.next + 1, alarms := s.mu.alarms ||| (1#5 <<< 4) } } := by
  unfold State.keepRecord
  dsimp only
  rw [if_pos h]
  exact State.alarm_frame _ 4

theorem State.keepRecord_merge (h : 16 ≤ s.mu.pending.length) : ∃ e, s.keepRecord r = { s with es := e, mu := { s.mu with
    pending := s.mu.pending.modify 15 (fun a => a.merge r.delayed), alarms := s.mu.alarms ||| (1#5 <<< 4) } } := by
  unfold State.keepRecord
  dsimp only
  rw [if_neg (by omega)]
  exact State.alarm_frame _ 4

end

section
variable {s : State} (r : Ledger)

/-- What the record that falls due leaves. -/
theorem State.dueRecord_frame (write : LedgerWrite) : ∃ n e nx nw sl al pe wr, s.dueRecord r write = { s with
    freeCtr := n, es := e, mu := { s.mu with next := nx, newest := nw, slots := sl, alarms := al, pending := pe, writing := wr } } := by
  have hwritten : ∀ verified, ∃ n e nx nw sl al pe wr, s.numbered.commitRecord r verified = { s with
      freeCtr := n, es := e, mu := { s.mu with next := nx, newest := nw, slots := sl, alarms := al, pending := pe, writing := wr } } := fun verified => by
    obtain ⟨n, e, sl, nw, al, h⟩ := s.numbered.ledgered_commitRecord r verified
    exact ⟨n, e, s.mu.next + 1, nw, sl, al, s.mu.pending, s.mu.writing, h⟩
  unfold State.dueRecord
  split
  · by_cases hroom : s.mu.pending.length < 16
    · obtain ⟨e, h⟩ := State.keepRecord_append r hroom
      exact ⟨s.freeCtr, e, _, s.mu.newest, s.mu.slots, _, _, s.mu.writing, h⟩
    · obtain ⟨e, h⟩ := State.keepRecord_merge r (Nat.not_lt.1 hroom)
      exact ⟨s.freeCtr, e, s.mu.next, s.mu.newest, s.mu.slots, _, _, s.mu.writing, h⟩
  · split
    · exact ⟨s.freeCtr, s.es, s.mu.next, s.mu.newest, s.mu.slots, s.mu.alarms, s.mu.pending, s.mu.writing, rfl⟩
    · cases write with
      | verified => exact hwritten true
      | failed => exact hwritten false
      | started => exact ⟨_, s.es, s.mu.next + 1, s.mu.newest, _, s.mu.alarms, s.mu.pending, some r, rfl⟩

end

theorem getLsbD_alarm_ne (a : BitVec 5) {i j : Nat} (h : i ≠ j) : (a ||| (1#5 <<< j)).getLsbD i = a.getLsbD i := by
  rw [BitVec.getLsbD_or, BitVec.getLsbD_shiftLeft, BitVec.getLsbD_one]
  have hne : decide (i - j = 0) = false ∨ decide (i < j) = true := by simp only [decide_eq_true_eq, decide_eq_false_iff_not]; omega
  obtain hne | hne := hne <;> simp [hne]

theorem State.alarms_alarm_ne (s : State) {i j : Nat} (h : i ≠ j) : (s.alarm j).mu.alarms.getLsbD i = s.mu.alarms.getLsbD i := by
  obtain ⟨e, hs⟩ := s.alarm_frame j
  rw [hs]
  exact getLsbD_alarm_ne _ h

/-- An alarm leaves the ledger. -/
theorem State.alarm_mu (s : State) (i : Nat) : (s.alarm i).mu.newest = s.mu.newest ∧ (s.alarm i).mu.slots = s.mu.slots ∧
    (s.alarm i).mu.next = s.mu.next ∧ (s.alarm i).mu.pending = s.mu.pending ∧ (s.alarm i).mu.writing = s.mu.writing := by
  obtain ⟨e, h⟩ := s.alarm_frame i
  rw [h]
  exact ⟨rfl, rfl, rfl, rfl, rfl⟩

theorem State.writeSlot_mu (s : State) (r : Ledger) : (s.writeSlot r).mu.newest = s.mu.newest ∧ (s.writeSlot r).mu.next = s.mu.next ∧
    (s.writeSlot r).mu.pending = s.mu.pending ∧ (s.writeSlot r).mu.writing = s.mu.writing ∧ (s.writeSlot r).mu.alarms = s.mu.alarms := by
  unfold State.writeSlot
  exact ⟨rfl, rfl, rfl, rfl, rfl⟩

/-- The registers once a record is committed. -/
theorem State.commitRecord_true_mu (s : State) (r : Ledger) : (s.commitRecord r true).mu.newest = some r.number ∧
    (s.commitRecord r true).mu.slots = tset [] s.mu.slots (r.number % 2048) (r.bytes s.freeCtr) ∧ (s.commitRecord r true).mu.next = s.mu.next ∧
    (s.commitRecord r true).mu.pending = s.mu.pending ∧ (s.commitRecord r true).mu.writing = s.mu.writing := by
  obtain ⟨e, al, h⟩ := s.commitRecord_verified r
  rw [h]
  exact ⟨rfl, by rw [State.writeNewest, State.unalarm], rfl, rfl, rfl⟩

theorem State.commitRecord_true_alarms (s : State) (r : Ledger) : (s.commitRecord r true).mu.alarms.getLsbD 3 = false ∧
    (r.number = lastRecord → (s.commitRecord r true).mu.alarms.getLsbD 0 = true) := by
  have hfail : (s.writeNewest r).mu.alarms.getLsbD 3 = false := by
    have halarms : (s.writeNewest r).mu.alarms = s.mu.alarms &&& ~~~(1#5 <<< 3) := rfl
    rw [halarms]
    simp
  rw [State.commitRecord_true]
  split
  · exact ⟨((s.writeNewest r).alarms_alarm_ne (by decide)).trans hfail, fun _ => State.alarm_raised _ (by decide)⟩
  · next hlast => exact ⟨hfail, fun h => absurd h hlast⟩

theorem State.commitRecord_false_mu (s : State) (r : Ledger) : (s.commitRecord r false).mu.newest = s.mu.newest ∧
    fld (tget [] (s.commitRecord r false).mu.slots (r.number % 2048)) 0x580 8 = 2 ^ 64 - 1 ∧ (s.commitRecord r false).mu.alarms.getLsbD 3 = true ∧
    (s.commitRecord r false).mu.next = s.mu.next ∧ (s.commitRecord r false).mu.pending = s.mu.pending ∧
    (s.commitRecord r false).mu.writing = s.mu.writing := by
  obtain ⟨hnewest, hslots, hnext, hpending, hwriting⟩ := (s.writeSlot r).alarm_mu 3
  obtain ⟨hnewest', hnext', hpending', hwriting', -⟩ := s.writeSlot_mu r
  rw [State.commitRecord_false, hnewest, hslots, hnext, hpending, hwriting]
  exact ⟨hnewest', s.slot_writeSlot r, State.alarm_raised _ (by decide), hnext', hpending', hwriting'⟩

/-- The end of an interval leaves what the record that fell due made of the ledger, and the alarms but those of the range and the check. -/
theorem State.reopen_mu (s : State) (m : MuRegs) (tEnd : Nat) : (s.reopen m tEnd).mu.newest = s.mu.newest ∧ (s.reopen m tEnd).mu.slots = s.mu.slots ∧
    (s.reopen m tEnd).mu.next = s.mu.next ∧ (s.reopen m tEnd).mu.pending = s.mu.pending ∧ (s.reopen m tEnd).mu.writing = s.mu.writing ∧
    ∀ i, i ≠ 1 → i ≠ 2 → (s.reopen m tEnd).mu.alarms.getLsbD i = s.mu.alarms.getLsbD i := by
  obtain ⟨al, h, hal⟩ := s.reopen_frame m tEnd
  rw [h]
  exact ⟨rfl, rfl, rfl, rfl, rfl, hal⟩

/-- What the close of an interval leaves, given the state at that time. -/
theorem interval_keeps (s : State) (write : LedgerWrite) : ∃ t, (s.dueRecord s.mu.record write).reopen s.mu s.mu.record.tEnd = t ∧ t.clk = s.clk ∧
    t.data = s.data ∧ t.mu.startT = s.mu.startT + 60000000000 ∧ t.mu.startMain = s.mu.eMain ∧ t.mu.startAux = s.mu.eAux ∧ t.mu.pMax = 0 ∧
    t.mu.overrange = false ∧ t.mu.selfCheck = false ∧ t.mu.first = false ∧ t.mu.eMain = s.mu.eMain ∧ t.mu.eAux = s.mu.eAux ∧
    t.mu.pulse = s.mu.pulse ∧ t.mu.boot = s.mu.boot := by
  obtain ⟨n, e, nx, nw, sl, al, pe, wr, hdue⟩ := State.dueRecord_frame (s := s) s.mu.record write
  obtain ⟨al', h, -⟩ := (s.dueRecord s.mu.record write).reopen_frame s.mu s.mu.record.tEnd
  refine ⟨_, rfl, ?_⟩
  rw [h, hdue]
  exact ⟨rfl, rfl, rfl, rfl, rfl, rfl, rfl, rfl, rfl, rfl, rfl, rfl, rfl⟩

section
variable {s t : State} {write : LedgerWrite} (ht : (s.dueRecord s.mu.record write).reopen s.mu s.mu.record.tEnd = t)
include ht

/-- Without the inhibit the record is committed, fails, or waits for its COMMIT. -/
theorem interval_written (hoff : s.mu.inhibit = false) (hnext : s.mu.next < 2 ^ 40) :
    t.mu.next = s.mu.next + 1 ∧ t.mu.pending = s.mu.pending ∧
    (write = .verified → t.mu.newest = some s.mu.next ∧ t.mu.slots = tset [] s.mu.slots (s.mu.next % 2048) (s.mu.record.bytes s.freeCtr) ∧
      t.mu.alarms.getLsbD 3 = false ∧ t.mu.writing = s.mu.writing ∧ (s.mu.next = 2 ^ 40 - 1 → t.mu.alarms.getLsbD 0 = true)) ∧
    (write = .failed → t.mu.newest = s.mu.newest ∧ t.mu.writing = s.mu.writing ∧ t.mu.alarms.getLsbD 3 = true ∧
      fld (tget [] t.mu.slots (s.mu.next % 2048)) 0x580 8 = 2 ^ 64 - 1) ∧
    (write = .started → t.mu.newest = s.mu.newest ∧ t.mu.writing = some s.mu.record ∧ t.mu.alarms.getLsbD 3 = s.mu.alarms.getLsbD 3 ∧
      fld (tget [] t.mu.slots (s.mu.next % 2048)) 0x580 8 = 2 ^ 64 - 1) := by
  subst ht
  obtain ⟨hnewest, hslots, hnumber, hpending, hwriting, halarms⟩ := (s.dueRecord s.mu.record write).reopen_mu s.mu s.mu.record.tEnd
  rw [hnewest, hslots, hnumber, hpending, hwriting, halarms 3 (by decide) (by decide), halarms 0 (by decide) (by decide)]
  clear hnewest hslots hnumber hpending hwriting halarms
  cases write with
  | verified =>
    have hdue : s.dueRecord s.mu.record .verified = _ := State.dueRecord_written s.mu.record hoff hnext true
    obtain ⟨hnewest, hslots, hnumber, hpending, hwriting⟩ := s.numbered.commitRecord_true_mu s.mu.record
    obtain ⟨hfail, hfull⟩ := s.numbered.commitRecord_true_alarms s.mu.record
    rw [hdue, hnewest, hslots, hnumber, hpending, hwriting]
    exact ⟨rfl, rfl, fun _ => ⟨rfl, rfl, hfail, rfl, fun h => hfull h⟩, nofun, nofun⟩
  | failed =>
    have hdue : s.dueRecord s.mu.record .failed = _ := State.dueRecord_written s.mu.record hoff hnext false
    obtain ⟨hnewest, hslot, hfail, hnumber, hpending, hwriting⟩ := s.numbered.commitRecord_false_mu s.mu.record
    rw [hdue, hnewest, hnumber, hpending, hwriting]
    exact ⟨rfl, rfl, nofun, fun _ => ⟨rfl, rfl, hfail, hslot⟩, nofun⟩
  | started =>
    obtain ⟨hnewest, hnumber, hpending, -, halarms⟩ := s.numbered.writeSlot_mu s.mu.record
    have hslot := s.numbered.slot_writeSlot s.mu.record
    rw [State.dueRecord_started s.mu.record hoff hnext]
    generalize s.numbered.writeSlot s.mu.record = v at hnewest hnumber hpending halarms hslot ⊢
    obtain ⟨hnewest', hslots', hnumber', hpending', halarms', hwriting'⟩ := v.startWrite_mu s.mu.record
    rw [hnewest', hslots', hnumber', hpending', halarms', hwriting', hnewest, hnumber, hpending, halarms]
    exact ⟨rfl, rfl, nofun, nofun, fun _ => ⟨rfl, rfl, rfl, hslot⟩⟩

/-- Under the inhibit the record waits, in the sixteenth place merged into the one there. -/
theorem interval_kept (hon : s.mu.inhibit = true) (h : 16 ≤ s.mu.pending.length ∨ s.mu.next < 2 ^ 40) :
    t.mu.newest = s.mu.newest ∧ t.mu.slots = s.mu.slots ∧ t.mu.alarms.getLsbD 4 = true ∧
    (s.mu.pending.length < 16 → t.mu.next = s.mu.next + 1 ∧ t.mu.pending = s.mu.pending ++ [s.mu.record.delayed]) ∧
    (16 ≤ s.mu.pending.length → t.mu.next = s.mu.next ∧ t.mu.pending = s.mu.pending.modify 15 (fun a => a.merge s.mu.record.delayed)) := by
  subst ht
  obtain ⟨hnewest, hslots, hnumber, hpending, -, halarms⟩ := (s.dueRecord s.mu.record write).reopen_mu s.mu s.mu.record.tEnd
  rw [hnewest, hslots, hnumber, hpending, halarms 4 (by decide) (by decide), State.dueRecord_kept s.mu.record hon h]
  clear hnewest hslots hnumber hpending halarms
  by_cases hroom : s.mu.pending.length < 16
  · obtain ⟨e, hkept⟩ := State.keepRecord_append s.mu.record hroom
    rw [hkept]
    exact ⟨rfl, rfl, getLsbD_alarm (by decide), fun _ => ⟨rfl, rfl⟩, fun hfull => absurd hroom (Nat.not_lt.2 hfull)⟩
  · obtain ⟨e, hkept⟩ := State.keepRecord_merge s.mu.record (Nat.not_lt.1 hroom)
    rw [hkept]
    exact ⟨rfl, rfl, getLsbD_alarm (by decide), fun h => absurd h hroom, fun _ => ⟨rfl, rfl⟩⟩

/-- After the last record none is committed, and no number is taken. -/
theorem interval_spent (h : 2 ^ 40 ≤ s.mu.next) : t.mu.newest = s.mu.newest ∧ t.mu.slots = s.mu.slots ∧ t.mu.next = s.mu.next := by
  by_cases hfull : s.mu.inhibit = true ∧ 16 ≤ s.mu.pending.length
  · obtain ⟨hon, hlen⟩ := hfull
    obtain ⟨hnewest, hslots, -, -, hmerged⟩ := interval_kept ht hon (.inl hlen)
    exact ⟨hnewest, hslots, (hmerged hlen).1⟩
  · subst ht
    obtain ⟨hnewest, hslots, hnumber, -⟩ := (s.dueRecord s.mu.record write).reopen_mu s.mu s.mu.record.tEnd
    rw [hnewest, hslots, hnumber, State.dueRecord_spent s.mu.record h (fun hon => Nat.not_le.1 fun hlen => hfull ⟨hon, hlen⟩)]
    exact ⟨rfl, rfl, rfl⟩

end

theorem modify_last {f : Ledger → Ledger} {p : List Ledger} (hlen : p.length = 16) : (p.modify 15 f).length = 16 ∧ (p.modify 15 f).take 15 = p.take 15 ∧
    ∀ r, p[15]? = some r → (p.modify 15 f)[15]? = some (f r) := by
  refine ⟨(List.length_modify ..).trans hlen, ?_, fun r hr => ?_⟩
  · refine List.ext_getElem? fun i => ?_
    by_cases hi : i < 15
    · rw [List.getElem?_take_of_lt hi, List.getElem?_take_of_lt hi, List.getElem?_modify_ne f p (by omega)]
    · rw [List.getElem?_eq_none (by rw [List.length_take]; omega), List.getElem?_eq_none (by rw [List.length_take]; omega)]
  · rw [List.getElem?_modify_eq, hr]
    rfl

/-- A merged record keeps its number and start, and takes in the later one. -/
theorem Ledger.merge_delayed (a b : Ledger) : (a.merge b.delayed).number = a.number ∧ (a.merge b.delayed).tStart = a.tStart ∧
    (a.merge b.delayed).tEnd = b.tEnd ∧ (a.merge b.delayed).dMain = a.dMain + b.dMain ∧ (a.merge b.delayed).dAux = a.dAux + b.dAux ∧
    (a.merge b.delayed).flags.testBit 2 = true := by
  have hflags : (a.merge b.delayed).flags = a.flags ||| b.delayed.flags ||| 4 := rfl
  refine ⟨rfl, rfl, rfl, rfl, rfl, ?_⟩
  rw [hflags, Nat.testBit_or, Bool.or_eq_true]
  exact .inr rfl

theorem exec_intervalClose_fresh {s : State} (hon : s.released 2 = true) (hwriting : s.mu.writing = none) (write : LedgerWrite) :
    ∃ u : State, exec (.intervalClose write) s = .next ((u.dueRecord u.mu.record write).reopen u.mu u.mu.record.tEnd) ∧
      u.clk = max s.clk s.mu.closesAt ∧ u.data = s.data ∧ u.mu = s.mu ∧ u.freeCtr = s.freeCtr := by
  have hdrifts := s.drifts_toClk s.mu.closesAt
  obtain ⟨-, hdata, -, -, -, hmu, -⟩ := hdrifts.frame
  exact ⟨_, exec_intervalClose hon write (State.finishWrite_none (by rw [hmu, hwriting])), s.clk_toClk _, hdata, hmu, hdrifts.freeCtr⟩

/-- What a record that falls due without the inhibit makes of the registers `m`. -/
def MuRegs.Written (m n : MuRegs) (write : LedgerWrite) (draw : Nat) : Prop :=
  n.next = m.next + 1 ∧ n.pending = m.pending ∧
  (write = .verified → n.newest = some m.next ∧ n.slots = tset [] m.slots (m.next % 2048) (m.record.bytes draw) ∧
    n.alarms.getLsbD 3 = false ∧ n.writing = none ∧ (m.next = 2 ^ 40 - 1 → n.alarms.getLsbD 0 = true)) ∧
  (write = .failed → n.newest = m.newest ∧ n.writing = none ∧ n.alarms.getLsbD 3 = true ∧
    fld (tget [] n.slots (m.next % 2048)) 0x580 8 = 2 ^ 64 - 1) ∧
  (write = .started → n.newest = m.newest ∧ n.writing = some m.record ∧ n.alarms.getLsbD 3 = m.alarms.getLsbD 3 ∧
    fld (tget [] n.slots (m.next % 2048)) 0x580 8 = 2 ^ 64 - 1)

/-- What one that falls due under it makes of them, while there is a place for it. -/
def MuRegs.Kept (m n : MuRegs) : Prop := n.newest = m.newest ∧ n.slots = m.slots ∧ n.alarms.getLsbD 4 = true ∧
  (m.pending.length < 16 → n.next = m.next + 1 ∧ n.pending = m.pending ++ [m.record.delayed])

/-- The same where sixteen wait. -/
def MuRegs.Merged (m n : MuRegs) : Prop := n.newest = m.newest ∧ n.slots = m.slots ∧ n.alarms.getLsbD 4 = true ∧ n.next = m.next ∧
  n.pending.length = 16 ∧ n.pending.take 15 = m.pending.take 15 ∧
  ∀ r, m.pending[15]? = some r → ∃ r', n.pending[15]? = some r' ∧ r'.number = r.number ∧ r'.tStart = r.tStart ∧ r'.tEnd = m.record.tEnd ∧
    r'.dMain = r.dMain + m.record.dMain ∧ r'.dAux = r.dAux + m.record.dAux ∧ r'.flags.testBit 2 = true

theorem intervalClose_acts (s : State) (write : LedgerWrite) (hon : s.released 2 = true) (hwriting : s.mu.writing = none) :
    ∃ t, exec (.intervalClose write) s = .next t ∧ t.clk = max s.clk s.mu.closesAt ∧ t.data = s.data ∧
      t.mu.startT = s.mu.startT + 60000000000 ∧ t.mu.startMain = s.mu.eMain ∧ t.mu.startAux = s.mu.eAux ∧ t.mu.pMax = 0 ∧
      t.mu.overrange = false ∧ t.mu.selfCheck = false ∧ t.mu.first = false ∧ t.mu.eMain = s.mu.eMain ∧ t.mu.eAux = s.mu.eAux ∧
      t.mu.pulse = s.mu.pulse ∧ t.mu.boot = s.mu.boot ∧ (s.mu.next < 2 ^ 40 → s.mu.inhibit = false → s.mu.Written t.mu write s.freeCtr) ∧
      (s.mu.next < 2 ^ 40 → s.mu.inhibit = true → s.mu.Kept t.mu) ∧ (s.mu.inhibit = true → s.mu.pending.length = 16 → s.mu.Merged t.mu) ∧
      (2 ^ 40 ≤ s.mu.next → t.mu.newest = s.mu.newest ∧ t.mu.slots = s.mu.slots ∧ t.mu.next = s.mu.next) := by
  obtain ⟨u, hexec, hclk, hdata, hmu, hfree⟩ := exec_intervalClose_fresh hon hwriting write
  obtain ⟨t, ht, hclk', hdata', hkeeps⟩ := interval_keeps u write
  have hwritten := interval_written ht
  have hkept := interval_kept ht
  have hspent := interval_spent ht
  rw [hmu] at hkeeps hwritten hkept hspent
  rw [hfree, hwriting] at hwritten
  obtain ⟨hT, hM, hA, hP, hO, hC, hF, hEM, hEA, hpulse, hboot⟩ := hkeeps
  refine ⟨t, by rw [hexec, ht], hclk'.trans hclk, hdata'.trans hdata, hT, hM, hA, hP, hO, hC, hF, hEM, hEA, hpulse, hboot,
    fun hnext hoff => hwritten hoff hnext, fun hnext hon => ?_, fun hon hfull => ?_, hspent⟩
  · obtain ⟨hnewest, hslots, halarm, happend, -⟩ := hkept hon (.inr hnext)
    exact ⟨hnewest, hslots, halarm, happend⟩
  · obtain ⟨hnewest, hslots, halarm, -, hmerge⟩ := hkept hon (.inl hfull.ge)
    obtain ⟨hnumber, hpending⟩ := hmerge hfull.ge
    obtain ⟨hlen, htake, hlast⟩ := modify_last (f := fun a => a.merge s.mu.record.delayed) hfull
    rw [MuRegs.Merged, hpending]
    exact ⟨hnewest, hslots, halarm, hnumber, hlen, htake, fun r hr => ⟨_, hlast r hr, r.merge_delayed _⟩⟩

/-! ## Samples after the last record (R511) -/

theorem State.finishWrite_mu (s : State) : s.finishWrite.mu.eMain = s.mu.eMain ∧ s.finishWrite.mu.eAux = s.mu.eAux ∧
    s.finishWrite.mu.next = s.mu.next ∧ s.finishWrite.mu.pulse = s.mu.pulse ∧ s.finishWrite.mu.pulseFrom = s.mu.pulseFrom := by
  unfold State.finishWrite
  split
  · split
    · exact ⟨rfl, rfl, rfl, rfl, rfl⟩
    · next r _ _ =>
      obtain ⟨n, e, sl, nw, al, h⟩ := ({ s with mu := { s.mu with writing := none } } : State).ledgered_commitHeld r
      rw [h]
      exact ⟨rfl, rfl, rfl, rfl, rfl⟩
  · exact ⟨rfl, rfl, rfl, rfl, rfl⟩

theorem meterSample_spent (s : State) (mv ma mv' ma' : Nat) (ok : Bool) (hon : s.released 2 = true) : ∃ t, exec (.meterSample mv ma mv' ma' ok) s = .next t ∧
    t.mu.eMain = s.mu.eMain + mv * ma ∧ t.mu.eAux = s.mu.eAux + mv' * ma' ∧ t.mu.next = s.mu.next ∧
    (s.mu.pulse = none → s.mu.pulseFrom + 360000000000000 ≤ t.mu.eMain + t.mu.eAux → t.mu.pulse ≠ none) := by
  have hexec := exec_meterSample hon mv ma mv' ma' ok
  obtain ⟨hmain, haux, hnumber, hpulse, hfrom⟩ := s.finishWrite_mu
  generalize s.finishWrite = u at hexec hmain haux hnumber hpulse hfrom
  obtain ⟨es, al, hsample, -⟩ := u.counted_leaves mv ma mv' ma' ok
  rw [hsample] at hexec
  obtain ⟨hmain', haux', -, -, -, -, hpulse', hfrom', hnumber'⟩ :=
    MuRegs.closeMs_keeps (u.mu.count (mv * ma) (mv' * ma') ok (u.mu.rails.see mv mv' u.clk))
  generalize (u.mu.count (mv * ma) (mv' * ma') ok (u.mu.rails.see mv mv' u.clk)).closeMs = n at hexec hmain' haux' hpulse' hfrom' hnumber'
  have hdue := fun h h' => n.startPulse_due u.ns h h'
  obtain ⟨p, f, hn⟩ := n.startPulse_frame u.ns
  rw [hn] at hexec hdue
  rw [hfrom'.trans hfrom, pulseEnergy_eq] at hdue
  refine ⟨_, hexec, hmain'.trans (congrArg (· + _) hmain), haux'.trans (congrArg (· + _) haux), hnumber'.trans hnumber, fun hnone hsum => ?_⟩
  have hstart := congrArg MuRegs.pulse (hdue ((hpulse'.trans hpulse).trans hnone) hsum)
  exact fun h => Option.some_ne_none _ (hstart.symm.trans h)

/-! ## The sideband (R550, R502) -/

theorem exec_i3cOffsetSelect_meter (s : State) (offset count : Nat) : exec (.i3cOffsetSelect true ⟨offset, count⟩) s = .next { s with pins := { s.pins with
    mtrOffset := BitVec.ofNat 24 (offset + min count 256),
    i3cOut := (upTo (min count 256)).map (fun k => s.meterByte ((offset + k) % 2 ^ 24)) } } := rfl

theorem exec_i3cOffsetSelect_bmc (s : State) (offset count : Nat) : exec (.i3cOffsetSelect false ⟨offset, count⟩) s = .next { s with pins := { s.pins with
    bmcOffset := BitVec.ofNat 24 (offset + min count 256),
    i3cOut := (upTo (min count 256)).map (fun k => s.bmcByte ((offset + k) % 2 ^ 24)) } } := rfl

theorem State.meterByte_slot (s : State) {slot k : Nat} (hslot : slot < 2048) (hk : k < 2048) :
    s.meterByte (0x400000 + 2048 * slot + k) = ((tget [] s.mu.slots slot)[k]?).getD 0 := by
  have hplace : (0x400000 + 2048 * slot + k - 0x400000) / 2048 = slot := by omega
  have hbyte : (0x400000 + 2048 * slot + k) % 2048 = k := by omega
  unfold State.meterByte
  rw [if_neg (by omega), if_pos, hplace, hbyte]
  simp only [Bool.and_eq_true, decide_eq_true_eq]
  omega

theorem regAt_muStatus : ∀ k, k < 4 → regAt (3 * 1048576 + (4 + k)) = some (.muStatus, k, 4) := by decide
theorem regAt_rstcStatus : ∀ k, k < 4 → regAt (0x100004 + k) = some (.rstcStatus, k, 4) := by decide

/-- A byte of a register of four. -/
theorem regByte_slice (v : Nat) {k : Nat} (hk : k < 4) :
    BitVec.ofNat 8 (v / 2 ^ (8 * (k / 4 * 4)) % 2 ^ (8 * 4) / 2 ^ (8 * (k % 4))) = BitVec.ofNat 8 (v / 2 ^ (8 * k)) := by
  have hword : k / 4 = 0 := by omega
  have hplace : k % 4 = k := by omega
  refine BitVec.eq_of_toNat_eq ?_
  rw [hword, hplace, BitVec.toNat_ofNat, BitVec.toNat_ofNat]
  have hsplit : 2 ^ (8 * 4) = 2 ^ (8 * k) * 2 ^ (8 * (4 - k)) := by rw [← pow_add]; congr 1; omega
  have hdvd : 2 ^ 8 ∣ 2 ^ (8 * (4 - k)) := pow_dvd_pow 2 (by omega)
  rw [Nat.zero_mul, Nat.mul_zero, pow_zero, Nat.div_one, hsplit, Nat.mod_mul_right_div_self, Nat.mod_mod_of_dvd _ hdvd]

theorem State.meterByte_status (s : State) {k : Nat} (hk : k < 4) : s.meterByte (4 + k) = BitVec.ofNat 8 (s.regValue .muStatus / 2 ^ (8 * k)) := by
  unfold State.meterByte State.regByte
  rw [if_pos (by omega), regAt_muStatus k hk]
  exact regByte_slice _ hk

theorem State.bmcByte_status (s : State) {k : Nat} (hk : k < 4) :
    s.bmcByte (0x100004 + k) = BitVec.ofNat 8 (s.regValue .rstcStatus / 2 ^ (8 * k)) := by
  have hblock : (0x100004 + k) / 1048576 = 1 := by omega
  unfold State.bmcByte State.regByte
  rw [hblock, if_pos (by decide : ([1, 2, 11] : List Nat).contains 1 = true), regAt_rstcStatus k hk]
  exact regByte_slice _ hk

/-! ## JTAG (R551 to R553) -/

/-- An instruction of the port enters the instruction register, and of the rest of the machine only the pins and the draw may move. -/
def State.Loads (s : State) (i : Instr) (code : BitVec 8) (drives hiz : Bool) : Prop :=
  ∃ t, exec i s = .next t ∧ ({ t with pins := s.pins, freeCtr := s.freeCtr } : State) = s ∧ t.pins.ir = code ∧
    t.pins.driven = (drives && s.rst.resetLow) ∧ t.pins.hiz = (hiz && s.rst.resetLow) ∧ (code ≠ 1 → t.pins.boundary = s.pins.boundary) ∧
    (code = 2 → t.pins.shifted = Config.idcode.toNat) ∧
    ({ t.pins with ir := s.pins.ir, driven := s.pins.driven, hiz := s.pins.hiz, boundary := s.pins.boundary, shifted := s.pins.shifted } :
      PinRegs) = s.pins

/-- The pins once an instruction is loaded. -/
def State.loaded (s : State) (code : BitVec 8) (drives hiz : Bool) (draw boundary shifted : Nat) : State :=
  { s with freeCtr := draw, pins := { s.pins with
    ir := code, driven := drives && s.rst.resetLow, hiz := hiz && s.rst.resetLow, boundary := boundary, shifted := shifted } }

theorem State.loads_of {s : State} {i : Instr} {code : BitVec 8} {drives hiz : Bool} {draw boundary shifted : Nat}
    (h : exec i s = .next (s.loaded code drives hiz draw boundary shifted)) (hboundary : code ≠ 1 → boundary = s.pins.boundary)
    (hshifted : code = 2 → shifted = Config.idcode.toNat) : s.Loads i code drives hiz :=
  ⟨_, h, rfl, rfl, rfl, rfl, hboundary, hshifted, rfl⟩

theorem State.jtag_eq (s : State) (code : Nat) : s.jtag code = s.loaded (BitVec.ofNat 8 code)
    (([0, 3, 4, 5] : List Nat).contains (BitVec.ofNat 8 code).toNat) (BitVec.ofNat 8 code == 6) s.freeCtr s.pins.boundary s.pins.shifted := by
  rw [State.loaded, Bool.and_comm _ s.rst.resetLow, Bool.and_comm _ s.rst.resetLow]
  rfl

theorem State.loads_shift {s : State} {i : Instr} {code : Nat} {drives hiz : Bool} {v : Nat} (h : exec i s = .next ((s.jtag code).shiftOut v))
    (hdrives : (([0, 3, 4, 5] : List Nat).contains (BitVec.ofNat 8 code).toNat) = drives) (hhiz : (BitVec.ofNat 8 code == 6) = hiz)
    (hv : BitVec.ofNat 8 code = 2 → v = Config.idcode.toNat) : s.Loads i (BitVec.ofNat 8 code) drives hiz := by
  rw [State.jtag_eq, hdrives, hhiz] at h
  exact State.loads_of h (fun _ => rfl) hv

theorem State.loads_extest {s : State} {i : Instr} {code : Nat} (h : exec i s = .next (s.extest code))
    (hdrives : (([0, 3, 4, 5] : List Nat).contains (BitVec.ofNat 8 code).toNat) = true) (hhiz : (BitVec.ofNat 8 code == 6) = false)
    (hcode : BitVec.ofNat 8 code ≠ 2) : s.Loads i (BitVec.ofNat 8 code) true false := by
  unfold State.extest at h
  dsimp only at h
  rw [State.jtag_eq, hdrives, hhiz] at h
  split at h
  · exact State.loads_of (draw := s.freeCtr + 1) h (fun _ => rfl) (fun h2 => absurd h2 hcode)
  · exact State.loads_of h (fun _ => rfl) (fun h2 => absurd h2 hcode)

/-- The levels that the boundary register captures. -/
def State.captured (s : State) : Nat := sumNat ((upTo cells).map (fun k => b2n ((s.cellLevel k).getD (s.draw.1.testBit k)) * 2 ^ k))

theorem testBit_sumBits (f : Nat → Bool) {n i : Nat} (hi : i < n) : (sumNat ((upTo n).map (fun k => b2n (f k) * 2 ^ k))).testBit i = f i := by
  have hterm : ∀ k, b2n (f k) * 2 ^ k = if ¬ f k = true then 0 else 2 ^ k := fun k => by
    cases f k
    · exact Nat.zero_mul _
    · exact Nat.one_mul _
  rw [Bool.eq_iff_iff, List.map_congr_left fun k _ => hterm k, testBit_sumIte (pairwise_upTo n) (fun k => ¬ f k = true) i, mem_upTo, Decidable.not_not]
  exact and_iff_right hi

theorem State.testBit_captured (s : State) {k : Nat} (hk : k < cells) :
    s.captured.testBit k = (s.cellLevel k).getD (s.draw.1.testBit k) := by
  unfold State.captured
  exact testBit_sumBits (fun k => (s.cellLevel k).getD (s.draw.1.testBit k)) hk

theorem State.shifted_loaded (s : State) (code : BitVec 8) (drives hiz : Bool) (draw boundary shifted : Nat) :
    (s.loaded code drives hiz draw boundary shifted).pins.shifted = shifted := rfl

theorem State.captureCells_eq (s : State) : s.captureCells = { s with freeCtr := s.freeCtr + 1, pins := { s.pins with shifted := s.captured } } := by
  unfold State.captureCells State.captured State.shiftOut State.draw
  rfl

theorem State.preloadCells_eq (s : State) :
    s.preloadCells = { s with freeCtr := s.freeCtr + 1, pins := { s.pins with boundary := Config.freeValue s.freeCtr % 2 ^ cells } } := by
  unfold State.preloadCells State.draw
  rfl

theorem State.jtag_samplePreload (s : State) : s.jtag 1 = s.loaded 1 false false s.freeCtr s.pins.boundary s.pins.shifted := s.jtag_eq 1

theorem exec_samplePreload (s : State) : exec .samplePreload s = .next (s.loaded 1 false false (s.freeCtr + 1 + 1)
    (Config.freeValue (s.freeCtr + 1) % 2 ^ cells) (s.loaded 1 false false s.freeCtr s.pins.boundary s.pins.shifted).captured) := by
  change Host.Outcome.next (s.jtag 0x01).captureCells.preloadCells = _
  rw [State.jtag_samplePreload, State.captureCells_eq, State.preloadCells_eq]
  generalize (s.loaded 1 false false s.freeCtr s.pins.boundary s.pins.shifted).captured = v
  rfl

theorem State.loads_samplePreload (s : State) : s.Loads .samplePreload 1 false false :=
  State.loads_of (exec_samplePreload s) (fun h => absurd rfl h) (fun h => absurd h (by decide))

/-- A contact that no instruction drives or floats is in its own state. -/
theorem State.contact_own {s : State} (hhiz : s.pins.hiz = false) (hdriven : s.pins.driven = false) (n : Nat) :
    s.contact (.config n) = s.configPin n := by
  change s.scanned _ _ = _
  rw [State.scanned, hhiz, hdriven, if_neg Bool.false_ne_true, if_neg Bool.false_ne_true]

theorem samplePreload_captures (s : State) : ∃ t, exec .samplePreload s = .next t ∧
    ∀ n v, 1 ≤ n → n ≤ 3185 → ({ s with pins := t.pins } : State).contact (.config n) = .drive v → t.pins.shifted.testBit (n - 1) = v := by
  refine ⟨_, (exec_samplePreload s), fun n v hlo hhi hdrive => ?_⟩
  rw [State.contact_own rfl rfl] at hdrive
  have hn : n - 1 + 1 = n := by omega
  have hlevel : (s.loaded 1 false false s.freeCtr s.pins.boundary s.pins.shifted).cellLevel (n - 1) = some v := by
    unfold State.cellLevel
    rw [if_pos (by omega), hn, State.contact_own rfl rfl]
    exact congrArg Pin.level hdrive
  rw [State.shifted_loaded, State.testBit_captured _ (by unfold cells; omega), hlevel]
  rfl

theorem State.contact_driven {s : State} (hdriven : s.pins.driven = true) (hhiz : s.pins.hiz = false) {n : Nat} (hlo : 1 ≤ n) (hhi : n ≤ 3185)
    (hreceives : receives n = false) (hlane : isLane n = false ∨ s.pins.ir ≠ 3 ∧ s.pins.ir ≠ 4) :
    s.contact (.config n) = .drive (s.pins.boundary.testBit (n - 1)) := by
  change s.scanned _ _ = _
  rw [State.scanned, hhiz, hdriven, if_neg Bool.false_ne_true, if_pos rfl, State.scanPin, if_neg, hreceives, if_neg Bool.false_ne_true, if_neg]
  · rfl
  · simp only [Bool.and_eq_true, Bool.or_eq_true, beq_iff_eq]
    obtain hlane | ⟨h3, h4⟩ := hlane
    · exact fun h => Bool.false_ne_true (hlane.symm.trans h.1)
    · exact fun h => h.2.elim h3 h4
  · simp only [Bool.or_eq_true, decide_eq_true_eq]
    omega

theorem State.contact_hiz {s : State} (hhiz : s.pins.hiz = true) (n : Nat) : s.contact (.config n) = .hiZ := if_pos hhiz

/-- Settles O60: each command from what it makes of the state. -/
theorem meterAndSideband : Obligations.MeterAndSideband := by
  unfold Obligations.MeterAndSideband
  refine ⟨⟨meterSample_counts, fun s mv ma mv' ma' ok hoff => exec_meterSample_off hoff mv ma mv' ma' ok, fun s t0 h => pulseEnd_acts h,
    fun s h => exec_pulseEnd_none h⟩, ⟨?_, fun s write hoff => exec_intervalClose_off hoff write,
    fun s mv ma mv' ma' ok hon _ => meterSample_spent s mv ma mv' ma' ok hon⟩, fun s => ⟨?_, ?_, ?_, ?_, ?_, ?_, ?_, ?_, ?_, ?_, ?_, ?_, ?_, ?_, ?_⟩⟩
  · exact fun s write hon hwriting => intervalClose_acts s write hon hwriting
  · exact fun offset count => ⟨exec_i3cOffsetSelect_meter s offset count, exec_i3cOffsetSelect_bmc s offset count⟩
  · exact fun slot k hslot hk => s.meterByte_slot hslot hk
  · exact fun k hk => ⟨s.meterByte_status hk, s.bmcByte_status hk⟩
  · exact State.loads_extest (code := 0x00) rfl rfl rfl (by decide)
  · exact s.loads_samplePreload
  · exact State.loads_shift (code := 0x02) rfl rfl rfl (fun _ => rfl)
  · exact State.loads_extest (code := 0x03) rfl rfl rfl (by decide)
  · exact State.loads_extest (code := 0x04) rfl rfl rfl (by decide)
  · exact State.loads_shift (code := 0x05) rfl rfl rfl (fun h => absurd h (by decide))
  · exact State.loads_shift (code := 0x06) rfl rfl rfl (fun h => absurd h (by decide))
  · exact State.loads_shift (code := 0xFF) rfl rfl rfl (fun h => absurd h (by decide))
  · exact State.loads_shift (code := 0x02) rfl rfl rfl (fun _ => rfl)
  · exact samplePreload_captures s
  · exact fun hdriven hhiz n hlo hhi hreceives hlane => State.contact_driven hdriven hhiz hlo hhi hreceives hlane
  · exact fun hhiz n => State.contact_hiz hhiz n

end Sys2Proof.Machine
end

section
/-! O48: what the host interface does on its own, its enable and the host link (R395 to R397, R408 to R412, R423 to R425). -/
namespace Sys2Proof.Machine

open Sys2Proof

/-! ## What the host interface may change on its own -/

/-- Whether the interface polls, sleeps and may send. -/
def HifRegs.duty (h : HifRegs) : Bool × Bool × Nat × Bool × Bool × Bool := (h.poll, h.sleeping, h.quiet, h.enable, h.bme, h.d3)

/-- The interface at work: registers of its own but for its duty, the event sequencer, host memory and, unless `keep`, what waits in partitions. -/
structure State.Hosts (keep : Prop) (s t : State) : Prop where
  frame : ∃ h e ps host hostP, t = { s with hif := h, es := e, parts := ps, data := { s.data with host := host, hostP := hostP } }
  duty : t.hif.duty = s.hif.duty
  parts : keep → t.parts = s.parts

section
variable {keep : Prop} {s t u : State}

theorem State.Hosts.refl (s : State) : s.Hosts keep s := ⟨⟨s.hif, s.es, s.parts, s.data.host, s.data.hostP, rfl⟩, rfl, fun _ => rfl⟩

theorem State.Hosts.after (h' : t.Hosts keep u) (h : s.Hosts keep t) : s.Hosts keep u := by
  refine ⟨?_, h'.duty.trans h.duty, fun hk => (h'.parts hk).trans (h.parts hk)⟩
  obtain ⟨_, _, _, _, _, rfl⟩ := h.frame
  obtain ⟨hi, e, ps, host, hostP, rfl⟩ := h'.frame
  exact ⟨hi, e, ps, host, hostP, rfl⟩

theorem State.Hosts.ite {c : Prop} [Decidable c] (ht : s.Hosts keep t) (hu : s.Hosts keep u) : s.Hosts keep (if c then t else u) := by
  split
  · exact ht
  · exact hu

theorem State.Hosts.ite_fst {β : Type} {c : Prop} [Decidable c] {x y : State × β} (hx : s.Hosts keep x.1) (hy : s.Hosts keep y.1) :
    s.Hosts keep (if c then x else y).1 := by
  split
  · exact hx
  · exact hy

theorem State.Hosts.foldl {α : Type} {f : State → α → State} (h : ∀ s x, State.Hosts keep s (f s x)) (l : List α) (s : State) :
    s.Hosts keep (l.foldl f s) :=
  List.foldlRecOn (motive := fun t => s.Hosts keep t) l f (.refl s) fun t ht x _ => (h t x).after ht

theorem State.Hosts.foldl_fst {α β : Type} {f : State × β → α → State × β} (h : ∀ (a : State × β) (x : α), a.1.Hosts keep (f a x).1) (l : List α) (a : State × β) :
    a.1.Hosts keep (l.foldl f a).1 :=
  List.foldlRecOn (motive := fun b => a.1.Hosts keep b.1) l f (.refl a.1) fun b hb x _ => (h b x).after hb

theorem State.Hosts.hif (s : State) {h : HifRegs} (hduty : h.duty = s.hif.duty) : s.Hosts keep { s with hif := h } :=
  ⟨⟨h, s.es, s.parts, s.data.host, s.data.hostP, rfl⟩, hduty, fun _ => rfl⟩
theorem State.Hosts.es (s : State) (e : EsRegs) : s.Hosts keep { s with es := e } :=
  ⟨⟨s.hif, e, s.parts, s.data.host, s.data.hostP, rfl⟩, rfl, fun _ => rfl⟩
theorem State.hosts_hostWrite (s : State) (a : Nat) (bs : List Byte) : s.Hosts keep (s.hostWrite a bs) :=
  ⟨⟨s.hif, s.es, s.parts, _, _, rfl⟩, rfl, fun _ => rfl⟩
theorem State.hosts_hostStores (s : State) (l : List HostStore) : s.Hosts keep (s.hostStores l) :=
  ⟨⟨s.hif, s.es, s.parts, _, _, rfl⟩, rfl, fun _ => rfl⟩
theorem State.hosts_modPart (s : State) (p : Nat) (f : Part → Part) : s.Hosts False (s.modPart p f) :=
  ⟨⟨s.hif, s.es, _, s.data.host, s.data.hostP, rfl⟩, rfl, False.elim⟩
theorem State.hosts_enterLost (s : State) : s.Hosts keep s.enterLost := by
  obtain ⟨e, h⟩ := s.enterLost_frame
  exact h ▸ .es s e
theorem State.hosts_post (s : State) (ty : Nat) (p : Option Nat) (src aux det : Nat) : s.Hosts keep (s.post ty p src aux det) := by
  obtain ⟨e, h⟩ := s.post_frame ty p src aux det
  exact h ▸ .es s e

/-! ## Records that go out (R408 to R412) -/

theorem State.hosts_putCr (s : State) (i : Nat) (r : Ring) : s.Hosts keep (s.putCr i r) := .hif s rfl
theorem State.hosts_putCq (s : State) (j : Nat) (r : Ring) : s.Hosts keep (s.putCq j r) := .hif s rfl
theorem State.hosts_putEq (s : State) (r : Ring) : s.Hosts keep (s.putEq r) := .hif s rfl
theorem State.hosts_writeDb (s : State) (r : Ring) (reason : Nat) : s.Hosts keep (s.writeDb r reason) := s.hosts_hostWrite _ _
theorem State.hosts_putRecord (s : State) (r : Ring) (f : Nat → List Byte) : s.Hosts keep (s.putRecord r f).1 := s.hosts_hostWrite _ _
theorem State.hosts_due (s : State) (k : Nat) (r : Ring) : s.Hosts keep (s.due k r) := by
  unfold State.due
  exact .ite (.hif s rfl) (.refl s)

theorem hosts_flushCompl (l kept : List Compl) (full : List Nat) (s : State) : s.Hosts keep (flushCompl l kept full s) := by
  induction l generalizing kept full s with
  | nil => exact .hif s rfl
  | cons c l ih =>
    unfold flushCompl
    dsimp only
    split
    · exact ih ..
    · exact (ih ..).after ((State.hosts_due ..).after ((State.hosts_writeDb ..).after ((State.hosts_putCq ..).after (s.hosts_putRecord ..))))

theorem hosts_flushEvents (l : List Event) (s : State) : s.Hosts keep (flushEvents l s) := by
  induction l generalizing s with
  | nil => exact .refl s
  | cons e l ih =>
    unfold flushEvents
    dsimp only
    split
    · exact (ih _).after ((State.hosts_due ..).after ((State.hosts_writeDb ..).after ((State.hosts_putEq ..).after
        ((State.Hosts.es ..).after (s.hosts_putRecord s.eqOf e.bytes)))))
    · exact .refl s

theorem State.hosts_flush (s : State) : s.Hosts keep s.flush := by
  unfold State.flush
  split
  · exact .refl s
  · extract_lets s1 s2 s3 s4
    have h1 : s.Hosts keep s1 := hosts_flushCompl ..
    have h2 : s.Hosts keep s2 := (State.hosts_enterLost _).after ((hosts_flushEvents s1.es.buffer s1).after h1)
    have h3 : s.Hosts keep s3 := (hosts_flushEvents s2.es.buffer s2).after h2
    exact .ite ((State.hosts_hostWrite ..).after (.after (.hif s3 rfl) h3)) h3

theorem State.hosts_openRings (s : State) : s.Hosts keep s.openRings := by
  unfold State.openRings
  extract_lets s1 s2 r s3
  have h1 : s.Hosts keep s1 := .foldl (fun s _ => .ite ((State.hosts_writeDb ..).after (s.hosts_putCr ..)) (.refl s)) _ _
  have h2 : s.Hosts keep s2 := .after (.foldl (fun s _ => .ite ((State.hosts_writeDb ..).after (s.hosts_putCq ..)) (.refl s)) _ _) h1
  have h3 : s.Hosts keep s3 := (State.hosts_writeDb ..).after ((State.hosts_putEq ..).after h2)
  exact .after (.hif s3 rfl) h3

theorem State.hosts_sendVector (s : State) (v : Nat) : s.Hosts keep (s.sendVector v) := by
  unfold State.sendVector
  exact .ite (.hif s rfl) (.hif s rfl)

theorem State.hosts_sendPending (s : State) : s.Hosts keep s.sendPending := by
  unfold State.sendPending
  exact .foldl (fun s v => .ite (.refl s) (s.hosts_sendVector v)) _ _

/-- What a state that the interface served keeps. -/
theorem State.Hosts.rest (h : s.Hosts keep t) : t.data.dev = s.data.dev ∧ t.data.core = s.data.core ∧ t.num = s.num ∧ t.mem = s.mem ∧
    t.rst = s.rst ∧ t.lnk = s.lnk ∧ t.pwr = s.pwr ∧ t.sec = s.sec := by
  obtain ⟨_, _, _, _, _, rfl⟩ := h.frame
  exact ⟨rfl, rfl, rfl, rfl, rfl, rfl, rfl, rfl⟩

end

/-- A change of POLL, and what goes out then. -/
theorem State.setPoll_flush (s : State) (v : Bool) : ((s.setPoll v).flush).hif.poll = v ∧ ((s.setPoll v).flush).hif.sleeping = !v ∧
    ((s.setPoll v).flush).hif.quiet = 0 ∧ ((s.setPoll v).flush).hif.enable = s.hif.enable ∧ ((s.setPoll v).flush).parts = s.parts ∧
    ((s.setPoll v).flush).data.dev = s.data.dev ∧ ((s.setPoll v).flush).rst = s.rst ∧ ((s.setPoll v).flush).num = s.num ∧
    ((s.setPoll v).flush).mem = s.mem ∧ ((s.setPoll v).flush).pwr = s.pwr := by
  have hserves : (s.setPoll v).Hosts True (s.setPoll v).flush := (s.setPoll v).hosts_flush
  obtain ⟨hdev, -, hnum, hmem, hrst, -, hpwr, -⟩ := hserves.rest
  have hduty : (s.setPoll v).flush.hif.duty = (v, !v, 0, s.hif.enable, s.hif.bme, s.hif.d3) := hserves.duty
  simp only [HifRegs.duty, Prod.mk.injEq] at hduty
  obtain ⟨hpoll, hsleeping, hquiet, henable, -, -⟩ := hduty
  exact ⟨hpoll, hsleeping, hquiet, henable, hserves.parts trivial, hdev, hrst, hnum, hmem, hpwr⟩

/-! ## Enable and disable (R423 to R425) -/

theorem State.startRings_rest (s : State) : s.startRings.hif.enable = true ∧ s.startRings.hif.poll = true ∧ s.startRings.hif.sleeping = false ∧
    s.startRings.parts = s.parts ∧ s.startRings.data.dev = s.data.dev ∧ s.startRings.rst = s.rst := by
  unfold State.startRings
  dsimp only
  have hu : s.Hosts True (if s.hostUp then s.openRings else { s with hif := { s.hif with ringsDue := true } }) := .ite s.hosts_openRings (.hif s rfl)
  generalize (if s.hostUp then s.openRings else { s with hif := { s.hif with ringsDue := true } }) = u at hu ⊢
  obtain ⟨hdev, -, -, -, hrst, -⟩ := hu.rest
  obtain ⟨hpoll, hsleeping, -, henable, hparts, hdev', hrst', -⟩ :=
    ({ u with hif := { u.hif with enable := true, wasEnabled := true } } : State).setPoll_flush true
  exact ⟨henable, hpoll, hsleeping, hparts.trans (hu.parts trivial), hdev'.trans hdev, hrst'.trans hrst⟩

section
variable {s : State} (hd3 : (s.dom 3).st ≠ .off)
include hd3

theorem exec_hifEnable_on (hon : s.hif.enable = true) : exec .hifEnable s = .next s := by
  refine (State.direct_on (fun s => (s.hifTryEnable false).2) hd3).trans (congrArg Host.Outcome.next ?_)
  unfold State.hifTryEnable
  rw [if_pos hon]

theorem exec_hifEnable_served (hoff : s.hif.enable = false) (hcode : s.hifCode = 0) : exec .hifEnable s = .next s.startRings := by
  refine (State.direct_on (fun s => (s.hifTryEnable false).2) hd3).trans (congrArg Host.Outcome.next ?_)
  unfold State.hifTryEnable
  rw [if_neg (by simp [hoff])]
  dsimp only
  rw [if_pos hcode]

theorem exec_hifEnable_refused (hoff : s.hif.enable = false) (hcode : s.hifCode ≠ 0) : exec .hifEnable s =
    .next (({ s with hif := { s.hif with reason := BitVec.ofNat 16 s.hifCode } } : State).enableRefused s.hifCode 0x10) := by
  refine (State.direct_on (fun s => (s.hifTryEnable false).2) hd3).trans (congrArg Host.Outcome.next ?_)
  unfold State.hifTryEnable
  rw [if_neg (by simp [hoff])]
  dsimp only
  rw [if_neg hcode]
  rfl

theorem exec_hifDisable_served (hon : s.hif.enable = true) (hrun : s.rst.state ≠ .run) (hcmd : s.cmdInProgress = false) : exec .hifDisable s =
    .next { (if s.hif.poll then (s.setPoll false).flush else s) with
      hif := { (if s.hif.poll then (s.setPoll false).flush else s).hif with
        enable := false, ringsDue := false, poll := false, sleeping := false, quiet := 0, msixDue := [] } } := by
  refine (State.direct_on (fun s => (s.hifTryDisable false).2) hd3).trans (congrArg Host.Outcome.next ?_)
  unfold State.hifTryDisable
  rw [if_neg (by simp [hon]), if_neg (by simp [hrun, hcmd])]

theorem exec_hifDisable_refused (hon : s.hif.enable = true) (h : s.rst.state = .run ∨ s.cmdInProgress = true) :
    exec .hifDisable s = .next { s with hif := { s.hif with reason := 0x109 } } := by
  refine (State.direct_on (fun s => (s.hifTryDisable false).2) hd3).trans (congrArg Host.Outcome.next ?_)
  unfold State.hifTryDisable
  rw [if_neg (by simp [hon]), if_pos (by simpa using h)]
  rfl

end

/-! ## The host link (R395 to R397) -/

/-- An entry of the vector table masked again; one that is all zero is not kept. -/
def maskEntry (e : Nat × BitVec 128) : Option (Nat × BitVec 128) :=
  let v := e.2 &&& ~~~(1#128 <<< 96)
  if v = 0 then none else some (e.1, v)

theorem getLsbD_maskTable (l : Tab (BitVec 128)) (v : Nat) : (tget (0 : BitVec 128) (l.filterMap maskEntry) v).getLsbD 96 = false := by
  have hbit : ∀ x : BitVec 128, (x &&& ~~~(1#128 <<< 96)).getLsbD 96 = false := fun x => by simp
  induction l with
  | nil => exact BitVec.getLsbD_zero
  | cons e l ih =>
    rw [List.filterMap_cons]
    cases he : maskEntry e with
    | none => exact ih
    | some e' =>
      have he' : e' = (e.1, e.2 &&& ~~~(1#128 <<< 96)) := by
        unfold maskEntry at he
        dsimp only at he
        split at he
        · cases he
        · exact (Option.some.inj he).symm
      rw [he', tget]
      split
      · exact hbit _
      · exact ih

/-- The link as a reset of it leaves it. -/
def State.linkReset (s : State) : State :=
  { s with hif := { s.hif with bme := false, d3 := false, rate := 0, width := 0, flitMode := false, ideCap := false,
                               msixTable := s.hif.msixTable.filterMap maskEntry }
           sec := { s.sec with keysets := [], kemPair := none, ideSecure := false } }

theorem exec_hostLinkReset {s : State} (hd3 : s.domOn 3 = true) : exec .hostLinkReset s = .next (s.linkReset.post 0x402 none ccAgent 0x131 0) := by
  change execHostLinkReset s = _
  unfold execHostLinkReset
  rw [if_neg (by simp [hd3])]
  rfl

theorem exec_hostLinkReset_off {s : State} (hd3 : s.domOn 3 = false) : exec .hostLinkReset s = .next s := by
  change execHostLinkReset s = _
  unfold execHostLinkReset
  rw [if_pos (by simp [hd3])]

theorem exec_hostLinkDegraded_off {s : State} (hd3 : s.domOn 3 = false) (rate width : Nat) : exec (.hostLinkDegraded rate width) s = .next s :=
  congrArg Host.Outcome.next (if_pos (by simp [hd3]))

theorem hostLinkReset_acts {s : State} (hd3 : s.domOn 3 = true) : ∃ t, exec .hostLinkReset s = .next t ∧ t.hif.bme = false ∧ t.hif.d3 = false ∧
    t.hif.rate = 0 ∧ t.hif.width = 0 ∧ (∀ v, t.msixMasked v = true) ∧ t.sec.keysets = [] ∧ t.sec.kemPair = none ∧ t.sec.ideSecure = false ∧
    t.hif.enable = s.hif.enable ∧ t.hif.cr = s.hif.cr ∧ t.hif.cq = s.hif.cq ∧ t.hif.queue = s.hif.queue ∧ t.parts = s.parts ∧ t.data = s.data := by
  obtain ⟨e, hpost⟩ := s.linkReset.post_frame 0x402 none ccAgent 0x131 0
  refine ⟨_, exec_hostLinkReset hd3, ?_⟩
  rw [hpost]
  refine ⟨rfl, rfl, rfl, rfl, fun v => ?_, rfl, rfl, rfl, rfl, rfl, rfl, rfl, rfl, rfl⟩
  exact congrArg Bool.not (getLsbD_maskTable s.hif.msixTable v)

theorem hostLinkDegraded_acts {s : State} {rate width : Nat} (hlo : 1 ≤ rate) (hhi : rate ≤ 7)
    (hwidth : ([1, 2, 4, 8, 16] : List Nat).contains width = true) (hd3 : s.domOn 3 = true) :
    ∃ t, exec (.hostLinkDegraded rate width) s = .next t ∧ t.hif = { s.hif with rate := rate, width := width, flitMode := rate == 7 } ∧
      (s.hif.wasEnabled = false ∨ (rate = 7 ∧ width = 16) → t.es = s.es) ∧ ({ t with hif := s.hif, es := s.es } : State) = s := by
  have hlo' : ¬ rate < 1 := by omega
  have hhi' : ¬ 7 < rate := by omega
  have hexec : exec (.hostLinkDegraded rate width) s = .next _ := congrArg Host.Outcome.next (if_neg (by simp only [hwidth, hd3]; simp [hlo', hhi']))
  refine ⟨_, hexec, ?_⟩
  dsimp only
  split
  · next hpost =>
    obtain ⟨e, h⟩ := ({ s with hif := { s.hif with rate := rate, width := width, flitMode := rate == 7 } } : State).post_frame
      0x403 none ccAgent 0x130 (rate + width * 256)
    rw [h]
    refine ⟨rfl, fun hquiet => ?_, rfl⟩
    simp only [Bool.and_eq_true, Bool.or_eq_true, decide_eq_true_eq] at hpost
    obtain hoff | ⟨h7, h16⟩ := hquiet
    · exact absurd (hoff.symm.trans hpost.1) Bool.false_ne_true
    · exact absurd hpost.2 (by simp [h7, h16])
  · exact ⟨rfl, fun _ => rfl, rfl⟩

/-! ## Requests that go out again (R395, R396) -/

theorem State.readReplica_frame (s : State) (p : Nat) : ∃ c ps, s.readReplica p = { s with cc := c, parts := ps } := by
  unfold State.readReplica
  dsimp only
  split
  · exact ⟨_, s.parts, rfl⟩
  · exact ⟨_, _, rfl⟩

theorem State.readReplicas_frame (s : State) (l : List Nat) : ∃ c ps, l.foldl (fun s p => s.readReplica p) s = { s with cc := c, parts := ps } := by
  refine List.foldlRecOn (motive := fun t => ∃ c ps, t = { s with cc := c, parts := ps }) l (fun s p => s.readReplica p) ⟨s.cc, s.parts, rfl⟩ fun t ht p _ => ?_
  obtain ⟨_, _, rfl⟩ := ht
  exact State.readReplica_frame _ p

theorem State.hostAgain_rest (s : State) : s.hostAgain.hif.duty = s.hif.duty ∧ s.hostAgain.data.dev = s.data.dev ∧
    (s.cc.replicaDue = [] → s.hostAgain.parts = s.parts) := by
  unfold State.hostAgain
  split
  · exact ⟨rfl, rfl, fun _ => rfl⟩
  · have hopen : s.Hosts True (if s.hif.ringsDue then s.openRings else s) := .ite s.hosts_openRings (.refl s)
    generalize (if s.hif.ringsDue then s.openRings else s) = u at hopen ⊢
    have hsend : ∀ v : State, v.Hosts True v.flush.sendPending := fun v => v.flush.hosts_sendPending.after v.hosts_flush
    obtain ⟨c, ps, hread⟩ := u.readReplicas_frame s.cc.replicaDue
    refine ⟨?_, ?_, fun hdue => ?_⟩
    · rw [(hsend _).duty, hread]
      exact hopen.duty
    · rw [(hsend _).rest.1, hread]
      exact hopen.rest.1
    · rw [(hsend _).parts trivial, hdue]
      exact hopen.parts trivial

theorem busMasterEnable_acts {s : State} (h : s.hif.rate ≠ 0) : ∃ t, exec .busMasterEnable s = .next t ∧ t.hif.bme = true ∧
    (s.cc.replicaDue = [] → t.parts = s.parts) ∧ t.data.dev = s.data.dev := by
  obtain ⟨hduty, hdev, hparts⟩ := ({ s with hif := { s.hif with bme := true, ideCap := true } } : State).hostAgain_rest
  have hexec : exec .busMasterEnable s = .next _ := congrArg Host.Outcome.next (if_neg h)
  exact ⟨_, hexec, congrArg (fun d : Bool × Bool × Nat × Bool × Bool × Bool => d.2.2.2.2.1) hduty, hparts, hdev⟩

theorem d0Return_acts (s : State) : ∃ t, exec .d0Return s = .next t ∧ t.hif.d3 = false ∧ (s.cc.replicaDue = [] → t.parts = s.parts) ∧
    t.data.dev = s.data.dev := by
  obtain ⟨hduty, hdev, hparts⟩ := ({ s with hif := { s.hif with d3 := false } } : State).hostAgain_rest
  exact ⟨_, rfl, congrArg (fun d : Bool × Bool × Nat × Bool × Bool × Bool => d.2.2.2.2.2) hduty, hparts, hdev⟩

/-- Settles O48: the check decides over the enable, and what goes out touches host memory, its own registers and the event sequencer alone. -/
theorem hostInterfaceAndLink : Obligations.HostInterfaceAndLink := by
  unfold Obligations.HostInterfaceAndLink
  refine ⟨fun s hd3 hoff => ⟨fun hcode => ?_, fun hcode => ?_⟩, fun s hd3 hon => ⟨exec_hifEnable_on hd3 hon, fun hrun hcmd => ?_, exec_hifDisable_refused hd3 hon⟩,
    fun s hd3 => ⟨exec_hostLinkReset_off hd3, exec_hostLinkDegraded_off hd3⟩, fun s hd3 => hostLinkReset_acts hd3,
    fun s rate width hlo hhi hwidth hd3 => hostLinkDegraded_acts hlo hhi hwidth hd3, fun s h => busMasterEnable_acts h, fun s => rfl, d0Return_acts⟩
  · exact ⟨_, exec_hifEnable_served hd3 hoff hcode, s.startRings_rest⟩
  · obtain ⟨e, hpost⟩ := ({ s with hif := { s.hif with reason := BitVec.ofNat 16 s.hifCode } } : State).post_frame 0x404 none ccAgent s.hifCode 0x10
    refine ⟨_, exec_hifEnable_refused hd3 hoff hcode, ?_⟩
    rw [State.enableRefused, hpost]
    exact ⟨rfl, rfl⟩
  · have hu : (if s.hif.poll then (s.setPoll false).flush else s).parts = s.parts ∧
        (if s.hif.poll then (s.setPoll false).flush else s).data.dev = s.data.dev ∧ (if s.hif.poll then (s.setPoll false).flush else s).rst = s.rst := by
      obtain ⟨-, -, -, -, hparts, hdev, hrst, -⟩ := s.setPoll_flush false
      split
      · exact ⟨hparts, hdev, hrst⟩
      · exact ⟨rfl, rfl, rfl⟩
    exact ⟨hu.1, hu.2.1, hu.2.2, exec_hifDisable_served hd3 hon hrun hcmd⟩

end Sys2Proof.Machine
end

section
/-! O47: polling, nudges, the commands that act at their stamp, and MSI-X (R406, R407, R411 to R414, R417). -/
namespace Sys2Proof.Machine

open Sys2Proof

/-! ## Commands that act at their stamp (R417) -/

theorem State.actsNow_other {s : State} {c : Cmd} (h2 : c.op ≠ 2) (h3 : c.op ≠ 3) (h4 : c.op ≠ 4) : s.actsNow c = false := by
  have hop : ([2, 3, 4] : List Nat).contains c.op = false := by simp [h2, h3, h4]
  rw [State.actsNow, hop, Bool.false_and, Bool.false_and, Bool.false_and]

theorem State.actsNow_power {s : State} (h : s.pwr.cmd.isSome = true) (c : Cmd) : s.actsNow c = false := by
  have hpwr : s.pwr.cmd.isNone = false := by rw [← Option.not_isSome, h]; rfl
  rw [State.actsNow, hpwr, Bool.and_false, Bool.false_and, Bool.false_and]

theorem State.actsNow_alone {s : State} {c : Cmd} (hop : c.op = 2 ∨ c.op = 3 ∨ c.op = 4) (hfence : c.fence = false) (hpwr : s.pwr.cmd = none)
    (hqueue : s.hif.queue = []) : s.actsNow c = true := by
  have hop' : ([2, 3, 4] : List Nat).contains c.op = true := by simpa using hop
  rw [State.actsNow, hop', hpwr, hqueue, hfence]
  rfl

/-- A fetched command as its stamp makes it. -/
def State.stamped (s : State) (ring : Nat) (bytes : List Byte) : Cmd :=
  { ring := ring, tag := fld bytes 4 4, stamp := s.es.seq.toNat, time := s.es.time.toNat, bytes := bytes, pre := 0, acted := none }

/-- The interface with a command in its queue. -/
def HifRegs.enqueue (h : HifRegs) (c : Cmd) : HifRegs := { h with
  queue := h.queue ++ [c], history := h.history ++ [{ ring := c.ring, tag := c.tag, stamp := c.stamp, opcode := c.op, left := c.records, st := .queued }] }

section
variable {s : State} {ring : Nat} {bytes : List Byte} (hop : byteAt bytes 0 ≠ 1) (hop' : byteAt bytes 0 ≠ 0x14)
include hop hop'

theorem State.stampCmd_eq : s.stampCmd ring bytes =
    if s.stamp.2.actsNow (s.stamped ring bytes) then
      ({ s.stamp.2 with hif := s.hif.enqueue (s.stamped ring bytes) } : State).actStamped (s.stamped ring bytes)
    else { s.stamp.2 with hif := s.hif.enqueue (s.stamped ring bytes) } := by
  have h1 : ¬ (s.stamped ring bytes).op = 1 := hop
  have h14 : ¬ (decide ((s.stamped ring bytes).op = 0x14) && (s.stamped ring bytes).valid) = true := by
    rw [decide_eq_false (show ¬ (s.stamped ring bytes).op = 0x14 from hop'), Bool.false_and]
    exact Bool.false_ne_true
  unfold State.stampCmd
  dsimp -zeta only
  extract_lets c0 old c now hif u w hif' v
  have hc : c = s.stamped ring bytes := congrArg (fun p : Nat => ({ s.stamped ring bytes with pre := p } : Cmd)) (if_neg h14)
  have hu : u = { s.stamp.2 with hif := s.hif.enqueue c } := rfl
  have hswitch : ¬ (decide (c.op = 0x14) && c.valid && decide (c.pre = 0)) = true := fun h => h14 (Bool.and_eq_true_iff.1 h).1
  have hnow : now = s.stamp.2.actsNow c := rfl
  rw [if_neg (show ¬ c.op = 1 from h1), if_neg hswitch, hnow, hu, hc]

theorem State.stampCmd_waits (h : s.stamp.2.actsNow (s.stamped ring bytes) = false) :
    s.stampCmd ring bytes = { s.stamp.2 with hif := s.hif.enqueue (s.stamped ring bytes) } := by
  rw [State.stampCmd_eq hop hop', if_neg (by rw [h]; exact Bool.false_ne_true)]

theorem State.stampCmd_acts (h : s.stamp.2.actsNow (s.stamped ring bytes) = true) :
    s.stampCmd ring bytes = ({ s.stamp.2 with hif := s.hif.enqueue (s.stamped ring bytes) } : State).actStamped (s.stamped ring bytes) := by
  rw [State.stampCmd_eq hop hop', if_pos h]

end

/-- Every command in the queue with the stamp of one that has acted keeps what it did. -/
theorem State.actStamped_keeps (s : State) (c : Cmd) : ∀ q ∈ (s.actStamped c).hif.queue, q.stamp = c.stamp → q.acted = some (s.act c).1 := by
  intro q hq hstamp
  obtain ⟨q', -, rfl⟩ := List.mem_map.1 hq
  split at hstamp
  · next hq' => rw [if_pos hq']
  · next hq' => exact absurd hstamp hq'

/-! ## A pass (R406, R412) -/

/-- No command that is fetched now acts at its stamp: a POWER is in progress, or none is fetched. -/
def State.Withheld (s : State) : Prop := s.pwr.cmd.isSome = true ∨ fetchState s.rst.state = false

theorem State.Hosts.withheld {keep : Prop} {s t : State} (h : s.Hosts keep t) (hs : s.Withheld) : t.Withheld := by
  obtain ⟨-, -, -, -, hrst, -, hpwr, -⟩ := h.rest
  rw [State.Withheld, hpwr, hrst]
  exact hs

theorem State.hosts_stamp {keep : Prop} (s : State) : s.Hosts keep s.stamp.2 := .es s _
theorem State.hosts_complete {keep : Prop} (s : State) (ring tag stamp part status reason value detail : Nat) :
    s.Hosts keep (s.complete ring tag stamp part status reason value detail) := by
  unfold State.complete
  exact .after (.hif s.stamp.2 rfl) s.hosts_stamp

theorem State.hosts_completeAll {keep : Prop} (s : State) (c : Cmd) (status reason : Nat) : s.Hosts keep (s.completeAll c status reason) := by
  unfold State.completeAll
  exact .ite (.foldl (fun s _ => s.hosts_complete ..) _ _) (s.hosts_complete ..)

theorem State.hosts_dropSwitch {keep : Prop} (s : State) (stamp : Nat) : s.Hosts keep (s.dropSwitch stamp) := .hif s rfl

/-- ABORT's decision touches the host interface, and the requests that wait in the partitions' caches. -/
theorem State.hosts_abortDecide (s : State) (c : Cmd) : s.Hosts False (s.abortDecide c) := by
  unfold State.abortDecide
  extract_lets put r
  have hput {t : State} (ht : s.Hosts False t) (o : AbortOut) : s.Hosts False (put t o) := .after (.hif t rfl) ht
  clear_value put
  refine .ite (hput (.refl s) _) ?_
  split
  · exact hput (.refl s) _
  refine .ite (hput (.refl s) _) ?_
  split
  · exact hput (.refl s) _
  · split
    · refine .ite (hput (.refl s) _) (hput ?_ _)
      exact (State.hosts_completeAll ..).after ((State.hosts_dropSwitch ..).after (.hif s rfl))
    · exact hput (.refl s) _
  · refine .ite (hput ?_ _) (.ite ?_ (.ite ?_ (hput (.refl s) _)))
    · exact .hif s rfl
    · split
      · exact hput (.after (.foldl (fun s _ => s.hosts_complete ..) _ _) (s.hosts_dropSwitch _)) _
      · exact hput (.refl s) _
    · refine hput (.foldl (fun s p => ?_) _ _) _
      exact .after (.foldl (fun s _ => s.hosts_complete ..) _ _) (s.hosts_modPart p _)

theorem State.hosts_stampCmd {s : State} (h : s.pwr.cmd.isSome = true) (ring : Nat) (bytes : List Byte) : s.Hosts False (s.stampCmd ring bytes) := by
  have hnow : ∀ c, s.stamp.2.actsNow c = false := fun c => State.actsNow_power (s := s.stamp.2) h c
  unfold State.stampCmd
  dsimp only
  refine .ite ((State.hosts_abortDecide ..).after (.after (.hif s.stamp.2 rfl) s.hosts_stamp)) ?_
  rw [hnow, if_neg Bool.false_ne_true]
  exact .ite (.after (.hif _ rfl) (.after (.hif s.stamp.2 rfl) s.hosts_stamp)) (.after (.hif s.stamp.2 rfl) s.hosts_stamp)

theorem hosts_fetchRing (i fuel left : Nat) {s : State} (h : s.pwr.cmd.isSome = true) : s.Hosts False (fetchRing i fuel left s) := by
  induction fuel generalizing left s with
  | zero => exact .refl s
  | succ fuel ih =>
    refine .ite (.refl s) ?_
    have hput : ∀ r, s.Hosts False (s.putCr i r) := fun r => s.hosts_putCr i r
    have hstamp : ∀ r bytes, s.Hosts False ((s.putCr i r).stampCmd i bytes) := fun r bytes => (State.hosts_stampCmd (s := s.putCr i r) h i bytes).after (hput r)
    refine (ih _ ?_).after (hstamp _ _)
    obtain ⟨-, -, -, -, -, -, hpwr, -⟩ := (hstamp _ _).rest
    rw [hpwr]
    exact h

theorem hosts_pollRing {acc : State × Bool} (h : acc.1.Withheld) (i : Nat) : acc.1.Hosts False (pollRing acc i).1 := by
  unfold pollRing
  extract_lets s r d changed restart r' s1 s2 n reason r2 s3
  have h2 : acc.1.Hosts False s2 := .ite ((State.hosts_writeDb ..).after (State.hosts_putCr ..)) (State.hosts_putCr ..)
  refine .ite_fst (.refl _) (.ite_fst h2 (.ite_fst ?_ ?_))
  · exact (State.hosts_post ..).after ((State.hosts_writeDb ..).after ((State.hosts_putCr ..).after h2))
  · split
    · exact h2
    · next hfetch =>
      have hcmd : s2.pwr.cmd.isSome = true := by
        refine (h2.withheld h).resolve_right fun hoff => hfetch ?_
        rw [hoff]
        rfl
      exact (State.hosts_writeDb ..).after ((hosts_fetchRing _ _ _ hcmd).after h2)

theorem hosts_pollCq {keep : Prop} (acc : State × Bool) (j : Nat) : acc.1.Hosts keep (pollCq acc j).1 := by
  unfold pollCq
  dsimp only
  exact .ite_fst (.refl _) (State.hosts_putCq ..)

theorem hosts_pollRings {acc : State × Bool} (h : acc.1.Withheld) (l : List Nat) : acc.1.Hosts False (l.foldl pollRing acc).1 :=
  List.foldlRecOn (motive := fun b => acc.1.Hosts False b.1) l pollRing (.refl acc.1) fun _ hb i _ => (hosts_pollRing (hb.withheld h) i).after hb

theorem State.hosts_scanPass {s : State} (h : s.Withheld) : s.Hosts False s.scanPass.1 := by
  unfold State.scanPass
  extract_lets acc r d acc' acc2
  have h1 : s.Hosts False acc.1 := .foldl_fst (fun _ _ => hosts_pollCq ..) _ (s, false)
  have h2 : s.Hosts False acc'.1.flush := (State.hosts_flush ..).after ((State.hosts_putEq ..).after h1)
  have h3 : s.Hosts False acc2.1 := (hosts_pollRings (acc := (acc'.1.flush, acc'.2)) (h2.withheld h) ringNums).after h2
  exact (State.hosts_flush ..).after h3

theorem exec_pollPass_off {s : State} {stores : List HostStore} (h : (s.hostStores stores).polling = false) :
    exec (.pollPass stores) s = .next (s.hostStores stores) :=
  congrArg Host.Outcome.next (if_pos (by rw [h]; rfl))

theorem exec_pollPass {s : State} {stores : List HostStore} (h : (s.hostStores stores).polling = true) :
    exec (.pollPass stores) s = .next ((s.hostStores stores).scanPass.1.setQuiet (if (s.hostStores stores).scanPass.2 ||
      !(s.hostStores stores).scanPass.1.quietNow then 0 else (s.hostStores stores).scanPass.1.hif.quiet + 1)) :=
  congrArg Host.Outcome.next (if_neg (by rw [h]; exact Bool.false_ne_true))

theorem pollPass_keeps {s : State} (h : s.Withheld) (stores : List HostStore) (n : Nat) :
    ((s.hostStores stores).scanPass.1.setQuiet n).data.dev = s.data.dev ∧ ((s.hostStores stores).scanPass.1.setQuiet n).data.core = s.data.core ∧
    ((s.hostStores stores).scanPass.1.setQuiet n).num = s.num ∧ ((s.hostStores stores).scanPass.1.setQuiet n).mem = s.mem ∧
    ((s.hostStores stores).scanPass.1.setQuiet n).rst = s.rst ∧ ((s.hostStores stores).scanPass.1.setQuiet n).lnk = s.lnk ∧
    ((s.hostStores stores).scanPass.1.setQuiet n).pwr = s.pwr ∧ ((s.hostStores stores).scanPass.1.setQuiet n).sec = s.sec := by
  have hstores : s.Hosts False (s.hostStores stores) := s.hosts_hostStores stores
  have hpass := (State.hosts_scanPass (hstores.withheld h)).after hstores
  exact hpass.rest

/-! ## The end of polling, and a nudge (R413, R414) -/

/-- The final pass, with POLL 0 advertised. -/
def State.finalPass (s : State) (stores : List HostStore) : State × Bool := (((s.setPoll false).flush).hostStores stores).scanPass

theorem exec_pollSleep {s : State} (hpolling : s.polling = true) (hquiet : quietPasses ≤ s.hif.quiet) (stores : List HostStore) :
    exec (.pollSleep stores) s =
      .next (if (s.finalPass stores).2 = true then ((s.finalPass stores).1.setPoll true).flush else (s.finalPass stores).1) :=
  congrArg Host.Outcome.next (if_neg (by rw [hpolling]; simpa using hquiet))

theorem pollSleep_keeps {s : State} (h : s.Withheld) (stores : List HostStore) {t : State}
    (ht : t = if (s.finalPass stores).2 = true then ((s.finalPass stores).1.setPoll true).flush else (s.finalPass stores).1) :
    t.hif.poll = (s.finalPass stores).2 ∧ t.hif.sleeping = !(s.finalPass stores).2 ∧ t.hif.quiet = 0 ∧ t.data.dev = s.data.dev ∧ t.num = s.num ∧
    t.mem = s.mem ∧ t.rst = s.rst := by
  obtain ⟨hpoll, hsleeping, hquiet, -, -, hdev, hrst, hnum, hmem, hpwr⟩ := s.setPoll_flush false
  have hstores : ((s.setPoll false).flush).Hosts False (((s.setPoll false).flush).hostStores stores) := State.hosts_hostStores _ stores
  have hwithheld : ((s.setPoll false).flush).Withheld := by
    rw [State.Withheld, hpwr, hrst]
    exact h
  have hpass : ((s.setPoll false).flush).Hosts False (s.finalPass stores).1 := (State.hosts_scanPass (hstores.withheld hwithheld)).after hstores
  obtain ⟨hdev', -, hnum', hmem', hrst', -⟩ := hpass.rest
  have hduty := hpass.duty
  simp only [HifRegs.duty, Prod.mk.injEq] at hduty
  obtain ⟨hpoll', hsleeping', hquiet', -⟩ := hduty
  cases hchanged : (s.finalPass stores).2 with
  | true =>
    rw [hchanged, if_pos rfl] at ht
    obtain ⟨hpoll2, hsleeping2, hquiet2, -, -, hdev2, hrst2, hnum2, hmem2, -⟩ := (s.finalPass stores).1.setPoll_flush true
    rw [ht]
    exact ⟨hpoll2, hsleeping2, hquiet2, (hdev2.trans hdev').trans hdev, (hnum2.trans hnum').trans hnum, (hmem2.trans hmem').trans hmem,
      (hrst2.trans hrst').trans hrst⟩
  | false =>
    rw [hchanged, if_neg Bool.false_ne_true] at ht
    rw [ht]
    exact ⟨hpoll'.trans hpoll, hsleeping'.trans hsleeping, hquiet'.trans hquiet, hdev'.trans hdev, hnum'.trans hnum, hmem'.trans hmem, hrst'.trans hrst⟩

theorem exec_nudge {s : State} (hd3 : (s.dom 3).st ≠ .off) : exec .nudge s = .next s.nudged := State.direct_on State.nudged hd3

theorem State.nudged_wakes {s : State} (hon : s.hif.enable = true) (hpoll : s.hif.poll = false) (hd3 : s.hif.d3 = false) :
    s.nudged = (s.setPoll true).flush := by
  unfold State.nudged
  rw [if_pos (by rw [hon, hpoll, hd3]; rfl)]

theorem State.nudged_idle {s : State} (h : s.hif.enable = false ∨ s.hif.poll = true ∨ s.hif.d3 = true) : s.nudged = s := by
  unfold State.nudged
  rw [if_neg]
  obtain h | h | h := h <;> rw [h] <;> simp

/-! ## MSI-X (R411) -/

theorem State.sendVector_rest (s : State) (v : Nat) : (s.sendVector v).hif.msixDue = s.hif.msixDue ∧
    tget false (s.sendVector v).hif.msixPending v = s.msixMasked v ∧
    (s.sendVector v).hif.msixSent = (if s.msixMasked v then s.hif.msixSent else v :: s.hif.msixSent) ∧
    (∀ w, w ≠ v → tget false (s.sendVector v).hif.msixPending w = tget false s.hif.msixPending w) ∧ (s.sendVector v).data = s.data := by
  unfold State.sendVector
  cases s.msixMasked v with
  | true => exact ⟨rfl, tget_tset_same false true s.hif.msixPending v, rfl, fun w hw => tget_tset_ne false true s.hif.msixPending hw, rfl⟩
  | false => exact ⟨rfl, tget_tset_same false false s.hif.msixPending v, rfl, fun w hw => tget_tset_ne false false s.hif.msixPending hw, rfl⟩

/-- The state in which a ring's message goes out: once a microsecond at most for a ring. -/
def State.msixAt (s : State) (ring : Nat) : State := if tget 0 s.hif.msixLast ring = 0 then s else s.toNs (tget 0 s.hif.msixLast ring - 1 + 1000)

/-- A ring's message is due no more. -/
def State.msixTaken (s : State) (ring : Nat) : State :=
  { s with hif := { s.hif with msixDue := s.hif.msixDue.erase ring, msixLast := tset 0 s.hif.msixLast ring (s.ns + 1) } }

theorem exec_msixSend {s : State} {ring : Nat} (hon : s.hif.enable = true) (hup : s.hostUp = true) (hdue : s.hif.msixDue.contains ring = true) :
    exec (.msixSend ring) s = .next (((s.msixAt ring).msixTaken ring).sendVector (if ring = 64 then s.eqOf else s.cqOf ring).vector) :=
  congrArg Host.Outcome.next (if_pos (by rw [hon, hup, hdue]; rfl))

theorem State.msixAt_keeps (s : State) (ring : Nat) : (s.msixAt ring).hif = s.hif ∧ (s.msixAt ring).data = s.data := by
  unfold State.msixAt
  split
  · exact ⟨rfl, rfl⟩
  · obtain ⟨-, hdata, -, -, -, -, hhif, -⟩ := (s.drifts_toNs (tget 0 s.hif.msixLast ring - 1 + 1000)).frame
    exact ⟨hhif, hdata⟩

theorem State.msixTaken_rest (s : State) (ring : Nat) : (s.msixTaken ring).hif.msixDue = s.hif.msixDue.erase ring ∧
    (s.msixTaken ring).hif.msixPending = s.hif.msixPending ∧ (s.msixTaken ring).hif.msixSent = s.hif.msixSent ∧
    (s.msixTaken ring).hif.msixTable = s.hif.msixTable ∧ (s.msixTaken ring).data = s.data := ⟨rfl, rfl, rfl, rfl, rfl⟩

theorem msixSend_acts {s : State} {ring : Nat} (hon : s.hif.enable = true) (hup : s.hostUp = true) (hdue : s.hif.msixDue.contains ring = true) :
    let v := (if ring = 64 then s.eqOf else s.cqOf ring).vector
    ∃ t, exec (.msixSend ring) s = .next t ∧ t.hif.msixDue = s.hif.msixDue.erase ring ∧ tget false t.hif.msixPending v = s.msixMasked v ∧
      t.hif.msixSent = (if s.msixMasked v then s.hif.msixSent else v :: s.hif.msixSent) ∧
      (∀ w, w ≠ v → tget false t.hif.msixPending w = tget false s.hif.msixPending w) ∧ t.data = s.data := by
  intro v
  obtain ⟨hhif, hdata⟩ := s.msixAt_keeps ring
  obtain ⟨htaken, hpending, hsent, htable, hdata'⟩ := (s.msixAt ring).msixTaken_rest ring
  obtain ⟨hdue', hvector, hsent', hothers, hdata2⟩ := ((s.msixAt ring).msixTaken ring).sendVector_rest v
  have hmasked : ((s.msixAt ring).msixTaken ring).msixMasked v = s.msixMasked v := by
    rw [State.msixMasked, htable, hhif]
    rfl
  rw [hmasked] at hvector hsent'
  rw [hpending, hhif] at hothers
  rw [hsent, hhif] at hsent'
  rw [htaken, hhif] at hdue'
  exact ⟨_, exec_msixSend hon hup hdue, hdue', hvector, hsent', hothers, (hdata2.trans hdata').trans hdata⟩

/-- Settles O47: a pass, the stamp of a command, the end of polling, a nudge and a message, each from what its command makes of the state. -/
theorem hostPollsAndInterrupts : Obligations.HostPollsAndInterrupts := by
  unfold Obligations.HostPollsAndInterrupts
  refine ⟨fun s stores => ⟨exec_pollPass_off, fun hpolling => ?_⟩, fun s ring bytes hop hop' => ⟨fun hnow => ?_, fun hnow => ?_⟩,
    fun s c => State.actsNow_other, fun s c => State.actsNow_alone, fun s stores hpolling hquiet => ?_, fun s hd3 => ⟨fun hon hpoll hhot => ?_, fun h => ?_⟩,
    fun s ring => msixSend_acts⟩
  · exact ⟨_, exec_pollPass hpolling, rfl, fun h => pollPass_keeps h stores _⟩
  · rw [State.stampCmd_waits hop hop' hnow]
    exact ⟨rfl, rfl, rfl, rfl⟩
  · refine ⟨s.hif.enqueue (s.stamped ring bytes), _, rfl, State.stampCmd_acts hop hop' hnow, rfl, ?_⟩
    rw [State.stampCmd_acts hop hop' hnow]
    exact State.actStamped_keeps _ _
  · exact ⟨_, exec_pollSleep hpolling hquiet stores, rfl, fun h => pollSleep_keeps h stores rfl⟩
  · obtain ⟨hpoll', hsleeping, hquiet, -, hparts, hdev, -⟩ := s.setPoll_flush true
    exact ⟨_, (exec_nudge hd3).trans (congrArg Host.Outcome.next (State.nudged_wakes hon hpoll hhot)), hpoll', hsleeping, hquiet, hparts, hdev⟩
  · exact (exec_nudge hd3).trans (congrArg Host.Outcome.next (State.nudged_idle h))

end Sys2Proof.Machine
end
